-- ==== Sys2Proof/Word.lean ====
section
/-! DEFINITION. The plain types of the Cumus 7160: bytes, words, vectors, register names, addresses. -/

namespace Sys2Proof

/-- One byte of memory. -/
abbrev Byte := BitVec 8
/-- An instruction word (R53). -/
abbrev Word32 := BitVec 32
/-- The value of a scalar name or a state register: 64 bits (R24, R403). -/
abbrev Word := BitVec 64
/-- The value of a vector name: 512 bits (R24, R161). -/
abbrev Vec := BitVec 512
/-- A register name s0 to s31 or v0 to v31 (R57). -/
abbrev Reg := BitVec 5
/-- A mask name k0 to k7 (R57). -/
abbrev KReg := BitVec 3
/-- A read distance of a scalar operand (R26, R57). -/
abbrev Dist := BitVec 2
/-- A read distance of a vector operand (R57). -/
abbrev VDist := BitVec 1
/-- A cause code: class in [9:6], detail in [5:0] (R420). -/
abbrev Cause := BitVec 10
/-- A core's number: cluster in [11:4], station in [3:0] (R9), as a natural number. -/
abbrev CoreId := Nat
/-- A table by key: rows of key and value. -/
abbrev Tab (α : Type) := List (Nat × α)

end Sys2Proof
end

