-- ==== Sys2Proof/Syntax.lean ====
section
/-! DEFINITION. The instructions of the Cumus 7160 and the events of its device, with their operands. -/

namespace Sys2Proof

/-- Reach of an ordered access (R57): CORE, CLU, PKG, FAB, SYS. -/
inductive Scope where
  | core | clu | pkg | fab | sys
deriving DecidableEq, Repr, Inhabited

/-- Role of an atomic (R57). -/
inductive Order where
  | relaxed | acquire | release | acquireRelease
deriving DecidableEq, Repr, Inhabited

/-- Size of an F-MX access or of a vector memory element (R57): 8, 16, 32 or 64 bits. -/
inductive Size where
  | b | h | w | d
deriving DecidableEq, Repr, Inhabited

/-- Size of an atomic (R57): 32 or 64 bits. -/
inductive Wide where
  | w | d
deriving DecidableEq, Repr, Inhabited

/-- Precision of a scalar floating-point operation (R73). -/
inductive Prec where
  | f32 | f64
deriving DecidableEq, Repr, Inhabited

/-- Lane type of a VINT operation (R73). -/
inductive IntTy where
  | i8 | i16 | i32 | i64
deriving DecidableEq, Repr, Inhabited

/-- Lane type of a VFLT operation (R73). -/
inductive FltTy where
  | f32 | bf16 | f16
deriving DecidableEq, Repr, Inhabited

/-- A group of virtual cores (R67): its gang width, 0 for none, its count, and the COREIDs that the translator chooses for the
virtual cores in index order. -/
structure VGroup where
  gang : Nat
  count : Nat
  cores : List CoreId
deriving DecidableEq, Repr, Inhabited

/-- What the translator binds a channel to (R346): a message ring and its counter pair in the receiver's scratchpad, or the
slots of a schedule. -/
inductive ChanKind where
  | buffer (buf : Nat) (ctr : Nat)
  | phase (sched : Nat) (first : Nat) (step : Nat)
deriving DecidableEq, Repr, Inhabited

/-- A channel (R67, R68): the sender and the receiver as group and virtual index, the message size in bytes, the queue depth,
and the binding that the translator chooses. -/
structure ChanDecl where
  sender : Nat × Nat
  receiver : Nat × Nat
  bytes : Nat
  depth : Nat
  index : Nat
  kind : ChanKind
deriving DecidableEq, Repr, Inhabited

/-- A relocation record (R68): the offset of its word, or of the first of its four, in the text, and the form; groups and
channels by their place in the object. -/
inductive Reloc where
  | coreid (at_ : Nat) (group : Nat) (i : Nat)
  | lmaddr (at_ : Nat) (group : Nat) (i : Nat) (offset : Nat)
  | chan (at_ : Nat) (c : Nat)
deriving DecidableEq, Repr, Inhabited

/-- What an object declares in sections whose layout the manual does not give, and what the translator chooses (R66 to R69,
R346, R399, log 9): the resources in key order, the groups, the channels, the relocation records, the virtual bases and the
physical places of text, rodata and data, and the stack tops. -/
structure Placement where
  resources : List Nat
  groups : List VGroup
  channels : List ChanDecl
  relocs : List Reloc
  bases : List Word
  frames : List Nat
  stackTops : List (CoreId × Word)
deriving DecidableEq, Repr, Inhabited

/-- One instruction of the core, or one event of the device: a constructor for each row of the opcode map (R70 to R85)
and for each event that "What each step holds" lists. -/
inductive Instr where
  /-- ADD (R89): Writes d with the sum of a and b modulo 2^64. -/
  | add (d : Reg) (a : Reg) (da : Dist) (b : Reg) (db : Dist)
  /-- SUB (R89): Writes d with a minus b modulo 2^64. -/
  | sub (d : Reg) (a : Reg) (da : Dist) (b : Reg) (db : Dist)
  /-- MUL (R89): Writes d with the low 64 bits of a times b. -/
  | mul (d : Reg) (a : Reg) (da : Dist) (b : Reg) (db : Dist)
  /-- MULH (R89): Writes d with the high 64 bits of the signed product of a and b. -/
  | mulh (d : Reg) (a : Reg) (da : Dist) (b : Reg) (db : Dist)
  /-- MULHU (R89): Writes d with the high 64 bits of the unsigned product of a and b. -/
  | mulhu (d : Reg) (a : Reg) (da : Dist) (b : Reg) (db : Dist)
  /-- MADD (R89): Writes d with d plus a times b, low 64 bits. -/
  | madd (d : Reg) (a : Reg) (da : Dist) (b : Reg) (db : Dist)
  /-- DIV (R90): Signed division truncating toward zero, without trapping. -/
  | div (d : Reg) (a : Reg) (da : Dist) (b : Reg) (db : Dist)
  /-- DIVU (R90): Unsigned division, without trapping. -/
  | divu (d : Reg) (a : Reg) (da : Dist) (b : Reg) (db : Dist)
  /-- REM (R90): Signed remainder with the sign of the dividend. -/
  | rem (d : Reg) (a : Reg) (da : Dist) (b : Reg) (db : Dist)
  /-- REMU (R90): Unsigned remainder. -/
  | remu (d : Reg) (a : Reg) (da : Dist) (b : Reg) (db : Dist)
  /-- AND (R89): Writes d with a AND b. -/
  | and (d : Reg) (a : Reg) (da : Dist) (b : Reg) (db : Dist)
  /-- OR (R89): Writes d with a OR b. -/
  | or (d : Reg) (a : Reg) (da : Dist) (b : Reg) (db : Dist)
  /-- XOR (R89): Writes d with a XOR b. -/
  | xor (d : Reg) (a : Reg) (da : Dist) (b : Reg) (db : Dist)
  /-- ANDN (R89): Writes d with a AND NOT b. -/
  | andn (d : Reg) (a : Reg) (da : Dist) (b : Reg) (db : Dist)
  /-- SHL (R89): Shifts a left by b[5:0]. -/
  | shl (d : Reg) (a : Reg) (da : Dist) (b : Reg) (db : Dist)
  /-- SHR (R89): Shifts a right by b[5:0] with zero fill. -/
  | shr (d : Reg) (a : Reg) (da : Dist) (b : Reg) (db : Dist)
  /-- SRA (R89): Shifts a right by b[5:0] with sign fill. -/
  | sra (d : Reg) (a : Reg) (da : Dist) (b : Reg) (db : Dist)
  /-- ROL (R89): Rotates a left by b[5:0]. -/
  | rol (d : Reg) (a : Reg) (da : Dist) (b : Reg) (db : Dist)
  /-- MIN (R89): Writes the signed minimum of a and b. -/
  | min (d : Reg) (a : Reg) (da : Dist) (b : Reg) (db : Dist)
  /-- MAX (R89): Writes the signed maximum of a and b. -/
  | max (d : Reg) (a : Reg) (da : Dist) (b : Reg) (db : Dist)
  /-- MINU (R89): Writes the unsigned minimum of a and b. -/
  | minu (d : Reg) (a : Reg) (da : Dist) (b : Reg) (db : Dist)
  /-- MAXU (R89): Writes the unsigned maximum of a and b. -/
  | maxu (d : Reg) (a : Reg) (da : Dist) (b : Reg) (db : Dist)
  /-- SLT (R89): Writes 1 if a is less than b signed, else 0. -/
  | slt (d : Reg) (a : Reg) (da : Dist) (b : Reg) (db : Dist)
  /-- SLTU (R89): Writes 1 if a is less than b unsigned, else 0. -/
  | sltu (d : Reg) (a : Reg) (da : Dist) (b : Reg) (db : Dist)
  /-- SEQ (R89): Writes 1 if a equals b, else 0. -/
  | seq (d : Reg) (a : Reg) (da : Dist) (b : Reg) (db : Dist)
  /-- CLZ (R89): Counts leading zero bits of a. -/
  | clz (d : Reg) (a : Reg) (da : Dist)
  /-- CTZ (R89): Counts trailing zero bits of a. -/
  | ctz (d : Reg) (a : Reg) (da : Dist)
  /-- POPC (R89): Counts one bits of a. -/
  | popc (d : Reg) (a : Reg) (da : Dist)
  /-- SEXTB (R89): Sign-extends the low 8 bits of a. -/
  | sextb (d : Reg) (a : Reg) (da : Dist)
  /-- SEXTH (R89): Sign-extends the low 16 bits of a. -/
  | sexth (d : Reg) (a : Reg) (da : Dist)
  /-- SEXTW (R89): Sign-extends the low 32 bits of a. -/
  | sextw (d : Reg) (a : Reg) (da : Dist)
  /-- BFX (R91): Extracts a bit field of a placed by b. -/
  | bfx (d : Reg) (a : Reg) (da : Dist) (b : Reg) (db : Dist)
  /-- BFI (R91): Inserts the low bits of a into a field of d placed by b. -/
  | bfi (d : Reg) (a : Reg) (da : Dist) (b : Reg) (db : Dist)
  /-- SEL (R89): Writes a if d is non-zero, else b. -/
  | sel (d : Reg) (a : Reg) (da : Dist) (b : Reg) (db : Dist)
  /-- ADDW (R89): Adds a and b in 32 bits and sign-extends. -/
  | addw (d : Reg) (a : Reg) (da : Dist) (b : Reg) (db : Dist)
  /-- SUBW (R89): Subtracts b from a in 32 bits and sign-extends. -/
  | subw (d : Reg) (a : Reg) (da : Dist) (b : Reg) (db : Dist)
  /-- ADDI (R92): Adds a sign-extended 14-bit immediate to a. -/
  | addi (d : Reg) (a : Reg) (da : Dist) (i : BitVec 14)
  /-- ANDI (R92): ANDs a with a sign-extended immediate. -/
  | andi (d : Reg) (a : Reg) (da : Dist) (i : BitVec 14)
  /-- ORI (R92): ORs a with a sign-extended immediate. -/
  | ori (d : Reg) (a : Reg) (da : Dist) (i : BitVec 14)
  /-- XORI (R92): XORs a with a sign-extended immediate. -/
  | xori (d : Reg) (a : Reg) (da : Dist) (i : BitVec 14)
  /-- SLTI (R92): Writes 1 if a is below the immediate, signed. -/
  | slti (d : Reg) (a : Reg) (da : Dist) (i : BitVec 14)
  /-- SLTIU (R92): Writes 1 if a is below the sign-extended immediate, unsigned. -/
  | sltiu (d : Reg) (a : Reg) (da : Dist) (i : BitVec 14)
  /-- SHLI (R93): Shifts a left by an immediate amount. -/
  | shli (d : Reg) (a : Reg) (da : Dist) (n : BitVec 6)
  /-- SHRI (R93): Shifts a right by an immediate amount with zero fill. -/
  | shri (d : Reg) (a : Reg) (da : Dist) (n : BitVec 6)
  /-- SRAI (R93): Shifts a right by an immediate amount with sign fill. -/
  | srai (d : Reg) (a : Reg) (da : Dist) (n : BitVec 6)
  /-- RORI (R93): Rotates a right by an immediate amount. -/
  | rori (d : Reg) (a : Reg) (da : Dist) (n : BitVec 6)
  /-- LUI (R94): Writes the sign-extended 21-bit immediate times 2^14. -/
  | lui (d : Reg) (i : BitVec 21)
  /-- ADPC (R94): Writes PC plus the immediate times 4. -/
  | adpc (d : Reg) (i : BitVec 21)
  /-- INSI (R95): Places a 16-bit value into one lane of d, optionally zeroing the rest. -/
  | insi (d : Reg) (p : BitVec 2) (z : BitVec 1) (i : BitVec 16)
  /-- BEQZ (R96): Branches when a is zero. -/
  | beqz (a : Reg) (da : Dist) (o : BitVec 16)
  /-- BNEZ (R96): Branches when a is non-zero. -/
  | bnez (a : Reg) (da : Dist) (o : BitVec 16)
  /-- BLTZ (R96): Branches when a is negative. -/
  | bltz (a : Reg) (da : Dist) (o : BitVec 16)
  /-- BGEZ (R96): Branches when a is non-negative. -/
  | bgez (a : Reg) (da : Dist) (o : BitVec 16)
  /-- BGTZ (R96): Branches when a is positive. -/
  | bgtz (a : Reg) (da : Dist) (o : BitVec 16)
  /-- BLEZ (R96): Branches when a is zero or negative. -/
  | blez (a : Reg) (da : Dist) (o : BitVec 16)
  /-- BODD (R96): Branches when bit 0 of a is set. -/
  | bodd (a : Reg) (da : Dist) (o : BitVec 16)
  /-- JMP (R97): Jumps by a signed word offset. -/
  | jmp (o : BitVec 26)
  /-- JAL (R97): Writes the return address to s31 and jumps. -/
  | jal (o : BitVec 26)
  /-- JR (R98): Jumps to the word address held in a. -/
  | jr (a : Reg) (da : Dist)
  /-- JALR (R98): Writes the return address to d and jumps to a. -/
  | jalr (d : Reg) (a : Reg) (da : Dist)
  /-- LCAR (R101): Records a pending carry declaration for the next LOOP. -/
  | lcar (b : Reg) (a : Reg) (da : Dist) (i : BitVec 11)
  /-- LOOP (R102): Starts a counted loop and re-bases its carried names. -/
  | loop (a : Reg) (da : Dist) (n : BitVec 11)
  /-- ENDIT (R103): Marks the end of an iteration and its retirement point. -/
  | endit
  /-- BRKIF (R104): Exits one or two loop levels when a is non-zero. -/
  | brkif (a : Reg) (da : Dist) (l : BitVec 11)
  /-- CONTIF (R105): Skips the rest of the iteration when a is non-zero. -/
  | contif (a : Reg) (da : Dist)
  /-- ITX (R106): Writes the iteration index of a loop level. -/
  | itx (d : Reg) (l : BitVec 11)
  /-- LSTAT (R107): Writes the exit status word X1 or X2. -/
  | lstat (d : Reg) (l : BitVec 11)
  /-- MOVD (R108): Reads a version at distance 0 to 7. -/
  | movd (d : Reg) (a : Reg) (m : BitVec 3)
  /-- FUSE (R110): Re-forms a split gang as a barrier. -/
  | fuse
  /-- SPLIT (R110): Dissolves the gang into independent members. -/
  | split
  /-- GANY (R111): Gang vote: 1 if any member's a is non-zero. -/
  | gany (d : Reg) (a : Reg) (da : Dist)
  /-- GALL (R111): Gang vote: 1 if every member's a is non-zero. -/
  | gall (d : Reg) (a : Reg) (da : Dist)
  /-- GIDX (R111): Writes the member's index in the gang. -/
  | gidx (d : Reg)
  /-- GBC (R111): Broadcasts member m's a to every member. -/
  | gbc (d : Reg) (a : Reg) (da : Dist) (m : BitVec 11)
  /-- GSUM (R111): Writes the gang-wide sum of a modulo 2^64. -/
  | gsum (d : Reg) (a : Reg) (da : Dist)
  /-- LB (R277): Loads a sign-extended byte. -/
  | lb (d : Reg) (a : Reg) (da : Dist) (o : BitVec 11)
  /-- LBU (R277): Loads a zero-extended byte. -/
  | lbu (d : Reg) (a : Reg) (da : Dist) (o : BitVec 11)
  /-- LH (R277): Loads a sign-extended halfword. -/
  | lh (d : Reg) (a : Reg) (da : Dist) (o : BitVec 11)
  /-- LHU (R277): Loads a zero-extended halfword. -/
  | lhu (d : Reg) (a : Reg) (da : Dist) (o : BitVec 11)
  /-- LW (R277): Loads a sign-extended word. -/
  | lw (d : Reg) (a : Reg) (da : Dist) (o : BitVec 11)
  /-- LWU (R277): Loads a zero-extended word. -/
  | lwu (d : Reg) (a : Reg) (da : Dist) (o : BitVec 11)
  /-- LD (R277): Loads a doubleword. -/
  | ld (d : Reg) (a : Reg) (da : Dist) (o : BitVec 11)
  /-- SB (R278): Stores the low byte of d. -/
  | sb (d : Reg) (a : Reg) (da : Dist) (o : BitVec 11)
  /-- SH (R278): Stores the low halfword of d. -/
  | sh (d : Reg) (a : Reg) (da : Dist) (o : BitVec 11)
  /-- SW (R278): Stores the low word of d. -/
  | sw (d : Reg) (a : Reg) (da : Dist) (o : BitVec 11)
  /-- SD (R278): Stores the doubleword d. -/
  | sd (d : Reg) (a : Reg) (da : Dist) (o : BitVec 11)
  /-- LDA (R280): Acquire load at a scope, never from L1 or a replica. -/
  | lda (d : Reg) (a : Reg) (da : Dist) (z : Size) (s : Scope)
  /-- STL (R281): Release store at a scope. -/
  | stl (d : Reg) (a : Reg) (da : Dist) (z : Size) (s : Scope)
  /-- LDRO (R280): Relaxed load served by the near slice, replicable and mergeable. -/
  | ldro (d : Reg) (a : Reg) (da : Dist) (z : Size) (s : Scope)
  /-- PREF (R280): Prefetches a line with no architectural effect. -/
  | pref (a : Reg) (da : Dist) (s : Scope) (n : BitVec 1)
  /-- STN (R281): Stores one nibble as a read-modify-write of its byte. -/
  | stn (d : Reg) (a : Reg) (da : Dist) (s : Scope) (h : BitVec 1)
  /-- STS (R281): Relaxed store that holds later accesses until performed. -/
  | sts (d : Reg) (a : Reg) (da : Dist) (z : Size) (s : Scope)
  /-- AMOSWP (R282): Atomically swaps b into memory. -/
  | amoswp (d : Reg) (a : Reg) (b : Reg) (o : Order) (s : Scope) (z : Wide)
  /-- AMOADD (R282): Atomically adds b to memory. -/
  | amoadd (d : Reg) (a : Reg) (b : Reg) (o : Order) (s : Scope) (z : Wide)
  /-- AMOAND (R282): Atomically ANDs b into memory. -/
  | amoand (d : Reg) (a : Reg) (b : Reg) (o : Order) (s : Scope) (z : Wide)
  /-- AMOOR (R282): Atomically ORs b into memory. -/
  | amoor (d : Reg) (a : Reg) (b : Reg) (o : Order) (s : Scope) (z : Wide)
  /-- AMOXOR (R282): Atomically XORs b into memory. -/
  | amoxor (d : Reg) (a : Reg) (b : Reg) (o : Order) (s : Scope) (z : Wide)
  /-- AMOMIN (R282): Atomic signed minimum. -/
  | amomin (d : Reg) (a : Reg) (b : Reg) (o : Order) (s : Scope) (z : Wide)
  /-- AMOMAX (R282): Atomic signed maximum. -/
  | amomax (d : Reg) (a : Reg) (b : Reg) (o : Order) (s : Scope) (z : Wide)
  /-- AMOMINU (R282): Atomic unsigned minimum. -/
  | amominu (d : Reg) (a : Reg) (b : Reg) (o : Order) (s : Scope) (z : Wide)
  /-- AMOMAXU (R282): Atomic unsigned maximum. -/
  | amomaxu (d : Reg) (a : Reg) (b : Reg) (o : Order) (s : Scope) (z : Wide)
  /-- CAS (R282): Atomic compare-and-swap, writing in both cases. -/
  | cas (d : Reg) (a : Reg) (b : Reg) (o : Order) (s : Scope) (z : Wide)
  /-- AMOFADD (R283): Atomic FP32 add rounded to nearest even. -/
  | amofadd (d : Reg) (a : Reg) (b : Reg) (o : Order) (s : Scope)
  /-- AMOINC (R282): Atomic bounded increment. -/
  | amoinc (d : Reg) (a : Reg) (b : Reg) (o : Order) (s : Scope) (z : Wide)
  /-- FENCE (R285): Orders earlier loads and stores before later ones at a scope. -/
  | fence (s : Scope)
  /-- FENCE_R (R285): Orders earlier loads before later accesses. -/
  | fenceR (s : Scope)
  /-- FENCE_W (R285): Orders earlier stores before later stores. -/
  | fenceW (s : Scope)
  /-- IFENCE (R244): Makes written instruction words take effect. -/
  | ifence (s : Scope)
  /-- FENCE_E (R242): Orders the core's engines against its own accesses. -/
  | fenceE (s : Scope)
  /-- FENCE_J (R285): Waits for every journal entry to resolve. -/
  | fenceJ (s : Scope)
  /-- FADD (R165): Scalar floating-point add. -/
  | fadd (d : Reg) (a : Reg) (da : Dist) (b : Reg) (db : Dist) (p : Prec)
  /-- FSUB (R165): Scalar floating-point subtract. -/
  | fsub (d : Reg) (a : Reg) (da : Dist) (b : Reg) (db : Dist) (p : Prec)
  /-- FMUL (R165): Scalar floating-point multiply. -/
  | fmul (d : Reg) (a : Reg) (da : Dist) (b : Reg) (db : Dist) (p : Prec)
  /-- FDIV (R165): Scalar floating-point divide. -/
  | fdiv (d : Reg) (a : Reg) (da : Dist) (b : Reg) (db : Dist) (p : Prec)
  /-- FSQRT (R165): Scalar floating-point square root. -/
  | fsqrt (d : Reg) (a : Reg) (da : Dist) (p : Prec)
  /-- FMA (R165): Scalar fused multiply-add into d. -/
  | fma (d : Reg) (a : Reg) (da : Dist) (b : Reg) (db : Dist) (p : Prec)
  /-- FMIN (R165): Scalar minimumNumber. -/
  | fmin (d : Reg) (a : Reg) (da : Dist) (b : Reg) (db : Dist) (p : Prec)
  /-- FMAX (R165): Scalar maximumNumber. -/
  | fmax (d : Reg) (a : Reg) (da : Dist) (b : Reg) (db : Dist) (p : Prec)
  /-- FEQ (R165): Scalar floating-point equality compare. -/
  | feq (d : Reg) (a : Reg) (da : Dist) (b : Reg) (db : Dist) (p : Prec)
  /-- FLT (R165): Scalar floating-point less-than compare. -/
  | flt (d : Reg) (a : Reg) (da : Dist) (b : Reg) (db : Dist) (p : Prec)
  /-- FLE (R165): Scalar floating-point less-or-equal compare. -/
  | fle (d : Reg) (a : Reg) (da : Dist) (b : Reg) (db : Dist) (p : Prec)
  /-- FCLASS (R166): Writes the class bit of a. -/
  | fclass (d : Reg) (a : Reg) (da : Dist) (p : Prec)
  /-- FCVTI (R166): Converts a float to signed 64-bit with saturation. -/
  | fcvti (d : Reg) (a : Reg) (da : Dist) (p : Prec)
  /-- FCVTF (R165): Converts a signed 64-bit integer to float. -/
  | fcvtf (d : Reg) (a : Reg) (da : Dist) (p : Prec)
  /-- FCVTW (R165): Converts between FP64 and FP32. -/
  | fcvtw (d : Reg) (a : Reg) (da : Dist) (p : Prec)
  /-- VADD (R167): Vector integer add. -/
  | vadd (d : Reg) (a : Reg) (dva : VDist) (b : Reg) (k : KReg) (t : IntTy)
  /-- VSUB (R167): Vector integer subtract. -/
  | vsub (d : Reg) (a : Reg) (dva : VDist) (b : Reg) (k : KReg) (t : IntTy)
  /-- VMUL (R167): Vector integer multiply, low half. -/
  | vmul (d : Reg) (a : Reg) (dva : VDist) (b : Reg) (k : KReg) (t : IntTy)
  /-- VMULH (R167): Vector signed multiply, high half. -/
  | vmulh (d : Reg) (a : Reg) (dva : VDist) (b : Reg) (k : KReg) (t : IntTy)
  /-- VMIN (R167): Vector signed minimum. -/
  | vmin (d : Reg) (a : Reg) (dva : VDist) (b : Reg) (k : KReg) (t : IntTy)
  /-- VMAX (R167): Vector signed maximum. -/
  | vmax (d : Reg) (a : Reg) (dva : VDist) (b : Reg) (k : KReg) (t : IntTy)
  /-- VMINU (R167): Vector unsigned minimum. -/
  | vminu (d : Reg) (a : Reg) (dva : VDist) (b : Reg) (k : KReg) (t : IntTy)
  /-- VMAXU (R167): Vector unsigned maximum. -/
  | vmaxu (d : Reg) (a : Reg) (dva : VDist) (b : Reg) (k : KReg) (t : IntTy)
  /-- VAND (R167): Vector bitwise AND. -/
  | vand (d : Reg) (a : Reg) (dva : VDist) (b : Reg) (k : KReg) (t : IntTy)
  /-- VOR (R167): Vector bitwise OR. -/
  | vor (d : Reg) (a : Reg) (dva : VDist) (b : Reg) (k : KReg) (t : IntTy)
  /-- VXOR (R167): Vector bitwise XOR. -/
  | vxor (d : Reg) (a : Reg) (dva : VDist) (b : Reg) (k : KReg) (t : IntTy)
  /-- VSHL (R167): Vector shift left. -/
  | vshl (d : Reg) (a : Reg) (dva : VDist) (b : Reg) (k : KReg) (t : IntTy)
  /-- VSHR (R167): Vector shift right, zero fill. -/
  | vshr (d : Reg) (a : Reg) (dva : VDist) (b : Reg) (k : KReg) (t : IntTy)
  /-- VSRA (R167): Vector shift right, sign fill. -/
  | vsra (d : Reg) (a : Reg) (dva : VDist) (b : Reg) (k : KReg) (t : IntTy)
  /-- VSADD (R167): Vector saturating signed add. -/
  | vsadd (d : Reg) (a : Reg) (dva : VDist) (b : Reg) (k : KReg) (t : IntTy)
  /-- VSSUB (R167): Vector saturating signed subtract. -/
  | vssub (d : Reg) (a : Reg) (dva : VDist) (b : Reg) (k : KReg) (t : IntTy)
  /-- VABS (R167): Vector absolute value. -/
  | vabs (d : Reg) (a : Reg) (dva : VDist) (k : KReg) (t : IntTy)
  /-- VCMPEQ (R168): Vector integer equality compare into a mask. -/
  | vcmpeq (d : KReg) (a : Reg) (dva : VDist) (b : Reg) (k : KReg) (t : IntTy)
  /-- VCMPLT (R168): Vector signed less-than compare into a mask. -/
  | vcmplt (d : KReg) (a : Reg) (dva : VDist) (b : Reg) (k : KReg) (t : IntTy)
  /-- VCMPLTU (R168): Vector unsigned less-than compare into a mask. -/
  | vcmpltu (d : KReg) (a : Reg) (dva : VDist) (b : Reg) (k : KReg) (t : IntTy)
  /-- VFADD (R169): Vector floating-point add. -/
  | vfadd (d : Reg) (a : Reg) (dva : VDist) (b : Reg) (k : KReg) (t : FltTy)
  /-- VFSUB (R169): Vector floating-point subtract. -/
  | vfsub (d : Reg) (a : Reg) (dva : VDist) (b : Reg) (k : KReg) (t : FltTy)
  /-- VFMUL (R169): Vector floating-point multiply. -/
  | vfmul (d : Reg) (a : Reg) (dva : VDist) (b : Reg) (k : KReg) (t : FltTy)
  /-- VFMA (R169): Vector fused multiply-add into vd. -/
  | vfma (d : Reg) (a : Reg) (dva : VDist) (b : Reg) (k : KReg) (t : FltTy)
  /-- VFMIN (R169): Vector floating-point minimum. -/
  | vfmin (d : Reg) (a : Reg) (dva : VDist) (b : Reg) (k : KReg) (t : FltTy)
  /-- VFMAX (R169): Vector floating-point maximum. -/
  | vfmax (d : Reg) (a : Reg) (dva : VDist) (b : Reg) (k : KReg) (t : FltTy)
  /-- VFDIV (R169): Vector floating-point divide. -/
  | vfdiv (d : Reg) (a : Reg) (dva : VDist) (b : Reg) (k : KReg) (t : FltTy)
  /-- VFSQRT (R169): Vector floating-point square root. -/
  | vfsqrt (d : Reg) (a : Reg) (dva : VDist) (k : KReg) (t : FltTy)
  /-- VFABS (R169): Vector floating-point absolute value. -/
  | vfabs (d : Reg) (a : Reg) (dva : VDist) (k : KReg) (t : FltTy)
  /-- VFNEG (R169): Vector floating-point negate. -/
  | vfneg (d : Reg) (a : Reg) (dva : VDist) (k : KReg) (t : FltTy)
  /-- VFCMPEQ (R169): Vector float equality compare into a mask. -/
  | vfcmpeq (d : KReg) (a : Reg) (dva : VDist) (b : Reg) (k : KReg) (t : FltTy)
  /-- VFCMPLT (R169): Vector float less-than compare into a mask. -/
  | vfcmplt (d : KReg) (a : Reg) (dva : VDist) (b : Reg) (k : KReg) (t : FltTy)
  /-- VFCMPLE (R169): Vector float less-or-equal compare into a mask. -/
  | vfcmple (d : KReg) (a : Reg) (dva : VDist) (b : Reg) (k : KReg) (t : FltTy)
  /-- VLD (R178): Contiguous vector load. -/
  | vld (d : Reg) (a : Reg) (da : Dist) (k : KReg) (e : Size)
  /-- VST (R178): Contiguous vector store. -/
  | vst (d : Reg) (a : Reg) (da : Dist) (k : KReg) (e : Size)
  /-- VLDS (R178): Strided vector load. -/
  | vlds (d : Reg) (a : Reg) (da : Dist) (b : Reg) (k : KReg) (e : Size)
  /-- VSTS (R178): Strided vector store. -/
  | vsts (d : Reg) (a : Reg) (da : Dist) (b : Reg) (k : KReg) (e : Size)
  /-- VGATH (R178): Indexed vector gather. -/
  | vgath (d : Reg) (a : Reg) (da : Dist) (b : Reg) (k : KReg) (e : Size)
  /-- VSCAT (R178): Indexed vector scatter. -/
  | vscat (d : Reg) (a : Reg) (da : Dist) (b : Reg) (k : KReg) (e : Size)
  /-- VLDB (R178): Loads one element into every active lane. -/
  | vldb (d : Reg) (a : Reg) (da : Dist) (k : KReg) (e : Size)
  /-- VSHUF (R172): Permutes lanes by an index vector. -/
  | vshuf (d : Reg) (a : Reg) (dva : VDist) (b : Reg) (k : KReg)
  /-- VSLIDE (R172): Slides lanes by a scalar amount. -/
  | vslide (d : Reg) (a : Reg) (dva : VDist) (b : Reg) (k : KReg)
  /-- VBCAST (R172): Broadcasts a scalar into every lane. -/
  | vbcast (d : Reg) (a : Reg) (dva : VDist) (k : KReg)
  /-- VEXT (R172): Extracts one lane into a scalar. -/
  | vext (d : Reg) (a : Reg) (dva : VDist) (b : Reg)
  /-- VINS (R172): Inserts a scalar into one lane. -/
  | vins (d : Reg) (a : Reg) (dva : VDist) (b : Reg)
  /-- VREDSUM (R173): Reduces active lanes to their sum. -/
  | vredsum (d : Reg) (a : Reg) (dva : VDist) (k : KReg)
  /-- VREDMAX (R173): Reduces active lanes to their maximum. -/
  | vredmax (d : Reg) (a : Reg) (dva : VDist) (k : KReg)
  /-- VREDMIN (R173): Reduces active lanes to their minimum. -/
  | vredmin (d : Reg) (a : Reg) (dva : VDist) (k : KReg)
  /-- VCVT (R174): Converts lanes from ET to ET2. -/
  | vcvt (d : Reg) (a : Reg) (dva : VDist) (k : KReg)
  /-- VENC (R175): Encodes lanes to codes through a table. -/
  | venc (d : Reg) (a : Reg) (dva : VDist) (k : KReg)
  /-- VDEC (R175): Decodes codes to lanes through a table. -/
  | vdec (d : Reg) (a : Reg) (dva : VDist) (k : KReg)
  /-- VQNT (R176): Quantises a 32-element block with a chosen scale. -/
  | vqnt (d : Reg) (a : Reg) (dva : VDist) (b : Reg)
  /-- VDQNT (R176): Dequantises a block of codes and its scale. -/
  | vdqnt (d : Reg) (a : Reg) (dva : VDist) (k : KReg)
  /-- VPPU (R177): Evaluates f32 lanes on the PPU image. -/
  | vppu (d : Reg) (a : Reg) (dva : VDist) (k : KReg)
  /-- VIOTA (R172): Writes each lane the count of lower active lanes. -/
  | viota (d : Reg) (k : KReg)
  /-- VSEL (R172): Selects each lane from va or vb by the mask. -/
  | vsel (d : Reg) (a : Reg) (dva : VDist) (b : Reg) (k : KReg)
  /-- KAND (R180): Mask AND. -/
  | kand (d : KReg) (a : KReg) (b : KReg)
  /-- KOR (R180): Mask OR. -/
  | kor (d : KReg) (a : KReg) (b : KReg)
  /-- KXOR (R180): Mask XOR. -/
  | kxor (d : KReg) (a : KReg) (b : KReg)
  /-- KNOT (R180): Mask NOT. -/
  | knot (d : KReg) (a : KReg)
  /-- KFROM (R180): Writes a mask from a scalar. -/
  | kfrom (d : KReg) (a : Reg) (dva : VDist)
  /-- KTO (R180): Writes a scalar from a mask. -/
  | kto (d : Reg) (a : KReg)
  /-- KPOP (R180): Counts the set bits of a mask. -/
  | kpop (d : Reg) (a : KReg)
  /-- KFIRST (R180): Writes the index of a mask's lowest set bit. -/
  | kfirst (d : Reg) (a : KReg)
  /-- MCFG (R187): Sets a slot's format context, scale and headroom, and clears it. -/
  | mcfg (a : Reg) (b : Reg) (w : BitVec 1) (n : BitVec 2)
  /-- MGEO (R187): Sets a slot's geometry. -/
  | mgeo (a : Reg) (w : BitVec 1) (n : BitVec 2)
  /-- MZERO (R187): Clears a slot's elements and counts. -/
  | mzero (w : BitVec 1) (n : BitVec 2)
  /-- MMA (R188): Checks and enqueues a tile multiply-accumulate. -/
  | mma (a : Reg) (b : Reg) (w : BitVec 1) (n : BitVec 2)
  /-- MMAT (R188): Enqueues a multiply-accumulate with A stored transposed. -/
  | mmat (a : Reg) (b : Reg) (w : BitVec 1) (n : BitVec 2)
  /-- MMAS (R188): Enqueues a multiply-subtract. -/
  | mmas (a : Reg) (b : Reg) (w : BitVec 1) (n : BitVec 2)
  /-- MDRAIN (R189): Converts a slot and writes the tile, optionally dual. -/
  | mdrain (a : Reg) (b : Reg) (w : BitVec 1) (u : BitVec 1) (n : BitVec 2)
  /-- MLDACC (R190): Loads a slot from width-preserving words. -/
  | mldacc (a : Reg) (b : Reg) (w : BitVec 1) (n : BitVec 2)
  /-- MSTACC (R190): Stores a slot as width-preserving words. -/
  | mstacc (d : Reg) (a : Reg) (w : BitVec 1) (n : BitVec 2)
  /-- MSTAT (R191): Returns the slot status word. -/
  | mstat (d : Reg) (w : BitVec 1) (n : BitVec 2)
  /-- MWAIT (R191): Waits until no queued command names the slot. -/
  | mwait (w : BitVec 1) (n : BitVec 2)
  /-- CHAIN (R143): Opens a carry chain on a slot. -/
  | chain (a : Reg) (b : Reg) (w : BitVec 1) (n : BitVec 2)
  /-- CADD (R145): Sends a slot's rows over the carry network and clears it. -/
  | cadd (d : Reg) (a : Reg) (b : Reg) (w : BitVec 1) (n : BitVec 2)
  /-- CCLOSE (R148): Closes an open chain and fulfils its future. -/
  | cclose (w : BitVec 1) (n : BitVec 2)
  /-- CSTAT (R193): Reads or frees carry records and the lost count. -/
  | cstat (d : Reg) (a : Reg) (w : BitVec 1)
  /-- CWAIT (R148): Waits until the slot's chain is closed. -/
  | cwait (w : BitVec 1) (n : BitVec 2)
  /-- RGCFG (R316): Configures and starts the cluster ring. -/
  | rgcfg (a : Reg)
  /-- MTLD (R321): Loads the station's match table. -/
  | mtld (a : Reg)
  /-- MTCLR (R366): Clears the station's match table. -/
  | mtclr
  /-- BINJ (R367): Queues a bead for injection at station 0. -/
  | binj (a : Reg) (w : BitVec 1)
  /-- BTAKE (R368): Removes the bead with a given tag. -/
  | btake (d : Reg) (a : Reg)
  /-- BSTAT (R368): Returns bead, miss, entry or ring status. -/
  | bstat (d : Reg) (a : Reg)
  /-- TKGET (R369): Waits for and hands out a ready software task. -/
  | tkget (d : Reg)
  /-- TKDONE (R369): Completes a software task. -/
  | tkdone (a : Reg)
  /-- RGSUB (R369): Submits a SUBSCRIBE job without the window. -/
  | rgsub (d : Reg) (a : Reg) (b : Reg)
  /-- RGQUIET (R317): Moves the ring to DRAINING, or a frozen ring to OFF. -/
  | rgquiet
  /-- TABLD (R195): Loads and checks a decode table image. -/
  | tabld (a : Reg) (b : Reg) (w : BitVec 1) (t : BitVec 2)
  /-- TABRD (R196): Reads a table entry or status word. -/
  | tabrd (d : Reg) (a : Reg) (w : BitVec 1) (t : BitVec 2)
  /-- TABCHK (R196): Verifies a table and records N3. -/
  | tabchk (d : Reg) (w : BitVec 1) (t : BitVec 2)
  /-- PPULD (R195): Loads and checks a PPU image. -/
  | ppuld (a : Reg) (w : BitVec 1)
  /-- PPURD (R196): Reads a word of the PPU image. -/
  | ppurd (d : Reg) (a : Reg) (w : BitVec 1)
  /-- ENC (R197): Encodes a scalar FP64 value through a table. -/
  | enc (d : Reg) (a : Reg) (w : BitVec 1) (t : BitVec 2)
  /-- DEC (R197): Decodes a code to FP64 through a table. -/
  | dec (d : Reg) (a : Reg) (w : BitVec 1) (t : BitVec 2)
  /-- CPSTAT (R291): Returns a copy job's status word. -/
  | cpstat (d : Reg) (a : Reg)
  /-- CPWAIT (R291): Waits for a copy job and returns its status. -/
  | cpwait (d : Reg) (a : Reg)
  /-- CPCAN (R291): Cancels an outstanding copy job. -/
  | cpcan (a : Reg)
  /-- FNEW (R353): Allocates a future from the free list. -/
  | fnew (d : Reg)
  /-- FPUT (R353): Fulfils a future and wakes its waiters. -/
  | fput (a : Reg) (b : Reg)
  /-- FGET (R353): Waits for a future and returns its value and state. -/
  | fget (d : Reg) (a : Reg) (b : Reg)
  /-- FTRY (R353): Returns a future's value and state without waiting. -/
  | ftry (d : Reg) (a : Reg) (b : Reg)
  /-- FPOIS (R353): Poisons a future with a cause. -/
  | fpois (a : Reg) (b : Reg)
  /-- FFREE (R353): Frees a future entry. -/
  | ffree (a : Reg)
  /-- FLINK (R353): Adds a future as a predecessor of a held card. -/
  | flink (d : Reg) (a : Reg) (b : Reg)
  /-- JSUB (R355): Rings a queue's publish word. -/
  | jsub (a : Reg)
  /-- JWID (R355): Returns the work-unit identifier. -/
  | jwid (d : Reg)
  /-- JARG (R355): Returns the argument record address. -/
  | jarg (d : Reg)
  /-- JEND (R356): Ends the work unit and starts the next or goes idle. -/
  | jend
  /-- JQRY (R357): Returns a card property chosen by a selector. -/
  | jqry (d : Reg) (a : Reg)
  /-- CHSND (R359): Sends a message from memory on a buffer channel. -/
  | chsnd (d : Reg) (a : Reg) (c : BitVec 4)
  /-- CHRCV (R359): Receives a message into memory from a buffer channel. -/
  | chrcv (d : Reg) (a : Reg) (c : BitVec 4)
  /-- CHSNDV (R359): Sends a vector on a buffer channel. -/
  | chsndv (d : Reg) (a : Reg) (c : BitVec 4)
  /-- CHRCVV (R359): Receives a vector from a buffer channel. -/
  | chrcvv (d : Reg) (c : BitVec 4)
  /-- CHPOLL (R360): Returns free places or waiting messages of a channel. -/
  | chpoll (d : Reg) (c : BitVec 4)
  /-- BARP (R340): Partition barrier that begins a transfer phase. -/
  | barp (k : BitVec 2)
  /-- XSEL (R339): Loads a router schedule for the cluster's router pair. -/
  | xsel (a : Reg) (k : BitVec 2)
  /-- XMIT (R342): Presents a vector as a beat in a phase slot. -/
  | xmit (h : Reg) (b : Reg) (l : BitVec 3)
  /-- XMIT_CH (R361): Sends beat m of a phase channel. -/
  | xmitCh (c : BitVec 4) (h : Reg) (b : Reg) (l : BitVec 3)
  /-- XRECV (R342): Takes the beat of a phase slot into a vector. -/
  | xrecv (d : Reg) (h : Reg) (l : BitVec 3)
  /-- XRECV_CH (R361): Receives beat m of a phase channel. -/
  | xrecvCh (d : Reg) (h : Reg) (c : BitVec 4) (l : BitVec 3)
  /-- XEND (R343): Waits for the phase end and returns its status. -/
  | xend (d : Reg)
  /-- BAR (R363): Arrives at a cluster barrier and waits. -/
  | bar (a : Reg) (n : BitVec 2)
  /-- BARNW (R363): Arrives at a cluster barrier and continues. -/
  | barnw (a : Reg) (n : BitVec 2)
  /-- SLEEP (R365): Waits for a wake bit or a deadline. -/
  | sleep (d : Reg) (a : Reg)
  /-- WAKE (R365): Sets a core's wake bit. -/
  | wake (a : Reg)
  /-- TIME (R362): Returns the package time base in ns. -/
  | time (d : Reg)
  /-- KOP (R205): Executes a kernel-defined operation slot. -/
  | kop (s : BitVec 3) (d : Reg) (a : Reg) (b : Reg) (c : Reg) (k : KReg)
  /-- KLD (R207): Loads and checks a KDO slot image. -/
  | kld (a : Reg) (b : Reg)
  /-- KREL (R207): Empties a KDO slot. -/
  | krel (a : Reg)
  /-- KQRY (R208): Returns a KDO slot's header and presence. -/
  | kqry (d : Reg) (a : Reg)
  /-- SRD (R407): Reads a state register. -/
  | srd (d : Reg) (r : BitVec 12)
  /-- SWR (R407): Writes a state register. -/
  | swr (a : Reg) (r : BitVec 12)
  /-- SSET (R407): Sets bits of a state register. -/
  | sset (a : Reg) (r : BitVec 12)
  /-- SCLR (R407): Clears bits of a state register. -/
  | sclr (a : Reg) (r : BitVec 12)
  /-- TRAP (R408): Raises class 0 cause n. -/
  | trap (n : BitVec 12)
  /-- ERET (R408): Returns from a trap handler or the KDO loader. -/
  | eret
  /-- HALT (R409): Debug-stops the core and posts a kind 6 record. -/
  | halt
  /-- TLBINV (R410): Invalidates translations package-wide and waits for acknowledgement. -/
  | tlbinv (a : Reg) (m : BitVec 12)
  /-- ACCT (R411): Reads a reckoning counter or writes a signed snapshot. -/
  | acct (d : Reg) (a : Reg) (n : BitVec 12)
  /-- BRK (R416): Raises breakpoint cause 0x380. -/
  | brk (n : BitVec 12)
  /-- WPSET (R412): Writes and checks a watchpoint register. -/
  | wpset (a : Reg) (n : BitVec 3)
  /-- WPCLR (R416): Disables a watchpoint. -/
  | wpclr (n : BitVec 3)
  /-- DSTOP (R416): Stops a cluster or gang, or reads DSTAT or DINFO. -/
  | dstop (d : Reg) (a : Reg) (m : BitVec 12)
  /-- DSTEP (R417): Steps a stopped core or gang by one instruction. -/
  | dstep (d : Reg) (a : Reg)
  /-- DRES (R416): Resumes a stopped core, gang or cluster. -/
  | dres (d : Reg) (a : Reg) (m : BitVec 12)
  /-- DEFERRED_INSTRUCTION (R84): Runs a microcode routine as one instruction. -/
  | deferredInstruction (e : BitVec 2) (f : BitVec 20) (i : BitVec 6)
  /-- ITERATION_RETIRE (R22): An iteration retires, writing its buffered stores and the pass-through fill. -/
  | iterationRetire (c : Nat)
  /-- ASYNC_TRAP_DELIVERY (R424): A pending asynchronous cause is delivered at an instruction boundary. -/
  | asyncTrapDelivery (c : Nat)
  /-- MATRIX_COMMAND_COMPLETE (R139): A queued matrix command or hardware task finishes and the next starts. -/
  | matrixCommandComplete (c : Nat)
  /-- CARRY_ROUTER_MERGE (R147): A carry router merges two waiting row messages. -/
  | carryRouterMerge (i : Nat) (j : Nat)
  /-- CARRY_ROW_ARRIVAL (R146): A carry row message is added to its slot or discarded. -/
  | carryRowArrival (i : Nat)
  /-- QGO_COPY (R228): A QGO store submits a COPY job. -/
  | qgoCopy
  /-- QGO_TENSOR (R289): A QGO store submits a TENSOR job. -/
  | qgoTensor
  /-- QGO_MCAST (R229): A QGO store submits a multicast job. -/
  | qgoMcast
  /-- QGO_MCWRITE (R263): A QGO store submits a multi-destination write job. -/
  | qgoMcwrite
  /-- QGO_FILL (R228): A QGO store submits a FILL job. -/
  | qgoFill
  /-- QGO_SUBSCRIBE (R330): A QGO store submits a SUBSCRIBE loader job. -/
  | qgoSubscribe
  /-- QGO_PULL (R331): A QGO store submits a PULL storer job. -/
  | qgoPull
  /-- REGISTER_WRITE (R231): A write to a register with no behaviour of its own, such as QW0 to QW3. -/
  | registerWrite (n : BitVec 2) (v : Word)
  /-- COPY_JOB_COMPLETE (R265): A copy job finishes its accesses and fulfils DONE. -/
  | copyJobComplete (c : Nat) (i : Nat)
  /-- COPY_JOB_FAIL (R230): A running job meets a fault and poisons DONE or traps. -/
  | copyJobFail (c : Nat) (i : Nat)
  /-- RING_STEP (R314): A ring step boundary runs move, inject, match, retire and age. -/
  | ringStep (cl : Nat)
  /-- SLICE_REQUEST (R220): A home or near slice performs a load, store, atomic or fill. -/
  | sliceRequest (i : Nat) (merge : Bool)
  /-- REMOTE_APERTURE_REQUEST (R216): An owning core performs a remote scratchpad access. -/
  | remoteApertureRequest (i : Nat)
  /-- LOAD_RESPONSE (R276): A load answer arrives and fills the destination version. -/
  | loadResponse (i : Nat)
  /-- POSTED_STORE_ACK (R254): An acknowledgement frees a journal entry. -/
  | postedStoreAck (c : Nat) (e : Nat)
  /-- POSTED_STORE_REFUSAL (R255): An owner refuses a posted store and the entry records it. -/
  | postedStoreRefusal (c : Nat) (e : Nat)
  /-- JOURNAL_TIMEOUT (R255): A posted store times out after 1,048,576 ns. -/
  | journalTimeout (c : Nat) (e : Nat) (lost : Bool)
  /-- PAGE_WALK_COMPLETE (R379): A page walk ends with a translation or a class 8 fault. -/
  | pageWalkComplete (c : Nat)
  /-- TLB_INVALIDATION_REQUEST (R383): A cluster drops matching translations and drains their accesses. -/
  | tlbInvalidationRequest (i : Nat)
  /-- TLB_INVALIDATION_ACK (R383): A cluster's acknowledgement reaches the invalidating core. -/
  | tlbInvalidationAck (i : Nat)
  /-- WB_RETRY (R387): A write stalled by WB translates again. -/
  | wbRetry (c : Nat)
  /-- WB_TIMEOUT (R387): A write stalled by WB for 1 ms raises 0x209. -/
  | wbTimeout (c : Nat)
  /-- PEER_REQUEST (R260): An access from a peer package is performed here. -/
  | peerRequest (p : Nat) (addr : Nat) (size : Nat) (fn : Nat) (data : Word) (cmp : Word)
  /-- HOST_POSTED_WRITE (R261): A host write through BAR4 is performed at home slices. -/
  | hostPostedWrite (fn : Nat) (off : Nat) (data : List Byte)
  /-- HOST_READ (R261): A host read of device memory through BAR4. -/
  | hostRead (fn : Nat) (off : Nat) (n : Nat)
  /-- HOST_ATOMICOP (R445): The endpoint completes a host AtomicOp. -/
  | hostAtomicop (fn : Nat) (off : Nat) (op : Nat) (size : Nat) (operand : Word) (compare : Word)
  /-- QUEUE_PUBLISH (R295): A write to a BAR0 publish word rings a queue. -/
  | queuePublish (fn : Nat) (q : Nat)
  /-- QUEUE_POLL (R296): The queue engine rechecks a slot every 1 us. -/
  | queuePoll (q : Nat)
  /-- RESERVATION_TIMEOUT (R297): An unpublished slot exceeds TMO and posts a kind 1 record. -/
  | reservationTimeout (q : Nat)
  /-- DEAL_CHUNK (R302): A dealer gives an idle position a chunk of a chosen card. -/
  | dealChunk (pos : Nat)
  /-- CARD_COMPLETE (R274): A card's units and work end; it drops replicas and fulfils DONE. -/
  | cardComplete (n : Nat)
  /-- WAITER_RECHECK (R308): An FGET without a waiter record rechecks its future every 1 us. -/
  | waiterRecheck (c : Nat)
  /-- ACTIVITY_FORECAST_UPDATE (R310): The scheduler writes the activity forecast every 1 us. -/
  | activityForecastUpdate
  /-- RECKONING_FOLD (R389): The aggregator folds counts into agency totals every 10 us. -/
  | reckoningFold
  /-- CLOCK_STEP (R453): The power manager changes the core clock by a step. -/
  | clockStep (mhz : Nat)
  /-- PHASE_START (R340): After arrival and drain, a transfer phase starts at S. -/
  | phaseStart (ctx : Nat)
  /-- PHASE_END (R343): At E the routers return to packet mode. -/
  | phaseEnd (ctx : Nat)
  /-- SLEEP_DEADLINE (R365): A SLEEP deadline passes with the wake bit clear. -/
  | sleepDeadline (c : Nat)
  /-- CLUSTER_STOP_ARRIVAL (R415): A cluster stop reaches a station and its core stops. -/
  | clusterStopArrival (c : Nat)
  /-- STOP_TIME (R431): At T every unit of the partition stops. -/
  | stopTime (n : Nat)
  /-- CONTEXT_SAVE (R433): The stopped partition's state is written to its save record. -/
  | contextSave (n : Nat)
  /-- WATCHDOG_EXPIRY (R436): A partition watchdog expires. -/
  | watchdogExpiry (n : Nat)
  /-- SAVE_BOUND_EXPIRY (R436): A save overruns 4,000,000 ns and the context is lost. -/
  | saveBoundExpiry (n : Nat)
  /-- UNCORRECTABLE_ERROR (R441): An uncorrectable error poisons a granule or is charged to a context. -/
  | uncorrectableError (what : Nat) (a : Nat) (code : Nat) (unit : Nat)
  /-- LINK_RETRY_EXHAUSTED (R422): A mesh or carry link exhausts its CRC retries. -/
  | linkRetryExhausted (n : Nat) (link : Nat)
  /-- ADXUS_LINK_FAILURE (R452): An Adxus link fails and traffic moves to other links. -/
  | adxusLinkFailure (link : Nat) (lost : BitVec 64) (ctxs : List Nat)
  /-- HOST_LINK_FAILURE (R422): The host link fails. -/
  | hostLinkFailure (ctxs : List Nat)
  /-- POWER_ON_RESET (R454): Reset starts measured boot and bring-up. -/
  | powerOnReset
  /-- FIRMWARE_UPDATE (R402): A signed firmware update is checked and accepted or refused. -/
  | firmwareUpdate (store : List Word32) (table : List Word) (translator : List Byte) (build : Nat) (wmin : Nat) (svn : Nat) (sigs : List (BitVec 768))
  /-- UPDATE_TAKES_EFFECT (R85): An accepted update replaces the stores once no context is resident. -/
  | updateTakesEffect
  /-- ACC_WRITE (R450): The driver writes the accepted-feature word. -/
  | accWrite (fn : Nat) (v : BitVec 256)
  /-- ACCEPT (R450): Fixes the accepted features and extends MR6. -/
  | accept (fn : Nat) (ops : List Word)
  /-- CTXLOAD (R375): Copies a context descriptor and loads the context. -/
  | ctxload (fn : Nat) (ops : List Word)
  /-- CTXEND (R448): Ends a resident context, optionally by force. -/
  | ctxend (fn : Nat) (ops : List Word)
  /-- CTXSTOP (R430): Stops and saves a context. -/
  | ctxstop (fn : Nat) (ops : List Word)
  /-- CTXRESUME (R435): Resumes a saved context from its record. -/
  | ctxresume (fn : Nat) (ops : List Word)
  /-- CKPT (R437): Checkpoints a context and opens a new interval. -/
  | ckpt (fn : Nat) (ops : List Word)
  /-- ROLLBACK (R438): Rolls a context back to an interval at the host's request. -/
  | rollback (fn : Nat) (ops : List Word)
  /-- DEVCKPT (R440): Saves every context and streams all HBM to the safe tier. -/
  | devckpt (fn : Nat) (ops : List Word)
  /-- KEYREG (R398): Registers an agency public key and extends MR7. -/
  | keyreg (fn : Nat) (ops : List Word)
  /-- KEYREV (R398): Revokes an agency key. -/
  | keyrev (fn : Nat) (ops : List Word)
  /-- AGASSIGN (R388): Assigns an agency to a new tenant and zeroes its counters. -/
  | agassign (fn : Nat) (ops : List Word)
  /-- AGWEIGHT (R303): Sets an agency's deficit round-robin weight. -/
  | agweight (fn : Nat) (ops : List Word)
  /-- ACCTSNAP (R390): Writes a signed reckoning snapshot to host memory. -/
  | acctsnap (fn : Nat) (ops : List Word)
  /-- OBJLOAD (R399): Translates a code object into a launch image. -/
  | objload (fn : Nat) (ops : List Word) (pl : Placement)
  /-- OBJUNLOAD (R401): Unloads a launch image, optionally by force. -/
  | objunload (fn : Nat) (ops : List Word)
  /-- QSET (R294): Writes a work queue descriptor and its ring base. -/
  | qset (fn : Nat) (ops : List Word)
  /-- BARGRANT (R446): Sets a function's BAR4 range. -/
  | bargrant (fn : Nat) (ops : List Word)
  /-- FUTMAKE (R305): Makes a named free future entry empty. -/
  | futmake (fn : Nat) (ops : List Word)
  /-- FUTPUT (R448): Fulfils a future from the host with a SYS release. -/
  | futput (fn : Nat) (ops : List Word)
  /-- FUTFREE (R448): Frees a future from the host. -/
  | futfree (fn : Nat) (ops : List Word)
  /-- WDSET (R436): Sets a partition's watchdog period. -/
  | wdset (fn : Nat) (ops : List Word)
  /-- GET_VERSION (R395): SPDM GET_VERSION request. -/
  | getVersion (req : List Byte)
  /-- GET_CAPABILITIES (R395): SPDM GET_CAPABILITIES request. -/
  | getCapabilities (req : List Byte)
  /-- NEGOTIATE_ALGORITHMS (R395): SPDM NEGOTIATE_ALGORITHMS request. -/
  | negotiateAlgorithms (req : List Byte)
  /-- GET_DIGESTS (R395): SPDM GET_DIGESTS request. -/
  | getDigests (req : List Byte)
  /-- GET_CERTIFICATE (R395): SPDM GET_CERTIFICATE request. -/
  | getCertificate (req : List Byte)
  /-- CHALLENGE (R395): SPDM CHALLENGE request. -/
  | challenge (req : List Byte)
  /-- GET_MEASUREMENTS (R395): SPDM GET_MEASUREMENTS request returning measurement blocks. -/
  | getMeasurements (req : List Byte)
  /-- SPDM_OTHER_REQUEST (R395): Any other SPDM request code is answered with ERROR UnsupportedRequest. -/
  | spdmOtherRequest (req : List Byte)
  /-- NON_INSTRUCTION_WORD (R78): A fetched word that is no instruction is decoded and raises its class 1 cause. -/
  | nonInstructionWord (w : Word32) (cause : Cause)
  /-- TRANSFER_PHASE_SLOT (R342): Cycle S + t of an active transfer phase arrives, and the routers move the beats scheduled
  for slot t. -/
  | transferPhaseSlot (ctx : Nat)
  /-- HOST_COMPLETION (R284): A PCIe completion from the host for a device read or AtomicOp, including a rejection, reaches
  the line's home slice. -/
  | hostCompletion (i : Nat) (rejected : Bool)
  /-- PEER_RESPONSE (R260): An answer or acknowledgement from a peer package arrives over an Adxus link for a load, atomic
  or store this package sent. -/
  | peerResponse (i : Nat)
  /-- REPLICA_EVICTION (R223): A near slice drops a replica of a read-only line at a moment of its own choosing. -/
  | replicaEviction (cl : Nat) (line : Nat)
  /-- WATCHDOG_REWRITE (R436): The owning management core rewrites a partition's watchdog and restarts its period. -/
  | watchdogRewrite (n : Nat)
  /-- CORRECTED_ERROR (R441): A soft error is corrected in place or by retry and counted in the management error counters. -/
  | correctedError
  /-- LOADER_BEAD_ARRIVAL (R330): A SUBSCRIBE loader finishes reading a tile and its bead joins the family's injection queue
  at station 0. -/
  | loaderBeadArrival (c : Nat) (i : Nat)
  /-- MAILBOX_UNKNOWN_COMMAND (R448): A CMD write with an unassigned command code returns status 0x0401_0000 plus the code. -/
  | mailboxUnknownCommand (fn : Nat) (code : BitVec 16)
  /-- CAPW_WRITE (R453): The physical function writes CAPW, and the power cap changes unless the value lies outside 600–1650. -/
  | capwWrite (fn : Nat) (v : BitVec 16)
  /-- CONTEXT_DESCRIPTOR_CHANGE (R375): Management code signals a change to a resident context's descriptor, which the
  device re-reads and checks. -/
  | contextDescriptorChange (n : Nat) (image : List Byte)
deriving DecidableEq, Repr, Inhabited

end Sys2Proof
end

