-- ==== Sys2Proof/WellFormed.lean ====
section
/-! DEFINITION. Which terms of Instr are instructions: the ranges that R55 step 2 checks. -/

namespace Sys2Proof

/-- A loop level of BRKIF, ITX and LSTAT: 1 or 2 (R100). -/
def level (l : BitVec 11) : Bool := l == 1#11 || l == 2#11

/-- A state-register number that the map assigns (R403). -/
def stateRegister (r : BitVec 12) : Bool :=
  let n := r.toNat
  decide (n ≤ 7) || (decide (0x010 ≤ n) && decide (n ≤ 0x015)) || n == 0x020 || n == 0x021 ||
    (decide (0x030 ≤ n) && decide (n ≤ 0x03F)) || (decide (0x100 ≤ n) && decide (n ≤ 0x109))

/-- A selector of ACCT: a counter number, or the snapshot (R411). -/
def acctSelector (n : BitVec 12) : Bool := decide (n.toNat ≤ 8) || n == 0x100#12

/-- An instruction that some word encodes: every value field lies in the range its entry gives (R55 step 2). -/
def Instr.wf : Instr → Bool
  | .brkif _ _ l => level l
  | .itx _ l => level l
  | .lstat _ l => level l
  | .gbc _ _ _ m => decide (m.toNat ≤ 15)
  | .xmitCh _ h _ _ => decide (h.toNat ≤ 7)
  | .xrecvCh _ h _ _ => decide (h.toNat ≤ 7)
  | .srd _ r => stateRegister r
  | .swr _ r => stateRegister r
  | .sset _ r => stateRegister r
  | .sclr _ r => stateRegister r
  | .trap n => decide (n.toNat ≤ 63)
  | .tlbinv _ m => decide (m.toNat ≤ 1)
  | .acct _ a n => acctSelector n && (n == 0x100#12 || a == 0#5)
  | .dstop _ _ m => decide (m.toNat ≤ 3)
  | .dres _ _ m => decide (m.toNat ≤ 1)
  | .deferredInstruction e _ _ => e != 3#2
  | _ => true

/-- An event that comes to the machine by itself: no word of a program, and no part of what a word does. -/
def Instr.isEvent : Instr → Bool
  | .iterationRetire _ => true
  | .asyncTrapDelivery _ => true
  | .matrixCommandComplete _ => true
  | .carryRouterMerge _ _ => true
  | .carryRowArrival _ => true
  | .copyJobComplete _ _ => true
  | .copyJobFail _ _ => true
  | .ringStep _ => true
  | .sliceRequest _ _ => true
  | .remoteApertureRequest _ => true
  | .loadResponse _ => true
  | .postedStoreAck _ _ => true
  | .postedStoreRefusal _ _ => true
  | .journalTimeout _ _ _ => true
  | .pageWalkComplete _ => true
  | .tlbInvalidationRequest _ => true
  | .tlbInvalidationAck _ => true
  | .wbRetry _ => true
  | .wbTimeout _ => true
  | .peerRequest _ _ _ _ _ _ => true
  | .hostPostedWrite _ _ _ => true
  | .hostRead _ _ _ => true
  | .hostAtomicop _ _ _ _ _ _ => true
  | .queuePublish _ _ => true
  | .queuePoll _ => true
  | .reservationTimeout _ => true
  | .dealChunk _ => true
  | .cardComplete _ => true
  | .waiterRecheck _ => true
  | .activityForecastUpdate => true
  | .reckoningFold => true
  | .clockStep _ => true
  | .phaseStart _ => true
  | .phaseEnd _ => true
  | .sleepDeadline _ => true
  | .clusterStopArrival _ => true
  | .stopTime _ => true
  | .contextSave _ => true
  | .watchdogExpiry _ => true
  | .saveBoundExpiry _ => true
  | .uncorrectableError _ _ _ _ => true
  | .linkRetryExhausted _ _ => true
  | .adxusLinkFailure _ _ _ => true
  | .hostLinkFailure _ => true
  | .powerOnReset => true
  | .firmwareUpdate _ _ _ _ _ _ _ => true
  | .updateTakesEffect => true
  | .accWrite _ _ => true
  | .accept _ _ => true
  | .ctxload _ _ => true
  | .ctxend _ _ => true
  | .ctxstop _ _ => true
  | .ctxresume _ _ => true
  | .ckpt _ _ => true
  | .rollback _ _ => true
  | .devckpt _ _ => true
  | .keyreg _ _ => true
  | .keyrev _ _ => true
  | .agassign _ _ => true
  | .agweight _ _ => true
  | .acctsnap _ _ => true
  | .objload _ _ _ => true
  | .objunload _ _ => true
  | .qset _ _ => true
  | .bargrant _ _ => true
  | .futmake _ _ => true
  | .futput _ _ => true
  | .futfree _ _ => true
  | .wdset _ _ => true
  | .getVersion _ => true
  | .getCapabilities _ => true
  | .negotiateAlgorithms _ => true
  | .getDigests _ => true
  | .getCertificate _ => true
  | .challenge _ => true
  | .getMeasurements _ => true
  | .spdmOtherRequest _ => true
  | .transferPhaseSlot _ => true
  | .hostCompletion _ _ => true
  | .peerResponse _ => true
  | .replicaEviction _ _ => true
  | .watchdogRewrite _ => true
  | .correctedError => true
  | .loaderBeadArrival _ _ => true
  | .mailboxUnknownCommand _ _ => true
  | .capwWrite _ _ => true
  | .contextDescriptorChange _ _ => true
  | _ => false

end Sys2Proof
end

