-- ==== Sys2Proof/Decode.lean ====
section
/-! DEFINITION. Decoding of words in the order of R55 (steps 1 to 4), and the encoder of the same tables. -/

namespace Sys2Proof

/-- The field of len bits of a word that starts at bit lo (R56). -/
def bits (w : Word32) (lo len : Nat) : BitVec len := BitVec.ofNat len (w.toNat / 2 ^ lo)

/-- A word made of field values, each at the bit where its field starts. -/
def pack (fields : List (Nat × Nat)) : Word32 :=
  BitVec.ofNat 32 (fields.foldr (fun f acc => f.2 * 2 ^ f.1 + acc) 0)

/-- A check at decode: the cause c when the condition fails (R55). -/
def ensure {α : Type} (ok : Bool) (c : Cause) (k : Except Cause α) : Except Cause α :=
  if ok then k else .error c

/-- Every reserved field, given by its low bit and its length, is zero (R54). -/
def zeros (w : Word32) (fields : List (Nat × Nat)) : Bool :=
  fields.all fun f => bits w f.1 f.2 == 0#f.2

def Scope.bits : Scope → BitVec 3
  | .core => 0#3 | .clu => 1#3 | .pkg => 2#3 | .fab => 3#3 | .sys => 4#3

/-- The scope codes of R57; 5 to 7 name none. -/
def Scope.ofBits? (b : BitVec 3) : Option Scope :=
  match b.toNat with
  | 0 => some .core | 1 => some .clu | 2 => some .pkg | 3 => some .fab | 4 => some .sys
  | _ => none

def Order.bits : Order → BitVec 2
  | .relaxed => 0#2 | .acquire => 1#2 | .release => 2#2 | .acquireRelease => 3#2

def Order.ofBits (b : BitVec 2) : Order :=
  match b.toNat with
  | 0 => .relaxed | 1 => .acquire | 2 => .release | _ => .acquireRelease

def Size.bits : Size → BitVec 2
  | .b => 0#2 | .h => 1#2 | .w => 2#2 | .d => 3#2

def Size.ofBits (b : BitVec 2) : Size :=
  match b.toNat with
  | 0 => .b | 1 => .h | 2 => .w | _ => .d

def Wide.bits : Wide → BitVec 1
  | .w => 0#1 | .d => 1#1

def Wide.ofBits (b : BitVec 1) : Wide := if b = 0#1 then .w else .d

def Prec.bits : Prec → BitVec 1
  | .f32 => 0#1 | .f64 => 1#1

def Prec.ofBits (b : BitVec 1) : Prec := if b = 0#1 then .f32 else .f64

def IntTy.bits : IntTy → BitVec 2
  | .i8 => 0#2 | .i16 => 1#2 | .i32 => 2#2 | .i64 => 3#2

def IntTy.ofBits (b : BitVec 2) : IntTy :=
  match b.toNat with
  | 0 => .i8 | 1 => .i16 | 2 => .i32 | _ => .i64

def FltTy.bits : FltTy → BitVec 2
  | .f32 => 0#2 | .bf16 => 1#2 | .f16 => 2#2

/-- The lane types of VFLT; 3 names none (R73). -/
def FltTy.ofBits? (b : BitVec 2) : Option FltTy :=
  match b.toNat with
  | 0 => some .f32 | 1 => some .bf16 | 2 => some .f16
  | _ => none

/-- The scope check of step 4 (R57, code 0x05C). -/
def withScope {α : Type} (b : BitVec 3) (k : Scope → Except Cause α) : Except Cause α :=
  match Scope.ofBits? b with
  | some s => k s
  | none => .error 0x05C#10

/-- The lane-type check of step 4 (R79, code 0x054). -/
def withFltTy {α : Type} (b : BitVec 2) (k : FltTy → Except Cause α) : Except Cause α :=
  match FltTy.ofBits? b with
  | some t => k t
  | none => .error 0x054#10

/-- Words of primary 0x1 (R70, R72), format F-Q. -/
def decodeIop (w : Word32) : Except Cause Instr :=
  match (bits w 0 7).toNat with
  | 0 => .ok (.add (bits w 21 5) (bits w 16 5) (bits w 14 2) (bits w 9 5) (bits w 7 2))
  | 1 => .ok (.sub (bits w 21 5) (bits w 16 5) (bits w 14 2) (bits w 9 5) (bits w 7 2))
  | 2 => .ok (.mul (bits w 21 5) (bits w 16 5) (bits w 14 2) (bits w 9 5) (bits w 7 2))
  | 3 => .ok (.mulh (bits w 21 5) (bits w 16 5) (bits w 14 2) (bits w 9 5) (bits w 7 2))
  | 4 => .ok (.mulhu (bits w 21 5) (bits w 16 5) (bits w 14 2) (bits w 9 5) (bits w 7 2))
  | 5 => .ok (.madd (bits w 21 5) (bits w 16 5) (bits w 14 2) (bits w 9 5) (bits w 7 2))
  | 6 => .ok (.div (bits w 21 5) (bits w 16 5) (bits w 14 2) (bits w 9 5) (bits w 7 2))
  | 7 => .ok (.divu (bits w 21 5) (bits w 16 5) (bits w 14 2) (bits w 9 5) (bits w 7 2))
  | 8 => .ok (.rem (bits w 21 5) (bits w 16 5) (bits w 14 2) (bits w 9 5) (bits w 7 2))
  | 9 => .ok (.remu (bits w 21 5) (bits w 16 5) (bits w 14 2) (bits w 9 5) (bits w 7 2))
  | 10 => .ok (.and (bits w 21 5) (bits w 16 5) (bits w 14 2) (bits w 9 5) (bits w 7 2))
  | 11 => .ok (.or (bits w 21 5) (bits w 16 5) (bits w 14 2) (bits w 9 5) (bits w 7 2))
  | 12 => .ok (.xor (bits w 21 5) (bits w 16 5) (bits w 14 2) (bits w 9 5) (bits w 7 2))
  | 13 => .ok (.andn (bits w 21 5) (bits w 16 5) (bits w 14 2) (bits w 9 5) (bits w 7 2))
  | 14 => .ok (.shl (bits w 21 5) (bits w 16 5) (bits w 14 2) (bits w 9 5) (bits w 7 2))
  | 15 => .ok (.shr (bits w 21 5) (bits w 16 5) (bits w 14 2) (bits w 9 5) (bits w 7 2))
  | 16 => .ok (.sra (bits w 21 5) (bits w 16 5) (bits w 14 2) (bits w 9 5) (bits w 7 2))
  | 17 => .ok (.rol (bits w 21 5) (bits w 16 5) (bits w 14 2) (bits w 9 5) (bits w 7 2))
  | 18 => .ok (.min (bits w 21 5) (bits w 16 5) (bits w 14 2) (bits w 9 5) (bits w 7 2))
  | 19 => .ok (.max (bits w 21 5) (bits w 16 5) (bits w 14 2) (bits w 9 5) (bits w 7 2))
  | 20 => .ok (.minu (bits w 21 5) (bits w 16 5) (bits w 14 2) (bits w 9 5) (bits w 7 2))
  | 21 => .ok (.maxu (bits w 21 5) (bits w 16 5) (bits w 14 2) (bits w 9 5) (bits w 7 2))
  | 22 => .ok (.slt (bits w 21 5) (bits w 16 5) (bits w 14 2) (bits w 9 5) (bits w 7 2))
  | 23 => .ok (.sltu (bits w 21 5) (bits w 16 5) (bits w 14 2) (bits w 9 5) (bits w 7 2))
  | 24 => .ok (.seq (bits w 21 5) (bits w 16 5) (bits w 14 2) (bits w 9 5) (bits w 7 2))
  | 25 => ensure (zeros w [(7, 7)]) 0x060#10 (.ok (.clz (bits w 21 5) (bits w 16 5) (bits w 14 2)))
  | 26 => ensure (zeros w [(7, 7)]) 0x060#10 (.ok (.ctz (bits w 21 5) (bits w 16 5) (bits w 14 2)))
  | 27 => ensure (zeros w [(7, 7)]) 0x060#10 (.ok (.popc (bits w 21 5) (bits w 16 5) (bits w 14 2)))
  | 28 => ensure (zeros w [(7, 7)]) 0x060#10 (.ok (.sextb (bits w 21 5) (bits w 16 5) (bits w 14 2)))
  | 29 => ensure (zeros w [(7, 7)]) 0x060#10 (.ok (.sexth (bits w 21 5) (bits w 16 5) (bits w 14 2)))
  | 30 => ensure (zeros w [(7, 7)]) 0x060#10 (.ok (.sextw (bits w 21 5) (bits w 16 5) (bits w 14 2)))
  | 31 => .ok (.bfx (bits w 21 5) (bits w 16 5) (bits w 14 2) (bits w 9 5) (bits w 7 2))
  | 32 => .ok (.bfi (bits w 21 5) (bits w 16 5) (bits w 14 2) (bits w 9 5) (bits w 7 2))
  | 33 => .ok (.sel (bits w 21 5) (bits w 16 5) (bits w 14 2) (bits w 9 5) (bits w 7 2))
  | 34 => .ok (.addw (bits w 21 5) (bits w 16 5) (bits w 14 2) (bits w 9 5) (bits w 7 2))
  | 35 => .ok (.subw (bits w 21 5) (bits w 16 5) (bits w 14 2) (bits w 9 5) (bits w 7 2))
  | _ => .error 0x048#10

/-- Words of primary 0x8 (R70, R72), format F-I. -/
def decodeShi (w : Word32) : Except Cause Instr :=
  match (bits w 12 2).toNat with
  | 0 => ensure (zeros w [(6, 6)]) 0x061#10 (.ok (.shli (bits w 21 5) (bits w 16 5) (bits w 14 2) (bits w 0 6)))
  | 1 => ensure (zeros w [(6, 6)]) 0x061#10 (.ok (.shri (bits w 21 5) (bits w 16 5) (bits w 14 2) (bits w 0 6)))
  | 2 => ensure (zeros w [(6, 6)]) 0x061#10 (.ok (.srai (bits w 21 5) (bits w 16 5) (bits w 14 2) (bits w 0 6)))
  | 3 => ensure (zeros w [(6, 6)]) 0x061#10 (.ok (.rori (bits w 21 5) (bits w 16 5) (bits w 14 2) (bits w 0 6)))
  | _ => .error 0x05F#10

/-- Words of primary 0xc (R70, R72), format F-B. -/
def decodeBr (w : Word32) : Except Cause Instr :=
  match (bits w 16 3).toNat with
  | 0 => .ok (.beqz (bits w 21 5) (bits w 19 2) (bits w 0 16))
  | 1 => .ok (.bnez (bits w 21 5) (bits w 19 2) (bits w 0 16))
  | 2 => .ok (.bltz (bits w 21 5) (bits w 19 2) (bits w 0 16))
  | 3 => .ok (.bgez (bits w 21 5) (bits w 19 2) (bits w 0 16))
  | 4 => .ok (.bgtz (bits w 21 5) (bits w 19 2) (bits w 0 16))
  | 5 => .ok (.blez (bits w 21 5) (bits w 19 2) (bits w 0 16))
  | 6 => .ok (.bodd (bits w 21 5) (bits w 19 2) (bits w 0 16))
  | _ => .error 0x04B#10

/-- Words of primary 0xf (R70, R72), format F-Q. -/
def decodeJr (w : Word32) : Except Cause Instr :=
  match (bits w 0 7).toNat with
  | 0 => ensure (zeros w [(7, 7), (21, 5)]) 0x060#10 (.ok (.jr (bits w 16 5) (bits w 14 2)))
  | 1 => ensure (zeros w [(7, 7)]) 0x060#10 (.ok (.jalr (bits w 21 5) (bits w 16 5) (bits w 14 2)))
  | _ => .error 0x049#10

/-- Words of primary 0x10 (R70, R72), format F-L. -/
def decodeLoop (w : Word32) : Except Cause Instr :=
  match (bits w 23 3).toNat with
  | 0 => .ok (.lcar (bits w 18 5) (bits w 13 5) (bits w 11 2) (bits w 0 11))
  | 1 => ensure (zeros w [(18, 5)]) 0x066#10 (.ok (.loop (bits w 13 5) (bits w 11 2) (bits w 0 11)))
  | 2 => ensure (zeros w [(0, 23)]) 0x066#10 (.ok (.endit))
  | 3 => ensure (level (bits w 0 11)) 0x05F#10 (ensure (zeros w [(18, 5)]) 0x066#10 (.ok (.brkif (bits w 13 5) (bits w 11 2) (bits w 0 11))))
  | 4 => ensure (zeros w [(0, 11), (18, 5)]) 0x066#10 (.ok (.contif (bits w 13 5) (bits w 11 2)))
  | 5 => ensure (level (bits w 0 11)) 0x05F#10 (ensure (zeros w [(11, 7)]) 0x066#10 (.ok (.itx (bits w 18 5) (bits w 0 11))))
  | 6 => ensure (level (bits w 0 11)) 0x05F#10 (ensure (zeros w [(11, 7)]) 0x066#10 (.ok (.lstat (bits w 18 5) (bits w 0 11))))
  | 7 => ensure (zeros w [(3, 10)]) 0x066#10 (.ok (.movd (bits w 18 5) (bits w 13 5) (bits w 0 3)))
  | _ => .error 0x05F#10

/-- Words of primary 0x11 (R70, R72), format F-L. -/
def decodeGang (w : Word32) : Except Cause Instr :=
  match (bits w 23 3).toNat with
  | 0 => ensure (zeros w [(0, 23)]) 0x066#10 (.ok (.fuse))
  | 1 => ensure (zeros w [(0, 23)]) 0x066#10 (.ok (.split))
  | 2 => ensure (zeros w [(0, 11)]) 0x066#10 (.ok (.gany (bits w 18 5) (bits w 13 5) (bits w 11 2)))
  | 3 => ensure (zeros w [(0, 11)]) 0x066#10 (.ok (.gall (bits w 18 5) (bits w 13 5) (bits w 11 2)))
  | 4 => ensure (zeros w [(0, 18)]) 0x066#10 (.ok (.gidx (bits w 18 5)))
  | 5 => ensure ((bits w 0 11).toNat ≤ 15) 0x05F#10 (.ok (.gbc (bits w 18 5) (bits w 13 5) (bits w 11 2) (bits w 0 11)))
  | 6 => ensure (zeros w [(0, 11)]) 0x066#10 (.ok (.gsum (bits w 18 5) (bits w 13 5) (bits w 11 2)))
  | _ => .error 0x04C#10

/-- Words of primary 0x12 (R70, R72), format F-M. -/
def decodeLd (w : Word32) : Except Cause Instr :=
  match (bits w 11 3).toNat with
  | 0 => .ok (.lb (bits w 21 5) (bits w 16 5) (bits w 14 2) (bits w 0 11))
  | 1 => .ok (.lbu (bits w 21 5) (bits w 16 5) (bits w 14 2) (bits w 0 11))
  | 2 => .ok (.lh (bits w 21 5) (bits w 16 5) (bits w 14 2) (bits w 0 11))
  | 3 => .ok (.lhu (bits w 21 5) (bits w 16 5) (bits w 14 2) (bits w 0 11))
  | 4 => .ok (.lw (bits w 21 5) (bits w 16 5) (bits w 14 2) (bits w 0 11))
  | 5 => .ok (.lwu (bits w 21 5) (bits w 16 5) (bits w 14 2) (bits w 0 11))
  | 6 => .ok (.ld (bits w 21 5) (bits w 16 5) (bits w 14 2) (bits w 0 11))
  | _ => .error 0x04D#10

/-- Words of primary 0x13 (R70, R72), format F-M. -/
def decodeSt (w : Word32) : Except Cause Instr :=
  match (bits w 11 3).toNat with
  | 0 => .ok (.sb (bits w 21 5) (bits w 16 5) (bits w 14 2) (bits w 0 11))
  | 2 => .ok (.sh (bits w 21 5) (bits w 16 5) (bits w 14 2) (bits w 0 11))
  | 4 => .ok (.sw (bits w 21 5) (bits w 16 5) (bits w 14 2) (bits w 0 11))
  | 6 => .ok (.sd (bits w 21 5) (bits w 16 5) (bits w 14 2) (bits w 0 11))
  | _ => .error 0x04E#10

/-- Words of primary 0x14 (R70, R72), format F-MX. R55 and R79 give no order inside step 4: a reserved scope (0x05C) comes
before a size that the operation refuses (0x05D) (DESIGN CHOICE, log 70). -/
def decodeMx (w : Word32) : Except Cause Instr :=
  match (bits w 9 3).toNat with
  | 0 => ensure (zeros w [(0, 6)]) 0x068#10 (withScope (bits w 6 3) fun s => .ok (.lda (bits w 21 5) (bits w 16 5) (bits w 14 2) (Size.ofBits (bits w 12 2)) s))
  | 1 => ensure (zeros w [(0, 6)]) 0x068#10 (withScope (bits w 6 3) fun s => .ok (.stl (bits w 21 5) (bits w 16 5) (bits w 14 2) (Size.ofBits (bits w 12 2)) s))
  | 2 => ensure (zeros w [(0, 6)]) 0x068#10 (withScope (bits w 6 3) fun s => .ok (.ldro (bits w 21 5) (bits w 16 5) (bits w 14 2) (Size.ofBits (bits w 12 2)) s))
  | 3 => ensure (zeros w [(1, 5), (21, 5)]) 0x068#10 (withScope (bits w 6 3) fun s => ensure (bits w 12 2 == 3#2) 0x05D#10 (.ok (.pref (bits w 16 5) (bits w 14 2) s (bits w 0 1))))
  | 4 => ensure (zeros w [(0, 5)]) 0x068#10 (withScope (bits w 6 3) fun s => ensure (bits w 12 2 == 0#2) 0x05D#10 (.ok (.stn (bits w 21 5) (bits w 16 5) (bits w 14 2) s (bits w 5 1))))
  | 5 => ensure (zeros w [(0, 6)]) 0x068#10 (withScope (bits w 6 3) fun s => .ok (.sts (bits w 21 5) (bits w 16 5) (bits w 14 2) (Size.ofBits (bits w 12 2)) s))
  | _ => .error 0x04F#10

/-- Words of primary 0x15 (R70, R72), format F-A. As in decodeMx, 0x05C comes before 0x05D (DESIGN CHOICE, log 70). -/
def decodeAmo (w : Word32) : Except Cause Instr :=
  match (bits w 7 4).toNat with
  | 0 => ensure (zeros w [(0, 1)]) 0x069#10 (withScope (bits w 2 3) fun s => .ok (.amoswp (bits w 21 5) (bits w 16 5) (bits w 11 5) (Order.ofBits (bits w 5 2)) s (Wide.ofBits (bits w 1 1))))
  | 1 => ensure (zeros w [(0, 1)]) 0x069#10 (withScope (bits w 2 3) fun s => .ok (.amoadd (bits w 21 5) (bits w 16 5) (bits w 11 5) (Order.ofBits (bits w 5 2)) s (Wide.ofBits (bits w 1 1))))
  | 2 => ensure (zeros w [(0, 1)]) 0x069#10 (withScope (bits w 2 3) fun s => .ok (.amoand (bits w 21 5) (bits w 16 5) (bits w 11 5) (Order.ofBits (bits w 5 2)) s (Wide.ofBits (bits w 1 1))))
  | 3 => ensure (zeros w [(0, 1)]) 0x069#10 (withScope (bits w 2 3) fun s => .ok (.amoor (bits w 21 5) (bits w 16 5) (bits w 11 5) (Order.ofBits (bits w 5 2)) s (Wide.ofBits (bits w 1 1))))
  | 4 => ensure (zeros w [(0, 1)]) 0x069#10 (withScope (bits w 2 3) fun s => .ok (.amoxor (bits w 21 5) (bits w 16 5) (bits w 11 5) (Order.ofBits (bits w 5 2)) s (Wide.ofBits (bits w 1 1))))
  | 5 => ensure (zeros w [(0, 1)]) 0x069#10 (withScope (bits w 2 3) fun s => .ok (.amomin (bits w 21 5) (bits w 16 5) (bits w 11 5) (Order.ofBits (bits w 5 2)) s (Wide.ofBits (bits w 1 1))))
  | 6 => ensure (zeros w [(0, 1)]) 0x069#10 (withScope (bits w 2 3) fun s => .ok (.amomax (bits w 21 5) (bits w 16 5) (bits w 11 5) (Order.ofBits (bits w 5 2)) s (Wide.ofBits (bits w 1 1))))
  | 7 => ensure (zeros w [(0, 1)]) 0x069#10 (withScope (bits w 2 3) fun s => .ok (.amominu (bits w 21 5) (bits w 16 5) (bits w 11 5) (Order.ofBits (bits w 5 2)) s (Wide.ofBits (bits w 1 1))))
  | 8 => ensure (zeros w [(0, 1)]) 0x069#10 (withScope (bits w 2 3) fun s => .ok (.amomaxu (bits w 21 5) (bits w 16 5) (bits w 11 5) (Order.ofBits (bits w 5 2)) s (Wide.ofBits (bits w 1 1))))
  | 9 => ensure (zeros w [(0, 1)]) 0x069#10 (withScope (bits w 2 3) fun s => .ok (.cas (bits w 21 5) (bits w 16 5) (bits w 11 5) (Order.ofBits (bits w 5 2)) s (Wide.ofBits (bits w 1 1))))
  | 10 => ensure (zeros w [(0, 1)]) 0x069#10 (withScope (bits w 2 3) fun s => ensure (bits w 1 1 == 0#1) 0x05D#10 (.ok (.amofadd (bits w 21 5) (bits w 16 5) (bits w 11 5) (Order.ofBits (bits w 5 2)) s)))
  | 11 => ensure (zeros w [(0, 1)]) 0x069#10 (withScope (bits w 2 3) fun s => .ok (.amoinc (bits w 21 5) (bits w 16 5) (bits w 11 5) (Order.ofBits (bits w 5 2)) s (Wide.ofBits (bits w 1 1))))
  | _ => .error 0x050#10

/-- Words of primary 0x16 (R70, R72), format F-F. -/
def decodeFence (w : Word32) : Except Cause Instr :=
  match (bits w 23 3).toNat with
  | 0 => ensure (zeros w [(0, 20)]) 0x06A#10 (withScope (bits w 20 3) fun s => .ok (.fence s))
  | 1 => ensure (zeros w [(0, 20)]) 0x06A#10 (withScope (bits w 20 3) fun s => .ok (.fenceR s))
  | 2 => ensure (zeros w [(0, 20)]) 0x06A#10 (withScope (bits w 20 3) fun s => .ok (.fenceW s))
  | 3 => ensure (zeros w [(0, 20)]) 0x06A#10 (withScope (bits w 20 3) fun s => .ok (.ifence s))
  | 4 => ensure (zeros w [(0, 20)]) 0x06A#10 (withScope (bits w 20 3) fun s => .ok (.fenceE s))
  | 5 => ensure (zeros w [(0, 20)]) 0x06A#10 (withScope (bits w 20 3) fun s => .ok (.fenceJ s))
  | _ => .error 0x051#10

/-- Words of primary 0x17 (R70, R72), format F-Q. -/
def decodeFop (w : Word32) : Except Cause Instr :=
  match (bits w 1 6).toNat with
  | 0 => .ok (.fadd (bits w 21 5) (bits w 16 5) (bits w 14 2) (bits w 9 5) (bits w 7 2) (Prec.ofBits (bits w 0 1)))
  | 1 => .ok (.fsub (bits w 21 5) (bits w 16 5) (bits w 14 2) (bits w 9 5) (bits w 7 2) (Prec.ofBits (bits w 0 1)))
  | 2 => .ok (.fmul (bits w 21 5) (bits w 16 5) (bits w 14 2) (bits w 9 5) (bits w 7 2) (Prec.ofBits (bits w 0 1)))
  | 3 => .ok (.fdiv (bits w 21 5) (bits w 16 5) (bits w 14 2) (bits w 9 5) (bits w 7 2) (Prec.ofBits (bits w 0 1)))
  | 4 => ensure (zeros w [(7, 7)]) 0x060#10 (.ok (.fsqrt (bits w 21 5) (bits w 16 5) (bits w 14 2) (Prec.ofBits (bits w 0 1))))
  | 5 => .ok (.fma (bits w 21 5) (bits w 16 5) (bits w 14 2) (bits w 9 5) (bits w 7 2) (Prec.ofBits (bits w 0 1)))
  | 6 => .ok (.fmin (bits w 21 5) (bits w 16 5) (bits w 14 2) (bits w 9 5) (bits w 7 2) (Prec.ofBits (bits w 0 1)))
  | 7 => .ok (.fmax (bits w 21 5) (bits w 16 5) (bits w 14 2) (bits w 9 5) (bits w 7 2) (Prec.ofBits (bits w 0 1)))
  | 8 => .ok (.feq (bits w 21 5) (bits w 16 5) (bits w 14 2) (bits w 9 5) (bits w 7 2) (Prec.ofBits (bits w 0 1)))
  | 9 => .ok (.flt (bits w 21 5) (bits w 16 5) (bits w 14 2) (bits w 9 5) (bits w 7 2) (Prec.ofBits (bits w 0 1)))
  | 10 => .ok (.fle (bits w 21 5) (bits w 16 5) (bits w 14 2) (bits w 9 5) (bits w 7 2) (Prec.ofBits (bits w 0 1)))
  | 11 => ensure (zeros w [(7, 7)]) 0x060#10 (.ok (.fclass (bits w 21 5) (bits w 16 5) (bits w 14 2) (Prec.ofBits (bits w 0 1))))
  | 12 => ensure (zeros w [(7, 7)]) 0x060#10 (.ok (.fcvti (bits w 21 5) (bits w 16 5) (bits w 14 2) (Prec.ofBits (bits w 0 1))))
  | 13 => ensure (zeros w [(7, 7)]) 0x060#10 (.ok (.fcvtf (bits w 21 5) (bits w 16 5) (bits w 14 2) (Prec.ofBits (bits w 0 1))))
  | 14 => ensure (zeros w [(7, 7)]) 0x060#10 (.ok (.fcvtw (bits w 21 5) (bits w 16 5) (bits w 14 2) (Prec.ofBits (bits w 0 1))))
  | _ => .error 0x04A#10

/-- Words of primary 0x18 (R70, R72), format F-V. -/
def decodeVint (w : Word32) : Except Cause Instr :=
  match (bits w 2 5).toNat with
  | 0 => .ok (.vadd (bits w 21 5) (bits w 16 5) (bits w 15 1) (bits w 10 5) (bits w 7 3) (IntTy.ofBits (bits w 0 2)))
  | 1 => .ok (.vsub (bits w 21 5) (bits w 16 5) (bits w 15 1) (bits w 10 5) (bits w 7 3) (IntTy.ofBits (bits w 0 2)))
  | 2 => .ok (.vmul (bits w 21 5) (bits w 16 5) (bits w 15 1) (bits w 10 5) (bits w 7 3) (IntTy.ofBits (bits w 0 2)))
  | 3 => .ok (.vmulh (bits w 21 5) (bits w 16 5) (bits w 15 1) (bits w 10 5) (bits w 7 3) (IntTy.ofBits (bits w 0 2)))
  | 4 => .ok (.vmin (bits w 21 5) (bits w 16 5) (bits w 15 1) (bits w 10 5) (bits w 7 3) (IntTy.ofBits (bits w 0 2)))
  | 5 => .ok (.vmax (bits w 21 5) (bits w 16 5) (bits w 15 1) (bits w 10 5) (bits w 7 3) (IntTy.ofBits (bits w 0 2)))
  | 6 => .ok (.vminu (bits w 21 5) (bits w 16 5) (bits w 15 1) (bits w 10 5) (bits w 7 3) (IntTy.ofBits (bits w 0 2)))
  | 7 => .ok (.vmaxu (bits w 21 5) (bits w 16 5) (bits w 15 1) (bits w 10 5) (bits w 7 3) (IntTy.ofBits (bits w 0 2)))
  | 8 => .ok (.vand (bits w 21 5) (bits w 16 5) (bits w 15 1) (bits w 10 5) (bits w 7 3) (IntTy.ofBits (bits w 0 2)))
  | 9 => .ok (.vor (bits w 21 5) (bits w 16 5) (bits w 15 1) (bits w 10 5) (bits w 7 3) (IntTy.ofBits (bits w 0 2)))
  | 10 => .ok (.vxor (bits w 21 5) (bits w 16 5) (bits w 15 1) (bits w 10 5) (bits w 7 3) (IntTy.ofBits (bits w 0 2)))
  | 11 => .ok (.vshl (bits w 21 5) (bits w 16 5) (bits w 15 1) (bits w 10 5) (bits w 7 3) (IntTy.ofBits (bits w 0 2)))
  | 12 => .ok (.vshr (bits w 21 5) (bits w 16 5) (bits w 15 1) (bits w 10 5) (bits w 7 3) (IntTy.ofBits (bits w 0 2)))
  | 13 => .ok (.vsra (bits w 21 5) (bits w 16 5) (bits w 15 1) (bits w 10 5) (bits w 7 3) (IntTy.ofBits (bits w 0 2)))
  | 14 => .ok (.vsadd (bits w 21 5) (bits w 16 5) (bits w 15 1) (bits w 10 5) (bits w 7 3) (IntTy.ofBits (bits w 0 2)))
  | 15 => .ok (.vssub (bits w 21 5) (bits w 16 5) (bits w 15 1) (bits w 10 5) (bits w 7 3) (IntTy.ofBits (bits w 0 2)))
  | 16 => ensure (zeros w [(10, 5)]) 0x06B#10 (.ok (.vabs (bits w 21 5) (bits w 16 5) (bits w 15 1) (bits w 7 3) (IntTy.ofBits (bits w 0 2))))
  | 17 => ensure (zeros w [(24, 2)]) 0x06B#10 (.ok (.vcmpeq (bits w 21 3) (bits w 16 5) (bits w 15 1) (bits w 10 5) (bits w 7 3) (IntTy.ofBits (bits w 0 2))))
  | 18 => ensure (zeros w [(24, 2)]) 0x06B#10 (.ok (.vcmplt (bits w 21 3) (bits w 16 5) (bits w 15 1) (bits w 10 5) (bits w 7 3) (IntTy.ofBits (bits w 0 2))))
  | 19 => ensure (zeros w [(24, 2)]) 0x06B#10 (.ok (.vcmpltu (bits w 21 3) (bits w 16 5) (bits w 15 1) (bits w 10 5) (bits w 7 3) (IntTy.ofBits (bits w 0 2))))
  | _ => .error 0x052#10

/-- Words of primary 0x19 (R70, R72), format F-V. -/
def decodeVflt (w : Word32) : Except Cause Instr :=
  match (bits w 2 5).toNat with
  | 0 => withFltTy (bits w 0 2) fun t => .ok (.vfadd (bits w 21 5) (bits w 16 5) (bits w 15 1) (bits w 10 5) (bits w 7 3) t)
  | 1 => withFltTy (bits w 0 2) fun t => .ok (.vfsub (bits w 21 5) (bits w 16 5) (bits w 15 1) (bits w 10 5) (bits w 7 3) t)
  | 2 => withFltTy (bits w 0 2) fun t => .ok (.vfmul (bits w 21 5) (bits w 16 5) (bits w 15 1) (bits w 10 5) (bits w 7 3) t)
  | 3 => withFltTy (bits w 0 2) fun t => .ok (.vfma (bits w 21 5) (bits w 16 5) (bits w 15 1) (bits w 10 5) (bits w 7 3) t)
  | 4 => withFltTy (bits w 0 2) fun t => .ok (.vfmin (bits w 21 5) (bits w 16 5) (bits w 15 1) (bits w 10 5) (bits w 7 3) t)
  | 5 => withFltTy (bits w 0 2) fun t => .ok (.vfmax (bits w 21 5) (bits w 16 5) (bits w 15 1) (bits w 10 5) (bits w 7 3) t)
  | 6 => withFltTy (bits w 0 2) fun t => .ok (.vfdiv (bits w 21 5) (bits w 16 5) (bits w 15 1) (bits w 10 5) (bits w 7 3) t)
  | 7 => ensure (zeros w [(10, 5)]) 0x06B#10 (withFltTy (bits w 0 2) fun t => .ok (.vfsqrt (bits w 21 5) (bits w 16 5) (bits w 15 1) (bits w 7 3) t))
  | 8 => ensure (zeros w [(10, 5)]) 0x06B#10 (withFltTy (bits w 0 2) fun t => .ok (.vfabs (bits w 21 5) (bits w 16 5) (bits w 15 1) (bits w 7 3) t))
  | 9 => ensure (zeros w [(10, 5)]) 0x06B#10 (withFltTy (bits w 0 2) fun t => .ok (.vfneg (bits w 21 5) (bits w 16 5) (bits w 15 1) (bits w 7 3) t))
  | 10 => ensure (zeros w [(24, 2)]) 0x06B#10 (withFltTy (bits w 0 2) fun t => .ok (.vfcmpeq (bits w 21 3) (bits w 16 5) (bits w 15 1) (bits w 10 5) (bits w 7 3) t))
  | 11 => ensure (zeros w [(24, 2)]) 0x06B#10 (withFltTy (bits w 0 2) fun t => .ok (.vfcmplt (bits w 21 3) (bits w 16 5) (bits w 15 1) (bits w 10 5) (bits w 7 3) t))
  | 12 => ensure (zeros w [(24, 2)]) 0x06B#10 (withFltTy (bits w 0 2) fun t => .ok (.vfcmple (bits w 21 3) (bits w 16 5) (bits w 15 1) (bits w 10 5) (bits w 7 3) t))
  | _ => .error 0x053#10

/-- Words of primary 0x1a (R70, R72), format F-VM. -/
def decodeVmem (w : Word32) : Except Cause Instr :=
  match (bits w 3 3).toNat with
  | 0 => ensure (zeros w [(0, 1), (9, 5)]) 0x06C#10 (.ok (.vld (bits w 21 5) (bits w 16 5) (bits w 14 2) (bits w 6 3) (Size.ofBits (bits w 1 2))))
  | 1 => ensure (zeros w [(0, 1), (9, 5)]) 0x06C#10 (.ok (.vst (bits w 21 5) (bits w 16 5) (bits w 14 2) (bits w 6 3) (Size.ofBits (bits w 1 2))))
  | 2 => ensure (zeros w [(0, 1)]) 0x06C#10 (.ok (.vlds (bits w 21 5) (bits w 16 5) (bits w 14 2) (bits w 9 5) (bits w 6 3) (Size.ofBits (bits w 1 2))))
  | 3 => ensure (zeros w [(0, 1)]) 0x06C#10 (.ok (.vsts (bits w 21 5) (bits w 16 5) (bits w 14 2) (bits w 9 5) (bits w 6 3) (Size.ofBits (bits w 1 2))))
  | 4 => ensure (zeros w [(0, 1)]) 0x06C#10 (.ok (.vgath (bits w 21 5) (bits w 16 5) (bits w 14 2) (bits w 9 5) (bits w 6 3) (Size.ofBits (bits w 1 2))))
  | 5 => ensure (zeros w [(0, 1)]) 0x06C#10 (.ok (.vscat (bits w 21 5) (bits w 16 5) (bits w 14 2) (bits w 9 5) (bits w 6 3) (Size.ofBits (bits w 1 2))))
  | 6 => ensure (zeros w [(0, 1), (9, 5)]) 0x06C#10 (.ok (.vldb (bits w 21 5) (bits w 16 5) (bits w 14 2) (bits w 6 3) (Size.ofBits (bits w 1 2))))
  | _ => .error 0x055#10

/-- Words of primary 0x1b (R70, R72), format F-V. -/
def decodeVxf (w : Word32) : Except Cause Instr :=
  match (bits w 0 7).toNat with
  | 0 => .ok (.vshuf (bits w 21 5) (bits w 16 5) (bits w 15 1) (bits w 10 5) (bits w 7 3))
  | 1 => .ok (.vslide (bits w 21 5) (bits w 16 5) (bits w 15 1) (bits w 10 5) (bits w 7 3))
  | 2 => ensure (zeros w [(10, 5)]) 0x06B#10 (.ok (.vbcast (bits w 21 5) (bits w 16 5) (bits w 15 1) (bits w 7 3)))
  | 3 => ensure (zeros w [(7, 3)]) 0x06B#10 (.ok (.vext (bits w 21 5) (bits w 16 5) (bits w 15 1) (bits w 10 5)))
  | 4 => ensure (zeros w [(7, 3)]) 0x06B#10 (.ok (.vins (bits w 21 5) (bits w 16 5) (bits w 15 1) (bits w 10 5)))
  | 5 => ensure (zeros w [(10, 5)]) 0x06B#10 (.ok (.vredsum (bits w 21 5) (bits w 16 5) (bits w 15 1) (bits w 7 3)))
  | 6 => ensure (zeros w [(10, 5)]) 0x06B#10 (.ok (.vredmax (bits w 21 5) (bits w 16 5) (bits w 15 1) (bits w 7 3)))
  | 7 => ensure (zeros w [(10, 5)]) 0x06B#10 (.ok (.vredmin (bits w 21 5) (bits w 16 5) (bits w 15 1) (bits w 7 3)))
  | 8 => ensure (zeros w [(10, 5)]) 0x06B#10 (.ok (.vcvt (bits w 21 5) (bits w 16 5) (bits w 15 1) (bits w 7 3)))
  | 9 => ensure (zeros w [(10, 5)]) 0x06B#10 (.ok (.venc (bits w 21 5) (bits w 16 5) (bits w 15 1) (bits w 7 3)))
  | 10 => ensure (zeros w [(10, 5)]) 0x06B#10 (.ok (.vdec (bits w 21 5) (bits w 16 5) (bits w 15 1) (bits w 7 3)))
  | 11 => ensure (zeros w [(7, 3)]) 0x06B#10 (.ok (.vqnt (bits w 21 5) (bits w 16 5) (bits w 15 1) (bits w 10 5)))
  | 12 => ensure (zeros w [(10, 5)]) 0x06B#10 (.ok (.vdqnt (bits w 21 5) (bits w 16 5) (bits w 15 1) (bits w 7 3)))
  | 13 => ensure (zeros w [(10, 5)]) 0x06B#10 (.ok (.vppu (bits w 21 5) (bits w 16 5) (bits w 15 1) (bits w 7 3)))
  | 14 => ensure (zeros w [(10, 11)]) 0x06B#10 (.ok (.viota (bits w 21 5) (bits w 7 3)))
  | 15 => .ok (.vsel (bits w 21 5) (bits w 16 5) (bits w 15 1) (bits w 10 5) (bits w 7 3))
  | _ => .error 0x056#10

/-- Words of primary 0x1c (R70, R72), format F-V. -/
def decodeVmask (w : Word32) : Except Cause Instr :=
  match (bits w 0 7).toNat with
  | 0 => ensure (zeros w [(7, 3), (13, 3), (19, 2), (24, 2)]) 0x06B#10 (.ok (.kand (bits w 21 3) (bits w 16 3) (bits w 10 3)))
  | 1 => ensure (zeros w [(7, 3), (13, 3), (19, 2), (24, 2)]) 0x06B#10 (.ok (.kor (bits w 21 3) (bits w 16 3) (bits w 10 3)))
  | 2 => ensure (zeros w [(7, 3), (13, 3), (19, 2), (24, 2)]) 0x06B#10 (.ok (.kxor (bits w 21 3) (bits w 16 3) (bits w 10 3)))
  | 3 => ensure (zeros w [(7, 9), (19, 2), (24, 2)]) 0x06B#10 (.ok (.knot (bits w 21 3) (bits w 16 3)))
  | 4 => ensure (zeros w [(7, 8), (24, 2)]) 0x06B#10 (.ok (.kfrom (bits w 21 3) (bits w 16 5) (bits w 15 1)))
  | 5 => ensure (zeros w [(7, 9), (19, 2)]) 0x06B#10 (.ok (.kto (bits w 21 5) (bits w 16 3)))
  | 6 => ensure (zeros w [(7, 9), (19, 2)]) 0x06B#10 (.ok (.kpop (bits w 21 5) (bits w 16 3)))
  | 7 => ensure (zeros w [(7, 9), (19, 2)]) 0x06B#10 (.ok (.kfirst (bits w 21 5) (bits w 16 3)))
  | _ => .error 0x057#10

/-- Words of primary 0x1d (R70, R72), format F-E. -/
def decodeMxe (w : Word32) : Except Cause Instr :=
  match (bits w 4 7).toNat with
  | 0 => ensure (bits w 2 1 == 0#1) 0x059#10 (ensure (zeros w [(21, 5)]) 0x06D#10 (.ok (.mcfg (bits w 16 5) (bits w 11 5) (bits w 3 1) (bits w 0 2))))
  | 1 => ensure (bits w 2 1 == 0#1) 0x059#10 (ensure (zeros w [(11, 5), (21, 5)]) 0x06D#10 (.ok (.mgeo (bits w 16 5) (bits w 3 1) (bits w 0 2))))
  | 2 => ensure (bits w 2 1 == 0#1) 0x059#10 (ensure (zeros w [(11, 15)]) 0x06D#10 (.ok (.mzero (bits w 3 1) (bits w 0 2))))
  | 3 => ensure (bits w 2 1 == 0#1) 0x059#10 (ensure (zeros w [(21, 5)]) 0x06D#10 (.ok (.mma (bits w 16 5) (bits w 11 5) (bits w 3 1) (bits w 0 2))))
  | 4 => ensure (bits w 2 1 == 0#1) 0x059#10 (ensure (zeros w [(21, 5)]) 0x06D#10 (.ok (.mmat (bits w 16 5) (bits w 11 5) (bits w 3 1) (bits w 0 2))))
  | 5 => ensure (bits w 2 1 == 0#1) 0x059#10 (ensure (zeros w [(21, 5)]) 0x06D#10 (.ok (.mmas (bits w 16 5) (bits w 11 5) (bits w 3 1) (bits w 0 2))))
  | 6 => ensure (zeros w [(21, 5)]) 0x06D#10 (.ok (.mdrain (bits w 16 5) (bits w 11 5) (bits w 3 1) (bits w 2 1) (bits w 0 2)))
  | 7 => ensure (bits w 2 1 == 0#1) 0x059#10 (ensure (zeros w [(21, 5)]) 0x06D#10 (.ok (.mldacc (bits w 16 5) (bits w 11 5) (bits w 3 1) (bits w 0 2))))
  | 8 => ensure (bits w 2 1 == 0#1) 0x059#10 (ensure (zeros w [(11, 5)]) 0x06D#10 (.ok (.mstacc (bits w 21 5) (bits w 16 5) (bits w 3 1) (bits w 0 2))))
  | 9 => ensure (bits w 2 1 == 0#1) 0x059#10 (ensure (zeros w [(11, 10)]) 0x06D#10 (.ok (.mstat (bits w 21 5) (bits w 3 1) (bits w 0 2))))
  | 10 => ensure (bits w 2 1 == 0#1) 0x059#10 (ensure (zeros w [(11, 15)]) 0x06D#10 (.ok (.mwait (bits w 3 1) (bits w 0 2))))
  | _ => .error 0x058#10

/-- Words of primary 0x1e (R70, R72), format F-E. -/
def decodeCry (w : Word32) : Except Cause Instr :=
  match (bits w 4 7).toNat with
  | 0 => ensure (bits w 2 1 == 0#1) 0x059#10 (ensure (zeros w [(21, 5)]) 0x06D#10 (.ok (.chain (bits w 16 5) (bits w 11 5) (bits w 3 1) (bits w 0 2))))
  | 1 => ensure (bits w 2 1 == 0#1) 0x059#10 (.ok (.cadd (bits w 21 5) (bits w 16 5) (bits w 11 5) (bits w 3 1) (bits w 0 2)))
  | 2 => ensure (bits w 2 1 == 0#1) 0x059#10 (ensure (zeros w [(11, 15)]) 0x06D#10 (.ok (.cclose (bits w 3 1) (bits w 0 2))))
  | 3 => ensure (bits w 0 3 == 0#3) 0x059#10 (ensure (zeros w [(11, 5)]) 0x06D#10 (.ok (.cstat (bits w 21 5) (bits w 16 5) (bits w 3 1))))
  | 4 => ensure (bits w 2 1 == 0#1) 0x059#10 (ensure (zeros w [(11, 15)]) 0x06D#10 (.ok (.cwait (bits w 3 1) (bits w 0 2))))
  | _ => .error 0x058#10

/-- Words of primary 0x1f (R70, R72), format F-E. -/
def decodeRng (w : Word32) : Except Cause Instr :=
  match (bits w 4 7).toNat with
  | 0 => ensure (bits w 0 3 == 0#3) 0x059#10 (ensure (zeros w [(3, 1), (11, 5), (21, 5)]) 0x06D#10 (.ok (.rgcfg (bits w 16 5))))
  | 1 => ensure (bits w 0 3 == 0#3) 0x059#10 (ensure (zeros w [(3, 1), (11, 5), (21, 5)]) 0x06D#10 (.ok (.mtld (bits w 16 5))))
  | 2 => ensure (bits w 0 3 == 0#3) 0x059#10 (ensure (zeros w [(3, 1), (11, 15)]) 0x06D#10 (.ok (.mtclr)))
  | 3 => ensure (bits w 0 3 == 0#3) 0x059#10 (ensure (zeros w [(11, 5), (21, 5)]) 0x06D#10 (.ok (.binj (bits w 16 5) (bits w 3 1))))
  | 4 => ensure (bits w 0 3 == 0#3) 0x059#10 (ensure (zeros w [(3, 1), (11, 5)]) 0x06D#10 (.ok (.btake (bits w 21 5) (bits w 16 5))))
  | 5 => ensure (bits w 0 3 == 0#3) 0x059#10 (ensure (zeros w [(3, 1), (11, 5)]) 0x06D#10 (.ok (.bstat (bits w 21 5) (bits w 16 5))))
  | 6 => ensure (bits w 0 3 == 0#3) 0x059#10 (ensure (zeros w [(3, 1), (11, 10)]) 0x06D#10 (.ok (.tkget (bits w 21 5))))
  | 7 => ensure (bits w 0 3 == 0#3) 0x059#10 (ensure (zeros w [(3, 1), (11, 5), (21, 5)]) 0x06D#10 (.ok (.tkdone (bits w 16 5))))
  | 8 => ensure (bits w 0 3 == 0#3) 0x059#10 (ensure (zeros w [(3, 1)]) 0x06D#10 (.ok (.rgsub (bits w 21 5) (bits w 16 5) (bits w 11 5))))
  | 9 => ensure (bits w 0 3 == 0#3) 0x059#10 (ensure (zeros w [(3, 1), (11, 15)]) 0x06D#10 (.ok (.rgquiet)))
  | _ => .error 0x058#10

/-- Words of primary 0x20 (R70, R72), format F-E. -/
def decodeTbl (w : Word32) : Except Cause Instr :=
  match (bits w 4 7).toNat with
  | 0 => ensure (bits w 2 1 == 0#1) 0x059#10 (ensure (zeros w [(21, 5)]) 0x06D#10 (.ok (.tabld (bits w 16 5) (bits w 11 5) (bits w 3 1) (bits w 0 2))))
  | 1 => ensure (bits w 2 1 == 0#1) 0x059#10 (ensure (zeros w [(11, 5)]) 0x06D#10 (.ok (.tabrd (bits w 21 5) (bits w 16 5) (bits w 3 1) (bits w 0 2))))
  | 2 => ensure (bits w 2 1 == 0#1) 0x059#10 (ensure (zeros w [(11, 10)]) 0x06D#10 (.ok (.tabchk (bits w 21 5) (bits w 3 1) (bits w 0 2))))
  | 3 => ensure (bits w 0 3 == 0#3) 0x059#10 (ensure (zeros w [(11, 5), (21, 5)]) 0x06D#10 (.ok (.ppuld (bits w 16 5) (bits w 3 1))))
  | 4 => ensure (bits w 0 3 == 0#3) 0x059#10 (ensure (zeros w [(11, 5)]) 0x06D#10 (.ok (.ppurd (bits w 21 5) (bits w 16 5) (bits w 3 1))))
  | 5 => ensure (bits w 2 1 == 0#1) 0x059#10 (ensure (zeros w [(11, 5)]) 0x06D#10 (.ok (.enc (bits w 21 5) (bits w 16 5) (bits w 3 1) (bits w 0 2))))
  | 6 => ensure (bits w 2 1 == 0#1) 0x059#10 (ensure (zeros w [(11, 5)]) 0x06D#10 (.ok (.dec (bits w 21 5) (bits w 16 5) (bits w 3 1) (bits w 0 2))))
  | _ => .error 0x058#10

/-- Words of primary 0x21 (R70, R72), format F-E. -/
def decodeCpe (w : Word32) : Except Cause Instr :=
  match (bits w 4 7).toNat with
  | 0 => ensure (bits w 0 3 == 0#3) 0x059#10 (ensure (zeros w [(3, 1), (11, 5)]) 0x06D#10 (.ok (.cpstat (bits w 21 5) (bits w 16 5))))
  | 1 => ensure (bits w 0 3 == 0#3) 0x059#10 (ensure (zeros w [(3, 1), (11, 5)]) 0x06D#10 (.ok (.cpwait (bits w 21 5) (bits w 16 5))))
  | 2 => ensure (bits w 0 3 == 0#3) 0x059#10 (ensure (zeros w [(3, 1), (11, 5), (21, 5)]) 0x06D#10 (.ok (.cpcan (bits w 16 5))))
  | _ => .error 0x058#10

/-- Words of primary 0x22 (R70, R72), format F-E. -/
def decodeFut (w : Word32) : Except Cause Instr :=
  match (bits w 4 7).toNat with
  | 0 => ensure (bits w 0 3 == 0#3) 0x059#10 (ensure (zeros w [(3, 1), (11, 10)]) 0x06D#10 (.ok (.fnew (bits w 21 5))))
  | 1 => ensure (bits w 0 3 == 0#3) 0x059#10 (ensure (zeros w [(3, 1), (21, 5)]) 0x06D#10 (.ok (.fput (bits w 16 5) (bits w 11 5))))
  | 2 => ensure (bits w 0 3 == 0#3) 0x059#10 (ensure (zeros w [(3, 1)]) 0x06D#10 (.ok (.fget (bits w 21 5) (bits w 16 5) (bits w 11 5))))
  | 3 => ensure (bits w 0 3 == 0#3) 0x059#10 (ensure (zeros w [(3, 1)]) 0x06D#10 (.ok (.ftry (bits w 21 5) (bits w 16 5) (bits w 11 5))))
  | 4 => ensure (bits w 0 3 == 0#3) 0x059#10 (ensure (zeros w [(3, 1), (21, 5)]) 0x06D#10 (.ok (.fpois (bits w 16 5) (bits w 11 5))))
  | 5 => ensure (bits w 0 3 == 0#3) 0x059#10 (ensure (zeros w [(3, 1), (11, 5), (21, 5)]) 0x06D#10 (.ok (.ffree (bits w 16 5))))
  | 6 => ensure (bits w 0 3 == 0#3) 0x059#10 (ensure (zeros w [(3, 1)]) 0x06D#10 (.ok (.flink (bits w 21 5) (bits w 16 5) (bits w 11 5))))
  | _ => .error 0x058#10

/-- Words of primary 0x23 (R70, R72), format F-E. -/
def decodeJob (w : Word32) : Except Cause Instr :=
  match (bits w 4 7).toNat with
  | 0 => ensure (bits w 0 3 == 0#3) 0x059#10 (ensure (zeros w [(3, 1), (11, 5), (21, 5)]) 0x06D#10 (.ok (.jsub (bits w 16 5))))
  | 1 => ensure (bits w 0 3 == 0#3) 0x059#10 (ensure (zeros w [(3, 1), (11, 10)]) 0x06D#10 (.ok (.jwid (bits w 21 5))))
  | 2 => ensure (bits w 0 3 == 0#3) 0x059#10 (ensure (zeros w [(3, 1), (11, 10)]) 0x06D#10 (.ok (.jarg (bits w 21 5))))
  | 3 => ensure (bits w 0 3 == 0#3) 0x059#10 (ensure (zeros w [(3, 1), (11, 15)]) 0x06D#10 (.ok (.jend)))
  | 4 => ensure (bits w 0 3 == 0#3) 0x059#10 (ensure (zeros w [(3, 1), (11, 5)]) 0x06D#10 (.ok (.jqry (bits w 21 5) (bits w 16 5))))
  | _ => .error 0x058#10

/-- Words of primary 0x24 (R70, R72), format F-E. -/
def decodeChn (w : Word32) : Except Cause Instr :=
  match (bits w 4 7).toNat with
  | 0 => ensure (bits w 0 3 == 0#3) 0x059#10 (ensure (zeros w [(3, 1), (15, 1)]) 0x06D#10 (.ok (.chsnd (bits w 21 5) (bits w 16 5) (bits w 11 4))))
  | 1 => ensure (bits w 0 3 == 0#3) 0x059#10 (ensure (zeros w [(3, 1), (15, 1)]) 0x06D#10 (.ok (.chrcv (bits w 21 5) (bits w 16 5) (bits w 11 4))))
  | 2 => ensure (bits w 0 3 == 0#3) 0x059#10 (ensure (zeros w [(3, 1), (15, 1)]) 0x06D#10 (.ok (.chsndv (bits w 21 5) (bits w 16 5) (bits w 11 4))))
  | 3 => ensure (bits w 0 3 == 0#3) 0x059#10 (ensure (zeros w [(3, 1), (15, 6)]) 0x06D#10 (.ok (.chrcvv (bits w 21 5) (bits w 11 4))))
  | 4 => ensure (bits w 0 3 == 0#3) 0x059#10 (ensure (zeros w [(3, 1), (15, 6)]) 0x06D#10 (.ok (.chpoll (bits w 21 5) (bits w 11 4))))
  | _ => .error 0x058#10

/-- Words of primary 0x25 (R70, R72), format F-E. -/
noncomputable def decodePhs (w : Word32) : Except Cause Instr :=
  match (bits w 4 7).toNat with
  | 0 => ensure (bits w 2 1 == 0#1) 0x059#10 (ensure (zeros w [(3, 1), (11, 15)]) 0x06D#10 (.ok (.barp (bits w 0 2))))
  | 1 => ensure (bits w 2 1 == 0#1) 0x059#10 (ensure (zeros w [(3, 1), (11, 5), (21, 5)]) 0x06D#10 (.ok (.xsel (bits w 16 5) (bits w 0 2))))
  | 2 => if bits w 3 1 == 0#1 then ensure (zeros w [(21, 5)]) 0x06D#10 (.ok (.xmit (bits w 16 5) (bits w 11 5) (bits w 0 3)))
      else ensure ((bits w 16 5).toNat ≤ 7) 0x05F#10 (ensure (zeros w [(25, 1)]) 0x06D#10 (.ok (.xmitCh (bits w 21 4) (bits w 16 5) (bits w 11 5) (bits w 0 3))))
  | 3 => if bits w 3 1 == 0#1 then ensure (zeros w [(11, 5)]) 0x06D#10 (.ok (.xrecv (bits w 21 5) (bits w 16 5) (bits w 0 3)))
      else ensure ((bits w 16 5).toNat ≤ 7) 0x05F#10 (ensure (zeros w [(15, 1)]) 0x06D#10 (.ok (.xrecvCh (bits w 21 5) (bits w 16 5) (bits w 11 4) (bits w 0 3))))
  | 4 => ensure (bits w 0 3 == 0#3) 0x059#10 (ensure (zeros w [(3, 1), (11, 10)]) 0x06D#10 (.ok (.xend (bits w 21 5))))
  | _ => .error 0x058#10

/-- Words of primary 0x26 (R70, R72), format F-E. -/
noncomputable def decodeSyn (w : Word32) : Except Cause Instr :=
  match (bits w 4 7).toNat with
  | 0 => ensure (bits w 2 1 == 0#1) 0x059#10 (ensure (zeros w [(3, 1), (11, 5), (21, 5)]) 0x06D#10 (.ok (.bar (bits w 16 5) (bits w 0 2))))
  | 1 => ensure (bits w 2 1 == 0#1) 0x059#10 (ensure (zeros w [(3, 1), (11, 5), (21, 5)]) 0x06D#10 (.ok (.barnw (bits w 16 5) (bits w 0 2))))
  | 2 => ensure (bits w 0 3 == 0#3) 0x059#10 (ensure (zeros w [(3, 1), (11, 5)]) 0x06D#10 (.ok (.sleep (bits w 21 5) (bits w 16 5))))
  | 3 => ensure (bits w 0 3 == 0#3) 0x059#10 (ensure (zeros w [(3, 1), (11, 5), (21, 5)]) 0x06D#10 (.ok (.wake (bits w 16 5))))
  | 4 => ensure (bits w 0 3 == 0#3) 0x059#10 (ensure (zeros w [(3, 1), (11, 10)]) 0x06D#10 (.ok (.time (bits w 21 5))))
  | _ => .error 0x058#10

/-- Words of primary 0x28 (R70, R72), format F-E. -/
noncomputable def decodeKdm (w : Word32) : Except Cause Instr :=
  match (bits w 4 7).toNat with
  | 0 => ensure (bits w 0 3 == 0#3) 0x059#10 (ensure (zeros w [(3, 1), (21, 5)]) 0x06D#10 (.ok (.kld (bits w 16 5) (bits w 11 5))))
  | 1 => ensure (bits w 0 3 == 0#3) 0x059#10 (ensure (zeros w [(3, 1), (11, 5), (21, 5)]) 0x06D#10 (.ok (.krel (bits w 16 5))))
  | 2 => ensure (bits w 0 3 == 0#3) 0x059#10 (ensure (zeros w [(3, 1), (11, 5)]) 0x06D#10 (.ok (.kqry (bits w 21 5) (bits w 16 5))))
  | _ => .error 0x058#10

/-- Words of primary 0x29 (R70, R72), format F-S. -/
noncomputable def decodeSys (w : Word32) : Except Cause Instr :=
  match (bits w 0 4).toNat with
  | 0 => ensure (stateRegister (bits w 4 12)) 0x05B#10 (ensure (zeros w [(16, 5)]) 0x06F#10 (.ok (.srd (bits w 21 5) (bits w 4 12))))
  | 1 => ensure (stateRegister (bits w 4 12)) 0x05B#10 (ensure (zeros w [(21, 5)]) 0x06F#10 (.ok (.swr (bits w 16 5) (bits w 4 12))))
  | 2 => ensure (stateRegister (bits w 4 12)) 0x05B#10 (ensure (zeros w [(21, 5)]) 0x06F#10 (.ok (.sset (bits w 16 5) (bits w 4 12))))
  | 3 => ensure (stateRegister (bits w 4 12)) 0x05B#10 (ensure (zeros w [(21, 5)]) 0x06F#10 (.ok (.sclr (bits w 16 5) (bits w 4 12))))
  | 4 => ensure ((bits w 4 12).toNat ≤ 63) 0x05F#10 (ensure (zeros w [(16, 10)]) 0x06F#10 (.ok (.trap (bits w 4 12))))
  | 5 => ensure (zeros w [(4, 22)]) 0x06F#10 (.ok (.eret))
  | 6 => ensure (zeros w [(4, 22)]) 0x06F#10 (.ok (.halt))
  | 7 => ensure ((bits w 4 12).toNat ≤ 1) 0x05F#10 (ensure (zeros w [(21, 5)]) 0x06F#10 (.ok (.tlbinv (bits w 16 5) (bits w 4 12))))
  | 8 => ensure (acctSelector (bits w 4 12)) 0x05F#10 (ensure (bits w 4 12 == 0x100#12 || bits w 16 5 == 0#5) 0x06F#10 (.ok (.acct (bits w 21 5) (bits w 16 5) (bits w 4 12))))
  | _ => .error 0x05A#10

/-- Words of primary 0x2a (R70, R72), format F-S. -/
noncomputable def decodeDbg (w : Word32) : Except Cause Instr :=
  match (bits w 0 4).toNat with
  | 0 => ensure (zeros w [(16, 10)]) 0x06F#10 (.ok (.brk (bits w 4 12)))
  | 1 => ensure (zeros w [(7, 9), (21, 5)]) 0x06F#10 (.ok (.wpset (bits w 16 5) (bits w 4 3)))
  | 2 => ensure (zeros w [(7, 19)]) 0x06F#10 (.ok (.wpclr (bits w 4 3)))
  | 3 => ensure ((bits w 4 12).toNat ≤ 3) 0x05F#10 (.ok (.dstop (bits w 21 5) (bits w 16 5) (bits w 4 12)))
  | 4 => ensure (zeros w [(4, 12)]) 0x06F#10 (.ok (.dstep (bits w 21 5) (bits w 16 5)))
  | 5 => ensure ((bits w 4 12).toNat ≤ 1) 0x05F#10 (.ok (.dres (bits w 21 5) (bits w 16 5) (bits w 4 12)))
  | _ => .error 0x05A#10

/-- What a word is (R55, R70 to R79): an instruction, or the illegal-encoding cause of the first check that fails. The
register distances, the LCAR depth and the loop and gang rules (steps 5 and 6 of R55) are checked by the meanings, and
the deferred words are looked up by their meaning (R82). -/
noncomputable def decode (w : Word32) : Except Cause Instr :=
  match (bits w 26 6).toNat with
  | 0 => .error (if w = 0#32 then 0x040#10 else 0x041#10)
  | 1 => decodeIop w
  | 2 => .ok (.addi (bits w 21 5) (bits w 16 5) (bits w 14 2) (bits w 0 14))
  | 3 => .ok (.andi (bits w 21 5) (bits w 16 5) (bits w 14 2) (bits w 0 14))
  | 4 => .ok (.ori (bits w 21 5) (bits w 16 5) (bits w 14 2) (bits w 0 14))
  | 5 => .ok (.xori (bits w 21 5) (bits w 16 5) (bits w 14 2) (bits w 0 14))
  | 6 => .ok (.slti (bits w 21 5) (bits w 16 5) (bits w 14 2) (bits w 0 14))
  | 7 => .ok (.sltiu (bits w 21 5) (bits w 16 5) (bits w 14 2) (bits w 0 14))
  | 8 => decodeShi w
  | 9 => .ok (.lui (bits w 21 5) (bits w 0 21))
  | 10 => .ok (.adpc (bits w 21 5) (bits w 0 21))
  | 11 => ensure (zeros w [(16, 2)]) 0x063#10 (.ok (.insi (bits w 21 5) (bits w 19 2) (bits w 18 1) (bits w 0 16)))
  | 12 => decodeBr w
  | 13 => .ok (.jmp (bits w 0 26))
  | 14 => .ok (.jal (bits w 0 26))
  | 15 => decodeJr w
  | 16 => decodeLoop w
  | 17 => decodeGang w
  | 18 => decodeLd w
  | 19 => decodeSt w
  | 20 => decodeMx w
  | 21 => decodeAmo w
  | 22 => decodeFence w
  | 23 => decodeFop w
  | 24 => decodeVint w
  | 25 => decodeVflt w
  | 26 => decodeVmem w
  | 27 => decodeVxf w
  | 28 => decodeVmask w
  | 29 => decodeMxe w
  | 30 => decodeCry w
  | 31 => decodeRng w
  | 32 => decodeTbl w
  | 33 => decodeCpe w
  | 34 => decodeFut w
  | 35 => decodeJob w
  | 36 => decodeChn w
  | 37 => decodePhs w
  | 38 => decodeSyn w
  | 39 => .ok (.kop (bits w 23 3) (bits w 18 5) (bits w 13 5) (bits w 8 5) (bits w 3 5) (bits w 0 3))
  | 40 => decodeKdm w
  | 41 => decodeSys w
  | 42 => decodeDbg w
  | 60 => .ok (.deferredInstruction (bits w 26 2) (bits w 6 20) (bits w 0 6))
  | 61 => .ok (.deferredInstruction (bits w 26 2) (bits w 6 20) (bits w 0 6))
  | 62 => .ok (.deferredInstruction (bits w 26 2) (bits w 6 20) (bits w 0 6))
  | 63 => .error 0x043#10
  | _ => .error 0x042#10

/-- The word of an instruction, from the formats of R56 and the selectors of R72; an event of the device has none. -/
def encode : Instr → Option Word32
  | .add d a da b db => some (pack [(26, 1), (21, d.toNat), (16, a.toNat), (14, da.toNat), (9, b.toNat), (7, db.toNat)])
  | .sub d a da b db => some (pack [(26, 1), (21, d.toNat), (16, a.toNat), (14, da.toNat), (9, b.toNat), (7, db.toNat), (0, 1)])
  | .mul d a da b db => some (pack [(26, 1), (21, d.toNat), (16, a.toNat), (14, da.toNat), (9, b.toNat), (7, db.toNat), (0, 2)])
  | .mulh d a da b db => some (pack [(26, 1), (21, d.toNat), (16, a.toNat), (14, da.toNat), (9, b.toNat), (7, db.toNat), (0, 3)])
  | .mulhu d a da b db => some (pack [(26, 1), (21, d.toNat), (16, a.toNat), (14, da.toNat), (9, b.toNat), (7, db.toNat), (0, 4)])
  | .madd d a da b db => some (pack [(26, 1), (21, d.toNat), (16, a.toNat), (14, da.toNat), (9, b.toNat), (7, db.toNat), (0, 5)])
  | .div d a da b db => some (pack [(26, 1), (21, d.toNat), (16, a.toNat), (14, da.toNat), (9, b.toNat), (7, db.toNat), (0, 6)])
  | .divu d a da b db => some (pack [(26, 1), (21, d.toNat), (16, a.toNat), (14, da.toNat), (9, b.toNat), (7, db.toNat), (0, 7)])
  | .rem d a da b db => some (pack [(26, 1), (21, d.toNat), (16, a.toNat), (14, da.toNat), (9, b.toNat), (7, db.toNat), (0, 8)])
  | .remu d a da b db => some (pack [(26, 1), (21, d.toNat), (16, a.toNat), (14, da.toNat), (9, b.toNat), (7, db.toNat), (0, 9)])
  | .and d a da b db => some (pack [(26, 1), (21, d.toNat), (16, a.toNat), (14, da.toNat), (9, b.toNat), (7, db.toNat), (0, 10)])
  | .or d a da b db => some (pack [(26, 1), (21, d.toNat), (16, a.toNat), (14, da.toNat), (9, b.toNat), (7, db.toNat), (0, 11)])
  | .xor d a da b db => some (pack [(26, 1), (21, d.toNat), (16, a.toNat), (14, da.toNat), (9, b.toNat), (7, db.toNat), (0, 12)])
  | .andn d a da b db => some (pack [(26, 1), (21, d.toNat), (16, a.toNat), (14, da.toNat), (9, b.toNat), (7, db.toNat), (0, 13)])
  | .shl d a da b db => some (pack [(26, 1), (21, d.toNat), (16, a.toNat), (14, da.toNat), (9, b.toNat), (7, db.toNat), (0, 14)])
  | .shr d a da b db => some (pack [(26, 1), (21, d.toNat), (16, a.toNat), (14, da.toNat), (9, b.toNat), (7, db.toNat), (0, 15)])
  | .sra d a da b db => some (pack [(26, 1), (21, d.toNat), (16, a.toNat), (14, da.toNat), (9, b.toNat), (7, db.toNat), (0, 16)])
  | .rol d a da b db => some (pack [(26, 1), (21, d.toNat), (16, a.toNat), (14, da.toNat), (9, b.toNat), (7, db.toNat), (0, 17)])
  | .min d a da b db => some (pack [(26, 1), (21, d.toNat), (16, a.toNat), (14, da.toNat), (9, b.toNat), (7, db.toNat), (0, 18)])
  | .max d a da b db => some (pack [(26, 1), (21, d.toNat), (16, a.toNat), (14, da.toNat), (9, b.toNat), (7, db.toNat), (0, 19)])
  | .minu d a da b db => some (pack [(26, 1), (21, d.toNat), (16, a.toNat), (14, da.toNat), (9, b.toNat), (7, db.toNat), (0, 20)])
  | .maxu d a da b db => some (pack [(26, 1), (21, d.toNat), (16, a.toNat), (14, da.toNat), (9, b.toNat), (7, db.toNat), (0, 21)])
  | .slt d a da b db => some (pack [(26, 1), (21, d.toNat), (16, a.toNat), (14, da.toNat), (9, b.toNat), (7, db.toNat), (0, 22)])
  | .sltu d a da b db => some (pack [(26, 1), (21, d.toNat), (16, a.toNat), (14, da.toNat), (9, b.toNat), (7, db.toNat), (0, 23)])
  | .seq d a da b db => some (pack [(26, 1), (21, d.toNat), (16, a.toNat), (14, da.toNat), (9, b.toNat), (7, db.toNat), (0, 24)])
  | .clz d a da => some (pack [(26, 1), (21, d.toNat), (16, a.toNat), (14, da.toNat), (0, 25)])
  | .ctz d a da => some (pack [(26, 1), (21, d.toNat), (16, a.toNat), (14, da.toNat), (0, 26)])
  | .popc d a da => some (pack [(26, 1), (21, d.toNat), (16, a.toNat), (14, da.toNat), (0, 27)])
  | .sextb d a da => some (pack [(26, 1), (21, d.toNat), (16, a.toNat), (14, da.toNat), (0, 28)])
  | .sexth d a da => some (pack [(26, 1), (21, d.toNat), (16, a.toNat), (14, da.toNat), (0, 29)])
  | .sextw d a da => some (pack [(26, 1), (21, d.toNat), (16, a.toNat), (14, da.toNat), (0, 30)])
  | .bfx d a da b db => some (pack [(26, 1), (21, d.toNat), (16, a.toNat), (14, da.toNat), (9, b.toNat), (7, db.toNat), (0, 31)])
  | .bfi d a da b db => some (pack [(26, 1), (21, d.toNat), (16, a.toNat), (14, da.toNat), (9, b.toNat), (7, db.toNat), (0, 32)])
  | .sel d a da b db => some (pack [(26, 1), (21, d.toNat), (16, a.toNat), (14, da.toNat), (9, b.toNat), (7, db.toNat), (0, 33)])
  | .addw d a da b db => some (pack [(26, 1), (21, d.toNat), (16, a.toNat), (14, da.toNat), (9, b.toNat), (7, db.toNat), (0, 34)])
  | .subw d a da b db => some (pack [(26, 1), (21, d.toNat), (16, a.toNat), (14, da.toNat), (9, b.toNat), (7, db.toNat), (0, 35)])
  | .addi d a da i => some (pack [(26, 2), (21, d.toNat), (16, a.toNat), (14, da.toNat), (0, i.toNat)])
  | .andi d a da i => some (pack [(26, 3), (21, d.toNat), (16, a.toNat), (14, da.toNat), (0, i.toNat)])
  | .ori d a da i => some (pack [(26, 4), (21, d.toNat), (16, a.toNat), (14, da.toNat), (0, i.toNat)])
  | .xori d a da i => some (pack [(26, 5), (21, d.toNat), (16, a.toNat), (14, da.toNat), (0, i.toNat)])
  | .slti d a da i => some (pack [(26, 6), (21, d.toNat), (16, a.toNat), (14, da.toNat), (0, i.toNat)])
  | .sltiu d a da i => some (pack [(26, 7), (21, d.toNat), (16, a.toNat), (14, da.toNat), (0, i.toNat)])
  | .shli d a da n => some (pack [(26, 8), (21, d.toNat), (16, a.toNat), (14, da.toNat), (0, n.toNat)])
  | .shri d a da n => some (pack [(26, 8), (21, d.toNat), (16, a.toNat), (14, da.toNat), (12, 1), (0, n.toNat)])
  | .srai d a da n => some (pack [(26, 8), (21, d.toNat), (16, a.toNat), (14, da.toNat), (12, 2), (0, n.toNat)])
  | .rori d a da n => some (pack [(26, 8), (21, d.toNat), (16, a.toNat), (14, da.toNat), (12, 3), (0, n.toNat)])
  | .lui d i => some (pack [(26, 9), (21, d.toNat), (0, i.toNat)])
  | .adpc d i => some (pack [(26, 10), (21, d.toNat), (0, i.toNat)])
  | .insi d p z i => some (pack [(26, 11), (21, d.toNat), (19, p.toNat), (18, z.toNat), (0, i.toNat)])
  | .beqz a da o => some (pack [(26, 12), (21, a.toNat), (19, da.toNat), (0, o.toNat)])
  | .bnez a da o => some (pack [(26, 12), (21, a.toNat), (19, da.toNat), (16, 1), (0, o.toNat)])
  | .bltz a da o => some (pack [(26, 12), (21, a.toNat), (19, da.toNat), (16, 2), (0, o.toNat)])
  | .bgez a da o => some (pack [(26, 12), (21, a.toNat), (19, da.toNat), (16, 3), (0, o.toNat)])
  | .bgtz a da o => some (pack [(26, 12), (21, a.toNat), (19, da.toNat), (16, 4), (0, o.toNat)])
  | .blez a da o => some (pack [(26, 12), (21, a.toNat), (19, da.toNat), (16, 5), (0, o.toNat)])
  | .bodd a da o => some (pack [(26, 12), (21, a.toNat), (19, da.toNat), (16, 6), (0, o.toNat)])
  | .jmp o => some (pack [(26, 13), (0, o.toNat)])
  | .jal o => some (pack [(26, 14), (0, o.toNat)])
  | .jr a da => some (pack [(26, 15), (16, a.toNat), (14, da.toNat)])
  | .jalr d a da => some (pack [(26, 15), (21, d.toNat), (16, a.toNat), (14, da.toNat), (0, 1)])
  | .lcar b a da i => some (pack [(26, 16), (18, b.toNat), (13, a.toNat), (11, da.toNat), (0, i.toNat)])
  | .loop a da n => some (pack [(26, 16), (23, 1), (13, a.toNat), (11, da.toNat), (0, n.toNat)])
  | .endit => some (pack [(26, 16), (23, 2)])
  | .brkif a da l => some (pack [(26, 16), (23, 3), (13, a.toNat), (11, da.toNat), (0, l.toNat)])
  | .contif a da => some (pack [(26, 16), (23, 4), (13, a.toNat), (11, da.toNat)])
  | .itx d l => some (pack [(26, 16), (23, 5), (18, d.toNat), (0, l.toNat)])
  | .lstat d l => some (pack [(26, 16), (23, 6), (18, d.toNat), (0, l.toNat)])
  | .movd d a m => some (pack [(26, 16), (23, 7), (18, d.toNat), (13, a.toNat), (0, m.toNat)])
  | .fuse => some (pack [(26, 17)])
  | .split => some (pack [(26, 17), (23, 1)])
  | .gany d a da => some (pack [(26, 17), (23, 2), (18, d.toNat), (13, a.toNat), (11, da.toNat)])
  | .gall d a da => some (pack [(26, 17), (23, 3), (18, d.toNat), (13, a.toNat), (11, da.toNat)])
  | .gidx d => some (pack [(26, 17), (23, 4), (18, d.toNat)])
  | .gbc d a da m => some (pack [(26, 17), (23, 5), (18, d.toNat), (13, a.toNat), (11, da.toNat), (0, m.toNat)])
  | .gsum d a da => some (pack [(26, 17), (23, 6), (18, d.toNat), (13, a.toNat), (11, da.toNat)])
  | .lb d a da o => some (pack [(26, 18), (21, d.toNat), (16, a.toNat), (14, da.toNat), (0, o.toNat)])
  | .lbu d a da o => some (pack [(26, 18), (21, d.toNat), (16, a.toNat), (14, da.toNat), (11, 1), (0, o.toNat)])
  | .lh d a da o => some (pack [(26, 18), (21, d.toNat), (16, a.toNat), (14, da.toNat), (11, 2), (0, o.toNat)])
  | .lhu d a da o => some (pack [(26, 18), (21, d.toNat), (16, a.toNat), (14, da.toNat), (11, 3), (0, o.toNat)])
  | .lw d a da o => some (pack [(26, 18), (21, d.toNat), (16, a.toNat), (14, da.toNat), (11, 4), (0, o.toNat)])
  | .lwu d a da o => some (pack [(26, 18), (21, d.toNat), (16, a.toNat), (14, da.toNat), (11, 5), (0, o.toNat)])
  | .ld d a da o => some (pack [(26, 18), (21, d.toNat), (16, a.toNat), (14, da.toNat), (11, 6), (0, o.toNat)])
  | .sb d a da o => some (pack [(26, 19), (21, d.toNat), (16, a.toNat), (14, da.toNat), (0, o.toNat)])
  | .sh d a da o => some (pack [(26, 19), (21, d.toNat), (16, a.toNat), (14, da.toNat), (11, 2), (0, o.toNat)])
  | .sw d a da o => some (pack [(26, 19), (21, d.toNat), (16, a.toNat), (14, da.toNat), (11, 4), (0, o.toNat)])
  | .sd d a da o => some (pack [(26, 19), (21, d.toNat), (16, a.toNat), (14, da.toNat), (11, 6), (0, o.toNat)])
  | .lda d a da z s => some (pack [(26, 20), (21, d.toNat), (16, a.toNat), (14, da.toNat), (12, z.bits.toNat), (6, s.bits.toNat)])
  | .stl d a da z s => some (pack [(26, 20), (21, d.toNat), (16, a.toNat), (14, da.toNat), (12, z.bits.toNat), (9, 1), (6, s.bits.toNat)])
  | .ldro d a da z s => some (pack [(26, 20), (21, d.toNat), (16, a.toNat), (14, da.toNat), (12, z.bits.toNat), (9, 2), (6, s.bits.toNat)])
  | .pref a da s n => some (pack [(26, 20), (16, a.toNat), (14, da.toNat), (12, 3), (9, 3), (6, s.bits.toNat), (0, n.toNat)])
  | .stn d a da s h => some (pack [(26, 20), (21, d.toNat), (16, a.toNat), (14, da.toNat), (9, 4), (6, s.bits.toNat), (5, h.toNat)])
  | .sts d a da z s => some (pack [(26, 20), (21, d.toNat), (16, a.toNat), (14, da.toNat), (12, z.bits.toNat), (9, 5), (6, s.bits.toNat)])
  | .amoswp d a b o s z => some (pack [(26, 21), (21, d.toNat), (16, a.toNat), (11, b.toNat), (5, o.bits.toNat), (2, s.bits.toNat), (1, z.bits.toNat)])
  | .amoadd d a b o s z => some (pack [(26, 21), (21, d.toNat), (16, a.toNat), (11, b.toNat), (7, 1), (5, o.bits.toNat), (2, s.bits.toNat), (1, z.bits.toNat)])
  | .amoand d a b o s z => some (pack [(26, 21), (21, d.toNat), (16, a.toNat), (11, b.toNat), (7, 2), (5, o.bits.toNat), (2, s.bits.toNat), (1, z.bits.toNat)])
  | .amoor d a b o s z => some (pack [(26, 21), (21, d.toNat), (16, a.toNat), (11, b.toNat), (7, 3), (5, o.bits.toNat), (2, s.bits.toNat), (1, z.bits.toNat)])
  | .amoxor d a b o s z => some (pack [(26, 21), (21, d.toNat), (16, a.toNat), (11, b.toNat), (7, 4), (5, o.bits.toNat), (2, s.bits.toNat), (1, z.bits.toNat)])
  | .amomin d a b o s z => some (pack [(26, 21), (21, d.toNat), (16, a.toNat), (11, b.toNat), (7, 5), (5, o.bits.toNat), (2, s.bits.toNat), (1, z.bits.toNat)])
  | .amomax d a b o s z => some (pack [(26, 21), (21, d.toNat), (16, a.toNat), (11, b.toNat), (7, 6), (5, o.bits.toNat), (2, s.bits.toNat), (1, z.bits.toNat)])
  | .amominu d a b o s z => some (pack [(26, 21), (21, d.toNat), (16, a.toNat), (11, b.toNat), (7, 7), (5, o.bits.toNat), (2, s.bits.toNat), (1, z.bits.toNat)])
  | .amomaxu d a b o s z => some (pack [(26, 21), (21, d.toNat), (16, a.toNat), (11, b.toNat), (7, 8), (5, o.bits.toNat), (2, s.bits.toNat), (1, z.bits.toNat)])
  | .cas d a b o s z => some (pack [(26, 21), (21, d.toNat), (16, a.toNat), (11, b.toNat), (7, 9), (5, o.bits.toNat), (2, s.bits.toNat), (1, z.bits.toNat)])
  | .amofadd d a b o s => some (pack [(26, 21), (21, d.toNat), (16, a.toNat), (11, b.toNat), (7, 10), (5, o.bits.toNat), (2, s.bits.toNat)])
  | .amoinc d a b o s z => some (pack [(26, 21), (21, d.toNat), (16, a.toNat), (11, b.toNat), (7, 11), (5, o.bits.toNat), (2, s.bits.toNat), (1, z.bits.toNat)])
  | .fence s => some (pack [(26, 22), (20, s.bits.toNat)])
  | .fenceR s => some (pack [(26, 22), (23, 1), (20, s.bits.toNat)])
  | .fenceW s => some (pack [(26, 22), (23, 2), (20, s.bits.toNat)])
  | .ifence s => some (pack [(26, 22), (23, 3), (20, s.bits.toNat)])
  | .fenceE s => some (pack [(26, 22), (23, 4), (20, s.bits.toNat)])
  | .fenceJ s => some (pack [(26, 22), (23, 5), (20, s.bits.toNat)])
  | .fadd d a da b db p => some (pack [(26, 23), (21, d.toNat), (16, a.toNat), (14, da.toNat), (9, b.toNat), (7, db.toNat), (0, p.bits.toNat)])
  | .fsub d a da b db p => some (pack [(26, 23), (21, d.toNat), (16, a.toNat), (14, da.toNat), (9, b.toNat), (7, db.toNat), (1, 1), (0, p.bits.toNat)])
  | .fmul d a da b db p => some (pack [(26, 23), (21, d.toNat), (16, a.toNat), (14, da.toNat), (9, b.toNat), (7, db.toNat), (1, 2), (0, p.bits.toNat)])
  | .fdiv d a da b db p => some (pack [(26, 23), (21, d.toNat), (16, a.toNat), (14, da.toNat), (9, b.toNat), (7, db.toNat), (1, 3), (0, p.bits.toNat)])
  | .fsqrt d a da p => some (pack [(26, 23), (21, d.toNat), (16, a.toNat), (14, da.toNat), (1, 4), (0, p.bits.toNat)])
  | .fma d a da b db p => some (pack [(26, 23), (21, d.toNat), (16, a.toNat), (14, da.toNat), (9, b.toNat), (7, db.toNat), (1, 5), (0, p.bits.toNat)])
  | .fmin d a da b db p => some (pack [(26, 23), (21, d.toNat), (16, a.toNat), (14, da.toNat), (9, b.toNat), (7, db.toNat), (1, 6), (0, p.bits.toNat)])
  | .fmax d a da b db p => some (pack [(26, 23), (21, d.toNat), (16, a.toNat), (14, da.toNat), (9, b.toNat), (7, db.toNat), (1, 7), (0, p.bits.toNat)])
  | .feq d a da b db p => some (pack [(26, 23), (21, d.toNat), (16, a.toNat), (14, da.toNat), (9, b.toNat), (7, db.toNat), (1, 8), (0, p.bits.toNat)])
  | .flt d a da b db p => some (pack [(26, 23), (21, d.toNat), (16, a.toNat), (14, da.toNat), (9, b.toNat), (7, db.toNat), (1, 9), (0, p.bits.toNat)])
  | .fle d a da b db p => some (pack [(26, 23), (21, d.toNat), (16, a.toNat), (14, da.toNat), (9, b.toNat), (7, db.toNat), (1, 10), (0, p.bits.toNat)])
  | .fclass d a da p => some (pack [(26, 23), (21, d.toNat), (16, a.toNat), (14, da.toNat), (1, 11), (0, p.bits.toNat)])
  | .fcvti d a da p => some (pack [(26, 23), (21, d.toNat), (16, a.toNat), (14, da.toNat), (1, 12), (0, p.bits.toNat)])
  | .fcvtf d a da p => some (pack [(26, 23), (21, d.toNat), (16, a.toNat), (14, da.toNat), (1, 13), (0, p.bits.toNat)])
  | .fcvtw d a da p => some (pack [(26, 23), (21, d.toNat), (16, a.toNat), (14, da.toNat), (1, 14), (0, p.bits.toNat)])
  | .vadd d a dva b k t => some (pack [(26, 24), (21, d.toNat), (16, a.toNat), (15, dva.toNat), (10, b.toNat), (7, k.toNat), (0, t.bits.toNat)])
  | .vsub d a dva b k t => some (pack [(26, 24), (21, d.toNat), (16, a.toNat), (15, dva.toNat), (10, b.toNat), (7, k.toNat), (2, 1), (0, t.bits.toNat)])
  | .vmul d a dva b k t => some (pack [(26, 24), (21, d.toNat), (16, a.toNat), (15, dva.toNat), (10, b.toNat), (7, k.toNat), (2, 2), (0, t.bits.toNat)])
  | .vmulh d a dva b k t => some (pack [(26, 24), (21, d.toNat), (16, a.toNat), (15, dva.toNat), (10, b.toNat), (7, k.toNat), (2, 3), (0, t.bits.toNat)])
  | .vmin d a dva b k t => some (pack [(26, 24), (21, d.toNat), (16, a.toNat), (15, dva.toNat), (10, b.toNat), (7, k.toNat), (2, 4), (0, t.bits.toNat)])
  | .vmax d a dva b k t => some (pack [(26, 24), (21, d.toNat), (16, a.toNat), (15, dva.toNat), (10, b.toNat), (7, k.toNat), (2, 5), (0, t.bits.toNat)])
  | .vminu d a dva b k t => some (pack [(26, 24), (21, d.toNat), (16, a.toNat), (15, dva.toNat), (10, b.toNat), (7, k.toNat), (2, 6), (0, t.bits.toNat)])
  | .vmaxu d a dva b k t => some (pack [(26, 24), (21, d.toNat), (16, a.toNat), (15, dva.toNat), (10, b.toNat), (7, k.toNat), (2, 7), (0, t.bits.toNat)])
  | .vand d a dva b k t => some (pack [(26, 24), (21, d.toNat), (16, a.toNat), (15, dva.toNat), (10, b.toNat), (7, k.toNat), (2, 8), (0, t.bits.toNat)])
  | .vor d a dva b k t => some (pack [(26, 24), (21, d.toNat), (16, a.toNat), (15, dva.toNat), (10, b.toNat), (7, k.toNat), (2, 9), (0, t.bits.toNat)])
  | .vxor d a dva b k t => some (pack [(26, 24), (21, d.toNat), (16, a.toNat), (15, dva.toNat), (10, b.toNat), (7, k.toNat), (2, 10), (0, t.bits.toNat)])
  | .vshl d a dva b k t => some (pack [(26, 24), (21, d.toNat), (16, a.toNat), (15, dva.toNat), (10, b.toNat), (7, k.toNat), (2, 11), (0, t.bits.toNat)])
  | .vshr d a dva b k t => some (pack [(26, 24), (21, d.toNat), (16, a.toNat), (15, dva.toNat), (10, b.toNat), (7, k.toNat), (2, 12), (0, t.bits.toNat)])
  | .vsra d a dva b k t => some (pack [(26, 24), (21, d.toNat), (16, a.toNat), (15, dva.toNat), (10, b.toNat), (7, k.toNat), (2, 13), (0, t.bits.toNat)])
  | .vsadd d a dva b k t => some (pack [(26, 24), (21, d.toNat), (16, a.toNat), (15, dva.toNat), (10, b.toNat), (7, k.toNat), (2, 14), (0, t.bits.toNat)])
  | .vssub d a dva b k t => some (pack [(26, 24), (21, d.toNat), (16, a.toNat), (15, dva.toNat), (10, b.toNat), (7, k.toNat), (2, 15), (0, t.bits.toNat)])
  | .vabs d a dva k t => some (pack [(26, 24), (21, d.toNat), (16, a.toNat), (15, dva.toNat), (7, k.toNat), (2, 16), (0, t.bits.toNat)])
  | .vcmpeq d a dva b k t => some (pack [(26, 24), (21, d.toNat), (16, a.toNat), (15, dva.toNat), (10, b.toNat), (7, k.toNat), (2, 17), (0, t.bits.toNat)])
  | .vcmplt d a dva b k t => some (pack [(26, 24), (21, d.toNat), (16, a.toNat), (15, dva.toNat), (10, b.toNat), (7, k.toNat), (2, 18), (0, t.bits.toNat)])
  | .vcmpltu d a dva b k t => some (pack [(26, 24), (21, d.toNat), (16, a.toNat), (15, dva.toNat), (10, b.toNat), (7, k.toNat), (2, 19), (0, t.bits.toNat)])
  | .vfadd d a dva b k t => some (pack [(26, 25), (21, d.toNat), (16, a.toNat), (15, dva.toNat), (10, b.toNat), (7, k.toNat), (0, t.bits.toNat)])
  | .vfsub d a dva b k t => some (pack [(26, 25), (21, d.toNat), (16, a.toNat), (15, dva.toNat), (10, b.toNat), (7, k.toNat), (2, 1), (0, t.bits.toNat)])
  | .vfmul d a dva b k t => some (pack [(26, 25), (21, d.toNat), (16, a.toNat), (15, dva.toNat), (10, b.toNat), (7, k.toNat), (2, 2), (0, t.bits.toNat)])
  | .vfma d a dva b k t => some (pack [(26, 25), (21, d.toNat), (16, a.toNat), (15, dva.toNat), (10, b.toNat), (7, k.toNat), (2, 3), (0, t.bits.toNat)])
  | .vfmin d a dva b k t => some (pack [(26, 25), (21, d.toNat), (16, a.toNat), (15, dva.toNat), (10, b.toNat), (7, k.toNat), (2, 4), (0, t.bits.toNat)])
  | .vfmax d a dva b k t => some (pack [(26, 25), (21, d.toNat), (16, a.toNat), (15, dva.toNat), (10, b.toNat), (7, k.toNat), (2, 5), (0, t.bits.toNat)])
  | .vfdiv d a dva b k t => some (pack [(26, 25), (21, d.toNat), (16, a.toNat), (15, dva.toNat), (10, b.toNat), (7, k.toNat), (2, 6), (0, t.bits.toNat)])
  | .vfsqrt d a dva k t => some (pack [(26, 25), (21, d.toNat), (16, a.toNat), (15, dva.toNat), (7, k.toNat), (2, 7), (0, t.bits.toNat)])
  | .vfabs d a dva k t => some (pack [(26, 25), (21, d.toNat), (16, a.toNat), (15, dva.toNat), (7, k.toNat), (2, 8), (0, t.bits.toNat)])
  | .vfneg d a dva k t => some (pack [(26, 25), (21, d.toNat), (16, a.toNat), (15, dva.toNat), (7, k.toNat), (2, 9), (0, t.bits.toNat)])
  | .vfcmpeq d a dva b k t => some (pack [(26, 25), (21, d.toNat), (16, a.toNat), (15, dva.toNat), (10, b.toNat), (7, k.toNat), (2, 10), (0, t.bits.toNat)])
  | .vfcmplt d a dva b k t => some (pack [(26, 25), (21, d.toNat), (16, a.toNat), (15, dva.toNat), (10, b.toNat), (7, k.toNat), (2, 11), (0, t.bits.toNat)])
  | .vfcmple d a dva b k t => some (pack [(26, 25), (21, d.toNat), (16, a.toNat), (15, dva.toNat), (10, b.toNat), (7, k.toNat), (2, 12), (0, t.bits.toNat)])
  | .vld d a da k e => some (pack [(26, 26), (21, d.toNat), (16, a.toNat), (14, da.toNat), (6, k.toNat), (1, e.bits.toNat)])
  | .vst d a da k e => some (pack [(26, 26), (21, d.toNat), (16, a.toNat), (14, da.toNat), (6, k.toNat), (3, 1), (1, e.bits.toNat)])
  | .vlds d a da b k e => some (pack [(26, 26), (21, d.toNat), (16, a.toNat), (14, da.toNat), (9, b.toNat), (6, k.toNat), (3, 2), (1, e.bits.toNat)])
  | .vsts d a da b k e => some (pack [(26, 26), (21, d.toNat), (16, a.toNat), (14, da.toNat), (9, b.toNat), (6, k.toNat), (3, 3), (1, e.bits.toNat)])
  | .vgath d a da b k e => some (pack [(26, 26), (21, d.toNat), (16, a.toNat), (14, da.toNat), (9, b.toNat), (6, k.toNat), (3, 4), (1, e.bits.toNat)])
  | .vscat d a da b k e => some (pack [(26, 26), (21, d.toNat), (16, a.toNat), (14, da.toNat), (9, b.toNat), (6, k.toNat), (3, 5), (1, e.bits.toNat)])
  | .vldb d a da k e => some (pack [(26, 26), (21, d.toNat), (16, a.toNat), (14, da.toNat), (6, k.toNat), (3, 6), (1, e.bits.toNat)])
  | .vshuf d a dva b k => some (pack [(26, 27), (21, d.toNat), (16, a.toNat), (15, dva.toNat), (10, b.toNat), (7, k.toNat)])
  | .vslide d a dva b k => some (pack [(26, 27), (21, d.toNat), (16, a.toNat), (15, dva.toNat), (10, b.toNat), (7, k.toNat), (0, 1)])
  | .vbcast d a dva k => some (pack [(26, 27), (21, d.toNat), (16, a.toNat), (15, dva.toNat), (7, k.toNat), (0, 2)])
  | .vext d a dva b => some (pack [(26, 27), (21, d.toNat), (16, a.toNat), (15, dva.toNat), (10, b.toNat), (0, 3)])
  | .vins d a dva b => some (pack [(26, 27), (21, d.toNat), (16, a.toNat), (15, dva.toNat), (10, b.toNat), (0, 4)])
  | .vredsum d a dva k => some (pack [(26, 27), (21, d.toNat), (16, a.toNat), (15, dva.toNat), (7, k.toNat), (0, 5)])
  | .vredmax d a dva k => some (pack [(26, 27), (21, d.toNat), (16, a.toNat), (15, dva.toNat), (7, k.toNat), (0, 6)])
  | .vredmin d a dva k => some (pack [(26, 27), (21, d.toNat), (16, a.toNat), (15, dva.toNat), (7, k.toNat), (0, 7)])
  | .vcvt d a dva k => some (pack [(26, 27), (21, d.toNat), (16, a.toNat), (15, dva.toNat), (7, k.toNat), (0, 8)])
  | .venc d a dva k => some (pack [(26, 27), (21, d.toNat), (16, a.toNat), (15, dva.toNat), (7, k.toNat), (0, 9)])
  | .vdec d a dva k => some (pack [(26, 27), (21, d.toNat), (16, a.toNat), (15, dva.toNat), (7, k.toNat), (0, 10)])
  | .vqnt d a dva b => some (pack [(26, 27), (21, d.toNat), (16, a.toNat), (15, dva.toNat), (10, b.toNat), (0, 11)])
  | .vdqnt d a dva k => some (pack [(26, 27), (21, d.toNat), (16, a.toNat), (15, dva.toNat), (7, k.toNat), (0, 12)])
  | .vppu d a dva k => some (pack [(26, 27), (21, d.toNat), (16, a.toNat), (15, dva.toNat), (7, k.toNat), (0, 13)])
  | .viota d k => some (pack [(26, 27), (21, d.toNat), (7, k.toNat), (0, 14)])
  | .vsel d a dva b k => some (pack [(26, 27), (21, d.toNat), (16, a.toNat), (15, dva.toNat), (10, b.toNat), (7, k.toNat), (0, 15)])
  | .kand d a b => some (pack [(26, 28), (21, d.toNat), (16, a.toNat), (10, b.toNat)])
  | .kor d a b => some (pack [(26, 28), (21, d.toNat), (16, a.toNat), (10, b.toNat), (0, 1)])
  | .kxor d a b => some (pack [(26, 28), (21, d.toNat), (16, a.toNat), (10, b.toNat), (0, 2)])
  | .knot d a => some (pack [(26, 28), (21, d.toNat), (16, a.toNat), (0, 3)])
  | .kfrom d a dva => some (pack [(26, 28), (21, d.toNat), (16, a.toNat), (15, dva.toNat), (0, 4)])
  | .kto d a => some (pack [(26, 28), (21, d.toNat), (16, a.toNat), (0, 5)])
  | .kpop d a => some (pack [(26, 28), (21, d.toNat), (16, a.toNat), (0, 6)])
  | .kfirst d a => some (pack [(26, 28), (21, d.toNat), (16, a.toNat), (0, 7)])
  | .mcfg a b w n => some (pack [(26, 29), (16, a.toNat), (11, b.toNat), (3, w.toNat), (0, n.toNat)])
  | .mgeo a w n => some (pack [(26, 29), (16, a.toNat), (4, 1), (3, w.toNat), (0, n.toNat)])
  | .mzero w n => some (pack [(26, 29), (4, 2), (3, w.toNat), (0, n.toNat)])
  | .mma a b w n => some (pack [(26, 29), (16, a.toNat), (11, b.toNat), (4, 3), (3, w.toNat), (0, n.toNat)])
  | .mmat a b w n => some (pack [(26, 29), (16, a.toNat), (11, b.toNat), (4, 4), (3, w.toNat), (0, n.toNat)])
  | .mmas a b w n => some (pack [(26, 29), (16, a.toNat), (11, b.toNat), (4, 5), (3, w.toNat), (0, n.toNat)])
  | .mdrain a b w u n => some (pack [(26, 29), (16, a.toNat), (11, b.toNat), (4, 6), (3, w.toNat), (2, u.toNat), (0, n.toNat)])
  | .mldacc a b w n => some (pack [(26, 29), (16, a.toNat), (11, b.toNat), (4, 7), (3, w.toNat), (0, n.toNat)])
  | .mstacc d a w n => some (pack [(26, 29), (21, d.toNat), (16, a.toNat), (4, 8), (3, w.toNat), (0, n.toNat)])
  | .mstat d w n => some (pack [(26, 29), (21, d.toNat), (4, 9), (3, w.toNat), (0, n.toNat)])
  | .mwait w n => some (pack [(26, 29), (4, 10), (3, w.toNat), (0, n.toNat)])
  | .chain a b w n => some (pack [(26, 30), (16, a.toNat), (11, b.toNat), (3, w.toNat), (0, n.toNat)])
  | .cadd d a b w n => some (pack [(26, 30), (21, d.toNat), (16, a.toNat), (11, b.toNat), (4, 1), (3, w.toNat), (0, n.toNat)])
  | .cclose w n => some (pack [(26, 30), (4, 2), (3, w.toNat), (0, n.toNat)])
  | .cstat d a w => some (pack [(26, 30), (21, d.toNat), (16, a.toNat), (4, 3), (3, w.toNat)])
  | .cwait w n => some (pack [(26, 30), (4, 4), (3, w.toNat), (0, n.toNat)])
  | .rgcfg a => some (pack [(26, 31), (16, a.toNat)])
  | .mtld a => some (pack [(26, 31), (16, a.toNat), (4, 1)])
  | .mtclr => some (pack [(26, 31), (4, 2)])
  | .binj a w => some (pack [(26, 31), (16, a.toNat), (4, 3), (3, w.toNat)])
  | .btake d a => some (pack [(26, 31), (21, d.toNat), (16, a.toNat), (4, 4)])
  | .bstat d a => some (pack [(26, 31), (21, d.toNat), (16, a.toNat), (4, 5)])
  | .tkget d => some (pack [(26, 31), (21, d.toNat), (4, 6)])
  | .tkdone a => some (pack [(26, 31), (16, a.toNat), (4, 7)])
  | .rgsub d a b => some (pack [(26, 31), (21, d.toNat), (16, a.toNat), (11, b.toNat), (4, 8)])
  | .rgquiet => some (pack [(26, 31), (4, 9)])
  | .tabld a b w t => some (pack [(26, 32), (16, a.toNat), (11, b.toNat), (3, w.toNat), (0, t.toNat)])
  | .tabrd d a w t => some (pack [(26, 32), (21, d.toNat), (16, a.toNat), (4, 1), (3, w.toNat), (0, t.toNat)])
  | .tabchk d w t => some (pack [(26, 32), (21, d.toNat), (4, 2), (3, w.toNat), (0, t.toNat)])
  | .ppuld a w => some (pack [(26, 32), (16, a.toNat), (4, 3), (3, w.toNat)])
  | .ppurd d a w => some (pack [(26, 32), (21, d.toNat), (16, a.toNat), (4, 4), (3, w.toNat)])
  | .enc d a w t => some (pack [(26, 32), (21, d.toNat), (16, a.toNat), (4, 5), (3, w.toNat), (0, t.toNat)])
  | .dec d a w t => some (pack [(26, 32), (21, d.toNat), (16, a.toNat), (4, 6), (3, w.toNat), (0, t.toNat)])
  | .cpstat d a => some (pack [(26, 33), (21, d.toNat), (16, a.toNat)])
  | .cpwait d a => some (pack [(26, 33), (21, d.toNat), (16, a.toNat), (4, 1)])
  | .cpcan a => some (pack [(26, 33), (16, a.toNat), (4, 2)])
  | .fnew d => some (pack [(26, 34), (21, d.toNat)])
  | .fput a b => some (pack [(26, 34), (16, a.toNat), (11, b.toNat), (4, 1)])
  | .fget d a b => some (pack [(26, 34), (21, d.toNat), (16, a.toNat), (11, b.toNat), (4, 2)])
  | .ftry d a b => some (pack [(26, 34), (21, d.toNat), (16, a.toNat), (11, b.toNat), (4, 3)])
  | .fpois a b => some (pack [(26, 34), (16, a.toNat), (11, b.toNat), (4, 4)])
  | .ffree a => some (pack [(26, 34), (16, a.toNat), (4, 5)])
  | .flink d a b => some (pack [(26, 34), (21, d.toNat), (16, a.toNat), (11, b.toNat), (4, 6)])
  | .jsub a => some (pack [(26, 35), (16, a.toNat)])
  | .jwid d => some (pack [(26, 35), (21, d.toNat), (4, 1)])
  | .jarg d => some (pack [(26, 35), (21, d.toNat), (4, 2)])
  | .jend => some (pack [(26, 35), (4, 3)])
  | .jqry d a => some (pack [(26, 35), (21, d.toNat), (16, a.toNat), (4, 4)])
  | .chsnd d a c => some (pack [(26, 36), (21, d.toNat), (16, a.toNat), (11, c.toNat)])
  | .chrcv d a c => some (pack [(26, 36), (21, d.toNat), (16, a.toNat), (11, c.toNat), (4, 1)])
  | .chsndv d a c => some (pack [(26, 36), (21, d.toNat), (16, a.toNat), (11, c.toNat), (4, 2)])
  | .chrcvv d c => some (pack [(26, 36), (21, d.toNat), (11, c.toNat), (4, 3)])
  | .chpoll d c => some (pack [(26, 36), (21, d.toNat), (11, c.toNat), (4, 4)])
  | .barp k => some (pack [(26, 37), (0, k.toNat)])
  | .xsel a k => some (pack [(26, 37), (16, a.toNat), (4, 1), (0, k.toNat)])
  | .xmit h b l => some (pack [(26, 37), (16, h.toNat), (11, b.toNat), (4, 2), (0, l.toNat)])
  | .xmitCh c h b l => some (pack [(26, 37), (21, c.toNat), (16, h.toNat), (11, b.toNat), (4, 2), (3, 1), (0, l.toNat)])
  | .xrecv d h l => some (pack [(26, 37), (21, d.toNat), (16, h.toNat), (4, 3), (0, l.toNat)])
  | .xrecvCh d h c l => some (pack [(26, 37), (21, d.toNat), (16, h.toNat), (11, c.toNat), (4, 3), (3, 1), (0, l.toNat)])
  | .xend d => some (pack [(26, 37), (21, d.toNat), (4, 4)])
  | .bar a n => some (pack [(26, 38), (16, a.toNat), (0, n.toNat)])
  | .barnw a n => some (pack [(26, 38), (16, a.toNat), (4, 1), (0, n.toNat)])
  | .sleep d a => some (pack [(26, 38), (21, d.toNat), (16, a.toNat), (4, 2)])
  | .wake a => some (pack [(26, 38), (16, a.toNat), (4, 3)])
  | .time d => some (pack [(26, 38), (21, d.toNat), (4, 4)])
  | .kop s d a b c k => some (pack [(26, 39), (23, s.toNat), (18, d.toNat), (13, a.toNat), (8, b.toNat), (3, c.toNat), (0, k.toNat)])
  | .kld a b => some (pack [(26, 40), (16, a.toNat), (11, b.toNat)])
  | .krel a => some (pack [(26, 40), (16, a.toNat), (4, 1)])
  | .kqry d a => some (pack [(26, 40), (21, d.toNat), (16, a.toNat), (4, 2)])
  | .srd d r => some (pack [(26, 41), (21, d.toNat), (4, r.toNat)])
  | .swr a r => some (pack [(26, 41), (16, a.toNat), (4, r.toNat), (0, 1)])
  | .sset a r => some (pack [(26, 41), (16, a.toNat), (4, r.toNat), (0, 2)])
  | .sclr a r => some (pack [(26, 41), (16, a.toNat), (4, r.toNat), (0, 3)])
  | .trap n => some (pack [(26, 41), (4, n.toNat), (0, 4)])
  | .eret => some (pack [(26, 41), (0, 5)])
  | .halt => some (pack [(26, 41), (0, 6)])
  | .tlbinv a m => some (pack [(26, 41), (16, a.toNat), (4, m.toNat), (0, 7)])
  | .acct d a n => some (pack [(26, 41), (21, d.toNat), (16, a.toNat), (4, n.toNat), (0, 8)])
  | .brk n => some (pack [(26, 42), (4, n.toNat)])
  | .wpset a n => some (pack [(26, 42), (16, a.toNat), (4, n.toNat), (0, 1)])
  | .wpclr n => some (pack [(26, 42), (4, n.toNat), (0, 2)])
  | .dstop d a m => some (pack [(26, 42), (21, d.toNat), (16, a.toNat), (4, m.toNat), (0, 3)])
  | .dstep d a => some (pack [(26, 42), (21, d.toNat), (16, a.toNat), (0, 4)])
  | .dres d a m => some (pack [(26, 42), (21, d.toNat), (16, a.toNat), (4, m.toNat), (0, 5)])
  | .deferredInstruction e f i => some (pack [(28, 15), (26, e.toNat), (6, f.toNat), (0, i.toNat)])
  | _ => none

/-- The instruction read from the bytes of the word w, as the opcode table numbers its bits (R53: a word is 32 bits, and
bits that are not given are zero). -/
noncomputable def decodeTableWord (nbits w : Nat) : Option Instr :=
  if nbits ≤ 32 then
    match decode (BitVec.ofNat 32 w) with
    | .ok i => some i
    | .error _ => none
  else none

end Sys2Proof
end

