-- ==== Sys2Proof/Config.lean ====
section
/-! DEFINITION. What the spec leaves to the device: values with no body, so that nothing can be proved of them (log 7). -/

namespace Sys2Proof.Config

/-- The device's signature over a digest (R390, R394); two signatures of one digest may differ. -/
opaque signature : Nat → BitVec 384 → BitVec 768
/-- Maelfieb's public key, in the boot ROM (R393, R402). -/
opaque vendorKey : BitVec 768
/-- The energy estimate in millijoules that a fold adds (R388). -/
opaque energy : Nat → Nat
/-- The device values THBM, THOST and TPEER of NETLAT (R348), in cycles. -/
opaque thbm : BitVec 12
opaque thost : BitVec 12
opaque tpeer : BitVec 12
/-- The certificate chain of SPDM slot 0 (R394). -/
opaque certificates : List Byte
/-- The bytes of an SPDM answer that the manual leaves to the SPDM specification, from the request (R395). -/
opaque spdmFields : Nat → List Byte → List Byte
/-- How many entries a stack's log region holds (R437). -/
opaque logCapacity : Nat → Nat
/-- The digest of a firmware stage that a boot measures (R392): register, and stack for a base die. -/
opaque stageDigest : Nat → Nat → BitVec 384
/-- Whether a boot stage passes its verification against the fused security version (R393): register, digest, version. -/
opaque stageVerifies : Nat → BitVec 384 → Nat → Bool
/-- Whether an access at a slice reads its line from HBM, and whether it writes a line back (R388). -/
opaque fills : Nat → Bool
opaque spills : Nat → Bool
/-- Whether a translation of an engine that sets no bit walks the tables, and so counts (R388). -/
opaque walks : Nat → Bool
/-- Where the management complex's region for save records holds the record kept under a number (R433), and where a stack's
log region begins (R437). -/
opaque saveAt : Nat → Nat
opaque logAt : Nat → Nat
/-- The bytes of a section of a save record whose places no rule gives (R434), by the record's mark, the section's type and
unit, and the offset; and how many bytes one that is as long as what it holds has. -/
opaque sectionByte : Nat → Nat → Nat → Nat → Byte
opaque sectionLength : Nat → Nat → Nat → Nat
/-- The field number of the fault that a routine reports at one of its words (R82): deferred word, word of the store. -/
opaque routineFault : Word32 → Word32 → Option (BitVec 4)
/-- A word of a routine with the operands of the deferred word in their place (R83): deferred word, word of the store. -/
opaque routineWord : Word32 → Word32 → Word32
/-- The code of a value through a table with no finite entry (R128): the table's entries, whether it is TC and saturates, and
the value. -/
opaque freeCode : List Word32 → Bool × Bool → Bool × Option (Nat × Int) → Nat
/-- The nibble beside the last code of a row of an odd number of 4-bit codes (R131), by the row's codes. -/
opaque spareNibble : List Nat → Nat
/-- A value that the manual leaves open, one for each value of the counter fresh. -/
opaque freeWord : Nat → Word

end Sys2Proof.Config
end

