-- ==== Sys2Proof/Machine/State.lean ====
section
/-! DEFINITION. The state of the machine: plain data, everything the spec gives the Cumus 7160, and the state after reset. -/

namespace Sys2Proof.Machine

/-- No event of the architecture stops the whole machine: every fault is a trap of a core, a poisoned future or a report
to the management complex (R419). The model therefore has no fault of its own. -/
inductive Fault where
deriving DecidableEq, Repr

/-- Why a step has no next state. -/
inductive Refusal where
  /-- No meaning yet for the instruction named. Raised by an arm of exec only. Safe: nothing follows from it. -/
  | notModelled (mnemonic : String)
  /-- An event of the device was named that the state does not allow (a response with no request, a retirement with no
  iteration to retire, a management command for no context where the spec gives no status). Raised by the meanings of
  events, never by a word of a program. Safe: such a turn does not occur (log 5). -/
  | notEnabled (event : String)
deriving DecidableEq, Repr

/-! ## Versioned names (R24 to R29) -/

/-- One version slot: its value and its full/empty bit (R24). -/
structure Slot (α : Type) where
  val : α
  full : Bool := true
deriving DecidableEq, Repr

/-- The versions of one name, newest first: as many slots as the name's depth. -/
structure Ver (α : Type) where
  hist : List (Slot α)
  /-- the current iteration has written the name (R26, R35) -/
  wrote : Bool := false
  /-- nesting level of the exited loop whose versions the name still holds; 0 if none (R39) -/
  exited : Nat := 0
  /-- the version that the current iteration's first write replaced, kept aside (R29) -/
  dropped : Option (Slot α) := none
deriving DecidableEq, Repr

/-- A carry declaration (R30). -/
structure Carry where
  scalars : BitVec 32 := 0#32
  vectors : BitVec 32 := 0#32
  depth : Nat := 1
deriving DecidableEq, Repr

/-- A loop record (R100, R102), with the enclosing loop's versions of the names that both loops carry (R40). -/
structure LoopRec where
  start : Word
  last : Word
  count : Nat
  window : Nat
  iter : Nat := 0
  carry : Carry := {}
  asideS : Tab (Ver Word) := []
  asideV : Tab (Ver Vec) := []
  /-- the greatest distance at which the body reads a carried name, by its number, 32 more for a vector name (R372) -/
  reach : Tab Nat := []
deriving DecidableEq, Repr

/-- How the current iteration ends once it may retire: at its ENDIT, or by a BRKIF of the level given (R103, R104). -/
inductive Ending where
  | endit
  | brk (level : Nat)
deriving DecidableEq, Repr

/-! ## Memory requests and answers -/

/-- The kind of an access, for translation, permission and watchpoints (R380, R412). -/
inductive Access where
  | fetch | load | store | atomic
deriving DecidableEq, Repr

/-- Where an access is performed (R247): the owning core's scratchpad, the home slice of an HBM line, the host through
the home slice, or a peer package. -/
inductive Place where
  | scratch (owner : CoreId)
  | hbm
  | host
  | peer
deriving DecidableEq, Repr

/-- What a request does at its point: a load, an LDRO, a store, a nibble store (R256) or an atomic of R282. -/
inductive ReqKind where
  | load
  | ldro
  | store
  | nibble (high : Bool)
  | amo (fn : Nat)
deriving DecidableEq, Repr

/-- A request of a core, on its way to the point where it is performed. -/
structure Req where
  src : CoreId
  ctx : Nat
  place : Place
  /-- physical address, or offset in the owner's scratchpad -/
  addr : Nat
  size : Nat
  kind : ReqKind
  data : Word := 0#64
  cmp : Word := 0#64
  /-- the pending load of the core that the answer belongs to, and the bit where its piece lies -/
  pend : Option Nat := none
  shift : Nat := 0
  /-- the journal entry of a posted store (R254) -/
  journal : Option Nat := none
  /-- served by the near slice, which is not the home slice (R223) -/
  near : Bool := false
  /-- the line goes into the core's L1 (R222) -/
  fill : Bool := false
  /-- the leaf counts accesses (R385) -/
  counted : Bool := false
  /-- carries the relaxed-ordering attribute clear (R262) -/
  strict : Bool := false
  /-- the instruction is held until the request is performed (R281, R284) -/
  holds : Bool := false
  /-- the request has left for the host or the peer -/
  sent : Bool := false
  /-- the granules of this part of a vector store, counted from its first, that its lanes write whole together (R441) -/
  whole : List Nat := []
  /-- the card whose unit issued it (R223) -/
  card : Nat := 0
  va : Word := 0#64
  /-- the slice it goes to, for an HBM or host line (R219, R335) -/
  slice : Nat := 0
  /-- bits of the answer that the core has from its own buffered stores (R41, R221) -/
  hide : Nat := 0
  /-- requests of one core with the same number, unless it is 0, are performed in the order they were sent: the stores of one
  iteration with W > 1, of one deferred instruction, or of one vector store (R84, R179, R235) -/
  order : Nat := 0
  /-- the number that the core had then: what a job's submission finds is not above the job's (R269) -/
  era : Nat := 0
  /-- the address of the access that it is a part of (R413) -/
  lane : Word := 0#64
  /-- a store of a deferred instruction that is a release, with its scope, or an STS (R84, R250) -/
  release : Option Scope := none
  alone : Bool := false
deriving DecidableEq, Repr

/-- What a read that another may be merged with returned (R225): its context, line and slice, the line, and the cores that have
stored to the line since, whose own requests must see their stores (R234). -/
structure Shared where
  ctx : Nat
  line : Nat
  slice : Nat
  data : BitVec 1024
  barred : List CoreId := []
deriving DecidableEq, Repr

/-- An answer on its way back to a core (R276). -/
structure Answer where
  dst : CoreId
  /-- where it comes from: answers from one source arrive in the order they were sent (R335) -/
  source : Option Nat := none
  /-- the pending load that it answers; none for a line that is only kept -/
  pend : Option Nat
  shift : Nat
  value : Nat
  /-- the line and its contents, when it is to be kept in L1 -/
  line : Option (Nat × BitVec 1024) := none
  /-- the HBM line that it was read from (R249) -/
  from_ : Option Nat := none
  shared : Option Shared := none
  /-- the job of the core whose source it brings (R225) -/
  job : Option Nat := none
  /-- the owner's acknowledgement of the posted store with this journal entry, which keeps its order too (R259) -/
  ack : Option Nat := none
deriving DecidableEq, Repr

/-- The destination of a pending load, and what becomes of the bytes that arrive. -/
inductive Dest where
  | scalar (r : Reg) (bytes : Nat) (signed : Bool)
  | vector (r : Reg)
  | broadcast (r : Reg) (old : Vec) (mask : Word) (bytes : Nat)
deriving DecidableEq, Repr

/-- A load that waits for answers: the bytes that have arrived, and how many answers are still to come. -/
structure Pend where
  dest : Dest
  acc : Nat := 0
  left : Nat
  /-- the scope of an acquire (R251) -/
  acquire : Option Scope := none
deriving DecidableEq, Repr

/-- An iteration in flight that is younger than the core's current one (R21, R22, R41): its PC, the versions that it has
written, its buffered stores, the loads that it waits for, its FFLAGS bits, and how it ends. -/
structure Iter where
  pc : Word
  sw : Tab (Slot Word) := []
  vw : Tab (Slot Vec) := []
  sbuf : List (List Req) := []
  pend : Tab Pend := []
  flags : Word := 0#64
  ending : Option Ending := none
  /-- bytes that its loads have sent for, by place, address and length (R41) -/
  reads : List (Place × Nat × Nat) := []
  /-- a load of it found bytes in the core -/
  found : Bool := false
deriving DecidableEq, Repr

/-- An instruction that has sent its request and waits, unfinished, for the outcome (R281, R284). -/
inductive Held where
  | waiting
  | done (val : Word)
  | failed (cause : Cause) (val : Word)
deriving DecidableEq, Repr

/-- A TLB entry (R382): context, first address and log2 of the size of the page, and the leaf. -/
structure TlbEntry where
  ctx : Nat
  base : Nat
  log2 : Nat
  pte : Word
deriving DecidableEq, Repr

/-- A page walk in progress for a core (R379). -/
structure Walk where
  va : Word
  access : Access
deriving DecidableEq, Repr

/-- A write that WB = 1 holds back: its address, the time of its first stall, and whether it waits to translate again
(R387). -/
structure WbStall where
  va : Word
  since : Nat
  waiting : Bool := true
deriving DecidableEq, Repr

/-- A pending asynchronous cause with its TRAPVAL (R423). -/
structure Async where
  cause : Cause
  val : Word
deriving DecidableEq, Repr

/-! ## Matrix engine, carry network, tables, PPU, KDO -/

/-- One element of a slot: the integer V with its flags NaN, +Inf, -Inf and clip, and its product count (R120, R135). -/
structure Elem where
  v : Int := 0
  nan : Bool := false
  pinf : Bool := false
  ninf : Bool := false
  clip : Bool := false
  count : Nat := 0
deriving DecidableEq, Repr, Inhabited

/-- A matrix slot (R135). Elements are keyed by 32 i + j; one not listed is zero. -/
structure MSlot where
  elems : Tab Elem := []
  scale : Int := 0
  headroom : Nat := 0
  context : Word := 0#64
  geometry : Word := 0#64
  isOpen : Bool := false
  nexp : Nat := 0
  future : Nat := 0
  /-- the card whose unit opened the chain (R274) -/
  card : Nat := 0
deriving DecidableEq, Repr

/-- A bead: header fields and body (R318). -/
structure Bead where
  tag : BitVec 32
  pcnt : Nat
  dcnt : Nat := 0
  age : Nat := 0
  dmask : BitVec 64 := 0#64
  fmt : Byte
  scale : List Byte
  body : List Byte
  /-- the core whose BINJ brought it, or the core and number of the loader job (R330) -/
  from_ : CoreId
  job : Option Nat := none
  /-- a BINJ with w = 1 waits for it (R367) -/
  waits : Bool := false
  ctx : Nat := 0
deriving DecidableEq, Repr

/-- A run of bytes that a queued command reads or writes, with its place fixed when the command issues (R182). -/
structure Span where
  va : Nat
  len : Nat
  place : Place
  addr : Nat
  /-- its first byte among the bytes that the command reads, or writes -/
  off : Nat
  /-- the command writes it -/
  wr : Bool
  counted : Bool := false
  /-- WB was 1 at issue (R387) -/
  blocked : Bool := false
  /-- the time of the first stall of a write that WB = 1 holds back (R387) -/
  since : Option Nat := none
  /-- the write has been performed -/
  done : Bool := false
deriving DecidableEq, Repr

/-- A command in the matrix queue, with the operands and translations captured at its enqueue (R58, R181). -/
inductive MCmd where
  /-- MMA, MMAT or MMAS: transposed, negated (R137) -/
  | mma (transposed negated : Bool)
  | mdrain (dual : Bool)
  | mldacc
  | mstacc
  /-- CADD, or the completion action of a match entry, which sends nothing when every count is 0 (R329) -/
  | cadd (ring : Bool)
  /-- a hardware ring task of a match entry (R324), negated or not; its beads are in the command -/
  | task (entry : Nat) (negated : Bool)
  /-- the read of a PULL job: the core that submitted it and its number (R331) -/
  | pull (owner : CoreId) (job : Nat)
deriving DecidableEq, Repr

structure QCmd where
  cmd : MCmd
  slot : Nat
  a : Word := 0#64
  b : Word := 0#64
  context : Word := 0#64
  geometry : Word := 0#64
  /-- the destination name of CADD and MSTACC (R58) -/
  d : Reg := 0#5
  waits : Bool := false
  spans : List Span := []
  /-- the bytes the command writes, once converted (MDRAIN, MSTACC) -/
  out : List Byte := []
  /-- the beads of a hardware ring task, A first -/
  beads : List Bead := []
  /-- what the command loads into its slot, once read (MLDACC) -/
  elems : List Elem := []
  /-- MSTACC has read its slot -/
  started : Bool := false
  /-- bytes of its operands that the engine has read already, by their key in memory: of each granule one read serves every
  row that holds it (R139, R257) -/
  taken : Tab Byte := []
  system : Bool := false
  /-- KEYS as they stood at issue (R384) -/
  keys : BitVec 256 := 0#256
  card : Nat := 0
deriving DecidableEq, Repr

/-- A row message of the carry network (R145, R147). -/
structure CarryRow where
  ctx : Nat
  dst : CoreId
  dslot : Nat
  row : Nat
  src : CoreId
  sslot : Nat
  scale : Int
  headroom : Nat
  merged : Bool := false
  elems : List Elem
deriving DecidableEq, Repr

/-- A carry record and whether its trap has been delivered (R149). -/
structure CarryRec where
  word : Word
  delivered : Bool := false
deriving DecidableEq, Repr

/-- A decode table: 256 entries, unlisted zero, and its status (R124, R125, R127). -/
structure DecTab where
  entries : Tab Word32 := []
  tc : Bool := false
  sat : Bool := false
  four : Bool := false
  verified : Bool := false
  n3 : Bool := false
deriving DecidableEq, Repr

/-- A KDO slot's image: header word, twelve cell words, four constants (R199). -/
structure Kdo where
  hdr : Word32
  cells : List Word32
  consts : List Word
deriving DecidableEq, Repr

/-! ## Copy engine (R226 to R231, R286 to R291) -/

/-- A job of the copy engine: its number, the snapshot of QW0 to QW3, how far it has run, its fault, and the privilege it
translates with (R384). -/
structure Job where
  num : Nat
  qw0 : Word
  qw1 : Word
  qw2 : Word
  qw3 : Word
  system : Bool
  /-- KEYS as they stood at issue (R384) -/
  keys : BitVec 256 := 0#256
  /-- it has made an access (R290) -/
  running : Bool := false
  /-- its writes below this number are made; for SUBSCRIBE, the next list entry -/
  pos : Nat := 0
  /-- what it has read of its data and may still need, by the first byte of each read (R257, R263) -/
  got : Tab (List Byte) := []
  /-- the writes from pos on that it has made (R263, R289) -/
  wrote : List Nat := []
  /-- the record, address list or source list that a job has read (R228, R267, R288, R330, R331) -/
  record : List Byte := []
  /-- the bytes that a PULL has converted, and its accesses: offset from QW2, length, first byte (R331) -/
  bytes : Option (List Byte × List (Nat × Nat × Nat)) := none
  ctx : Nat := 0
  card : Nat := 0
  /-- the number that the core's requests had when it was submitted (R269) -/
  era : Nat := 0
  /-- since when WB = 1 has held writes of the job back, by number (R387) -/
  stalled : Tab Nat := []
deriving DecidableEq, Repr

/-- A deferred instruction in progress (R84): its word and address, its routine in the store, and the names and flags as
they were at its start. While it runs, the core's PC is an offset in the routine. -/
structure Routine where
  pc : Word
  word : Word32
  start : Nat
  len : Nat
  sregs : Tab (Ver Word)
  vregs : Tab (Ver Vec)
  masks : Tab Word
  fflags : Word
  pendingFlags : Word
  /-- the window registers as they were, the loads that were pending, and the jobs that the routine submits at its end -/
  window : Word × Word × Word × Word
  firstPend : Nat
  jobs : List Job := []
deriving DecidableEq, Repr

/-! ## Work units, gangs (R44 to R49, R302) -/

/-- The work unit a core runs, with the rest of its chunk: the identifier, the first identifier after the chunk. -/
structure WorkUnit where
  card : Nat
  ident : Nat
  stop : Nat
  argBase : Word
  argSize : Nat
deriving DecidableEq, Repr

/-- Membership of a lockstep gang: the leader's COREID, the width (R44). -/
structure Gang where
  leader : CoreId
  width : Nat
deriving DecidableEq, Repr

/-- What a split member waits at (R46, R110). -/
inductive Join where
  | fuse
  | jend
deriving DecidableEq, Repr

/-- An entry of the ring forwarding path: the word the leader issued, its address and the outcome of a control
instruction or a collective (R44, R428). -/
structure PathEntry where
  pc : Word
  word : Word32
  outcome : Option Word := none
  /-- the record that a LOOP of the leader takes (R102) -/
  record : Option LoopRec := none
deriving DecidableEq, Repr

/-! ## A core -/

/-- Why a core is at rest although it holds a work unit. -/
inductive Rest where
  | none
  /-- stopped at a stop time (R431) -/
  | stopped
deriving DecidableEq, Repr

/-- One core: every register, and the state of its pipes, engines and buffers. -/
structure Core where
  pc : Word := 0#64
  sregs : Tab (Ver Word) := []
  vregs : Tab (Ver Vec) := []
  masks : Tab Word := []
  /-- loop stack, innermost first (R40) -/
  loops : List LoopRec := []
  lcar : Option Carry := none
  x1 : Word := 0#64
  x2 : Word := 0#64
  /-- iteration store buffer, oldest first (R41) -/
  sbuf : List (List Req) := []
  /-- pieces of the store in progress that are still to be sent (R235, R254) -/
  outq : List Req := []
  /-- the number of the stores that are performed in order: those of the current iteration, deferred instruction or vector
  store (R84, R179, R235) -/
  orderNo : Nat := 1
  /-- the number that marks the core's requests: a job submission closes it (R269) -/
  era : Nat := 1
  committed : Bool := false
  /-- iterations in flight that are younger than the current one, oldest first (R21) -/
  young : List Iter := []
  /-- FFLAGS bits of the current iteration, added when it retires (R163) -/
  pendingFlags : Word := 0#64
  /-- the iteration has ended and waits to retire (R22) -/
  ending : Option Ending := none
  /-- how many loops each running handler or loader routine found when it was entered, innermost first (R43, R211) -/
  suspended : List Nat := []
  /-- of each suspended iteration, innermost first: whether it was committed, and its FFLAGS bits (R42, R43) -/
  asideMarks : List (Bool × Word) := []
  /-- the word in issue -/
  word : Word32 := 0#32
  /-- DSTEP lets this core issue one instruction; the issuer (R417) -/
  stepping : Option CoreId := none
  /-- state registers (R403) -/
  status : Word := 0#64
  trapcause : Word := 0#64
  trappc : Word := 0#64
  trapval : Word := 0#64
  trapvec : Word := 0#64
  scratch : Word := 0#64
  fflags : Word := 0#64
  vtype : Word := 0#64
  lmsplit : Word := 0#64
  kloader : Word := 0#64
  klstate : Word := 0#64
  timestamp : Word := 0#64
  /-- posted-store journal, entry 0 first; an unlisted entry is free (R426) -/
  journal : Tab Word32 := []
  /-- the time base when each pending entry was taken (R255) -/
  journalAt : Tab Nat := []
  wp : Tab Word := []
  dstat : Word := 0#64
  dinfo : Word := 0#64
  /-- an ACT 0 match of the instruction in progress, with the address of that instruction (R413) -/
  wpHit : Option (Async × Word) := none
  /-- that instruction has completed, and the trap waits for other members of the gang or for the interlock -/
  hitDue : Bool := false
  rest : Rest := .none
  context : Option Nat := none
  unit : Option WorkUnit := none
  /-- the last card this core began a unit of (R49) -/
  lastCard : Option Nat := none
  stackTop : Word := 0#64
  gang : Option Gang := none
  /-- the gang that the last SPLIT dissolved (R46) -/
  wasGang : Option Gang := none
  join : Option Join := none
  /-- a member has issued the word at the head of the leader's path; the leader's path (R428) -/
  ahead : Bool := false
  path : Option PathEntry := none
  /-- the words before it that a member has still to issue, oldest first, and how many of them this member has (R44, R428) -/
  trail : List PathEntry := []
  lag : Nat := 0
  /-- what traps of the gang put aside: the leader's words, and how many of them this member had still to issue (R428) -/
  savedPath : List (List PathEntry × Nat) := []
  wake : Bool := false
  /-- asleep in FGET: the future's index and the waiter record (R308) -/
  sleeping : Option (Nat × Nat) := none
  /-- what a woken FGET returns: value and state (R308) -/
  futDone : Option (Word × Nat) := none
  /-- the FGET stalls without a record (R308) -/
  rechecking : Bool := false
  /-- the command of a w = 1 instruction is enqueued and not complete (R431) -/
  pendingWait : Bool := false
  /-- SLEEP in progress with its deadline (R365) -/
  sleepUntil : Option Nat := none
  /-- the deadline has passed with the wake bit clear (R365) -/
  slept : Bool := false
  /-- the step of a channel transfer that has passed its wait (R359) -/
  chanStep : Nat := 0
  /-- BARP has arrived; the XRECV destination awaited (R340, R342) -/
  barpAt : Option Nat := none
  /-- the phase of a BARP in which this core stands debug-stopped has begun (R444) -/
  barpDone : Bool := false
  /-- a BAR has issued and is still to arrive (R444) -/
  arriving : Bool := false
  /-- the core has been dealt its unit, and prepares for the first that it runs of the card (R49) -/
  preparing : Bool := false
  /-- the schedule of the phase this core is in, from S to its XEND (R342, R343) -/
  inPhase : Option Nat := none
  unsent : Nat := 0
  empty : Nat := 0
  /-- XRECVs that wait for their slot: slot and destination (R342) -/
  recvAt : Tab Reg := []
  /-- beats that the phase has delivered to this station, by slot (R342) -/
  recvBeats : Tab Vec := []
  /-- beats that wait for their slot: slot and vector (R342) -/
  xmitAt : Tab Vec := []
  /-- the beat of the XMIT in issue has been sent -/
  xmitSent : Bool := false
  /-- the tag and arrival of a BINJ.WAIT or BTAKE in progress (R367, R368) -/
  ringWait : Option Nat := none
  ringDone : Option Word := none
  pend : Tab Pend := []
  nextPend : Nat := 0
  held : Option Held := none
  /-- granules of the image in issue that are to be read one at a time, by number, before the others; those read so far
  (R207, R257) -/
  imgOrder : List Nat := []
  imgGot : Tab (List Byte) := []
  l1d : Tab (BitVec 1024) := []
  l1i : Tab (BitVec 1024) := []
  fbuf : Tab Word32 := []
  lbuf : Tab Word32 := []
  /-- the body goes into the loop buffer again before the next iteration issues (R244) -/
  refetch : Bool := false
  tlb : List TlbEntry := []
  walk : Option Walk := none
  /-- causes that walks for the instruction in issue have found, by address -/
  walkFaults : Tab Cause := []
  wb : Option WbStall := none
  /-- a release or fence of this core waits for its journal entries, and finds their records itself (R255, R424) -/
  fencing : Bool := false
  /-- the core stands at a wait that is not satisfied (R351, R431) -/
  inWait : Bool := false
  /-- TLBINV in progress: how many clusters have not acknowledged yet (R383) -/
  tlbinv : Option Nat := none
  /-- a deferred instruction in progress (R84) -/
  routine : Option Routine := none
  mslots : Tab MSlot := []
  mqueue : List QCmd := []
  /-- results of engine commands on their way to a name are in `pend`; carry records (R149) -/
  carryRecs : Tab CarryRec := []
  carryLost : Nat := 0
  carryLostRaised : Bool := false
  tables : Tab DecTab := []
  ppu : Tab Byte := []
  kdo : Tab Kdo := []
  qw0 : Word := 0#64
  qw1 : Word := 0#64
  qw2 : Word := 0#64
  qw3 : Word := 0#64
  jobs : List Job := []
  lastJob : Nat := 0
  wrapped : Bool := false
  history : List Word := []
  asyncs : List Async := []
  asyncLost : Nat := 0
  /-- match table: eight entries, eight target words, counters (R320) -/
  mentries : Tab Word := []
  mtargets : Tab Word := []
  fcnt : Tab Nat := []
  tcnt : Tab Nat := []
  issuedDone : Tab Bool := []
  miss : Nat := 0
  /-- software task slots: entry, the two tags, firing number, handed out (R325) -/
  tasks : Tab (Nat × Nat × Nat × Nat × Bool) := []
  /-- firings of this core since its context was created (R369) -/
  fired : Nat := 0
  bindings : Tab (Word × Word) := []
deriving DecidableEq, Repr

/-! ## Clusters: rings, barriers, schedules, replicas -/

/-- The states of R317. -/
inductive RingState where
  | off | running | draining | frozen
deriving DecidableEq, Repr

/-- The ring of a cluster (R313 to R317): its slots by station, and the queues at station 0, oldest first. -/
structure Ring where
  state : RingState := .off
  config : Word := 0#64
  steps : Nat := 0
  slotA : Tab Bead := []
  slotB : Tab Bead := []
  queueA : List Bead := []
  queueB : List Bead := []
  /-- tags that BTAKE waits for, with the core (R368) -/
  takes : List (CoreId × Nat) := []
deriving DecidableEq, Repr

/-- A barrier (R363). -/
structure Barrier where
  mask : BitVec 16 := 0#16
  arrived : BitVec 16 := 0#16
  /-- arrivals by BARNW that no BAR has cleared yet -/
  pending : BitVec 16 := 0#16
  /-- arrivals by BARs that have not returned -/
  waiting : BitVec 16 := 0#16
  gen : Nat := 0
deriving DecidableEq, Repr

/-- A schedule of a router pair (R338). -/
structure Schedule where
  tag : Nat
  slots : List Word
deriving DecidableEq, Repr

structure Cluster where
  context : Option Nat := none
  ring : Ring := {}
  barriers : Tab Barrier := []
  schedules : Tab Schedule := []
  /-- replicas of the near slice: line, contents, card (R223) -/
  replicas : Tab (BitVec 1024 × Nat) := []
  tlb : List TlbEntry := []
  /-- stations that a stop has not reached yet, with its REASON (R414, R415) -/
  stopping : Tab Nat := []
  drops : Nat := 0
deriving DecidableEq, Repr

/-- A beat on its way: the slot at which it is present, the position, the layer (true: cache) and the input (R341). -/
structure Beat where
  slot : Nat
  cluster : Nat
  upper : Bool
  input : Nat
  data : Vec
deriving DecidableEq, Repr

/-- A transfer phase of a partition (R340 to R343). -/
structure Phase where
  sched : Nat
  nslot : Nat
  next : Nat := 0
  beats : List Beat := []
deriving DecidableEq, Repr

/-! ## Scheduling -/

/-- A work queue: descriptor, base, the function that rings it, and the engine's position and timer (R294 to R297). -/
structure Queue where
  desc : Word := 0#64
  base : Nat := 0
  fn : Nat := 0
  h : Nat := 0
  timer : Option Nat := none
  posted : Bool := false
deriving DecidableEq, Repr

/-- A footprint region of a card (R273). -/
structure Region where
  base : Nat
  len : Nat
  mode : Nat
deriving DecidableEq, Repr

inductive CardState where
  | waiting | released
deriving DecidableEq, Repr

/-- A card accepted and not complete (R298 to R302). -/
structure Card where
  queue : Nat
  resv : Nat
  ctx : Nat
  agency : Nat
  prio : Nat
  gang : Nat
  note : Bool
  hreq : Bool
  count : Nat
  entry : Word
  argBase : Word
  argSize : Nat
  chunk0 : Nat
  chunkMin : Nat
  image : Nat
  hint : Nat
  done : Nat
  regions : List Region
  state : CardState := .waiting
  preds : Nat := 0
  rem : Nat
  ended : Nat := 0
  releasedAt : Nat := 0
deriving DecidableEq, Repr

/-- Who waits on a future, and the next record of its list (R304, R308). -/
inductive Waiter where
  | core (c : CoreId)
  | card (n : Nat)
deriving DecidableEq, Repr

structure WaitRec where
  who : Waiter
  /-- the index of the future -/
  fut : Nat
  next : Nat := 0
deriving DecidableEq, Repr

/-! ## Contexts and management -/

/-- The fields of a context descriptor (R375). -/
structure Desc where
  ctx : Nat
  agency : Nat
  root : Word
  part : BitVec 160
  acn : Nat
  keys : BitVec 256
  actab : Nat
  acthr : Nat
  nqlog : Nat
  nqbase : Nat
  futbase : Nat
  futn : Nat
  tvec : Word
deriving DecidableEq, Repr

/-- A launch image: its handle, kernels (entry, argument size), scratchpad split, futures (R399 to R401). -/
structure Image where
  handle : Nat
  kernels : List (Nat × Nat)
  split : Nat
  futures : Nat
  bindings : Tab (Tab (Word × Word))
  stackTops : Tab Word
  /-- where text, rodata and data stand in physical memory: address and length -/
  parts : List (Nat × Nat)
deriving DecidableEq, Repr

inductive CtxState where
  | running
  /-- a stop time has been set (R430) -/
  | stopping (t : Nat)
  /-- every unit has stopped, and the save is not complete (R431, R433) -/
  | stopped (t : Nat)
  | saved
deriving DecidableEq, Repr

/-- A resident context. -/
structure Context where
  desc : Desc
  state : CtxState := .running
  images : List Image := []
  nextImage : Nat := 1
  /-- the free list of the future table, head first, and the table's size (R305, R400) -/
  freeFutures : List Nat := []
  futures : Nat := 0
  phase : Option Phase := none
  /-- the checkpoint interval open, 0 for none (R437) -/
  interval : Nat := 0
  /-- the stop under way is that of a checkpoint, which opens the interval given (R437) -/
  ckpt : Option Nat := none
  /-- the record of the stop under way is flagged (R436) -/
  wdog : Bool := false
  /-- when its last unit reached its place (R431, R432) -/
  restAt : Nat := 0
  nextInterval : Nat := 1
  /-- watchdog period in ms and the time of the last rewrite (R436) -/
  wdp : Nat := 100
  rewritten : Nat := 0
deriving DecidableEq, Repr

/-- A save record (R433 to R435), as structured data; the bytes that it is in HBM follow from it. -/
structure Save where
  ctx : Nat := 0
  agency : Nat := 0
  /-- the clusters that it was saved on, and to which alone it resumes (R435) -/
  part : BitVec 160 := 0#160
  wdog : Bool := false
  /-- marks the bytes whose place within a section no rule gives -/
  nonce : Nat := 0
  /-- when its last unit reached its place (R432) -/
  restAt : Nat := 0
  interval : Nat := 0
  stopTime : Nat
  cores : Tab Core
  clusters : Tab Cluster
  flight : List Req := []
  answers : List Answer := []
  rows : List CarryRow := []
  scratch : List Host.Cell := []
  /-- poisoned granules of the scratchpads -/
  poison : List Nat := []
  queues : Tab Nat := []
  cards : Tab Card := []
  /-- the waits of its cards, in list order, and the free list of its future table with the table's size -/
  waits : List WaitRec := []
  freeFutures : List Nat := []
  futures : Nat := 0
  /-- the record passes its DIGEST (R435) -/
  intact : Bool := true
deriving DecidableEq, Repr

/-- An entry of a base die's write log (R437). -/
structure LogEntry where
  line : Nat
  ctx : Nat
  interval : Nat
  data : BitVec 1024
deriving DecidableEq, Repr

/-- A registered agency key (R398). -/
structure AgencyKey where
  key : BitVec 768
  revoked : Bool := false
deriving DecidableEq, Repr

/-- An accepted firmware update that waits for the last context to leave (R402). -/
structure Update where
  store : Tab Word32
  dispatch : Tab Word
  translator : List Byte
  wmin : Nat
  svn : Nat
  build : Nat
deriving DecidableEq, Repr

/-- A posted write of the host that has not been performed whole: the function, its granules by address, and whether it
carries the relaxed-ordering attribute (R261). -/
structure Posted where
  fn : Nat
  relaxed : Bool
  granules : List (Nat × List Byte)
deriving DecidableEq, Repr

/-- An invalidation on its way to a cluster, or its acknowledgement on the way back (R383). -/
structure Shootdown where
  src : CoreId
  cluster : Nat
  ctx : Nat
  /-- the address whose page is dropped; none drops every translation of the context -/
  va : Option Nat
  acked : Bool := false
deriving DecidableEq, Repr

/-- What happens next, when it is not the default (log 3): a core's turn, an event, time, or a choice that the device
makes unseen. -/
inductive Turn where
  | core (c : CoreId)
  | event (i : Instr)
  | pass (ns : Nat)
  | evictLine (c : CoreId) (line : Nat)
  | dropTlb (c : CoreId)
  | fetchAhead (c : CoreId) (va : Word)
  /-- the host or a peer changes a byte of its own memory -/
  | outside (addr : Nat) (b : Byte)
  /-- job i of core c makes one access: the next of its record, then 2 o is the read of byte o of its data and 2 w + 1 is write
  w (R257, R263, R291) -/
  | jobStep (c : CoreId) (i pick : Nat)
  /-- the read of byte o of the data of job i of core c takes what a read of the same line returned (R225) -/
  | jobMerge (c : CoreId) (i o : Nat)
  /-- the engine of core c makes one access of its oldest command: it reads the granule of byte o of the operands, or makes
  the next write (R257) -/
  | commandAccess (c : CoreId) (o : Nat)
  /-- the image that core c reads next is read piece by piece in the order given (R207, R257) -/
  | imageOrder (c : CoreId) (l : List Nat)
  /-- the store at place i of the endpoint's transmit order reaches host memory (R262) -/
  | hostStore (i : Nat)
  /-- the host sends a posted write through the BAR4 of function fn; granule j of pending write i is performed (R261) -/
  | hostPost (fn off : Nat) (data : List Byte) (relaxed : Bool)
  | hostGranule (i j : Nat)
  /-- the management complex binds an agency to the physical function, or none (R395) -/
  | bindAgency (a : Option Nat)
  /-- the host reads n bytes at an offset of BAR2 (R447) -/
  | readBar2 (off n : Nat)
  /-- the host reads n bytes of BAR0 (R446) -/
  | readBar0 (n : Nat)
  /-- the fabric gives the package its number and the peers that it reaches (R452) -/
  | joinDomain (fabid : BitVec 6) (peers : BitVec 64)
  /-- iteration j after the current one of core c issues its next instruction (R21) -/
  | younger (c : CoreId) (j : Nat)
  /-- the leader c of a gang issues its next word while members still have earlier ones to issue (R44) -/
  | lead (c : CoreId)
  /-- management core c takes its turn (R16, R376) -/
  | manage (c : CoreId)
deriving DecidableEq, Repr

/-- The whole machine. -/
structure State where
  /-- the core in focus, and its record -/
  cur : CoreId := 0
  core : Core := {}
  others : Tab Core := []
  clusters : Tab Cluster := []
  mem : List Host.Cell := []
  /-- poisoned granules, by key div 8 (R441) -/
  poisoned : List Nat := []
  /-- the slice of each of them that is one of a slice's copy of its line, not of HBM (R441) -/
  sliceBad : Tab Nat := []
  /-- uncorrectable errors found by an access and not yet taken: context, code, unit (R441) -/
  charges : List (Nat × Cause × Nat) := []
  flight : List Req := []
  answers : List Answer := []
  rows : List CarryRow := []
  shootdowns : List Shootdown := []
  /-- stores of the device in the host endpoint's transmit order, first one first (R262) -/
  hostq : List Req := []
  /-- posted writes of the host that are still to be performed, oldest first (R261) -/
  posted : List Posted := []
  queues : Tab Queue := []
  cards : Tab Card := []
  nextCard : Nat := 1
  /-- deficit round-robin: deficits by 4096 level + agency, the agency whose turn it is by level, weights (R303) -/
  deficits : Tab Int := []
  turns : Tab Nat := []
  weights : Tab Nat := []
  waiters : Tab WaitRec := []
  forecast : Word := 0x0008000000000000#64
  contexts : Tab Context := []
  /-- save records: by 2 n for the latest stop of context n, by 2 n + 1 for its open interval -/
  saves : Tab Save := []
  logs : List LogEntry := []
  /-- stacks of whose log region the management complex was notified: seven-eighths full (R437) -/
  logNotice : BitVec 8 := 0#8
  /-- reckoning counters by 16 agency + index, and their latest fold (R388, R389) -/
  counters : Tab Nat := []
  folded : Tab Nat := []
  folds : Nat := 0
  foldTime : Nat := 0
  /-- the agency bound to the physical function (R395) -/
  boundAgency : Option Nat := none
  mr : Tab (BitVec 384) := []
  keys : Tab AgencyKey := []
  bootst : Word := 0#64
  acc : BitVec 256 := 0#256
  accepted : Bool := false
  clmap : BitVec 160 := BitVec.allOnes 160
  stmap : BitVec 8 := BitVec.allOnes 8
  lkmap : BitVec 12 := BitVec.allOnes 12
  /-- links that have failed since power-on (R422) -/
  linksDown : BitVec 12 := 0#12
  fabid : BitVec 6 := 0#6
  /-- the host link has failed (R375, R422) -/
  hostDown : Bool := false
  /-- peers that an enabled link reaches (R452) -/
  peers : BitVec 64 := 0#64
  capw : Nat := 1650
  mhz : Nat := 2400
  cmd : List Word := List.replicate 8 0#64
  rsp : List Word := List.replicate 8 0#64
  /-- the mailbox command that runs, with its context: its response is still to come (R448) -/
  command : Option (Nat × Nat) := none
  grants : Tab (Nat × Nat) := []
  microcode : Tab Word32 := []
  dispatch : Tab Word := []
  /-- the translator image installed (R392, R402) -/
  translator : List Byte := []
  wmin : Nat := 12
  wmax : Nat := 16
  build : Nat := 0
  svn : Nat := 0
  update : Option Update := none
  corrected : Nat := 0
  /-- the package time base in ns, and the part of a cycle that has passed (R362, R403) -/
  time : Nat := 0
  cycleRem : Nat := 0
  hostOut : List Byte := []
  agenda : List Turn := []
  fresh : Nat := 0
deriving DecidableEq, Repr

/-- The machine right after reset: nothing is loaded, no context is resident, every core is idle (R454). The values that
no rule gives are those of log 6. -/
def State.reset : State := {}

end Sys2Proof.Machine
end

