-- ==== Sys2Proof/Machine/Tab.lean ====
section
/-! DEFINITION. Tables by key, memory as a canonical list of cells, and bit-field helpers. -/

namespace Sys2Proof.Machine

/-- The value at key k, if a row lists it. -/
def tfind {α : Type} (k : Nat) : Tab α → Option α
  | [] => none
  | (j, v) :: t => if j = k then some v else tfind k t

/-- The value at key k, or the default. -/
def tget {α : Type} (k : Nat) (t : Tab α) (dflt : α) : α := (tfind k t).getD dflt

def terase {α : Type} (k : Nat) (t : Tab α) : Tab α := t.filter fun r => r.1 ≠ k

def tset {α : Type} (k : Nat) (v : α) (t : Tab α) : Tab α := (k, v) :: terase k t

/-! ## Memory: cells in strictly rising order, none equal to what an unlisted address reads as -/

/-- What an address that no cell lists reads as (log 2). -/
def unlisted : Byte := 0#8

def memByte : List Host.Cell → Nat → Byte
  | [], _ => unlisted
  | (k, v) :: m, a => if k = a then v else memByte m a

/-- Insert or replace the cell at a, keeping the order. -/
def memInsert (a : Nat) (b : Byte) : List Host.Cell → List Host.Cell
  | [] => [(a, b)]
  | (k, v) :: m => if a < k then (a, b) :: (k, v) :: m else if a = k then (a, b) :: m else (k, v) :: memInsert a b m

/-- Write one byte; writing what an unlisted address reads as removes the cell. -/
def memSet (a : Nat) (b : Byte) (m : List Host.Cell) : List Host.Cell :=
  if b = unlisted then m.filter fun c => c.1 ≠ a else memInsert a b m

/-- The canonical form: addresses strictly rising, no cell equal to the unlisted value. -/
def Memory.wf (m : List Host.Cell) : Bool :=
  match m with
  | [] => true
  | (k, v) :: t => decide (v ≠ unlisted) && t.all (fun c => decide (k < c.1)) && Memory.wf t

/-- n bytes from a, the first in the low bits (little-endian, R113, R221). -/
def memRead (m : List Host.Cell) (a : Nat) : Nat → Nat
  | 0 => 0
  | n + 1 => (memByte m a).toNat + 256 * memRead m (a + 1) n

def memWrite (m : List Host.Cell) (a : Nat) (v : Nat) : Nat → List Host.Cell
  | 0 => m
  | n + 1 => memWrite (memSet a (BitVec.ofNat 8 v) m) (a + 1) (v / 256) n

/-- Write a list of bytes from a upward. -/
def memWriteBytes (m : List Host.Cell) (a : Nat) : List Byte → List Host.Cell
  | [] => m
  | b :: bs => memWriteBytes (memSet a b m) (a + 1) bs

def memReadBytes (m : List Host.Cell) (a : Nat) (n : Nat) : List Byte := (List.range n).map fun i => memByte m (a + i)

/-- The bytes of a little-endian number. -/
def natBytes (v : Nat) (n : Nat) : List Byte := (List.range n).map fun i => BitVec.ofNat 8 (v / 256 ^ i)

/-- The little-endian number of some bytes. -/
def bytesNat : List Byte → Nat
  | [] => 0
  | b :: bs => b.toNat + 256 * bytesNat bs

/-- The key of a scratchpad byte: the scratchpads lie above the 52-bit physical space (R11, R217). -/
def scratchKey (owner off : Nat) : Nat := 2 ^ 52 + owner * 2 ^ 19 + off

/-! ## Bit fields -/

/-- Bits lo + len - 1 to lo of a number. -/
def field (v lo len : Nat) : Nat := v / 2 ^ lo % 2 ^ len

/-- Bits lo + len - 1 to lo of a word, as a number. -/
def wfield (w : Word) (lo len : Nat) : Nat := field w.toNat lo len

/-- One bit of a word. -/
def wbit (w : Word) (i : Nat) : Bool := w.getLsbD i

/-- A word with bits lo + len - 1 to lo replaced by the low bits of v. -/
def wput (w : Word) (lo len v : Nat) : Word :=
  let m : Word := BitVec.ofNat 64 ((2 ^ len - 1) * 2 ^ lo)
  (w &&& ~~~m) ||| (BitVec.ofNat 64 (v % 2 ^ len * 2 ^ lo))

/-- The low n bits of x, sign-extended to 64 (R62). -/
def sextTo (x : Nat) (n : Nat) : Word := (BitVec.ofNat n x).signExtend 64

/-- The low n bits of x as a signed integer. -/
def sint (x : Nat) (n : Nat) : Int := (BitVec.ofNat n x).toInt

def bool64 (b : Bool) : Word := if b then 1#64 else 0#64

/-- Number of one bits below n. -/
def popCount (v : Nat) : Nat → Nat
  | 0 => 0
  | n + 1 => popCount v n + if v.testBit n then 1 else 0

end Sys2Proof.Machine
end

