-- ==== Sys2Proof/Machine/Fut.lean ====
section
/-! DEFINITION. The reckoning counters; the write log of a checkpoint interval; entries of a future table and their lists of
waiters (R304, R308, R388, R437; log 10). -/

namespace Sys2Proof.Machine

/-! ## Reckoning (R388) -/

def State.count (s : State) (agency idx n : Nat) : State :=
  { s with counters := tset (16 * agency + idx) ((tget (16 * agency + idx) s.counters 0 + n) % 2 ^ 64) s.counters }

def State.countCtx (s : State) (ctx idx n : Nat) : State :=
  match tfind ctx s.contexts with
  | some x => s.count x.desc.agency idx n
  | none => s

/-- Whether lines are read from HBM or written back on an access at a slice depends on what the slice holds, which no
instruction shows: the counts take free values. -/
def State.countHbm (s : State) (ctx : Nat) : State :=
  let n := s.fresh
  ((({ s with fresh := n + 1 } : State).countCtx ctx 2 (if Config.fills n then 128 else 0)).countCtx ctx 3
    (if Config.spills n then 128 else 0))

/-- What is counted of a write or read that the device makes for a context at a physical address: a host line whole. -/
def State.countAt (s : State) (ctx pa : Nat) : State := if pa < 2 ^ 51 then s.countHbm ctx else s.countCtx ctx 4 128

/-! ## The write log (R437) -/

/-- The 128 bytes of a line. -/
def State.lineBits (s : State) (line : Nat) : BitVec 1024 := BitVec.ofNat 1024 (memRead s.mem (128 * line) 128)

/-- How many entries the log region of a stack holds. -/
def State.logFill (s : State) (stack : Nat) : Nat := s.logs.countP fun e => e.line * 128 / 0xC00000000 = stack

/-- The log region of a stack is seven-eighths full. -/
def State.logAlmostFull (s : State) (stack : Nat) : Bool := decide (7 * Config.logCapacity stack ≤ 8 * s.logFill stack)

/-- The management complex is notified of each region that is seven-eighths full; a notice ends with the fill. -/
def State.noticeLogs (s : State) : State :=
  { s with
    logNotice := (List.range 8).foldl (fun m i => if s.logAlmostFull i then m ||| (1#8 <<< i) else m) 0#8 }

/-- The log entries of context n are discarded. -/
def State.dropLogs (s : State) (n : Nat) : State := { s with logs := s.logs.filter fun e => e.ctx ≠ n }.noticeLogs

/-- The base die logs a line's old contents at its first write in the interval (R437). -/
def State.logWrite (s : State) (n key : Nat) : State :=
  match tfind n s.contexts with
  | none => s
  | some x =>
    if x.interval = 0 ∨ 0x6000000000 ≤ key then s
    else if s.logs.any fun e => e.line = key / 128 && e.ctx = n && e.interval = x.interval then s
    else
      ({ s with
        logs :=
          s.logs ++ [{ line := key / 128, ctx := n, interval := x.interval, data := s.lineBits (key / 128) }] } : State).noticeLogs

/-! ## Entries and waiters -/

/-- An entry: VALUE, STATE (0 free, 1 empty, 2 full, 3 poisoned), GEN, NWAIT, WHEAD, WTAIL. -/
structure FutEntry where
  value : Nat
  st : Nat
  gen : Nat
  nwait : Nat
  whead : Nat
  wtail : Nat
deriving DecidableEq, Repr

def futEntryAt (m : List Host.Cell) (a : Nat) : FutEntry :=
  { value := memRead m a 8
    st := memRead m (a + 8) 1 % 4
    gen := memRead m (a + 10) 2 % 4096
    nwait := memRead m (a + 12) 4
    whead := memRead m (a + 16) 4
    wtail := memRead m (a + 20) 4 }

def FutEntry.bytes (e : FutEntry) : List Byte :=
  natBytes e.value 8 ++ natBytes e.st 1 ++ natBytes 0 1 ++ natBytes e.gen 2 ++ natBytes e.nwait 4 ++ natBytes e.whead 4 ++
    natBytes e.wtail 4 ++ natBytes 0 8

/-- Where entry i of the table of context n lies. -/
def State.futAddr (s : State) (n i : Nat) : Nat :=
  match tfind n s.contexts with
  | some x => x.desc.futbase + 32 * i
  | none => 32 * i

def State.fut (s : State) (n i : Nat) : FutEntry := futEntryAt s.mem (s.futAddr n i)

/-- The device writes bytes; a granule written whole is no longer poisoned (R441). -/
def State.putBytes (s : State) (key : Nat) (b : List Byte) : State :=
  { s with
    mem := memWriteBytes s.mem key b
    poisoned := s.poisoned.filter fun g => !(decide (key ≤ 8 * g) && decide (8 * g + 8 ≤ key + b.length)) }

/-- An entry is written, as a write of the context, for which it counts (R388). -/
def State.setFut (s : State) (n i : Nat) (e : FutEntry) : State :=
  ((s.logWrite n (s.futAddr n i)).putBytes (s.futAddr n i) e.bytes).countAt n (s.futAddr n i)

/-- The records of a list that starts at r, at most n of them. -/
def State.waitList (s : State) : Nat → Nat → List Nat
  | 0, _ => []
  | n + 1, r =>
    match tfind r s.waiters with
    | some w => r :: s.waitList n w.next
    | none => []

/-- The lowest record number that is free; none when all 65,536 are taken (log 10). -/
def State.freeWaiter (s : State) : Option Nat :=
  if 65536 ≤ s.waiters.length then none
  else ((List.range (s.waiters.length + 1)).map (· + 1)).find? fun n => (tfind n s.waiters).isNone

/-- A waiter joins the tail of the list of future i (R308). -/
def State.addWaiter (s : State) (ctx i n : Nat) (who : Waiter) : State :=
  let e := s.fut ctx i
  let ws := tset n { who := who, fut := i } s.waiters
  let ws :=
    match (if e.nwait = 0 then none else tfind e.wtail ws) with
    | some w => tset e.wtail { w with next := n } ws
    | none => ws
  ({ s with waiters := ws } : State).setFut ctx i
    { e with nwait := e.nwait + 1, whead := if e.nwait = 0 then n else e.whead, wtail := n }

/-- Rebuild the list of future i with the records given. -/
def State.relink (s : State) (ctx i : Nat) (l : List Nat) : State :=
  let next (r : Nat) : Nat := match l.dropWhile (· ≠ r) with | _ :: y :: _ => y | _ => 0
  let ws := s.waiters.map fun p => if l.contains p.1 then (p.1, { p.2 with next := next p.1 }) else p
  ({ s with waiters := ws } : State).setFut ctx i
    { s.fut ctx i with nwait := l.length, whead := l.headD 0, wtail := l.getLastD 0 }

/-- A waiter leaves the list of future i, and its record is free. -/
def State.unwait (s : State) (ctx i n : Nat) : State :=
  let l := s.waitList (s.fut ctx i).nwait (s.fut ctx i).whead
  let s := s.relink ctx i (l.filter (· ≠ n))
  { s with waiters := terase n s.waiters }

end Sys2Proof.Machine
end

