-- ==== Sys2Proof/Machine/Ops.lean ====
section
/-! DEFINITION. The named operations over cores, names, loops, traps and notification records. -/

namespace Sys2Proof.Machine

abbrev Out := Host.Outcome State Fault Refusal

/-- A next state goes on through f. -/
def onNext (f : State → State) : Out → Out
  | .next t => .next (f t)
  | o => o

/-! ## Cores and focus -/

/-- The record of core c. -/
def State.getCore (s : State) (c : CoreId) : Core := if c = s.cur then s.core else tget c s.others {}

def State.setCore (s : State) (c : CoreId) (k : Core) : State :=
  if c = s.cur then { s with core := k } else { s with others := tset c k s.others }

/-- The core in focus, changed by f. -/
def State.upd (s : State) (f : Core → Core) : State := { s with core := f s.core }

/-- Core c comes into focus. -/
def State.focus (s : State) (c : CoreId) : State :=
  if c = s.cur then s
  else { s with cur := c, core := tget c s.others {}, others := tset s.cur s.core (terase c s.others) }

def State.mapCore (s : State) (c : CoreId) (f : Core → Core) : State := s.setCore c (f (s.getCore c))

def clusterOf (c : CoreId) : Nat := c / 16
def stationOf (c : CoreId) : Nat := c % 16

def State.cluster (s : State) (n : Nat) : Cluster := tget n s.clusters {}
def State.setCluster (s : State) (n : Nat) (k : Cluster) : State := { s with clusters := tset n k s.clusters }
def State.mapCluster (s : State) (n : Nat) (f : Cluster → Cluster) : State := s.setCluster n (f (s.cluster n))

/-- The core is debug-stopped (R414). -/
def Core.debugStopped (k : Core) : Bool := wbit k.dstat 63

/-- The core has an instruction stream to run: it holds a work unit and is at no stop. -/
def Core.runs (k : Core) : Bool :=
  k.unit.isSome && decide (k.rest = .none) && (!k.debugStopped || k.stepping.isSome)

/-- The smallest number above c among some, or the smallest of all. -/
def nextAfter (c : Nat) (l : List Nat) : Option Nat :=
  match (l.filter fun x => c < x).min? with
  | some x => some x
  | none => l.min?

/-- The turn goes to the next core that runs, in cyclic order of COREID (log 3). -/
def State.rotate (s : State) : State :=
  match nextAfter s.cur ((s.others.filter fun r => r.2.runs).map fun r => r.1) with
  | some c => s.focus c
  | none => s

/-- The instruction in issue cannot go on yet; it has had no effect, and other agents move. -/
def State.stall (s : State) : Out := .next s.rotate

/-- GANG and SKID of DINFO for core c (R414). -/
def Core.skidBits (k : Core) (c : CoreId) : Word :=
  match k.gang with
  | some g => BitVec.ofNat 64 (0x100000 + (c - g.leader) * 2 ^ 16)
  | none => 0#64

/-- Debug stop of core c with a REASON, at a PC (R414). -/
def Core.stopAt (k : Core) (c : CoreId) (reason : Nat) (pc : Word) : Core :=
  { k with
    dstat := 0x8000000000000000#64 ||| BitVec.ofNat 64 (reason * 2 ^ 60) ||| (pc &&& 0x0FFFFFFFFFFFFFFC#64)
    dinfo := (if wbit k.dinfo 3 then k.dinfo &&& ~~~0x1F0000#64 else 0#64) ||| k.skidBits c
    stepping := none }

/-! ## Contexts -/

def State.ctxOf (s : State) (c : CoreId) : Option Context := (s.getCore c).context.bind fun n => tfind n s.contexts
def State.curCtx (s : State) : Option Context := s.core.context.bind fun n => tfind n s.contexts
/-- KEYS of the context of the core in focus (R375, R384). -/
def State.keysNow (s : State) : BitVec 256 := match s.curCtx with | some x => x.desc.keys | none => 0#256
def State.mapCtx (s : State) (n : Nat) (f : Context → Context) : State :=
  match tfind n s.contexts with
  | some x => { s with contexts := tset n (f x) s.contexts }
  | none => s

/-- The context runs: no stop time that it has has come (R430). -/
def Context.live (x : Context) (time : Nat) : Bool :=
  match x.state with
  | .running => true
  | .stopping t => decide (time < t)
  | _ => false

/-- The context runs, and no uncorrectable error is charged to it (R441). -/
def State.live (s : State) (n : Nat) : Bool :=
  match tfind n s.contexts with
  | some x => x.live s.time && !s.charges.any fun e => decide (e.1 = n)
  | none => false

/-- The engines of core c may begin something new: its context runs (R431). -/
def State.engineLive (s : State) (c : CoreId) : Bool :=
  match (s.getCore c).context with
  | some n => s.live n
  | none => false

/-- Cluster n is in the partition of a descriptor and is enabled (R20, R374). -/
def State.inPart (s : State) (d : Desc) (n : Nat) : Bool := decide (n < 160) && d.part.getLsbD n && s.clmap.getLsbD n

/-- Core c is an enabled core of context n. -/
def State.coreOf (s : State) (n : Nat) (c : CoreId) : Bool :=
  match tfind n s.contexts with
  | some x => s.inPart x.desc (clusterOf c)
  | none => false

/-- Core c is an enabled core of the context of the core in focus (R216, R363, R365, R416). -/
def State.isPeer (s : State) (c : CoreId) : Bool :=
  match s.core.context with
  | some n => s.coreOf n c
  | none => false

/-- The enabled cores of a context, in COREID order. -/
def State.coresOf (s : State) (n : Nat) : List CoreId := (List.range 2560).filter fun c => s.coreOf n c

/-! ## STATUS (R404) -/

def Core.system (k : Core) : Bool := wbit k.status 0
def Core.nest (k : Core) : Bool := wbit k.status 4
def Core.rm (k : Core) : Nat := wfield k.status 2 2

/-! ## Loops (R30 to R43) -/

/-- The innermost loop record, unless a handler or loader routine that runs inside it has suspended it (R43, R211). -/
def Core.liveLoop (k : Core) : Option LoopRec :=
  match k.loops with
  | [] => none
  | r :: _ =>
    match k.suspended with
    | n :: _ => if k.loops.length ≤ n then none else some r
    | [] => some r

/-- Inside a loop with W > 1 whose rules apply. -/
def Core.overlapped (k : Core) : Bool :=
  match k.liveLoop with
  | some r => decide (1 < r.window)
  | none => false

def Core.carriesS (k : Core) (r : Reg) : Bool := k.loops.any fun l => l.carry.scalars.getLsbD r.toNat
def Core.carriesV (k : Core) (r : Reg) : Bool := k.loops.any fun l => l.carry.vectors.getLsbD r.toNat

/-- The registers that the fields of a deferred word may name, whatever its format (R56, R80). -/
def fieldRegs (w : Word32) : List Nat := [21, 18, 16, 13, 11, 10, 9, 7, 4].map fun lo => field w.toNat lo 5

/-- The names that stand for the eight hidden temporaries in the routine of a deferred word: eight that no field of the word
names (R83, log 13). -/
def hiddenNames (w : Word32) : List Nat :=
  (((List.range 32).reverse.filter fun i => decide (i ≠ 0) && !(fieldRegs w).contains i)).take 8

/-- A hidden temporary of the deferred instruction in progress (R83). -/
def Core.hidden (k : Core) (r : Reg) : Bool :=
  match k.routine with
  | some x => (hiddenNames x.word).contains r.toNat
  | none => false

/-- The write of a scalar name that R34 allows; s0 ignores writes (R24). -/
def Core.mayWriteS (k : Core) (r : Reg) : Bool :=
  r == 0#5 || k.hidden r ||
    match k.liveLoop with
    | some l => decide (l.window ≤ 1) || l.carry.scalars.getLsbD r.toNat
    | none => true

def Core.mayWriteV (k : Core) (r : Reg) : Bool :=
  match k.liveLoop with
  | some l => decide (l.window ≤ 1) || l.carry.vectors.getLsbD r.toNat
  | none => true

/-! ## Versions (R24 to R29, R33, R35, R39, R40) -/

def Ver.one {α : Type} (x : α) : Ver α := { hist := [{ val := x }] }

def Ver.depth {α : Type} (v : Ver α) : Nat := v.hist.length

/-- The newest version. -/
def Ver.newest {α : Type} (dflt : α) (v : Ver α) : Slot α := v.hist.headD { val := dflt }

/-- The version a read at distance d takes (R26, R39): while the current iteration of a carried name has not written it,
the newest version is that of the iteration before. -/
def Ver.read {α : Type} (dflt : α) (live : Bool) (v : Ver α) (d : Nat) : Slot α :=
  v.hist.getD (if live && !v.wrote && decide (1 ≤ d) then d - 1 else d) { val := dflt }

/-- A write (R26, R29, R39): a carried name gets its iteration's version; otherwise every version takes the value. -/
def Ver.write {α : Type} (live : Bool) (x : Slot α) (v : Ver α) : Ver α :=
  if live then
    if v.wrote then { v with hist := x :: v.hist.tail }
    else { v with hist := x :: v.hist.dropLast, wrote := true, dropped := v.hist.getLast? }
  else { v with hist := v.hist.map fun _ => x }

/-- The value that a pending load brings: the empty versions become full (R27). -/
def Ver.fill {α : Type} (x : α) (v : Ver α) : Ver α :=
  { v with hist := v.hist.map fun t => if t.full then t else { val := x } }

/-- Retirement: the pass-through fill of a name that the iteration did not write (R35). -/
def Ver.retire {α : Type} (dflt : α) (v : Ver α) : Ver α :=
  if v.wrote then { v with wrote := false, dropped := none }
  else { v with hist := v.newest dflt :: v.hist.dropLast, dropped := none }

/-- Cancellation: the slot the iteration wrote returns to the version it held (R29). -/
def Ver.cancel {α : Type} (v : Ver α) : Ver α :=
  if v.wrote then
    { v with
      hist := v.hist.tail ++ (match v.dropped with | some t => [{ t with full := true }] | none => [])
      wrote := false
      dropped := none }
  else v

/-- Loop entry: every slot takes the current value (R33). -/
def Ver.enter {α : Type} (dflt : α) (depth : Nat) (v : Ver α) : Ver α :=
  { hist := List.replicate depth { val := (v.newest dflt).val } }

def Core.sver (k : Core) (r : Reg) : Ver Word := tget r.toNat k.sregs (Ver.one 0#64)
def Core.vver (k : Core) (r : Reg) : Ver Vec := tget r.toNat k.vregs (Ver.one 0#512)
def Core.setSver (k : Core) (r : Reg) (v : Ver Word) : Core := { k with sregs := tset r.toNat v k.sregs }
def Core.setVver (k : Core) (r : Reg) (v : Ver Vec) : Core := { k with vregs := tset r.toNat v k.vregs }

/-- The distance lies within the name's depth (R26); s0 is never carried. -/
def Core.distS (k : Core) (r : Reg) (d : Nat) : Bool := if r = 0#5 then d == 0 else decide (d < (k.sver r).depth)
def Core.distV (k : Core) (r : Reg) (d : Nat) : Bool := decide (d < (k.vver r).depth)

/-- The slot of a scalar source; s0 reads zero (R24). -/
def Core.srcS (k : Core) (r : Reg) (d : Nat) : Slot Word :=
  if r = 0#5 then { val := 0#64 } else (k.sver r).read 0#64 (k.carriesS r) d

def Core.srcV (k : Core) (r : Reg) (d : Nat) : Slot Vec := (k.vver r).read 0#512 (k.carriesV r) d

/-- The current value of a scalar name. -/
def Core.sval (k : Core) (r : Reg) : Word := (k.srcS r 0).val
def Core.vval (k : Core) (r : Reg) : Vec := (k.srcV r 0).val

/-- d ← x for a scalar name; a write to s0 is discarded (R62). -/
def Core.writeS (k : Core) (r : Reg) (x : Word) : Core :=
  if r = 0#5 then k else k.setSver r ((k.sver r).write (k.carriesS r) { val := x })

def Core.writeV (k : Core) (r : Reg) (x : Vec) : Core := k.setVver r ((k.vver r).write (k.carriesV r) { val := x })

/-- The destination of a load or engine command whose answer is still to come becomes empty (R27, R58). -/
def Core.emptyS (k : Core) (r : Reg) : Core :=
  if r = 0#5 then k else k.setSver r ((k.sver r).write (k.carriesS r) { val := 0#64, full := false })

def Core.emptyV (k : Core) (r : Reg) : Core :=
  k.setVver r ((k.vver r).write (k.carriesV r) { val := 0#512, full := false })

/-- A value that was on its way when a deferred instruction began also reaches the names as they were then (R84). -/
def Routine.fillS (t : Routine) (r : Reg) (x : Word) : Routine :=
  { t with sregs := tset r.toNat ((tget r.toNat t.sregs (Ver.one 0#64)).fill x) t.sregs }
def Routine.fillV (t : Routine) (r : Reg) (x : Vec) : Routine :=
  { t with vregs := tset r.toNat ((tget r.toNat t.vregs (Ver.one 0#512)).fill x) t.vregs }

/-- The value of a load of the core's own instruction, or of a word of its routine. -/
def Core.fillOwnS (k : Core) (r : Reg) (x : Word) : Core := if r = 0#5 then k else k.setSver r ((k.sver r).fill x)
def Core.fillOwnV (k : Core) (r : Reg) (x : Vec) : Core := k.setVver r ((k.vver r).fill x)

/-- A value from before the deferred instruction in progress, if there is one; a name that stands for a hidden temporary takes
it only as the name that it was (R84). -/
def Core.fillS (k : Core) (r : Reg) (x : Word) : Core :=
  if r = 0#5 then k
  else { (if k.hidden r then k else k.fillOwnS r x) with routine := k.routine.map fun t => t.fillS r x }
def Core.fillV (k : Core) (r : Reg) (x : Vec) : Core :=
  { k.fillOwnV r x with routine := k.routine.map fun t => t.fillV r x }

/-- No version that a write of the name replaces is empty: of a carried name it is the current iteration's own (R62). -/
def Ver.settled {α : Type} (live : Bool) (v : Ver α) : Bool :=
  if live then !v.wrote || v.hist.head?.all fun t => t.full else v.hist.all fun t => t.full

def Core.fullS (k : Core) (r : Reg) : Bool := r == 0#5 || (k.sver r).settled (k.carriesS r)
def Core.fullV (k : Core) (r : Reg) : Bool := (k.vver r).settled (k.carriesV r)

/-- A mask; k0 reads all ones (R57). -/
def Core.mask (k : Core) (r : KReg) : Word := if r = 0#3 then BitVec.allOnes 64 else tget r.toNat k.masks 0#64

/-- A write to k0 is discarded (R168, R180). -/
def Core.setMask (k : Core) (r : KReg) (x : Word) : Core :=
  if r = 0#3 then k else { k with masks := tset r.toNat x k.masks }

/-- FFLAGS bits of an instruction; inside a loop with W > 1 they wait for the retirement (R117, R163). -/
def Core.addFlags (k : Core) (f : Word) : Core :=
  if k.overlapped then { k with pendingFlags := k.pendingFlags ||| f } else { k with fflags := k.fflags ||| f }

/-! ## Gangs (R44 to R47) -/

/-- The members of a gang, leader first. -/
def Gang.members (g : Gang) : List CoreId := (List.range g.width).map fun j => g.leader + j

/-- The cores that trap together with the core in focus. -/
def State.trapping (s : State) : List CoreId := match s.core.gang with | some g => g.members | none => [s.cur]

/-- An unsatisfied wait of the spec (R352, R431): as a stall, and a stepped core stops in it with REASON 4 (R417), a gang once
every member waits, so that a wait which the last member ends is none (R444). A split member that a step has stopped in its FUSE
or JEND still counts as waiting there for the others, which may end its wait while it is debug-stopped; a cluster stop gives
the wait up (DESIGN CHOICE, log 78: R110 and R417 do not say). -/
def State.waits (s : State) : Out :=
  let t : State := { s with core := { s.core with inWait := true, arriving := false } }
  if s.core.stepping.isSome && s.trapping.all fun c => (t.getCore c).inWait || (t.getCore c).ahead then
    .next
      (s.trapping.foldl
        (fun t c => t.mapCore c fun k => if k.stepping.isSome && k.inWait then k.stopAt c 4 k.pc else k) t).rotate
  else t.stall

/-- The member's index, station less leader station (R44). -/
def State.gangIndex (s : State) : Nat :=
  match s.core.gang with
  | some g => s.cur - g.leader
  | none => 0

/-- The core in focus follows a leader other than itself; a deferred instruction runs on each member's own operands (R84). -/
def State.follows (s : State) : Bool :=
  match s.core.gang with
  | some g => s.cur != g.leader && s.core.routine.isNone
  | none => false

/-- The entry of the forwarding path that the core in focus issues next: of the words that it is behind, the first; else the
word that the leader has in issue (R44, R428). -/
def State.pathEntry (s : State) (g : Gang) : Option PathEntry :=
  let k := s.getCore g.leader
  if s.core.lag = 0 then k.path else k.trail[k.trail.length - s.core.lag]?

/-- The outcome the leader put on the forwarding path for the word in issue (R45). -/
def State.pathOutcome (s : State) : Option Word :=
  match s.core.gang with
  | some g => (s.pathEntry g).bind fun p => p.outcome
  | none => none

/-- No member of the gang has an earlier word to issue than the leader. -/
def State.caughtUp (s : State) : Bool :=
  match s.core.gang with
  | some g => g.members.all fun c => decide ((s.getCore c).lag = 0)
  | none => true

/-- The leader puts an outcome on the path. -/
def State.putOutcome (s : State) (x : Word) : State :=
  match (if s.core.routine.isSome then none else s.core.gang) with
  | some g => s.mapCore g.leader fun k => { k with path := k.path.map fun p => { p with outcome := some x } }
  | none => s

/-- The path moves on when every member has issued its word (R44). -/
def State.pathDone (s : State) (g : Gang) : State :=
  if g.members.all fun c => (s.getCore c).ahead then
    g.members.foldl (fun t c => t.mapCore c fun k => { k with ahead := false, path := none }) s
  else s

/-- Words that no member has still to issue leave the path. -/
def State.trimTrail (s : State) (g : Gang) : State :=
  let most := (g.members.map fun c => (s.getCore c).lag).foldl max 0
  s.mapCore g.leader fun k => { k with trail := k.trail.drop (k.trail.length - most) }

/-- The leader goes on to its next word, which the members that have not issued the last are one word further behind (R44). -/
def State.leave (s : State) (g : Gang) : State :=
  match (s.getCore g.leader).path with
  | none => s
  | some p =>
    (g.members.foldl
      (fun t c => t.mapCore c fun k => { k with ahead := false, lag := if k.ahead then k.lag else k.lag + 1 })
      s).mapCore g.leader fun k => { k with path := none, trail := k.trail ++ [p] }

/-- A member has issued the leader's word (R44). -/
def State.issued (s : State) : State :=
  match s.core.gang with
  | none => s
  | some g =>
    if s.core.lag = 0 then ({ s with core := { s.core with ahead := true } } : State).pathDone g
    else ({ s with core := { s.core with lag := s.core.lag - 1 } } : State).trimTrail g

/-! ## Notification records (R297, R386) -/

/-- One record: KIND, QUEUE, CAUSE, DETAIL, 16 bytes little-endian. -/
def noteBytes (kind queue cause detail : Nat) : List Byte :=
  natBytes kind 2 ++ natBytes queue 2 ++ natBytes cause 4 ++ natBytes detail 8

/-- Post a record to the notification queue of context n, or raise its LOST count (R386); the bytes count for the context's
agency (R388). A record that a failed host link cannot carry is lost (R375). -/
def State.notify (s : State) (n kind queue cause detail : Nat) : State :=
  match tfind n s.contexts with
  | none => s
  | some x =>
    let b := x.desc.nqbase
    if s.hostDown ∧ 2 ^ 51 ≤ b then s
    else
      let s := s.countAt n b
      let tail := memRead s.mem b 8
      let head := memRead s.mem (b + 8) 8
      let size := 2 ^ x.desc.nqlog
      if (tail + 2 ^ 64 - head) % 2 ^ 64 = size then
        s.putBytes (b + 16) (natBytes (min (memRead s.mem (b + 16) 8 + 1) (2 ^ 64 - 1)) 8)
      else
        ((s.countAt n b).putBytes (b + 0x80 + 16 * (tail % size)) (noteBytes kind queue cause detail)).putBytes b
          (natBytes ((tail + 1) % 2 ^ 64) 8)

/-! ## Asynchronous causes (R423) -/

/-- A new pending cause: it takes one of eight entries, or is counted as lost. -/
def Core.pendAsync (k : Core) (cause : Cause) (val : Word) : Core :=
  if k.asyncs.length < 8 then { k with asyncs := k.asyncs ++ [{ cause := cause, val := val }] }
  else { k with asyncLost := k.asyncLost + 1 }

/-- An entry has been freed: the lost count, if any, takes it as 0x3CC. -/
def Core.freeAsync (k : Core) : Core :=
  if 0 < k.asyncLost ∧ k.asyncs.length < 8 then
    { k with asyncs := k.asyncs ++ [{ cause := 0x3CC#10, val := BitVec.ofNat 64 k.asyncLost }], asyncLost := 0 }
  else k

/-- The core sleeps in FGET no longer: its waiter record is given up (R308). -/
def State.unsleep (s : State) (c : CoreId) : State :=
  let k := s.getCore c
  match k.sleeping, k.context with
  | some (idx, n), some ctx => (s.unwait ctx idx n).setCore c { k with sleeping := none }
  | _, _ => s

/-! ## Trap entry and return (R408, R425, R428) -/

/-- TRAPCAUSE of a trap: the cause with ASYNC, GANG and FMEM (R420). -/
def trapCauseWord (cause : Cause) (async : Bool) (gang : Option Nat) : Word :=
  cause.zeroExtend 64 ||| (if async then 0x400#64 else 0#64) |||
    (match gang with
     | some m => 0x800#64 ||| BitVec.ofNat 64 (m % 16 * 2 ^ 12)
     | none => 0#64)

/-- The journal entry of a class 10 cause becomes free (R425). -/
def Core.freeJournal (k : Core) (cause : Cause) : Core :=
  if 0x280 ≤ cause.toNat ∧ cause.toNat ≤ 0x2BF then
    { k with
      journal := terase ((cause.toNat - 0x280) % 32) k.journal
      journalAt := terase ((cause.toNat - 0x280) % 32) k.journalAt }
  else k

/-- The outcome that the instruction in issue waits for, or has found, is one that it has acted on. A failed one has had no
effect but its own. -/
def Core.holding (k : Core) : Bool :=
  match k.held with
  | some (.failed _ _) => false
  | some _ => true
  | none => false

/-- Stores of a vector store wait for journal entries, and every entry keeps a record: only a trap frees one (R255). -/
def Core.choked (k : Core) : Bool :=
  !k.outq.isEmpty && decide (32 ≤ k.journal.length) && k.journal.all fun r => decide (r.2.toNat / 2 ^ 30 ≠ 1)

/-- The instruction in issue is to trap with an outcome that has come (R255, R281). -/
def Core.failing (k : Core) : Bool :=
  match k.held with
  | some (.failed _ _) => true
  | _ => false

/-- The core is in the midst of an instruction that has begun to act, or of the end of an iteration. -/
def Core.midway (k : Core) : Bool :=
  k.holding || k.pendingWait || (!k.outq.isEmpty && !k.choked) || decide (k.chanStep ≠ 0) || k.futDone.isSome || k.ending.isSome ||
    k.ringWait.isSome || k.ringDone.isSome || k.slept || k.tlbinv.isSome || k.routine.isSome ||
    k.xmitSent || k.barpDone

/-- No other member of the gang is in the midst of an instruction: each has a next instruction to issue (R47). -/
def State.gangSettled (s : State) : Bool :=
  match s.core.gang with
  | none => true
  | some g => g.members.all fun c => c == s.cur || !(s.getCore c).midway

/-- IFENCE, LOOP entry and trap delivery discard the held words and every line of L1 from which instructions have been
fetched (R243). -/
def Core.discardWords (k : Core) : Core :=
  { k with fbuf := [], lbuf := [], l1d := k.l1d.filter fun r => (tfind r.1 k.l1i).isNone, l1i := [] }

/-- What the instruction in issue has begun is given up: it begins afresh when it issues again. The record of an STS that failed
goes with it (R255); younger iterations are cancelled (R43). -/
def Core.abandon (k : Core) : Core :=
  { (match k.held with | some (.failed c _) => k.freeJournal c | _ => k) with
    wpHit := none
    hitDue := false
    held := none
    walk := none
    walkFaults := []
    wb := none
    fencing := false
    inWait := false
    chanStep := 0
    rechecking := false
    sleepUntil := none
    imgOrder := []
    imgGot := []
    join := none
    barpAt := none
    arriving := false
    young := []
    xmitAt := [] }

/-- The innermost loop is suspended, with the state of its current iteration (R43, R211). -/
def Core.suspend (k : Core) : Core :=
  { k with
    suspended := k.loops.length :: k.suspended
    asideMarks := (k.committed, k.pendingFlags) :: k.asideMarks
    committed := false
    pendingFlags := 0#64 }

/-- The loop that the innermost handler or loader routine suspended goes on as it was (R43, R211). -/
def Core.unsuspend (k : Core) : Core :=
  { k with
    suspended := k.suspended.tail
    committed := (match k.asideMarks with | m :: _ => m.1 | [] => k.committed)
    pendingFlags := (match k.asideMarks with | m :: _ => m.2 | [] => k.pendingFlags)
    asideMarks := k.asideMarks.tail }

/-- A member that a gang's trap enters: the index of the one that trapped, the leader's words that are put aside, and how many
of them the member had still to issue (R428). -/
structure Stow where
  index : Nat
  words : List PathEntry
  behind : Nat
deriving DecidableEq, Repr

/-- Entry to the handler, when the trap is not a double trap (R425). The loop is suspended (R43), and the fetch buffers
and the instruction lines of L1 are discarded (R243). -/
def Core.enterHandler (k : Core) (cause : Cause) (async : Bool) (gang : Option Stow) (pc val : Word) : Core :=
  { k.abandon.suspend.discardWords with
    trapcause := trapCauseWord cause async (gang.map fun w => w.index)
    trappc := pc
    trapval := val
    status := (k.status &&& ~~~ 0x13#64) ||| (if k.system then 0x13#64 else 0x11#64)
    savedPath := match gang with | some w => (w.words, w.behind) :: k.savedPath | none => k.savedPath
    ahead := false
    path := none
    trail := []
    lag := 0
    stepping := none
    pc := k.trapvec }

/-- The cause of a double trap, if the entry is one (R425). -/
def Core.doubleTrap (k : Core) (async : Bool) : Option Cause :=
  if k.nest && !async then some 0x3CA#10
  else if k.trapvec = 0#64 then some 0x3CB#10
  else none

/-- A watchpoint match that another trap comes before stays pending (R413). -/
def Core.deferHit (k : Core) : Core :=
  match k.wpHit with
  | some h => { k.pendAsync h.1.cause h.1.val with wpHit := none, hitDue := false }
  | none => k

/-- Trap entry of one core: the handler, or the stop of a double trap at the instruction, of address at_, with its kind 7
record, which names the instruction that raised the trap (R424, R425). The journal entry that the trap reports becomes free as
its handler begins. A core that a step has stopped already shows the handler's address (R417). -/
def State.enterCore (s : State) (c : CoreId) (cause : Cause) (async : Bool) (gang : Option Stow)
    (pc at_ raised val : Word) : State :=
  let s := s.unsleep c
  let k := (s.getCore c).deferHit
  match k.doubleTrap async with
  | some d =>
    let s := s.setCore c { (k.abandon.stopAt c 5 at_) with pc := at_ }
    match k.context with
    | some n => s.notify n 7 c d.toNat raised.toNat
    | none => s
  | none =>
    let k := if c = s.cur then k.freeJournal cause else k
    let k' := k.enterHandler cause async gang pc val
    s.setCore c (if k.debugStopped then k'.stopAt c 3 k'.pc else k')

/-- What a trap of the gang puts aside for member c. A word that no member has issued is fetched again (R428). -/
def State.stow (s : State) (g : Gang) (c : CoreId) : Stow :=
  let k := s.getCore g.leader
  let last := if g.members.any fun m => (s.getCore m).ahead then k.path.toList else []
  { index := s.cur - g.leader
    words := k.trail ++ last
    behind := (s.getCore c).lag + if (s.getCore c).ahead then 0 else last.length }

/-- Trap entry of the core in focus, and of every member of its gang, each with its own stop PC (R425, R428). The trap is that
of the instruction at at_; alike says that every member counts that instruction as executed. -/
def State.enter (s : State) (cause : Cause) (async alike : Bool) (pc at_ val : Word) : State :=
  match s.core.gang with
  | none => s.enterCore s.cur cause async none pc at_ at_ val
  | some g =>
    g.members.foldl
      (fun t c =>
        let own := (t.getCore c).pc
        t.enterCore c cause async (some (s.stow g c)) (if c = s.cur then pc else own)
          (if c = s.cur || alike then at_ else own) at_ val) s

/-- The return of ERET in system mode (R408): PC and MODE come back, NEST is cleared, the suspended loop goes on. -/
def Core.eret (k : Core) : Core :=
  { k.unsuspend with
    pc := k.trappc
    status := (k.status &&& ~~~ 0x11#64) ||| (if wbit k.status 1 then 1#64 else 0#64) }

/-- How many of the words put aside a member that resumes at x has still to issue: as many as before, if the first of them is
the word at x; else those from the last word at x on (R428). -/
def stillBehind (words : List PathEntry) (behind : Nat) (x : Word) : Nat :=
  if behind = 0 ∨ (words[words.length - behind]?.map fun p => p.pc) = some x then behind
  else
    match words.reverse.findIdx? fun p => p.pc = x with
    | some i => i + 1
    | none => 0

/-- The path that the trap put aside comes back: the leader's words, for the leader, and the member's place among them
(R428). -/
def Core.unsavePath (words : List PathEntry) (leads : Bool) (k : Core) : Core :=
  { k with
    ahead := false
    path := none
    trail := if leads then words else []
    lag := match k.savedPath with | w :: _ => stillBehind words w.2 k.pc | [] => 0
    savedPath := k.savedPath.tail }

/-- A member has issued the ERET of a handler; when every member has, each goes on at its own PC (R428). -/
def State.issuedEret (s : State) : State :=
  match s.core.gang with
  | none => s
  | some g =>
    let s := { s with core := { s.core with ahead := true } }
    if g.members.all fun c => (s.getCore c).ahead then
      let words := ((s.getCore g.leader).savedPath.headD ([], 0)).1
      (g.members.foldl (fun t c => t.mapCore c (Core.unsavePath words (c == g.leader))) s).trimTrail g
    else s

end Sys2Proof.Machine
end

