-- ==== Sys2Proof/Machine/Access.lean ====
section
/-! DEFINITION. Addresses, translation, watchpoints, and the way of loads and stores to the point where they are performed. -/

namespace Sys2Proof.Machine

/-! ## Physical memory (R217 to R219) -/

/-- The frame lies in HBM of an enabled stack, in the window of a peer that is reached, or in the host window (R217, R452). -/
def State.populated (s : State) (pa : Nat) : Bool :=
  if pa < 0x6000000000 then s.stmap.getLsbD (pa / 0xC00000000)
  else if 2 ^ 48 ≤ pa ∧ pa < 2 ^ 49 then
    let p := (pa - 2 ^ 48) / 2 ^ 42
    p != s.fabid.toNat && s.peers.getLsbD p
  else decide (2 ^ 51 ≤ pa ∧ pa < 2 ^ 52)

/-- A table of a walk must lie in HBM of an enabled stack or in the host window (R379). -/
def State.tableAt (s : State) (pa : Nat) : Bool :=
  if pa < 0x6000000000 then s.stmap.getLsbD (pa / 0xC00000000) else decide (2 ^ 51 ≤ pa ∧ pa < 2 ^ 52)

def Place.isGlobal (p : Place) : Bool := match p with | .scratch _ => false | _ => true

def placeOf (pa : Nat) : Place := if pa < 2 ^ 48 then .hbm else if pa < 2 ^ 49 then .peer else .host

/-- The stack group of a cluster (R13). -/
def stackOf (cluster : Nat) : Nat :=
  let x := cluster % 16
  let y := cluster / 16
  4 * (x / 8) + 2 * (y / 5) + x % 8 / 4

/-- The home slice of a line: the fold of R219, by the package or by the stack group of the leaf. -/
def homeSlice (pa : Nat) (pte : Word) : Nat :=
  let h := field pa 7 16 ^^^ field pa 23 16 ^^^ field pa 39 13
  if wbit pte 14 then
    ((List.range 160).filter fun c => stackOf c = wfield pte 11 3).getD (h % 20) 0
  else h % 160

def keyOf (p : Place) (addr : Nat) : Nat :=
  match p with
  | .scratch c => scratchKey c addr
  | _ => addr

/-- Size in bytes of a scratchpad (R11, R405). -/
def Core.scratchSize (k : Core) : Nat := (128 + 64 * wfield k.lmsplit 0 3) * 1024

/-- How many lines the L1 holds (R11, R222). -/
def Core.l1Lines (k : Core) : Nat := (512 * 1024 - k.scratchSize) / 128

/-! ## Poison and the write log (R437, R441) -/

def overlaps (a n b m : Nat) : Bool := decide (a < b + m) && decide (b < a + n)

def State.poisonIn (s : State) (key n : Nat) : Bool := s.poisoned.any fun g => overlaps key n (8 * g) 8

/-- A line, if none of its granules is poisoned. -/
def State.wholeLine (s : State) (line : Nat) : Option (BitVec 1024) :=
  if s.poisonIn (128 * line) 128 then none else some (s.lineBits line)

/-- A poisoned granule that the write covers only in part (R255, R441). -/
def State.poisonPart (s : State) (key n : Nat) : Bool :=
  s.poisoned.any fun g => overlaps key n (8 * g) 8 && !(decide (key ≤ 8 * g) && decide (8 * g + 8 ≤ key + n))

/-- Granules that a store writes whole, counted from that of the key: their poison goes (R441). -/
def State.heal (s : State) (whole : List Nat) (key : Nat) : State :=
  { s with
    poisoned :=
      if whole.isEmpty then s.poisoned else s.poisoned.filter fun g => !whole.any fun i => decide (key / 8 + i = g) }

/-- The slice whose copy of a line has a poisoned granule of n bytes from addr, if one has (R441). -/
def State.sliceError (s : State) (addr n : Nat) : Option Nat :=
  (s.sliceBad.find? fun g => overlaps addr n (8 * g.1) 8 && s.poisoned.contains g.1).map fun g => g.2

/-- The code of an uncorrectable error in n bytes, by the structure that holds the granule (R441). -/
def State.poisonCause (s : State) (p : Place) (addr n : Nat) : Cause :=
  match p with
  | .scratch _ => 0x3C0#10
  | _ => if (s.sliceError addr n).isSome then 0x3C1#10 else 0x3C2#10

/-- The core, the stack or the slice that a poisoned granule concerns (R424). -/
def State.poisonUnit (s : State) (p : Place) (addr n : Nat) : Nat :=
  match p with
  | .scratch c => c
  | .hbm => (s.sliceError addr n).getD (addr / 0xC00000000)
  | _ => 0

/-- An access of context n needs a poisoned granule: the error is charged to it, and the context stops (R441). -/
def State.charge (s : State) (ctx : Nat) (c : Cause) (unit : Nat) : State :=
  { s with charges := s.charges ++ [(ctx, c, unit)] }

/-- The same for a poisoned granule of n bytes at a place. -/
def State.chargeAt (s : State) (ctx : Nat) (p : Place) (addr n : Nat) : State :=
  s.charge ctx (s.poisonCause p addr n) (s.poisonUnit p addr n)

/-- Whether the first write of context n to an HBM line in its open interval can be logged now (R437). -/
def State.canLog (s : State) (n key : Nat) : Bool :=
  match tfind n s.contexts with
  | none => true
  | some x =>
    if x.interval = 0 ∨ 0x6000000000 ≤ key then true
    else
      (s.logs.any fun e => e.line = key / 128 && e.ctx = n && e.interval = x.interval) ||
        decide (s.logFill (key / 0xC00000000) < Config.logCapacity (key / 0xC00000000))

/-- A write performed at its point for context n: logged, then written; a granule written whole is no longer poisoned. -/
def State.writeAt (s : State) (n key size v : Nat) : State :=
  let s := s.logWrite n key
  { s with
    mem := memWrite s.mem key v size
    poisoned := s.poisoned.filter fun g => !(decide (key ≤ 8 * g) && decide (8 * g + 8 ≤ key + size)) }

/-! ## Access counting (R385) -/

/-- A home slice fetches a host line through a leaf with AC = 1 (R385). -/
def State.countAccess (s : State) (ctx pa : Nat) : State :=
  match tfind ctx s.contexts with
  | none => s
  | some x =>
    let i := (pa - 2 ^ 51) / 65536
    if x.desc.acn ≤ i then s
    else
      let a := x.desc.actab + 2 * i
      let v := memRead s.mem a 2
      if x.desc.acthr ≤ v then s
      else
        let s : State := ({ s with mem := memWrite s.mem a (v + 1) 2 } : State).countAt ctx a
        if (v + 1) % 65536 = x.desc.acthr then s.notify ctx 4 0 0 (i * 65536) else s

/-! ## Page tables (R378 to R381) -/

/-- A leaf found by a walk: the entry, its address, log2 of the page size. -/
structure Leaf where
  pte : Word
  at_ : Nat
  log2 : Nat
deriving DecidableEq, Repr

/-- The levels of a walk: number, low bit of the index, its width (R379). -/
def walkLevels : List (Nat × Nat × Nat) := [(1, 48, 12), (2, 39, 9), (3, 30, 9), (4, 21, 9), (5, 16, 5)]

/-- One walk from a table at base over the levels left (R379). -/
def State.walkFrom (s : State) (va base : Nat) : List (Nat × Nat × Nat) → Except Cause Leaf
  | [] => .error 0x202#10
  | (lvl, lo, len) :: rest =>
    let at_ := base + 8 * field va lo len
    if !s.tableAt at_ then .error 0x203#10
    else
      let e : Word := BitVec.ofNat 64 (memRead s.mem at_ 8)
      if !wbit e 0 then .error 0x201#10
      else if !wbit e 1 then
        if lvl = 5 ∨ wfield e 2 6 ≠ 0 ∨ wfield e 52 12 ≠ 0 then .error 0x202#10
        else s.walkFrom va (wfield e 8 44 * 256) rest
      else if lvl < 3 ∨ wfield e 60 4 ≠ 0 ∨ (wbit e 6 && wbit e 3) then .error 0x202#10
      else if (lvl = 3 ∧ wfield e 16 14 ≠ 0) ∨ (lvl = 4 ∧ wfield e 16 5 ≠ 0) then .error 0x202#10
      else .ok { pte := e, at_ := at_, log2 := lo }

def State.walkRoot (s : State) (root : Word) (va : Nat) : Except Cause Leaf :=
  s.walkFrom va (wfield root 15 37 * 2 ^ 15) walkLevels

/-- The addresses of the entries that a walk reads. -/
def State.walkReads (s : State) (va base : Nat) : List (Nat × Nat × Nat) → List Nat
  | [] => []
  | (_, lo, len) :: rest =>
    let at_ := base + 8 * field va lo len
    let e : Word := BitVec.ofNat 64 (memRead s.mem at_ 8)
    if !s.tableAt at_ then []
    else if wbit e 0 && !wbit e 1 then at_ :: s.walkReads va (wfield e 8 44 * 256) rest
    else [at_]

/-- The lines that a walk from a root reads count for the context (R388). -/
def State.countWalk (s : State) (ctx : Nat) (root : Word) (va : Nat) : State :=
  (s.walkReads va (wfield root 15 37 * 2 ^ 15) walkLevels).foldl (fun t at_ => t.countAt ctx at_) s

/-- The frame address of va through a leaf. -/
def leafPa (pte : Word) (log2 va : Nat) : Nat := wfield pte 16 36 * 65536 + va % 2 ^ log2

/-- The checks of R380, in order; the write-block stall is not a cause. -/
def State.leafCheck (s : State) (keys : BitVec 256) (system : Bool) (acc : Access) (pte : Word) (pa : Nat) : Option Cause :=
  if !system && !wbit pte 5 then some 0x207#10
  else if wfield pte 52 8 ≠ 0 ∧ !keys.getLsbD (wfield pte 52 8) then some 0x208#10
  else if acc = .fetch ∧ !wbit pte 4 then some 0x206#10
  else if acc = .load ∧ !wbit pte 2 then some 0x204#10
  else if acc = .store ∧ !wbit pte 3 then some 0x205#10
  else if acc = .atomic ∧ !wbit pte 2 then some 0x204#10
  else if acc = .atomic ∧ !wbit pte 3 then some 0x205#10
  else if wbit pte 15 ≠ decide (2 ^ 51 ≤ pa) then some 0x202#10
  else if wbit pte 14 ∧ pa / 0xC00000000 ≠ wfield pte 11 3 then some 0x202#10
  else if !s.populated pa then some 0x203#10
  else none

/-- The access needs D, and the entry as held lacks A or D (R381). -/
def needsWalk (acc : Access) (pte : Word) : Bool :=
  !wbit pte 9 || ((acc == .store || acc == .atomic) && !wbit pte 10)

/-- The walker sets A, and D for a store or atomic, by an atomic OR on the entry (R381). -/
def State.setAD (s : State) (l : Leaf) (acc : Access) : State :=
  let d := if acc = .store ∨ acc = .atomic then 0x600#64 else 0x200#64
  { s with mem := memWrite s.mem l.at_ (l.pte ||| d).toNat 8 }

/-- The walker's OR, if the entry lacks a bit that the access needs, with its count (R381, R388). -/
def State.orAD (s : State) (ctx : Nat) (l : Leaf) (acc : Access) : State :=
  if needsWalk acc l.pte then (s.setAD l acc).countAt ctx l.at_ else s

def withAD (pte : Word) (acc : Access) : Word := pte ||| (if acc = .store ∨ acc = .atomic then 0x600#64 else 0x200#64)

/-! ## The virtual address space (R215, R216, R226) -/

/-- Where an address leads: a place with the leaf that maps it, the engine window, a cause, or a translation that is
missing or blocked. -/
inductive Tr where
  | ok (place : Place) (addr : Nat) (pte : Word)
  | window (off : Nat)
  | fault (c : Cause)
  | miss
  | blocked (pte : Word) (pa : Nat)
deriving DecidableEq, Repr

/-- The apertures, for the core c of a context (R216). -/
def State.aperture (s : State) (c : CoreId) (ctx : Nat) (acc : Access) (va : Nat) : Tr :=
  let o := va % 2 ^ 56
  if va / 2 ^ 56 = 14 then
    if 0xA00 * 2 ^ 19 ≤ o ∨ acc = .fetch then .fault 0x1C3#10
    else
      let owner := o / 2 ^ 19
      if owner ≠ c ∧ !s.coreOf ctx owner then .fault 0x1C1#10
      else if (s.getCore owner).scratchSize ≤ o % 2 ^ 19 then .fault 0x1C0#10
      else .ok (.scratch owner) (o % 2 ^ 19) 0#64
  else if o < 2 ^ 19 then
    if (s.getCore c).scratchSize ≤ o then .fault 0x1C0#10 else .ok (.scratch c) o 0#64
  else if 0x80000 ≤ o ∧ o < 0x80030 ∧ acc ≠ .fetch then .window (o - 0x80000)
  else .fault 0x1C3#10

/-- A TLB entry of a context that maps va. -/
def tlbFind (ctx va : Nat) (l : List TlbEntry) : Option TlbEntry :=
  l.find? fun e => e.ctx = ctx && decide (e.base ≤ va) && decide (va < e.base + 2 ^ e.log2)

/-- What a leaf gives for an access. -/
def State.viaLeaf (s : State) (keys : BitVec 256) (system : Bool) (acc : Access) (pte : Word) (log2 va : Nat) : Tr :=
  let pa := leafPa pte log2 va
  match s.leafCheck keys system acc pte pa with
  | some c => .fault c
  | none =>
    if (acc = .store ∨ acc = .atomic) ∧ wbit pte 7 then .blocked pte pa else .ok (placeOf pa) pa pte

/-- The leaf that a management core's access to a global address is taken to go through: nothing is forbidden or counted
(R376). -/
def openLeaf : Word := 0x63F#64

/-- An access of core c to a global address, with no context: a management core's addresses are physical (R376). -/
def State.physical (s : State) (c : CoreId) (va : Nat) : Tr :=
  if 2560 ≤ c ∧ s.populated va then .ok (placeOf va) va openLeaf else .fault 0x203#10

/-- In a transfer phase, an access other than to the own scratchpad (R342). -/
def Core.meshAccess (k : Core) (c : CoreId) (acc : Access) (va : Nat) : Bool :=
  k.inPhase.isSome && decide (acc ≠ .fetch) &&
    !(decide (va / 2 ^ 56 = 15) && decide (va % 2 ^ 56 < 2 ^ 19)) &&
    !(decide (va / 2 ^ 56 = 14) && decide (va % 2 ^ 56 / 2 ^ 19 = c))

/-- Translation of an access of the core in focus (R215, R380 to R382): the core's TLB, then its cluster's. -/
def State.translate (s : State) (acc : Access) (va : Nat) : Tr :=
  if 2 ^ 60 ≤ va then .fault 0x200#10
  else if s.core.meshAccess s.cur acc va then .fault 0x342#10
  else if 14 ≤ va / 2 ^ 56 then s.aperture s.cur (s.core.context.getD 64) acc va
  else
    match tfind va s.core.walkFaults with
    | some c => .fault c
    | none =>
      match s.curCtx with
      | none => s.physical s.cur va
      | some x =>
        match (tlbFind x.desc.ctx va s.core.tlb).orElse fun _ => tlbFind x.desc.ctx va (s.cluster (clusterOf s.cur)).tlb with
        | none => .miss
        | some e =>
          if needsWalk acc e.pte then .miss else s.viaLeaf x.desc.keys s.core.system acc e.pte e.log2 va

/-- A translation of an engine that an entry it holds serves, or that walks the tables for nothing but the leaf: which of
the two no rule says, so whether a walk's lines count is a free value (R388, log 34). -/
def State.countLookup (s : State) (n : Nat) (root : Word) (va : Nat) : State :=
  let t : State := { s with fresh := s.fresh + 1 }
  if Config.walks s.fresh then t.countWalk n root va else t

/-- Translation by an engine, for context n with the KEYS and the mode its command was issued with (R384). It looks at the
tables as they stand; a walk that sets A or D counts (log 34). -/
def State.engineTranslate (s : State) (c : CoreId) (n : Nat) (keys : BitVec 256) (system : Bool) (acc : Access) (va : Nat) :
    Tr × State :=
  if 2 ^ 60 ≤ va then (.fault 0x200#10, s)
  else if 14 ≤ va / 2 ^ 56 then (s.aperture c n acc va, s)
  else
    match tfind n s.contexts with
    | none => (s.physical c va, s)
    | some x =>
      match s.walkRoot x.desc.root va with
      | .error e => (.fault e, s)
      | .ok l =>
        match s.viaLeaf keys system acc (withAD l.pte acc) l.log2 va with
        | .fault e => (.fault e, s)
        | t =>
          (t, if needsWalk acc l.pte then (s.countWalk n x.desc.root va).orAD n l acc else s.countLookup n x.desc.root va)

/-! ## Pieces of an access -/

/-- A part of an access that lies in one line of global memory or in one scratchpad. -/
structure Piece where
  off : Nat
  len : Nat
  va : Nat
  place : Place
  addr : Nat
  pte : Word
  /-- WB is 1: only an engine command goes on with such a piece (R387) -/
  blocked : Bool := false
deriving DecidableEq, Repr

/-- The parts of n bytes (at most 128) at va, cut at the lines of global memory and at 64 KiB in the apertures, where a
scratchpad can end: offset and length. -/
def splitAccess (va n : Nat) : List (Nat × Nat) :=
  let room := if 14 ≤ va / 2 ^ 56 then 65536 - va % 65536 else 128 - va % 128
  if n ≤ room then [(0, n)] else [(0, room), (room, n - room)]

inductive Plan where
  | go (l : List Piece)
  | trap (c : Cause) (val : Nat)
  | miss (va : Nat)
  | blocked (va : Nat)
deriving DecidableEq, Repr

/-- Join of the plans of two parts: a cause at the lowest address comes first, then a missing translation, then a
write-block (R179, R275, R387). -/
def Plan.join : Plan → Plan → Plan
  | .miss v, _ => .miss v
  | _, .miss v => .miss v
  | .trap c v, .trap d w => if w < v then .trap d w else .trap c v
  | .trap c v, _ => .trap c v
  | _, .trap d w => .trap d w
  | .blocked v, _ => .blocked v
  | _, .blocked w => .blocked w
  | .go a, .go b => .go (a ++ b)

/-- An access that stays in one scratchpad is one piece, which takes one journal entry (R426). -/
def Plan.seal : Plan → Plan
  | .go [p, q] =>
    if p.place = q.place ∧ !p.place.isGlobal ∧ p.addr + p.len = q.addr then .go [{ p with len := p.len + q.len }]
    else .go [p, q]
  | x => x

def State.planPart (s : State) (acc : Access) (va base off len : Nat) : Plan :=
  match s.translate acc (va + off) with
  | .ok p a e => .go [{ off := base + off, len := len, va := va + off, place := p, addr := a, pte := e }]
  | .window _ => .trap 0x1C2#10 (va + off)
  | .fault c => .trap c (if c = 0x342#10 then 0 else va + off)
  | .miss => .miss (va + off)
  | .blocked _ _ => .blocked (va + off)

/-- The plan of one access, given by its address, its size and its first byte in the operand. -/
def State.planOne (s : State) (acc : Access) (x : Nat × Nat × Nat) : Plan :=
  Plan.seal ((splitAccess x.1 x.2.1).foldl (fun p y => p.join (s.planPart acc x.1 x.2.2 y.1 y.2)) (.go []))

/-- The plan of some accesses, each given by its address, its size and its first byte in the operand; every part is
translated before any byte is accessed (R179, R275). -/
def State.plan (s : State) (acc : Access) (l : List (Nat × Nat × Nat)) : Plan :=
  l.foldl (fun p x => p.join (s.planOne acc x)) (.go [])

/-! ## Watchpoints (R412, R413) -/

def wpKind (w : Word) (acc : Access) : Bool :=
  wbit w 63 &&
    match acc with
    | .fetch => wbit w 60
    | .load => wbit w 62
    | .store => wbit w 61
    | .atomic => wbit w 62 || wbit w 61

/-- The watched granule as an offset of the core's own scratchpad, if it lies there (R413). -/
def wpOwn (c : CoreId) (w : Word) : Option Nat :=
  let a := wfield w 3 57 * 8
  if a / 2 ^ 56 = 15 ∧ a % 2 ^ 56 < 2 ^ 19 then some (a % 2 ^ 56)
  else if a / 2 ^ 56 = 14 ∧ a % 2 ^ 56 / 2 ^ 19 = c then some (a % 2 ^ 19)
  else none

/-- The lowest watchpoint of core c that an access of n bytes matches: at an offset of its scratchpad, or at a virtual
address. -/
def Core.wpMatch (k : Core) (c : CoreId) (acc : Access) (own : Bool) (addr n : Nat) : Option Nat :=
  (List.range 8).find? fun i =>
    let w := tget i k.wp 0#64
    wpKind w acc &&
      match wpOwn c w with
      | some o => own && overlaps addr n o 8
      | none => !own && overlaps addr n (wfield w 3 57 * 8) 8

/-- A stop starts: it will reach some stations of a cluster (R415). -/
def State.stopStations (s : State) (n reason : Nat) (l : List Nat) : State :=
  s.mapCluster n fun k =>
    { k with stopping := l.foldl (fun t i => if (tfind i t).isSome then t else t ++ [(i, reason)]) k.stopping }

/-- A cluster stop starts: it will reach every station (R415). -/
def State.stopCluster (s : State) (n : Nat) : State := s.stopStations n 2 (List.range 16)

/-- An ACT 1 match: DINFO is recorded and the cluster stops, unless a hit is recorded already (R413). -/
def State.wpStop (s : State) (c : CoreId) (i agent : Nat) : State :=
  let k := s.getCore c
  if wbit k.dinfo 3 then s
  else
    let skid := match k.gang with | some g => 0x100000 + (c - g.leader) * 2 ^ 16 | none => 0
    (s.setCore c { k with dinfo := BitVec.ofNat 64 (skid + agent * 16 + 8 + i) }).stopCluster (clusterOf c)

/-- The address of the instruction in issue; in a routine it is the deferred word's (R84). -/
def Core.instrPc (k : Core) : Word := match k.routine with | some r => r.pc | none => k.pc

/-- An ACT 0 match of the core's own instruction: its trap follows the instruction. One that finds another match waiting pends
behind it (R413). -/
def Core.wpTrap (k : Core) (i va : Nat) : Core :=
  let c : Cause := BitVec.ofNat 10 (0x388 + i)
  if k.wpHit.isSome then k.pendAsync c (BitVec.ofNat 64 va)
  else { k with wpHit := some ({ cause := c, val := BitVec.ofNat 64 va }, k.instrPc) }

/-- The watchpoints of the core in focus against the pieces of an access of its own instruction, each with the address that
the access has in its lane: the lowest that any piece matches acts, with the address of the first such piece's lane (R413,
log 69). -/
def State.watchPieces (s : State) (acc : Access) (l : List (Nat × Piece)) : State :=
  let hits := l.filterMap fun x =>
    (s.core.wpMatch s.cur acc (x.2.place == .scratch s.cur) (if x.2.place = .scratch s.cur then x.2.addr else x.2.va) x.2.len).map
      fun i => (i, x.1)
  match (hits.map fun h => h.1).min? with
  | none => s
  | some i =>
    if wfield (tget i s.core.wp 0#64) 1 2 = 0 then
      { s with core := s.core.wpTrap i (((hits.find? fun h => h.1 = i).map fun h => h.2).getD 0) }
    else s.wpStop s.cur i s.cur

/-- The same for an access of one piece. -/
def State.watchOwn (s : State) (acc : Access) (p : Piece) : State := s.watchPieces acc [(p.va, p)]

/-- The address of the lane that a byte of the operand lies in, of lanes given by their address, their size and their first
byte in the operand. -/
def laneOf (l : List (Nat × Nat × Nat)) (p : Piece) : Nat :=
  ((l.find? fun x => decide (x.2.2 ≤ p.off) && decide (p.off < x.2.2 + x.2.1)).map fun x => x.1).getD p.va

/-- The same for the accesses of an instruction. -/
def State.watchLanes (s : State) (acc : Access) (l : List (Nat × Nat × Nat)) (ps : List Piece) : State :=
  s.watchPieces acc (ps.map fun p => (laneOf l p, p))

/-- The watchpoints of an owner against an access it serves for another agent, or by its engines (R413). -/
def State.watchServed (s : State) (owner : CoreId) (acc : Access) (own : Bool) (addr n : Nat) (agent : CoreId)
    (val : Word) : State :=
  let k := s.getCore owner
  match k.wpMatch owner acc own addr n with
  | none => s
  | some i =>
    if wfield (tget i k.wp 0#64) 1 2 = 0 then s.setCore owner (k.pendAsync (BitVec.ofNat 10 (0x388 + i)) val)
    else s.wpStop owner i agent

/-! ## Traps of the instruction in issue -/

/-- A queued command still has to read byte o of a span that it reads (R239). -/
def QCmd.unread (q : QCmd) (p : Span) (o : Nat) : Bool := p.wr || (tfind (keyOf p.place (p.addr + o)) q.taken).isNone

/-- The two ranges touch a common 8-byte granule. -/
def sameGranule (a n b m : Nat) : Bool := overlaps (a / 8 * 8) ((a % 8 + n + 7) / 8 * 8) (b / 8 * 8) ((b % 8 + m + 7) / 8 * 8)

/-- A granule that a queued matrix command of the core has still to read or to write: the store waits (R239). A write that
WB = 1 holds back translates again, so its address counts. -/
def Core.interlocked (k : Core) (r : Req) : Bool :=
  k.mqueue.any fun q => q.spans.any fun p =>
    !p.done &&
      ((p.place = r.place && (List.range p.len).any fun o => sameGranule r.addr r.size (p.addr + o) 1 && q.unread p o) ||
        (p.blocked && sameGranule r.va.toNat r.size p.va p.len))

/-- The frame that a write which WB = 1 holds back would go to by now holds a granule of the store (R239, R387). -/
def State.heldMeets (s : State) (r : Req) : Bool :=
  s.core.mqueue.any fun q => q.spans.any fun p =>
    p.blocked && !p.done &&
      match (s.engineTranslate s.cur (s.core.context.getD 64) q.keys q.system .store p.va).1 with
      | .ok pl a _ => decide (pl = r.place) && sameGranule r.addr r.size a p.len
      | .blocked _ pa => decide (placeOf pa = r.place) && sameGranule r.addr r.size pa p.len
      | _ => false

/-- A store of the core in focus waits for a queued matrix command (R239). -/
def State.interlocked (s : State) (r : Req) : Bool := s.core.interlocked r || s.heldMeets r

/-- No buffered store of the core in focus is held by the interlock. -/
def State.flushable (s : State) : Bool := s.core.sbuf.all fun e => e.all fun r => !s.interlocked r

/-- The core's own L1 copy of the line takes the bytes of its store (R222). -/
def l1Update (l : Tab (BitVec 1024)) (addr size v : Nat) : Tab (BitVec 1024) :=
  match tfind (addr / 128) l with
  | none => l
  | some x =>
    let sh := 8 * (addr % 128)
    let m := (2 ^ (8 * size) - 1) * 2 ^ sh
    tset (addr / 128) (BitVec.ofNat 1024 ((x.toNat - (x.toNat &&& m)) + v % 2 ^ (8 * size) * 2 ^ sh)) l

/-- A byte with its low or high nibble replaced (R281). -/
def setNibble (high : Bool) (b v : Nat) : Nat := if high then b % 16 + v % 16 * 16 else b / 16 * 16 + v % 16

/-- The same in a line that the L1 holds. -/
def l1Nibble (l : Tab (BitVec 1024)) (addr : Nat) (high : Bool) (v : Nat) : Tab (BitVec 1024) :=
  match tfind (addr / 128) l with
  | none => l
  | some x => l1Update l addr 1 (setNibble high (x.toNat / 2 ^ (8 * (addr % 128)) % 256) v)

/-- What a store of the core does to the lines that its L1 holds (R222). -/
def Req.inL1 (r : Req) (l : Tab (BitVec 1024)) : Tab (BitVec 1024) :=
  match r.kind with
  | .store => l1Update l r.addr r.size r.data.toNat
  | .nibble high => l1Nibble l r.addr high r.data.toNat
  | _ => l

/-- No answer on its way to core c may put lines that satisfy f into its L1. -/
def State.noFill (s : State) (c : CoreId) (f : Nat → Bool) : State :=
  { s with
    flight := s.flight.map fun r => if r.src = c && f (r.addr / 128) then { r with fill := false } else r
    answers := s.answers.map fun a =>
      match a.line with
      | some (n, _) => if a.dst = c && f n then { a with line := none } else a
      | none => a }

/-- Core c has written lines lo to hi of HBM: its near slice keeps no older replica of them, and no read of it is merged with an
older read (R234). -/
def State.dropNear (s : State) (c : CoreId) (lo hi : Nat) : State :=
  let bar (x : Shared) : Shared := if lo ≤ x.line ∧ x.line ≤ hi then { x with barred := c :: x.barred } else x
  ({ s with answers := s.answers.map fun a => { a with shared := a.shared.map bar } } : State).mapCluster (clusterOf c)
    fun k => { k with replicas := k.replicas.filter fun r => r.1 < lo || hi < r.1 }

/-- A store of the core in focus updates its own L1 copy of the line (R222). -/
def State.ownLines (s : State) (r : Req) : State :=
  if r.place = .hbm then
    let s := s.noFill s.cur fun n => n = r.addr / 128
    { s with core := { s.core with l1d := r.inL1 s.core.l1d, l1i := r.inL1 s.core.l1i } }
  else s

/-- A store of the core in focus leaves the core: performed at once in the own scratchpad, or as a request. The journal
entry of a remote store has been chosen. -/
def State.send (s : State) (r : Req) : State :=
  match r.place with
  | .scratch c =>
    if c = s.cur then
      let s := s.heal r.whole (scratchKey c r.addr)
      if s.poisonPart (scratchKey c r.addr) r.size then s.charge r.ctx 0x3C0#10 c
      else
        match r.kind with
        | .nibble high =>
          s.writeAt r.ctx (scratchKey c r.addr) 1
            (setNibble high (memByte s.mem (scratchKey c r.addr)).toNat r.data.toNat)
        | _ => s.writeAt r.ctx (scratchKey c r.addr) r.size r.data.toNat
    else { s with flight := s.flight ++ [r] }
  | _ => let s := s.ownLines r
    { s with flight := s.flight ++ [r] }

/-- A posted store that has timed out and may still be performed: nothing waits for it (R255, R426). -/
def Req.late (r : Req) : Bool :=
  r.journal.isNone && (decide (r.kind = .store) || decide (r.kind = .nibble true) || decide (r.kind = .nibble false)) &&
    match r.place with
    | .scratch _ => true
    | _ => false

/-- The lowest free journal entry (R254). -/
def Core.freeEntry (k : Core) : Option Nat := (List.range 32).find? fun i => (tfind i k.journal).isNone

/-- A journal entry in state 1 for a store (R426). -/
def journalWord (st size owner off : Nat) : Word32 :=
  BitVec.ofNat 32 (st * 2 ^ 30 + Nat.log2 size * 2 ^ 28 + owner % 4096 * 2 ^ 16 + off / 8 % 65536)

def State.takeEntry (s : State) (i owner off size : Nat) : State :=
  s.upd fun k =>
    { k with
      journal := tset i (journalWord 1 size owner off) k.journal
      journalAt := tset i s.time k.journalAt }

/-- The owner of a remote scratchpad, for a request of the core in focus. -/
def State.remoteOwner (s : State) (r : Req) : Option CoreId :=
  match r.place with
  | .scratch c => if c = s.cur then none else some c
  | _ => none

/-- The owner has performed the posted store, whose acknowledgement is on its way. -/
def Req.acked (r : Req) : Bool := r.sent && r.journal.isSome

/-- The request e of the same core is performed before r by the order of their instruction or iteration (R84, R179, R235). -/
def Req.ahead (e r : Req) : Bool := decide (e.order ≠ 0) && decide (e.order = r.order)

/-- A store to the own scratchpad waits for the earlier stores of its order, which are performed elsewhere (R235). -/
def State.outOfTurn (s : State) (r : Req) : Bool :=
  decide (r.place = .scratch s.cur) && s.flight.any fun e => decide (e.src = s.cur) && !e.late && !e.acked && e.ahead r

/-- Stores leave in order, while those before them have been performed where that decides and the journal has entries for
those that need one; the rest waits in outq (R235, R254). -/
def State.drain (s : State) : List Req → State
  | [] => s
  | r :: t =>
    if s.outOfTurn r then s.upd fun k => { k with outq := r :: t }
    else
      match s.remoteOwner r with
      | none => (s.send r).drain t
      | some c =>
        match s.core.freeEntry with
        | none => s.upd fun k => { k with outq := r :: t }
        | some i => ((s.takeEntry i c r.addr r.size).send { r with journal := some i }).drain t

/-- The watchpoints match the stores of one buffered instruction as they are performed (R413). -/
def State.watchBuffered (s : State) (rs : List Req) : State :=
  let piece (r : Req) : Nat × Piece :=
    (r.lane.toNat, { off := 0, len := r.size, va := r.va.toNat, place := r.place, addr := r.addr, pte := 0#64 })
  s.watchPieces .store (rs.map piece)

/-- The buffered stores of the iteration are written in program order; the iteration is then committed (R41, R42). -/
def State.flush (s : State) : State :=
  if s.core.sbuf.isEmpty then (if s.core.overlapped then s.upd fun k => { k with committed := true } else s)
  else
    let t : State := { s with core := { s.core with sbuf := [], committed := true } }
    (s.core.sbuf.foldl State.watchBuffered t).drain s.core.sbuf.flatten

/-- The buffered stores of every core that traps together with the core in focus can be written. -/
def State.flushableAll (s : State) : Bool := s.trapping.all fun c => (s.focus c).flushable

/-- Those stores are written (R43). -/
def State.flushAll (s : State) : State :=
  match s.core.gang with
  | none => s.flush
  | some g => g.members.foldl (fun t c => ((t.focus c).flush).focus s.cur) s

/-- None of them has a store still to send. -/
def State.allSent (s : State) : Bool := s.trapping.all fun c => (s.getCore c).outq.isEmpty

/-- A trap may be taken: the buffered stores can be written, and no other member of the gang is in the midst of an
instruction (R43, R47). -/
def State.trapReady (s : State) : Bool := s.flushableAll && s.gangSettled

/-- A core that has stopped gives up the focus. -/
def State.rotateIfStopped (s : State) : State := if s.core.debugStopped then s.rotate else s

/-- A deferred instruction faults: its register writes, buffered stores and window stores are discarded (R84). Loads that it
found pending stay. -/
def Core.undoRoutine (k : Core) : Core :=
  match k.routine with
  | none => k
  | some r =>
    { k with
      pc := r.pc
      word := r.word
      sregs := r.sregs
      vregs := r.vregs
      masks := r.masks
      fflags := r.fflags
      pendingFlags := r.pendingFlags
      qw0 := r.window.1
      qw1 := r.window.2.1
      qw2 := r.window.2.2.1
      qw3 := r.window.2.2.2
      sbuf := []
      pend := k.pend.filter fun p => p.1 < r.firstPend
      routine := none }

/-- A precise trap, when it may be taken: the buffered stores from before it are written first, and the trap follows once the
last of them has left (R43). Until then the instruction stands as it is and traps when it issues again. -/
def State.takeTrap (s : State) (cause : Cause) (alike : Bool) (pc at_ val : Word) : Out :=
  if s.trapReady then
    let t := s.flushAll
    if t.allSent then .next (t.enter cause false alike pc at_ val).rotateIfStopped else .next t.rotate
  else s.stall

/-- A precise trap of the instruction in issue, with the PC and TRAPVAL that its rule names (R423). A fault in the routine of a
deferred instruction is that instruction's, and waits there (R84). The instruction stands at at_, and alike says that every
member of the gang counts it as executed (R428). -/
def State.trapFrom (s : State) (cause : Cause) (alike : Bool) (pc at_ val : Word) : Out :=
  match s.core.routine with
  | some r =>
    let v : Word := r.word.zeroExtend 64
    ((s.upd Core.undoRoutine).upd fun k => { k with held := some (.failed cause v) }).takeTrap cause false r.pc r.pc v
  | none => s.takeTrap cause alike pc at_ val

def State.trapAt (s : State) (cause : Cause) (pc val : Word) : Out := s.trapFrom cause false pc s.core.pc val
/-- A precise trap at the instruction in issue. -/
def State.trap (s : State) (cause : Cause) (val : Word) : Out := s.trapAt cause s.core.pc val

/-- A precise trap whose TRAPVAL no rule states: the value is free (log 7). -/
def State.trapOpen (s : State) (c : Cause) : Out :=
  if s.trapReady then ({ s with fresh := s.fresh + 1 } : State).trap c (Config.freeWord s.fresh) else s.stall

/-- A precise trap of class 1 to 3: TRAPVAL holds the instruction word (R423). -/
def State.trapWord (s : State) (cause : Cause) : Out := s.trap cause (s.core.word.zeroExtend 64)

/-! ## The end of an instruction -/

/-- A watchpoint that an instruction has matched traps, with TRAPPC the next instruction (R413), once the buffered stores can
be written and no other member of the gang is in the midst of an instruction; until then it is due. -/
def State.hitTrap (s : State) (h : Async × Word) : State :=
  let due (t : State) : State := t.upd fun k => { k with hitDue := true }
  if s.trapReady then
    let t := s.flushAll
    if t.allSent then
      (t.upd fun k => { k with wpHit := none, hitDue := false }).enter h.1.cause false false s.core.pc h.2 h.1.val
    else due t
  else due s

/-- The instruction in issue is complete and the PC has moved on: a stepped core stops again with REASON 3 (R417), and a
watchpoint match traps. In a gang the match traps before the word counts as issued, so that it stays on the path (R428). -/
def State.afterInstr (s : State) : State :=
  match s.core.wpHit with
  | some h => s.hitTrap h
  | none =>
    if s.core.stepping.isSome then { s with core := s.core.stopAt s.cur 3 s.core.pc } else s

/-- A member has issued its word, and the instruction is complete. -/
def State.complete (s : State) : State := if s.core.wpHit.isSome then s.afterInstr else s.issued.afterInstr

/-- The instruction completes and control goes to x. A word of a deferred instruction's routine is no instruction of its
own (R84). -/
def State.goto (s : State) (x : Word) : State :=
  let t : State :=
    { s with core := { s.core with
        pc := x, held := none, chanStep := 0, pendingWait := false, walkFaults := [], wb := none, fencing := false,
        inWait := false, arriving := false, barpDone := false, imgOrder := [], imgGot := [] } }
  if s.core.routine.isSome then t else t.complete

/-- The instruction completes and control goes to the next word. -/
def State.advance (s : State) : State := s.goto (s.core.pc + 4#64)

/-- What a core does at the end of an instruction that has nothing special about it: the PC moves on. -/
def Core.quiet (k : Core) : Prop := k.gang = none ∧ k.wpHit = none ∧ k.stepping = none ∧ k.routine = none

end Sys2Proof.Machine
end

