-- ==== Sys2Proof/Machine/Operands.lean ====
section
/-! DEFINITION. The operand forms: which names an instruction reads at which distance and which it writes, the checks of
steps 5 and 6 of R55, and the wait for full versions (R26, R27, R34, R55, R62). -/

namespace Sys2Proof.Machine

/-- The names of an instruction: scalar and vector sources with their distances, and destinations. -/
structure Names where
  ss : List (Reg × Nat) := []
  vs : List (Reg × Nat) := []
  ds : List Reg := []
  dv : List Reg := []
  dk : List KReg := []
deriving DecidableEq, Repr

/-- Every distance lies within its name's depth (R26). -/
def Core.distsOk (k : Core) (n : Names) : Bool :=
  (n.ss.all fun x => k.distS x.1 x.2) && n.vs.all fun x => k.distV x.1 x.2

/-- Every write is allowed: inside a loop with W > 1 only carried names are written, and no mask, k0 included (R24, R34,
R180). A write to s0, which is discarded, is no write (log 11). -/
def Core.writesOk (k : Core) (n : Names) : Bool :=
  (n.ds.all k.mayWriteS) && (n.dv.all k.mayWriteV) && n.dk.all fun _ => !k.overlapped

/-- Every version read is full, and no load or engine command is still to write a destination (R27, R62). -/
def Core.full (k : Core) (n : Names) : Bool :=
  (n.ss.all fun x => (k.srcS x.1 x.2).full) && (n.vs.all fun x => (k.srcV x.1 x.2).full) &&
    (n.ds.all k.fullS) && n.dv.all k.fullV

/-- An engine command, FUT, JOB or CHN word: primaries 0x1D to 0x24 (R70, R342). -/
def engineWord (w : Word32) : Bool :=
  let p := w.toNat / 2 ^ 26
  decide (0x1D ≤ p) && decide (p ≤ 0x24)

/-- The word in issue needs the mesh while the core is in a transfer phase (R342). -/
def Core.meshBarred (k : Core) : Bool := k.inPhase.isSome && engineWord k.word

/-- Steps 5 and 6 of R55 for the names of an instruction, then the wait until it is ready, then its body. -/
def State.issue (s : State) (n : Names) (body : Out) : Out :=
  if !s.core.distsOk n then s.trapWord 0x080#10
  else if !s.core.writesOk n then s.trapWord 0x0C0#10
  else if s.core.meshBarred then s.trap 0x342#10 0#64
  else if !s.core.full n then s.stall
  else body

/-- The names pass every check and are ready. -/
def Core.ready (k : Core) (n : Names) : Bool := k.distsOk n && k.writesOk n && k.full n

/-- The state with a scalar name of the core in focus written. -/
def State.setS (s : State) (d : Reg) (x : Word) : State := { s with core := s.core.writeS d x }
def State.setV (s : State) (d : Reg) (x : Vec) : State := { s with core := s.core.writeV d x }
def State.setK (s : State) (d : KReg) (x : Word) : State := { s with core := s.core.setMask d x }
def State.flags (s : State) (f : Word) : State := { s with core := s.core.addFlags f }

/-- The value of a source. -/
def State.src (s : State) (a : Reg) (d : Nat) : Word := (s.core.srcS a d).val
def State.vsrc (s : State) (a : Reg) (d : Nat) : Vec := (s.core.srcV a d).val

/-! ## Forms of the register instructions -/

/-- d ← x, the instruction reading nothing. -/
def State.form0 (s : State) (d : Reg) (x : Word) : Out := s.issue { ds := [d] } (.next (s.setS d x).advance)

/-- d ← f a. -/
def State.form1 (s : State) (d a : Reg) (da : Nat) (f : Word → Word) : Out :=
  s.issue { ss := [(a, da)], ds := [d] } (.next (s.setS d (f (s.src a da))).advance)

/-- d ← f a b. -/
def State.form2 (s : State) (d a : Reg) (da : Nat) (b : Reg) (db : Nat) (f : Word → Word → Word) : Out :=
  s.issue { ss := [(a, da), (b, db)], ds := [d] } (.next (s.setS d (f (s.src a da) (s.src b db))).advance)

/-- d ← f d a b, where d is read at distance 0 before it is written. -/
def State.form3 (s : State) (d a : Reg) (da : Nat) (b : Reg) (db : Nat) (f : Word → Word → Word → Word) : Out :=
  s.issue { ss := [(a, da), (b, db), (d, 0)], ds := [d] }
    (.next (s.setS d (f (s.src d 0) (s.src a da) (s.src b db))).advance)

end Sys2Proof.Machine
end

