-- ==== Sys2Proof/Machine/Async.lean ====
section
/-! DEFINITION. Pending asynchronous causes and their delivery, and words that are no instruction (R77 to R79, R423, R424,
R427). -/

namespace Sys2Proof.Machine

/-- The core's pending causes with their TRAPVAL: the buffer, the journal's records unless a release, fence or STS in issue
finds them, the carry records not delivered yet (R149, R423, R424, R426). Among equal codes the oldest comes first. -/
def Core.pendingCauses (k : Core) : List (Cause × Word) :=
  (k.asyncs.map fun a => (a.cause, a.val)) ++
    ((if k.fencing || k.failing then [] else k.journal).filterMap fun r =>
      let w := r.2.toNat
      if w / 2 ^ 30 = 2 then some (BitVec.ofNat 10 (0x280 + r.1), r.2.zeroExtend 64)
      else if w / 2 ^ 30 = 3 then some (BitVec.ofNat 10 (0x2A0 + r.1), r.2.zeroExtend 64)
      else none) ++
    (k.carryRecs.reverse.filterMap fun r => if r.2.delivered then none else some (BitVec.ofNat 10 (wfield r.2.word 54 10), r.2.word))

/-- The cause that is delivered next: the lowest code, and among equal codes the oldest (R424). -/
def Core.nextCause (k : Core) : Option (Cause × Word) :=
  match (k.pendingCauses.map fun c => c.1.toNat).min? with
  | some n => k.pendingCauses.find? fun c => c.1.toNat = n
  | none => none

/-- A delivered cause leaves its source; a carry record stays, marked delivered (R149). A journal entry becomes free at trap
entry. -/
def Core.dropCause (k : Core) (c : Cause × Word) : Core :=
  match k.asyncs.findIdx? fun a => decide (a.cause = c.1) && decide (a.val = c.2) with
  | some i => ({ k with asyncs := k.asyncs.eraseIdx i } : Core).freeAsync
  | none =>
    match k.carryRecs.reverse.find? fun r => decide (r.2.word = c.2) && !r.2.delivered with
    | some (i, r) => { k with carryRecs := k.carryRecs.map fun p => if p.1 = i then (i, { r with delivered := true }) else p }
    | none => k

/-- A pending cause can be delivered to the core in focus: it is about to issue its next instruction (R424, R427). -/
def State.deliverable (s : State) : Bool :=
  s.core.nextCause.isSome && s.core.unit.isSome && decide (s.core.rest = .none) && !s.core.debugStopped && !s.core.nest &&
    !s.core.midway && !s.core.failing && s.trapReady

/-- The delivery to the core in focus, once the buffered stores have left. Its source holds a cause that no handler receives
(R423, R425). -/
def State.deliver (s : State) : State :=
  match s.core.nextCause with
  | some c =>
    let t := s.flushAll
    if t.allSent then
      let t := if (t.core.doubleTrap true).isSome then t else t.upd fun k => k.dropCause c
      (t.enter c.1 true false s.core.pc s.core.pc c.2).rotateIfStopped
    else t.rotate
  | none => s

/-- ASYNC_TRAP_DELIVERY (R424): core c takes its next pending cause, at an instruction boundary. -/
def execAsyncTrapDelivery (c : Nat) (s : State) : Out :=
  let t := s.focus c
  if t.deliverable then .next (if c = s.cur then t.deliver else t.deliver.focus s.cur)
  else .refused (.notEnabled "ASYNC_TRAP_DELIVERY")

/-- NON_INSTRUCTION_WORD (R78): the word in issue is no instruction; it has no effect but its class 1 trap, whose cause
decoding has found. -/
def execNonInstructionWord (w : Word32) (cause : Cause) (s : State) : Out :=
  (s.upd fun k => { k with word := w }).trapWord cause

end Sys2Proof.Machine
end

