-- ==== Sys2Proof/Machine/Fetch.lean ====
section
/-! DEFINITION. Fetching an instruction word (R31, R243). -/

namespace Sys2Proof.Machine

inductive Fetched where
  | word (w : Word32) (s : State)
  | trap (c : Cause) (s : State)
  /-- a translation is missing: the walk of R379 comes first -/
  | miss
  /-- the granule is poisoned; the access has been charged (R441) -/
  | charged (s : State)
  /-- a store to the bytes stands in the endpoint's transmit order -/
  | wait
deriving Repr

/-- Key of a held word: its address, and the mode it was fetched in. -/
def heldKey (va : Nat) (system : Bool) : Nat := 2 * va + (if system then 1 else 0)

/-- The address lies in the part of the innermost body that the loop buffer holds (R31). -/
def Core.inLoopBuffer (k : Core) (va : Nat) : Bool :=
  match k.loops with
  | [] => false
  | r :: _ => decide (r.start.toNat ≤ va) && decide (va ≤ r.last.toNat) && decide (va < r.start.toNat + 256)

/-- Hold a fetched word in the loop buffer. -/
def Core.holdWord (k : Core) (va : Nat) (w : Word32) : Core :=
  if k.inLoopBuffer va then { k with lbuf := tset (heldKey va k.system) w k.lbuf } else k

/-- Keep a line in the L1 as one that instructions have been fetched from; the oldest lines give way, for loads too. A line
that loads find there as well takes its place once, so that such a line is always kept (R243). -/
def Core.keepInstrLine (k : Core) (line : Nat) (x : BitVec 1024) : Core :=
  let t := tset line x k.l1i
  let t := t.take (k.l1Lines - (k.l1d.filter fun r => (tfind r.1 t).isNone).length)
  { k with l1i := t, l1d := k.l1d.filter fun r => (tfind r.1 k.l1i).isNone || (tfind r.1 t).isSome }

/-- Keep a line in the L1 as a data line. -/
def Core.keepDataLine (k : Core) (line : Nat) (x : BitVec 1024) : Core :=
  { k with l1d := (tset line x k.l1d).take (k.l1Lines - k.l1i.length) }

/-- n bytes of a line from offset o. -/
def lineRead (x : BitVec 1024) (o n : Nat) : Nat := x.toNat / 2 ^ (8 * o) % 2 ^ (8 * n)

/-- The page's read-only lines are replicated (R223). -/
def replicable (pte : Word) : Bool := wbit pte 6 && !wbit pte 3

/-- A line as the near slice of core c serves it for a replicable read: its replica, or the home slice's line, of which a
replica is kept unless the near slice is the home slice or a granule of the line is poisoned (R223, R441). -/
def State.nearLine (s : State) (c : CoreId) (card : Nat) (line home : Nat) : BitVec 1024 × State :=
  match tfind line (s.cluster (clusterOf c)).replicas with
  | some (x, _) => (x, s)
  | none =>
    let x := s.lineBits line
    (x, if home = clusterOf c ∨ s.poisonIn (128 * line) 128 then s
        else s.mapCluster (clusterOf c) fun k => { k with replicas := tset line (x, card) k.replicas })

/-- A store of the device to one of n bytes of the host stands in the endpoint's transmit order: a read of them comes after it
(R252, R262). -/
def State.hostNear (s : State) (addr n : Nat) : Bool := s.hostq.any fun r => overlaps r.addr r.size addr n

/-- The card whose unit the core runs, 0 for none. -/
def Core.card (k : Core) : Nat := match k.unit with | some u => u.card | none => 0

/-- The word at va, read at its place: the scratchpad, an L1 line, the slice, the host or the peer. -/
def State.readWord (s : State) (p : Place) (addr : Nat) (pte : Word) : Fetched :=
  let ctx := s.core.context.getD 64
  if p = .host && s.hostNear addr 4 then .wait
  else
  match p with
  | .scratch c =>
    if s.poisonIn (scratchKey c addr) 4 then .charged (s.charge ctx 0x3C0#10 c)
    else .word (BitVec.ofNat 32 (memRead s.mem (scratchKey c addr) 4)) s
  | .hbm =>
    match (tfind (addr / 128) s.core.l1i).orElse fun _ => tfind (addr / 128) s.core.l1d with
    | some x =>
      .word (BitVec.ofNat 32 (lineRead x (addr % 128) 4)) (s.upd fun k => k.keepInstrLine (addr / 128) x)
    | none =>
      if s.poisonIn addr 4 then .charged (s.chargeAt ctx .hbm addr 4)
      else
        let (x, s) :=
          if replicable pte then s.nearLine s.cur s.core.card (addr / 128) (homeSlice addr pte)
          else (s.lineBits (addr / 128), s)
        .word (BitVec.ofNat 32 (lineRead x (addr % 128) 4))
          ((if s.poisonIn (addr / 128 * 128) 128 then s else s.upd fun k => k.keepInstrLine (addr / 128) x).countHbm ctx)
  | .host =>
    let s := s.countCtx ctx 4 128
    .word (BitVec.ofNat 32 (memRead s.mem addr 4)) (if wbit pte 8 then s.countAccess ctx addr else s)
  | .peer => .word (BitVec.ofNat 32 (memRead s.mem addr 4)) (s.countCtx ctx 5 4)

/-- The watchpoints against the fetch of a word that the core holds (R412, log 70). -/
def State.watchHeld (s : State) (va : Nat) : State :=
  s.watchOwn .fetch
    { off := 0
      len := 4
      va := va
      place := if va / 2 ^ 56 = 15 then .scratch s.cur else .hbm
      addr := va % 2 ^ 19
      pte := 0#64 }

/-- Fetch of the word at va (R243): a word held in the fetch buffer or the loop buffer; otherwise the address is translated
and checked, and the word is read and, in a loop body, held. -/
def State.fetchAt (s : State) (va : Nat) : Fetched :=
  let key := heldKey va s.core.system
  match (tfind key s.core.fbuf).orElse fun _ => tfind key s.core.lbuf with
  | some w => .word w (s.watchHeld va)
  | none =>
    match s.translate .fetch va with
    | .ok p addr pte =>
      match s.readWord p addr pte with
      | .word w t =>
        .word w ((t.upd fun k => k.holdWord va w).watchOwn .fetch { off := 0, len := 4, va := va, place := p, addr := addr, pte := pte })
      | f => f
    | .fault c => .trap c s
    | .miss => .miss
    | _ => .trap 0x1C3#10 s

/-- A translation is missing: a walk starts, and the instruction waits for it. -/
def State.startWalk (s : State) (va : Nat) (acc : Access) : Out :=
  (s.upd fun k => { k with walk := some { va := BitVec.ofNat 64 va, access := acc } }).stall

end Sys2Proof.Machine
end

