-- ==== Sys2Proof/Machine/Transfer.lean ====
section
/-! DEFINITION. The way of a load or a store from its instruction to the point where it is performed: forwarding, the L1,
the iteration store buffer, the posted-store journal, and what releases and acquires wait for (R41, R42, R234 to R256). -/

namespace Sys2Proof.Machine

/-! ## Destinations -/

/-- The value a load of n bytes writes (R277). -/
def extend (n : Nat) (signed : Bool) (v : Nat) : Word :=
  if signed then sextTo v (8 * n) else BitVec.ofNat 64 (v % 2 ^ (8 * n))

/-- One element in every lane that the mask governs (R178, VLDB). -/
def spread (old : Vec) (mask : Word) (n v : Nat) : Vec :=
  (List.range (64 / n)).foldl
    (fun x i =>
      if mask.getLsbD (n * i) then
        let m : Vec := BitVec.ofNat 512 ((2 ^ (8 * n) - 1) * 2 ^ (8 * n * i))
        (x &&& ~~~m) ||| BitVec.ofNat 512 (v % 2 ^ (8 * n) * 2 ^ (8 * n * i))
      else x)
    old

/-- The destination takes the bytes of a load that needed no answer. -/
def Core.deliver (k : Core) (d : Dest) (v : Nat) : Core :=
  match d with
  | .scalar r n signed => k.writeS r (extend n signed v)
  | .vector r => k.writeV r (BitVec.ofNat 512 v)
  | .broadcast r old mask n => k.writeV r (spread old mask n v)

/-- The destination waits for an answer. -/
def Core.await (k : Core) (d : Dest) : Core :=
  match d with
  | .scalar r _ _ => k.emptyS r
  | .vector r => k.emptyV r
  | .broadcast r _ _ _ => k.emptyV r

/-- The answer of load n has come: the empty version becomes full (R27). A load of a routine concerns the routine alone
(R84). -/
def Core.arrive (k : Core) (n : Nat) (d : Dest) (v : Nat) : Core :=
  let own : Bool := match k.routine with | some t => decide (t.firstPend ≤ n) | none => false
  let scalar (r : Reg) (x : Word) : Core := if own then k.fillOwnS r x else k.fillS r x
  let vector (r : Reg) (x : Vec) : Core := if own then k.fillOwnV r x else k.fillV r x
  match d with
  | .scalar r n signed => scalar r (extend n signed v)
  | .vector r => vector r (BitVec.ofNat 512 v)
  | .broadcast r old mask n => vector r (spread old mask n v)

/-- The same for a load of a younger iteration. -/
def Iter.arrive (y : Iter) (d : Dest) (v : Nat) : Iter :=
  match d with
  | .scalar r n signed => { y with sw := tset r.toNat { val := extend n signed v } y.sw }
  | .vector r => { y with vw := tset r.toNat { val := BitVec.ofNat 512 v } y.vw }
  | .broadcast r old mask n => { y with vw := tset r.toNat { val := spread old mask n v } y.vw }

/-! ## Loads -/

def Req.covers (r : Req) (p : Place) (a : Nat) : Bool :=
  decide (r.place = p) && decide (r.addr ≤ a) && decide (a < r.addr + r.size)

/-- The bits of byte a that are known, and its value, after a buffered store (R41, R281). -/
def Req.onByte (r : Req) (p : Place) (a : Nat) (x : Nat × Nat) : Nat × Nat :=
  if r.covers p a then
    match r.kind with
    | .nibble high => (x.1 ||| (if high then 0xF0 else 0x0F), setNibble high x.2 r.data.toNat)
    | _ => (255, r.data.toNat / 256 ^ (a - r.addr) % 256)
  else x

/-- The bits of a byte that the buffered stores give, and its value (R41). -/
def Core.forward (k : Core) (p : Place) (a : Nat) : Nat × Nat := k.sbuf.flatten.foldl (fun x r => r.onByte p a x) (0, 0)

def Req.isStore (r : Req) : Bool :=
  match r.kind with
  | .store | .nibble _ => true
  | _ => false

/-- A load or an atomic of the core to a line is on its way to its slice, or its answer is on the way back: a later load
follows it there (R249). -/
def State.lineBusy (s : State) (line : Nat) : Bool :=
  (s.flight.any fun r =>
      decide (r.src = s.cur) && decide (r.place = .hbm) && decide (r.addr / 128 = line) && !r.isStore) ||
    s.answers.any fun a => decide (a.dst = s.cur) && decide (a.from_ = some line)

/-- The core's L1 keeps no copy of a line whose newer contents a load returns past it (R249). -/
def State.passLine (s : State) (line : Nat) : State :=
  (s.noFill s.cur fun l => l = line).upd fun k => { k with l1d := terase line k.l1d }

/-- What the own scratchpad or an L1 line holds of a byte. -/
def State.heldByte (s : State) (useL1 : Bool) (p : Place) (a : Nat) : Option Nat :=
  match p with
  | .scratch c => if c = s.cur then some (memByte s.mem (scratchKey c a)).toNat else none
  | .hbm =>
    if useL1 && !s.lineBusy (a / 128) then (tfind (a / 128) s.core.l1d).map fun x => lineRead x (a % 128) 1 else none
  | _ => none

/-- The bits of a byte that a load finds without a request, and its value: buffered stores over the own scratchpad or an L1
line. -/
def State.localBits (s : State) (useL1 : Bool) (p : Place) (a : Nat) : Nat × Nat :=
  let f := s.core.forward p a
  if f.1 = 255 then f
  else
    match s.heldByte useL1 p a with
    | some b => (255, (b &&& (255 - f.1)) ||| (f.2 &&& f.1))
    | none => f

/-- The byte, when a load finds all of it. -/
def State.localByte (s : State) (useL1 : Bool) (p : Place) (a : Nat) : Option Nat :=
  let f := s.localBits useL1 p a
  if f.1 = 255 then some f.2 else none

/-- The load needs a poisoned granule of the own scratchpad (R441). -/
def State.poisonedLoad (s : State) (p : Piece) : Bool :=
  decide (p.place = .scratch s.cur) &&
    (List.range p.len).any fun i =>
      decide ((s.core.forward p.place (p.addr + i)).1 ≠ 255) && s.poisonIn (scratchKey s.cur (p.addr + i)) 1

/-- The bits of a piece that are found without a request, in the low bits. -/
def State.localPart (s : State) (useL1 : Bool) (p : Piece) : Nat :=
  ((List.range p.len).map fun i =>
    let f := s.localBits useL1 p.place (p.addr + i)
    (f.2 &&& f.1) * 256 ^ i).sum

/-- Those bits, as a mask. -/
def State.hiddenPart (s : State) (useL1 : Bool) (p : Piece) : Nat :=
  ((List.range p.len).map fun i => (s.localBits useL1 p.place (p.addr + i)).1 * 256 ^ i).sum

/-- The slice that a request for a line goes to (R218, R219). -/
def sliceOf (p : Place) (addr : Nat) (pte : Word) : Nat :=
  match p with
  | .hbm => homeSlice addr pte
  | .host => homeSlice addr 0#64
  | _ => 0

/-- The request for a piece, if a bit of it is not found without one. It reads the piece whole, so that a unit comes from one
read, and what the core has of it already is hidden (R221). -/
def State.loadReqs (s : State) (useL1 : Bool) (kind : ReqKind) (p : Piece) : List Req :=
  let hide := s.hiddenPart useL1 p
  if hide = 256 ^ p.len - 1 then []
  else
    let kind := if p.place = .hbm then kind else .load
    let near :=
      decide (p.place = .hbm) && (decide (kind = .ldro) || (decide (kind = .load) && useL1 && replicable p.pte)) &&
        decide (homeSlice p.addr p.pte ≠ clusterOf s.cur)
    [{ src := s.cur
       ctx := s.core.context.getD 64
       place := p.place
       addr := p.addr
       size := p.len
       kind := kind
       shift := 8 * p.off
       near := near
       fill := decide (p.place = .hbm) && useL1 && decide (kind = .load) && decide (0 < s.core.l1Lines)
       counted := wbit p.pte 8
       card := s.core.card
       va := BitVec.ofNat 64 p.va
       slice := if near then clusterOf s.cur else sliceOf p.place p.addr p.pte
       era := s.core.era
       hide := hide }]

/-- Adjacent pieces of one line become one (R179). -/
def coalesce : List Piece → List Piece
  | [] => []
  | p :: t =>
    match coalesce t with
    | q :: u =>
      if p.place = q.place ∧ p.pte = q.pte ∧ p.off + p.len = q.off ∧ p.addr + p.len = q.addr ∧ p.va + p.len = q.va ∧
          p.addr / 128 = q.addr / 128 then
        { p with len := p.len + q.len } :: u
      else p :: q :: u
    | [] => [p]

/-- The loads of an instruction go out; acc holds the bytes of the destination that the load does not replace. A line that
such a load does not fill is not kept, nor filled by an earlier load, which may have read it before (R249). -/
def State.sendLoads (s : State) (useL1 : Bool) (kind : ReqKind) (ps : List Piece) (d : Dest) (acc : Nat)
    (acquire : Option Scope) : State :=
  let have_ := acc + (ps.map fun p => s.localPart useL1 p * 256 ^ p.off).sum
  let rs := ps.flatMap fun p => s.loadReqs useL1 kind p
  if rs.isEmpty then s.upd fun k => k.deliver d have_
  else
    let n := s.core.nextPend
    let t := rs.foldl (fun (t : State) r => if decide (r.place = .hbm) && !r.fill then t.passLine (r.addr / 128) else t) s
    { t with
      core := { t.core.await d with
        pend := s.core.pend ++ [(n, { dest := d, acc := have_, left := rs.length, acquire := acquire })]
        nextPend := n + 1 }
      flight := t.flight ++ rs.map fun r => { r with pend := some n } }

/-- The first address of the engine window. -/
def windowVa : Nat := 0x0F00000000080000

/-- The load of some lanes (R179, R275 to R277). -/
def State.loadLanes (s : State) (kind : ReqKind) (lanes : List (Nat × Nat × Nat)) (d : Dest) (acc : Nat) : Out :=
  match s.plan .load lanes with
  | .trap c v => s.trap c (BitVec.ofNat 64 v)
  | .miss v => s.startWalk v .load
  | .blocked _ => s.stall
  | .go ps =>
    match ps.find? s.poisonedLoad with
    | some _ => .next (s.charge (s.core.context.getD 64) 0x3C0#10 s.cur)
    | none =>
      .next ((s.watchLanes .load lanes ps).sendLoads true kind (coalesce ps) d acc none).advance

/-! ## Stores -/

/-- The request of a piece of a store. -/
def State.storeReq (s : State) (kind : ReqKind) (strict : Bool) (data : Nat) (p : Piece) : Req :=
  { src := s.cur
    ctx := s.core.context.getD 64
    place := p.place
    addr := p.addr
    size := p.len
    kind := kind
    data := BitVec.ofNat 64 (data / 256 ^ p.off % 256 ^ p.len)
    counted := wbit p.pte 8
    strict := strict
    card := s.core.card
    va := BitVec.ofNat 64 p.va
    slice := sliceOf p.place p.addr p.pte
    order := if s.core.overlapped || s.core.routine.isSome then s.core.orderNo else 0
    era := s.core.era
    lane := BitVec.ofNat 64 p.va }

/-- Stores that are not buffered leave; those of the lanes of a vector store are performed in lane order (R179). -/
def State.putStores (s : State) (inLanes : Bool) (rs : List Req) : State :=
  if inLanes && !s.core.overlapped then
    (s.drain (rs.map fun r => { r with order := s.core.orderNo })).upd fun k => { k with orderNo := k.orderNo + 1 }
  else s.drain rs

/-- A piece cut at aligned 8-byte granules. -/
def granules (p : Piece) : List Piece :=
  let n := 8 - p.addr % 8
  if p.len ≤ n then [p]
  else [{ p with len := n }, { p with off := p.off + n, len := p.len - n, va := p.va + n, addr := p.addr + n }]

/-- The granules of a piece, counted from its first, that the pieces of a store write whole together though the piece alone
does not (R441). -/
def wholeGranules (ps : List Piece) (p : Piece) : List Nat :=
  if p.addr % 8 = 0 ∧ p.len % 8 = 0 then []
  else
    (List.range ((p.addr % 8 + p.len + 7) / 8)).filter fun g =>
      (List.range 8).all fun b =>
        let a := 8 * (p.addr / 8 + g) + b
        ps.any fun q => decide (q.place = p.place) && decide (q.addr ≤ a) && decide (a < q.addr + q.len)

/-- The entries of the iteration store buffer for a vector store: as many as the granules it writes (R179). Its requests
stay together in lane order, in the first. -/
def entriesOf (rs : List Req) : List (List Req) :=
  match ((rs.map fun r => (r.place, r.addr / 8)).eraseDups).length with
  | 0 => []
  | n + 1 => rs :: List.replicate n []

/-- A store inside an overlapped loop waits in the buffer; when the buffer is full, the buffered stores are written and
the iteration is committed (R41, log 4). The stores of a deferred instruction's routine wait in it without bound (log 13). -/
def State.buffer (s : State) (es : List (List Req)) (done : State → State) : Out :=
  if s.core.sbuf.length + es.length ≤ 64 ∨ s.core.routine.isSome then .next (done (s.upd fun k => { k with sbuf := k.sbuf ++ es }))
  else if s.flushable then .next (done (s.flush.upd fun k => { k with sbuf := k.sbuf ++ es }))
  else s.stall

/-- Instructions that execute only after the iteration's buffered stores have been written (R42). -/
def State.ordered (s : State) (body : State → Out) : Out :=
  if s.core.routine.isSome then body s
  else if !s.flushable then s.stall
  else if s.flush.core.outq.isEmpty then body s.flush
  else .next s.flush.rotate

/-- A write is held back by WB = 1 (R387). -/
def State.holdWrite (s : State) (va : Nat) : Out :=
  let since := match s.core.wb with | some b => b.since | none => s.time
  (s.upd fun k => { k with wb := some { va := BitVec.ofNat 64 va, since := since } }).stall

/-- A store that is not buffered: it waits for the interlock (R239), and for a journal entry if it needs one (R254), then
leaves. -/
def State.storeNow (s : State) (lanes : List (Nat × Nat × Nat)) (ps : List Piece) (rs : List Req) : Out :=
  if s.core.routine.isSome then s.buffer [rs] State.advance
  else if rs.any fun r => s.interlocked r then s.stall
  else if s.core.freeEntry.isNone && rs.any fun r => (s.remoteOwner r).isSome then
    (s.upd fun k => { k with fencing := false }).stall
  else .next ((s.watchLanes .store lanes ps).putStores (decide (1 < lanes.length)) rs).advance

/-- The store of some lanes (R179, R278): data holds the bytes of the operand. Watchpoints match a buffered store as it is
written (R413). -/
def State.storeLanes (s : State) (vector : Bool) (kind : ReqKind) (lanes : List (Nat × Nat × Nat)) (data : Nat) : Out :=
  match s.plan .store lanes with
  | .trap c v => s.trap c (BitVec.ofNat 64 v)
  | .miss v => s.startWalk v .store
  | .blocked v => s.holdWrite v
  | .go ps =>
    let req (p : Piece) : Req :=
      { s.storeReq kind false data p with
        whole := if vector then wholeGranules ps p else []
        lane := BitVec.ofNat 64 (laneOf lanes p) }
    let rs := ps.map req
    if s.core.overlapped && rs.all fun r => (s.remoteOwner r).isNone then
      s.buffer (if vector then entriesOf ((ps.flatMap granules).map req) else [rs]) State.advance
    else s.ordered fun s => s.storeNow lanes ps rs

/-! ## Releases and acquires (R250, R251, R255) -/

/-- A journal record of a refusal or timeout: the lowest cause (R255, R424). -/
def Core.journalCause (k : Core) : Option (Cause × Word) :=
  let f (st : Nat) := (List.range 32).find? fun i => decide ((tget i k.journal 0#32).toNat / 2 ^ 30 = st)
  match f 2 with
  | some i => some (BitVec.ofNat 10 (0x280 + i), (tget i k.journal 0#32).zeroExtend 64)
  | none => (f 3).map fun i => (BitVec.ofNat 10 (0x2A0 + i), (tget i k.journal 0#32).zeroExtend 64)

/-- Every journal entry is resolved: free, refused or timed out. -/
def Core.journalQuiet (k : Core) : Bool := k.journal.all fun r => decide (r.2.toNat / 2 ^ 30 ≠ 1)

/-- Every store and atomic of the core has been performed at its point. -/
def State.storesDone (s : State) : Bool :=
  s.core.outq.isEmpty &&
    s.flight.all fun r => r.src ≠ s.cur || decide (r.kind = .load) || decide (r.kind = .ldro) || r.late

/-- Every store of the core has been performed, those to host frames at host memory (R242, R247, R411). -/
def State.storesPerformed (s : State) : Bool := s.storesDone && s.hostq.all fun r => r.src ≠ s.cur

def wideScope (x : Scope) : Bool := decide (x ≠ .core)

/-- A release or fence waits until every journal entry is resolved; it then finds the records itself (R255, R424). -/
def State.awaitJournal (s : State) : Out := (s.upd fun k => { k with fencing := true }).stall

/-- What a release, FENCE or FENCE.W at a scope waits for (R251, R255), before its body: every earlier store performed. -/
def State.storesOut (s : State) (x : Scope) (body : Out) : Out :=
  if !wideScope x then body
  else if !s.core.journalQuiet then s.awaitJournal
  else
    match s.core.journalCause with
    | some (c, v) => s.trap c v
    | none => if s.storesDone then body else s.stall

/-- A release and a FENCE also wait for every earlier load (R250, R251). -/
def State.released (s : State) (x : Scope) (body : Out) : Out :=
  s.storesOut x (if !wideScope x || s.core.pend.isEmpty then body else s.stall)

/-- An acquire has performed: at CLU scope or wider no data line of the L1 stays, and none on its way is kept (R222). -/
def State.acquired (s : State) (x : Scope) : State :=
  if wideScope x then (s.noFill s.cur fun _ => true).upd fun k => { k with l1d := [] } else s

/-- An acquire waits for its answer; nothing issues meanwhile (R250). -/
def Core.acquiring (k : Core) : Bool := k.pend.any fun r => r.2.acquire.isSome

end Sys2Proof.Machine
end

