-- ==== Sys2Proof/Machine/Future.lean ====
section
/-! DEFINITION. Futures: handles, fulfilment and poisoning with everything they wake, release and refusal of cards that
wait, and the FUT instructions (R269, R270, R299, R301, R304 to R309, R353, R354). -/

namespace Sys2Proof.Machine

/-! ## Handles (R304) -/

def futIndex (h : Nat) : Nat := h % 2 ^ 20
def futGen (h : Nat) : Nat := h / 2 ^ 20 % 2 ^ 12
def handleOf (gen idx : Nat) : Nat := gen * 2 ^ 20 + idx

/-- A handle that names an entry of the table, of whatever generation. -/
def Context.validHandle (x : Context) (h : Nat) : Bool := decide (futGen h ≠ 0) && decide (futIndex h < x.futures)

def State.validHandle (s : State) (ctx h : Nat) : Bool :=
  match tfind ctx s.contexts with
  | some x => x.validHandle h
  | none => false

/-- A valid handle names the entry's present allocation. -/
def State.current (s : State) (ctx h : Nat) : Bool :=
  let e := s.fut ctx (futIndex h)
  decide (e.st ≠ 0) && decide (e.gen = futGen h)

/-! ## Cards that wait (R273, R301) -/

/-- Two regions of which the earlier holds back the later (R273). -/
def regionsConflict (a b : Region) : Bool :=
  decide (a.len ≠ 0) && decide (b.len ≠ 0) && overlaps a.base a.len b.base b.len &&
    ((decide (a.mode / 2 % 2 = 1) && decide (b.mode % 4 ≠ 0)) || (decide (a.mode % 2 = 1) && decide (b.mode / 2 % 2 = 1)))

/-- A footprint edge from an earlier card of the queue that is not complete holds card n. -/
def State.heldByEdge (s : State) (n : Nat) (k : Card) : Bool :=
  s.cards.any fun p =>
    decide (p.1 < n) && decide (p.2.queue = k.queue) &&
      p.2.regions.any fun a => k.regions.any fun b => regionsConflict a b

/-- Effective level (R303). -/
def State.level (s : State) (k : Card) : Nat := min 7 (k.prio + (s.time - k.releasedAt) / 10000000)

def drrKey (level agency : Nat) : Nat := 4096 * level + agency

/-- An agency with no card left to deal at a level has its deficit reset (R303). -/
def State.resetDeficits (s : State) : State :=
  { s with
    deficits := s.deficits.filter fun d =>
      s.cards.any fun p =>
        decide (p.2.state = .released) && decide (0 < p.2.rem) && decide (drrKey (s.level p.2) p.2.agency = d.1) }

/-- The cards that nothing holds any more are released (R301). -/
def State.markReleased (s : State) : State :=
  { s.resetDeficits with
    cards := s.cards.map fun p =>
      if p.2.state = .waiting ∧ p.2.preds = 0 ∧ !s.heldByEdge p.1 p.2 then
        (p.1, { p.2 with state := .released, releasedAt := s.time })
      else p }

/-! ## Fulfilment (R299, R301, R306 to R308) -/

/-- A future to fulfil or poison: context, index, new state, value. -/
abbrev FutWork := Nat × Nat × Nat × Nat

/-- The poisoning of a card's DONE, whose waiters are still to be woken, or the record that says it cannot be poisoned
(R299, R307). -/
def State.poisonDone (s : State) (ctx queue done cause : Nat) : State × List FutWork :=
  if done = 0 ∨ !s.validHandle ctx done then (s, [])
  else if s.current ctx done && decide ((s.fut ctx (futIndex done)).st = 1) then
    (s.setFut ctx (futIndex done) { s.fut ctx (futIndex done) with value := cause, st := 3 },
      [(ctx, futIndex done, 3, cause)])
  else (s.notify ctx 2 queue 0x308 done, [])

/-- A card is refused: its record is posted and its DONE is to be poisoned. -/
def State.refuse (s : State) (ctx queue resv done cause high : Nat) : State × List FutWork :=
  (s.notify ctx 2 queue cause (high * 2 ^ 32 + resv)).poisonDone ctx queue done cause

/-- The records by which card n waits are given up. -/
def State.dropWaits (s : State) (ctx n : Nat) : State :=
  (s.waiters.filter fun p => decide (p.2.who = .card n)).foldl (fun t p => t.unwait ctx p.2.fut p.1) s

/-- A waiting card is refused because a future it waits on is poisoned (R301). -/
def State.refuseCard (s : State) (n high : Nat) : State × List FutWork :=
  match tfind n s.cards with
  | none => (s, [])
  | some k =>
    (({ s with cards := terase n s.cards } : State).dropWaits k.ctx n).refuse k.ctx k.queue k.resv k.done 0x314 high

/-- One waiter is woken (R308). -/
def State.wake (st v : Nat) (p : State × List FutWork) (who : Waiter) : State × List FutWork :=
  match who with
  | .core c => (p.1.mapCore c fun k => { k with sleeping := none, futDone := some (BitVec.ofNat 64 v, st) }, p.2)
  | .card n =>
    if st = 2 then
      ({ p.1 with cards := p.1.cards.map fun q => if q.1 = n then (q.1, { q.2 with preds := q.2.preds - 1 }) else q }, p.2)
    else
      let r := p.1.refuseCard n v
      (r.1, p.2 ++ r.2)

/-- Fulfil or poison the futures of a work list, and those of the cards that are refused in turn. -/
def State.settleFutures : Nat → List FutWork → State → State
  | 0, _, s => s
  | _, [], s => s
  | n + 1, (ctx, i, st, v) :: work, s =>
    let e := s.fut ctx i
    let rs := s.waitList e.nwait e.whead
    let whos := rs.filterMap fun r => (tfind r s.waiters).map fun w => w.who
    let s := { s with waiters := s.waiters.filter fun p => !rs.contains p.1 }
    let s := s.setFut ctx i { e with value := v, st := st, nwait := 0, whead := 0, wtail := 0 }
    let r := whos.foldl (State.wake st v) (s, [])
    State.settleFutures n (work ++ r.2) r.1

/-- The replicas of a card are dropped (R223). -/
def State.dropReplicas (s : State) (n : Nat) : State :=
  { s with
    clusters := s.clusters.map fun p => (p.1, { p.2 with replicas := p.2.replicas.filter fun r => r.2.2 ≠ n }) }

/-- Card n is complete: its replicas go, its DONE is fulfilled with COUNT, its record is posted (R223, R300, R307). -/
def State.cardDone (s : State) (n : Nat) (k : Card) : State :=
  let s := ({ s with cards := terase n s.cards } : State).dropReplicas n
  let s :=
    if k.done = 0 then s
    else if s.validHandle k.ctx k.done && s.current k.ctx k.done && decide ((s.fut k.ctx (futIndex k.done)).st = 1) then
      State.settleFutures (s.cards.length + 2) [(k.ctx, futIndex k.done, 2, k.count)] s
    else s.notify k.ctx 2 k.queue 0x308 k.done
  (if k.note then s.notify k.ctx 3 k.queue 0 k.done else s).countCtx k.ctx 8 1

/-- The cards that nothing holds any more are released, and those of them with COUNT = 0 complete at once (R300). -/
def State.releaseSome : Nat → State → State
  | 0, s => s.markReleased
  | n + 1, s =>
    let t := s.markReleased
    match t.cards.find? fun p => decide (p.2.state = .released) && decide (p.2.count = 0) with
    | some (c, k) => State.releaseSome n (t.cardDone c k)
    | none => t

def State.releaseCards (s : State) : State := State.releaseSome s.cards.length s

/-- The work list is done, and the cards that it frees are released. -/
def State.settle (s : State) (work : List FutWork) : State := (State.settleFutures (s.cards.length + 2) work s).releaseCards

/-- An engine fulfils (st 2) or poisons (st 3) the future h for work that core c issued (R307). -/
def State.engineFulfil (s : State) (c : CoreId) (ctx h st v : Nat) : State :=
  if h = 0 then s
  else if s.validHandle ctx h && s.current ctx h && decide ((s.fut ctx (futIndex h)).st = 1) then
    s.settle [(ctx, futIndex h, st, v)]
  else s.mapCore c fun k => k.pendAsync 0x308#10 (BitVec.ofNat 64 h)

/-- Allocation of entry i: the next generation, empty (R306). -/
def State.allocFut (s : State) (ctx i : Nat) : State × Nat :=
  let e := s.fut ctx i
  let gen := if e.gen = 4095 then 1 else e.gen + 1
  (s.setFut ctx i { value := 0, st := 1, gen := gen, nwait := 0, whead := 0, wtail := 0 }, handleOf gen i)

/-- Entry i becomes free and joins the tail of the free list (R306). -/
def State.freeFut (s : State) (ctx i : Nat) : State :=
  (s.setFut ctx i { s.fut ctx i with st := 0 }).mapCtx ctx fun x => { x with freeFutures := x.freeFutures ++ [i] }

/-- The write log has room for the entry of handle h, if its line is still to be logged (R437). -/
def State.futRoom (s : State) (ctx h : Nat) : Bool := s.canLog ctx (s.futAddr ctx (futIndex h))

/-! ## The FUT instructions (R353) -/

def State.ctxNo (s : State) : Nat := s.core.context.getD 64

/-- The handle in a source register: its low 32 bits. -/
def handleIn (x : Word) : Nat := x.toNat % 2 ^ 32

/-- A trap of class 12 whose TRAPVAL is the handle (R423). -/
def State.futTrap (s : State) (c : Cause) (h : Nat) : Out := s.trap c (BitVec.ofNat 64 h)

/-- The checks of a handle: invalid (with 0), then stale. -/
def State.withHandle (s : State) (h : Nat) (body : FutEntry → Out) : Out :=
  if !s.validHandle s.ctxNo h then s.futTrap 0x300#10 h
  else if !s.current s.ctxNo h then s.futTrap 0x301#10 h
  else body (s.fut s.ctxNo (futIndex h))

def execFnew (d : Reg) (s : State) : Out :=
  s.issue { ds := [d] }
    (s.ordered fun s =>
      match s.curCtx.bind fun x => x.freeFutures.head? with
      | none => s.trap 0x304#10 0#64
      | some i =>
        if !s.canLog s.ctxNo (s.futAddr s.ctxNo i) then s.stall
        else
        let r := s.allocFut s.ctxNo i
        let s := r.1.mapCtx s.ctxNo fun x => { x with freeFutures := x.freeFutures.tail }
        .next (s.setS d (BitVec.ofNat 64 r.2)).advance)

/-- FPUT and FPOIS: releases at PKG scope that settle an empty future (R354). -/
def State.futSet (s : State) (h st v : Nat) : Out :=
  if !s.validHandle s.ctxNo h then s.futTrap 0x300#10 h
  else
    s.released .pkg
      (s.withHandle h fun e =>
        if e.st ≠ 1 then s.futTrap 0x302#10 h
        else if !s.futRoom s.ctxNo h then s.stall
        else .next (s.settle [(s.ctxNo, futIndex h, st, v)]).advance)

def execFput (a b : Reg) (s : State) : Out :=
  let h := handleIn (s.src a 0)
  let v := (s.src b 0).toNat
  s.issue { ss := [(a, 0), (b, 0)] } (s.ordered fun s => s.futSet h 2 v)

def execFpois (a b : Reg) (s : State) : Out :=
  let h := handleIn (s.src a 0)
  let v := wfield (s.src b 0) 0 10
  s.issue { ss := [(a, 0), (b, 0)] } (s.ordered fun s => s.futSet h 3 v)

/-- The two results of FGET and FTRY on a future that is full or poisoned: an acquire at PKG scope (R354). -/
def State.futResult (s : State) (d b : Reg) (v : Word) (st : Nat) : Out :=
  .next (((s.acquired .pkg).setS d v).setS b (BitVec.ofNat 64 st)).advance

def execFget (d a b : Reg) (s : State) : Out :=
  let h := handleIn (s.src a 0)
  s.issue { ss := [(a, 0)], ds := [d, b] }
    (s.ordered fun s =>
      match s.core.futDone with
      | some (v, st) => (s.upd fun k => { k with futDone := none }).futResult d b v st
      | none =>
        if s.core.sleeping.isSome || s.core.rechecking then s.waits
        else
          s.withHandle h fun e =>
            if e.st ≠ 1 then s.futResult d b (BitVec.ofNat 64 e.value) e.st
            else if !s.futRoom s.ctxNo h then s.stall
            else
              match s.freeWaiter with
              | none => (s.upd fun k => { k with rechecking := true }).waits
              | some n =>
                ((s.addWaiter s.ctxNo (futIndex h) n (.core s.cur)).upd fun k =>
                  { k with sleeping := some (futIndex h, n) }).waits)

def execFtry (d a b : Reg) (s : State) : Out :=
  let h := handleIn (s.src a 0)
  s.issue { ss := [(a, 0)], ds := [d, b] }
    (s.ordered fun s =>
      s.withHandle h fun e =>
        if e.st = 1 then .next ((s.setS d 0#64).setS b 1#64).advance
        else s.futResult d b (BitVec.ofNat 64 e.value) e.st)

def execFfree (a : Reg) (s : State) : Out :=
  let h := handleIn (s.src a 0)
  s.issue { ss := [(a, 0)] }
    (s.ordered fun s =>
      s.withHandle h fun e =>
        if e.st = 1 ∧ e.nwait ≠ 0 then s.futTrap 0x303#10 h
        else if !s.futRoom s.ctxNo h then s.stall
        else .next (s.freeFut s.ctxNo (futIndex h)).advance)

/-- The waiting card of the context whose DONE is g, the earliest if several (R309). -/
def State.heldCard (s : State) (ctx g : Nat) : Option Nat :=
  if g = 0 then none
  else
    ((s.cards.filter fun p => p.2.state = .waiting && decide (p.2.ctx = ctx) && decide (p.2.done = g)).map
      fun p => p.1).min?

def execFlink (d a b : Reg) (s : State) : Out :=
  let f := handleIn (s.src a 0)
  let g := handleIn (s.src b 0)
  s.issue { ss := [(a, 0), (b, 0)], ds := [d] }
    (s.ordered fun s =>
      let ctx := s.ctxNo
      let done (t : State) (x : Nat) : Out := .next (t.setS d (BitVec.ofNat 64 x)).advance
      if !s.validHandle ctx f then s.futTrap 0x300#10 f
      else if g ≠ 0 ∧ !s.validHandle ctx g then s.futTrap 0x300#10 g
      else
        s.withHandle f fun e =>
          match (if s.current ctx g then s.heldCard ctx g else none) with
          | none => done s 2
          | some n =>
            if e.st = 2 then done s 1
            else if e.st = 3 then
              let r := s.refuseCard n e.value
              done (r.1.settle r.2) 3
            else if !s.futRoom ctx f then s.stall
            else
              match s.freeWaiter with
              | none => s.stall
              | some w =>
                let t := s.addWaiter ctx (futIndex f) w (.card n)
                done
                  { t with
                    cards := t.cards.map fun q => if q.1 = n then (q.1, { q.2 with preds := q.2.preds + 1 }) else q }
                  0)

/-- WAITER_RECHECK (R308): an FGET that found no free record looks at its future again. -/
def execWaiterRecheck (c : Nat) (s : State) : Out :=
  if (s.getCore c).rechecking then .next (s.mapCore c fun k => { k with rechecking := false })
  else .refused (.notEnabled "WAITER_RECHECK")

end Sys2Proof.Machine
end

