-- ==== Sys2Proof/Machine/Image.lean ====
section
/-! DEFINITION. Reading an image or a message of many bytes within one instruction: decode tables, PPU images, KDO images,
match tables, beads and channel messages (R195, R207, R321, R359, R367; log 12). -/

namespace Sys2Proof.Machine

/-- The accesses of n bytes at va. -/
def blockAccesses (va n : Nat) : List (Nat × Nat × Nat) :=
  (List.range ((n + 127) / 128)).map fun i => (va + 128 * i, min 128 (n - 128 * i), 128 * i)

/-- The granules of n bytes at va: offset and length. -/
def granulesOf (va n : Nat) : List (Nat × Nat) :=
  let r := va % 8
  ((List.range ((n + r + 7) / 8)).map fun i =>
    let lo := 8 * i - r
    (lo, min n (8 * (i + 1) - r) - lo)).filter fun x => x.2 ≠ 0

/-- A store of core c on its way to one of n bytes; with loads, a load of one too. One of any core in the endpoint's transmit
order counts. -/
def State.storeNear (s : State) (c : CoreId) (loads : Bool) (place : Place) (addr n : Nat) : Bool :=
  (s.getCore c).outq.any (fun r => decide (r.place = place) && overlaps r.addr r.size addr n) ||
    (decide (place = .host) && s.hostNear addr n) ||
    s.flight.any fun r =>
      decide (r.src = c) && (loads || (decide (r.kind ≠ .load) && decide (r.kind ≠ .ldro))) && decide (r.place = place) &&
        overlaps r.addr r.size addr n

/-- The poison that a read of the piece meets (R441). -/
def State.poisonAt (s : State) (p : Piece) : Bool := s.poisonIn (keyOf p.place p.addr) p.len

/-- What the reckoning and the access counters note of a read (R385, R388). -/
def State.noteRead (s : State) (ctx : Nat) (place : Place) (addr n : Nat) (pte : Word) : State :=
  match place with
  | .scratch _ => s
  | .hbm => s.countHbm ctx
  | .host => let s := s.countCtx ctx 4 128; if wbit pte 8 then s.countAccess ctx addr else s
  | .peer => s.countCtx ctx 5 n

/-- n bytes at a place, as memory holds them. -/
def State.placeBytes (s : State) (place : Place) (addr n : Nat) : List Byte := memReadBytes s.mem (keyOf place addr) n

/-- The near slice serves the piece: a read of a replicable line, which is not in L1, past a home slice elsewhere (R223). -/
def State.viaNear (s : State) (p : Piece) : Bool :=
  decide (p.place = .hbm) && replicable p.pte && decide (homeSlice p.addr p.pte ≠ clusterOf s.cur) &&
    (tfind (p.addr / 128) s.core.l1d).isNone

/-- The bytes of a piece: by the core's own view of its lines, or as memory holds them. -/
def State.pieceBytes (s : State) (lines : Bool) (p : Piece) : List Byte :=
  if !lines then s.placeBytes p.place p.addr p.len
  else
    (List.range p.len).map fun i =>
      match s.localByte true p.place (p.addr + i) with
      | some b => BitVec.ofNat 8 b
      | none =>
        if s.viaNear p then
          BitVec.ofNat 8
            (lineRead (s.nearLine s.cur s.core.card (p.addr / 128) (homeSlice p.addr p.pte)).1 (p.addr % 128 + i) 1)
        else memByte s.mem (keyOf p.place (p.addr + i))

/-- The replica that the near slice keeps of a piece's line (R223). -/
def State.keepNear (s : State) (p : Piece) : State :=
  if s.viaNear p then (s.nearLine s.cur s.core.card (p.addr / 128) (homeSlice p.addr p.pte)).2 else s

/-- The watchpoints against an access that core c's engines perform: those of c, and those of the owner of another
scratchpad (R413). -/
def State.watchEngine (s : State) (c : CoreId) (acc : Access) (place : Place) (addr n va : Nat) : State :=
  match place with
  | .scratch o =>
    if o = c then s.watchServed c acc true addr n c (BitVec.ofNat 64 va)
    else
      (s.watchServed c acc false va n c (BitVec.ofNat 64 va)).watchServed o acc true addr n c (BitVec.ofNat 64 va)
  | _ => s.watchServed c acc false va n c (BitVec.ofNat 64 va)

/-- The watchpoints against a read of some pieces, by the core's engines or by its instruction. -/
def State.watchRead (s : State) (engine : Bool) (ps : List Piece) : State :=
  if engine then ps.foldl (fun t p => t.watchEngine t.cur .load p.place p.addr p.len p.va) s
  else
    ps.foldl
      (fun t p =>
        match p.place with
        | .scratch c => if c = t.cur then t else t.watchServed c .load true p.addr p.len t.cur (BitVec.ofNat 64 p.va)
        | _ => t)
      (s.watchPieces .load (ps.map fun p => (p.va, p)))

/-- An earlier access of the core to the piece is still on its way: a store, or with lines another access of a line that the
core may hold (R234, R238, R249). -/
def State.pieceBusy (s : State) (lines : Bool) (p : Piece) : Bool :=
  s.storeNear s.cur lines p.place p.addr p.len || (lines && decide (p.place = .hbm) && s.lineBusy (p.addr / 128))

/-- The bytes of an image, those granules in their place that were read before (R257). -/
def Core.overlay (k : Core) (l : List Byte) : List Byte :=
  if k.imgGot.isEmpty then l
  else
    ((List.range l.length).zip l).map fun x =>
      match tfind (x.1 / 8) k.imgGot with
      | some b => b.getD (x.1 % 8) 0#8
      | none => x.2

/-- Granule g of an image of n bytes is read before the others. -/
def State.readGranule (s : State) (g n : Nat) (rest : List Nat) (l : List Byte) : State :=
  s.upd fun k =>
    { k with
      imgOrder := rest
      imgGot := if 8 * g < n then tset g ((l.drop (8 * g)).take 8) k.imgGot else k.imgGot }

/-- Read n bytes at va and go on with them: faults are precise, and a store of the core to one of the bytes comes first. The
watchpoints see the read as one of the core's engines or of its instruction (R413). With lines it is performed as loads of
the core (R238). The bytes are read at once, but for the granules that the device
reads before (R257, log 12). -/
def State.readImage (s : State) (engine lines : Bool) (va n : Nat) (body : State → List Byte → Out) : Out :=
  match s.plan .load (blockAccesses va n) with
  | .trap c v => s.trap c (BitVec.ofNat 64 v)
  | .miss v => s.startWalk v .load
  | .blocked _ => s.stall
  | .go l =>
    let ps := coalesce l
    if ps.any (s.pieceBusy lines) then s.stall
    else
      match ps.find? s.poisonAt with
      | some p => .next (s.chargeAt (s.core.context.getD 64) p.place p.addr p.len)
      | none =>
        let bytes := ps.flatMap (s.pieceBytes lines)
        match s.core.imgOrder with
        | g :: rest => (s.readGranule g n rest bytes).stall
        | [] =>
          let t := if lines then ps.foldl State.keepNear s else s
          let t := t.watchRead engine ps
          let t := ps.foldl (fun t p => t.noteRead (t.core.context.getD 64) p.place p.addr p.len p.pte) t
          body t (s.core.overlay bytes)

/-- n bytes at va with no effect, if every translation is at hand and no earlier access of the core to them is on its way. -/
def State.peekImage (s : State) (va n : Nat) : Option (List Byte) :=
  match s.plan .load (blockAccesses va n) with
  | .go l =>
    if (coalesce l).any (s.pieceBusy true) then none
    else some (s.core.overlay ((coalesce l).flatMap (s.pieceBytes true)))
  | _ => none

/-- Byte i of an image. -/
def imgByte (l : List Byte) (i : Nat) : Nat := (l.getD i 0#8).toNat

/-- The little-endian number of n bytes from byte i of an image. -/
def imgNat (l : List Byte) (i n : Nat) : Nat := bytesNat ((l.drop i).take n)

end Sys2Proof.Machine
end

