-- ==== Sys2Proof/Machine/Flags.lean ====
section
/-! DEFINITION. Floating-point values, their one rounding, and the FFLAGS bits (R113 to R117, R165, R166). -/

namespace Sys2Proof.Machine

/-- A binary format: width, exponent bits, fraction bits (R114). -/
structure Fmt where
  w : Nat
  eb : Nat
  mb : Nat
deriving DecidableEq, Repr

def fmt64 : Fmt := { w := 64, eb := 11, mb := 52 }
def fmt32 : Fmt := { w := 32, eb := 8, mb := 23 }
def fmtBF : Fmt := { w := 16, eb := 8, mb := 7 }
def fmt16 : Fmt := { w := 16, eb := 5, mb := 10 }

def Fmt.bias (f : Fmt) : Nat := 2 ^ (f.eb - 1) - 1
/-- Exponent of the least fraction bit of a subnormal. -/
def Fmt.emin (f : Fmt) : Int := 1 - (f.bias : Int) - f.mb
def Fmt.infBits (f : Fmt) : Nat := (2 ^ f.eb - 1) * 2 ^ f.mb
def Fmt.signBit (f : Fmt) : Nat := 2 ^ (f.w - 1)
/-- The canonical quiet NaN (R116). -/
def Fmt.nan (f : Fmt) : Nat := f.infBits + 2 ^ (f.mb - 1)
def Fmt.maxFinite (f : Fmt) : Nat := f.infBits - 1

/-- A floating-point value: a finite one is m * 2^e with a sign. -/
inductive Fl where
  | nan (neg signalling : Bool)
  | inf (neg : Bool)
  | fin (neg : Bool) (m : Nat) (e : Int)
deriving DecidableEq, Repr

/-- The value of a bit pattern. -/
def Fmt.val (f : Fmt) (x : Nat) : Fl :=
  let neg := x.testBit (f.w - 1)
  let ex := field x f.mb f.eb
  let mant := field x 0 f.mb
  if ex = 2 ^ f.eb - 1 then
    if mant = 0 then .inf neg else .nan neg (!x.testBit (f.mb - 1))
  else if ex = 0 then .fin neg mant f.emin
  else .fin neg (2 ^ f.mb + mant) (f.emin + (ex - 1 : Nat))

def Fl.isNan : Fl → Bool
  | .nan _ _ => true
  | _ => false
def Fl.signals : Fl → Bool
  | .nan _ b => b
  | _ => false
def Fl.isZero : Fl → Bool
  | .fin _ m _ => m = 0
  | _ => false
def Fl.isInf : Fl → Bool
  | .inf _ => true
  | _ => false
def Fl.neg : Fl → Bool
  | .nan b _ => b
  | .inf b => b
  | .fin b _ _ => b
def Fl.flip : Fl → Fl
  | .nan b q => .nan (!b) q
  | .inf b => .inf !b
  | .fin b m e => .fin (!b) m e

/-- FFLAGS bits (R117). -/
def flagNX : Nat := 1
def flagUF : Nat := 2
def flagOF : Nat := 4
def flagDZ : Nat := 8
def flagNV : Nat := 16
def flagPCL : Nat := 64
def flagSAT : Nat := 128

/-- A result: its bits and the flags it sets. -/
structure FRes where
  bits : Nat
  flags : Nat := 0
deriving DecidableEq, Repr

def bitLen (m : Nat) : Nat := if m = 0 then 0 else Nat.log2 m + 1

/-- m / 2^k rounded to an integer in mode rm, and whether it is inexact (R115). -/
def roundShift (rm : Nat) (neg : Bool) (m k : Nat) : Nat × Bool :=
  let q := m / 2 ^ k
  let r := m % 2 ^ k
  let up :=
    if rm = 0 then decide (2 ^ k < 2 * r) || (decide (2 * r = 2 ^ k) && decide (q % 2 = 1))
    else if rm = 1 then false
    else if rm = 2 then decide (r ≠ 0) && !neg
    else decide (r ≠ 0) && neg
  (if up then q + 1 else q, decide (r ≠ 0))

/-- The same for a scale k that may be negative. -/
def roundAt (rm : Nat) (neg : Bool) (m : Nat) (k : Int) : Nat × Bool :=
  if k ≤ 0 then (m * 2 ^ (-k).toNat, false) else roundShift rm neg m k.toNat

def Fmt.signed (f : Fmt) (neg : Bool) (x : Nat) : Nat := if neg then f.signBit + x else x

/-- An overflow in mode rm (R115). -/
def Fmt.overflow (f : Fmt) (rm : Nat) (neg : Bool) : FRes :=
  let toInf := rm = 0 ∨ (rm = 2 ∧ ¬neg) ∨ (rm = 3 ∧ neg)
  { bits := f.signed neg (if toInf then f.infBits else f.maxFinite), flags := flagOF + flagNX }

/-- The one rounding of the exact value m * 2^e (R115); tininess is detected after rounding (R116). -/
def Fmt.round (f : Fmt) (rm : Nat) (neg : Bool) (m : Nat) (e : Int) : FRes :=
  if m = 0 then { bits := f.signed neg 0 }
  else
    let p := f.mb + 1
    let q0 : Int := e + bitLen m - p
    let q : Int := max q0 f.emin
    let (m1, inexact) := roundAt rm neg m (q - e)
    let bits := (q - f.emin).toNat * 2 ^ f.mb + m1
    if f.infBits ≤ bits then f.overflow rm neg
    else
      let (m2, _) := roundAt rm neg m (q0 - e)
      let tiny := decide (q0 < f.emin) && !(decide (m2 = 2 ^ p) && decide (q0 + 1 = f.emin))
      { bits := f.signed neg bits
        flags := (if inexact then flagNX else 0) + (if tiny && inexact then flagUF else 0) }

def Fmt.nanRes (f : Fmt) (invalid : Bool) : FRes := { bits := f.nan, flags := if invalid then flagNV else 0 }

/-- The integer of a finite value at the scale 2^e0. -/
def alignTo (neg : Bool) (m : Nat) (e e0 : Int) : Int :=
  let x : Int := (m * 2 ^ (e - e0).toNat : Nat)
  if neg then -x else x

/-- An exact zero sum of operands of opposite sign (R116). -/
def zeroSum (rm : Nat) : Bool := rm == 3

/-- x + y, where invalid is an NV already found. -/
def Fmt.addVal (f : Fmt) (rm : Nat) (x y : Fl) (invalid : Bool) : FRes :=
  match x, y with
  | .nan _ _, _ => f.nanRes (invalid || x.signals || y.signals)
  | _, .nan _ _ => f.nanRes (invalid || y.signals)
  | .inf a, .inf b => if a = b then { bits := f.signed a f.infBits } else f.nanRes true
  | .inf a, _ => { bits := f.signed a f.infBits }
  | _, .inf b => { bits := f.signed b f.infBits }
  | .fin a m1 e1, .fin b m2 e2 =>
    let e0 := min e1 e2
    let z := alignTo a m1 e1 e0 + alignTo b m2 e2 e0
    if z = 0 then { bits := f.signed (if a = b then a else zeroSum rm) 0 }
    else f.round rm (decide (z < 0)) z.natAbs e0

/-- The exact product of two values that are not NaN; none is an infinity times zero. -/
def mulVal (x y : Fl) : Option Fl :=
  match x, y with
  | .nan a s, _ => some (.nan a s)
  | _, .nan a s => some (.nan a s)
  | .inf a, .inf b => some (.inf (a != b))
  | .inf a, .fin b m _ => if m = 0 then none else some (.inf (a != b))
  | .fin a m _, .inf b => if m = 0 then none else some (.inf (a != b))
  | .fin a m1 e1, .fin b m2 e2 => some (.fin (a != b) (m1 * m2) (e1 + e2))

def Fmt.roundVal (f : Fmt) (rm : Nat) (x : Fl) : FRes :=
  match x with
  | .nan _ s => f.nanRes s
  | .inf a => { bits := f.signed a f.infBits }
  | .fin a m e => f.round rm a m e

/-! ## The operations of R165 -/

def Fmt.add (f : Fmt) (rm a b : Nat) : FRes := f.addVal rm (f.val a) (f.val b) false
def Fmt.sub (f : Fmt) (rm a b : Nat) : FRes := f.addVal rm (f.val a) (f.val b).flip false

def Fmt.mul (f : Fmt) (rm a b : Nat) : FRes :=
  let x := f.val a
  let y := f.val b
  if x.isNan ∨ y.isNan then f.nanRes (x.signals || y.signals)
  else
    match mulVal x y with
    | none => f.nanRes true
    | some z => f.roundVal rm z

/-- a * b + d, rounded once; an infinite factor times a zero factor is invalid whatever d holds. -/
def Fmt.fma (f : Fmt) (rm a b d : Nat) : FRes :=
  let x := f.val a
  let y := f.val b
  let z := f.val d
  let sig := x.signals || y.signals || z.signals
  if x.isNan ∨ y.isNan then f.nanRes sig
  else
    match mulVal x y with
    | none => f.nanRes true
    | some p => f.addVal rm p z sig

def Fmt.div (f : Fmt) (rm a b : Nat) : FRes :=
  let x := f.val a
  let y := f.val b
  let neg := x.neg != y.neg
  match x, y with
  | .nan _ _, _ => f.nanRes (x.signals || y.signals)
  | _, .nan _ _ => f.nanRes y.signals
  | .inf _, .inf _ => f.nanRes true
  | .inf _, _ => { bits := f.signed neg f.infBits }
  | _, .inf _ => { bits := f.signed neg 0 }
  | .fin _ m1 e1, .fin _ m2 e2 =>
    if m2 = 0 then
      if m1 = 0 then f.nanRes true else { bits := f.signed neg f.infBits, flags := flagDZ }
    else
      let k := f.mb + 4 + bitLen m2
      let n := m1 * 2 ^ k
      f.round rm neg (2 * (n / m2) + (if n % m2 = 0 then 0 else 1)) (e1 - e2 - k - 1)

/-- Integer square root, one bit for each unit of fuel. -/
def isqrt : Nat → Nat → Nat
  | 0, _ => 0
  | n + 1, x =>
    let r := 2 * isqrt n (x / 4)
    if (r + 1) * (r + 1) ≤ x then r + 1 else r

def Fmt.sqrt (f : Fmt) (rm a : Nat) : FRes :=
  match f.val a with
  | .nan _ s => f.nanRes s
  | .inf neg => if neg then f.nanRes true else { bits := f.infBits }
  | .fin neg m e =>
    if m = 0 then { bits := f.signed neg 0 }
    else if neg then f.nanRes true
    else
      let k := f.mb + 4
      let (m, e) := if e % 2 = 0 then (m, e) else (2 * m, e - 1)
      let n := m * 2 ^ (2 * k)
      let r := isqrt (bitLen n) n
      f.round rm false (2 * r + (if r * r = n then 0 else 1)) (e / 2 - k - 1)

/-- x < y for values that are not NaN; both zeros are equal. -/
def Fl.lt (x y : Fl) : Bool :=
  match x, y with
  | .nan _ _, _ => false
  | _, .nan _ _ => false
  | .inf a, .inf b => a && !b
  | .inf a, .fin _ _ _ => a
  | .fin _ _ _, .inf b => !b
  | .fin a m1 e1, .fin b m2 e2 =>
    let e0 := min e1 e2
    decide (alignTo a m1 e1 e0 < alignTo b m2 e2 e0)

def Fl.eq (x y : Fl) : Bool := !x.isNan && !y.isNan && !x.lt y && !y.lt x

/-- x comes before y in the order of minimumNumber, where -0 < +0. -/
def Fl.before (x y : Fl) : Bool := x.lt y || (x.eq y && x.neg && !y.neg)

/-- FMIN, or FMAX with the order reversed (R165). -/
def Fmt.minmax (f : Fmt) (max : Bool) (a b : Nat) : FRes :=
  let x := f.val a
  let y := f.val b
  let fl := if x.signals || y.signals then flagNV else 0
  if x.isNan then { bits := if y.isNan then f.nan else b, flags := fl }
  else if y.isNan then { bits := a, flags := fl }
  else { bits := if (if max then y.before x else x.before y) then a else b }

def boolRes (b nv : Bool) : FRes := { bits := if b then 1 else 0, flags := if nv then flagNV else 0 }

def Fmt.feq (f : Fmt) (a b : Nat) : FRes := boolRes ((f.val a).eq (f.val b)) ((f.val a).signals || (f.val b).signals)
def Fmt.flt (f : Fmt) (a b : Nat) : FRes := boolRes ((f.val a).lt (f.val b)) ((f.val a).isNan || (f.val b).isNan)
def Fmt.fle (f : Fmt) (a b : Nat) : FRes :=
  let x := f.val a
  let y := f.val b
  boolRes (x.lt y || x.eq y) (x.isNan || y.isNan)

/-- The class bit of R166. -/
def Fmt.fclass (f : Fmt) (a : Nat) : Nat :=
  let normal := decide (field a f.mb f.eb ≠ 0)
  2 ^
    (match f.val a with
     | .nan _ s => if s then 8 else 9
     | .inf neg => if neg then 0 else 7
     | .fin neg m _ =>
       if m = 0 then (if neg then 3 else 4)
       else if normal then (if neg then 1 else 6)
       else if neg then 2 else 5)

/-- A value rounded to a signed integer of n bits (R166): the bits and the flags. -/
def Fmt.toInt (f : Fmt) (rm n a : Nat) : FRes :=
  let top := 2 ^ (n - 1) - 1
  let low := 2 ^ (n - 1)
  match f.val a with
  | .nan _ _ => { bits := 0, flags := flagNV }
  | .inf neg => { bits := if neg then low else top, flags := flagNV }
  | .fin neg m e =>
    let (r, inexact) := roundAt rm neg m (-e)
    if neg then
      if low < r then { bits := low, flags := flagNV }
      else { bits := (2 ^ n - r) % 2 ^ n, flags := if inexact then flagNX else 0 }
    else if top < r then { bits := top, flags := flagNV }
    else { bits := r, flags := if inexact then flagNX else 0 }

/-- A signed integer rounded to a format. -/
def Fmt.ofInt (f : Fmt) (rm : Nat) (x : Int) : FRes := f.round rm (decide (x < 0)) x.natAbs 0

/-- A conversion between formats. -/
def Fmt.convert (src dst : Fmt) (rm a : Nat) : FRes := dst.roundVal rm (src.val a)

/-- VFABS and VFNEG (R169): a NaN gives the canonical NaN. -/
def Fmt.abs (f : Fmt) (a : Nat) : FRes :=
  if (f.val a).isNan then f.nanRes (f.val a).signals else { bits := a % f.signBit }
def Fmt.negate (f : Fmt) (a : Nat) : FRes :=
  if (f.val a).isNan then f.nanRes (f.val a).signals else { bits := (a + f.signBit) % 2 ^ f.w }

end Sys2Proof.Machine
end

