-- ==== Sys2Proof/Machine/Codes.lean ====
section
/-! DEFINITION. The internal e8m10 values, decode tables with their check, encoding and decoding, block scales, and the
piecewise-polynomial unit (R118, R119, R124 to R132, R153, R156, R157, R176). -/

namespace Sys2Proof.Machine

/-! ## e8m10 (R118, R119) -/

/-- The value of an e8m10 pair of exponent and mantissa fields. -/
def e8m10 (neg : Bool) (exp mant : Nat) : Fl :=
  if exp = 0 then .fin neg mant (-136) else .fin neg (1024 + mant) ((exp : Int) - 137)

/-- A finite value rounded to the e8m10 grid, to nearest even; it always fits (R119). -/
def toE8m10 (x : Fl) : Fl :=
  match x with
  | .fin neg m e =>
    let q : Int := max (e + bitLen m - 11) (-136)
    .fin neg (roundAt 0 neg m (q - e)).1 q
  | y => y

/-! ## Tables (R124 to R126) -/

/-- The entry of code c. -/
def DecTab.entry (t : DecTab) (c : Nat) : Word32 := tget c t.entries 0#32

def entryClass (e : Word32) : Nat := field e.toNat 30 2
def entrySign (e : Word32) : Bool := e.getLsbD 29
def entryExp (e : Word32) : Nat := field e.toNat 21 8
def entryMant (e : Word32) : Nat := field e.toNat 11 10

/-- What an entry stands for (R126). -/
def entryVal (e : Word32) : Fl :=
  if entryClass e = 0 then e8m10 (entrySign e) (entryExp e) (entryMant e)
  else if entryClass e = 1 then .inf (entrySign e)
  else .nan false false

/-- How many codes the table has (R125). -/
def DecTab.size (t : DecTab) : Nat := if t.four then 16 else 256

/-- Bits of a code. -/
def DecTab.codeBits (t : DecTab) : Nat := if t.four then 4 else 8

/-- Decoding (R126): in 4-bit mode only the low four bits are used. -/
def DecTab.decode (t : DecTab) (c : Nat) : Fl := entryVal (t.entry (c % t.size))

/-- The codes in the order of the mode's rules: the positive half, or signed order (R127). -/
def DecTab.order (t : DecTab) : List Nat :=
  if t.tc then (List.range t.size).map fun i => (i + t.size / 2) % t.size else List.range (t.size / 2)

/-- The first entry that TABLD refuses, with its cause (R124). -/
def imageFault (es : List Word32) : Option Cause :=
  (es.find? fun e => entryClass e = 3 || decide (field e.toNat 0 11 ≠ 0)).map fun e =>
    if entryClass e = 3 then 0x180#10 else 0x181#10

/-! ## Verification (R127, R196) -/

/-- What the walk has met so far: the last finite value, +Inf, -Inf. -/
structure Walked where
  last : Option Fl := none
  pinf : Bool := false
  ninf : Bool := false
deriving DecidableEq, Repr

/-- The entry of the negative half mirrors that of the positive half (R127). -/
def mirrors (p n : Word32) : Bool :=
  decide (entryClass p = entryClass n) &&
    (decide (entryClass p = 2) ||
      ((entrySign p != entrySign n) &&
        (decide (entryClass p = 1) || (decide (entryExp p = entryExp n) && decide (entryMant p = entryMant n)))))

/-- The check of one code: the failing code, or what the walk has met after it. -/
def DecTab.checkCode (t : DecTab) (w : Walked) (c : Nat) : Except Nat Walked :=
  let e := t.entry c
  if !t.tc && !mirrors e (t.entry (c + t.size / 2)) then .error (c + t.size / 2)
  else if entryClass e = 0 then
    let v := entryVal e
    if !t.tc && entrySign e then .error c
    else if (match w.last with | some x => !x.lt v | none => false) then .error c
    else .ok { w with last := some v }
  else if entryClass e = 1 then
    if entrySign e then (if !t.tc || w.ninf then .error c else .ok { w with ninf := true })
    else if w.pinf then .error c else .ok { w with pinf := true }
  else .ok w

def DecTab.checkAll (t : DecTab) : Walked → List Nat → Option Nat
  | _, [] => none
  | w, c :: l =>
    match t.checkCode w c with
    | .error x => some x
    | .ok w => t.checkAll w l

/-- The failing code of a check, if it fails. -/
def DecTab.check (t : DecTab) : Option Nat := t.checkAll {} t.order

/-- N3: every finite entry has mant[6:0] = 0 (R127). -/
def DecTab.isN3 (t : DecTab) : Bool :=
  (List.range t.size).all fun c => decide (entryClass (t.entry c) ≠ 0) || decide (entryMant (t.entry c) % 128 = 0)

/-- TABCHK: the table with its outcome recorded, and the result word (R196). -/
def DecTab.tabchk (t : DecTab) : DecTab × Word :=
  match t.check with
  | some c => (t, BitVec.ofNat 64 ((if t.n3 then 2 else 0) + c * 256))
  | none => ({ t with verified := true, n3 := t.isN3 }, BitVec.ofNat 64 (1 + if t.isN3 then 2 else 0))

/-- The table status word (R196). -/
def DecTab.statusWord (t : DecTab) : Word :=
  BitVec.ofNat 64
    ((if t.tc then 1 else 0) + (if t.sat then 2 else 0) + (if t.four then 4 else 0) + (if t.verified then 8 else 0) +
      if t.n3 then 16 else 0)

/-! ## Encoding (R128) -/

/-- The codes of the finite entries in value order: F of R128. -/
def DecTab.finite (t : DecTab) : List Nat := t.order.filter fun c => entryClass (t.entry c) = 0

/-- The magnitude of a value. -/
def Fl.mag : Fl → Fl
  | .nan _ q => .nan false q
  | .inf _ => .inf false
  | .fin _ m e => .fin false m e

/-- x * 2^k. -/
def Fl.scale (x : Fl) (k : Int) : Fl :=
  match x with
  | .fin b m e => .fin b m (e + k)
  | y => y

/-- The largest finite magnitude of any entry, of either half (R127); zero stands in for a table with no finite entry. -/
def DecTab.lmax (t : DecTab) : Fl :=
  ((List.range t.size).filter fun c => entryClass (t.entry c) = 0).foldl
    (fun x c => if x.lt (entryVal (t.entry c)).mag then (entryVal (t.entry c)).mag else x) (.fin false 0 0)

/-- y is nearer to a than to b, where a ≤ y ≤ b; or as near. -/
def nearerTo (y a b : Fl) : Bool × Bool :=
  match y, a, b with
  | .fin n m e, .fin n1 m1 e1, .fin n2 m2 e2 =>
    let e0 := min e (min e1 e2)
    let z := alignTo n m e e0
    let lo := z - alignTo n1 m1 e1 e0
    let hi := alignTo n2 m2 e2 e0 - z
    (decide (lo < hi), decide (lo = hi))
  | _, _, _ => (true, false)

/-- Of two neighbours as near to y: the even index, or the lower (R128). -/
def tieCode (c d : Nat) : Nat :=
  if c % 2 = 0 ∧ d % 2 = 1 then c else if c % 2 = 1 ∧ d % 2 = 0 then d else min c d

/-- The search of R128 in the codes l, in value order, for a y that is not below the first and not above the last. -/
def DecTab.search (t : DecTab) (y : Fl) : List Nat → Nat
  | [] => 0
  | [c] => c
  | c :: d :: l =>
    let b := entryVal (t.entry d)
    if y.lt b then
      let a := entryVal (t.entry c)
      if !a.lt y then c
      else
        match nearerTo y a b with
        | (true, _) => c
        | (false, true) => tieCode c d
        | (false, false) => d
    else t.search y (d :: l)

/-- In SM mode the code takes the sign of x. -/
def DecTab.signed (t : DecTab) (neg : Bool) (c : Nat) : Nat := if !t.tc && neg then c + t.size / 2 else c

/-- One form for each value: an odd significand, or zero with exponent zero. -/
def Fl.normal (x : Fl) : Fl :=
  match x with
  | .fin b m e =>
    match (List.range (bitLen m)).find? m.testBit with
    | some k => .fin b (m / 2 ^ k) (e + k)
    | none => .fin b 0 0
  | y => y

/-- The value as plain data. -/
def Fl.data (x : Fl) : Bool × Option (Nat × Int) :=
  match x.normal with
  | .fin b m e => (b, some (m, e))
  | .inf b => (b, none)
  | .nan b _ => (b, none)

/-- The code that the manual does not state, of a finite value or an infinity through a table with no finite entry: a free
function of the table and the value (R112, log 7). -/
def DecTab.freeCode (t : DecTab) (x : Fl) : Nat :=
  Config.freeCode ((List.range t.size).map t.entry) (t.tc, t.sat) x.data % t.size

/-- An overflow of the value x on the side neg: a code and whether it saturated, or 0x100 (R128). -/
def DecTab.overflow (t : DecTab) (x : Fl) (neg : Bool) : Except Cause (Nat × Bool) :=
  let side := t.tc && neg
  let infinity := t.order.find? fun c => entryClass (t.entry c) = 1 && entrySign (t.entry c) = side
  match infinity, t.sat with
  | some c, false => .ok (t.signed neg c, false)
  | _, true =>
    match (if side then t.finite.head? else t.finite.getLast?) with
    | some c => .ok (t.signed neg c, true)
    | none => .ok (t.freeCode x, true)
  | none, false => .error 0x100#10

/-- The encoding of a value: its code and whether it saturated, or the cause (R128). -/
def DecTab.encode (t : DecTab) (x : Fl) : Except Cause (Nat × Bool) :=
  if !t.verified then .error 0x182#10
  else
    match x with
    | .nan neg _ =>
      let l := List.range t.size
      let l := if t.tc then l else l.filter fun c => decide (t.size / 2 ≤ c) = neg
      match l.find? fun c => entryClass (t.entry c) = 2 with
      | some c => .ok (c, false)
      | none => .error 0x101#10
    | .inf neg => t.overflow x neg
    | .fin neg m e =>
      let y : Fl := .fin (t.tc && neg) m e
      let f := t.finite
      match f.head?, f.getLast? with
      | some a, some z =>
        if (entryVal (t.entry z)).lt y then t.overflow x (!t.tc && neg)
        else if y.lt (entryVal (t.entry a)) then
          if t.tc then t.overflow x true else .ok (t.signed neg a, false)
        else .ok (t.signed neg (t.search y f), false)
      | _, _ => .ok (t.freeCode x, false)

/-- The codes of some values, in order; or the index of the first that fails, with its cause (R129). -/
def DecTab.encodeAll (t : DecTab) : Nat → List Fl → Except (Nat × Cause) (List Nat × Bool)
  | _, [] => .ok ([], false)
  | i, x :: l =>
    match t.encode x with
    | .error c => .error (i, c)
    | .ok (c, b) =>
      match t.encodeAll (i + 1) l with
      | .error e => .error e
      | .ok (cs, b') => .ok (c :: cs, b || b')

/-! ## Block scales (R132, R153, R176) -/

/-- The largest magnitude among the finite values. -/
def amax (l : List Fl) : Fl :=
  l.foldl (fun x y => match y with | .fin _ m e => if x.lt (.fin false m e) then .fin false m e else x | _ => x)
    (.fin false 0 0)

/-- The smallest s from 0 to 254 for which a * 2^(127 - s) ≤ lmax; 0 for a = 0 (R153, R176). -/
def blockScale (a lmax : Fl) : Option Nat :=
  if a.isZero then some 0 else (List.range 255).find? fun s => !lmax.lt (a.scale (127 - (s : Int)))

/-- A decoded element times its block scale; 0xFF makes it NaN (R132). -/
def scaled (x : Fl) (s : Nat) : Fl := if s = 255 then .nan false false else x.scale ((s : Int) - 127)

/-! ## The piecewise-polynomial unit (R156, R157) -/

/-- The 32-bit word at byte o of a PPU image. -/
def ppuWord (img : Tab Byte) (o : Nat) : Nat := bytesNat ((List.range 4).map fun i => tget (o + i) img 0#8)

/-- The check of a PPU image of 1296 bytes (R156). -/
def ppuFault (img : List Byte) : Option Cause :=
  let w (o : Nat) : Nat := bytesNat ((img.drop o).take 4)
  let finite (x : Nat) : Bool := decide (field x 23 8 ≠ 255)
  let b (j : Nat) : Nat := w (0x10 + 4 * j)
  if 3 ≤ w 0 ∨ w 8 ≠ 0 ∨ w 12 ≠ 0 then some 0x183#10
  else if !((List.range 64).all fun j => finite (b j)) then some 0x184#10
  else if !((List.range 63).all fun j => (fmt32.val (b j)).lt (fmt32.val (b (j + 1)))) then some 0x184#10
  else if !((List.range 256).all fun j => finite (w (0x110 + 4 * j))) then some 0x184#10
  else none

/-- floor of a finite value. -/
def floorFin (neg : Bool) (m : Nat) (e : Int) : Int :=
  let x : Int := if neg then -(m : Int) else m
  if 0 ≤ e then x * (2 ^ e.toNat : Nat) else x.fdiv (2 ^ (-e).toNat : Nat)

/-- How the mode splits the input: an early result, or u with the exponent that comes back at the end (R157). -/
def ppuSplit (mode : Nat) (x : Fl) : Nat ⊕ (Fl × Int) :=
  match x with
  | .nan _ _ => .inl fmt32.nan
  | .inf neg =>
    if mode = 1 then .inl (if neg then 0 else fmt32.infBits)
    else if mode = 2 then .inl (if neg then fmt32.nan else fmt32.infBits)
    else .inr (x, 0)
  | .fin neg m e =>
    if mode = 1 then
      let n := floorFin neg m e
      let e0 := min e 0
      let u := alignTo neg m e e0 - n * (2 ^ (-e0).toNat : Nat)
      .inr (.fin false u.toNat e0, n)
    else if mode = 2 then
      if m = 0 then .inl (fmt32.signed true fmt32.infBits)
      else if neg then .inl fmt32.nan
      else .inr (.fin false m (1 - (bitLen m : Int)), e + bitLen m - 1)
    else .inr (x, 0)

/-- The largest j below n with b_j ≤ u. -/
def ppuSegment (img : Tab Byte) (u : Fl) : Nat → Option Nat
  | 0 => none
  | n + 1 => if !u.lt (fmt32.val (ppuWord img (0x10 + 4 * n))) then some n else ppuSegment img u n

/-- The evaluation of R157; every step rounds to nearest even, and only PCL is set. -/
def ppuEval (img : Tab Byte) (x : Nat) : FRes :=
  let mode := ppuWord img 0 % 4
  match ppuSplit mode (fmt32.val x) with
  | .inl r => { bits := r }
  | .inr (u, n) =>
    let found := ppuSegment img u 64
    let j := found.getD 0
    let c (k : Nat) : Nat := ppuWord img (0x110 + 16 * j + 4 * k)
    let t := (fmt32.addVal 0 u (fmt32.val (ppuWord img (0x10 + 4 * j))).flip false).bits
    let y := (fmt32.fma 0 (c 3) t (c 2)).bits
    let y := (fmt32.fma 0 y t (c 1)).bits
    let y := (fmt32.fma 0 y t (c 0)).bits
    let r :=
      if mode = 1 then (fmt32.roundVal 0 ((fmt32.val y).scale (max (-1000) (min 1000 n)))).bits
      else if mode = 2 then (fmt32.addVal 0 (fmt32.val y) (.fin (decide (n < 0)) n.natAbs 0) false).bits
      else y
    { bits := r, flags := if found.isSome then 0 else flagPCL }

end Sys2Proof.Machine
end

