-- ==== Sys2Proof/Machine/Lanes.lean ====
section
/-! DEFINITION. Lanes of a vector, the governing mask, and the forms of the vector instructions (R113, R161, R162). -/

namespace Sys2Proof.Machine

/-- Lane i of width w. -/
def lane (v : Vec) (w i : Nat) : Nat := v.toNat / 2 ^ (w * i) % 2 ^ w

/-- The vector of some lanes of width w, lane 0 first. -/
def ofLanes (w : Nat) (l : List Nat) : Vec := BitVec.ofNat 512 (l.foldr (fun x acc => x % 2 ^ w + 2 ^ w * acc) 0)

/-- Lane i of width w is active under a mask (R161). -/
def active (m : Word) (w i : Nat) : Bool := m.getLsbD (w * i / 8)

/-- Lanes 0 to 512/w - 1, active ones from f, the others from the old value. -/
def merge (old : Vec) (m : Word) (w : Nat) (f : Nat → Nat) : Vec :=
  ofLanes w ((List.range (512 / w)).map fun i => if active m w i then f i else lane old w i)

/-- The same with flags: those of the active lanes. -/
def mergeF (old : Vec) (m : Word) (w : Nat) (f : Nat → FRes) : Vec × Word :=
  let l := (List.range (512 / w)).map fun i => if active m w i then f i else { bits := lane old w i }
  (ofLanes w (l.map fun r => r.bits), BitVec.ofNat 64 (l.foldl (fun x r => x ||| r.flags) 0))

/-- The mask bits of active lanes set to a result, the others kept (R168). -/
def mergeK (old m : Word) (w : Nat) (f : Nat → Bool) : Word :=
  (List.range 64).foldl
    (fun x j =>
      let i := 8 * j / w
      if active m w i then (if f i then x ||| BitVec.twoPow 64 j else x &&& ~~~BitVec.twoPow 64 j) else x)
    old

/-- Names of a vector instruction that writes vd: vd itself is read, since inactive lanes keep it. -/
def vnames (d a : Reg) (dva : VDist) (bs : List Reg) : Names :=
  { vs := [(a, dva.toNat)] ++ (bs.map fun b => (b, 0)) ++ [(d, 0)], dv := [d] }

/-- vd ← f va vb in each active lane of width w. -/
def State.vform (s : State) (w : Nat) (d a : Reg) (dva : VDist) (b : Reg) (k : KReg) (f : Nat → Nat → Nat) : Out :=
  s.issue (vnames d a dva [b])
    (let x := s.vsrc a dva.toNat
     let y := s.vsrc b 0
     .next (s.setV d (merge (s.vsrc d 0) (s.core.mask k) w fun i => f (lane x w i) (lane y w i))).advance)

/-- vd ← f va in each active lane. -/
def State.vform1 (s : State) (w : Nat) (d a : Reg) (dva : VDist) (k : KReg) (f : Nat → Nat) : Out :=
  s.issue (vnames d a dva [])
    (let x := s.vsrc a dva.toNat
     .next (s.setV d (merge (s.vsrc d 0) (s.core.mask k) w fun i => f (lane x w i))).advance)

/-- kd ← f va vb in each active lane (R168). -/
def State.vcmp (s : State) (w : Nat) (d : KReg) (a : Reg) (dva : VDist) (b : Reg) (k : KReg) (f : Nat → Nat → FRes) : Out :=
  s.issue { vs := [(a, dva.toNat), (b, 0)], dk := [d] }
    (let x := s.vsrc a dva.toNat
     let y := s.vsrc b 0
     let m := s.core.mask k
     let fl :=
       (List.range (512 / w)).foldl
         (fun z i => if active m w i then z ||| (f (lane x w i) (lane y w i)).flags else z) 0
     .next
       ((s.setK d (mergeK (s.core.mask d) m w fun i => decide ((f (lane x w i) (lane y w i)).bits ≠ 0))).flags
         (BitVec.ofNat 64 fl)).advance)

/-- vd ← f va vb vd with flags, in each active lane. -/
def State.vfform (s : State) (w : Nat) (d a : Reg) (dva : VDist) (bs : List Reg) (k : KReg)
    (f : Nat → Nat → Nat → FRes) : Out :=
  s.issue (vnames d a dva bs)
    (let x := s.vsrc a dva.toNat
     let y := s.vsrc (bs.headD a) 0
     let z := s.vsrc d 0
     let r := mergeF z (s.core.mask k) w fun i => f (lane x w i) (lane y w i) (lane z w i)
     .next ((s.setV d r.1).flags r.2).advance)

end Sys2Proof.Machine
end

