-- ==== Sys2Proof/Machine/Vector.lean ====
section
/-! DEFINITION. Vector integer, vector floating point, vector memory and mask operations (R167 to R169, R178 to R180). -/

namespace Sys2Proof.Machine

def IntTy.width : IntTy → Nat
  | .i8 => 8
  | .i16 => 16
  | .i32 => 32
  | .i64 => 64

def FltTy.fmt : FltTy → Fmt
  | .f32 => fmt32
  | .bf16 => fmtBF
  | .f16 => fmt16

/-! ## Lane operations (R167) -/

/-- The low w bits of an integer. -/
def lowBits (w : Nat) (x : Int) : Nat := (x % (2 ^ w : Nat)).toNat

/-- An integer saturated to the signed range of w bits (R113). -/
def satS (w : Nat) (x : Int) : Nat :=
  lowBits w (max (-(2 ^ (w - 1) : Nat) : Int) (min x ((2 ^ (w - 1) : Nat) - 1)))

def laneAdd (w x y : Nat) : Nat := (x + y) % 2 ^ w
def laneSub (w x y : Nat) : Nat := (x + 2 ^ w - y) % 2 ^ w
def laneMul (w x y : Nat) : Nat := x * y % 2 ^ w
def laneMulh (w x y : Nat) : Nat := lowBits w (sint x w * sint y w / (2 ^ w : Nat))
def laneMin (w x y : Nat) : Nat := if sint x w ≤ sint y w then x else y
def laneMax (w x y : Nat) : Nat := if sint x w ≤ sint y w then y else x
def laneShl (w x y : Nat) : Nat := x * 2 ^ (y % w) % 2 ^ w
def laneShr (w x y : Nat) : Nat := x / 2 ^ (y % w)
def laneSra (w x y : Nat) : Nat := lowBits w (sint x w / (2 ^ (y % w) : Nat))
def laneSadd (w x y : Nat) : Nat := satS w (sint x w + sint y w)
def laneSsub (w x y : Nat) : Nat := satS w (sint x w - sint y w)
def laneAbs (w x : Nat) : Nat := lowBits w (sint x w).natAbs

def execVadd (d a : Reg) (dva : VDist) (b : Reg) (k : KReg) (t : IntTy) (s : State) : Out :=
  s.vform (IntTy.width t) d a dva b k (laneAdd (IntTy.width t))
def execVsub (d a : Reg) (dva : VDist) (b : Reg) (k : KReg) (t : IntTy) (s : State) : Out :=
  s.vform (IntTy.width t) d a dva b k (laneSub (IntTy.width t))
def execVmul (d a : Reg) (dva : VDist) (b : Reg) (k : KReg) (t : IntTy) (s : State) : Out :=
  s.vform (IntTy.width t) d a dva b k (laneMul (IntTy.width t))
def execVmulh (d a : Reg) (dva : VDist) (b : Reg) (k : KReg) (t : IntTy) (s : State) : Out :=
  s.vform (IntTy.width t) d a dva b k (laneMulh (IntTy.width t))
def execVmin (d a : Reg) (dva : VDist) (b : Reg) (k : KReg) (t : IntTy) (s : State) : Out :=
  s.vform (IntTy.width t) d a dva b k (laneMin (IntTy.width t))
def execVmax (d a : Reg) (dva : VDist) (b : Reg) (k : KReg) (t : IntTy) (s : State) : Out :=
  s.vform (IntTy.width t) d a dva b k (laneMax (IntTy.width t))
def execVminu (d a : Reg) (dva : VDist) (b : Reg) (k : KReg) (t : IntTy) (s : State) : Out :=
  s.vform (IntTy.width t) d a dva b k fun x y => min x y
def execVmaxu (d a : Reg) (dva : VDist) (b : Reg) (k : KReg) (t : IntTy) (s : State) : Out :=
  s.vform (IntTy.width t) d a dva b k fun x y => max x y
def execVand (d a : Reg) (dva : VDist) (b : Reg) (k : KReg) (t : IntTy) (s : State) : Out :=
  s.vform (IntTy.width t) d a dva b k fun x y => x &&& y
def execVor (d a : Reg) (dva : VDist) (b : Reg) (k : KReg) (t : IntTy) (s : State) : Out :=
  s.vform (IntTy.width t) d a dva b k fun x y => x ||| y
def execVxor (d a : Reg) (dva : VDist) (b : Reg) (k : KReg) (t : IntTy) (s : State) : Out :=
  s.vform (IntTy.width t) d a dva b k fun x y => x ^^^ y
def execVshl (d a : Reg) (dva : VDist) (b : Reg) (k : KReg) (t : IntTy) (s : State) : Out :=
  s.vform (IntTy.width t) d a dva b k (laneShl (IntTy.width t))
def execVshr (d a : Reg) (dva : VDist) (b : Reg) (k : KReg) (t : IntTy) (s : State) : Out :=
  s.vform (IntTy.width t) d a dva b k (laneShr (IntTy.width t))
def execVsra (d a : Reg) (dva : VDist) (b : Reg) (k : KReg) (t : IntTy) (s : State) : Out :=
  s.vform (IntTy.width t) d a dva b k (laneSra (IntTy.width t))
def execVsadd (d a : Reg) (dva : VDist) (b : Reg) (k : KReg) (t : IntTy) (s : State) : Out :=
  s.vform (IntTy.width t) d a dva b k (laneSadd (IntTy.width t))
def execVssub (d a : Reg) (dva : VDist) (b : Reg) (k : KReg) (t : IntTy) (s : State) : Out :=
  s.vform (IntTy.width t) d a dva b k (laneSsub (IntTy.width t))
def execVabs (d a : Reg) (dva : VDist) (k : KReg) (t : IntTy) (s : State) : Out :=
  s.vform1 (IntTy.width t) d a dva k (laneAbs (IntTy.width t))
def execVcmpeq (d : KReg) (a : Reg) (dva : VDist) (b : Reg) (k : KReg) (t : IntTy) (s : State) : Out :=
  s.vcmp (IntTy.width t) d a dva b k fun x y => boolRes (decide (x = y)) false
def execVcmplt (d : KReg) (a : Reg) (dva : VDist) (b : Reg) (k : KReg) (t : IntTy) (s : State) : Out :=
  s.vcmp (IntTy.width t) d a dva b k fun x y => boolRes (decide (sint x (IntTy.width t) < sint y (IntTy.width t))) false
def execVcmpltu (d : KReg) (a : Reg) (dva : VDist) (b : Reg) (k : KReg) (t : IntTy) (s : State) : Out :=
  s.vcmp (IntTy.width t) d a dva b k fun x y => boolRes (decide (x < y)) false

/-! ## VFLT (R169) -/

def execVfadd (d a : Reg) (dva : VDist) (b : Reg) (k : KReg) (t : FltTy) (s : State) : Out :=
  s.vfform (FltTy.fmt t).w d a dva [b] k fun x y _ => (FltTy.fmt t).add s.core.rm x y
def execVfsub (d a : Reg) (dva : VDist) (b : Reg) (k : KReg) (t : FltTy) (s : State) : Out :=
  s.vfform (FltTy.fmt t).w d a dva [b] k fun x y _ => (FltTy.fmt t).sub s.core.rm x y
def execVfmul (d a : Reg) (dva : VDist) (b : Reg) (k : KReg) (t : FltTy) (s : State) : Out :=
  s.vfform (FltTy.fmt t).w d a dva [b] k fun x y _ => (FltTy.fmt t).mul s.core.rm x y
def execVfma (d a : Reg) (dva : VDist) (b : Reg) (k : KReg) (t : FltTy) (s : State) : Out :=
  s.vfform (FltTy.fmt t).w d a dva [b] k fun x y z => (FltTy.fmt t).fma s.core.rm x y z
def execVfmin (d a : Reg) (dva : VDist) (b : Reg) (k : KReg) (t : FltTy) (s : State) : Out :=
  s.vfform (FltTy.fmt t).w d a dva [b] k fun x y _ => (FltTy.fmt t).minmax false x y
def execVfmax (d a : Reg) (dva : VDist) (b : Reg) (k : KReg) (t : FltTy) (s : State) : Out :=
  s.vfform (FltTy.fmt t).w d a dva [b] k fun x y _ => (FltTy.fmt t).minmax true x y
def execVfdiv (d a : Reg) (dva : VDist) (b : Reg) (k : KReg) (t : FltTy) (s : State) : Out :=
  s.vfform (FltTy.fmt t).w d a dva [b] k fun x y _ => (FltTy.fmt t).div s.core.rm x y
def execVfsqrt (d a : Reg) (dva : VDist) (k : KReg) (t : FltTy) (s : State) : Out :=
  s.vfform (FltTy.fmt t).w d a dva [] k fun x _ _ => (FltTy.fmt t).sqrt s.core.rm x
def execVfabs (d a : Reg) (dva : VDist) (k : KReg) (t : FltTy) (s : State) : Out :=
  s.vfform (FltTy.fmt t).w d a dva [] k fun x _ _ => (FltTy.fmt t).abs x
def execVfneg (d a : Reg) (dva : VDist) (k : KReg) (t : FltTy) (s : State) : Out :=
  s.vfform (FltTy.fmt t).w d a dva [] k fun x _ _ => (FltTy.fmt t).negate x
def execVfcmpeq (d : KReg) (a : Reg) (dva : VDist) (b : Reg) (k : KReg) (t : FltTy) (s : State) : Out :=
  s.vcmp (FltTy.fmt t).w d a dva b k (FltTy.fmt t).feq
def execVfcmplt (d : KReg) (a : Reg) (dva : VDist) (b : Reg) (k : KReg) (t : FltTy) (s : State) : Out :=
  s.vcmp (FltTy.fmt t).w d a dva b k (FltTy.fmt t).flt
def execVfcmple (d : KReg) (a : Reg) (dva : VDist) (b : Reg) (k : KReg) (t : FltTy) (s : State) : Out :=
  s.vcmp (FltTy.fmt t).w d a dva b k (FltTy.fmt t).fle

/-! ## VMEM (R178, R179) -/

def esize : Size → Nat
  | .b => 1
  | .h => 2
  | .w => 4
  | .d => 8

/-- The accesses of the active lanes of n bytes: address, size, first byte in the operand. -/
def laneAccesses (m : Word) (n : Nat) (addr : Nat → Word) : List (Nat × Nat × Nat) :=
  ((List.range (64 / n)).filter fun i => active m (8 * n) i).map fun i => ((addr i).toNat, n, n * i)

/-- The old value with its active lanes cleared. -/
def clearActive (old : Vec) (m : Word) (n : Nat) : Vec := merge old m (8 * n) fun _ => 0

/-- A vector load: the lanes at the addresses given. -/
def State.vload (s : State) (d a : Reg) (da : Dist) (extra : Names) (k : KReg) (n : Nat) (addr : Nat → Word) : Out :=
  s.issue { ss := [(a, da.toNat)] ++ extra.ss, vs := extra.vs ++ [(d, 0)], dv := [d] }
    (let m := s.core.mask k
     s.loadLanes .load (laneAccesses m n addr) (.vector d) (clearActive (s.vsrc d 0) m n).toNat)

/-- A vector store. -/
def State.vstore (s : State) (d a : Reg) (da : Dist) (extra : Names) (k : KReg) (n : Nat) (addr : Nat → Word) : Out :=
  s.issue { ss := [(a, da.toNat)] ++ extra.ss, vs := extra.vs ++ [(d, 0)] }
    (s.storeLanes true .store (laneAccesses (s.core.mask k) n addr) (s.vsrc d 0).toNat)

def execVld (d a : Reg) (da : Dist) (k : KReg) (e : Size) (s : State) : Out :=
  s.vload d a da {} k (esize e) fun i => s.src a da.toNat + BitVec.ofNat 64 (i * esize e)
def execVst (d a : Reg) (da : Dist) (k : KReg) (e : Size) (s : State) : Out :=
  s.vstore d a da {} k (esize e) fun i => s.src a da.toNat + BitVec.ofNat 64 (i * esize e)
def execVlds (d a : Reg) (da : Dist) (b : Reg) (k : KReg) (e : Size) (s : State) : Out :=
  s.vload d a da { ss := [(b, 0)] } k (esize e) fun i => s.src a da.toNat + BitVec.ofNat 64 i * s.src b 0
def execVsts (d a : Reg) (da : Dist) (b : Reg) (k : KReg) (e : Size) (s : State) : Out :=
  s.vstore d a da { ss := [(b, 0)] } k (esize e) fun i => s.src a da.toNat + BitVec.ofNat 64 i * s.src b 0
def execVgath (d a : Reg) (da : Dist) (b : Reg) (k : KReg) (e : Size) (s : State) : Out :=
  s.vload d a da { vs := [(b, 0)] } k (esize e) fun i =>
    s.src a da.toNat + sextTo (lane (s.vsrc b 0) (8 * esize e) i) (8 * esize e)
def execVscat (d a : Reg) (da : Dist) (b : Reg) (k : KReg) (e : Size) (s : State) : Out :=
  s.vstore d a da { vs := [(b, 0)] } k (esize e) fun i =>
    s.src a da.toNat + sextTo (lane (s.vsrc b 0) (8 * esize e) i) (8 * esize e)
/-- VLDB reads one element, if some lane is active, into every active lane. -/
def execVldb (d a : Reg) (da : Dist) (k : KReg) (e : Size) (s : State) : Out :=
  let n := esize e
  s.issue { ss := [(a, da.toNat)], vs := [(d, 0)], dv := [d] }
    (let m := s.core.mask k
     if (List.range (64 / n)).any fun i => active m (8 * n) i then
       s.loadLanes .load [((s.src a da.toNat).toNat, n, 0)] (.broadcast d (s.vsrc d 0) m n) 0
     else .next (s.setV d (s.vsrc d 0)).advance)

/-! ## VMASK (R180) -/

/-- kd ← x, the masks read. -/
def State.kform (s : State) (d : KReg) (x : Word) : Out := s.issue { dk := [d] } (.next (s.setK d x).advance)

def execKand (d a b : KReg) (s : State) : Out := s.kform d (s.core.mask a &&& s.core.mask b)
def execKor (d a b : KReg) (s : State) : Out := s.kform d (s.core.mask a ||| s.core.mask b)
def execKxor (d a b : KReg) (s : State) : Out := s.kform d (s.core.mask a ^^^ s.core.mask b)
def execKnot (d a : KReg) (s : State) : Out := s.kform d (~~~s.core.mask a)
def execKfrom (d : KReg) (a : Reg) (dva : VDist) (s : State) : Out :=
  s.issue { ss := [(a, dva.toNat)], dk := [d] } (.next (s.setK d (s.src a dva.toNat)).advance)
def execKto (d : Reg) (a : KReg) (s : State) : Out := s.form0 d (s.core.mask a)
def execKpop (d : Reg) (a : KReg) (s : State) : Out := s.form0 d (BitVec.ofNat 64 (popCount (s.core.mask a).toNat 64))

/-- The index of the lowest set bit among bits 64 - n to 63, or 64. -/
def lowestSet (x : Word) : Nat → Nat
  | 0 => 64
  | n + 1 => if x.getLsbD (63 - n) then 63 - n else lowestSet x n

def execKfirst (d : Reg) (a : KReg) (s : State) : Out := s.form0 d (BitVec.ofNat 64 (lowestSet (s.core.mask a) 64))

end Sys2Proof.Machine
end

