-- ==== Sys2Proof/Machine/Vxf.lean ====
section
/-! DEFINITION. Vector permutes, reductions and conversions (R170 to R177). -/

namespace Sys2Proof.Machine

/-! ## VTYPE (R170) -/

def Core.et (k : Core) : Nat := wfield k.vtype 0 3
def Core.et2 (k : Core) : Nat := wfield k.vtype 4 3
def Core.part (k : Core) : Nat := wfield k.vtype 12 3
def Core.vtab (k : Core) : Nat := wfield k.vtype 8 2

/-- Width of an element type. -/
def etWidth (t : Nat) : Nat :=
  if t = 0 then 8 else if t = 1 ∨ t = 5 ∨ t = 6 then 16 else if t = 3 then 64 else 32

/-- Format of a floating element type. -/
def etFmt (t : Nat) : Fmt := if t = 4 then fmt32 else if t = 5 then fmtBF else fmt16

/-- Lanes of a type in a vector. -/
def lanesOf (t : Nat) : Nat := 512 / etWidth t

/-- A decode table of the core. -/
def Core.table (k : Core) (t : Nat) : DecTab := tget t k.tables {}

/-- A VXF instruction: its VTYPE combination is checked before its operands (R55, R170). -/
def State.vxf (s : State) (ok : Bool) (n : Names) (body : Out) : Out := if !ok then s.trapWord 0x05E#10 else s.issue n body

/-! ## Permutes (R172) -/

def execVshuf (d a : Reg) (dva : VDist) (b : Reg) (k : KReg) (s : State) : Out :=
  let t := s.core.et
  let w := etWidth t
  s.vxf (decide (t < 7)) (vnames d a dva [b])
    (let x := s.vsrc a dva.toNat
     let y := s.vsrc b 0
     .next (s.setV d (merge (s.vsrc d 0) (s.core.mask k) w fun i => lane x w (lane y w i % lanesOf t))).advance)

def execVslide (d a : Reg) (dva : VDist) (b : Reg) (k : KReg) (s : State) : Out :=
  let t := s.core.et
  let w := etWidth t
  s.vxf (decide (t < 7)) { ss := [(b, 0)], vs := [(a, dva.toNat), (d, 0)], dv := [d] }
    (let x := s.vsrc a dva.toNat
     let n := (s.src b 0).toInt
     .next
       (s.setV d
         (merge (s.vsrc d 0) (s.core.mask k) w fun i =>
           if 0 ≤ i + n ∧ i + n < lanesOf t then lane x w (i + n).toNat else 0)).advance)

def execVbcast (d a : Reg) (dva : VDist) (k : KReg) (s : State) : Out :=
  let t := s.core.et
  s.vxf (decide (t < 7)) { ss := [(a, dva.toNat)], vs := [(d, 0)], dv := [d] }
    (.next (s.setV d (merge (s.vsrc d 0) (s.core.mask k) (etWidth t) fun _ => (s.src a dva.toNat).toNat)).advance)

def execVext (d a : Reg) (dva : VDist) (b : Reg) (s : State) : Out :=
  let t := s.core.et
  let w := etWidth t
  s.vxf (decide (t < 7)) { ss := [(b, 0)], vs := [(a, dva.toNat)], ds := [d] }
    (let x := lane (s.vsrc a dva.toNat) w ((s.src b 0).toNat % lanesOf t)
     .next (s.setS d (if t < 4 then sextTo x w else BitVec.ofNat 64 x)).advance)

def execVins (d a : Reg) (dva : VDist) (b : Reg) (s : State) : Out :=
  let t := s.core.et
  let w := etWidth t
  s.vxf (decide (t < 7)) { ss := [(a, dva.toNat), (b, 0)], vs := [(d, 0)], dv := [d] }
    (let old := s.vsrc d 0
     let n := (s.src b 0).toNat % lanesOf t
     .next
       (s.setV d
         (ofLanes w
           ((List.range (lanesOf t)).map fun i =>
             if i = n then (s.src a dva.toNat).toNat else lane old w i))).advance)

def execVsel (d a : Reg) (dva : VDist) (b : Reg) (k : KReg) (s : State) : Out :=
  let t := s.core.et
  let w := etWidth t
  s.vxf (decide (t < 7)) { vs := [(a, dva.toNat), (b, 0)], dv := [d] }
    (let x := s.vsrc a dva.toNat
     .next (s.setV d (merge (s.vsrc b 0) (s.core.mask k) w fun i => lane x w i)).advance)

def execViota (d : Reg) (k : KReg) (s : State) : Out :=
  let t := s.core.et
  let w := etWidth t
  s.vxf (decide (t < 4)) { dv := [d] }
    (let m := s.core.mask k
     .next
       (s.setV d
         (ofLanes w
           ((List.range (lanesOf t)).map fun i => ((List.range i).filter fun j => active m w j).length))).advance)

/-! ## Reductions (R173) -/

/-- One level of the pairwise tree: a node with an inactive child passes the other. -/
def treeLevel (f : Nat → Nat → FRes) : List (Option Nat) → List (Option Nat) × Nat
  | x :: y :: l =>
    let (r, fl) := treeLevel f l
    match x, y with
    | some a, some b => (some (f a b).bits :: r, (f a b).flags ||| fl)
    | some a, none => (some a :: r, fl)
    | none, z => (z :: r, fl)
  | l => (l, 0)

/-- The tree over n levels, with the flags of every combination. An active lane that meets no other goes up as it is, so that a
reduction of one active lane gives its bits and sets no flag, a signalling or non-canonical NaN included: R173 passes a lone
child unchanged, where R116 would ask for the canonical NaN and NV of an operation (DESIGN CHOICE, log 76). -/
def treeReduce (f : Nat → Nat → FRes) : Nat → List (Option Nat) → Option Nat × Nat
  | 0, l => (l.headD none, 0)
  | n + 1, l =>
    let (l1, f1) := treeLevel f l
    let (x, f2) := treeReduce f n l1
    (x, f1 ||| f2)

/-- The active lanes of a vector. -/
def activeLanes (v : Vec) (m : Word) (w : Nat) : List (Option Nat) :=
  (List.range (512 / w)).map fun i => if active m w i then some (lane v w i) else none

/-- A reduction: of integers by g over the list of active lanes, of floats by the tree of f; none is the value when no
lane is active. -/
def State.vreduce (s : State) (d a : Reg) (dva : VDist) (k : KReg) (g : List Int → Int) (f : Fmt → Nat → Nat → FRes)
    (noInt : Nat → Int) (noFlt : Fmt → Nat) : Out :=
  let t := s.core.et
  let w := etWidth t
  s.vxf (decide (t < 7)) { vs := [(a, dva.toNat)], ds := [d] }
    (let l := activeLanes (s.vsrc a dva.toNat) (s.core.mask k) w
     if t < 4 then
       let xs := (l.filterMap id).map fun x => sint x w
       .next (s.setS d (BitVec.ofInt 64 (if xs.isEmpty then noInt w else g xs))).advance
     else
       let r := treeReduce (f (etFmt t)) 5 l
       .next
         ((s.setS d (BitVec.ofNat 64 (r.1.getD (noFlt (etFmt t))))).flags (BitVec.ofNat 64 r.2)).advance)

def execVredsum (d a : Reg) (dva : VDist) (k : KReg) (s : State) : Out :=
  s.vreduce d a dva k List.sum (fun f => f.add s.core.rm) (fun _ => 0) fun _ => 0

def execVredmax (d a : Reg) (dva : VDist) (k : KReg) (s : State) : Out :=
  s.vreduce d a dva k (fun l => l.foldl max (l.headD 0)) (fun f => f.minmax true) (fun w => -(2 ^ (w - 1) : Nat)) fun f =>
    f.signed true f.infBits

def execVredmin (d a : Reg) (dva : VDist) (k : KReg) (s : State) : Out :=
  s.vreduce d a dva k (fun l => l.foldl min (l.headD 0)) (fun f => f.minmax false) (fun w => (2 ^ (w - 1) : Nat) - 1)
    fun f => f.infBits

/-! ## VCVT (R174) -/

/-- One conversion from type t to type u. -/
def convertLane (rm t u x : Nat) : FRes :=
  if t < 4 then
    if u < 4 then { bits := lowBits (etWidth u) (sint x (etWidth t)) } else (etFmt u).ofInt rm (sint x (etWidth t))
  else if u < 4 then (etFmt t).toInt rm (etWidth u) x
  else (etFmt t).convert (etFmt u) rm x

/-- The source lane that destination lane i converts, if it converts one. -/
def convertFrom (t u part i : Nat) : Option Nat :=
  if etWidth t < etWidth u then some (part * lanesOf u + i)
  else if etWidth u < etWidth t then
    if part * lanesOf t ≤ i ∧ i < part * lanesOf t + lanesOf t then some (i - part * lanesOf t) else none
  else some i

def execVcvt (d a : Reg) (dva : VDist) (k : KReg) (s : State) : Out :=
  let t := s.core.et
  let u := s.core.et2
  let p := s.core.part
  let r := max (etWidth t / etWidth u) (etWidth u / etWidth t)
  s.vxf (decide (t < 7) && decide (u < 7) && decide (p < r)) (vnames d a dva [])
    (let x := s.vsrc a dva.toNat
     let old := s.vsrc d 0
     let y :=
       mergeF old (s.core.mask k) (etWidth u) fun i =>
         match convertFrom t u p i with
         | some j => convertLane s.core.rm t u (lane x (etWidth t) j)
         | none => { bits := lane old (etWidth u) i }
     .next ((s.setV d y.1).flags y.2).advance)

/-! ## Codes (R175, R176) -/

/-- The code bytes of the part fit the vector. -/
def Core.codesFit (k : Core) : Bool :=
  decide ((k.part + 1) * (lanesOf k.et * (k.table k.vtab).codeBits / 8) ≤ 64)

/-- An encode trap: the lane and the table (R129). -/
def State.encodeTrap (s : State) (c : Cause) (lane tab : Nat) : Out := s.trap c (BitVec.ofNat 64 (lane + tab * 256))

def flagWord (saturated : Bool) : Word := if saturated then BitVec.ofNat 64 flagSAT else 0#64

/-- The FFLAGS bits of an encode of some values: SAT, and NV for a signalling NaN among them (R116, R128). -/
def encodeFlags (saturated : Bool) (l : List Fl) : Word :=
  flagWord saturated ||| if l.any Fl.signals then BitVec.ofNat 64 flagNV else 0#64

/-- VENC. Its 0x182 for an unverified table names lane 0 when no lane is active (DESIGN CHOICE, log 44). -/
def execVenc (d a : Reg) (dva : VDist) (k : KReg) (s : State) : Out :=
  let t := s.core.et
  let tab := s.core.table s.core.vtab
  s.vxf (decide (4 ≤ t) && decide (t < 7) && s.core.codesFit) (vnames d a dva [])
    (let x := s.vsrc a dva.toNat
     let m := s.core.mask k
     let w := etWidth t
     let ls := (List.range (lanesOf t)).filter fun i => active m w i
     if !tab.verified then s.encodeTrap 0x182#10 (ls.headD 0) s.core.vtab
     else
       let xs := ls.map fun i => (etFmt t).val (lane x w i)
       match tab.encodeAll 0 xs with
       | .error (i, c) => s.encodeTrap c (ls.getD i 0) s.core.vtab
       | .ok (cs, sat) =>
         let codes := ls.zip cs
         let base := s.core.part * lanesOf t
         let old := s.vsrc d 0
         let cw := tab.codeBits
         .next
           ((s.setV d
             (ofLanes cw
               ((List.range (512 / cw)).map fun j =>
                 match (if base ≤ j then tfind (j - base) codes else none) with
                 | some c => c
                 | none => lane old cw j))).flags (encodeFlags sat xs)).advance)

def execVdec (d a : Reg) (dva : VDist) (k : KReg) (s : State) : Out :=
  let t := s.core.et
  let tab := s.core.table s.core.vtab
  s.vxf (decide (4 ≤ t) && decide (t < 7) && s.core.codesFit) (vnames d a dva [])
    (let x := s.vsrc a dva.toNat
     let y :=
       mergeF (s.vsrc d 0) (s.core.mask k) (etWidth t) fun i =>
         (etFmt t).roundVal s.core.rm (tab.decode (lane x tab.codeBits (s.core.part * lanesOf t + i)))
     .next ((s.setV d y.1).flags y.2).advance)

/-- The first element of a block that no scale can fit (R153, R176). As VQNT's failing lane the trap names an element's
number in the block, 16 to 31 for those of vb, and for step 2 the first element that is too large for the largest scale
(DESIGN CHOICE, log 44). -/
def firstTooLarge (lmax : Fl) (l : List Fl) : Nat :=
  (l.findIdx? fun x => !x.isNan && !x.isInf && lmax.lt (x.mag.scale (-127))).getD 0

def execVqnt (d a : Reg) (dva : VDist) (b : Reg) (s : State) : Out :=
  let t := s.core.et
  let tab := s.core.table s.core.vtab
  let two := decide (t = 4)
  if (t = 5 ∨ t = 6) ∧ b ≠ 0#5 then s.trapWord 0x06B#10
  else
    s.vxf (decide (4 ≤ t) && decide (t < 7))
      { vs := [(a, dva.toNat)] ++ (if two then [(b, 0)] else []), dv := [d] }
      (let w := etWidth t
       let l (v : Vec) : List Fl := (List.range (lanesOf t)).map fun i => (etFmt t).val (lane v w i)
       let xs := l (s.vsrc a dva.toNat) ++ if two then l (s.vsrc b 0) else []
       match blockScale (amax xs) tab.lmax with
       | none => s.encodeTrap 0x100#10 (firstTooLarge tab.lmax xs) s.core.vtab
       | some sc =>
         match tab.encodeAll 0 (xs.map fun x => x.scale (127 - (sc : Int))) with
         | .error (i, c) => s.encodeTrap c i s.core.vtab
         | .ok (cs, sat) =>
           let v := ofLanes tab.codeBits cs ||| BitVec.ofNat 512 (sc * 2 ^ 256)
           .next ((s.setV d v).flags (encodeFlags sat xs)).advance)

def execVdqnt (d a : Reg) (dva : VDist) (k : KReg) (s : State) : Out :=
  let t := s.core.et
  let tab := s.core.table s.core.vtab
  s.vxf (decide (4 ≤ t) && decide (t < 7) && decide (s.core.part < if t = 4 then 2 else 1)) (vnames d a dva [])
    (let x := s.vsrc a dva.toNat
     let sc := lane x 8 32
     let y :=
       mergeF (s.vsrc d 0) (s.core.mask k) (etWidth t) fun i =>
         (etFmt t).roundVal s.core.rm
           (scaled (tab.decode (lane x tab.codeBits (s.core.part * lanesOf t + i))) sc)
     .next ((s.setV d y.1).flags y.2).advance)

/-- VPPU evaluates f32 lanes on the PPU image; only PCL is set (R177). -/
def execVppu (d a : Reg) (dva : VDist) (k : KReg) (s : State) : Out :=
  s.vxf (decide (s.core.et = 4)) (vnames d a dva [])
    (let x := s.vsrc a dva.toNat
     let y := mergeF (s.vsrc d 0) (s.core.mask k) 32 fun i => ppuEval s.core.ppu (lane x 32 i)
     .next ((s.setV d y.1).flags y.2).advance)

end Sys2Proof.Machine
end

