-- ==== Sys2Proof/Machine/Table.lean ====
section
/-! DEFINITION. Decode-table and PPU commands (R194 to R197). -/

namespace Sys2Proof.Machine

/-- The tables that a format context names (R130, R183). -/
def contextTables (w : Word) : List Nat :=
  (if wfield w 0 3 = 3 then [wfield w 3 2] else []) ++ if wfield w 8 3 = 3 then [wfield w 11 2] else []

/-- The tables that a bead's BFMT byte names (R318). -/
def beadTables (fmt : Nat) : List Nat := if 2 ≤ fmt % 4 then [fmt / 4 % 4] else []

/-- A queued command names table t (R130). -/
def QCmd.namesTable (q : QCmd) (t : Nat) : Bool :=
  match q.cmd with
  | .mma _ _ => (contextTables q.context).contains t
  | .mdrain _ => decide (wfield q.b 0 4 = 3) && decide (wfield q.b 6 2 = t)
  | .task _ _ => q.beads.any fun b => (beadTables b.fmt.toNat).contains t
  | _ => false

/-- The entries of a table image. -/
def imageEntries (l : List Byte) : List Word32 := (List.range 256).map fun c => BitVec.ofNat 32 (imgNat l (4 * c) 4)

/-- A table by code, with the entries that are not zero. -/
def tabOf {α : Type} [DecidableEq α] (zero : α) (l : List α) : Tab α := ((List.range l.length).zip l).filter fun r => r.2 ≠ zero

def Core.setTable (k : Core) (n : Nat) (t : DecTab) : Core := { k with tables := tset n t k.tables }

def execTabld (a b : Reg) (_w : BitVec 1) (t : BitVec 2) (s : State) : Out :=
  let va := (s.src a 0).toNat
  let mode := s.src b 0
  s.issue { ss := [(a, 0), (b, 0)] }
    (s.ordered fun s =>
      if va % 8 ≠ 0 ∨ 8 ≤ mode.toNat then s.trap 0x185#10 0#64
      else if s.core.mqueue.any fun q => q.namesTable t.toNat then s.stall
      else
        s.readImage true true va 1024 fun s img =>
          match imageFault (imageEntries img) with
          | some c => s.trap c 0#64
          | none =>
            .next
              (s.upd fun k =>
                k.setTable t.toNat
                  { entries := tabOf 0#32 (imageEntries img)
                    tc := wbit mode 0
                    sat := wbit mode 1
                    four := wbit mode 2 }).advance)

def execTabrd (d a : Reg) (_w : BitVec 1) (t : BitVec 2) (s : State) : Out :=
  let x := s.src a 0
  s.issue { ss := [(a, 0)], ds := [d] }
    (s.ordered fun s =>
      let tab := s.core.table t.toNat
      .next (s.setS d (if wbit x 8 then tab.statusWord else (tab.entry (wfield x 0 8)).zeroExtend 64)).advance)

def execTabchk (d : Reg) (_w : BitVec 1) (t : BitVec 2) (s : State) : Out :=
  s.issue { ds := [d] }
    (s.ordered fun s =>
      let r := (s.core.table t.toNat).tabchk
      .next ((s.upd fun k => k.setTable t.toNat r.1).setS d r.2).advance)

def execPpuld (a : Reg) (_w : BitVec 1) (s : State) : Out :=
  let va := (s.src a 0).toNat
  s.issue { ss := [(a, 0)] }
    (s.ordered fun s =>
      if va % 8 ≠ 0 then s.trap 0x185#10 0#64
      else
        s.readImage true true va 1296 fun s img =>
          match ppuFault img with
          | some c => s.trap c 0#64
          | none => .next (s.upd fun k => { k with ppu := tabOf 0#8 img }).advance)

def execPpurd (d a : Reg) (_w : BitVec 1) (s : State) : Out :=
  let o := (s.src a 0).toNat
  s.issue { ss := [(a, 0)], ds := [d] }
    (s.ordered fun s =>
      if 1292 < o ∨ o % 4 ≠ 0 then s.trap 0x185#10 0#64
      else .next (s.setS d (BitVec.ofNat 64 (ppuWord s.core.ppu o))).advance)

def execEnc (d a : Reg) (_w : BitVec 1) (t : BitVec 2) (s : State) : Out :=
  let x := s.src a 0
  s.issue { ss := [(a, 0)], ds := [d] }
    (s.ordered fun s =>
      let tab := s.core.table t.toNat
      match tab.encode (fmt64.val x.toNat) with
      | .error c => s.encodeTrap c 0 t.toNat
      | .ok (c, sat) => .next ((s.setS d (BitVec.ofNat 64 c)).flags (encodeFlags sat [fmt64.val x.toNat])).advance)

def execDec (d a : Reg) (_w : BitVec 1) (t : BitVec 2) (s : State) : Out :=
  let x := s.src a 0
  s.issue { ss := [(a, 0)], ds := [d] }
    (s.ordered fun s =>
      let v := (s.core.table t.toNat).decode (wfield x 0 8)
      .next (s.setS d (BitVec.ofNat 64 (fmt64.roundVal 0 v).bits)).advance)

end Sys2Proof.Machine
end

