-- ==== Sys2Proof/Machine/Slot.lean ====
section
/-! DEFINITION. Matrix slots: their words, elements and products, the drain conversion, the completion of a chain
(R120 to R123, R135 to R144, R148, R152 to R155, R183 to R185). -/

namespace Sys2Proof.Machine

def Core.slot (k : Core) (n : Nat) : MSlot := tget n k.mslots {}
def Core.setSlot (k : Core) (n : Nat) (x : MSlot) : Core := { k with mslots := tset n x k.mslots }

/-- A queued command names slot n. -/
def Core.namesSlot (k : Core) (n : Nat) : Bool := k.mqueue.any fun q => decide (q.slot = n)

def MSlot.elem (x : MSlot) (i : Nat) : Elem := tget i x.elems {}

/-- The slot with every element given by f; elements equal to zero are not listed. -/
def MSlot.build (x : MSlot) (f : Nat → Elem) : MSlot :=
  { x with
    elems :=
      (List.range 1024).filterMap fun i =>
        let e := f i
        if e = {} then none else some (i, e) }

def MSlot.clear (x : MSlot) : MSlot := { x with elems := [] }

/-! ## Words (R121, R122, R135, R183 to R185) -/

/-- The slot status word. -/
def MSlot.statusWord (x : MSlot) : Word :=
  let any (p : Elem → Bool) : Nat := if x.elems.any fun r => p r.2 then 1 else 0
  BitVec.ofNat 64
    ((x.scale % 1024).toNat + x.headroom * 2 ^ 10 + (x.elems.foldl (fun n r => max n r.2.count) 0) * 2 ^ 16 +
      any Elem.nan * 2 ^ 48 + any Elem.pinf * 2 ^ 49 + any Elem.ninf * 2 ^ 50 + any Elem.clip * 2 ^ 51)

/-- The width-preserving word of an element (R122). -/
def Elem.word (e : Elem) : Nat :=
  (e.v % (2 ^ 56 : Nat)).toNat + (if e.nan then 2 ^ 56 else 0) + (if e.pinf then 2 ^ 57 else 0) +
    (if e.ninf then 2 ^ 58 else 0) + if e.clip then 2 ^ 59 else 0

/-- The element of a width-preserving word, with a count. -/
def Elem.ofWord (w count : Nat) : Elem :=
  { v := sint w 56
    nan := w.testBit 56
    pinf := w.testBit 57
    ninf := w.testBit 58
    clip := w.testBit 59
    count := count }

/-- E of a slot word or chain word. -/
def wordScale (w : Word) : Int := sint (wfield w 0 10) 10
def wordHeadroom (w : Word) : Nat := wfield w 10 5
def wordCount (w : Word) : Nat := wfield w 16 25

def badSlotWord (w : Word) : Bool := decide (2 ^ 15 ≤ w.toNat) || decide (24 < wordHeadroom w)

/-- A malformed chain word; MLDACC allows a NEXP of 0 (R135, R190). -/
def badChainWord (zeroOk : Bool) (w : Word) : Bool :=
  decide (2 ^ 41 ≤ w.toNat) || wbit w 15 || decide (24 < wordHeadroom w) || (!zeroOk && decide (wordCount w = 0)) ||
    decide (2 ^ wordHeadroom w < wordCount w)

/-- A malformed format context (R183). -/
def badContext (w : Word) : Bool :=
  let bad (lo tab sc so : Nat) : Bool :=
    decide (3 < wfield w lo 3) || (decide (wfield w lo 3 ≠ 3) && (decide (wfield w tab 2 ≠ 0) || wbit w sc)) ||
      (decide (wfield w so 16 ≠ 0) && !wbit w sc)
  decide (wfield w 14 18 ≠ 0) || decide (wfield w 6 2 ≠ 0) || bad 0 3 5 32 || bad 8 11 13 48

/-- A malformed geometry (R184). -/
def badGeometry (w : Word) : Bool :=
  decide (wfield w 15 17 ≠ 0) || decide (wfield w 32 3 ≠ 0) || decide (wfield w 48 3 ≠ 0)

def geoM (w : Word) : Nat := wfield w 0 5 + 1
def geoN (w : Word) : Nat := wfield w 5 5 + 1
def geoK (w : Word) : Nat := wfield w 10 5 + 1
def geoSA (w : Word) : Nat := wfield w 32 16
def geoSB (w : Word) : Nat := wfield w 48 16

/-! ## Operands (R119, R131, R136, R184) -/

/-- How an operand is stored. -/
inductive ElemFmt where
  | bf16 | fp16 | fp32 | code8 | code4
deriving DecidableEq, Repr

/-- Bytes of n elements, counted in nibbles for 4-bit codes. -/
def ElemFmt.bytes (f : ElemFmt) (n : Nat) : Nat :=
  match f with
  | .bf16 => 2 * n
  | .fp16 => 2 * n
  | .fp32 => 4 * n
  | .code8 => n
  | .code4 => (n + 1) / 2

/-- Element i of a row of bytes, decoded to e8m10. -/
def ElemFmt.elem (f : ElemFmt) (t : DecTab) (row : List Byte) (i : Nat) : Fl :=
  match f with
  | .bf16 => fmtBF.val (imgNat row (2 * i) 2)
  | .fp16 => fmt16.val (imgNat row (2 * i) 2)
  | .fp32 => toE8m10 (fmt32.val (imgNat row (4 * i) 4))
  | .code8 => t.decode (imgByte row i)
  | .code4 => t.decode (imgByte row (i / 2) / (if i % 2 = 0 then 1 else 16) % 16)

/-- The format of an operand whose field of the format context starts at lo, through the tables of core k. -/
def Core.elemFmt (k : Core) (w : Word) (lo tab : Nat) : ElemFmt :=
  if wfield w lo 3 = 0 then .bf16
  else if wfield w lo 3 = 1 then .fp16
  else if wfield w lo 3 = 2 then .fp32
  else if (k.table (wfield w tab 2)).four then .code4
  else .code8

/-! ## Products on the grid (R120, R140, R141) -/

/-- A product, of any class; none of infinity times zero is NaN. -/
def product (x y : Fl) : Fl := (mulVal x y).getD (.nan false false)

/-- One product enters an element (R141). -/
def Elem.accumulate (e : Elem) (scale : Int) (headroom : Nat) (p : Fl) : Elem :=
  match p with
  | .nan _ _ => { e with nan := true }
  | .inf neg => if neg then { e with ninf := true } else { e with pinf := true }
  | .fin neg m ex =>
    let q := (roundAt 0 neg m (scale - ex)).1
    let bound := 2 ^ (55 - headroom) - 1
    let r := min q bound
    { e with v := if neg then e.v - r else e.v + r, clip := e.clip || decide (bound < q) }

/-- The M x N region takes K products in each element; A is given by rows, B by columns (R137). -/
def MSlot.multiply (x : MSlot) (m n k : Nat) (negated : Bool) (a b : List (List Fl)) : MSlot :=
  x.build fun p =>
    let i := p / 32
    let j := p % 32
    let e := x.elem p
    if i < m ∧ j < n then
      let e' :=
        ((a.getD i []).zip (b.getD j [])).foldl
          (fun e z =>
            let y := product z.1 z.2
            e.accumulate x.scale x.headroom (if negated then y.flip else y))
          e
      { e' with count := e.count + k }
    else e

/-- Sum of two elements (R146, R147). -/
def Elem.join (a b : Elem) : Elem :=
  { v := a.v + b.v
    nan := a.nan || b.nan
    pinf := a.pinf || b.pinf
    ninf := a.ninf || b.ninf
    clip := a.clip || b.clip
    count := a.count + b.count }

/-! ## Chains (R148) -/

/-- The chain of slot n of core c closes, and its future is fulfilled with the slot status word. -/
def State.closeChain (s : State) (c : CoreId) (n : Nat) : State :=
  let k := s.getCore c
  let x := k.slot n
  (s.setCore c (k.setSlot n { x with isOpen := false, future := 0 })).engineFulfil c (k.context.getD 64) x.future 2
    x.statusWord.toNat

/-- Every element's count equals NEXP. -/
def MSlot.complete (x : MSlot) : Bool :=
  x.isOpen && decide (x.elems.length = 1024) && x.elems.all fun r => decide (r.2.count = x.nexp)

/-- A chain that is complete closes. -/
def State.checkChain (s : State) (c : CoreId) (n : Nat) : State :=
  if ((s.getCore c).slot n).complete then s.closeChain c n else s

/-! ## Drains (R123, R152 to R155, R185) -/

/-- The value of an element (R123). A NaN element has no sign in the A56 format; it counts as one of sign 0, so that a coded
drain through an SM table writes the NaN code of the positive half (R128; DESIGN CHOICE, log 76). -/
def Elem.val (e : Elem) (scale : Int) : Fl :=
  if e.nan ∨ (e.pinf ∧ e.ninf) then .nan false false
  else if e.pinf then .inf false
  else if e.ninf then .inf true
  else .fin (decide (e.v < 0)) e.v.natAbs scale

/-- The output format of a drain-option word. -/
inductive OutFmt where
  | ieee (f : Fmt)
  | code (tab : Nat)

def outFmt (w : Word) : OutFmt :=
  if wfield w 0 4 = 0 then .ieee fmt32
  else if wfield w 0 4 = 1 then .ieee fmtBF
  else if wfield w 0 4 = 2 then .ieee fmt16
  else .code (wfield w 6 2)

def drainCoded (w : Word) : Bool := decide (wfield w 0 4 = 3)
def drainRows (w : Word) : Nat := wfield w 8 16
def drainSoff (w : Word) : Nat := wfield w 24 16
def drainToff (w : Word) : Int := sint (wfield w 40 24) 24

/-- Bytes of a row of n output elements. -/
def outBytes (k : Core) (w : Word) (n : Nat) : Nat :=
  match outFmt w with
  | .ieee f => n * (f.w / 8)
  | .code t => if (k.table t).four then (n + 1) / 2 else n

/-- A malformed drain-option word for an M x N tile (R185). -/
def badDrain (k : Core) (w : Word) (dual : Bool) (m n : Nat) : Bool :=
  decide (3 < wfield w 0 4) || decide (wfield w 4 2 ≠ 0) ||
    (!drainCoded w && (decide (wfield w 6 2 ≠ 0) || decide (drainSoff w ≠ 0))) ||
    (!dual && decide (wfield w 40 24 ≠ 0)) || decide (wfield w 40 3 ≠ 0) || decide (wfield w 8 3 ≠ 0) ||
    decide (drainRows w < outBytes k w n) || (dual && decide (drainRows w < outBytes k w m))

/-- The codes of one block with its scale, or the failing element and its cause (R153): the lowest element that fails. -/
def drainBlock (t : DecTab) (l : List (Nat × Fl)) : Except (Nat × Cause) (List Nat × Nat) :=
  let lm := t.lmax
  match blockScale (amax (l.map fun x => x.2)) lm with
  | some s =>
    match t.encodeAll 0 (l.map fun x => x.2.scale (127 - (s : Int))) with
    | .ok (cs, _) => .ok (cs, s)
    | .error (i, c) => .error ((l.getD i (0, .nan false false)).1, c)
  | none =>
    let bad (x : Nat × Fl) : Option Cause :=
      let code : Option Cause := match t.encode x.2 with | .error c => some c | .ok _ => none
      match x.2 with
      | .fin _ m e => if m = 0 then code else if lm.lt (.fin false m (e - 127)) then some 0x147#10 else none
      | _ => code
    match l.find? fun x => (bad x).isSome with
    | some x => .error (x.1, (bad x).getD 0x147#10)
    | none => .error ((l.headD (0, .nan false false)).1, 0x147#10)

/-- The bytes of a row of codes; a nibble that no element fills is free (R131). -/
def packCodes (four : Bool) (spare : Nat) (cs : List Nat) : List Byte :=
  if four then
    (List.range ((cs.length + 1) / 2)).map fun i =>
      BitVec.ofNat 8 (cs.getD (2 * i) 0 % 16 + 16 * (cs.getD (2 * i + 1) spare % 16))
  else cs.map fun c => BitVec.ofNat 8 c

/-- Of two failures, the one at the lower element. -/
def lowerFault (a b : Nat × Cause) : Nat × Cause := if b.1 < a.1 then b else a

/-- The rows of one copy with their scale bytes; the lines are given with the elements' places in T. An output through a
table that is not verified is 0x182 whatever the elements are (R128, R189). -/
def drainCopy (k : Core) (w : Word) (lines : List (List (Nat × Fl))) :
    Except (Nat × Cause) (List (List Byte) × List Byte) :=
  match outFmt w with
  | .ieee f => .ok (lines.map fun l => l.flatMap fun x => natBytes (f.roundVal 0 x.2).bits (f.w / 8), [])
  | .code t =>
    if !(k.table t).verified then .error (0, 0x182#10)
    else
      lines.foldl
        (fun acc l =>
          match acc, drainBlock (k.table t) l with
          | .ok (rs, ss), .ok (cs, s) => .ok (rs ++ [packCodes (k.table t).four (Config.spareNibble cs) cs], ss ++ [BitVec.ofNat 8 s])
          | .error e, .ok _ => .error e
          | .ok _, .error e => .error e
          | .error d, .error e => .error (lowerFault d e))
        (.ok ([], []))

/-- The rows of T, and of its transpose. -/
def MSlot.rows (x : MSlot) (m n : Nat) : List (List (Nat × Fl)) :=
  (List.range m).map fun i => (List.range n).map fun j => (32 * i + j, (x.elem (32 * i + j)).val x.scale)
def MSlot.columns (x : MSlot) (m n : Nat) : List (List (Nat × Fl)) :=
  (List.range n).map fun j => (List.range m).map fun i => (32 * i + j, (x.elem (32 * i + j)).val x.scale)

/-- The whole conversion: the bytes in the order of the writes (R189), or the lowest failing element and its cause. -/
def MSlot.drain (x : MSlot) (k : Core) (w : Word) (dual : Bool) : Except (Nat × Cause) (List Byte) :=
  let m := geoM x.geometry
  let n := geoN x.geometry
  let tile := drainCopy k w (x.rows m n)
  if !dual then tile.map fun r => r.1.flatten ++ r.2
  else
    match tile, drainCopy k w (x.columns m n) with
    | .ok a, .ok b => .ok (a.1.flatten ++ a.2 ++ b.1.flatten ++ b.2)
    | .error e, .ok _ => .error e
    | .ok _, .error e => .error e
    | .error d, .error e => .error (lowerFault d e)

/-- The accesses of one copy at base: its rows, then its scale bytes; off is the place of its first byte among all. -/
def copyAccesses (base rows len lines : Nat) (scales : Option Nat) (off : Nat) : List (Nat × Nat × Nat) :=
  ((List.range lines).map fun i => ((base + i * rows) % 2 ^ 64, len, off + i * len)) ++
    match scales with
    | some so => [((base + so) % 2 ^ 64, lines, off + lines * len)]
    | none => []

/-- The accesses of a drain, in the order of its writes (R189). -/
def drainAccesses (k : Core) (geometry w : Word) (dual : Bool) (a : Word) : List (Nat × Nat × Nat) :=
  let m := geoM geometry
  let n := geoN geometry
  let so := if drainCoded w then some (drainSoff w) else none
  let total := m * outBytes k w n + if drainCoded w then m else 0
  copyAccesses a.toNat (drainRows w) (outBytes k w n) m so 0 ++
    if dual then
      copyAccesses (a + BitVec.ofInt 64 (drainToff w)).toNat (drainRows w) (outBytes k w m) n so total
    else []

end Sys2Proof.Machine
end

