-- ==== Sys2Proof/Machine/Matrix.lean ====
section
/-! DEFINITION. The matrix-engine commands: their issue, and what a queued command does when the engine performs it
(R137 to R139, R181 to R191, R239, R387). -/

namespace Sys2Proof.Machine

/-! ## The queue (R139, R181) -/

/-- A queued command that stalls until it completes (w = 1) goes on once it has left the queue. -/
def State.resumeWait (s : State) (body : Out) : Out :=
  if s.core.pendingWait then (if s.core.mqueue.any fun q => q.waits then s.waits else .next s.advance) else body

/-- The command enters the queue; with w = 1 the core waits for it. -/
def State.enqueue (s : State) (w : BitVec 1) (q : QCmd) : Out :=
  let s := s.upd fun k =>
    { k with
      mqueue := k.mqueue ++ [{ q with waits := w == 1#1, system := k.system, keys := s.keysNow, card := k.card }] }
  if w = 1#1 then (s.upd fun k => { k with pendingWait := true }).waits else .next s.advance

def Core.queueFull (k : Core) : Bool := decide (2 ≤ k.mqueue.length)

/-- The plan of a command's accesses; a write whose translation finds WB = 1 goes on, marked (R182). -/
def State.cmdPart (s : State) (acc : Access) (va base off len : Nat) : Plan :=
  match s.translate acc (va + off) with
  | .blocked e a =>
    .go [{ off := base + off, len := len, va := va + off, place := placeOf a, addr := a, pte := e, blocked := true }]
  | _ => s.planPart acc va base off len

def State.cmdPlan (s : State) (acc : Access) (l : List (Nat × Nat × Nat)) : Plan :=
  l.foldl (fun p x => (splitAccess x.1 x.2.1).foldl (fun p y => p.join (s.cmdPart acc x.1 x.2.2 y.1 y.2)) p) (.go [])

def spansOf (acc : Access) (ps : List Piece) : List Span :=
  ps.map fun p =>
    { va := p.va
      len := p.len
      place := p.place
      addr := p.addr
      off := p.off
      wr := acc == .store
      counted := wbit p.pte 8
      blocked := p.blocked }

/-- Translate the accesses of a command at its issue; the body gets its spans (R182). -/
def State.translated (s : State) (acc : Access) (l : List (Nat × Nat × Nat)) (body : List Span → Out) : Out :=
  match s.cmdPlan acc l with
  | .trap c v => s.trap c (BitVec.ofNat 64 v)
  | .miss v => s.startWalk v acc
  | .blocked _ => s.stall
  | .go ps => body (spansOf acc ps)

/-! ## Immediate commands (R187, R191) -/

/-- An immediate command on a slot, after every queued command that names it. -/
def State.onSlot (s : State) (n : BitVec 2) (body : State → MSlot → Out) : Out :=
  s.ordered fun s => if s.core.namesSlot n.toNat then s.stall else body s (s.core.slot n.toNat)

def execMcfg (a b : Reg) (_w : BitVec 1) (n : BitVec 2) (s : State) : Out :=
  let x := s.src a 0
  let y := s.src b 0
  s.issue { ss := [(a, 0), (b, 0)] }
    (s.onSlot n fun s m =>
      if m.isOpen then s.trap 0x144#10 0#64
      else if badContext x then s.trap 0x141#10 0#64
      else if badSlotWord y then s.trap 0x145#10 0#64
      else
        .next
          (s.upd fun k =>
            k.setSlot n.toNat { m.clear with context := x, scale := wordScale y, headroom := wordHeadroom y }).advance)

def execMgeo (a : Reg) (_w : BitVec 1) (n : BitVec 2) (s : State) : Out :=
  let x := s.src a 0
  s.issue { ss := [(a, 0)] }
    (s.onSlot n fun s m =>
      if badGeometry x then s.trap 0x141#10 0#64
      else .next (s.upd fun k => k.setSlot n.toNat { m with geometry := x }).advance)

def execMzero (_w : BitVec 1) (n : BitVec 2) (s : State) : Out :=
  s.issue {}
    (s.onSlot n fun s m =>
      if m.isOpen then s.trap 0x144#10 0#64 else .next (s.upd fun k => k.setSlot n.toNat m.clear).advance)

def execMstat (d : Reg) (_w : BitVec 1) (n : BitVec 2) (s : State) : Out :=
  s.issue { ds := [d] } (s.onSlot n fun s m => .next (s.setS d m.statusWord).advance)

/-- MWAIT: a wait of R431 for the commands on its slot. -/
def execMwait (_w : BitVec 1) (n : BitVec 2) (s : State) : Out :=
  s.issue {} (s.ordered fun s => if s.core.namesSlot n.toNat then s.waits else .next s.advance)

/-! ## MMA, MMAT, MMAS (R137, R138, R188) -/

/-- The products that the queued commands on a slot still bring (R138). -/
def Core.queuedProducts (k : Core) (n : Nat) : Nat :=
  (k.mqueue.map fun q =>
    if q.slot = n then match q.cmd with | .mma _ _ => geoK q.geometry | .task _ _ => 32 | _ => 0 else 0).sum

/-- K products more would take an element of the M x N region past 2^H, or past NEXP while the chain is open (R138). The
counts and H are those that the slot has now, with the products of queued multiplications; what a queued MLDACC or CADD will
make of them is not foreseen (DESIGN CHOICE, log 61). -/
def Core.overCount (k : Core) (n : Nat) (m nn kk : Nat) : Bool :=
  let x := k.slot n
  let top :=
    (List.range m).foldl (fun t i => (List.range nn).foldl (fun t j => max t (x.elem (32 * i + j)).count) t) 0
  let c := top + k.queuedProducts n + kk
  decide (2 ^ x.headroom < c) || (x.isOpen && decide (x.nexp < c))

/-- Where the rows and scales of operand A begin among the bytes a command reads. -/
def aOff (r : Nat) : Nat := 128 * r
def aScaleOff : Nat := 4096
def bOff (r : Nat) : Nat := 8192 + 128 * r
def bScaleOff : Nat := 12288

/-- The accesses of a multiply (R183, R184). -/
def Core.mmaAccesses (k : Core) (x : MSlot) (transposed : Bool) (a b : Nat) : List (Nat × Nat × Nat) :=
  let g := x.geometry
  let w := x.context
  let fa := k.elemFmt w 0 3
  let fb := k.elemFmt w 8 11
  let at_ (base : Nat) : Nat := base % 2 ^ 64
  ((List.range (if transposed then geoK g else geoM g)).map fun r =>
      (at_ (a + r * geoSA g), fa.bytes (if transposed then geoM g else geoK g), aOff r)) ++
    ((List.range (geoK g)).map fun r => (at_ (b + r * geoSB g), fb.bytes (geoN g), bOff r)) ++
    (if wbit w 5 then [(at_ (a + wfield w 32 16), geoM g, aScaleOff)] else []) ++
    if wbit w 13 then [(at_ (b + wfield w 48 16), geoN g, bScaleOff)] else []

/-- A multiply is checked and enqueued. -/
def State.mma (s : State) (transposed negated : Bool) (a b : Reg) (w : BitVec 1) (n : BitVec 2) : Out :=
  let x := s.src a 0
  let y := s.src b 0
  s.issue { ss := [(a, 0), (b, 0)] }
    (s.resumeWait
      (s.ordered fun s =>
        if s.core.queueFull then s.stall
        else
          let m := s.core.slot n.toNat
          s.translated .load (s.core.mmaAccesses m transposed x.toNat y.toNat) fun spans =>
            if x.toNat % 8 ≠ 0 ∨ y.toNat % 8 ≠ 0 then s.trap 0x143#10 0#64
            else if s.core.overCount n.toNat (geoM m.geometry) (geoN m.geometry) (geoK m.geometry) then
              s.trap 0x140#10 0#64
            else
              s.enqueue w
                { cmd := .mma transposed negated
                  slot := n.toNat
                  a := x
                  b := y
                  context := m.context
                  geometry := m.geometry
                  spans := spans }))

def execMma (a b : Reg) (w : BitVec 1) (n : BitVec 2) (s : State) : Out := s.mma false false a b w n
def execMmat (a b : Reg) (w : BitVec 1) (n : BitVec 2) (s : State) : Out := s.mma true false a b w n
def execMmas (a b : Reg) (w : BitVec 1) (n : BitVec 2) (s : State) : Out := s.mma false true a b w n

/-! ## MDRAIN, MLDACC, MSTACC (R189, R190) -/

/-- MDRAIN: it waits for the earlier commands, converts precisely, and enqueues its writes. -/
def execMdrain (a b : Reg) (w : BitVec 1) (u : BitVec 1) (n : BitVec 2) (s : State) : Out :=
  let x := s.src a 0
  let y := s.src b 0
  let dual := u == 1#1
  s.issue { ss := [(a, 0), (b, 0)] }
    (s.resumeWait
      (s.ordered fun s =>
        let m := s.core.slot n.toNat
        if m.isOpen then s.trap 0x144#10 0#64
        else if badDrain s.core y dual (geoM m.geometry) (geoN m.geometry) then s.trap 0x141#10 0#64
        else if x.toNat % 8 ≠ 0 then s.trap 0x143#10 0#64
        else
          s.translated .store (drainAccesses s.core m.geometry y dual x) fun spans =>
            if drainCoded y && !(s.core.table (wfield y 6 2)).verified then s.trap 0x182#10 0#64
            else if !s.core.mqueue.isEmpty then s.stall
            else
              match m.drain s.core y dual with
              | .error (i, c) => s.trap c (BitVec.ofNat 64 i)
              | .ok bytes =>
                s.enqueue w
                  { cmd := .mdrain dual, slot := n.toNat, a := x, b := y, spans := spans, out := bytes }))

/-- MLDACC: it waits for the earlier commands, reads and checks every word precisely, and enqueues the load. -/
def execMldacc (a b : Reg) (w : BitVec 1) (n : BitVec 2) (s : State) : Out :=
  let x := s.src a 0
  let y := s.src b 0
  s.issue { ss := [(a, 0), (b, 0)] }
    (s.resumeWait
      (s.ordered fun s =>
        if (s.core.slot n.toNat).isOpen then s.trap 0x144#10 0#64
        else if badChainWord true y then s.trap 0x145#10 0#64
        else if x.toNat % 8 ≠ 0 then s.trap 0x143#10 0#64
        else if !s.core.mqueue.isEmpty then s.stall
        else
          s.readImage true false x.toNat 8192 fun s img =>
            let ws := (List.range 1024).map fun i => imgNat img (8 * i) 8
            let es := ws.map fun v => Elem.ofWord v (wordCount y)
            let bound : Nat := wordCount y * (2 ^ (55 - wordHeadroom y) - 1)
            if ws.any fun v => decide (2 ^ 60 ≤ v) then s.trap 0x102#10 0#64
            else if es.any fun e => !(e.nan || e.pinf || e.ninf) && decide (bound < e.v.natAbs) then
              s.trap 0x142#10 0#64
            else s.enqueue w { cmd := .mldacc, slot := n.toNat, a := x, b := y, elems := es }))

/-- MSTACC: enqueued with its translations; d is empty until the engine reads the slot. -/
def execMstacc (d a : Reg) (w : BitVec 1) (n : BitVec 2) (s : State) : Out :=
  let x := s.src a 0
  s.issue { ss := [(a, 0)], ds := [d] }
    (s.resumeWait
      (s.ordered fun s =>
        if (s.core.slot n.toNat).isOpen then s.trap 0x144#10 0#64
        else if x.toNat % 8 ≠ 0 then s.trap 0x143#10 0#64
        else if s.core.queueFull then s.stall
        else
          s.translated .store (blockAccesses x.toNat 8192) fun spans =>
            (s.upd fun k => k.emptyS d).enqueue w
              { cmd := .mstacc, slot := n.toNat, a := x, d := d, spans := spans }))

/-! ## The engine performs a command (R137, R139, R240, R387) -/

/-- What the reckoning notes of a write of at most one line (R218, R388). -/
def State.noteWrite (s : State) (ctx : Nat) (place : Place) (n : Nat) : State :=
  match place with
  | .scratch _ => s
  | .hbm => s.countHbm ctx
  | .host => s.countCtx ctx 4 128
  | .peer => s.countCtx ctx 5 n

/-- What a write of core c's engines to lines of HBM does to the copies of them that the core's own loads could find: its L1
and its near slice drop them (R222, R234, R240). -/
def State.dropLines (s : State) (c : CoreId) (addr n : Nat) : State :=
  let lo := addr / 128
  let hi := (addr + n - 1) / 128
  ((s.noFill c fun l => decide (lo ≤ l) && decide (l ≤ hi)).dropNear c lo hi).mapCore c fun k =>
    { k with
      l1d := k.l1d.filter fun r => r.1 < lo || hi < r.1
      l1i := k.l1i.filter fun r => r.1 < lo || hi < r.1 }

/-- A write of core c's engines at its point, that of its line if note says so (R388). -/
def State.engineStore (s : State) (c : CoreId) (ctx : Nat) (place : Place) (addr va : Nat) (bytes : List Byte)
    (note : Bool) : State :=
  let key := keyOf place addr
  let n := bytes.length
  if n = 0 then s
  else if s.poisonPart key n then s.chargeAt ctx place addr n
  else
    let s := (s.watchEngine c .store place addr n va).writeAt ctx key n (bytesNat bytes)
    let s := if place = .host ∧ !note then s else s.noteWrite ctx place n
    if place = .hbm then s.dropLines c addr n else s

/-- The stores that bring bytes to the host: one for each granule (R221, R262). -/
def hostStores (c : CoreId) (ctx addr va : Nat) (bytes : List Byte) : List Req :=
  (granulesOf addr bytes.length).map fun x =>
    { src := c
      ctx := ctx
      place := .host
      addr := addr + x.1
      size := x.2
      kind := .store
      data := BitVec.ofNat 64 (bytesNat ((bytes.drop x.1).take x.2))
      va := BitVec.ofNat 64 (va + x.1) }

/-- A write of core c's engines: one to a host frame is performed for the engine once it stands in the endpoint's transmit
order (R265). -/
def State.engineWrite (s : State) (c : CoreId) (ctx : Nat) (place : Place) (addr va : Nat) (bytes : List Byte)
    (note : Bool) : State :=
  if place = .host then
    let s := s.watchEngine c .store place addr bytes.length va
    let s := if note then s.noteWrite ctx place bytes.length else s
    { s with hostq := s.hostq ++ hostStores c ctx addr va bytes }
  else s.engineStore c ctx place addr va bytes note

/-- An access of core c to a granule of n bytes is on its way. -/
def State.ownNear (s : State) (c : CoreId) (place : Place) (addr n : Nat) : Bool :=
  let hit (r : Req) : Bool := decide (r.src = c) && decide (r.place = place) && sameGranule r.addr r.size addr n
  (s.getCore c).outq.any hit || s.flight.any hit

/-- The bytes that a span writes. -/
def spanBytes (q : QCmd) (p : Span) : List Byte := (q.out.drop p.off).take p.len

/-- A write of a command is made at a place, if the write log has room and no earlier access of the core to one of its
granules is on its way (R236, R240). -/
def State.writeSpan (s : State) (c : CoreId) (q : QCmd) (p : Span) (pl : Place) (a : Nat) : Option (State × Span) :=
  let ctx := (s.getCore c).context.getD 64
  if (pl = .hbm ∧ !s.canLog ctx a) ∨ s.ownNear c pl a p.len then none
  else some (s.engineWrite c ctx pl a p.va (spanBytes q p) true, { p with done := true })

/-- A write of a command goes on, if it can: it is made; or WB = 1 holds it back and it translates again, until 1,000,000 ns
after its first stall it is left out, with 0x209 (R387). -/
def State.spanStep (s : State) (c : CoreId) (q : QCmd) (p : Span) : Option (State × Span) :=
  if !p.blocked then s.writeSpan c q p p.place p.addr
  else
    match s.engineTranslate c ((s.getCore c).context.getD 64) q.keys q.system .store p.va with
    | (.ok pl a _, t) => t.writeSpan c q p pl a
    | _ =>
      match p.since with
      | none => some (s, { p with since := some s.time })
      | some t =>
        if t + 1000000 ≤ s.time then
          some (s.mapCore c fun k => k.pendAsync 0x209#10 (BitVec.ofNat 64 p.va), { p with done := true })
        else none

/-- The writes of a command, each as it can be made, but after the earlier ones to its bytes (R189, R387): the first only, or
every one. With it, whether any went on. -/
def State.writeSpans (c : CoreId) (q : QCmd) (one : Bool) : List Span → List Span → Bool → State → State × List Span × Bool
  | [], seen, moved, s => (s, seen, moved)
  | p :: l, seen, moved, s =>
    if p.done || (one && moved) || seen.any fun e => !e.done && overlaps e.va e.len p.va p.len then
      State.writeSpans c q one l (seen ++ [p]) moved s
    else
      match s.spanStep c q p with
      | some (t, p') => State.writeSpans c q one l (seen ++ [p']) true t
      | none => State.writeSpans c q one l (seen ++ [p]) moved s

/-- The span that holds byte o of what a command reads. -/
def QCmd.spanOf (q : QCmd) (o : Nat) : Option Span :=
  q.spans.find? fun p => decide (p.off ≤ o) && decide (o < p.off + p.len)

/-- Byte o among the bytes that a command reads: as the engine has read its granule, or as memory holds it (R139, R257). -/
def State.readByte (s : State) (q : QCmd) (o : Nat) : Byte :=
  match q.spanOf o with
  | some p =>
    let key := keyOf p.place (p.addr + (o - p.off))
    (tfind key q.taken).getD (memByte s.mem key)
  | none => 0#8

def State.readRow (s : State) (q : QCmd) (o n : Nat) : List Byte := (List.range n).map fun i => s.readByte q (o + i)

/-- The products of a multiply enter its slot. -/
def State.performMma (s : State) (c : CoreId) (q : QCmd) (transposed negated : Bool) : State :=
  let k := s.getCore c
  let g := q.geometry
  let w := q.context
  let fa := k.elemFmt w 0 3
  let fb := k.elemFmt w 8 11
  let ta := k.table (wfield w 3 2)
  let tb := k.table (wfield w 11 2)
  let rowA := (List.range (if transposed then geoK g else geoM g)).map fun r =>
    s.readRow q (aOff r) (fa.bytes (if transposed then geoM g else geoK g))
  let rowB := (List.range (geoK g)).map fun r => s.readRow q (bOff r) (fb.bytes (geoN g))
  let sa (i : Nat) : Nat := if wbit w 5 then (s.readByte q (aScaleOff + i)).toNat else 127
  let sb (j : Nat) : Nat := if wbit w 13 then (s.readByte q (bScaleOff + j)).toNat else 127
  let a := (List.range (geoM g)).map fun i =>
    (List.range (geoK g)).map fun kk =>
      scaled (if transposed then fa.elem ta (rowA.getD kk []) i else fa.elem ta (rowA.getD i []) kk) (sa i)
  let b := (List.range (geoN g)).map fun j =>
    (List.range (geoK g)).map fun kk => scaled (fb.elem tb (rowB.getD kk []) j) (sb j)
  let x := (k.slot q.slot).multiply (geoM g) (geoN g) (geoK g) negated a b
  let s := s.setCore c (k.setSlot q.slot x)
  (s.countCtx (k.context.getD 64) 1 (geoM g * geoN g * geoK g)).checkChain c q.slot

/-- The rows of a CADD enter the carry network, and its slot is cleared (R145). -/
def State.sendRows (s : State) (c : CoreId) (q : QCmd) : State :=
  let k := s.getCore c
  let x := k.slot q.slot
  let rows : List CarryRow :=
    (List.range 32).map fun r =>
      { ctx := k.context.getD 64
        dst := wfield q.a 0 12
        dslot := wfield q.b 0 2
        row := r
        src := c
        sslot := q.slot
        scale := x.scale
        headroom := x.headroom
        elems := (List.range 32).map fun j => x.elem (32 * r + j) }
  let s := s.setCore c (k.setSlot q.slot x.clear)
  ({ s with rows := s.rows ++ rows } : State).countCtx (k.context.getD 64) 6 32

/-- The command at the head of core c's queue is done and the next one starts. -/
def State.popCommand (s : State) (c : CoreId) : State := s.mapCore c fun k => { k with mqueue := k.mqueue.tail }

/-- The head of the queue is replaced. -/
def State.setHead (s : State) (c : CoreId) (q : QCmd) : State :=
  s.mapCore c fun k => { k with mqueue := q :: k.mqueue.tail }

/-- The writes of MDRAIN and MSTACC, one of them or all that can be made now; the command is complete when none is left.
None is a moment at which nothing can happen (R387). -/
def State.finishWrites (s : State) (c : CoreId) (q : QCmd) (one : Bool) : Option State :=
  let r := State.writeSpans c q one q.spans [] false s
  if r.2.1.all fun p => p.done then some (r.1.popCommand c)
  else if r.2.2 then some (r.1.setHead c { q with spans := r.2.1, started := true })
  else none

/-- A read of the command's operands waits for a store of the core to one of the bytes (R239). -/
def State.operandsBusy (s : State) (c : CoreId) (q : QCmd) : Bool :=
  q.spans.any fun p => s.storeNear c false p.place p.addr p.len

/-- The engine reads the granule of byte o of the operands, before the rest, once for every row that holds it (R139, R257). -/
def State.takeOperand (s : State) (c : CoreId) (q : QCmd) (o : Nat) : Option State :=
  match q.spanOf o with
  | none => none
  | some p =>
    let a := (p.addr + (o - p.off)) / 8 * 8
    if s.storeNear c false p.place a 8 || s.poisonIn (keyOf p.place a) 8 then none
    else
      some
        (s.setHead c
          { q with
            started := true
            taken :=
              (List.range 8).foldl
                (fun t i =>
                  let key := keyOf p.place (a + i)
                  if (tfind key t).isSome then t else tset key (memByte s.mem key) t)
                q.taken })

/-- The engine of core c makes one access of the command at the head of its queue (R257): it reads the granule of byte o of
the operands, or makes the next write. -/
def State.commandAccess (s : State) (c : CoreId) (o : Nat) : Option State :=
  match (s.getCore c).mqueue with
  | [] => none
  | q :: _ =>
    if !(s.engineLive c || q.started) then none
    else
      match q.cmd with
      | .mma _ _ => s.takeOperand c q o
      | .mdrain _ => s.finishWrites c q true
      | .mstacc => if q.started then s.finishWrites c q true else none
      | _ => none

/-- What the engine does with the command at the head of core c's queue, other than the commands of the ring; none if it
cannot be done yet. -/
def State.finishCommand (s : State) (c : CoreId) (q : QCmd) : Option State :=
  let k := s.getCore c
  let ctx := k.context.getD 64
  match q.cmd with
  | .mma transposed negated =>
    if s.operandsBusy c q then none
    else
      let s := q.spans.foldl (fun t p => t.watchEngine c .load p.place p.addr p.len p.va) s
      let s := q.spans.foldl (fun t p => t.noteRead ctx p.place p.addr p.len (if p.counted then 0x100#64 else 0#64)) s
      match q.spans.find? fun p => s.poisonIn (keyOf p.place p.addr) p.len with
      | some p => some (s.chargeAt ctx p.place p.addr p.len)
      | none => some ((s.performMma c q transposed negated).popCommand c)
  | .mdrain _ => s.finishWrites c q false
  | .mldacc =>
    let x := k.slot q.slot
    let x := { x with scale := wordScale q.b, headroom := wordHeadroom q.b }.build fun i => q.elems.getD i {}
    some ((s.setCore c (k.setSlot q.slot x)).popCommand c)
  | .mstacc =>
    if q.started then s.finishWrites c q false
    else
      let x := k.slot q.slot
      let bytes := (List.range 1024).flatMap fun i => natBytes (x.elem i).word 8
      some ((s.setCore c (k.fillS q.d x.statusWord)).setHead c { q with out := bytes, started := true })
  | .cadd ring =>
    if ring ∧ (k.slot q.slot).elems.all (fun r => decide (r.2.count = 0)) then some (s.popCommand c)
    else some (((s.sendRows c q).mapCore c fun k => k.fillS q.d 0#64).popCommand c)
  | .task _ _ => none
  | .pull _ _ => none

end Sys2Proof.Machine
end

