-- ==== Sys2Proof/Machine/Carry.lean ====
section
/-! DEFINITION. Carry chains: the CRY commands, rows in the network, and carry records (R143 to R149, R192, R193). -/

namespace Sys2Proof.Machine

def execChain (a b : Reg) (_w : BitVec 1) (n : BitVec 2) (s : State) : Out :=
  let x := s.src a 0
  let h := handleIn (s.src b 0)
  s.issue { ss := [(a, 0), (b, 0)] }
    (s.onSlot n fun s m =>
      if m.isOpen then s.trap 0x144#10 0#64
      else if badChainWord false x then s.trap 0x145#10 0#64
      else
        .next
          (s.upd fun k =>
            k.setSlot n.toNat
              { m.clear with
                scale := wordScale x
                headroom := wordHeadroom x
                nexp := wordCount x
                isOpen := true
                future := h
                card := k.card }).advance)

def execCadd (d a b : Reg) (w : BitVec 1) (n : BitVec 2) (s : State) : Out :=
  let x := s.src a 0
  let y := s.src b 0
  s.issue { ss := [(a, 0), (b, 0)], ds := [d] }
    (s.resumeWait
      (s.ordered fun s =>
        if (s.core.slot n.toNat).isOpen then s.trap 0x144#10 0#64
        else if !s.isPeer (wfield x 0 12) then s.trap 0x146#10 0#64
        else if s.core.queueFull then s.stall
        else (s.upd fun k => k.emptyS d).enqueue w { cmd := .cadd false, slot := n.toNat, a := x, b := y, d := d }))

def execCclose (_w : BitVec 1) (n : BitVec 2) (s : State) : Out :=
  s.issue {}
    (s.onSlot n fun s m => .next (if m.isOpen then s.closeChain s.cur n.toNat else s).advance)

def execCwait (_w : BitVec 1) (n : BitVec 2) (s : State) : Out :=
  s.issue {} (s.ordered fun s => if (s.core.slot n.toNat).isOpen then s.waits else .next s.advance)

/-! ## Carry records (R149, R193) -/

/-- The lost count with the bitmap of valid records. -/
def Core.carryStatus (k : Core) : Word :=
  BitVec.ofNat 64
    (k.carryLost * 2 ^ 32 + ((List.range 8).map fun i => if (tfind i k.carryRecs).isSome then 2 ^ i else 0).sum)

/-- Record i is freed; a count of lost records is then reported once. -/
def Core.freeCarry (k : Core) (i : Nat) : Core :=
  if (tfind i k.carryRecs).isNone then k
  else
    let k := { k with carryRecs := terase i k.carryRecs }
    if k.carryLost ≠ 0 ∧ !k.carryLostRaised then
      { k.pendAsync 0x14B#10 (BitVec.ofNat 64 k.carryLost) with carryLostRaised := true }
    else k

def execCstat (d a : Reg) (_w : BitVec 1) (s : State) : Out :=
  let x := s.src a 0
  s.issue { ss := [(a, 0)], ds := [d] }
    (s.ordered fun s =>
      let k := s.core
      if wbit x 3 then
        let s := if wbit x 4 then s.upd fun k => { k with carryLost := 0, carryLostRaised := false } else s
        .next (s.setS d k.carryStatus).advance
      else
        let i := wfield x 0 3
        let r := match tfind i k.carryRecs with | some r => r.word | none => 0#64
        let s := if wbit x 4 then s.upd fun k => k.freeCarry i else s
        .next (s.setS d r).advance)

/-- The record of a discarded row (R149). -/
def carryWord (cause : Nat) (m : CarryRow) (time : Nat) : Word :=
  BitVec.ofNat 64
    (cause * 2 ^ 54 + m.src % 4096 * 2 ^ 42 + m.sslot % 4 * 2 ^ 40 + m.dslot % 4 * 2 ^ 38 + m.row % 32 * 2 ^ 33 +
      (if m.merged then 2 ^ 32 else 0) + time % 2 ^ 32)

/-- A discarded row leaves a record in the lowest free slot of the buffer (DESIGN CHOICE, log 77: R149 does not say which),
or is counted as lost. -/
def Core.recordCarry (k : Core) (w : Word) : Core :=
  match (List.range 8).find? fun i => (tfind i k.carryRecs).isNone with
  | some i => { k with carryRecs := tset i { word := w } k.carryRecs }
  | none => { k with carryLost := min (k.carryLost + 1) (2 ^ 32 - 1), carryLostRaised := false }

/-! ## Rows in the network (R146, R147) -/

/-- Two rows of one sender to one destination keep their order (R259, R271); a merged row may hold those of any sender. -/
def sameWay (a b : CarryRow) : Bool := decide (a.dst = b.dst) && (decide (a.src = b.src) || a.merged || b.merged)

/-- The row arrives at the adder of its slot (R146). -/
def State.addRow (s : State) (m : CarryRow) : State :=
  let k := s.getCore m.dst
  let x := k.slot m.dslot
  let discard (cause : Nat) : State := s.setCore m.dst (k.recordCarry (carryWord cause m s.time))
  if !x.isOpen then discard 0x148
  else if x.scale ≠ m.scale ∨ x.headroom ≠ m.headroom then discard 0x149
  else if (List.range 32).any fun j => decide (x.nexp < (x.elem (32 * m.row + j)).count + (m.elems.getD j {}).count) then
    discard 0x14A
  else
    let x := x.build fun p =>
      if p / 32 = m.row then (x.elem p).join (m.elems.getD (p % 32) {}) else x.elem p
    (s.setCore m.dst (k.setSlot m.dslot x)).checkChain m.dst m.dslot

/-- CARRY_ROW_ARRIVAL: row i of the network reaches its destination. From the stop time of its context on a row is neither
added nor merged: it falls out as it is (R151, R432). -/
def execCarryRowArrival (i : Nat) (s : State) : Out :=
  match s.rows[i]? with
  | none => .refused (.notEnabled "CARRY_ROW_ARRIVAL")
  | some m =>
    if !s.live m.ctx ∨ (s.rows.take i).any (sameWay m) then .refused (.notEnabled "CARRY_ROW_ARRIVAL")
    else .next (({ s with rows := s.rows.eraseIdx i } : State).addRow m)

/-- Two rows may merge (R147). -/
def mayMerge (a b : CarryRow) : Bool :=
  decide (a.ctx = b.ctx) && decide (a.dst = b.dst) && decide (a.dslot = b.dslot) && decide (a.row = b.row) &&
    decide (a.scale = b.scale) && decide (a.headroom = b.headroom) &&
    (List.range 32).all fun j => decide ((a.elems.getD j {}).count + (b.elems.getD j {}).count ≤ 2 ^ a.headroom)

/-- The merged row is that of the lower source. Of two rows of one core from different slots, whose SSLOT R149 leaves open, it
keeps the slot of the first (DESIGN CHOICE, log 77). -/
def mergeRows (a b : CarryRow) : CarryRow :=
  let low := if b.src < a.src then b else a
  { low with
    merged := true
    elems := (List.range 32).map fun j => (a.elems.getD j {}).join (b.elems.getD j {}) }

/-- CARRY_ROUTER_MERGE: rows i < j of the network become one, at the place of row i. -/
def execCarryRouterMerge (i j : Nat) (s : State) : Out :=
  match s.rows[i]?, s.rows[j]? with
  | some a, some b =>
    if i < j ∧ s.live a.ctx ∧ mayMerge a b ∧ !((s.rows.take j).drop (i + 1)).any (sameWay b) then
      .next { s with rows := (s.rows.set i (mergeRows a b)).eraseIdx j }
    else .refused (.notEnabled "CARRY_ROUTER_MERGE")
  | _, _ => .refused (.notEnabled "CARRY_ROUTER_MERGE")

end Sys2Proof.Machine
end

