-- ==== Sys2Proof/Machine/Channel.lean ====
section
/-! DEFINITION. Channels: the bindings and the CHN instructions (R346, R358 to R360). -/

namespace Sys2Proof.Machine

/-! ## Bindings (R346) -/

def Core.binding (k : Core) (c : Nat) : Word × Word := tget c k.bindings (0#64, 0#64)

def bindKind (b : Word × Word) : Nat := wfield b.1 60 4
def bindPeer (b : Word × Word) : CoreId := wfield b.1 48 12
def bindDir (b : Word × Word) : Nat := wfield b.1 44 1
def bindSzm1 (b : Word × Word) : Nat := wfield b.1 32 6
def bindSize (b : Word × Word) : Nat := 64 * (bindSzm1 b + 1)
def bindDepth (b : Word × Word) : Nat := wfield b.1 26 6 + 1
def bindBuf (b : Word × Word) : Nat := wfield b.1 0 19
def bindCtr (b : Word × Word) : Nat := wfield b.2 0 19
def bindSched (b : Word × Word) : Nat := wfield b.2 56 2
def bindStep (b : Word × Word) : Nat := wfield b.2 40 8
def bindFirst (b : Word × Word) : Nat := wfield b.2 32 8

/-- The core that holds the message ring and the counters: the receiving end. -/
def State.receiver (s : State) (b : Word × Word) : CoreId := if bindDir b = 0 then bindPeer b else s.cur

/-- n bytes of a scratchpad, as a piece of an access of the core in focus by the remote aperture. -/
def scratchPiece (c : CoreId) (base off n : Nat) : Piece :=
  { off := off, len := n, va := 14 * 2 ^ 56 + c * 2 ^ 19 + base, place := .scratch c, addr := base, pte := 0#64 }

/-- A counter of the pair: sent at CTR, taken at CTR + 8. -/
def State.counter (s : State) (b : Word × Word) (i : Nat) : Nat :=
  memRead s.mem (scratchKey (s.receiver b) (bindCtr b + 8 * i)) 8

/-- The relaxed loads of the counters: they follow the core's own stores to them (R359, R360). -/
def State.withCounters (s : State) (b : Word × Word) (body : State → Nat → Nat → Out) : Out :=
  let c := s.receiver b
  if s.storeNear s.cur true (.scratch c) (bindCtr b) 16 then s.stall
  else if s.poisonIn (scratchKey c (bindCtr b)) 16 then .next (s.charge (s.core.context.getD 64) 0x3C0#10 c)
  else
    body ((s.watchRead false [scratchPiece c (bindCtr b) 0 8]).watchRead false [scratchPiece c (bindCtr b + 8) 0 8])
      (s.counter b 0) (s.counter b 1)

/-- sent less taken. -/
def inChannel (sent taken : Nat) : Nat := (sent + 2 ^ 64 - taken) % 2 ^ 64

/-- The place of message n in the ring. -/
def bindPlace (b : Word × Word) (n : Nat) : Nat := bindBuf b + n % bindDepth b * bindSize b

/-- The pieces of n bytes at an offset of a scratchpad, eight bytes each. -/
def scratchPieces (c : CoreId) (base n : Nat) : List Piece :=
  (List.range (n / 8)).map fun i => scratchPiece c (base + 8 * i) (8 * i) 8

/-- Stores of the core leave for some pieces, with the bytes given. -/
def State.sendPieces (s : State) (ps : List Piece) (bytes : Nat) : State :=
  (s.watchPieces .store (ps.map fun p => (p.va, p))).putStores false (ps.map (s.storeReq .store false bytes))

/-- The matrix engine still holds one of the granules (R239). -/
def State.barredPieces (s : State) (ps : List Piece) : Bool :=
  ps.any fun p => s.interlocked (s.storeReq .store false 0 p)

/-- The last step of a transfer: the release store of n + 1 to a counter at PKG scope, then d ← n (R359). -/
def State.chanRelease (s : State) (b : Word × Word) (i n : Nat) (done : State → State) : Out :=
  let p := [scratchPiece (s.receiver b) (bindCtr b + 8 * i) 0 8]
  if s.barredPieces p then s.stall
  else s.released .pkg (.next (done (s.sendPieces p ((n + 1) % 2 ^ 64))).advance)

/-- A transfer has passed its wait with message n (R351). -/
def State.passed (s : State) (n : Nat) : Out := (s.upd fun k => { k with chanStep := n + 1 }).stall

/-! ## Sends -/

/-- CHSND and CHSNDV: source gives the message's bytes. -/
def State.chanSend (s : State) (d : Reg) (ch : BitVec 4) (vector : Bool) (align : Nat)
    (source : State → Nat → (State → Nat → Out) → Out) : Out :=
  s.ordered fun s =>
    let b := s.core.binding ch.toNat
    if bindKind b ≠ 1 ∨ bindDir b ≠ 0 ∨ (vector ∧ bindSzm1 b ≠ 0) then s.trap 0x345#10 0#64
    else if align % 8 ≠ 0 then s.trap 0x346#10 0#64
    else if s.core.chanStep ≠ 0 then
      let n := s.core.chanStep - 1
      s.chanRelease b 0 n fun t => t.setS d (BitVec.ofNat 64 n)
    else
      s.withCounters b fun s sent taken =>
        if bindDepth b ≤ inChannel sent taken then s.waits
        else
          source (s.acquired .pkg) (bindSize b) fun t bytes =>
            let ps := scratchPieces (t.receiver b) (bindPlace b sent) (bindSize b)
            if t.barredPieces ps then t.stall else (t.sendPieces ps bytes).passed sent

def execChsnd (d a : Reg) (c : BitVec 4) (s : State) : Out :=
  let va := (s.src a 0).toNat
  s.issue { ss := [(a, 0)], ds := [d] }
    (s.chanSend d c false va fun s n body => s.readImage false true va n fun t l => body t (bytesNat l))

def execChsndv (d a : Reg) (c : BitVec 4) (s : State) : Out :=
  let v := (s.vsrc a 0).toNat
  s.issue { vs := [(a, 0)], ds := [d] } (s.chanSend d c true 0 fun s _ body => body s v)

/-! ## Receives -/

/-- The receiving end's checks and its wait; the body gets the message number and its bytes. -/
def State.chanReceive (s : State) (ch : BitVec 4) (vector : Bool) (align : Nat)
    (first last : State → (Word × Word) → Nat → Nat → Out) : Out :=
  s.ordered fun s =>
    let b := s.core.binding ch.toNat
    if bindKind b ≠ 1 ∨ bindDir b ≠ 1 ∨ (vector ∧ bindSzm1 b ≠ 0) then s.trap 0x345#10 0#64
    else if align % 8 ≠ 0 then s.trap 0x346#10 0#64
    else
      let message (n : Nat) : Nat := memRead s.mem (scratchKey s.cur (bindPlace b n)) (bindSize b)
      if s.core.chanStep ≠ 0 then
        let n := s.core.chanStep - 1
        last s b n (message n)
      else
        s.withCounters b fun s sent taken =>
          if inChannel sent taken = 0 ∨ sent < taken then s.waits
          else if s.poisonIn (scratchKey s.cur (bindPlace b taken)) (bindSize b) then
            .next (s.charge (s.core.context.getD 64) 0x3C0#10 s.cur)
          else
            let t := (scratchPieces s.cur (bindPlace b taken) (bindSize b)).foldl (fun t p => t.watchOwn .load p) s
            first (t.acquired .pkg) b taken (message taken)

/-- The message is written to va as stores of the core; every part is translated first. -/
def State.storeMessage (s : State) (va n bytes : Nat) (body : State → Out) : Out :=
  match s.plan .store (blockAccesses va n) with
  | .trap c v => s.trap c (BitVec.ofNat 64 v)
  | .miss v => s.startWalk v .store
  | .blocked v => s.holdWrite v
  | .go l =>
    let ps := l.flatMap fun p =>
      (splitGranules p.addr p.len).map fun x =>
        { p with off := p.off + x.1, len := x.2, va := p.va + x.1, addr := p.addr + x.1 }
    if s.barredPieces ps then s.stall else body (s.sendPieces ps bytes)
where
  /-- The granules of a piece: offset and length. -/
  splitGranules (addr len : Nat) : List (Nat × Nat) :=
    ((List.range ((addr % 8 + len + 7) / 8)).map fun i =>
      let lo := 8 * i - addr % 8
      (lo, min len (8 * (i + 1) - addr % 8) - lo)).filter fun x => x.2 ≠ 0

def execChrcv (d a : Reg) (c : BitVec 4) (s : State) : Out :=
  let va := (s.src a 0).toNat
  s.issue { ss := [(a, 0)], ds := [d] }
    (s.chanReceive c false va
      (fun s b n bytes => s.storeMessage va (bindSize b) bytes fun t => t.passed n)
      fun s b n _ => s.chanRelease b 1 n fun t => t.setS d (BitVec.ofNat 64 n))

def execChrcvv (d : Reg) (c : BitVec 4) (s : State) : Out :=
  s.issue { dv := [d] }
    (s.chanReceive c true 0 (fun s _ n _ => s.passed n)
      fun s b n bytes => s.chanRelease b 1 n fun t => t.setV d (BitVec.ofNat 512 bytes))

/-- CHPOLL (R360). -/
def execChpoll (d : Reg) (c : BitVec 4) (s : State) : Out :=
  s.issue { ds := [d] }
    (s.ordered fun s =>
      let b := s.core.binding c.toNat
      if bindKind b ≠ 1 then s.trap 0x345#10 0#64
      else
        s.withCounters b fun s sent taken =>
          let n : Word := BitVec.ofNat 64 (inChannel sent taken)
          .next (s.setS d (if bindDir b = 0 then BitVec.ofNat 64 (bindDepth b) - n else n)).advance)

end Sys2Proof.Machine
end

