-- ==== Sys2Proof/Machine/Overlap.lean ====
section
/-! DEFINITION. Iterations in flight that are younger than the current one: the versions that they see, what an older one's
step means for them, and their promotion (R21, R22, R26 to R29, R41, R42, R371, R372; log 4). -/

namespace Sys2Proof.Machine

/-- Names that a carry mask holds. -/
def namesIn (m : BitVec 32) : List Nat := (List.range 32).filter fun i => m.getLsbD i

/-- A write of a name in some table of versions. -/
def mapVer {α : Type} (t : Tab (Ver α)) (dflt : Ver α) (n : Nat) (f : Ver α → Ver α) : Tab (Ver α) :=
  tset n (f (tget n t dflt)) t

def dfltS : Ver Word := Ver.one 0#64
def dfltV : Ver Vec := Ver.one 0#512

/-! ## The names that a word reads and writes (R56, R58, R372) -/

/-- The sources of a word with their distances, and its destinations, by its fields. The old contents of a vector destination
are a source where a mask other than k0 may keep some of them. -/
def wordNames (w : Word32) : Names :=
  let f (lo n : Nat) : Nat := field w.toNat lo n
  let r (lo : Nat) : Reg := BitVec.ofNat 5 (f lo 5)
  let p := f 26 6
  let pick {α : Type} (c : Bool) (x : α) : List α := if c then [x] else []
  let kept : List (Reg × Nat) := pick (decide (f 7 3 ≠ 0)) (r 21, 0)
  if p = 0x01 then
    { ss := [(r 16, f 14 2), (r 9, f 7 2)] ++ pick ([5, 32, 33].contains (f 0 7)) (r 21, 0), ds := [r 21] }
  else if p = 0x17 then { ss := [(r 16, f 14 2), (r 9, f 7 2)] ++ pick (decide (f 1 6 = 5)) (r 21, 0), ds := [r 21] }
  else if p ≤ 0x08 then { ss := [(r 16, f 14 2)], ds := [r 21] }
  else if p ≤ 0x0A then { ds := [r 21] }
  else if p = 0x0B then { ss := pick (decide (f 18 1 = 0)) (r 21, 0), ds := [r 21] }
  else if p = 0x0C then { ss := [(r 21, f 19 2)] }
  else if p ≤ 0x0E then { ds := pick (decide (p = 0x0E)) 31#5 }
  else if p = 0x0F then { ss := [(r 16, f 14 2)], ds := [r 21] }
  else if p = 0x10 then
    if f 23 3 = 0 then { ss := [(r 13, f 11 2), (r 18, 0)] }
    else { ss := [(r 13, if f 23 3 = 7 then f 0 3 else f 11 2)], ds := pick (decide (5 ≤ f 23 3)) (r 18) }
  else if p = 0x11 then { ss := [(r 13, f 11 2)], ds := [r 18] }
  else if p = 0x12 then { ss := [(r 16, f 14 2)], ds := [r 21] }
  else if p = 0x13 then { ss := [(r 16, f 14 2), (r 21, 0)] }
  else if p = 0x14 then
    if f 9 3 = 0 ∨ f 9 3 = 2 then { ss := [(r 16, f 14 2)], ds := [r 21] } else { ss := [(r 16, f 14 2), (r 21, 0)] }
  else if p = 0x15 then { ss := [(r 16, 0), (r 11, 0), (r 21, 0)], ds := [r 21] }
  else if p = 0x16 then {}
  else if p = 0x18 ∨ p = 0x19 then
    let compares := decide (p = 0x18 ∧ 17 ≤ f 2 5) || decide (p = 0x19 ∧ 10 ≤ f 2 5)
    { vs := [(r 16, f 15 1), (r 10, 0)] ++ (if compares then [] else kept) ++ pick (decide (p = 0x19 ∧ f 2 5 = 3)) (r 21, 0)
      dv := pick (!compares) (r 21) }
  else if p = 0x1A then
    let kind := f 3 3
    let stores := [1, 3, 5].contains kind
    { ss := (r 16, f 14 2) :: pick (decide (kind = 2 ∨ kind = 3)) (r 9, 0)
      vs := pick (decide (kind = 4 ∨ kind = 5)) (r 9, 0) ++ pick (stores || decide (f 6 3 ≠ 0)) (r 21, 0)
      dv := pick (!stores) (r 21) }
  else if p = 0x1B then
    let fn := f 0 7
    let scalar := decide (fn = 3) || (decide (5 ≤ fn) && decide (fn ≤ 7))
    { ss := pick ([2, 4].contains fn) (r 16, f 15 1) ++ pick ([1, 3, 4].contains fn) (r 10, 0)
      vs := pick (!([2, 4, 14].contains fn)) (r 16, f 15 1) ++ pick ([0, 11, 15].contains fn) (r 10, 0) ++
        (if scalar then [] else kept) ++ pick (decide (fn = 4)) (r 21, 0)
      ds := pick scalar (r 21)
      dv := pick (!scalar) (r 21) }
  else if p = 0x1C then { ss := pick (decide (f 0 7 = 4)) (r 16, f 15 1), ds := pick (decide (5 ≤ f 0 7)) (r 21) }
  else if p = 0x27 then { vs := [(r 13, 0), (r 8, 0), (r 3, 0), (r 18, 0)], dv := [r 18] }
  else if p = 0x24 ∧ f 4 7 = 2 then { vs := [(r 16, 0)], ds := [r 21] }
  else if p = 0x24 ∧ f 4 7 = 3 then { dv := [r 21] }
  else if p = 0x25 ∧ f 4 7 = 2 then { vs := [(r 11, 0)] }
  else if p = 0x25 ∧ f 4 7 = 3 then { dv := [r 21] }
  else if p ≤ 0x28 then { ss := [(r 16, 0), (r 11, 0)], ds := [r 21] }
  else { ss := [(r 16, 0)], ds := [r 21] }

/-- The greatest distance at which some words read name n, of those that src gives for a word; a read at distance 0 before the
first write of n, of those that dst gives, counts as 1 (R372). -/
def reachIn (src : Names → List (Reg × Nat)) (dst : Names → List Reg) (n : Nat) : Bool → List Names → Nat
  | _, [] => 0
  | written, x :: l =>
    let here := ((src x).filter fun y => y.1.toNat = n).map fun y => if y.2 = 0 then (if written then 0 else 1) else y.2
    max (here.foldl max 0) (reachIn src dst n (written || (dst x).any fun y => y.toNat = n) l)

/-! ## What an iteration sees (R26, R28) -/

/-- The versions of a name for an iteration that has written own, if anything, above the iterations between it and the current
one, the latest first, and those of the core. The version of one that has not written the name is empty until it retires. -/
def Ver.seen {α : Type} (dflt : α) (own : Option (Slot α)) (older : List (Option (Slot α))) (v : Ver α) : Ver α :=
  let empty : Slot α := { val := dflt, full := false }
  { hist :=
      (own.toList ++ (older.map fun o => o.getD empty) ++ (if v.wrote then [] else [empty]) ++ v.hist).take v.depth
    wrote := own.isSome
    exited := v.exited }

/-- Nothing of the instruction that the current iteration has in issue. -/
def Core.fresh (k : Core) : Core :=
  { k with
    held := none
    chanStep := 0
    pendingWait := false
    walk := none
    walkFaults := []
    wb := none
    fencing := false
    inWait := false
    arriving := false
    barpDone := false
    imgOrder := []
    imgGot := []
    lcar := none
    committed := false
    ending := none
    young := [] }

/-- Iteration j after the current one, which begins at the start of the body. -/
def Core.youngAt (k : Core) (r : LoopRec) (j : Nat) : Iter := k.young.getD (j - 1) { pc := r.start }

/-- The iterations between the current one and iteration j after it, the latest first. -/
def Core.between (k : Core) (j : Nat) : List Iter := (k.young.take (j - 1)).reverse

/-- The core as iteration j after the current one has it. -/
def Core.youngView (k : Core) (r : LoopRec) (j : Nat) : Core :=
  let y := k.youngAt r j
  let older := k.between j
  { k.fresh with
    pc := y.pc
    sregs :=
      (namesIn r.carry.scalars).foldl
        (fun t n => mapVer t dfltS n (Ver.seen 0#64 (tfind n y.sw) (older.map fun o => tfind n o.sw))) k.sregs
    vregs :=
      (namesIn r.carry.vectors).foldl
        (fun t n => mapVer t dfltV n (Ver.seen 0#512 (tfind n y.vw) (older.map fun o => tfind n o.vw))) k.vregs
    loops := { r with iter := r.iter + j } :: k.loops.tail
    sbuf := k.sbuf ++ older.reverse.flatMap Iter.sbuf ++ y.sbuf
    pend := y.pend
    pendingFlags := y.flags
    orderNo := k.orderNo + j }

/-- The versions of carried names that an iteration has written, in the core as it has it. -/
def writtenIn {α : Type} (names : List Nat) (t : Tab (Ver α)) (d : Ver α) : Tab (Slot α) :=
  names.filterMap fun n =>
    let v := tget n t d
    if v.wrote then v.hist.head?.map fun x => (n, x) else none

/-- An instruction of such an iteration has changed nothing of the core but what is the iteration's own, the buffers of
instructions and lines, and the numbering of loads. -/
def Core.sameBut (v k : Core) : Bool :=
  decide
    ({ k with
        pc := v.pc
        sregs := v.sregs
        vregs := v.vregs
        sbuf := v.sbuf
        pend := v.pend
        nextPend := v.nextPend
        pendingFlags := v.pendingFlags
        ending := v.ending
        word := v.word
        l1d := v.l1d
        l1i := v.l1i
        fbuf := v.fbuf
        lbuf := v.lbuf } = v)

/-! ## Which words, and when (R28, R42, R372) -/

/-- A younger iteration may issue the word: it is none of R42, needs no agent but memory, and the instruction of a gang or a
deferred one is not among them (log 4). -/
def overlappable (w : Word32) : Bool :=
  let p := w.toNat / 2 ^ 26
  (decide (1 ≤ p) && decide (p ≤ 0x10)) || p == 0x12 || p == 0x13 || (decide (0x17 ≤ p) && decide (p ≤ 0x1C)) || p == 0x27

/-- The word's first write of a carried name takes a slot whose version an iteration in flight can still read: iteration j after
the current one waits, until j + dmax is below the depth (R28, R372). -/
def Core.slotHeld (k : Core) (r : LoopRec) (j : Nat) (w : Word32) : Bool :=
  let y := k.youngAt r j
  let n := wordNames w
  (n.ds.any fun d =>
      r.carry.scalars.getLsbD d.toNat && (tfind d.toNat y.sw).isNone &&
        decide ((k.sver d).depth ≤ j + tget d.toNat r.reach 0)) ||
    n.dv.any fun d =>
      r.carry.vectors.getLsbD d.toNat && (tfind d.toNat y.vw).isNone &&
        decide ((k.vver d).depth ≤ j + tget (32 + d.toNat) r.reach 0)

/-- Iteration j after the current one of the core in focus may issue: the loop overlaps, the iteration is in its window and its
count, every one before it has begun, and the core is in no handler, gang, deferred instruction, step or transfer phase. -/
def State.mayOverlap (s : State) (r : LoopRec) (j : Nat) : Bool :=
  let k := s.core
  decide (1 ≤ j) && decide (j < r.window) && decide (r.iter + j < r.count) && decide (j ≤ k.young.length + 1) &&
    (k.youngAt r j).ending.isNone && k.runs && s.engineLive s.cur && k.gang.isNone && k.stepping.isNone && k.routine.isNone &&
    k.inPhase.isNone && k.wpHit.isNone && k.outq.isEmpty && !k.preparing && !(k.pend.any fun r => r.2.acquire.isSome) && !k.refetch

/-! ## What an older iteration's step means for a younger one (R27, R41, R235) -/

/-- The bytes that the step of an iteration from s to t accessed, with the store buffer that it saw before and after: what it
loaded by a request, or stored. None: it accessed memory, and the bytes are not known. -/
def touched (s t : State) (w : Word32) (before after : List (List Req)) : Option (List (Place × Nat × Nat)) :=
  let p := w.toNat / 2 ^ 26
  let sent := t.flight.drop s.flight.length
  let stored := (after.drop before.length).flatten
  let spans (l : List Req) : List (Place × Nat × Nat) := l.map fun r => (r.place, r.addr, r.size)
  if p = 0x12 then
    if (sent.map Req.size).sum = 2 ^ (field w.toNat 11 3 / 2) ∧ sent.all fun r => r.hide = 0 then some (spans sent) else none
  else if p = 0x13 ∨ p = 0x1A then
    if sent.isEmpty && !stored.isEmpty && decide (before.length ≤ after.length) then some (spans stored) else none
  else some []

/-- The iteration has loaded what an older one's access now touches: it is cancelled, and begins again (R41, R235). -/
def Iter.upset (y : Iter) (l : Option (List (Place × Nat × Nat))) : Bool :=
  match l with
  | none => y.found || !y.reads.isEmpty
  | some l =>
    (y.found && !l.isEmpty) ||
      l.any fun x => y.reads.any fun z => decide (x.1 = z.1) && overlaps x.2.1 x.2.2 z.2.1 z.2.2

/-- An iteration has replaced a version that it had written, which a younger one may have read (R27). -/
def rewritten {α : Type} [DecidableEq α] (old new : Tab (Slot α)) : Bool :=
  old.any fun x => x.2.full && decide (tfind x.1 new ≠ some x.2)

/-- Younger iterations that stay: those before the first that is upset, as long as the iteration store buffer has room for
their stores beside n entries (R41). -/
def keepIters (l : Option (List (Place × Nat × Nat))) : Nat → List Iter → List Iter
  | _, [] => []
  | n, y :: ys => if y.upset l || decide (64 < n + y.sbuf.length) then [] else y :: keepIters l (n + y.sbuf.length) ys

/-- The versions that the current iteration has written. -/
def Core.ownS (k : Core) (r : LoopRec) : Tab (Slot Word) := writtenIn (namesIn r.carry.scalars) k.sregs dfltS
def Core.ownV (k : Core) (r : LoopRec) : Tab (Slot Vec) := writtenIn (namesIn r.carry.vectors) k.vregs dfltV

/-- The current iteration of core c has gone on from s to t: a word that younger ones may not issue, or a version written anew,
cancels them all (R27, R42, R250); an access cancels those that it upsets. -/
def State.keepYoung (s : State) (t : State) : State :=
  let k := s.core
  let n := t.getCore s.cur
  match (if k.young.isEmpty then none else k.liveLoop) with
  | none => t
  | some r =>
    if n.pc = k.pc ∧ n.ending = k.ending then t
    else
      t.mapCore s.cur fun n =>
        { n with
          young :=
            if !overlappable n.word || rewritten (k.ownS r) (n.ownS r) || rewritten (k.ownV r) (n.ownV r) then []
            else keepIters (touched s t n.word k.sbuf n.sbuf) n.sbuf.length n.young }

/-- Iteration j after the current one of the core in focus has issued the word in v, its core in s, which has become that of t:
the outcome, unless the instruction did more than its iteration's own work, or nothing. -/
def State.acceptYoung (s : State) (r : LoopRec) (j : Nat) (v : Core) (t : State) : Option State :=
  let k := s.core
  let n := t.core
  let y := k.youngAt r j
  if t.cur = s.cur ∧ t.mem = s.mem ∧ v.sameBut n ∧ (n.pc ≠ y.pc ∨ n.ending.isSome) then
    let own := k.sbuf.length + ((k.between j).map fun o => o.sbuf.length).sum
    let acc := touched s t n.word v.sbuf n.sbuf
    let load := decide (n.word.toNat / 2 ^ 26 ≠ 0x13) && decide (n.sbuf.length = v.sbuf.length)
    let y' : Iter :=
      { pc := n.pc
        sw := writtenIn (namesIn r.carry.scalars) n.sregs dfltS
        vw := writtenIn (namesIn r.carry.vectors) n.vregs dfltV
        sbuf := n.sbuf.drop own
        pend := n.pend
        flags := n.pendingFlags
        ending := n.ending
        reads := y.reads ++ if load then acc.getD [] else []
        found := y.found || acc.isNone }
    let after := if rewritten y.sw y'.sw || rewritten y.vw y'.vw then [] else keepIters acc n.sbuf.length (k.young.drop j)
    some
      { t with core :=
          { k with
            young := k.young.take (j - 1) ++ y' :: after
            nextPend := n.nextPend
            l1d := n.l1d
            l1i := n.l1i
            fbuf := n.fbuf
            lbuf := n.lbuf } }
  else none

/-! ## Promotion (R22) -/

/-- The oldest of the younger iterations becomes the current one, in the core that the one before has retired from. -/
def Core.promote (k : Core) (y : Iter) (ys : List Iter) : Core :=
  { k with
    pc := y.pc
    sregs := y.sw.foldl (fun t x => mapVer t dfltS x.1 (Ver.write true x.2)) k.sregs
    vregs := y.vw.foldl (fun t x => mapVer t dfltV x.1 (Ver.write true x.2)) k.vregs
    sbuf := y.sbuf
    pend := y.pend
    pendingFlags := y.flags
    ending := y.ending
    young := ys }

/-- After the retirement of an iteration the next goes on, if it has begun and the loop goes on; at the loop's exit the younger
ones are cancelled (R37). The loops before the retirement tell which. -/
def Core.succeed (k : Core) (before : List LoopRec) : Core :=
  match k.young with
  | [] => k
  | y :: ys => if k.loops.length = before.length then k.promote y ys else { k with young := [] }

end Sys2Proof.Machine
end

