-- ==== Sys2Proof/Machine/Control.lean ====
section
/-! DEFINITION. Branches and jumps, the LOOP group with the retirement of an iteration, and the GANG group (R96 to R111). -/

namespace Sys2Proof.Machine

/-! ## Control transfers (R96 to R99) -/

/-- The target lies outside the body of the loop with W > 1 that is running (R99). -/
def Core.leaves (k : Core) (x : Word) : Bool :=
  match (if k.routine.isSome then none else k.liveLoop) with
  | some r => decide (1 < r.window) && !(decide (r.start.toNat ≤ x.toNat) && decide (x.toNat ≤ r.last.toNat))
  | none => false

/-- A control transfer to x: decided by the leader, taken from the path by a follower (R45, R99). The names in ds receive
the return address. -/
def State.transfer (s : State) (ss : List (Reg × Nat)) (ds : List Reg) (taken : Bool) (x : Word) : Out :=
  let link (t : State) : State := ds.foldl (fun t d => t.setS d (s.core.pc + 4#64)) t
  if s.follows then
    s.issue { ds := ds }
      (match s.pathOutcome with
       | some y => .next ((link s).goto y)
       | none => s.stall)
  else
    let y := if taken then x else s.core.pc + 4#64
    s.issue { ss := ss, ds := ds }
      (if taken && s.core.leaves y then s.trapWord 0x0C7#10 else .next ((link (s.putOutcome y)).goto y))

/-- The target of a word offset (R57). -/
def State.offset (s : State) {n : Nat} (o : BitVec n) : Word := s.core.pc + (o.signExtend 64 <<< 2)

/-- BR: the branch tests a (R96). -/
def State.branch (s : State) (a : Reg) (da : Dist) (o : BitVec 16) (test : Word → Bool) : Out :=
  s.transfer [(a, da.toNat)] [] (test (s.src a da.toNat)) (s.offset o)

def execBeqz (a : Reg) (da : Dist) (o : BitVec 16) (s : State) : Out := s.branch a da o fun x => x == 0#64
def execBnez (a : Reg) (da : Dist) (o : BitVec 16) (s : State) : Out := s.branch a da o fun x => x != 0#64
def execBltz (a : Reg) (da : Dist) (o : BitVec 16) (s : State) : Out := s.branch a da o fun x => x.slt 0#64
def execBgez (a : Reg) (da : Dist) (o : BitVec 16) (s : State) : Out := s.branch a da o fun x => !x.slt 0#64
def execBgtz (a : Reg) (da : Dist) (o : BitVec 16) (s : State) : Out := s.branch a da o fun x => (0#64).slt x
def execBlez (a : Reg) (da : Dist) (o : BitVec 16) (s : State) : Out := s.branch a da o fun x => !(0#64).slt x
def execBodd (a : Reg) (da : Dist) (o : BitVec 16) (s : State) : Out := s.branch a da o fun x => wbit x 0
def execJmp (o : BitVec 26) (s : State) : Out := s.transfer [] [] true (s.offset o)
def execJal (o : BitVec 26) (s : State) : Out := s.transfer [] [31#5] true (s.offset o)
def execJr (a : Reg) (da : Dist) (s : State) : Out :=
  s.transfer [(a, da.toNat)] [] true (s.src a da.toNat &&& ~~~3#64)
def execJalr (d a : Reg) (da : Dist) (s : State) : Out :=
  s.transfer [(a, da.toNat)] [d] true (s.src a da.toNat &&& ~~~3#64)

/-! ## Loop entry (R25, R30 to R33, R39, R40, R101, R102) -/

/-- The core runs the KDO loader (R210). -/
def Core.loading (k : Core) : Bool := wbit k.klstate 63

/-- Entries that a carry declaration takes beyond the base entries: scalar and vector (R25). -/
def Carry.extraS (c : Carry) : Nat := (namesIn c.scalars).length * (c.depth - 1)
def Carry.extraV (c : Carry) : Nat := if c.depth < 2 then 0 else (namesIn c.vectors).length

/-- The declaration fits the version stores beside those of the active loops (R25). -/
def Core.carryFits (k : Core) (c : Carry) : Bool :=
  decide (32 + (k.loops.map fun l => l.carry.extraS).sum + c.extraS ≤ 128) &&
    decide (32 + (k.loops.map fun l => l.carry.extraV).sum + c.extraV ≤ 48)

/-- A name whose versions of an exited loop of this level are given up returns to depth 1 (R39). -/
def collapse {α : Type} (level : Nat) (dflt : α) (t : Tab (Ver α)) : Tab (Ver α) :=
  t.map fun r => if r.2.exited = level then (r.1, { hist := [r.2.newest dflt] }) else r

/-- Loop entry for the record r, not yet pushed: names of an exited loop of this level collapse, names that an enclosing
loop carries too are put aside, every slot of a carried name takes its current value. -/
def Core.enterLoop (k : Core) (r : LoopRec) : Core × LoopRec :=
  let level := k.loops.length + 1
  let ns := namesIn r.carry.scalars
  let nv := namesIn r.carry.vectors
  let bothS := ns.filter fun n => k.loops.any fun l => l.carry.scalars.getLsbD n
  let bothV := nv.filter fun n => k.loops.any fun l => l.carry.vectors.getLsbD n
  let ts := collapse level 0#64 k.sregs
  let tv := collapse level 0#512 k.vregs
  ({ k.discardWords with
      sregs := ns.foldl (fun t n => mapVer t dfltS n (Ver.enter 0#64 r.carry.depth)) ts
      vregs := nv.foldl (fun t n => mapVer t dfltV n (Ver.enter 0#512 (min r.carry.depth 2))) tv
      lcar := none },
    { r with
      asideS := bothS.map fun n => (n, tget n ts dfltS)
      asideV := bothV.map fun n => (n, tget n tv dfltV) })

/-- The exited loop's names (R39, R40): a name put aside comes back with a write of its last inner version; the others keep
their versions. -/
def exitNames {α : Type} (level : Nat) (dflt : α) (names : List Nat) (aside : Tab (Ver α)) (d1 : Ver α)
    (t : Tab (Ver α)) : Tab (Ver α) :=
  names.foldl
    (fun t n =>
      let v := tget n t d1
      match tfind n aside with
      | some o => tset n (o.write true { val := (v.newest dflt).val }) t
      | none => tset n { v with exited := level, wrote := false, dropped := none } t)
    t

/-- The innermost loop is left: its record is popped and its names become readable as R39 and R40 give. -/
def Core.exitLoop (k : Core) : Core :=
  match k.loops with
  | [] => k
  | r :: rest =>
    { k with
      loops := rest
      sregs := exitNames k.loops.length 0#64 (namesIn r.carry.scalars) r.asideS dfltS k.sregs
      vregs := exitNames k.loops.length 0#512 (namesIn r.carry.vectors) r.asideV dfltV k.vregs }

/-- A word of primary 0x10 with lfn 1 (R100); one whose reserved field makes it raise 0x066 counts too (log 70). -/
def isLoopWord (w : Word32) : Bool := decide (w.toNat / 2 ^ 23 = 0x10 * 8 + 1)

/-- A body word as the core would fetch it, with no effect; none if it cannot be fetched. -/
def State.peekWord (s : State) (va : Nat) : Option Word32 :=
  match s.fetchAt va with
  | .word w _ => some w
  | .miss =>
    match s.curCtx with
    | none => none
    | some x =>
      match s.walkRoot x.desc.root va with
      | .error _ => none
      | .ok l =>
        match s.viaLeaf x.desc.keys s.core.system .fetch l.pte l.log2 va with
        | .ok p a e => match s.readWord p a e with | .word w _ => some w | _ => none
        | _ => none
  | _ => none

/-- A word that the core fetches ahead of its instruction, with what the fetch does; none if it cannot be fetched (R243,
R381). -/
def State.prefetchWord (s : State) (va : Nat) : Option (Word32 × State) :=
  let via (p : Place) (a : Nat) (e : Word) (t : State) : Option (Word32 × State) :=
    match t.readWord p a e with
    | .word w t => some (w, t)
    | _ => none
  match (tfind (heldKey va s.core.system) s.core.fbuf).orElse fun _ => tfind (heldKey va s.core.system) s.core.lbuf with
  | some w => some (w, s)
  | none =>
    match s.translate .fetch va, s.curCtx with
    | .ok p a e, _ => via p a e s
    | .miss, some x =>
      match s.walkRoot x.desc.root va with
      | .error _ => none
      | .ok l =>
        match s.viaLeaf x.desc.keys s.core.system .fetch (withAD l.pte .fetch) l.log2 va with
        | .ok p a e => via p a e ((s.countWalk x.desc.ctx x.desc.root va).orAD x.desc.ctx l .fetch)
        | _ => none
    | _, _ => none

/-- The body of n words from start holds a LOOP word (R32). -/
def State.nestsLoop (s : State) (start n : Nat) : Bool :=
  (List.range n).any fun i => match s.peekWord (start + 4 * i) with | some w => isLoopWord w | none => false

/-- How far back the body of n words from start reads each carried name, below its depth; for a body that the loop buffer does
not hold, or that cannot be fetched whole, as far as there are versions (R372). -/
def State.reach (s : State) (start n : Nat) (c : Carry) : Tab Nat :=
  let words := if 64 < n then none else (List.range n).mapM fun i => s.peekWord (start + 4 * i)
  let far (depth : Nat) (src : Names → List (Reg × Nat)) (dst : Names → List Reg) (i : Nat) : Nat :=
    match words with
    | some l => min (reachIn src dst i false (l.map wordNames)) (depth - 1)
    | none => depth - 1
  ((namesIn c.scalars).map fun i => (i, far c.depth Names.ss Names.ds i)) ++
    (namesIn c.vectors).map fun i => (32 + i, far (min c.depth 2) Names.vs Names.dv i)

/-- The iteration window (R32). -/
def windowOf (nested : Bool) (c : Carry) : Nat :=
  if nested then 1 else if c.vectors ≠ 0#32 ∧ 2 < c.depth then 2 else c.depth

/-- Every carried name is full. -/
def Core.carryFull (k : Core) (c : Carry) : Bool :=
  ((namesIn c.scalars).all fun n => (tget n k.sregs dfltS).hist.all fun t => t.full) &&
    (namesIn c.vectors).all fun n => (tget n k.vregs dfltV).hist.all fun t => t.full

/-- The record begins, or with count 0 its loop is over at once (R38, R102). -/
def State.startLoop (s : State) (r : LoopRec) : State :=
  let (k, r) := s.core.enterLoop r
  if r.count = 0 then
    let k := ({ k with loops := r :: k.loops } : Core).exitLoop
    ({ s with core := { k with x1 := 0xFFFFFFFF#64, x2 := 0#64 } } : State).goto (r.last + 4#64)
  else ({ s with core := { k with loops := r :: k.loops } } : State).goto r.start

/-- LOOP-group instructions and JEND raise 0x18B in the loader (R210), after the causes that R55 orders. -/
def State.noLoader (s : State) (body : Out) : Out := if s.core.loading then s.trap 0x18B#10 0#64 else body

/-- LCAR (R101): the distances come first, then the depth (R30, R55). -/
def execLcar (b a : Reg) (da : Dist) (i : BitVec 11) (s : State) : Out :=
  let n : Names := { ss := [(a, da.toNat), (b, 0)] }
  if s.core.distsOk n ∧ ¬(1 ≤ i.toNat ∧ i.toNat ≤ 8) then s.trapWord 0x082#10
  else
    s.issue n
      (s.noLoader
        (let c : Carry :=
          { scalars := (s.src a da.toNat).truncate 32 &&& ~~~1#32
            vectors := (s.src b 0).truncate 32
            depth := i.toNat }
         if s.core.carryFits c then .next (s.upd fun k => { k with lcar := some c }).advance else s.trapWord 0x081#10))

/-- The leader puts the record of its LOOP on the path. -/
def State.putRecord (s : State) (r : LoopRec) : State :=
  match s.core.gang with
  | some g => s.mapCore g.leader fun k => { k with path := k.path.map fun p => { p with record := some r } }
  | none => s

def State.pathRecord (s : State) : Option LoopRec :=
  match s.core.gang with
  | some g => (s.pathEntry g).bind fun p => p.record
  | none => none

/-- LOOP (R31, R102). In a gang every member pushes the leader's record. The count is read at the distance of its field (R86,
R100), which is 0 in the form that R31 describes (log 70). -/
def execLoop (a : Reg) (da : Dist) (n : BitVec 11) (s : State) : Out :=
  let names : Names := if s.follows then {} else { ss := [(a, da.toNat)] }
  let last := s.core.pc.toNat + 4 * n.toNat
  let c := s.core.lcar.getD {}
  if !s.core.distsOk names then s.trapWord 0x080#10
  else if 2 ≤ s.core.loops.length then s.trapWord 0x0C1#10
  else
    s.noLoader
      (if s.follows then
         match s.pathRecord with
         | some r => if s.core.carryFull r.carry then .next (s.startLoop r) else s.stall
         | none => s.stall
       else if n.toNat = 0 ∨ 1024 < n.toNat then s.trapWord 0x0C2#10
       else
         match s.fetchAt last with
         | .trap e _ => s.trap e (BitVec.ofNat 64 last)
         | .miss => s.startWalk last .fetch
         | .charged t => .next t
         | .wait => s.stall
         | .word w t =>
           if w ≠ 0x41000000#32 then s.trapWord 0x0C2#10
           else if !(s.core.full names && s.core.carryFull c) then s.stall
           else
             let r : LoopRec :=
               { start := s.core.pc + 4#64
                 last := BitVec.ofNat 64 last
                 count := (s.src a da.toNat).toNat % 2 ^ 32
                 window := windowOf (s.nestsLoop (s.core.pc.toNat + 4) n.toNat) c
                 carry := c
                 reach := s.reach (s.core.pc.toNat + 4) n.toNat c }
             .next ((t.putRecord r).startLoop r))

/-! ## The end of an iteration (R22, R35 to R37, R103 to R105) -/

/-- ENDIT marks the retirement point; the iteration retires when R22 allows (execIterationRetire). -/
def execEndit (s : State) : Out :=
  match s.core.loops with
  | [] => s.trapWord 0x0C3#10
  | r :: _ =>
    s.noLoader
      (if s.core.pc ≠ r.last then s.trapWord 0x0C7#10
       else .next (s.upd fun k => { k with ending := some .endit }).issued)

/-- A condition taken from the leader (R45): the body gets whether a is not zero. -/
def State.condition (s : State) (a : Reg) (da : Dist) (body : State → Bool → Out) : Out :=
  if s.follows then
    match s.pathOutcome with
    | some y => body s (y != 0#64)
    | none => s.stall
  else
    s.issue { ss := [(a, da.toNat)] } (body (s.putOutcome (s.src a da.toNat)) (s.src a da.toNat != 0#64))

def execBrkif (a : Reg) (da : Dist) (l : BitVec 11) (s : State) : Out :=
  if !s.follows && !s.core.distsOk { ss := [(a, da.toNat)] } then s.trapWord 0x080#10
  else if s.core.loops.isEmpty then s.trapWord 0x0C3#10
  else if l.toNat = 2 ∧ s.core.loops.length < 2 then s.trapWord 0x0C4#10
  else
    s.noLoader
      (s.condition a da fun s c =>
        if c then .next (s.upd fun k => { k with ending := some (.brk l.toNat) }).issued else .next s.advance)

def execContif (a : Reg) (da : Dist) (s : State) : Out :=
  if !s.follows && !s.core.distsOk { ss := [(a, da.toNat)] } then s.trapWord 0x080#10
  else
    match s.core.loops with
    | [] => s.trapWord 0x0C3#10
    | r :: _ => s.noLoader (s.condition a da fun s c => if c then .next (s.goto r.last) else .next s.advance)

/-- ITX (R106). R55 gives no order inside its step 6: 0x0C3 comes before 0x0C0 (log 70). -/
def execItx (d : Reg) (l : BitVec 11) (s : State) : Out :=
  match s.core.loops[l.toNat - 1]? with
  | none => s.trapWord 0x0C3#10
  | some r => s.issue { ds := [d] } (s.noLoader (.next (s.setS d (BitVec.ofNat 64 (r.iter % 2 ^ 32))).advance))

def execLstat (d : Reg) (l : BitVec 11) (s : State) : Out :=
  s.issue { ds := [d] } (s.noLoader (.next (s.setS d (if l.toNat = 1 then s.core.x1 else s.core.x2)).advance))

/-- MOVD reads a version at distance 0 to 7 (R108); inside the loader it raises 0x18B after the checks of R55. -/
def execMovd (d a : Reg) (m : BitVec 3) (s : State) : Out :=
  s.issue { ss := [(a, m.toNat)], ds := [d] } (s.noLoader (.next (s.setS d (s.src a m.toNat)).advance))

/-- The iteration may retire: its register writes have come in and no buffered store is held (R22, R239). -/
def State.mayRetire (s : State) : Bool :=
  s.core.pend.isEmpty && s.core.outq.isEmpty && s.flushable &&
    s.core.carryFull ((s.core.loops.head?.map fun r => r.carry).getD {})

/-- The pass-through fill of the innermost loop (R35). -/
def Core.retireNames (k : Core) : Core :=
  match k.loops with
  | [] => k
  | r :: _ =>
    { k with
      sregs := (namesIn r.carry.scalars).foldl (fun t n => mapVer t dfltS n (Ver.retire 0#64)) k.sregs
      vregs := (namesIn r.carry.vectors).foldl (fun t n => mapVer t dfltV n (Ver.retire 0#512)) k.vregs }

/-- The iteration is over: flags, names and the pending declaration settle (R35, R101, R163). -/
def Core.settle (k : Core) : Core :=
  { k.retireNames with
    fflags := k.fflags ||| k.pendingFlags
    pendingFlags := 0#64
    lcar := none
    committed := false
    ending := none
    orderNo := k.orderNo + 1 }

/-- The exit word of R39. -/
def exitWord (broke : Bool) (level i : Nat) : Word :=
  BitVec.ofNat 64 (i % 2 ^ 32 + (if broke then 2 ^ 32 + (level - 1) * 2 ^ 33 else 0))

/-- What follows the iteration that has retired: the next one, or the exit (R37, R103, R104). -/
def Core.follow (k : Core) (e : Ending) : Core :=
  match k.loops with
  | [] => k
  | r :: rest =>
    match e with
    | .endit =>
      if r.iter + 1 < r.count then
        { k with loops := { r with iter := r.iter + 1 } :: rest, pc := r.start }
      else { k.exitLoop with x1 := exitWord false 1 r.iter, x2 := 0#64, pc := r.last + 4#64 }
    | .brk l =>
      if l < 2 then { k.exitLoop with x1 := exitWord true 1 r.iter, x2 := 0#64, pc := r.last + 4#64 }
      else
        match rest with
        | [] => k
        | o :: _ =>
          { k.exitLoop.retireNames.exitLoop with
            x1 := exitWord true 2 r.iter
            x2 := exitWord true 2 o.iter
            pc := o.last + 4#64 }

/-- After an IFENCE the body is fetched into the loop buffer before the next iteration issues (R244). -/
def State.refill (s : State) : State :=
  if s.core.refetch then
    let s := s.upd fun k => { k with refetch := false }
    match s.core.loops with
    | r :: _ =>
      (List.range 64).foldl
        (fun t i =>
          let va := r.start.toNat + 4 * i
          if decide (s.core.pc = r.start) && decide (va ≤ r.last.toNat) then
            match t.prefetchWord va with
            | some (w, t) => t.upd fun k => k.holdWord va w
            | none => t
          else t)
        s
    | [] => s
  else s

/-- ITERATION_RETIRE (R22): the oldest iteration of core c writes its buffered stores and retires. -/
def execIterationRetire (c : Nat) (s : State) : Out :=
  let t := s.focus c
  match t.core.ending with
  | some e =>
    if t.mayRetire then .next ((t.flush.upd fun k => ((k.settle).follow e).succeed k.loops).refill.afterInstr)
    else .refused (.notEnabled "ITERATION_RETIRE")
  | none => .refused (.notEnabled "ITERATION_RETIRE")

/-! ## The GANG group (R46, R110, R111) -/

/-- Every other member of the gang has issued the word. -/
def State.lastToIssue (s : State) (g : Gang) : Bool :=
  g.members.all fun c => c = s.cur || (s.getCore c).ahead

/-- FUSE of split members: all of them have reached a FUSE or a JEND. -/
def State.allJoined (s : State) (g : Gang) : Bool := g.members.all fun c => (s.getCore c).join.isSome

/-- Every member raises 0x0C6 at the instruction where it waits (R46, R110). -/
def State.joinFails (s : State) (g : Gang) : State :=
  g.members.foldl
    (fun t c =>
      let k := t.getCore c
      (t.setCore c { k with join := none }).enterCore c 0x0C6#10 false none k.pc k.pc k.pc (k.word.zeroExtend 64))
    s

/-- FUSE (R46, R110). -/
def execFuse (s : State) : Out :=
  if !s.core.loops.isEmpty then s.trapWord 0x0C8#10
  else
    match s.core.gang, s.core.wasGang with
    | some _, _ => .next s.advance
    | none, none => .next s.advance
    | none, some g =>
      let t := s.upd fun k => { k with join := some .fuse }
      if !t.allJoined g then t.waits
      else if g.members.all fun c => (t.getCore c).join == some .fuse && (t.getCore c).pc == t.core.pc then
        .next
          (g.members.foldl
            (fun u c => u.mapCore c fun k =>
              { k with
                join := none
                gang := some g
                wasGang := none
                ahead := false
                path := none
                trail := []
                lag := 0
                inWait := false
                pc := k.pc + 4#64 })
            t).afterInstr
      else .next (t.joinFails g).rotateIfStopped

/-- SPLIT (R46, R110): when the last member has issued it, each goes on by itself. -/
def execSplit (s : State) : Out :=
  match s.core.gang with
  | none => s.trapWord 0x0C5#10
  | some g =>
    if !s.core.loops.isEmpty then s.trapWord 0x0C8#10
    else if s.lastToIssue g then
      .next
        (g.members.foldl
          (fun u c => u.mapCore c fun k => { k with gang := none, wasGang := some g, ahead := false, path := none })
          s.advance)
    else .next s.advance

/-- A collective: the leader forms the value from one source of each member, once each has retired the iteration before, and
every member writes it (R111). R55 gives no order inside its step 6: 0x0C5 comes before 0x0C0 (log 70). -/
def State.collective (s : State) (d a : Reg) (da : Dist) (f : List Word → Word) : Out :=
  match s.core.gang with
  | none => if s.core.distsOk { ss := [(a, da.toNat)] } then s.trapWord 0x0C5#10 else s.trapWord 0x080#10
  | some g =>
    s.issue { ss := [(a, da.toNat)], ds := [d] }
      (if s.follows then
        match s.pathOutcome with
        | some y => .next (s.setS d y).advance
        | none => s.stall
       else if g.members.all fun c =>
          decide ((s.getCore c).lag = 0) && (s.getCore c).ending.isNone && ((s.getCore c).srcS a da.toNat).full then
        let y := f (g.members.map fun c => ((s.getCore c).srcS a da.toNat).val)
        .next ((s.putOutcome y).setS d y).advance
       else s.stall)

def execGany (d a : Reg) (da : Dist) (s : State) : Out := s.collective d a da fun l => bool64 (l.any fun x => x != 0#64)
def execGall (d a : Reg) (da : Dist) (s : State) : Out := s.collective d a da fun l => bool64 (l.all fun x => x != 0#64)
/-- GIDX (R111): outside a gang 0x0C5 comes before 0x0C0 (log 70). -/
def execGidx (d : Reg) (s : State) : Out :=
  match s.core.gang with
  | none => s.trapWord 0x0C5#10
  | some _ => s.form0 d (BitVec.ofNat 64 s.gangIndex)
def execGbc (d a : Reg) (da : Dist) (m : BitVec 11) (s : State) : Out :=
  s.collective d a da fun l => l.getD (m.toNat % l.length) 0#64
def execGsum (d a : Reg) (da : Dist) (s : State) : Out := s.collective d a da fun l => l.foldl (· + ·) 0#64

end Sys2Proof.Machine
end

