-- ==== Sys2Proof/Machine/Copy.lean ====
section
/-! DEFINITION. The copy engine: CPSTAT, CPWAIT, CPCAN, and the running of COPY, TENSOR, MCAST, MCWRITE and FILL jobs
(R225, R227 to R230, R257, R263, R265 to R268, R288 to R291; log 54). -/

namespace Sys2Proof.Machine

/-! ## Status (R287, R290, R291) -/

def Job.done (j : Job) : Nat := j.qw0.toNat % 2 ^ 32
def Job.kind (j : Job) : Nat := wfield j.qw0 32 4
def Job.add56 (j : Job) : Bool := wbit j.qw0 40

def jobWord (cause st num : Nat) : Word := BitVec.ofNat 64 (cause * 2 ^ 54 + st * 2 ^ 32 + num)

/-- The job status word of number n (R290). -/
def Core.jobStatus (k : Core) (n : Nat) : Word :=
  if n = 0 then jobWord 0 7 0
  else
    match k.jobs.find? fun j => j.num = n with
    | some j => jobWord 0 (if j.running then 2 else 1) n
    | none =>
      match k.history.find? fun w => decide (w.toNat % 2 ^ 32 = n) with
      | some w => w
      | none => if !k.wrapped ∧ k.lastJob < n then jobWord 0 0 n else jobWord 0 6 n

/-- The job leaves the queue, and its outcome is kept (R290). -/
def Core.retireJob (k : Core) (n : Nat) (w : Word) : Core :=
  { k with jobs := k.jobs.filter fun j => j.num ≠ n, history := (w :: k.history).take 16 }

def execCpstat (d a : Reg) (s : State) : Out :=
  let n := (s.src a 0).toNat % 2 ^ 32
  s.issue { ss := [(a, 0)], ds := [d] } (s.ordered fun s => .next (s.setS d (s.core.jobStatus n)).advance)

def execCpwait (d a : Reg) (s : State) : Out :=
  let n := (s.src a 0).toNat % 2 ^ 32
  s.issue { ss := [(a, 0)], ds := [d] }
    (s.ordered fun s =>
      if n = 0 then
        if s.core.jobs.isEmpty then .next (s.setS d (s.core.jobStatus s.core.lastJob)).advance else s.waits
      else if s.core.jobs.any fun j => j.num = n then s.waits
      else .next (s.setS d (s.core.jobStatus n)).advance)

/-- A PULL job's read leaves the matrix queue that it stands in. -/
def State.dropPull (s : State) (c : CoreId) (n : Nat) : State :=
  let other (q : QCmd) : Bool := match q.cmd with | .pull o m => !(decide (o = c) && decide (m = n)) | _ => true
  { s with
    core := { s.core with mqueue := s.core.mqueue.filter other }
    others := s.others.map fun r => (r.1, { r.2 with mqueue := r.2.mqueue.filter other }) }

/-- Every request of core c that preceded the submission of a job has been performed: DONE is written as a release of the core
(R251, R269). -/
def State.jobReleased (s : State) (c : CoreId) (j : Job) : Bool :=
  decide (j.done = 0) ||
    (((s.getCore c).outq.all fun r => decide (j.era < r.era)) &&
      s.flight.all fun r => r.src ≠ c || r.late || decide (j.era < r.era))

/-- The outcome of a job can be written to its DONE (R269, R437). -/
def State.maySettle (s : State) (c : CoreId) (j : Job) : Bool := s.jobReleased c j && s.futRoom j.ctx j.done

/-- A job is complete: its outcome is kept and DONE is fulfilled (R269, R307). -/
def State.finishJob (s : State) (c : CoreId) (j : Job) : State :=
  let w := jobWord 0 3 j.num
  (s.mapCore c fun k => k.retireJob j.num w).engineFulfil c j.ctx j.done 2 w.toNat

/-- A job fails through DONE, or by an asynchronous trap when DONE is 0 (R230). -/
def State.failJob (s : State) (c : CoreId) (j : Job) (cause : Cause) : State :=
  let s := (s.dropPull c j.num).mapCore c fun k => k.retireJob j.num (jobWord cause.toNat 4 j.num)
  if j.done = 0 then s.mapCore c fun k => k.pendAsync cause (BitVec.ofNat 64 j.num)
  else s.engineFulfil c j.ctx j.done 3 cause.toNat

/-! ## What comes of a job's accesses -/

inductive JobRes where
  | done (s : State)
  /-- a fault, with what was written before it -/
  | fail (c : Cause) (s : State)
  /-- nothing can be done now: WB = 1 holds a write back (R387), the write log has no room (R437), or another agent must
  move first -/
  | wait
  /-- a poisoned granule was needed; the access has been charged (R441) -/
  | poison (s : State)
  /-- the job has gone a step further and is not complete -/
  | onward (s : State)
deriving Repr

/-- What comes of one or more of a job's accesses, with the job's own record. -/
inductive PartRes where
  | ok (s : State) (j : Job)
  | fail (c : Cause) (s : State)
  | poison (s : State) (j : Job)
  | stuck (s : State) (j : Job)
deriving Repr

/-- Job n of core c, changed. -/
def State.setJob (s : State) (c : CoreId) (n : Nat) (f : Job → Job) : State :=
  s.mapCore c fun k => { k with jobs := k.jobs.map fun j => if j.num = n then f j else j }

/-- The job's record, as its accesses leave it. -/
def State.putJob (s : State) (c : CoreId) (j : Job) : State := s.setJob c j.num fun _ => j

/-! ## The parts of a job: its reads and its writes (R228, R229, R263, R288, R331) -/

/-- A read or a write of a job: its address, its length, and its first byte in the job's data. -/
structure JobPart where
  va : Nat
  len : Nat
  off : Nat
  /-- it lies beyond the scratchpad of its station -/
  out : Bool := false
  /-- it begins a run of bytes that follow one another -/
  first : Bool := false
deriving DecidableEq, Repr

/-- The granules of n bytes at va, as parts of the data from offset off. -/
def granuleParts (va n off : Nat) : List JobPart :=
  (granulesOf va n).map fun x => { va := va + x.1, len := x.2, off := off + x.1, first := decide (x.1 = 0) }

/-- Of n bytes at va, the part that holds byte o, cut at aligned blocks of u bytes. -/
def blockPart (u va n o : Nat) : Option JobPart :=
  let r := va % u
  let lo := u * ((o + r) / u) - r
  if n ≤ o then none else some { va := va + lo, len := min n (u * ((o + r) / u + 1) - r) - lo, off := lo, first := decide (lo = 0) }

/-- The same among some rows, given by address and length, that follow one another in the data. -/
def rowsPart : List (Nat × Nat) → Nat → Nat → Option JobPart
  | [], _, _ => none
  | (va, n) :: l, base, o =>
    if o < n then (blockPart 8 va n o).map fun p => { p with off := base + p.off } else rowsPart l (base + n) (o - n)

/-- The remote-aperture addresses that a multicast word names (R229). -/
def multicastTargets (w : Word) : List Nat :=
  let x0 := wfield w 40 4
  let y0 := wfield w 44 4
  ((List.range 16).filter fun i => wbit w (48 + i)).map fun i =>
    let cluster := (y0 + i / 4) * 16 + x0 + i % 4
    14 * 2 ^ 56 + (cluster * 16 + wfield w 32 4) * 2 ^ 19 + wfield w 0 19

/-! ## TENSOR (R288, R289) -/

/-- A shape record. -/
structure Shape where
  ctl : Nat
  n : List Nat
  e : List Nat
  ss : List Int
  ds : List Int
  zero : Bool
deriving DecidableEq, Repr

def shapeOf (b : List Byte) : Shape :=
  let i32 (o : Nat) : Int := sint (imgNat b o 4) 32
  { ctl := imgNat b 0 8
    n := (List.range 4).map fun k => imgNat b (8 + 2 * k) 2
    e := (List.range 4).map fun k => imgNat b (0x10 + 2 * k) 2
    ss := [i32 0x18, i32 0x1C, i32 0x20]
    ds := [i32 0x28, i32 0x2C, i32 0x30]
    zero := decide (imgNat b 0x24 4 = 0) && decide (imgNat b 0x34 12 = 0) }

def Shape.size (p : Shape) : Nat := 2 ^ (p.ctl % 4)
def Shape.keep (p : Shape) : Bool := p.ctl.testBit 2

/-- R289's check of the record, before any element. -/
def Shape.bad (p : Shape) (j : Job) : Bool :=
  decide (8 ≤ p.ctl) || !p.zero || p.n.any (· == 0) || decide (j.qw1.toNat % p.size ≠ 0) ||
    decide (j.qw2.toNat % p.size ≠ 0) || (p.ss ++ p.ds).any (fun x => decide (x % p.size ≠ 0)) ||
    (j.add56 && decide (p.ctl % 4 ≠ 3))

def Shape.total (p : Shape) : Nat := p.n.foldl (· * ·) 1

/-- The four indices of element t. -/
def Shape.index (p : Shape) (t : Nat) : List Nat :=
  let n0 := p.n.getD 0 1
  let n1 := p.n.getD 1 1
  let n2 := p.n.getD 2 1
  [t % n0, t / n0 % n1, t / (n0 * n1) % n2, t / (n0 * n1 * n2)]

/-- The address of an element from a base and the strides of dimensions 1 to 3. -/
def Shape.address (p : Shape) (base : Word) (strides : List Int) (ix : List Nat) : Nat :=
  (base +
    BitVec.ofInt 64
      (ix.getD 0 0 * p.size + ix.getD 1 0 * strides.getD 0 0 + ix.getD 2 0 * strides.getD 1 0 +
        ix.getD 3 0 * strides.getD 2 0)).toNat

def Shape.clipped (p : Shape) (ix : List Nat) : Bool := (ix.zip p.e).any fun x => decide (x.2 ≤ x.1)

/-- The sum of two width-preserving words, as one atomic update (R122, R289): a V that does not fit leaves V and sets C. -/
def add56 (dst src : Nat) : Nat :=
  let a := Elem.ofWord dst 0
  let b := Elem.ofWord src 0
  let r := a.join b
  let fits := decide (-(2 ^ 55 : Int) ≤ r.v) && decide (r.v < 2 ^ 55)
  (if fits then r else { r with v := a.v, clip := true }).word

/-- Source-list entries of a SUBSCRIBE job (R330). -/
def Job.entries (j : Job) : Nat := imgNat j.record 4 4

/-- The body rows of entry i of a SUBSCRIBE job, and its scale bytes: address and length (R330). -/
def Job.tileRows (j : Job) (i : Nat) : List (Nat × Nat) :=
  let o := 16 + 16 * i
  let addr := imgNat j.record o 8
  let fmt := imgByte j.record (o + 13)
  let stride := imgNat j.record (o + 14) 2
  let row := if fmt % 4 < 2 then 64 else if fmt % 4 = 2 then 32 else 16
  ((List.range 32).map fun r => ((addr + r * stride) % 2 ^ 64, row)) ++
    if fmt.testBit 4 then [((addr + 32 * stride) % 2 ^ 64, 32)] else []

/-- The read that brings byte o of a job's data. The source of MCAST is read by lines, once for every target (R229). -/
def Job.readPart (j : Job) (o : Nat) : Option JobPart :=
  if j.kind = 0 ∨ j.kind = 3 then blockPart 8 j.qw1.toNat j.qw3.toNat o
  else if j.kind = 2 then blockPart 128 j.qw1.toNat j.qw3.toNat o
  else if j.kind = 1 then
    let p := shapeOf j.record
    let ix := p.index (o / p.size)
    if p.clipped ix then none
    else some { va := p.address j.qw1 p.ss ix, len := p.size, off := o / p.size * p.size, first := true }
  else if j.kind = 5 then rowsPart (j.tileRows j.pos) 0 o
  else none

/-- The four destinations of an MCWRITE job, the zero ones left out. -/
def Job.destinations (j : Job) : List Nat := ((List.range 4).map fun i => imgNat j.record (8 * i) 8).filter (· ≠ 0)

/-- The writes of a job. -/
def Job.writes (j : Job) : List JobPart :=
  let dst := j.qw2.toNat
  let n := j.qw3.toNat
  if j.kind = 0 ∨ j.kind = 4 then granuleParts dst n 0
  else if j.kind = 1 then
    let p := shapeOf j.record
    (List.range p.total).filterMap fun t =>
      let ix := p.index t
      if p.clipped ix && (j.add56 || p.keep) then none
      else some { va := p.address j.qw2 p.ds ix, len := p.size, off := t * p.size, first := true }
  else if j.kind = 2 then
    (granulesOf (wfield j.qw2 0 19) n).flatMap fun x =>
      (multicastTargets j.qw2).map fun t =>
        { va := t + x.1, len := x.2, off := x.1, out := decide (2 ^ 19 ≤ wfield j.qw2 0 19 + x.1) }
  else if j.kind = 3 then j.destinations.flatMap fun d => granuleParts d n 0
  else
    match j.bytes with
    | some (_, l) => l.flatMap fun x => granuleParts ((dst + x.1) % 2 ^ 64) x.2.1 x.2.2
    | none => []

/-- Byte o of a job's data: converted, of the pattern, or as it has been read; zero where a TENSOR job reads nothing. -/
def Job.byte (j : Job) (o : Nat) : Byte :=
  match j.bytes with
  | some (b, _) => b.getD o 0#8
  | none =>
    if j.kind = 4 then (natBytes j.qw1.toNat 8).getD (o % 8) 0#8
    else
      match j.readPart o with
      | some p => ((tfind p.off j.got).getD []).getD (o - p.off) 0#8
      | none => 0#8

def Job.data (j : Job) (o n : Nat) : List Byte := (List.range n).map fun i => j.byte (o + i)

/-! ## Records (R228, R288, R330, R331) -/

/-- What a job has still to read of its record, or of its source list: address and length. -/
def Job.recordLeft (j : Job) : Option (Nat × Nat) :=
  let n := j.record.length
  let rest (va len : Nat) : Option (Nat × Nat) := if n < len then some (va + n, len - n) else none
  if j.kind = 1 then rest j.qw3.toNat 64
  else if j.kind = 3 then rest j.qw2.toNat 32
  else if j.kind = 5 then
    if n < 16 then rest j.qw2.toNat 16
    else if n < 16 + 16 * j.entries then some (j.qw1.toNat + (n - 16), 16 + 16 * j.entries - n)
    else none
  else if j.kind = 6 then rest j.qw1.toNat 16
  else none

/-- The ring cluster of a subscription record. -/
def recordCluster (c : CoreId) (b : List Byte) : Nat := if imgByte b 0 = 255 then clusterOf c else imgByte b 0

/-- The core that an output-slot record names. -/
def pullCore (b : List Byte) : CoreId := imgNat b 0 2 % 4096

/-- The partition of a context holds the cluster. -/
def State.inContext (s : State) (ctx cl : Nat) : Bool :=
  match tfind ctx s.contexts with
  | some x => s.inPart x.desc cl
  | none => false

/-- The fault of a record that has just been read (R289, R330, R331). -/
def State.recordFault (s : State) (c : CoreId) (j : Job) : Option Cause :=
  let b := j.record
  if j.kind = 1 then if b.length = 64 && (shapeOf b).bad j then some 0x1C4#10 else none
  else if j.kind = 5 then
    if b.length = 16 &&
        (decide (imgNat b 1 3 ≠ 0) || decide (imgNat b 8 8 ≠ 0) || decide (j.entries = 0) || decide (65535 < j.entries) ||
          !s.inContext j.ctx (recordCluster c b)) then
      some 0x2C6#10
    else none
  else if j.kind = 6 then
    let k := s.getCore (pullCore b)
    let g := (k.slot (imgByte b 2 % 4)).geometry
    if b.length = 16 &&
        (decide (4096 ≤ imgNat b 0 2) || decide (4 ≤ imgByte b 2) || decide (imgNat b 3 5 ≠ 0) ||
          !s.coreOf j.ctx (pullCore b) || badDrain k (BitVec.ofNat 64 (imgNat b 8 8)) false (geoM g) (geoN g)) then
      some 0x2C6#10
    else none
  else none

/-! ## The accesses of a job (R230, R257, R263, R384, R387) -/

/-- What is noted of a job's read: of a host line once, at the lowest part that the job reads of it. -/
def State.noteJobRead (s : State) (ctx : Nat) (place : Place) (addr n : Nat) (pte : Word) (first : Bool) : State :=
  if place = .host ∧ !first then s else s.noteRead ctx place addr n pte

inductive ReadRes where
  | ok (b : List Byte) (s : State)
  | fail (c : Cause)
  | poison (s : State)
  /-- a store to the bytes stands in the endpoint's transmit order -/
  | wait
deriving Repr

/-- A part is the lowest of its line in a run of bytes: a record, a list, a row, a block, or an element of a TENSOR job. -/
def JobPart.firstOfLine (p : JobPart) (addr : Nat) : Bool := p.first || decide (addr % 128 = 0)

/-- The read of an MCAST source line, as long as its answer is on its way, may be shared (R225). -/
def State.shareRead (s : State) (c : CoreId) (j : Job) (addr slice : Nat) : State :=
  { s with
    answers := s.answers ++
      [{ dst := c
         source := some slice
         pend := none
         shift := 0
         value := 0
         shared := (s.wholeLine (addr / 128)).map fun x =>
           { ctx := j.ctx, line := addr / 128, slice := slice, data := x }
         job := some j.num }] }

/-- A job reads a part. -/
def State.partRead (s : State) (c : CoreId) (j : Job) (share : Bool) (p : JobPart) : ReadRes :=
  match s.engineTranslate c j.ctx j.keys j.system .load p.va with
  | (.ok pl a e, s) =>
    if pl = .host ∧ s.hostNear a p.len then .wait
    else if s.poisonIn (keyOf pl a) p.len then .poison (s.chargeAt j.ctx pl a p.len)
    else
      let t := (s.watchEngine c .load pl a p.len p.va).noteJobRead j.ctx pl a p.len e (p.firstOfLine a)
      .ok (s.placeBytes pl a p.len) (if share ∧ j.kind = 2 ∧ (pl = .hbm ∨ pl = .host) then t.shareRead c j a (sliceOf pl a e) else t)
  | (.fault e, _) => .fail e
  | (.window _, _) => .fail 0x1C2#10
  | _ => .fail 0x1C3#10

/-- The job reads what it has not read yet of the bytes at some offsets of its data. -/
def State.fetchData (c : CoreId) (share : Bool) : List Nat → State → Job → PartRes
  | [], s, j => .ok s j
  | o :: l, s, j =>
    match j.readPart o with
    | none => State.fetchData c share l s j
    | some p =>
      if (tfind p.off j.got).isSome then State.fetchData c share l s j
      else
        match s.partRead c j share p with
        | .ok b t => State.fetchData c share l t { j with running := true, got := tset p.off b j.got }
        | .fail e => .fail e s
        | .poison t => .poison t j
        | .wait => .stuck s j

/-- The next n granules of the job's record. -/
def State.readRecord (c : CoreId) : Nat → State → Job → PartRes
  | 0, s, j => .ok s j
  | n + 1, s, j =>
    match j.recordLeft with
    | none => .ok s j
    | some (va, _) =>
      let first := decide (j.record.length = 0) || (decide (j.kind = 5) && decide (j.record.length = 16))
      match s.partRead c j false { va := va, len := 8, off := j.record.length, first := first } with
      | .ok b t => State.readRecord c n t { j with running := true, record := j.record ++ b }
      | .fail e => .fail e s
      | .poison t => .poison t j
      | .wait => .stuck s j

/-- The sum of two width-preserving words, as one atomic update (R122, R260, R289): a V that does not fit leaves V and sets
C. A malformed word is none. -/
def add56Word (dst src : Nat) : Option Nat := if 2 ^ 60 ≤ dst ∨ 2 ^ 60 ≤ src then none else some (add56 dst src)


/-- A job makes write i, whose bytes it has read; or WB = 1 holds it back until, 1,000,000 ns after its first stall, the job
fails (R387). The storer of a PULL job writes HBM frames only (R331). -/
def State.partWrite (s : State) (c : CoreId) (j : Job) (i : Nat) (p : JobPart) : PartRes :=
  let done : Job := { j with running := true, wrote := i :: j.wrote, stalled := terase i j.stalled }
  if p.out then .fail 0x1C0#10 s
  else
    match s.engineTranslate c j.ctx j.keys j.system .store p.va with
    | (.ok pl a e, t) =>
      if j.kind = 6 ∧ pl ≠ .hbm then .fail 0x2C6#10 s
      else if pl = .hbm ∧ !t.canLog j.ctx a then .stuck s j
      else if j.add56 then
        if pl = .host ∧ t.hostNear a 8 then .stuck s j
        else if t.poisonIn (keyOf pl a) 8 then .poison (t.chargeAt j.ctx pl a 8) j
        else
          match add56Word (memRead t.mem (keyOf pl a) 8) (bytesNat (j.data p.off 8)) with
          | none => .fail 0x102#10 s
          | some v =>
            .ok
              (((t.watchEngine c .load pl a 8 p.va).noteRead j.ctx pl a 8 e).engineStore c j.ctx pl a p.va (natBytes v 8)
                (p.firstOfLine a)) done
      else .ok (t.engineWrite c j.ctx pl a p.va (j.data p.off p.len) (p.firstOfLine a)) done
    | (.blocked _ _, _) =>
      match tfind i j.stalled with
      | none => .stuck s { j with running := true, stalled := tset i s.time j.stalled }
      | some t => if t + 1000000 ≤ s.time then .fail 0x209#10 s else .stuck s j
    | (.fault e, _) => .fail e s
    | (.window _, _) => .fail (if j.kind = 6 then 0x2C6#10 else 0x1C2#10) s
    | (.miss, _) => .fail 0x1C3#10 s

/-- A destination of a PULL job that leads to no HBM frame, found before anything is written (R331). -/
def State.pullBadPlace (s : State) (c : CoreId) (j : Job) : Bool :=
  decide (j.kind = 6) &&
    j.writes.any fun p =>
      match (s.engineTranslate c j.ctx j.keys j.system .store p.va).1 with
      | .ok pl _ _ => decide (pl ≠ .hbm)
      | .window _ => true
      | _ => false

/-- A malformed A56 word among the sources, all read, and the destinations of an ADD56 job (R122). -/
def State.badA56 (s : State) (c : CoreId) (j : Job) : Bool :=
  j.writes.any fun p =>
    decide (2 ^ 60 ≤ bytesNat (j.data p.off 8)) ||
      match (s.engineTranslate c j.ctx j.keys j.system .store p.va).1 with
      | .ok pl a _ => decide (2 ^ 60 ≤ memRead s.mem (keyOf pl a) 8)
      | _ => false

/-- Before the first write of a job: an ADD56 job has read and checked every word (R122), a PULL job its destinations. -/
def State.beforeWrites (s : State) (c : CoreId) (j : Job) : PartRes :=
  if j.pos ≠ 0 ∨ !j.wrote.isEmpty then .ok s j
  else if s.pullBadPlace c j then .fail 0x2C6#10 s
  else if j.add56 then
    match State.fetchData c false (j.writes.map fun p => p.off) s j with
    | .ok t k => if t.badA56 c k then .fail 0x102#10 t else .ok t k
    | r => r
  else .ok s j

/-- Go on after some accesses. -/
def PartRes.andThen (r : PartRes) (f : State → Job → PartRes) : PartRes :=
  match r with
  | .ok s j => f s j
  | x => x

/-- One write of a job, with the reads that it needs. -/
def State.jobWrite (s : State) (c : CoreId) (j : Job) (i : Nat) (p : JobPart) : PartRes :=
  (State.fetchData c false ((List.range p.len).map fun o => p.off + o) s j).andThen fun t k => t.partWrite c k i p

/-- Write i and all before it are made: of the data only what later writes take is kept. -/
def Job.advanceTo (j : Job) (i : Nat) (p : JobPart) : Job :=
  { j with
    pos := i + 1
    wrote := j.wrote.filter fun w => i < w
    got := if j.kind = 3 then j.got else j.got.filter fun r => decide (p.off < r.1 + r.2.length) }

/-- The writes of a job from a list, in order, that have not been made. -/
def State.jobWrites (c : CoreId) : List (Nat × JobPart) → State → Job → PartRes
  | [], s, j => .ok s j
  | (i, p) :: l, s, j =>
    if i < j.pos ∨ j.wrote.contains i then State.jobWrites c l s j
    else (s.jobWrite c j i p).andThen fun t k => State.jobWrites c l t (k.advanceTo i p)

/-! ## Running a job -/

/-- What comes of a run, when it leaves the job unfinished or not. -/
def PartRes.outcome (r : PartRes) (c : CoreId) (j : Job) (finished : Bool) : JobRes :=
  match r with
  | .ok t k => if finished then .done t else .onward (t.putJob c k)
  | .fail e t => .fail e t
  | .poison t k => .poison (t.putJob c k)
  | .stuck t k => if k = j then .wait else .onward (t.putJob c k)

/-- The rest of a job's record, or of one part of it, with its check. -/
def State.finishRecord (s : State) (c : CoreId) (j : Job) (n : Nat) : PartRes :=
  (State.readRecord c n s j).andThen fun t k =>
    match t.recordFault c k with
    | some e => .fail e t
    | none => .ok t k

/-- A read of the job is still to be answered. -/
def State.jobReading (s : State) (c : CoreId) (j : Job) : Bool :=
  s.answers.any fun a => decide (a.dst = c) && decide (a.job = some j.num)

/-- The rest of a job that needs neither a ring nor a slot: of its record, whose ranges then order it against the jobs before it
(R267), or of its data. -/
def State.runPlain (s : State) (c : CoreId) (j : Job) : JobRes :=
  if s.jobReading c j then .wait
  else if j.recordLeft.isSome then (s.finishRecord c j 8).outcome c j false
  else
    ((s.beforeWrites c j).andThen fun t k =>
        State.jobWrites c ((List.range k.writes.length).zip k.writes) t k).outcome c j true

/-! ## Footprints (R267, R268) -/

/-- An own-aperture address as the remote-aperture address of the same byte. -/
def normalVa (c : CoreId) (va : Nat) : Nat :=
  if va / 2 ^ 56 = 15 ∧ va % 2 ^ 56 < 2 ^ 19 then 14 * 2 ^ 56 + c * 2 ^ 19 + va % 2 ^ 19 else va

/-- The smallest range that holds every element of one side of a TENSOR job. -/
def Shape.range (p : Shape) (base : Word) (strides : List Int) (clip : Bool) : List (Nat × Nat) :=
  let ns := if clip then (p.n.zip p.e).map fun x => min x.1 x.2 else p.n
  if ns.any (· == 0) then []
  else
    let ext (st : Int) (n : Nat) : Int := st * ((n : Int) - 1)
    let d := (strides.zip (ns.drop 1)).map fun x => ext x.1 x.2
    let lo := (d.map fun x => min x 0).sum
    let hi := (d.map fun x => max x 0).sum + ns.getD 0 1 * p.size
    [((base + BitVec.ofInt 64 lo).toNat, (hi - lo).toNat)]

/-- The smallest range that holds some rows. -/
def rowsRange (l : List (Nat × Nat)) : List (Nat × Nat) :=
  match (l.map fun x => x.1).min?, (l.map fun x => x.1 + x.2).max? with
  | some lo, some hi => [(lo, hi - lo)]
  | _, _ => []

/-- The read and write ranges of a job, as far as its record has been read (R267). -/
def State.jobRanges (_s : State) (c : CoreId) (j : Job) : List (Nat × Nat) × List (Nat × Nat) :=
  let a := j.qw1.toNat
  let b := j.qw2.toNat
  let n := j.qw3.toNat
  let known := j.recordLeft.isNone
  let norm (l : List (Nat × Nat)) : List (Nat × Nat) := l.map fun x => (normalVa c x.1, x.2)
  let rw : List (Nat × Nat) × List (Nat × Nat) :=
    if j.kind = 0 then ([(a, n)], [(b, n)])
    else if j.kind = 1 then
      let p := shapeOf j.record
      if known then ((n, 64) :: p.range j.qw1 p.ss true, p.range j.qw2 p.ds false) else ([(n, 64)], [])
    else if j.kind = 2 then ([(a, n)], (multicastTargets j.qw2).map fun x => (x, n))
    else if j.kind = 3 then ([(a, n), (b, 32)], if known then j.destinations.map fun x => (x, n) else [])
    else if j.kind = 4 then ([], [(b, n)])
    else if j.kind = 5 then
      ([(b, 16)] ++ (if 16 ≤ j.record.length then [(a, 16 * j.entries)] else []) ++
          (if known then
            (List.range j.entries).flatMap fun i =>
              rowsRange (j.tileRows i)
           else []), [])
    else
      let w : Word := BitVec.ofNat 64 (imgNat j.record 8 8)
      ([(a, 16)],
        if known then (b, 32 * drainRows w) :: if drainCoded w then [(b + drainSoff w, 32)] else [] else [])
  (norm rw.1, norm rw.2)

def rangesMeet (l m : List (Nat × Nat)) : Bool := l.any fun x => m.any fun y => overlaps x.1 x.2 y.1 y.2

/-- The ranges of a job that has not completed are known (R267). -/
def Job.rangesKnown (j : Job) : Bool := j.recordLeft.isNone

/-- Job j2 waits for the earlier job j1 of its core (R267, R268). -/
def State.jobHeld (s : State) (c : CoreId) (j1 j2 : Job) : Bool :=
  !j1.rangesKnown ||
    (let x := s.jobRanges c j1
     let y := s.jobRanges c j2
     rangesMeet x.2 y.1 || rangesMeet x.2 y.2 || rangesMeet x.1 y.2)

/-- Every core of the partition of context n has arrived at a BARP of one schedule (R340). -/
def State.allArrived (s : State) (n : Nat) : Bool :=
  match s.coresOf n with
  | [] => false
  | c :: l => (s.getCore c).barpAt.isSome && l.all fun d => decide ((s.getCore d).barpAt = (s.getCore c).barpAt)

/-- The job accesses nothing but the scratchpad of its core. -/
def State.jobLocal (s : State) (c : CoreId) (j : Job) : Bool :=
  let r := s.jobRanges c j
  decide (j.kind < 5) &&
    (r.1 ++ r.2).all fun x =>
      decide (14 * 2 ^ 56 + c * 2 ^ 19 ≤ x.1) && decide (x.1 + x.2 ≤ 14 * 2 ^ 56 + (c + 1) * 2 ^ 19)

/-- From the drain of a BARP to the XEND a job that uses the mesh pauses, and none starts (R340, R343). -/
def State.jobPaused (s : State) (c : CoreId) (j : Job) : Bool :=
  let k := s.getCore c
  (k.inPhase.isSome || (k.barpAt.isSome && s.allArrived (k.context.getD 64))) && !(j.running && s.jobLocal c j)

/-- Job i of core c's queue may perform accesses. -/
def State.jobMayRun (s : State) (c : CoreId) (i : Nat) : Bool :=
  let k := s.getCore c
  s.engineLive c &&
    (match k.jobs[i]? with | some j => !s.jobPaused c j | none => false) &&
    match k.jobs with
    | [a, b] => i == 0 || !s.jobHeld c a b
    | _ => true

/-- What comes of a job's run, for the events COPY_JOB_COMPLETE and COPY_JOB_FAIL. -/
def JobRes.out (r : JobRes) (c : CoreId) (j : Job) (fails : Bool) (name : String) : Out :=
  match r with
  | .done t => if fails || !t.maySettle c j then .refused (.notEnabled name) else .next (t.finishJob c j)
  | .fail e t => if fails && t.maySettle c j then .next (t.failJob c j e) else .refused (.notEnabled name)
  | .wait => .refused (.notEnabled name)
  | .poison t => .next t
  | .onward t => if fails then .refused (.notEnabled name) else .next t

/-! ## One access at a time (R225, R257, R263, R291) -/

/-- One access of a job, by number: the next granule of its record; then 2 o is the read that brings byte o of its data, and
2 i + 1 is its write i, once the answers to its reads have come. -/
def State.jobAccess (s : State) (c : CoreId) (j : Job) (pick : Nat) : PartRes :=
  if j.recordLeft.isSome then s.finishRecord c j 1
  else if pick % 2 = 0 then State.fetchData c true [pick / 2] s j
  else
    match j.writes[pick / 2]? with
    | none => .stuck s j
    | some p =>
      if pick / 2 < j.pos ∨ j.wrote.contains (pick / 2) ∨ s.jobReading c j then .stuck s j
      else (s.beforeWrites c j).andThen fun t k => t.jobWrite c k (pick / 2) p

/-- Job i of core c makes that access and no other. -/
def State.jobStep (s : State) (c i pick : Nat) : Out :=
  match (s.getCore c).jobs[i]? with
  | some j =>
    if s.jobMayRun c i then
      match (s.jobAccess c j pick).outcome c j false with
      | .done t | .onward t | .poison t => .next t
      | .fail e t => if t.maySettle c j then .next (t.failJob c j e) else .refused (.notEnabled "job access")
      | .wait => .refused (.notEnabled "job access")
    else .refused (.notEnabled "job access")
  | none => .refused (.notEnabled "job access")

/-- An answer on its way that a request of core c in a context for a line may share at a slice (R225): not one from before a
store of the core to the line (R234). -/
def State.sharedAt (s : State) (c : CoreId) (ctx line slice : Nat) : Option (BitVec 1024) :=
  s.answers.findSome? fun a =>
    match a.shared with
    | some x => if x.ctx = ctx ∧ x.line = line ∧ x.slice = slice ∧ !x.barred.contains c then some x.data else none
    | none => none

/-- The read of byte o of the data of job i of core c, an MCAST, is merged with a read not yet answered (R225). -/
def State.jobMerge (s : State) (c i o : Nat) : Out :=
  match (s.getCore c).jobs[i]? with
  | some j =>
    match (if s.jobMayRun c i ∧ j.kind = 2 then j.readPart o else none) with
    | some p =>
      match (tfind p.off j.got).isSome, s.engineTranslate c j.ctx j.keys j.system .load p.va with
      | false, (.ok pl a e, t) =>
        match (if pl = .hbm ∨ pl = .host then t.sharedAt c j.ctx (a / 128) (sliceOf pl a e) else none) with
        | some x =>
          .next
            ((t.watchEngine c .load pl a p.len p.va).putJob c
              { j with running := true, got := tset p.off (natBytes (lineRead x (a % 128) p.len) p.len) j.got })
        | none => .refused (.notEnabled "merge")
      | _, _ => .refused (.notEnabled "merge")
    | none => .refused (.notEnabled "merge")
  | none => .refused (.notEnabled "merge")

end Sys2Proof.Machine
end

