-- ==== Sys2Proof/Machine/Hash.lean ====
section
/-! DEFINITION. SHA-384 and the verification of an ECDSA signature over the 384-bit random Brainpool curve: the manual names
both and defines neither (R392, R394), so FIPS 180-4, FIPS 186 and RFC 5639 are followed (PRESUMED, log 75). -/

namespace Sys2Proof.Machine

/-! ## SHA-384 -/

/-- The greatest number below x + 2^n, and at least x, whose k-th power does not exceed v. -/
def rootBelow (k v : Nat) : Nat → Nat → Nat
  | 0, x => x
  | n + 1, x => if (x + 2 ^ n) ^ k ≤ v then rootBelow k v n (x + 2 ^ n) else rootBelow k v n x

/-- The first 80 primes. -/
def shaPrimes : List Nat :=
  (List.range 410).filter fun n => decide (1 < n) && (List.range n).all fun d => decide (d < 2) || decide (n % d ≠ 0)

/-- The first 64 bits of the fraction of the k-th root of a prime. -/
def rootFraction (k p : Nat) : Word := BitVec.ofNat 64 (rootBelow k (p * 2 ^ (64 * k)) 68 0)

def shaRound : List Word := shaPrimes.map (rootFraction 3)

/-- The eight working words. -/
structure ShaWords where
  a : Word
  b : Word
  c : Word
  d : Word
  e : Word
  f : Word
  g : Word
  h : Word
deriving DecidableEq, Repr

def shaStart : ShaWords :=
  let x (i : Nat) : Word := rootFraction 2 (shaPrimes.getD (8 + i) 0)
  { a := x 0, b := x 1, c := x 2, d := x 3, e := x 4, f := x 5, g := x 6, h := x 7 }

def ShaWords.add (x y : ShaWords) : ShaWords :=
  { a := x.a + y.a, b := x.b + y.b, c := x.c + y.c, d := x.d + y.d, e := x.e + y.e, f := x.f + y.f, g := x.g + y.g, h := x.h + y.h }

/-- Three rotations, or two with a shift, combined. -/
def rotations (w : Word) (i j k : Nat) : Word := w.rotateRight i ^^^ w.rotateRight j ^^^ w.rotateRight k
def rotationsShift (w : Word) (i j k : Nat) : Word := w.rotateRight i ^^^ w.rotateRight j ^^^ (w >>> k)

/-- n more words of the schedule; the newest stands first. -/
def shaSchedule : Nat → List Word → List Word
  | 0, l => l
  | n + 1, l =>
    let w (i : Nat) : Word := l.getD i 0#64
    shaSchedule n ((rotationsShift (w 1) 19 61 6 + w 6 + rotationsShift (w 14) 1 8 7 + w 15) :: l)

/-- One round, with a round constant and a word of the schedule. -/
def ShaWords.round (x : ShaWords) (k : Word × Word) : ShaWords :=
  let choice := (x.e &&& x.f) ^^^ (~~~x.e &&& x.g)
  let most := (x.a &&& x.b) ^^^ (x.a &&& x.c) ^^^ (x.b &&& x.c)
  let t := x.h + rotations x.e 14 18 41 + choice + k.1 + k.2
  { a := t + rotations x.a 28 34 39 + most, b := x.a, c := x.b, d := x.c, e := x.d + t, f := x.e, g := x.f, h := x.g }

/-- The big-endian number of some bytes. -/
def bigNat (b : List Byte) : Nat := bytesNat b.reverse

/-- A block of 128 bytes is taken in. -/
def ShaWords.block (x : ShaWords) (b : List Byte) : ShaWords :=
  let first := (List.range 16).map fun i => BitVec.ofNat 64 (bigNat ((b.drop (8 * i)).take 8))
  x.add ((shaRound.zip (shaSchedule 64 first.reverse).reverse).foldl ShaWords.round x)

/-- A message with its padding: a one bit, zeros, and the length in bits in the last 16 bytes. -/
def shaPadded (m : List Byte) : List Byte :=
  m ++ [0x80#8] ++ List.replicate ((239 - m.length % 128) % 128) 0#8 ++ (natBytes (8 * m.length) 16).reverse

/-- SHA-384 of a message. -/
def sha384 (m : List Byte) : BitVec 384 :=
  let b := shaPadded m
  let x := (List.range (b.length / 128)).foldl (fun x i => x.block ((b.drop (128 * i)).take 128)) shaStart
  x.a ++ (x.b ++ (x.c ++ (x.d ++ (x.e ++ x.f))))

/-! ## ECDSA over the curve of RFC 5639 -/

/-- The prime of the field, the curve's coefficients, its base point and the point's order. -/
def curveP : Nat := 0x8cb91e82a3386d280f5d6f7e50e641df152f7109ed5456b412b1da197fb71123acd3a729901d1a71874700133107ec53
def curveA : Nat := 0x7bc382c63d8c150c3c72080ace05afa0c2bea28e4fb22787139165efba91f90f8aa5814a503ad4eb04a8c7dd22ce2826
def curveB : Nat := 0x04a8c7dd22ce28268b39b55416f0447c2fb77de107dcd2a62e880ea53eeb62d57cb4390295dbc9943ab78696fa504c11
def curveG : Nat × Nat :=
  (0x1d1c64f068cf45ffa2a63a81b7c13f6b8847a3e77ef14fe3db7fcafe0cbd10e8e826e03436d646aaef87b2e247d4af1e,
    0x8abe1d7520f9c2a45cb1eb8e95cfd55262b70b29feec5864e19c054ff99129280e4646217791811142820341263c5315)
def curveN : Nat := 0x8cb91e82a3386d280f5d6f7e50e641df152f7109ed5456b31f166e6cac0425a7cf3ab6af6b7fc3103b883202e9046565

/-- x to the power e modulo m, for an exponent of at most 384 bits. -/
def powMod (x e m : Nat) : Nat :=
  ((List.range 384).foldl (fun (r : Nat × Nat) i => (if e.testBit i then r.1 * r.2 % m else r.1, r.2 * r.2 % m)) (1, x % m)).1

/-- The inverse modulo a prime. -/
def inverseMod (x m : Nat) : Nat := powMod x (m - 2) m

/-- The sum of two points; none is the point at infinity. -/
def curveAdd (p q : Option (Nat × Nat)) : Option (Nat × Nat) :=
  match p, q with
  | none, q => q
  | p, none => p
  | some (x, y), some (u, v) =>
    if x = u ∧ (y + v) % curveP = 0 then none
    else
      let slope :=
        if x = u then (3 * x * x + curveA) * inverseMod (2 * y) curveP % curveP
        else (v + curveP - y) * inverseMod (u + curveP - x) curveP % curveP
      let z := (slope * slope + 2 * curveP - x - u) % curveP
      some (z, (slope * (x + curveP - z) + curveP - y) % curveP)

/-- A multiple of a point. -/
def curveMul (e : Nat) (p : Option (Nat × Nat)) : Option (Nat × Nat) :=
  ((List.range 384).foldl (fun (r : Option (Nat × Nat) × Option (Nat × Nat)) i =>
    (if e.testBit i then curveAdd r.1 r.2 else r.1, curveAdd r.2 r.2)) (none, p)).1

/-- The pair lies on the curve. -/
def onCurve (x y : Nat) : Bool :=
  decide (x < curveP) && decide (y < curveP) && decide (y * y % curveP = (x * x * x + curveA * x + curveB) % curveP)

/-- A signature r then s over a digest verifies under a public key x then y (R394). -/
def verifies (key : BitVec 768) (digest : BitVec 384) (sig : BitVec 768) : Bool :=
  let x := key.toNat / 2 ^ 384
  let y := key.toNat % 2 ^ 384
  let r := sig.toNat / 2 ^ 384
  let t := sig.toNat % 2 ^ 384
  if onCurve x y ∧ 0 < r ∧ r < curveN ∧ 0 < t ∧ t < curveN then
    let w := inverseMod t curveN
    match curveAdd (curveMul (digest.toNat * w % curveN) (some curveG)) (curveMul (r * w % curveN) (some (x, y))) with
    | some (z, _) => decide (z % curveN = r)
    | none => false
  else false

end Sys2Proof.Machine
end

