-- ==== Sys2Proof/Machine/Window.lean ====
section
/-! DEFINITION. The engine window: its registers, the queue status, and the submission of a job (R226 to R231, R286, R287). -/

namespace Sys2Proof.Machine

/-- QSTAT (R287). -/
def Core.qstat (k : Core) : Word := BitVec.ofNat 64 (k.jobs.length * 2 ^ 32 + k.lastJob)

/-- What a load of the window register at offset o returns (R226). -/
def Core.windowLoad (k : Core) (o : Nat) : Word :=
  if o = 0 then k.qw0
  else if o = 8 then k.qw1
  else if o = 0x10 then k.qw2
  else if o = 0x18 then k.qw3
  else if o = 0x28 then k.qstat
  else 0#64

/-- A store to QW0, QW1, QW2 or QW3. -/
def Core.windowSet (k : Core) (n : Nat) (x : Word) : Core :=
  if n = 0 then { k with qw0 := x }
  else if n = 1 then { k with qw1 := x }
  else if n = 2 then { k with qw2 := x }
  else { k with qw3 := x }

/-- KIND (R227). -/
def Core.jobKind (k : Core) : Nat := wfield k.qw0 32 4

/-- The multicast word breaks R229. -/
def badMulticast (w : Word) : Bool :=
  let o := wfield w 40 8
  decide (12 < o % 16) || decide (6 < o / 16) || decide (wfield w 36 4 ≠ 0) || decide (wfield w 19 13 ≠ 0) ||
    decide (wfield w 0 3 ≠ 0) || decide (wfield w 48 16 = 0)

/-- QGO finds a malformed job (R230, R330, R331). -/
def Core.badJob (k : Core) : Bool :=
  let kind := k.jobKind
  let len := k.qw3.toNat
  let mis (w : Word) : Bool := decide (w.toNat % 8 ≠ 0)
  decide (wfield k.qw0 41 23 ≠ 0) || decide (wfield k.qw0 36 4 ≠ 0) || decide (7 ≤ kind) ||
    (wbit k.qw0 40 && decide (kind ≠ 1)) ||
    (if kind = 0 then decide (2 ^ 32 ≤ len)
     else if kind = 1 then mis k.qw3
     else if kind = 2 then
       decide (len < 8) || decide (65536 < len) || mis k.qw3 || badMulticast k.qw2 || decide (0x0D < wfield k.qw1 56 8)
     else if kind = 3 then decide (2 ^ 32 ≤ len) || mis k.qw2
     else if kind = 4 then decide (2 ^ 32 ≤ len) || mis k.qw3 || mis k.qw2
     else if kind = 5 then decide (len ≠ 0) || mis k.qw1 || mis k.qw2
     else decide (len ≠ 0) || mis k.qw1)

/-- The next job number (R286). -/
def Core.nextJob (k : Core) : Nat := if k.lastJob = 2 ^ 32 - 1 then 1 else k.lastJob + 1

/-- The job that the window describes, with the KEYS of the core's context (R231, R384). -/
def Core.jobOf (k : Core) (keys : BitVec 256) : Job :=
  { num := 0
    qw0 := k.qw0
    qw1 := k.qw1
    qw2 := k.qw2
    qw3 := k.qw3
    system := k.system
    keys := keys
    ctx := k.context.getD 64
    card := k.card }

/-- A job enters the queue and gets its number (R231, R286). -/
def Core.enqueueJob (k : Core) (j : Job) : Core :=
  { k with
    jobs := k.jobs ++ [{ j with num := k.nextJob, era := k.era }]
    era := k.era + 1
    lastJob := k.nextJob
    wrapped := k.wrapped || decide (k.lastJob = 2 ^ 32 - 1) }

/-- The job that the window describes enters the queue (R231). -/
def Core.submit (k : Core) (keys : BitVec 256) : Core := k.enqueueJob (k.jobOf keys)

/-- An access of the instruction to the window at offset o, as watchpoints see it (R412). -/
def State.watchWindow (s : State) (acc : Access) (o : Nat) : State :=
  s.watchOwn acc { off := 0, len := 8, va := windowVa + o, place := .hbm, addr := 0, pte := 0#64 }

/-- A QGO store (R230, R231): checked, then submitted once a queue entry is free. In the routine of a deferred instruction
it waits, as its other stores do, for the end of the routine (R84). -/
def State.qgo (s : State) : Out :=
  if s.core.badJob then s.trap 0x1C4#10 (BitVec.ofNat 64 (windowVa + 0x20))
  else
    match s.core.routine with
    | some r =>
      .next
        ((s.watchWindow .store 0x20).upd fun k =>
          { k with routine := some { r with jobs := r.jobs ++ [k.jobOf s.keysNow] } }).advance
    | none =>
      if 2 ≤ s.core.jobs.length then s.stall
      else .next ((s.watchWindow .store 0x20).upd fun k => k.submit s.keysNow).advance

/-- An SD to the window at offset o (R226). What a routine writes there is taken back when it faults (R84). -/
def State.windowStore (s : State) (o : Nat) (x : Word) : Out :=
  if o = 0x28 then s.trap 0x1C2#10 (BitVec.ofNat 64 (windowVa + o))
  else
    s.ordered fun s =>
      if o = 0x20 then s.qgo
      else .next ((s.watchWindow .store o).upd fun k => k.windowSet (o / 8) x).advance

/-- The QGO store of one kind of job, as a step of its own. -/
def State.qgoOf (s : State) (kind : Nat) (name : String) : Out :=
  if s.core.jobKind = kind then s.ordered State.qgo else .refused (.notEnabled name)

/-- QGO_COPY (R228): a QGO store submits a COPY job. -/
def execQgoCopy (s : State) : Out := s.qgoOf 0 "QGO_COPY"
/-- QGO_TENSOR (R289). -/
def execQgoTensor (s : State) : Out := s.qgoOf 1 "QGO_TENSOR"
/-- QGO_MCAST (R229). -/
def execQgoMcast (s : State) : Out := s.qgoOf 2 "QGO_MCAST"
/-- QGO_MCWRITE (R263). -/
def execQgoMcwrite (s : State) : Out := s.qgoOf 3 "QGO_MCWRITE"
/-- QGO_FILL (R228). -/
def execQgoFill (s : State) : Out := s.qgoOf 4 "QGO_FILL"
/-- QGO_SUBSCRIBE (R330). -/
def execQgoSubscribe (s : State) : Out := s.qgoOf 5 "QGO_SUBSCRIBE"
/-- QGO_PULL (R331). -/
def execQgoPull (s : State) : Out := s.qgoOf 6 "QGO_PULL"

/-- REGISTER_WRITE (R231): the store to QW0, QW1, QW2 or QW3. -/
def execRegisterWrite (n : BitVec 2) (v : Word) (s : State) : Out := s.windowStore (8 * n.toNat) v

end Sys2Proof.Machine
end

