-- ==== Sys2Proof/Machine/Ring.lean ====
section
/-! DEFINITION. Tile rings: the RNG instructions, the step of a ring, hardware and software tasks, SUBSCRIBE and PULL jobs,
and the completion of matrix commands and copy jobs (R313 to R331, R366 to R369). -/

namespace Sys2Proof.Machine

/-! ## Beads (R318, R319) -/

def Bead.index (b : Bead) : Nat := b.tag.toNat % 2 ^ 12
def Bead.pairKey (b : Bead) : Nat := b.tag.toNat / 2 ^ 12 % 2 ^ 12

/-- Header bytes 0x00 to 0x07. -/
def Bead.headerWord (b : Bead) : Word :=
  BitVec.ofNat 64 (b.tag.toNat + b.pcnt % 256 * 2 ^ 32 + b.dcnt % 256 * 2 ^ 40 + b.age % 65536 * 2 ^ 48)

/-- The 64 bytes of the header. -/
def Bead.header (b : Bead) : List Byte :=
  natBytes b.headerWord.toNat 8 ++ natBytes b.dmask.toNat 8 ++ [b.fmt] ++ natBytes 0 15 ++
    (List.range 32).map fun i => b.scale.getD i 0#8

/-- Bytes of a body (R318). -/
def bodySize (fmt : Nat) : Nat := if fmt % 4 < 2 then 2048 else if fmt % 4 = 2 then 1024 else 512

def beadFmt (fmt : Nat) : ElemFmt :=
  if fmt % 4 = 0 then .bf16 else if fmt % 4 = 1 then .fp16 else if fmt % 4 = 2 then .code8 else .code4

/-- A bead that is not injected (R319). -/
def Bead.bad (b : Bead) : Bool :=
  decide (b.pcnt = 0) || decide (64 < b.pcnt) || decide (32 ≤ b.fmt.toNat) ||
    (decide (b.fmt.toNat % 4 < 2) && decide (b.fmt.toNat / 4 % 4 ≠ 0)) || decide (field b.tag.toNat 24 7 ≠ 0)

/-- The bead of an image: its header and body, as its source supplies them until it is injected (R319, R368). -/
def beadOf (img : List Byte) (c : CoreId) (ctx : Nat) (waits : Bool) : Bead :=
  { tag := BitVec.ofNat 32 (imgNat img 0 4)
    pcnt := imgByte img 4
    dcnt := imgByte img 5
    age := imgNat img 6 2
    dmask := BitVec.ofNat 64 (imgNat img 8 8)
    fmt := img.getD 0x10 0#8
    scale := (img.drop 0x20).take 32
    body := img.drop 64
    from_ := c
    waits := waits
    ctx := ctx }

/-! ## The ring of a cluster -/

def Ring.famA (r : Ring) (b : Bead) : Bool := b.tag.getLsbD 31 == wbit r.config 27
def Ring.limit (r : Ring) : Nat := wfield r.config 40 8
def Ring.takesPart (r : Ring) (s : Nat) : Bool := wbit r.config (48 + s)
def Ring.taskArea (r : Ring) : Nat := wfield r.config 0 13 * 64

def State.ring (s : State) (cl : Nat) : Ring := (s.cluster cl).ring
def State.setRing (s : State) (cl : Nat) (r : Ring) : State := s.mapCluster cl fun k => { k with ring := r }

/-- The ring advances in steps. -/
def Ring.stepping (r : Ring) : Bool := r.state == .running || r.state == .draining

def Ring.queue (r : Ring) (a : Bool) : List Bead := if a then r.queueA else r.queueB
def Ring.setQueue (r : Ring) (a : Bool) (l : List Bead) : Ring := if a then { r with queueA := l } else { r with queueB := l }

/-- A bead joins its family's injection queue (R330). -/
def Ring.join (r : Ring) (b : Bead) : Ring := r.setQueue (r.famA b) (r.queue (r.famA b) ++ [b])
def Ring.roomFor (r : Ring) (b : Bead) : Bool := decide ((r.queue (r.famA b)).length < 8)

/-- No bead on the ring and none waiting. -/
def Ring.empty (r : Ring) : Ring := { r with slotA := [], slotB := [], queueA := [], queueB := [] }

/-! ## Match tables and tasks (R320 to R325) -/

/-- Entry e as a 128-bit number. -/
def Core.entry (k : Core) (e : Nat) : Nat :=
  (tget (2 * e) k.mentries 0#64).toNat + (tget (2 * e + 1) k.mentries 0#64).toNat * 2 ^ 64

def entryAct (x : Nat) : Nat := field x 30 2
def entryNfire (x : Nat) : Nat := field x 0 20
def entryCk (x : Nat) : Nat := field x 24 2
def entrySlot (x : Nat) : Nat := field x 26 2
def entryNeg (x : Nat) : Bool := x.testBit 28

/-- The entry is spent (R329). -/
def Core.spent (k : Core) (e : Nat) : Bool :=
  decide (entryNfire (k.entry e) ≠ 0) && decide (tget e k.fcnt 0 = entryNfire (k.entry e))

/-- An entry matches a pair (R322). -/
def Core.matches_ (k : Core) (e : Nat) (x y : Bead) : Bool :=
  let v := k.entry e
  decide (entryAct v ≠ 0) && !k.spent e && decide (x.tag.toNat % 2 ^ 24 &&& field v 56 24 = field v 32 24) &&
    decide (y.tag.toNat % 2 ^ 24 &&& field v 104 24 = field v 80 24) && (!v.testBit 29 || decide (x.pairKey = y.pairKey))

/-- MTLD finds a malformed image (R321). -/
def badMatchImage (img : List Byte) : Bool :=
  (List.range 8).any fun e =>
    let v := imgNat img (16 * e) 16
    let t := imgNat img (0x80 + 8 * e) 8
    let ck := entryCk v
    decide (entryAct v = 3) || decide (ck = 3) || decide (field v 20 4 ≠ 0) ||
      (decide (ck ≠ 0) && (decide (entryNfire v = 0) || decide (entryAct v = 0))) ||
      (decide (ck = 0) && decide (t ≠ 0)) || (decide (ck = 1) && decide (2 ^ 14 ≤ t)) ||
      (decide (ck = 2) && decide (2 ^ 32 ≤ t))

/-- The table is replaced, and every entry starts anew. -/
def Core.setMatch (k : Core) (img : List Byte) : Core :=
  let words (o n : Nat) : List Word := (List.range n).map fun i => BitVec.ofNat 64 (imgNat img (o + 8 * i) 8)
  { k with
    mentries := tabOf 0#64 (words 0 16)
    mtargets := tabOf 0#64 (words 0x80 8)
    fcnt := []
    tcnt := []
    issuedDone := [] }

/-- No task of the station's entries is in flight. -/
def Core.noTasks (k : Core) : Bool := k.tcnt.all fun r => decide (r.2 = 0)

/-- The completion action of entry e is due: it has not been issued (R329). -/
def Core.actionDue (k : Core) (e : Nat) : Bool :=
  k.spent e && decide (tget e k.tcnt 0 = 0) && !tget e k.issuedDone false && decide (entryCk (k.entry e) ≠ 0)

/-- The completion actions that are due at core c and can be issued now, while its context runs (R329, R431). -/
def State.entryAction (s : State) (c : CoreId) (e : Nat) : State :=
  let k := s.getCore c
  let v := k.entry e
  if !k.actionDue e || !s.engineLive c then s
  else
    let t := tget e k.mtargets 0#64
    let done (k : Core) : Core := { k with issuedDone := tset e true k.issuedDone }
    let ctx := k.context.getD 64
    if entryCk v = 2 then
      if !s.futRoom ctx (t.toNat % 2 ^ 32) then s
      else (s.setCore c (done k)).engineFulfil c ctx (t.toNat % 2 ^ 32) 2 (tget e k.fcnt 0)
    else if !s.coreOf ctx (wfield t 0 12) then s.setCore c ((done k).pendAsync 0x146#10 0#64)
    else if (k.slot (entrySlot v)).isOpen then s.setCore c ((done k).pendAsync 0x144#10 0#64)
    else if k.queueFull then s
    else
      s.setCore c
        { done k with
          mqueue := k.mqueue ++
            [{ cmd := .cadd true
               slot := entrySlot v
               a := BitVec.ofNat 64 (wfield t 0 12)
               b := BitVec.ofNat 64 (wfield t 12 2)
               system := k.system
               card := k.card }] }

def State.entryActions (s : State) (c : CoreId) : State := (List.range 8).foldl (fun t e => t.entryAction c e) s

/-- CPCAN: an outstanding job performs nothing more (R291), and its DONE is poisoned once every earlier access of the core has
been performed (R269). The place that a PULL's read leaves in a matrix queue serves a completion action that waits (R329). -/
def execCpcan (a : Reg) (s : State) : Out :=
  let n := (s.src a 0).toNat % 2 ^ 32
  s.issue { ss := [(a, 0)] }
    (s.ordered fun s =>
      match s.core.jobs.find? fun j => j.num = n with
      | none => .next s.advance
      | some j =>
        if j.done ≠ 0 ∧ !(s.storesDone && s.core.pend.isEmpty && s.futRoom j.ctx j.done) then s.stall
        else
        let t := (s.dropPull s.cur n).upd fun k => k.retireJob n (jobWord 0x31F 5 n)
        .next ((t.engineFulfil t.cur j.ctx j.done 3 0x31F).entryActions (pullCore j.record)).advance)

/-- A draining ring with no bead and no task in flight is OFF (R317). -/
def State.ringIdle (s : State) (cl : Nat) : State :=
  let r := s.ring cl
  if r.state = .draining ∧ r.slotA.isEmpty ∧ r.slotB.isEmpty ∧
      ((List.range 16).all fun i => (s.getCore (16 * cl + i)).noTasks) then
    s.setRing cl { r.empty with state := .off }
  else s

/-- A task of entry e at core c has completed (R324, R325). -/
def State.taskDone (s : State) (c : CoreId) (e : Nat) : State :=
  ((s.mapCore c fun k => { k with tcnt := tset e (tget e k.tcnt 0 - 1) k.tcnt }).entryActions c).ringIdle (clusterOf c)

/-- The products of a hardware task: x by rows, y by columns, each with its scales (R318, R324). -/
def State.performTask (s : State) (c : CoreId) (q : QCmd) (negated : Bool) : State :=
  let k := s.getCore c
  match q.beads with
  | [x, y] =>
    let row (b : Bead) (i : Nat) : List Byte :=
      let n := (beadFmt b.fmt.toNat).bytes 32
      (b.body.drop (n * i)).take n
    let el (b : Bead) (r i : Nat) : Fl := (beadFmt b.fmt.toNat).elem (k.table (b.fmt.toNat / 4 % 4)) (row b r) i
    let sc (b : Bead) (i : Nat) : Nat := if b.fmt.getLsbD 4 then (b.scale.getD i 0#8).toNat else 127
    let l := List.range 32
    let a := l.map fun i => l.map fun kk => scaled (el x i kk) (sc x i)
    let b := l.map fun j => l.map fun kk => scaled (el y kk j) (sc y j)
    let m := (k.slot q.slot).multiply 32 32 32 negated a b
    ((s.setCore c (k.setSlot q.slot m)).countCtx (k.context.getD 64) 1 32768).checkChain c q.slot
  | _ => s

/-- The read of a PULL job: converted, or failed with its own cause (R331). -/
def State.performPull (s : State) (c : CoreId) (q : QCmd) (owner job : Nat) : State :=
  let k := s.getCore c
  let x := k.slot q.slot
  match (s.getCore owner).jobs.find? fun j => j.num = job with
  | none => s
  | some j =>
    if badDrain k q.b false (geoM x.geometry) (geoN x.geometry) then s.failJob owner j 0x2C6#10
    else
      match x.drain k q.b false with
      | .error (_, e) => s.failJob owner j e
      | .ok bytes =>
        s.setJob owner job fun j =>
          { j with bytes := some (bytes, drainAccesses k x.geometry q.b false 0#64) }

/-- MATRIX_COMMAND_COMPLETE (R139): the engine of core c performs the command at the head of its queue. -/
def execMatrixCommandComplete (c : Nat) (s : State) : Out :=
  match (s.getCore c).mqueue with
  | [] => .refused (.notEnabled "MATRIX_COMMAND_COMPLETE")
  | q :: _ =>
    if !(s.engineLive c || q.started) then .refused (.notEnabled "MATRIX_COMMAND_COMPLETE")
    else
    match q.cmd with
    | .task e negated => .next (((s.performTask c q negated).popCommand c).taskDone c e)
    | .pull owner job => .next (((s.popCommand c).performPull c q owner job).entryActions c)
    | _ =>
      match s.finishCommand c q with
      | some t => .next (t.entryActions c)
      | none => .refused (.notEnabled "MATRIX_COMMAND_COMPLETE")

/-! ## The step of a ring (R313, R314, R322 to R328) -/

/-- Move: the family whose parity matches the step number. -/
def Ring.move (r : Ring) : Ring :=
  if r.steps % 2 = 0 then { r with slotA := r.slotA.map fun x => ((x.1 + 1) % 16, x.2) }
  else { r with slotB := r.slotB.map fun x => ((x.1 + 15) % 16, x.2) }

def injected (b : Bead) : Bead := { b with dcnt := 0, age := 0, dmask := 0#64, waits := false }

/-- Inject: station 0 takes the oldest waiting bead of each family. -/
def Ring.inject (r : Ring) : Ring :=
  if r.state ≠ .running then r
  else
    let r :=
      match r.queueA, tfind 0 r.slotA with
      | b :: l, none => { r with queueA := l, slotA := tset 0 (injected b) r.slotA }
      | _, _ => r
    match r.queueB, tfind 0 r.slotB with
    | b :: l, none => { r with queueB := l, slotB := tset 0 (injected b) r.slotB }
    | _, _ => r

def Bead.marked (b : Bead) (i : Nat) : Bead :=
  { b with dmask := b.dmask ||| BitVec.twoPow 64 (i % 64), dcnt := b.dcnt + 1 }

/-- The lowest free software task slot (R325). -/
def Core.freeTask (k : Core) : Option Nat := (List.range 4).find? fun i => (tfind i k.tasks).isNone

/-- A pair fires on entry e at core c: marks, counts and the new task; the task's slot for a software task (R323). -/
def State.fire (s : State) (c : CoreId) (e : Nat) (x y : Bead) (slot : Option Nat) : State :=
  let cl := clusterOf c
  let st := stationOf c
  let r := s.ring cl
  let x := x.marked y.index
  let y := y.marked x.index
  let s := s.setRing cl { r with slotA := tset st x r.slotA, slotB := tset st y r.slotB }
  let s := s.mapCore c fun k =>
    { k with
      fcnt := tset e (tget e k.fcnt 0 + 1) k.fcnt
      tcnt := tset e (tget e k.tcnt 0 + 1) k.tcnt
      fired := k.fired + 1 }
  let k := s.getCore c
  let v := k.entry e
  match slot with
  | none =>
    s.setCore c
      { k with
        mqueue := k.mqueue ++
          [{ cmd := .task e (entryNeg v)
             slot := entrySlot v
             geometry := 0x7FFF#64
             beads := [x, y]
             card := k.card }] }
  | some i =>
    let base := r.taskArea + 4224 * i
    let put (t : State) (o : Nat) (b : List Byte) : State :=
      t.engineWrite c (k.context.getD 64) (.scratch c) (base + o) (15 * 2 ^ 56 + base + o) b true
    (put (put (put (put s 0 x.header) 64 x.body) 2112 y.header) 2176 y.body).mapCore c fun k =>
      { k with tasks := tset i (e, x.tag.toNat, y.tag.toNat, k.fired, false) k.tasks }

/-- The match phase of one station (R322, R324). -/
def State.matchAt (s : State) (c : CoreId) : State :=
  let cl := clusterOf c
  let st := stationOf c
  let r := s.ring cl
  let k := s.getCore c
  match r.takesPart st, tfind st r.slotA, tfind st r.slotB with
  | true, some x, some y =>
    match (List.range 8).find? fun e => k.matches_ e x y with
    | none => s
    | some e =>
      let hw := decide (entryAct (k.entry e) = 1)
      if x.dmask.getLsbD (y.index % 64) ∨ y.dmask.getLsbD (x.index % 64) then s
      else if (hw && k.queueFull) || (!hw && k.freeTask.isNone) then
        s.setCore c { k with miss := min (k.miss + 1) 65535 }
      else if hw && k.overCount (entrySlot (k.entry e)) 32 32 32 then
        (s.setRing cl { r with state := .frozen }).mapCore c fun k =>
          k.pendAsync 0x2C5#10 (BitVec.ofNat 64 (x.tag.toNat + y.tag.toNat * 2 ^ 32))
      else s.fire c e x y (if hw then none else k.freeTask)
  | _, _, _ => s

/-- A bead with a tag on the ring: lowest station, family A first (R368). -/
def Ring.find (r : Ring) (tag : Nat) : Option (Bool × Nat × Bead) :=
  (List.range 16).findSome? fun st =>
    match tfind st r.slotA, tfind st r.slotB with
    | some b, o =>
      if b.tag.toNat = tag then some (true, st, b)
      else match o with | some d => if d.tag.toNat = tag then some (false, st, d) else none | none => none
    | none, some d => if d.tag.toNat = tag then some (false, st, d) else none
    | none, none => none

def Ring.remove (r : Ring) (a : Bool) (st : Nat) : Ring :=
  if a then { r with slotA := terase st r.slotA } else { r with slotB := terase st r.slotB }

/-- The beads that BTAKE waits for leave at the retire phase (R368). -/
def State.takeBeads (cl : Nat) : List (CoreId × Nat) → State → State
  | [], s => s
  | (c, tag) :: l, s =>
    let r := s.ring cl
    let (s, w) :=
      match r.find tag with
      | some (a, st, b) => (s.setRing cl (r.remove a st), b.headerWord)
      | none => (s, 0#64)
    State.takeBeads cl l (s.mapCore c fun k => { k with ringDone := some w })

/-- Retire: beads whose done count equals their partner count (R327). -/
def Ring.retire (r : Ring) : Ring :=
  { r with
    slotA := r.slotA.filter fun x => x.2.dcnt ≠ x.2.pcnt
    slotB := r.slotB.filter fun x => x.2.dcnt ≠ x.2.pcnt }

def Ring.age (r : Ring) : Ring :=
  let f (x : Nat × Bead) : Nat × Bead := (x.1, { x.2 with age := x.2.age + 1 })
  { r with slotA := r.slotA.map f, slotB := r.slotB.map f }

/-- The starved bead at the lowest station, family A first (R328). -/
def Ring.starved (r : Ring) : Option (Nat × Bead) :=
  (List.range 16).findSome? fun st =>
    let old (l : Tab Bead) : Option (Nat × Bead) :=
      match tfind st l with | some b => if 32 * r.limit ≤ b.age then some (st, b) else none | none => none
    (old r.slotA).orElse fun _ => old r.slotB

/-- A core of the cluster is debug-stopped (R415). -/
def State.clusterStopped (s : State) (cl : Nat) : Bool :=
  (List.range 16).any fun i => (s.getCore (16 * cl + i)).debugStopped

/-- RING_STEP (R314): move, inject, match, retire, age. -/
def execRingStep (cl : Nat) (s : State) : Out :=
  let r := s.ring cl
  if !r.stepping ∨ s.clusterStopped cl ∨ !(match (s.cluster cl).context with | some n => s.live n | none => false) then
    .refused (.notEnabled "RING_STEP")
  else
    let s := s.setRing cl r.move.inject
    let s := (List.range 16).foldl (fun t i => t.matchAt (16 * cl + i)) s
    let takes := (s.ring cl).takes
    let s := State.takeBeads cl takes (s.setRing cl { s.ring cl with takes := [] })
    let r := (s.ring cl).retire.age
    let s :=
      match r.starved with
      | some (st, b) =>
        (s.setRing cl { r with state := .frozen, steps := r.steps + 1 }).mapCore (16 * cl) fun k =>
          k.pendAsync 0x2C0#10
            (BitVec.ofNat 64 (b.tag.toNat + st * 2 ^ 32 + b.dcnt % 256 * 2 ^ 40 + b.pcnt % 256 * 2 ^ 48))
      | none => s.setRing cl { r with steps := r.steps + 1 }
    let s := (List.range 16).foldl (fun t i => t.entryActions (16 * cl + i)) s
    .next (s.ringIdle cl)

/-! ## The RNG instructions (R316, R317, R320, R321, R366 to R369) -/

/-- The cluster of the core in focus. -/
def State.cl (s : State) : Nat := clusterOf s.cur

/-- RGCFG finds a malformed configuration word (R316). -/
def State.badRing (s : State) (w : Word) : Bool :=
  decide (wfield w 40 8 = 0) || decide (wfield w 28 12 < 31) || decide (wfield w 13 14 ≠ 0) ||
    (List.range 16).any fun i =>
      wbit w (48 + i) && decide ((s.getCore (16 * s.cl + i)).scratchSize < wfield w 0 13 * 64 + 16896)

def execRgcfg (a : Reg) (s : State) : Out :=
  let w := s.src a 0
  s.issue { ss := [(a, 0)] }
    (s.ordered fun s =>
      let r := s.ring s.cl
      if r.stepping then s.trap 0x2C2#10 0#64
      else if s.badRing w then s.trap 0x2C1#10 0#64
      else
        let t := s.setRing s.cl { state := .running, config := w }
        let t := (List.range 16).foldl (fun t i => t.mapCore (16 * s.cl + i) fun k => { k with miss := 0 }) t
        .next t.advance)

/-- A match table image takes effect once no task of the present entries is in flight, on a ring that is OFF at once (R321), and
once every completion action that is due has been issued (R329). -/
def State.loadMatch (s : State) (img : List Byte) : Out :=
  if (!s.core.noTasks && decide ((s.ring s.cl).state ≠ .off)) || (List.range 8).any s.core.actionDue then s.stall
  else .next (s.upd fun k => k.setMatch img).advance

def execMtld (a : Reg) (s : State) : Out :=
  let va := (s.src a 0).toNat
  s.issue { ss := [(a, 0)] }
    (s.ordered fun s =>
      if va % 8 ≠ 0 then s.trap 0x2C3#10 0#64
      else
        s.readImage true true va 192 fun s img =>
          if badMatchImage img then s.trap 0x2C3#10 0#64 else s.loadMatch img)

def execMtclr (s : State) : Out := s.issue {} (s.ordered fun s => s.loadMatch [])

def execBinj (a : Reg) (w : BitVec 1) (s : State) : Out :=
  let va := (s.src a 0).toNat
  s.issue { ss := [(a, 0)] }
    (s.ordered fun s =>
      let r := s.ring s.cl
      if s.core.pendingWait then
        if (r.queueA ++ r.queueB).any fun b => decide (b.from_ = s.cur) && b.waits then s.waits else .next s.advance
      else if va % 8 ≠ 0 then s.trap 0x2C4#10 0#64
      else if r.state = .off ∨ r.state = .draining then s.trap 0x2C7#10 0#64
      else
        match s.peekImage va 64 with
        | none => s.readImage true true va 64 fun s _ => s.stall
        | some hdr =>
          let b := beadOf hdr s.cur s.ctxNo (w == 1#1)
          if b.bad then s.trap 0x2C4#10 0#64
          else if !r.roomFor b then s.stall
          else
            s.readImage true true va (64 + bodySize (imgByte hdr 0x10)) fun s img =>
              let t := s.setRing s.cl (r.join (beadOf img s.cur s.ctxNo (w == 1#1)))
              if w = 1#1 then (t.upd fun k => { k with pendingWait := true }).waits else .next t.advance)

/-- A bead waiting for injection with the tag: its family and place in the queue. -/
def Ring.queued (r : Ring) (tag : Nat) : Option (Bool × Nat × Bead) :=
  let look (a : Bool) : Option (Bool × Nat × Bead) :=
    ((r.queue a).findIdx? fun b => b.tag.toNat = tag).bind fun i => (r.queue a)[i]?.map fun b => (a, i, b)
  (look true).orElse fun _ => look false

def execBtake (d a : Reg) (s : State) : Out :=
  let tag := (s.src a 0).toNat % 2 ^ 32
  s.issue { ss := [(a, 0)], ds := [d] }
    (s.ordered fun s =>
      let r := s.ring s.cl
      let finish (t : State) (w : Word) : Out :=
        .next ((t.upd fun k => { k with ringWait := none, ringDone := none }).setS d w).advance
      match s.core.ringDone with
      | some w => finish s w
      | none =>
        if s.core.ringWait.isSome && r.stepping then s.waits
        else
          match r.queued tag with
          | some (f, i, b) => finish (s.setRing s.cl (r.setQueue f ((r.queue f).eraseIdx i))) b.headerWord
          | none =>
            match r.find tag with
            | none => finish s 0#64
            | some (f, st, b) =>
              if r.stepping then
                ((s.setRing s.cl { r with takes := r.takes ++ [(s.cur, tag)] }).upd fun k =>
                  { k with ringWait := some tag }).waits
              else finish (s.setRing s.cl (r.remove f st)) b.headerWord)

/-- A state of R317 as BSTAT gives it. -/
def RingState.code : RingState → Nat
  | .off => 0
  | .running => 1
  | .draining => 2
  | .frozen => 3

def execBstat (d a : Reg) (s : State) : Out :=
  let x := s.src a 0
  s.issue { ss := [(a, 0)], ds := [d] }
    (s.ordered fun s =>
      let r := s.ring s.cl
      let sel := wfield x 5 2
      let v : Word :=
        if sel = 0 then
          match tfind (wfield x 0 4) (if wbit x 4 then r.slotB else r.slotA) with
          | some b => b.headerWord
          | none => 0#64
        else if sel = 1 then BitVec.ofNat 64 (s.getCore (16 * s.cl + wfield x 0 4)).miss
        else if sel = 2 then
          BitVec.ofNat 64 (tget (wfield x 0 3) s.core.fcnt 0 % 2 ^ 20 + tget (wfield x 0 3) s.core.tcnt 0 % 8 * 2 ^ 32)
        else
          BitVec.ofNat 64
            (r.state.code + r.queueA.length * 2 ^ 8 + r.queueB.length * 2 ^ 12 + r.steps % 2 ^ 32 * 2 ^ 32)
      .next (s.setS d v).advance)

/-- The software task that is ready, not handed out and first fired. -/
def Core.nextTask (k : Core) : Option (Nat × Nat) :=
  let l := k.tasks.filter fun t => !t.2.2.2.2.2
  match (l.map fun t => t.2.2.2.2.1).min? with
  | none => none
  | some n => (l.find? fun t => t.2.2.2.2.1 = n).map fun t => (t.1, t.2.1)

def execTkget (d : Reg) (s : State) : Out :=
  s.issue { ds := [d] }
    (s.ordered fun s =>
      match s.core.nextTask with
      | some (i, e) =>
        let t := s.upd fun k =>
          { k with
            tasks := k.tasks.map fun t =>
              if t.1 = i then (t.1, t.2.1, t.2.2.1, t.2.2.2.1, t.2.2.2.2.1, true) else t }
        .next (t.setS d (BitVec.ofNat 64 (i + e * 16 + 256))).advance
      | none => if (s.ring s.cl).stepping then s.waits else .next (s.setS d 0#64).advance)

/-- TKDONE. A future that the entry may fulfil is a release of the station core: its stores come first (R269, R329). -/
def execTkdone (a : Reg) (s : State) : Out :=
  let i := wfield (s.src a 0) 0 2
  s.issue { ss := [(a, 0)] }
    (s.ordered fun s =>
      match tfind i s.core.tasks with
      | some (e, _, _, _, true) =>
        if entryCk (s.core.entry e) = 2 && !s.storesDone then s.stall
        else .next ((s.upd fun k => { k with tasks := terase i k.tasks }).taskDone s.cur e).advance
      | _ => s.trap 0x2C8#10 0#64)

/-- RGSUB: a SUBSCRIBE job on a snapshot of its own (R369). -/
def execRgsub (d a b : Reg) (s : State) : Out :=
  let x := s.src a 0
  let y := s.src b 0
  s.issue { ss := [(a, 0), (b, 0)], ds := [d] }
    (s.ordered fun s =>
      let k := { s.core with qw0 := 0x500000000#64, qw1 := x, qw2 := y, qw3 := 0#64 }
      if k.badJob then s.trapOpen 0x1C4#10
      else if 2 ≤ k.jobs.length then s.stall
      else
        let t := s.upd fun o =>
          { k.submit s.keysNow with qw0 := o.qw0, qw1 := o.qw1, qw2 := o.qw2, qw3 := o.qw3 }
        .next (t.setS d (BitVec.ofNat 64 t.core.lastJob)).advance)

def execRgquiet (s : State) : Out :=
  s.issue {}
    (s.ordered fun s =>
      let r := s.ring s.cl
      match r.state with
      | .running => .next ((s.setRing s.cl { r with state := .draining }).ringIdle s.cl).advance
      | .frozen => .next (s.setRing s.cl { r.empty with state := .off }).advance
      | _ => .next s.advance)

/-! ## SUBSCRIBE and PULL jobs (R330, R331) -/

/-- The next bead of a SUBSCRIBE job's list, or why it has none (R319, R330). -/
inductive NextBead where
  | bead (b : Bead) (cl : Nat) (s : State)
  | fail (e : Cause) (s : State)
  | finished
  /-- a part of the tile has been read, or a poisoned granule has been charged -/
  | poison (s : State)
  | wait

/-- The next bead of a SUBSCRIBE job, once what it has not read of the tile is read (R272). -/
def State.nextBead (s : State) (c : CoreId) (j : Job) : NextBead :=
  let o := 16 + 16 * j.pos
  let rows := j.tileRows j.pos
  let fmt := imgByte j.record (o + 13)
  let body := bodySize fmt
  if j.entries ≤ j.pos then .finished
  else if rows.any fun x => decide (x.1 % 8 ≠ 0) then .fail 0x2C6#10 s
  else
    match State.fetchData c false (List.range (rows.map fun x => x.2).sum) s j with
    | .fail e t => .fail e t
    | .poison t k => .poison (t.putJob c k)
    | .stuck t k => if k = j then .wait else .poison (t.putJob c k)
    | .ok t k =>
      let b : Bead :=
        { tag := BitVec.ofNat 32 (imgNat j.record (o + 8) 4)
          pcnt := imgByte j.record (o + 12)
          fmt := BitVec.ofNat 8 fmt
          scale := if fmt.testBit 4 then k.data body 32 else List.replicate 32 0#8
          body := k.data 0 body
          from_ := c
          job := some j.num
          ctx := j.ctx }
      if b.bad then .fail 0x2C4#10 t else .bead b (recordCluster c j.record) t

/-- A bead of the job waits for injection. -/
def Ring.holdsJob (r : Ring) (c : CoreId) (n : Nat) : Bool :=
  (r.queueA ++ r.queueB).any fun b => decide (b.from_ = c) && decide (b.job = some n)

def State.runSubscribe (s : State) (c : CoreId) (j : Job) : JobRes :=
  match j.recordLeft with
  | some (_, n) => (s.finishRecord c j (n / 8)).outcome c j false
  | none =>
    match s.nextBead c j with
    | .fail e t => .fail e t
    | .finished => if (s.ring (recordCluster c j.record)).holdsJob c j.num then .wait else .done s
    | _ => .wait

/-- LOADER_BEAD_ARRIVAL (R330): the bead that job i of core c has read next joins its queue at station 0. -/
def execLoaderBeadArrival (c i : Nat) (s : State) : Out :=
  match (s.getCore c).jobs[i]? with
  | some j =>
    if j.kind = 5 ∧ j.recordLeft.isNone ∧ s.jobMayRun c i then
      match s.nextBead c j with
      | .bead b cl t =>
        let r := t.ring cl
        if r.state = .running ∧ r.roomFor b then
          .next ((t.setRing cl (r.join b)).setJob c j.num fun j => { j with running := true, pos := j.pos + 1, got := [] })
        else .refused (.notEnabled "LOADER_BEAD_ARRIVAL")
      | .poison t => .next t
      | _ => .refused (.notEnabled "LOADER_BEAD_ARRIVAL")
    else .refused (.notEnabled "LOADER_BEAD_ARRIVAL")
  | none => .refused (.notEnabled "LOADER_BEAD_ARRIVAL")

/-- A PULL job: its record; its read, which enters the matrix queue of the slot's core; the storer's writes (R331). -/
def State.runPull (s : State) (c : CoreId) (j : Job) : JobRes :=
  if j.recordLeft.isSome then (s.finishRecord c j 2).outcome c j false
  else if j.bytes.isSome then
    ((s.beforeWrites c j).andThen fun t k =>
      State.jobWrites c ((List.range k.writes.length).zip k.writes) t k).outcome c j true
  else
    let o := pullCore j.record
    let k := s.getCore o
    let n := imgByte j.record 2 % 4
    if k.mqueue.any fun q => match q.cmd with | .pull x m => decide (x = c) && decide (m = j.num) | _ => false then .wait
    else if k.queueFull ∨ (k.slot n).isOpen then .wait
    else
      .onward
        (s.setCore o
          { k with
            mqueue := k.mqueue ++
              [{ cmd := .pull c j.num, slot := n, b := BitVec.ofNat 64 (imgNat j.record 8 8), card := j.card }] })

/-! ## COPY_JOB_COMPLETE and COPY_JOB_FAIL -/

def State.runJob (s : State) (c : CoreId) (j : Job) : JobRes :=
  if j.kind = 5 then s.runSubscribe c j else if j.kind = 6 then s.runPull c j else s.runPlain c j

def State.jobEvent (s : State) (c i : Nat) (fails : Bool) (name : String) : Out :=
  match (s.getCore c).jobs[i]? with
  | some j =>
    if s.jobMayRun c i then (s.runJob c j).out c j fails name else .refused (.notEnabled name)
  | none => .refused (.notEnabled name)

/-- COPY_JOB_COMPLETE (R265): job i of core c runs to its end, or, for SUBSCRIBE and PULL, a stage further. -/
def execCopyJobComplete (c i : Nat) (s : State) : Out := s.jobEvent c i false "COPY_JOB_COMPLETE"

/-- COPY_JOB_FAIL (R230): job i of core c runs into its fault. -/
def execCopyJobFail (c i : Nat) (s : State) : Out := s.jobEvent c i true "COPY_JOB_FAIL"

end Sys2Proof.Machine
end

