-- ==== Sys2Proof/Machine/Job.lean ====
section
/-! DEFINITION. Work queues, job cards, dealing, work units, the JOB instructions, the activity forecast and the reckoning
fold (R44, R48, R49, R273, R274, R294 to R303, R310, R355 to R357, R389). -/

namespace Sys2Proof.Machine

/-! ## Unit entry (R48, R49) -/

/-- Core c's scratchpad takes the size of SP = n: the whole L1 goes, and bytes added read as zero (R405). -/
def State.resplit (s : State) (c : CoreId) (n : Nat) : State :=
  let k := s.getCore c
  let k' := { k with lmsplit := BitVec.ofNat 64 (n % 8), l1d := [], l1i := [] }
  let added (key : Nat) : Bool := decide (scratchKey c k.scratchSize ≤ key) && decide (key < scratchKey c k'.scratchSize)
  { (s.noFill c fun _ => true).setCore c k' with
    mem := s.mem.filter fun x => !added x.1
    poisoned := s.poisoned.filter fun g => !added (8 * g) }

/-- What the first unit of a card sets (R49). -/
def Core.firstOfCard (k : Core) (card : Nat) : Core :=
  { k with
    mslots := []
    tables := []
    ppu := []
    kdo := []
    kloader := 0#64
    klstate := 0#64
    status := k.status &&& ~~~0xC#64
    fflags := 0#64
    vtype := 0#64
    l1d := []
    lastCard := some card }

/-- The state of a unit at its entry (R48). A result still on its way to a name of the unit before is dropped. -/
def Core.enterUnit (k : Core) (u : WorkUnit) (entry : Word) (g : Option Gang) : Core :=
  { k.discardWords with
    pc := entry
    sregs :=
      [(28, Ver.one (BitVec.ofNat 64 u.ident)), (29, Ver.one (u.argBase + BitVec.ofNat 64 (u.ident * u.argSize))),
        (30, Ver.one k.stackTop)]
    vregs := []
    masks := []
    loops := []
    lcar := none
    x1 := 0#64
    x2 := 0#64
    pendingFlags := 0#64
    ending := none
    fencing := false
    inWait := false
    suspended := []
    asideMarks := []
    committed := false
    status := k.status &&& 0xC#64
    pend := []
    recvAt := []
    recvBeats := []
    mqueue := k.mqueue.map fun q => { q with d := 0#5 }
    unit := some u
    preparing := false
    gang := g
    wasGang := none
    join := none
    ahead := false
    path := none
    trail := []
    lag := 0
    savedPath := []
    young := []
    imgOrder := []
    imgGot := []
    refetch := false }

/-- The image of a card. -/
def State.imageOf (s : State) (ctx handle : Nat) : Option Image :=
  (tfind ctx s.contexts).bind fun x => x.images.find? fun i => i.handle = handle

/-- What a launch places in core c: scratchpad size, stack top and channel bindings (R48, R346, R405). -/
def State.launch (s : State) (c : CoreId) (i : Image) : State :=
  let s := if wfield (s.getCore c).lmsplit 0 3 = i.split then s else s.resplit c i.split
  s.mapCore c fun k => { k with stackTop := tget c i.stackTops 0#64, bindings := tget c i.bindings [] }

/-- The counter pairs of an image's buffer channels are 0 when a card is launched (R358): before its first unit, identifier 0
(DEDUCED, log 73). -/
def State.zeroCounters (s : State) (ctx : Nat) (i : Image) : State :=
  i.bindings.foldl
    (fun s q =>
      q.2.foldl
        (fun s b =>
          if bindKind b.2 = 1 ∧ bindDir b.2 = 1 then s.writeAt ctx (scratchKey q.1 (bindCtr b.2)) 16 0 else s) s) s

/-- Core c begins a unit, with the preparation of R49 if it is the first it runs of the card. -/
def State.enterUnit (s : State) (c : CoreId) (u : WorkUnit) (k : Card) (g : Option Gang) : State :=
  let s :=
    if (s.getCore c).lastCard = some u.card then s
    else
      let s :=
        match s.imageOf k.ctx k.image with
        | some i => if u.ident = 0 then (s.zeroCounters k.ctx i).launch c i else s.launch c i
        | none => s
      (s.noFill c fun _ => true).mapCore c fun x => x.firstOfCard u.card
  s.mapCore c fun x => x.enterUnit u k.entry g

/-- The core holds no unit: its position is idle (R302). -/
def Core.leaveUnit (k : Core) : Core :=
  ({ k with
    unit := none
    gang := none
    wasGang := none
    join := none
    ahead := false
    path := none
    lcar := none } : Core).deferHit

/-- The unit of some cores, a gang or one core, ends; they begin the next of their chunk or become idle (R356). -/
def State.endUnit (s : State) (l : List CoreId) (g : Option Gang) : State :=
  match (s.getCore (l.headD 0)).unit with
  | none => s
  | some u =>
    let s := { s with cards := s.cards.map fun p => if p.1 = u.card then (p.1, { p.2 with ended := p.2.ended + 1 }) else p }
    match (if u.ident + 1 < u.stop then tfind u.card s.cards else none) with
    | some k => l.foldl (fun t c => t.enterUnit c { u with ident := u.ident + 1 } k g) s
    | none => l.foldl (fun t c => t.mapCore c Core.leaveUnit) s

/-! ## Acceptance of a card (R273, R298 to R301) -/

/-- A card as its 128 bytes give it (R298). -/
def cardOf (d : Word) (queue resv : Nat) (b : List Byte) : Card :=
  { queue := queue
    resv := resv
    ctx := wfield d 26 6
    agency := wfield d 14 12
    prio := min (imgByte b 1) (wfield d 11 3)
    gang := imgByte b 2
    note := (imgByte b 3).testBit 0
    hreq := (imgByte b 3).testBit 1
    count := imgNat b 4 4
    entry := BitVec.ofNat 64 (imgNat b 8 8)
    argBase := BitVec.ofNat 64 (imgNat b 0x10 8)
    argSize := imgNat b 0x18 4
    chunk0 := imgNat b 0x1C 2
    chunkMin := imgNat b 0x1E 2
    image := imgNat b 0x20 4
    hint := imgByte b 0x24
    done := imgNat b 0x28 4
    regions :=
      (List.range 4).map fun m =>
        { base := imgNat b (0x30 + 16 * m) 8, len := imgNat b (0x38 + 16 * m) 4, mode := imgNat b (0x3C + 16 * m) 4 }
    rem := imgNat b 4 4 }

/-- Check 0x311 (R299). -/
def malformedCard (k : Card) (b : List Byte) : Bool :=
  decide (imgByte b 0 ≠ 0) || decide (imgByte b 3 / 4 ≠ 0) || decide (imgNat b 0x25 3 ≠ 0) ||
    decide (imgNat b 0x74 12 ≠ 0) || !([0, 1, 2, 4, 8, 16].contains k.gang) ||
    (k.regions.any fun r => decide (4 ≤ r.mode)) || decide (k.argBase.toNat % 8 ≠ 0) || decide (k.argSize % 8 ≠ 0) ||
    decide (k.argSize < 8) || decide (4096 < k.argSize) || decide (k.chunk0 = 0) || decide (k.chunkMin = 0) ||
    decide (k.chunk0 < k.chunkMin)

/-- Check 0x312 (R299, R455). -/
def State.badKernel (s : State) (k : Card) : Bool :=
  match s.imageOf k.ctx k.image with
  | none => true
  | some i => !i.kernels.any fun e => decide (e.1 = k.entry.toNat) && decide (e.2 = k.argSize)

/-- The enabled clusters of a context's partition. -/
def State.partOf (s : State) (ctx : Nat) : List Nat :=
  match tfind ctx s.contexts with
  | some x => (List.range 160).filter (s.inPart x.desc)
  | none => []

/-- Check 0x313 (R299). -/
def State.badPlacement (s : State) (k : Card) : Bool :=
  let l := s.partOf k.ctx
  (k.hreq && !l.any fun n => k.hint.testBit (stackOf n)) || l.all fun _ => decide (16 < k.gang)

/-- The first check that a card fails (R299). -/
def State.cardFault (s : State) (k : Card) (b : List Byte) : Option Nat :=
  let wait := imgNat b 0x2C 4
  if malformedCard k b then some 0x311
  else if 16777216 < k.count then some 0x310
  else if s.badKernel k then some 0x312
  else if k.done ≠ 0 ∧ !s.validHandle k.ctx k.done then some 0x315
  else if wait ≠ 0 ∧ (!s.validHandle k.ctx wait ∨ !s.current k.ctx wait) then some 0x315
  else if s.badPlacement k then some 0x313
  else none

/-- The card is held until it is complete. -/
def State.addCard (s : State) (k : Card) : State :=
  { s with cards := s.cards ++ [(s.nextCard, k)], nextCard := s.nextCard + 1 }

/-- A consumed card is refused or accepted; none while its wait finds no waiter record (R301, R308). -/
def State.handleCard (s : State) (k : Card) (b : List Byte) : Option State :=
  let wait := imgNat b 0x2C 4
  let refused (cause high : Nat) : Option State :=
    let r := s.refuse k.ctx k.queue k.resv k.done cause high
    some (r.1.settle r.2)
  match s.cardFault k b with
  | some cause => refused cause 0
  | none =>
    let e := s.fut k.ctx (futIndex wait)
    if wait = 0 ∨ e.st = 2 then some (s.addCard k).releaseCards
    else if e.st = 3 then refused 0x314 e.value
    else
      match s.freeWaiter with
      | none => none
      | some w => some ((s.addCard { k with preds := 1 }).addWaiter k.ctx (futIndex wait) w (.card s.nextCard))

/-! ## The queue engine (R294 to R297) -/

def State.queue (s : State) (q : Nat) : Queue := tget q s.queues {}
def State.setQueue (s : State) (q : Nat) (k : Queue) : State := { s with queues := tset q k s.queues }

def Queue.enabled (k : Queue) : Bool := wbit k.desc 63
def Queue.ctx (k : Queue) : Nat := wfield k.desc 26 6
def Queue.size (k : Queue) : Nat := 2 ^ wfield k.desc 48 8
def Queue.tmo (k : Queue) : Nat := wfield k.desc 32 16
/-- Where slot H lies. -/
def Queue.slotAt (k : Queue) : Nat := k.base + 0x80 + 128 * (k.h % k.size)
def Queue.tail (k : Queue) (m : List Host.Cell) : Nat := memRead m k.base 4

/-- The queue is enabled and its context runs. -/
def State.queueLive (s : State) (k : Queue) : Bool :=
  k.enabled && s.live k.ctx

/-- The engine finds slot H unpublished: it waits, with its timer running (R297). -/
def Queue.await (k : Queue) (m : List Host.Cell) (time : Nat) : Queue :=
  if k.tail m ≠ k.h ∧ k.timer.isNone then { k with timer := some time } else k

/-- The engine reads the slots from H on while they are published (R296). -/
def State.consume (q : Nat) : Nat → State → State
  | 0, s => s
  | n + 1, s =>
    let k := s.queue q
    if memRead s.mem (k.slotAt + 0x70) 4 ≠ (k.h + 1) % 2 ^ 32 then (s.setQueue q (k.await s.mem s.time)).countAt k.ctx k.slotAt
    else if s.poisonIn k.slotAt 128 then s.chargeAt k.ctx .hbm k.slotAt 128
    else
      let b := memReadBytes s.mem k.slotAt 128
      let s := s.countAt k.ctx k.slotAt
      match s.handleCard (cardOf k.desc q k.h b) b with
      | none => s
      | some s =>
        let h := (k.h + 1) % 2 ^ 32
        let s := s.setQueue q { k with h := h, timer := none, posted := false }
        State.consume q n (({ s with mem := memWrite s.mem (k.base + 8) h 4 } : State).countAt k.ctx (k.base + 8))

/-- The publish word of queue q is rung, or the engine looks again. -/
def State.ringQueue (s : State) (q : Nat) : State :=
  if s.queueLive (s.queue q) then State.consume q (s.queue q).size s else s

/-- QUEUE_PUBLISH: function fn writes BAR0 at offset 8q; discarded unless the queue is the function's and enabled (R294,
R446). -/
def execQueuePublish (fn q : Nat) (s : State) : Out :=
  if q < 32768 ∧ (s.queue q).fn = fn ∧ (s.queue q).enabled then .next (s.ringQueue q) else .next s

/-- QUEUE_POLL: while TAIL and H differ the engine reads the slot again (R296). -/
def execQueuePoll (q : Nat) (s : State) : Out :=
  let k := s.queue q
  if s.queueLive k ∧ k.tail s.mem ≠ k.h then .next (s.ringQueue q) else .refused (.notEnabled "QUEUE_POLL")

/-- RESERVATION_TIMEOUT (R297). -/
def execReservationTimeout (q : Nat) (s : State) : Out :=
  let k := s.queue q
  match k.timer with
  | some t =>
    if s.queueLive k ∧ k.tmo ≠ 0 ∧ !k.posted ∧ k.tail s.mem ≠ k.h ∧ t + 1000 * k.tmo ≤ s.time then
      .next ((s.notify k.ctx 1 q 0x320 k.h).setQueue q { k with posted := true })
    else .refused (.notEnabled "RESERVATION_TIMEOUT")
  | none => .refused (.notEnabled "RESERVATION_TIMEOUT")

/-! ## Dealing (R17, R302, R303) -/

/-- The width of a card's positions. -/
def Card.width (k : Card) : Nat := if k.gang = 0 then 1 else k.gang

/-- The core can take a chunk of the context: it holds no unit and is at no stop. -/
def State.idleCore (s : State) (ctx : Nat) (c : CoreId) : Bool :=
  let k := s.getCore c
  decide (k.context = some ctx) && s.coreOf ctx c && k.unit.isNone && !k.debugStopped && decide (k.rest = .none)

/-- Position pos is idle for cards of width w. -/
def State.idlePosition (s : State) (ctx pos w : Nat) : Bool :=
  decide (pos % 16 % w = 0) && (List.range w).all fun j => s.idleCore ctx (pos + j)

/-- The position of w cores from pos is done with what R49 waits for before the first unit of card n. -/
def State.prepared (s : State) (n pos w : Nat) : Bool :=
  (List.range w).all fun j =>
    let k := s.getCore (pos + j)
    decide (k.lastCard = some n) || (k.mqueue.isEmpty && (k.mslots.all fun m => !m.2.isOpen))

/-- The hint names the position's stack group. -/
def Card.near (k : Card) (pos : Nat) : Bool := k.hint.testBit (stackOf (clusterOf pos))

/-- The hint lets the card go to the position (R302). -/
def State.hintAllows (s : State) (k : Card) (pos : Nat) : Bool :=
  if k.hreq then k.near pos
  else
    decide (k.hint = 0) || k.near pos ||
      !(s.partOf k.ctx).any fun cl =>
        k.hint.testBit (stackOf cl) && (List.range 16).any fun st => s.idlePosition k.ctx (16 * cl + st) k.width

/-- Card n can be dealt to the position. -/
def State.dealable (s : State) (_n : Nat) (k : Card) (pos : Nat) : Bool :=
  decide (k.state = .released) && decide (0 < k.rem) &&
    s.live k.ctx && s.idlePosition k.ctx pos k.width && s.hintAllows k pos

/-- The number of dealing positions (R302). -/
def State.positions (s : State) (k : Card) : Nat := (s.partOf k.ctx).length * (16 / k.width)

/-- The next chunk of a card (R302). -/
def State.chunk (s : State) (k : Card) : Nat :=
  let p := 2 * s.positions k
  min k.rem (max k.chunkMin (min k.chunk0 ((k.rem + p - 1) / p)))

/-- The agency that is served at a level among some, with turns passing and deficits growing until one may be dealt to
(R303). -/
def State.drr (level : Nat) (agencies : List Nat) : Nat → State → State × Nat
  | 0, s => (s, agencies.headD 0)
  | n + 1, s =>
    let turn := tfind level s.turns
    match (match turn with | some a => if agencies.contains a ∧ 0 < tget (drrKey level a) s.deficits 0 then some a else none
                           | none => none) with
    | some a => (s, a)
    | none =>
      match (match turn with | some a => nextAfter a agencies | none => agencies.min?) with
      | none => (s, 0)
      | some b =>
        State.drr level agencies n
          { s with
            turns := tset level b s.turns
            deficits := tset (drrKey level b) (tget (drrKey level b) s.deficits 0 + tget b s.weights 1) s.deficits }

/-- The card a dealer gives to the position, with the state of the round after the choice. -/
def State.choose (s : State) (pos : Nat) : Option (State × Nat × Card) :=
  let s := s.resetDeficits
  let l := s.cards.filter fun p => s.dealable p.1 p.2 pos
  match (l.map fun p => s.level p.2).max? with
  | none => none
  | some v =>
    let l := l.filter fun p => s.level p.2 = v
    let ags := (l.map fun p => p.2.agency).eraseDups
    let (s, a) := State.drr v ags (65537 * (ags.length + 1)) s
    let l := l.filter fun p => p.2.agency = a
    match (l.map fun p => p.2.releasedAt).min? with
    | none => none
    | some t => (l.find? fun p => p.2.releasedAt = t).map fun p => (s, p.1, p.2)

/-- Core c is dealt a unit, for which it prepares: it begins it once every core of its position is prepared (R49). -/
def State.takeUnit (s : State) (c : CoreId) (u : WorkUnit) (k : Card) (g : Option Gang) : State :=
  s.mapCore c fun x => { x with unit := some u, gang := g, pc := k.entry, preparing := true }

/-- The cores of a position that prepares begin their unit, if they are prepared (R48, R49). -/
def State.prepare (s : State) : Out :=
  let l := match s.core.gang with | some g => g.members | none => [s.cur]
  match s.core.unit with
  | some u =>
    match tfind u.card s.cards with
    | some k =>
      if s.prepared u.card (l.headD s.cur) l.length then .next (l.foldl (fun t c => t.enterUnit c u k s.core.gang) s)
      else s.stall
    | none => s.stall
  | none => s.stall

/-- DEAL_CHUNK (R302): the position whose first core is pos takes a chunk of the card that R303 chooses. -/
def execDealChunk (pos : Nat) (s : State) : Out :=
  match s.choose pos with
  | none => .refused (.notEnabled "DEAL_CHUNK")
  | some (t, n, k) =>
    let c := t.chunk k
    let first := k.count - k.rem
    let key := drrKey (t.level k) k.agency
    let t :=
      { t with
        cards := t.cards.map fun (p : Nat × Card) => if p.1 = n then (n, { k with rem := k.rem - c }) else p
        deficits := tset key (tget key t.deficits 0 - c) t.deficits }
    let g := if k.width = 1 then none else some { leader := pos, width := k.width }
    let u : WorkUnit := { card := n, ident := first, stop := first + c, argBase := k.argBase, argSize := k.argSize }
    let t := t.resetDeficits
    if t.prepared n pos k.width then .next ((List.range k.width).foldl (fun t j => t.enterUnit (pos + j) u k g) t)
    else .next ((List.range k.width).foldl (fun t j => t.takeUnit (pos + j) u k g) t)

/-! ## CARD_COMPLETE (R274, R300) -/

/-- Work that a unit of card n issued is still going on, loads included, whose counts a later fold holds (R389). -/
def State.cardBusy (s : State) (n : Nat) : Bool :=
  ((s.flight ++ s.hostq).any fun r => decide (r.card = n)) ||
    ((s.cur, s.core) :: s.others).any fun r =>
      (r.2.mqueue.any fun q => decide (q.card = n)) || (r.2.jobs.any fun j => decide (j.card = n)) ||
        r.2.mslots.any fun m => m.2.isOpen && decide (m.2.card = n)

/-- CARD_COMPLETE: every unit of card n has ended and its work is done. -/
def execCardComplete (n : Nat) (s : State) : Out :=
  match tfind n s.cards with
  | some k =>
    if k.state = .released ∧ k.rem = 0 ∧ k.ended = k.count ∧ !s.cardBusy n ∧ (k.done = 0 ∨ s.futRoom k.ctx k.done) then
      .next (s.cardDone n k).releaseCards
    else .refused (.notEnabled "CARD_COMPLETE")
  | none => .refused (.notEnabled "CARD_COMPLETE")

/-! ## The JOB instructions -/

def execJsub (a : Reg) (s : State) : Out :=
  let q := wfield (s.src a 0) 0 15
  s.issue { ss := [(a, 0)] }
    (s.ordered fun s =>
      let k := s.queue q
      if !k.enabled ∨ s.core.context ≠ some k.ctx then s.trap 0x316#10 0#64 else .next (s.ringQueue q).advance)

def execJwid (d : Reg) (s : State) : Out :=
  s.issue { ds := [d] }
    (s.ordered fun s =>
      .next (s.setS d (match s.core.unit with | some u => BitVec.ofNat 64 u.ident | none => 0#64)).advance)

def execJarg (d : Reg) (s : State) : Out :=
  s.issue { ds := [d] }
    (s.ordered fun s =>
      .next
        (s.setS d
          (match s.core.unit with | some u => u.argBase + BitVec.ofNat 64 (u.ident * u.argSize) | none => 0#64)).advance)

/-- The unit that the core in focus has run is over for the cores of l. -/
def State.jendDone (s : State) (l : List CoreId) (g : Option Gang) : Out := .next (s.endUnit l g).afterInstr

/-- JEND (R110, R356). In a gang the unit ends when every member has issued it. -/
def execJend (s : State) : Out :=
  s.issue {}
    (if !s.core.loops.isEmpty then s.trapWord 0x0C3#10
     else
       s.noLoader
         (match s.core.gang, s.core.wasGang with
          | some g, _ => if s.lastToIssue g then s.jendDone g.members (some g) else .next s.advance
          | none, none => s.jendDone [s.cur] none
          | none, some g =>
            let t := s.upd fun k => { k with join := some .jend }
            if !t.allJoined g then t.waits
            else if g.members.all fun c => (t.getCore c).join == some .jend then t.jendDone g.members (some g)
            else .next (t.joinFails g).rotateIfStopped))

def execJqry (d a : Reg) (s : State) : Out :=
  let sel := wfield (s.src a 0) 0 2
  s.issue { ss := [(a, 0)], ds := [d] }
    (s.ordered fun s =>
      let v : Nat :=
        match s.core.unit.bind fun u => tfind u.card s.cards with
        | none => 0
        | some k => if sel = 0 then k.count else if sel = 1 then k.rem else if sel = 2 then k.done else k.queue
      .next (s.setS d (BitVec.ofNat 64 v)).advance)

/-! ## The activity forecast and the reckoning fold (R310, R389) -/

/-- Positions that hold a chunk. -/
def State.busyPositions (s : State) : Nat :=
  (((s.cur, s.core) :: s.others).filter fun r =>
    r.2.unit.isSome &&
      match r.2.gang.orElse fun _ => r.2.wasGang with
      | some g => decide (r.1 = g.leader)
      | none => true).length

/-- ACTIVITY_FORECAST_UPDATE (R310). -/
def execActivityForecastUpdate (s : State) : Out :=
  let rel := s.cards.filter fun p => decide (p.2.state = .released) && decide (0 < p.2.rem)
  let undealt := (rel.map fun p => p.2.rem).sum
  let enabled := 16 * popCount s.clmap.toNat 160
  let busy := s.busyPositions
  let w := wput s.forecast 56 8 (wfield s.forecast 56 8 + 1)
  .next
    { s with forecast := wput (wput (wput w 32 12 (min 4095 rel.length)) 16 12 busy) 0 12 (min enabled (busy + undealt)) }

/-- RECKONING_FOLD (R389), due every 10 us: the totals take the present counts, the energy estimate having grown by a free
amount (log 55). -/
def execReckoningFold (s : State) : Out :=
  if s.time < s.foldTime + 10000 then .refused (.notEnabled "RECKONING_FOLD")
  else
  let ags := (s.contexts.map fun p => p.2.desc.agency).eraseDups
  let s := ags.foldl (fun (t : State) a => t.count a 7 (Config.energy (t.fresh + a))) s
  .next { s with folded := s.counters, folds := s.folds + 1, foldTime := s.foldTime + 10000, fresh := s.fresh + 4096 }

end Sys2Proof.Machine
end

