-- ==== Sys2Proof/Machine/Kop.lean ====
section
/-! DEFINITION. Kernel-defined operations: slot images and their check, KOP with its loader transfer, and KLD, KREL, KQRY
(R199 to R211). -/

namespace Sys2Proof.Machine

/-! ## Images (R199 to R204) -/

def Kdo.et (x : Kdo) : Nat := field x.hdr.toNat 12 3
def Kdo.out (x : Kdo) : Nat := field x.hdr.toNat 8 4
def Kdo.nops (x : Kdo) : Nat := field x.hdr.toNat 6 2
def Kdo.lat (x : Kdo) : Nat := field x.hdr.toNat 0 6
def Kdo.cell (x : Kdo) (i : Nat) : Nat := (x.cells.getD i 0#32).toNat

def kdoOf (b : List Byte) : Kdo :=
  { hdr := BitVec.ofNat 32 (imgNat b 0 4)
    cells := (List.range 12).map fun i => BitVec.ofNat 32 (imgNat b (8 + 4 * i) 4)
    consts := (List.range 4).map fun m => BitVec.ofNat 64 (imgNat b (0x40 + 8 * m) 8) }

def cellOn (c : Nat) : Bool := c.testBit 31
def cellOp (c : Nat) : Nat := field c 26 5
/-- Input select j of a cell. -/
def cellIn (c j : Nat) : Nat := field c (21 - 5 * j) 5
def cellConst (c : Nat) : Nat := field c 9 2

/-- How many inputs an operation reads; 0 for a reserved one (R203). -/
def opInputs (op : Nat) : Nat :=
  if op = 0 ∨ op = 27 then 1 else if op = 19 ∨ op = 23 then 3 else if op < 28 then 2 else 0

/-- The kind of an operation accepts the lane type. -/
def opAccepts (op et : Nat) : Bool :=
  if 20 ≤ op then decide (4 ≤ et)
  else if op = 0 ∨ (4 ≤ op ∧ op ≤ 7) ∨ op = 19 then true
  else decide (et < 4)

def opCycles (op : Nat) : Nat :=
  if op = 3 then 2 else if op = 20 ∨ op = 21 ∨ op = 22 then 3 else if op = 23 then 4 else 1

/-- The selects that a cell reads. -/
def cellUsed (c : Nat) : List Nat := (List.range (opInputs (cellOp c))).map (cellIn c)

/-- A select is allowed to cell i. -/
def Kdo.selectOk (x : Kdo) (i sel : Nat) : Bool :=
  if sel = 0 ∨ sel = 4 ∨ sel = 5 then true
  else if sel ≤ 3 then decide (sel ≤ x.nops)
  else decide (16 ≤ sel) && decide (sel ≤ 27) && decide (sel - 16 < i) && cellOn (x.cell (sel - 16))

def Kdo.cellBad (x : Kdo) (i : Nat) : Bool :=
  let c := x.cell i
  if !cellOn c then decide (c ≠ 0)
  else
    decide (c % 2 ^ 9 ≠ 0) || decide (opInputs (cellOp c) = 0) || !opAccepts (cellOp c) x.et ||
      ((List.range 3).any fun j => decide (opInputs (cellOp c) ≤ j) && decide (cellIn c j ≠ 0)) ||
      ((cellUsed c).any fun s => !x.selectOk i s) || (decide (cellConst c ≠ 0) && !(cellUsed c).contains 4)

/-- The ready time of each cell, cell 0 first. -/
def Kdo.ready (x : Kdo) : List Nat :=
  (List.range 12).foldl
    (fun l i =>
      let c := x.cell i
      let t := (cellUsed c).map fun s => if 16 ≤ s then l.getD (s - 16) 0 else 0
      l ++ [opCycles (cellOp c) + t.foldl max 0])
    []

/-- The first failure of the check, with its TRAPVAL (R204). -/
def kdoFault (b : List Byte) : Option (Cause × Nat) :=
  let x := kdoOf b
  let h := x.hdr.toNat
  if field h 24 8 ≠ 0 ∨ h.testBit 15 ∨ imgNat b 4 4 ≠ 0 ∨ imgNat b 0x38 8 ≠ 0 ∨ x.et = 7 ∨ x.nops = 0 ∨ x.lat = 0 ∨
      48 < x.lat ∨ 11 < x.out ∨ !cellOn (x.cell x.out) then
    some (0x186#10, 0)
  else
    match (List.range 12).find? x.cellBad with
    | some i => some (0x187#10, i)
    | none =>
      let r := x.ready.getD x.out 0
      if x.lat ≠ r then some (0x188#10, r % 64) else none

/-! ## Evaluation (R202, R203, R205) -/

def laneMask (w : Nat) (b : Bool) : Nat := if b then 2 ^ w - 1 else 0

/-- One cell operation on lanes of a type. -/
def cellEval (et rm op a b c : Nat) : FRes :=
  let w := etWidth et
  let f := etFmt et
  let int (x : Nat) : FRes := { bits := x }
  if op = 0 then int a
  else if op = 1 then int (laneAdd w a b)
  else if op = 2 then int (laneSub w a b)
  else if op = 3 then int (laneMul w a b)
  else if op = 4 then int (a &&& b)
  else if op = 5 then int (a ||| b)
  else if op = 6 then int (a ^^^ b)
  else if op = 7 then int (a - (a &&& b))
  else if op = 8 then int (laneShl w a b)
  else if op = 9 then int (laneShr w a b)
  else if op = 10 then int (laneSra w a b)
  else if op = 11 then int (laneMin w a b)
  else if op = 12 then int (laneMax w a b)
  else if op = 13 then int (min a b)
  else if op = 14 then int (max a b)
  else if op = 15 then int (laneSadd w a b)
  else if op = 16 then int (laneSsub w a b)
  else if op = 17 then int (laneMask w (decide (a = b)))
  else if op = 18 then int (laneMask w (decide (sint a w < sint b w)))
  else if op = 19 then int (if a ≠ 0 then b else c)
  else if op = 20 then f.add rm a b
  else if op = 21 then f.sub rm a b
  else if op = 22 then f.mul rm a b
  else if op = 23 then f.fma rm a b c
  else if op = 24 then f.minmax false a b
  else if op = 25 then f.minmax true a b
  else if op = 26 then
    let r := f.flt a b
    { r with bits := laneMask w (decide (r.bits ≠ 0)) }
  else f.abs a

/-- The output of each cell for the lane values of va, vb, vc and vd, with the flags of all. -/
def Kdo.run (x : Kdo) (rm va vb vc vd : Nat) : FRes :=
  let r :=
    (List.range 12).foldl
      (fun (p : List Nat × Nat) i =>
        let c := x.cell i
        if !cellOn c then (p.1 ++ [0], p.2)
        else
          let input (j : Nat) : Nat :=
            let s := cellIn c j
            if s = 1 then va
            else if s = 2 then vb
            else if s = 3 then vc
            else if s = 4 then (x.consts.getD (cellConst c) 0#64).toNat % 2 ^ etWidth x.et
            else if s = 5 then vd
            else if 16 ≤ s then p.1.getD (s - 16) 0
            else 0
          let y := cellEval x.et rm (cellOp c) (input 0) (input 1) (input 2)
          (p.1 ++ [y.bits], p.2 ||| y.flags))
      ([], 0)
  { bits := r.1.getD x.out 0, flags := r.2 }

/-! ## KOP (R205, R209, R211) -/

/-- The slot is empty in this core, or in some member of its gang. -/
def State.slotEmpty (s : State) (n : Nat) : Bool :=
  match s.core.gang with
  | none => (tfind n s.core.kdo).isNone
  | some g => g.members.any fun c => (tfind n (s.getCore c).kdo).isNone

/-- The address field of KLOADER and KLSTATE, as an address. -/
def addrField (w : Word) : Word := w &&& 0x0FFFFFFFFFFFFFFC#64

/-- Control goes to the loader routine; the loop is suspended (R43, R211). -/
def State.toLoader (s : State) (slot : Nat) : Out :=
  if s.core.loading then s.trap 0x18A#10 0#64
  else if !wbit s.core.kloader 0 then s.trap 0x189#10 0#64
  else
    s.ordered fun s =>
      let t := s.upd fun k =>
        { k.suspend with
          klstate := 0x8000000000000000#64 ||| BitVec.ofNat 64 (slot * 2 ^ 60) ||| addrField k.pc }
      .next (t.goto (addrField s.core.kloader))

def execKop (n : BitVec 3) (d a b c : Reg) (k : KReg) (s : State) : Out :=
  match (if s.slotEmpty n.toNat then none else tfind n.toNat s.core.kdo) with
  | none => s.issue { dv := [d] } (s.toLoader n.toNat)
  | some x =>
    s.issue { vs := (([a, b, c].take x.nops).map fun r => (r, 0)) ++ [(d, 0)], dv := [d] }
      (let w := etWidth x.et
       let at_ (r : Reg) (i : Nat) : Nat := lane (s.vsrc r 0) w i
       let r :=
         mergeF (s.vsrc d 0) (s.core.mask k) w fun i => x.run s.core.rm (at_ a i) (at_ b i) (at_ c i) (at_ d i)
       .next ((s.setV d r.1).flags r.2).advance)

/-! ## KLD, KREL, KQRY (R206 to R208) -/

def execKld (a b : Reg) (s : State) : Out :=
  let va := (s.src a 0).toNat
  let n := wfield (s.src b 0) 0 3
  s.issue { ss := [(a, 0), (b, 0)] }
    (s.ordered fun s =>
      if va % 8 ≠ 0 then s.trap 0x18C#10 0#64
      else
        s.readImage true true va 96 fun s img =>
          match kdoFault img with
          | some (c, v) => s.trap c (BitVec.ofNat 64 v)
          | none => .next (s.upd fun k => { k with kdo := tset n (kdoOf img) k.kdo }).advance)

def execKrel (a : Reg) (s : State) : Out :=
  let n := wfield (s.src a 0) 0 3
  s.issue { ss := [(a, 0)] }
    (s.ordered fun s => .next (s.upd fun k => { k with kdo := terase n k.kdo }).advance)

def execKqry (d a : Reg) (s : State) : Out :=
  let n := wfield (s.src a 0) 0 3
  s.form1 d a 0 fun _ =>
    match tfind n s.core.kdo with
    | some x => BitVec.ofNat 64 (x.hdr.toNat + 2 ^ 32)
    | none => 0#64

end Sys2Proof.Machine
end

