-- ==== Sys2Proof/Machine/System.lean ====
section
/-! DEFINITION. State registers and the SYS instructions (R209, R210, R383, R390, R403 to R411). -/

namespace Sys2Proof.Machine

/-! ## State registers (R403 to R405, R407, R426) -/

/-- A word of the journal window. -/
def Core.journalWindow (k : Core) (n : Nat) : Word :=
  BitVec.ofNat 64 ((tget (2 * n) k.journal 0#32).toNat + (tget (2 * n + 1) k.journal 0#32).toNat * 2 ^ 32)

/-- What a read of state register r gives. -/
def State.readReg (s : State) (r : Nat) : Word :=
  let k := s.core
  if r = 0x000 then k.status
  else if r = 0x001 then k.trapcause
  else if r = 0x002 then k.trappc
  else if r = 0x003 then k.trapval
  else if r = 0x004 then k.trapvec
  else if r = 0x005 then k.scratch
  else if r = 0x006 then k.fflags
  else if r = 0x007 then k.vtype
  else if r = 0x010 then BitVec.ofNat 64 (match s.curCtx with | some x => x.desc.ctx | none => 0)
  else if r = 0x011 then BitVec.ofNat 64 (match s.curCtx with | some x => x.desc.agency | none => 0)
  else if r = 0x012 then (match s.curCtx with | some x => x.desc.root | none => 0#64)
  else if r = 0x013 then k.lmsplit
  else if r = 0x014 then k.kloader
  else if r = 0x015 then k.klstate
  else if r = 0x020 then k.timestamp
  else if r = 0x021 then BitVec.ofNat 64 s.cur
  else if 0x030 ≤ r ∧ r ≤ 0x03F then k.journalWindow (r - 0x030)
  else if 0x100 ≤ r ∧ r ≤ 0x107 then tget (r - 0x100) k.wp 0#64
  else if r = 0x108 then k.dstat
  else if r = 0x109 then k.dinfo
  else 0#64

/-- Registers that user mode may not read. -/
def systemRead (r : Nat) : Bool :=
  (decide (1 ≤ r) && decide (r ≤ 5)) || decide (r = 0x012) || (decide (0x030 ≤ r) && decide (r ≤ 0x03F)) || decide (0x100 ≤ r)

/-- The bits of a register that system mode may write; 0 for a register whose access is RO. -/
def writable (r : Nat) : Word :=
  if r = 0x000 then 0x1F#64
  else if r = 0x001 then 0xFFFF#64
  else if r = 0x002 ∨ r = 0x003 ∨ r = 0x005 then BitVec.allOnes 64
  else if r = 0x004 then 0xFFFFFFFFFFFFFFFC#64
  else if r = 0x006 then 0xDF#64
  else if r = 0x007 then 0x7377#64
  else if r = 0x013 then 7#64
  else if r = 0x014 then 0x0FFFFFFFFFFFFFFD#64
  else if r = 0x015 then 0xFFFFFFFFFFFFFFFC#64
  else if 0x100 ≤ r ∧ r ≤ 0x107 then 0xFFFFFFFFFFFFFFFE#64
  else 0#64

/-- The bits that user mode may write. -/
def userWritable (r : Nat) : Word :=
  if r = 0x000 then 0xC#64
  else if r = 0x006 ∨ r = 0x007 ∨ r = 0x014 ∨ r = 0x015 then writable r
  else 0#64

/-- A register of the core in focus takes a value; LMSPLIT and the registers that no instruction writes are not here. -/
def Core.setReg (k : Core) (r : Nat) (x : Word) : Core :=
  if r = 0x000 then { k with status := x }
  else if r = 0x001 then { k with trapcause := x }
  else if r = 0x002 then { k with trappc := x }
  else if r = 0x003 then { k with trapval := x }
  else if r = 0x004 then { k with trapvec := x }
  else if r = 0x005 then { k with scratch := x }
  else if r = 0x006 then { k with fflags := x }
  else if r = 0x007 then { k with vtype := x }
  else if r = 0x014 then { k with kloader := x }
  else if r = 0x015 then { k with klstate := x }
  else if 0x100 ≤ r ∧ r ≤ 0x107 then { k with wp := tset (r - 0x100) x k.wp }
  else k

/-- SRD. -/
def execSrd (d : Reg) (r : BitVec 12) (s : State) : Out :=
  s.issue { ds := [d] }
    (if systemRead r.toNat && !s.core.system then s.trapOpen 0x1C5#10 else .next (s.setS d (s.readReg r.toNat)).advance)

/-- The new size would cut off the ring's task area, a bound channel's ring or its counters (R405). -/
def State.cutsOff (s : State) (size : Nat) : Bool :=
  let r := (s.cluster (clusterOf s.cur)).ring
  (decide (r.state ≠ .off) && wbit r.config (48 + stationOf s.cur) &&
      decide (size < wfield r.config 0 13 * 64 + 16896)) ||
    s.core.bindings.any fun b =>
      decide (bindKind b.2 = 1) && decide (bindDir b.2 = 1) &&
        (decide (size < bindBuf b.2 + bindSize b.2 * bindDepth b.2) || decide (size < bindCtr b.2 + 16))

/-- Neither a queued command nor an outstanding job of the core in focus has an access to its scratchpad left (R405). -/
def State.enginesOff (s : State) : Bool :=
  (s.core.mqueue.all fun q => q.spans.all fun p => p.done || decide (p.place ≠ .scratch s.cur)) &&
    s.core.jobs.all fun j =>
      let r := s.jobRanges s.cur j
      j.rangesKnown && (r.1 ++ r.2).all fun x => !overlaps x.1 x.2 (14 * 2 ^ 56 + s.cur * 2 ^ 19) (2 ^ 19)

/-- A write of LMSPLIT. -/
def State.writeSplit (s : State) (x : Word) : Out :=
  let n := wfield x 0 3
  if n = 7 then s.trapWord 0x05F#10
  else if n = wfield s.core.lmsplit 0 3 then .next s.advance
  else if !(s.storesDone && s.core.pend.isEmpty && s.core.journalQuiet && s.enginesOff) then s.stall
  else if s.cutsOff ((128 + 64 * n) * 1024) then s.trapOpen 0x1C7#10
  else .next (s.resplit s.cur n).advance

/-- The checks of a write, in order; then the write of the register's writable bits. -/
def State.writeReg (s : State) (r : Nat) (reads : Bool) (loader : Bool) (new : Word) : Out :=
  let old := s.readReg r
  let w := writable r
  let x := (old &&& ~~~w) ||| (new &&& w)
  if loader && decide (r = 0x014) && s.core.loading then s.trap 0x18B#10 0#64
  else if w = 0#64 then s.trapOpen 0x1C5#10
  else if reads && systemRead r && !s.core.system then s.trapOpen 0x1C5#10
  else if !s.core.system && (x ^^^ old) &&& ~~~userWritable r ≠ 0#64 then s.trapOpen 0x1C5#10
  else if 0x100 ≤ r ∧ r ≤ 0x107 ∧ wbit x 2 then s.trap 0x383#10 0#64
  else if r = 0x013 then s.writeSplit x
  else .next (s.upd fun k => k.setReg r x).advance

def execSwr (a : Reg) (r : BitVec 12) (s : State) : Out :=
  let x := s.src a 0
  s.issue { ss := [(a, 0)] } (s.ordered fun s => s.writeReg r.toNat false true x)

def execSset (a : Reg) (r : BitVec 12) (s : State) : Out :=
  let x := s.src a 0
  s.issue { ss := [(a, 0)] } (s.ordered fun s => s.writeReg r.toNat true true (s.readReg r.toNat ||| x))

def execSclr (a : Reg) (r : BitVec 12) (s : State) : Out :=
  let x := s.src a 0
  s.issue { ss := [(a, 0)] } (s.ordered fun s => s.writeReg r.toNat true false (s.readReg r.toNat &&& ~~~x))

/-! ## TRAP, ERET, HALT (R408, R409, R428) -/

/-- A TRAP counts as executed in every member of a gang: each one's next instruction is the word after it. -/
def State.pastTrap (s : State) : State :=
  match s.core.gang with
  | none => s
  | some g =>
    let pc := s.core.pc + 4#64
    g.members.foldl (fun t c => t.mapCore c fun k => { k with pc := pc, ahead := false, path := none }) s

/-- TRAP #n: class 0, complete when it traps. Members that the leader is ahead of issue their earlier words first (R428). -/
def execTrap (n : BitVec 12) (s : State) : Out :=
  s.issue {}
    (s.ordered fun s =>
      if !(s.trapReady && s.caughtUp) then s.stall
      else if s.flushAll.allSent then s.flushAll.pastTrap.trapFrom (n.truncate 10) true (s.core.pc + 4#64) s.core.pc 0#64
      else .next s.flushAll.rotate)

/-- ERET: the trap return in system mode, the loader return in user mode (R210). -/
def execEret (s : State) : Out :=
  s.issue {}
    (s.ordered fun s =>
      if s.core.system then .next (s.upd Core.eret).issuedEret.afterInstr
      else if s.core.loading then
        let t := s.upd fun k => { k.unsuspend with klstate := k.klstate &&& 0x7FFFFFFFFFFFFFFF#64 }
        .next (t.goto (addrField s.core.klstate))
      else s.trapOpen 0x1C6#10)

/-- A system-only instruction (R376, R416). -/
def State.systemOnly (s : State) (body : State → Out) : Out :=
  s.ordered fun s => if s.core.system then body s else s.trapOpen 0x1C6#10

/-- HALT: a debug stop with REASON 5 at the next instruction, and a kind 6 record. -/
def execHalt (s : State) : Out :=
  s.issue {}
    (s.systemOnly fun s =>
      let t := s.advance
      let t := t.upd fun k => k.stopAt t.cur 5 k.pc
      .next (match t.core.context with | some n => t.notify n 6 0 0 t.cur | none => t).rotate)

/-! ## TLBINV (R383, R410) -/

/-- The invalidations go out to every cluster, enabled or not. -/
def State.shootDown (s : State) (src : CoreId) (ctx : Nat) (va : Option Nat) : State :=
  { s with
    shootdowns := s.shootdowns ++ (List.range 160).map fun n => { src := src, cluster := n, ctx := ctx, va := va } }

def execTlbinv (a : Reg) (m : BitVec 12) (s : State) : Out :=
  let va := (s.src a 0).toNat
  s.issue { ss := [(a, 0)] }
    (s.systemOnly fun s =>
      match s.core.tlbinv with
      | some 0 => .next (s.upd fun k => { k with tlbinv := none }).advance
      | some _ => s.stall
      | none =>
        s.released .pkg
          ((s.shootDown s.cur (s.core.context.getD 64) (if m = 0#12 then some va else none)).upd fun k =>
            { k with tlbinv := some 160 }).stall)

/-! ## ACCT (R389, R390, R411) -/

/-- The first 96 bytes of an agency's snapshot at the latest fold. -/
def State.snapshotBody (s : State) (agency : Nat) : List Byte :=
  natBytes (agency % 4096) 2 ++ natBytes 0 6 ++ natBytes s.folds 8 ++ natBytes s.foldTime 8 ++
    (List.range 9).flatMap fun n => natBytes (tget (16 * agency + n) s.folded 0) 8

/-- r then s, big-endian (R394). -/
def signatureBytes (x : BitVec 768) : List Byte := (natBytes x.toNat 96).reverse

/-- The signed snapshot. -/
def State.snapshot (s : State) (agency : Nat) : List Byte :=
  let b := s.snapshotBody agency
  b ++ signatureBytes (Config.signature s.fresh (sha384 b))

/-- ACCT with n = 0x100: the snapshot is stored, and d is written once every byte has been performed. -/
def State.acctSnapshot (s : State) (d : Reg) (va agency : Nat) : Out :=
  s.ordered fun s =>
    if va % 8 ≠ 0 then s.trap 0x1C8#10 (BitVec.ofNat 64 va)
    else if s.core.chanStep ≠ 0 then
      if s.storesPerformed && s.core.journalQuiet then .next (s.setS d (BitVec.ofNat 64 (s.core.chanStep - 1))).advance
      else s.stall
    else
      s.storeMessage va 192 (bytesNat (s.snapshot agency)) fun t =>
        ({ t with fresh := t.fresh + 1 } : State).passed s.folds

def execAcct (d a : Reg) (n : BitVec 12) (s : State) : Out :=
  let agency := match s.curCtx with | some x => x.desc.agency | none => 0
  if n = 0x100#12 then
    let va := (s.src a 0).toNat
    s.issue { ss := [(a, 0)], ds := [d] } (s.acctSnapshot d va agency)
  else s.form0 d (BitVec.ofNat 64 (tget (16 * agency + n.toNat) s.folded 0))

end Sys2Proof.Machine
end

