-- ==== Sys2Proof/Machine/Debug.lean ====
section
/-! DEFINITION. The DBG instructions, the arrival of a stop at a core, and the cancellation of the current iteration
(R29, R52, R412 to R417, R443). -/

namespace Sys2Proof.Machine

/-! ## Cancellation (R29, R52) -/

/-- The current iteration of an overlapped loop, not committed, is undone: it will begin again from its start. -/
def Core.cancelIteration (k : Core) : Core :=
  match k.loops with
  | [] => k
  | r :: _ =>
    if k.overlapped && !k.committed then
      let own (p : Pend) : Bool :=
        match p.dest with
        | .scalar d _ _ => r.carry.scalars.getLsbD d.toNat
        | .vector d => r.carry.vectors.getLsbD d.toNat
        | .broadcast d _ _ _ => r.carry.vectors.getLsbD d.toNat
      { k with
        sregs := (namesIn r.carry.scalars).foldl (fun t n => mapVer t dfltS n Ver.cancel) k.sregs
        vregs := (namesIn r.carry.vectors).foldl (fun t n => mapVer t dfltV n Ver.cancel) k.vregs
        pend := k.pend.filter fun p => !own p.2
        sbuf := []
        pendingFlags := 0#64
        walk := none
        walkFaults := []
        wb := none
        lcar := none
        ending := none
        inWait := false
        fencing := false
        young := []
        pc := r.start }
    else k

/-- A committed iteration of an overlapped loop retires before its core stops; a stop strikes it inside a wait all the same
(R52, R351, R431). One that a handler or loader routine has suspended does not retire first: the stop strikes inside the handler
(DESIGN CHOICE, log 63: R52 does not say). -/
def Core.mustRetire (k : Core) : Bool := k.overlapped && k.committed && !k.inWait

/-! ## Stops (R414, R415) -/

/-- The core is at an instruction boundary, or inside a wait that a stop may strike, outside an open transfer phase. -/
def Core.stoppable (k : Core) : Bool :=
  k.held.isNone && k.outq.isEmpty && decide (k.chanStep = 0) && k.futDone.isNone && k.ringDone.isNone && !k.slept &&
    k.tlbinv.isNone && k.routine.isNone && !k.mustRetire && !k.arriving

/-- Core c is between S and E of a transfer phase: a stop takes effect at E (R343, R415). -/
def State.phaseOpen (s : State) (c : CoreId) : Bool :=
  (s.getCore c).inPhase.isSome && (match s.ctxOf c with | some x => x.phase.isSome | none => false)

/-- A stop may take effect at core c. -/
def State.mayStop (s : State) (c : CoreId) : Bool := (s.getCore c).stoppable && !s.phaseOpen c

/-- Every access that the core's instructions have begun is complete, posted stores included (R415, R417). -/
def State.accessesDone (s : State) (c : CoreId) : Bool :=
  let k := s.getCore c
  k.pend.isEmpty && k.outq.isEmpty && (s.hostq.all fun r => r.src ≠ c) && s.flight.all fun r => r.src ≠ c || r.late

/-- Core c has stopped, or has nothing to stop. -/
def State.atRest (s : State) (c : CoreId) : Bool :=
  let k := s.getCore c
  k.unit.isNone || k.debugStopped || decide (k.rest = .stopped)

/-- A stop of core c takes effect, with its REASON. A BARP, or the wait of a FUSE or JEND, is given up, to issue again; younger
iterations are cancelled. -/
def Core.debugStop (k : Core) (c : CoreId) (reason : Nat) : Core :=
  let k := k.cancelIteration
  { k.stopAt c reason k.pc with barpAt := none, join := none, young := [] }

/-- The cores that stop together with c: its gang, or itself. -/
def State.together (s : State) (c : CoreId) : List CoreId :=
  match (s.getCore c).gang with
  | some g => g.members
  | none => [c]

/-- The members have issued the same words, are in the same iteration, and have all committed it or none of them has: what a
stop does to it, it does to the whole gang (R52, R415). -/
def State.even (s : State) (l : List CoreId) : Bool :=
  let lead := s.getCore (l.headD 0)
  l.all fun c =>
    let k := s.getCore c
    !k.ahead && decide (k.lag = 0) && k.ending == lead.ending && (k.loops.map fun r => r.iter) == (lead.loops.map fun r => r.iter) &&
      (k.overlapped && k.committed) == (lead.overlapped && lead.committed)

/-- CLUSTER_STOP_ARRIVAL (R415): a stop takes effect at core c, or at its whole gang. -/
def execClusterStopArrival (c : Nat) (s : State) : Out :=
  let cl := clusterOf c
  let l := s.together c
  match tfind (stationOf c) (s.cluster cl).stopping with
  | none => .refused (.notEnabled "CLUSTER_STOP_ARRIVAL")
  | some reason =>
    if (l.all fun m => s.mayStop m && s.accessesDone m && (tfind (stationOf m) (s.cluster cl).stopping).isSome) &&
        s.even l then
      let s := s.mapCluster cl fun k => { k with stopping := l.foldl (fun t m => terase (stationOf m) t) k.stopping }
      .next
        (l.foldl
          (fun t m => t.mapCore m fun k => if k.debugStopped then k else { k.debugStop m reason with path := none }) s).rotateIfStopped
    else .refused (.notEnabled "CLUSTER_STOP_ARRIVAL")

/-! ## DBG (R416, R417) -/

def execBrk (n : BitVec 12) (s : State) : Out := s.issue {} (s.trap 0x380#10 (n.zeroExtend 64))

def execWpset (a : Reg) (n : BitVec 3) (s : State) : Out :=
  let x := s.src a 0
  s.issue { ss := [(a, 0)] }
    (s.systemOnly fun s =>
      if wbit x 2 then s.trap 0x383#10 0#64
      else .next (s.upd fun k => k.setReg (0x100 + n.toNat) (x &&& 0xFFFFFFFFFFFFFFFE#64)).advance)

def execWpclr (n : BitVec 3) (s : State) : Out :=
  s.issue {}
    (s.systemOnly fun s =>
      .next
        (s.upd fun k =>
          k.setReg (0x100 + n.toNat) (tget n.toNat k.wp 0#64 &&& 0x7FFFFFFFFFFFFFFF#64)).advance)

/-- The target of a DBG form: an enabled core of the context other than the issuer. -/
def State.debugTarget (s : State) (a : Word) (body : CoreId → Out) : Out :=
  let c := wfield a 0 12
  if !s.isPeer c ∨ c = s.cur then s.trap 0x381#10 0#64 else body c

/-- The mask of some cores' stations. -/
def stationMask (l : List CoreId) : Word := BitVec.ofNat 64 ((l.map fun c => 2 ^ stationOf c).sum)

/-- The enabled cores of a cluster in the context of the core in focus. -/
def State.clusterCores (s : State) (cl : Nat) : List CoreId :=
  ((List.range 16).map fun i => 16 * cl + i).filter s.isPeer

def execDstop (d a : Reg) (m : BitVec 12) (s : State) : Out :=
  let x := s.src a 0
  s.issue { ss := [(a, 0)], ds := [d] }
    (s.systemOnly fun s =>
      s.debugTarget x fun c =>
        let stop (l : List CoreId) : Out :=
          let l := l.filter fun i => !(s.getCore i).debugStopped
          .next ((s.stopStations (clusterOf c) 1 (l.map stationOf)).setS d (stationMask l)).advance
        if m = 0#12 then
          stop ((s.clusterCores (clusterOf c)).filter fun i => !(s.together s.cur).contains i)
        else if m = 1#12 then stop (s.together c)
        else if m = 2#12 then .next (s.setS d (s.getCore c).dstat).advance
        else .next (s.setS d (s.getCore c).dinfo).advance)

/-- DSTEP: the target, or its gang, issues one instruction; the issuer waits for it and its accesses. -/
def execDstep (d a : Reg) (s : State) : Out :=
  let x := s.src a 0
  s.issue { ss := [(a, 0)], ds := [d] }
    (s.systemOnly fun s =>
      s.debugTarget x fun c =>
        let l := s.together c
        let k := s.getCore c
        if s.core.chanStep ≠ 0 then
          if l.all fun i => (s.getCore i).stepping.isNone && s.accessesDone i then .next (s.setS d k.dstat).advance
          else s.stall
        else if !k.debugStopped then s.trap 0x382#10 0#64
        else if k.unit.isNone then .next (s.setS d k.dstat).advance
        else
          ((l.foldl (fun t i => t.mapCore i fun k => { k with stepping := some s.cur }) s).upd fun k =>
            { k with chanStep := 1 }).stall)

/-- A stopped core runs again: STOP, REASON and V go. -/
def Core.resume (k : Core) : Core := { k with dstat := 0#64, dinfo := k.dinfo &&& ~~~8#64, stepping := none }

def execDres (d a : Reg) (m : BitVec 12) (s : State) : Out :=
  let x := s.src a 0
  s.issue { ss := [(a, 0)], ds := [d] }
    (s.systemOnly fun s =>
      s.debugTarget x fun c =>
        if m = 0#12 ∧ !(s.getCore c).debugStopped then s.trap 0x382#10 0#64
        else
          let l := (if m = 0#12 then s.together c else s.clusterCores (clusterOf c)).filter fun i => (s.getCore i).debugStopped
          .next ((l.foldl (fun t i => t.mapCore i Core.resume) s).setS d (stationMask l)).advance)

end Sys2Proof.Machine
end

