-- ==== Sys2Proof/Machine/Memory.lean ====
section
/-! DEFINITION. Loads, stores, ordered and special accesses, atomics and fences (R277 to R285, R242, R244). -/

namespace Sys2Proof.Machine

/-! ## LD and ST (R277, R278) -/

/-- a + sext(off11, 11) * n. -/
def State.ea (s : State) (a : Reg) (da : Dist) (o : BitVec 11) (n : Nat) : Nat :=
  (s.src a da.toNat + BitVec.ofInt 64 (o.toInt * n)).toNat

/-- A scalar load. Only an aligned LD reaches the engine window (R226). -/
def State.load (s : State) (d a : Reg) (da : Dist) (o : BitVec 11) (n : Nat) (signed : Bool) : Out :=
  let va := s.ea a da o n
  s.issue { ss := [(a, da.toNat)], ds := [d] }
    (if n = 8 ∧ va % 8 = 0 ∧ windowVa ≤ va ∧ va < windowVa + 0x30 ∧ s.core.inPhase.isNone then
      .next ((s.watchWindow .load (va - windowVa)).setS d (s.core.windowLoad (va - windowVa))).advance
     else s.loadLanes .load [(va, n, 0)] (.scalar d n signed) 0)

def execLb (d a : Reg) (da : Dist) (o : BitVec 11) (s : State) : Out := s.load d a da o 1 true
def execLbu (d a : Reg) (da : Dist) (o : BitVec 11) (s : State) : Out := s.load d a da o 1 false
def execLh (d a : Reg) (da : Dist) (o : BitVec 11) (s : State) : Out := s.load d a da o 2 true
def execLhu (d a : Reg) (da : Dist) (o : BitVec 11) (s : State) : Out := s.load d a da o 2 false
def execLw (d a : Reg) (da : Dist) (o : BitVec 11) (s : State) : Out := s.load d a da o 4 true
def execLwu (d a : Reg) (da : Dist) (o : BitVec 11) (s : State) : Out := s.load d a da o 4 false
def execLd (d a : Reg) (da : Dist) (o : BitVec 11) (s : State) : Out := s.load d a da o 8 false

/-- A scalar store. Only an aligned SD reaches the engine window (R226). -/
def State.store (s : State) (d a : Reg) (da : Dist) (o : BitVec 11) (n : Nat) : Out :=
  let va := s.ea a da o n
  s.issue { ss := [(a, da.toNat), (d, 0)] }
    (if n = 8 ∧ va % 8 = 0 ∧ windowVa ≤ va ∧ va < windowVa + 0x30 ∧ s.core.inPhase.isNone then s.windowStore (va - windowVa) (s.src d 0)
     else s.storeLanes false .store [(va, n, 0)] (s.src d 0).toNat)

def execSb (d a : Reg) (da : Dist) (o : BitVec 11) (s : State) : Out := s.store d a da o 1
def execSh (d a : Reg) (da : Dist) (o : BitVec 11) (s : State) : Out := s.store d a da o 2
def execSw (d a : Reg) (da : Dist) (o : BitVec 11) (s : State) : Out := s.store d a da o 4
def execSd (d a : Reg) (da : Dist) (o : BitVec 11) (s : State) : Out := s.store d a da o 8

/-! ## MX (R279 to R281) -/

def Size.bytes : Size → Nat
  | .b => 1
  | .h => 2
  | .w => 4
  | .d => 8

/-- One piece of an aligned access, its causes taken precisely; the body gets the piece. -/
def State.onePiece (s : State) (acc : Access) (va n : Nat) (body : State → Piece → Out) : Out :=
  match s.plan acc [(va, n, 0)] with
  | .trap c v => s.trap c (BitVec.ofNat 64 v)
  | .miss v => s.startWalk v acc
  | .blocked v => s.holdWrite v
  | .go ps =>
    match ps with
    | [p] => body s p
    | _ => s.stall

/-- An MX form that must be naturally aligned, executed in the oldest iteration (R42, R279). -/
def State.aligned (s : State) (va n : Nat) (body : State → Out) : Out :=
  if va % n ≠ 0 then s.trap 0x240#10 (BitVec.ofNat 64 va) else s.ordered body

/-- LDA: an acquire load, never served from L1 or a replica (R280). -/
def execLda (d a : Reg) (da : Dist) (z : Size) (x : Scope) (s : State) : Out :=
  let n := Size.bytes z
  let va := (s.src a da.toNat).toNat
  s.issue { ss := [(a, da.toNat)], ds := [d] }
    (s.aligned va n fun s =>
      s.onePiece .load va n fun s p =>
        if s.poisonedLoad p then .next (s.charge (s.core.context.getD 64) 0x3C0#10 s.cur)
        else
          let t := (s.watchOwn .load p).acquired x
          let t := if p.place = .hbm then t.passLine (p.addr / 128) else t
          .next (t.sendLoads false .load [p] (.scalar d n false) 0 (some x)).advance)

/-- STL: a release store (R281). -/
def execStl (d a : Reg) (da : Dist) (z : Size) (x : Scope) (s : State) : Out :=
  let n := Size.bytes z
  let va := (s.src a da.toNat).toNat
  let v := (s.src d 0).toNat
  s.issue { ss := [(a, da.toNat), (d, 0)] }
    (s.aligned va n fun s =>
      s.onePiece .store va n fun s p =>
        let r := s.storeReq .store (x == .sys) v p
        if s.core.routine.isSome then s.storeNow [(p.va, p.len, p.off)] [p] [{ r with release := some x }]
        else if (s.remoteOwner r).isSome && !s.core.journalQuiet then (if wideScope x then s.awaitJournal else s.stall)
        else s.released x (s.storeNow [(p.va, p.len, p.off)] [p] [r]))

/-- LDRO: a relaxed load served by the near slice; elsewhere it acts as LD (R280). -/
def execLdro (d a : Reg) (da : Dist) (z : Size) (_x : Scope) (s : State) : Out :=
  s.issue { ss := [(a, da.toNat)], ds := [d] }
    (s.loadLanes .ldro [((s.src a da.toNat).toNat, Size.bytes z, 0)] (.scalar d (Size.bytes z) false) 0)

/-- A translation that sets neither A nor D and starts no walk that could fault (R381). -/
def State.quietTr (s : State) (acc : Access) (va : Nat) : Tr :=
  match s.translate acc va with
  | .miss =>
    match s.curCtx with
    | none => .miss
    | some x =>
      match s.walkRoot x.desc.root va with
      | .error c => .fault c
      | .ok l => s.viaLeaf x.desc.keys s.core.system acc l.pte l.log2 va
  | t => t

/-- The lines of the walk that a PREF causes when no held entry translates its address count (R280, R388). -/
def State.quietWalk (s : State) (acc : Access) (va : Nat) : State :=
  match s.translate acc va, s.curCtx with
  | .miss, some x => s.countWalk x.desc.ctx x.desc.root va
  | _, _ => s

/-- PREF: the line comes toward the core; dropped when the address leads to no HBM frame (R280). -/
def execPref (a : Reg) (da : Dist) (_x : Scope) (n : BitVec 1) (s : State) : Out :=
  let va := (s.src a da.toNat).toNat
  s.issue { ss := [(a, da.toNat)] }
    (match s.quietTr .load va with
     | .ok .hbm addr pte =>
       let t := s.quietWalk .load va
       .next
         ({ t with
            flight := t.flight ++
              [{ src := s.cur
                 ctx := s.core.context.getD 64
                 place := .hbm
                 addr := addr / 128 * 128
                 size := 1
                 kind := .load
                 near := replicable pte && decide (homeSlice addr pte ≠ clusterOf s.cur)
                 slice :=
                   if replicable pte && decide (homeSlice addr pte ≠ clusterOf s.cur) then clusterOf s.cur else homeSlice addr pte
                 fill := decide (n = 0#1) && decide (0 < s.core.l1Lines)
                 card := s.core.card
                 va := BitVec.ofNat 64 va }] } : State).advance
     | _ => .next (s.quietWalk .load va).advance)

/-- STN: one nibble, performed as a read-modify-write of its byte (R256, R281). -/
def execStn (d a : Reg) (da : Dist) (_x : Scope) (h : BitVec 1) (s : State) : Out :=
  let va := (s.src a da.toNat).toNat
  let v := (s.src d 0).toNat % 16
  s.issue { ss := [(a, da.toNat), (d, 0)] }
    (s.ordered fun s =>
      s.onePiece .store va 1 fun s p => s.storeNow [(p.va, p.len, p.off)] [p] [s.storeReq (.nibble (h == 1#1)) false v p])

/-- A request has gone out and the instruction waits for it. -/
def State.hold (s : State) (r : Req) : Out :=
  (({ s with flight := s.flight ++ [{ r with holds := true }] } : State).upd fun k => { k with held := some .waiting }).stall

/-- The outcome of a request that the instruction waits for. -/
def State.resumeHeld (s : State) (h : Held) (body : Word → Out) : Out :=
  match h with
  | .waiting => s.stall
  | .done v => body v
  | .failed c v => s.trap c v

/-- STS: a store that holds every later access until it has been performed (R281). -/
def execSts (d a : Reg) (da : Dist) (z : Size) (x : Scope) (s : State) : Out :=
  let n := Size.bytes z
  let va := (s.src a da.toNat).toNat
  let v := (s.src d 0).toNat
  s.issue { ss := [(a, da.toNat), (d, 0)] }
    (match s.core.held with
     | some h => s.resumeHeld h fun _ => .next s.advance
     | none =>
       s.aligned va n fun s =>
         s.onePiece .store va n fun s p =>
           let r := s.storeReq .store (x == .sys) v p
           if s.core.routine.isSome then s.storeNow [(p.va, p.len, p.off)] [p] [{ r with alone := true }]
           else if s.interlocked r then s.stall
           else if p.place = .scratch s.cur then s.storeNow [(p.va, p.len, p.off)] [p] [r]
           else
             match s.remoteOwner r with
             | none => ((s.watchOwn .store p).ownLines r).hold r
             | some c =>
               match s.core.freeEntry with
               | none => s.stall
               | some i => ((s.watchOwn .store p).takeEntry i c p.addr n).hold { r with journal := some i })

/-! ## Atomics (R253, R282 to R284) -/

/-- The new value of an atomic of n bytes (R282); operation 10 is the FP32 add of R283. -/
def amoNew (fn n old b d : Nat) : Nat :=
  let sg (v : Nat) : Int := sint v (8 * n)
  if fn = 0 then b
  else if fn = 1 then (old + b) % 2 ^ (8 * n)
  else if fn = 2 then old &&& b
  else if fn = 3 then old ||| b
  else if fn = 4 then old ^^^ b
  else if fn = 5 then (if sg old ≤ sg b then old else b)
  else if fn = 6 then (if sg old ≤ sg b then b else old)
  else if fn = 7 then min old b
  else if fn = 8 then max old b
  else if fn = 9 then (if old = d then b else old)
  else if fn = 10 then (fmt32.add 0 old b).bits
  else if b ≤ old then 0 else (old + 1) % 2 ^ (8 * n)

def Order.acquires (o : Order) : Bool := o == .acquire || o == .acquireRelease
def Order.releases (o : Order) : Bool := o == .release || o == .acquireRelease

/-- An atomic on the own scratchpad, performed at once. -/
def State.amoOwn (s : State) (fn n : Nat) (r : Req) (p : Piece) (d : Reg) (x : Scope) (o : Order) : Out :=
  let key := scratchKey s.cur p.addr
  if s.poisonIn key n then .next (s.charge r.ctx 0x3C0#10 s.cur)
  else
    let old := memRead s.mem key n
    let t := (s.watchOwn .atomic p).writeAt r.ctx key n (amoNew fn n old r.data.toNat r.cmp.toNat)
    .next (((if Order.acquires o then t.acquired x else t).setS d (BitVec.ofNat 64 old)).advance)

/-- An atomic of n bytes: d ← old value at a, new value by fn (R282). -/
def State.amo (s : State) (fn n : Nat) (d a b : Reg) (o : Order) (x : Scope) : Out :=
  let va := (s.src a 0).toNat
  let m := 2 ^ (8 * n)
  s.issue { ss := [(a, 0), (b, 0), (d, 0)], ds := [d] }
    (match s.core.held with
     | some h =>
       s.resumeHeld h fun v =>
         .next (((if Order.acquires o then s.acquired x else s).setS d v).advance)
     | none =>
       s.aligned va n fun s =>
         s.onePiece .atomic va n fun s p =>
           let r : Req :=
             { s.storeReq (.amo fn) (Order.releases o && x == .sys) 0 p with
               data := BitVec.ofNat 64 ((s.src b 0).toNat % m)
               cmp := BitVec.ofNat 64 ((s.src d 0).toNat % m) }
           if p.place = .host ∧ fn ≠ 0 ∧ fn ≠ 1 ∧ fn ≠ 9 then s.trap 0x241#10 (BitVec.ofNat 64 va)
           else if s.interlocked r then s.stall
           else
             let body : Out :=
               if p.place = .scratch s.cur then s.amoOwn fn n r p d x o
               else if p.place = .host then (s.watchOwn .atomic p).hold r
               else
                 let t := s.watchOwn .atomic p
                 let t := if Order.acquires o then t.acquired x else t
                 let t := t.noFill t.cur fun l => decide (p.place = .hbm) && decide (l = p.addr / 128)
                 let i := t.core.nextPend
                 .next
                   ({ t with
                      core := { t.core.emptyS d with
                        pend := t.core.pend ++
                          [(i, { dest := .scalar d n false
                                 left := 1
                                 acquire := if Order.acquires o then some x else none })]
                        nextPend := i + 1 }
                      flight := t.flight ++ [{ r with pend := some i }] } : State).advance
             if Order.releases o then s.released x body else body)

def Wide.bytes : Wide → Nat
  | .w => 4
  | .d => 8

def execAmoswp (d a b : Reg) (o : Order) (x : Scope) (z : Wide) (s : State) : Out := s.amo 0 (Wide.bytes z) d a b o x
def execAmoadd (d a b : Reg) (o : Order) (x : Scope) (z : Wide) (s : State) : Out := s.amo 1 (Wide.bytes z) d a b o x
def execAmoand (d a b : Reg) (o : Order) (x : Scope) (z : Wide) (s : State) : Out := s.amo 2 (Wide.bytes z) d a b o x
def execAmoor (d a b : Reg) (o : Order) (x : Scope) (z : Wide) (s : State) : Out := s.amo 3 (Wide.bytes z) d a b o x
def execAmoxor (d a b : Reg) (o : Order) (x : Scope) (z : Wide) (s : State) : Out := s.amo 4 (Wide.bytes z) d a b o x
def execAmomin (d a b : Reg) (o : Order) (x : Scope) (z : Wide) (s : State) : Out := s.amo 5 (Wide.bytes z) d a b o x
def execAmomax (d a b : Reg) (o : Order) (x : Scope) (z : Wide) (s : State) : Out := s.amo 6 (Wide.bytes z) d a b o x
def execAmominu (d a b : Reg) (o : Order) (x : Scope) (z : Wide) (s : State) : Out := s.amo 7 (Wide.bytes z) d a b o x
def execAmomaxu (d a b : Reg) (o : Order) (x : Scope) (z : Wide) (s : State) : Out := s.amo 8 (Wide.bytes z) d a b o x
def execCas (d a b : Reg) (o : Order) (x : Scope) (z : Wide) (s : State) : Out := s.amo 9 (Wide.bytes z) d a b o x
def execAmofadd (d a b : Reg) (o : Order) (x : Scope) (s : State) : Out := s.amo 10 4 d a b o x
def execAmoinc (d a b : Reg) (o : Order) (x : Scope) (z : Wide) (s : State) : Out := s.amo 11 (Wide.bytes z) d a b o x

/-! ## Fences (R242, R244, R285) -/

/-- A fence at CLU scope or wider is not allowed in a transfer phase (R342). -/
def State.fence (s : State) (x : Scope) (body : State → Out) : Out :=
  if s.core.inPhase.isSome && wideScope x then s.trap 0x342#10 0#64 else s.ordered body

def execFence (x : Scope) (s : State) : Out :=
  s.fence x fun s => s.released x (.next (s.acquired x).advance)

/-- FENCE.R: earlier loads before later accesses. -/
def execFenceR (x : Scope) (s : State) : Out :=
  s.fence x fun s => if s.core.pend.isEmpty then .next (s.acquired x).advance else s.stall

/-- FENCE.W: earlier stores before later stores. -/
def execFenceW (x : Scope) (s : State) : Out :=
  s.fence x fun s => s.storesOut x (.next s.advance)

/-- IFENCE: every earlier store has been performed, then the held words and the lines that were fetched from go; a body is
fetched afresh before the next iteration issues. Its scope has no effect (R244). -/
def execIfence (_x : Scope) (s : State) : Out :=
  s.ordered fun s =>
    if s.storesPerformed && s.core.journalQuiet then
      .next (s.upd fun k => { k.discardWords with refetch := k.overlapped }).advance
    else s.stall

def QCmd.isTask (q : QCmd) : Bool :=
  match q.cmd with
  | .task _ _ => true
  | _ => false

/-- FENCE.E: the core's engines are at rest and its stores are performed; CORE scope covers the engines, which read memory
(R242, R245). -/
def execFenceE (x : Scope) (s : State) : Out :=
  s.fence x fun s =>
    if (s.core.mqueue.all QCmd.isTask) && s.core.jobs.isEmpty && s.storesPerformed && s.core.journalQuiet then
      .next s.advance
    else s.stall

/-- FENCE.J: every journal entry is resolved; a record is delivered here, whatever the scope (R255). -/
def execFenceJ (x : Scope) (s : State) : Out :=
  s.fence x fun s =>
    if !s.core.journalQuiet then s.awaitJournal
    else
      match s.core.journalCause with
      | some (c, v) => s.trap c v
      | none => .next s.advance

end Sys2Proof.Machine
end

