-- ==== Sys2Proof/Machine/Deferred.lean ====
section
/-! DEFINITION. Deferred instructions: the dispatch table, the start and the end of a routine (R81 to R84; log 13). -/

namespace Sys2Proof.Machine

/-! ## The dispatch table (R81, R82) -/

/-- The entry of a deferred word. -/
def State.dispatchEntry (s : State) (e i : Nat) : Word := tget (64 * e + i) s.dispatch 0#64

/-- The driver accepted feature bit n (R450). -/
def State.feature (s : State) (n : Nat) : Bool := s.accepted && s.acc.getLsbD n

/-- The check of an entry: 0x044, 0x045, 0x046. -/
def State.entryFault (s : State) (x : Word) : Option Cause :=
  if !wbit x 63 then some 0x044#10
  else if !wbit x 62 then some 0x045#10
  else if wbit x 61 && !s.feature (wfield x 49 8) then some 0x046#10
  else none

/-- The sources with a distance field that a format defines (R56, R80). -/
def formatNames (fmt : Nat) (w : Word32) : Names :=
  let f (lo n : Nat) : Nat := field w.toNat lo n
  let r (lo : Nat) : Reg := BitVec.ofNat 5 (f lo 5)
  if fmt = 0 then { ss := [(r 16, f 14 2), (r 9, f 7 2)] }
  else if fmt = 1 ∨ fmt = 7 ∨ fmt = 8 ∨ fmt = 12 then { ss := [(r 16, f 14 2)] }
  else if fmt = 4 then { ss := [(r 21, f 19 2)] }
  else if fmt = 6 then { ss := [(r 13, f 11 2)] }
  else if fmt = 11 then { vs := [(r 16, f 15 1)] }
  else {}

/-! ## The routine (R83, R84) -/

/-- The word of a deferred instruction. -/
def deferredWord (e : BitVec 2) (f : BitVec 20) (i : BitVec 6) : Word32 :=
  BitVec.ofNat 32 ((0x3C + e.toNat) * 2 ^ 26 + f.toNat * 2 ^ 6 + i.toNat)

/-- A word of a routine at offset i of len that R83 allows. -/
def routineWordOk (w : Word32) (i len : Nat) : Bool :=
  let p := w.toNat / 2 ^ 26
  let inside (off : Int) : Bool := decide (0 < off) && decide ((i : Int) + off < len)
  decide (1 ≤ p) && decide (p ≤ 0x2A) &&
    !([0x0F, 0x10, 0x11, 0x15, 0x16].contains p) && !(decide (0x1D ≤ p)) &&
    (if p = 0x0C then inside (sint w.toNat 16) else if p = 0x0D ∨ p = 0x0E then inside (sint w.toNat 26) else true)

/-- The word is a store: ST, STL, STN, STS, VST, VSTS or VSCAT (R72). -/
def isStoreWord (w : Word32) : Bool :=
  let p := w.toNat / 2 ^ 26
  decide (p = 0x13) || (decide (p = 0x14) && [1, 4, 5].contains (field w.toNat 9 3)) ||
    (decide (p = 0x1A) && [1, 3, 5].contains (field w.toNat 3 3))

/-- The routine begins at its first word; its hidden temporaries hold free values. The PC is the byte offset in the routine
while it runs, which is what ADPC and JAL see there (DESIGN CHOICE, log 13: the spec names no address for these words). -/
def Core.beginRoutine (k : Core) (w : Word32) (start len fresh : Nat) : Core :=
  { k with
    routine :=
      some
        { pc := k.pc
          word := w
          start := start
          len := len
          sregs := k.sregs
          vregs := k.vregs
          masks := k.masks
          fflags := k.fflags
          pendingFlags := k.pendingFlags
          window := (k.qw0, k.qw1, k.qw2, k.qw3)
          firstPend := k.nextPend }
    sregs := (hiddenNames w).foldl (fun t n => tset n (Ver.one (Config.freeWord (fresh + n))) t) k.sregs
    pc := 0#64 }

/-- A deferred instruction: its checks, then its routine, which the steps that follow run (log 13). A fault that its routine
has found waits here until the other members of the gang are between instructions (R47, R84). -/
def execDeferredInstruction (e : BitVec 2) (f : BitVec 20) (i : BitVec 6) (s : State) : Out :=
  let x := s.dispatchEntry e.toNat i.toNat
  let w := deferredWord e f i
  match s.core.held with
  | some (.failed c v) => s.trap c v
  | _ =>
    if s.core.routine.isSome then s.trap 0x047#10 (w.zeroExtend 64)
    else
      match s.entryFault x with
      | some c => s.trap c (w.zeroExtend 64)
      | none =>
        if !s.core.distsOk (formatNames (wfield x 57 4) w) then s.trap 0x080#10 (w.zeroExtend 64)
        else
          s.ordered fun s =>
            if !s.core.pend.isEmpty then s.stall
            else
              .next
                (({ s with fresh := s.fresh + 32 } : State).upd fun k =>
                  k.beginRoutine w (wfield x 0 16) (wfield x 32 9) s.fresh)

/-- The bits of a routine's word that hold its operands: registers, distances, masks and immediates, by the format of its
primary (R56, R70). -/
def operandBits (w : Word32) : Word32 :=
  let p := w.toNat / 2 ^ 26
  let bits (hi lo : Nat) : Word32 := BitVec.ofNat 32 (2 ^ (hi + 1) - 2 ^ lo)
  if p = 0x01 ∨ p = 0x17 ∨ p = 0x18 ∨ p = 0x19 ∨ p = 0x1B ∨ p = 0x1C then bits 25 7
  else if p = 0x08 then bits 25 14 ||| bits 5 0
  else if 0x02 ≤ p ∧ p ≤ 0x0A then bits 25 0
  else if p = 0x0B then bits 25 21 ||| bits 15 0
  else if p = 0x0C then bits 25 19
  else if p = 0x12 ∨ p = 0x13 then bits 25 14 ||| bits 10 0
  else if p = 0x14 then bits 25 14
  else if p = 0x1A then bits 25 6
  else 0#32

/-- A word of the store with the operands of the deferred word in the place of its own: which come where is a free value
(R83; log 13). -/
def Routine.wordAt (r : Routine) (n : Nat) (w : Word32) : Word32 :=
  let m := operandBits w
  let x := (w &&& ~~~m) ||| (Config.routineWord r.word w &&& m)
  if routineWordOk x n r.len then x else w

/-- The routine's word at its present offset, as the store holds it; none once it is over. -/
def State.routineWord (s : State) (r : Routine) : Option Word32 :=
  let n := s.core.pc.toNat / 4
  if r.len ≤ n then none else some (tget (r.start + n) s.microcode 0#32)

/-- The fault that a routine reports at a word: one of 0x070 to 0x07F, by its own field number (R79, R82). -/
def Routine.fault (r : Routine) (w : Word32) : Option Cause :=
  (Config.routineFault r.word w).map fun n => 0x070#10 ||| n.zeroExtend 10

/-- The names as the routine leaves them, its hidden temporaries gone. -/
def Core.unhide (k : Core) (r : Routine) : Core :=
  { k with
    sregs :=
      (hiddenNames r.word).foldl (fun t n => match tfind n r.sregs with | some v => tset n v t | none => terase n t) k.sregs
    pc := r.pc
    word := r.word
    routine := none
    sbuf := [] }

/-- A store of a routine that has ended waits: for an STS before it, whose outcome is still to come, and as an ordinary STL
does, if it is one, for the earlier accesses (R250, R251, R255, R281). -/
def State.routineStore (s : State) (r : Req) (send : Out) : Out :=
  match r.release with
  | some x =>
    if (s.remoteOwner r).isSome && !s.core.journalQuiet then s.awaitJournal else s.released x send
  | none => send

/-- The first of the routine's stores leaves; the core waits for the outcome of an STS (R84, R281). -/
def State.writeStore (s : State) (r : Req) : Out :=
  let t := (s.watchBuffered [r]).upd fun k => { k with sbuf := (k.sbuf.flatten.drop 1).map fun q => [q] }
  if r.alone ∧ r.place ≠ .scratch s.cur then
    match s.remoteOwner r with
    | none => (t.ownLines r).hold r
    | some c =>
      match s.core.freeEntry with
      | none => s.stall
      | some i => (t.takeEntry i c r.addr r.size).hold { r with journal := some i }
  else .next (t.putStores false [r])

/-- The routine ends: its stores are written in routine order, then the jobs that it submits enter the queue as entries become
free, and its register writes stand (R84). -/
def State.endRoutine (s : State) (r : Routine) : Out :=
  if !s.core.pend.isEmpty ∨ !s.flushable then s.stall
  else
    match s.core.held with
    | some h => s.resumeHeld h fun _ => .next (s.upd fun k => { k with held := none })
    | none =>
      match s.core.sbuf.flatten with
      | q :: _ => s.routineStore q (s.writeStore q)
      | [] =>
        match r.jobs with
        | j :: l =>
          if 2 ≤ s.core.jobs.length then s.stall
          else .next (s.upd fun k => { k.enqueueJob j with routine := some { r with jobs := l } })
        | [] =>
          .next (s.upd fun k => { k.unhide r with orderNo := if k.overlapped then k.orderNo else k.orderNo + 1 }).advance

end Sys2Proof.Machine
end

