-- ==== Sys2Proof/Machine/Fop.lean ====
section
/-! DEFINITION. Scalar floating point (R165, R166). -/

namespace Sys2Proof.Machine

def Prec.fmt : Prec → Fmt
  | .f32 => fmt32
  | .f64 => fmt64

/-- The bits of an operand of a format; the bits above it are ignored (R165). -/
def Fmt.of (f : Fmt) (x : Word) : Nat := x.toNat % 2 ^ f.w

/-- d ← r, with the flags of r. -/
def State.fres (s : State) (d : Reg) (r : FRes) : State := (s.setS d (BitVec.ofNat 64 r.bits)).flags (BitVec.ofNat 64 r.flags)

def State.fop1 (s : State) (d a : Reg) (da : Dist) (f : Word → FRes) : Out :=
  s.issue { ss := [(a, da.toNat)], ds := [d] } (.next (s.fres d (f (s.src a da.toNat))).advance)

def State.fop2 (s : State) (d a : Reg) (da : Dist) (b : Reg) (db : Dist) (f : Word → Word → FRes) : Out :=
  s.issue { ss := [(a, da.toNat), (b, db.toNat)], ds := [d] }
    (.next (s.fres d (f (s.src a da.toNat) (s.src b db.toNat))).advance)

def execFadd (d a : Reg) (da : Dist) (b : Reg) (db : Dist) (p : Prec) (s : State) : Out :=
  let f := Prec.fmt p
  s.fop2 d a da b db fun x y => f.add s.core.rm (f.of x) (f.of y)
def execFsub (d a : Reg) (da : Dist) (b : Reg) (db : Dist) (p : Prec) (s : State) : Out :=
  let f := Prec.fmt p
  s.fop2 d a da b db fun x y => f.sub s.core.rm (f.of x) (f.of y)
def execFmul (d a : Reg) (da : Dist) (b : Reg) (db : Dist) (p : Prec) (s : State) : Out :=
  let f := Prec.fmt p
  s.fop2 d a da b db fun x y => f.mul s.core.rm (f.of x) (f.of y)
def execFdiv (d a : Reg) (da : Dist) (b : Reg) (db : Dist) (p : Prec) (s : State) : Out :=
  let f := Prec.fmt p
  s.fop2 d a da b db fun x y => f.div s.core.rm (f.of x) (f.of y)
def execFsqrt (d a : Reg) (da : Dist) (p : Prec) (s : State) : Out :=
  let f := Prec.fmt p
  s.fop1 d a da fun x => f.sqrt s.core.rm (f.of x)
def execFma (d a : Reg) (da : Dist) (b : Reg) (db : Dist) (p : Prec) (s : State) : Out :=
  let f := Prec.fmt p
  s.issue { ss := [(a, da.toNat), (b, db.toNat), (d, 0)], ds := [d] }
    (.next
      (s.fres d
        (f.fma s.core.rm (f.of (s.src a da.toNat)) (f.of (s.src b db.toNat)) (f.of (s.src d 0)))).advance)
def execFmin (d a : Reg) (da : Dist) (b : Reg) (db : Dist) (p : Prec) (s : State) : Out :=
  let f := Prec.fmt p
  s.fop2 d a da b db fun x y => f.minmax false (f.of x) (f.of y)
def execFmax (d a : Reg) (da : Dist) (b : Reg) (db : Dist) (p : Prec) (s : State) : Out :=
  let f := Prec.fmt p
  s.fop2 d a da b db fun x y => f.minmax true (f.of x) (f.of y)
def execFeq (d a : Reg) (da : Dist) (b : Reg) (db : Dist) (p : Prec) (s : State) : Out :=
  let f := Prec.fmt p
  s.fop2 d a da b db fun x y => f.feq (f.of x) (f.of y)
def execFlt (d a : Reg) (da : Dist) (b : Reg) (db : Dist) (p : Prec) (s : State) : Out :=
  let f := Prec.fmt p
  s.fop2 d a da b db fun x y => f.flt (f.of x) (f.of y)
def execFle (d a : Reg) (da : Dist) (b : Reg) (db : Dist) (p : Prec) (s : State) : Out :=
  let f := Prec.fmt p
  s.fop2 d a da b db fun x y => f.fle (f.of x) (f.of y)
def execFclass (d a : Reg) (da : Dist) (p : Prec) (s : State) : Out :=
  let f := Prec.fmt p
  s.fop1 d a da fun x => { bits := f.fclass (f.of x) }
/-- The suffix names the precision of a. -/
def execFcvti (d a : Reg) (da : Dist) (p : Prec) (s : State) : Out :=
  let f := Prec.fmt p
  s.fop1 d a da fun x => f.toInt s.core.rm 64 (f.of x)
/-- The suffix names the precision of d. -/
def execFcvtf (d a : Reg) (da : Dist) (p : Prec) (s : State) : Out :=
  s.fop1 d a da fun x => (Prec.fmt p).ofInt s.core.rm x.toInt
def execFcvtw (d a : Reg) (da : Dist) (p : Prec) (s : State) : Out :=
  match p with
  | .f32 => s.fop1 d a da fun x => fmt64.convert fmt32 s.core.rm (fmt64.of x)
  | .f64 => s.fop1 d a da fun x => fmt32.convert fmt64 s.core.rm (fmt32.of x)

end Sys2Proof.Machine
end

