-- ==== Sys2Proof/Machine/Record.lean ====
section
/-! DEFINITION. Save records and log entries as the bytes that stand in HBM (R122, R433, R434, R437; log 19). -/

namespace Sys2Proof.Machine

/-! ## Sections (R434) -/

/-- A section of a save record: its type, save step, unit and bytes. -/
structure SaveSection where
  type : Nat
  step : Nat
  unit : Nat
  bytes : List Byte
deriving DecidableEq, Repr

/-- Bytes padded with zeros to n. -/
def padTo (n : Nat) (b : List Byte) : List Byte := b ++ List.replicate (n - b.length) 0#8

/-- A slot, as section 1 holds it: five words, 1024 counts and 1024 elements in the width-preserving form (R122). -/
def MSlot.recordBytes (x : MSlot) : List Byte :=
  let chain := x.scale % 1024
  natBytes x.statusWord.toNat 8 ++ natBytes (x.nexp * 2 ^ 16 + x.headroom * 2 ^ 10 + chain.toNat) 8 ++
    natBytes (x.future % 2 ^ 32 + (if x.isOpen then 2 ^ 32 else 0)) 8 ++ natBytes x.context.toNat 8 ++
    natBytes x.geometry.toNat 8 ++ ((List.range 1024).flatMap fun i => natBytes (x.elem i).count 4) ++
    (List.range 1024).flatMap fun i => natBytes (x.elem i).word 8

/-- Bytes of a section whose places no rule gives. -/
def openBytes (nonce type unit lo n : Nat) : List Byte :=
  (List.range n).map fun i => Config.sectionByte nonce type unit (lo + i)

/-- Entry i of a core's matrix queue: the instruction word's bytes are open, then a, b and zero. -/
def Core.queueBytes (k : Core) (nonce c i : Nat) : List Byte :=
  match k.mqueue[i]? with
  | some q => openBytes nonce 1 c (32 * i) 8 ++ natBytes q.a.toNat 8 ++ natBytes q.b.toNat 8 ++ natBytes 0 8
  | none => List.replicate 32 0#8

/-- SaveSection 1 of core c. -/
def Core.matrixSection (k : Core) (nonce c : Nat) : SaveSection :=
  { type := 1
    step := 1
    unit := c
    bytes :=
      padTo 49456
        (((List.range 4).flatMap fun n => (k.slot n).recordBytes) ++ k.queueBytes nonce c 0 ++ k.queueBytes nonce c 1 ++
          ((List.range 8).flatMap fun i =>
            natBytes (match tfind i k.carryRecs with | some r => r.word.toNat | none => 0) 8) ++ natBytes k.carryLost 8) }

/-- A section whose inner layout no rule gives whole. -/
def openSection (nonce type step unit n : Nat) : SaveSection :=
  { type := type, step := step, unit := unit, bytes := openBytes nonce type unit 0 n }

/-- The scratchpad of core c, as a record keeps it. -/
def Save.scratchBytes (r : Save) (c : CoreId) (k : Core) : List Byte :=
  memReadBytes r.scratch (scratchKey c 0) k.scratchSize

/-- The sections, in the order in which they are written (R433). -/
def Save.sections (r : Save) : List SaveSection :=
  let held (type step unit : Nat) : SaveSection := openSection r.nonce type step unit (Config.sectionLength r.nonce type unit)
  let cores := (List.range 2560).filterMap fun c => (tfind c r.cores).map fun k => (c, k)
  let clusters := (List.range 160).filter fun n => (tfind n r.clusters).isSome
  (cores.map fun p => p.2.matrixSection r.nonce p.1) ++ (cores.map fun p => openSection r.nonce 2 2 p.1 3272) ++
    (cores.map fun p => openSection r.nonce 3 3 p.1 2048) ++ (cores.map fun p => openSection r.nonce 4 4 p.1 6944) ++
    (clusters.map fun n => openSection r.nonce 5 4 n 8864) ++ (cores.map fun p => openSection r.nonce 6 5 p.1 1024) ++
    (r.queues.map fun q =>
      ({ type := 7, step := 5, unit := q.1, bytes := natBytes q.1 8 ++ natBytes q.2 8 } : SaveSection)) ++
    (clusters.map fun n => held 8 6 n) ++
    (cores.map fun p => ({ type := 9, step := 7, unit := p.1, bytes := r.scratchBytes p.1 p.2 } : SaveSection)) ++
    if r.flight.isEmpty && r.answers.isEmpty && r.rows.isEmpty then [] else clusters.map fun n => held 10 0 n

/-! ## The record (R434) -/

/-- The directory, for sections that begin at an offset of the record. -/
def directory : Nat → List SaveSection → List Byte
  | _, [] => []
  | at_, x :: l =>
    natBytes x.type 2 ++ natBytes x.step 1 ++ natBytes 0 1 ++ natBytes x.unit 4 ++ natBytes at_ 8 ++
      directory (at_ + x.bytes.length) l

/-- The record from byte 0x100 on: what DIGEST covers. -/
def Save.body (r : Save) : List Byte :=
  let l := r.sections
  directory (0x100 + 16 * l.length) l ++ l.flatMap fun x => x.bytes

/-- A debug-stopped core is in the record. -/
def Save.debugs (r : Save) : Bool := r.cores.any fun p => p.2.debugStopped

/-- The header. -/
def Save.header (r : Save) (body : List Byte) : List Byte :=
  natBytes 0x3152534D 4 ++ natBytes 1 2 ++ natBytes ((if r.wdog then 1 else 0) + if r.debugs then 2 else 0) 2 ++
    natBytes (r.ctx % 64) 2 ++ natBytes (r.agency % 4096) 2 ++ natBytes r.sections.length 4 ++ natBytes r.stopTime 8 ++
    natBytes r.part.toNat 20 ++ natBytes r.interval 4 ++ natBytes (0x100 + body.length) 8 ++
    (natBytes (sha384 body).toNat 48).reverse ++ natBytes 0 152

def Save.bytes (r : Save) : List Byte := let b := r.body; r.header b ++ b

/-! ## Log entries (R437) -/

def LogEntry.bytes (e : LogEntry) : List Byte :=
  natBytes e.line 8 ++ natBytes e.ctx 1 ++ natBytes 0 3 ++ natBytes e.interval 4 ++ natBytes e.data.toNat 128

/-- A stack's log region, from its start to the end of its last entry. -/
def State.logBytes (s : State) (stack : Nat) : List Byte :=
  (s.logs.filter fun e => decide (e.line * 128 / 0xC00000000 = stack)).flatMap LogEntry.bytes

/-! ## HBM with the regions that management reserves (R433, R437) -/

/-- What stands in the reserved regions: each run's address and bytes. -/
def State.reserved (s : State) : List (Nat × List Byte) :=
  (s.saves.map fun p => (Config.saveAt p.1, p.2.bytes)) ++ (List.range 8).map fun i => (Config.logAt i, s.logBytes i)

/-- A byte as an agent that no context's tables bind reads it. -/
def State.hbmByte (s : State) (a : Nat) : Byte :=
  (s.reserved.findSome? fun r => if r.1 ≤ a then r.2[a - r.1]? else none).getD (memByte s.mem a)

def State.hbmBytes (s : State) (a n : Nat) : List Byte := (List.range n).map fun i => s.hbmByte (a + i)

/-- A memory with the reserved regions written into it from a base on. -/
def State.withReserved (s : State) (base : Nat) (m : List Host.Cell) : List Host.Cell :=
  s.reserved.foldl (fun m r => memWriteBytes m (base + r.1) r.2) m

end Sys2Proof.Machine
end

