-- ==== Sys2Proof/Machine/Serve.lean ====
section
/-! DEFINITION. Requests at the point where they are performed, answers, the posted-store journal, page walks, TLB
invalidations, writes held by WB, and the accesses of the host and of peers (R220 to R225, R247, R253 to R262, R276, R284,
R379 to R387, R441, R445, R446). -/

namespace Sys2Proof.Machine

/-! ## Order of requests (R220, R234, R235, R249, R250, R254, R259) -/

def Req.reads (r : Req) : Bool := decide (r.kind = .load) || decide (r.kind = .ldro)

/-- The earlier request e of a core is performed before its request r. One way leads to a slice, and one to an owning core:
requests arrive there in the order they were sent (R335). Of one line, or of one byte elsewhere, they are performed in
program order whatever the way, but that a read which finds a replica (hit) waits for no other read (R234). Stores of one
order become visible in it (R84, R179, R235). -/
def Req.before (hit : Bool) (e r : Req) : Bool :=
  decide (e.src = r.src) && !e.late && !e.acked &&
    (e.ahead r ||
      match e.place, r.place with
      | .scratch a, .scratch b => decide (a = b)
      | .hbm, .hbm => decide (e.slice = r.slice) || (decide (e.addr / 128 = r.addr / 128) && !(hit && e.reads))
      | .host, .host => if e.sent then overlaps e.addr e.size r.addr r.size else decide (e.slice = r.slice)
      | .hbm, .host | .host, .hbm => decide (e.slice = r.slice) && !e.sent && !r.sent
      | .peer, .peer => overlaps e.addr e.size r.addr r.size
      | _, _ => false)

/-- The replica of its near slice that serves a request (R223). -/
def State.replica (s : State) (r : Req) : Option (BitVec 1024) :=
  if r.near then (tfind (r.addr / 128) (s.cluster (clusterOf r.src)).replicas).map fun x => x.1 else none

/-- A message of core c that is on its way when its context has stopped stays where it is: at the stop time, once the core is
at its place, which a core that still has to reach it gets the answers for (R431, R432; log 19). -/
def State.fallen (s : State) (ctx : Nat) (c : CoreId) : Bool :=
  (match tfind ctx s.contexts with | some x => !x.live s.time | none => false) && s.atRest c

/-- Request i may be performed now. -/
def State.mayServe (s : State) (i : Nat) (r : Req) : Bool :=
  !(s.flight.take i).any (Req.before (s.replica r).isSome · r) && !s.fallen r.ctx r.src

def State.dropReq (s : State) (i : Nat) : State := { s with flight := s.flight.eraseIdx i }

/-! ## Performing a request -/

def Req.key (r : Req) : Nat := keyOf r.place r.addr

/-- The access of the request, as watchpoints see it. -/
def Req.access (r : Req) : Access :=
  match r.kind with
  | .load | .ldro => .load
  | .store | .nibble _ => .store
  | .amo _ => .atomic

/-- Where the answer of a request comes from: a slice, an owning core or a peer (R335). -/
def Req.source (r : Req) : Nat :=
  match r.place with
  | .hbm | .host => r.slice
  | .scratch c => 160 + c
  | .peer => 4000

/-- The value that goes back: the bytes read, without those that the core has from its own stores (R221), or the old value of
an atomic. -/
def Req.answer (r : Req) (v : Nat) (line : Option (BitVec 1024)) (shared : Bool) : List Answer :=
  if r.pend.isNone && !(r.fill && line.isSome) then []
  else
    [{ dst := r.src
       source := some r.source
       pend := r.pend
       shift := r.shift
       value := v - (v &&& r.hide)
       line := if r.fill then line.map fun x => (r.addr / 128, x) else none
       from_ := if r.place = .hbm then some (r.addr / 128) else none
       shared := if shared then line.map fun x => { ctx := r.ctx, line := r.addr / 128, slice := r.slice, data := x } else none }]

/-- The request meets a poisoned granule whose old bytes it needs (R441). -/
def State.poisonedReq (s : State) (r : Req) : Bool :=
  match r.kind with
  | .store => (s.heal r.whole r.key).poisonPart r.key r.size
  | .load | .ldro =>
    (List.range r.size).any fun i => decide (r.hide / 256 ^ i % 256 ≠ 255) && s.poisonIn (r.key + i) 1
  | _ => s.poisonIn r.key r.size

/-- The effect of a store, nibble store or atomic at its point. -/
def State.performWrite (s : State) (r : Req) : State :=
  match r.kind with
  | .load | .ldro => s
  | .store => (s.heal r.whole r.key).writeAt r.ctx r.key r.size r.data.toNat
  | .nibble high => s.writeAt r.ctx r.key 1 (setNibble high (memByte s.mem r.key).toNat r.data.toNat)
  | .amo fn => s.writeAt r.ctx r.key r.size (amoNew fn r.size (memRead s.mem r.key r.size) r.data.toNat r.cmp.toNat)

/-- The instruction that waits for the request is told its outcome. -/
def State.tell (s : State) (r : Req) (h : Held) : State :=
  if r.holds then
    s.mapCore r.src fun k => if k.held = some .waiting then { k with held := some h } else k
  else s

/-- An atomic on an HBM line, request i, updates the copy that its core's L1 has of the line with its result; later stores of
the core, which the copy has already, stay (R222, R253). -/
def State.amoLines (s : State) (i : Nat) (r : Req) (v : Nat) : State :=
  let later := (s.flight.drop (i + 1)).filter fun q => decide (q.src = r.src) && q.isStore
  let put (l : Tab (BitVec 1024)) : Tab (BitVec 1024) :=
    (List.range r.size).foldl
      (fun t o =>
        let x := later.foldl (fun x q => q.onByte r.place (r.addr + o) x) (0, v / 256 ^ o % 256)
        l1Update t (r.addr + o) 1 x.2) l
  match r.kind, r.place with
  | .amo _, .hbm => s.mapCore r.src fun k => { k with l1d := put k.l1d, l1i := put k.l1i }
  | _, _ => s

/-- Request i is performed: what it reads goes back, and what it writes is written. -/
def State.perform (s : State) (i : Nat) (r : Req) (line : Option (BitVec 1024)) (shared : Bool) : State :=
  let v :=
    match (if r.reads then line else none) with
    | some x => lineRead x (r.addr % 128) r.size
    | none => memRead s.mem r.key r.size
  let s := s.performWrite r
  let s := if r.place = .hbm ∧ !r.reads then s.dropNear r.src (r.addr / 128) (r.addr / 128) else s
  let s := s.amoLines i r (memRead s.mem r.key r.size)
  let s := s.tell r (.done (BitVec.ofNat 64 v))
  let back : List Answer := match r.kind with | .store | .nibble _ => [] | _ => r.answer v line shared
  { s.dropReq i with answers := s.answers ++ back }

/-- Request i is charged to its context and has no outcome (R441). A prefetch is dropped (R280). -/
def State.chargeReq (s : State) (i : Nat) (r : Req) : State :=
  if r.reads && r.pend.isNone then s.dropReq i
  else (s.dropReq i).chargeAt r.ctx r.place r.addr r.size

/-- A load or store of an HBM line at its home slice, or at the near slice (R220 to R225). -/
def State.serveHbm (s : State) (i : Nat) (r : Req) : Out :=
  let line := r.addr / 128
  match s.replica r with
  | some x => .next (s.perform i r (some x) (decide (r.kind = .ldro)))
  | none =>
    if s.poisonedReq r then .next (s.chargeReq i r)
    else if !r.reads && !s.canLog r.ctx r.key then .refused (.notEnabled "SLICE_REQUEST")
    else
      let x := s.wholeLine line
      let keep := r.near && (s.cards.any fun p => decide (p.1 = r.card))
      let t := (s.countHbm r.ctx).perform i r x (decide (r.kind = .ldro))
      .next
        (match (if keep then x else none) with
         | some x => t.mapCluster (clusterOf r.src) fun k => { k with replicas := tset line (x, r.card) k.replicas }
         | none => t)

/-- Stores of the device that stand in the endpoint's transmit order ahead of a read or an AtomicOp of the host at its bytes:
those to the same bytes, of any core (R234, R252), and before a release at SYS scope every one of its core (R262). -/
def State.hostAhead (s : State) (r : Req) : Bool :=
  s.hostq.any fun e => overlaps e.addr e.size r.addr r.size || (r.strict && decide (e.src = r.src))

/-- A request for the host, at the home slice of its line: a store enters the endpoint's transmit order; anything else waits
for the completion (R218, R262, R284). -/
def State.serveHost (s : State) (i : Nat) (r : Req) : Out :=
  if r.sent then .refused (.notEnabled "SLICE_REQUEST")
  else if r.isStore then .next { ((s.countCtx r.ctx 4 128).dropReq i) with hostq := s.hostq ++ [r] }
  else .next { s with flight := s.flight.set i { r with sent := true } }

/-- Store i of the endpoint's transmit order reaches host memory. One with the relaxed-ordering attribute clear passes none
before it; none passes an earlier one to a byte that it writes (R247, R262). -/
def State.hostStore (s : State) (i : Nat) : Out :=
  match s.hostq[i]? with
  | none => .refused (.notEnabled "host store")
  | some r =>
    if (r.strict && decide (i ≠ 0)) ||
        (s.hostq.take i).any fun e => overlaps e.addr e.size r.addr r.size then
      .refused (.notEnabled "host store")
    else .next ((({ s with hostq := s.hostq.eraseIdx i } : State).performWrite r).tell r (.done 0#64))

/-- SLICE_REQUEST (R220, R225): request i reaches its slice, or, with merge, an LDRO shares a read not yet answered. -/
def execSliceRequest (i : Nat) (merge : Bool) (s : State) : Out :=
  match s.flight[i]? with
  | none => .refused (.notEnabled "SLICE_REQUEST")
  | some r =>
    if !s.mayServe i r then .refused (.notEnabled "SLICE_REQUEST")
    else if merge then
      match (if r.place = .hbm ∧ r.kind = .ldro then s.sharedAt r.src r.ctx (r.addr / 128) r.slice else none) with
      | some x => .next (s.perform i r (some x) false)
      | none => .refused (.notEnabled "SLICE_REQUEST")
    else
      match r.place with
      | .hbm => s.serveHbm i r
      | .host => s.serveHost i r
      | _ => .refused (.notEnabled "SLICE_REQUEST")

/-! ## Remote scratchpads (R216, R254, R405) -/

/-- The owner still runs the context of the request. -/
def State.ownerRuns (s : State) (r : Req) (c : CoreId) : Bool := decide ((s.getCore c).context = some r.ctx)

/-- The request lies at or beyond the size that the owner's scratchpad has by now (R405). -/
def State.outgrown (s : State) (r : Req) (c : CoreId) : Bool := decide ((s.getCore c).scratchSize < r.addr + r.size)

/-- A request for bytes that the owner's scratchpad has lost since it was sent has no effect there: its cause 0x1C0 comes
precisely to an instruction that waits for it, else as an asynchronous cause, and a load's destination takes a free value
(R216, R405; DESIGN CHOICE, log 71). -/
def State.bounce (s : State) (i : Nat) (r : Req) : State :=
  let s := s.dropReq i
  if r.holds then s.tell r (.failed 0x1C0#10 r.va)
  else
    let v := (Config.freeWord s.fresh).toNat % 256 ^ r.size
    let s : State := { s with fresh := s.fresh + 1, answers := s.answers ++ r.answer v none false }
    s.mapCore r.src fun k => k.pendAsync 0x1C0#10 r.va

/-- REMOTE_APERTURE_REQUEST (R216, R254): the owning core performs request i. A posted store that it must refuse waits for
POSTED_STORE_REFUSAL; one that has timed out is lost instead (R255). -/
def execRemoteApertureRequest (i : Nat) (s : State) : Out :=
  match s.flight[i]? with
  | none => .refused (.notEnabled "REMOTE_APERTURE_REQUEST")
  | some r =>
    match r.place with
    | .scratch c =>
      if !s.mayServe i r ∨ r.acked ∨ !s.ownerRuns r c then .refused (.notEnabled "REMOTE_APERTURE_REQUEST")
      else if r.isStore then
        if s.outgrown r c || s.poisonedReq r then
          if r.journal.isSome then .refused (.notEnabled "REMOTE_APERTURE_REQUEST") else .next (s.dropReq i)
        else
          let t := (s.watchServed c .store true r.addr r.size r.src r.va).performWrite r
          if r.journal.isSome then
            .next
              { t with
                flight := t.flight.set i { r with sent := true }
                answers :=
                  t.answers ++ [{ dst := r.src, source := some r.source, pend := none, shift := 0, value := 0, ack := r.journal }] }
          else .next (t.dropReq i)
      else if s.outgrown r c then .next (s.bounce i r)
      else if s.poisonedReq r then .next (s.chargeReq i r)
      else .next ((s.watchServed c r.access true r.addr r.size r.src r.va).perform i r none false)
    | _ => .refused (.notEnabled "REMOTE_APERTURE_REQUEST")

/-! ## Answers (R27, R222, R276, R335) -/

/-- A pending load takes a piece; the last makes its destination full. -/
def Core.takeAnswer (k : Core) (n : Nat) (shift v : Nat) : Core :=
  match tfind n k.pend with
  | none => k
  | some p =>
    let acc := p.acc + v * 2 ^ shift
    if p.left ≤ 1 then ({ k with pend := terase n k.pend } : Core).arrive n p.dest acc
    else { k with pend := k.pend.map fun r => if r.1 = n then (n, { p with acc := acc, left := p.left - 1 }) else r }

/-- The same for a load of a younger iteration, whose own version becomes full. -/
def Iter.takeAnswer (y : Iter) (n : Nat) (shift v : Nat) : Iter :=
  match tfind n y.pend with
  | none => y
  | some p =>
    let acc := p.acc + v * 2 ^ shift
    if p.left ≤ 1 then ({ y with pend := terase n y.pend } : Iter).arrive p.dest acc
    else { y with pend := y.pend.map fun r => if r.1 = n then (n, { p with acc := acc, left := p.left - 1 }) else r }

/-- The core keeps a line that has come, whose older contents no answer on its way may bring back (R249). -/
def State.keepLine (s : State) (c : CoreId) (line : Nat) (x : BitVec 1024) (i : Nat) : State :=
  let old (a : Answer) : Answer :=
    match a.line with
    | some (n, _) => if a.dst = c && n = line then { a with line := none } else a
    | none => a
  ({ s with answers := (s.answers.take i).map old ++ s.answers.drop i } : State).mapCore c fun k => k.keepDataLine line x

/-- An answer that the same source sent to the same core before answer i is still on its way (R335). -/
def State.answerBehind (s : State) (i : Nat) (a : Answer) : Bool :=
  (s.answers.take i).any fun e => decide (e.dst = a.dst) && decide (e.source = a.source)

/-- LOAD_RESPONSE (R276): answer i arrives, after those that the same source sent to the same core before it. -/
def execLoadResponse (i : Nat) (s : State) : Out :=
  match s.answers[i]? with
  | none => .refused (.notEnabled "LOAD_RESPONSE")
  | some a =>
    if a.ack.isSome || s.answerBehind i a || s.fallen ((s.getCore a.dst).context.getD 64) a.dst then .refused (.notEnabled "LOAD_RESPONSE")
    else
      let s := { s with answers := s.answers.eraseIdx i }
      let s := match a.line with | some (n, x) => s.keepLine a.dst n x i | none => s
      .next
        (s.mapCore a.dst fun k =>
          match a.pend with
          | some n => { k.takeAnswer n a.shift a.value with young := k.young.map fun y => y.takeAnswer n a.shift a.value }
          | none => k)

/-! ## The posted-store journal (R254, R255, R426) -/

/-- The place in the network of the store of journal entry e of core c. -/
def State.journalReq (s : State) (c e : Nat) : Option (Nat × Req) :=
  (s.flight.findIdx? fun r => decide (r.src = c) && decide (r.journal = some e)).bind fun i =>
    s.flight[i]?.map fun r => (i, r)

/-- How long a posted store waits for its outcome, in ns (R255). -/
def journalLimit : Nat := 1048576

/-- Entry e of core c has not timed out. -/
def Core.inTime (k : Core) (e time : Nat) : Bool :=
  match tfind e k.journalAt with
  | some t => decide (time ≤ t + journalLimit)
  | none => false

/-- A journal entry moves to another state. -/
def Core.markEntry (k : Core) (e st : Nat) : Core :=
  { k with
    journal :=
      tset e (BitVec.ofNat 32 ((tget e k.journal 0#32).toNat % 2 ^ 30 + st * 2 ^ 30)) k.journal
    journalAt := terase e k.journalAt }

/-- The acknowledgement of entry e of core c, on its way, with its place. -/
def State.ackOf (s : State) (c e : Nat) : Option (Nat × Answer) :=
  (s.answers.findIdx? fun a => decide (a.dst = c) && decide (a.ack = some e)).bind fun i => s.answers[i]?.map fun a => (i, a)

/-- It is gone. -/
def State.dropAck (s : State) (c e : Nat) : State :=
  { s with answers := s.answers.filter fun a => !(decide (a.dst = c) && decide (a.ack = some e)) }

/-- Nothing that the owner sent to the core before the acknowledgement is still on its way (R259, R335). -/
def State.ackReady (s : State) (c e : Nat) : Bool :=
  match s.ackOf c e with
  | some (i, a) => !s.answerBehind i a
  | none => false

/-- POSTED_STORE_ACK (R254): the acknowledgement of a store that its owner has performed frees its entry. -/
def execPostedStoreAck (c e : Nat) (s : State) : Out :=
  match s.journalReq c e with
  | some (i, r) =>
    if r.sent ∧ (s.getCore c).inTime e s.time ∧ s.ackReady c e ∧ !s.fallen r.ctx c then
      let s := ((s.dropAck c e).dropReq i).mapCore c fun k =>
        { k with journal := terase e k.journal, journalAt := terase e k.journalAt }
      .next (s.tell r (.done 0#64))
    else .refused (.notEnabled "POSTED_STORE_ACK")
  | none => .refused (.notEnabled "POSTED_STORE_ACK")

/-- The outcome of an entry that keeps its record: an STS that waits takes it precisely (R255). -/
def State.recordEntry (s : State) (c e st : Nat) (r : Req) : State :=
  let s := s.mapCore c fun k => k.markEntry e st
  s.tell r
    (.failed (BitVec.ofNat 10 ((if st = 2 then 0x280 else 0x2A0) + e)) ((tget e (s.getCore c).journal 0#32).zeroExtend 64))

/-- POSTED_STORE_REFUSAL (R255), after what the owner sent to the core before (R259): the owner no longer runs the context, or
the store would need the old bytes of a poisoned granule, or its scratchpad has lost the bytes since (R405, log 71). -/
def execPostedStoreRefusal (c e : Nat) (s : State) : Out :=
  match s.journalReq c e with
  | some (i, r) =>
    match r.place with
    | .scratch o =>
      if s.mayServe i r ∧ !r.sent ∧ (s.getCore c).inTime e s.time ∧
          !(s.answers.any fun a => decide (a.dst = c) && decide (a.source = some r.source)) ∧
          (!s.ownerRuns r o ∨ s.poisonedReq r ∨ s.outgrown r o) then
        .next ((s.dropReq i).recordEntry c e 2 r)
      else .refused (.notEnabled "POSTED_STORE_REFUSAL")
    | _ => .refused (.notEnabled "POSTED_STORE_REFUSAL")
  | none => .refused (.notEnabled "POSTED_STORE_REFUSAL")

/-- JOURNAL_TIMEOUT (R255, R426): entry e is still pending after 1,048,576 ns. A store that has not been performed is lost,
or may still be performed once. -/
def execJournalTimeout (c e : Nat) (lost : Bool) (s : State) : Out :=
  match s.journalReq c e, tfind e (s.getCore c).journalAt with
  | some (i, r), some t =>
    if t + journalLimit ≤ s.time ∧ !s.fallen r.ctx c then
      let s := s.dropAck c e
      let u := if r.sent || lost then s.dropReq i else { s with flight := s.flight.set i { r with journal := none, holds := false } }
      .next (u.recordEntry c e 3 r)
    else .refused (.notEnabled "JOURNAL_TIMEOUT")
  | _, _ => .refused (.notEnabled "JOURNAL_TIMEOUT")

/-! ## Page walks (R379 to R382) -/

/-- A TLB takes an entry: one that maps the same page goes, and the oldest give way beyond its size. -/
def tlbAdd (size : Nat) (e : TlbEntry) (l : List TlbEntry) : List TlbEntry :=
  (e :: l.filter fun x => !(decide (x.ctx = e.ctx) && overlaps x.base (2 ^ x.log2) e.base (2 ^ e.log2))).take size

/-- A cause that a walk for the core's instruction has found, at its address. -/
def Core.walkFault (k : Core) (cause : Cause) : Core :=
  match k.walk with
  | some w => { k with walk := none, walkFaults := tset w.va.toNat cause k.walkFaults }
  | none => k

/-- The cores of cluster cl that wait for a translation of context n in the page of 2 ^ log2 bytes at va: their misses share
one walk (R382). -/
def State.walkers (s : State) (cl n log2 va : Nat) : List CoreId :=
  ((List.range 16).map fun i => 16 * cl + i).filter fun c =>
    match (s.getCore c).walk with
    | some w => decide ((s.getCore c).context = some n) && decide (w.va.toNat / 2 ^ log2 = va / 2 ^ log2)
    | none => false

/-- Core c takes a leaf that its walk has found: a cause of its own access, or a TLB entry. -/
def State.takeLeaf (s : State) (x : Desc) (l : Leaf) (c : CoreId) : State :=
  let k := s.getCore c
  match k.walk with
  | none => s
  | some w =>
    let l : Leaf := { l with pte := BitVec.ofNat 64 (memRead s.mem l.at_ 8) }
    match s.viaLeaf x.keys k.system w.access (withAD l.pte w.access) l.log2 w.va.toNat with
    | .fault e => s.mapCore c fun o => o.walkFault e
    | _ =>
      let e : TlbEntry :=
        { ctx := x.ctx, base := w.va.toNat / 2 ^ l.log2 * 2 ^ l.log2, log2 := l.log2, pte := withAD l.pte w.access }
      let s := s.orAD x.ctx l w.access
      (s.mapCluster (clusterOf c) fun q => { q with tlb := tlbAdd 2048 e q.tlb }).mapCore c fun o =>
        { o with walk := none, tlb := tlbAdd 64 e o.tlb }

/-- PAGE_WALK_COMPLETE: the walk for core c ends; every core of the cluster that misses on the page shares its result. -/
def execPageWalkComplete (c : Nat) (s : State) : Out :=
  let k := s.getCore c
  match k.walk, s.ctxOf c with
  | some w, some x =>
    let va := w.va.toNat
    let cl := clusterOf c
    match (s.walkReads va (wfield x.desc.root 15 37 * 2 ^ 15) walkLevels).find? fun a => s.poisonIn a 8 with
    | some a => .next ((s.setCore c { k with walk := none }).chargeAt x.desc.ctx (placeOf a) a 8)
    | none =>
      let s := s.countWalk x.desc.ctx x.desc.root va
      match s.walkRoot x.desc.root va with
      | .error e => .next ((s.walkers cl x.desc.ctx 16 va).foldl (fun t o => t.mapCore o fun q => q.walkFault e) s)
      | .ok l => .next ((s.walkers cl x.desc.ctx l.log2 va).foldl (fun t o => t.takeLeaf x.desc l o) s)
  | _, _ => .refused (.notEnabled "PAGE_WALK_COMPLETE")

/-! ## TLB invalidation (R383) -/

def Shootdown.hits (d : Shootdown) (e : TlbEntry) : Bool :=
  decide (e.ctx = d.ctx) &&
    match d.va with
    | some va => decide (e.base ≤ va) && decide (va < e.base + 2 ^ e.log2)
    | none => true

/-- The cores of a cluster that hold the context of an invalidation. -/
def State.shotCores (s : State) (d : Shootdown) : List CoreId :=
  ((List.range 16).map fun i => 16 * d.cluster + i).filter fun c => decide ((s.getCore c).context = some d.ctx)

/-- log2 of the size of the page that an invalidation drops: of the largest entry that it finds in the cluster, or of the
largest page there is when it finds none (log 57). -/
def State.shotLog (s : State) (d : Shootdown) : Nat :=
  let tlbs := (s.cluster d.cluster).tlb ++ (List.range 16).flatMap fun i => (s.getCore (16 * d.cluster + i)).tlb
  (((tlbs.filter d.hits).map fun e => e.log2).max?).getD 30

/-- An access to va of a global place may have been translated through an entry that the invalidation drops. -/
def State.shotBy (s : State) (d : Shootdown) (place : Place) (va : Nat) : Bool :=
  place.isGlobal &&
    match d.va with
    | some a => decide (va / 2 ^ s.shotLog d = a / 2 ^ s.shotLog d)
    | none => true

/-- Such an access of core c, not in its iteration store buffer, is still to be performed. -/
def State.accessesLeft (s : State) (d : Shootdown) (c : CoreId) : Bool :=
  let k := s.getCore c
  let hit (r : Req) : Bool := s.shotBy d r.place r.va.toNat
  (s.flight.any fun r => decide (r.src = c) && hit r) || (s.hostq.any fun r => decide (r.src = c) && hit r) || k.outq.any hit ||
    k.mqueue.any fun q => q.spans.any fun p => !p.blocked && !p.done && s.shotBy d p.place p.va

/-- Core c's iteration store buffer holds such an access. -/
def State.buffersShot (s : State) (d : Shootdown) (c : CoreId) : Bool :=
  (s.getCore c).sbuf.any fun e => e.any fun r => s.shotBy d r.place r.va.toNat

/-- Of an iteration younger than core c's current one. -/
def State.youngShot (s : State) (d : Shootdown) (c : CoreId) : Bool :=
  (s.getCore c).young.any fun y => y.sbuf.any fun e => e.any fun r => s.shotBy d r.place r.va.toNat

/-- TLB_INVALIDATION_REQUEST: invalidation i acts on its cluster, once the accesses translated before it are performed.
Stores of a committed iteration, and of a deferred instruction, are written first; any other iteration that buffers one is
cancelled. -/
def execTlbInvalidationRequest (i : Nat) (s : State) : Out :=
  match s.shootdowns[i]? with
  | none => .refused (.notEnabled "TLB_INVALIDATION_REQUEST")
  | some d =>
    let l := s.shotCores d
    if d.acked ∨ l.any (s.accessesLeft d) then .refused (.notEnabled "TLB_INVALIDATION_REQUEST")
    else if l.any fun c => (s.getCore c).routine.isSome && s.buffersShot d c then
      .refused (.notEnabled "TLB_INVALIDATION_REQUEST")
    else
      match l.find? fun c => (s.getCore c).committed && s.buffersShot d c with
      | some c =>
        if (s.focus c).flushable then .next ((s.focus c).flush.focus s.cur)
        else .refused (.notEnabled "TLB_INVALIDATION_REQUEST")
      | none =>
        let s := (l.filter (s.buffersShot d)).foldl (fun t c => t.mapCore c Core.cancelIteration) s
        let s := (l.filter (s.youngShot d)).foldl (fun t c => t.mapCore c fun k => { k with young := [] }) s
        let s := s.mapCluster d.cluster fun k => { k with tlb := k.tlb.filter fun e => !d.hits e }
        let s := (List.range 16).foldl
          (fun t j =>
            t.mapCore (16 * d.cluster + j) fun k =>
              { k with
                tlb := k.tlb.filter fun e => !d.hits e
                walkFaults := if k.context = some d.ctx then [] else k.walkFaults
                wb := k.wb.map fun b => { b with waiting := false } })
          s
        .next { s with shootdowns := s.shootdowns.set i { d with acked := true } }

/-- TLB_INVALIDATION_ACK: acknowledgement i reaches the core that sent the invalidation. -/
def execTlbInvalidationAck (i : Nat) (s : State) : Out :=
  match s.shootdowns[i]? with
  | none => .refused (.notEnabled "TLB_INVALIDATION_ACK")
  | some d =>
    if d.acked then
      .next
        (({ s with shootdowns := s.shootdowns.eraseIdx i } : State).mapCore d.src fun k =>
          { k with tlbinv := k.tlbinv.map fun n => n - 1 })
    else .refused (.notEnabled "TLB_INVALIDATION_ACK")

/-! ## Write-block (R387) -/

/-- WB_RETRY: the write that core c holds back translates again. -/
def execWbRetry (c : Nat) (s : State) : Out :=
  let k := s.getCore c
  match k.wb, k.context with
  | some b, some n =>
    if b.waiting then
      let keep (e : TlbEntry) : Bool :=
        !(decide (e.ctx = n) && decide (e.base ≤ b.va.toNat) && decide (b.va.toNat < e.base + 2 ^ e.log2))
      let s := s.setCore c { k with wb := some { b with waiting := false }, tlb := k.tlb.filter keep }
      .next (s.mapCluster (clusterOf c) fun q => { q with tlb := q.tlb.filter keep })
    else .refused (.notEnabled "WB_RETRY")
  | _, _ => .refused (.notEnabled "WB_RETRY")

/-- WB_TIMEOUT: 1,000,000 ns after its first stall the write raises 0x209 at its instruction. -/
def execWbTimeout (c : Nat) (s : State) : Out :=
  let k := s.getCore c
  match k.wb with
  | some b =>
    if b.waiting ∧ b.since + 1000000 ≤ s.time then
      .next
        (s.setCore c
          { k with wb := some { b with waiting := false }, walkFaults := tset b.va.toNat 0x209#10 k.walkFaults })
    else .refused (.notEnabled "WB_TIMEOUT")
  | none => .refused (.notEnabled "WB_TIMEOUT")

/-! ## Host and peers (R217, R218, R260 to R262, R284, R445, R446, R452) -/

/-- HOST_COMPLETION (R284): the host's completion of request i, a load or an AtomicOp, or its rejection of an AtomicOp. The
stores ahead of it have reached host memory. -/
def execHostCompletion (i : Nat) (rejected : Bool) (s : State) : Out :=
  match s.flight[i]? with
  | none => .refused (.notEnabled "HOST_COMPLETION")
  | some r =>
    if !(decide (r.place = .host) && r.sent && s.mayServe i r) || s.hostAhead r then
      .refused (.notEnabled "HOST_COMPLETION")
    else if r.reads then
      if rejected then .refused (.notEnabled "HOST_COMPLETION")
      else
        let s := s.countCtx r.ctx 4 128
        let s := if r.counted then s.countAccess r.ctx r.addr else s
        .next (s.perform i r none false)
    else
      let s := s.countCtx r.ctx 4 (2 * r.size)
      if rejected then .next ((s.dropReq i).tell r (.failed 0x242#10 r.va)) else .next (s.perform i r none false)

/-- PEER_RESPONSE (R260): the peer has performed request i, and its answer or acknowledgement arrives. -/
def execPeerResponse (i : Nat) (s : State) : Out :=
  match s.flight[i]? with
  | none => .refused (.notEnabled "PEER_RESPONSE")
  | some r =>
    if r.place ≠ .peer ∨ !s.mayServe i r then .refused (.notEnabled "PEER_RESPONSE")
    else
      let n := match r.kind with | .amo _ => 2 * r.size | _ => r.size
      .next ((s.countCtx r.ctx 5 n).perform i r none false)

/-- The peer package p reaches this one, and n bytes at an address are HBM of an enabled stack. -/
def State.peerMay (s : State) (p addr n : Nat) : Bool :=
  decide (p < 64) && decide (p ≠ s.fabid.toNat) && s.peers.getLsbD p && decide (addr + n ≤ 0x6000000000) && s.populated addr &&
    [1, 2, 4, 8].contains n && decide (addr % n = 0)

/-- A peer's element add of ADD56 at its home slice here, one atomic update (R122, R260). A malformed word changes nothing;
its job fails at the peer. -/
def State.peerAdd (s : State) (addr : Nat) (data : Word) : State :=
  match add56Word (memRead s.mem addr 8) data.toNat with
  | some v => s.writeAt 64 addr 8 v
  | none => s

/-- PEER_REQUEST (R260): peer p's access to HBM at a physical address, performed at the home slice: fn 0 loads, 1 stores,
2 and 3 store the low and the high nibble, 4 + n is the atomic n of R282, and 16 is the element add of ADD56. -/
def execPeerRequest (p addr size fn : Nat) (data cmp : Word) (s : State) : Out :=
  if s.peerMay p addr size ∧ fn ≤ 16 ∧ (fn = 16 → size = 8) then
    let kind : ReqKind :=
      if fn = 0 then .load else if fn = 1 then .store else if fn = 2 then .nibble false else if fn = 3 then .nibble true
      else .amo (fn - 4)
    let r : Req := { src := 0, ctx := 64, place := .hbm, addr := addr, size := size, kind := kind, data := data, cmp := cmp }
    let old := natBytes (memRead s.mem addr size) size
    .next
      { (if fn = 16 then s.peerAdd addr data else s.performWrite r) with
        hostOut := if fn = 1 ∨ fn = 2 ∨ fn = 3 then s.hostOut else if fn = 0 then s.hbmBytes addr size else old }
  else .refused (.notEnabled "PEER_REQUEST")

/-- The HBM address of an offset in the BAR4 of function fn, for n bytes inside its grant. A part of the grant that lies in a
disabled stack acts as memory all the same (DESIGN CHOICE, log 72: the spec names no effect there). -/
def State.bar4 (s : State) (fn off n : Nat) : Option Nat :=
  match tfind fn s.grants with
  | some (base, len) => if off + n ≤ len then some (base + off) else none
  | none => none

/-- No posted write of function fn is still to be performed. -/
def State.postedNone (s : State) (fn : Nat) : Bool := s.posted.all fun p => p.fn ≠ fn

/-- The granules of data at an address. -/
def granuleData (a : Nat) (data : List Byte) : List (Nat × List Byte) :=
  (granulesOf a data.length).map fun x => (a + x.1, (data.drop x.1).take x.2)

/-- The host sends a posted write through the BAR4 of function fn: its granules are performed one by one (R261, R446). -/
def State.hostPost (s : State) (fn off : Nat) (data : List Byte) (relaxed : Bool) : State :=
  match s.bar4 fn off data.length with
  | some a => { s with posted := s.posted ++ [{ fn := fn, relaxed := relaxed, granules := granuleData a data }] }
  | none => s

/-- Granule j of posted write i is performed: at once with the relaxed-ordering attribute, else after every earlier posted
write of the function (R261). -/
def State.hostGranule (s : State) (i j : Nat) : Out :=
  match s.posted[i]? with
  | none => .refused (.notEnabled "host granule")
  | some p =>
    if !p.relaxed && (s.posted.take i).any fun q => decide (q.fn = p.fn) then .refused (.notEnabled "host granule")
    else
      match p.granules[j]? with
      | none => .refused (.notEnabled "host granule")
      | some (a, b) =>
        let rest := p.granules.eraseIdx j
        .next
          { s.writeAt 64 a b.length (bytesNat b) with
            posted := if rest.isEmpty then s.posted.eraseIdx i else s.posted.set i { p with granules := rest } }

/-- HOST_POSTED_WRITE (R261, R446): a write of function fn through BAR4, with the attribute clear, is performed after every
earlier one of the function; outside the grant it is discarded. -/
def execHostPostedWrite (fn off : Nat) (data : List Byte) (s : State) : Out :=
  match s.bar4 fn off data.length with
  | some a =>
    if s.postedNone fn then .next (s.writeAt 64 a data.length (bytesNat data)) else .refused (.notEnabled "HOST_POSTED_WRITE")
  | none => .next s

/-- HOST_READ (R261, R446): n bytes through BAR4, after every earlier posted write of the function; outside the grant, all
bytes are 0xFF. Its completion has the relaxed-ordering attribute clear, and passes no store of the device. -/
def execHostRead (fn off n : Nat) (s : State) : Out :=
  if !s.postedNone fn || !s.hostq.isEmpty then .refused (.notEnabled "HOST_READ")
  else
    match s.bar4 fn off n with
    | some a => .next { s with hostOut := s.hbmBytes a n }
    | none => .next { s with hostOut := List.replicate n 0xFF#8 }

/-- HOST_ATOMICOP (R445): Swap, FetchAdd or CAS (operation 0, 1 or 2) of 4 or 8 bytes, completed with the old value. -/
def execHostAtomicop (fn off op size : Nat) (operand compare : Word) (s : State) : Out :=
  if op < 3 ∧ (size = 4 ∨ size = 8) ∧ off % size = 0 ∧ s.postedNone fn then
    match s.bar4 fn off size with
    | some a =>
      let old := memRead s.mem a size
      let m := 2 ^ (8 * size)
      let v := amoNew (if op = 2 then 9 else op) size old (operand.toNat % m) (compare.toNat % m)
      .next { s.writeAt 64 a size v with hostOut := natBytes old size }
    | none => .next { s with hostOut := List.replicate size 0xFF#8 }
  else .refused (.notEnabled "HOST_ATOMICOP")

/-! ## Replicas (R223) -/

/-- REPLICA_EVICTION: the near slice of cluster cl drops its replica of a line. -/
def execReplicaEviction (cl line : Nat) (s : State) : Out :=
  if (tfind line (s.cluster cl).replicas).isSome then
    .next (s.mapCluster cl fun k => { k with replicas := terase line k.replicas })
  else .refused (.notEnabled "REPLICA_EVICTION")

end Sys2Proof.Machine
end

