-- ==== Sys2Proof/Machine/Recover.lean ====
section
/-! DEFINITION. Contexts: their descriptors, stop times, save records, resumption, checkpoint intervals, rollback, the end of a
context, the watchdog, and what an uncorrectable error brings (R374 to R377, R401, R422, R430 to R441). -/

namespace Sys2Proof.Machine

/-! ## The partition of a context -/

/-- The cores of a context that the machine lists. -/
def State.ctxCores (s : State) (n : Nat) : List CoreId :=
  ((s.cur, s.core) :: s.others).filterMap fun r => if r.2.context = some n then some r.1 else none

/-- The clusters of a context that the machine lists. -/
def State.ctxClusters (s : State) (n : Nat) : List Nat :=
  s.clusters.filterMap fun r => if r.2.context = some n then some r.1 else none

/-- The key of a byte lies in the scratchpad of one of some cores. -/
def scratchOf (l : List CoreId) (key : Nat) : Bool := decide (2 ^ 52 ≤ key) && l.contains ((key - 2 ^ 52) / 2 ^ 19)

/-- A context leaves its partition: its cores, clusters, scratchpads and messages are gone. -/
def State.vacate (s : State) (n : Nat) : State :=
  let l := s.ctxCores n
  { s with
    core := if s.core.context = some n then {} else s.core
    others := s.others.filter fun r => r.2.context ≠ some n
    clusters := s.clusters.filter fun r => r.2.context ≠ some n
    mem := s.mem.filter fun x => !scratchOf l x.1
    poisoned := s.poisoned.filter fun g => !scratchOf l (8 * g)
    flight := s.flight.filter fun r => r.ctx ≠ n
    answers := s.answers.filter fun a => !l.contains a.dst
    rows := s.rows.filter fun r => r.ctx ≠ n
    shootdowns := s.shootdowns.filter fun d => !l.contains d.src }

/-- A context enters its partition with a fresh core at every station of its enabled clusters (R375, R377, R403). -/
def State.populate (s : State) (d : Desc) : State :=
  let cls := (List.range 160).filter (s.inPart d)
  let k : Core := { context := some d.ctx, trapvec := d.tvec &&& ~~~3#64 }
  let s := cls.foldl (fun t n => t.setCluster n { context := some d.ctx }) s
  (cls.flatMap fun n => (List.range 16).map fun i => 16 * n + i).foldl (fun t c => t.setCore c k) s

/-! ## Stopping (R308, R430, R431) -/

/-- Core c stops at a stop time: its waits are given up, to be executed again, and its iteration is cancelled. -/
def State.restCore (s : State) (c : CoreId) : State :=
  (s.unsleep c).mapCore c fun k =>
    { k.cancelIteration with
      rest := .stopped
      barpAt := none
      join := none
      rechecking := false
      walk := none
      walkFaults := []
      path := none
      young := []
      wb := k.wb.map fun b => { b with waiting := false } }

/-- Core c may stop at a stop time. -/
def State.mayRest (s : State) (c : CoreId) : Bool := s.mayStop c && (s.getCore c).stepping.isNone

/-- Core c, or its whole gang, stops if it is at the place where R431 has it stop. -/
def State.tryRest (s : State) (c : CoreId) : State :=
  let l := s.together c
  if !s.atRest c && l.all s.mayRest && s.even l then l.foldl State.restCore s else s

/-- Every unit of the partition has reached its place. -/
def State.allAtRest (s : State) (n : Nat) : Bool :=
  (match tfind n s.contexts with | some x => x.phase.isNone | none => true) &&
    (s.ctxCores n).all fun c => s.atRest c && (s.getCore c).mqueue.all fun q => !q.started

/-- STOP_TIME (R430, R431): at T every core of context n that is at its place stops; when all have, the partition is
stopped. -/
def execStopTime (n : Nat) (s : State) : Out :=
  match tfind n s.contexts with
  | some x =>
    match x.state with
    | .stopping t =>
      if t ≤ s.time then
        let u := (s.ctxCores n).foldl State.tryRest s
        if u.allAtRest n then .next (u.mapCtx n fun x => { x with state := .stopped t, restAt := s.time })
        else if u = s then .refused (.notEnabled "STOP_TIME")
        else .next u
      else .refused (.notEnabled "STOP_TIME")
    | _ => .refused (.notEnabled "STOP_TIME")
  | none => .refused (.notEnabled "STOP_TIME")

/-- A stop time T is written to the clusters of context n; a stop under way keeps its own (R430). -/
def State.setStop (s : State) (n t : Nat) : State :=
  s.mapCtx n fun x => if x.state = .running then { x with state := .stopping t } else x

/-! ## The mailbox's answer (R447, R448) -/

/-- The response of a command: its status and results. -/
def State.respond (s : State) (status : Nat) (results : List Word) : State :=
  { s with
    rsp := (BitVec.ofNat 64 status :: results) ++ List.replicate (7 - results.length) 0#64
    command := none }

/-- The command that runs for context n, one of some codes, is done. -/
def State.commandDone (s : State) (codes : List Nat) (n status : Nat) (results : List Word) : State :=
  match s.command with
  | some (code, c) => if codes.contains code && decide (c = n) then s.respond status results else s
  | none => s

/-! ## A device checkpoint (R440) -/

/-- Every resident context is saved: a device checkpoint streams the HBM (R440). -/
def State.allSaved (s : State) : Bool := s.contexts.all fun p => decide (p.2.state = .saved)

/-- The whole HBM, save records and logs with it, goes to a window outside the package from an address on. -/
def State.streamHbm (s : State) (base : Nat) : State :=
  { s with
    mem :=
      s.withReserved base
        ((s.mem.filter fun c => decide (c.1 < base)) ++
          ((s.mem.filter fun c => decide (c.1 < 0x6000000000)).map fun c => (base + c.1, c.2)) ++
          s.mem.filter fun c => decide (base + 0x6000000000 ≤ c.1)) }

/-- Where a device checkpoint streams to, by its operands: the host window at a bus address, the window of a peer, or both; a
byte of HBM goes to its own address in them (log 24). -/
def checkpointBases (target bus peer : Nat) : List Nat :=
  (if target ≠ 1 then [2 ^ 51 + bus] else []) ++ if target ≠ 0 then [2 ^ 48 + peer * 2 ^ 42] else []

/-- A device checkpoint under way ends when every context is saved. Its command holds its operands. -/
def State.deviceCheckpoint (s : State) : State :=
  match s.command with
  | some (0x16, _) =>
    if s.allSaved then
      let op (n : Nat) : Nat := (s.cmd.getD n 0#64).toNat
      ((checkpointBases (op 1) (op 2) (op 3)).foldl State.streamHbm s).respond 0 []
    else s
  | _ => s

/-! ## The save record (R432 to R435) -/

/-- A core as a save record keeps it: no L1, no TLB and no held words. -/
def Core.saved (k : Core) : Core :=
  { k with l1d := [], l1i := [], fbuf := [], lbuf := [], tlb := [] }

/-- The waits of context n's cards, future by future, in list order. -/
def State.cardWaits (s : State) (n : Nat) : List WaitRec :=
  let mine := s.waiters.filter fun p =>
    match p.2.who with
    | .card m => (match tfind m s.cards with | some k => decide (k.ctx = n) | none => false)
    | .core _ => false
  ((mine.map fun p => p.2.fut).eraseDups).flatMap fun i =>
    ((s.waitList (s.fut n i).nwait (s.fut n i).whead).filterMap fun r => tfind r s.waiters).filter fun w =>
      match w.who with
      | .card _ => true
      | .core _ => false

def State.saveRecord (s : State) (n t : Nat) (x : Context) : Save :=
  let l := s.ctxCores n
  { ctx := n
    agency := x.desc.agency
    part := x.desc.part
    nonce := s.fresh
    restAt := x.restAt
    wdog := x.wdog
    interval := x.ckpt.getD 0
    stopTime := t
    cores := l.map fun c => (c, (s.getCore c).saved)
    clusters := (s.ctxClusters n).map fun m => (m, { s.cluster m with replicas := [], tlb := [] })
    flight := s.flight.filter fun r => decide (r.ctx = n)
    answers := s.answers.filter fun a => l.contains a.dst
    rows := s.rows.filter fun r => decide (r.ctx = n)
    scratch := s.mem.filter fun c => scratchOf l c.1
    poison := s.poisoned.filter fun g => scratchOf l (8 * g)
    queues := (s.queues.filter fun q => q.2.enabled && decide (q.2.ctx = n)).map fun q => (q.1, q.2.h)
    cards := s.cards.filter fun p => decide (p.2.ctx = n)
    waits := s.cardWaits n
    freeFutures := x.freeFutures
    futures := x.futures }

/-- The partition named in a record holds a cluster that another context runs on (R374). -/
def State.taken (s : State) (n : Nat) (part : BitVec 160) : Option Nat :=
  (List.range 160).find? fun c =>
    part.getLsbD c &&
      match (s.cluster c).context with
      | some m => decide (m ≠ n)
      | none => false

/-- The journal of a resumed core: the time it was saved does not count for its timeouts (R432). -/
def Core.resumed (k : Core) (gap : Nat) : Core :=
  { k with rest := .none, journalAt := k.journalAt.map fun r => (r.1, r.2 + gap) }

/-- Context n resumes from a record, on the partition that it names: its messages go back ahead of any new one, and completion
actions that fell due after the stop are issued (R431, R435). -/
def State.resumeFrom (s : State) (n : Nat) (r : Save) : State :=
  let s := r.clusters.foldl (fun t p => t.setCluster p.1 p.2) s
  let s := r.cores.foldl (fun t p => t.setCore p.1 (p.2.resumed (s.time - r.restAt))) s
  let s :=
    { s with
      mem := r.scratch.foldl (fun (m : List Host.Cell) (c : Host.Cell) => memSet c.1 c.2 m) s.mem
      poisoned := r.poison ++ s.poisoned
      flight := r.flight ++ s.flight
      answers := r.answers ++ s.answers
      rows := r.rows ++ s.rows }
  let s := s.mapCtx n fun x =>
    { x with
      desc := { x.desc with part := r.part }
      state := .running
      phase := none
      wdog := false
      ckpt := none
      rewritten := s.time }
  (r.cores.map fun p => p.1).foldl State.entryActions s

/-! ## The end of a context (R294, R401, R441) -/

/-- The stores that a core stopped as at a stop time has still to make: those of an access that it has begun, and those of
a committed iteration. -/
def State.settleStores (s : State) (c : CoreId) : State :=
  let k := s.getCore c
  let l := k.outq ++ if k.committed then k.sbuf.flatten else []
  l.foldl (fun t r => if t.poisonedReq r then t else t.performWrite r) s

/-- Cards, waits, queues and records of context n go. -/
def State.forget (s : State) (n : Nat) : State :=
  let mine (w : Waiter) : Bool :=
    match w with
    | .card m => (match tfind m s.cards with | some k => decide (k.ctx = n) | none => false)
    | .core c => decide ((s.getCore c).context = some n)
  { s with
    waiters := s.waiters.filter fun p => !mine p.2.who
    cards := s.cards.filter fun p => p.2.ctx ≠ n
    charges := s.charges.filter fun e => e.1 ≠ n }

/-- Context n ends: its number and partition are free, and its queues have EN cleared. -/
def State.endContext (s : State) (n : Nat) : State :=
  let s := (s.forget n).vacate n
  let s :=
    { s with
      queues := s.queues.map fun (q : Nat × Queue) =>
        if q.2.ctx = n then (q.1, { q.2 with desc := q.2.desc &&& 0x7FFFFFFFFFFFFFFF#64, timer := none, posted := false }) else q
      contexts := terase n s.contexts
      saves := terase (2 * n) (terase (2 * n + 1) s.saves) }.dropLogs n
  (s.commandDone [0x12, 0x14] n (0x04070000 + n) []).deviceCheckpoint

/-- A termination: every core stops, nothing is saved, and one kind 5 record is posted (R401, R441). -/
def State.terminate (s : State) (n cause detail : Nat) : State :=
  (((s.ctxCores n).foldl State.settleStores s).notify n 5 0 cause detail).endContext n

/-! ## Rollback (R438, R439) -/

/-- The bytes of a line, as a log entry holds them. -/
def lineBytes (x : BitVec 1024) : List Byte := natBytes x.toNat 128

/-- The lines that context n wrote in interval k hold their old contents again. -/
def State.undoWrites (s : State) (n k : Nat) : State :=
  let l := (s.logs.filter fun e => decide (e.ctx = n) && decide (e.interval = k)).reverse
  { s with
    mem := l.foldl (fun m e => memWriteBytes m (128 * e.line) (lineBytes e.data)) s.mem
    poisoned := s.poisoned.filter fun g => !l.any fun e => decide (8 * g / 128 = e.line) }

/-- The waits of a record's cards, entered again in their futures' lists. -/
def State.rewait (s : State) (n : Nat) (l : List WaitRec) : State :=
  let s := ((l.map fun w => w.fut).eraseDups).foldl
    (fun t i => t.setFut n i { t.fut n i with nwait := 0, whead := 0, wtail := 0 }) s
  l.foldl
    (fun t w => match t.freeWaiter with | some r => t.addWaiter n w.fut r w.who | none => t) s

/-- Context n goes back to record k of its open interval, and runs on from it, or stops again for a device checkpoint. From a
record with WDOG set it does not run on: it is saved as that record has it, until the host asks for it (R436). -/
def State.rollback (s : State) (n k cause : Nat) (r : Save) (x : Context) : State :=
  let s := (s.forget n).undoWrites n k
  let s := s.vacate n
  let s := { s with cards := r.cards ++ s.cards, saves := terase (2 * n) s.saves }
  let s := r.queues.foldl (fun t q => t.setQueue q.1 { t.queue q.1 with h := q.2, timer := none, posted := false }) s
  let s := s.mapCtx n fun y =>
    { y with freeFutures := r.freeFutures ++ (List.range (x.futures - r.futures)).map fun i => r.futures + i }
  let s := s.rewait n r.waits
  let s :=
    if r.wdog ∧ cause ≠ 0 then
      { s with saves := tset (2 * n) r s.saves }.mapCtx n fun y =>
        { y with desc := { y.desc with part := r.part }, state := .saved, phase := none, ckpt := none }
    else s.resumeFrom n r
  let s := s.notify n 10 0 cause k
  match s.command with
  | some (0x16, _) => s.setStop n s.time
  | _ => s.commandDone [0x12, 0x14] n (0x04070000 + n) []

/-- The record of context n fails its DIGEST, and there is none to go back to (R435, R441). -/
def State.lostRecord (s : State) (n : Nat) : State := (s.notify n 8 0 0x3C9 0).terminate n 0x3C9 0

/-- Context n is recovered from an error: it is rolled back to its open interval, or terminated if it has none (R441). -/
def State.recover (s : State) (n : Nat) (cause : Cause) : State :=
  match tfind n s.contexts with
  | none => s
  | some x =>
    match (if x.interval = 0 then none else tfind (2 * n + 1) s.saves) with
    | some r =>
      if !r.intact then s.lostRecord n
      else if (s.taken n r.part).isSome then s.terminate n cause.toNat 0
      else s.rollback n x.interval cause.toNat r x
    | none => s.terminate n cause.toNat 0

/-- A class 15 code that goes to management: a kind 8 record, then the recovery (R422, R424). -/
def State.failContext (s : State) (n : Nat) (cause : Cause) (unit : Nat) : State :=
  (s.notify n 8 0 cause.toNat (unit % 65536)).recover n cause

/-! ## CONTEXT_SAVE -/

/-- Interval k opens: the record and the log of the interval before it go, and a kind 9 record is posted (R437, R439). -/
def State.openInterval (s : State) (n k : Nat) : State :=
  let s := s.dropLogs n
  (s.mapCtx n fun x => { x with interval := k, nextInterval := k + 1 }).notify n 9 0 0 k

/-- CONTEXT_SAVE (R433, R437): the state of a stopped partition is saved, and the partition is free; a checkpoint opens its
interval and resumes. -/
def execContextSave (n : Nat) (s : State) : Out :=
  match tfind n s.contexts with
  | some x =>
    match x.state with
    | .stopped t =>
      let r := s.saveRecord n t x
      let s : State := { s.vacate n with fresh := s.fresh + 1 }
      match x.ckpt with
      | some k =>
        let s := { s with saves := tset (2 * n + 1) r s.saves }
        if x.wdog then
          let s := { s with saves := tset (2 * n) r s.saves }
          let s := s.openInterval n k
          .next ((s.mapCtx n fun y => { y with state := .saved, ckpt := none }).commandDone [0x14] n 0 [BitVec.ofNat 64 k])
        else .next (((s.openInterval n k).resumeFrom n r).commandDone [0x14] n 0 [BitVec.ofNat 64 k])
      | none =>
        let s := { s with saves := tset (2 * n) r s.saves }
        .next (((s.mapCtx n fun y => { y with state := .saved }).commandDone [0x12] n 0 []).deviceCheckpoint)
    | _ => .refused (.notEnabled "CONTEXT_SAVE")
  | none => .refused (.notEnabled "CONTEXT_SAVE")

/-! ## Watchdog and save bound (R436) -/

/-- WATCHDOG_EXPIRY: the watchdog of context n has run out; a running context is stopped and saved with WDOG, a save goes on
and its record is marked. -/
def execWatchdogExpiry (n : Nat) (s : State) : Out :=
  match tfind n s.contexts with
  | some x =>
    if x.rewritten + 1000000 * x.wdp ≤ s.time ∧ x.state ≠ .saved then
      let cause := if x.live s.time then 0x3C6 else 0x3C7
      .next
        (((s.setStop n s.time).mapCtx n fun x => { x with wdog := true, rewritten := s.time }).notify n 8 0 cause 0)
    else .refused (.notEnabled "WATCHDOG_EXPIRY")
  | none => .refused (.notEnabled "WATCHDOG_EXPIRY")

/-- WATCHDOG_REWRITE: the management core rewrites the watchdog in time. -/
def execWatchdogRewrite (n : Nat) (s : State) : Out :=
  match tfind n s.contexts with
  | some _ => .next (s.mapCtx n fun x => { x with rewritten := s.time })
  | none => .refused (.notEnabled "WATCHDOG_REWRITE")

/-- SAVE_BOUND_EXPIRY: 4,000,000 ns from T the save is not complete, and the context is lost and rolled back. -/
def execSaveBoundExpiry (n : Nat) (s : State) : Out :=
  match tfind n s.contexts with
  | some x =>
    match x.state with
    | .stopping t | .stopped t =>
      if t + 4000000 ≤ s.time then .next (s.failContext n 0x3C8#10 0) else .refused (.notEnabled "SAVE_BOUND_EXPIRY")
    | _ => .refused (.notEnabled "SAVE_BOUND_EXPIRY")
  | none => .refused (.notEnabled "SAVE_BOUND_EXPIRY")

/-! ## Errors (R422, R441, R452) -/

/-- A granule of memory is poisoned; with code 0x3C1 it is the copy of it that a slice holds (R441). -/
def State.poison (s : State) (key code unit : Nat) : State :=
  { s with
    poisoned := if s.poisoned.contains (key / 8) then s.poisoned else key / 8 :: s.poisoned
    sliceBad := if code = 0x3C1 then tset (key / 8) unit s.sliceBad else terase (key / 8) s.sliceBad }

/-- The records kept of a context no longer pass their DIGEST. -/
def Save.damage (r : Save) : Save := { r with intact := false }

/-- UNCORRECTABLE_ERROR (R441): what 0 poisons the granule of key a, in the slice given if the code is 0x3C1; what 1 is an
error in a core's registers or in a slice or TLB, charged to context a with the code and unit given; what 2 takes the first
access that a poisoned granule has been charged with; what 3 damages the save record of context a's latest stop, and 4 that
of its open interval (R435). -/
def execUncorrectableError (what a code unit : Nat) (s : State) : Out :=
  if what = 0 then
    .next (s.poison a code unit)
  else if what = 1 then
    if (code = 0x3C0 ∨ code = 0x3C1) ∧ (tfind a s.contexts).isSome then .next (s.failContext a (BitVec.ofNat 10 code) unit)
    else .refused (.notEnabled "UNCORRECTABLE_ERROR")
  else if what = 2 then
    match s.charges with
    | (n, c, u) :: rest => .next (({ s with charges := rest } : State).failContext n c u)
    | [] => .refused (.notEnabled "UNCORRECTABLE_ERROR")
  else if what = 3 ∨ what = 4 then
    let n := 2 * a + (what - 3)
    match tfind n s.saves with
    | some r => .next { s with saves := tset n r.damage s.saves }
    | none => .refused (.notEnabled "UNCORRECTABLE_ERROR")
  else .refused (.notEnabled "UNCORRECTABLE_ERROR")

/-- CORRECTED_ERROR (R441): counted, with no other effect. -/
def execCorrectedError (s : State) : Out := .next { s with corrected := s.corrected + 1 }

/-- LINK_RETRY_EXHAUSTED (R422, R441): a mesh or carry link of context n's partition gives up. -/
def execLinkRetryExhausted (n link : Nat) (s : State) : Out :=
  if (tfind n s.contexts).isSome then .next (s.failContext n 0x3C3#10 link)
  else .refused (.notEnabled "LINK_RETRY_EXHAUSTED")

/-- ADXUS_LINK_FAILURE (R422, R452): a link fails, with the peers that no enabled link reaches any more and the contexts
whose traffic it carried. LKMAP, which is fused, stays as it is (R451). -/
def execAdxusLinkFailure (link : Nat) (lost : BitVec 64) (ctxs : List Nat) (s : State) : Out :=
  if link < 12 ∧ s.lkmap.getLsbD link ∧ !s.linksDown.getLsbD link then
    let s := { s with linksDown := s.linksDown ||| (1#12 <<< link), peers := s.peers &&& ~~~lost }
    .next ((ctxs.filter fun n => (tfind n s.contexts).isSome).foldl (fun t n => t.failContext n 0x3C4#10 link) s)
  else .refused (.notEnabled "ADXUS_LINK_FAILURE")

/-- HOST_LINK_FAILURE (R422): the contexts whose traffic the host link carried. Records that the link would have to carry are
lost from now on (R375). -/
def execHostLinkFailure (ctxs : List Nat) (s : State) : Out :=
  let s := { s with hostDown := true }
  .next ((ctxs.filter fun n => (tfind n s.contexts).isSome).foldl (fun t n => t.failContext n 0x3C5#10 0) s)

/-! ## Descriptors (R375) -/

/-- A descriptor as its 128 bytes give it; bit 0 of KEYS counts as set, and ACTHR 0 means 256. -/
def descOf (b : List Byte) : Desc :=
  { ctx := imgNat b 0 2 % 64
    agency := imgNat b 2 2 % 4096
    root := BitVec.ofNat 64 (imgNat b 8 8)
    part := BitVec.ofNat 160 (imgNat b 0x10 20)
    acn := imgNat b 0x24 4
    keys := BitVec.ofNat 256 (imgNat b 0x28 32) ||| 1#256
    actab := imgNat b 0x48 8
    acthr := if imgNat b 0x50 2 = 0 then 256 else imgNat b 0x50 2
    nqlog := imgNat b 0x52 1
    nqbase := imgNat b 0x58 8
    futbase := imgNat b 0x60 8
    futn := imgNat b 0x68 4
    tvec := BitVec.ofNat 64 (imgNat b 0x70 8) }

/-- n bytes from a lie wholly in HBM of enabled stacks or in the host window. -/
def State.inMemory (s : State) (a n : Nat) : Bool :=
  decide (n = 0) ||
    (decide (2 ^ 51 ≤ a) && decide (a + n ≤ 2 ^ 52)) ||
    (decide (a + n ≤ 0x6000000000) &&
      (List.range 8).all fun i => s.stmap.getLsbD i || !overlaps a n (i * 0xC00000000) 0xC00000000)

/-- R375 calls the descriptor malformed, other than by naming a context that is resident. -/
def State.badDescriptor (s : State) (b : List Byte) : Bool :=
  let d := descOf b
  decide (imgNat b 0 2 / 64 ≠ 0) || decide (imgNat b 2 2 / 4096 ≠ 0) || decide (imgNat b 4 4 ≠ 0) ||
    decide (imgNat b 0x53 5 ≠ 0) || decide (imgNat b 0x6C 4 ≠ 0) || decide (imgNat b 0x78 8 ≠ 0) ||
    decide (d.nqlog < 4) || decide (20 < d.nqlog) || decide (d.actab % 128 ≠ 0) || decide (d.nqbase % 128 ≠ 0) ||
    decide (d.tvec.toNat % 4 ≠ 0) || !s.inMemory d.nqbase (0x80 + 16 * 2 ^ d.nqlog) || !s.inMemory d.actab (2 * d.acn) ||
    !s.inMemory d.futbase (32 * d.futn)

/-- The lowest cluster of a partition that is disabled, or that another context runs on. -/
def State.badCluster (s : State) (n : Nat) (part : BitVec 160) : Option Nat :=
  match (List.range 160).find? fun c => part.getLsbD c && !s.clmap.getLsbD c with
  | some c => some c
  | none => s.taken n part

/-- Future entries lo to hi - 1 of a table become free, with generation 0. -/
def State.freshFutures (s : State) (base lo hi : Nat) : State :=
  { s with mem := s.mem.filter fun c => !(decide (base + 32 * lo ≤ c.1) && decide (c.1 < base + 32 * hi)) }

/-- A context is loaded onto its partition (R305, R375, R377). -/
def State.loadContext (s : State) (d : Desc) : State :=
  let s := s.freshFutures d.futbase 0 d.futn
  let x : Context := { desc := d, freeFutures := List.range d.futn, futures := d.futn, rewritten := s.time }
  ({ s with contexts := tset d.ctx x s.contexts } : State).populate d

/-- A context's cores forget its translations (R382). -/
def State.dropTranslations (s : State) (n : Nat) : State :=
  let f (k : Core) : Core := if k.context = some n then { k with tlb := [], walkFaults := [] } else k
  { s with
    core := f s.core
    others := s.others.map fun r => (r.1, f r.2)
    clusters := s.clusters.map fun r => (r.1, { r.2 with tlb := r.2.tlb.filter fun e => e.ctx ≠ n }) }

/-- Clusters leave the partition of context n. -/
def State.leaveClusters (s : State) (n : Nat) (gone : List Nat) : State :=
  let l := (s.ctxCores n).filter fun c => gone.contains (clusterOf c)
  { s with
    core := if l.contains s.cur then {} else s.core
    others := s.others.filter fun r => !l.contains r.1
    clusters := s.clusters.filter fun r => !gone.contains r.1
    mem := s.mem.filter fun x => !scratchOf l x.1
    poisoned := s.poisoned.filter fun g => !scratchOf l (8 * g)
    flight := s.flight.filter fun r => !l.contains r.src
    answers := s.answers.filter fun a => !l.contains a.dst
    rows := s.rows.filter fun r => !l.contains r.dst && !l.contains r.src
    shootdowns := s.shootdowns.filter fun d => !l.contains d.src }

/-- The partition of context n becomes that of d: clusters that join get fresh cores, as at a load, and those that leave are
vacated (log 70). -/
def State.repartition (s : State) (n : Nat) (old d : Desc) : State :=
  let gone := (List.range 160).filter fun c => s.inPart old c && !d.part.getLsbD c
  let new := d.part &&& ~~~old.part
  if new = 0#160 ∧ gone.isEmpty then s else (s.leaveClusters n gone).populate { d with part := new }

/-- CONTEXT_DESCRIPTOR_CHANGE (R375): the device reads a resident context's descriptor again; one that fails the checks, or
names another context, leaves the old one in force. -/
def execContextDescriptorChange (n : Nat) (image : List Byte) (s : State) : Out :=
  match tfind n s.contexts with
  | some x =>
    let d := descOf image
    if s.badDescriptor image ∨ d.ctx ≠ n ∨ (s.badCluster n d.part).isSome then .next s
    else
      let s := s.mapCtx n fun y => { y with desc := d }
      let s := if x.state = .saved then s else s.repartition n x.desc d
      .next (if d.root = x.desc.root then s else s.dropTranslations n)
  | none => .refused (.notEnabled "CONTEXT_DESCRIPTOR_CHANGE")

end Sys2Proof.Machine
end

