-- ==== Sys2Proof/Machine/Manage.lean ====
section
/-! DEFINITION. The management mailbox: which commands it performs, and the commands for contexts, agencies, queues, futures
and checkpoints (R294, R303, R305, R388, R390, R398, R430 to R440, R446 to R448, R450, R453, R454). -/

namespace Sys2Proof.Machine

/-! ## Running a command (R447, R448, R454) -/

/-- Operand n of a command. -/
def opWord (ops : List Word) (n : Nat) : Word := ops.getD (n - 1) 0#64
def opNat (ops : List Word) (n : Nat) : Nat := (opWord ops n).toNat

/-- The mailbox takes a command of function fn: the physical function's, once boot is complete and while no other runs. -/
def State.takesCommand (s : State) (fn : Nat) : Bool := decide (fn = 0) && wbit s.bootst 63 && s.command.isNone

/-- The lowest operand that a command does not list and that is not zero. -/
def strayOperand (ops : List Word) (listed : Nat) : Option Nat :=
  ((List.range 7).map (· + 1)).find? fun n => decide (listed < n) && decide (opWord ops n ≠ 0#64)

/-- A command with operands op1 to op-listed: discarded, refused before ACCEPT, refused for an operand, or performed. -/
def State.mailbox (s : State) (fn code : Nat) (ops : List Word) (listed : Nat) (body : State → Out) : Out :=
  if !s.takesCommand fn then .next s
  else
    let s := { s with cmd := BitVec.ofNat 64 code :: (List.range 7).map fun i => ops.getD i 0#64 }
    if !s.accepted ∧ code ≠ 1 then .next (s.respond 0x04030003 [])
    else
      match strayOperand ops listed with
      | some n => .next (s.respond (0x04020000 + n) [])
      | none => body s

/-- The operand is malformed (R448). -/
def State.badOp (s : State) (n : Nat) : Out := .next (s.respond (0x04020000 + n) [])

/-- A command that names a context in op1. -/
def State.onContext (s : State) (ops : List Word) (body : Nat → Context → Out) : Out :=
  let n := opNat ops 1
  if 64 ≤ n then s.badOp 1
  else
    match tfind n s.contexts with
    | none => .next (s.respond (0x04040000 + n) [])
    | some x => body n x

/-- Context c is not in the state that the command needs. -/
def State.wrongState (s : State) (n : Nat) : Out := .next (s.respond (0x04070000 + n) [])

/-- The command runs on; its status reads 0xFFFF_FFFF until it is done. -/
def State.runs (s : State) (code n : Nat) : State :=
  { s with rsp := BitVec.ofNat 64 0xFFFFFFFF :: List.replicate 7 0#64, command := some (code, n) }

/-- The codes of R448's commands. -/
def commandCodes : List Nat :=
  [0x01, 0x10, 0x11, 0x12, 0x13, 0x14, 0x15, 0x16, 0x20, 0x21, 0x22, 0x23, 0x24, 0x30, 0x31, 0x40, 0x41, 0x50, 0x51, 0x52,
    0x60]

/-- MAILBOX_UNKNOWN_COMMAND (R448): a code that no command has; CMD takes its word 0. -/
def execMailboxUnknownCommand (fn : Nat) (code : BitVec 16) (s : State) : Out :=
  let s' : State := { s with cmd := BitVec.ofNat 64 code.toNat :: s.cmd.tail }
  if commandCodes.contains code.toNat then .refused (.notEnabled "MAILBOX_UNKNOWN_COMMAND")
  else if !s.takesCommand fn then .next s
  else if !s.accepted then .next (s'.respond 0x04030003 [])
  else .next (s'.respond (0x04010000 + code.toNat) [])

/-! ## Features, clock cap (R450, R453) -/

/-- FEAT: bits 0 to 5, and those that entries of the microcode store gate. -/
def State.feat (s : State) : BitVec 256 :=
  (s.dispatch.filter fun e => wbit e.2 63 && wbit e.2 61 && decide (64 ≤ wfield e.2 49 8)).foldl
    (fun v e => v ||| (1#256 <<< wfield e.2 49 8)) 0x3F#256

/-- NETLAT: the device's memory timing (R348). -/
def netlat : Word := BitVec.ofNat 64 (Config.tpeer.toNat * 2 ^ 32 + Config.thost.toNat * 2 ^ 16 + Config.thbm.toNat)

/-- UNITS (R451). -/
def State.units (s : State) : Word := BitVec.ofNat 64 (s.fabid.toNat * 2 ^ 20 + s.lkmap.toNat * 2 ^ 8 + s.stmap.toNat)

/-- CLK (R453). -/
def State.clk (s : State) : Word := BitVec.ofNat 64 (s.capw * 2 ^ 32 + s.mhz)

/-- BAR2 as it reads: each word's offset and its bytes (R447). -/
def State.bar2 (s : State) : List (Nat × List Byte) :=
  [(0x000, natBytes s.bootst.toNat 8), (0x008, natBytes s.feat.toNat 32), (0x028, natBytes s.acc.toNat 32),
    (0x048, natBytes s.clmap.toNat 24), (0x060, natBytes s.units.toNat 8), (0x068, natBytes netlat.toNat 8),
    (0x070, natBytes s.clk.toNat 8), (0x100, s.cmd.flatMap fun w => natBytes w.toNat 8),
    (0x140, s.rsp.flatMap fun w => natBytes w.toNat 8)]

/-- A byte of BAR2, if it is one of a word. -/
def State.bar2Byte (s : State) (off : Nat) : Option Byte :=
  s.bar2.findSome? fun r => if r.1 ≤ off then r.2[off - r.1]? else none

/-- The host reads n bytes of BAR2, which every function sees alike. What lies beside the words no rule says. -/
def State.readBar2 (s : State) (off n : Nat) : Out :=
  let l := (List.range n).map fun i => s.bar2Byte (off + i)
  if l.all fun b => b.isSome then .next { s with hostOut := l.map fun b => b.getD 0#8 } else .refused (.notEnabled "BAR2 read")

/-- The host reads n bytes of BAR0: reads return 0 (R446). -/
def State.readBar0 (s : State) (n : Nat) : Out := .next { s with hostOut := List.replicate n 0#8 }

/-- The operator joins the package into a fabric domain: its number there, and the peers that its links reach (R452). -/
def State.joinDomain (s : State) (fabid : BitVec 6) (peers : BitVec 64) : Out :=
  if peers ≠ 0#64 ∧ s.lkmap &&& ~~~s.linksDown = 0#12 then .refused (.notEnabled "fabric domain")
  else .next { s with fabid := fabid, peers := peers }

/-- ACC_WRITE: the physical function writes ACC until ACCEPT fixes it; a bit not offered reads back as 0. -/
def execAccWrite (fn : Nat) (v : BitVec 256) (s : State) : Out :=
  .next (if fn = 0 ∧ !s.accepted then { s with acc := v &&& s.feat } else s)

/-- Extension of a measurement register with the digest of some bytes (R392). -/
def State.extendMr (s : State) (r : Nat) (digest : BitVec 384) : State :=
  let old : BitVec 384 := tget r s.mr 0#384
  { s with mr := tset r (sha384 ((natBytes old.toNat 48).reverse ++ (natBytes digest.toNat 48).reverse)) s.mr }

/-- The bytes of a microcode-store image with its dispatch table (R81, R392). -/
def storeBytes (store : Tab Word32) (table : Tab Word) : List Byte :=
  (List.range store.length).flatMap (fun i => natBytes (tget i store 0#32).toNat 4) ++
    (List.range 192).flatMap fun i => natBytes (tget i table 0#64).toNat 8

/-- The accepted update takes effect (R85, R402): the device runs, and no context is resident. -/
def State.applyUpdate (s : State) : State :=
  match (if s.contexts.isEmpty && wbit s.bootst 63 then s.update else none) with
  | none => s
  | some u =>
    let s := (s.extendMr 3 (sha384 u.translator)).extendMr 4 (sha384 (storeBytes u.store u.dispatch))
    { s with
      microcode := u.store
      dispatch := u.dispatch
      translator := u.translator
      wmin := u.wmin
      wmax := u.wmin + 4
      build := u.build
      svn := u.svn
      bootst := wput s.bootst 0 32 u.svn
      update := none }

/-- ACCEPT: ACC is fixed until the next reset, and MR6 takes the enable maps and the accepted bits; a later one has no
effect. -/
def execAccept (fn : Nat) (ops : List Word) (s : State) : Out :=
  s.mailbox fn 0x0001 ops 0 fun s =>
    if s.accepted then .next (s.respond 0 [])
    else
      let b := natBytes s.clmap.toNat 24 ++ natBytes s.stmap.toNat 1 ++ natBytes s.lkmap.toNat 2 ++ natBytes s.acc.toNat 32
      .next ((({ s with accepted := true } : State).extendMr 6 (sha384 b)).respond 0 [])

/-- CAPW_WRITE: the physical function sets the power cap; a value outside 600 to 1650 is ignored. -/
def execCapwWrite (fn : Nat) (v : BitVec 16) (s : State) : Out :=
  .next (if fn = 0 ∧ 600 ≤ v.toNat ∧ v.toNat ≤ 1650 then { s with capw := v.toNat } else s)

/-- CLOCK_STEP: the core clock moves a step of 100 MHz, at an instruction boundary of every core. -/
def execClockStep (mhz : Nat) (s : State) : Out :=
  if 1200 ≤ mhz ∧ mhz ≤ 2400 ∧ mhz % 100 = 0 ∧ (mhz = s.mhz + 100 ∨ s.mhz = mhz + 100) ∧ !s.core.midway ∧
      s.others.all (fun r => !r.2.midway) then
    .next { s with mhz := mhz }
  else .refused (.notEnabled "CLOCK_STEP")

/-! ## Contexts (R375, R401, R430, R433, R435, R437, R438, R440) -/

/-- The bytes at a host bus address. -/
def State.hostBytes (s : State) (bus n : Nat) : List Byte := memReadBytes s.mem (2 ^ 51 + bus) n

def busOk (bus n : Nat) : Bool := decide (bus + n ≤ 2 ^ 51)

/-- CTXLOAD. An accepted update that waited for the last context to go has taken effect before a context is loaded (R402). -/
def execCtxload (fn : Nat) (ops : List Word) (s : State) : Out :=
  s.mailbox fn 0x0010 ops 1 fun s =>
    let s := s.applyUpdate
    if !busOk (opNat ops 1) 128 then s.badOp 1
    else
      let b := s.hostBytes (opNat ops 1) 128
      let d := descOf b
      if s.badDescriptor b then s.badOp 1
      else if (tfind d.ctx s.contexts).isSome then .next (s.respond (0x04060000 + d.ctx) [])
      else
        match s.badCluster d.ctx d.part with
        | some c => .next (s.respond (0x04050000 + c) [])
        | none => .next ((s.loadContext d).respond 0 [])

/-- A card of the context is held (R401). -/
def State.holdsCard (s : State) (n : Nat) : Bool := s.cards.any fun p => decide (p.2.ctx = n)

/-- What an ended context leaves behind: its writes on their way are still performed. -/
def State.leaveWrites (s : State) (n : Nat) : State :=
  let l := (s.flight.filter fun r => decide (r.ctx = n) && !r.reads).map fun r =>
    { r with pend := none, journal := none, holds := false, fill := false }
  let t := s.endContext n
  { t with flight := l ++ t.flight }

def execCtxend (fn : Nat) (ops : List Word) (s : State) : Out :=
  s.mailbox fn 0x0011 ops 2 fun s =>
    s.onContext ops fun n _ =>
      if 2 ≤ opNat ops 2 then s.badOp 2
      else if opNat ops 2 = 1 then .next ((s.terminate n 0 0).respond 0 [])
      else if s.holdsCard n then .next (s.respond 0x03010000 [])
      else .next ((s.leaveWrites n).respond 0 [])

def execCtxstop (fn : Nat) (ops : List Word) (s : State) : Out :=
  s.mailbox fn 0x0012 ops 2 fun s =>
    s.onContext ops fun n x =>
      if x.state = .saved then s.wrongState n
      else .next ((s.setStop n (if opNat ops 2 = 0 then s.time else opNat ops 2)).runs 0x12 n)

def execCtxresume (fn : Nat) (ops : List Word) (s : State) : Out :=
  s.mailbox fn 0x0013 ops 2 fun s =>
    s.onContext ops fun n x =>
      if 2 ≤ opNat ops 2 then s.badOp 2
      else
        match (if x.state = .saved then tfind (2 * n) s.saves else none) with
        | none => s.wrongState n
        | some r =>
          if r.wdog ∧ opNat ops 2 = 0 then s.wrongState n
          else
            match s.taken n r.part with
            | some c => .next (s.respond (0x04050000 + c) [])
            | none =>
              if r.intact then
                .next ((({ s with saves := terase (2 * n) s.saves } : State).resumeFrom n r).respond 0 [])
              else .next ((s.failContext n 0x3C9#10 0).respond 0 [])

def execCkpt (fn : Nat) (ops : List Word) (s : State) : Out :=
  s.mailbox fn 0x0014 ops 1 fun s =>
    s.onContext ops fun n x =>
      if x.state ≠ .running then s.wrongState n
      else
        .next (((s.setStop n s.time).mapCtx n fun y => { y with ckpt := some y.nextInterval }).runs 0x14 n)

def execRollback (fn : Nat) (ops : List Word) (s : State) : Out :=
  s.mailbox fn 0x0015 ops 2 fun s =>
    s.onContext ops fun n x =>
      if opNat ops 2 = 0 ∨ opNat ops 2 ≠ x.interval then s.badOp 2
      else
        match tfind (2 * n + 1) s.saves with
        | none => s.badOp 2
        | some r =>
          match s.taken n r.part with
          | some c => .next (s.respond (0x04050000 + c) [])
          | none =>
            if !r.intact then .next ((s.lostRecord n).respond 0 [])
            else .next ((s.rollback n x.interval 0 r x).respond 0 [])

/-- DEVCKPT: every partition stops, every context is saved, then the HBM is streamed. -/
def execDevckpt (fn : Nat) (ops : List Word) (s : State) : Out :=
  s.mailbox fn 0x0016 ops 3 fun s =>
    if 3 ≤ opNat ops 1 then s.badOp 1
    else if opNat ops 1 ≠ 1 ∧ !busOk (opNat ops 2) 0x6000000000 then s.badOp 2
    else if opNat ops 1 ≠ 0 ∧ !(decide (opNat ops 3 < 64) && s.peers.getLsbD (opNat ops 3)) then s.badOp 3
    else
      let t := s.contexts.foldl (fun t p => t.setStop p.1 s.time) s
      .next ((t.runs 0x16 64).deviceCheckpoint)

def execWdset (fn : Nat) (ops : List Word) (s : State) : Out :=
  s.mailbox fn 0x0060 ops 2 fun s =>
    s.onContext ops fun n _ =>
      if opNat ops 2 = 0 ∨ 1000 < opNat ops 2 then s.badOp 2
      else .next ((s.mapCtx n fun x => { x with wdp := opNat ops 2, rewritten := s.time }).respond 0 [])

/-! ## Agencies (R303, R388, R390, R398) -/

def keySlot (agency idx : Nat) : Nat := 16 * agency + idx

/-- The digest of a registered key: agency, index and public key (R392). -/
def keyDigest (agency idx : Nat) (key : List Byte) : BitVec 384 := sha384 (natBytes agency 2 ++ natBytes idx 1 ++ key)

def execKeyreg (fn : Nat) (ops : List Word) (s : State) : Out :=
  s.mailbox fn 0x0020 ops 3 fun s =>
    let a := opNat ops 1
    let i := opNat ops 2
    if 4096 ≤ a then s.badOp 1
    else if 16 ≤ i ∨ (tfind (keySlot a i) s.keys).isSome then s.badOp 2
    else if !busOk (opNat ops 3) 96 then s.badOp 3
    else
      let b := s.hostBytes (opNat ops 3) 96
      let key : BitVec 768 := BitVec.ofNat 768 (bytesNat b.reverse)
      .next
        ((({ s with keys := tset (keySlot a i) { key := key } s.keys } : State).extendMr 7 (keyDigest a i b)).respond 0 [])

def execKeyrev (fn : Nat) (ops : List Word) (s : State) : Out :=
  s.mailbox fn 0x0021 ops 2 fun s =>
    let a := opNat ops 1
    let i := opNat ops 2
    if 4096 ≤ a then s.badOp 1
    else
      match (if i < 16 then tfind (keySlot a i) s.keys else none) with
      | none => s.badOp 2
      | some k => .next (({ s with keys := tset (keySlot a i) { k with revoked := true } s.keys } : State).respond 0 [])

/-- The weight of an agency (R303). -/
def State.weigh (s : State) (ops : List Word) (body : Nat → State → Out) : Out :=
  let g := opNat ops 2
  if 4096 ≤ opNat ops 1 then s.badOp 1
  else if g = 0 ∨ 255 < g then s.badOp 2
  else body (opNat ops 1) { s with weights := tset (opNat ops 1) g s.weights }

def execAgassign (fn : Nat) (ops : List Word) (s : State) : Out :=
  s.mailbox fn 0x0022 ops 2 fun s =>
    s.weigh ops fun a s =>
      let other (r : Nat × Nat) : Bool := decide (r.1 / 16 ≠ a)
      .next (({ s with counters := s.counters.filter other, folded := s.folded.filter other } : State).respond 0 [])

def execAgweight (fn : Nat) (ops : List Word) (s : State) : Out :=
  s.mailbox fn 0x0023 ops 2 fun s => s.weigh ops fun _ s => .next (s.respond 0 [])

def execAcctsnap (fn : Nat) (ops : List Word) (s : State) : Out :=
  s.mailbox fn 0x0024 ops 2 fun s =>
    let bus := opNat ops 2
    if 4096 ≤ opNat ops 1 then s.badOp 1
    else if !busOk bus 192 then s.badOp 2
    else
      .next
        (({ s with
            mem := memWriteBytes s.mem (2 ^ 51 + bus) (s.snapshot (opNat ops 1))
            fresh := s.fresh + 1 } : State).respond 0 [BitVec.ofNat 64 s.folds])

/-! ## Queues and BAR4 (R294, R446) -/

/-- A descriptor word whose fields R294 allows. -/
def queueWordOk (w : Word) : Bool :=
  decide (wfield w 56 7 = 0) && decide (wfield w 0 11 = 0) &&
    (!wbit w 63 || (decide (1 ≤ wfield w 48 8) && decide (wfield w 48 8 ≤ 16)))

def execQset (fn : Nat) (ops : List Word) (s : State) : Out :=
  s.mailbox fn 0x0040 ops 4 fun s =>
    let q := opNat ops 1
    let w := opWord ops 2
    let base := opNat ops 3
    if 32768 ≤ q then s.badOp 1
    else if !queueWordOk w then s.badOp 2
    else if wbit w 63 && (tfind (wfield w 26 6) s.contexts).isNone then .next (s.respond (0x04040000 + wfield w 26 6) [])
    else if wbit w 63 && (decide (base % 128 ≠ 0) || !s.inMemory base (0x80 + 128 * 2 ^ wfield w 48 8)) then s.badOp 3
    else if 64 ≤ opNat ops 4 then s.badOp 4
    else
      .next
        ((s.setQueue q { desc := w, base := base, fn := opNat ops 4, h := memRead s.mem (base + 8) 4 }).respond 0 [])

/-- BARGRANT. A range over a disabled stack is granted too, and BAR4 accesses there act as on memory: the manual does not say
what they do (DESIGN CHOICE, log 72). -/
def execBargrant (fn : Nat) (ops : List Word) (s : State) : Out :=
  s.mailbox fn 0x0041 ops 3 fun s =>
    let f := opNat ops 1
    let base := opNat ops 2
    let size := opNat ops 3
    if 64 ≤ f then s.badOp 1
    else if !((List.range 10).any fun i => decide (size = 2 ^ (30 + i))) then s.badOp 3
    else if base % size ≠ 0 ∨ 0x6000000000 < base + size then s.badOp 2
    else .next (({ s with grants := tset f (base, size) s.grants } : State).respond 0 [])

/-! ## Futures (R305, R306) -/

/-- What f does to a context's futures is management's: its writes are not logged (R437). -/
def State.unlogged (s : State) (n : Nat) (f : State → State) : State :=
  let k := match tfind n s.contexts with | some x => x.interval | none => 0
  (f (s.mapCtx n fun x => { x with interval := 0 })).mapCtx n fun x => { x with interval := k }

/-- A command that would raise a cause if an instruction performed it. -/
def State.wouldRaise (s : State) (cause : Nat) : Out := .next (s.respond (0x06000000 + cause) [])

def execFutmake (fn : Nat) (ops : List Word) (s : State) : Out :=
  s.mailbox fn 0x0050 ops 2 fun s =>
    s.onContext ops fun n x =>
      let i := opNat ops 2
      if x.futures ≤ i then s.wouldRaise 0x300
      else if (s.fut n i).st ≠ 0 then s.wouldRaise 0x301
      else
        let t := (s.unlogged n fun s => (s.allocFut n i).1).mapCtx n fun y =>
          { y with freeFutures := y.freeFutures.filter fun j => j ≠ i }
        .next (t.respond 0 [BitVec.ofNat 64 (s.allocFut n i).2])

/-- A command that names a future in op2: invalid, then stale. -/
def State.onFuture (s : State) (n : Nat) (h : Nat) (body : FutEntry → Out) : Out :=
  if 2 ^ 32 ≤ h then s.badOp 2
  else if !s.validHandle n h then s.wouldRaise 0x300
  else if !s.current n h then s.wouldRaise 0x301
  else body (s.fut n (futIndex h))

def execFutput (fn : Nat) (ops : List Word) (s : State) : Out :=
  s.mailbox fn 0x0051 ops 3 fun s =>
    s.onContext ops fun n _ =>
      let h := opNat ops 2
      s.onFuture n h fun e =>
        if e.st ≠ 1 then s.wouldRaise 0x302
        else .next ((s.unlogged n fun s => s.settle [(n, futIndex h, 2, opNat ops 3)]).respond 0 [])

def execFutfree (fn : Nat) (ops : List Word) (s : State) : Out :=
  s.mailbox fn 0x0052 ops 2 fun s =>
    s.onContext ops fun n _ =>
      let h := opNat ops 2
      s.onFuture n h fun e =>
        if e.st = 1 ∧ e.nwait ≠ 0 then s.wouldRaise 0x303 
        else .next ((s.unlogged n fun s => s.freeFut n (futIndex h)).respond 0 [])

end Sys2Proof.Machine
end

