-- ==== Sys2Proof/Machine/Phase.lean ====
section
/-! DEFINITION. Schedules and transfer phases: the PHS instructions and the events of a phase (R338 to R343, R361). -/

namespace Sys2Proof.Machine

/-! ## Positions and links (R5, R6, R341) -/

/-- The neighbour of a cluster: 1 north, 2 east, 3 south, 4 west, off the edge none. -/
def neighbour (n dir : Nat) : Option Nat :=
  let x := n % 16
  let y := n / 16
  if dir = 1 then (if y = 0 then none else some (n - 16))
  else if dir = 2 then (if x = 15 then none else some (n + 1))
  else if dir = 3 then (if y = 9 then none else some (n + 16))
  else if dir = 4 then (if x = 0 then none else some (n - 1))
  else some n

/-- The side of the next router at which a beat arrives that left by a direction. -/
def opposite (dir : Nat) : Nat :=
  if dir = 1 then 3 else if dir = 2 then 4 else if dir = 3 then 1 else if dir = 4 then 2 else 5

/-- Slots that a hop takes (R341). -/
def hopSlots (n dir : Nat) : Nat :=
  if dir = 5 then 2 else if (dir = 2 ∧ n % 16 = 7) ∨ (dir = 4 ∧ n % 16 = 8) then 11 else 1

/-! ## Schedules (R338, R339) -/

/-- The output fields of a slot word: upper layer, low bit, direction (6: toward the ring). -/
def outputs : List (Bool × Nat × Nat) :=
  [(false, 0, 1), (false, 3, 2), (false, 6, 3), (false, 9, 4), (false, 12, 5), (false, 15, 6), (true, 26, 1), (true, 29, 2),
    (true, 32, 3), (true, 35, 4), (true, 38, 5)]

def slotLin (w : Word) : Nat := wfield w 18 4
def slotLout (w : Word) : Nat := wfield w 22 4

/-- The link of cluster n in a direction stays within the partition. -/
def State.linkIn (s : State) (d : Desc) (n dir : Nat) : Bool :=
  match neighbour n dir with
  | some m => s.inPart d m
  | none => false

/-- A slot word that R339 refuses, for cluster n of a partition. -/
def State.badSlot (s : State) (d : Desc) (n : Nat) (w : Word) : Bool :=
  decide (wfield w 41 23 ≠ 0) ||
    (outputs.any fun o =>
      let c := wfield w o.2.1 3
      decide (c ≠ 0) &&
        (decide (c = 7) || (o.1 && decide (c = 6)) || decide (c = o.2.2) || !s.linkIn d n c || !s.linkIn d n o.2.2)) ||
    (decide (slotLin w ≠ 0) && !outputs.any fun o => decide (wfield w o.2.1 3 = 6)) ||
    (decide (slotLout w ≠ 0) && decide (wfield w 15 3 = 0))

/-- A header word that R339 refuses. -/
def badHeader (w : Word) : Bool := decide (wfield w 9 23 ≠ 0) || decide (wfield w 0 9 = 0) || decide (256 < wfield w 0 9)

/-- XSEL (R338, R361). -/
def execXsel (a : Reg) (k : BitVec 2) (s : State) : Out :=
  let va := (s.src a 0).toNat
  s.issue { ss := [(a, 0)] }
    (s.ordered fun s =>
      if s.core.inPhase.isSome then s.trap 0x344#10 0#64
      else if va % 8 ≠ 0 then s.trap 0x340#10 0#64
      else
        match s.peekImage va 8 with
        | none => s.readImage true true va 8 fun s _ => s.stall
        | some h =>
          if badHeader (BitVec.ofNat 64 (bytesNat h)) then s.trap 0x340#10 0#64
          else
            s.readImage true true va (8 + 8 * (bytesNat h % 512)) fun s img =>
              let n := clusterOf s.cur
              let slots := (List.range (bytesNat h % 512)).map fun i => BitVec.ofNat 64 (imgNat img (8 + 8 * i) 8)
              match s.curCtx with
              | none => s.trap 0x340#10 0#64
              | some x =>
                if slots.any (s.badSlot x.desc n) then s.trap 0x340#10 0#64
                else
                  .next
                    (s.mapCluster n fun c =>
                      { c with schedules := tset k.toNat { tag := imgNat img 4 4, slots := slots } c.schedules }).advance)

/-! ## BARP and the start of a phase (R340) -/

/-- BARP: the core arrives, and waits for PHASE_START; one whose phase has begun while it was debug-stopped completes (R444). -/
def execBarp (k : BitVec 2) (s : State) : Out :=
  s.issue {}
    (s.ordered fun s =>
      if s.core.barpDone then .next s.advance
      else if s.core.inPhase.isSome then s.trap 0x342#10 0#64
      else (s.upd fun c => { c with barpAt := some k.toNat }).waits)

/-- The core's requests are answered, prefetches too, and its journal entries resolved. -/
def State.quietMesh (s : State) (c : CoreId) : Bool :=
  let k := s.getCore c
  k.outq.isEmpty && k.journalQuiet && k.pend.isEmpty && k.walk.isNone && (s.flight.all fun r => r.src ≠ c) &&
    s.answers.all fun a => a.dst ≠ c

/-- The NSLOT and TAG of a schedule. -/
def State.scheduleId (s : State) (n k : Nat) : Option (Nat × Nat) :=
  (tfind k (s.cluster n).schedules).map fun x => (x.slots.length, x.tag)

/-- Core c completes its BARP; a debug-stopped core stays at it, and its wait stays satisfied (R444). -/
def State.finishAt (s : State) (c : CoreId) : State :=
  if (s.getCore c).debugStopped then s.mapCore c fun k => { k with barpDone := true } else (s.focus c).advance

/-- The schedule whose phase every core of a context waits to begin, all of them drained. A stop that comes before the start
cancels the BARPs. -/
def State.barpReady (s : State) (ctx : Nat) : Option Nat :=
  match (if s.live ctx then s.coresOf ctx else []) with
  | [] => none
  | c :: l =>
    match (s.getCore c).barpAt with
    | none => none
    | some k =>
      if (c :: l).all fun c => (s.getCore c).barpAt = some k ∧ s.quietMesh c then some k else none

/-- Every core of the partition traps at its BARP. -/
def State.noSchedule (s : State) (cs : List CoreId) : State :=
  cs.foldl
    (fun t c =>
      let k := t.getCore c
      t.enterCore c 0x341#10 false (k.gang.map fun g => { s.stow g c with index := 0 }) k.pc k.pc k.pc 0#64)
    s

/-- PHASE_START: every core has reached BARP and its requests are answered; the schedules are checked, and the phase
starts or every core raises 0x341. -/
def execPhaseStart (ctx : Nat) (s : State) : Out :=
  match s.barpReady ctx with
  | none => .refused (.notEnabled "PHASE_START")
  | some k =>
    let cs := s.coresOf ctx
    let cl := s.partOf ctx
    let s := cs.foldl (fun t c => t.mapCore c fun x => { x with barpAt := none }) s
    match s.scheduleId (cl.headD 0) k with
    | some (n, tag) =>
      if cl.all fun c => s.scheduleId c k = some (n, tag) then
        let s := s.mapCtx ctx fun x => { x with phase := some { sched := k, nslot := n } }
        let s := cl.foldl (fun t c => t.mapCluster c fun x => { x with drops := 0 }) s
        let s := cs.foldl (fun t c => t.mapCore c fun x =>
          { x with inPhase := some k, unsent := 0, empty := 0, recvAt := [], recvBeats := [], xmitAt := [], xmitSent := false }) s
        .next ((cs.foldl State.finishAt s).focus s.cur)
      else .next (s.noSchedule cs)
    | none => .next (s.noSchedule cs)

/-! ## Slots (R341, R342) -/

/-- The beats present at an input of a router during slot t. -/
def Phase.at_ (p : Phase) (n : Nat) (upper : Bool) (input : Nat) : Option Vec :=
  (p.beats.find? fun b => b.slot = p.next && b.cluster = n && b.upper == upper && b.input = input).map fun b => b.data

/-- The slot word of cluster n for the present slot; no input feeds any output once the slots are over. -/
def State.slotWord (s : State) (p : Phase) (n : Nat) : Word :=
  match tfind p.sched (s.cluster n).schedules with
  | some x => x.slots.getD p.next 0#64
  | none => 0#64

/-- The beat at the input that a code names, in a layer of cluster n; the local input takes the beat of station LIN. -/
def State.input (s : State) (p : Phase) (n : Nat) (upper : Bool) (code lin : Nat) : Option Vec :=
  if code = 6 then tfind p.next (s.getCore (16 * n + lin)).xmitAt else p.at_ n upper code

/-- The XMIT of the present slot has sent its beat. -/
def Core.sendBeat (k : Core) (t : Nat) : Core :=
  if (tfind t k.xmitAt).isSome then { k with xmitAt := terase t k.xmitAt, xmitSent := true } else k

/-- What leaves the outputs of cluster n in the present slot, toward other routers. -/
def State.sends (s : State) (p : Phase) (n : Nat) : List Beat :=
  let w := s.slotWord p n
  outputs.filterMap fun o =>
    let dir := o.2.2
    if dir = 6 then none
    else
      match s.input p n o.1 (wfield w o.2.1 3) (slotLin w), neighbour n dir with
      | some v, some m =>
        if wfield w o.2.1 3 = 0 then none
        else
          some
            { slot := p.next + hopSlots n dir
              cluster := m
              upper := if dir = 5 then !o.1 else o.1
              input := opposite dir
              data := v }
      | _, _ => none

/-- Beats present in the present slot that no output of cluster n selects. -/
def State.unselected (s : State) (p : Phase) (n : Nat) : Nat :=
  let w := s.slotWord p n
  let taken (upper : Bool) (i : Nat) : Bool := outputs.any fun o => o.1 == upper && decide (wfield w o.2.1 3 = i)
  let passing := p.beats.filter fun b => b.slot = p.next && b.cluster = n && !taken b.upper b.input
  passing.length +
    (if (tfind p.next (s.getCore (16 * n + slotLin w)).xmitAt).isSome && !taken false 6 && decide (p.next < p.nslot) then 1
     else 0)

/-- The XRECVs of a core that wait for a slot take its beat, or zero, each counted (R342). -/
def Core.receive (k : Core) (t : Nat) (v : Option Vec) : Core :=
  let l := k.recvAt.filter fun r => r.1 = t
  let k := l.foldl (fun k r => k.fillV r.2 (v.getD 0#512)) k
  { k with
    recvAt := k.recvAt.filter fun r => r.1 ≠ t
    empty := k.empty + if v.isSome then 0 else l.length
    recvBeats := match v with | some x => tset t x k.recvBeats | none => k.recvBeats }

/-- The station of cluster n that the local output feeds in the present slot, with the beat. -/
def State.localOut (s : State) (p : Phase) (n : Nat) : Option (Nat × Vec) :=
  let w := s.slotWord p n
  if wfield w 15 3 = 0 then none
  else (s.input p n false (wfield w 15 3) (slotLin w)).map fun v => (slotLout w, v)

/-- TRANSFER_PHASE_SLOT: one slot of the phase of a context passes in every router of its partition. -/
def execTransferPhaseSlot (ctx : Nat) (s : State) : Out :=
  match (tfind ctx s.contexts).bind fun x => x.phase with
  | none => .refused (.notEnabled "TRANSFER_PHASE_SLOT")
  | some p =>
    if p.nslot + 48 ≤ p.next then .refused (.notEnabled "TRANSFER_PHASE_SLOT")
    else
      let cl := s.partOf ctx
      let sent := cl.flatMap (s.sends p)
      let outs := cl.map fun n => (n, s.localOut p n)
      let t := cl.foldl (fun t n => t.mapCluster n fun x => { x with drops := x.drops + s.unselected p n }) s
      let t :=
        outs.foldl
          (fun t o =>
            (List.range 16).foldl
              (fun t i =>
                t.mapCore (16 * o.1 + i) fun k =>
                  (k.sendBeat p.next).receive p.next
                    (match o.2 with | some (st, v) => if st = i then some v else none | none => none))
              t)
          t
      let beats := (p.beats.filter fun b => p.next < b.slot) ++ sent
      .next (t.mapCtx ctx fun x => { x with phase := some { p with next := p.next + 1, beats := beats } })

/-- PHASE_END: the end cycle E, 48 slots after the last (R343). -/
def execPhaseEnd (ctx : Nat) (s : State) : Out :=
  match (tfind ctx s.contexts).bind fun x => x.phase with
  | some p =>
    if p.nslot + 48 ≤ p.next then .next (s.mapCtx ctx fun x => { x with phase := none })
    else .refused (.notEnabled "PHASE_END")
  | none => .refused (.notEnabled "PHASE_END")

/-! ## XMIT, XRECV, XEND (R342, R343, R361) -/

/-- The checks of a slot number; the body gets the phase if it has not ended. -/
def State.inSlot (s : State) (t : Nat) (body : Option Phase → Out) : Out :=
  match s.core.inPhase with
  | none => s.trap 0x343#10 0#64
  | some k =>
    match s.scheduleId (clusterOf s.cur) k with
    | none => s.trap 0x343#10 0#64
    | some (n, _) => if n ≤ t then s.trap 0x343#10 0#64 else body (s.curCtx.bind fun x => x.phase)

/-- XMIT at slot t: the core stalls until the slot; too late, or at a station that is not LIN, the beat is not sent. -/
def State.xmitAtSlot (s : State) (t : Nat) (v : Vec) : Out :=
  s.inSlot t fun p =>
    let past := match p with | some p => decide (t < p.next) | none => true
    if s.core.xmitSent then .next (s.upd fun k => { k with xmitSent := false }).advance
    else if (tfind t s.core.xmitAt).isSome then s.waits
    else if past then .next (s.upd fun k => { k with unsent := k.unsent + 1 }).advance
    else
      match p with
      | some p =>
        if slotLin (s.slotWord { p with next := t } (clusterOf s.cur)) = stationOf s.cur then
          (s.upd fun k => { k with xmitAt := tset t v k.xmitAt }).waits
        else s.waits
      | none => s.waits

/-- XRECV at slot t: the name waits for the slot; a slot that has passed gives what it delivered to this station. -/
def State.xrecvAtSlot (s : State) (d : Reg) (t : Nat) : Out :=
  s.inSlot t fun p =>
    let past := match p with | some p => decide (t < p.next) | none => true
    if past then
      match tfind t s.core.recvBeats with
      | some v => .next (s.setV d v).advance
      | none => .next ((s.upd fun k => { k with empty := k.empty + 1 }).setV d 0#512).advance
    else .next (s.upd fun k => { k.emptyV d with recvAt := (t, d) :: k.recvAt }).advance

/-- The slot or beat index that two fields carry. -/
def slotIndex (h : Reg) (l : BitVec 3) : Nat := h.toNat * 8 + l.toNat

/-- The binding of a channel form: 0x345 unless it fits; the body gets the slot of beat m (R361). -/
def State.beatSlot (s : State) (c : BitVec 4) (dir m : Nat) (body : Nat → Out) : Out :=
  let b := s.core.binding c.toNat
  match s.core.inPhase with
  | none => s.trap 0x343#10 0#64
  | some k =>
    if bindKind b ≠ 2 ∨ bindDir b ≠ dir ∨ bindSzm1 b < m ∨ bindSched b ≠ k then s.trap 0x345#10 0#64
    else body (bindFirst b + m * bindStep b)

def execXmit (h b : Reg) (l : BitVec 3) (s : State) : Out :=
  let v := s.vsrc b 0
  s.issue { vs := [(b, 0)] } (s.ordered fun s => s.xmitAtSlot (slotIndex h l) v)

def execXmitCh (c : BitVec 4) (h b : Reg) (l : BitVec 3) (s : State) : Out :=
  let v := s.vsrc b 0
  s.issue { vs := [(b, 0)] }
    (s.ordered fun s => s.beatSlot c 0 (slotIndex h l) fun t => s.xmitAtSlot t v)

def execXrecv (d h : Reg) (l : BitVec 3) (s : State) : Out :=
  s.issue { dv := [d] } (s.ordered fun s => s.xrecvAtSlot d (slotIndex h l))

def execXrecvCh (d h : Reg) (c : BitVec 4) (l : BitVec 3) (s : State) : Out :=
  s.issue { dv := [d] }
    (s.ordered fun s => s.beatSlot c 1 (slotIndex h l) fun t => s.xrecvAtSlot d t)

/-- XEND: stalls until the phase has ended, then gives the core's counts. -/
def execXend (d : Reg) (s : State) : Out :=
  s.issue { ds := [d] }
    (s.ordered fun s =>
      if s.core.inPhase.isNone then s.trap 0x343#10 0#64
      else if (s.curCtx.bind fun x => x.phase).isSome then s.waits
      else
        let w : Word :=
          BitVec.ofNat 64
            (min (s.cluster (clusterOf s.cur)).drops 65535 * 2 ^ 32 + min s.core.empty 65535 * 2 ^ 16 +
              min s.core.unsent 65535)
        let s := s.upd fun k => { k with inPhase := none, xmitAt := [], xmitSent := false, recvAt := [], recvBeats := [] }
        .next (s.setS d w).advance)

end Sys2Proof.Machine
end

