-- ==== Sys2Proof/Machine/Scalar.lean ====
section
/-! DEFINITION. Integer register operations and immediate operations (R89 to R95). -/

namespace Sys2Proof.Machine

/-! ## The operations -/

def mulhS (a b : Word) : Word := BitVec.ofInt 64 (a.toInt * b.toInt / 2 ^ 64)
def mulhU (a b : Word) : Word := BitVec.ofNat 64 (a.toNat * b.toNat / 2 ^ 64)

/-- R90: quotients truncate toward zero; division by zero gives all ones. -/
def divS (a b : Word) : Word := if b = 0#64 then BitVec.allOnes 64 else BitVec.ofInt 64 (a.toInt.tdiv b.toInt)
def remS (a b : Word) : Word := if b = 0#64 then a else BitVec.ofInt 64 (a.toInt.tmod b.toInt)
def divU (a b : Word) : Word := if b = 0#64 then BitVec.allOnes 64 else BitVec.ofNat 64 (a.toNat / b.toNat)
def remU (a b : Word) : Word := if b = 0#64 then a else BitVec.ofNat 64 (a.toNat % b.toNat)

/-- The shift or rotate amount b[5:0]. -/
def amount (b : Word) : Nat := b.toNat % 64

/-- Leading zero bits below bit n. -/
def leadingZeros (a : Word) : Nat → Nat
  | 0 => 0
  | n + 1 => if a.getLsbD n then 0 else 1 + leadingZeros a n

/-- Trailing zero bits among bits 64 - n to 63. -/
def trailingZeros (a : Word) : Nat → Nat
  | 0 => 0
  | n + 1 => if a.getLsbD (63 - n) then 0 else 1 + trailingZeros a n

/-- The field that b places: its low bit and its length (R91). -/
def bfLo (b : Word) : Nat := b.toNat % 64
def bfLen (b : Word) : Nat := min (wfield b 8 7) (64 - bfLo b)

def bfExtract (a b : Word) : Word := BitVec.ofNat 64 (a.toNat / 2 ^ bfLo b % 2 ^ bfLen b)
def bfInsert (d a b : Word) : Word := wput d (bfLo b) (bfLen b) a.toNat

def sminW (a b : Word) : Word := if a.toInt ≤ b.toInt then a else b
def smaxW (a b : Word) : Word := if a.toInt ≤ b.toInt then b else a
def uminW (a b : Word) : Word := if a.toNat ≤ b.toNat then a else b
def umaxW (a b : Word) : Word := if a.toNat ≤ b.toNat then b else a

/-! ## IOP (R89) -/

def execAdd (d a : Reg) (da : Dist) (b : Reg) (db : Dist) (s : State) : Out :=
  s.form2 d a da.toNat b db.toNat fun x y => x + y
def execSub (d a : Reg) (da : Dist) (b : Reg) (db : Dist) (s : State) : Out :=
  s.form2 d a da.toNat b db.toNat fun x y => x - y
def execMul (d a : Reg) (da : Dist) (b : Reg) (db : Dist) (s : State) : Out :=
  s.form2 d a da.toNat b db.toNat fun x y => x * y
def execMulh (d a : Reg) (da : Dist) (b : Reg) (db : Dist) (s : State) : Out := s.form2 d a da.toNat b db.toNat mulhS
def execMulhu (d a : Reg) (da : Dist) (b : Reg) (db : Dist) (s : State) : Out := s.form2 d a da.toNat b db.toNat mulhU
def execMadd (d a : Reg) (da : Dist) (b : Reg) (db : Dist) (s : State) : Out :=
  s.form3 d a da.toNat b db.toNat fun z x y => z + x * y
def execDiv (d a : Reg) (da : Dist) (b : Reg) (db : Dist) (s : State) : Out := s.form2 d a da.toNat b db.toNat divS
def execDivu (d a : Reg) (da : Dist) (b : Reg) (db : Dist) (s : State) : Out := s.form2 d a da.toNat b db.toNat divU
def execRem (d a : Reg) (da : Dist) (b : Reg) (db : Dist) (s : State) : Out := s.form2 d a da.toNat b db.toNat remS
def execRemu (d a : Reg) (da : Dist) (b : Reg) (db : Dist) (s : State) : Out := s.form2 d a da.toNat b db.toNat remU
def execAnd (d a : Reg) (da : Dist) (b : Reg) (db : Dist) (s : State) : Out :=
  s.form2 d a da.toNat b db.toNat fun x y => x &&& y
def execOr (d a : Reg) (da : Dist) (b : Reg) (db : Dist) (s : State) : Out :=
  s.form2 d a da.toNat b db.toNat fun x y => x ||| y
def execXor (d a : Reg) (da : Dist) (b : Reg) (db : Dist) (s : State) : Out :=
  s.form2 d a da.toNat b db.toNat fun x y => x ^^^ y
def execAndn (d a : Reg) (da : Dist) (b : Reg) (db : Dist) (s : State) : Out :=
  s.form2 d a da.toNat b db.toNat fun x y => x &&& ~~~y
def execShl (d a : Reg) (da : Dist) (b : Reg) (db : Dist) (s : State) : Out :=
  s.form2 d a da.toNat b db.toNat fun x y => x <<< amount y
def execShr (d a : Reg) (da : Dist) (b : Reg) (db : Dist) (s : State) : Out :=
  s.form2 d a da.toNat b db.toNat fun x y => x >>> amount y
def execSra (d a : Reg) (da : Dist) (b : Reg) (db : Dist) (s : State) : Out :=
  s.form2 d a da.toNat b db.toNat fun x y => x.sshiftRight (amount y)
def execRol (d a : Reg) (da : Dist) (b : Reg) (db : Dist) (s : State) : Out :=
  s.form2 d a da.toNat b db.toNat fun x y => x.rotateLeft (amount y)
def execMin (d a : Reg) (da : Dist) (b : Reg) (db : Dist) (s : State) : Out := s.form2 d a da.toNat b db.toNat sminW
def execMax (d a : Reg) (da : Dist) (b : Reg) (db : Dist) (s : State) : Out := s.form2 d a da.toNat b db.toNat smaxW
def execMinu (d a : Reg) (da : Dist) (b : Reg) (db : Dist) (s : State) : Out := s.form2 d a da.toNat b db.toNat uminW
def execMaxu (d a : Reg) (da : Dist) (b : Reg) (db : Dist) (s : State) : Out := s.form2 d a da.toNat b db.toNat umaxW
def execSlt (d a : Reg) (da : Dist) (b : Reg) (db : Dist) (s : State) : Out :=
  s.form2 d a da.toNat b db.toNat fun x y => bool64 (x.slt y)
def execSltu (d a : Reg) (da : Dist) (b : Reg) (db : Dist) (s : State) : Out :=
  s.form2 d a da.toNat b db.toNat fun x y => bool64 (x.ult y)
def execSeq (d a : Reg) (da : Dist) (b : Reg) (db : Dist) (s : State) : Out :=
  s.form2 d a da.toNat b db.toNat fun x y => bool64 (x == y)
def execClz (d a : Reg) (da : Dist) (s : State) : Out :=
  s.form1 d a da.toNat fun x => BitVec.ofNat 64 (leadingZeros x 64)
def execCtz (d a : Reg) (da : Dist) (s : State) : Out :=
  s.form1 d a da.toNat fun x => BitVec.ofNat 64 (trailingZeros x 64)
def execPopc (d a : Reg) (da : Dist) (s : State) : Out :=
  s.form1 d a da.toNat fun x => BitVec.ofNat 64 (popCount x.toNat 64)
def execSextb (d a : Reg) (da : Dist) (s : State) : Out := s.form1 d a da.toNat fun x => sextTo x.toNat 8
def execSexth (d a : Reg) (da : Dist) (s : State) : Out := s.form1 d a da.toNat fun x => sextTo x.toNat 16
def execSextw (d a : Reg) (da : Dist) (s : State) : Out := s.form1 d a da.toNat fun x => sextTo x.toNat 32
def execBfx (d a : Reg) (da : Dist) (b : Reg) (db : Dist) (s : State) : Out := s.form2 d a da.toNat b db.toNat bfExtract
def execBfi (d a : Reg) (da : Dist) (b : Reg) (db : Dist) (s : State) : Out := s.form3 d a da.toNat b db.toNat bfInsert
def execSel (d a : Reg) (da : Dist) (b : Reg) (db : Dist) (s : State) : Out :=
  s.form3 d a da.toNat b db.toNat fun z x y => if z = 0#64 then y else x
def execAddw (d a : Reg) (da : Dist) (b : Reg) (db : Dist) (s : State) : Out :=
  s.form2 d a da.toNat b db.toNat fun x y => sextTo (x + y).toNat 32
def execSubw (d a : Reg) (da : Dist) (b : Reg) (db : Dist) (s : State) : Out :=
  s.form2 d a da.toNat b db.toNat fun x y => sextTo (x - y).toNat 32

/-! ## Immediates (R92 to R95) -/

def execAddi (d a : Reg) (da : Dist) (i : BitVec 14) (s : State) : Out :=
  s.form1 d a da.toNat fun x => x + i.signExtend 64
def execAndi (d a : Reg) (da : Dist) (i : BitVec 14) (s : State) : Out :=
  s.form1 d a da.toNat fun x => x &&& i.signExtend 64
def execOri (d a : Reg) (da : Dist) (i : BitVec 14) (s : State) : Out :=
  s.form1 d a da.toNat fun x => x ||| i.signExtend 64
def execXori (d a : Reg) (da : Dist) (i : BitVec 14) (s : State) : Out :=
  s.form1 d a da.toNat fun x => x ^^^ i.signExtend 64
def execSlti (d a : Reg) (da : Dist) (i : BitVec 14) (s : State) : Out :=
  s.form1 d a da.toNat fun x => bool64 (x.slt (i.signExtend 64))
def execSltiu (d a : Reg) (da : Dist) (i : BitVec 14) (s : State) : Out :=
  s.form1 d a da.toNat fun x => bool64 (x.ult (i.signExtend 64))
def execShli (d a : Reg) (da : Dist) (n : BitVec 6) (s : State) : Out := s.form1 d a da.toNat fun x => x <<< n.toNat
def execShri (d a : Reg) (da : Dist) (n : BitVec 6) (s : State) : Out := s.form1 d a da.toNat fun x => x >>> n.toNat
def execSrai (d a : Reg) (da : Dist) (n : BitVec 6) (s : State) : Out :=
  s.form1 d a da.toNat fun x => x.sshiftRight n.toNat
def execRori (d a : Reg) (da : Dist) (n : BitVec 6) (s : State) : Out :=
  s.form1 d a da.toNat fun x => x.rotateRight n.toNat
def execLui (d : Reg) (i : BitVec 21) (s : State) : Out := s.form0 d (i.signExtend 64 <<< 14)
def execAdpc (d : Reg) (i : BitVec 21) (s : State) : Out := s.form0 d (s.core.pc + (i.signExtend 64 <<< 2))
/-- With z = 1 INSI does not read d (R95). -/
def execInsi (d : Reg) (p : BitVec 2) (z : BitVec 1) (i : BitVec 16) (s : State) : Out :=
  if z = 1#1 then s.form0 d (i.zeroExtend 64 <<< (16 * p.toNat))
  else s.form1 d d 0 fun x => wput x (16 * p.toNat) 16 i.toNat

end Sys2Proof.Machine
end

