-- ==== Sys2Proof/Machine/Sync.lean ====
section
/-! DEFINITION. Barriers, sleep, wake and time: the SYN instructions (R362 to R365). -/

namespace Sys2Proof.Machine

def State.barrier (s : State) (cl n : Nat) : Barrier := tget n (s.cluster cl).barriers {}
def State.setBarrier (s : State) (cl n : Nat) (b : Barrier) : State :=
  s.mapCluster cl fun k => { k with barriers := tset n b k.barriers }

/-- The bit of a station. -/
def stationBit (c : CoreId) : BitVec 16 := BitVec.ofNat 16 (2 ^ stationOf c)

/-- The mask omits the own station or names a station without an enabled core of the context. -/
def State.badMask (s : State) (q : BitVec 16) : Bool :=
  !q.getLsbD (stationOf s.cur) ||
    (List.range 16).any fun i => q.getLsbD i && !s.isPeer (16 * clusterOf s.cur + i)

/-- An arrival: when every station of the mask has arrived the generation completes. -/
def Barrier.arrive (b : Barrier) (q bit : BitVec 16) : Barrier :=
  let b := { b with mask := if b.arrived = 0#16 then q else b.mask, arrived := b.arrived ||| bit }
  if b.arrived &&& b.mask = b.mask then { b with arrived := 0#16, gen := b.gen + 1 } else b

/-- The checks of an arrival, then the release at CLU scope, then the arrival (R363, R364). -/
def State.arriveAt (s : State) (n : Nat) (q : BitVec 16) (body : Barrier → Out) : Out :=
  let b := s.barrier (clusterOf s.cur) n
  if s.badMask q then s.trap 0x349#10 0#64
  else if b.arrived ≠ 0#16 ∧ b.mask ≠ q then s.trap 0x348#10 0#64
  else s.released .clu (body (b.arrive q (stationBit s.cur)))

/-- BAR goes on, or waits while its arrival stands in the current generation. -/
def State.barEnd (s : State) (n : Nat) (b : Barrier) : Out :=
  let bit := stationBit s.cur
  if b.arrived &&& bit = 0#16 then
    .next
      ((s.setBarrier (clusterOf s.cur) n
        { b with pending := b.pending &&& ~~~bit, waiting := b.waiting &&& ~~~bit }).acquired .clu).advance
  else (s.setBarrier (clusterOf s.cur) n { b with waiting := b.waiting ||| bit }).waits

def execBar (a : Reg) (n : BitVec 2) (s : State) : Out :=
  let q := (s.src a 0).truncate 16
  s.issue { ss := [(a, 0)] }
    (s.ordered fun s =>
      let b := s.barrier (clusterOf s.cur) n.toNat
      if (b.pending ||| b.waiting) &&& stationBit s.cur ≠ 0#16 then s.barEnd n.toNat b
      else (s.upd fun k => { k with arriving := true }).arriveAt n.toNat q fun b => s.barEnd n.toNat b)

def execBarnw (a : Reg) (n : BitVec 2) (s : State) : Out :=
  let q := (s.src a 0).truncate 16
  let bit := stationBit s.cur
  s.issue { ss := [(a, 0)] }
    (s.ordered fun s =>
      if (s.barrier (clusterOf s.cur) n.toNat).pending &&& bit ≠ 0#16 then s.trap 0x349#10 0#64
      else
        s.arriveAt n.toNat q fun b =>
          .next (s.setBarrier (clusterOf s.cur) n.toNat { b with pending := b.pending ||| bit }).advance)

/-- SLEEP returns x. -/
def State.sleepEnd (s : State) (d : Reg) (x : Word) (wake : Bool) : Out :=
  .next ((s.upd fun k => { k with wake := wake, slept := false, sleepUntil := none }).setS d x).advance

def execSleep (d a : Reg) (s : State) : Out :=
  let t := (s.src a 0).toNat
  s.issue { ss := [(a, 0)], ds := [d] }
    (s.ordered fun s =>
      if s.core.slept then s.sleepEnd d 0#64 s.core.wake
      else if s.core.wake then s.sleepEnd d 1#64 false
      else if t ≠ 0 ∧ t ≤ s.time then s.sleepEnd d 0#64 false
      else (s.upd fun k => { k with sleepUntil := some t }).waits)

/-- SLEEP_DEADLINE: the deadline of core c's SLEEP is reached while its wake bit is clear. -/
def execSleepDeadline (c : Nat) (s : State) : Out :=
  let k := s.getCore c
  match k.sleepUntil with
  | some t =>
    if t ≠ 0 ∧ t ≤ s.time ∧ !k.wake ∧ !k.slept then .next (s.setCore c { k with slept := true })
    else .refused (.notEnabled "SLEEP_DEADLINE")
  | none => .refused (.notEnabled "SLEEP_DEADLINE")

def execWake (a : Reg) (s : State) : Out :=
  let c := wfield (s.src a 0) 0 12
  s.issue { ss := [(a, 0)] }
    (s.ordered fun s =>
      if s.isPeer c then .next (s.mapCore c fun k => { k with wake := true }).advance else s.trap 0x34A#10 0#64)

def execTime (d : Reg) (s : State) : Out :=
  s.issue { ds := [d] } (s.ordered fun s => .next (s.setS d (BitVec.ofNat 64 s.time)).advance)

end Sys2Proof.Machine
end

