-- ==== Sys2Proof/Machine/Bind.lean ====
section
/-! DEFINITION. What the translator places, binds and patches: the resources of an object, its virtual cores, its channels and
its relocation records (R66 to R69, R346, R399 steps 8 to 10, R400). -/

namespace Sys2Proof.Machine

/-! ## Resources (R66, R400) -/

/-- The ranges of R66, in key order. -/
def resourceOk (i v : Nat) : Bool :=
  if i = 0 then decide (128 ≤ v) && decide (v ≤ 512) && decide (v % 64 = 0)
  else decide (v ≤ [0, 4, 4, 4, 1, 8, 16, 65536, 1].getD i 0)

/-- A declared resource, or its default. -/
def plResource (p : Placement) (i : Nat) : Nat := p.resources.getD i (if i = 0 then 128 else 0)

/-- Step 8 of R399: the first resource outside its range. -/
def plStep8 (p : Placement) : Option Nat := (List.range 9).find? fun i => !resourceOk i (plResource p i)

end Sys2Proof.Machine

namespace Sys2Proof

open Machine

/-! ## Virtual cores (R44, R67) -/

/-- A group asks for whole gangs of a width that exists. What a count that is no multiple of the width means R67 does not say;
the object is refused at step 9 with that group (DESIGN CHOICE, log 9). -/
def VGroup.shaped (g : VGroup) : Bool :=
  decide (g.gang = 0) || ([2, 4, 8, 16].contains g.gang && decide (g.count % g.gang = 0))

end Sys2Proof

namespace Sys2Proof.Machine

/-- Step 9 of R399: the first group that cannot stand in the partition. A group of count c occupies c of its cores, 16 on each
enabled cluster; gangs of two, four, eight and sixteen always pack, so the cores need only be enough. That an object of two
kernels needs the cores of both is read from "the groups together must fit the partition" (R67, DEDUCED, log 73). -/
def State.plStep9 (s : State) (x : Context) (p : Placement) : Option Nat :=
  let room := 16 * ((List.range 160).filter fun c => s.inPart x.desc c).length
  (List.range p.groups.length).find? fun i =>
    (p.groups.take (i + 1)).any (fun g => !g.shaped) || decide (room < ((p.groups.take (i + 1)).map (·.count)).sum)

end Sys2Proof.Machine

namespace Sys2Proof

open Machine

/-- The cores of a group stand side by side in aligned gangs. -/
def VGroup.aligned (g : VGroup) : Bool :=
  decide (g.gang = 0) ||
    (List.range g.count).all fun i =>
      let lead := g.cores.getD (i / g.gang * g.gang) 0
      decide (lead % g.gang = 0) && decide (g.cores.getD i 0 = lead + i % g.gang)

end Sys2Proof

namespace Sys2Proof.Machine

/-- The translator's choice of cores is one that R44 and R67 allow: enabled cores of the partition, no core twice, not even for
the groups of two kernels (DEDUCED from "the groups together must fit the partition", log 73). -/
def State.placed (s : State) (x : Context) (p : Placement) : Bool :=
  let cores := p.groups.flatMap (·.cores)
  decide cores.Nodup && (cores.all fun c => s.inPart x.desc (clusterOf c)) &&
    p.groups.all fun g => decide (g.cores.length = g.count) && g.aligned

end Sys2Proof.Machine

namespace Sys2Proof

open Machine

/-- The core of a virtual core, by group and index. -/
def Placement.coreOf (p : Placement) (v : Nat × Nat) : Option CoreId :=
  (p.groups[v.1]?).bind fun g => if v.2 < g.count then g.cores[v.2]? else none

/-! ## Channels (R67, R68, R346) -/

/-- A declaration within R67: the message size, the depth, two ends that exist. -/
def ChanDecl.declared (c : ChanDecl) (p : Placement) : Bool :=
  decide (c.bytes % 64 = 0) && decide (64 ≤ c.bytes) && decide (c.bytes ≤ 4096) && decide (1 ≤ c.depth) &&
    decide (c.depth ≤ 64) && (p.coreOf c.sender).isSome && (p.coreOf c.receiver).isSome && decide (c.sender ≠ c.receiver)

def ChanDecl.endsAt (c : ChanDecl) (v : Nat × Nat) : Bool := decide (c.sender = v) || decide (c.receiver = v)

/-- Two channels have an end at one core. -/
def ChanDecl.meets (c d : ChanDecl) : Bool := c.endsAt d.sender || c.endsAt d.receiver

/-- No virtual core is an end of more channels than 16, or than the channels key says. -/
def Placement.channelsFit (p : Placement) : Bool :=
  p.channels.all fun c =>
    [c.sender, c.receiver].all fun v => decide ((p.channels.filter fun d => d.endsAt v).length ≤ Nat.min 16 (plResource p 6))

end Sys2Proof

namespace Sys2Proof.Machine

/-- Some assignment of indices gives channels that meet different ones. -/
def assignable : List ChanDecl → List (ChanDecl × Nat) → Bool
  | [], _ => true
  | c :: l, done =>
    (List.range 16).any fun i => !(done.any fun d => decide (d.2 = i) && c.meets d.1) && assignable l ((c, i) :: done)

end Sys2Proof.Machine

namespace Sys2Proof

open Machine

/-- The bytes of the receiver's scratchpad that a channel takes: its ring, its counters. -/
def ChanDecl.takes (c : ChanDecl) : List (Nat × Nat) :=
  match c.kind with
  | .buffer buf ctr => [(buf, c.bytes * c.depth), (ctr, 16)]
  | .phase _ _ _ => []

/-- The slot of the last beat of a message on a phase channel (R346). -/
def ChanDecl.lastBeat (c : ChanDecl) (first step : Nat) : Nat := first + (c.bytes / 64 - 1) * step

/-- A binding whose fields R346 allows: the slots of a phase binding exist. -/
def ChanDecl.bound (c : ChanDecl) (p : Placement) : Bool :=
  decide (c.index < 16) && (c.takes.all fun r => decide (r.1 + r.2 ≤ 1024 * plResource p 0)) &&
    match c.kind with
    | .buffer buf ctr => decide (buf % 64 = 0) && decide (ctr % 16 = 0) && !overlaps buf (c.bytes * c.depth) ctr 16
    | .phase sched first step =>
      decide (sched < 4) && decide (1 ≤ step) && decide (step < 256) && decide (c.lastBeat first step < 256)

/-- Two channels keep apart: another index where they meet, other bytes where they have one receiver. -/
def ChanDecl.apart (c d : ChanDecl) : Bool :=
  (!c.meets d || decide (c.index ≠ d.index)) &&
    (decide (c.receiver ≠ d.receiver) || c.takes.all fun r => d.takes.all fun q => !overlaps r.1 r.2 q.1 q.2)

end Sys2Proof

namespace Sys2Proof.Machine

/-- A phase binding fits the schedules that the partition's routers hold by then (R346). -/
def State.phasesFit (s : State) (x : Context) (p : Placement) : Bool :=
  p.channels.all fun c =>
    match c.kind with
    | .buffer _ _ => true
    | .phase k first step =>
      (List.range 160).all fun n =>
        !s.inPart x.desc n ||
          match tfind k (s.cluster n).schedules with
          | some q => decide (c.lastBeat first step < q.slots.length)
          | none => true

/-- The translator's bindings are such that R68 and R346 allow them. -/
def boundApart (p : Placement) : List ChanDecl → Bool
  | [] => true
  | c :: l => c.bound p && l.all c.apart && boundApart p l

end Sys2Proof.Machine

namespace Sys2Proof

open Machine

/-- The two words of a channel's binding at the end of direction dir, whose peer is the other end (R346). -/
def ChanDecl.words (c : ChanDecl) (dir : Nat) (peer : CoreId) : Word × Word :=
  let w (kind : Nat) : Nat := kind * 2 ^ 60 + peer * 2 ^ 48 + dir * 2 ^ 44 + (c.bytes / 64 - 1) * 2 ^ 32 + (c.depth - 1) * 2 ^ 26
  match c.kind with
  | .buffer buf ctr => (BitVec.ofNat 64 (w 1 + buf), BitVec.ofNat 64 ctr)
  | .phase sched first step => (BitVec.ofNat 64 (w 2), BitVec.ofNat 64 (sched * 2 ^ 56 + step * 2 ^ 40 + first * 2 ^ 32))

end Sys2Proof

namespace Sys2Proof.Machine

/-- The binding entries of a placement, by core and index: both ends of a channel under its one index. -/
def plBindings (p : Placement) : Tab (Tab (Word × Word)) :=
  let put (t : Tab (Tab (Word × Word))) (core i : Nat) (b : Word × Word) := tset core (tset i b (tget core t [])) t
  p.channels.foldl
    (fun t c =>
      let a := (p.coreOf c.sender).getD 0
      let b := (p.coreOf c.receiver).getD 0
      put (put t a c.index (c.words 0 b)) b c.index (c.words 1 a))
    []

/-! ## Relocation (R68, R69) -/

def wordAt (text : List Byte) (at_ : Nat) : Word32 := BitVec.ofNat 32 (imgNat text at_ 4)

/-- A field of a word with a new value, none where the value does not fit. -/
def patchField (w : Word32) (lo len v : Nat) : Option Word32 :=
  if v < 2 ^ len then some (BitVec.ofNat 32 (w.toNat - field w.toNat lo len * 2 ^ lo + v * 2 ^ lo)) else none

/-- %coreid stands in imm14 of ADDI or ORI, or in imm16 of INSI. -/
def patchCoreid (w : Word32) (v : Nat) : Option Word32 :=
  let prim := field w.toNat 26 6
  if prim = 2 ∨ prim = 4 then patchField w 0 14 v else if prim = 11 then patchField w 0 16 v else none

/-- Lane q of the four INSI words of an LI: the first clears the rest, and all have one destination. -/
def patchLane (first w : Word32) (q v : Nat) : Option Word32 :=
  let n := w.toNat
  if field n 26 6 = 11 ∧ field n 19 2 = q ∧ field n 16 3 = (if q = 0 then 4 else 0) ∧
      field n 21 5 = field first.toNat 21 5 then
    patchField w 0 16 (field v (16 * q) 16)
  else none

/-- %chan stands in the binding field of a CHN word, or of an XMIT or XRECV on a channel. -/
def patchChan (w : Word32) (v : Nat) : Option Word32 :=
  let n := w.toNat
  if field n 26 6 = 36 then patchField w 11 4 v
  else if field n 26 6 = 37 ∧ field n 3 1 = 1 then
    if field n 4 7 = 2 then patchField w 21 4 v else if field n 4 7 = 3 then patchField w 11 4 v else none
  else none

end Sys2Proof.Machine

namespace Sys2Proof

open Machine

/-- The words that a record changes, by offset; none where R69 refuses it. -/
def Reloc.patches (r : Reloc) (p : Placement) (text : List Byte) : Option (List (Nat × Word32)) :=
  match r with
  | .coreid at_ g i => (p.coreOf (g, i)).bind fun c => (patchCoreid (wordAt text at_) c).map fun w => [(at_, w)]
  | .lmaddr at_ g i off =>
    (p.coreOf (g, i)).bind fun c =>
      let v := 0x0E00000000000000 + c * 0x80000 + off
      if 2 ^ 64 ≤ v then none
      else
        let first := wordAt text at_
        (List.range 4).mapM fun q => (patchLane first (wordAt text (at_ + 4 * q)) q v).map fun w => (at_ + 4 * q, w)
  | .chan at_ c => (p.channels[c]?).bind fun d => (patchChan (wordAt text at_) d.index).map fun w => [(at_, w)]

end Sys2Proof

namespace Sys2Proof.Machine

/-- The text with some words replaced; none where one lies outside it. -/
def patchText (b : List Byte) : List (Nat × Word32) → Option (List Byte)
  | [] => some b
  | (at_, w) :: l =>
    if at_ % 4 = 0 ∧ at_ + 4 ≤ b.length then patchText (b.take at_ ++ natBytes w.toNat 4 ++ b.drop (at_ + 4)) l else none

/-- The records applied in order to the text, or the index of the first that is refused. -/
def relocate (p : Placement) : List Reloc → Nat → List Byte → Except Nat (List Byte)
  | [], _, b => .ok b
  | r :: l, n, b =>
    match (r.patches p b).bind (patchText b) with
    | some b => relocate p l (n + 1) b
    | none => .error n

/-! ## Places in memory (R399) -/

/-- The pages that a table at base maps over the levels left, with the virtual address of each, which has lead in the higher
bits, its frame and its size; a valid entry is odd. -/
def State.mappedFrom (s : State) (base lead : Nat) : List (Nat × Nat × Nat) → List (Nat × Nat × Nat)
  | [] => []
  | (_, lo, len) :: rest =>
    (s.mem.filter fun c =>
        decide (base ≤ c.1) && decide (c.1 < base + 8 * 2 ^ len) && decide ((c.1 - base) % 8 = 0) && c.2.getLsbD 0).flatMap
      fun c =>
        let e : Word := BitVec.ofNat 64 (memRead s.mem c.1 8)
        let va := lead + (c.1 - base) / 8 * 2 ^ lo
        if wbit e 1 then [(va, wfield e 16 36 * 65536, 2 ^ lo)] else s.mappedFrom (wfield e 8 44 * 256) va rest

/-- The tables of a walk from base over the levels left: address and size. -/
def State.tablesFrom (s : State) (base : Nat) : List (Nat × Nat × Nat) → List (Nat × Nat)
  | [] => []
  | (_, _, len) :: rest =>
    (base, 8 * 2 ^ len) ::
      (s.mem.filter fun c =>
          decide (base ≤ c.1) && decide (c.1 < base + 8 * 2 ^ len) && decide ((c.1 - base) % 8 = 0) && c.2.getLsbD 0).flatMap
        fun c =>
          let e : Word := BitVec.ofNat 64 (memRead s.mem c.1 8)
          if wbit e 1 then [] else s.tablesFrom (wfield e 8 44 * 256) rest

def Desc.rootAt (d : Desc) : Nat := wfield d.root 15 37 * 2 ^ 15

/-- What a resident context has in memory beside the pages that it maps: its tables, its futures, its notification queue, its
access counters and its launch images. -/
def State.holdings (s : State) (x : Context) : List (Nat × Nat) :=
  s.tablesFrom x.desc.rootAt walkLevels ++ (x.images.flatMap fun i => i.parts) ++
    [(x.desc.futbase, 32 * max x.desc.futn x.futures), (x.desc.nqbase, 0x80 + 16 * 2 ^ x.desc.nqlog),
      (x.desc.actab, 2 * x.desc.acn)]

/-- The rings of the enabled work queues (R294). -/
def State.queueRings (s : State) : List (Nat × Nat) :=
  (s.queues.filter fun q => wbit q.2.desc 63).map fun q => (q.2.base, 0x80 + 128 * 2 ^ wfield q.2.desc 48 8)

/-- A load never changes a running context (R399): the parts of an image, each with its virtual address, frame and length,
lie in memory, apart from each other, from all that a resident context holds, from every work queue, and from every page
that a context maps, but for pages that the loading context maps at the part's own addresses. -/
def State.partsFree (s : State) (n : Nat) (parts : List (Nat × Nat × Nat)) : Bool :=
  let free (a : Nat × Nat × Nat) (l : List (Nat × Nat)) : Bool := l.all fun b => !overlaps a.2.1 a.2.2 b.1 b.2
  (parts.all fun a => s.inMemory a.2.1 a.2.2 && free a s.queueRings) &&
    ((List.range parts.length).all fun i =>
      match parts[i]? with
      | some a => (parts.drop (i + 1)).all fun b => !overlaps a.2.1 a.2.2 b.2.1 b.2.2
      | none => true) &&
    s.contexts.all fun q =>
      parts.all fun a =>
        free a (s.holdings q.2) &&
          (s.mappedFrom q.2.desc.rootAt 0 walkLevels).all fun b =>
            !overlaps a.2.1 a.2.2 b.2.1 b.2.2 || (decide (q.1 = n) && overlaps a.1 a.2.2 b.1 b.2.2)

end Sys2Proof.Machine
end

