-- ==== Sys2Proof/Machine/Trust.lean ====
section
/-! DEFINITION. Start-up, measurements and SPDM, the loading and unloading of code objects, and firmware updates (R81, R83,
R85, R392 to R402, R449, R454, R455). -/

namespace Sys2Proof.Machine

/-! ## Measured boot (R392, R393, R449, R454) -/

/-- The stages of a boot in order: measurement register, and stack for the base-die firmware of each enabled stack. -/
def State.bootStages (s : State) : List (Nat × Nat) :=
  [(0, 0), (1, 0), (2, 0), (3, 0), (4, 0)] ++ ((List.range 8).filter fun i => s.stmap.getLsbD i).map fun i => (5, i)

/-- The digest that a stage's measurement extends: of the translator, of the stores, or of firmware that the model does not
hold. -/
def State.stageMeasure (s : State) (p : Nat × Nat) : BitVec 384 :=
  if p.1 = 3 then sha384 s.translator
  else if p.1 = 4 then sha384 (storeBytes s.microcode s.dispatch)
  else Config.stageDigest p.1 p.2

/-- Each stage is measured, then verified; the first that fails halts the device in recovery (R393). -/
def State.bootFrom (s : State) : List (Nat × Nat) → State
  | [] => { s with bootst := 0x8000000000000000#64 ||| BitVec.ofNat 64 (s.svn % 2 ^ 32) }
  | p :: l =>
    let t := s.extendMr p.1 (s.stageMeasure p)
    if Config.stageVerifies p.1 (s.stageMeasure p) s.svn then t.bootFrom l
    else { t with bootst := BitVec.ofNat 64 (2 ^ 62 + p.1 * 2 ^ 59 + s.svn % 2 ^ 32) }

/-- What a reset leaves: the fuses, the firmware in its store, and the memory of the host and of peers. -/
def State.powerOn (s : State) : State :=
  { State.reset with
    clmap := s.clmap
    stmap := s.stmap
    lkmap := s.lkmap
    microcode := s.microcode
    dispatch := s.dispatch
    translator := s.translator
    wmin := s.wmin
    wmax := s.wmax
    build := s.build
    svn := s.svn
    update := s.update
    mem := s.mem.filter fun c => decide (0x6000000000 ≤ c.1) && decide (c.1 < 2 ^ 52)
    agenda := s.agenda
    fresh := s.fresh }

/-- POWER_ON_RESET (R454): reset, then the measured boot. -/
def execPowerOnReset (s : State) : Out :=
  let t := s.powerOn
  .next (t.bootFrom t.bootStages)

/-! ## SPDM (R394, R395) -/

/-- The device answers SPDM requests: it has booted (R393). -/
def State.answers_ (s : State) (b : List Byte) : Out := .next { s with hostOut := if wbit s.bootst 63 then b else [] }

/-- An answer's code, its fields of the SPDM specification, and the contents that the manual gives. -/
def spdmAnswer (code : Nat) (req content : List Byte) : List Byte :=
  natBytes 0x13 1 ++ natBytes code 1 ++ Config.spdmFields code req ++ content

def digestBytes (x : BitVec 384) : List Byte := (natBytes x.toNat 48).reverse

def State.signs (s : State) (b : List Byte) : List Byte := signatureBytes (Config.signature s.fresh (sha384 b))

def execGetVersion (req : List Byte) (s : State) : Out := s.answers_ (spdmAnswer 0x04 req [])

/-- GET_CAPABILITIES: certificates, challenges and signed measurements, no session and no key exchange. That these are the
flags 0x16 is taken from the SPDM specification (PRESUMED, log 21). -/
def execGetCapabilities (req : List Byte) (s : State) : Out := s.answers_ (spdmAnswer 0x61 req (natBytes 0x16 4))

/-- NEGOTIATE_ALGORITHMS: SHA-384 as measurement hash and as base hash, no base signature algorithm, and one extended
asymmetric algorithm; the codes are those of the SPDM specification (PRESUMED, log 21). -/
def execNegotiateAlgorithms (req : List Byte) (s : State) : Out :=
  s.answers_ (spdmAnswer 0x63 req (natBytes 4 4 ++ natBytes 0 4 ++ natBytes 2 4 ++ natBytes 1 1))

/-- GET_DIGESTS: the digest of the chain in slot 0; slots 1 to 7 are empty. -/
def execGetDigests (req : List Byte) (s : State) : Out :=
  s.answers_ (spdmAnswer 0x01 req (digestBytes (sha384 Config.certificates)))

/-- GET_CERTIFICATE: the chain of slot 0; byte 2 of the request names the slot. -/
def execGetCertificate (req : List Byte) (s : State) : Out :=
  if imgByte req 2 % 16 = 0 then s.answers_ (spdmAnswer 0x02 req Config.certificates)
  else s.answers_ (spdmAnswer 0x7F req [])

/-- CHALLENGE: a signature over the chain's digest and the request with its nonce; byte 2 names the slot, and every slot but
0 is empty. -/
def execChallenge (req : List Byte) (s : State) : Out :=
  let d := digestBytes (sha384 Config.certificates)
  if imgByte req 2 % 16 = 0 then
    ({ s with fresh := s.fresh + 1 } : State).answers_ (spdmAnswer 0x03 req (d ++ s.signs (req ++ d)))
  else s.answers_ (spdmAnswer 0x7F req [])

/-- The translator version word (R396). -/
def State.translatorWord (s : State) : Word := BitVec.ofNat 64 (s.wmax % 256 * 2 ^ 24 + s.wmin % 256 * 2 ^ 16 + s.build % 2 ^ 16)

/-- The measurement blocks (R395): index and content. -/
def State.blocks (s : State) : List (Nat × List Byte) :=
  ((List.range 8).map fun i => (i + 1, digestBytes (tget i s.mr 0#384))) ++
    [(0x10, natBytes s.translatorWord.toNat 4), (0x11, digestBytes (sha384 (storeBytes s.microcode s.dispatch)))] ++
    match s.boundAgency with
    | some a => [(0x12, s.snapshot a)]
    | none => []

/-- GET_MEASUREMENTS: byte 3 of the request is the index of a block, or 0xFF for all; bit 0 of byte 2 asks for a signature by
the key of the slot that byte 36 names, which covers the blocks and the nonce in the 32 bytes before it. -/
def execGetMeasurements (req : List Byte) (s : State) : Out :=
  let i := imgByte req 3
  let l := s.blocks.filter fun b => decide (i = 0xFF) || decide (b.1 = i)
  let content := l.flatMap fun b => natBytes b.1 1 ++ b.2
  let signed := (imgByte req 2).testBit 0
  let sig := if signed then ({ s with fresh := s.fresh + 1 } : State).signs (content ++ (req.drop 4).take 32) else []
  if i ≠ 0 ∧ l.isEmpty ∨ signed ∧ imgByte req 36 % 16 ≠ 0 then s.answers_ (spdmAnswer 0x7F req [])
  else ({ s with fresh := s.fresh + 2 } : State).answers_ (spdmAnswer 0x60 req (natBytes l.length 1 ++ content ++ sig))

/-- SPDM_OTHER_REQUEST: ERROR UnsupportedRequest. -/
def execSpdmOtherRequest (req : List Byte) (s : State) : Out :=
  if [0x84, 0xE1, 0xE3, 0x81, 0x82, 0x83, 0xE0].contains (imgByte req 1) then .refused (.notEnabled "SPDM_OTHER_REQUEST")
  else s.answers_ (natBytes 0x13 1 ++ natBytes 0x7F 1 ++ natBytes 0x07 1 ++ natBytes 0 1)

/-! ## Code objects (R396 to R401, R455) -/

/-- An entry of the section table: type, offset in the body, length, zero. -/
structure Section where
  typ : Nat
  off : Nat
  len : Nat
  zero : Nat
deriving DecidableEq, Repr

/-- The layout of an object (R397). -/
structure CodeObj where
  bytes : List Byte
deriving DecidableEq, Repr

def CodeObj.nsect (o : CodeObj) : Nat := imgByte o.bytes 0x0B
def CodeObj.body (o : CodeObj) : Nat := imgNat o.bytes 0x0C 4
def CodeObj.section (o : CodeObj) (i : Nat) : Section :=
  let at_ := 0x90 + 16 * i
  { typ := imgNat o.bytes at_ 4
    off := imgNat o.bytes (at_ + 4) 4
    len := imgNat o.bytes (at_ + 8) 4
    zero := imgNat o.bytes (at_ + 12) 4 }

def CodeObj.sections (o : CodeObj) : List Section := (List.range o.nsect).map o.section

/-- The bytes of a section. -/
def CodeObj.data (o : CodeObj) (x : Section) : List Byte := (o.bytes.drop (0x90 + x.off)).take x.len

/-- The length of an image in a section of this type. -/
def imageLen (typ : Nat) : Nat := if typ = 8 then 1024 else if typ = 9 then 1296 else if typ = 10 then 96 else 0

/-- The entries of a kernel table: entry offset, argument size, zero. -/
def kernelEntries (b : List Byte) : List (Nat × Nat × Nat) :=
  (List.range (b.length / 16)).map fun i => (imgNat b (16 * i) 4, imgNat b (16 * i + 4) 4, imgNat b (16 * i + 12) 4)

/-- Section i fails step 1. -/
def CodeObj.badSection (o : CodeObj) (i : Nat) : Bool :=
  let x := o.section i
  decide (x.typ = 0) || decide (11 < x.typ) || decide (x.zero ≠ 0) || decide (o.body < x.off + x.len) ||
    ((List.range i).any fun j => overlaps x.off x.len (o.section j).off (o.section j).len) ||
    (decide (imageLen x.typ ≠ 0) && (decide (x.len = 0) || decide (x.len % imageLen x.typ ≠ 0))) ||
    (decide (x.typ = 11) &&
      (decide (x.len = 0) || decide (x.len % 16 ≠ 0) || ((List.range i).any fun j => decide ((o.section j).typ = 11)) ||
        (kernelEntries (o.data x)).any fun e => decide (e.1 % 4 ≠ 0) || decide (e.2.2 ≠ 0)))

/-- Step 1 of R399: the detail of its failure. -/
def CodeObj.step1 (o : CodeObj) : Option Nat :=
  let b := o.bytes
  if b.length < 0x90 ∨ imgNat b 0 4 ≠ 0x4E52574B ∨ 4096 ≤ imgNat b 8 2 ∨ o.nsect = 0 ∨ 64 < o.nsect ∨
      o.body + 0x90 ≠ b.length ∨ o.body < 16 * o.nsect then
    some 0xFFFF
  else
    match (List.range o.nsect).find? o.badSection with
    | some i => some i
    | none => if o.sections.any fun x => decide (x.typ = 11) then none else some 0xFFFF

/-- The signed digest: every byte but SIG (R397). -/
def CodeObj.digest (o : CodeObj) : BitVec 384 := sha384 (o.bytes.take 0x30 ++ o.bytes.drop 0x90)
def CodeObj.sig (o : CodeObj) : BitVec 768 := BitVec.ofNat 768 (bytesNat ((o.bytes.drop 0x30).take 96).reverse)

/-- An image fails the check of its kind (R124, R156, R204). -/
def badImage (typ : Nat) (b : List Byte) : Bool :=
  if typ = 8 then (imageFault (imageEntries b)).isSome
  else if typ = 9 then (ppuFault b).isSome
  else (kdoFault b).isSome

/-- Step 7 of R399: section index, and ordinal of the image within it. -/
def CodeObj.step7 (o : CodeObj) : Option (Nat × Nat) :=
  (List.range o.nsect).findSome? fun i =>
    let x := o.section i
    let n := imageLen x.typ
    if n = 0 then none
    else
      ((List.range (x.len / n)).find? fun j => badImage x.typ (((o.data x).drop (n * j)).take n)).map fun j => (i, j)

/-- The section of a type, empty if there is none. -/
def CodeObj.ofType (o : CodeObj) (t : Nat) : List Byte :=
  match o.sections.find? fun x => decide (x.typ = t) with
  | some x => o.data x
  | none => []

/-- The places of text, rodata and data. -/
def partsOf (o : CodeObj) (p : Placement) : List (Nat × Nat) :=
  (List.range 3).map fun i => (p.frames.getD i 0, (o.ofType (i + 1)).length)

/-- The same with the virtual base of each. -/
def imageSpans (o : CodeObj) (p : Placement) : List (Nat × Nat × Nat) :=
  (List.range 3).map fun i => ((p.bases.getD i 0#64).toNat, p.frames.getD i 0, (o.ofType (i + 1)).length)

/-- The launch image of an object. -/
def launchImage (o : CodeObj) (p : Placement) (handle : Nat) : Image :=
  { handle := handle
    kernels := (kernelEntries (o.ofType 11)).map fun e => ((p.bases.getD 0 0#64).toNat + e.1, e.2.1)
    split := (plResource p 0 - 128) / 64
    futures := plResource p 7
    bindings := plBindings p
    stackTops := p.stackTops
    parts := partsOf o p }

/-- The future table grows to n entries, which join the free list's tail (R305, R400). -/
def State.growFutures (s : State) (n m : Nat) (x : Context) : State :=
  if m ≤ x.futures then s
  else
    (s.freshFutures x.desc.futbase x.futures m).mapCtx n fun y =>
      { y with futures := m, freeFutures := y.freeFutures ++ (List.range (m - x.futures)).map fun i => x.futures + i }

/-- The relocated text, rodata and data go to their places. -/
def State.writeImage (s : State) (o : CodeObj) (p : Placement) (text : List Byte) : State :=
  let put (t : State) (i : Nat) (b : List Byte) : State :=
    { t with mem := memWriteBytes t.mem (p.frames.getD i 0) b }
  put (put (put s 0 text) 1 (o.ofType 2)) 2 (o.ofType 3)

/-- The lowest feature bit that an object needs and the driver did not accept (R399 step 6). -/
def State.missingFeature (s : State) (feat : Nat) : Option Nat :=
  (List.range 256).find? fun i => feat.testBit i && !s.feature i

/-- A status of R399: code and detail. -/
def State.loadFails (s : State) (code detail : Nat) (w1 : Word) : Out :=
  .next (s.respond (code * 65536 + detail % 65536) [w1])

/-- Step 10 of R399: the channels, then the records in order. Which record a failure of the channels names the manual leaves
open. -/
def State.plStep10 (s : State) (o : CodeObj) (p : Placement) : Except Nat (List Byte) :=
  if (p.channels.all fun c => c.declared p) && p.channelsFit && (boundApart p p.channels || assignable p.channels []) then
    relocate p p.relocs 0 (o.ofType 1)
  else .error (wfield (Config.freeWord s.fresh) 0 16)

/-- Steps 8 to 11 of R399, and the image. A choice of cores, bindings or places that the rules do not allow is none that the
translator makes. -/
def State.makeImage (s : State) (n : Nat) (x : Context) (o : CodeObj) (p : Placement) : Out :=
  match plStep8 p with
  | some i => s.loadFails 0x0201 i 0#64
  | none =>
    match s.plStep9 x p with
    | some i => s.loadFails 0x0202 i 0#64
    | none =>
      if !s.placed x p then .refused (.notEnabled "OBJLOAD")
      else
        match s.plStep10 o p with
        | .error r => ({ s with fresh := s.fresh + 1 } : State).loadFails 0x0203 r 0#64
        | .ok text =>
          if 256 ≤ x.images.length then s.loadFails 0x0303 0 0#64
          else if !(boundApart p p.channels && s.phasesFit x p && s.partsFree n (imageSpans o p)) then .refused (.notEnabled "OBJLOAD")
          else
            let t := (s.growFutures n (plResource p 7) x).writeImage o p text
            let t := t.mapCtx n fun y =>
              { y with images := y.images ++ [launchImage o p x.nextImage], nextImage := x.nextImage + 1 }
            .next
              (t.respond 0
                [BitVec.ofNat 64 x.nextImage, p.bases.getD 0 0#64, p.bases.getD 1 0#64, p.bases.getD 2 0#64])

/-- OBJLOAD: the steps of R399, in order. -/
def execObjload (fn : Nat) (ops : List Word) (p : Placement) (s : State) : Out :=
  s.mailbox fn 0x0030 ops 3 fun s =>
    s.onContext ops fun n x =>
      if !busOk (opNat ops 2) (opNat ops 3) then s.badOp 2
      else
        let o : CodeObj := { bytes := s.hostBytes (opNat ops 2) (opNat ops 3) }
        let b := o.bytes
        let kidx := imgByte b 0x0A
        match o.step1 with
        | some d => s.loadFails 0x0101 d 0#64
        | none =>
          if imgNat b 8 2 ≠ x.desc.agency then s.loadFails 0x0105 (imgNat b 8 2) 0#64
          else
            match (if kidx < 16 then tfind (keySlot x.desc.agency kidx) s.keys else none) with
            | none => s.loadFails 0x0104 kidx 0#64
            | some k =>
              if k.revoked then s.loadFails 0x0104 kidx 0#64
              else if !verifies k.key o.digest o.sig then s.loadFails 0x0103 0 0#64
              else if imgNat b 4 2 < s.wmin ∨ s.wmax < imgNat b 4 2 then s.loadFails 0x0106 (imgNat b 4 2) 0#64
              else
                match s.missingFeature (imgNat b 0x10 32) with
                | some i => s.loadFails 0x0107 i 0#64
                | none =>
                  match o.step7 with
                  | some (i, j) => s.loadFails 0x0108 i (BitVec.ofNat 64 j)
                  | none => s.makeImage n x o p

/-- A card references the image (R401). -/
def State.referenced (s : State) (n h : Nat) : Bool := s.cards.any fun p => decide (p.2.ctx = n) && decide (p.2.image = h)

/-- OBJUNLOAD: an unload, or with force the termination of the context whose cards name the image. -/
def execObjunload (fn : Nat) (ops : List Word) (s : State) : Out :=
  s.mailbox fn 0x0031 ops 3 fun s =>
    s.onContext ops fun n x =>
      let h := opNat ops 2
      if 2 ≤ opNat ops 3 then s.badOp 3
      else if !x.images.any fun i => decide (i.handle = h) then .next (s.respond 0x03020000 [])
      else if s.referenced n h then
        if opNat ops 3 = 1 then .next ((s.terminate n 0 h).respond 0 []) else .next (s.respond 0x03010000 [])
      else
        .next ((s.mapCtx n fun y => { y with images := y.images.filter fun i => i.handle ≠ h }).respond 0 [])

/-! ## Firmware updates (R83, R85, R402) -/

/-- The routine of a dispatch entry passes verification (R83). -/
def routineOk (store : List Word32) (e : Word) : Bool :=
  let n := wfield e 32 9
  let at_ := wfield e 0 16
  let l := (store.drop at_).take n
  decide (1 ≤ n) && decide (n ≤ 256) && decide (at_ + n ≤ store.length) &&
    ((List.range n).all fun i => routineWordOk (l.getD i 0#32) i n) && decide ((l.filter isStoreWord).length ≤ 32)

/-- A dispatch entry as management loads it: VAL by its verification, and the read-only bits zero (R81). -/
def loadEntry (store : List Word32) (e : Word) : Word :=
  let e := e &&& 0xBFFE01FF0000FFFF#64
  if wbit e 63 && routineOk store e then e ||| 0x4000000000000000#64 else e

def tabular {α : Type} (l : List α) : Tab α := (List.range l.length).zip l

/-- FIRMWARE_UPDATE (R402): the four parts are checked, and the update waits until no context is resident, or is refused. The
version window is a byte each and the security version four (R396, R449). A device that has not booted, or has halted in
recovery, handles none (R393). An earlier update that waits for nothing more has taken effect before. -/
def execFirmwareUpdate (store : List Word32) (table : List Word) (translator : List Byte) (build wmin svn : Nat)
    (sigs : List (BitVec 768)) (s : State) : Out :=
  let s := s.applyUpdate
  let parts : List (List Byte) :=
    [storeBytes (tabular store) (tabular table), translator ++ natBytes build 2, natBytes wmin 1, natBytes svn 4]
  let signed :=
    decide (wmin ≤ 251) && decide (svn < 2 ^ 32) && decide (build < 2 ^ 16) &&
      (List.range 4).all fun i => verifies Config.vendorKey (sha384 (parts.getD i [])) (sigs.getD i 0#768)
  if !wbit s.bootst 63 ∨ !signed ∨ svn < s.svn ∨ wmin < s.wmin then .next s
  else
    .next
      { s with
        update :=
          some
            { store := tabular store
              dispatch := tabular ((table.take 192).map (loadEntry store))
              translator := translator
              wmin := wmin
              svn := svn
              build := build } }

/-- UPDATE_TAKES_EFFECT (R85, R402): no context is resident, and everything that the update brings changes at once. -/
def execUpdateTakesEffect (s : State) : Out :=
  if s.update.isSome && s.contexts.isEmpty && wbit s.bootst 63 then .next s.applyUpdate
  else .refused (.notEnabled "UPDATE_TAKES_EFFECT")

end Sys2Proof.Machine
end

