-- ==== Sys2Proof/Machine/Dispatch.lean ====
section
/-! DEFINITION. Dispatch: one meaning for each instruction and each event. -/

namespace Sys2Proof.Machine

def exec (i : Instr) (s : State) : Host.Outcome State Fault Refusal :=
  match i with
  | .add d a da b db => Sys2Proof.Machine.execAdd d a da b db s
  | .sub d a da b db => Sys2Proof.Machine.execSub d a da b db s
  | .mul d a da b db => Sys2Proof.Machine.execMul d a da b db s
  | .mulh d a da b db => Sys2Proof.Machine.execMulh d a da b db s
  | .mulhu d a da b db => Sys2Proof.Machine.execMulhu d a da b db s
  | .madd d a da b db => Sys2Proof.Machine.execMadd d a da b db s
  | .div d a da b db => Sys2Proof.Machine.execDiv d a da b db s
  | .divu d a da b db => Sys2Proof.Machine.execDivu d a da b db s
  | .rem d a da b db => Sys2Proof.Machine.execRem d a da b db s
  | .remu d a da b db => Sys2Proof.Machine.execRemu d a da b db s
  | .and d a da b db => Sys2Proof.Machine.execAnd d a da b db s
  | .or d a da b db => Sys2Proof.Machine.execOr d a da b db s
  | .xor d a da b db => Sys2Proof.Machine.execXor d a da b db s
  | .andn d a da b db => Sys2Proof.Machine.execAndn d a da b db s
  | .shl d a da b db => Sys2Proof.Machine.execShl d a da b db s
  | .shr d a da b db => Sys2Proof.Machine.execShr d a da b db s
  | .sra d a da b db => Sys2Proof.Machine.execSra d a da b db s
  | .rol d a da b db => Sys2Proof.Machine.execRol d a da b db s
  | .min d a da b db => Sys2Proof.Machine.execMin d a da b db s
  | .max d a da b db => Sys2Proof.Machine.execMax d a da b db s
  | .minu d a da b db => Sys2Proof.Machine.execMinu d a da b db s
  | .maxu d a da b db => Sys2Proof.Machine.execMaxu d a da b db s
  | .slt d a da b db => Sys2Proof.Machine.execSlt d a da b db s
  | .sltu d a da b db => Sys2Proof.Machine.execSltu d a da b db s
  | .seq d a da b db => Sys2Proof.Machine.execSeq d a da b db s
  | .clz d a da => Sys2Proof.Machine.execClz d a da s
  | .ctz d a da => Sys2Proof.Machine.execCtz d a da s
  | .popc d a da => Sys2Proof.Machine.execPopc d a da s
  | .sextb d a da => Sys2Proof.Machine.execSextb d a da s
  | .sexth d a da => Sys2Proof.Machine.execSexth d a da s
  | .sextw d a da => Sys2Proof.Machine.execSextw d a da s
  | .bfx d a da b db => Sys2Proof.Machine.execBfx d a da b db s
  | .bfi d a da b db => Sys2Proof.Machine.execBfi d a da b db s
  | .sel d a da b db => Sys2Proof.Machine.execSel d a da b db s
  | .addw d a da b db => Sys2Proof.Machine.execAddw d a da b db s
  | .subw d a da b db => Sys2Proof.Machine.execSubw d a da b db s
  | .addi d a da im => Sys2Proof.Machine.execAddi d a da im s
  | .andi d a da im => Sys2Proof.Machine.execAndi d a da im s
  | .ori d a da im => Sys2Proof.Machine.execOri d a da im s
  | .xori d a da im => Sys2Proof.Machine.execXori d a da im s
  | .slti d a da im => Sys2Proof.Machine.execSlti d a da im s
  | .sltiu d a da im => Sys2Proof.Machine.execSltiu d a da im s
  | .shli d a da n => Sys2Proof.Machine.execShli d a da n s
  | .shri d a da n => Sys2Proof.Machine.execShri d a da n s
  | .srai d a da n => Sys2Proof.Machine.execSrai d a da n s
  | .rori d a da n => Sys2Proof.Machine.execRori d a da n s
  | .lui d im => Sys2Proof.Machine.execLui d im s
  | .adpc d im => Sys2Proof.Machine.execAdpc d im s
  | .insi d p z im => Sys2Proof.Machine.execInsi d p z im s
  | .beqz a da o => Sys2Proof.Machine.execBeqz a da o s
  | .bnez a da o => Sys2Proof.Machine.execBnez a da o s
  | .bltz a da o => Sys2Proof.Machine.execBltz a da o s
  | .bgez a da o => Sys2Proof.Machine.execBgez a da o s
  | .bgtz a da o => Sys2Proof.Machine.execBgtz a da o s
  | .blez a da o => Sys2Proof.Machine.execBlez a da o s
  | .bodd a da o => Sys2Proof.Machine.execBodd a da o s
  | .jmp o => Sys2Proof.Machine.execJmp o s
  | .jal o => Sys2Proof.Machine.execJal o s
  | .jr a da => Sys2Proof.Machine.execJr a da s
  | .jalr d a da => Sys2Proof.Machine.execJalr d a da s
  | .lcar b a da im => Sys2Proof.Machine.execLcar b a da im s
  | .loop a da n => Sys2Proof.Machine.execLoop a da n s
  | .endit => Sys2Proof.Machine.execEndit s
  | .brkif a da l => Sys2Proof.Machine.execBrkif a da l s
  | .contif a da => Sys2Proof.Machine.execContif a da s
  | .itx d l => Sys2Proof.Machine.execItx d l s
  | .lstat d l => Sys2Proof.Machine.execLstat d l s
  | .movd d a m => Sys2Proof.Machine.execMovd d a m s
  | .fuse => Sys2Proof.Machine.execFuse s
  | .split => Sys2Proof.Machine.execSplit s
  | .gany d a da => Sys2Proof.Machine.execGany d a da s
  | .gall d a da => Sys2Proof.Machine.execGall d a da s
  | .gidx d => Sys2Proof.Machine.execGidx d s
  | .gbc d a da m => Sys2Proof.Machine.execGbc d a da m s
  | .gsum d a da => Sys2Proof.Machine.execGsum d a da s
  | .lb d a da o => Sys2Proof.Machine.execLb d a da o s
  | .lbu d a da o => Sys2Proof.Machine.execLbu d a da o s
  | .lh d a da o => Sys2Proof.Machine.execLh d a da o s
  | .lhu d a da o => Sys2Proof.Machine.execLhu d a da o s
  | .lw d a da o => Sys2Proof.Machine.execLw d a da o s
  | .lwu d a da o => Sys2Proof.Machine.execLwu d a da o s
  | .ld d a da o => Sys2Proof.Machine.execLd d a da o s
  | .sb d a da o => Sys2Proof.Machine.execSb d a da o s
  | .sh d a da o => Sys2Proof.Machine.execSh d a da o s
  | .sw d a da o => Sys2Proof.Machine.execSw d a da o s
  | .sd d a da o => Sys2Proof.Machine.execSd d a da o s
  | .lda d a da z x => Sys2Proof.Machine.execLda d a da z x s
  | .stl d a da z x => Sys2Proof.Machine.execStl d a da z x s
  | .ldro d a da z x => Sys2Proof.Machine.execLdro d a da z x s
  | .pref a da x n => Sys2Proof.Machine.execPref a da x n s
  | .stn d a da x h => Sys2Proof.Machine.execStn d a da x h s
  | .sts d a da z x => Sys2Proof.Machine.execSts d a da z x s
  | .amoswp d a b o x z => Sys2Proof.Machine.execAmoswp d a b o x z s
  | .amoadd d a b o x z => Sys2Proof.Machine.execAmoadd d a b o x z s
  | .amoand d a b o x z => Sys2Proof.Machine.execAmoand d a b o x z s
  | .amoor d a b o x z => Sys2Proof.Machine.execAmoor d a b o x z s
  | .amoxor d a b o x z => Sys2Proof.Machine.execAmoxor d a b o x z s
  | .amomin d a b o x z => Sys2Proof.Machine.execAmomin d a b o x z s
  | .amomax d a b o x z => Sys2Proof.Machine.execAmomax d a b o x z s
  | .amominu d a b o x z => Sys2Proof.Machine.execAmominu d a b o x z s
  | .amomaxu d a b o x z => Sys2Proof.Machine.execAmomaxu d a b o x z s
  | .cas d a b o x z => Sys2Proof.Machine.execCas d a b o x z s
  | .amofadd d a b o x => Sys2Proof.Machine.execAmofadd d a b o x s
  | .amoinc d a b o x z => Sys2Proof.Machine.execAmoinc d a b o x z s
  | .fence x => Sys2Proof.Machine.execFence x s
  | .fenceR x => Sys2Proof.Machine.execFenceR x s
  | .fenceW x => Sys2Proof.Machine.execFenceW x s
  | .ifence x => Sys2Proof.Machine.execIfence x s
  | .fenceE x => Sys2Proof.Machine.execFenceE x s
  | .fenceJ x => Sys2Proof.Machine.execFenceJ x s
  | .fadd d a da b db p => Sys2Proof.Machine.execFadd d a da b db p s
  | .fsub d a da b db p => Sys2Proof.Machine.execFsub d a da b db p s
  | .fmul d a da b db p => Sys2Proof.Machine.execFmul d a da b db p s
  | .fdiv d a da b db p => Sys2Proof.Machine.execFdiv d a da b db p s
  | .fsqrt d a da p => Sys2Proof.Machine.execFsqrt d a da p s
  | .fma d a da b db p => Sys2Proof.Machine.execFma d a da b db p s
  | .fmin d a da b db p => Sys2Proof.Machine.execFmin d a da b db p s
  | .fmax d a da b db p => Sys2Proof.Machine.execFmax d a da b db p s
  | .feq d a da b db p => Sys2Proof.Machine.execFeq d a da b db p s
  | .flt d a da b db p => Sys2Proof.Machine.execFlt d a da b db p s
  | .fle d a da b db p => Sys2Proof.Machine.execFle d a da b db p s
  | .fclass d a da p => Sys2Proof.Machine.execFclass d a da p s
  | .fcvti d a da p => Sys2Proof.Machine.execFcvti d a da p s
  | .fcvtf d a da p => Sys2Proof.Machine.execFcvtf d a da p s
  | .fcvtw d a da p => Sys2Proof.Machine.execFcvtw d a da p s
  | .vadd d a dva b k t => Sys2Proof.Machine.execVadd d a dva b k t s
  | .vsub d a dva b k t => Sys2Proof.Machine.execVsub d a dva b k t s
  | .vmul d a dva b k t => Sys2Proof.Machine.execVmul d a dva b k t s
  | .vmulh d a dva b k t => Sys2Proof.Machine.execVmulh d a dva b k t s
  | .vmin d a dva b k t => Sys2Proof.Machine.execVmin d a dva b k t s
  | .vmax d a dva b k t => Sys2Proof.Machine.execVmax d a dva b k t s
  | .vminu d a dva b k t => Sys2Proof.Machine.execVminu d a dva b k t s
  | .vmaxu d a dva b k t => Sys2Proof.Machine.execVmaxu d a dva b k t s
  | .vand d a dva b k t => Sys2Proof.Machine.execVand d a dva b k t s
  | .vor d a dva b k t => Sys2Proof.Machine.execVor d a dva b k t s
  | .vxor d a dva b k t => Sys2Proof.Machine.execVxor d a dva b k t s
  | .vshl d a dva b k t => Sys2Proof.Machine.execVshl d a dva b k t s
  | .vshr d a dva b k t => Sys2Proof.Machine.execVshr d a dva b k t s
  | .vsra d a dva b k t => Sys2Proof.Machine.execVsra d a dva b k t s
  | .vsadd d a dva b k t => Sys2Proof.Machine.execVsadd d a dva b k t s
  | .vssub d a dva b k t => Sys2Proof.Machine.execVssub d a dva b k t s
  | .vabs d a dva k t => Sys2Proof.Machine.execVabs d a dva k t s
  | .vcmpeq d a dva b k t => Sys2Proof.Machine.execVcmpeq d a dva b k t s
  | .vcmplt d a dva b k t => Sys2Proof.Machine.execVcmplt d a dva b k t s
  | .vcmpltu d a dva b k t => Sys2Proof.Machine.execVcmpltu d a dva b k t s
  | .vfadd d a dva b k t => Sys2Proof.Machine.execVfadd d a dva b k t s
  | .vfsub d a dva b k t => Sys2Proof.Machine.execVfsub d a dva b k t s
  | .vfmul d a dva b k t => Sys2Proof.Machine.execVfmul d a dva b k t s
  | .vfma d a dva b k t => Sys2Proof.Machine.execVfma d a dva b k t s
  | .vfmin d a dva b k t => Sys2Proof.Machine.execVfmin d a dva b k t s
  | .vfmax d a dva b k t => Sys2Proof.Machine.execVfmax d a dva b k t s
  | .vfdiv d a dva b k t => Sys2Proof.Machine.execVfdiv d a dva b k t s
  | .vfsqrt d a dva k t => Sys2Proof.Machine.execVfsqrt d a dva k t s
  | .vfabs d a dva k t => Sys2Proof.Machine.execVfabs d a dva k t s
  | .vfneg d a dva k t => Sys2Proof.Machine.execVfneg d a dva k t s
  | .vfcmpeq d a dva b k t => Sys2Proof.Machine.execVfcmpeq d a dva b k t s
  | .vfcmplt d a dva b k t => Sys2Proof.Machine.execVfcmplt d a dva b k t s
  | .vfcmple d a dva b k t => Sys2Proof.Machine.execVfcmple d a dva b k t s
  | .vld d a da k e => Sys2Proof.Machine.execVld d a da k e s
  | .vst d a da k e => Sys2Proof.Machine.execVst d a da k e s
  | .vlds d a da b k e => Sys2Proof.Machine.execVlds d a da b k e s
  | .vsts d a da b k e => Sys2Proof.Machine.execVsts d a da b k e s
  | .vgath d a da b k e => Sys2Proof.Machine.execVgath d a da b k e s
  | .vscat d a da b k e => Sys2Proof.Machine.execVscat d a da b k e s
  | .vldb d a da k e => Sys2Proof.Machine.execVldb d a da k e s
  | .vshuf d a dva b k => Sys2Proof.Machine.execVshuf d a dva b k s
  | .vslide d a dva b k => Sys2Proof.Machine.execVslide d a dva b k s
  | .vbcast d a dva k => Sys2Proof.Machine.execVbcast d a dva k s
  | .vext d a dva b => Sys2Proof.Machine.execVext d a dva b s
  | .vins d a dva b => Sys2Proof.Machine.execVins d a dva b s
  | .vredsum d a dva k => Sys2Proof.Machine.execVredsum d a dva k s
  | .vredmax d a dva k => Sys2Proof.Machine.execVredmax d a dva k s
  | .vredmin d a dva k => Sys2Proof.Machine.execVredmin d a dva k s
  | .vcvt d a dva k => Sys2Proof.Machine.execVcvt d a dva k s
  | .venc d a dva k => Sys2Proof.Machine.execVenc d a dva k s
  | .vdec d a dva k => Sys2Proof.Machine.execVdec d a dva k s
  | .vqnt d a dva b => Sys2Proof.Machine.execVqnt d a dva b s
  | .vdqnt d a dva k => Sys2Proof.Machine.execVdqnt d a dva k s
  | .vppu d a dva k => Sys2Proof.Machine.execVppu d a dva k s
  | .viota d k => Sys2Proof.Machine.execViota d k s
  | .vsel d a dva b k => Sys2Proof.Machine.execVsel d a dva b k s
  | .kand d a b => Sys2Proof.Machine.execKand d a b s
  | .kor d a b => Sys2Proof.Machine.execKor d a b s
  | .kxor d a b => Sys2Proof.Machine.execKxor d a b s
  | .knot d a => Sys2Proof.Machine.execKnot d a s
  | .kfrom d a dva => Sys2Proof.Machine.execKfrom d a dva s
  | .kto d a => Sys2Proof.Machine.execKto d a s
  | .kpop d a => Sys2Proof.Machine.execKpop d a s
  | .kfirst d a => Sys2Proof.Machine.execKfirst d a s
  | .mcfg a b w n => Sys2Proof.Machine.execMcfg a b w n s
  | .mgeo a w n => Sys2Proof.Machine.execMgeo a w n s
  | .mzero w n => Sys2Proof.Machine.execMzero w n s
  | .mma a b w n => Sys2Proof.Machine.execMma a b w n s
  | .mmat a b w n => Sys2Proof.Machine.execMmat a b w n s
  | .mmas a b w n => Sys2Proof.Machine.execMmas a b w n s
  | .mdrain a b w u n => Sys2Proof.Machine.execMdrain a b w u n s
  | .mldacc a b w n => Sys2Proof.Machine.execMldacc a b w n s
  | .mstacc d a w n => Sys2Proof.Machine.execMstacc d a w n s
  | .mstat d w n => Sys2Proof.Machine.execMstat d w n s
  | .mwait w n => Sys2Proof.Machine.execMwait w n s
  | .chain a b w n => Sys2Proof.Machine.execChain a b w n s
  | .cadd d a b w n => Sys2Proof.Machine.execCadd d a b w n s
  | .cclose w n => Sys2Proof.Machine.execCclose w n s
  | .cstat d a w => Sys2Proof.Machine.execCstat d a w s
  | .cwait w n => Sys2Proof.Machine.execCwait w n s
  | .rgcfg a => Sys2Proof.Machine.execRgcfg a s
  | .mtld a => Sys2Proof.Machine.execMtld a s
  | .mtclr => Sys2Proof.Machine.execMtclr s
  | .binj a w => Sys2Proof.Machine.execBinj a w s
  | .btake d a => Sys2Proof.Machine.execBtake d a s
  | .bstat d a => Sys2Proof.Machine.execBstat d a s
  | .tkget d => Sys2Proof.Machine.execTkget d s
  | .tkdone a => Sys2Proof.Machine.execTkdone a s
  | .rgsub d a b => Sys2Proof.Machine.execRgsub d a b s
  | .rgquiet => Sys2Proof.Machine.execRgquiet s
  | .tabld a b w t => Sys2Proof.Machine.execTabld a b w t s
  | .tabrd d a w t => Sys2Proof.Machine.execTabrd d a w t s
  | .tabchk d w t => Sys2Proof.Machine.execTabchk d w t s
  | .ppuld a w => Sys2Proof.Machine.execPpuld a w s
  | .ppurd d a w => Sys2Proof.Machine.execPpurd d a w s
  | .enc d a w t => Sys2Proof.Machine.execEnc d a w t s
  | .dec d a w t => Sys2Proof.Machine.execDec d a w t s
  | .cpstat d a => Sys2Proof.Machine.execCpstat d a s
  | .cpwait d a => Sys2Proof.Machine.execCpwait d a s
  | .cpcan a => Sys2Proof.Machine.execCpcan a s
  | .fnew d => Sys2Proof.Machine.execFnew d s
  | .fput a b => Sys2Proof.Machine.execFput a b s
  | .fget d a b => Sys2Proof.Machine.execFget d a b s
  | .ftry d a b => Sys2Proof.Machine.execFtry d a b s
  | .fpois a b => Sys2Proof.Machine.execFpois a b s
  | .ffree a => Sys2Proof.Machine.execFfree a s
  | .flink d a b => Sys2Proof.Machine.execFlink d a b s
  | .jsub a => Sys2Proof.Machine.execJsub a s
  | .jwid d => Sys2Proof.Machine.execJwid d s
  | .jarg d => Sys2Proof.Machine.execJarg d s
  | .jend => Sys2Proof.Machine.execJend s
  | .jqry d a => Sys2Proof.Machine.execJqry d a s
  | .chsnd d a c => Sys2Proof.Machine.execChsnd d a c s
  | .chrcv d a c => Sys2Proof.Machine.execChrcv d a c s
  | .chsndv d a c => Sys2Proof.Machine.execChsndv d a c s
  | .chrcvv d c => Sys2Proof.Machine.execChrcvv d c s
  | .chpoll d c => Sys2Proof.Machine.execChpoll d c s
  | .barp k => Sys2Proof.Machine.execBarp k s
  | .xsel a k => Sys2Proof.Machine.execXsel a k s
  | .xmit h b l => Sys2Proof.Machine.execXmit h b l s
  | .xmitCh c h b l => Sys2Proof.Machine.execXmitCh c h b l s
  | .xrecv d h l => Sys2Proof.Machine.execXrecv d h l s
  | .xrecvCh d h c l => Sys2Proof.Machine.execXrecvCh d h c l s
  | .xend d => Sys2Proof.Machine.execXend d s
  | .bar a n => Sys2Proof.Machine.execBar a n s
  | .barnw a n => Sys2Proof.Machine.execBarnw a n s
  | .sleep d a => Sys2Proof.Machine.execSleep d a s
  | .wake a => Sys2Proof.Machine.execWake a s
  | .time d => Sys2Proof.Machine.execTime d s
  | .kop x d a b c k => Sys2Proof.Machine.execKop x d a b c k s
  | .kld a b => Sys2Proof.Machine.execKld a b s
  | .krel a => Sys2Proof.Machine.execKrel a s
  | .kqry d a => Sys2Proof.Machine.execKqry d a s
  | .srd d r => Sys2Proof.Machine.execSrd d r s
  | .swr a r => Sys2Proof.Machine.execSwr a r s
  | .sset a r => Sys2Proof.Machine.execSset a r s
  | .sclr a r => Sys2Proof.Machine.execSclr a r s
  | .trap n => Sys2Proof.Machine.execTrap n s
  | .eret => Sys2Proof.Machine.execEret s
  | .halt => Sys2Proof.Machine.execHalt s
  | .tlbinv a m => Sys2Proof.Machine.execTlbinv a m s
  | .acct d a n => Sys2Proof.Machine.execAcct d a n s
  | .brk n => Sys2Proof.Machine.execBrk n s
  | .wpset a n => Sys2Proof.Machine.execWpset a n s
  | .wpclr n => Sys2Proof.Machine.execWpclr n s
  | .dstop d a m => Sys2Proof.Machine.execDstop d a m s
  | .dstep d a => Sys2Proof.Machine.execDstep d a s
  | .dres d a m => Sys2Proof.Machine.execDres d a m s
  | .deferredInstruction e f im => Sys2Proof.Machine.execDeferredInstruction e f im s
  | .iterationRetire c => Sys2Proof.Machine.execIterationRetire c s
  | .asyncTrapDelivery c => Sys2Proof.Machine.execAsyncTrapDelivery c s
  | .matrixCommandComplete c => Sys2Proof.Machine.execMatrixCommandComplete c s
  | .carryRouterMerge im j => Sys2Proof.Machine.execCarryRouterMerge im j s
  | .carryRowArrival im => Sys2Proof.Machine.execCarryRowArrival im s
  | .qgoCopy => Sys2Proof.Machine.execQgoCopy s
  | .qgoTensor => Sys2Proof.Machine.execQgoTensor s
  | .qgoMcast => Sys2Proof.Machine.execQgoMcast s
  | .qgoMcwrite => Sys2Proof.Machine.execQgoMcwrite s
  | .qgoFill => Sys2Proof.Machine.execQgoFill s
  | .qgoSubscribe => Sys2Proof.Machine.execQgoSubscribe s
  | .qgoPull => Sys2Proof.Machine.execQgoPull s
  | .registerWrite n v => Sys2Proof.Machine.execRegisterWrite n v s
  | .copyJobComplete c im => Sys2Proof.Machine.execCopyJobComplete c im s
  | .copyJobFail c im => Sys2Proof.Machine.execCopyJobFail c im s
  | .ringStep cl => Sys2Proof.Machine.execRingStep cl s
  | .sliceRequest im merge => Sys2Proof.Machine.execSliceRequest im merge s
  | .remoteApertureRequest im => Sys2Proof.Machine.execRemoteApertureRequest im s
  | .loadResponse im => Sys2Proof.Machine.execLoadResponse im s
  | .postedStoreAck c e => Sys2Proof.Machine.execPostedStoreAck c e s
  | .postedStoreRefusal c e => Sys2Proof.Machine.execPostedStoreRefusal c e s
  | .journalTimeout c e lost => Sys2Proof.Machine.execJournalTimeout c e lost s
  | .pageWalkComplete c => Sys2Proof.Machine.execPageWalkComplete c s
  | .tlbInvalidationRequest im => Sys2Proof.Machine.execTlbInvalidationRequest im s
  | .tlbInvalidationAck im => Sys2Proof.Machine.execTlbInvalidationAck im s
  | .wbRetry c => Sys2Proof.Machine.execWbRetry c s
  | .wbTimeout c => Sys2Proof.Machine.execWbTimeout c s
  | .peerRequest p addr size fn data cmp => Sys2Proof.Machine.execPeerRequest p addr size fn data cmp s
  | .hostPostedWrite fn off data => Sys2Proof.Machine.execHostPostedWrite fn off data s
  | .hostRead fn off n => Sys2Proof.Machine.execHostRead fn off n s
  | .hostAtomicop fn off op size operand compare => Sys2Proof.Machine.execHostAtomicop fn off op size operand compare s
  | .queuePublish fn q => Sys2Proof.Machine.execQueuePublish fn q s
  | .queuePoll q => Sys2Proof.Machine.execQueuePoll q s
  | .reservationTimeout q => Sys2Proof.Machine.execReservationTimeout q s
  | .dealChunk pos => Sys2Proof.Machine.execDealChunk pos s
  | .cardComplete n => Sys2Proof.Machine.execCardComplete n s
  | .waiterRecheck c => Sys2Proof.Machine.execWaiterRecheck c s
  | .activityForecastUpdate => Sys2Proof.Machine.execActivityForecastUpdate s
  | .reckoningFold => Sys2Proof.Machine.execReckoningFold s
  | .clockStep mhz => Sys2Proof.Machine.execClockStep mhz s
  | .phaseStart ctx => Sys2Proof.Machine.execPhaseStart ctx s
  | .phaseEnd ctx => Sys2Proof.Machine.execPhaseEnd ctx s
  | .sleepDeadline c => Sys2Proof.Machine.execSleepDeadline c s
  | .clusterStopArrival c => Sys2Proof.Machine.execClusterStopArrival c s
  | .stopTime n => Sys2Proof.Machine.execStopTime n s
  | .contextSave n => Sys2Proof.Machine.execContextSave n s
  | .watchdogExpiry n => Sys2Proof.Machine.execWatchdogExpiry n s
  | .saveBoundExpiry n => Sys2Proof.Machine.execSaveBoundExpiry n s
  | .uncorrectableError what a code unit => Sys2Proof.Machine.execUncorrectableError what a code unit s
  | .linkRetryExhausted n link => Sys2Proof.Machine.execLinkRetryExhausted n link s
  | .adxusLinkFailure link lost ctxs => Sys2Proof.Machine.execAdxusLinkFailure link lost ctxs s
  | .hostLinkFailure ctxs => Sys2Proof.Machine.execHostLinkFailure ctxs s
  | .powerOnReset => Sys2Proof.Machine.execPowerOnReset s
  | .firmwareUpdate store table translator build wmin svn sigs => Sys2Proof.Machine.execFirmwareUpdate store table translator build wmin svn sigs s
  | .updateTakesEffect => Sys2Proof.Machine.execUpdateTakesEffect s
  | .accWrite fn v => Sys2Proof.Machine.execAccWrite fn v s
  | .accept fn ops => Sys2Proof.Machine.execAccept fn ops s
  | .ctxload fn ops => Sys2Proof.Machine.execCtxload fn ops s
  | .ctxend fn ops => Sys2Proof.Machine.execCtxend fn ops s
  | .ctxstop fn ops => Sys2Proof.Machine.execCtxstop fn ops s
  | .ctxresume fn ops => Sys2Proof.Machine.execCtxresume fn ops s
  | .ckpt fn ops => Sys2Proof.Machine.execCkpt fn ops s
  | .rollback fn ops => Sys2Proof.Machine.execRollback fn ops s
  | .devckpt fn ops => Sys2Proof.Machine.execDevckpt fn ops s
  | .keyreg fn ops => Sys2Proof.Machine.execKeyreg fn ops s
  | .keyrev fn ops => Sys2Proof.Machine.execKeyrev fn ops s
  | .agassign fn ops => Sys2Proof.Machine.execAgassign fn ops s
  | .agweight fn ops => Sys2Proof.Machine.execAgweight fn ops s
  | .acctsnap fn ops => Sys2Proof.Machine.execAcctsnap fn ops s
  | .objload fn ops pl => Sys2Proof.Machine.execObjload fn ops pl s
  | .objunload fn ops => Sys2Proof.Machine.execObjunload fn ops s
  | .qset fn ops => Sys2Proof.Machine.execQset fn ops s
  | .bargrant fn ops => Sys2Proof.Machine.execBargrant fn ops s
  | .futmake fn ops => Sys2Proof.Machine.execFutmake fn ops s
  | .futput fn ops => Sys2Proof.Machine.execFutput fn ops s
  | .futfree fn ops => Sys2Proof.Machine.execFutfree fn ops s
  | .wdset fn ops => Sys2Proof.Machine.execWdset fn ops s
  | .getVersion req => Sys2Proof.Machine.execGetVersion req s
  | .getCapabilities req => Sys2Proof.Machine.execGetCapabilities req s
  | .negotiateAlgorithms req => Sys2Proof.Machine.execNegotiateAlgorithms req s
  | .getDigests req => Sys2Proof.Machine.execGetDigests req s
  | .getCertificate req => Sys2Proof.Machine.execGetCertificate req s
  | .challenge req => Sys2Proof.Machine.execChallenge req s
  | .getMeasurements req => Sys2Proof.Machine.execGetMeasurements req s
  | .spdmOtherRequest req => Sys2Proof.Machine.execSpdmOtherRequest req s
  | .nonInstructionWord w cause => Sys2Proof.Machine.execNonInstructionWord w cause s
  | .transferPhaseSlot ctx => Sys2Proof.Machine.execTransferPhaseSlot ctx s
  | .hostCompletion im rejected => Sys2Proof.Machine.execHostCompletion im rejected s
  | .peerResponse im => Sys2Proof.Machine.execPeerResponse im s
  | .replicaEviction cl line => Sys2Proof.Machine.execReplicaEviction cl line s
  | .watchdogRewrite n => Sys2Proof.Machine.execWatchdogRewrite n s
  | .correctedError => Sys2Proof.Machine.execCorrectedError s
  | .loaderBeadArrival c im => Sys2Proof.Machine.execLoaderBeadArrival c im s
  | .mailboxUnknownCommand fn code => Sys2Proof.Machine.execMailboxUnknownCommand fn code s
  | .capwWrite fn v => Sys2Proof.Machine.execCapwWrite fn v s
  | .contextDescriptorChange n image => Sys2Proof.Machine.execContextDescriptorChange n image s

end Sys2Proof.Machine
end

