-- ==== Sys2Proof/Machine/Turn.lean ====
section
/-! DEFINITION. What happens next: the turn of a core, from the fetch of its next instruction to its meaning, the events
that need no outside cause, the passing of time, and the turns that the agenda names (R21, R22, R44, R55, R78, R84, R424,
R431; log 3). -/

namespace Sys2Proof.Machine

/-! ## The turn of a core -/

/-- The word w is issued: it is decoded and has its meaning, or raises its class 1 cause (R55, R78). -/
noncomputable def State.issueWord (s : State) (w : Word32) : Out :=
  let t := s.upd fun k => { k with word := w }
  match decode w with
  | .ok i => exec i t
  | .error c => execNonInstructionWord w c t

/-- The word at the PC is fetched and issued; a leader of a gang puts it on the path (R44). -/
noncomputable def State.fetchIssue (s : State) : Out :=
  match s.fetchAt s.core.pc.toNat with
  | .word w t =>
    (if t.core.gang.isSome then t.upd fun k => { k with path := some { pc := k.pc, word := w } } else t).issueWord w
  | .trap c t => t.trap c t.core.pc
  | .miss => s.startWalk s.core.pc.toNat .fetch
  | .charged t => .next t
  | .wait => s.stall

/-- A member of a gang issues the leader's words once each, in order; unless the agenda says otherwise, the leader goes on
to its next word when every member has issued the last (R44, R45). -/
noncomputable def State.gangTurn (s : State) (g : Gang) : Out :=
  if s.core.ahead then s.stall
  else
    match s.pathEntry g with
    | some p => s.issueWord p.word
    | none => if s.cur = g.leader && s.caughtUp then s.fetchIssue else s.stall

/-- The core in focus cannot issue: it waits for a translation, a held write, an acquire, or the other members of its gang. -/
def Core.waiting (k : Core) : Bool :=
  k.walk.isSome || (match k.wb with | some b => b.waiting | none => false) || k.acquiring

/-- Every member issues this word before its gang goes on: it ends the gang, its unit or its handler (R46, R110, R428). -/
noncomputable def gathers (w : Word32) : Bool :=
  match decode w with
  | .ok .split | .ok .jend | .ok .eret => true
  | _ => false

/-- The leader in focus may issue its next word before every member has issued the last one: the member at skid j is at most j
words behind it (R44). -/
noncomputable def State.mayLead (s : State) (g : Gang) : Bool :=
  let k := s.core
  decide (s.cur = g.leader) && k.runs && s.engineLive s.cur && k.ahead && k.outq.isEmpty && k.ending.isNone && !k.hitDue &&
    !k.waiting && (k.nextCause.isNone || k.nest) && k.routine.isNone && (k.path.any fun p => !gathers p.word) &&
    g.members.all fun c =>
      let m := s.getCore c
      m.stepping.isNone && decide ((if m.ahead then m.lag else m.lag + 1) ≤ c - g.leader)

/-- The leader leaves its word to the members behind it and issues the next one (R44). -/
noncomputable def State.leadTurn (s : State) : Out :=
  match s.core.gang with
  | some g => if s.mayLead g then (s.leave g).fetchIssue else .refused (.notEnabled "lead")
  | none => .refused (.notEnabled "lead")

/-- Iteration j after the current one of the core in focus issues its next instruction, if nothing but its iteration's own work
comes of it (R21, R22; log 4). -/
noncomputable def State.youngTurn (s : State) (j : Nat) : Out :=
  match s.core.liveLoop with
  | none => .refused (.notEnabled "younger")
  | some r =>
    let v := s.core.youngView r j
    let t : State := { s with core := v }
    if s.mayOverlap r j && (match s.peekWord v.pc.toNat with | some w => overlappable w && !s.core.slotHeld r j w | none => false) then
      match t.fetchIssue with
      | .next u =>
        match s.acceptYoung r j v u with
        | some x => .next x
        | none => .refused (.notEnabled "younger")
      | _ => .refused (.notEnabled "younger")
    else .refused (.notEnabled "younger")

/-- The next word of a deferred instruction's routine, the fault that the routine reports there, or its end (R82, R84). -/
noncomputable def State.routineTurn (s : State) (r : Routine) : Out :=
  match s.routineWord r with
  | some w =>
    match r.fault w with
    | some c => s.trap c 0#64
    | none => s.issueWord (r.wordAt (s.core.pc.toNat / 4) w)
  | none => s.endRoutine r

/-- The core in focus issues its next instruction. -/
noncomputable def State.issueNext (s : State) : Out :=
  match s.core.routine with
  | some r => s.routineTurn r
  | none =>
    match s.core.gang with
    | some g => s.gangTurn g
    | none => s.fetchIssue

/-- The stores that a store in progress has still to send go on as journal entries free (R254). -/
def State.drainMore (s : State) : Out :=
  let t := (s.upd fun k => { k with outq := [] }).drain s.core.outq
  if t.core.outq = s.core.outq then s.stall else .next t

/-- The trap of a watchpoint match of the instruction before (R413). -/
def State.dueTrap (s : State) : Out :=
  match s.core.wpHit with
  | some h => if s.trapReady then .next (s.hitTrap h).rotateIfStopped else s.stall
  | none => .next (s.upd fun k => { k with hitDue := false })

/-- The turn of the core in focus: a stop time that has come, the rest of a store, the end of an iteration, a pending trap,
or its next instruction. -/
noncomputable def State.coreTurn (s : State) : Out :=
  if !s.core.runs then .next s.rotate
  else if !s.engineLive s.cur && (s.tryRest s.cur).atRest s.cur then .next (s.tryRest s.cur).rotate
  else if s.core.preparing then s.prepare
  else if s.core.waiting then s.stall
  else if !s.core.outq.isEmpty && !(s.core.choked && s.deliverable) then s.drainMore
  else if s.core.ending.isSome then
    match execIterationRetire s.cur s with
    | .next t => .next t
    | _ => s.stall
  else if s.core.hitDue then s.dueTrap
  else if s.deliverable then .next s.deliver
  else if s.core.nextCause.isSome && !s.core.nest && !s.core.midway && !s.core.failing && s.core.stepping.isNone then
    s.stall
  else onNext s.keepYoung s.issueNext

/-- The turn of management core c, one of four, which runs in management mode: no context, no work unit, and its global
addresses are physical. Nothing lets it issue but a turn that names it; where it starts, and what its code is, no rule says
(R16, R376; DESIGN CHOICE, log 74). -/
noncomputable def State.manageTurn (s : State) (c : CoreId) : Out :=
  if 2560 ≤ c ∧ c < 2564 then
    let t := (s.focus c).upd fun k => { k with status := k.status ||| 1#64 }
    onNext (fun u => u.focus s.cur)
      (if t.core.debugStopped || t.core.waiting then t.stall
       else if !t.core.outq.isEmpty then t.drainMore
       else if t.core.ending.isSome then
         match execIterationRetire c t with
         | .next u => .next u
         | _ => t.stall
       else if t.core.hitDue then t.dueTrap
       else t.issueNext)
  else .refused (.notEnabled "manage")

/-! ## Events that need no outside cause -/

/-- The first of some events that the state allows. -/
def firstNext : List (State → Out) → State → Option State
  | [], _ => none
  | f :: l, s =>
    match f s with
    | .next t => some t
    | _ => firstNext l s

/-- What may become of request i. -/
def Req.events (i : Nat) (r : Req) : List (State → Out) :=
  match r.place with
  | .hbm => [execSliceRequest i false]
  | .host => [execSliceRequest i false, execHostCompletion i false]
  | .peer => [execPeerResponse i]
  | .scratch _ =>
    match r.journal with
    | some e =>
      [execPostedStoreAck r.src e, execRemoteApertureRequest i, execPostedStoreRefusal r.src e,
        execJournalTimeout r.src e false]
    | none => [execRemoteApertureRequest i]

/-- Events of core c. -/
def Core.events (k : Core) (c : CoreId) : List (State → Out) :=
  (if k.walk.isSome then [execPageWalkComplete c] else []) ++
    (if k.ending.isSome then [execIterationRetire c] else []) ++
    (if k.mqueue.isEmpty then [] else [execMatrixCommandComplete c]) ++
    ((List.range k.jobs.length).flatMap fun i => [execCopyJobComplete c i, execCopyJobFail c i, execLoaderBeadArrival c i]) ++
    (if k.sleepUntil.isSome then [execSleepDeadline c] else []) ++
    match k.barpAt, k.context with
    | some _, some n => [execPhaseStart n]
    | _, _ => []

/-- Events of the cards: chunks that positions can take, and completions. -/
def State.cardEvents (s : State) : List (State → Out) :=
  if s.cards.isEmpty then []
  else
    (s.cards.map fun p => execCardComplete p.1) ++
      (((s.cur, s.core) :: s.others).filter fun r => r.2.unit.isNone && r.2.context.isSome).map fun r => execDealChunk r.1

/-- Events of a context's stop. -/
def Context.events (x : Context) (n time : Nat) : List (State → Out) :=
  match x.state with
  | .stopping t => if t ≤ time then [execStopTime n] else []
  | .stopped _ => [execContextSave n]
  | _ => []

/-- The events that may happen now without an outside cause, in the default order (log 3). -/
def State.housekeeping (s : State) : List (State → Out) :=
  (if s.charges.isEmpty then [] else [execUncorrectableError 2 0 0 0]) ++
    (s.contexts.flatMap fun p => p.2.events p.1 s.time) ++
    (if s.answers.isEmpty then [] else [execLoadResponse 0]) ++
    (((List.range s.flight.length).zip s.flight).flatMap fun p => p.2.events p.1) ++
    ((List.range s.shootdowns.length).flatMap fun i => [execTlbInvalidationAck i, execTlbInvalidationRequest i]) ++
    (if s.rows.isEmpty then [] else [execCarryRowArrival 0]) ++
    (((s.cur, s.core) :: s.others).flatMap fun r => r.2.events r.1) ++
    (s.clusters.flatMap fun r => r.2.stopping.map fun p => execClusterStopArrival (16 * r.1 + p.1)) ++
    s.cardEvents ++ (if s.update.isSome then [execUpdateTakesEffect] else []) ++
    (if s.hostq.isEmpty then [] else [fun t => t.hostStore 0]) ++
    (if s.posted.isEmpty then [] else [fun t => t.hostGranule 0 0]) ++
    (if s.time < s.foldTime + 10000 then [] else [execReckoningFold])

/-! ## Time (R388, R403, R453) -/

/-- Cycles that pass for a core: TIMESTAMP counts while it runs its context. -/
def Core.tick (k : Core) (cycles : Nat) (live : Bool) : Core :=
  if live && !k.debugStopped && decide (k.rest = .none) then
    { k with timestamp := k.timestamp + BitVec.ofNat 64 cycles }
  else k

/-- BUSY counts each cycle in which a core holds a work unit. -/
def State.countBusy (s : State) (cycles : Nat) : State :=
  ((s.cur, s.core) :: s.others).foldl
    (fun t r =>
      match r.2.unit, r.2.context with
      | some _, some n => t.countCtx n 0 cycles
      | _, _ => t)
    s

/-- ns of the time base pass, with the cycles of the core clock that lie in them. -/
def State.passTime (s : State) (ns : Nat) : State :=
  let total := ns * s.mhz + s.cycleRem
  let cycles := total / 1000
  let live (k : Core) : Bool := match k.context with | some n => s.live n | none => false
  let t := s.resetDeficits.countBusy cycles
  { t with
    time := s.time + ns
    cycleRem := total % 1000
    core := s.core.tick cycles (live s.core)
    others := s.others.map fun r => (r.1, r.2.tick cycles (live r.2)) }

/-! ## Turns of the agenda (log 3, log 8) -/

/-- The host or a peer changes its own memory. -/
def outsideMemory (a : Nat) : Bool :=
  (decide (2 ^ 48 ≤ a) && decide (a < 2 ^ 49)) || (decide (2 ^ 51 ≤ a) && decide (a < 2 ^ 52))

/-- A turn that the agenda names. -/
noncomputable def State.takeTurn (s : State) (x : Turn) : Out :=
  match x with
  | .core c => (s.focus c).coreTurn
  | .event i => if i.isEvent then exec i s else .refused (.notEnabled "event")
  | .pass ns => .next (s.passTime ns)
  | .evictLine c line =>
    .next (s.mapCore c fun k => { k with l1d := terase line k.l1d, l1i := terase line k.l1i })
  | .dropTlb c => .next ((s.mapCore c fun k => { k with tlb := [] }).mapCluster (clusterOf c) fun q => { q with tlb := [] })
  | .fetchAhead c va =>
    let t := s.focus c
    .next
      (match t.prefetchWord va.toNat with
       | some (w, t) =>
         (t.upd fun k => { k with fbuf := tset (heldKey va.toNat k.system) w k.fbuf }).focus s.cur
       | none => s)
  | .jobStep c i pick => s.jobStep c i pick
  | .jobMerge c i o => s.jobMerge c i o
  | .commandAccess c o =>
    match s.commandAccess c o with
    | some t => .next t
    | none => .refused (.notEnabled "command access")
  | .imageOrder c l => .next (s.mapCore c fun k => { k with imgOrder := l })
  | .hostStore i => s.hostStore i
  | .hostPost fn off data relaxed => .next (s.hostPost fn off data relaxed)
  | .hostGranule i j => s.hostGranule i j
  | .readBar0 n => s.readBar0 n
  | .joinDomain fabid peers => s.joinDomain fabid peers
  | .lead c => (s.focus c).leadTurn
  | .younger c j => (s.focus c).youngTurn j
  | .manage c => s.manageTurn c
  | .bindAgency a => .next { s with boundAgency := a }
  | .readBar2 off n => s.readBar2 off n
  | .outside a b => if outsideMemory a then .next { s with mem := memSet a b s.mem } else .refused (.notEnabled "outside")

/-- What happens when the agenda names nothing: an event that needs no outside cause, or else the turn of the core in focus. -/
noncomputable def State.defaultTurn (s : State) : Out :=
  match firstNext s.housekeeping s with
  | some t => .next t
  | none => s.coreTurn

/-! ## A word at the next fetch -/

/-- The address at which withFetchWord places its word: the start of the own scratchpad. -/
def placedAt : Word := 0x0F00000000000000#64

/-- A core that will fetch at placedAt: it holds a unit of context n, and nothing of an instruction is in progress. -/
def Core.poised (k : Core) (n : Nat) : Core :=
  { k with
    pc := placedAt
    context := some n
    unit := some { card := 0, ident := 0, stop := 1, argBase := 0#64, argSize := 8 }
    rest := .none
    dstat := 0#64
    stepping := none
    gang := none
    routine := none
    ending := none
    outq := []
    pend := []
    walk := none
    wb := none
    held := none
    wpHit := none
    hitDue := false
    preparing := false
    barpDone := false
    young := []
    imgOrder := []
    asyncs := []
    journal := []
    carryRecs := []
    inPhase := none
    fbuf := []
    lbuf := [] }

/-- A context on the cluster of core c, for a machine that has none. -/
def standIn (n : Nat) (c : CoreId) : Context :=
  { desc :=
      { ctx := n
        agency := 0
        root := 0#64
        part := 1#160 <<< clusterOf c
        acn := 0
        keys := 1#256
        actab := 0
        acthr := 256
        nqlog := 4
        nqbase := 0
        futbase := 0
        futn := 0
        tvec := 0#64 } }

/-- The context that a placed word runs in. -/
def State.placeContext (s : State) : Nat := s.core.context.getD 0

/-- The state in which the word w is what the next step fetches. -/
def State.place (s : State) (w : Nat) : State :=
  let n := s.placeContext
  { s with
    core := s.core.poised n
    contexts :=
      tset n (match tfind n s.contexts with | some x => { x with state := .running } | none => standIn n s.cur) s.contexts
    mem := memWrite s.mem (scratchKey s.cur 0) w 4
    poisoned := s.poisoned.filter fun g => !overlaps (scratchKey s.cur 0) 4 (8 * g) 8
    agenda := .core s.cur :: s.agenda }

end Sys2Proof.Machine
end

