-- ==== Sys2Proof/Machine/Step.lean ====
section
/-! DEFINITION. One step of the machine. -/

namespace Sys2Proof.Machine

/-- A step is the turn that the agenda names first, or else what the machine does by itself (log 3). -/
noncomputable def step (s : State) : Host.Outcome State Fault Refusal :=
  match s.agenda with
  | x :: l => ({ s with agenda := l } : State).takeTurn x
  | [] => s.defaultTurn

/-- s with the word w where the core in focus fetches next: in its own scratchpad, as the next turn (log 1). -/
def State.withFetchWord (s : State) (_nbits w : Nat) : State := s.place w

end Sys2Proof.Machine
end

