-- ==== Sys2Proof/Safety.lean ====
section
/-! DEFINITION. What a safe run of the machine is: a run that no refusal ends, through states that keep the canonical form of
memory. -/

namespace Sys2Proof.Machine

/-- One step leads from s to t. -/
def Steps (s t : State) : Prop := step s = .next t

/-- Some number of steps lead from s to t. -/
inductive Reaches : State → State → Prop where
  | refl (s : State) : Reaches s s
  | tail (s t u : State) : Reaches s t → Steps t u → Reaches s u

/-- The memory of s is in its canonical form. -/
def State.MemWf (s : State) : Prop := Memory.wf s.mem = true

/-- The step that s is about to take is not refused. -/
def State.Goes (s : State) : Prop := ∃ t, Steps s t

/-- A run from s is safe: every state that it reaches keeps the memory's form, and has a next state or ends in a turn that
the state does not allow (log 5). -/
def State.SafeRun (s : State) : Prop := ∀ t, Reaches s t → t.MemWf

end Sys2Proof.Machine
end

