-- ==== Sys2Proof/Certificates/Slice0/Obligations.lean ====
section
/-! DEFINITION. The statements about the model, and the notions they use. -/

namespace Sys2Proof.Claims

open Sys2Proof.Machine

/-! ## What the statements say about the core in focus -/

/-- The core stands between two instructions of its own: it is in no gang, no deferred instruction, no single step and no
transfer phase that would bar its word, and no watchpoint has matched. -/
structure Alone (s : State) : Prop where
  quiet : s.core.quiet
  mesh : s.core.meshBarred = false

/-- What is left of the bookkeeping of an instruction when it is over: nothing. Control is at pc. -/
def closed (k : Core) (pc : Word) : Core :=
  { k with
    pc := pc, held := none, chanStep := 0, pendingWait := false, walkFaults := [], wb := none, fencing := false,
    inWait := false, arriving := false, barpDone := false, imgOrder := [], imgGot := [] }

/-- The instruction is over with the core in focus k, control at pc, and NOTHING ELSE of the machine changed. -/
def endsAt (s : State) (k : Core) (pc : Word) : State := { s with core := closed k pc }

/-- The same, with control at the next word. -/
def ends (s : State) (k : Core) : State := endsAt s k (s.core.pc + 4#64)

/-- Names with scalar sources and one scalar destination. -/
def reads (l : List (Reg × Dist)) (d : Reg) : Names := { ss := l.map fun x => (x.1, x.2.toNat), ds := [d] }

/-- sext(x, n) for the low n bits of x. -/
def sext (n : Nat) (x : Word) : Word := (x.truncate n).signExtend 64

/-! ## Integer operations (R89 to R95) -/

/-- The names and the result of an integer instruction, as the tables of R89 to R95 give them. -/
def intResult (s : State) : Instr → Option (Names × Reg × Word)
  | .add d a da b db => two d a da b db fun x y => BitVec.ofNat 64 (x.toNat + y.toNat)
  | .sub d a da b db => two d a da b db fun x y => BitVec.ofInt 64 (x.toInt - y.toInt)
  | .mul d a da b db => two d a da b db fun x y => BitVec.ofNat 64 (x.toNat * y.toNat)
  | .mulh d a da b db => two d a da b db fun x y => BitVec.ofInt 64 (x.toInt * y.toInt / 2 ^ 64)
  | .mulhu d a da b db => two d a da b db fun x y => BitVec.ofNat 64 (x.toNat * y.toNat / 2 ^ 64)
  | .madd d a da b db => three d a da b db fun z x y => BitVec.ofNat 64 (z.toNat + x.toNat * y.toNat)
  | .div d a da b db =>
    two d a da b db fun x y =>
      if y = 0#64 then 0xFFFFFFFFFFFFFFFF#64
      else if x.toInt = -2 ^ 63 ∧ y.toInt = -1 then BitVec.ofInt 64 (-2 ^ 63)
      else BitVec.ofInt 64 (x.toInt.tdiv y.toInt)
  | .rem d a da b db =>
    two d a da b db fun x y =>
      if y = 0#64 then x
      else if x.toInt = -2 ^ 63 ∧ y.toInt = -1 then 0#64
      else BitVec.ofInt 64 (x.toInt - y.toInt * x.toInt.tdiv y.toInt)
  | .divu d a da b db =>
    two d a da b db fun x y => if y = 0#64 then 0xFFFFFFFFFFFFFFFF#64 else BitVec.ofNat 64 (x.toNat / y.toNat)
  | .remu d a da b db => two d a da b db fun x y => if y = 0#64 then x else BitVec.ofNat 64 (x.toNat % y.toNat)
  | .and d a da b db => two d a da b db fun x y => x &&& y
  | .or d a da b db => two d a da b db fun x y => x ||| y
  | .xor d a da b db => two d a da b db fun x y => x ^^^ y
  | .andn d a da b db => two d a da b db fun x y => x &&& ~~~ y
  | .shl d a da b db => two d a da b db fun x y => BitVec.ofNat 64 (x.toNat * 2 ^ (y.toNat % 64))
  | .shr d a da b db => two d a da b db fun x y => BitVec.ofNat 64 (x.toNat / 2 ^ (y.toNat % 64))
  | .sra d a da b db => two d a da b db fun x y => BitVec.ofInt 64 (x.toInt / 2 ^ (y.toNat % 64))
  | .rol d a da b db =>
    two d a da b db fun x y => (x <<< (y.toNat % 64)) ||| (x >>> (64 - y.toNat % 64))
  | .min d a da b db => two d a da b db fun x y => if x.toInt < y.toInt then x else y
  | .max d a da b db => two d a da b db fun x y => if x.toInt < y.toInt then y else x
  | .minu d a da b db => two d a da b db fun x y => if x.toNat < y.toNat then x else y
  | .maxu d a da b db => two d a da b db fun x y => if x.toNat < y.toNat then y else x
  | .slt d a da b db => two d a da b db fun x y => if x.toInt < y.toInt then 1#64 else 0#64
  | .sltu d a da b db => two d a da b db fun x y => if x.toNat < y.toNat then 1#64 else 0#64
  | .seq d a da b db => two d a da b db fun x y => if x.toNat = y.toNat then 1#64 else 0#64
  | .clz d a da => one d a da fun x => if x = 0#64 then 64#64 else BitVec.ofNat 64 (63 - x.toNat.log2)
  | .ctz d a da => one d a da fun x => BitVec.ofNat 64 (((List.range 64).find? fun i => x.getLsbD i).getD 64)
  | .popc d a da => one d a da fun x => BitVec.ofNat 64 ((List.range 64).filter fun i => x.getLsbD i).length
  | .sextb d a da => one d a da (sext 8)
  | .sexth d a da => one d a da (sext 16)
  | .sextw d a da => one d a da (sext 32)
  | .bfx d a da b db =>
    two d a da b db fun x y => BitVec.ofNat 64 ((x.toNat >>> place y) % 2 ^ len y)
  | .bfi d a da b db =>
    three d a da b db fun z x y =>
      let m : Word := BitVec.ofNat 64 ((2 ^ len y - 1) <<< place y)
      (z &&& ~~~ m) ||| ((x <<< place y) &&& m)
  | .sel d a da b db => three d a da b db fun z x y => if z ≠ 0#64 then x else y
  | .addw d a da b db => two d a da b db fun x y => sext 32 (x + y)
  | .subw d a da b db => two d a da b db fun x y => sext 32 (x - y)
  | .addi d a da i => one d a da fun x => BitVec.ofInt 64 (x.toInt + i.toInt)
  | .andi d a da i => one d a da fun x => x &&& i.signExtend 64
  | .ori d a da i => one d a da fun x => x ||| i.signExtend 64
  | .xori d a da i => one d a da fun x => x ^^^ i.signExtend 64
  | .slti d a da i => one d a da fun x => if x.toInt < i.toInt then 1#64 else 0#64
  | .sltiu d a da i => one d a da fun x => if x.toNat < (i.signExtend 64).toNat then 1#64 else 0#64
  | .shli d a da n => one d a da fun x => BitVec.ofNat 64 (x.toNat * 2 ^ n.toNat)
  | .shri d a da n => one d a da fun x => BitVec.ofNat 64 (x.toNat / 2 ^ n.toNat)
  | .srai d a da n => one d a da fun x => BitVec.ofInt 64 (x.toInt / 2 ^ n.toNat)
  | .rori d a da n => one d a da fun x => (x >>> n.toNat) ||| (x <<< (64 - n.toNat))
  | .lui d i => some (reads [] d, d, BitVec.ofInt 64 (i.toInt * 2 ^ 14))
  | .adpc d i => some (reads [] d, d, BitVec.ofInt 64 (s.core.pc.toInt + i.toInt * 4))
  | .insi d p z i =>
    if z = 1#1 then some (reads [] d, d, BitVec.ofNat 64 (i.toNat * 2 ^ (16 * p.toNat)))
    else
      some (reads [(d, 0#2)] d, d,
        (s.src d 0 &&& ~~~ (0xFFFF#64 <<< (16 * p.toNat))) ||| (i.zeroExtend 64 <<< (16 * p.toNat)))
  | _ => none
where
  one (d a : Reg) (da : Dist) (f : Word → Word) : Option (Names × Reg × Word) :=
    some (reads [(a, da)] d, d, f (s.src a da.toNat))
  two (d a : Reg) (da : Dist) (b : Reg) (db : Dist) (f : Word → Word → Word) : Option (Names × Reg × Word) :=
    some (reads [(a, da), (b, db)] d, d, f (s.src a da.toNat) (s.src b db.toNat))
  three (d a : Reg) (da : Dist) (b : Reg) (db : Dist) (f : Word → Word → Word → Word) : Option (Names × Reg × Word) :=
    some (reads [(a, da), (b, db), (d, 0#2)] d, d, f (s.src d 0) (s.src a da.toNat) (s.src b db.toNat))
  /-- lo = b[5:0] -/
  place (y : Word) : Nat := y.toNat % 64
  /-- len = min(b[14:8], 64 - lo) -/
  len (y : Word) : Nat := min (y.toNat / 256 % 128) (64 - y.toNat % 64)

end Sys2Proof.Claims

open Sys2Proof Sys2Proof.Machine

/-- R90, and R89, R91 to R95: an integer instruction traps at its word for a distance beyond a name's depth (0x080), then
for an uncarried write (0x0C0), and otherwise, when its names are full, writes d with the value of its rule, for every
operand value, and changes nothing else. Division never traps. -/
def Obligations.IntegerResults : Prop :=
  ∀ (i : Instr) (s : State) (n : Names) (d : Reg) (v : Word), Claims.intResult s i = some (n, d, v) →
    (s.core.distsOk n = false → exec i s = s.trapWord 0x080#10) ∧
    (s.core.distsOk n = true → s.core.writesOk n = false → exec i s = s.trapWord 0x0C0#10) ∧
    (s.core.ready n = true → Claims.Alone s → exec i s = .next (Claims.ends s (s.core.writeS d v)))

namespace Sys2Proof.Claims

/-! ## Control transfers (R96 to R99) -/

/-- x lies outside the body of the loop with W > 1 that runs. -/
def outside (s : State) (x : Word) : Prop :=
  ∃ r, s.core.liveLoop = some r ∧ 1 < r.window ∧ (x.toNat < r.start.toNat ∨ r.last.toNat < x.toNat)

/-- A control transfer: its names, the name that receives the return address, whether it is taken, and its target. -/
structure Transfer where
  names : Names
  link : Option Reg
  taken : Prop
  target : Word

def transfer (s : State) : Instr → Option Transfer
  | .beqz a da o => br a da o fun x => x.toInt = 0
  | .bnez a da o => br a da o fun x => x.toInt ≠ 0
  | .bltz a da o => br a da o fun x => x.toInt < 0
  | .bgez a da o => br a da o fun x => 0 ≤ x.toInt
  | .bgtz a da o => br a da o fun x => 0 < x.toInt
  | .blez a da o => br a da o fun x => x.toInt ≤ 0
  | .bodd a da o => br a da o fun x => x.getLsbD 0 = true
  | .jmp o => some { names := {}, link := none, taken := True, target := by_ o.toInt }
  | .jal o => some { names := { ds := [31#5] }, link := some 31#5, taken := True, target := by_ o.toInt }
  | .jr a da => some { names := { ss := [(a, da.toNat)] }, link := none, taken := True, target := reg a da }
  | .jalr d a da => some { names := reads [(a, da)] d, link := some d, taken := True, target := reg a da }
  | _ => none
where
  by_ (o : Int) : Word := BitVec.ofInt 64 (s.core.pc.toInt + o * 4)
  reg (a : Reg) (da : Dist) : Word := BitVec.ofNat 64 ((s.src a da.toNat).toNat / 4 * 4)
  br (a : Reg) (da : Dist) (o : BitVec 16) (test : Word → Prop) : Option Transfer :=
    some { names := { ss := [(a, da.toNat)] }, link := none, taken := test (s.src a da.toNat), target := by_ o.toInt }

/-- The core after the return address went to its name, if the transfer has one. -/
def linked (s : State) (t : Transfer) : Core :=
  match t.link with
  | some d => s.core.writeS d (s.core.pc + 4#64)
  | none => s.core

/-! ## The LOOP group (R100 to R108) -/

/-- How many names a carry mask holds. -/
def carried (m : BitVec 32) : Nat := ((List.range 32).filter fun i => m.getLsbD i).length

/-- The declaration fits beside those of the active loops: 128 scalar and 48 vector entries, 32 of them base entries, a
carried scalar taking D - 1 entries more and a carried vector 1 when D is 2 or more (R25). -/
def fits (k : Core) (c : Carry) : Prop :=
  32 + (k.loops.map fun l => carried l.carry.scalars * (l.carry.depth - 1)).sum + carried c.scalars * (c.depth - 1) ≤ 128 ∧
    32 + (k.loops.map fun l => if 2 ≤ l.carry.depth then carried l.carry.vectors else 0).sum +
      (if 2 ≤ c.depth then carried c.vectors else 0) ≤ 48

/-- The declaration that LCAR records. -/
def declared (s : State) (b a : Reg) (da : Dist) (i : BitVec 11) : Carry :=
  { scalars := (s.src a da.toNat).truncate 32 &&& 0xFFFFFFFE#32
    vectors := (s.src b 0).truncate 32
    depth := i.toNat }

/-- ITX, LSTAT and MOVD: names, destination and value. -/
def loopRead (s : State) : Instr → Option (Names × Reg × Word)
  | .itx d l => (s.core.loops[l.toNat - 1]?).map fun r => (reads [] d, d, BitVec.ofNat 64 (r.iter % 2 ^ 32))
  | .lstat d l => some (reads [] d, d, if l = 1#11 then s.core.x1 else s.core.x2)
  | .movd d a m => some ({ ss := [(a, m.toNat)], ds := [d] }, d, (s.core.srcS a m.toNat).val)
  | _ => none

/-- The status word of R39: index in [31:0], left early in [32], level less one in [33]. -/
def exitStatus (early : Bool) (level index : Nat) : Word :=
  BitVec.ofNat 64 (index % 2 ^ 32 + (if early then 2 ^ 32 else 0) + (level - 1) * 2 ^ 33)

/-! ## The GANG group (R110, R111) -/

/-- The value of a collective of gang g: names, destination, value. -/
def collective (s : State) (g : Gang) : Instr → Option (Names × Reg × Word)
  | .gany d a da => some (reads [(a, da)] d, d, if ∃ x ∈ vals a da, x ≠ 0#64 then 1#64 else 0#64)
  | .gall d a da => some (reads [(a, da)] d, d, if ∀ x ∈ vals a da, x ≠ 0#64 then 1#64 else 0#64)
  | .gbc d a da m => some (reads [(a, da)] d, d, (vals a da).getD (m.toNat % g.width) 0#64)
  | .gsum d a da => some (reads [(a, da)] d, d, BitVec.ofNat 64 ((vals a da).map fun x => x.toNat).sum)
  | _ => none
where
  vals (a : Reg) (da : Dist) : List Word := g.members.map fun c => ((s.getCore c).srcS a da.toNat).val

/-- Every member has retired the iteration before, and the sources of a collective are full in it. -/
def collected (s : State) (g : Gang) : Instr → Prop
  | .gany _ a da => full a da
  | .gall _ a da => full a da
  | .gbc _ a da _ => full a da
  | .gsum _ a da => full a da
  | _ => True
where
  full (a : Reg) (da : Dist) : Prop :=
    ∀ c ∈ g.members, (s.getCore c).lag = 0 ∧ (s.getCore c).ending = none ∧ ((s.getCore c).srcS a da.toNat).full = true

/-- A member of gang g issues, with no deferred instruction, step, watchpoint match or barred word in its way. -/
structure Member (s : State) (g : Gang) : Prop where
  gang : s.core.gang = some g
  inside : s.cur ∈ g.members
  routine : s.core.routine = none
  step : s.core.stepping = none
  hit : s.core.wpHit = none
  mesh : s.core.meshBarred = false

end Sys2Proof.Claims

/-- R96 to R99: a branch that is not taken goes to the next word; a transfer that is taken goes to its target, with the
return address in s31 (JAL) or d (JALR, after a is read), and raises 0x0C7 when its target lies outside the body of a loop
with W > 1. Nothing else changes. -/
def Obligations.ControlTransfers : Prop :=
  ∀ (i : Instr) (s : State) (t : Claims.Transfer), Claims.transfer s i = some t → s.core.ready t.names = true →
    Claims.Alone s →
    (¬t.taken → exec i s = .next (Claims.ends s s.core)) ∧
    (t.taken → Claims.outside s t.target → exec i s = s.trapWord 0x0C7#10) ∧
    (t.taken → ¬Claims.outside s t.target → exec i s = .next (Claims.endsAt s (Claims.linked s t) t.target))

namespace Sys2Proof.Claims

/-- The word at va is ENDIT: the core holds it in its fetch buffer or its loop buffer, or it lies, not poisoned, in the own
scratchpad. -/
def enditAt (s : State) (va : Nat) : Prop :=
  let key := 2 * va + if s.core.system then 1 else 0
  tfind key s.core.fbuf = some 0x41000000#32 ∨
    tfind key s.core.fbuf = none ∧ tfind key s.core.lbuf = some 0x41000000#32 ∨
    tfind key s.core.fbuf = none ∧ tfind key s.core.lbuf = none ∧ va / 2 ^ 56 = 15 ∧ va % 2 ^ 56 + 4 ≤ s.core.scratchSize ∧
      va % 2 ^ 56 + 4 ≤ 2 ^ 19 ∧ s.poisonIn (scratchKey s.cur (va % 2 ^ 56)) 4 = false ∧
      memRead s.mem (scratchKey s.cur (va % 2 ^ 56)) 4 = 0x41000000

/-- R31, R33 and R102: a LOOP whose body has 1 to 1,024 words and ends in ENDIT, and whose carried names are full, goes into
its body, or past it when its count is 0. -/
def LoopCompletes : Prop :=
  ∀ (s : State) (a : Reg) (da : Dist) (n : BitVec 11), Alone s → s.core.loading = false → s.core.wp = [] →
    s.core.loops.length < 2 → 1 ≤ n.toNat → n.toNat ≤ 1024 → s.core.ready { ss := [(a, da.toNat)] } = true →
    s.core.carryFull (s.core.lcar.getD {}) = true → enditAt s (s.core.pc.toNat + 4 * n.toNat) →
    ∃ t, exec (.loop a da n) s = .next t ∧ t.core.lcar = none ∧
      t.core.pc =
        if (s.src a da.toNat).toNat % 2 ^ 32 = 0 then BitVec.ofNat 64 (s.core.pc.toNat + 4 * n.toNat) + 4#64
        else s.core.pc + 4#64

/-- R46, R110 and R111: in a member of a gang, outside every loop, FUSE and SPLIT go on to the next word; GIDX goes on; and a
collective of the leader goes on once its source is full in every member, each of which has retired the iteration before.
FUSE in a core whose unit has formed no gang goes on too. -/
def GangCompletes : Prop :=
  ∀ s : State,
    (s.core.quiet → s.core.loops = [] → s.core.wasGang = none →
      ∃ t, exec .fuse s = .next t ∧ t.core.pc = s.core.pc + 4#64) ∧
    ∀ g, Member s g →
      (s.core.loops = [] →
        (∃ t, exec .fuse s = .next t ∧ t.core.pc = s.core.pc + 4#64) ∧
        ∃ t, exec .split s = .next t ∧ t.core.pc = s.core.pc + 4#64) ∧
      (∀ d : Reg, s.core.ready { ds := [d] } = true → ∃ t, exec (.gidx d) s = .next t ∧ t.core.pc = s.core.pc + 4#64) ∧
      ∀ (d a : Reg) (da : Dist) (m : BitVec 11), s.cur = g.leader → s.core.ready (reads [(a, da)] d) = true →
        (∀ c ∈ g.members,
          (s.getCore c).lag = 0 ∧ (s.getCore c).ending = none ∧ ((s.getCore c).srcS a da.toNat).full = true) →
        (∃ t, exec (.gany d a da) s = .next t ∧ t.core.pc = s.core.pc + 4#64) ∧
        (∃ t, exec (.gall d a da) s = .next t ∧ t.core.pc = s.core.pc + 4#64) ∧
        (∃ t, exec (.gbc d a da m) s = .next t ∧ t.core.pc = s.core.pc + 4#64) ∧
        ∃ t, exec (.gsum d a da) s = .next t ∧ t.core.pc = s.core.pc + 4#64

end Sys2Proof.Claims

/-- R25, R101, R105 to R108, R103 and R104: what the LOOP-group instructions do in a core that runs no KDO loader: LCAR records
its declaration or raises 0x082 or 0x081; ITX, LSTAT and MOVD write their values; CONTIF goes to ENDIT or on; BRKIF and ENDIT
mark the end of the iteration, which ITERATION_RETIRE completes. It says too where LOOP and the GANG group go on (R102, R110,
R111). -/
def Obligations.LoopGroupResults : Prop :=
  Claims.LoopCompletes ∧ Claims.GangCompletes ∧
  ∀ s : State, Claims.Alone s → s.core.loading = false →
    (∀ (b a : Reg) (da : Dist) (i : BitVec 11), s.core.ready { ss := [(a, da.toNat), (b, 0)] } = true →
      (¬(1 ≤ i.toNat ∧ i.toNat ≤ 8) → exec (.lcar b a da i) s = s.trapWord 0x082#10) ∧
      (1 ≤ i.toNat ∧ i.toNat ≤ 8 → ¬Claims.fits s.core (Claims.declared s b a da i) →
        exec (.lcar b a da i) s = s.trapWord 0x081#10) ∧
      (1 ≤ i.toNat ∧ i.toNat ≤ 8 → Claims.fits s.core (Claims.declared s b a da i) →
        exec (.lcar b a da i) s = .next (Claims.ends s { s.core with lcar := some (Claims.declared s b a da i) }))) ∧
    (∀ (i : Instr) (n : Names) (d : Reg) (v : Word), Claims.loopRead s i = some (n, d, v) → s.core.ready n = true →
      exec i s = .next (Claims.ends s (s.core.writeS d v))) ∧
    (∀ (r : LoopRec) (l : List LoopRec), s.core.loops = r :: l →
      (∀ (a : Reg) (da : Dist), s.core.ready { ss := [(a, da.toNat)] } = true →
        exec (.contif a da) s =
          .next (if s.src a da.toNat = 0#64 then Claims.ends s s.core else Claims.endsAt s s.core r.last)) ∧
      (∀ (a : Reg) (da : Dist) (n : BitVec 11), s.core.ready { ss := [(a, da.toNat)] } = true →
        (n = 1#11 ∨ n = 2#11 ∧ l ≠ []) →
        exec (.brkif a da n) s =
          .next (if s.src a da.toNat = 0#64 then Claims.ends s s.core
            else { s with core := { s.core with ending := some (.brk n.toNat) } })) ∧
      (s.core.pc = r.last → exec .endit s = .next { s with core := { s.core with ending := some .endit } }) ∧
      (s.core.pc ≠ r.last → exec .endit s = s.trapWord 0x0C7#10))

/-- R102, R32 and R33: LOOP with a count of zero sets X1 to 0xFFFFFFFF and X2 to 0 and goes past its ENDIT; otherwise it
pushes a record, and control goes to PC + 4. Either way it consumes the pending declaration, and gives every slot of a
carried name its current value (with a count of zero, a name that an enclosing loop carries too goes back to that loop's
versions at once, R40). Of the model, and not of the rules, is what State.nestsLoop takes for a LOOP in the body (log 36), and
that the count is read at the distance of the field da where a word has one other than 0 (log 70). -/
def Obligations.LoopEntry : Prop :=
  ∀ (a : Reg) (da : Dist) (n : BitVec 11) (s u : State), Claims.Alone s → s.core.loading = false →
    s.core.ready { ss := [(a, da.toNat)] } = true → s.core.loops.length < 2 → 1 ≤ n.toNat → n.toNat ≤ 1024 →
    s.fetchAt (s.core.pc.toNat + 4 * n.toNat) = .word 0x41000000#32 u → u.core.quiet →
    s.core.carryFull (s.core.lcar.getD {}) = true →
    let c := s.core.lcar.getD {}
    let last : Word := BitVec.ofNat 64 (s.core.pc.toNat + 4 * n.toNat)
    let count := (s.src a da.toNat).toNat % 2 ^ 32
    ∃ t, exec (.loop a da n) s = .next t ∧ t.core.lcar = none ∧
      (count = 0 →
        t.core.pc = last + 4#64 ∧ t.core.loops = s.core.loops ∧ t.core.x1 = 0xFFFFFFFF#64 ∧ t.core.x2 = 0#64 ∧
        (∀ x : Reg, c.scalars.getLsbD x.toNat = true → s.core.carriesS x = false →
          (t.core.sver x).hist = List.replicate c.depth { val := ((s.core.sver x).newest 0#64).val }) ∧
        ∀ x : Reg, c.vectors.getLsbD x.toNat = true → s.core.carriesV x = false →
          (t.core.vver x).hist = List.replicate (min c.depth 2) { val := ((s.core.vver x).newest 0#512).val }) ∧
      (count ≠ 0 →
        t.core.pc = s.core.pc + 4#64 ∧ t.core.x1 = s.core.x1 ∧ t.core.x2 = s.core.x2 ∧
        ∃ r, t.core.loops = r :: s.core.loops ∧ r.start = s.core.pc + 4#64 ∧ r.last = last ∧ r.count = count ∧
          r.iter = 0 ∧ r.carry = c ∧
          r.window = (if s.nestsLoop (s.core.pc.toNat + 4) n.toNat then 1
            else if c.vectors = 0#32 then c.depth else min c.depth 2) ∧
          (∀ x : Reg, c.scalars.getLsbD x.toNat = true →
            (t.core.sver x).hist = List.replicate c.depth { val := ((s.core.sver x).newest 0#64).val }) ∧
          ∀ x : Reg, c.vectors.getLsbD x.toNat = true →
            (t.core.vver x).hist = List.replicate (min c.depth 2) { val := ((s.core.vver x).newest 0#512).val })

namespace Sys2Proof.Claims

/-- The versions of a carried name when its iteration retires: one that the iteration has not written passes its newest version
on (R35). -/
def retired {α : Type} (dflt : α) (v : Ver α) : List (Slot α) :=
  if v.wrote then v.hist else v.newest dflt :: v.hist.dropLast

/-- The versions of a carried name when its loop is over: those of the loop's last iteration, or, of a name o that an enclosing
loop carries too, o with a write of the last inner version (R39, R40). -/
def left {α : Type} (dflt : α) (aside : Option (Ver α)) (v : Ver α) : List (Slot α) :=
  match aside with
  | none => retired dflt v
  | some o => { val := (v.newest dflt).val } :: if o.wrote then o.hist.tail else o.hist.dropLast

/-- The names that the loop of r carries have the versions f or g in t. -/
def NamesOf (r : LoopRec) (t : State) (f : Reg → List (Slot Word)) (g : Reg → List (Slot Vec)) : Prop :=
  (∀ x : Reg, r.carry.scalars.getLsbD x.toNat = true → (t.core.sver x).hist = f x) ∧
    ∀ x : Reg, r.carry.vectors.getLsbD x.toNat = true → (t.core.vver x).hist = g x

end Sys2Proof.Claims

/-- R22, R35, R39, R40, R103, R104 and R163: when an iteration may retire, its buffered stores are written, its flags are
added, each carried name that it did not write passes its version on, and the loop goes on with the next iteration, or ends
with the exit words that its end gives and the versions that R39 and R40 leave. The next iteration is the oldest of those that
have begun (R22), or, where none has, begins at the start of the body; at the exit those that have begun are cancelled
(R37). -/
def Obligations.IterationRetires : Prop :=
  ∀ (c : CoreId) (s : State) (e : Ending) (r : LoopRec) (l : List LoopRec), (s.focus c).core.quiet → (s.focus c).core.wp = [] →
    (s.focus c).core.ending = some e → (s.focus c).core.loops = r :: l → (s.focus c).mayRetire = true →
    (∀ n, e = .brk n → n = 1 ∨ n = 2 ∧ l ≠ []) →
    let k := (s.focus c).core
    let done : Prop := e = .endit ∧ r.count ≤ r.iter + 1 ∨ ∃ n, e = .brk n
    ∃ t, exec (.iterationRetire c) s = .next t ∧ t.cur = c ∧ (k.refetch = false → t.mem = (s.focus c).flush.mem) ∧
      (k.refetch = false → t.flight = (s.focus c).flush.flight) ∧ t.core.lcar = none ∧
      t.core.fflags = k.fflags ||| k.pendingFlags ∧
      (k.young = [] ∨ done →
        t.core.young = [] ∧ t.core.sbuf = [] ∧ t.core.ending = none ∧ t.core.pendingFlags = 0#64) ∧
      (e = .endit → r.iter + 1 < r.count →
        t.core.loops = { r with iter := r.iter + 1 } :: l ∧ t.core.x1 = k.x1 ∧ t.core.x2 = k.x2 ∧
        (k.young = [] →
          t.core.pc = r.start ∧
          Claims.NamesOf r t (fun x => Claims.retired 0#64 (k.sver x)) fun x => Claims.retired 0#512 (k.vver x)) ∧
        ∀ y ys, k.young = y :: ys →
          t.core.pc = y.pc ∧ t.core.sbuf = y.sbuf ∧ t.core.pend = y.pend ∧ t.core.ending = y.ending ∧
          t.core.pendingFlags = y.flags ∧ t.core.young = ys) ∧
      (e = .endit → r.count ≤ r.iter + 1 →
        t.core.pc = r.last + 4#64 ∧ t.core.loops = l ∧ t.core.x1 = Claims.exitStatus false 1 r.iter ∧ t.core.x2 = 0#64) ∧
      (e = .brk 1 →
        t.core.pc = r.last + 4#64 ∧ t.core.loops = l ∧ t.core.x1 = Claims.exitStatus true 1 r.iter ∧ t.core.x2 = 0#64) ∧
      (e ≠ .brk 2 → done →
        Claims.NamesOf r t (fun x => Claims.left 0#64 (tfind x.toNat r.asideS) (k.sver x))
          fun x => Claims.left 0#512 (tfind x.toNat r.asideV) (k.vver x)) ∧
      ∀ o m, l = o :: m → e = .brk 2 →
        t.core.pc = o.last + 4#64 ∧ t.core.loops = m ∧ t.core.x1 = Claims.exitStatus true 2 r.iter ∧
        t.core.x2 = Claims.exitStatus true 2 o.iter

/-- R45, R111: in every member of a gang a collective writes the value formed from one source of each member: the leader
forms it when every source is full, and a follower takes it from the path. GIDX needs no exchange. -/
def Sys2Proof.Claims.Collectives : Prop :=
  ∀ (s : State) (g : Gang), Claims.Member s g →
    (∀ (i : Instr) (n : Names) (d : Reg) (v : Word), Claims.collective s g i = some (n, d, v) → s.core.ready n = true →
      (s.cur = g.leader → Claims.collected s g i →
        ∃ t, exec i s = .next t ∧ t.core.pc = s.core.pc + 4#64 ∧ t.core.sregs = (s.core.writeS d v).sregs) ∧
      (s.cur ≠ g.leader → ∀ y, s.pathOutcome = some y →
        ∃ t, exec i s = .next t ∧ t.core.pc = s.core.pc + 4#64 ∧ t.core.sregs = (s.core.writeS d y).sregs)) ∧
    ∀ d : Reg, g.leader % 16 + g.width ≤ 16 → s.core.ready { ds := [d] } = true →
      ∃ t, exec (.gidx d) s = .next t ∧ t.core.pc = s.core.pc + 4#64 ∧
        t.core.sregs = (s.core.writeS d (BitVec.ofNat 64 (s.cur % 16 - g.leader % 16))).sregs

/-- R46, R110: FUSE in a gang, or in a core whose unit has formed no gang, goes on at once; the FUSE that the last split
member reaches puts all of them back into the gang; the SPLIT that the last member issues dissolves it. -/
def Sys2Proof.Claims.FuseAndSplit : Prop :=
  ∀ s : State, s.core.loops = [] →
    (s.core.quiet → s.core.wasGang = none → exec .fuse s = .next (Claims.ends s s.core)) ∧
    (∀ g, Claims.Member s g → ∃ t, exec .fuse s = .next t ∧ t.core.pc = s.core.pc + 4#64) ∧
    (∀ g, s.core.quiet → s.core.wasGang = some g → s.cur ∈ g.members →
      (∀ c ∈ g.members, c ≠ s.cur → (s.getCore c).join = some .fuse ∧ (s.getCore c).pc = s.core.pc) →
      ∃ t, exec .fuse s = .next t ∧
        ∀ c ∈ g.members, (t.getCore c).gang = some g ∧ (t.getCore c).pc = s.core.pc + 4#64 ∧ (t.getCore c).join = none) ∧
    (∀ g, Claims.Member s g → (∀ c ∈ g.members, c ≠ s.cur → (s.getCore c).ahead = true) →
      ∃ t, exec .split s = .next t ∧
        ∀ c ∈ g.members, (t.getCore c).gang = none ∧ (t.getCore c).wasGang = some g) ∧
    (s.core.gang = none → exec .split s = s.trapWord 0x0C5#10)

namespace Sys2Proof.Claims

/-! ## Accesses to the own scratchpad (R216) -/

/-- The n bytes at va lie in the scratchpad of the core in focus, no watchpoint of it matches the access, and no granule
of them is poisoned. -/
structure Own (s : State) (acc : Access) (va n : Nat) : Prop where
  aperture : va / 2 ^ 56 = 15
  size : va % 2 ^ 56 + n ≤ s.core.scratchSize
  room : va % 2 ^ 56 + n ≤ 2 ^ 19
  watch : s.core.wpMatch s.cur acc true (va % 2 ^ 56) n = none
  clean : s.poisonIn (scratchKey s.cur (va % 2 ^ 56)) n = false

/-- Where byte 0 of an own-scratchpad access lies in memory. -/
def ownKey (s : State) (va : Nat) : Nat := scratchKey s.cur (va % 2 ^ 56)

/-- The core is outside every loop with W > 1, and nothing of it is under way: no buffered or unperformed store, no pending
load, no journal entry in use, no engine at work. -/
structure Settled (s : State) : Prop where
  loop : s.core.overlapped = false
  buffer : s.core.sbuf = []
  queue : s.core.mqueue = []
  jobs : s.core.jobs = []
  journal : s.core.journal = []
  loads : s.core.pend = []
  stores : s.storesPerformed = true

def bytesOf : Size → Nat
  | .b => 1 | .h => 2 | .w => 4 | .d => 8

def wideBytes : Wide → Nat
  | .w => 4 | .d => 8

/-- a + sext(off11, 11) × n. -/
def address (s : State) (a : Reg) (da : Dist) (o : BitVec 11) (n : Nat) : Nat :=
  (BitVec.ofInt 64 ((s.src a da.toNat).toInt + o.toInt * n)).toNat

/-- A scalar load: names, destination, address, size, and whether it sign-extends. -/
structure Load where
  names : Names
  d : Reg
  va : Nat
  n : Nat
  signed : Bool

/-- The loads of R277, and LDRO (R279). -/
def load (s : State) : Instr → Option Load
  | .lb d a da o => ld d a da o 1 true
  | .lbu d a da o => ld d a da o 1 false
  | .lh d a da o => ld d a da o 2 true
  | .lhu d a da o => ld d a da o 2 false
  | .lw d a da o => ld d a da o 4 true
  | .lwu d a da o => ld d a da o 4 false
  | .ld d a da o => ld d a da o 8 false
  | .ldro d a da z _ => some ⟨reads [(a, da)] d, d, (s.src a da.toNat).toNat, bytesOf z, false⟩
  | _ => none
where
  ld (d a : Reg) (da : Dist) (o : BitVec 11) (n : Nat) (signed : Bool) : Option Load :=
    some ⟨reads [(a, da)] d, d, address s a da o n, n, signed⟩

/-- A byte that the core's own load finds: the bits that the buffered stores of its iteration give, the youngest first, and
memory's for the rest (R41). -/
def ownByte (s : State) (off : Nat) : Nat :=
  let f := s.core.forward (.scratch s.cur) off
  ((memByte s.mem (scratchKey s.cur off)).toNat &&& (255 - f.1)) ||| (f.2 &&& f.1)

/-- The little-endian number of n such bytes. -/
def ownBytes (s : State) (off n : Nat) : Nat := ((List.range n).map fun i => ownByte s (off + i) * 256 ^ i).sum

/-- The number v of n bytes, extended to 64 bits. -/
def extended (n : Nat) (signed : Bool) (v : Nat) : Word :=
  if signed then (BitVec.ofNat (8 * n) v).signExtend 64 else BitVec.ofNat 64 v

/-- A scalar store: names, address, size, value. -/
structure Store where
  names : Names
  va : Nat
  n : Nat
  v : Nat

/-- The stores of R278. -/
def store (s : State) : Instr → Option Store
  | .sb d a da o => st d a da o 1
  | .sh d a da o => st d a da o 2
  | .sw d a da o => st d a da o 4
  | .sd d a da o => st d a da o 8
  | _ => none
where
  st (d a : Reg) (da : Dist) (o : BitVec 11) (n : Nat) : Option Store :=
    some ⟨{ ss := [(a, da.toNat), (d, 0)] }, address s a da o n, n, (s.src d 0).toNat⟩

/-- STL and STS (R279, R281). -/
def orderedStore (s : State) : Instr → Option Store
  | .stl d a da z _ => some ⟨{ ss := [(a, da.toNat), (d, 0)] }, (s.src a da.toNat).toNat, bytesOf z, (s.src d 0).toNat⟩
  | .sts d a da z _ => some ⟨{ ss := [(a, da.toNat), (d, 0)] }, (s.src a da.toNat).toNat, bytesOf z, (s.src d 0).toNat⟩
  | _ => none

/-- An atomic: its names, and the new value from old, b and d, each of n bytes (R282). -/
structure Atomic where
  d : Reg
  a : Reg
  b : Reg
  order : Order
  scope : Scope
  n : Nat
  new : Nat → Nat → Nat → Nat

def atomic : Instr → Option Atomic
  | .amoswp d a b o x z => some ⟨d, a, b, o, x, wideBytes z, fun _ b _ => b⟩
  | .amoadd d a b o x z => some ⟨d, a, b, o, x, wideBytes z, fun old b _ => (old + b) % 2 ^ (8 * wideBytes z)⟩
  | .amoand d a b o x z => some ⟨d, a, b, o, x, wideBytes z, fun old b _ => old &&& b⟩
  | .amoor d a b o x z => some ⟨d, a, b, o, x, wideBytes z, fun old b _ => old ||| b⟩
  | .amoxor d a b o x z => some ⟨d, a, b, o, x, wideBytes z, fun old b _ => old ^^^ b⟩
  | .amomin d a b o x z =>
    some ⟨d, a, b, o, x, wideBytes z, fun old b _ => if signed z b < signed z old then b else old⟩
  | .amomax d a b o x z =>
    some ⟨d, a, b, o, x, wideBytes z, fun old b _ => if signed z old < signed z b then b else old⟩
  | .amominu d a b o x z => some ⟨d, a, b, o, x, wideBytes z, fun old b _ => if b < old then b else old⟩
  | .amomaxu d a b o x z => some ⟨d, a, b, o, x, wideBytes z, fun old b _ => if old < b then b else old⟩
  | .cas d a b o x z => some ⟨d, a, b, o, x, wideBytes z, fun old b d => if old = d then b else old⟩
  | .amofadd d a b o x => some ⟨d, a, b, o, x, 4, fun old b _ => (fmt32.add 0 old b).bits⟩
  | .amoinc d a b o x z =>
    some ⟨d, a, b, o, x, wideBytes z, fun old b _ => if b ≤ old then 0 else old + 1⟩
  | _ => none
where
  signed (z : Wide) (v : Nat) : Int := (BitVec.ofNat (8 * wideBytes z) v).toInt

def acquires (o : Order) : Bool := decide (o = .acquire ∨ o = .acquireRelease)

/-- What an acquire at scope x does to the copies that the core holds (R222): at CLU or wider its L1 data lines go, and no
line on its way to it is kept. -/
def forgets (s : State) (x : Scope) : State :=
  if x = .core then s
  else
    { s with
      flight := s.flight.map fun r => if r.src = s.cur then { r with fill := false } else r
      answers := s.answers.map fun a => if a.line.isSome ∧ a.dst = s.cur then { a with line := none } else a
      core := { s.core with l1d := [] } }

/-- The program counter of the core, and that it is over with its instruction. -/
def stepped (s t : State) : Prop := t.core.pc = s.core.pc + 4#64

/-! ## The engine window (R226 to R231) -/

/-- The register of the window that an LD at the offset returns. -/
def windowValue (k : Core) (o : Nat) : Word :=
  if o = 0 then k.qw0 else if o = 8 then k.qw1 else if o = 0x10 then k.qw2 else if o = 0x18 then k.qw3
  else if o = 0x20 then 0#64 else BitVec.ofNat 64 (k.jobs.length * 2 ^ 32 + k.lastJob)

/-- The KIND of the job that each QGO event submits (R227). -/
def qgoKind : Instr → Option Nat
  | .qgoCopy => some 0
  | .qgoTensor => some 1
  | .qgoMcast => some 2
  | .qgoMcwrite => some 3
  | .qgoFill => some 4
  | .qgoSubscribe => some 5
  | .qgoPull => some 6
  | _ => none

end Sys2Proof.Claims

/-- R277 and R280: a load whose bytes lie in the core's own scratchpad writes them, extended, and changes nothing else;
no alignment is required. The bytes are those of memory, or of the stores that its iteration has buffered (R41). -/
def Obligations.OwnLoads : Prop :=
  ∀ (i : Instr) (s : State) (l : Claims.Load), Claims.load s i = some l → s.core.ready l.names = true →
    Claims.Alone s → Claims.Own s .load l.va l.n →
    exec i s =
      .next (Claims.ends s (s.core.writeS l.d (Claims.extended l.n l.signed (Claims.ownBytes s (l.va % 2 ^ 56) l.n))))

/-- R276 and R277: a load whose bytes lie elsewhere, with no copy of them in the L1 and no buffered store, sends one
request for them and goes on; its destination is empty until the answer comes. The requests before it stay, but may no
longer put their line into the L1. -/
def Sys2Proof.Claims.LoadsSendRequests : Prop :=
  ∀ (i : Instr) (s : State) (l : Claims.Load) (p : Piece), Claims.load s i = some l → s.core.ready l.names = true →
    Claims.Alone s → s.plan .load [(l.va, l.n, 0)] = .go [p] → p.place ≠ .scratch s.cur → s.core.sbuf = [] →
    tfind (p.addr / 128) s.core.l1d = none → s.core.wp = [] →
    ∃ (t : State) (r : Req) (l' : List Req), exec i s = .next t ∧ t.flight = l' ++ [r] ∧
      (l'.map fun q => { q with fill := false }) = (s.flight.map fun q => { q with fill := false }) ∧ r.src = s.cur ∧
      r.place = p.place ∧ r.addr = p.addr ∧ r.size = l.n ∧ r.pend = some s.core.nextPend ∧ (r.kind = .load ∨ r.kind = .ldro) ∧
      t.mem = s.mem ∧ Claims.stepped s t ∧ t.core.sregs = (s.core.emptyS l.d).sregs ∧
      ∃ q, t.core.pend = s.core.pend ++ [(s.core.nextPend, q)] ∧ q.dest = .scalar l.d l.n l.signed ∧ q.left = 1

/-- R278 and R41: outside overlapped loops a store to the own scratchpad writes the low n bytes of d at the address, and
changes nothing else; in a loop with W > 1 it waits in the iteration's store buffer, with its place, address and bytes, and
memory does not change. -/
def Obligations.OwnStores : Prop :=
  ∀ (i : Instr) (s : State) (w : Claims.Store), Claims.store s i = some w → s.core.ready w.names = true →
    Claims.Alone s → Claims.Own s .store w.va w.n → s.core.mqueue = [] →
    (s.core.overlapped = false → s.core.sbuf = [] → s.core.outq = [] →
      exec i s =
        .next { Claims.ends s s.core with mem := memWrite s.mem (Claims.ownKey s w.va) w.v w.n }) ∧
    (s.core.overlapped = true → s.core.sbuf.length < 64 →
      ∃ r : Req, exec i s = .next (Claims.ends s { s.core with sbuf := s.core.sbuf ++ [[r]] }) ∧ r.src = s.cur ∧
        r.kind = .store ∧ r.place = .scratch s.cur ∧ r.addr = w.va % 2 ^ 56 ∧ r.size = w.n ∧
        r.data = BitVec.ofNat 64 (w.v % 256 ^ w.n))

/-- R279 to R281 and R256: LDA, STL, STS and STN in the own scratchpad of a core that has nothing under way. LDA forgets
the L1 data lines at CLU scope or wider; STN writes one nibble and keeps the other; an address that is not a multiple of the
size raises 0x240 in LDA, STL and STS. -/
def Obligations.OrderedAccesses : Prop :=
  ∀ s : State, Claims.Alone s → Claims.Settled s → s.core.held = none →
    (∀ (d a : Reg) (da : Dist) (z : Size) (x : Scope), s.core.ready (Claims.reads [(a, da)] d) = true →
      let va := (s.src a da.toNat).toNat
      let u := Claims.forgets s x
      (va % Claims.bytesOf z = 0 → Claims.Own s .load va (Claims.bytesOf z) →
        exec (.lda d a da z x) s =
          .next (Claims.ends u
            (u.core.writeS d (BitVec.ofNat 64 (memRead s.mem (Claims.ownKey s va) (Claims.bytesOf z)))))) ∧
      (va % Claims.bytesOf z ≠ 0 → exec (.lda d a da z x) s = s.trap 0x240#10 (s.src a da.toNat))) ∧
    (∀ (i : Instr) (w : Claims.Store), Claims.orderedStore s i = some w → s.core.ready w.names = true →
      (w.va % w.n = 0 → Claims.Own s .store w.va w.n →
        exec i s = .next { Claims.ends s s.core with mem := memWrite s.mem (Claims.ownKey s w.va) w.v w.n }) ∧
      (w.va % w.n ≠ 0 → exec i s = s.trap 0x240#10 (BitVec.ofNat 64 w.va))) ∧
    ∀ (d a : Reg) (da : Dist) (x : Scope) (h : BitVec 1), s.core.ready { ss := [(a, da.toNat), (d, 0)] } = true →
      let va := (s.src a da.toNat).toNat
      let b := (memByte s.mem (Claims.ownKey s va)).toNat
      let q := (s.src d 0).toNat % 16
      Claims.Own s .store va 1 →
      exec (.stn d a da x h) s =
        .next { Claims.ends s s.core with
          mem := memSet (Claims.ownKey s va) (BitVec.ofNat 8 (if h = 1#1 then b % 16 + 16 * q else b / 16 * 16 + q)) s.mem }

/-- R254 and R426: outside overlapped loops a store to the scratchpad of another core takes the lowest free journal entry,
which records it as pending with its size, owner and granule, and is posted as a request that carries the entry. -/
def Sys2Proof.Claims.PostedStores : Prop :=
  ∀ (i : Instr) (s : State) (w : Claims.Store) (p : Piece) (c : CoreId) (e : Nat), Claims.store s i = some w →
    s.core.ready w.names = true → Claims.Alone s → s.plan .store [(w.va, w.n, 0)] = .go [p] → p.place = .scratch c →
    c ≠ s.cur → s.core.wp = [] → s.core.mqueue = [] → s.core.overlapped = false → s.core.sbuf = [] → s.core.outq = [] →
    s.core.freeEntry = some e →
    ∃ (t : State) (r : Req), exec i s = .next t ∧ Claims.stepped s t ∧ t.mem = s.mem ∧ t.flight = s.flight ++ [r] ∧
      r.src = s.cur ∧ r.place = .scratch c ∧ r.addr = p.addr ∧ r.size = w.n ∧ r.kind = .store ∧ r.journal = some e ∧
      r.data = BitVec.ofNat 64 (w.v % 256 ^ w.n) ∧
      tget e t.core.journal 0#32 =
        BitVec.ofNat 32 (2 ^ 30 + w.n.log2 * 2 ^ 28 + c % 4096 * 2 ^ 16 + p.addr / 8 % 65536) ∧
      ∀ j, j ≠ e → tget j t.core.journal 0#32 = tget j s.core.journal 0#32

/-- R217, R218, R222 and R276: outside overlapped loops a store to HBM, a host frame or a peer leaves the core as one request,
with no journal entry; memory changes when it is performed. The requests before it stay, but may no longer put an HBM line that
it writes into the L1, whose copy of the line takes its bytes. -/
def Sys2Proof.Claims.StoresSendRequests : Prop :=
  ∀ (i : Instr) (s : State) (w : Claims.Store) (p : Piece), Claims.store s i = some w → s.core.ready w.names = true →
    Claims.Alone s → s.plan .store [(w.va, w.n, 0)] = .go [p] → p.place = .hbm ∨ p.place = .host ∨ p.place = .peer →
    s.core.wp = [] → s.core.mqueue = [] → s.core.overlapped = false → s.core.sbuf = [] → s.core.outq = [] →
    ∃ (t : State) (r : Req) (l' : List Req), exec i s = .next t ∧ Claims.stepped s t ∧ t.mem = s.mem ∧ t.flight = l' ++ [r] ∧
      (l'.map fun q => { q with fill := false }) = (s.flight.map fun q => { q with fill := false }) ∧ r.src = s.cur ∧
      r.place = p.place ∧ r.addr = p.addr ∧ r.size = w.n ∧ r.kind = .store ∧ r.journal = none ∧
      r.data = BitVec.ofNat 64 (w.v % 256 ^ w.n) ∧ t.core.journal = s.core.journal ∧ t.core.sregs = s.core.sregs ∧
      (p.place = .hbm → p.addr % 128 + w.n ≤ 128 → ∀ x, tfind (p.addr / 128) t.core.l1d = some x →
        tfind (p.addr / 128) s.core.l1d ≠ none ∧ lineRead x (p.addr % 128) w.n = w.v % 256 ^ w.n)

/-- R282 and R283: an atomic on the own scratchpad writes the new value of its operation and gives d the old value,
zero-extended; an acquire among its roles forgets the L1 data lines at CLU scope or wider. An address that is not a multiple
of the size raises 0x240. -/
def Obligations.OwnAtomics : Prop :=
  ∀ (i : Instr) (s : State) (x : Claims.Atomic), Claims.atomic i = some x → Claims.Alone s → Claims.Settled s →
    s.core.held = none → s.core.ready { ss := [(x.a, 0), (x.b, 0), (x.d, 0)], ds := [x.d] } = true →
    let va := (s.src x.a 0).toNat
    let m := 2 ^ (8 * x.n)
    let old := memRead s.mem (Claims.ownKey s va) x.n
    let new := x.new old ((s.src x.b 0).toNat % m) ((s.src x.d 0).toNat % m)
    let u := if Claims.acquires x.order then Claims.forgets s x.scope else s
    (va % x.n = 0 → Claims.Own s .atomic va x.n →
      exec i s =
        .next { Claims.ends u (u.core.writeS x.d (BitVec.ofNat 64 old)) with
          mem := memWrite s.mem (Claims.ownKey s va) new x.n }) ∧
    (va % x.n ≠ 0 → exec i s = s.trap 0x240#10 (s.src x.a 0))

/-- R242, R244, R250, R255, R285 and R280: in a core that has nothing under way and is in no transfer phase, every fence
completes at once: FENCE and FENCE.R forget the L1 data lines at CLU scope or wider, IFENCE discards the held words and the
lines that instructions were fetched from (R243), and the others change nothing. PREF writes no name and no byte, and sends at
most one request; of the rest of the machine it changes at most the counters of the walk that it causes (R388). -/
def Obligations.FencesComplete : Prop :=
  ∀ (s : State) (x : Scope), Claims.Alone s →
    (Claims.Settled s → s.core.inPhase = none →
      let u := Claims.forgets s x
      exec (.fence x) s = .next (Claims.ends u u.core) ∧
      exec (.fenceR x) s = .next (Claims.ends u u.core) ∧
      exec (.fenceW x) s = .next (Claims.ends s s.core) ∧
      exec (.ifence x) s =
        .next (Claims.ends s
          { s.core with
            fbuf := []
            lbuf := []
            l1i := []
            l1d := s.core.l1d.filter fun r => (tfind r.1 s.core.l1i).isNone
            refetch := false }) ∧
      exec (.fenceE x) s = .next (Claims.ends s s.core) ∧
      exec (.fenceJ x) s = .next (Claims.ends s s.core)) ∧
    ∀ (a : Reg) (da : Dist) (n : BitVec 1), s.core.ready { ss := [(a, da.toNat)] } = true →
      ∃ t l, exec (.pref a da x n) s = .next t ∧ l.length ≤ 1 ∧ t.cur = s.cur ∧ t.core = (Claims.ends s s.core).core ∧
        t.mem = s.mem ∧ t.flight = s.flight ++ l

/-- R250, R251 and R255: a FENCE.W at CLU scope or wider goes no further while a journal entry is pending or a store has not
been performed, and raises the cause of the lowest entry that records a refusal, else of the lowest that records a
timeout. That it raises 0x342 in a transfer phase is the model's reading of R342 (log 56), and no rule's words. -/
def Obligations.ReleasesWait : Prop :=
  ∀ (s : State) (x : Scope), x ≠ .core → s.core.overlapped = false → s.core.sbuf = [] → s.core.outq = [] →
    s.core.routine = none →
    (s.core.inPhase ≠ none → exec (.fenceW x) s = s.trap 0x342#10 0#64) ∧
    (s.core.inPhase = none →
      ((∃ i < 32, (tget i s.core.journal 0#32).toNat / 2 ^ 30 = 1) →
        exec (.fenceW x) s = ({ s with core := { s.core with fencing := true } } : State).stall) ∧
      (∀ i < 32, (∀ r ∈ s.core.journal, r.2.toNat / 2 ^ 30 ≠ 1) →
        (tget i s.core.journal 0#32).toNat / 2 ^ 30 = 2 → (∀ j < i, (tget j s.core.journal 0#32).toNat / 2 ^ 30 ≠ 2) →
        exec (.fenceW x) s = s.trap (BitVec.ofNat 10 (0x280 + i)) ((tget i s.core.journal 0#32).zeroExtend 64)) ∧
      (∀ i < 32, (∀ r ∈ s.core.journal, r.2.toNat / 2 ^ 30 ≠ 1) →
        (∀ j < 32, (tget j s.core.journal 0#32).toNat / 2 ^ 30 ≠ 2) →
        (tget i s.core.journal 0#32).toNat / 2 ^ 30 = 3 → (∀ j < i, (tget j s.core.journal 0#32).toNat / 2 ^ 30 ≠ 3) →
        exec (.fenceW x) s = s.trap (BitVec.ofNat 10 (0x2A0 + i)) ((tget i s.core.journal 0#32).zeroExtend 64)) ∧
      (s.core.journal = [] →
        (∃ r ∈ s.flight, r.src = s.cur ∧ r.kind ≠ .load ∧ r.kind ≠ .ldro ∧ r.late = false) →
        exec (.fenceW x) s = s.stall))

/-- R226 to R231, R286 and R287: an aligned LD of the window reads QW0 to QW3, 0 at QGO, or QSTAT; REGISTER_WRITE sets one
of QW0 to QW3; a QGO store submits the job that they describe, under the next job number, when it is not malformed and an
entry of the queue is free, and raises 0x1C4 when it is malformed. -/
def Obligations.EngineWindow : Prop :=
  ∀ s : State, Claims.Alone s → s.core.inPhase = none → s.core.wp = [] →
    (∀ (d a : Reg) (da : Dist) (o : BitVec 11) (k : Nat), s.core.ready (Claims.reads [(a, da)] d) = true → k < 6 →
      Claims.address s a da o 8 = 0x0F00000000080000 + 8 * k →
      exec (.ld d a da o) s = .next (Claims.ends s (s.core.writeS d (Claims.windowValue s.core (8 * k))))) ∧
    (s.core.overlapped = false → s.core.sbuf = [] → s.core.outq = [] →
      (∀ v, exec (.registerWrite 0#2 v) s = .next (Claims.ends s { s.core with qw0 := v }) ∧
        exec (.registerWrite 1#2 v) s = .next (Claims.ends s { s.core with qw1 := v }) ∧
        exec (.registerWrite 2#2 v) s = .next (Claims.ends s { s.core with qw2 := v }) ∧
        exec (.registerWrite 3#2 v) s = .next (Claims.ends s { s.core with qw3 := v })) ∧
      ∀ (i : Instr) (kind : Nat), Claims.qgoKind i = some kind → wfield s.core.qw0 32 4 = kind →
        (s.core.badJob = true → exec i s = s.trap 0x1C4#10 0x0F00000000080020#64) ∧
        (s.core.badJob = false → s.core.jobs.length < 2 →
          ∃ j, exec i s =
              .next (Claims.ends s { s.core with
                jobs := s.core.jobs ++ [j]
                era := s.core.era + 1
                lastJob := j.num
                wrapped := s.core.wrapped || decide (s.core.lastJob = 2 ^ 32 - 1) }) ∧
            j.num = (if s.core.lastJob = 2 ^ 32 - 1 then 1 else s.core.lastJob + 1) ∧ j.qw0 = s.core.qw0 ∧
            j.qw1 = s.core.qw1 ∧ j.qw2 = s.core.qw2 ∧ j.qw3 = s.core.qw3))

namespace Sys2Proof.Claims

/-! ## Scalar floating point (R165, R166) -/

def fmtOf : Prec → Fmt
  | .f32 => fmt32 | .f64 => fmt64

/-- The names and the result, with its flags, of a FOP instruction. The values are those of one rounding of the exact
result (`Fmt.add` and the others; the rounding itself is the subject of Obligations.OneRounding). -/
def fopResult (s : State) : Instr → Option (Names × Reg × FRes)
  | .fadd d a da b db p => two d a da b db p fun f x y => f.add rm x y
  | .fsub d a da b db p => two d a da b db p fun f x y => f.sub rm x y
  | .fmul d a da b db p => two d a da b db p fun f x y => f.mul rm x y
  | .fdiv d a da b db p => two d a da b db p fun f x y => f.div rm x y
  | .fsqrt d a da p => one d a da p fun f x => f.sqrt rm x
  | .fma d a da b db p =>
    some (reads [(a, da), (b, db), (d, 0#2)] d, d,
      (fmtOf p).fma rm (low p (s.src a da.toNat)) (low p (s.src b db.toNat)) (low p (s.src d 0)))
  | .fmin d a da b db p => two d a da b db p fun f x y => f.minmax false x y
  | .fmax d a da b db p => two d a da b db p fun f x y => f.minmax true x y
  | .feq d a da b db p => two d a da b db p fun f x y => f.feq x y
  | .flt d a da b db p => two d a da b db p fun f x y => f.flt x y
  | .fle d a da b db p => two d a da b db p fun f x y => f.fle x y
  | .fclass d a da p => one d a da p fun f x => { bits := f.fclass x }
  | .fcvti d a da p => one d a da p fun f x => f.toInt rm 64 x
  | .fcvtf d a da p => some (reads [(a, da)] d, d, (fmtOf p).ofInt rm (s.src a da.toNat).toInt)
  | .fcvtw d a da .f32 => one d a da .f64 fun f x => f.convert fmt32 rm x
  | .fcvtw d a da .f64 => one d a da .f32 fun f x => f.convert fmt64 rm x
  | _ => none
where
  /-- STATUS.RM -/
  rm : Nat := s.core.status.toNat / 4 % 4
  /-- bits [63:32] of an FP32 operand are ignored -/
  low (p : Prec) (x : Word) : Nat := match p with | .f32 => x.toNat % 2 ^ 32 | .f64 => x.toNat
  one (d a : Reg) (da : Dist) (p : Prec) (f : Fmt → Nat → FRes) : Option (Names × Reg × FRes) :=
    some (reads [(a, da)] d, d, f (fmtOf p) (low p (s.src a da.toNat)))
  two (d a : Reg) (da : Dist) (b : Reg) (db : Dist) (p : Prec) (f : Fmt → Nat → Nat → FRes) :
      Option (Names × Reg × FRes) :=
    some (reads [(a, da), (b, db)] d, d, f (fmtOf p) (low p (s.src a da.toNat)) (low p (s.src b db.toNat)))

/-! ## Vectors (R161 to R180) -/

/-- Lane i of width w. -/
def laneOf (v : Vec) (w i : Nat) : BitVec w := v.extractLsb' (w * i) w

/-- Lane i of width w is active under mask k (R161). -/
def lit (s : State) (k : KReg) (w i : Nat) : Prop := (s.core.mask k).getLsbD (w * i / 8) = true

def widthOf : IntTy → Nat
  | .i8 => 8 | .i16 => 16 | .i32 => 32 | .i64 => 64

/-- A vector integer form with a vector destination: names, type and lane operation (R167). -/
structure VInt where
  d : Reg
  a : Reg
  dva : VDist
  b : Option Reg
  k : KReg
  t : IntTy
  f : (w : Nat) → BitVec w → BitVec w → BitVec w

def vint : Instr → Option VInt
  | .vadd d a x b k t => some ⟨d, a, x, b, k, t, fun _ x y => x + y⟩
  | .vsub d a x b k t => some ⟨d, a, x, b, k, t, fun _ x y => x - y⟩
  | .vmul d a x b k t => some ⟨d, a, x, b, k, t, fun _ x y => x * y⟩
  | .vmulh d a x b k t => some ⟨d, a, x, b, k, t, fun w x y => BitVec.ofInt w (x.toInt * y.toInt / 2 ^ w)⟩
  | .vmin d a x b k t => some ⟨d, a, x, b, k, t, fun _ x y => if x.toInt < y.toInt then x else y⟩
  | .vmax d a x b k t => some ⟨d, a, x, b, k, t, fun _ x y => if x.toInt < y.toInt then y else x⟩
  | .vminu d a x b k t => some ⟨d, a, x, b, k, t, fun _ x y => if x.toNat < y.toNat then x else y⟩
  | .vmaxu d a x b k t => some ⟨d, a, x, b, k, t, fun _ x y => if x.toNat < y.toNat then y else x⟩
  | .vand d a x b k t => some ⟨d, a, x, b, k, t, fun _ x y => x &&& y⟩
  | .vor d a x b k t => some ⟨d, a, x, b, k, t, fun _ x y => x ||| y⟩
  | .vxor d a x b k t => some ⟨d, a, x, b, k, t, fun _ x y => x ^^^ y⟩
  | .vshl d a x b k t => some ⟨d, a, x, b, k, t, fun w x y => x <<< (y.toNat % w)⟩
  | .vshr d a x b k t => some ⟨d, a, x, b, k, t, fun w x y => x >>> (y.toNat % w)⟩
  | .vsra d a x b k t => some ⟨d, a, x, b, k, t, fun w x y => x.sshiftRight (y.toNat % w)⟩
  | .vsadd d a x b k t => some ⟨d, a, x, b, k, t, fun w x y => sat w (x.toInt + y.toInt)⟩
  | .vssub d a x b k t => some ⟨d, a, x, b, k, t, fun w x y => sat w (x.toInt - y.toInt)⟩
  | .vabs d a x k t => some ⟨d, a, x, none, k, t, fun _ x _ => if x.toInt < 0 then 0 - x else x⟩
  | _ => none
where
  sat (w : Nat) (z : Int) : BitVec w :=
    BitVec.ofInt w (if z < -2 ^ (w - 1) then -2 ^ (w - 1) else if 2 ^ (w - 1) ≤ z then 2 ^ (w - 1) - 1 else z)

/-- The names of a vector form: va at its distance, vb if there is one, and vd, which inactive lanes keep. -/
def vectors (d a : Reg) (dva : VDist) (b : Option Reg) : Names :=
  { vs := [(a, dva.toNat)] ++ (b.toList.map fun b => (b, 0)) ++ [(d, 0)], dv := [d] }

def vfmt : FltTy → Fmt
  | .f32 => fmt32 | .bf16 => fmtBF | .f16 => fmt16

/-- A vector floating-point form with a vector destination (R169): lane operation on va, vb and vd. -/
structure VFlt where
  d : Reg
  a : Reg
  dva : VDist
  b : Option Reg
  k : KReg
  t : FltTy
  f : Fmt → Nat → Nat → Nat → FRes

def vflt (rm : Nat) : Instr → Option VFlt
  | .vfadd d a x b k t => some ⟨d, a, x, b, k, t, fun f x y _ => f.add rm x y⟩
  | .vfsub d a x b k t => some ⟨d, a, x, b, k, t, fun f x y _ => f.sub rm x y⟩
  | .vfmul d a x b k t => some ⟨d, a, x, b, k, t, fun f x y _ => f.mul rm x y⟩
  | .vfma d a x b k t => some ⟨d, a, x, b, k, t, fun f x y z => f.fma rm x y z⟩
  | .vfmin d a x b k t => some ⟨d, a, x, b, k, t, fun f x y _ => f.minmax false x y⟩
  | .vfmax d a x b k t => some ⟨d, a, x, b, k, t, fun f x y _ => f.minmax true x y⟩
  | .vfdiv d a x b k t => some ⟨d, a, x, b, k, t, fun f x y _ => f.div rm x y⟩
  | .vfsqrt d a x k t => some ⟨d, a, x, none, k, t, fun f x _ _ => f.sqrt rm x⟩
  | .vfabs d a x k t => some ⟨d, a, x, none, k, t, fun f x _ _ => f.abs x⟩
  | .vfneg d a x k t => some ⟨d, a, x, none, k, t, fun f x _ _ => f.negate x⟩
  | _ => none

/-- A compare form of width w (R168, R169): mask written, operands, lane result. -/
structure VCmp where
  d : KReg
  a : Reg
  dva : VDist
  b : Reg
  k : KReg
  w : Nat
  f : Nat → Nat → FRes

def vcmp : Instr → Option VCmp
  | .vcmpeq d a x b k t => some ⟨d, a, x, b, k, widthOf t, fun x y => is (x = y)⟩
  | .vcmplt d a x b k t =>
    some ⟨d, a, x, b, k, widthOf t, fun x y =>
      is ((BitVec.ofNat (widthOf t) x).toInt < (BitVec.ofNat (widthOf t) y).toInt)⟩
  | .vcmpltu d a x b k t => some ⟨d, a, x, b, k, widthOf t, fun x y => is (x < y)⟩
  | .vfcmpeq d a x b k t => some ⟨d, a, x, b, k, (vfmt t).w, (vfmt t).feq⟩
  | .vfcmplt d a x b k t => some ⟨d, a, x, b, k, (vfmt t).w, (vfmt t).flt⟩
  | .vfcmple d a x b k t => some ⟨d, a, x, b, k, (vfmt t).w, (vfmt t).fle⟩
  | _ => none
where
  is (p : Prop) [Decidable p] : FRes := { bits := if p then 1 else 0 }

/-- fl holds the flags of the active lanes and no other. -/
def flagsOf (s : State) (k : KReg) (w : Nat) (f : Nat → FRes) (fl : Word) : Prop :=
  ∀ j < 64, fl.getLsbD j = true ↔ ∃ i < 512 / w, lit s k w i ∧ (f i).flags.testBit j = true

/-! ## Vector memory (R178) -/

/-- A vector access: its scalar and vector names apart from vd, its mask, element size and the address of lane i. -/
structure VMem where
  d : Reg
  ss : List (Reg × Nat)
  vs : List (Reg × Nat)
  k : KReg
  n : Nat
  va : Nat → Word

def vaddr (s : State) (a : Reg) (da : Dist) (i : Word) : Word := s.src a da.toNat + i

def vload (s : State) : Instr → Option VMem
  | .vld d a da k e => some ⟨d, [(a, da.toNat)], [], k, bytesOf e, fun i => vaddr s a da (BitVec.ofNat 64 (i * bytesOf e))⟩
  | .vlds d a da b k e =>
    some ⟨d, [(a, da.toNat), (b, 0)], [], k, bytesOf e, fun i => vaddr s a da (BitVec.ofNat 64 i * s.src b 0)⟩
  | .vgath d a da b k e =>
    some ⟨d, [(a, da.toNat)], [(b, 0)], k, bytesOf e, fun i =>
      vaddr s a da ((laneOf (s.vsrc b 0) (8 * bytesOf e) i).signExtend 64)⟩
  | .vldb d a da k e => some ⟨d, [(a, da.toNat)], [], k, bytesOf e, fun _ => s.src a da.toNat⟩
  | _ => none

def vstore (s : State) : Instr → Option VMem
  | .vst d a da k e => some ⟨d, [(a, da.toNat)], [], k, bytesOf e, fun i => vaddr s a da (BitVec.ofNat 64 (i * bytesOf e))⟩
  | .vsts d a da b k e =>
    some ⟨d, [(a, da.toNat), (b, 0)], [], k, bytesOf e, fun i => vaddr s a da (BitVec.ofNat 64 i * s.src b 0)⟩
  | .vscat d a da b k e =>
    some ⟨d, [(a, da.toNat)], [(b, 0)], k, bytesOf e, fun i =>
      vaddr s a da ((laneOf (s.vsrc b 0) (8 * bytesOf e) i).signExtend 64)⟩
  | _ => none

/-- The active lanes, in order. -/
def lanes (s : State) (k : KReg) (w : Nat) : List Nat :=
  (List.range (512 / w)).filter fun i => (s.core.mask k).getLsbD (w * i / 8)

/-! ## VXF (R170 to R177) -/

/-- ET, ET2, PART and TAB of VTYPE (R170). -/
def et (s : State) : Nat := s.core.vtype.toNat % 8
def et2 (s : State) : Nat := s.core.vtype.toNat / 16 % 8
def part (s : State) : Nat := s.core.vtype.toNat / 4096 % 8
def tab (s : State) : Nat := s.core.vtype.toNat / 256 % 4

/-- The width of an element type, and the lane count. -/
def ew (t : Nat) : Nat :=
  match t with
  | 0 => 8 | 1 => 16 | 2 => 32 | 3 => 64 | 4 => 32 | _ => 16
def el (t : Nat) : Nat := 512 / ew t

/-- The format of a floating element type. -/
def ef (t : Nat) : Fmt := if t = 4 then fmt32 else if t = 5 then fmtBF else fmt16

/-- A permute that writes a vector (R172): names, whether k governs its lanes, and lane i of width w. -/
structure Permute where
  names : Names
  d : Reg
  k : Option KReg
  f : (w i : Nat) → BitVec w

def permute (s : State) : Instr → Option Permute
  | .vshuf d a x b k =>
    some ⟨vectors d a x b, d, k, fun w i => laneOf (s.vsrc a x.toNat) w ((laneOf (s.vsrc b 0) w i).toNat % el (et s))⟩
  | .vslide d a x b k =>
    some ⟨{ ss := [(b, 0)], vs := [(a, x.toNat), (d, 0)], dv := [d] }, d, k, fun w i =>
      let j : Int := i + (s.src b 0).toInt
      if 0 ≤ j ∧ j < el (et s) then laneOf (s.vsrc a x.toNat) w j.toNat else 0⟩
  | .vbcast d a x k =>
    some ⟨{ ss := [(a, x.toNat)], vs := [(d, 0)], dv := [d] }, d, k, fun w _ => (s.src a x.toNat).truncate w⟩
  | .vins d a x b =>
    some ⟨{ ss := [(a, x.toNat), (b, 0)], vs := [(d, 0)], dv := [d] }, d, none, fun w i =>
      if i = (s.src b 0).toNat % el (et s) then (s.src a x.toNat).truncate w else laneOf (s.vsrc d 0) w i⟩
  | .vsel d a x b k =>
    some ⟨{ vs := [(a, x.toNat), (b, 0)], dv := [d] }, d, none, fun w i =>
      if (s.core.mask k).getLsbD (w * i / 8) then laneOf (s.vsrc a x.toNat) w i else laneOf (s.vsrc b 0) w i⟩
  | .viota d k =>
    some ⟨{ dv := [d] }, d, none, fun w i =>
      BitVec.ofNat w ((List.range i).filter fun j => (s.core.mask k).getLsbD (w * j / 8)).length⟩
  | _ => none

/-- Node i of level m of the tree of R173 over the active lanes, combined by f. -/
def node (s : State) (v : Vec) (k : KReg) (w : Nat) (f : Nat → Nat → Nat) : Nat → Nat → Option Nat
  | 0, i => if i < 512 / w ∧ (s.core.mask k).getLsbD (w * i / 8) = true then some (laneOf v w i).toNat else none
  | m + 1, i =>
    match node s v k w f m (2 * i), node s v k w f m (2 * i + 1) with
    | some x, some y => some (f x y)
    | some x, none => some x
    | none, y => y

/-- The signed values of the active lanes. -/
def signedLanes (s : State) (v : Vec) (k : KReg) (w : Nat) : List Int := (lanes s k w).map fun i => (laneOf v w i).toInt

/-- Lane j of type t converted to type u (R174). -/
def converted (rm t u : Nat) (x : Nat) : FRes :=
  if t < 4 then
    let z := (BitVec.ofNat (ew t) x).toInt
    if u < 4 then { bits := (BitVec.ofInt (ew u) z).toNat } else (ef u).ofInt rm z
  else if u < 4 then (ef t).toInt rm (ew u) x
  else (ef t).convert (ef u) rm x

/-- The source lane that destination lane i converts. -/
def source (t u p i : Nat) : Option Nat :=
  if ew t < ew u then some (p * el u + i)
  else if ew u < ew t then (if p * el t ≤ i ∧ i < (p + 1) * el t then some (i - p * el t) else none)
  else some i

/-- The decode table that VTYPE names. -/
def vtable (s : State) : DecTab := tget (tab s) s.core.tables {}

/-- A conversion that writes a vector in lanes of width w, with flags (R174, R175, R176, R177). -/
structure Conv where
  d : Reg
  a : Reg
  dva : VDist
  k : KReg
  ok : Prop
  w : Nat
  f : Nat → FRes

def conv (s : State) : Instr → Option Conv
  | .vcvt d a x k =>
    some ⟨d, a, x, k,
      et s < 7 ∧ et2 s < 7 ∧ part s < max (ew (et s) / ew (et2 s)) (ew (et2 s) / ew (et s)), ew (et2 s), fun i =>
        match source (et s) (et2 s) (part s) i with
        | some j => converted rm (et s) (et2 s) (laneOf (s.vsrc a x.toNat) (ew (et s)) j).toNat
        | none => { bits := (laneOf (s.vsrc d 0) (ew (et2 s)) i).toNat }⟩
  | .vdec d a x k =>
    some ⟨d, a, x, k, 4 ≤ et s ∧ et s < 7 ∧ (part s + 1) * (el (et s) * (vtable s).codeBits / 8) ≤ 64, ew (et s), fun i =>
      (ef (et s)).roundVal rm
        ((vtable s).decode (laneOf (s.vsrc a x.toNat) (vtable s).codeBits (part s * el (et s) + i)).toNat)⟩
  | .vdqnt d a x k =>
    some ⟨d, a, x, k, (et s = 4 ∧ part s < 2) ∨ ((et s = 5 ∨ et s = 6) ∧ part s = 0), ew (et s), fun i =>
      let sc := (laneOf (s.vsrc a x.toNat) 8 32).toNat
      let y := (vtable s).decode (laneOf (s.vsrc a x.toNat) (vtable s).codeBits (part s * el (et s) + i)).toNat
      (ef (et s)).roundVal rm (if sc = 255 then .nan false false else y.scale (sc - 127))⟩
  | .vppu d a x k =>
    some ⟨d, a, x, k, et s = 4, 32, fun i => ppuEval s.core.ppu (laneOf (s.vsrc a x.toNat) 32 i).toNat⟩
  | _ => none
where
  rm : Nat := s.core.status.toNat / 4 % 4

/-- The elements of a block that VQNT quantises (R176). -/
def block (s : State) (a : Reg) (x : VDist) (b : Reg) : List Fl :=
  let l (v : Vec) : List Fl := (List.range (el (et s))).map fun i => (ef (et s)).val (laneOf v (ew (et s)) i).toNat
  l (s.vsrc a x.toNat) ++ if et s = 4 then l (s.vsrc b 0) else []

/-- The FFLAGS of an encode of the values l: SAT when a code saturated, NV when a signalling NaN is among them (R116, R117,
R128). -/
def codeFlags (saturated : Bool) (l : List Fl) : Word :=
  (if saturated then 0x80#64 else 0#64) ||| if ∃ x ∈ l, ∃ b, x = .nan b true then 0x10#64 else 0#64

/-! ## VMASK (R180) -/

/-- The mask or the scalar that a mask operation writes. -/
def maskResult (s : State) : Instr → Option (Names × (Core → Core))
  | .kand d a b => mask d (s.core.mask a &&& s.core.mask b)
  | .kor d a b => mask d (s.core.mask a ||| s.core.mask b)
  | .kxor d a b => mask d (s.core.mask a ^^^ s.core.mask b)
  | .knot d a => mask d (s.core.mask a ^^^ 0xFFFFFFFFFFFFFFFF#64)
  | .kfrom d a x => some ({ ss := [(a, x.toNat)], dk := [d] }, fun k => k.setMask d (s.src a x.toNat))
  | .kto d a => scalar d (s.core.mask a)
  | .kpop d a => scalar d (BitVec.ofNat 64 ((List.range 64).filter fun i => (s.core.mask a).getLsbD i).length)
  | .kfirst d a => scalar d (BitVec.ofNat 64 (((List.range 64).find? fun i => (s.core.mask a).getLsbD i).getD 64))
  | _ => none
where
  mask (d : KReg) (x : Word) : Option (Names × (Core → Core)) := some ({ dk := [d] }, fun k => k.setMask d x)
  scalar (d : Reg) (x : Word) : Option (Names × (Core → Core)) := some ({ ds := [d] }, fun k => k.writeS d x)

end Sys2Proof.Claims

/-- R115: what the one rounding of m / 2^k does in each mode: to nearest with ties to even, toward zero, up, down; it
reports whether the result is inexact. -/
def Obligations.OneRounding : Prop :=
  ∀ (neg : Bool) (m k : Nat),
    let q (rm : Nat) := (roundShift rm neg m k).1
    (∀ rm, (roundShift rm neg m k).2 = true ↔ m % 2 ^ k ≠ 0) ∧
    (∀ rm, m % 2 ^ k = 0 → q rm * 2 ^ k = m) ∧
    (2 * m ≤ 2 * (q 0 * 2 ^ k) + 2 ^ k ∧ 2 * (q 0 * 2 ^ k) ≤ 2 * m + 2 ^ k) ∧
    (2 * (m % 2 ^ k) = 2 ^ k → q 0 % 2 = 0) ∧
    (q 1 * 2 ^ k ≤ m ∧ m < (q 1 + 1) * 2 ^ k) ∧
    (neg = false → q 2 * 2 ^ k < m + 2 ^ k ∧ m ≤ q 2 * 2 ^ k ∧ q 3 = q 1) ∧
    (neg = true → q 3 * 2 ^ k < m + 2 ^ k ∧ m ≤ q 3 * 2 ^ k ∧ q 2 = q 1)

/-- R165, R166, R117 and R163: a FOP instruction writes d with its result and adds the flags of that result, to FFLAGS or,
in a loop with W > 1, to those that wait for the retirement. It changes nothing else. -/
def Obligations.FloatResults : Prop :=
  ∀ (i : Instr) (s : State) (n : Names) (d : Reg) (r : FRes), Claims.fopResult s i = some (n, d, r) →
    s.core.ready n = true → Claims.Alone s →
    exec i s = .next (Claims.ends s ((s.core.writeS d (BitVec.ofNat 64 r.bits)).addFlags (BitVec.ofNat 64 r.flags)))

/-- R161 and R167: a vector integer form writes each active lane of vd with its lane result, keeps the inactive lanes, sets
no flag, and changes nothing else. -/
def Obligations.VectorIntegerResults : Prop :=
  ∀ (i : Instr) (s : State) (x : Claims.VInt), Claims.vint i = some x →
    s.core.ready (Claims.vectors x.d x.a x.dva x.b) = true → Claims.Alone s →
    ∃ v : Vec, exec i s = .next (Claims.ends s (s.core.writeV x.d v)) ∧
      ∀ j < 512 / Claims.widthOf x.t,
        (Claims.lit s x.k (Claims.widthOf x.t) j →
          Claims.laneOf v (Claims.widthOf x.t) j =
            x.f (Claims.widthOf x.t) (Claims.laneOf (s.vsrc x.a x.dva.toNat) (Claims.widthOf x.t) j)
              (Claims.laneOf (s.vsrc (x.b.getD 0#5) 0) (Claims.widthOf x.t) j)) ∧
        (¬Claims.lit s x.k (Claims.widthOf x.t) j →
          Claims.laneOf v (Claims.widthOf x.t) j = Claims.laneOf (s.vsrc x.d 0) (Claims.widthOf x.t) j)

/-- R161 and R169: a vector floating-point form writes each active lane with the result that FOP computes in the format of
the lane, keeps the inactive lanes, and adds the flags of the active lanes. -/
def Obligations.VectorFloatResults : Prop :=
  ∀ (i : Instr) (s : State) (x : Claims.VFlt), Claims.vflt (s.core.status.toNat / 4 % 4) i = some x →
    s.core.ready (Claims.vectors x.d x.a x.dva x.b) = true → Claims.Alone s →
    let w := (Claims.vfmt x.t).w
    let f (j : Nat) :=
      x.f (Claims.vfmt x.t) (Claims.laneOf (s.vsrc x.a x.dva.toNat) w j).toNat
        (Claims.laneOf (s.vsrc (x.b.getD x.a) 0) w j).toNat (Claims.laneOf (s.vsrc x.d 0) w j).toNat
    ∃ (v : Vec) (fl : Word), exec i s = .next (Claims.ends s ((s.core.writeV x.d v).addFlags fl)) ∧
      Claims.flagsOf s x.k w f fl ∧
      ∀ j < 512 / w,
        (Claims.lit s x.k w j → (Claims.laneOf v w j).toNat = (f j).bits % 2 ^ w) ∧
        (¬Claims.lit s x.k w j → Claims.laneOf v w j = Claims.laneOf (s.vsrc x.d 0) w j)

/-- R168 and R169: a compare form sets every mask bit of each active lane to its result and keeps those of the inactive
lanes; a write to k0 is discarded. -/
def Sys2Proof.Claims.VectorCompares : Prop :=
  ∀ (i : Instr) (s : State) (x : Claims.VCmp), Claims.vcmp i = some x →
    s.core.ready { vs := [(x.a, x.dva.toNat), (x.b, 0)], dk := [x.d] } = true → Claims.Alone s →
    let f (j : Nat) :=
      x.f (Claims.laneOf (s.vsrc x.a x.dva.toNat) x.w j).toNat (Claims.laneOf (s.vsrc x.b 0) x.w j).toNat
    ∃ m fl : Word, exec i s = .next (Claims.ends s ((s.core.setMask x.d m).addFlags fl)) ∧
      Claims.flagsOf s x.k x.w f fl ∧
      ∀ j < 64,
        (Claims.lit s x.k x.w (8 * j / x.w) → (m.getLsbD j = true ↔ (f (8 * j / x.w)).bits ≠ 0)) ∧
        (¬Claims.lit s x.k x.w (8 * j / x.w) → m.getLsbD j = (s.core.mask x.d).getLsbD j)

/-- R178 and R179: a vector load whose active lanes lie in the own scratchpad writes each active lane with its bytes and
keeps the inactive lanes; with no active lane it accesses nothing. -/
def Obligations.VectorLoads : Prop :=
  ∀ (i : Instr) (s : State) (x : Claims.VMem), Claims.vload s i = some x →
    s.core.ready { ss := x.ss, vs := x.vs ++ [(x.d, 0)], dv := [x.d] } = true → Claims.Alone s →
    (∀ j ∈ Claims.lanes s x.k (8 * x.n), Claims.Own s .load (x.va j).toNat x.n) →
    ∃ v : Vec, exec i s = .next (Claims.ends s (s.core.writeV x.d v)) ∧
      ∀ j < 64 / x.n,
        (Claims.lit s x.k (8 * x.n) j →
          (Claims.laneOf v (8 * x.n) j).toNat = Claims.ownBytes s ((x.va j).toNat % 2 ^ 56) x.n) ∧
        (¬Claims.lit s x.k (8 * x.n) j →
          Claims.laneOf v (8 * x.n) j = Claims.laneOf (s.vsrc x.d 0) (8 * x.n) j)

/-- R178 and R179: outside overlapped loops, a vector store whose active lanes lie in the own scratchpad writes them in lane
order, so that a byte holds the value of the highest lane that writes it; nothing else changes, but for the number by which the
model tells the order of its lanes from that of other stores. -/
def Obligations.VectorStores : Prop :=
  ∀ (i : Instr) (s : State) (x : Claims.VMem), Claims.vstore s i = some x →
    s.core.ready { ss := x.ss, vs := x.vs ++ [(x.d, 0)] } = true → Claims.Alone s → s.core.overlapped = false →
    s.core.sbuf = [] → s.core.outq = [] → s.core.mqueue = [] → (∀ r ∈ s.flight, r.src = s.cur → r.order = 0) →
    (∀ j ∈ Claims.lanes s x.k (8 * x.n), Claims.Own s .store (x.va j).toNat x.n) →
    exec i s =
      .next { Claims.ends s
          (if 1 < (Claims.lanes s x.k (8 * x.n)).length then { s.core with orderNo := s.core.orderNo + 1 } else s.core) with
        mem := (Claims.lanes s x.k (8 * x.n)).foldl
          (fun m j =>
            memWrite m (Claims.ownKey s (x.va j).toNat) (Claims.laneOf (s.vsrc x.d 0) (8 * x.n) j).toNat x.n)
          s.mem }

/-- R170 to R172: the permutes write vd lane by lane, and VEXT one lane to a scalar; a VTYPE that the entry does not accept
raises 0x05E. -/
def Obligations.VectorPermutes : Prop :=
  ∀ s : State, Claims.Alone s →
    (∀ (i : Instr) (x : Claims.Permute), Claims.permute s i = some x → s.core.ready x.names = true →
      Claims.et s < (match i with | .viota _ _ => 4 | _ => 7) →
      ∃ v : Vec, exec i s = .next (Claims.ends s (s.core.writeV x.d v)) ∧
        ∀ j < Claims.el (Claims.et s),
          ((∀ k, x.k = some k → Claims.lit s k (Claims.ew (Claims.et s)) j) →
            Claims.laneOf v (Claims.ew (Claims.et s)) j = x.f (Claims.ew (Claims.et s)) j) ∧
          ((∃ k, x.k = some k ∧ ¬Claims.lit s k (Claims.ew (Claims.et s)) j) →
            Claims.laneOf v (Claims.ew (Claims.et s)) j = Claims.laneOf (s.vsrc x.d 0) (Claims.ew (Claims.et s)) j)) ∧
    (∀ (i : Instr) (x : Claims.Permute), Claims.permute s i = some x →
      ¬Claims.et s < (match i with | .viota _ _ => 4 | _ => 7) → exec i s = s.trapWord 0x05E#10) ∧
    ∀ (d a : Reg) (y : VDist) (b : Reg), s.core.ready { ss := [(b, 0)], vs := [(a, y.toNat)], ds := [d] } = true →
      Claims.et s < 7 →
      let x := Claims.laneOf (s.vsrc a y.toNat) (Claims.ew (Claims.et s)) ((s.src b 0).toNat % Claims.el (Claims.et s))
      exec (.vext d a y b) s =
        .next (Claims.ends s (s.core.writeS d (if Claims.et s < 4 then x.signExtend 64 else x.zeroExtend 64)))

/-- R173: the reductions: the sum of the active integer lanes modulo 2^64 or their extreme, and the fixed pairwise tree over
the active floating lanes; with no lane active 0, the least or the greatest value of the type. -/
def Obligations.VectorReductions : Prop :=
  ∀ (s : State) (d a : Reg) (y : VDist) (k : KReg), Claims.Alone s →
    s.core.ready { vs := [(a, y.toNat)], ds := [d] } = true →
    let w := Claims.ew (Claims.et s)
    let v := s.vsrc a y.toNat
    let l := Claims.signedLanes s v k w
    let f := Claims.ef (Claims.et s)
    let rm := s.core.status.toNat / 4 % 4
    (Claims.et s < 4 →
      exec (.vredsum d a y k) s = .next (Claims.ends s (s.core.writeS d (BitVec.ofInt 64 l.sum))) ∧
      (∃ x, exec (.vredmax d a y k) s = .next (Claims.ends s (s.core.writeS d (BitVec.ofInt 64 x))) ∧
        (l ≠ [] → x ∈ l ∧ ∀ z ∈ l, z ≤ x) ∧ (l = [] → x = -2 ^ (w - 1))) ∧
      ∃ x, exec (.vredmin d a y k) s = .next (Claims.ends s (s.core.writeS d (BitVec.ofInt 64 x))) ∧
        (l ≠ [] → x ∈ l ∧ ∀ z ∈ l, x ≤ z) ∧ (l = [] → x = 2 ^ (w - 1) - 1)) ∧
    (4 ≤ Claims.et s → Claims.et s < 7 →
      let r (g : Nat → Nat → Nat) (none_ : Nat) := BitVec.ofNat 64 ((Claims.node s v k w g 5 0).getD none_)
      ∃ f1 f2 f3 : Word,
        exec (.vredsum d a y k) s =
          .next (Claims.ends s ((s.core.writeS d (r (fun x y => (f.add rm x y).bits) 0)).addFlags f1)) ∧
        exec (.vredmax d a y k) s =
          .next (Claims.ends s
            ((s.core.writeS d (r (fun x y => (f.minmax true x y).bits) (2 ^ (f.w - 1) + f.infBits))).addFlags f2)) ∧
        exec (.vredmin d a y k) s =
          .next (Claims.ends s
            ((s.core.writeS d (r (fun x y => (f.minmax false x y).bits) f.infBits)).addFlags f3)))

/-- R174 to R177: VCVT, VDEC, VDQNT and VPPU write each active lane with its conversion, keep the inactive lanes and add the
flags of the active ones; a VTYPE that the entry does not accept raises 0x05E. That VDEC and VDQNT add the flags of the rounding
into the element format is the model's reading (log 44), and stands in no rule. -/
def Obligations.VectorConversions : Prop :=
  ∀ (i : Instr) (s : State) (x : Claims.Conv), Claims.conv s i = some x → Claims.Alone s →
    (¬x.ok → exec i s = s.trapWord 0x05E#10) ∧
    (x.ok → s.core.ready (Claims.vectors x.d x.a x.dva none) = true →
      ∃ (v : Vec) (fl : Word), exec i s = .next (Claims.ends s ((s.core.writeV x.d v).addFlags fl)) ∧
        Claims.flagsOf s x.k x.w x.f fl ∧
        ∀ j < 512 / x.w,
          (Claims.lit s x.k x.w j → (Claims.laneOf v x.w j).toNat = (x.f j).bits % 2 ^ x.w) ∧
          (¬Claims.lit s x.k x.w j → Claims.laneOf v x.w j = Claims.laneOf (s.vsrc x.d 0) x.w j))

/-- R128, R129, R175 and R176: VENC writes the code of each active lane and keeps the rest of vd; VQNT writes the codes of a
block under the scale it chooses, and that scale in byte 32, or raises 0x100 when no scale fits the block. Both set SAT when
a code saturated and NV for a signalling NaN, and raise 0x182 when the table is not verified. -/
def Obligations.VectorEncodings : Prop :=
  ∀ (s : State) (d a : Reg) (y : VDist), Claims.Alone s →
    let t := Claims.vtable s
    let cw := t.codeBits
    let x (i : Nat) := (Claims.ef (Claims.et s)).val (Claims.laneOf (s.vsrc a y.toNat) (Claims.ew (Claims.et s)) i).toNat
    (∀ k : KReg, 4 ≤ Claims.et s → Claims.et s < 7 →
      (Claims.part s + 1) * (Claims.el (Claims.et s) * cw / 8) ≤ 64 →
      s.core.ready (Claims.vectors d a y none) = true →
      (t.verified = false →
        exec (.venc d a y k) s =
          s.trap 0x182#10 (BitVec.ofNat 64 ((Claims.lanes s k (Claims.ew (Claims.et s))).headD 0 + 256 * Claims.tab s))) ∧
      ∀ (c : Nat → Nat) (z : Nat → Bool), t.verified = true →
        (∀ i ∈ Claims.lanes s k (Claims.ew (Claims.et s)), t.encode (x i) = .ok (c i, z i)) →
        ∃ v : Vec, exec (.venc d a y k) s =
            .next (Claims.ends s ((s.core.writeV d v).addFlags
              (Claims.codeFlags ((Claims.lanes s k (Claims.ew (Claims.et s))).any z)
                ((Claims.lanes s k (Claims.ew (Claims.et s))).map x)))) ∧
          ∀ j < 512 / cw,
            (∀ i ∈ Claims.lanes s k (Claims.ew (Claims.et s)), j = Claims.part s * Claims.el (Claims.et s) + i →
              (Claims.laneOf v cw j).toNat = c i % 2 ^ cw) ∧
            ((∀ i ∈ Claims.lanes s k (Claims.ew (Claims.et s)), j ≠ Claims.part s * Claims.el (Claims.et s) + i) →
              Claims.laneOf v cw j = Claims.laneOf (s.vsrc d 0) cw j)) ∧
    ∀ (b : Reg) (sc : Nat) (c : Nat → Nat) (z : Nat → Bool), 4 ≤ Claims.et s → Claims.et s < 7 →
      (Claims.et s ≠ 4 → b = 0#5) →
      s.core.ready { vs := [(a, y.toNat)] ++ (if Claims.et s = 4 then [(b, 0)] else []), dv := [d] } = true →
      (blockScale (amax (Claims.block s a y b)) t.lmax = none →
        ∃ i < 32, exec (.vqnt d a y b) s = s.trap 0x100#10 (BitVec.ofNat 64 (i + 256 * Claims.tab s))) ∧
      (t.verified = false → blockScale (amax (Claims.block s a y b)) t.lmax = some sc →
        exec (.vqnt d a y b) s = s.trap 0x182#10 (BitVec.ofNat 64 (256 * Claims.tab s))) ∧
      (t.verified = true → blockScale (amax (Claims.block s a y b)) t.lmax = some sc →
        (∀ i < 32, t.encode (((Claims.block s a y b).getD i (.fin false 0 0)).scale (127 - (sc : Int))) = .ok (c i, z i)) →
        ∃ v : Vec, exec (.vqnt d a y b) s =
            .next (Claims.ends s ((s.core.writeV d v).addFlags
              (Claims.codeFlags ((List.range 32).any z) (Claims.block s a y b)))) ∧
          (∀ i < 32, (Claims.laneOf v cw i).toNat = c i % 2 ^ cw) ∧
          (∀ i < 64, 4 * cw ≤ i → Claims.laneOf v 8 i = if i = 32 then BitVec.ofNat 8 sc else 0#8))

/-- R180 and R24: a mask operation writes its mask, where k0 takes no write, or its scalar, and changes nothing else; a
mask-writing form in a loop with W > 1 raises 0x0C0, one that names k0 too. -/
def Sys2Proof.Claims.MaskResults : Prop :=
  ∀ (i : Instr) (s : State) (n : Names) (f : Core → Core), Claims.maskResult s i = some (n, f) → Claims.Alone s →
    (s.core.ready n = true → exec i s = .next (Claims.ends s (f s.core))) ∧
    (n.dk ≠ [] → s.core.overlapped = true → s.core.distsOk n = true → exec i s = s.trapWord 0x0C0#10)

namespace Sys2Proof.Claims

/-! ## Engines (R135 to R155, R181 to R197, R286 to R291, R313 to R331, R366 to R369) -/

/-- Outside every loop with W > 1, with no store buffered or still to leave: an instruction of R42 executes at once. -/
structure Calm (s : State) : Prop where
  loop : s.core.overlapped = false
  buffer : s.core.sbuf = []
  out : s.core.outq = []

/-- n bytes at va that an instruction reads as an image: all in the own scratchpad, with no watchpoint set, no poisoned
granule among them, no request of the core for its own scratchpad on its way, and no granule read before the others. -/
structure Image (s : State) (va n : Nat) : Prop where
  aperture : va / 2 ^ 56 = 15
  size : va % 2 ^ 56 + n ≤ s.core.scratchSize
  room : va % 2 ^ 56 + n ≤ 2 ^ 19
  watch : s.core.wp = []
  clean : s.poisonIn (ownKey s va) n = false
  away : ∀ r, r ∈ s.core.outq ∨ (r ∈ s.hostq ∨ r ∈ s.flight) ∧ r.src = s.cur → r.place ≠ .scratch s.cur
  order : s.core.imgOrder = []
  got : s.core.imgGot = []

def imageBytes (s : State) (va n : Nat) : List Byte := memReadBytes s.mem (ownKey s va) n

/-- Slot n of the core in focus. -/
def slotOf (s : State) (n : BitVec 2) : MSlot := tget n.toNat s.core.mslots {}

/-- The core with slot n replaced. -/
def withSlot (k : Core) (n : BitVec 2) (m : MSlot) : Core := { k with mslots := tset n.toNat m k.mslots }

/-- E, H and NEXP of a slot word or chain word (R135). -/
def wordE (w : Word) : Int := (BitVec.ofNat 10 w.toNat).toInt
def wordH (w : Word) : Nat := w.toNat / 2 ^ 10 % 32
def wordN (w : Word) : Nat := w.toNat / 2 ^ 16 % 2 ^ 25

/-- M, N and K of a geometry word (R184). -/
def geo (w : Word) : Nat × Nat × Nat := (w.toNat % 32 + 1, w.toNat / 32 % 32 + 1, w.toNat / 1024 % 32 + 1)

/-- An instruction that multiplies: its bases, w bit, slot, and the command it queues (R137). -/
def multiply : Instr → Option (Reg × Reg × BitVec 1 × BitVec 2 × MCmd)
  | .mma a b w n => some (a, b, w, n, .mma false false)
  | .mmat a b w n => some (a, b, w, n, .mma true false)
  | .mmas a b w n => some (a, b, w, n, .mma false true)
  | _ => none

/-- The names of an instruction that may wait for its command (w = 1): sources and destinations. -/
def waitable : Instr → Option Names
  | .mma a b _ _ => some { ss := [(a, 0), (b, 0)] }
  | .mmat a b _ _ => some { ss := [(a, 0), (b, 0)] }
  | .mmas a b _ _ => some { ss := [(a, 0), (b, 0)] }
  | .mdrain a b _ _ _ => some { ss := [(a, 0), (b, 0)] }
  | .mldacc a b _ _ => some { ss := [(a, 0), (b, 0)] }
  | .mstacc d a _ _ => some { ss := [(a, 0)], ds := [d] }
  | .cadd d a b _ _ => some { ss := [(a, 0), (b, 0)], ds := [d] }
  | _ => none

/-- The translations that a command captures of the pieces of its accesses, which it writes or reads (R182). -/
def captured (wr : Bool) (ps : List Piece) : List Span :=
  ps.map fun p =>
    { va := p.va, len := p.len, place := p.place, addr := p.addr, off := p.off, wr := wr, counted := p.pte.getLsbD 8,
      blocked := p.blocked }

/-- Byte o of the operands of a command whose pieces lie in the scratchpad of core c. -/
def operandByte (s : State) (c : CoreId) (q : QCmd) (o : Nat) : Byte :=
  match q.spans.find? fun p => decide (p.off ≤ o ∧ o < p.off + p.len) with
  | some p => memByte s.mem (scratchKey c (p.addr + (o - p.off)))
  | none => 0#8

/-- n such bytes from o. -/
def operandRow (s : State) (c : CoreId) (q : QCmd) (o n : Nat) : List Byte :=
  (List.range n).map fun i => operandByte s c q (o + i)

/-- Element (i, k) of operand A: row i of A, or row k for MMAT, which transposes it; the rows stand from byte 0, 128 bytes each,
and the scales of the rows from byte 4096 (R137, R183, R184). -/
def operandA (s : State) (c : CoreId) (q : QCmd) (transposed : Bool) (i k : Nat) : Fl :=
  let g := geo q.geometry
  let f := (s.getCore c).elemFmt q.context 0 3
  let t := (s.getCore c).table (q.context.toNat / 2 ^ 3 % 4)
  let x :=
    if transposed then f.elem t (operandRow s c q (128 * k) (f.bytes g.1)) i
    else f.elem t (operandRow s c q (128 * i) (f.bytes g.2.2)) k
  scaled x (if q.context.getLsbD 5 then (operandByte s c q (4096 + i)).toNat else 127)

/-- Element (k, j) of operand B: its rows stand from byte 8192, and the scales of its columns from byte 12288. -/
def operandB (s : State) (c : CoreId) (q : QCmd) (k j : Nat) : Fl :=
  let f := (s.getCore c).elemFmt q.context 8 11
  let t := (s.getCore c).table (q.context.toNat / 2 ^ 11 % 4)
  scaled (f.elem t (operandRow s c q (8192 + 128 * k) (f.bytes (geo q.geometry).2.1)) j)
    (if q.context.getLsbD 13 then (operandByte s c q (12288 + j)).toNat else 127)

/-- Element (i, j) after a multiply: the K products enter it one after the other, with their signs changed for MMAS, and its
count grows by K (R137, R138, R141). -/
def multiplied (s : State) (c : CoreId) (q : QCmd) (transposed negated : Bool) (x : MSlot) (i j : Nat) : Elem :=
  let e :=
    (List.range (geo q.geometry).2.2).foldl
      (fun e k =>
        let p := product (operandA s c q transposed i k) (operandB s c q k j)
        e.accumulate x.scale x.headroom (if negated then p.flip else p))
      (x.elem (32 * i + j))
  { e with count := e.count + (geo q.geometry).2.2 }

/-- The pieces of a command lie in the scratchpad of core c, none of them poisoned, with no store or request of the core to one
of their granules on its way. -/
def atHome (s : State) (c : CoreId) (q : QCmd) : Prop :=
  ∀ p ∈ q.spans, p.place = .scratch c ∧ s.poisonIn (scratchKey c p.addr) p.len = false ∧
    s.storeNear c false (.scratch c) p.addr p.len = false ∧ s.ownNear c (.scratch c) p.addr p.len = false

/-- The core in focus has one more command queued, and is over with its instruction. -/
def queued (s : State) (k : Core) (q : QCmd) : State := ends s { k with mqueue := k.mqueue ++ [q] }

/-- The record of a discarded carry row (R149). -/
def discarded (cause : Nat) (m : CarryRow) (time : Nat) : Word :=
  BitVec.ofNat 64
    (cause * 2 ^ 54 + m.src % 4096 * 2 ^ 42 + m.sslot % 4 * 2 ^ 40 + m.dslot % 4 * 2 ^ 38 + m.row % 32 * 2 ^ 33 +
      (if m.merged then 2 ^ 32 else 0) + time % 2 ^ 32)

/-- The ring of the own cluster. -/
def ringOf (s : State) : Ring := (tget (s.cur / 16) s.clusters {}).ring

/-- The machine with that ring replaced. -/
def withRing (s : State) (r : Ring) : State :=
  { s with clusters := tset (s.cur / 16) { tget (s.cur / 16) s.clusters {} with ring := r } s.clusters }

/-- A job status word (R290). -/
def jobReport (cause st n : Nat) : Word := BitVec.ofNat 64 (cause * 2 ^ 54 + st * 2 ^ 32 + n)

end Sys2Proof.Claims

/-- R135, R138, R148, R183, R184, R187, R191 and R192: the commands on a slot that execute at once, when no queued command
names it: what each writes, and the cause of an open chain or a malformed word. -/
def Sys2Proof.Claims.SlotCommands : Prop :=
  ∀ (s : State) (n : BitVec 2) (w : BitVec 1), Claims.Alone s → Claims.Calm s → (∀ q ∈ s.core.mqueue, q.slot ≠ n.toNat) →
    let m := Claims.slotOf s n
    (∀ a b : Reg, s.core.ready { ss := [(a, 0), (b, 0)] } = true →
      (m.isOpen = true → exec (.mcfg a b w n) s = s.trap 0x144#10 0#64 ∧ exec (.chain a b w n) s = s.trap 0x144#10 0#64) ∧
      (m.isOpen = false →
        (badContext (s.src a 0) = true → exec (.mcfg a b w n) s = s.trap 0x141#10 0#64) ∧
        (badContext (s.src a 0) = false → badSlotWord (s.src b 0) = true →
          exec (.mcfg a b w n) s = s.trap 0x145#10 0#64) ∧
        (badContext (s.src a 0) = false → badSlotWord (s.src b 0) = false →
          exec (.mcfg a b w n) s =
            .next (Claims.ends s (Claims.withSlot s.core n
              { m with
                elems := []
                context := s.src a 0
                scale := Claims.wordE (s.src b 0)
                headroom := Claims.wordH (s.src b 0) }))) ∧
        (badChainWord false (s.src a 0) = true → exec (.chain a b w n) s = s.trap 0x145#10 0#64) ∧
        (badChainWord false (s.src a 0) = false →
          exec (.chain a b w n) s =
            .next (Claims.ends s (Claims.withSlot s.core n
              { m with
                elems := []
                scale := Claims.wordE (s.src a 0)
                headroom := Claims.wordH (s.src a 0)
                nexp := Claims.wordN (s.src a 0)
                isOpen := true
                future := (s.src b 0).toNat % 2 ^ 32
                card := s.core.card }))))) ∧
    (∀ a : Reg, s.core.ready { ss := [(a, 0)] } = true →
      (badGeometry (s.src a 0) = true → exec (.mgeo a w n) s = s.trap 0x141#10 0#64) ∧
      (badGeometry (s.src a 0) = false →
        exec (.mgeo a w n) s = .next (Claims.ends s (Claims.withSlot s.core n { m with geometry := s.src a 0 })))) ∧
    (m.isOpen = true → exec (.mzero w n) s = s.trap 0x144#10 0#64) ∧
    (m.isOpen = false → exec (.mzero w n) s = .next (Claims.ends s (Claims.withSlot s.core n { m with elems := [] }))) ∧
    (∀ d : Reg, s.core.ready { ds := [d] } = true →
      exec (.mstat d w n) s = .next (Claims.ends s (s.core.writeS d m.statusWord))) ∧
    exec (.mwait w n) s = .next (Claims.ends s s.core) ∧
    (m.isOpen = false →
      exec (.cclose w n) s = .next (Claims.ends s s.core) ∧ exec (.cwait w n) s = .next (Claims.ends s s.core)) ∧
    (m.isOpen = true → m.future = 0 →
      exec (.cclose w n) s = .next (Claims.ends s (Claims.withSlot s.core n { m with isOpen := false, future := 0 })))

namespace Sys2Proof.Claims

/-- n bytes at va lie in the own scratchpad. -/
def inOwn (s : State) (va n : Nat) : Prop :=
  va / 2 ^ 56 = 15 ∧ va % 2 ^ 56 < s.core.scratchSize ∧ va % 2 ^ 56 + n ≤ s.core.scratchSize ∧ va % 2 ^ 56 + n ≤ 2 ^ 19

/-- R137 to R139, R182 and R187 to R191: with an empty queue and w = 0, a command whose operands lie in the own scratchpad goes
on: a multiply when no count would pass 2^H, nor NEXP of an open chain; an MDRAIN to a format that needs no table, an
MLDACC of words that all hold an element, an MSTACC and a CADD when the slot is not open. -/
def MatrixCompletes : Prop :=
  ∀ (s : State) (d a b : Reg) (n : BitVec 2), Alone s → Calm s → s.core.pendingWait = false → s.core.mqueue = [] →
    let m := slotOf s n
    let g := geo m.geometry
    let x := s.src a 0
    let y := s.src b 0
    (s.core.ready { ss := [(a, 0), (b, 0)] } = true → x.toNat % 8 = 0 →
      (y.toNat % 8 = 0 →
        (∀ p, (tget p m.elems {}).count + g.2.2 ≤ 2 ^ m.headroom ∧
          (m.isOpen = true → (tget p m.elems {}).count + g.2.2 ≤ m.nexp)) →
        ((∀ r ∈ s.core.mmaAccesses m false x.toNat y.toNat, inOwn s r.1 r.2.1) →
          (∃ q, exec (.mma a b 0#1 n) s = .next (queued s s.core q) ∧ q.cmd = .mma false false) ∧
          ∃ q, exec (.mmas a b 0#1 n) s = .next (queued s s.core q) ∧ q.cmd = .mma false true) ∧
        ((∀ r ∈ s.core.mmaAccesses m true x.toNat y.toNat, inOwn s r.1 r.2.1) →
          ∃ q, exec (.mmat a b 0#1 n) s = .next (queued s s.core q) ∧ q.cmd = .mma true false)) ∧
      (m.isOpen = false →
        (∀ u : BitVec 1, y.toNat % 16 < 3 → badDrain s.core y (u == 1#1) g.1 g.2.1 = false →
          (∀ r ∈ drainAccesses s.core m.geometry y (u == 1#1) x, inOwn s r.1 r.2.1) →
          ∃ q, exec (.mdrain a b 0#1 u n) s = .next (queued s s.core q) ∧ q.cmd = .mdrain (u == 1#1)) ∧
        (badChainWord true y = false → Image s x.toNat 8192 →
          (∀ i < 1024, memRead s.mem (ownKey s x.toNat + 8 * i) 8 < 2 ^ 60 ∧
            (BitVec.ofNat 56 (memRead s.mem (ownKey s x.toNat + 8 * i) 8)).toInt.natAbs ≤
              wordN y * (2 ^ (55 - wordH y) - 1)) →
          ∃ q, exec (.mldacc a b 0#1 n) s = .next (queued s s.core q) ∧ q.cmd = .mldacc))) ∧
    (m.isOpen = false →
      (s.core.ready { ss := [(a, 0)], ds := [d] } = true → x.toNat % 8 = 0 → inOwn s x.toNat 8192 →
        ∃ q, exec (.mstacc d a 0#1 n) s = .next (queued s (s.core.emptyS d) q) ∧ q.cmd = .mstacc) ∧
      (s.core.ready { ss := [(a, 0), (b, 0)], ds := [d] } = true → s.isPeer (x.toNat % 4096) = true →
        ∃ q, exec (.cadd d a b 0#1 n) s = .next (queued s (s.core.emptyS d) q) ∧ q.cmd = .cadd false))

end Sys2Proof.Claims

/-- R137, R138, R139, R181, R182 and R188 to R190: the queued commands. With w = 0 the command is queued, with its operands
and translations captured, and the core goes on; with w = 1 it goes on once its command has left the queue. -/
def Obligations.QueuedCommands : Prop :=
  ∀ s : State, Claims.Alone s → Claims.Calm s →
    (∀ (i : Instr) (n : Names), Claims.waitable i = some n → s.core.ready n = true → s.core.pendingWait = true →
      (∀ q ∈ s.core.mqueue, q.waits = false) → exec i s = .next (Claims.ends s s.core)) ∧
    (s.core.pendingWait = false →
      (∀ (i : Instr) (a b : Reg) (n : BitVec 2) (c : MCmd) (ps : List Piece),
        Claims.multiply i = some (a, b, 0#1, n, c) → s.core.ready { ss := [(a, 0), (b, 0)] } = true →
        s.core.mqueue.length < 2 → (s.src a 0).toNat % 8 = 0 → (s.src b 0).toNat % 8 = 0 →
        s.cmdPlan .load
            (s.core.mmaAccesses (Claims.slotOf s n) (decide (c = .mma true false)) (s.src a 0).toNat (s.src b 0).toNat) =
          .go ps →
        let g := Claims.geo (Claims.slotOf s n).geometry
        (s.core.overCount n.toNat g.1 g.2.1 g.2.2 = true → exec i s = s.trap 0x140#10 0#64) ∧
        (s.core.overCount n.toNat g.1 g.2.1 g.2.2 = false →
          ∃ q, exec i s = .next (Claims.queued s s.core q) ∧ q.cmd = c ∧ q.slot = n.toNat ∧ q.a = s.src a 0 ∧
            q.b = s.src b 0 ∧ q.context = (Claims.slotOf s n).context ∧ q.geometry = (Claims.slotOf s n).geometry ∧
            q.waits = false ∧ q.spans = Claims.captured false ps ∧ q.taken = [])) ∧
      (∀ (a b : Reg) (u : BitVec 1) (n : BitVec 2) (ps : List Piece) (out : List Byte),
        s.core.ready { ss := [(a, 0), (b, 0)] } = true → s.core.mqueue = [] → (Claims.slotOf s n).isOpen = false →
        badDrain s.core (s.src b 0) (u == 1#1) (Claims.geo (Claims.slotOf s n).geometry).1
            (Claims.geo (Claims.slotOf s n).geometry).2.1 = false →
        (s.src a 0).toNat % 8 = 0 →
        s.cmdPlan .store (drainAccesses s.core (Claims.slotOf s n).geometry (s.src b 0) (u == 1#1) (s.src a 0)) = .go ps →
        (Claims.slotOf s n).drain s.core (s.src b 0) (u == 1#1) = .ok out →
        ∃ q, exec (.mdrain a b 0#1 u n) s = .next (Claims.queued s s.core q) ∧ q.cmd = .mdrain (u == 1#1) ∧ q.out = out ∧
          q.slot = n.toNat ∧ q.a = s.src a 0 ∧ q.b = s.src b 0 ∧ q.spans = Claims.captured true ps) ∧
      (∀ (a b : Reg) (n : BitVec 2),
        let va := (s.src a 0).toNat
        let word (i : Nat) : Nat := memRead s.mem (Claims.ownKey s va + 8 * i) 8
        s.core.ready { ss := [(a, 0), (b, 0)] } = true → s.core.mqueue = [] → (Claims.slotOf s n).isOpen = false →
        badChainWord true (s.src b 0) = false → va % 8 = 0 → Claims.Image s va 8192 →
        let beyond (i : Nat) : Prop :=
          word i / 2 ^ 56 % 8 = 0 ∧
            Claims.wordN (s.src b 0) * (2 ^ (55 - Claims.wordH (s.src b 0)) - 1) < (BitVec.ofNat 56 (word i)).toInt.natAbs
        ((∃ i < 1024, 2 ^ 60 ≤ word i) → exec (.mldacc a b 0#1 n) s = s.trap 0x102#10 0#64) ∧
        ((∀ i < 1024, word i < 2 ^ 60) → (∃ i < 1024, beyond i) → exec (.mldacc a b 0#1 n) s = s.trap 0x142#10 0#64) ∧
        ((∀ i < 1024, word i < 2 ^ 60 ∧ ¬beyond i) →
          ∃ q, exec (.mldacc a b 0#1 n) s = .next (Claims.queued s s.core q) ∧ q.cmd = .mldacc ∧ q.slot = n.toNat ∧
            q.elems.length = 1024 ∧
            ∀ i < 1024, (q.elems.getD i {}).v = (BitVec.ofNat 56 (word i)).toInt ∧
              (q.elems.getD i {}).count = Claims.wordN (s.src b 0))) ∧
      (∀ (d a : Reg) (n : BitVec 2) (ps : List Piece), s.core.ready { ss := [(a, 0)], ds := [d] } = true →
        s.core.mqueue.length < 2 → (Claims.slotOf s n).isOpen = false → (s.src a 0).toNat % 8 = 0 →
        s.cmdPlan .store (blockAccesses (s.src a 0).toNat 8192) = .go ps →
        ∃ q, exec (.mstacc d a 0#1 n) s = .next (Claims.queued s (s.core.emptyS d) q) ∧ q.cmd = .mstacc ∧
          q.slot = n.toNat ∧ q.d = d ∧ q.a = s.src a 0 ∧ q.spans = Claims.captured true ps ∧ q.started = false) ∧
      ∀ (d a b : Reg) (n : BitVec 2), s.core.ready { ss := [(a, 0), (b, 0)], ds := [d] } = true →
        s.core.mqueue.length < 2 → (Claims.slotOf s n).isOpen = false →
        (s.isPeer ((s.src a 0).toNat % 4096) = false → exec (.cadd d a b 0#1 n) s = s.trap 0x146#10 0#64) ∧
        (s.isPeer ((s.src a 0).toNat % 4096) = true →
          ∃ q, exec (.cadd d a b 0#1 n) s = .next (Claims.queued s (s.core.emptyS d) q) ∧ q.cmd = .cadd false ∧
            q.slot = n.toNat ∧ q.a = s.src a 0 ∧ q.b = s.src b 0 ∧ q.d = d))

/-- R137 to R139, R141, R145, R189 and R190: MATRIX_COMMAND_COMPLETE takes the command at the head of the queue. A multiply adds
its products to the M x N region of its slot, when its operands lie in the own scratchpad; an MDRAIN writes its rows there; an
MSTACC first reads its slot, whose status word goes to d, and then writes the 1,024 words; an MLDACC loads its slot; a CADD
sends the 32 rows of its slot and clears it. -/
def Obligations.CommandsComplete : Prop :=
  ∀ (s : State) (c : CoreId) (q : QCmd) (l : List QCmd), (s.getCore c).mqueue = q :: l → s.engineLive c = true →
    (s.getCore c).mentries = [] →
    let k := s.getCore c
    let out (p : Span) : List Byte := (q.out.drop p.off).take p.len
    (∀ transposed negated : Bool, q.cmd = .mma transposed negated → q.taken = [] → k.wp = [] → Claims.atHome s c q →
      (k.slot q.slot).isOpen = false →
      ∃ t, exec (.matrixCommandComplete c) s = .next t ∧ (t.getCore c).mqueue = l ∧ t.mem = s.mem ∧
        (∀ i < 32, ∀ j < 32, ((t.getCore c).slot q.slot).elem (32 * i + j) =
          if i < (Claims.geo q.geometry).1 ∧ j < (Claims.geo q.geometry).2.1 then
            Claims.multiplied s c q transposed negated (k.slot q.slot) i j
          else (k.slot q.slot).elem (32 * i + j)) ∧
        ∀ n, n ≠ q.slot → (t.getCore c).slot n = k.slot n) ∧
    ((∃ dual, q.cmd = .mdrain dual) ∨ q.cmd = .mstacc ∧ q.started = true → k.wp = [] → Claims.atHome s c q →
      (∀ p ∈ q.spans, p.done = false ∧ p.blocked = false ∧ p.off + p.len ≤ q.out.length) →
      ∃ t, exec (.matrixCommandComplete c) s = .next t ∧ (t.getCore c).mqueue = l ∧ (t.getCore c).mslots = k.mslots ∧
        t.mem = q.spans.foldl (fun m p => memWrite m (scratchKey c p.addr) (bytesNat (out p)) p.len) s.mem) ∧
    (q.cmd = .mstacc → q.started = false →
      ∃ t, exec (.matrixCommandComplete c) s = .next t ∧ t.mem = s.mem ∧
        (t.getCore c).sregs = (k.fillS q.d (k.slot q.slot).statusWord).sregs ∧
        (t.getCore c).mqueue =
          { q with
            out := (List.range 1024).flatMap fun i => natBytes ((k.slot q.slot).elem i).word 8
            started := true } :: l) ∧
    (q.cmd = .mldacc →
      ∃ t, exec (.matrixCommandComplete c) s = .next t ∧ (t.getCore c).mqueue = l ∧ t.mem = s.mem ∧
        (∀ i < 1024, ((t.getCore c).slot q.slot).elem i = q.elems.getD i {}) ∧
        ((t.getCore c).slot q.slot).scale = Claims.wordE q.b ∧
        ((t.getCore c).slot q.slot).headroom = Claims.wordH q.b ∧
        ∀ n, n ≠ q.slot → (t.getCore c).slot n = (s.getCore c).slot n) ∧
    (q.cmd = .cadd false →
      ∃ t rows, exec (.matrixCommandComplete c) s = .next t ∧ (t.getCore c).mqueue = l ∧ t.mem = s.mem ∧
        t.rows = s.rows ++ rows ∧ rows.length = 32 ∧ ((t.getCore c).slot q.slot).elems = [] ∧
        ∀ r < 32, ∃ m, rows[r]? = some m ∧ m.src = c ∧ m.dst = q.a.toNat % 4096 ∧ m.dslot = q.b.toNat % 4 ∧ m.row = r ∧
          m.scale = ((s.getCore c).slot q.slot).scale ∧
          ∀ j < 32, m.elems.getD j {} = ((s.getCore c).slot q.slot).elem (32 * r + j))

/-- R141: one product enters an element: a finite one is rounded to the grid of the slot, to nearest even, and added, or
clipped at the bound with C set; a NaN or an infinity sets its flag and changes no sum. -/
def Obligations.GridAccumulation : Prop :=
  ∀ (e : Elem) (scale : Int) (h : Nat),
    (∀ (neg : Bool) (m : Nat) (x : Int), scale ≤ x → m * 2 ^ (x - scale).toNat ≤ 2 ^ (55 - h) - 1 →
      e.accumulate scale h (.fin neg m x) =
        { e with v := if neg then e.v - (m * 2 ^ (x - scale).toNat : Nat) else e.v + (m * 2 ^ (x - scale).toNat : Nat) }) ∧
    (∀ (neg : Bool) (m : Nat) (x : Int), scale ≤ x → 2 ^ (55 - h) - 1 < m * 2 ^ (x - scale).toNat →
      e.accumulate scale h (.fin neg m x) =
        { e with
          v := if neg then e.v - (2 ^ (55 - h) - 1 : Nat) else e.v + (2 ^ (55 - h) - 1 : Nat)
          clip := true }) ∧
    (∀ (neg : Bool) (m k : Nat),
      ∃ q : Nat,
        e.accumulate scale h (.fin neg m (scale - k)) =
          { e with
            v := if neg then e.v - (min q (2 ^ (55 - h) - 1) : Nat) else e.v + (min q (2 ^ (55 - h) - 1) : Nat)
            clip := e.clip || decide (2 ^ (55 - h) - 1 < q) } ∧
        2 * (q * 2 ^ k) ≤ 2 * m + 2 ^ k ∧ 2 * m ≤ 2 * (q * 2 ^ k) + 2 ^ k ∧ (2 * (m % 2 ^ k) = 2 ^ k → q % 2 = 0)) ∧
    (∀ b q, e.accumulate scale h (.nan b q) = { e with nan := true }) ∧
    e.accumulate scale h (.inf false) = { e with pinf := true } ∧
    e.accumulate scale h (.inf true) = { e with ninf := true }

/-- R146, R147 and R149: a row that arrives at an open slot of its scale and headroom is added to its row of elements, and
the order of two additions does not matter; any other is discarded, and leaves a record. That the record goes to the lowest free
place is the model's choice (log 77). Rows that may merge become one with the sums of their elements. This holds while no stop
time of their context has passed. -/
def Obligations.CarryRows : Prop :=
  ∀ (s : State) (m : CarryRow) (l : List CarryRow), s.rows = m :: l →
    let k := s.getCore m.dst
    let x := k.slot m.dslot
    let full := ∀ j < 32, (x.elem (32 * m.row + j)).count + (m.elems.getD j {}).count ≤ x.nexp
    s.live m.ctx = true →
    (x.isOpen = true → x.scale = m.scale → x.headroom = m.headroom → full → m.row < 32 → x.future = 0 →
      ∃ t, exec (.carryRowArrival 0) s = .next t ∧ t.rows = l ∧ t.mem = s.mem ∧
        ∀ p < 1024, ((t.getCore m.dst).slot m.dslot).elem p =
          if p / 32 = m.row then (x.elem p).join (m.elems.getD (p % 32) {}) else x.elem p) ∧
    (∀ cause, (x.isOpen = false ∧ cause = 0x148 ∨
        x.isOpen = true ∧ (x.scale ≠ m.scale ∨ x.headroom ≠ m.headroom) ∧ cause = 0x149 ∨
        x.isOpen = true ∧ x.scale = m.scale ∧ x.headroom = m.headroom ∧ ¬full ∧ cause = 0x14A) →
      ∀ i < 8, tfind i k.carryRecs = none → (∀ j < i, tfind j k.carryRecs ≠ none) →
      ∃ t, exec (.carryRowArrival 0) s = .next t ∧ t.rows = l ∧ (t.getCore m.dst).mslots = k.mslots ∧
        tfind i (t.getCore m.dst).carryRecs = some { word := Claims.discarded cause m s.time }) ∧
    (∀ (b : CarryRow) (l' : List CarryRow), l = b :: l' → mayMerge m b = true →
      ∃ t r, exec (.carryRouterMerge 0 1) s = .next t ∧ t.rows = r :: l' ∧ r.merged = true ∧ r.dst = m.dst ∧
        r.row = m.row ∧ ∀ j < 32, r.elems.getD j {} = (m.elems.getD j {}).join (b.elems.getD j {})) ∧
    ∀ a b c : Elem, a.join b = b.join a ∧ (a.join b).join c = a.join (b.join c)

/-- R149 and R193: CSTAT gives record i, or the lost count with the bitmap of the records, and changes nothing when it frees
none. -/
def Sys2Proof.Claims.CarryStatus : Prop :=
  ∀ (s : State) (d a : Reg) (w : BitVec 1), Claims.Alone s → Claims.Calm s →
    s.core.ready { ss := [(a, 0)], ds := [d] } = true → (s.src a 0).getLsbD 4 = false →
    ((s.src a 0).getLsbD 3 = false →
      exec (.cstat d a w) s =
        .next (Claims.ends s (s.core.writeS d
          (match tfind ((s.src a 0).toNat % 8) s.core.carryRecs with | some r => r.word | none => 0#64)))) ∧
    ((s.src a 0).getLsbD 3 = true →
      ∃ v, exec (.cstat d a w) s = .next (Claims.ends s (s.core.writeS d v)) ∧
        (s.core.carryLost < 2 ^ 32 → v.toNat / 2 ^ 32 = s.core.carryLost) ∧
        ∀ i < 8, v.getLsbD i = (tfind i s.core.carryRecs).isSome)

/-- R124 to R128, R156, R194 to R197: the table and PPU commands. TABLD and PPULD take an image of the own scratchpad that
passes its check; a table so loaded is not verified, and TABCHK gives its outcome; TABRD, PPURD, ENC and DEC write d. -/
def Obligations.TableCommands : Prop :=
  ∀ (s : State) (w : BitVec 1) (t : BitVec 2), Claims.Alone s → Claims.Calm s →
    let tab := tget t.toNat s.core.tables {}
    (∀ a b : Reg, s.core.ready { ss := [(a, 0), (b, 0)] } = true →
      ((s.src a 0).toNat % 8 ≠ 0 ∨ 8 ≤ (s.src b 0).toNat → exec (.tabld a b w t) s = s.trap 0x185#10 0#64) ∧
      ((s.src a 0).toNat % 8 = 0 → (s.src b 0).toNat < 8 → (∀ q ∈ s.core.mqueue, q.namesTable t.toNat = false) →
        Claims.Image s (s.src a 0).toNat 1024 →
        imageFault (imageEntries (Claims.imageBytes s (s.src a 0).toNat 1024)) = none →
        ∃ new, exec (.tabld a b w t) s = .next (Claims.ends s { s.core with tables := tset t.toNat new s.core.tables }) ∧
          new.verified = false ∧ new.tc = (s.src b 0).getLsbD 0 ∧ new.sat = (s.src b 0).getLsbD 1 ∧
          new.four = (s.src b 0).getLsbD 2 ∧
          ∀ c < 256, new.entry c =
            BitVec.ofNat 32 (memRead s.mem (Claims.ownKey s (s.src a 0).toNat + 4 * c) 4))) ∧
    (∀ d a : Reg, s.core.ready { ss := [(a, 0)], ds := [d] } = true →
      exec (.tabrd d a w t) s =
        .next (Claims.ends s (s.core.writeS d
          (if (s.src a 0).getLsbD 8 then tab.statusWord
            else (tab.entry ((s.src a 0).toNat % 256)).zeroExtend 64))) ∧
      (∀ o, (s.src a 0).toNat = o → o ≤ 1292 → o % 4 = 0 →
        exec (.ppurd d a w) s =
          .next (Claims.ends s (s.core.writeS d
            (BitVec.ofNat 64 (bytesNat ((List.range 4).map fun i => tget (o + i) s.core.ppu 0#8)))))) ∧
      (∀ (c : Nat) (z : Bool), tab.encode (fmt64.val (s.src a 0).toNat) = .ok (c, z) →
        exec (.enc d a w t) s =
          .next (Claims.ends s ((s.core.writeS d (BitVec.ofNat 64 c)).addFlags
            (Claims.codeFlags z [fmt64.val (s.src a 0).toNat])))) ∧
      exec (.dec d a w t) s =
        .next (Claims.ends s (s.core.writeS d
          (BitVec.ofNat 64 (fmt64.roundVal 0 (tab.decode ((s.src a 0).toNat % 256))).bits)))) ∧
    (∀ d : Reg, s.core.ready { ds := [d] } = true →
      (∀ c, tab.check = some c →
        exec (.tabchk d w t) s =
          .next (Claims.ends s ({ s.core with tables := tset t.toNat tab s.core.tables }.writeS d
            (BitVec.ofNat 64 ((if tab.n3 then 2 else 0) + 256 * c))))) ∧
      (tab.check = none →
        exec (.tabchk d w t) s =
          .next (Claims.ends s
            ({ s.core with tables := tset t.toNat { tab with verified := true, n3 := tab.isN3 } s.core.tables }.writeS d
              (if tab.isN3 then 3#64 else 1#64))))) ∧
    ∀ a : Reg, s.core.ready { ss := [(a, 0)] } = true → (s.src a 0).toNat % 8 = 0 → Claims.Image s (s.src a 0).toNat 1296 →
      (∀ c, ppuFault (Claims.imageBytes s (s.src a 0).toNat 1296) = some c → exec (.ppuld a w) s = s.trap c 0#64) ∧
      (ppuFault (Claims.imageBytes s (s.src a 0).toNat 1296) = none →
        ∃ p, exec (.ppuld a w) s = .next (Claims.ends s { s.core with ppu := p }) ∧
          ∀ i < 1296, tget i p 0#8 = memByte s.mem (Claims.ownKey s (s.src a 0).toNat + i))

/-- R127: a table that TABCHK verifies decodes its codes, in the order of its mode, to finite values that rise strictly. -/
def Obligations.VerifiedTablesRise : Prop :=
  ∀ t : DecTab, t.check = none →
    List.Pairwise (fun a b : Nat => (entryVal (t.entry a)).lt (entryVal (t.entry b)) = true)
      (t.order.filter fun c => decide (entryClass (t.entry c) = 0))

/-- R316, R317, R320, R321 and R366 to R369: the RNG instructions, in a core with no task in flight: what each does to the
ring of its cluster, the match table of its station, or d. -/
def Obligations.RingCommands : Prop :=
  ∀ s : State, Claims.Alone s → Claims.Calm s →
    let r := Claims.ringOf s
    (∀ a : Reg, s.core.ready { ss := [(a, 0)] } = true →
      (r.state = .running ∨ r.state = .draining → exec (.rgcfg a) s = s.trap 0x2C2#10 0#64) ∧
      (r.state = .off ∨ r.state = .frozen →
        (s.badRing (s.src a 0) = true → exec (.rgcfg a) s = s.trap 0x2C1#10 0#64) ∧
        (s.badRing (s.src a 0) = false →
          ∃ t, exec (.rgcfg a) s = .next t ∧ Claims.stepped s t ∧
            Claims.ringOf t = { state := .running, config := s.src a 0 } ∧ t.mem = s.mem)) ∧
      ((s.src a 0).toNat % 8 = 0 → Claims.Image s (s.src a 0).toNat 192 → s.core.noTasks = true →
        (∀ e < 8, s.core.actionDue e = false) →
        (badMatchImage (Claims.imageBytes s (s.src a 0).toNat 192) = true → exec (.mtld a) s = s.trap 0x2C3#10 0#64) ∧
        (badMatchImage (Claims.imageBytes s (s.src a 0).toNat 192) = false →
          ∃ k, exec (.mtld a) s = .next (Claims.ends s k) ∧ k.fcnt = [] ∧ k.tcnt = [] ∧ k.issuedDone = [] ∧
            (∀ i < 16, tget i k.mentries 0#64 =
              BitVec.ofNat 64 (memRead s.mem (Claims.ownKey s (s.src a 0).toNat + 8 * i) 8)) ∧
            ∀ i < 8, tget i k.mtargets 0#64 =
              BitVec.ofNat 64 (memRead s.mem (Claims.ownKey s (s.src a 0).toNat + 0x80 + 8 * i) 8))) ∧
      ((∀ e x y n, tfind ((s.src a 0).toNat % 4) s.core.tasks ≠ some (e, x, y, n, true)) →
        exec (.tkdone a) s = s.trap 0x2C8#10 0#64) ∧
      (∀ e x y n, tfind ((s.src a 0).toNat % 4) s.core.tasks = some (e, x, y, n, true) → s.core.mentries = [] →
        ∃ t, exec (.tkdone a) s = .next t ∧ Claims.stepped s t ∧
          t.core.tasks = terase ((s.src a 0).toNat % 4) s.core.tasks ∧
          tget e t.core.tcnt 0 = tget e s.core.tcnt 0 - 1)) ∧
    (s.core.noTasks = true → (∀ e < 8, s.core.actionDue e = false) →
      exec .mtclr s =
        .next (Claims.ends s
          { s.core with mentries := [], mtargets := [], fcnt := [], tcnt := [], issuedDone := [] })) ∧
    (∀ a : Reg, s.core.ready { ss := [(a, 0)] } = true → s.core.pendingWait = false → (s.src a 0).toNat % 8 = 0 →
      let va := (s.src a 0).toNat
      let fmt := (memByte s.mem (Claims.ownKey s va + 0x10)).toNat
      let b := beadOf (Claims.imageBytes s va (64 + bodySize fmt)) s.cur s.ctxNo false
      (r.state = .off ∨ r.state = .draining → exec (.binj a 0#1) s = s.trap 0x2C7#10 0#64) ∧
      (r.state = .running ∨ r.state = .frozen → Claims.Image s va (64 + bodySize fmt) →
        (b.bad = true → exec (.binj a 0#1) s = s.trap 0x2C4#10 0#64) ∧
        (b.bad = false → r.roomFor b = true → exec (.binj a 0#1) s = .next (Claims.ends (Claims.withRing s (r.join b)) s.core)))) ∧
    (∀ d a : Reg, s.core.ready { ss := [(a, 0)], ds := [d] } = true →
      let tag := (s.src a 0).toNat % 2 ^ 32
      (r.queued tag = none → r.find tag = none → s.core.ringDone = none → s.core.ringWait = none →
        exec (.btake d a) s = .next (Claims.ends s (s.core.writeS d 0#64))) ∧
      (∀ f i b, r.queued tag = some (f, i, b) → s.core.ringDone = none → s.core.ringWait = none →
        ∃ t, exec (.btake d a) s = .next t ∧ t.core = (Claims.ends s (s.core.writeS d b.headerWord)).core ∧
          (Claims.ringOf t).queue f = (r.queue f).eraseIdx i) ∧
      (∀ f st b, r.queued tag = none → r.find tag = some (f, st, b) → s.core.ringDone = none → s.core.ringWait = none →
        (r.state = .off ∨ r.state = .frozen →
          exec (.btake d a) s = .next (Claims.ends (Claims.withRing s (r.remove f st)) (s.core.writeS d b.headerWord))) ∧
        (r.state = .running ∨ r.state = .draining →
          exec (.btake d a) s =
            ({ Claims.withRing s { r with takes := r.takes ++ [(s.cur, tag)] } with
                core := { s.core with ringWait := some tag } } : State).waits)) ∧
      (∀ w, s.core.ringDone = some w →
        exec (.btake d a) s = .next (Claims.ends s ({ s.core with ringWait := none, ringDone := none }.writeS d w))) ∧
      ∃ v, exec (.bstat d a) s = .next (Claims.ends s (s.core.writeS d v)) ∧
        ((s.src a 0).toNat / 32 % 4 = 3 → r.queueA.length ≤ 8 → r.queueB.length ≤ 8 →
          v.toNat / 2 ^ 32 = r.steps % 2 ^ 32)) ∧
    (∀ d : Reg, s.core.ready { ds := [d] } = true →
      (s.core.tasks = [] → r.state = .off ∨ r.state = .frozen →
        exec (.tkget d) s = .next (Claims.ends s (s.core.writeS d 0#64))) ∧
      ∀ i e x y n, (i, e, x, y, n, false) ∈ s.core.tasks → (∀ t ∈ s.core.tasks, t.1 = i → t = (i, e, x, y, n, false)) →
        (∀ t ∈ s.core.tasks, t.2.2.2.2.2 = false → t ≠ (i, e, x, y, n, false) → n < t.2.2.2.2.1) →
        exec (.tkget d) s =
          .next (Claims.ends s
            (({ s.core with
                tasks := s.core.tasks.map fun t => if t.1 = i then (i, e, x, y, n, true) else t } : Core).writeS d
              (BitVec.ofNat 64 (256 + 16 * e + i))))) ∧
    (∀ d a b : Reg, s.core.ready { ss := [(a, 0), (b, 0)], ds := [d] } = true → s.core.jobs.length < 2 →
      (s.src a 0).toNat % 8 = 0 → (s.src b 0).toNat % 8 = 0 →
      ∃ j, exec (.rgsub d a b) s =
          .next (Claims.ends s ({ s.core with
              jobs := s.core.jobs ++ [j]
              era := s.core.era + 1
              lastJob := j.num
              wrapped := s.core.wrapped || decide (s.core.lastJob = 2 ^ 32 - 1) }.writeS d (BitVec.ofNat 64 j.num))) ∧
        j.num = (if s.core.lastJob = 2 ^ 32 - 1 then 1 else s.core.lastJob + 1) ∧ wfield j.qw0 32 4 = 5 ∧
        j.qw1 = s.src a 0 ∧ j.qw2 = s.src b 0) ∧
    (r.state = .off ∨ r.state = .draining → exec .rgquiet s = .next (Claims.ends s s.core)) ∧
    (r.state = .running →
      let busy : Prop :=
        r.slotA ≠ [] ∨ r.slotB ≠ [] ∨ ∃ i < 16, (s.getCore (s.cur / 16 * 16 + i)).noTasks = false
      (busy → exec .rgquiet s = .next (Claims.ends (Claims.withRing s { r with state := .draining }) s.core)) ∧
      (¬busy →
        ∃ t, exec .rgquiet s = .next t ∧ t.core = (Claims.ends s s.core).core ∧ t.mem = s.mem ∧
          Claims.ringOf t = { r with state := .off, slotA := [], slotB := [], queueA := [], queueB := [] })) ∧
    (r.state = .frozen →
      exec .rgquiet s =
        .next (Claims.ends
          (Claims.withRing s { r with state := .off, slotA := [], slotB := [], queueA := [], queueB := [] }) s.core))

namespace Sys2Proof.Claims

/-- Injection into a family: the oldest bead of its queue goes to station 0, if no bead is there, with its counts and its mask
cleared (R314, R319). -/
def injectInto (l : Tab Bead) (queue : List Bead) : Tab Bead × List Bead :=
  match queue, tfind 0 l with
  | b :: rest, none => (tset 0 { b with dcnt := 0, age := 0, dmask := 0#64, waits := false } l, rest)
  | _, _ => (l, queue)

end Sys2Proof.Claims

/-- R313, R314, R319, R327 and R328: a step of a running ring moves the family of its parity by one station, injects the oldest
bead of each queue where station 0 is free, retires the beads whose done count equals their partner count, ages the others and
counts; here with no station that takes part and no core of the cluster debug-stopped. -/
def Obligations.RingSteps : Prop :=
  ∀ (s : State) (cl n : Nat) (r : Ring), (s.cluster cl).ring = r → (s.cluster cl).context = some n → s.live n = true →
    r.state = .running → 1 ≤ r.limit → r.takes = [] → (∀ i < 16, r.takesPart i = false) →
    (∀ i < 16, (s.getCore (16 * cl + i)).mentries = [] ∧ (s.getCore (16 * cl + i)).debugStopped = false) →
    (∀ x ∈ r.slotA, x.1 < 16) → (∀ x ∈ r.slotB, x.1 < 16) →
    (∀ x ∈ r.slotA ++ r.slotB, x.2.age + 1 < 32 * r.limit) →
    ∃ t, exec (.ringStep cl) s = .next t ∧ t.mem = s.mem ∧
      let q := (t.cluster cl).ring
      let keep (l : Tab Bead) : Tab Bead :=
        (l.filter fun x => x.2.dcnt ≠ x.2.pcnt).map fun x => (x.1, { x.2 with age := x.2.age + 1 })
      let a := Claims.injectInto (if r.steps % 2 = 0 then r.slotA.map fun x => ((x.1 + 1) % 16, x.2) else r.slotA) r.queueA
      let b := Claims.injectInto (if r.steps % 2 = 1 then r.slotB.map fun x => ((x.1 + 15) % 16, x.2) else r.slotB) r.queueB
      q.state = .running ∧ q.steps = r.steps + 1 ∧ q.slotA = keep a.1 ∧ q.queueA = a.2 ∧ q.slotB = keep b.1 ∧ q.queueB = b.2

/-- R287, R290 and R291: CPSTAT gives the job status word of a job: absent, never submitted, queued, running, or the kept
outcome. CPWAIT gives it for a job that is over. CPCAN of no outstanding job changes nothing, and one of an outstanding job
ends it as cancelled. -/
def Obligations.CopyStatus : Prop :=
  ∀ (s : State) (a : Reg), Claims.Alone s → Claims.Calm s → s.core.ready { ss := [(a, 0)] } = true →
    let n := (s.src a 0).toNat % 2 ^ 32
    (∀ d : Reg, s.core.ready { ss := [(a, 0)], ds := [d] } = true →
      (∀ v, (n = 0 ∧ v = Claims.jobReport 0 7 0 ∨
          n ≠ 0 ∧ (∃ j ∈ s.core.jobs, j.num = n) ∧
            v = Claims.jobReport 0 (if (s.core.jobs.find? fun j => decide (j.num = n)).any fun j => j.running then 2 else 1) n ∨
          n ≠ 0 ∧ (∀ j ∈ s.core.jobs, j.num ≠ n) ∧ (∃ w, s.core.history = [w] ∧ w.toNat % 2 ^ 32 = n ∧ v = w) ∨
          n ≠ 0 ∧ (∀ j ∈ s.core.jobs, j.num ≠ n) ∧ s.core.history = [] ∧ s.core.wrapped = false ∧ s.core.lastJob < n ∧
            v = Claims.jobReport 0 0 n) →
        exec (.cpstat d a) s = .next (Claims.ends s (s.core.writeS d v)) ∧
        (n ≠ 0 → (∀ j ∈ s.core.jobs, j.num ≠ n) → exec (.cpwait d a) s = .next (Claims.ends s (s.core.writeS d v))))) ∧
    ((∀ j ∈ s.core.jobs, j.num ≠ n) → exec (.cpcan a) s = .next (Claims.ends s s.core)) ∧
    ∀ j, s.core.jobs = [j] → j.num = n → j.qw0.toNat % 2 ^ 32 = 0 →
      (s.getCore (pullCore j.record)).mentries = [] →
      ∃ t, exec (.cpcan a) s = .next t ∧ Claims.stepped s t ∧ t.core.jobs = [] ∧
        t.core.history = (Claims.jobReport 0x31F 5 n :: s.core.history).take 16 ∧ t.mem = s.mem

/-- Job j of core c has made no write yet, none of its reads is still to be answered, and it adds nothing (R288). -/
structure Claims.Unbegun (s : State) (c : CoreId) (j : Job) : Prop where
  pos : j.pos = 0
  wrote : j.wrote = []
  stalled : j.stalled = []
  bytes : j.bytes = none
  reading : s.jobReading c j = false
  add : wbit j.qw0 40 = false

/-- R228, R230, R265, R290 and R319: COPY_JOB_COMPLETE runs the oldest job of a core to its end. A FILL of own-scratchpad
bytes writes its pattern there; a job that runs into a fault fails, with an asynchronous trap when it names no future;
LOADER_BEAD_ARRIVAL brings the next bead of a SUBSCRIBE job to the queue of its ring. -/
def Obligations.CopyJobs : Prop :=
  ∀ (s : State) (c : CoreId) (j : Job), (s.getCore c).jobs = [j] → s.jobMayRun c 0 = true → j.qw0.toNat % 2 ^ 32 = 0 →
    Claims.Unbegun s c j →
    (wfield j.qw0 32 4 = 4 → j.qw2.toNat / 2 ^ 56 = 15 → j.qw2.toNat % 8 = 0 → j.qw3.toNat = 8 →
      j.qw2.toNat % 2 ^ 56 + 8 ≤ (s.getCore c).scratchSize → j.qw2.toNat % 2 ^ 56 + 8 ≤ 2 ^ 19 → (s.getCore c).wp = [] →
      ∃ t, exec (.copyJobComplete c 0) s = .next t ∧
        t.mem = memWrite s.mem (scratchKey c (j.qw2.toNat % 2 ^ 56)) j.qw1.toNat 8 ∧ (t.getCore c).jobs = [] ∧
        (t.getCore c).history = (Claims.jobReport 0 3 j.num :: (s.getCore c).history).take 16) ∧
    (wfield j.qw0 32 4 = 4 → 2 ^ 60 ≤ j.qw2.toNat → j.qw2.toNat % 8 = 0 → j.qw3.toNat = 8 → (s.getCore c).asyncs = [] →
      ∃ t, exec (.copyJobFail c 0) s = .next t ∧ t.mem = s.mem ∧ (t.getCore c).jobs = [] ∧
        (t.getCore c).history = (Claims.jobReport 0x200 4 j.num :: (s.getCore c).history).take 16 ∧
        (t.getCore c).asyncs = [{ cause := 0x200#10, val := BitVec.ofNat 64 j.num }]) ∧
    (∀ b cl t, j.qw0.toNat / 2 ^ 32 % 16 = 5 → j.recordLeft = none → s.nextBead c j = .bead b cl t →
      (t.ring cl).state = .running → (t.ring cl).roomFor b = true →
      ∃ u, exec (.loaderBeadArrival c 0) s = .next u ∧ (u.ring cl).queue ((t.ring cl).famA b) =
        (t.ring cl).queue ((t.ring cl).famA b) ++ [b])

namespace Sys2Proof.Claims

/-! ## Futures, work units, channels, phases, barriers (R304 to R309, R338 to R365) -/

/-- The core in focus is a core of context n, which is x. -/
structure InContext (s : State) (n : Nat) (x : Context) : Prop where
  core : s.core.context = some n
  context : tfind n s.contexts = some x

/-- Entry i of the future table of x, as memory m holds it. -/
def entry (x : Context) (m : List Host.Cell) (i : Nat) : FutEntry := futEntryAt m (x.desc.futbase + 32 * i)

/-- Index and generation of a handle (R304). -/
def idx (h : Nat) : Nat := h % 2 ^ 20
def gen (h : Nat) : Nat := h / 2 ^ 20 % 2 ^ 12

/-- The handle names an entry of the table. -/
def valid (x : Context) (h : Nat) : Prop := gen h ≠ 0 ∧ idx h < x.futures

/-- The handle names the entry's present allocation. -/
def live (s : State) (x : Context) (h : Nat) : Prop := (entry x s.mem (idx h)).st ≠ 0 ∧ (entry x s.mem (idx h)).gen = gen h

/-- The free list of context n. -/
def freeList (t : State) (n : Nat) : Option (List Nat) := (tfind n t.contexts).map fun y => y.freeFutures

/-- FPUT and FPOIS: operands, new state, value. -/
def settling (s : State) : Instr → Option (Reg × Reg × Nat × Nat)
  | .fput a b => some (a, b, 2, (s.src b 0).toNat)
  | .fpois a b => some (a, b, 3, (s.src b 0).toNat % 2 ^ 10)
  | _ => none

/-- JWID, JARG and JQRY in unit u of card k: names, destination, value (R357). -/
def unitRead (s : State) (u : WorkUnit) (k : Card) : Instr → Option (Names × Reg × Word)
  | .jwid d => some (reads [] d, d, BitVec.ofNat 64 u.ident)
  | .jarg d => some (reads [] d, d, BitVec.ofNat 64 (u.argBase.toNat + u.ident * u.argSize))
  | .jqry d a =>
    some (reads [(a, 0#2)] d, d,
      BitVec.ofNat 64
        (match (s.src a 0).toNat % 4 with
         | 0 => k.count | 1 => k.rem | 2 => k.done | _ => k.queue))
  | _ => none

/-! Fields of a channel binding (R346). -/

def kind (b : Word × Word) : Nat := b.1.toNat / 2 ^ 60
def peer (b : Word × Word) : Nat := b.1.toNat / 2 ^ 48 % 2 ^ 12
def sends (b : Word × Word) : Bool := !b.1.getLsbD 44
def bytes (b : Word × Word) : Nat := 64 * (b.1.toNat / 2 ^ 32 % 64 + 1)
def depth (b : Word × Word) : Nat := b.1.toNat / 2 ^ 26 % 64 + 1
def buf (b : Word × Word) : Nat := b.1.toNat % 2 ^ 19
def ctr (b : Word × Word) : Nat := b.2.toNat % 2 ^ 19

/-- The counters of a channel, in the scratchpad of core c. -/
def sentOf (s : State) (c : CoreId) (b : Word × Word) : Nat := memRead s.mem (scratchKey c (ctr b)) 8
def takenOf (s : State) (c : CoreId) (b : Word × Word) : Nat := memRead s.mem (scratchKey c (ctr b + 8)) 8

/-- Messages in the channel. -/
def inside (s : State) (c : CoreId) (b : Word × Word) : Nat := (sentOf s c b + 2 ^ 64 - takenOf s c b) % 2 ^ 64

/-- Nothing is on its way, nothing is poisoned, and no watchpoint is set in the core in focus. -/
structure Bare (s : State) : Prop where
  flight : s.flight = []
  order : s.hostq = []
  poison : s.poisoned = []
  watch : s.core.wp = []

/-- Slot t of the phase has passed, or the phase has ended. -/
def past (x : Context) (t : Nat) : Prop := ∀ p, x.phase = some p → t < p.next

/-- Slot t lies in the schedule k of the phase that the core in focus is in. -/
def inSchedule (s : State) (t : Nat) : Prop :=
  ∃ k h, s.core.inPhase = some k ∧ tfind k (tget (s.cur / 16) s.clusters {}).schedules = some h ∧ t < h.slots.length

/-- XMIT and XMIT_CH: the vector source and the slot; a binding that fits (R361). -/
def transmit (s : State) : Instr → Option (Reg × Nat)
  | .xmit h b l => some (b, h.toNat * 8 + l.toNat)
  | .xmitCh c h b l => (channelSlot s c true (h.toNat * 8 + l.toNat)).map fun t => (b, t)
  | _ => none
where
  channelSlot (s : State) (c : BitVec 4) (out : Bool) (m : Nat) : Option Nat :=
    let b := tget c.toNat s.core.bindings (0#64, 0#64)
    if kind b = 2 ∧ sends b = out ∧ m ≤ b.1.toNat / 2 ^ 32 % 64 ∧ s.core.inPhase = some (b.2.toNat / 2 ^ 56 % 4) then
      some (b.2.toNat / 2 ^ 32 % 256 + m * (b.2.toNat / 2 ^ 40 % 256))
    else none

/-- XRECV and XRECV_CH: destination and slot. -/
def receives (s : State) : Instr → Option (Reg × Nat)
  | .xrecv d h l => some (d, h.toNat * 8 + l.toNat)
  | .xrecvCh d h c l => (transmit.channelSlot s c false (h.toNat * 8 + l.toNat)).map fun t => (d, t)
  | _ => none

/-- The barrier of the own cluster. -/
def barrierOf (s : State) (n : BitVec 2) : Barrier := tget n.toNat (tget (s.cur / 16) s.clusters {}).barriers {}

/-- The bit of the own station. -/
def ownBit (s : State) : BitVec 16 := 1#16 <<< (s.cur % 16)

/-- An arrival mask that R363 allows: it names the own station, and only stations with an enabled core of the context. -/
def goodMask (s : State) (q : BitVec 16) : Prop :=
  q.getLsbD (s.cur % 16) = true ∧ ∀ i < 16, q.getLsbD i = true → s.isPeer (s.cur / 16 * 16 + i) = true

end Sys2Proof.Claims

/-- R305 to R309, R353 and R354: the FUT instructions, in a core that has nothing under way: allocation from the head of the
free list with the next generation, release to its tail, fulfilment and poisoning, what they wake, the reading of a future,
and the causes of an invalid, a stale, a settled and an awaited handle. No card with COUNT 0 waits, which a settlement could
release and complete at once (R300), and the write log has room (R437). That a waiter takes the lowest free record, here record
1, is the model's choice (log 10). -/
def Obligations.Futures : Prop :=
  ∀ (s : State) (n : Nat) (x : Context), Claims.Alone s → Claims.Settled s → Memory.wf s.mem = true →
    Claims.InContext s n x → (∀ p ∈ s.cards, p.2.count ≠ 0) → (∀ a, s.canLog n a = true) →
    (∀ d : Reg, s.core.ready { ds := [d] } = true →
      (x.freeFutures = [] → exec (.fnew d) s = s.trap 0x304#10 0#64) ∧
      ∀ i l, x.freeFutures = i :: l →
        let g := if (Claims.entry x s.mem i).gen = 4095 then 1 else (Claims.entry x s.mem i).gen + 1
        ∃ t, exec (.fnew d) s = .next t ∧ Claims.stepped s t ∧ Claims.freeList t n = some l ∧
          t.core.sregs = (s.core.writeS d (BitVec.ofNat 64 (g * 2 ^ 20 + i))).sregs ∧
          Claims.entry x t.mem i = { value := 0, st := 1, gen := g, nwait := 0, whead := 0, wtail := 0 }) ∧
    (∀ a : Reg, s.core.ready { ss := [(a, 0)] } = true →
      let h := (s.src a 0).toNat % 2 ^ 32
      let i := Claims.idx h
      let e := Claims.entry x s.mem i
      (¬Claims.valid x h → exec (.ffree a) s = s.trap 0x300#10 (BitVec.ofNat 64 h)) ∧
      (Claims.valid x h → ¬Claims.live s x h → exec (.ffree a) s = s.trap 0x301#10 (BitVec.ofNat 64 h)) ∧
      (Claims.valid x h → Claims.live s x h → e.st = 1 → e.nwait ≠ 0 →
        exec (.ffree a) s = s.trap 0x303#10 (BitVec.ofNat 64 h)) ∧
      (Claims.valid x h → Claims.live s x h → e.st ≠ 1 ∨ e.nwait = 0 →
        ∃ t, exec (.ffree a) s = .next t ∧ Claims.stepped s t ∧ Claims.freeList t n = some (x.freeFutures ++ [i]) ∧
          Claims.entry x t.mem i = { e with st := 0 })) ∧
    (∀ (j : Instr) (a b : Reg) (st v : Nat), Claims.settling s j = some (a, b, st, v) →
      s.core.ready { ss := [(a, 0), (b, 0)] } = true →
      let h := (s.src a 0).toNat % 2 ^ 32
      let e := Claims.entry x s.mem (Claims.idx h)
      (¬Claims.valid x h → exec j s = s.trap 0x300#10 (BitVec.ofNat 64 h)) ∧
      (Claims.valid x h → ¬Claims.live s x h → exec j s = s.trap 0x301#10 (BitVec.ofNat 64 h)) ∧
      (Claims.valid x h → Claims.live s x h → e.st ≠ 1 → exec j s = s.trap 0x302#10 (BitVec.ofNat 64 h)) ∧
      (Claims.valid x h → Claims.live s x h → e.st = 1 → e.nwait = 0 →
        ∃ t, exec j s = .next t ∧ Claims.stepped s t ∧ t.core.sregs = s.core.sregs ∧
          Claims.entry x t.mem (Claims.idx h) = { value := v, st := st, gen := e.gen, nwait := 0, whead := 0, wtail := 0 }) ∧
      ∀ c, Claims.valid x h → Claims.live s x h → e.st = 1 → e.nwait = 1 → c ≠ s.cur →
        (∃ f, tfind e.whead s.waiters = some { who := .core c, fut := f, next := 0 }) →
        ∃ t, exec j s = .next t ∧ Claims.stepped s t ∧ (t.getCore c).sleeping = none ∧
          (t.getCore c).futDone = some (BitVec.ofNat 64 v, st) ∧ tfind e.whead t.waiters = none) ∧
    (∀ d a b : Reg, s.core.ready { ss := [(a, 0)], ds := [d, b] } = true →
      let h := (s.src a 0).toNat % 2 ^ 32
      let e := Claims.entry x s.mem (Claims.idx h)
      let u := Claims.forgets s .pkg
      let got (v : Word) (st : Nat) (k : Core) : Out := .next (Claims.ends u ((k.writeS d v).writeS b (BitVec.ofNat 64 st)))
      (Claims.valid x h → Claims.live s x h → e.st ≠ 1 →
        exec (.ftry d a b) s = got (BitVec.ofNat 64 e.value) e.st u.core ∧
        (s.core.sleeping = none → s.core.rechecking = false → s.core.futDone = none →
          exec (.fget d a b) s = got (BitVec.ofNat 64 e.value) e.st u.core)) ∧
      (Claims.valid x h → Claims.live s x h → e.st = 1 →
        exec (.ftry d a b) s = .next (Claims.ends s ((s.core.writeS d 0#64).writeS b 1#64)) ∧
        (s.core.sleeping = none → s.core.rechecking = false → s.core.futDone = none → s.waiters = [] →
          ∃ t, exec (.fget d a b) s = .next t ∧ (t.getCore s.cur).sleeping = some (Claims.idx h, 1) ∧
            (t.getCore s.cur).pc = s.core.pc)) ∧
      ∀ v st, s.core.futDone = some (v, st) → exec (.fget d a b) s = got v st { u.core with futDone := none }) ∧
    (∀ d a b : Reg, s.core.ready { ss := [(a, 0), (b, 0)], ds := [d] } = true →
      let f := (s.src a 0).toNat % 2 ^ 32
      let g := (s.src b 0).toNat % 2 ^ 32
      let e := Claims.entry x s.mem (Claims.idx f)
      Claims.valid x f → Claims.live s x f → (g = 0 ∨ Claims.valid x g) →
      (g = 0 ∨ (∀ p ∈ s.cards, p.2.done ≠ g) →
        exec (.flink d a b) s = .next (Claims.ends s (s.core.writeS d 2#64))) ∧
      ∀ m k, g ≠ 0 → Claims.live s x g → s.cards = [(m, k)] → k.state = .waiting → k.ctx = n → k.done = g →
        (e.st = 2 → exec (.flink d a b) s = .next (Claims.ends s (s.core.writeS d 1#64))) ∧
        (e.st = 1 → e.nwait = 0 → s.waiters = [] →
          ∃ t, exec (.flink d a b) s = .next t ∧ Claims.stepped s t ∧ t.core.sregs = (s.core.writeS d 0#64).sregs ∧
            t.cards = [(m, { k with preds := k.preds + 1 })] ∧
            tfind 1 t.waiters = some { who := .card m, fut := Claims.idx f, next := 0 } ∧
            Claims.entry x t.mem (Claims.idx f) = { e with nwait := 1, whead := 1, wtail := 1 }) ∧
        (e.st = 3 →
          ∃ t, exec (.flink d a b) s = .next t ∧ Claims.stepped s t ∧ t.core.sregs = (s.core.writeS d 3#64).sregs ∧
            t.cards = [])) ∧
    ∀ c, (s.getCore c).rechecking = true →
      ∃ t, exec (.waiterRecheck c) s = .next t ∧ (t.getCore c).rechecking = false ∧ t.mem = s.mem

/-- R355 to R357 and R48: JSUB rings an enabled queue of the context, and raises 0x316 otherwise; JWID, JARG and JQRY read the
unit and its card; JEND ends the unit, and the core begins the next one of its chunk or becomes idle. -/
def Obligations.JobInstructions : Prop :=
  ∀ (s : State) (n : Nat), Claims.Alone s → Claims.Calm s → s.core.context = some n →
    (∀ a : Reg, s.core.ready { ss := [(a, 0)] } = true →
      let q := (s.src a 0).toNat % 2 ^ 15
      let k := tget q s.queues {}
      (k.desc.getLsbD 63 = false ∨ k.desc.toNat / 2 ^ 26 % 64 ≠ n → exec (.jsub a) s = s.trap 0x316#10 0#64) ∧
      (k.desc.getLsbD 63 = true → k.desc.toNat / 2 ^ 26 % 64 = n → s.live n = false →
        exec (.jsub a) s = .next (Claims.ends s s.core)) ∧
      (k.desc.getLsbD 63 = true → k.desc.toNat / 2 ^ 26 % 64 = n → s.live n = true →
        memRead s.mem (k.base + 0x80 + 128 * (k.h % 2 ^ (k.desc.toNat / 2 ^ 48 % 256)) + 0x70) 4 ≠ (k.h + 1) % 2 ^ 32 →
        ∃ t, exec (.jsub a) s = .next t ∧ t.core = (Claims.ends s s.core).core ∧ t.mem = s.mem ∧ t.cards = s.cards ∧
          (tget q t.queues {}).h = k.h ∧ (tget q t.queues {}).desc = k.desc ∧ (tget q t.queues {}).base = k.base)) ∧
    ∀ u c, s.core.unit = some u → tfind u.card s.cards = some c →
      (∀ (i : Instr) (m : Names) (d : Reg) (v : Word), Claims.unitRead s u c i = some (m, d, v) → s.core.ready m = true →
        exec i s = .next (Claims.ends s (s.core.writeS d v))) ∧
      (s.core.loading = false → s.core.loops ≠ [] → exec .jend s = s.trapWord 0x0C3#10) ∧
      (s.core.loading = false → s.core.loops = [] → s.core.wasGang = none →
        (u.stop ≤ u.ident + 1 →
          ∃ t, exec .jend s = .next t ∧ t.core.unit = none ∧ t.mem = s.mem ∧
            tfind u.card t.cards = some { c with ended := c.ended + 1 }) ∧
        (u.ident + 1 < u.stop → s.core.lastCard = some u.card →
          ∃ t, exec .jend s = .next t ∧ t.mem = s.mem ∧ tfind u.card t.cards = some { c with ended := c.ended + 1 } ∧
            t.core.pc = c.entry ∧ t.core.unit = some { u with ident := u.ident + 1 } ∧
            t.core.sval 28#5 = BitVec.ofNat 64 (u.ident + 1) ∧
            t.core.sval 29#5 = BitVec.ofNat 64 (u.argBase.toNat + (u.ident + 1) * u.argSize) ∧
            t.core.sval 30#5 = s.core.stackTop ∧ (∀ r : Reg, r.toNat < 28 ∨ r = 31#5 → t.core.sval r = 0#64) ∧
            t.core.status.getLsbD 0 = false))

/-- R346, R358 to R360: CHPOLL gives the room or the messages of a channel; a send with no room, and a receive with no
message, waits; a transfer that its wait has passed ends with the release store of n + 1 to its counter and d ← n. A
channel with the wrong direction raises 0x345. The message moves in the step that passes the wait: that its bytes move before
its counter, and where its words lie, is the model's reading (log 12, 42). -/
def Obligations.Channels : Prop :=
  ∀ (s : State) (c : BitVec 4), Claims.Alone s → Claims.Settled s → Claims.Bare s →
    let b := tget c.toNat s.core.bindings (0#64, 0#64)
    let own := s.cur
    let far := Claims.peer b
    let n := s.core.chanStep - 1
    (s.getCore far).wp = [] →
    (∀ d : Reg, s.core.ready { ds := [d] } = true →
      (Claims.kind b ≠ 1 → exec (.chpoll d c) s = s.trap 0x345#10 0#64) ∧
      (Claims.kind b = 1 → Claims.sends b = true →
        exec (.chpoll d c) s =
          .next (Claims.ends s (s.core.writeS d (BitVec.ofNat 64 (Claims.depth b) - BitVec.ofNat 64 (Claims.inside s far b))))) ∧
      (Claims.kind b = 1 → Claims.sends b = false →
        exec (.chpoll d c) s = .next (Claims.ends s (s.core.writeS d (BitVec.ofNat 64 (Claims.inside s own b)))))) ∧
    (∀ d a : Reg, s.core.ready { ss := [(a, 0)], ds := [d] } = true → (s.src a 0).toNat % 8 = 0 → Claims.kind b = 1 →
      (Claims.sends b = true → s.core.chanStep = 0 → Claims.depth b ≤ Claims.inside s far b →
        exec (.chsnd d a c) s = s.waits) ∧
      (Claims.sends b = true → s.core.chanStep = 0 → Claims.inside s far b < Claims.depth b → far ≠ own →
        Claims.Image s (s.src a 0).toNat (Claims.bytes b) →
        ∃ t, exec (.chsnd d a c) s = .next t ∧ (t.getCore own).pc = s.core.pc ∧
          (t.getCore own).chanStep = Claims.sentOf s far b + 1 ∧ t.mem = s.mem) ∧
      (Claims.sends b = true → s.core.chanStep ≠ 0 → far ≠ own →
        ∃ t r, exec (.chsnd d a c) s = .next t ∧ Claims.stepped s t ∧ t.core.sregs = (s.core.writeS d (BitVec.ofNat 64 n)).sregs ∧
          t.flight = [r] ∧ r.place = .scratch far ∧ r.addr = Claims.ctr b ∧ r.size = 8 ∧ r.data = BitVec.ofNat 64 (n + 1)) ∧
      (Claims.sends b = false → s.core.chanStep = 0 → Claims.inside s own b = 0 → exec (.chrcv d a c) s = s.waits) ∧
      (Claims.sends b = false → s.core.chanStep = 0 → Claims.takenOf s own b < Claims.sentOf s own b →
        Claims.inOwn s (s.src a 0).toNat (Claims.bytes b) →
        ∃ t, exec (.chrcv d a c) s = .next t ∧ (t.getCore own).pc = s.core.pc ∧
          (t.getCore own).chanStep = Claims.takenOf s own b + 1 ∧
          ∀ i < Claims.bytes b, memByte t.mem (Claims.ownKey s (s.src a 0).toNat + i) =
            memByte s.mem
              (scratchKey own (Claims.buf b + Claims.takenOf s own b % Claims.depth b * Claims.bytes b) + i)) ∧
      (Claims.sends b = false → s.core.chanStep ≠ 0 →
        exec (.chrcv d a c) s =
          .next { Claims.ends s (s.core.writeS d (BitVec.ofNat 64 n)) with
            mem := memWrite s.mem (scratchKey own (Claims.ctr b + 8)) ((n + 1) % 2 ^ 64) 8 })) ∧
    (∀ d a : Reg, s.core.ready { vs := [(a, 0)], ds := [d] } = true → Claims.kind b = 1 → Claims.sends b = true →
      (Claims.bytes b ≠ 64 → exec (.chsndv d a c) s = s.trap 0x345#10 0#64) ∧
      (Claims.bytes b = 64 → s.core.chanStep = 0 → Claims.inside s far b < Claims.depth b → far ≠ own →
        ∃ t, exec (.chsndv d a c) s = .next t ∧ (t.getCore own).pc = s.core.pc ∧
          (t.getCore own).chanStep = Claims.sentOf s far b + 1 ∧
          ∀ i < 8, (∃ r ∈ t.flight, r.place = .scratch far ∧
            r.addr = Claims.buf b + Claims.sentOf s far b % Claims.depth b * 64 + 8 * i ∧ r.size = 8 ∧
            r.data = (s.vsrc a 0).extractLsb' (64 * i) 64)) ∧
      (Claims.bytes b = 64 → s.core.chanStep ≠ 0 → far ≠ own →
        ∃ t r, exec (.chsndv d a c) s = .next t ∧ Claims.stepped s t ∧ t.core.sregs = (s.core.writeS d (BitVec.ofNat 64 n)).sregs ∧
          t.flight = [r] ∧ r.place = .scratch far ∧ r.addr = Claims.ctr b ∧ r.size = 8 ∧ r.data = BitVec.ofNat 64 (n + 1))) ∧
    ∀ d : Reg, s.core.ready { dv := [d] } = true → Claims.kind b = 1 → Claims.sends b = false → Claims.bytes b = 64 →
      (s.core.chanStep = 0 → Claims.takenOf s own b < Claims.sentOf s own b →
        ∃ t, exec (.chrcvv d c) s = .next t ∧ (t.getCore own).pc = s.core.pc ∧
          (t.getCore own).chanStep = Claims.takenOf s own b + 1 ∧ t.mem = s.mem) ∧
      (s.core.chanStep ≠ 0 →
        exec (.chrcvv d c) s =
          .next { Claims.ends s
              (s.core.writeV d
                (BitVec.ofNat 512 (memRead s.mem (scratchKey own (Claims.buf b + n % Claims.depth b * 64)) 64))) with
            mem := memWrite s.mem (scratchKey own (Claims.ctr b + 8)) ((n + 1) % 2 ^ 64) 8 })

/-- R338 to R343, R361 and R444: XSEL records a schedule that passes its check; BARP arrives, and PHASE_START moves every core
of the partition past its BARP into the phase, but for a core that is debug-stopped there, whose BARP completes when it goes on;
XMIT, XRECV and XEND; the slots pass one by one until 48 after the last, when the phase ends. That an XRECV of a slot that has
passed takes the beat that the slot delivered, and that a core stays in its phase until its XEND, is the model's reading (log
41). -/
def Obligations.TransferPhases : Prop :=
  ∀ (s : State) (n : Nat) (x : Context), Claims.Alone s → Claims.Calm s → Claims.InContext s n x →
    (∀ (a : Reg) (k : BitVec 2) (m : Nat), s.core.ready { ss := [(a, 0)] } = true → s.core.inPhase = none →
      (s.src a 0).toNat % 8 = 0 → Claims.Image s (s.src a 0).toNat (8 + 8 * m) →
      let key := Claims.ownKey s (s.src a 0).toNat
      let h := memRead s.mem key 8
      let slots := (List.range m).map fun i => BitVec.ofNat 64 (memRead s.mem (key + 8 + 8 * i) 8)
      h % 2 ^ 32 = m → 1 ≤ m → m ≤ 256 →
      ((∃ w ∈ slots, s.badSlot x.desc (s.cur / 16) w = true) → exec (.xsel a k) s = s.trap 0x340#10 0#64) ∧
      ((∀ w ∈ slots, s.badSlot x.desc (s.cur / 16) w = false) →
        ∃ t, exec (.xsel a k) s = .next t ∧ Claims.stepped s t ∧ t.mem = s.mem ∧ t.core.sregs = s.core.sregs ∧
          tfind k.toNat (tget (s.cur / 16) t.clusters {}).schedules = some { tag := h / 2 ^ 32, slots := slots })) ∧
    (∀ k : BitVec 2, s.core.inPhase = none →
      (s.core.barpDone = false →
        ∃ t, exec (.barp k) s = .next t ∧ t.mem = s.mem ∧
          t.getCore s.cur = { s.core with barpAt := some k.toNat, inWait := true, arriving := false }) ∧
      (s.core.barpDone = true → exec (.barp k) s = .next (Claims.ends s s.core))) ∧
    (∀ k h, s.live n = true → s.coresOf n ≠ [] →
      (∀ c ∈ s.coresOf n, (s.getCore c).barpAt = some k ∧ s.quietMesh c = true ∧ (s.getCore c).quiet) →
      (∀ m ∈ s.partOf n, (tfind k (s.cluster m).schedules).map (fun y => (y.slots.length, y.tag)) = some h) →
      ∃ t, exec (.phaseStart n) s = .next t ∧ t.mem = s.mem ∧
        (tfind n t.contexts).map (fun y => y.phase) = some (some { sched := k, nslot := h.1 }) ∧
        ∀ c ∈ s.coresOf n, (t.getCore c).inPhase = some k ∧ (t.getCore c).barpAt = none ∧
          (t.getCore c).pc = (if (s.getCore c).debugStopped then (s.getCore c).pc else (s.getCore c).pc + 4#64) ∧
          ((s.getCore c).debugStopped = true → (t.getCore c).barpDone = true) ∧
          (t.getCore c).unsent = 0 ∧ (t.getCore c).empty = 0) ∧
    (∀ (i : Instr) (b : Reg) (t : Nat), Claims.transmit s i = some (b, t) → s.core.ready { vs := [(b, 0)] } = true →
      (s.core.inPhase = none → exec i s = s.trap 0x343#10 0#64) ∧
      (Claims.inSchedule s t → Claims.past x t →
        (s.core.xmitSent = true → exec i s = .next (Claims.ends s { s.core with xmitSent := false })) ∧
        (s.core.xmitSent = false → tfind t s.core.xmitAt = none →
          exec i s = .next (Claims.ends s { s.core with unsent := s.core.unsent + 1 })))) ∧
    (∀ (i : Instr) (d : Reg) (t : Nat), Claims.receives s i = some (d, t) → s.core.ready { dv := [d] } = true →
      (s.core.inPhase = none → exec i s = s.trap 0x343#10 0#64) ∧
      (Claims.inSchedule s t → Claims.past x t →
        (∀ v, tfind t s.core.recvBeats = some v → exec i s = .next (Claims.ends s (s.core.writeV d v))) ∧
        (tfind t s.core.recvBeats = none →
          exec i s = .next (Claims.ends s ({ s.core with empty := s.core.empty + 1 }.writeV d 0#512)))) ∧
      (Claims.inSchedule s t → (∃ p, x.phase = some p ∧ p.next ≤ t) →
        exec i s = .next (Claims.ends s { s.core.emptyV d with recvAt := (t, d) :: s.core.recvAt }))) ∧
    (∀ d : Reg, s.core.ready { ds := [d] } = true →
      (s.core.inPhase = none → exec (.xend d) s = s.trap 0x343#10 0#64) ∧
      (s.core.inPhase ≠ none → x.phase ≠ none → exec (.xend d) s = s.waits) ∧
      (s.core.inPhase ≠ none → x.phase = none →
        exec (.xend d) s =
          .next (Claims.ends s
            ({ s.core with inPhase := none, xmitAt := [], xmitSent := false, recvAt := [], recvBeats := [] }.writeS d
              (BitVec.ofNat 64
                (min (tget (s.cur / 16) s.clusters {}).drops 65535 * 2 ^ 32 + min s.core.empty 65535 * 2 ^ 16 +
                  min s.core.unsent 65535)))))) ∧
    ∀ p, x.phase = some p →
      (p.next < p.nslot + 48 →
        ∃ t q, exec (.transferPhaseSlot n) s = .next t ∧ t.mem = s.mem ∧
          (tfind n t.contexts).map (fun y => y.phase) = some (some q) ∧ q.sched = p.sched ∧ q.nslot = p.nslot ∧
          q.next = p.next + 1 ∧ ∀ b ∈ p.beats, p.next < b.slot → b ∈ q.beats) ∧
      (p.nslot + 48 ≤ p.next →
        ∃ t, exec (.phaseEnd n) s = .next t ∧ t.mem = s.mem ∧ t.core = s.core ∧
          (tfind n t.contexts).map (fun y => y.phase) = some none)

namespace Sys2Proof.Claims

/-- R342, R343 and R361: in a phase an XMIT goes on when its slot has passed: its beat was presented in the slot, or UNSENT
rises; an XRECV goes on, with its beat once the slot has delivered it, with zero lanes for a slot that delivered none, and
with an empty name before its slot; an XEND goes on when the phase has ended. A channel form needs a phase binding of its
direction. -/
def PhaseCompletes : Prop :=
  ∀ (s : State) (n : Nat) (x : Context) (k : Nat) (y : Schedule), Alone s → Calm s → InContext s n x →
    s.core.inPhase = some k → tfind k (tget (s.cur / 16) s.clusters {}).schedules = some y →
    (∀ (h b : Reg) (l : BitVec 3), s.core.ready { vs := [(b, 0)] } = true →
      let t := h.toNat * 8 + l.toNat
      (t < y.slots.length → past x t → s.core.xmitSent = true ∨ tfind t s.core.xmitAt = none →
        ∃ u, exec (.xmit h b l) s = .next u ∧ stepped s u ∧ u.mem = s.mem) ∧
      ∀ c : BitVec 4,
        let w := tget c.toNat s.core.bindings (0#64, 0#64)
        let t' := w.2.toNat / 2 ^ 32 % 256 + t * (w.2.toNat / 2 ^ 40 % 256)
        kind w = 2 → sends w = true → t ≤ w.1.toNat / 2 ^ 32 % 64 → w.2.toNat / 2 ^ 56 % 4 = k → t' < y.slots.length →
        past x t' → s.core.xmitSent = true ∨ tfind t' s.core.xmitAt = none →
        ∃ u, exec (.xmitCh c h b l) s = .next u ∧ stepped s u ∧ u.mem = s.mem) ∧
    (∀ (d h : Reg) (l : BitVec 3), s.core.ready { dv := [d] } = true →
      let t := h.toNat * 8 + l.toNat
      (t < y.slots.length → ∃ u, exec (.xrecv d h l) s = .next u ∧ stepped s u ∧ u.mem = s.mem) ∧
      ∀ c : BitVec 4,
        let w := tget c.toNat s.core.bindings (0#64, 0#64)
        let t' := w.2.toNat / 2 ^ 32 % 256 + t * (w.2.toNat / 2 ^ 40 % 256)
        kind w = 2 → sends w = false → t ≤ w.1.toNat / 2 ^ 32 % 64 → w.2.toNat / 2 ^ 56 % 4 = k → t' < y.slots.length →
        ∃ u, exec (.xrecvCh d h c l) s = .next u ∧ stepped s u ∧ u.mem = s.mem) ∧
    ∀ d : Reg, s.core.ready { ds := [d] } = true → x.phase = none →
      ∃ u, exec (.xend d) s = .next u ∧ stepped s u ∧ u.core.inPhase = none ∧ u.mem = s.mem

end Sys2Proof.Claims

/-- R362 to R365: the last arrival completes a generation of a barrier: BAR goes on, as a release and an acquire at CLU
scope; BARNW arrives and goes on at once; SLEEP returns 1 for a wake and 0 for its deadline; WAKE sets the wake bit of a core
of the context; TIME reads the package time base. R342, R343 and R361: an XMIT and an XRECV of a phase go on as their slot
leaves them, an XEND when the phase has ended. -/
def Obligations.BarriersAndSleep : Prop :=
  Claims.PhaseCompletes ∧
  ∀ s : State, Claims.Alone s → Claims.Settled s →
    (∀ (a : Reg) (n : BitVec 2), s.core.ready { ss := [(a, 0)] } = true →
      let q : BitVec 16 := (s.src a 0).truncate 16
      let b := Claims.barrierOf s n
      let bit := Claims.ownBit s
      b.pending &&& bit = 0#16 → b.waiting &&& bit = 0#16 →
      (¬Claims.goodMask s q → exec (.bar a n) s = s.trap 0x349#10 0#64 ∧ exec (.barnw a n) s = s.trap 0x349#10 0#64) ∧
      (Claims.goodMask s q → b.arrived ≠ 0#16 → b.mask ≠ q →
        exec (.bar a n) s = s.trap 0x348#10 0#64 ∧ exec (.barnw a n) s = s.trap 0x348#10 0#64) ∧
      (Claims.goodMask s q → b.arrived = 0#16 ∨ b.mask = q →
        ((b.arrived ||| bit) &&& q = q →
          (∃ t, exec (.bar a n) s = .next t ∧ Claims.stepped s t ∧ t.core.l1d = [] ∧ t.mem = s.mem ∧
            Claims.barrierOf t n = { b with mask := q, arrived := 0#16, gen := b.gen + 1 }) ∧
          (∃ t, exec (.barnw a n) s = .next t ∧ Claims.stepped s t ∧ t.core = (Claims.ends s s.core).core ∧
            Claims.barrierOf t n =
              { b with mask := q, arrived := 0#16, gen := b.gen + 1, pending := b.pending ||| bit })) ∧
        ((b.arrived ||| bit) &&& q ≠ q →
          (∃ t, exec (.bar a n) s = .next t ∧ (t.getCore s.cur).pc = s.core.pc ∧
            (tget n.toNat (tget (s.cur / 16) t.clusters {}).barriers {}).arrived = b.arrived ||| bit) ∧
          (∃ t, exec (.barnw a n) s = .next t ∧ Claims.stepped s t ∧
            Claims.barrierOf t n = { b with mask := q, arrived := b.arrived ||| bit, pending := b.pending ||| bit })))) ∧
    (∀ d a : Reg, s.core.ready { ss := [(a, 0)], ds := [d] } = true →
      let rested := { s.core with slept := false, sleepUntil := none }
      (s.core.slept = true → exec (.sleep d a) s = .next (Claims.ends s (rested.writeS d 0#64))) ∧
      (s.core.slept = false → s.core.wake = true →
        exec (.sleep d a) s = .next (Claims.ends s ({ rested with wake := false }.writeS d 1#64))) ∧
      (s.core.slept = false → s.core.wake = false → s.src a 0 ≠ 0#64 → (s.src a 0).toNat ≤ s.time →
        exec (.sleep d a) s = .next (Claims.ends s (rested.writeS d 0#64))) ∧
      (s.core.slept = false → s.core.wake = false → s.src a 0 = 0#64 ∨ s.time < (s.src a 0).toNat →
        ∃ t, exec (.sleep d a) s = .next t ∧
          t.getCore s.cur = { s.core with sleepUntil := some (s.src a 0).toNat, inWait := true, arriving := false })) ∧
    (∀ a : Reg, s.core.ready { ss := [(a, 0)] } = true →
      let c := (s.src a 0).toNat % 4096
      (s.isPeer c = false → exec (.wake a) s = s.trap 0x34A#10 0#64) ∧
      (s.isPeer c = true → ∃ t, exec (.wake a) s = .next t ∧ Claims.stepped s t ∧ (t.getCore c).wake = true ∧ t.mem = s.mem)) ∧
    (∀ d : Reg, s.core.ready { ds := [d] } = true →
      exec (.time d) s = .next (Claims.ends s (s.core.writeS d (BitVec.ofNat 64 s.time)))) ∧
    ∀ c t, (s.getCore c).sleepUntil = some t → t ≠ 0 → t ≤ s.time → (s.getCore c).wake = false → (s.getCore c).slept = false →
      ∃ u, exec (.sleepDeadline c) s = .next u ∧ (u.getCore c).slept = true ∧ u.mem = s.mem

namespace Sys2Proof.Claims

/-! ## Kernel operations, state registers, system and debug instructions, traps (R205 to R211, R403 to R428) -/

/-- A state register's address field (R209). -/
def codeAddress (w : Word) : Word := w &&& 0x0FFFFFFFFFFFFFFC#64

/-- The state registers: what a read gives (R403 to R407, R426), in a core of context x. -/
def register (s : State) (x : Context) (r : Nat) : Word :=
  match r with
  | 0x000 => s.core.status
  | 0x001 => s.core.trapcause
  | 0x002 => s.core.trappc
  | 0x003 => s.core.trapval
  | 0x004 => s.core.trapvec
  | 0x005 => s.core.scratch
  | 0x006 => s.core.fflags
  | 0x007 => s.core.vtype
  | 0x010 => BitVec.ofNat 64 x.desc.ctx
  | 0x011 => BitVec.ofNat 64 x.desc.agency
  | 0x012 => x.desc.root
  | 0x013 => s.core.lmsplit
  | 0x014 => s.core.kloader
  | 0x015 => s.core.klstate
  | 0x020 => s.core.timestamp
  | 0x021 => BitVec.ofNat 64 s.cur
  | 0x108 => s.core.dstat
  | 0x109 => s.core.dinfo
  | _ =>
    if 0x100 ≤ r ∧ r ≤ 0x107 then tget (r - 0x100) s.core.wp 0#64
    else
      BitVec.ofNat 64
        ((tget (2 * (r - 0x30)) s.core.journal 0#32).toNat + (tget (2 * (r - 0x30) + 1) s.core.journal 0#32).toNat * 2 ^ 32)

/-- The registers of R403. -/
def registers : List Nat :=
  [0, 1, 2, 3, 4, 5, 6, 7, 0x10, 0x11, 0x12, 0x13, 0x14, 0x15, 0x20, 0x21, 0x108, 0x109] ++
    ((List.range 16).map fun i => 0x30 + i) ++ (List.range 8).map fun i => 0x100 + i

/-- Registers that user mode may read. -/
def userReads : List Nat := [0, 6, 7, 0x10, 0x11, 0x13, 0x14, 0x15, 0x20, 0x21]

/-- The bits that a write may change: in system mode, and in user mode. -/
def systemBits (r : Nat) : Word :=
  match r with
  | 0x000 => 0x1F#64
  | 0x001 => 0xFFFF#64
  | 0x002 => 0xFFFFFFFFFFFFFFFF#64
  | 0x003 => 0xFFFFFFFFFFFFFFFF#64
  | 0x004 => 0xFFFFFFFFFFFFFFFC#64
  | 0x005 => 0xFFFFFFFFFFFFFFFF#64
  | 0x006 => 0xDF#64
  | 0x007 => 0x7377#64
  | 0x013 => 7#64
  | 0x014 => 0x0FFFFFFFFFFFFFFD#64
  | 0x015 => 0xFFFFFFFFFFFFFFFC#64
  | _ => if 0x100 ≤ r ∧ r ≤ 0x107 then 0xFFFFFFFFFFFFFFFE#64 else 0#64

def userBits (r : Nat) : Word :=
  match r with
  | 0x000 => 0xC#64
  | 0x006 => 0xDF#64
  | 0x007 => 0x7377#64
  | 0x014 => 0x0FFFFFFFFFFFFFFD#64
  | 0x015 => 0xFFFFFFFFFFFFFFFC#64
  | _ => 0#64

/-- The core with a register other than LMSPLIT written. -/
def put (k : Core) (r : Nat) (v : Word) : Core :=
  match r with
  | 0x000 => { k with status := v }
  | 0x001 => { k with trapcause := v }
  | 0x002 => { k with trappc := v }
  | 0x003 => { k with trapval := v }
  | 0x004 => { k with trapvec := v }
  | 0x005 => { k with scratch := v }
  | 0x006 => { k with fflags := v }
  | 0x007 => { k with vtype := v }
  | 0x014 => { k with kloader := v }
  | 0x015 => { k with klstate := v }
  | _ => if 0x100 ≤ r ∧ r ≤ 0x107 then { k with wp := tset (r - 0x100) v k.wp } else k

/-- SWR, SSET and SCLR: source, register, new value from the old one and the operand, whether the register must be readable,
and whether the loader lock of KLOADER stops it (R403, R210). -/
def regWrite : Instr → Option (Reg × BitVec 12 × (Word → Word → Word) × Bool × Bool)
  | .swr a r => some (a, r, fun _ x => x, false, true)
  | .sset a r => some (a, r, fun old x => old ||| x, true, true)
  | .sclr a r => some (a, r, fun old x => old &&& ~~~x, true, false)
  | _ => none

/-- The instructions of SYS and DBG that only system mode executes (R376): the scalar sources and destinations. -/
def systemForm : Instr → Option Names
  | .halt => some {}
  | .tlbinv a _ => some { ss := [(a, 0)] }
  | .wpset a _ => some { ss := [(a, 0)] }
  | .wpclr _ => some {}
  | .dstop d a _ => some { ss := [(a, 0)], ds := [d] }
  | .dstep d a => some { ss := [(a, 0)], ds := [d] }
  | .dres d a _ => some { ss := [(a, 0)], ds := [d] }
  | _ => none

/-- DSTAT of a core that has stopped with a REASON at pc (R414). -/
def stopWord (reason : Nat) (pc : Word) : Word :=
  0x8000000000000000#64 ||| BitVec.ofNat 64 (reason * 2 ^ 60) ||| codeAddress pc

/-- An instruction whose effect is a trap: cause, TRAPVAL, TRAPPC (R78, R409, R416, R423). -/
def trapping (s : State) : Instr → Option (Cause × Word × Word)
  | .nonInstructionWord w c => some (c, w.zeroExtend 64, s.core.pc)
  | .trap n => some (n.truncate 10, 0#64, s.core.pc + 4#64)
  | .brk n => some (0x380#10, n.zeroExtend 64, s.core.pc)
  | _ => none

/-- The loop that runs is suspended: its iteration's mark and flags are put aside (R43, R211). -/
def suspended (k : Core) : Core :=
  { k with
    suspended := k.loops.length :: k.suspended
    asideMarks := (k.committed, k.pendingFlags) :: k.asideMarks
    committed := false
    pendingFlags := 0#64 }

/-- The loop that was suspended last goes on as it was. -/
def resumed (k : Core) : Core :=
  { k with
    suspended := k.suspended.tail
    asideMarks := k.asideMarks.tail
    committed := (k.asideMarks.headD (k.committed, k.pendingFlags)).1
    pendingFlags := (k.asideMarks.headD (k.committed, k.pendingFlags)).2 }

/-- The core in focus has entered its handler (R425). -/
structure Entered (s t : State) (cause : Cause) (async : Bool) (val pc : Word) : Prop where
  cur : t.cur = s.cur
  cause : t.core.trapcause = cause.zeroExtend 64 ||| (if async then 0x400#64 else 0#64)
  trappc : t.core.trappc = pc
  val : t.core.trapval = val
  status : t.core.status =
    (s.core.status &&& 0xFFFFFFFFFFFFFFEC#64) ||| 0x11#64 ||| (if s.core.status.getLsbD 0 then 2#64 else 0#64)
  pc : t.core.pc = s.core.trapvec
  scalars : t.core.sregs = s.core.sregs
  vectors : t.core.vregs = s.core.vregs
  masks : t.core.masks = s.core.masks
  loops : t.core.loops = s.core.loops
  others : t.core.scratch = s.core.scratch ∧ t.core.fflags = s.core.fflags ∧ t.core.vtype = s.core.vtype ∧
    t.core.trapvec = s.core.trapvec ∧ t.core.lmsplit = s.core.lmsplit ∧ t.core.kloader = s.core.kloader
  mem : t.mem = s.mem

end Sys2Proof.Claims

/-- R199, R205 to R211: KOP of a loaded slot writes the lanes that k governs with the slot's output, keeps the others, and
adds the flags of the active lanes; KOP of an empty slot goes to the loader, or raises 0x18A or 0x189. KLD checks an image
and loads it; KREL empties a slot; KQRY gives its header word. -/
def Obligations.KernelOperations : Prop :=
  ∀ s : State, Claims.Alone s → Claims.Calm s →
    (∀ (n : BitVec 3) (d a b c : Reg) (k : KReg),
      (∀ x, tfind n.toNat s.core.kdo = some x → x.et < 7 →
        s.core.ready { vs := (([a, b, c].take x.nops).map fun r => (r, 0)) ++ [(d, 0)], dv := [d] } = true →
        let w := Claims.ew x.et
        let at_ (r : Reg) (i : Nat) : Nat := (Claims.laneOf (s.vsrc r 0) w i).toNat
        let res (i : Nat) : FRes := x.run (s.core.status.toNat / 4 % 4) (at_ a i) (at_ b i) (at_ c i) (at_ d i)
        ∃ v fl, exec (.kop n d a b c k) s = .next (Claims.ends s ((s.core.writeV d v).addFlags fl)) ∧
          Claims.flagsOf s k w res fl ∧
          ∀ i < 512 / w,
            (Claims.lit s k w i → Claims.laneOf v w i = BitVec.ofNat w (res i).bits) ∧
            (¬Claims.lit s k w i → Claims.laneOf v w i = Claims.laneOf (s.vsrc d 0) w i)) ∧
      (tfind n.toNat s.core.kdo = none → s.core.ready { dv := [d] } = true →
        (s.core.klstate.getLsbD 63 = true → exec (.kop n d a b c k) s = s.trap 0x18A#10 0#64) ∧
        (s.core.klstate.getLsbD 63 = false → s.core.kloader.getLsbD 0 = false →
          exec (.kop n d a b c k) s = s.trap 0x189#10 0#64) ∧
        (s.core.klstate.getLsbD 63 = false → s.core.kloader.getLsbD 0 = true →
          exec (.kop n d a b c k) s =
            .next (Claims.endsAt s
              { Claims.suspended s.core with
                klstate := 0x8000000000000000#64 ||| BitVec.ofNat 64 (n.toNat * 2 ^ 60) ||| Claims.codeAddress s.core.pc }
              (Claims.codeAddress s.core.kloader))))) ∧
    (∀ a b : Reg, s.core.ready { ss := [(a, 0), (b, 0)] } = true →
      let va := (s.src a 0).toNat
      let img := Claims.imageBytes s va 96
      (va % 8 ≠ 0 → exec (.kld a b) s = s.trap 0x18C#10 0#64) ∧
      (va % 8 = 0 → Claims.Image s va 96 →
        (∀ c v, kdoFault img = some (c, v) → exec (.kld a b) s = s.trap c (BitVec.ofNat 64 v)) ∧
        (kdoFault img = none →
          exec (.kld a b) s =
            .next (Claims.ends s { s.core with kdo := tset ((s.src b 0).toNat % 8) (kdoOf img) s.core.kdo })))) ∧
    (∀ a : Reg, s.core.ready { ss := [(a, 0)] } = true →
      exec (.krel a) s = .next (Claims.ends s { s.core with kdo := terase ((s.src a 0).toNat % 8) s.core.kdo })) ∧
    ∀ d a : Reg, s.core.ready { ss := [(a, 0)], ds := [d] } = true →
      exec (.kqry d a) s =
        .next (Claims.ends s (s.core.writeS d
          (match tfind ((s.src a 0).toNat % 8) s.core.kdo with
           | some x => BitVec.ofNat 64 (x.hdr.toNat + 2 ^ 32)
           | none => 0#64)))

/-- R403 to R405, R407, R210 and R376: SRD gives a register that the mode may read; SWR, SSET and SCLR change the bits that
the mode may write, and only those; a write that user mode may not make, a write of a read-only register, and a read of a
system register in user mode raise 0x1C5. A write of LMSPLIT that changes the size raises 0x1C7 when it would cut off what R405
names; else it discards the L1, keeps the bytes of both sizes and adds bytes of zero. That user mode reads all of STATUS, and
that SCLR of KLOADER writes it in user mode, is the model's reading (log 43). -/
def Obligations.StateRegisters : Prop :=
  ∀ (s : State) (n : Nat) (x : Context), Claims.Alone s → Claims.Calm s → Claims.InContext s n x →
    let sys := s.core.status.getLsbD 0
    (∀ (d : Reg) (r : BitVec 12), r.toNat ∈ Claims.registers → s.core.ready { ds := [d] } = true →
      (sys = true ∨ r.toNat ∈ Claims.userReads →
        exec (.srd d r) s = .next (Claims.ends s (s.core.writeS d (Claims.register s x r.toNat)))) ∧
      (sys = false → r.toNat ∉ Claims.userReads → exec (.srd d r) s = s.trapOpen 0x1C5#10)) ∧
    ∀ (i : Instr) (a : Reg) (r : BitVec 12) (f : Word → Word → Word) (reads lock : Bool),
      Claims.regWrite i = some (a, r, f, reads, lock) → r.toNat ∈ Claims.registers → s.core.ready { ss := [(a, 0)] } = true →
      let old := Claims.register s x r.toNat
      let w := Claims.systemBits r.toNat
      let new := (old &&& ~~~w) ||| (f old (s.src a 0) &&& w)
      let loader := lock = true ∧ r = 0x014#12 ∧ s.core.klstate.getLsbD 63 = true
      let watch := 0x100 ≤ r.toNat ∧ r.toNat ≤ 0x107 ∧ new.getLsbD 2 = true
      let allowed := sys = true ∨
        (new ^^^ old) &&& ~~~Claims.userBits r.toNat = 0#64 ∧ (reads = true → r.toNat ∈ Claims.userReads)
      (loader → exec i s = s.trap 0x18B#10 0#64) ∧
      (¬loader → w = 0#64 ∨ ¬allowed → exec i s = s.trapOpen 0x1C5#10) ∧
      (¬loader → w ≠ 0#64 → allowed →
        (watch → exec i s = s.trap 0x383#10 0#64) ∧
        (¬watch → r ≠ 0x013#12 → exec i s = .next (Claims.ends s (Claims.put s.core r.toNat new))) ∧
        (r = 0x013#12 → new.toNat % 8 = s.core.lmsplit.toNat % 8 → new.toNat % 8 ≠ 7 →
          exec i s = .next (Claims.ends s s.core)) ∧
        (r = 0x013#12 → new.toNat % 8 = 7 → exec i s = s.trapWord 0x05F#10) ∧
        (r = 0x013#12 → new.toNat % 8 ≠ s.core.lmsplit.toNat % 8 → new.toNat % 8 ≠ 7 → Claims.Settled s →
          let size := (128 + 64 * (new.toNat % 8)) * 1024
          (s.cutsOff size = true → exec i s = s.trapOpen 0x1C7#10) ∧
          (s.cutsOff size = false →
            ∃ t, exec i s = .next t ∧ Claims.stepped s t ∧ t.core.lmsplit = BitVec.ofNat 64 (new.toNat % 8) ∧
              t.core.scratchSize = size ∧ t.core.l1d = [] ∧ t.core.l1i = [] ∧ t.core.sregs = s.core.sregs ∧
              (Memory.wf s.mem = true →
                ∀ a, memByte t.mem a =
                  if scratchKey s.cur s.core.scratchSize ≤ a ∧ a < scratchKey s.cur size then 0#8 else memByte s.mem a))))

/-- R376, R383, R389, R408 to R411: ERET returns from the handler in system mode and from the loader in user mode; HALT
stops the core; TLBINV sends an invalidation to every cluster and goes on when the last has acknowledged; ACCT gives a
folded counter, or the fold's number once the snapshot is stored. What only system mode executes raises 0x1C6 in user
mode. -/
def Obligations.SystemInstructions : Prop :=
  ∀ s : State, Claims.Alone s → Claims.Settled s →
    (s.core.system = true →
      exec .eret s =
        .next { s with core := { Claims.resumed s.core with
          pc := s.core.trappc
          status := (s.core.status &&& ~~~0x11#64) ||| (if s.core.status.getLsbD 1 then 1#64 else 0#64) } }) ∧
    (s.core.system = false → s.core.klstate.getLsbD 63 = true →
      exec .eret s =
        .next (Claims.endsAt s
          { Claims.resumed s.core with klstate := s.core.klstate &&& 0x7FFFFFFFFFFFFFFF#64 }
          (Claims.codeAddress s.core.klstate))) ∧
    (s.core.system = false → s.core.klstate.getLsbD 63 = false → exec .eret s = s.trapOpen 0x1C6#10) ∧
    (∀ i m, Claims.systemForm i = some m → s.core.ready m = true → s.core.system = false →
      exec i s = s.trapOpen 0x1C6#10) ∧
    (s.core.system = true →
      ∃ t, exec .halt s = .next t ∧ (t.getCore s.cur).pc = s.core.pc + 4#64 ∧
        (t.getCore s.cur).dstat = Claims.stopWord 5 (s.core.pc + 4#64) ∧ (t.getCore s.cur).sregs = s.core.sregs) ∧
    (∀ (a : Reg) (m : BitVec 12), s.core.system = true → s.core.ready { ss := [(a, 0)] } = true →
      (s.core.tlbinv = some 0 → exec (.tlbinv a m) s = .next (Claims.ends s { s.core with tlbinv := none })) ∧
      (∀ n, s.core.tlbinv = none → s.core.context = some n →
        ∃ t, exec (.tlbinv a m) s = .next t ∧ t.mem = s.mem ∧
          t.getCore s.cur = { s.core with tlbinv := some 160 } ∧
          t.shootdowns = s.shootdowns ++ (List.range 160).map fun c =>
            { src := s.cur, cluster := c, ctx := n, va := if m = 0#12 then some (s.src a 0).toNat else none })) ∧
    ∀ (d a : Reg) (m : BitVec 12) (n : Nat) (x : Context), Claims.InContext s n x →
      (m ≠ 0x100#12 → s.core.ready { ds := [d] } = true →
        exec (.acct d a m) s =
          .next (Claims.ends s (s.core.writeS d (BitVec.ofNat 64 (tget (16 * x.desc.agency + m.toNat) s.folded 0))))) ∧
      (s.core.ready { ss := [(a, 0)], ds := [d] } = true →
        ((s.src a 0).toNat % 8 ≠ 0 → exec (.acct d a 0x100#12) s = s.trap 0x1C8#10 (s.src a 0)) ∧
        ((s.src a 0).toNat % 8 = 0 → s.core.chanStep ≠ 0 →
          exec (.acct d a 0x100#12) s = .next (Claims.ends s (s.core.writeS d (BitVec.ofNat 64 (s.core.chanStep - 1))))))

/-- R412, R414 to R417: the DBG instructions in system mode, and the arrival of a stop at a core. -/
def Obligations.DebugInstructions : Prop :=
  ∀ s : State, Claims.Alone s → Claims.Calm s → s.core.system = true →
    (∀ (a : Reg) (n : BitVec 3), s.core.ready { ss := [(a, 0)] } = true →
      ((s.src a 0).getLsbD 2 = true → exec (.wpset a n) s = s.trap 0x383#10 0#64) ∧
      ((s.src a 0).getLsbD 2 = false →
        exec (.wpset a n) s =
          .next (Claims.ends s { s.core with wp := tset n.toNat (s.src a 0 &&& 0xFFFFFFFFFFFFFFFE#64) s.core.wp }))) ∧
    (∀ n : BitVec 3,
      exec (.wpclr n) s =
        .next (Claims.ends s
          { s.core with wp := tset n.toNat (tget n.toNat s.core.wp 0#64 &&& 0x7FFFFFFFFFFFFFFF#64) s.core.wp })) ∧
    (∀ d a : Reg, s.core.ready { ss := [(a, 0)], ds := [d] } = true →
      let c := (s.src a 0).toNat % 4096
      let k := s.getCore c
      let bit : Word := BitVec.ofNat 64 (2 ^ (c % 16))
      let stopping (t : State) : Tab Nat := (tget (c / 16) t.clusters {}).stopping
      (s.isPeer c = false ∨ c = s.cur →
        (∀ m, exec (.dstop d a m) s = s.trap 0x381#10 0#64 ∧ exec (.dres d a m) s = s.trap 0x381#10 0#64) ∧
          exec (.dstep d a) s = s.trap 0x381#10 0#64) ∧
      (s.isPeer c = true → c ≠ s.cur →
        exec (.dstop d a 2#12) s = .next (Claims.ends s (s.core.writeS d k.dstat)) ∧
        exec (.dstop d a 3#12) s = .next (Claims.ends s (s.core.writeS d k.dinfo)) ∧
        (k.gang = none → k.dstat.getLsbD 63 = false →
          ∃ t, exec (.dstop d a 1#12) s = .next t ∧ Claims.stepped s t ∧ t.core.sregs = (s.core.writeS d bit).sregs ∧
            tfind (c % 16) (stopping t) ≠ none) ∧
        (∃ t, exec (.dstop d a 0#12) s = .next t ∧ Claims.stepped s t ∧
          ∀ i < 16, s.isPeer (16 * (c / 16) + i) = true → 16 * (c / 16) + i ≠ s.cur →
            (s.getCore (16 * (c / 16) + i)).dstat.getLsbD 63 = false → tfind i (stopping t) ≠ none) ∧
        (k.dstat.getLsbD 63 = false → s.core.chanStep = 0 → exec (.dstep d a) s = s.trap 0x382#10 0#64) ∧
        (k.dstat.getLsbD 63 = true → k.unit = none → s.core.chanStep = 0 →
          exec (.dstep d a) s = .next (Claims.ends s (s.core.writeS d k.dstat))) ∧
        (k.dstat.getLsbD 63 = true → k.unit ≠ none → k.gang = none → s.core.chanStep = 0 →
          ∃ t, exec (.dstep d a) s = .next t ∧ (t.getCore c).stepping = some s.cur ∧
            (t.getCore s.cur).chanStep = 1 ∧ (t.getCore s.cur).pc = s.core.pc) ∧
        (k.gang = none → k.stepping = none → s.accessesDone c = true → s.core.chanStep ≠ 0 →
          exec (.dstep d a) s = .next (Claims.ends s (s.core.writeS d k.dstat))) ∧
        (k.dstat.getLsbD 63 = false → exec (.dres d a 0#12) s = s.trap 0x382#10 0#64) ∧
        (k.dstat.getLsbD 63 = true → k.gang = none →
          ∃ t, exec (.dres d a 0#12) s = .next t ∧ Claims.stepped s t ∧ t.core.sregs = (s.core.writeS d bit).sregs ∧
            t.getCore c = { k with dstat := 0#64, dinfo := k.dinfo &&& 0xFFFFFFFFFFFFFFF7#64, stepping := none }) ∧
        ∃ t, exec (.dres d a 1#12) s = .next t ∧
          ∀ i < 16, s.isPeer (16 * (c / 16) + i) = true → (t.getCore (16 * (c / 16) + i)).dstat.getLsbD 63 = false)) ∧
    ∀ c r, tfind (c % 16) (s.cluster (c / 16)).stopping = some r → (s.getCore c).gang = none → (s.getCore c).ahead = false →
      (s.getCore c).lag = 0 → s.mayStop c = true → s.accessesDone c = true → (s.getCore c).dstat.getLsbD 63 = false →
      ∃ t, exec (.clusterStopArrival c) s = .next t ∧ (t.getCore c).dstat.getLsbD 63 = true ∧ t.mem = s.mem ∧
        tfind (c % 16) (t.cluster (c / 16)).stopping = none

/-- R78, R409, R416, R424 and R425: TRAP, BRK and a word that is no instruction take their trap: the core enters its
handler in system mode with the cause, the PC and TRAPVAL saved and NEST set, and its names, masks and memory as they were;
when NEST is set, or TRAPVEC is 0, it stops with REASON 5 instead. A pending asynchronous cause is delivered in the same
way, with ASYNC set. -/
def Obligations.TrapEntry : Prop :=
  ∀ s : State, Claims.Alone s → Claims.Calm s → s.core.sleeping = none → s.core.dstat.getLsbD 63 = false →
    (∀ (i : Instr) (c : Cause) (v pc : Word), Claims.trapping s i = some (c, v, pc) →
      (s.core.status.getLsbD 4 = false → s.core.trapvec ≠ 0#64 →
        ∃ t, exec i s = .next t ∧ Claims.Entered s t c false v pc) ∧
      (s.core.status.getLsbD 4 = true ∨ s.core.trapvec = 0#64 →
        ∃ t, exec i s = .next t ∧ (t.getCore s.cur).dstat = Claims.stopWord 5 s.core.pc ∧
          (t.getCore s.cur).pc = s.core.pc ∧ (t.getCore s.cur).trapcause = s.core.trapcause ∧
          (t.getCore s.cur).trappc = s.core.trappc ∧ (t.getCore s.cur).trapval = s.core.trapval ∧
          (t.getCore s.cur).status = s.core.status)) ∧
    ∀ c v, s.core.asyncs = [{ cause := c, val := v }] → s.core.journal = [] → s.core.carryRecs = [] → s.core.asyncLost = 0 →
      s.core.unit ≠ none → s.core.rest = .none → s.core.midway = false → s.core.failing = false →
      s.core.status.getLsbD 4 = false → s.core.trapvec ≠ 0#64 →
      ∃ t, exec (.asyncTrapDelivery s.cur) s = .next t ∧ Claims.Entered s t c true v s.core.pc ∧ t.core.asyncs = []

/-- R81 to R84: a deferred instruction whose dispatch entry is not enabled, not verified, or gated by a feature that the
driver did not accept raises 0x044, 0x045 or 0x046; otherwise its routine begins, with the names and flags of its start kept
aside. That the PC is then the offset 0 in the routine is the model's choice (log 13). -/
def Obligations.DeferredInstructions : Prop :=
  ∀ (s : State) (e : BitVec 2) (f : BitVec 20) (i : BitVec 6), Claims.Alone s → Claims.Calm s → s.core.held = none →
    let x := tget (64 * e.toNat + i.toNat) s.dispatch 0#64
    let w : Word32 := BitVec.ofNat 32 ((0x3C + e.toNat) * 2 ^ 26 + f.toNat * 2 ^ 6 + i.toNat)
    let gated := x.getLsbD 61 = true ∧ ¬(s.accepted = true ∧ s.acc.getLsbD (x.toNat / 2 ^ 49 % 256) = true)
    (x.getLsbD 63 = false → exec (.deferredInstruction e f i) s = s.trap 0x044#10 (w.zeroExtend 64)) ∧
    (x.getLsbD 63 = true → x.getLsbD 62 = false → exec (.deferredInstruction e f i) s = s.trap 0x045#10 (w.zeroExtend 64)) ∧
    (x.getLsbD 63 = true → x.getLsbD 62 = true → gated →
      exec (.deferredInstruction e f i) s = s.trap 0x046#10 (w.zeroExtend 64)) ∧
    (x.getLsbD 63 = true → x.getLsbD 62 = true → ¬gated → s.core.distsOk (formatNames (x.toNat / 2 ^ 57 % 16) w) = false →
      exec (.deferredInstruction e f i) s = s.trap 0x080#10 (w.zeroExtend 64)) ∧
    (x.getLsbD 63 = true → x.getLsbD 62 = true → ¬gated → s.core.distsOk (formatNames (x.toNat / 2 ^ 57 % 16) w) = true →
      s.core.pend = [] →
      ∃ t r, exec (.deferredInstruction e f i) s = .next t ∧ t.mem = s.mem ∧ t.flight = s.flight ∧
        t.core.routine = some r ∧ r.pc = s.core.pc ∧ r.word = w ∧ r.start = x.toNat % 2 ^ 16 ∧
        r.len = x.toNat / 2 ^ 32 % 2 ^ 9 ∧ r.sregs = s.core.sregs ∧ r.vregs = s.core.vregs ∧ r.masks = s.core.masks ∧
        r.fflags = s.core.fflags ∧ t.core.pc = 0#64)

namespace Sys2Proof.Claims

/-! ## Events of the memory system (R220 to R225, R254, R255, R260 to R262, R276, R284, R379 to R387, R445, R446) -/

/-- Request r is the only one in flight, it has not fallen to a stop of its context, and nothing is poisoned. -/
structure Lone (s : State) (r : Req) : Prop where
  flight : s.flight = [r]
  runs : s.fallen r.ctx r.src = false
  poison : s.poisoned = []

/-- The state and the other fields of journal entry e. -/
def entryState (k : Core) (e : Nat) : Nat := (tget e k.journal 0#32).toNat / 2 ^ 30
def entryRest (k : Core) (e : Nat) : Nat := (tget e k.journal 0#32).toNat % 2 ^ 30

/-- The answer that carries the bytes v for request r, without those that the core has from its own stores (R221). -/
def answers (r : Req) (v : Nat) (a : Answer) : Prop :=
  a.dst = r.src ∧ a.pend = r.pend ∧ a.shift = r.shift ∧ a.value = v - (v &&& r.hide)

/-- The answers on their way but for the marks of shared reads. -/
def bare (l : List Answer) : List Answer := l.map fun a => { a with shared := none }

/-- Journal entry e of core c has waited no longer than 1,048,576 ns (R255). -/
def inTime (s : State) (c e : Nat) : Prop := ∃ since, tfind e (s.getCore c).journalAt = some since ∧ s.time ≤ since + 1048576

end Sys2Proof.Claims

/-- R220, R254, R255, R262, R276, R284 and R426: a request is performed at its point: a load at its slice, its owner or the
host sends back the bytes of memory, a store writes them, one to the host through the endpoint's transmit order; an answer
makes its destination full; the acknowledgement of a posted store, which no earlier answer of the same owner is still on its
way behind (R259, R335), frees its journal entry, a refusal and a timeout leave it in state 2 and 3 with its other fields.
-/
def Obligations.RequestsAndAnswers : Prop :=
  ∀ s : State,
    (∀ r, Claims.Lone s r →
      (r.place = .hbm → r.near = false →
        (r.kind = .load → r.pend ≠ none → r.addr % 128 + r.size ≤ 128 →
          ∃ t a, exec (.sliceRequest 0 false) s = .next t ∧ t.flight = [] ∧ t.mem = s.mem ∧ t.answers = s.answers ++ [a] ∧
            Claims.answers r (memRead s.mem r.addr r.size) a) ∧
        (r.kind = .store → s.canLog r.ctx r.addr = true →
          ∃ t, exec (.sliceRequest 0 false) s = .next t ∧ t.flight = [] ∧ Claims.bare t.answers = Claims.bare s.answers ∧
            t.mem = memWrite s.mem r.addr r.data.toNat r.size)) ∧
      (r.place = .host → r.sent = false →
        (r.kind = .store →
          ∃ t, exec (.sliceRequest 0 false) s = .next t ∧ t.flight = [] ∧ t.mem = s.mem ∧ t.hostq = s.hostq ++ [r]) ∧
        (r.kind = .load → exec (.sliceRequest 0 false) s = .next { s with flight := [{ r with sent := true }] })) ∧
      (r.place = .host → r.sent = true → s.hostq = [] →
        (r.kind = .load → r.pend ≠ none → r.counted = false →
          ∃ t a, exec (.hostCompletion 0 false) s = .next t ∧ t.flight = [] ∧ t.mem = s.mem ∧ t.answers = s.answers ++ [a] ∧
            Claims.answers r (memRead s.mem r.addr r.size) a) ∧
        (∀ fn, r.kind = .amo fn →
          (∃ t, exec (.hostCompletion 0 false) s = .next t ∧ t.flight = [] ∧
            t.mem = memWrite s.mem r.addr (amoNew fn r.size (memRead s.mem r.addr r.size) r.data.toNat r.cmp.toNat) r.size) ∧
          (r.holds = true → (s.getCore r.src).held = some .waiting →
            ∃ t, exec (.hostCompletion 0 true) s = .next t ∧ t.flight = [] ∧ t.mem = s.mem ∧
              (t.getCore r.src).held = some (.failed 0x242#10 r.va)))) ∧
      (r.place = .peer →
        (r.kind = .store →
          ∃ t, exec (.peerResponse 0) s = .next t ∧ t.flight = [] ∧ t.mem = memWrite s.mem r.addr r.data.toNat r.size) ∧
        (r.kind = .load → r.pend ≠ none →
          ∃ t a, exec (.peerResponse 0) s = .next t ∧ t.flight = [] ∧ t.mem = s.mem ∧ t.answers = s.answers ++ [a] ∧
            Claims.answers r (memRead s.mem r.addr r.size) a)) ∧
      (∀ c, r.place = .scratch c →
        (r.sent = false → (s.getCore c).context = some r.ctx → (s.getCore c).wp = [] →
          r.addr + r.size ≤ (s.getCore c).scratchSize →
          (r.kind = .store → r.journal ≠ none →
            exec (.remoteApertureRequest 0) s =
              .next { s with
                flight := [{ r with sent := true }]
                answers :=
                  s.answers ++
                    [{ dst := r.src, source := some (160 + c), pend := none, shift := 0, value := 0, ack := r.journal }]
                mem := memWrite s.mem (scratchKey c r.addr) r.data.toNat r.size }) ∧
          (r.kind = .load → r.pend ≠ none →
            ∃ t a, exec (.remoteApertureRequest 0) s = .next t ∧ t.flight = [] ∧ t.mem = s.mem ∧
              t.answers = s.answers ++ [a] ∧ Claims.answers r (memRead s.mem (scratchKey c r.addr) r.size) a)) ∧
        ∀ e, r.journal = some e →
          (∀ l a l', r.sent = true → Claims.inTime s r.src e → s.answers = l ++ a :: l' → a.dst = r.src → a.ack = some e →
            (∀ b ∈ l, b.dst ≠ a.dst ∨ b.source ≠ a.source ∧ b.ack ≠ some e) →
            ∃ t, exec (.postedStoreAck r.src e) s = .next t ∧ t.flight = [] ∧ t.mem = s.mem ∧
              tfind e (t.getCore r.src).journal = none ∧ ∀ b ∈ t.answers, b.dst ≠ r.src ∨ b.ack ≠ some e) ∧
          (∀ l a l', s.answers = l ++ a :: l' → (∃ b ∈ l, b.dst = r.src ∧ b.source = a.source) →
            (∀ b ∈ l, b.dst ≠ r.src ∨ b.ack ≠ some e) → a.dst = r.src → a.ack = some e →
            exec (.postedStoreAck r.src e) s = .refused (.notEnabled "POSTED_STORE_ACK")) ∧
          (r.sent = false → Claims.inTime s r.src e → (s.getCore c).context ≠ some r.ctx →
            (∀ a ∈ s.answers, a.dst ≠ r.src ∨ a.source ≠ some (160 + c)) →
            ∃ t, exec (.postedStoreRefusal r.src e) s = .next t ∧ t.flight = [] ∧ t.mem = s.mem ∧
              Claims.entryState (t.getCore r.src) e = 2 ∧
              Claims.entryRest (t.getCore r.src) e = Claims.entryRest (s.getCore r.src) e) ∧
          ∀ at_, tfind e (s.getCore r.src).journalAt = some at_ → at_ + 1048576 ≤ s.time →
            (∃ t, exec (.journalTimeout r.src e true) s = .next t ∧ t.flight = [] ∧ t.mem = s.mem ∧
              Claims.entryState (t.getCore r.src) e = 3 ∧
              Claims.entryRest (t.getCore r.src) e = Claims.entryRest (s.getCore r.src) e) ∧
            (r.sent = false →
              ∃ t q, exec (.journalTimeout r.src e false) s = .next t ∧ t.flight = [q] ∧ t.mem = s.mem ∧ q.journal = none ∧
                q.addr = r.addr ∧ q.data = r.data ∧ Claims.entryState (t.getCore r.src) e = 3))) ∧
    (∀ r, s.hostq = [r] → r.place = .host → r.kind = .store → s.poisoned = [] →
      ∃ t, s.hostStore 0 = .next t ∧ t.hostq = [] ∧ t.mem = memWrite s.mem r.addr r.data.toNat r.size) ∧
    ∀ a n p d bytes signed, s.answers = [a] → a.ack = none → s.fallen ((s.getCore a.dst).context.getD 64) a.dst = false →
      (s.getCore a.dst).routine = none → a.pend = some n → a.line = none → tfind n (s.getCore a.dst).pend = some p →
      p.left = 1 → p.dest = .scalar d bytes signed →
      ∃ t, exec (.loadResponse 0) s = .next t ∧ t.answers = [] ∧ t.mem = s.mem ∧
        (t.getCore a.dst).pend = terase n (s.getCore a.dst).pend ∧
        (t.getCore a.dst).sregs =
          ((s.getCore a.dst).fillS d
            (Claims.extended bytes signed ((p.acc + a.value * 2 ^ a.shift) % 2 ^ (8 * bytes)))).sregs

/-- R379 to R383 and R387: a walk that ends at a leaf gives the core a translation, and one that ends at a cause has it
raised; an invalidation drops the translations that it hits at every core of its cluster, and its acknowledgement comes back
to the core that sent it; a write that WB holds back translates again, or raises 0x209 after 1,000,000 ns. R223, R260, R261,
R445 and R446: the accesses of peers and of the host, inside and outside a grant, and the end of a replica; a byte of HBM reads
to them as memory has it, but where management's save records and logs stand, and a host read passes no store of the device. -/
def Obligations.TranslationsAndHost : Prop :=
  ∀ s : State,
    (∀ c w x, (s.getCore c).walk = some w → s.ctxOf c = some x → (s.getCore c).context = some x.desc.ctx → s.poisoned = [] →
      (∀ o, o / 16 = c / 16 → o ≠ c → (s.getCore o).walk = none) →
      (∀ e, s.walkRoot x.desc.root w.va.toNat = .error e →
        ∃ t, exec (.pageWalkComplete c) s = .next t ∧ t.mem = s.mem ∧ (t.getCore c).walk = none ∧
          tfind w.va.toNat (t.getCore c).walkFaults = some e) ∧
      ∀ l p a q, s.walkRoot x.desc.root w.va.toNat = .ok l →
        s.viaLeaf x.desc.keys (s.getCore c).system w.access (withAD l.pte w.access) l.log2 w.va.toNat = .ok p a q →
        ∃ t e, exec (.pageWalkComplete c) s = .next t ∧ (t.getCore c).walk = none ∧ e ∈ (t.getCore c).tlb ∧
          e.ctx = x.desc.ctx ∧ e.base ≤ w.va.toNat ∧ w.va.toNat < e.base + 2 ^ e.log2 ∧ e.pte = withAD l.pte w.access) ∧
    (∀ d, s.shootdowns = [d] →
      (d.acked = false → (∀ c ∈ s.shotCores d, s.accessesLeft d c = false ∧ s.buffersShot d c = false) →
        ∃ t, exec (.tlbInvalidationRequest 0) s = .next t ∧ t.mem = s.mem ∧ t.shootdowns = [{ d with acked := true }] ∧
          (∀ e ∈ (t.cluster d.cluster).tlb, d.hits e = false) ∧
          ∀ j < 16, ∀ e ∈ (t.getCore (16 * d.cluster + j)).tlb, d.hits e = false) ∧
      (d.acked = true →
        ∃ t, exec (.tlbInvalidationAck 0) s = .next t ∧ t.shootdowns = [] ∧ t.mem = s.mem ∧
          (t.getCore d.src).tlbinv = (s.getCore d.src).tlbinv.map fun n => n - 1)) ∧
    (∀ c b, (s.getCore c).wb = some b → b.waiting = true →
      (∀ n, (s.getCore c).context = some n →
        ∃ t, exec (.wbRetry c) s = .next t ∧ t.mem = s.mem ∧ (t.getCore c).wb = some { b with waiting := false } ∧
          ∀ e ∈ (t.getCore c).tlb, e.ctx = n → ¬(e.base ≤ b.va.toNat ∧ b.va.toNat < e.base + 2 ^ e.log2)) ∧
      (b.since + 1000000 ≤ s.time →
        ∃ t, exec (.wbTimeout c) s = .next t ∧ t.mem = s.mem ∧ tfind b.va.toNat (t.getCore c).walkFaults = some 0x209#10)) ∧
    (∀ p a n data cmp, p < 64 → p ≠ s.fabid.toNat → s.peers.getLsbD p = true → n ∈ [1, 2, 4, 8] → a % n = 0 →
      a + n ≤ 0x6000000000 → s.stmap.getLsbD (a / 0xC00000000) = true →
      (∃ t, exec (.peerRequest p a n 0 data cmp) s = .next t ∧ t.mem = s.mem ∧ t.hostOut = s.hbmBytes a n) ∧
      ∃ t, exec (.peerRequest p a n 1 data cmp) s = .next t ∧ t.mem = memWrite s.mem a data.toNat n) ∧
    (∀ fn off data n, s.postedNone fn = true →
      (∀ base len, tfind fn s.grants = some (base, len) →
        (off + data.length ≤ len →
          ∃ t, exec (.hostPostedWrite fn off data) s = .next t ∧
            t.mem = memWrite s.mem (base + off) (bytesNat data) data.length) ∧
        (off + n ≤ len →
          (s.hostq = [] → exec (.hostRead fn off n) s = .next { s with hostOut := s.hbmBytes (base + off) n }) ∧
          (s.hostq ≠ [] → exec (.hostRead fn off n) s = .refused (.notEnabled "HOST_READ"))) ∧
        (n = 4 ∨ n = 8 → off + n ≤ len → off % n = 0 → ∀ x y : Word,
          let old := memRead s.mem (base + off) n
          (∃ t, exec (.hostAtomicop fn off 0 n x y) s = .next t ∧ t.hostOut = natBytes old n ∧
            t.mem = memWrite s.mem (base + off) (x.toNat % 2 ^ (8 * n)) n) ∧
          (∃ t, exec (.hostAtomicop fn off 1 n x y) s = .next t ∧ t.hostOut = natBytes old n ∧
            t.mem = memWrite s.mem (base + off) ((old + x.toNat % 2 ^ (8 * n)) % 2 ^ (8 * n)) n) ∧
          (∃ t, exec (.hostAtomicop fn off 2 n x y) s = .next t ∧ t.hostOut = natBytes old n ∧
            t.mem = memWrite s.mem (base + off) (if old = y.toNat % 2 ^ (8 * n) then x.toNat % 2 ^ (8 * n) else old) n))) ∧
      (tfind fn s.grants = none →
        exec (.hostPostedWrite fn off data) s = .next s ∧
        (s.hostq = [] → exec (.hostRead fn off n) s = .next { s with hostOut := List.replicate n 0xFF#8 }))) ∧
    (∀ a, (∀ r ∈ s.reserved, a < r.1 ∨ r.1 + r.2.length ≤ a) → s.hbmByte a = memByte s.mem a) ∧
    ∀ cl line, tfind line (s.cluster cl).replicas ≠ none →
      ∃ t, exec (.replicaEviction cl line) s = .next t ∧ t.mem = s.mem ∧ tfind line (t.cluster cl).replicas = none

namespace Sys2Proof.Claims

/-! ## Scheduling (R294 to R303, R310, R389) -/

/-- Where slot h of a queue lies. -/
def slotAddr (k : Queue) (h : Nat) : Nat := k.base + 128 + 128 * (h % 2 ^ (k.desc.toNat / 2 ^ 48 % 256))

/-- Slot h is published (R295). -/
def published (s : State) (k : Queue) (h : Nat) : Prop := memRead s.mem (slotAddr k h + 0x70) 4 = (h + 1) % 2 ^ 32

/-- The queue engine has looked at a slot of queue q, which is k now: its read is counted, and nothing else changes. -/
def looked (s t : State) (q : Nat) (k : Queue) : Prop :=
  t = { s with queues := tset q k s.queues, counters := t.counters, fresh := t.fresh }

/-- The chunk that R302 deals of a card of width w. -/
def chunkOf (s : State) (k : Card) : Nat :=
  let p := 2 * ((s.partOf k.ctx).length * (16 / k.width))
  min k.rem (max k.chunkMin (min k.chunk0 ((k.rem + p - 1) / p)))

end Sys2Proof.Claims

/-- R294 to R303, R223 and R300: a ring of a queue that is another function's or not enabled is discarded; a published slot
whose card passes its checks is consumed and its card held; a reservation that is not published in time is reported; a chunk
of a card goes to an idle position, which begins it or waits first for what R49 asks; a card whose units have ended is
complete. R310, R389 and R453: the activity forecast, the reckoning fold and a step of the core clock. -/
def Obligations.Scheduling : Prop :=
  ∀ s : State,
    (∀ fn q, (s.queue q).fn ≠ fn ∨ (s.queue q).desc.getLsbD 63 = false → exec (.queuePublish fn q) s = .next s) ∧
    (∀ q k, tfind q s.queues = some k → q < 32768 → k.desc.getLsbD 63 = true → s.live (k.desc.toNat / 2 ^ 26 % 64) = true →
      (¬Claims.published s k k.h →
        (∃ t k', exec (.queuePublish k.fn q) s = .next t ∧ Claims.looked s t q k' ∧ k'.h = k.h) ∧
        (memRead s.mem k.base 4 ≠ k.h →
          ∃ t k', exec (.queuePoll q) s = .next t ∧ Claims.looked s t q k' ∧ k'.h = k.h ∧ k'.timer ≠ none)) ∧
      (Claims.published s k k.h → ¬Claims.published s k ((k.h + 1) % 2 ^ 32) → k.h < 2 ^ 32 → Memory.wf s.mem = true →
        1 ≤ k.desc.toNat / 2 ^ 48 % 256 → s.poisoned = [] →
        let b := memReadBytes s.mem (Claims.slotAddr k k.h) 128
        let card := cardOf k.desc q k.h b
        s.cardFault card b = none → imgNat b 0x2C 4 = 0 → card.count ≠ 0 → (∀ p ∈ s.cards, p.2.count ≠ 0) →
        ∃ t c, exec (.queuePublish k.fn q) s = .next t ∧ (t.queue q).h = (k.h + 1) % 2 ^ 32 ∧
          memRead t.mem (k.base + 8) 4 = (k.h + 1) % 2 ^ 32 ∧ (s.nextCard, c) ∈ t.cards ∧ c.count = card.count ∧
          c.entry = card.entry ∧ c.rem = card.count ∧ t.core = s.core) ∧
      ∀ at_, k.timer = some at_ → k.desc.toNat / 2 ^ 32 % 2 ^ 16 ≠ 0 → k.posted = false → memRead s.mem k.base 4 ≠ k.h →
        at_ + 1000 * (k.desc.toNat / 2 ^ 32 % 2 ^ 16) ≤ s.time →
        ∃ t, exec (.reservationTimeout q) s = .next t ∧ (t.queue q).posted = true ∧ (t.queue q).h = k.h) ∧
    (∀ n k pos, s.cards = [(n, k)] → s.dealable n k pos = true →
      ∃ t, exec (.dealChunk pos) s = .next t ∧ t.cards = [(n, { k with rem := k.rem - Claims.chunkOf s k })] ∧
        ∀ j < k.width, (t.getCore (pos + j)).pc = k.entry ∧ (t.getCore (pos + j)).preparing = !s.prepared n pos k.width ∧
          (t.getCore (pos + j)).unit =
            some
              { card := n
                ident := k.count - k.rem
                stop := k.count - k.rem + Claims.chunkOf s k
                argBase := k.argBase
                argSize := k.argSize }) ∧
    (∀ n k, tfind n s.cards = some k → k.state = .released → k.rem = 0 → k.ended = k.count → s.cardBusy n = false →
      k.done = 0 → k.note = false → (∀ p ∈ s.cards, p.2.count ≠ 0) →
      ∃ t, exec (.cardComplete n) s = .next t ∧ t.mem = s.mem ∧ tfind n t.cards = none) ∧
    (∃ t, exec .activityForecastUpdate s = .next t ∧ t = { s with forecast := t.forecast } ∧
      t.forecast.toNat / 2 ^ 56 = (s.forecast.toNat / 2 ^ 56 + 1) % 256 ∧
      t.forecast.toNat / 2 ^ 16 % 2 ^ 12 = s.busyPositions % 2 ^ 12 ∧
      t.forecast.toNat / 2 ^ 32 % 2 ^ 12 =
        min 4095 (s.cards.filter fun p => decide (p.2.state = .released) && decide (0 < p.2.rem)).length) ∧
    (s.foldTime + 10000 ≤ s.time →
      ∃ t, exec .reckoningFold s = .next t ∧ t.folds = s.folds + 1 ∧ t.foldTime = s.foldTime + 10000 ∧ t.mem = s.mem ∧
      t.folded = t.counters ∧ ∀ j, j % 16 ≠ 7 → tget j t.counters 0 = tget j s.counters 0) ∧
    ∀ m, 1200 ≤ m → m ≤ 2400 → m % 100 = 0 → m = s.mhz + 100 ∨ s.mhz = m + 100 → s.core.midway = false →
      (∀ r ∈ s.others, r.2.midway = false) → exec (.clockStep m) s = .next { s with mhz := m }

/-- R430 to R437: at its stop time a context whose cores have nothing left to do is stopped; its save keeps the stop time and
empties its partition; the save of a checkpoint opens the interval and resumes. R422, R436, R441 and R452: the watchdog, the
save bound, and the errors: a context with no open interval that one of them strikes ends. That a link which fails stays
failed while LKMAP keeps its bit is the model's choice (log 70), and that a termination is one step (log 14). -/
def Obligations.StopsAndErrors : Prop :=
  ∀ (s : State) (n : Nat) (x : Context), tfind n s.contexts = some x →
    let state (t : State) : Option CtxState := (tfind n t.contexts).map fun y => y.state
    let gone (t : State) : Prop := tfind n t.contexts = none ∧ ∀ c, (t.getCore c).context ≠ some n
    (∀ at_, x.state = .stopping at_ → at_ ≤ s.time → x.phase = none →
      ((∀ c ∈ s.ctxCores n, (s.getCore c).unit = none ∧ (s.getCore c).mqueue = []) →
        ∃ t, exec (.stopTime n) s = .next t ∧ t.mem = s.mem ∧ t.core = s.core ∧ state t = some (.stopped at_)) ∧
      (s.others = [] → s.core.context = some n → s.core.unit ≠ none → s.core.rest = .none → s.core.dstat.getLsbD 63 = false →
        s.core.gang = none → s.core.ahead = false → s.core.stoppable = true → s.core.stepping = none →
        s.core.overlapped = false → s.core.mqueue = [] → s.core.sleeping = none →
        ∃ t, exec (.stopTime n) s = .next t ∧ t.mem = s.mem ∧ state t = some (.stopped at_) ∧ t.core.rest = .stopped ∧
          t.core.pc = s.core.pc ∧ t.core.sregs = s.core.sregs ∧ t.core.vregs = s.core.vregs)) ∧
    (∀ at_, x.state = .stopped at_ → s.command = none →
      (x.ckpt = none →
        ∃ t r, exec (.contextSave n) s = .next t ∧ state t = some .saved ∧ tfind (2 * n) t.saves = some r ∧
          r.stopTime = at_ ∧ r.intact = true ∧ (∀ c, (t.getCore c).context ≠ some n) ∧
          (s.core.context = some n → s.core.l1d = [] → s.core.l1i = [] → s.core.fbuf = [] → s.core.lbuf = [] →
            s.core.tlb = [] → tfind s.cur r.cores = some s.core)) ∧
      ∀ k, x.ckpt = some k → x.wdog = false →
        ∃ t, exec (.contextSave n) s = .next t ∧ state t = some .running ∧ tfind (2 * n + 1) t.saves ≠ none ∧
          (tfind n t.contexts).map (fun y => y.interval) = some k) ∧
    (x.state = .running → x.rewritten + 1000000 * x.wdp ≤ s.time →
      ∃ t, exec (.watchdogExpiry n) s = .next t ∧ state t = some (.stopping s.time) ∧
        (tfind n t.contexts).map (fun y => y.wdog) = some true) ∧
    (∃ t, exec (.watchdogRewrite n) s = .next t ∧ t.mem = s.mem ∧
      (tfind n t.contexts).map (fun y => y.rewritten) = some s.time) ∧
    (x.interval = 0 →
      (∀ at_, x.state = .stopping at_ ∨ x.state = .stopped at_ → at_ + 4000000 ≤ s.time →
        ∃ t, exec (.saveBoundExpiry n) s = .next t ∧ gone t) ∧
      (∀ code unit, code = 0x3C0 ∨ code = 0x3C1 → ∃ t, exec (.uncorrectableError 1 n code unit) s = .next t ∧ gone t) ∧
      (∀ c u l, s.charges = (n, c, u) :: l → ∃ t, exec (.uncorrectableError 2 0 0 0) s = .next t ∧ gone t) ∧
      (∀ link, ∃ t, exec (.linkRetryExhausted n link) s = .next t ∧ gone t) ∧
      (∀ link lost, link < 12 → s.lkmap.getLsbD link = true → s.linksDown.getLsbD link = false →
        ∃ t, exec (.adxusLinkFailure link lost [n]) s = .next t ∧ gone t ∧ t.lkmap = s.lkmap ∧
          t.linksDown.getLsbD link = true ∧ t.peers = s.peers &&& ~~~lost) ∧
      ∃ t, exec (.hostLinkFailure [n]) s = .next t ∧ gone t) ∧
    (∀ a, ∃ t, exec (.uncorrectableError 0 a 0 0) s = .next t ∧ a / 8 ∈ t.poisoned ∧
      t = { s with poisoned := t.poisoned, sliceBad := terase (a / 8) s.sliceBad }) ∧
    exec .correctedError s = .next { s with corrected := s.corrected + 1 }

namespace Sys2Proof.Claims

/-! ## The mailbox (R446 to R448) -/

/-- A mailbox command: function, code, operands, how many operands it lists. -/
def command : Instr → Option (Nat × Nat × List Word × Nat)
  | .accept fn ops => some (fn, 0x01, ops, 0)
  | .ctxload fn ops => some (fn, 0x10, ops, 1)
  | .ctxend fn ops => some (fn, 0x11, ops, 2)
  | .ctxstop fn ops => some (fn, 0x12, ops, 2)
  | .ctxresume fn ops => some (fn, 0x13, ops, 2)
  | .ckpt fn ops => some (fn, 0x14, ops, 1)
  | .rollback fn ops => some (fn, 0x15, ops, 2)
  | .devckpt fn ops => some (fn, 0x16, ops, 3)
  | .keyreg fn ops => some (fn, 0x20, ops, 3)
  | .keyrev fn ops => some (fn, 0x21, ops, 2)
  | .agassign fn ops => some (fn, 0x22, ops, 2)
  | .agweight fn ops => some (fn, 0x23, ops, 2)
  | .acctsnap fn ops => some (fn, 0x24, ops, 2)
  | .objload fn ops _ => some (fn, 0x30, ops, 3)
  | .objunload fn ops => some (fn, 0x31, ops, 3)
  | .qset fn ops => some (fn, 0x40, ops, 4)
  | .bargrant fn ops => some (fn, 0x41, ops, 3)
  | .futmake fn ops => some (fn, 0x50, ops, 2)
  | .futput fn ops => some (fn, 0x51, ops, 3)
  | .futfree fn ops => some (fn, 0x52, ops, 2)
  | .wdset fn ops => some (fn, 0x60, ops, 2)
  | _ => none

/-- The mailbox takes commands: the device has booted, no command runs, and the driver has accepted its features. -/
structure Ready (s : State) : Prop where
  booted : s.bootst.getLsbD 63 = true
  idle : s.command = none
  accepted : s.accepted = true

/-- The operands of a command are op1 to op-n, and no other. -/
def only (ops : List Word) (n : Nat) : Prop := ∀ i, n ≤ i → i < 7 → ops.getD i 0#64 = 0#64

/-- Operand n of a command, from 1. -/
def op (ops : List Word) (n : Nat) : Nat := (ops.getD (n - 1) 0#64).toNat

/-- The mailbox answers with a status and results, and runs no command. -/
def replied (t : State) (status : Nat) (results : List Word) : Prop :=
  t.rsp = (BitVec.ofNat 64 status :: results) ++ List.replicate (7 - results.length) 0#64 ∧ t.command = none

/-- The bytes at a host bus address. -/
def hostBytes (s : State) (bus n : Nat) : List Byte := memReadBytes s.mem (2 ^ 51 + bus) n

end Sys2Proof.Claims

/-- R446 to R448 and R450: a command of another function than the physical one, or before the boot is complete, or while
another runs, is discarded; before ACCEPT every other command is refused, and so is one with an operand that it does not
list, or a code that no command has; that CMD then holds its word 0 is the model's reading (log 60). ACCEPT, ACC_WRITE and
CAPW_WRITE. -/
def Obligations.MailboxRules : Prop :=
  ∀ s : State,
    (∀ (i : Instr) (fn code : Nat) (ops : List Word) (n : Nat), Claims.command i = some (fn, code, ops, n) →
      (fn ≠ 0 ∨ s.bootst.getLsbD 63 = false ∨ s.command ≠ none → exec i s = .next s) ∧
      (fn = 0 → s.bootst.getLsbD 63 = true → s.command = none →
        (s.accepted = false → code ≠ 1 →
          ∃ t, exec i s = .next t ∧ Claims.replied t 0x04030003 [] ∧ t.mem = s.mem ∧ t.contexts = s.contexts) ∧
        (s.accepted = true → ∀ j, n ≤ j → j < 7 → ops.getD j 0#64 ≠ 0#64 → (∀ l, n ≤ l → l < j → ops.getD l 0#64 = 0#64) →
          ∃ t, exec i s = .next t ∧ Claims.replied t (0x04020000 + (j + 1)) [] ∧ t.mem = s.mem ∧
            t.contexts = s.contexts))) ∧
    (∀ code : BitVec 16, (∀ i fn c ops n, Claims.command i = some (fn, c, ops, n) → c ≠ code.toNat) →
      (Claims.Ready s →
        exec (.mailboxUnknownCommand 0 code) s =
          .next (({ s with cmd := BitVec.ofNat 64 code.toNat :: s.cmd.tail } : State).respond (0x04010000 + code.toNat) [])) ∧
      (s.bootst.getLsbD 63 = true → s.command = none → s.accepted = false →
        ∃ t, exec (.mailboxUnknownCommand 0 code) s = .next t ∧ Claims.replied t 0x04030003 [])) ∧
    (∀ ops, Claims.only ops 0 → s.bootst.getLsbD 63 = true → s.command = none →
      ∃ t, exec (.accept 0 ops) s = .next t ∧ t.accepted = true ∧ t.acc = s.acc ∧ Claims.replied t 0 []) ∧
    (∀ v, (s.accepted = false → exec (.accWrite 0 v) s = .next { s with acc := v &&& s.feat }) ∧
      (s.accepted = true → exec (.accWrite 0 v) s = .next s)) ∧
    ∀ v : BitVec 16,
      (600 ≤ v.toNat → v.toNat ≤ 1650 → exec (.capwWrite 0 v) s = .next { s with capw := v.toNat }) ∧
      (v.toNat < 600 ∨ 1650 < v.toNat → exec (.capwWrite 0 v) s = .next s)

/-- R294, R305, R375, R388, R390, R398 to R401 and R430 to R440: what each mailbox command does when its operands are good,
and the change of a descriptor. The model's choices among it: CTXSTOP and CKPT are answered when the save is done (log 15),
DEVCKPT puts a byte of HBM at its own address from op2 on (log 24), QSET takes H from HEAD (log 38), a changed PART acts at once
(log 70), and BARGRANT does not ask whether a stack is enabled (log 72). -/
def Obligations.ManagementCommands : Prop :=
  ∀ (s : State) (ops : List Word), Claims.Ready s →
    let op := Claims.op ops
    (Claims.only ops 1 → op 1 + 128 ≤ 2 ^ 51 →
      let b := Claims.hostBytes s (op 1) 128
      let d := descOf b
      s.badDescriptor b = false → tfind d.ctx s.contexts = none → s.badCluster d.ctx d.part = none →
      ∃ t y, exec (.ctxload 0 ops) s = .next t ∧ Claims.replied t 0 [] ∧ tfind d.ctx t.contexts = some y ∧ y.desc = d ∧
        y.state = .running ∧
        ∀ c < 160, s.inPart d c = true → ∀ i < 16,
          t.getCore (16 * c + i) = { context := some d.ctx, trapvec := d.tvec &&& 0xFFFFFFFFFFFFFFFC#64 }) ∧
    (∀ x, Claims.only ops 2 → op 1 < 64 → tfind (op 1) s.contexts = some x →
      let n := op 1
      let context (t : State) : Option Context := tfind n t.contexts
      (op 2 = 1 ∨ op 2 = 0 ∧ (∀ p ∈ s.cards, p.2.ctx ≠ n) →
        ∃ t, exec (.ctxend 0 ops) s = .next t ∧ Claims.replied t 0 [] ∧ context t = none) ∧
      (x.state = .running →
        ∃ t, exec (.ctxstop 0 ops) s = .next t ∧ t.command = some (0x12, n) ∧
          context t = some { x with state := .stopping (if op 2 = 0 then s.time else op 2) }) ∧
      (∀ r c k, x.state = .saved → tfind (2 * n) s.saves = some r → r.intact = true → op 2 = 1 ∨ op 2 = 0 ∧ r.wdog = false →
        s.taken n r.part = none → r.cores = [(c, k)] → (∀ e, k.actionDue e = false) →
        ∃ t, exec (.ctxresume 0 ops) s = .next t ∧ Claims.replied t 0 [] ∧
          (context t).map (fun y => y.state) = some .running ∧ (t.getCore c).pc = k.pc ∧ (t.getCore c).sregs = k.sregs ∧
          (t.getCore c).rest = .none) ∧
      (∀ r, op 2 ≠ 0 → op 2 = x.interval → tfind (2 * n + 1) s.saves = some r → r.intact = true → s.taken n r.part = none →
        (∀ p ∈ r.cores, ∀ e, p.2.actionDue e = false) →
        ∃ t, exec (.rollback 0 ops) s = .next t ∧ Claims.replied t 0 [] ∧
          (context t).map (fun y => y.state) = some .running) ∧
      (1 ≤ op 2 → op 2 ≤ 1000 →
        ∃ t, exec (.wdset 0 ops) s = .next t ∧ Claims.replied t 0 [] ∧
          context t = some { x with wdp := op 2, rewritten := s.time }) ∧
      (op 2 < x.futures → (Claims.entry x s.mem (op 2)).st = 0 → Memory.wf s.mem = true →
        let g := if (Claims.entry x s.mem (op 2)).gen = 4095 then 1 else (Claims.entry x s.mem (op 2)).gen + 1
        ∃ t, exec (.futmake 0 ops) s = .next t ∧ Claims.replied t 0 [BitVec.ofNat 64 (g * 2 ^ 20 + op 2)] ∧
          Claims.entry x t.mem (op 2) = { value := 0, st := 1, gen := g, nwait := 0, whead := 0, wtail := 0 }) ∧
      (op 2 < 2 ^ 32 → Claims.valid x (op 2) → Claims.live s x (op 2) → Memory.wf s.mem = true →
        let e := Claims.entry x s.mem (Claims.idx (op 2))
        e.st ≠ 1 ∨ e.nwait = 0 →
        ∃ t, exec (.futfree 0 ops) s = .next t ∧ Claims.replied t 0 [] ∧
          Claims.entry x t.mem (Claims.idx (op 2)) = { e with st := 0 })) ∧
    (∀ x, Claims.only ops 1 → op 1 < 64 → tfind (op 1) s.contexts = some x → x.state = .running →
      ∃ t, exec (.ckpt 0 ops) s = .next t ∧ t.command = some (0x14, op 1) ∧
        tfind (op 1) t.contexts = some { x with state := .stopping s.time, ckpt := some x.nextInterval }) ∧
    (∀ x, Claims.only ops 3 → op 1 < 64 → tfind (op 1) s.contexts = some x →
      (op 2 < 2 ^ 32 → Claims.valid x (op 2) → Claims.live s x (op 2) → Memory.wf s.mem = true →
        let e := Claims.entry x s.mem (Claims.idx (op 2))
        e.st = 1 → e.nwait = 0 → (∀ p ∈ s.cards, p.2.count ≠ 0) →
        ∃ t, exec (.futput 0 ops) s = .next t ∧ Claims.replied t 0 [] ∧
          Claims.entry x t.mem (Claims.idx (op 2)) =
            { value := op 3, st := 2, gen := e.gen, nwait := 0, whead := 0, wtail := 0 }) ∧
      (op 3 ≤ 1 → (∃ i ∈ x.images, i.handle = op 2) → (∀ p ∈ s.cards, ¬(p.2.ctx = op 1 ∧ p.2.image = op 2)) →
        ∃ t, exec (.objunload 0 ops) s = .next t ∧ Claims.replied t 0 [] ∧
          tfind (op 1) t.contexts = some { x with images := x.images.filter fun i => i.handle ≠ op 2 })) ∧
    (Claims.only ops 3 → op 1 = 0 → op 2 + 0x6000000000 ≤ 2 ^ 51 → op 3 = 0 → s.contexts = [] → s.saves = [] → s.logs = [] →
      Memory.wf s.mem = true →
      ∃ t, exec (.devckpt 0 ops) s = .next t ∧ Claims.replied t 0 [] ∧
        ∀ a < 0x6000000000, memByte t.mem (2 ^ 51 + op 2 + a) = memByte s.mem a ∧ memByte t.mem a = memByte s.mem a) ∧
    (Claims.only ops 3 → op 1 < 4096 → op 2 < 16 → tfind (16 * op 1 + op 2) s.keys = none → op 3 + 96 ≤ 2 ^ 51 →
      ∃ t, exec (.keyreg 0 ops) s = .next t ∧ Claims.replied t 0 [] ∧ t.mem = s.mem ∧
        tfind (16 * op 1 + op 2) t.keys =
          some { key := BitVec.ofNat 768 (bytesNat (Claims.hostBytes s (op 3) 96).reverse) }) ∧
    (Claims.only ops 2 → op 1 < 4096 →
      (∀ k, op 2 < 16 → tfind (16 * op 1 + op 2) s.keys = some k →
        ∃ t, exec (.keyrev 0 ops) s = .next t ∧ Claims.replied t 0 [] ∧
          tfind (16 * op 1 + op 2) t.keys = some { k with revoked := true }) ∧
      (1 ≤ op 2 → op 2 ≤ 255 →
        (∃ t, exec (.agassign 0 ops) s = .next t ∧ Claims.replied t 0 [] ∧ tget (op 1) t.weights 1 = op 2 ∧
          ∀ j, j / 16 = op 1 → tget j t.counters 0 = 0 ∧ tget j t.folded 0 = 0) ∧
        ∃ t, exec (.agweight 0 ops) s = .next t ∧ Claims.replied t 0 [] ∧ tget (op 1) t.weights 1 = op 2 ∧
          t.counters = s.counters) ∧
      (op 2 + 192 ≤ 2 ^ 51 →
        ∃ t, exec (.acctsnap 0 ops) s = .next t ∧ Claims.replied t 0 [BitVec.ofNat 64 s.folds] ∧
          t.mem = memWriteBytes s.mem (2 ^ 51 + op 2) (s.snapshot (op 1)))) ∧
    (Claims.only ops 4 → op 1 < 32768 → queueWordOk (ops.getD 1 0#64) = true → op 4 < 64 →
      (ops.getD 1 0#64).getLsbD 63 = false ∨
        tfind ((ops.getD 1 0#64).toNat / 2 ^ 26 % 64) s.contexts ≠ none ∧ op 3 % 128 = 0 ∧
          s.inMemory (op 3) (128 + 128 * 2 ^ ((ops.getD 1 0#64).toNat / 2 ^ 48 % 256)) = true →
      ∃ t, exec (.qset 0 ops) s = .next t ∧ Claims.replied t 0 [] ∧
        tfind (op 1) t.queues =
          some { desc := ops.getD 1 0#64, base := op 3, fn := op 4, h := memRead s.mem (op 3 + 8) 4 }) ∧
    (Claims.only ops 3 → op 1 < 64 → (∃ i < 10, op 3 = 2 ^ (30 + i)) → op 2 % op 3 = 0 → op 2 + op 3 ≤ 0x6000000000 →
      ∃ t, exec (.bargrant 0 ops) s = .next t ∧ Claims.replied t 0 [] ∧ tfind (op 1) t.grants = some (op 2, op 3)) ∧
    ∀ n x b, tfind n s.contexts = some x → s.badDescriptor b = false → (descOf b).ctx = n →
      s.badCluster n (descOf b).part = none →
      ∃ t, exec (.contextDescriptorChange n b) s = .next t ∧ tfind n t.contexts = some { x with desc := descOf b } ∧
        ((descOf b).part = x.desc.part → t.mem = s.mem)

namespace Sys2Proof.Claims

/-- An SPDM request and the code of its answer (R395). -/
def spdm : Instr → Option Nat
  | .getVersion _ => some 0x04
  | .getCapabilities _ => some 0x61
  | .negotiateAlgorithms _ => some 0x63
  | .getDigests _ => some 0x01
  | .challenge req => some (if imgByte req 2 % 16 = 0 then 0x03 else 0x7F)
  | _ => none

/-- The object at a host bus address. -/
def object (s : State) (bus n : Nat) : CodeObj := { bytes := hostBytes s bus n }

/-- The four signatures of an update verify: of the store with its table, of the translator with its build, of the version
window's start and of the security version (R402). -/
def signed (store : List Word32) (table : List Word) (translator : List Byte) (build wmin svn : Nat)
    (sigs : List (BitVec 768)) : Prop :=
  let ok (i : Nat) (b : List Byte) : Prop := verifies Config.vendorKey (sha384 b) (sigs.getD i 0#768) = true
  ok 0 (storeBytes (tabular store) (tabular table)) ∧ ok 1 (translator ++ natBytes build 2) ∧ ok 2 (natBytes wmin 1) ∧
    ok 3 (natBytes svn 4)

/-- A dispatch entry as it is loaded: VAL where it is enabled and its routine passes verification, and the read-only bits zero
(R81, R83). -/
def loaded (store : List Word32) (e : Word) : Word :=
  let e' := e &&& 0xBFFE01FF0000FFFF#64
  if e.getLsbD 63 = true ∧ routineOk store e' = true then e' ||| 0x4000000000000000#64 else e'

end Sys2Proof.Claims

/-- R392 to R402, R449, R454 and R455: an object that passes the checks of R399 is loaded when its signature verifies, and
refused with 0x0103 when it does not; a firmware update is kept when its parts verify, after an earlier one that may take
effect has, and takes effect when no context is resident; a power-on reset keeps the fuses and the memory of the host and of
peers; the SPDM requests have their answers once the device has booted. What a power-on reset keeps beside is the model's
choice (log 28), and the codes of SPDM (log 21) and the arithmetic of ECDSA (log 75) are presumed. -/
def Obligations.TrustAndFirmware : Prop :=
  ∀ s : State,
    (∀ (ops : List Word) (p : Placement) (x : Context) (k : AgencyKey) (text : List Byte), Claims.Ready s → Claims.only ops 3 →
      let op := Claims.op ops
      let o := Claims.object s (op 2) (op 3)
      op 1 < 64 → tfind (op 1) s.contexts = some x → op 2 + op 3 ≤ 2 ^ 51 → o.step1 = none →
      imgNat o.bytes 8 2 = x.desc.agency → imgByte o.bytes 0x0A < 16 →
      tfind (16 * x.desc.agency + imgByte o.bytes 0x0A) s.keys = some k → k.revoked = false →
      s.wmin ≤ imgNat o.bytes 4 2 → imgNat o.bytes 4 2 ≤ s.wmax → s.missingFeature (imgNat o.bytes 0x10 32) = none →
      o.step7 = none → plStep8 p = none → s.plStep9 x p = none → s.placed x p = true → s.plStep10 o p = .ok text →
      boundApart p p.channels = true → s.phasesFit x p = true → s.partsFree (op 1) (imageSpans o p) = true →
      x.images.length < 256 →
      ∃ t, exec (.objload 0 ops p) s = .next t ∧
        (verifies k.key o.digest o.sig = true →
          Claims.replied t 0 [BitVec.ofNat 64 x.nextImage, p.bases.getD 0 0#64, p.bases.getD 1 0#64, p.bases.getD 2 0#64] ∧
          ∃ y, tfind (op 1) t.contexts = some y ∧ y.images = x.images ++ [launchImage o p x.nextImage] ∧
            y.nextImage = x.nextImage + 1 ∧ y.desc = x.desc) ∧
        (verifies k.key o.digest o.sig = false →
          Claims.replied t (0x0103 * 65536) [0#64] ∧ t.contexts = s.contexts ∧ t.mem = s.mem)) ∧
    (∀ store table translator build wmin svn sigs,
      let i : Instr := .firmwareUpdate store table translator build wmin svn sigs
      (s.bootst.getLsbD 63 = true → s.update = none ∨ s.contexts ≠ [] → build < 2 ^ 16 → wmin ≤ 251 → svn < 2 ^ 32 →
        s.svn ≤ svn → s.wmin ≤ wmin →
        ∃ t, exec i s = .next t ∧
          (Claims.signed store table translator build wmin svn sigs →
            t = { s with update := t.update } ∧
            ∃ u, t.update = some u ∧ u.store = tabular store ∧
              u.dispatch = tabular ((table.take 192).map (Claims.loaded store)) ∧ u.translator = translator ∧
              u.build = build ∧ u.wmin = wmin ∧ u.svn = svn) ∧
          (¬Claims.signed store table translator build wmin svn sigs → t = s)) ∧
      (s.update = none ∨ s.contexts ≠ [] → s.bootst.getLsbD 63 = false ∨ svn < s.svn ∨ wmin < s.wmin → exec i s = .next s) ∧
      ∀ t, exec .updateTakesEffect s = .next t → exec i s = exec i t) ∧
    (∀ u, s.update = some u → s.contexts = [] → s.bootst.getLsbD 63 = true →
      ∃ t, exec .updateTakesEffect s = .next t ∧ t.microcode = u.store ∧ t.dispatch = u.dispatch ∧ t.wmin = u.wmin ∧
        t.wmax = u.wmin + 4 ∧ t.svn = u.svn ∧ t.build = u.build ∧ t.update = none ∧ t.mem = s.mem) ∧
    (∃ t, exec .powerOnReset s = .next t ∧ t.clmap = s.clmap ∧ t.stmap = s.stmap ∧ t.contexts = [] ∧ t.cards = [] ∧
      t.lkmap = s.lkmap ∧ t.fabid = 0#6 ∧ t.peers = 0#64 ∧
      t.core = {} ∧ t.others = [] ∧ t.time = 0 ∧ t.accepted = false ∧ t.microcode = s.microcode ∧ t.svn = s.svn ∧
      (Memory.wf s.mem = true →
        ∀ a, memByte t.mem a = if 0x6000000000 ≤ a ∧ a < 2 ^ 52 then memByte s.mem a else 0#8)) ∧
    (∀ i code, Claims.spdm i = some code →
      (s.bootst.getLsbD 63 = true →
        ∃ t, exec i s = .next t ∧ t.hostOut.take 2 = [0x13#8, BitVec.ofNat 8 code] ∧ t.mem = s.mem ∧ t.core = s.core) ∧
      (s.bootst.getLsbD 63 = false → ∃ t, exec i s = .next t ∧ t.hostOut = [])) ∧
    (∀ req, s.bootst.getLsbD 63 = true →
      (imgByte req 2 % 16 = 0 →
        ∃ f, exec (.getCertificate req) s = .next { s with hostOut := f ++ Config.certificates } ∧ f.take 2 = [0x13#8, 0x02#8]) ∧
      (imgByte req 2 % 16 ≠ 0 →
        ∃ f, exec (.getCertificate req) s = .next { s with hostOut := f } ∧ f.take 2 = [0x13#8, 0x7F#8]) ∧
      (∀ i < 8, imgByte req 3 = i + 1 → (imgByte req 2).testBit 0 = false →
        ∃ t f, exec (.getMeasurements req) s = .next t ∧ f.take 2 = [0x13#8, 0x60#8] ∧
          t.hostOut = f ++ [1#8, BitVec.ofNat 8 (i + 1)] ++ (natBytes (tget i s.mr 0#384).toNat 48).reverse) ∧
      ((∀ c ∈ [0x84, 0xE1, 0xE3, 0x81, 0x82, 0x83, 0xE0], imgByte req 1 ≠ c) →
        exec (.spdmOtherRequest req) s = .next { s with hostOut := [0x13#8, 0x7F#8, 0x07#8, 0x00#8] }))

namespace Sys2Proof.Claims

/-- Constructors that are not words of their own: events, the stores to the engine window, and a word that is no instruction. -/
def noWord (i : Instr) : Bool :=
  i.isEvent ||
    match i with
    | .nonInstructionWord _ _ => true
    | .registerWrite _ _ => true
    | .qgoCopy => true
    | .qgoTensor => true
    | .qgoMcast => true
    | .qgoMcwrite => true
    | .qgoFill => true
    | .qgoSubscribe => true
    | .qgoPull => true
    | _ => false

/-- The next step of s is the turn of the core in focus: the agenda names it, or is empty with no event due. It leaves the
agenda l. -/
def TurnOf (s : State) (l : List Turn) : Prop :=
  s.agenda = .core s.cur :: l ∨ s.agenda = [] ∧ l = [] ∧ firstNext s.housekeeping s = none

/-- The core in focus will issue an instruction of its own: it runs, no stop time of its context has come, and it waits for
nothing, ends no iteration, takes no trap, prepares no unit, and is in no deferred instruction and no gang. -/
structure Issues (s : State) : Prop where
  runs : s.core.runs = true
  live : s.engineLive s.cur = true
  waiting : s.core.waiting = false
  outq : s.core.outq = []
  ending : s.core.ending = none
  due : s.core.hitDue = false
  cause : s.core.nextCause = none
  preparing : s.core.preparing = false
  routine : s.core.routine = none
  gang : s.core.gang = none

end Sys2Proof.Claims

/-- The state after reset, where R454 has nothing loaded: no context, no card, every core idle with its names, masks and
registers zero, and no command taken. That a register and a byte of memory that no rule gives a value hold zero is the
model's choice (log 2 and 6). -/
def Obligations.ResetState : Prop :=
  let s := State.reset
  s.contexts = [] ∧ s.cards = [] ∧ s.flight = [] ∧ s.answers = [] ∧ s.rows = [] ∧ s.time = 0 ∧ s.accepted = false ∧
    s.bootst.getLsbD 63 = false ∧ s.command = none ∧ s.agenda = [] ∧ Memory.wf s.mem = true ∧
    (∀ a, memByte s.mem a = 0#8) ∧
    (∀ q, (s.queue q).desc = 0#64) ∧
    (∀ n, (s.cluster n).ring.state = .off ∧ (s.cluster n).context = none ∧ (s.cluster n).barriers = []) ∧
    ∀ c, (s.getCore c).unit = none ∧ (s.getCore c).context = none ∧ (s.getCore c).status = 0#64 ∧
      (s.getCore c).fflags = 0#64 ∧ (s.getCore c).vtype = 0#64 ∧ (s.getCore c).kloader = 0#64 ∧ (s.getCore c).loops = [] ∧
      (s.getCore c).journal = [] ∧ (s.getCore c).dstat = 0#64 ∧ (s.getCore c).kdo = [] ∧ (s.getCore c).mslots = [] ∧
      (∀ r : Reg, (s.getCore c).sval r = 0#64 ∧ ((s.getCore c).sver r).depth = 1 ∧ (s.getCore c).fullS r = true) ∧
      (∀ r : Reg, (s.getCore c).vval r = 0#512 ∧ ((s.getCore c).vver r).depth = 1) ∧
      (s.getCore c).mask 0#3 = 0xFFFFFFFFFFFFFFFF#64 ∧ ∀ r : KReg, r ≠ 0#3 → (s.getCore c).mask r = 0#64

/-- Every step keeps the canonical form of memory: addresses rising strictly, and no cell listed that holds what an unlisted
address reads as. -/
def Obligations.StepKeepsMemory : Prop := ∀ s t : State, s.MemWf → Steps s t → t.MemWf

/-- R53, R56 and R71 to R80: decoding the word of a well-formed instruction gives the instruction back, with every operand;
and every well-formed instruction other than an event has a word. -/
def Obligations.EncodeDecode : Prop :=
  (∀ (i : Instr) (w : Word32), i.wf = true → encode i = some w → decode w = .ok i) ∧
    ∀ i : Instr, i.wf = true → Claims.noWord i = false → ∃ w, encode i = some w

/-- R55, R71 and R77: a word that decodes is the word of the instruction it decodes to, and that instruction is well formed:
no bit of an accepted word is ignored, and no two words stand for one instruction. -/
def Obligations.DecodeEncode : Prop := ∀ (w : Word32) (i : Instr), decode w = .ok i → i.wf = true ∧ encode i = some w

/-- R77, and the words that the manual writes out (03_encoding.md, 05_core_instructions.md): each is the word of its
instruction, and a word of primary 0x00, 0x2B to 0x3B or 0x3F raises its cause in every state. -/
def Obligations.DecodeWords : Prop :=
  decode 0x112001E0#32 = .ok (.ori 9#5 0#5 0#2 0x1E0#14) ∧
    decode 0x485D3001#32 = .ok (.ld 2#5 29#5 0#2 1#11) ∧
    decode 0x5CA58E00#32 = .ok (.fadd 5#5 5#5 2#2 7#5 0#2 .f32) ∧
    decode 0x3061FFFD#32 = .ok (.bnez 3#5 0#2 0xFFFD#16) ∧
    decode 0x5464288A#32 = .ok (.amoadd 3#5 4#5 5#5 .relaxed .pkg .d) ∧
    decode 0x50C42080#32 = .ok (.lda 6#5 4#5 0#2 .w .pkg) ∧
    decode 0x24800006#32 = .ok (.lui 4#5 6#21) ∧
    decode 0x28A00004#32 = .ok (.adpc 5#5 4#21) ∧
    decode 0x38000010#32 = .ok (.jal 16#26) ∧
    decode 0x37FFFFFC#32 = .ok (.jmp 0x3FFFFFC#26) ∧
    decode 0x04810406#32 = .ok (.div 4#5 1#5 0#2 2#5 0#2) ∧
    decode 0x439CA005#32 = .ok (.movd 7#5 5#5 5#3) ∧
    ∀ (s : State) (w : Word32),
      let t := { s with core := { s.core with word := w } }
      (w = 0#32 → s.issueWord w = t.trapWord 0x040#10) ∧
      (w.toNat / 2 ^ 26 = 0x00 → w ≠ 0#32 → s.issueWord w = t.trapWord 0x041#10) ∧
      (0x2B ≤ w.toNat / 2 ^ 26 → w.toNat / 2 ^ 26 ≤ 0x3B → s.issueWord w = t.trapWord 0x042#10) ∧
      (w.toNat / 2 ^ 26 = 0x3F → s.issueWord w = t.trapWord 0x043#10)

/-- R21, R22, R55 and R243: on its turn a core that issues fetches the word at its PC, and its step is the meaning of the
instruction that the word decodes to, in the state that the fetch leaves, with the word in issue recorded; where iterations
younger than its current one have begun, those that the instruction upsets are then cancelled. A word in the own scratchpad,
with none held and no loop active, is the four bytes there, and its fetch changes nothing. -/
def Obligations.StepRunsDecoded : Prop :=
  ∀ (s : State) (l : List Turn) (i : Instr), Claims.TurnOf s l → Claims.Issues s →
    let u := { s with agenda := l }
    (∀ w t, u.fetchAt s.core.pc.toNat = .word w t → decode w = .ok i →
      let v := { t with core := { t.core with word := w } }
      step s = onNext u.keepYoung (exec i v) ∧ (s.core.young = [] → step s = exec i v)) ∧
    (s.core.young = [] → s.core.pc.toNat / 2 ^ 56 = 15 → s.core.pc.toNat % 2 ^ 56 + 4 ≤ s.core.scratchSize →
      s.core.pc.toNat % 2 ^ 56 + 4 ≤ 2 ^ 19 →
      s.core.fbuf = [] → s.core.lbuf = [] → s.core.loops = [] → s.core.wp = [] → s.poisoned = [] →
      let w : Word32 := BitVec.ofNat 32 (memRead s.mem (scratchKey s.cur (s.core.pc.toNat % 2 ^ 56)) 4)
      decode w = .ok i → step s = exec i { u with core := { s.core with word := w } })

/-- The commands on a slot that execute at once, and CSTAT; and where a queued command goes on (R137 to R139, R182, R187 to
R191). -/
def Obligations.SlotCommands : Prop := Claims.SlotCommands ∧ Claims.CarryStatus ∧ Claims.MatrixCompletes

/-- The instructions that write masks: vector compares and mask operations. -/
def Obligations.MasksAndCompares : Prop := Claims.VectorCompares ∧ Claims.MaskResults

/-- The GANG group: collectives, and FUSE and SPLIT. -/
def Obligations.GangInstructions : Prop := Claims.Collectives ∧ Claims.FuseAndSplit

/-- Loads and stores whose bytes lie outside the own scratchpad: one request leaves, a load's answer is still to come, and of
the stores one to another core's scratchpad has its journal entry. -/
def Obligations.RemoteAccesses : Prop := Claims.LoadsSendRequests ∧ Claims.PostedStores ∧ Claims.StoresSendRequests
end

