-- ==== Sys2Proof/Laws/Encoding.lean ====
section
/-! SUPPORT. The fields of a packed word: each reads back as the value that was put there, and a bit that no field covers
reads as zero (R53, R56). -/

namespace Sys2Proof.Laws

/-- The value at bits lo to lo + len - 1 of a packed word with the fields of the list, highest first. -/
def fieldAt : List (Nat × Nat) → Nat → Nat → Nat
  | (p, v) :: l, lo, len =>
    bif Nat.ble (lo + len) p then fieldAt l lo len else bif Nat.beq p lo then v else 0
  | [], _, _ => 0

/-- The fields lie below bit b, each above the next, and each value fits. -/
def Fits : List Nat → List (Nat × Nat) → Nat → Prop
  | [], [], _ => True
  | n :: ns, (p, v) :: l, b => p + n ≤ b ∧ v < 2 ^ n ∧ Fits ns l p
  | _, _, _ => False

/-- No field of the list lies across the bits lo to lo + len - 1. -/
def clear : List Nat → List (Nat × Nat) → Nat → Nat → Bool
  | n :: ns, (p, _) :: l, lo, len =>
    bif Nat.ble (lo + len) p then clear ns l lo len else Nat.beq p lo && Nat.ble n len || Nat.ble (p + n) lo
  | _, _, _, _ => true

def total (l : List (Nat × Nat)) : Nat := l.foldr (fun f acc => f.2 * 2 ^ f.1 + acc) 0

theorem total_lt {ns : List Nat} {l : List (Nat × Nat)} {b : Nat} (h : Fits ns l b) : total l < 2 ^ b := by
  induction ns, l, b using Fits.induct with
  | case1 b => exact Nat.two_pow_pos b
  | case2 n ns p v l b ih =>
    obtain ⟨hb, hv, hl⟩ := h
    have h1 := ih hl
    have h2 : v * 2 ^ p + 2 ^ p ≤ 2 ^ (p + n) := by
      rw [Nat.pow_add, Nat.mul_comm (2 ^ p), ← Nat.succ_mul]
      exact Nat.mul_le_mul_right _ hv
    have h3 : (2 : Nat) ^ (p + n) ≤ 2 ^ b := Nat.pow_le_pow_right (by decide) hb
    show v * 2 ^ p + total l < 2 ^ b
    omega
  | case3 => simp_all [Fits]

theorem total_field {ns : List Nat} {l : List (Nat × Nat)} {b : Nat} (h : Fits ns l b) {lo len : Nat}
    (hc : clear ns l lo len = true) : total l / 2 ^ lo % 2 ^ len = fieldAt l lo len := by
  induction ns, l, b using Fits.induct with
  | case1 b => simp [total, fieldAt]
  | case2 n ns p v l b ih =>
    obtain ⟨hb, hv, hl⟩ := h
    have h1 := total_lt hl
    show (v * 2 ^ p + total l) / 2 ^ lo % 2 ^ len = _
    unfold fieldAt
    unfold clear at hc
    rcases Nat.lt_or_ge p (lo + len) with hp | hp
    · have hp' : Nat.ble (lo + len) p = false := by
        rw [← Bool.not_eq_true, Nat.ble_eq]
        omega
      rw [hp'] at hc ⊢
      simp only [cond_false, Bool.or_eq_true, Bool.and_eq_true, Nat.beq_eq, Nat.ble_eq] at hc
      by_cases hq : p = lo
      · subst hq
        have hn : n ≤ len := by omega
        rw [cond_false, Nat.beq_refl, cond_true, Nat.mul_comm, Nat.mul_add_div (Nat.two_pow_pos p), Nat.div_eq_of_lt h1,
          Nat.add_zero]
        exact Nat.mod_eq_of_lt (lt_of_lt_of_le hv (Nat.pow_le_pow_right (by decide) hn))
      · have hr : p + n ≤ lo := by omega
        have hq' : Nat.beq p lo = false := by rw [← Bool.not_eq_true, Nat.beq_eq]; exact hq
        rw [cond_false, hq', cond_false]
        have h2 : v * 2 ^ p + total l < 2 ^ lo := total_lt (ns := n :: ns) (l := (p, v) :: l) ⟨hr, hv, hl⟩
        rw [Nat.div_eq_of_lt h2, Nat.zero_mod]
    · have hp' : Nat.ble (lo + len) p = true := by rw [Nat.ble_eq]; exact hp
      rw [hp'] at hc ⊢
      rw [cond_true, ← ih hl hc]
      obtain ⟨k, rfl⟩ := Nat.le.dest hp
      rw [show v * 2 ^ (lo + len + k) + total l = total l + 2 ^ lo * (2 ^ len * (v * 2 ^ k)) by ring,
        Nat.add_mul_div_left _ _ (Nat.two_pow_pos lo), Nat.add_mul_mod_self_left]
  | case3 => simp_all [Fits]

/-- A field of a packed word. -/
theorem bits_pack {ns : List Nat} {l : List (Nat × Nat)} (h : Fits ns l 32) (lo len : Nat)
    (hc : clear ns l lo len = true) : bits (pack l) lo len = BitVec.ofNat len (fieldAt l lo len) := by
  apply BitVec.eq_of_toNat_eq
  have h1 : (pack l).toNat = total l := by
    simp only [pack, BitVec.toNat_ofNat]
    exact Nat.mod_eq_of_lt (total_lt h)
  rw [bits, h1, BitVec.toNat_ofNat, BitVec.toNat_ofNat, ← total_field h hc, Nat.mod_mod]

theorem ofNat_toNat {n : Nat} (v : BitVec n) : BitVec.ofNat n v.toNat = v := by
  rw [BitVec.ofNat_toNat, BitVec.setWidth_eq]


theorem bits_of {w : Word32} {ns : List Nat} {l : List (Nat × Nat)} (he : pack l = w) (h : Fits ns l 32) (lo len : Nat)
    (hc : clear ns l lo len = true) : bits w lo len = BitVec.ofNat len (fieldAt l lo len) := by
  rw [← he]
  exact bits_pack h lo len hc
theorem size_ofBits_bits (s : Size) : Size.ofBits s.bits = s := by cases s <;> rfl
theorem order_ofBits_bits (s : Order) : Order.ofBits s.bits = s := by cases s <;> rfl
theorem wide_ofBits_bits (s : Wide) : Wide.ofBits s.bits = s := by cases s <;> rfl
theorem prec_ofBits_bits (s : Prec) : Prec.ofBits s.bits = s := by cases s <;> rfl
theorem intTy_ofBits_bits (s : IntTy) : IntTy.ofBits s.bits = s := by cases s <;> rfl
theorem scope_ofBits_bits (s : Scope) : Scope.ofBits? s.bits = some s := by cases s <;> rfl
theorem fltTy_ofBits_bits (s : FltTy) : FltTy.ofBits? s.bits = some s := by cases s <;> rfl

end Sys2Proof.Laws
end

