-- ==== Sys2Proof/Laws/Memory.lean ====
section
/-! SUPPORT. Memory: a read after a write, and the canonical form under every memory operation. -/

namespace Sys2Proof.Machine

/-! ## Reads after writes -/

theorem memByte_memInsert (a c : Nat) (b : Byte) (m : List Host.Cell) :
    memByte (memInsert a b m) c = if c = a then b else memByte m c := by
  induction m with
  | nil =>
    show (if a = c then b else unlisted) = _
    simp only [eq_comm (a := a), memByte]
  | cons x m ih =>
    obtain ⟨k, v⟩ := x
    unfold memInsert
    split
    · show (if a = c then b else memByte ((k, v) :: m) c) = _
      simp only [eq_comm (a := a)]
    · split
      · rename_i h
        subst h
        show (if a = c then b else memByte m c) = if c = a then b else if a = c then v else memByte m c
        by_cases hc : c = a
        · rw [if_pos hc, if_pos hc.symm]
        · rw [if_neg hc, if_neg (Ne.symm hc), if_neg (Ne.symm hc)]
      · rename_i h1 h2
        show (if k = c then v else memByte (memInsert a b m) c) = if c = a then b else if k = c then v else memByte m c
        by_cases hk : k = c
        · subst hk
          rw [if_pos rfl, if_neg (Ne.symm h2), if_pos rfl]
        · rw [if_neg hk, if_neg hk, ih]

theorem memByte_filter_ne (a c : Nat) (m : List Host.Cell) :
    memByte (m.filter fun x => x.1 ≠ a) c = if c = a then unlisted else memByte m c := by
  induction m with
  | nil => simp [memByte]
  | cons x m ih =>
    obtain ⟨k, v⟩ := x
    by_cases hk : k = a
    · subst hk
      by_cases hc : c = k
      · simpa [List.filter_cons, hc] using ih
      · simpa [List.filter_cons, memByte, hc, eq_comm] using ih
    · by_cases hc : k = c
      · subst hc
        simp [hk, memByte]
      · simpa [List.filter_cons, hk, memByte, hc] using ih

/-- A byte read after one byte is written. -/
theorem memByte_memSet (a c : Nat) (b : Byte) (m : List Host.Cell) :
    memByte (memSet a b m) c = if c = a then b else memByte m c := by
  unfold memSet
  split
  · rename_i h
    rw [memByte_filter_ne, h]
  · exact memByte_memInsert a c b m

/-- A byte outside a write reads as before. -/
theorem memByte_memWrite_of_outside (n : Nat) : ∀ (a v c : Nat) (m : List Host.Cell), c < a ∨ a + n ≤ c →
    memByte (memWrite m a v n) c = memByte m c := by
  induction n with
  | zero => intros; rfl
  | succ n ih =>
    intro a v c m h
    rw [memWrite, ih _ _ _ _ (by omega), memByte_memSet, if_neg (by omega)]

/-- Byte i of a write. -/
theorem memByte_memWrite_inside (n : Nat) : ∀ (a v i : Nat) (m : List Host.Cell), i < n →
    memByte (memWrite m a v n) (a + i) = BitVec.ofNat 8 (v / 256 ^ i) := by
  induction n with
  | zero => intro a v i m h; omega
  | succ n ih =>
    intro a v i m h
    rw [memWrite]
    cases i with
    | zero =>
      rw [memByte_memWrite_of_outside _ _ _ _ _ (by omega), memByte_memSet]
      simp
    | succ i =>
      rw [show a + (i + 1) = a + 1 + i by omega, ih _ _ _ _ (by omega), Nat.div_div_eq_div_mul, Nat.pow_succ']

/-- A read of what has just been written. -/
theorem memRead_memWrite_same (n : Nat) : ∀ (a v : Nat) (m : List Host.Cell),
    memRead (memWrite m a v n) a n = v % 256 ^ n := by
  induction n with
  | zero => intro a v m; simp [memRead, Nat.mod_one]
  | succ n ih =>
    intro a v m
    have h : memByte (memWrite m a v (n + 1)) a = BitVec.ofNat 8 v := by
      have := memByte_memWrite_inside (n + 1) a v 0 m (by omega)
      simpa using this
    rw [memRead, h, memWrite, ih, Nat.pow_succ', Nat.mod_mul]
    simp

theorem memRead_congr (n : Nat) : ∀ (a : Nat) (m m' : List Host.Cell), (∀ i < n, memByte m (a + i) = memByte m' (a + i)) →
    memRead m a n = memRead m' a n := by
  induction n with
  | zero => intros; rfl
  | succ n ih =>
    intro a m m' h
    have h0 := h 0 (by omega)
    rw [memRead, memRead, show memByte m a = memByte m' a from h0, ih (a + 1) m m' fun i hi => by
      have := h (i + 1) (by omega)
      rwa [show a + (i + 1) = a + 1 + i by omega] at this]

/-- A read that a write does not touch. -/
theorem memRead_memWrite_of_disjoint {a n b k : Nat} (v : Nat) (m : List Host.Cell) (h : b + k ≤ a ∨ a + n ≤ b) :
    memRead (memWrite m a v n) b k = memRead m b k :=
  memRead_congr k b _ _ fun i hi => memByte_memWrite_of_outside n a v (b + i) m (by omega)

theorem memByte_memWriteBytes_of_outside (l : List Byte) : ∀ (a c : Nat) (m : List Host.Cell), c < a ∨ a + l.length ≤ c →
    memByte (memWriteBytes m a l) c = memByte m c := by
  induction l with
  | nil => intros; rfl
  | cons b l ih =>
    intro a c m h
    simp only [List.length_cons] at h
    rw [memWriteBytes, ih _ _ _ (by omega), memByte_memSet, if_neg (by omega)]

theorem memByte_memWriteBytes_inside (l : List Byte) : ∀ (a i : Nat) (m : List Host.Cell), i < l.length →
    memByte (memWriteBytes m a l) (a + i) = l.getD i 0#8 := by
  induction l with
  | nil => intro a i m h; simp at h
  | cons b l ih =>
    intro a i m h
    rw [memWriteBytes]
    cases i with
    | zero =>
      rw [memByte_memWriteBytes_of_outside _ _ _ _ (by omega), memByte_memSet]
      simp
    | succ i =>
      rw [show a + (i + 1) = a + 1 + i by omega, ih _ _ _ (by simpa using h)]
      simp

/-! ## The canonical form -/

theorem wf_cons (k : Nat) (v : Byte) (m : List Host.Cell) :
    Memory.wf ((k, v) :: m) = true ↔ v ≠ unlisted ∧ (∀ c ∈ m, k < c.1) ∧ Memory.wf m = true := by
  simp only [Memory.wf, Bool.and_eq_true, decide_eq_true_eq, List.all_eq_true, and_assoc]

theorem wf_nil : Memory.wf [] = true := rfl

/-- A selection of cells keeps the form. -/
theorem wf_filter (p : Host.Cell → Bool) (m : List Host.Cell) (h : Memory.wf m = true) : Memory.wf (m.filter p) = true := by
  induction m with
  | nil => rfl
  | cons x m ih =>
    obtain ⟨k, v⟩ := x
    obtain ⟨hv, hk, hm⟩ := (wf_cons k v m).mp h
    rw [List.filter_cons]
    split
    · exact (wf_cons k v _).mpr ⟨hv, fun c hc => hk c (List.mem_of_mem_filter hc), ih hm⟩
    · exact ih hm

theorem mem_memInsert {a : Nat} {b : Byte} {m : List Host.Cell} {c : Host.Cell} (h : c ∈ memInsert a b m) :
    c = (a, b) ∨ c ∈ m := by
  induction m with
  | nil => simpa [memInsert] using h
  | cons x m ih =>
    obtain ⟨k, v⟩ := x
    unfold memInsert at h
    split at h
    · simpa using h
    · split at h
      · rcases List.mem_cons.mp h with h | h
        · exact .inl h
        · exact .inr (List.mem_cons_of_mem _ h)
      · rcases List.mem_cons.mp h with h | h
        · exact .inr (h ▸ List.mem_cons_self ..)
        · exact (ih h).imp_right (List.mem_cons_of_mem _)

theorem wf_memInsert (a : Nat) (b : Byte) (hb : b ≠ unlisted) (m : List Host.Cell) (h : Memory.wf m = true) :
    Memory.wf (memInsert a b m) = true := by
  induction m with
  | nil => exact (wf_cons a b []).mpr ⟨hb, by simp, rfl⟩
  | cons x m ih =>
    obtain ⟨k, v⟩ := x
    obtain ⟨hv, hk, hm⟩ := (wf_cons k v m).mp h
    unfold memInsert
    split
    · rename_i hlt
      refine (wf_cons a b _).mpr ⟨hb, fun c hc => ?_, h⟩
      rcases List.mem_cons.mp hc with rfl | hc
      · exact hlt
      · exact Nat.lt_trans hlt (hk c hc)
    · split
      · rename_i he
        exact (wf_cons a b m).mpr ⟨hb, he ▸ hk, hm⟩
      · refine (wf_cons k v _).mpr ⟨hv, fun c hc => ?_, ih hm⟩
        rcases mem_memInsert hc with rfl | hc
        · show k < a
          omega
        · exact hk c hc

/-- A write of one byte keeps the form. -/
theorem wf_memSet (a : Nat) (b : Byte) (m : List Host.Cell) (h : Memory.wf m = true) : Memory.wf (memSet a b m) = true := by
  unfold memSet
  split
  · exact wf_filter _ m h
  · rename_i hb
    exact wf_memInsert a b hb m h

theorem wf_memWrite (n : Nat) : ∀ (m : List Host.Cell) (a v : Nat), Memory.wf m = true → Memory.wf (memWrite m a v n) = true := by
  induction n with
  | zero => intro m a v h; exact h
  | succ n ih => intro m a v h; exact ih _ _ _ (wf_memSet _ _ _ h)

theorem wf_memWriteBytes (l : List Byte) : ∀ (m : List Host.Cell) (a : Nat), Memory.wf m = true →
    Memory.wf (memWriteBytes m a l) = true := by
  induction l with
  | nil => intro m a h; exact h
  | cons b l ih => intro m a h; exact ih _ _ (wf_memSet _ _ _ h)

/-- Two memories in the canonical form that read alike are the same memory. -/
theorem wf_ext : ∀ (m m' : List Host.Cell), Memory.wf m = true → Memory.wf m' = true →
    (∀ a, memByte m a = memByte m' a) → m = m' := by
  have low (k : Nat) (v : Byte) (m : List Host.Cell) (h : Memory.wf ((k, v) :: m) = true) (a : Nat) (ha : a < k) :
      memByte ((k, v) :: m) a = unlisted := by
    have aux : ∀ l : List Host.Cell, (∀ c ∈ l, a < c.1) → memByte l a = unlisted := by
      intro l
      induction l with
      | nil => intro _; rfl
      | cons x l ih =>
        intro hl
        have hx : a < x.1 := hl x (List.mem_cons_self ..)
        show (if x.1 = a then x.2 else memByte l a) = unlisted
        rw [if_neg (by omega)]
        exact ih fun c hc => hl c (List.mem_cons_of_mem _ hc)
    refine aux _ fun c hc => ?_
    rcases List.mem_cons.mp hc with rfl | hc
    · exact ha
    · exact Nat.lt_trans ha (((wf_cons k v m).mp h).2.1 c hc)
  intro m
  induction m with
  | nil =>
    intro m' _ h' he
    cases m' with
    | nil => rfl
    | cons x m' =>
      have := he x.1
      rw [show memByte (x :: m') x.1 = x.2 from if_pos rfl] at this
      exact absurd this.symm ((wf_cons x.1 x.2 m').mp h').1
  | cons x m ih =>
    obtain ⟨k, v⟩ := x
    intro m' h h' he
    cases m' with
    | nil =>
      have := he k
      rw [show memByte ((k, v) :: m) k = v from if_pos rfl] at this
      exact absurd this ((wf_cons k v m).mp h).1
    | cons y m' =>
      obtain ⟨k', v'⟩ := y
      have hv := ((wf_cons k v m).mp h).1
      have hv' := ((wf_cons k' v' m').mp h').1
      have h1 := he k
      have h2 := he k'
      rw [show memByte ((k, v) :: m) k = v from if_pos rfl] at h1
      rw [show memByte ((k', v') :: m') k' = v' from if_pos rfl] at h2
      rcases Nat.lt_trichotomy k k' with hlt | rfl | hlt
      · rw [low k' v' m' h' k hlt] at h1
        exact absurd h1 hv
      · rw [show memByte ((k, v') :: m') k = v' from if_pos rfl] at h1
        subst h1
        congr 1
        refine ih m' ((wf_cons ..).mp h).2.2 ((wf_cons ..).mp h').2.2 fun a => ?_
        have h3 := he a
        by_cases ha : k = a
        · subst ha
          have z (l : List Host.Cell) (hl : ∀ c ∈ l, k < c.1) : memByte l k = unlisted := by
            clear ih h3
            induction l with
            | nil => rfl
            | cons x l il =>
              have hx : k < x.1 := hl x (List.mem_cons_self ..)
              show (if x.1 = k then x.2 else memByte l k) = unlisted
              rw [if_neg (by omega)]
              exact il fun c hc => hl c (List.mem_cons_of_mem _ hc)
          rw [z m ((wf_cons ..).mp h).2.1, z m' ((wf_cons ..).mp h').2.1]
        · simpa [memByte, ha] using h3
      · rw [low k v m h k' hlt] at h2
        exact absurd h2.symm hv'

/-! ## Tables -/

@[simp] theorem tfind_tset_same {α : Type} (k : Nat) (v : α) (t : Tab α) : tfind k (tset k v t) = some v := if_pos rfl

theorem tfind_terase_of_ne {α : Type} {k j : Nat} (h : k ≠ j) (t : Tab α) : tfind k (terase j t) = tfind k t := by
  induction t with
  | nil => rfl
  | cons x t ih =>
    obtain ⟨i, v⟩ := x
    unfold terase at ih ⊢
    rw [List.filter_cons]
    split
    · show (if i = k then some v else tfind k (t.filter _)) = if i = k then some v else tfind k t
      rw [ih]
    · rename_i hi
      have : i = j := by simpa using hi
      subst this
      simpa [tfind, Ne.symm h] using ih

theorem tfind_terase_same {α : Type} (k : Nat) (t : Tab α) : tfind k (terase k t) = none := by
  induction t with
  | nil => rfl
  | cons x t ih =>
    obtain ⟨i, v⟩ := x
    unfold terase at ih ⊢
    rw [List.filter_cons]
    split
    · rename_i hi
      have : i ≠ k := by simpa using hi
      simpa [tfind, this] using ih
    · exact ih

theorem tfind_tset_of_ne {α : Type} {k j : Nat} (h : k ≠ j) (v : α) (t : Tab α) : tfind k (tset j v t) = tfind k t := by
  unfold tset
  rw [tfind, if_neg (Ne.symm h), tfind_terase_of_ne h]

@[simp] theorem tget_tset_same {α : Type} (k : Nat) (v d : α) (t : Tab α) : tget k (tset k v t) d = v := by
  rw [tget, tfind_tset_same, Option.getD_some]

theorem tget_tset_of_ne {α : Type} {k j : Nat} (h : k ≠ j) (v d : α) (t : Tab α) : tget k (tset j v t) d = tget k t d := by
  rw [tget, tget, tfind_tset_of_ne h]

end Sys2Proof.Machine
end

