-- ==== Sys2Proof/Laws/State.lean ====
section
/-! SUPPORT. The fields of a state and of a core after each update: one lemma per field per update. -/

namespace Sys2Proof.Machine

/-! ## Updates of the state -/

@[simp] theorem State.upd_core (s : State) (f : Core → Core) : (s.upd f).core = f s.core := rfl
@[simp] theorem State.upd_cur (s : State) (f : Core → Core) : (s.upd f).cur = s.cur := rfl
@[simp] theorem State.upd_others (s : State) (f : Core → Core) : (s.upd f).others = s.others := rfl
@[simp] theorem State.upd_clusters (s : State) (f : Core → Core) : (s.upd f).clusters = s.clusters := rfl
@[simp] theorem State.upd_mem (s : State) (f : Core → Core) : (s.upd f).mem = s.mem := rfl
@[simp] theorem State.upd_poisoned (s : State) (f : Core → Core) : (s.upd f).poisoned = s.poisoned := rfl
@[simp] theorem State.upd_sliceBad (s : State) (f : Core → Core) : (s.upd f).sliceBad = s.sliceBad := rfl
@[simp] theorem State.upd_charges (s : State) (f : Core → Core) : (s.upd f).charges = s.charges := rfl
@[simp] theorem State.upd_flight (s : State) (f : Core → Core) : (s.upd f).flight = s.flight := rfl
@[simp] theorem State.upd_answers (s : State) (f : Core → Core) : (s.upd f).answers = s.answers := rfl
@[simp] theorem State.upd_rows (s : State) (f : Core → Core) : (s.upd f).rows = s.rows := rfl
@[simp] theorem State.upd_shootdowns (s : State) (f : Core → Core) : (s.upd f).shootdowns = s.shootdowns := rfl
@[simp] theorem State.upd_hostq (s : State) (f : Core → Core) : (s.upd f).hostq = s.hostq := rfl
@[simp] theorem State.upd_posted (s : State) (f : Core → Core) : (s.upd f).posted = s.posted := rfl
@[simp] theorem State.upd_queues (s : State) (f : Core → Core) : (s.upd f).queues = s.queues := rfl
@[simp] theorem State.upd_cards (s : State) (f : Core → Core) : (s.upd f).cards = s.cards := rfl
@[simp] theorem State.upd_nextCard (s : State) (f : Core → Core) : (s.upd f).nextCard = s.nextCard := rfl
@[simp] theorem State.upd_deficits (s : State) (f : Core → Core) : (s.upd f).deficits = s.deficits := rfl
@[simp] theorem State.upd_turns (s : State) (f : Core → Core) : (s.upd f).turns = s.turns := rfl
@[simp] theorem State.upd_weights (s : State) (f : Core → Core) : (s.upd f).weights = s.weights := rfl
@[simp] theorem State.upd_waiters (s : State) (f : Core → Core) : (s.upd f).waiters = s.waiters := rfl
@[simp] theorem State.upd_forecast (s : State) (f : Core → Core) : (s.upd f).forecast = s.forecast := rfl
@[simp] theorem State.upd_contexts (s : State) (f : Core → Core) : (s.upd f).contexts = s.contexts := rfl
@[simp] theorem State.upd_saves (s : State) (f : Core → Core) : (s.upd f).saves = s.saves := rfl
@[simp] theorem State.upd_logs (s : State) (f : Core → Core) : (s.upd f).logs = s.logs := rfl
@[simp] theorem State.upd_logNotice (s : State) (f : Core → Core) : (s.upd f).logNotice = s.logNotice := rfl
@[simp] theorem State.upd_counters (s : State) (f : Core → Core) : (s.upd f).counters = s.counters := rfl
@[simp] theorem State.upd_folded (s : State) (f : Core → Core) : (s.upd f).folded = s.folded := rfl
@[simp] theorem State.upd_folds (s : State) (f : Core → Core) : (s.upd f).folds = s.folds := rfl
@[simp] theorem State.upd_foldTime (s : State) (f : Core → Core) : (s.upd f).foldTime = s.foldTime := rfl
@[simp] theorem State.upd_boundAgency (s : State) (f : Core → Core) : (s.upd f).boundAgency = s.boundAgency := rfl
@[simp] theorem State.upd_mr (s : State) (f : Core → Core) : (s.upd f).mr = s.mr := rfl
@[simp] theorem State.upd_keys (s : State) (f : Core → Core) : (s.upd f).keys = s.keys := rfl
@[simp] theorem State.upd_bootst (s : State) (f : Core → Core) : (s.upd f).bootst = s.bootst := rfl
@[simp] theorem State.upd_acc (s : State) (f : Core → Core) : (s.upd f).acc = s.acc := rfl
@[simp] theorem State.upd_accepted (s : State) (f : Core → Core) : (s.upd f).accepted = s.accepted := rfl
@[simp] theorem State.upd_clmap (s : State) (f : Core → Core) : (s.upd f).clmap = s.clmap := rfl
@[simp] theorem State.upd_stmap (s : State) (f : Core → Core) : (s.upd f).stmap = s.stmap := rfl
@[simp] theorem State.upd_lkmap (s : State) (f : Core → Core) : (s.upd f).lkmap = s.lkmap := rfl
@[simp] theorem State.upd_linksDown (s : State) (f : Core → Core) : (s.upd f).linksDown = s.linksDown := rfl
@[simp] theorem State.upd_fabid (s : State) (f : Core → Core) : (s.upd f).fabid = s.fabid := rfl
@[simp] theorem State.upd_hostDown (s : State) (f : Core → Core) : (s.upd f).hostDown = s.hostDown := rfl
@[simp] theorem State.upd_peers (s : State) (f : Core → Core) : (s.upd f).peers = s.peers := rfl
@[simp] theorem State.upd_capw (s : State) (f : Core → Core) : (s.upd f).capw = s.capw := rfl
@[simp] theorem State.upd_mhz (s : State) (f : Core → Core) : (s.upd f).mhz = s.mhz := rfl
@[simp] theorem State.upd_cmd (s : State) (f : Core → Core) : (s.upd f).cmd = s.cmd := rfl
@[simp] theorem State.upd_rsp (s : State) (f : Core → Core) : (s.upd f).rsp = s.rsp := rfl
@[simp] theorem State.upd_command (s : State) (f : Core → Core) : (s.upd f).command = s.command := rfl
@[simp] theorem State.upd_grants (s : State) (f : Core → Core) : (s.upd f).grants = s.grants := rfl
@[simp] theorem State.upd_microcode (s : State) (f : Core → Core) : (s.upd f).microcode = s.microcode := rfl
@[simp] theorem State.upd_dispatch (s : State) (f : Core → Core) : (s.upd f).dispatch = s.dispatch := rfl
@[simp] theorem State.upd_translator (s : State) (f : Core → Core) : (s.upd f).translator = s.translator := rfl
@[simp] theorem State.upd_wmin (s : State) (f : Core → Core) : (s.upd f).wmin = s.wmin := rfl
@[simp] theorem State.upd_wmax (s : State) (f : Core → Core) : (s.upd f).wmax = s.wmax := rfl
@[simp] theorem State.upd_build (s : State) (f : Core → Core) : (s.upd f).build = s.build := rfl
@[simp] theorem State.upd_svn (s : State) (f : Core → Core) : (s.upd f).svn = s.svn := rfl
@[simp] theorem State.upd_update (s : State) (f : Core → Core) : (s.upd f).update = s.update := rfl
@[simp] theorem State.upd_corrected (s : State) (f : Core → Core) : (s.upd f).corrected = s.corrected := rfl
@[simp] theorem State.upd_time (s : State) (f : Core → Core) : (s.upd f).time = s.time := rfl
@[simp] theorem State.upd_cycleRem (s : State) (f : Core → Core) : (s.upd f).cycleRem = s.cycleRem := rfl
@[simp] theorem State.upd_hostOut (s : State) (f : Core → Core) : (s.upd f).hostOut = s.hostOut := rfl
@[simp] theorem State.upd_agenda (s : State) (f : Core → Core) : (s.upd f).agenda = s.agenda := rfl
@[simp] theorem State.upd_fresh (s : State) (f : Core → Core) : (s.upd f).fresh = s.fresh := rfl

@[simp] theorem State.setS_core (s : State) (d : Reg) (x : Word) : (s.setS d x).core = s.core.writeS d x := rfl
@[simp] theorem State.setS_cur (s : State) (d : Reg) (x : Word) : (s.setS d x).cur = s.cur := rfl
@[simp] theorem State.setS_others (s : State) (d : Reg) (x : Word) : (s.setS d x).others = s.others := rfl
@[simp] theorem State.setS_clusters (s : State) (d : Reg) (x : Word) : (s.setS d x).clusters = s.clusters := rfl
@[simp] theorem State.setS_mem (s : State) (d : Reg) (x : Word) : (s.setS d x).mem = s.mem := rfl
@[simp] theorem State.setS_poisoned (s : State) (d : Reg) (x : Word) : (s.setS d x).poisoned = s.poisoned := rfl
@[simp] theorem State.setS_sliceBad (s : State) (d : Reg) (x : Word) : (s.setS d x).sliceBad = s.sliceBad := rfl
@[simp] theorem State.setS_charges (s : State) (d : Reg) (x : Word) : (s.setS d x).charges = s.charges := rfl
@[simp] theorem State.setS_flight (s : State) (d : Reg) (x : Word) : (s.setS d x).flight = s.flight := rfl
@[simp] theorem State.setS_answers (s : State) (d : Reg) (x : Word) : (s.setS d x).answers = s.answers := rfl
@[simp] theorem State.setS_rows (s : State) (d : Reg) (x : Word) : (s.setS d x).rows = s.rows := rfl
@[simp] theorem State.setS_shootdowns (s : State) (d : Reg) (x : Word) : (s.setS d x).shootdowns = s.shootdowns := rfl
@[simp] theorem State.setS_hostq (s : State) (d : Reg) (x : Word) : (s.setS d x).hostq = s.hostq := rfl
@[simp] theorem State.setS_posted (s : State) (d : Reg) (x : Word) : (s.setS d x).posted = s.posted := rfl
@[simp] theorem State.setS_queues (s : State) (d : Reg) (x : Word) : (s.setS d x).queues = s.queues := rfl
@[simp] theorem State.setS_cards (s : State) (d : Reg) (x : Word) : (s.setS d x).cards = s.cards := rfl
@[simp] theorem State.setS_nextCard (s : State) (d : Reg) (x : Word) : (s.setS d x).nextCard = s.nextCard := rfl
@[simp] theorem State.setS_deficits (s : State) (d : Reg) (x : Word) : (s.setS d x).deficits = s.deficits := rfl
@[simp] theorem State.setS_turns (s : State) (d : Reg) (x : Word) : (s.setS d x).turns = s.turns := rfl
@[simp] theorem State.setS_weights (s : State) (d : Reg) (x : Word) : (s.setS d x).weights = s.weights := rfl
@[simp] theorem State.setS_waiters (s : State) (d : Reg) (x : Word) : (s.setS d x).waiters = s.waiters := rfl
@[simp] theorem State.setS_forecast (s : State) (d : Reg) (x : Word) : (s.setS d x).forecast = s.forecast := rfl
@[simp] theorem State.setS_contexts (s : State) (d : Reg) (x : Word) : (s.setS d x).contexts = s.contexts := rfl
@[simp] theorem State.setS_saves (s : State) (d : Reg) (x : Word) : (s.setS d x).saves = s.saves := rfl
@[simp] theorem State.setS_logs (s : State) (d : Reg) (x : Word) : (s.setS d x).logs = s.logs := rfl
@[simp] theorem State.setS_logNotice (s : State) (d : Reg) (x : Word) : (s.setS d x).logNotice = s.logNotice := rfl
@[simp] theorem State.setS_counters (s : State) (d : Reg) (x : Word) : (s.setS d x).counters = s.counters := rfl
@[simp] theorem State.setS_folded (s : State) (d : Reg) (x : Word) : (s.setS d x).folded = s.folded := rfl
@[simp] theorem State.setS_folds (s : State) (d : Reg) (x : Word) : (s.setS d x).folds = s.folds := rfl
@[simp] theorem State.setS_foldTime (s : State) (d : Reg) (x : Word) : (s.setS d x).foldTime = s.foldTime := rfl
@[simp] theorem State.setS_boundAgency (s : State) (d : Reg) (x : Word) : (s.setS d x).boundAgency = s.boundAgency := rfl
@[simp] theorem State.setS_mr (s : State) (d : Reg) (x : Word) : (s.setS d x).mr = s.mr := rfl
@[simp] theorem State.setS_keys (s : State) (d : Reg) (x : Word) : (s.setS d x).keys = s.keys := rfl
@[simp] theorem State.setS_bootst (s : State) (d : Reg) (x : Word) : (s.setS d x).bootst = s.bootst := rfl
@[simp] theorem State.setS_acc (s : State) (d : Reg) (x : Word) : (s.setS d x).acc = s.acc := rfl
@[simp] theorem State.setS_accepted (s : State) (d : Reg) (x : Word) : (s.setS d x).accepted = s.accepted := rfl
@[simp] theorem State.setS_clmap (s : State) (d : Reg) (x : Word) : (s.setS d x).clmap = s.clmap := rfl
@[simp] theorem State.setS_stmap (s : State) (d : Reg) (x : Word) : (s.setS d x).stmap = s.stmap := rfl
@[simp] theorem State.setS_lkmap (s : State) (d : Reg) (x : Word) : (s.setS d x).lkmap = s.lkmap := rfl
@[simp] theorem State.setS_linksDown (s : State) (d : Reg) (x : Word) : (s.setS d x).linksDown = s.linksDown := rfl
@[simp] theorem State.setS_fabid (s : State) (d : Reg) (x : Word) : (s.setS d x).fabid = s.fabid := rfl
@[simp] theorem State.setS_hostDown (s : State) (d : Reg) (x : Word) : (s.setS d x).hostDown = s.hostDown := rfl
@[simp] theorem State.setS_peers (s : State) (d : Reg) (x : Word) : (s.setS d x).peers = s.peers := rfl
@[simp] theorem State.setS_capw (s : State) (d : Reg) (x : Word) : (s.setS d x).capw = s.capw := rfl
@[simp] theorem State.setS_mhz (s : State) (d : Reg) (x : Word) : (s.setS d x).mhz = s.mhz := rfl
@[simp] theorem State.setS_cmd (s : State) (d : Reg) (x : Word) : (s.setS d x).cmd = s.cmd := rfl
@[simp] theorem State.setS_rsp (s : State) (d : Reg) (x : Word) : (s.setS d x).rsp = s.rsp := rfl
@[simp] theorem State.setS_command (s : State) (d : Reg) (x : Word) : (s.setS d x).command = s.command := rfl
@[simp] theorem State.setS_grants (s : State) (d : Reg) (x : Word) : (s.setS d x).grants = s.grants := rfl
@[simp] theorem State.setS_microcode (s : State) (d : Reg) (x : Word) : (s.setS d x).microcode = s.microcode := rfl
@[simp] theorem State.setS_dispatch (s : State) (d : Reg) (x : Word) : (s.setS d x).dispatch = s.dispatch := rfl
@[simp] theorem State.setS_translator (s : State) (d : Reg) (x : Word) : (s.setS d x).translator = s.translator := rfl
@[simp] theorem State.setS_wmin (s : State) (d : Reg) (x : Word) : (s.setS d x).wmin = s.wmin := rfl
@[simp] theorem State.setS_wmax (s : State) (d : Reg) (x : Word) : (s.setS d x).wmax = s.wmax := rfl
@[simp] theorem State.setS_build (s : State) (d : Reg) (x : Word) : (s.setS d x).build = s.build := rfl
@[simp] theorem State.setS_svn (s : State) (d : Reg) (x : Word) : (s.setS d x).svn = s.svn := rfl
@[simp] theorem State.setS_update (s : State) (d : Reg) (x : Word) : (s.setS d x).update = s.update := rfl
@[simp] theorem State.setS_corrected (s : State) (d : Reg) (x : Word) : (s.setS d x).corrected = s.corrected := rfl
@[simp] theorem State.setS_time (s : State) (d : Reg) (x : Word) : (s.setS d x).time = s.time := rfl
@[simp] theorem State.setS_cycleRem (s : State) (d : Reg) (x : Word) : (s.setS d x).cycleRem = s.cycleRem := rfl
@[simp] theorem State.setS_hostOut (s : State) (d : Reg) (x : Word) : (s.setS d x).hostOut = s.hostOut := rfl
@[simp] theorem State.setS_agenda (s : State) (d : Reg) (x : Word) : (s.setS d x).agenda = s.agenda := rfl
@[simp] theorem State.setS_fresh (s : State) (d : Reg) (x : Word) : (s.setS d x).fresh = s.fresh := rfl

@[simp] theorem State.setV_core (s : State) (d : Reg) (x : Vec) : (s.setV d x).core = s.core.writeV d x := rfl
@[simp] theorem State.setV_cur (s : State) (d : Reg) (x : Vec) : (s.setV d x).cur = s.cur := rfl
@[simp] theorem State.setV_others (s : State) (d : Reg) (x : Vec) : (s.setV d x).others = s.others := rfl
@[simp] theorem State.setV_clusters (s : State) (d : Reg) (x : Vec) : (s.setV d x).clusters = s.clusters := rfl
@[simp] theorem State.setV_mem (s : State) (d : Reg) (x : Vec) : (s.setV d x).mem = s.mem := rfl
@[simp] theorem State.setV_poisoned (s : State) (d : Reg) (x : Vec) : (s.setV d x).poisoned = s.poisoned := rfl
@[simp] theorem State.setV_sliceBad (s : State) (d : Reg) (x : Vec) : (s.setV d x).sliceBad = s.sliceBad := rfl
@[simp] theorem State.setV_charges (s : State) (d : Reg) (x : Vec) : (s.setV d x).charges = s.charges := rfl
@[simp] theorem State.setV_flight (s : State) (d : Reg) (x : Vec) : (s.setV d x).flight = s.flight := rfl
@[simp] theorem State.setV_answers (s : State) (d : Reg) (x : Vec) : (s.setV d x).answers = s.answers := rfl
@[simp] theorem State.setV_rows (s : State) (d : Reg) (x : Vec) : (s.setV d x).rows = s.rows := rfl
@[simp] theorem State.setV_shootdowns (s : State) (d : Reg) (x : Vec) : (s.setV d x).shootdowns = s.shootdowns := rfl
@[simp] theorem State.setV_hostq (s : State) (d : Reg) (x : Vec) : (s.setV d x).hostq = s.hostq := rfl
@[simp] theorem State.setV_posted (s : State) (d : Reg) (x : Vec) : (s.setV d x).posted = s.posted := rfl
@[simp] theorem State.setV_queues (s : State) (d : Reg) (x : Vec) : (s.setV d x).queues = s.queues := rfl
@[simp] theorem State.setV_cards (s : State) (d : Reg) (x : Vec) : (s.setV d x).cards = s.cards := rfl
@[simp] theorem State.setV_nextCard (s : State) (d : Reg) (x : Vec) : (s.setV d x).nextCard = s.nextCard := rfl
@[simp] theorem State.setV_deficits (s : State) (d : Reg) (x : Vec) : (s.setV d x).deficits = s.deficits := rfl
@[simp] theorem State.setV_turns (s : State) (d : Reg) (x : Vec) : (s.setV d x).turns = s.turns := rfl
@[simp] theorem State.setV_weights (s : State) (d : Reg) (x : Vec) : (s.setV d x).weights = s.weights := rfl
@[simp] theorem State.setV_waiters (s : State) (d : Reg) (x : Vec) : (s.setV d x).waiters = s.waiters := rfl
@[simp] theorem State.setV_forecast (s : State) (d : Reg) (x : Vec) : (s.setV d x).forecast = s.forecast := rfl
@[simp] theorem State.setV_contexts (s : State) (d : Reg) (x : Vec) : (s.setV d x).contexts = s.contexts := rfl
@[simp] theorem State.setV_saves (s : State) (d : Reg) (x : Vec) : (s.setV d x).saves = s.saves := rfl
@[simp] theorem State.setV_logs (s : State) (d : Reg) (x : Vec) : (s.setV d x).logs = s.logs := rfl
@[simp] theorem State.setV_logNotice (s : State) (d : Reg) (x : Vec) : (s.setV d x).logNotice = s.logNotice := rfl
@[simp] theorem State.setV_counters (s : State) (d : Reg) (x : Vec) : (s.setV d x).counters = s.counters := rfl
@[simp] theorem State.setV_folded (s : State) (d : Reg) (x : Vec) : (s.setV d x).folded = s.folded := rfl
@[simp] theorem State.setV_folds (s : State) (d : Reg) (x : Vec) : (s.setV d x).folds = s.folds := rfl
@[simp] theorem State.setV_foldTime (s : State) (d : Reg) (x : Vec) : (s.setV d x).foldTime = s.foldTime := rfl
@[simp] theorem State.setV_boundAgency (s : State) (d : Reg) (x : Vec) : (s.setV d x).boundAgency = s.boundAgency := rfl
@[simp] theorem State.setV_mr (s : State) (d : Reg) (x : Vec) : (s.setV d x).mr = s.mr := rfl
@[simp] theorem State.setV_keys (s : State) (d : Reg) (x : Vec) : (s.setV d x).keys = s.keys := rfl
@[simp] theorem State.setV_bootst (s : State) (d : Reg) (x : Vec) : (s.setV d x).bootst = s.bootst := rfl
@[simp] theorem State.setV_acc (s : State) (d : Reg) (x : Vec) : (s.setV d x).acc = s.acc := rfl
@[simp] theorem State.setV_accepted (s : State) (d : Reg) (x : Vec) : (s.setV d x).accepted = s.accepted := rfl
@[simp] theorem State.setV_clmap (s : State) (d : Reg) (x : Vec) : (s.setV d x).clmap = s.clmap := rfl
@[simp] theorem State.setV_stmap (s : State) (d : Reg) (x : Vec) : (s.setV d x).stmap = s.stmap := rfl
@[simp] theorem State.setV_lkmap (s : State) (d : Reg) (x : Vec) : (s.setV d x).lkmap = s.lkmap := rfl
@[simp] theorem State.setV_linksDown (s : State) (d : Reg) (x : Vec) : (s.setV d x).linksDown = s.linksDown := rfl
@[simp] theorem State.setV_fabid (s : State) (d : Reg) (x : Vec) : (s.setV d x).fabid = s.fabid := rfl
@[simp] theorem State.setV_hostDown (s : State) (d : Reg) (x : Vec) : (s.setV d x).hostDown = s.hostDown := rfl
@[simp] theorem State.setV_peers (s : State) (d : Reg) (x : Vec) : (s.setV d x).peers = s.peers := rfl
@[simp] theorem State.setV_capw (s : State) (d : Reg) (x : Vec) : (s.setV d x).capw = s.capw := rfl
@[simp] theorem State.setV_mhz (s : State) (d : Reg) (x : Vec) : (s.setV d x).mhz = s.mhz := rfl
@[simp] theorem State.setV_cmd (s : State) (d : Reg) (x : Vec) : (s.setV d x).cmd = s.cmd := rfl
@[simp] theorem State.setV_rsp (s : State) (d : Reg) (x : Vec) : (s.setV d x).rsp = s.rsp := rfl
@[simp] theorem State.setV_command (s : State) (d : Reg) (x : Vec) : (s.setV d x).command = s.command := rfl
@[simp] theorem State.setV_grants (s : State) (d : Reg) (x : Vec) : (s.setV d x).grants = s.grants := rfl
@[simp] theorem State.setV_microcode (s : State) (d : Reg) (x : Vec) : (s.setV d x).microcode = s.microcode := rfl
@[simp] theorem State.setV_dispatch (s : State) (d : Reg) (x : Vec) : (s.setV d x).dispatch = s.dispatch := rfl
@[simp] theorem State.setV_translator (s : State) (d : Reg) (x : Vec) : (s.setV d x).translator = s.translator := rfl
@[simp] theorem State.setV_wmin (s : State) (d : Reg) (x : Vec) : (s.setV d x).wmin = s.wmin := rfl
@[simp] theorem State.setV_wmax (s : State) (d : Reg) (x : Vec) : (s.setV d x).wmax = s.wmax := rfl
@[simp] theorem State.setV_build (s : State) (d : Reg) (x : Vec) : (s.setV d x).build = s.build := rfl
@[simp] theorem State.setV_svn (s : State) (d : Reg) (x : Vec) : (s.setV d x).svn = s.svn := rfl
@[simp] theorem State.setV_update (s : State) (d : Reg) (x : Vec) : (s.setV d x).update = s.update := rfl
@[simp] theorem State.setV_corrected (s : State) (d : Reg) (x : Vec) : (s.setV d x).corrected = s.corrected := rfl
@[simp] theorem State.setV_time (s : State) (d : Reg) (x : Vec) : (s.setV d x).time = s.time := rfl
@[simp] theorem State.setV_cycleRem (s : State) (d : Reg) (x : Vec) : (s.setV d x).cycleRem = s.cycleRem := rfl
@[simp] theorem State.setV_hostOut (s : State) (d : Reg) (x : Vec) : (s.setV d x).hostOut = s.hostOut := rfl
@[simp] theorem State.setV_agenda (s : State) (d : Reg) (x : Vec) : (s.setV d x).agenda = s.agenda := rfl
@[simp] theorem State.setV_fresh (s : State) (d : Reg) (x : Vec) : (s.setV d x).fresh = s.fresh := rfl

@[simp] theorem State.setK_core (s : State) (d : KReg) (x : Word) : (s.setK d x).core = s.core.setMask d x := rfl
@[simp] theorem State.setK_cur (s : State) (d : KReg) (x : Word) : (s.setK d x).cur = s.cur := rfl
@[simp] theorem State.setK_others (s : State) (d : KReg) (x : Word) : (s.setK d x).others = s.others := rfl
@[simp] theorem State.setK_clusters (s : State) (d : KReg) (x : Word) : (s.setK d x).clusters = s.clusters := rfl
@[simp] theorem State.setK_mem (s : State) (d : KReg) (x : Word) : (s.setK d x).mem = s.mem := rfl
@[simp] theorem State.setK_poisoned (s : State) (d : KReg) (x : Word) : (s.setK d x).poisoned = s.poisoned := rfl
@[simp] theorem State.setK_sliceBad (s : State) (d : KReg) (x : Word) : (s.setK d x).sliceBad = s.sliceBad := rfl
@[simp] theorem State.setK_charges (s : State) (d : KReg) (x : Word) : (s.setK d x).charges = s.charges := rfl
@[simp] theorem State.setK_flight (s : State) (d : KReg) (x : Word) : (s.setK d x).flight = s.flight := rfl
@[simp] theorem State.setK_answers (s : State) (d : KReg) (x : Word) : (s.setK d x).answers = s.answers := rfl
@[simp] theorem State.setK_rows (s : State) (d : KReg) (x : Word) : (s.setK d x).rows = s.rows := rfl
@[simp] theorem State.setK_shootdowns (s : State) (d : KReg) (x : Word) : (s.setK d x).shootdowns = s.shootdowns := rfl
@[simp] theorem State.setK_hostq (s : State) (d : KReg) (x : Word) : (s.setK d x).hostq = s.hostq := rfl
@[simp] theorem State.setK_posted (s : State) (d : KReg) (x : Word) : (s.setK d x).posted = s.posted := rfl
@[simp] theorem State.setK_queues (s : State) (d : KReg) (x : Word) : (s.setK d x).queues = s.queues := rfl
@[simp] theorem State.setK_cards (s : State) (d : KReg) (x : Word) : (s.setK d x).cards = s.cards := rfl
@[simp] theorem State.setK_nextCard (s : State) (d : KReg) (x : Word) : (s.setK d x).nextCard = s.nextCard := rfl
@[simp] theorem State.setK_deficits (s : State) (d : KReg) (x : Word) : (s.setK d x).deficits = s.deficits := rfl
@[simp] theorem State.setK_turns (s : State) (d : KReg) (x : Word) : (s.setK d x).turns = s.turns := rfl
@[simp] theorem State.setK_weights (s : State) (d : KReg) (x : Word) : (s.setK d x).weights = s.weights := rfl
@[simp] theorem State.setK_waiters (s : State) (d : KReg) (x : Word) : (s.setK d x).waiters = s.waiters := rfl
@[simp] theorem State.setK_forecast (s : State) (d : KReg) (x : Word) : (s.setK d x).forecast = s.forecast := rfl
@[simp] theorem State.setK_contexts (s : State) (d : KReg) (x : Word) : (s.setK d x).contexts = s.contexts := rfl
@[simp] theorem State.setK_saves (s : State) (d : KReg) (x : Word) : (s.setK d x).saves = s.saves := rfl
@[simp] theorem State.setK_logs (s : State) (d : KReg) (x : Word) : (s.setK d x).logs = s.logs := rfl
@[simp] theorem State.setK_logNotice (s : State) (d : KReg) (x : Word) : (s.setK d x).logNotice = s.logNotice := rfl
@[simp] theorem State.setK_counters (s : State) (d : KReg) (x : Word) : (s.setK d x).counters = s.counters := rfl
@[simp] theorem State.setK_folded (s : State) (d : KReg) (x : Word) : (s.setK d x).folded = s.folded := rfl
@[simp] theorem State.setK_folds (s : State) (d : KReg) (x : Word) : (s.setK d x).folds = s.folds := rfl
@[simp] theorem State.setK_foldTime (s : State) (d : KReg) (x : Word) : (s.setK d x).foldTime = s.foldTime := rfl
@[simp] theorem State.setK_boundAgency (s : State) (d : KReg) (x : Word) : (s.setK d x).boundAgency = s.boundAgency := rfl
@[simp] theorem State.setK_mr (s : State) (d : KReg) (x : Word) : (s.setK d x).mr = s.mr := rfl
@[simp] theorem State.setK_keys (s : State) (d : KReg) (x : Word) : (s.setK d x).keys = s.keys := rfl
@[simp] theorem State.setK_bootst (s : State) (d : KReg) (x : Word) : (s.setK d x).bootst = s.bootst := rfl
@[simp] theorem State.setK_acc (s : State) (d : KReg) (x : Word) : (s.setK d x).acc = s.acc := rfl
@[simp] theorem State.setK_accepted (s : State) (d : KReg) (x : Word) : (s.setK d x).accepted = s.accepted := rfl
@[simp] theorem State.setK_clmap (s : State) (d : KReg) (x : Word) : (s.setK d x).clmap = s.clmap := rfl
@[simp] theorem State.setK_stmap (s : State) (d : KReg) (x : Word) : (s.setK d x).stmap = s.stmap := rfl
@[simp] theorem State.setK_lkmap (s : State) (d : KReg) (x : Word) : (s.setK d x).lkmap = s.lkmap := rfl
@[simp] theorem State.setK_linksDown (s : State) (d : KReg) (x : Word) : (s.setK d x).linksDown = s.linksDown := rfl
@[simp] theorem State.setK_fabid (s : State) (d : KReg) (x : Word) : (s.setK d x).fabid = s.fabid := rfl
@[simp] theorem State.setK_hostDown (s : State) (d : KReg) (x : Word) : (s.setK d x).hostDown = s.hostDown := rfl
@[simp] theorem State.setK_peers (s : State) (d : KReg) (x : Word) : (s.setK d x).peers = s.peers := rfl
@[simp] theorem State.setK_capw (s : State) (d : KReg) (x : Word) : (s.setK d x).capw = s.capw := rfl
@[simp] theorem State.setK_mhz (s : State) (d : KReg) (x : Word) : (s.setK d x).mhz = s.mhz := rfl
@[simp] theorem State.setK_cmd (s : State) (d : KReg) (x : Word) : (s.setK d x).cmd = s.cmd := rfl
@[simp] theorem State.setK_rsp (s : State) (d : KReg) (x : Word) : (s.setK d x).rsp = s.rsp := rfl
@[simp] theorem State.setK_command (s : State) (d : KReg) (x : Word) : (s.setK d x).command = s.command := rfl
@[simp] theorem State.setK_grants (s : State) (d : KReg) (x : Word) : (s.setK d x).grants = s.grants := rfl
@[simp] theorem State.setK_microcode (s : State) (d : KReg) (x : Word) : (s.setK d x).microcode = s.microcode := rfl
@[simp] theorem State.setK_dispatch (s : State) (d : KReg) (x : Word) : (s.setK d x).dispatch = s.dispatch := rfl
@[simp] theorem State.setK_translator (s : State) (d : KReg) (x : Word) : (s.setK d x).translator = s.translator := rfl
@[simp] theorem State.setK_wmin (s : State) (d : KReg) (x : Word) : (s.setK d x).wmin = s.wmin := rfl
@[simp] theorem State.setK_wmax (s : State) (d : KReg) (x : Word) : (s.setK d x).wmax = s.wmax := rfl
@[simp] theorem State.setK_build (s : State) (d : KReg) (x : Word) : (s.setK d x).build = s.build := rfl
@[simp] theorem State.setK_svn (s : State) (d : KReg) (x : Word) : (s.setK d x).svn = s.svn := rfl
@[simp] theorem State.setK_update (s : State) (d : KReg) (x : Word) : (s.setK d x).update = s.update := rfl
@[simp] theorem State.setK_corrected (s : State) (d : KReg) (x : Word) : (s.setK d x).corrected = s.corrected := rfl
@[simp] theorem State.setK_time (s : State) (d : KReg) (x : Word) : (s.setK d x).time = s.time := rfl
@[simp] theorem State.setK_cycleRem (s : State) (d : KReg) (x : Word) : (s.setK d x).cycleRem = s.cycleRem := rfl
@[simp] theorem State.setK_hostOut (s : State) (d : KReg) (x : Word) : (s.setK d x).hostOut = s.hostOut := rfl
@[simp] theorem State.setK_agenda (s : State) (d : KReg) (x : Word) : (s.setK d x).agenda = s.agenda := rfl
@[simp] theorem State.setK_fresh (s : State) (d : KReg) (x : Word) : (s.setK d x).fresh = s.fresh := rfl

@[simp] theorem State.flags_core (s : State) (f : Word) : (s.flags f).core = s.core.addFlags f := rfl
@[simp] theorem State.flags_cur (s : State) (f : Word) : (s.flags f).cur = s.cur := rfl
@[simp] theorem State.flags_others (s : State) (f : Word) : (s.flags f).others = s.others := rfl
@[simp] theorem State.flags_clusters (s : State) (f : Word) : (s.flags f).clusters = s.clusters := rfl
@[simp] theorem State.flags_mem (s : State) (f : Word) : (s.flags f).mem = s.mem := rfl
@[simp] theorem State.flags_poisoned (s : State) (f : Word) : (s.flags f).poisoned = s.poisoned := rfl
@[simp] theorem State.flags_sliceBad (s : State) (f : Word) : (s.flags f).sliceBad = s.sliceBad := rfl
@[simp] theorem State.flags_charges (s : State) (f : Word) : (s.flags f).charges = s.charges := rfl
@[simp] theorem State.flags_flight (s : State) (f : Word) : (s.flags f).flight = s.flight := rfl
@[simp] theorem State.flags_answers (s : State) (f : Word) : (s.flags f).answers = s.answers := rfl
@[simp] theorem State.flags_rows (s : State) (f : Word) : (s.flags f).rows = s.rows := rfl
@[simp] theorem State.flags_shootdowns (s : State) (f : Word) : (s.flags f).shootdowns = s.shootdowns := rfl
@[simp] theorem State.flags_hostq (s : State) (f : Word) : (s.flags f).hostq = s.hostq := rfl
@[simp] theorem State.flags_posted (s : State) (f : Word) : (s.flags f).posted = s.posted := rfl
@[simp] theorem State.flags_queues (s : State) (f : Word) : (s.flags f).queues = s.queues := rfl
@[simp] theorem State.flags_cards (s : State) (f : Word) : (s.flags f).cards = s.cards := rfl
@[simp] theorem State.flags_nextCard (s : State) (f : Word) : (s.flags f).nextCard = s.nextCard := rfl
@[simp] theorem State.flags_deficits (s : State) (f : Word) : (s.flags f).deficits = s.deficits := rfl
@[simp] theorem State.flags_turns (s : State) (f : Word) : (s.flags f).turns = s.turns := rfl
@[simp] theorem State.flags_weights (s : State) (f : Word) : (s.flags f).weights = s.weights := rfl
@[simp] theorem State.flags_waiters (s : State) (f : Word) : (s.flags f).waiters = s.waiters := rfl
@[simp] theorem State.flags_forecast (s : State) (f : Word) : (s.flags f).forecast = s.forecast := rfl
@[simp] theorem State.flags_contexts (s : State) (f : Word) : (s.flags f).contexts = s.contexts := rfl
@[simp] theorem State.flags_saves (s : State) (f : Word) : (s.flags f).saves = s.saves := rfl
@[simp] theorem State.flags_logs (s : State) (f : Word) : (s.flags f).logs = s.logs := rfl
@[simp] theorem State.flags_logNotice (s : State) (f : Word) : (s.flags f).logNotice = s.logNotice := rfl
@[simp] theorem State.flags_counters (s : State) (f : Word) : (s.flags f).counters = s.counters := rfl
@[simp] theorem State.flags_folded (s : State) (f : Word) : (s.flags f).folded = s.folded := rfl
@[simp] theorem State.flags_folds (s : State) (f : Word) : (s.flags f).folds = s.folds := rfl
@[simp] theorem State.flags_foldTime (s : State) (f : Word) : (s.flags f).foldTime = s.foldTime := rfl
@[simp] theorem State.flags_boundAgency (s : State) (f : Word) : (s.flags f).boundAgency = s.boundAgency := rfl
@[simp] theorem State.flags_mr (s : State) (f : Word) : (s.flags f).mr = s.mr := rfl
@[simp] theorem State.flags_keys (s : State) (f : Word) : (s.flags f).keys = s.keys := rfl
@[simp] theorem State.flags_bootst (s : State) (f : Word) : (s.flags f).bootst = s.bootst := rfl
@[simp] theorem State.flags_acc (s : State) (f : Word) : (s.flags f).acc = s.acc := rfl
@[simp] theorem State.flags_accepted (s : State) (f : Word) : (s.flags f).accepted = s.accepted := rfl
@[simp] theorem State.flags_clmap (s : State) (f : Word) : (s.flags f).clmap = s.clmap := rfl
@[simp] theorem State.flags_stmap (s : State) (f : Word) : (s.flags f).stmap = s.stmap := rfl
@[simp] theorem State.flags_lkmap (s : State) (f : Word) : (s.flags f).lkmap = s.lkmap := rfl
@[simp] theorem State.flags_linksDown (s : State) (f : Word) : (s.flags f).linksDown = s.linksDown := rfl
@[simp] theorem State.flags_fabid (s : State) (f : Word) : (s.flags f).fabid = s.fabid := rfl
@[simp] theorem State.flags_hostDown (s : State) (f : Word) : (s.flags f).hostDown = s.hostDown := rfl
@[simp] theorem State.flags_peers (s : State) (f : Word) : (s.flags f).peers = s.peers := rfl
@[simp] theorem State.flags_capw (s : State) (f : Word) : (s.flags f).capw = s.capw := rfl
@[simp] theorem State.flags_mhz (s : State) (f : Word) : (s.flags f).mhz = s.mhz := rfl
@[simp] theorem State.flags_cmd (s : State) (f : Word) : (s.flags f).cmd = s.cmd := rfl
@[simp] theorem State.flags_rsp (s : State) (f : Word) : (s.flags f).rsp = s.rsp := rfl
@[simp] theorem State.flags_command (s : State) (f : Word) : (s.flags f).command = s.command := rfl
@[simp] theorem State.flags_grants (s : State) (f : Word) : (s.flags f).grants = s.grants := rfl
@[simp] theorem State.flags_microcode (s : State) (f : Word) : (s.flags f).microcode = s.microcode := rfl
@[simp] theorem State.flags_dispatch (s : State) (f : Word) : (s.flags f).dispatch = s.dispatch := rfl
@[simp] theorem State.flags_translator (s : State) (f : Word) : (s.flags f).translator = s.translator := rfl
@[simp] theorem State.flags_wmin (s : State) (f : Word) : (s.flags f).wmin = s.wmin := rfl
@[simp] theorem State.flags_wmax (s : State) (f : Word) : (s.flags f).wmax = s.wmax := rfl
@[simp] theorem State.flags_build (s : State) (f : Word) : (s.flags f).build = s.build := rfl
@[simp] theorem State.flags_svn (s : State) (f : Word) : (s.flags f).svn = s.svn := rfl
@[simp] theorem State.flags_update (s : State) (f : Word) : (s.flags f).update = s.update := rfl
@[simp] theorem State.flags_corrected (s : State) (f : Word) : (s.flags f).corrected = s.corrected := rfl
@[simp] theorem State.flags_time (s : State) (f : Word) : (s.flags f).time = s.time := rfl
@[simp] theorem State.flags_cycleRem (s : State) (f : Word) : (s.flags f).cycleRem = s.cycleRem := rfl
@[simp] theorem State.flags_hostOut (s : State) (f : Word) : (s.flags f).hostOut = s.hostOut := rfl
@[simp] theorem State.flags_agenda (s : State) (f : Word) : (s.flags f).agenda = s.agenda := rfl
@[simp] theorem State.flags_fresh (s : State) (f : Word) : (s.flags f).fresh = s.fresh := rfl

@[simp] theorem State.setCluster_cur (s : State) (n : Nat) (k : Cluster) : (s.setCluster n k).cur = s.cur := rfl
@[simp] theorem State.setCluster_core (s : State) (n : Nat) (k : Cluster) : (s.setCluster n k).core = s.core := rfl
@[simp] theorem State.setCluster_others (s : State) (n : Nat) (k : Cluster) : (s.setCluster n k).others = s.others := rfl
@[simp] theorem State.setCluster_clusters (s : State) (n : Nat) (k : Cluster) : (s.setCluster n k).clusters = tset n k s.clusters := rfl
@[simp] theorem State.setCluster_mem (s : State) (n : Nat) (k : Cluster) : (s.setCluster n k).mem = s.mem := rfl
@[simp] theorem State.setCluster_poisoned (s : State) (n : Nat) (k : Cluster) : (s.setCluster n k).poisoned = s.poisoned := rfl
@[simp] theorem State.setCluster_sliceBad (s : State) (n : Nat) (k : Cluster) : (s.setCluster n k).sliceBad = s.sliceBad := rfl
@[simp] theorem State.setCluster_charges (s : State) (n : Nat) (k : Cluster) : (s.setCluster n k).charges = s.charges := rfl
@[simp] theorem State.setCluster_flight (s : State) (n : Nat) (k : Cluster) : (s.setCluster n k).flight = s.flight := rfl
@[simp] theorem State.setCluster_answers (s : State) (n : Nat) (k : Cluster) : (s.setCluster n k).answers = s.answers := rfl
@[simp] theorem State.setCluster_rows (s : State) (n : Nat) (k : Cluster) : (s.setCluster n k).rows = s.rows := rfl
@[simp] theorem State.setCluster_shootdowns (s : State) (n : Nat) (k : Cluster) : (s.setCluster n k).shootdowns = s.shootdowns := rfl
@[simp] theorem State.setCluster_hostq (s : State) (n : Nat) (k : Cluster) : (s.setCluster n k).hostq = s.hostq := rfl
@[simp] theorem State.setCluster_posted (s : State) (n : Nat) (k : Cluster) : (s.setCluster n k).posted = s.posted := rfl
@[simp] theorem State.setCluster_queues (s : State) (n : Nat) (k : Cluster) : (s.setCluster n k).queues = s.queues := rfl
@[simp] theorem State.setCluster_cards (s : State) (n : Nat) (k : Cluster) : (s.setCluster n k).cards = s.cards := rfl
@[simp] theorem State.setCluster_nextCard (s : State) (n : Nat) (k : Cluster) : (s.setCluster n k).nextCard = s.nextCard := rfl
@[simp] theorem State.setCluster_deficits (s : State) (n : Nat) (k : Cluster) : (s.setCluster n k).deficits = s.deficits := rfl
@[simp] theorem State.setCluster_turns (s : State) (n : Nat) (k : Cluster) : (s.setCluster n k).turns = s.turns := rfl
@[simp] theorem State.setCluster_weights (s : State) (n : Nat) (k : Cluster) : (s.setCluster n k).weights = s.weights := rfl
@[simp] theorem State.setCluster_waiters (s : State) (n : Nat) (k : Cluster) : (s.setCluster n k).waiters = s.waiters := rfl
@[simp] theorem State.setCluster_forecast (s : State) (n : Nat) (k : Cluster) : (s.setCluster n k).forecast = s.forecast := rfl
@[simp] theorem State.setCluster_contexts (s : State) (n : Nat) (k : Cluster) : (s.setCluster n k).contexts = s.contexts := rfl
@[simp] theorem State.setCluster_saves (s : State) (n : Nat) (k : Cluster) : (s.setCluster n k).saves = s.saves := rfl
@[simp] theorem State.setCluster_logs (s : State) (n : Nat) (k : Cluster) : (s.setCluster n k).logs = s.logs := rfl
@[simp] theorem State.setCluster_logNotice (s : State) (n : Nat) (k : Cluster) : (s.setCluster n k).logNotice = s.logNotice := rfl
@[simp] theorem State.setCluster_counters (s : State) (n : Nat) (k : Cluster) : (s.setCluster n k).counters = s.counters := rfl
@[simp] theorem State.setCluster_folded (s : State) (n : Nat) (k : Cluster) : (s.setCluster n k).folded = s.folded := rfl
@[simp] theorem State.setCluster_folds (s : State) (n : Nat) (k : Cluster) : (s.setCluster n k).folds = s.folds := rfl
@[simp] theorem State.setCluster_foldTime (s : State) (n : Nat) (k : Cluster) : (s.setCluster n k).foldTime = s.foldTime := rfl
@[simp] theorem State.setCluster_boundAgency (s : State) (n : Nat) (k : Cluster) : (s.setCluster n k).boundAgency = s.boundAgency := rfl
@[simp] theorem State.setCluster_mr (s : State) (n : Nat) (k : Cluster) : (s.setCluster n k).mr = s.mr := rfl
@[simp] theorem State.setCluster_keys (s : State) (n : Nat) (k : Cluster) : (s.setCluster n k).keys = s.keys := rfl
@[simp] theorem State.setCluster_bootst (s : State) (n : Nat) (k : Cluster) : (s.setCluster n k).bootst = s.bootst := rfl
@[simp] theorem State.setCluster_acc (s : State) (n : Nat) (k : Cluster) : (s.setCluster n k).acc = s.acc := rfl
@[simp] theorem State.setCluster_accepted (s : State) (n : Nat) (k : Cluster) : (s.setCluster n k).accepted = s.accepted := rfl
@[simp] theorem State.setCluster_clmap (s : State) (n : Nat) (k : Cluster) : (s.setCluster n k).clmap = s.clmap := rfl
@[simp] theorem State.setCluster_stmap (s : State) (n : Nat) (k : Cluster) : (s.setCluster n k).stmap = s.stmap := rfl
@[simp] theorem State.setCluster_lkmap (s : State) (n : Nat) (k : Cluster) : (s.setCluster n k).lkmap = s.lkmap := rfl
@[simp] theorem State.setCluster_linksDown (s : State) (n : Nat) (k : Cluster) : (s.setCluster n k).linksDown = s.linksDown := rfl
@[simp] theorem State.setCluster_fabid (s : State) (n : Nat) (k : Cluster) : (s.setCluster n k).fabid = s.fabid := rfl
@[simp] theorem State.setCluster_hostDown (s : State) (n : Nat) (k : Cluster) : (s.setCluster n k).hostDown = s.hostDown := rfl
@[simp] theorem State.setCluster_peers (s : State) (n : Nat) (k : Cluster) : (s.setCluster n k).peers = s.peers := rfl
@[simp] theorem State.setCluster_capw (s : State) (n : Nat) (k : Cluster) : (s.setCluster n k).capw = s.capw := rfl
@[simp] theorem State.setCluster_mhz (s : State) (n : Nat) (k : Cluster) : (s.setCluster n k).mhz = s.mhz := rfl
@[simp] theorem State.setCluster_cmd (s : State) (n : Nat) (k : Cluster) : (s.setCluster n k).cmd = s.cmd := rfl
@[simp] theorem State.setCluster_rsp (s : State) (n : Nat) (k : Cluster) : (s.setCluster n k).rsp = s.rsp := rfl
@[simp] theorem State.setCluster_command (s : State) (n : Nat) (k : Cluster) : (s.setCluster n k).command = s.command := rfl
@[simp] theorem State.setCluster_grants (s : State) (n : Nat) (k : Cluster) : (s.setCluster n k).grants = s.grants := rfl
@[simp] theorem State.setCluster_microcode (s : State) (n : Nat) (k : Cluster) : (s.setCluster n k).microcode = s.microcode := rfl
@[simp] theorem State.setCluster_dispatch (s : State) (n : Nat) (k : Cluster) : (s.setCluster n k).dispatch = s.dispatch := rfl
@[simp] theorem State.setCluster_translator (s : State) (n : Nat) (k : Cluster) : (s.setCluster n k).translator = s.translator := rfl
@[simp] theorem State.setCluster_wmin (s : State) (n : Nat) (k : Cluster) : (s.setCluster n k).wmin = s.wmin := rfl
@[simp] theorem State.setCluster_wmax (s : State) (n : Nat) (k : Cluster) : (s.setCluster n k).wmax = s.wmax := rfl
@[simp] theorem State.setCluster_build (s : State) (n : Nat) (k : Cluster) : (s.setCluster n k).build = s.build := rfl
@[simp] theorem State.setCluster_svn (s : State) (n : Nat) (k : Cluster) : (s.setCluster n k).svn = s.svn := rfl
@[simp] theorem State.setCluster_update (s : State) (n : Nat) (k : Cluster) : (s.setCluster n k).update = s.update := rfl
@[simp] theorem State.setCluster_corrected (s : State) (n : Nat) (k : Cluster) : (s.setCluster n k).corrected = s.corrected := rfl
@[simp] theorem State.setCluster_time (s : State) (n : Nat) (k : Cluster) : (s.setCluster n k).time = s.time := rfl
@[simp] theorem State.setCluster_cycleRem (s : State) (n : Nat) (k : Cluster) : (s.setCluster n k).cycleRem = s.cycleRem := rfl
@[simp] theorem State.setCluster_hostOut (s : State) (n : Nat) (k : Cluster) : (s.setCluster n k).hostOut = s.hostOut := rfl
@[simp] theorem State.setCluster_agenda (s : State) (n : Nat) (k : Cluster) : (s.setCluster n k).agenda = s.agenda := rfl
@[simp] theorem State.setCluster_fresh (s : State) (n : Nat) (k : Cluster) : (s.setCluster n k).fresh = s.fresh := rfl

/-! ## Updates of a core -/

/-- writeS changes sregs alone. -/
theorem Core.writeS_frame (k : Core) (r : Reg) (x : Word) :
    k.writeS r x = { k with sregs := (k.writeS r x).sregs } := by
  unfold Core.writeS
  split <;> rfl

@[simp] theorem Core.writeS_pc (k : Core) (r : Reg) (x : Word) : (k.writeS r x).pc = k.pc := by rw [Core.writeS_frame]
@[simp] theorem Core.writeS_vregs (k : Core) (r : Reg) (x : Word) : (k.writeS r x).vregs = k.vregs := by rw [Core.writeS_frame]
@[simp] theorem Core.writeS_masks (k : Core) (r : Reg) (x : Word) : (k.writeS r x).masks = k.masks := by rw [Core.writeS_frame]
@[simp] theorem Core.writeS_loops (k : Core) (r : Reg) (x : Word) : (k.writeS r x).loops = k.loops := by rw [Core.writeS_frame]
@[simp] theorem Core.writeS_lcar (k : Core) (r : Reg) (x : Word) : (k.writeS r x).lcar = k.lcar := by rw [Core.writeS_frame]
@[simp] theorem Core.writeS_x1 (k : Core) (r : Reg) (x : Word) : (k.writeS r x).x1 = k.x1 := by rw [Core.writeS_frame]
@[simp] theorem Core.writeS_x2 (k : Core) (r : Reg) (x : Word) : (k.writeS r x).x2 = k.x2 := by rw [Core.writeS_frame]
@[simp] theorem Core.writeS_sbuf (k : Core) (r : Reg) (x : Word) : (k.writeS r x).sbuf = k.sbuf := by rw [Core.writeS_frame]
@[simp] theorem Core.writeS_outq (k : Core) (r : Reg) (x : Word) : (k.writeS r x).outq = k.outq := by rw [Core.writeS_frame]
@[simp] theorem Core.writeS_orderNo (k : Core) (r : Reg) (x : Word) : (k.writeS r x).orderNo = k.orderNo := by rw [Core.writeS_frame]
@[simp] theorem Core.writeS_era (k : Core) (r : Reg) (x : Word) : (k.writeS r x).era = k.era := by rw [Core.writeS_frame]
@[simp] theorem Core.writeS_committed (k : Core) (r : Reg) (x : Word) : (k.writeS r x).committed = k.committed := by rw [Core.writeS_frame]
@[simp] theorem Core.writeS_young (k : Core) (r : Reg) (x : Word) : (k.writeS r x).young = k.young := by rw [Core.writeS_frame]
@[simp] theorem Core.writeS_pendingFlags (k : Core) (r : Reg) (x : Word) : (k.writeS r x).pendingFlags = k.pendingFlags := by rw [Core.writeS_frame]
@[simp] theorem Core.writeS_ending (k : Core) (r : Reg) (x : Word) : (k.writeS r x).ending = k.ending := by rw [Core.writeS_frame]
@[simp] theorem Core.writeS_suspended (k : Core) (r : Reg) (x : Word) : (k.writeS r x).suspended = k.suspended := by rw [Core.writeS_frame]
@[simp] theorem Core.writeS_asideMarks (k : Core) (r : Reg) (x : Word) : (k.writeS r x).asideMarks = k.asideMarks := by rw [Core.writeS_frame]
@[simp] theorem Core.writeS_word (k : Core) (r : Reg) (x : Word) : (k.writeS r x).word = k.word := by rw [Core.writeS_frame]
@[simp] theorem Core.writeS_stepping (k : Core) (r : Reg) (x : Word) : (k.writeS r x).stepping = k.stepping := by rw [Core.writeS_frame]
@[simp] theorem Core.writeS_status (k : Core) (r : Reg) (x : Word) : (k.writeS r x).status = k.status := by rw [Core.writeS_frame]
@[simp] theorem Core.writeS_trapcause (k : Core) (r : Reg) (x : Word) : (k.writeS r x).trapcause = k.trapcause := by rw [Core.writeS_frame]
@[simp] theorem Core.writeS_trappc (k : Core) (r : Reg) (x : Word) : (k.writeS r x).trappc = k.trappc := by rw [Core.writeS_frame]
@[simp] theorem Core.writeS_trapval (k : Core) (r : Reg) (x : Word) : (k.writeS r x).trapval = k.trapval := by rw [Core.writeS_frame]
@[simp] theorem Core.writeS_trapvec (k : Core) (r : Reg) (x : Word) : (k.writeS r x).trapvec = k.trapvec := by rw [Core.writeS_frame]
@[simp] theorem Core.writeS_scratch (k : Core) (r : Reg) (x : Word) : (k.writeS r x).scratch = k.scratch := by rw [Core.writeS_frame]
@[simp] theorem Core.writeS_fflags (k : Core) (r : Reg) (x : Word) : (k.writeS r x).fflags = k.fflags := by rw [Core.writeS_frame]
@[simp] theorem Core.writeS_vtype (k : Core) (r : Reg) (x : Word) : (k.writeS r x).vtype = k.vtype := by rw [Core.writeS_frame]
@[simp] theorem Core.writeS_lmsplit (k : Core) (r : Reg) (x : Word) : (k.writeS r x).lmsplit = k.lmsplit := by rw [Core.writeS_frame]
@[simp] theorem Core.writeS_kloader (k : Core) (r : Reg) (x : Word) : (k.writeS r x).kloader = k.kloader := by rw [Core.writeS_frame]
@[simp] theorem Core.writeS_klstate (k : Core) (r : Reg) (x : Word) : (k.writeS r x).klstate = k.klstate := by rw [Core.writeS_frame]
@[simp] theorem Core.writeS_timestamp (k : Core) (r : Reg) (x : Word) : (k.writeS r x).timestamp = k.timestamp := by rw [Core.writeS_frame]
@[simp] theorem Core.writeS_journal (k : Core) (r : Reg) (x : Word) : (k.writeS r x).journal = k.journal := by rw [Core.writeS_frame]
@[simp] theorem Core.writeS_journalAt (k : Core) (r : Reg) (x : Word) : (k.writeS r x).journalAt = k.journalAt := by rw [Core.writeS_frame]
@[simp] theorem Core.writeS_wp (k : Core) (r : Reg) (x : Word) : (k.writeS r x).wp = k.wp := by rw [Core.writeS_frame]
@[simp] theorem Core.writeS_dstat (k : Core) (r : Reg) (x : Word) : (k.writeS r x).dstat = k.dstat := by rw [Core.writeS_frame]
@[simp] theorem Core.writeS_dinfo (k : Core) (r : Reg) (x : Word) : (k.writeS r x).dinfo = k.dinfo := by rw [Core.writeS_frame]
@[simp] theorem Core.writeS_wpHit (k : Core) (r : Reg) (x : Word) : (k.writeS r x).wpHit = k.wpHit := by rw [Core.writeS_frame]
@[simp] theorem Core.writeS_hitDue (k : Core) (r : Reg) (x : Word) : (k.writeS r x).hitDue = k.hitDue := by rw [Core.writeS_frame]
@[simp] theorem Core.writeS_rest (k : Core) (r : Reg) (x : Word) : (k.writeS r x).rest = k.rest := by rw [Core.writeS_frame]
@[simp] theorem Core.writeS_context (k : Core) (r : Reg) (x : Word) : (k.writeS r x).context = k.context := by rw [Core.writeS_frame]
@[simp] theorem Core.writeS_unit (k : Core) (r : Reg) (x : Word) : (k.writeS r x).unit = k.unit := by rw [Core.writeS_frame]
@[simp] theorem Core.writeS_lastCard (k : Core) (r : Reg) (x : Word) : (k.writeS r x).lastCard = k.lastCard := by rw [Core.writeS_frame]
@[simp] theorem Core.writeS_stackTop (k : Core) (r : Reg) (x : Word) : (k.writeS r x).stackTop = k.stackTop := by rw [Core.writeS_frame]
@[simp] theorem Core.writeS_gang (k : Core) (r : Reg) (x : Word) : (k.writeS r x).gang = k.gang := by rw [Core.writeS_frame]
@[simp] theorem Core.writeS_wasGang (k : Core) (r : Reg) (x : Word) : (k.writeS r x).wasGang = k.wasGang := by rw [Core.writeS_frame]
@[simp] theorem Core.writeS_join (k : Core) (r : Reg) (x : Word) : (k.writeS r x).join = k.join := by rw [Core.writeS_frame]
@[simp] theorem Core.writeS_ahead (k : Core) (r : Reg) (x : Word) : (k.writeS r x).ahead = k.ahead := by rw [Core.writeS_frame]
@[simp] theorem Core.writeS_path (k : Core) (r : Reg) (x : Word) : (k.writeS r x).path = k.path := by rw [Core.writeS_frame]
@[simp] theorem Core.writeS_trail (k : Core) (r : Reg) (x : Word) : (k.writeS r x).trail = k.trail := by rw [Core.writeS_frame]
@[simp] theorem Core.writeS_lag (k : Core) (r : Reg) (x : Word) : (k.writeS r x).lag = k.lag := by rw [Core.writeS_frame]
@[simp] theorem Core.writeS_savedPath (k : Core) (r : Reg) (x : Word) : (k.writeS r x).savedPath = k.savedPath := by rw [Core.writeS_frame]
@[simp] theorem Core.writeS_wake (k : Core) (r : Reg) (x : Word) : (k.writeS r x).wake = k.wake := by rw [Core.writeS_frame]
@[simp] theorem Core.writeS_sleeping (k : Core) (r : Reg) (x : Word) : (k.writeS r x).sleeping = k.sleeping := by rw [Core.writeS_frame]
@[simp] theorem Core.writeS_futDone (k : Core) (r : Reg) (x : Word) : (k.writeS r x).futDone = k.futDone := by rw [Core.writeS_frame]
@[simp] theorem Core.writeS_rechecking (k : Core) (r : Reg) (x : Word) : (k.writeS r x).rechecking = k.rechecking := by rw [Core.writeS_frame]
@[simp] theorem Core.writeS_pendingWait (k : Core) (r : Reg) (x : Word) : (k.writeS r x).pendingWait = k.pendingWait := by rw [Core.writeS_frame]
@[simp] theorem Core.writeS_sleepUntil (k : Core) (r : Reg) (x : Word) : (k.writeS r x).sleepUntil = k.sleepUntil := by rw [Core.writeS_frame]
@[simp] theorem Core.writeS_slept (k : Core) (r : Reg) (x : Word) : (k.writeS r x).slept = k.slept := by rw [Core.writeS_frame]
@[simp] theorem Core.writeS_chanStep (k : Core) (r : Reg) (x : Word) : (k.writeS r x).chanStep = k.chanStep := by rw [Core.writeS_frame]
@[simp] theorem Core.writeS_barpAt (k : Core) (r : Reg) (x : Word) : (k.writeS r x).barpAt = k.barpAt := by rw [Core.writeS_frame]
@[simp] theorem Core.writeS_barpDone (k : Core) (r : Reg) (x : Word) : (k.writeS r x).barpDone = k.barpDone := by rw [Core.writeS_frame]
@[simp] theorem Core.writeS_arriving (k : Core) (r : Reg) (x : Word) : (k.writeS r x).arriving = k.arriving := by rw [Core.writeS_frame]
@[simp] theorem Core.writeS_preparing (k : Core) (r : Reg) (x : Word) : (k.writeS r x).preparing = k.preparing := by rw [Core.writeS_frame]
@[simp] theorem Core.writeS_inPhase (k : Core) (r : Reg) (x : Word) : (k.writeS r x).inPhase = k.inPhase := by rw [Core.writeS_frame]
@[simp] theorem Core.writeS_unsent (k : Core) (r : Reg) (x : Word) : (k.writeS r x).unsent = k.unsent := by rw [Core.writeS_frame]
@[simp] theorem Core.writeS_empty (k : Core) (r : Reg) (x : Word) : (k.writeS r x).empty = k.empty := by rw [Core.writeS_frame]
@[simp] theorem Core.writeS_recvAt (k : Core) (r : Reg) (x : Word) : (k.writeS r x).recvAt = k.recvAt := by rw [Core.writeS_frame]
@[simp] theorem Core.writeS_recvBeats (k : Core) (r : Reg) (x : Word) : (k.writeS r x).recvBeats = k.recvBeats := by rw [Core.writeS_frame]
@[simp] theorem Core.writeS_xmitAt (k : Core) (r : Reg) (x : Word) : (k.writeS r x).xmitAt = k.xmitAt := by rw [Core.writeS_frame]
@[simp] theorem Core.writeS_xmitSent (k : Core) (r : Reg) (x : Word) : (k.writeS r x).xmitSent = k.xmitSent := by rw [Core.writeS_frame]
@[simp] theorem Core.writeS_ringWait (k : Core) (r : Reg) (x : Word) : (k.writeS r x).ringWait = k.ringWait := by rw [Core.writeS_frame]
@[simp] theorem Core.writeS_ringDone (k : Core) (r : Reg) (x : Word) : (k.writeS r x).ringDone = k.ringDone := by rw [Core.writeS_frame]
@[simp] theorem Core.writeS_pend (k : Core) (r : Reg) (x : Word) : (k.writeS r x).pend = k.pend := by rw [Core.writeS_frame]
@[simp] theorem Core.writeS_nextPend (k : Core) (r : Reg) (x : Word) : (k.writeS r x).nextPend = k.nextPend := by rw [Core.writeS_frame]
@[simp] theorem Core.writeS_held (k : Core) (r : Reg) (x : Word) : (k.writeS r x).held = k.held := by rw [Core.writeS_frame]
@[simp] theorem Core.writeS_imgOrder (k : Core) (r : Reg) (x : Word) : (k.writeS r x).imgOrder = k.imgOrder := by rw [Core.writeS_frame]
@[simp] theorem Core.writeS_imgGot (k : Core) (r : Reg) (x : Word) : (k.writeS r x).imgGot = k.imgGot := by rw [Core.writeS_frame]
@[simp] theorem Core.writeS_l1d (k : Core) (r : Reg) (x : Word) : (k.writeS r x).l1d = k.l1d := by rw [Core.writeS_frame]
@[simp] theorem Core.writeS_l1i (k : Core) (r : Reg) (x : Word) : (k.writeS r x).l1i = k.l1i := by rw [Core.writeS_frame]
@[simp] theorem Core.writeS_fbuf (k : Core) (r : Reg) (x : Word) : (k.writeS r x).fbuf = k.fbuf := by rw [Core.writeS_frame]
@[simp] theorem Core.writeS_lbuf (k : Core) (r : Reg) (x : Word) : (k.writeS r x).lbuf = k.lbuf := by rw [Core.writeS_frame]
@[simp] theorem Core.writeS_refetch (k : Core) (r : Reg) (x : Word) : (k.writeS r x).refetch = k.refetch := by rw [Core.writeS_frame]
@[simp] theorem Core.writeS_tlb (k : Core) (r : Reg) (x : Word) : (k.writeS r x).tlb = k.tlb := by rw [Core.writeS_frame]
@[simp] theorem Core.writeS_walk (k : Core) (r : Reg) (x : Word) : (k.writeS r x).walk = k.walk := by rw [Core.writeS_frame]
@[simp] theorem Core.writeS_walkFaults (k : Core) (r : Reg) (x : Word) : (k.writeS r x).walkFaults = k.walkFaults := by rw [Core.writeS_frame]
@[simp] theorem Core.writeS_wb (k : Core) (r : Reg) (x : Word) : (k.writeS r x).wb = k.wb := by rw [Core.writeS_frame]
@[simp] theorem Core.writeS_fencing (k : Core) (r : Reg) (x : Word) : (k.writeS r x).fencing = k.fencing := by rw [Core.writeS_frame]
@[simp] theorem Core.writeS_inWait (k : Core) (r : Reg) (x : Word) : (k.writeS r x).inWait = k.inWait := by rw [Core.writeS_frame]
@[simp] theorem Core.writeS_tlbinv (k : Core) (r : Reg) (x : Word) : (k.writeS r x).tlbinv = k.tlbinv := by rw [Core.writeS_frame]
@[simp] theorem Core.writeS_routine (k : Core) (r : Reg) (x : Word) : (k.writeS r x).routine = k.routine := by rw [Core.writeS_frame]
@[simp] theorem Core.writeS_mslots (k : Core) (r : Reg) (x : Word) : (k.writeS r x).mslots = k.mslots := by rw [Core.writeS_frame]
@[simp] theorem Core.writeS_mqueue (k : Core) (r : Reg) (x : Word) : (k.writeS r x).mqueue = k.mqueue := by rw [Core.writeS_frame]
@[simp] theorem Core.writeS_carryRecs (k : Core) (r : Reg) (x : Word) : (k.writeS r x).carryRecs = k.carryRecs := by rw [Core.writeS_frame]
@[simp] theorem Core.writeS_carryLost (k : Core) (r : Reg) (x : Word) : (k.writeS r x).carryLost = k.carryLost := by rw [Core.writeS_frame]
@[simp] theorem Core.writeS_carryLostRaised (k : Core) (r : Reg) (x : Word) : (k.writeS r x).carryLostRaised = k.carryLostRaised := by rw [Core.writeS_frame]
@[simp] theorem Core.writeS_tables (k : Core) (r : Reg) (x : Word) : (k.writeS r x).tables = k.tables := by rw [Core.writeS_frame]
@[simp] theorem Core.writeS_ppu (k : Core) (r : Reg) (x : Word) : (k.writeS r x).ppu = k.ppu := by rw [Core.writeS_frame]
@[simp] theorem Core.writeS_kdo (k : Core) (r : Reg) (x : Word) : (k.writeS r x).kdo = k.kdo := by rw [Core.writeS_frame]
@[simp] theorem Core.writeS_qw0 (k : Core) (r : Reg) (x : Word) : (k.writeS r x).qw0 = k.qw0 := by rw [Core.writeS_frame]
@[simp] theorem Core.writeS_qw1 (k : Core) (r : Reg) (x : Word) : (k.writeS r x).qw1 = k.qw1 := by rw [Core.writeS_frame]
@[simp] theorem Core.writeS_qw2 (k : Core) (r : Reg) (x : Word) : (k.writeS r x).qw2 = k.qw2 := by rw [Core.writeS_frame]
@[simp] theorem Core.writeS_qw3 (k : Core) (r : Reg) (x : Word) : (k.writeS r x).qw3 = k.qw3 := by rw [Core.writeS_frame]
@[simp] theorem Core.writeS_jobs (k : Core) (r : Reg) (x : Word) : (k.writeS r x).jobs = k.jobs := by rw [Core.writeS_frame]
@[simp] theorem Core.writeS_lastJob (k : Core) (r : Reg) (x : Word) : (k.writeS r x).lastJob = k.lastJob := by rw [Core.writeS_frame]
@[simp] theorem Core.writeS_wrapped (k : Core) (r : Reg) (x : Word) : (k.writeS r x).wrapped = k.wrapped := by rw [Core.writeS_frame]
@[simp] theorem Core.writeS_history (k : Core) (r : Reg) (x : Word) : (k.writeS r x).history = k.history := by rw [Core.writeS_frame]
@[simp] theorem Core.writeS_asyncs (k : Core) (r : Reg) (x : Word) : (k.writeS r x).asyncs = k.asyncs := by rw [Core.writeS_frame]
@[simp] theorem Core.writeS_asyncLost (k : Core) (r : Reg) (x : Word) : (k.writeS r x).asyncLost = k.asyncLost := by rw [Core.writeS_frame]
@[simp] theorem Core.writeS_mentries (k : Core) (r : Reg) (x : Word) : (k.writeS r x).mentries = k.mentries := by rw [Core.writeS_frame]
@[simp] theorem Core.writeS_mtargets (k : Core) (r : Reg) (x : Word) : (k.writeS r x).mtargets = k.mtargets := by rw [Core.writeS_frame]
@[simp] theorem Core.writeS_fcnt (k : Core) (r : Reg) (x : Word) : (k.writeS r x).fcnt = k.fcnt := by rw [Core.writeS_frame]
@[simp] theorem Core.writeS_tcnt (k : Core) (r : Reg) (x : Word) : (k.writeS r x).tcnt = k.tcnt := by rw [Core.writeS_frame]
@[simp] theorem Core.writeS_issuedDone (k : Core) (r : Reg) (x : Word) : (k.writeS r x).issuedDone = k.issuedDone := by rw [Core.writeS_frame]
@[simp] theorem Core.writeS_miss (k : Core) (r : Reg) (x : Word) : (k.writeS r x).miss = k.miss := by rw [Core.writeS_frame]
@[simp] theorem Core.writeS_tasks (k : Core) (r : Reg) (x : Word) : (k.writeS r x).tasks = k.tasks := by rw [Core.writeS_frame]
@[simp] theorem Core.writeS_fired (k : Core) (r : Reg) (x : Word) : (k.writeS r x).fired = k.fired := by rw [Core.writeS_frame]
@[simp] theorem Core.writeS_bindings (k : Core) (r : Reg) (x : Word) : (k.writeS r x).bindings = k.bindings := by rw [Core.writeS_frame]

/-- writeV changes vregs alone. -/
theorem Core.writeV_frame (k : Core) (r : Reg) (x : Vec) :
    k.writeV r x = { k with vregs := (k.writeV r x).vregs } := by
  rfl

@[simp] theorem Core.writeV_pc (k : Core) (r : Reg) (x : Vec) : (k.writeV r x).pc = k.pc := rfl
@[simp] theorem Core.writeV_sregs (k : Core) (r : Reg) (x : Vec) : (k.writeV r x).sregs = k.sregs := rfl
@[simp] theorem Core.writeV_masks (k : Core) (r : Reg) (x : Vec) : (k.writeV r x).masks = k.masks := rfl
@[simp] theorem Core.writeV_loops (k : Core) (r : Reg) (x : Vec) : (k.writeV r x).loops = k.loops := rfl
@[simp] theorem Core.writeV_lcar (k : Core) (r : Reg) (x : Vec) : (k.writeV r x).lcar = k.lcar := rfl
@[simp] theorem Core.writeV_x1 (k : Core) (r : Reg) (x : Vec) : (k.writeV r x).x1 = k.x1 := rfl
@[simp] theorem Core.writeV_x2 (k : Core) (r : Reg) (x : Vec) : (k.writeV r x).x2 = k.x2 := rfl
@[simp] theorem Core.writeV_sbuf (k : Core) (r : Reg) (x : Vec) : (k.writeV r x).sbuf = k.sbuf := rfl
@[simp] theorem Core.writeV_outq (k : Core) (r : Reg) (x : Vec) : (k.writeV r x).outq = k.outq := rfl
@[simp] theorem Core.writeV_orderNo (k : Core) (r : Reg) (x : Vec) : (k.writeV r x).orderNo = k.orderNo := rfl
@[simp] theorem Core.writeV_era (k : Core) (r : Reg) (x : Vec) : (k.writeV r x).era = k.era := rfl
@[simp] theorem Core.writeV_committed (k : Core) (r : Reg) (x : Vec) : (k.writeV r x).committed = k.committed := rfl
@[simp] theorem Core.writeV_young (k : Core) (r : Reg) (x : Vec) : (k.writeV r x).young = k.young := rfl
@[simp] theorem Core.writeV_pendingFlags (k : Core) (r : Reg) (x : Vec) : (k.writeV r x).pendingFlags = k.pendingFlags := rfl
@[simp] theorem Core.writeV_ending (k : Core) (r : Reg) (x : Vec) : (k.writeV r x).ending = k.ending := rfl
@[simp] theorem Core.writeV_suspended (k : Core) (r : Reg) (x : Vec) : (k.writeV r x).suspended = k.suspended := rfl
@[simp] theorem Core.writeV_asideMarks (k : Core) (r : Reg) (x : Vec) : (k.writeV r x).asideMarks = k.asideMarks := rfl
@[simp] theorem Core.writeV_word (k : Core) (r : Reg) (x : Vec) : (k.writeV r x).word = k.word := rfl
@[simp] theorem Core.writeV_stepping (k : Core) (r : Reg) (x : Vec) : (k.writeV r x).stepping = k.stepping := rfl
@[simp] theorem Core.writeV_status (k : Core) (r : Reg) (x : Vec) : (k.writeV r x).status = k.status := rfl
@[simp] theorem Core.writeV_trapcause (k : Core) (r : Reg) (x : Vec) : (k.writeV r x).trapcause = k.trapcause := rfl
@[simp] theorem Core.writeV_trappc (k : Core) (r : Reg) (x : Vec) : (k.writeV r x).trappc = k.trappc := rfl
@[simp] theorem Core.writeV_trapval (k : Core) (r : Reg) (x : Vec) : (k.writeV r x).trapval = k.trapval := rfl
@[simp] theorem Core.writeV_trapvec (k : Core) (r : Reg) (x : Vec) : (k.writeV r x).trapvec = k.trapvec := rfl
@[simp] theorem Core.writeV_scratch (k : Core) (r : Reg) (x : Vec) : (k.writeV r x).scratch = k.scratch := rfl
@[simp] theorem Core.writeV_fflags (k : Core) (r : Reg) (x : Vec) : (k.writeV r x).fflags = k.fflags := rfl
@[simp] theorem Core.writeV_vtype (k : Core) (r : Reg) (x : Vec) : (k.writeV r x).vtype = k.vtype := rfl
@[simp] theorem Core.writeV_lmsplit (k : Core) (r : Reg) (x : Vec) : (k.writeV r x).lmsplit = k.lmsplit := rfl
@[simp] theorem Core.writeV_kloader (k : Core) (r : Reg) (x : Vec) : (k.writeV r x).kloader = k.kloader := rfl
@[simp] theorem Core.writeV_klstate (k : Core) (r : Reg) (x : Vec) : (k.writeV r x).klstate = k.klstate := rfl
@[simp] theorem Core.writeV_timestamp (k : Core) (r : Reg) (x : Vec) : (k.writeV r x).timestamp = k.timestamp := rfl
@[simp] theorem Core.writeV_journal (k : Core) (r : Reg) (x : Vec) : (k.writeV r x).journal = k.journal := rfl
@[simp] theorem Core.writeV_journalAt (k : Core) (r : Reg) (x : Vec) : (k.writeV r x).journalAt = k.journalAt := rfl
@[simp] theorem Core.writeV_wp (k : Core) (r : Reg) (x : Vec) : (k.writeV r x).wp = k.wp := rfl
@[simp] theorem Core.writeV_dstat (k : Core) (r : Reg) (x : Vec) : (k.writeV r x).dstat = k.dstat := rfl
@[simp] theorem Core.writeV_dinfo (k : Core) (r : Reg) (x : Vec) : (k.writeV r x).dinfo = k.dinfo := rfl
@[simp] theorem Core.writeV_wpHit (k : Core) (r : Reg) (x : Vec) : (k.writeV r x).wpHit = k.wpHit := rfl
@[simp] theorem Core.writeV_hitDue (k : Core) (r : Reg) (x : Vec) : (k.writeV r x).hitDue = k.hitDue := rfl
@[simp] theorem Core.writeV_rest (k : Core) (r : Reg) (x : Vec) : (k.writeV r x).rest = k.rest := rfl
@[simp] theorem Core.writeV_context (k : Core) (r : Reg) (x : Vec) : (k.writeV r x).context = k.context := rfl
@[simp] theorem Core.writeV_unit (k : Core) (r : Reg) (x : Vec) : (k.writeV r x).unit = k.unit := rfl
@[simp] theorem Core.writeV_lastCard (k : Core) (r : Reg) (x : Vec) : (k.writeV r x).lastCard = k.lastCard := rfl
@[simp] theorem Core.writeV_stackTop (k : Core) (r : Reg) (x : Vec) : (k.writeV r x).stackTop = k.stackTop := rfl
@[simp] theorem Core.writeV_gang (k : Core) (r : Reg) (x : Vec) : (k.writeV r x).gang = k.gang := rfl
@[simp] theorem Core.writeV_wasGang (k : Core) (r : Reg) (x : Vec) : (k.writeV r x).wasGang = k.wasGang := rfl
@[simp] theorem Core.writeV_join (k : Core) (r : Reg) (x : Vec) : (k.writeV r x).join = k.join := rfl
@[simp] theorem Core.writeV_ahead (k : Core) (r : Reg) (x : Vec) : (k.writeV r x).ahead = k.ahead := rfl
@[simp] theorem Core.writeV_path (k : Core) (r : Reg) (x : Vec) : (k.writeV r x).path = k.path := rfl
@[simp] theorem Core.writeV_trail (k : Core) (r : Reg) (x : Vec) : (k.writeV r x).trail = k.trail := rfl
@[simp] theorem Core.writeV_lag (k : Core) (r : Reg) (x : Vec) : (k.writeV r x).lag = k.lag := rfl
@[simp] theorem Core.writeV_savedPath (k : Core) (r : Reg) (x : Vec) : (k.writeV r x).savedPath = k.savedPath := rfl
@[simp] theorem Core.writeV_wake (k : Core) (r : Reg) (x : Vec) : (k.writeV r x).wake = k.wake := rfl
@[simp] theorem Core.writeV_sleeping (k : Core) (r : Reg) (x : Vec) : (k.writeV r x).sleeping = k.sleeping := rfl
@[simp] theorem Core.writeV_futDone (k : Core) (r : Reg) (x : Vec) : (k.writeV r x).futDone = k.futDone := rfl
@[simp] theorem Core.writeV_rechecking (k : Core) (r : Reg) (x : Vec) : (k.writeV r x).rechecking = k.rechecking := rfl
@[simp] theorem Core.writeV_pendingWait (k : Core) (r : Reg) (x : Vec) : (k.writeV r x).pendingWait = k.pendingWait := rfl
@[simp] theorem Core.writeV_sleepUntil (k : Core) (r : Reg) (x : Vec) : (k.writeV r x).sleepUntil = k.sleepUntil := rfl
@[simp] theorem Core.writeV_slept (k : Core) (r : Reg) (x : Vec) : (k.writeV r x).slept = k.slept := rfl
@[simp] theorem Core.writeV_chanStep (k : Core) (r : Reg) (x : Vec) : (k.writeV r x).chanStep = k.chanStep := rfl
@[simp] theorem Core.writeV_barpAt (k : Core) (r : Reg) (x : Vec) : (k.writeV r x).barpAt = k.barpAt := rfl
@[simp] theorem Core.writeV_barpDone (k : Core) (r : Reg) (x : Vec) : (k.writeV r x).barpDone = k.barpDone := rfl
@[simp] theorem Core.writeV_arriving (k : Core) (r : Reg) (x : Vec) : (k.writeV r x).arriving = k.arriving := rfl
@[simp] theorem Core.writeV_preparing (k : Core) (r : Reg) (x : Vec) : (k.writeV r x).preparing = k.preparing := rfl
@[simp] theorem Core.writeV_inPhase (k : Core) (r : Reg) (x : Vec) : (k.writeV r x).inPhase = k.inPhase := rfl
@[simp] theorem Core.writeV_unsent (k : Core) (r : Reg) (x : Vec) : (k.writeV r x).unsent = k.unsent := rfl
@[simp] theorem Core.writeV_empty (k : Core) (r : Reg) (x : Vec) : (k.writeV r x).empty = k.empty := rfl
@[simp] theorem Core.writeV_recvAt (k : Core) (r : Reg) (x : Vec) : (k.writeV r x).recvAt = k.recvAt := rfl
@[simp] theorem Core.writeV_recvBeats (k : Core) (r : Reg) (x : Vec) : (k.writeV r x).recvBeats = k.recvBeats := rfl
@[simp] theorem Core.writeV_xmitAt (k : Core) (r : Reg) (x : Vec) : (k.writeV r x).xmitAt = k.xmitAt := rfl
@[simp] theorem Core.writeV_xmitSent (k : Core) (r : Reg) (x : Vec) : (k.writeV r x).xmitSent = k.xmitSent := rfl
@[simp] theorem Core.writeV_ringWait (k : Core) (r : Reg) (x : Vec) : (k.writeV r x).ringWait = k.ringWait := rfl
@[simp] theorem Core.writeV_ringDone (k : Core) (r : Reg) (x : Vec) : (k.writeV r x).ringDone = k.ringDone := rfl
@[simp] theorem Core.writeV_pend (k : Core) (r : Reg) (x : Vec) : (k.writeV r x).pend = k.pend := rfl
@[simp] theorem Core.writeV_nextPend (k : Core) (r : Reg) (x : Vec) : (k.writeV r x).nextPend = k.nextPend := rfl
@[simp] theorem Core.writeV_held (k : Core) (r : Reg) (x : Vec) : (k.writeV r x).held = k.held := rfl
@[simp] theorem Core.writeV_imgOrder (k : Core) (r : Reg) (x : Vec) : (k.writeV r x).imgOrder = k.imgOrder := rfl
@[simp] theorem Core.writeV_imgGot (k : Core) (r : Reg) (x : Vec) : (k.writeV r x).imgGot = k.imgGot := rfl
@[simp] theorem Core.writeV_l1d (k : Core) (r : Reg) (x : Vec) : (k.writeV r x).l1d = k.l1d := rfl
@[simp] theorem Core.writeV_l1i (k : Core) (r : Reg) (x : Vec) : (k.writeV r x).l1i = k.l1i := rfl
@[simp] theorem Core.writeV_fbuf (k : Core) (r : Reg) (x : Vec) : (k.writeV r x).fbuf = k.fbuf := rfl
@[simp] theorem Core.writeV_lbuf (k : Core) (r : Reg) (x : Vec) : (k.writeV r x).lbuf = k.lbuf := rfl
@[simp] theorem Core.writeV_refetch (k : Core) (r : Reg) (x : Vec) : (k.writeV r x).refetch = k.refetch := rfl
@[simp] theorem Core.writeV_tlb (k : Core) (r : Reg) (x : Vec) : (k.writeV r x).tlb = k.tlb := rfl
@[simp] theorem Core.writeV_walk (k : Core) (r : Reg) (x : Vec) : (k.writeV r x).walk = k.walk := rfl
@[simp] theorem Core.writeV_walkFaults (k : Core) (r : Reg) (x : Vec) : (k.writeV r x).walkFaults = k.walkFaults := rfl
@[simp] theorem Core.writeV_wb (k : Core) (r : Reg) (x : Vec) : (k.writeV r x).wb = k.wb := rfl
@[simp] theorem Core.writeV_fencing (k : Core) (r : Reg) (x : Vec) : (k.writeV r x).fencing = k.fencing := rfl
@[simp] theorem Core.writeV_inWait (k : Core) (r : Reg) (x : Vec) : (k.writeV r x).inWait = k.inWait := rfl
@[simp] theorem Core.writeV_tlbinv (k : Core) (r : Reg) (x : Vec) : (k.writeV r x).tlbinv = k.tlbinv := rfl
@[simp] theorem Core.writeV_routine (k : Core) (r : Reg) (x : Vec) : (k.writeV r x).routine = k.routine := rfl
@[simp] theorem Core.writeV_mslots (k : Core) (r : Reg) (x : Vec) : (k.writeV r x).mslots = k.mslots := rfl
@[simp] theorem Core.writeV_mqueue (k : Core) (r : Reg) (x : Vec) : (k.writeV r x).mqueue = k.mqueue := rfl
@[simp] theorem Core.writeV_carryRecs (k : Core) (r : Reg) (x : Vec) : (k.writeV r x).carryRecs = k.carryRecs := rfl
@[simp] theorem Core.writeV_carryLost (k : Core) (r : Reg) (x : Vec) : (k.writeV r x).carryLost = k.carryLost := rfl
@[simp] theorem Core.writeV_carryLostRaised (k : Core) (r : Reg) (x : Vec) : (k.writeV r x).carryLostRaised = k.carryLostRaised := rfl
@[simp] theorem Core.writeV_tables (k : Core) (r : Reg) (x : Vec) : (k.writeV r x).tables = k.tables := rfl
@[simp] theorem Core.writeV_ppu (k : Core) (r : Reg) (x : Vec) : (k.writeV r x).ppu = k.ppu := rfl
@[simp] theorem Core.writeV_kdo (k : Core) (r : Reg) (x : Vec) : (k.writeV r x).kdo = k.kdo := rfl
@[simp] theorem Core.writeV_qw0 (k : Core) (r : Reg) (x : Vec) : (k.writeV r x).qw0 = k.qw0 := rfl
@[simp] theorem Core.writeV_qw1 (k : Core) (r : Reg) (x : Vec) : (k.writeV r x).qw1 = k.qw1 := rfl
@[simp] theorem Core.writeV_qw2 (k : Core) (r : Reg) (x : Vec) : (k.writeV r x).qw2 = k.qw2 := rfl
@[simp] theorem Core.writeV_qw3 (k : Core) (r : Reg) (x : Vec) : (k.writeV r x).qw3 = k.qw3 := rfl
@[simp] theorem Core.writeV_jobs (k : Core) (r : Reg) (x : Vec) : (k.writeV r x).jobs = k.jobs := rfl
@[simp] theorem Core.writeV_lastJob (k : Core) (r : Reg) (x : Vec) : (k.writeV r x).lastJob = k.lastJob := rfl
@[simp] theorem Core.writeV_wrapped (k : Core) (r : Reg) (x : Vec) : (k.writeV r x).wrapped = k.wrapped := rfl
@[simp] theorem Core.writeV_history (k : Core) (r : Reg) (x : Vec) : (k.writeV r x).history = k.history := rfl
@[simp] theorem Core.writeV_asyncs (k : Core) (r : Reg) (x : Vec) : (k.writeV r x).asyncs = k.asyncs := rfl
@[simp] theorem Core.writeV_asyncLost (k : Core) (r : Reg) (x : Vec) : (k.writeV r x).asyncLost = k.asyncLost := rfl
@[simp] theorem Core.writeV_mentries (k : Core) (r : Reg) (x : Vec) : (k.writeV r x).mentries = k.mentries := rfl
@[simp] theorem Core.writeV_mtargets (k : Core) (r : Reg) (x : Vec) : (k.writeV r x).mtargets = k.mtargets := rfl
@[simp] theorem Core.writeV_fcnt (k : Core) (r : Reg) (x : Vec) : (k.writeV r x).fcnt = k.fcnt := rfl
@[simp] theorem Core.writeV_tcnt (k : Core) (r : Reg) (x : Vec) : (k.writeV r x).tcnt = k.tcnt := rfl
@[simp] theorem Core.writeV_issuedDone (k : Core) (r : Reg) (x : Vec) : (k.writeV r x).issuedDone = k.issuedDone := rfl
@[simp] theorem Core.writeV_miss (k : Core) (r : Reg) (x : Vec) : (k.writeV r x).miss = k.miss := rfl
@[simp] theorem Core.writeV_tasks (k : Core) (r : Reg) (x : Vec) : (k.writeV r x).tasks = k.tasks := rfl
@[simp] theorem Core.writeV_fired (k : Core) (r : Reg) (x : Vec) : (k.writeV r x).fired = k.fired := rfl
@[simp] theorem Core.writeV_bindings (k : Core) (r : Reg) (x : Vec) : (k.writeV r x).bindings = k.bindings := rfl

/-- setMask changes masks alone. -/
theorem Core.setMask_frame (k : Core) (r : KReg) (x : Word) :
    k.setMask r x = { k with masks := (k.setMask r x).masks } := by
  unfold Core.setMask
  split <;> rfl

@[simp] theorem Core.setMask_pc (k : Core) (r : KReg) (x : Word) : (k.setMask r x).pc = k.pc := by rw [Core.setMask_frame]
@[simp] theorem Core.setMask_sregs (k : Core) (r : KReg) (x : Word) : (k.setMask r x).sregs = k.sregs := by rw [Core.setMask_frame]
@[simp] theorem Core.setMask_vregs (k : Core) (r : KReg) (x : Word) : (k.setMask r x).vregs = k.vregs := by rw [Core.setMask_frame]
@[simp] theorem Core.setMask_loops (k : Core) (r : KReg) (x : Word) : (k.setMask r x).loops = k.loops := by rw [Core.setMask_frame]
@[simp] theorem Core.setMask_lcar (k : Core) (r : KReg) (x : Word) : (k.setMask r x).lcar = k.lcar := by rw [Core.setMask_frame]
@[simp] theorem Core.setMask_x1 (k : Core) (r : KReg) (x : Word) : (k.setMask r x).x1 = k.x1 := by rw [Core.setMask_frame]
@[simp] theorem Core.setMask_x2 (k : Core) (r : KReg) (x : Word) : (k.setMask r x).x2 = k.x2 := by rw [Core.setMask_frame]
@[simp] theorem Core.setMask_sbuf (k : Core) (r : KReg) (x : Word) : (k.setMask r x).sbuf = k.sbuf := by rw [Core.setMask_frame]
@[simp] theorem Core.setMask_outq (k : Core) (r : KReg) (x : Word) : (k.setMask r x).outq = k.outq := by rw [Core.setMask_frame]
@[simp] theorem Core.setMask_orderNo (k : Core) (r : KReg) (x : Word) : (k.setMask r x).orderNo = k.orderNo := by rw [Core.setMask_frame]
@[simp] theorem Core.setMask_era (k : Core) (r : KReg) (x : Word) : (k.setMask r x).era = k.era := by rw [Core.setMask_frame]
@[simp] theorem Core.setMask_committed (k : Core) (r : KReg) (x : Word) : (k.setMask r x).committed = k.committed := by rw [Core.setMask_frame]
@[simp] theorem Core.setMask_young (k : Core) (r : KReg) (x : Word) : (k.setMask r x).young = k.young := by rw [Core.setMask_frame]
@[simp] theorem Core.setMask_pendingFlags (k : Core) (r : KReg) (x : Word) : (k.setMask r x).pendingFlags = k.pendingFlags := by rw [Core.setMask_frame]
@[simp] theorem Core.setMask_ending (k : Core) (r : KReg) (x : Word) : (k.setMask r x).ending = k.ending := by rw [Core.setMask_frame]
@[simp] theorem Core.setMask_suspended (k : Core) (r : KReg) (x : Word) : (k.setMask r x).suspended = k.suspended := by rw [Core.setMask_frame]
@[simp] theorem Core.setMask_asideMarks (k : Core) (r : KReg) (x : Word) : (k.setMask r x).asideMarks = k.asideMarks := by rw [Core.setMask_frame]
@[simp] theorem Core.setMask_word (k : Core) (r : KReg) (x : Word) : (k.setMask r x).word = k.word := by rw [Core.setMask_frame]
@[simp] theorem Core.setMask_stepping (k : Core) (r : KReg) (x : Word) : (k.setMask r x).stepping = k.stepping := by rw [Core.setMask_frame]
@[simp] theorem Core.setMask_status (k : Core) (r : KReg) (x : Word) : (k.setMask r x).status = k.status := by rw [Core.setMask_frame]
@[simp] theorem Core.setMask_trapcause (k : Core) (r : KReg) (x : Word) : (k.setMask r x).trapcause = k.trapcause := by rw [Core.setMask_frame]
@[simp] theorem Core.setMask_trappc (k : Core) (r : KReg) (x : Word) : (k.setMask r x).trappc = k.trappc := by rw [Core.setMask_frame]
@[simp] theorem Core.setMask_trapval (k : Core) (r : KReg) (x : Word) : (k.setMask r x).trapval = k.trapval := by rw [Core.setMask_frame]
@[simp] theorem Core.setMask_trapvec (k : Core) (r : KReg) (x : Word) : (k.setMask r x).trapvec = k.trapvec := by rw [Core.setMask_frame]
@[simp] theorem Core.setMask_scratch (k : Core) (r : KReg) (x : Word) : (k.setMask r x).scratch = k.scratch := by rw [Core.setMask_frame]
@[simp] theorem Core.setMask_fflags (k : Core) (r : KReg) (x : Word) : (k.setMask r x).fflags = k.fflags := by rw [Core.setMask_frame]
@[simp] theorem Core.setMask_vtype (k : Core) (r : KReg) (x : Word) : (k.setMask r x).vtype = k.vtype := by rw [Core.setMask_frame]
@[simp] theorem Core.setMask_lmsplit (k : Core) (r : KReg) (x : Word) : (k.setMask r x).lmsplit = k.lmsplit := by rw [Core.setMask_frame]
@[simp] theorem Core.setMask_kloader (k : Core) (r : KReg) (x : Word) : (k.setMask r x).kloader = k.kloader := by rw [Core.setMask_frame]
@[simp] theorem Core.setMask_klstate (k : Core) (r : KReg) (x : Word) : (k.setMask r x).klstate = k.klstate := by rw [Core.setMask_frame]
@[simp] theorem Core.setMask_timestamp (k : Core) (r : KReg) (x : Word) : (k.setMask r x).timestamp = k.timestamp := by rw [Core.setMask_frame]
@[simp] theorem Core.setMask_journal (k : Core) (r : KReg) (x : Word) : (k.setMask r x).journal = k.journal := by rw [Core.setMask_frame]
@[simp] theorem Core.setMask_journalAt (k : Core) (r : KReg) (x : Word) : (k.setMask r x).journalAt = k.journalAt := by rw [Core.setMask_frame]
@[simp] theorem Core.setMask_wp (k : Core) (r : KReg) (x : Word) : (k.setMask r x).wp = k.wp := by rw [Core.setMask_frame]
@[simp] theorem Core.setMask_dstat (k : Core) (r : KReg) (x : Word) : (k.setMask r x).dstat = k.dstat := by rw [Core.setMask_frame]
@[simp] theorem Core.setMask_dinfo (k : Core) (r : KReg) (x : Word) : (k.setMask r x).dinfo = k.dinfo := by rw [Core.setMask_frame]
@[simp] theorem Core.setMask_wpHit (k : Core) (r : KReg) (x : Word) : (k.setMask r x).wpHit = k.wpHit := by rw [Core.setMask_frame]
@[simp] theorem Core.setMask_hitDue (k : Core) (r : KReg) (x : Word) : (k.setMask r x).hitDue = k.hitDue := by rw [Core.setMask_frame]
@[simp] theorem Core.setMask_rest (k : Core) (r : KReg) (x : Word) : (k.setMask r x).rest = k.rest := by rw [Core.setMask_frame]
@[simp] theorem Core.setMask_context (k : Core) (r : KReg) (x : Word) : (k.setMask r x).context = k.context := by rw [Core.setMask_frame]
@[simp] theorem Core.setMask_unit (k : Core) (r : KReg) (x : Word) : (k.setMask r x).unit = k.unit := by rw [Core.setMask_frame]
@[simp] theorem Core.setMask_lastCard (k : Core) (r : KReg) (x : Word) : (k.setMask r x).lastCard = k.lastCard := by rw [Core.setMask_frame]
@[simp] theorem Core.setMask_stackTop (k : Core) (r : KReg) (x : Word) : (k.setMask r x).stackTop = k.stackTop := by rw [Core.setMask_frame]
@[simp] theorem Core.setMask_gang (k : Core) (r : KReg) (x : Word) : (k.setMask r x).gang = k.gang := by rw [Core.setMask_frame]
@[simp] theorem Core.setMask_wasGang (k : Core) (r : KReg) (x : Word) : (k.setMask r x).wasGang = k.wasGang := by rw [Core.setMask_frame]
@[simp] theorem Core.setMask_join (k : Core) (r : KReg) (x : Word) : (k.setMask r x).join = k.join := by rw [Core.setMask_frame]
@[simp] theorem Core.setMask_ahead (k : Core) (r : KReg) (x : Word) : (k.setMask r x).ahead = k.ahead := by rw [Core.setMask_frame]
@[simp] theorem Core.setMask_path (k : Core) (r : KReg) (x : Word) : (k.setMask r x).path = k.path := by rw [Core.setMask_frame]
@[simp] theorem Core.setMask_trail (k : Core) (r : KReg) (x : Word) : (k.setMask r x).trail = k.trail := by rw [Core.setMask_frame]
@[simp] theorem Core.setMask_lag (k : Core) (r : KReg) (x : Word) : (k.setMask r x).lag = k.lag := by rw [Core.setMask_frame]
@[simp] theorem Core.setMask_savedPath (k : Core) (r : KReg) (x : Word) : (k.setMask r x).savedPath = k.savedPath := by rw [Core.setMask_frame]
@[simp] theorem Core.setMask_wake (k : Core) (r : KReg) (x : Word) : (k.setMask r x).wake = k.wake := by rw [Core.setMask_frame]
@[simp] theorem Core.setMask_sleeping (k : Core) (r : KReg) (x : Word) : (k.setMask r x).sleeping = k.sleeping := by rw [Core.setMask_frame]
@[simp] theorem Core.setMask_futDone (k : Core) (r : KReg) (x : Word) : (k.setMask r x).futDone = k.futDone := by rw [Core.setMask_frame]
@[simp] theorem Core.setMask_rechecking (k : Core) (r : KReg) (x : Word) : (k.setMask r x).rechecking = k.rechecking := by rw [Core.setMask_frame]
@[simp] theorem Core.setMask_pendingWait (k : Core) (r : KReg) (x : Word) : (k.setMask r x).pendingWait = k.pendingWait := by rw [Core.setMask_frame]
@[simp] theorem Core.setMask_sleepUntil (k : Core) (r : KReg) (x : Word) : (k.setMask r x).sleepUntil = k.sleepUntil := by rw [Core.setMask_frame]
@[simp] theorem Core.setMask_slept (k : Core) (r : KReg) (x : Word) : (k.setMask r x).slept = k.slept := by rw [Core.setMask_frame]
@[simp] theorem Core.setMask_chanStep (k : Core) (r : KReg) (x : Word) : (k.setMask r x).chanStep = k.chanStep := by rw [Core.setMask_frame]
@[simp] theorem Core.setMask_barpAt (k : Core) (r : KReg) (x : Word) : (k.setMask r x).barpAt = k.barpAt := by rw [Core.setMask_frame]
@[simp] theorem Core.setMask_barpDone (k : Core) (r : KReg) (x : Word) : (k.setMask r x).barpDone = k.barpDone := by rw [Core.setMask_frame]
@[simp] theorem Core.setMask_arriving (k : Core) (r : KReg) (x : Word) : (k.setMask r x).arriving = k.arriving := by rw [Core.setMask_frame]
@[simp] theorem Core.setMask_preparing (k : Core) (r : KReg) (x : Word) : (k.setMask r x).preparing = k.preparing := by rw [Core.setMask_frame]
@[simp] theorem Core.setMask_inPhase (k : Core) (r : KReg) (x : Word) : (k.setMask r x).inPhase = k.inPhase := by rw [Core.setMask_frame]
@[simp] theorem Core.setMask_unsent (k : Core) (r : KReg) (x : Word) : (k.setMask r x).unsent = k.unsent := by rw [Core.setMask_frame]
@[simp] theorem Core.setMask_empty (k : Core) (r : KReg) (x : Word) : (k.setMask r x).empty = k.empty := by rw [Core.setMask_frame]
@[simp] theorem Core.setMask_recvAt (k : Core) (r : KReg) (x : Word) : (k.setMask r x).recvAt = k.recvAt := by rw [Core.setMask_frame]
@[simp] theorem Core.setMask_recvBeats (k : Core) (r : KReg) (x : Word) : (k.setMask r x).recvBeats = k.recvBeats := by rw [Core.setMask_frame]
@[simp] theorem Core.setMask_xmitAt (k : Core) (r : KReg) (x : Word) : (k.setMask r x).xmitAt = k.xmitAt := by rw [Core.setMask_frame]
@[simp] theorem Core.setMask_xmitSent (k : Core) (r : KReg) (x : Word) : (k.setMask r x).xmitSent = k.xmitSent := by rw [Core.setMask_frame]
@[simp] theorem Core.setMask_ringWait (k : Core) (r : KReg) (x : Word) : (k.setMask r x).ringWait = k.ringWait := by rw [Core.setMask_frame]
@[simp] theorem Core.setMask_ringDone (k : Core) (r : KReg) (x : Word) : (k.setMask r x).ringDone = k.ringDone := by rw [Core.setMask_frame]
@[simp] theorem Core.setMask_pend (k : Core) (r : KReg) (x : Word) : (k.setMask r x).pend = k.pend := by rw [Core.setMask_frame]
@[simp] theorem Core.setMask_nextPend (k : Core) (r : KReg) (x : Word) : (k.setMask r x).nextPend = k.nextPend := by rw [Core.setMask_frame]
@[simp] theorem Core.setMask_held (k : Core) (r : KReg) (x : Word) : (k.setMask r x).held = k.held := by rw [Core.setMask_frame]
@[simp] theorem Core.setMask_imgOrder (k : Core) (r : KReg) (x : Word) : (k.setMask r x).imgOrder = k.imgOrder := by rw [Core.setMask_frame]
@[simp] theorem Core.setMask_imgGot (k : Core) (r : KReg) (x : Word) : (k.setMask r x).imgGot = k.imgGot := by rw [Core.setMask_frame]
@[simp] theorem Core.setMask_l1d (k : Core) (r : KReg) (x : Word) : (k.setMask r x).l1d = k.l1d := by rw [Core.setMask_frame]
@[simp] theorem Core.setMask_l1i (k : Core) (r : KReg) (x : Word) : (k.setMask r x).l1i = k.l1i := by rw [Core.setMask_frame]
@[simp] theorem Core.setMask_fbuf (k : Core) (r : KReg) (x : Word) : (k.setMask r x).fbuf = k.fbuf := by rw [Core.setMask_frame]
@[simp] theorem Core.setMask_lbuf (k : Core) (r : KReg) (x : Word) : (k.setMask r x).lbuf = k.lbuf := by rw [Core.setMask_frame]
@[simp] theorem Core.setMask_refetch (k : Core) (r : KReg) (x : Word) : (k.setMask r x).refetch = k.refetch := by rw [Core.setMask_frame]
@[simp] theorem Core.setMask_tlb (k : Core) (r : KReg) (x : Word) : (k.setMask r x).tlb = k.tlb := by rw [Core.setMask_frame]
@[simp] theorem Core.setMask_walk (k : Core) (r : KReg) (x : Word) : (k.setMask r x).walk = k.walk := by rw [Core.setMask_frame]
@[simp] theorem Core.setMask_walkFaults (k : Core) (r : KReg) (x : Word) : (k.setMask r x).walkFaults = k.walkFaults := by rw [Core.setMask_frame]
@[simp] theorem Core.setMask_wb (k : Core) (r : KReg) (x : Word) : (k.setMask r x).wb = k.wb := by rw [Core.setMask_frame]
@[simp] theorem Core.setMask_fencing (k : Core) (r : KReg) (x : Word) : (k.setMask r x).fencing = k.fencing := by rw [Core.setMask_frame]
@[simp] theorem Core.setMask_inWait (k : Core) (r : KReg) (x : Word) : (k.setMask r x).inWait = k.inWait := by rw [Core.setMask_frame]
@[simp] theorem Core.setMask_tlbinv (k : Core) (r : KReg) (x : Word) : (k.setMask r x).tlbinv = k.tlbinv := by rw [Core.setMask_frame]
@[simp] theorem Core.setMask_routine (k : Core) (r : KReg) (x : Word) : (k.setMask r x).routine = k.routine := by rw [Core.setMask_frame]
@[simp] theorem Core.setMask_mslots (k : Core) (r : KReg) (x : Word) : (k.setMask r x).mslots = k.mslots := by rw [Core.setMask_frame]
@[simp] theorem Core.setMask_mqueue (k : Core) (r : KReg) (x : Word) : (k.setMask r x).mqueue = k.mqueue := by rw [Core.setMask_frame]
@[simp] theorem Core.setMask_carryRecs (k : Core) (r : KReg) (x : Word) : (k.setMask r x).carryRecs = k.carryRecs := by rw [Core.setMask_frame]
@[simp] theorem Core.setMask_carryLost (k : Core) (r : KReg) (x : Word) : (k.setMask r x).carryLost = k.carryLost := by rw [Core.setMask_frame]
@[simp] theorem Core.setMask_carryLostRaised (k : Core) (r : KReg) (x : Word) : (k.setMask r x).carryLostRaised = k.carryLostRaised := by rw [Core.setMask_frame]
@[simp] theorem Core.setMask_tables (k : Core) (r : KReg) (x : Word) : (k.setMask r x).tables = k.tables := by rw [Core.setMask_frame]
@[simp] theorem Core.setMask_ppu (k : Core) (r : KReg) (x : Word) : (k.setMask r x).ppu = k.ppu := by rw [Core.setMask_frame]
@[simp] theorem Core.setMask_kdo (k : Core) (r : KReg) (x : Word) : (k.setMask r x).kdo = k.kdo := by rw [Core.setMask_frame]
@[simp] theorem Core.setMask_qw0 (k : Core) (r : KReg) (x : Word) : (k.setMask r x).qw0 = k.qw0 := by rw [Core.setMask_frame]
@[simp] theorem Core.setMask_qw1 (k : Core) (r : KReg) (x : Word) : (k.setMask r x).qw1 = k.qw1 := by rw [Core.setMask_frame]
@[simp] theorem Core.setMask_qw2 (k : Core) (r : KReg) (x : Word) : (k.setMask r x).qw2 = k.qw2 := by rw [Core.setMask_frame]
@[simp] theorem Core.setMask_qw3 (k : Core) (r : KReg) (x : Word) : (k.setMask r x).qw3 = k.qw3 := by rw [Core.setMask_frame]
@[simp] theorem Core.setMask_jobs (k : Core) (r : KReg) (x : Word) : (k.setMask r x).jobs = k.jobs := by rw [Core.setMask_frame]
@[simp] theorem Core.setMask_lastJob (k : Core) (r : KReg) (x : Word) : (k.setMask r x).lastJob = k.lastJob := by rw [Core.setMask_frame]
@[simp] theorem Core.setMask_wrapped (k : Core) (r : KReg) (x : Word) : (k.setMask r x).wrapped = k.wrapped := by rw [Core.setMask_frame]
@[simp] theorem Core.setMask_history (k : Core) (r : KReg) (x : Word) : (k.setMask r x).history = k.history := by rw [Core.setMask_frame]
@[simp] theorem Core.setMask_asyncs (k : Core) (r : KReg) (x : Word) : (k.setMask r x).asyncs = k.asyncs := by rw [Core.setMask_frame]
@[simp] theorem Core.setMask_asyncLost (k : Core) (r : KReg) (x : Word) : (k.setMask r x).asyncLost = k.asyncLost := by rw [Core.setMask_frame]
@[simp] theorem Core.setMask_mentries (k : Core) (r : KReg) (x : Word) : (k.setMask r x).mentries = k.mentries := by rw [Core.setMask_frame]
@[simp] theorem Core.setMask_mtargets (k : Core) (r : KReg) (x : Word) : (k.setMask r x).mtargets = k.mtargets := by rw [Core.setMask_frame]
@[simp] theorem Core.setMask_fcnt (k : Core) (r : KReg) (x : Word) : (k.setMask r x).fcnt = k.fcnt := by rw [Core.setMask_frame]
@[simp] theorem Core.setMask_tcnt (k : Core) (r : KReg) (x : Word) : (k.setMask r x).tcnt = k.tcnt := by rw [Core.setMask_frame]
@[simp] theorem Core.setMask_issuedDone (k : Core) (r : KReg) (x : Word) : (k.setMask r x).issuedDone = k.issuedDone := by rw [Core.setMask_frame]
@[simp] theorem Core.setMask_miss (k : Core) (r : KReg) (x : Word) : (k.setMask r x).miss = k.miss := by rw [Core.setMask_frame]
@[simp] theorem Core.setMask_tasks (k : Core) (r : KReg) (x : Word) : (k.setMask r x).tasks = k.tasks := by rw [Core.setMask_frame]
@[simp] theorem Core.setMask_fired (k : Core) (r : KReg) (x : Word) : (k.setMask r x).fired = k.fired := by rw [Core.setMask_frame]
@[simp] theorem Core.setMask_bindings (k : Core) (r : KReg) (x : Word) : (k.setMask r x).bindings = k.bindings := by rw [Core.setMask_frame]

/-- addFlags changes fflags and pendingFlags alone. -/
theorem Core.addFlags_frame (k : Core) (x : Word) :
    k.addFlags x = { k with fflags := (k.addFlags x).fflags, pendingFlags := (k.addFlags x).pendingFlags } := by
  unfold Core.addFlags
  split <;> rfl

@[simp] theorem Core.addFlags_pc (k : Core) (x : Word) : (k.addFlags x).pc = k.pc := by rw [Core.addFlags_frame]
@[simp] theorem Core.addFlags_sregs (k : Core) (x : Word) : (k.addFlags x).sregs = k.sregs := by rw [Core.addFlags_frame]
@[simp] theorem Core.addFlags_vregs (k : Core) (x : Word) : (k.addFlags x).vregs = k.vregs := by rw [Core.addFlags_frame]
@[simp] theorem Core.addFlags_masks (k : Core) (x : Word) : (k.addFlags x).masks = k.masks := by rw [Core.addFlags_frame]
@[simp] theorem Core.addFlags_loops (k : Core) (x : Word) : (k.addFlags x).loops = k.loops := by rw [Core.addFlags_frame]
@[simp] theorem Core.addFlags_lcar (k : Core) (x : Word) : (k.addFlags x).lcar = k.lcar := by rw [Core.addFlags_frame]
@[simp] theorem Core.addFlags_x1 (k : Core) (x : Word) : (k.addFlags x).x1 = k.x1 := by rw [Core.addFlags_frame]
@[simp] theorem Core.addFlags_x2 (k : Core) (x : Word) : (k.addFlags x).x2 = k.x2 := by rw [Core.addFlags_frame]
@[simp] theorem Core.addFlags_sbuf (k : Core) (x : Word) : (k.addFlags x).sbuf = k.sbuf := by rw [Core.addFlags_frame]
@[simp] theorem Core.addFlags_outq (k : Core) (x : Word) : (k.addFlags x).outq = k.outq := by rw [Core.addFlags_frame]
@[simp] theorem Core.addFlags_orderNo (k : Core) (x : Word) : (k.addFlags x).orderNo = k.orderNo := by rw [Core.addFlags_frame]
@[simp] theorem Core.addFlags_era (k : Core) (x : Word) : (k.addFlags x).era = k.era := by rw [Core.addFlags_frame]
@[simp] theorem Core.addFlags_committed (k : Core) (x : Word) : (k.addFlags x).committed = k.committed := by rw [Core.addFlags_frame]
@[simp] theorem Core.addFlags_young (k : Core) (x : Word) : (k.addFlags x).young = k.young := by rw [Core.addFlags_frame]
@[simp] theorem Core.addFlags_ending (k : Core) (x : Word) : (k.addFlags x).ending = k.ending := by rw [Core.addFlags_frame]
@[simp] theorem Core.addFlags_suspended (k : Core) (x : Word) : (k.addFlags x).suspended = k.suspended := by rw [Core.addFlags_frame]
@[simp] theorem Core.addFlags_asideMarks (k : Core) (x : Word) : (k.addFlags x).asideMarks = k.asideMarks := by rw [Core.addFlags_frame]
@[simp] theorem Core.addFlags_word (k : Core) (x : Word) : (k.addFlags x).word = k.word := by rw [Core.addFlags_frame]
@[simp] theorem Core.addFlags_stepping (k : Core) (x : Word) : (k.addFlags x).stepping = k.stepping := by rw [Core.addFlags_frame]
@[simp] theorem Core.addFlags_status (k : Core) (x : Word) : (k.addFlags x).status = k.status := by rw [Core.addFlags_frame]
@[simp] theorem Core.addFlags_trapcause (k : Core) (x : Word) : (k.addFlags x).trapcause = k.trapcause := by rw [Core.addFlags_frame]
@[simp] theorem Core.addFlags_trappc (k : Core) (x : Word) : (k.addFlags x).trappc = k.trappc := by rw [Core.addFlags_frame]
@[simp] theorem Core.addFlags_trapval (k : Core) (x : Word) : (k.addFlags x).trapval = k.trapval := by rw [Core.addFlags_frame]
@[simp] theorem Core.addFlags_trapvec (k : Core) (x : Word) : (k.addFlags x).trapvec = k.trapvec := by rw [Core.addFlags_frame]
@[simp] theorem Core.addFlags_scratch (k : Core) (x : Word) : (k.addFlags x).scratch = k.scratch := by rw [Core.addFlags_frame]
@[simp] theorem Core.addFlags_vtype (k : Core) (x : Word) : (k.addFlags x).vtype = k.vtype := by rw [Core.addFlags_frame]
@[simp] theorem Core.addFlags_lmsplit (k : Core) (x : Word) : (k.addFlags x).lmsplit = k.lmsplit := by rw [Core.addFlags_frame]
@[simp] theorem Core.addFlags_kloader (k : Core) (x : Word) : (k.addFlags x).kloader = k.kloader := by rw [Core.addFlags_frame]
@[simp] theorem Core.addFlags_klstate (k : Core) (x : Word) : (k.addFlags x).klstate = k.klstate := by rw [Core.addFlags_frame]
@[simp] theorem Core.addFlags_timestamp (k : Core) (x : Word) : (k.addFlags x).timestamp = k.timestamp := by rw [Core.addFlags_frame]
@[simp] theorem Core.addFlags_journal (k : Core) (x : Word) : (k.addFlags x).journal = k.journal := by rw [Core.addFlags_frame]
@[simp] theorem Core.addFlags_journalAt (k : Core) (x : Word) : (k.addFlags x).journalAt = k.journalAt := by rw [Core.addFlags_frame]
@[simp] theorem Core.addFlags_wp (k : Core) (x : Word) : (k.addFlags x).wp = k.wp := by rw [Core.addFlags_frame]
@[simp] theorem Core.addFlags_dstat (k : Core) (x : Word) : (k.addFlags x).dstat = k.dstat := by rw [Core.addFlags_frame]
@[simp] theorem Core.addFlags_dinfo (k : Core) (x : Word) : (k.addFlags x).dinfo = k.dinfo := by rw [Core.addFlags_frame]
@[simp] theorem Core.addFlags_wpHit (k : Core) (x : Word) : (k.addFlags x).wpHit = k.wpHit := by rw [Core.addFlags_frame]
@[simp] theorem Core.addFlags_hitDue (k : Core) (x : Word) : (k.addFlags x).hitDue = k.hitDue := by rw [Core.addFlags_frame]
@[simp] theorem Core.addFlags_rest (k : Core) (x : Word) : (k.addFlags x).rest = k.rest := by rw [Core.addFlags_frame]
@[simp] theorem Core.addFlags_context (k : Core) (x : Word) : (k.addFlags x).context = k.context := by rw [Core.addFlags_frame]
@[simp] theorem Core.addFlags_unit (k : Core) (x : Word) : (k.addFlags x).unit = k.unit := by rw [Core.addFlags_frame]
@[simp] theorem Core.addFlags_lastCard (k : Core) (x : Word) : (k.addFlags x).lastCard = k.lastCard := by rw [Core.addFlags_frame]
@[simp] theorem Core.addFlags_stackTop (k : Core) (x : Word) : (k.addFlags x).stackTop = k.stackTop := by rw [Core.addFlags_frame]
@[simp] theorem Core.addFlags_gang (k : Core) (x : Word) : (k.addFlags x).gang = k.gang := by rw [Core.addFlags_frame]
@[simp] theorem Core.addFlags_wasGang (k : Core) (x : Word) : (k.addFlags x).wasGang = k.wasGang := by rw [Core.addFlags_frame]
@[simp] theorem Core.addFlags_join (k : Core) (x : Word) : (k.addFlags x).join = k.join := by rw [Core.addFlags_frame]
@[simp] theorem Core.addFlags_ahead (k : Core) (x : Word) : (k.addFlags x).ahead = k.ahead := by rw [Core.addFlags_frame]
@[simp] theorem Core.addFlags_path (k : Core) (x : Word) : (k.addFlags x).path = k.path := by rw [Core.addFlags_frame]
@[simp] theorem Core.addFlags_trail (k : Core) (x : Word) : (k.addFlags x).trail = k.trail := by rw [Core.addFlags_frame]
@[simp] theorem Core.addFlags_lag (k : Core) (x : Word) : (k.addFlags x).lag = k.lag := by rw [Core.addFlags_frame]
@[simp] theorem Core.addFlags_savedPath (k : Core) (x : Word) : (k.addFlags x).savedPath = k.savedPath := by rw [Core.addFlags_frame]
@[simp] theorem Core.addFlags_wake (k : Core) (x : Word) : (k.addFlags x).wake = k.wake := by rw [Core.addFlags_frame]
@[simp] theorem Core.addFlags_sleeping (k : Core) (x : Word) : (k.addFlags x).sleeping = k.sleeping := by rw [Core.addFlags_frame]
@[simp] theorem Core.addFlags_futDone (k : Core) (x : Word) : (k.addFlags x).futDone = k.futDone := by rw [Core.addFlags_frame]
@[simp] theorem Core.addFlags_rechecking (k : Core) (x : Word) : (k.addFlags x).rechecking = k.rechecking := by rw [Core.addFlags_frame]
@[simp] theorem Core.addFlags_pendingWait (k : Core) (x : Word) : (k.addFlags x).pendingWait = k.pendingWait := by rw [Core.addFlags_frame]
@[simp] theorem Core.addFlags_sleepUntil (k : Core) (x : Word) : (k.addFlags x).sleepUntil = k.sleepUntil := by rw [Core.addFlags_frame]
@[simp] theorem Core.addFlags_slept (k : Core) (x : Word) : (k.addFlags x).slept = k.slept := by rw [Core.addFlags_frame]
@[simp] theorem Core.addFlags_chanStep (k : Core) (x : Word) : (k.addFlags x).chanStep = k.chanStep := by rw [Core.addFlags_frame]
@[simp] theorem Core.addFlags_barpAt (k : Core) (x : Word) : (k.addFlags x).barpAt = k.barpAt := by rw [Core.addFlags_frame]
@[simp] theorem Core.addFlags_barpDone (k : Core) (x : Word) : (k.addFlags x).barpDone = k.barpDone := by rw [Core.addFlags_frame]
@[simp] theorem Core.addFlags_arriving (k : Core) (x : Word) : (k.addFlags x).arriving = k.arriving := by rw [Core.addFlags_frame]
@[simp] theorem Core.addFlags_preparing (k : Core) (x : Word) : (k.addFlags x).preparing = k.preparing := by rw [Core.addFlags_frame]
@[simp] theorem Core.addFlags_inPhase (k : Core) (x : Word) : (k.addFlags x).inPhase = k.inPhase := by rw [Core.addFlags_frame]
@[simp] theorem Core.addFlags_unsent (k : Core) (x : Word) : (k.addFlags x).unsent = k.unsent := by rw [Core.addFlags_frame]
@[simp] theorem Core.addFlags_empty (k : Core) (x : Word) : (k.addFlags x).empty = k.empty := by rw [Core.addFlags_frame]
@[simp] theorem Core.addFlags_recvAt (k : Core) (x : Word) : (k.addFlags x).recvAt = k.recvAt := by rw [Core.addFlags_frame]
@[simp] theorem Core.addFlags_recvBeats (k : Core) (x : Word) : (k.addFlags x).recvBeats = k.recvBeats := by rw [Core.addFlags_frame]
@[simp] theorem Core.addFlags_xmitAt (k : Core) (x : Word) : (k.addFlags x).xmitAt = k.xmitAt := by rw [Core.addFlags_frame]
@[simp] theorem Core.addFlags_xmitSent (k : Core) (x : Word) : (k.addFlags x).xmitSent = k.xmitSent := by rw [Core.addFlags_frame]
@[simp] theorem Core.addFlags_ringWait (k : Core) (x : Word) : (k.addFlags x).ringWait = k.ringWait := by rw [Core.addFlags_frame]
@[simp] theorem Core.addFlags_ringDone (k : Core) (x : Word) : (k.addFlags x).ringDone = k.ringDone := by rw [Core.addFlags_frame]
@[simp] theorem Core.addFlags_pend (k : Core) (x : Word) : (k.addFlags x).pend = k.pend := by rw [Core.addFlags_frame]
@[simp] theorem Core.addFlags_nextPend (k : Core) (x : Word) : (k.addFlags x).nextPend = k.nextPend := by rw [Core.addFlags_frame]
@[simp] theorem Core.addFlags_held (k : Core) (x : Word) : (k.addFlags x).held = k.held := by rw [Core.addFlags_frame]
@[simp] theorem Core.addFlags_imgOrder (k : Core) (x : Word) : (k.addFlags x).imgOrder = k.imgOrder := by rw [Core.addFlags_frame]
@[simp] theorem Core.addFlags_imgGot (k : Core) (x : Word) : (k.addFlags x).imgGot = k.imgGot := by rw [Core.addFlags_frame]
@[simp] theorem Core.addFlags_l1d (k : Core) (x : Word) : (k.addFlags x).l1d = k.l1d := by rw [Core.addFlags_frame]
@[simp] theorem Core.addFlags_l1i (k : Core) (x : Word) : (k.addFlags x).l1i = k.l1i := by rw [Core.addFlags_frame]
@[simp] theorem Core.addFlags_fbuf (k : Core) (x : Word) : (k.addFlags x).fbuf = k.fbuf := by rw [Core.addFlags_frame]
@[simp] theorem Core.addFlags_lbuf (k : Core) (x : Word) : (k.addFlags x).lbuf = k.lbuf := by rw [Core.addFlags_frame]
@[simp] theorem Core.addFlags_refetch (k : Core) (x : Word) : (k.addFlags x).refetch = k.refetch := by rw [Core.addFlags_frame]
@[simp] theorem Core.addFlags_tlb (k : Core) (x : Word) : (k.addFlags x).tlb = k.tlb := by rw [Core.addFlags_frame]
@[simp] theorem Core.addFlags_walk (k : Core) (x : Word) : (k.addFlags x).walk = k.walk := by rw [Core.addFlags_frame]
@[simp] theorem Core.addFlags_walkFaults (k : Core) (x : Word) : (k.addFlags x).walkFaults = k.walkFaults := by rw [Core.addFlags_frame]
@[simp] theorem Core.addFlags_wb (k : Core) (x : Word) : (k.addFlags x).wb = k.wb := by rw [Core.addFlags_frame]
@[simp] theorem Core.addFlags_fencing (k : Core) (x : Word) : (k.addFlags x).fencing = k.fencing := by rw [Core.addFlags_frame]
@[simp] theorem Core.addFlags_inWait (k : Core) (x : Word) : (k.addFlags x).inWait = k.inWait := by rw [Core.addFlags_frame]
@[simp] theorem Core.addFlags_tlbinv (k : Core) (x : Word) : (k.addFlags x).tlbinv = k.tlbinv := by rw [Core.addFlags_frame]
@[simp] theorem Core.addFlags_routine (k : Core) (x : Word) : (k.addFlags x).routine = k.routine := by rw [Core.addFlags_frame]
@[simp] theorem Core.addFlags_mslots (k : Core) (x : Word) : (k.addFlags x).mslots = k.mslots := by rw [Core.addFlags_frame]
@[simp] theorem Core.addFlags_mqueue (k : Core) (x : Word) : (k.addFlags x).mqueue = k.mqueue := by rw [Core.addFlags_frame]
@[simp] theorem Core.addFlags_carryRecs (k : Core) (x : Word) : (k.addFlags x).carryRecs = k.carryRecs := by rw [Core.addFlags_frame]
@[simp] theorem Core.addFlags_carryLost (k : Core) (x : Word) : (k.addFlags x).carryLost = k.carryLost := by rw [Core.addFlags_frame]
@[simp] theorem Core.addFlags_carryLostRaised (k : Core) (x : Word) : (k.addFlags x).carryLostRaised = k.carryLostRaised := by rw [Core.addFlags_frame]
@[simp] theorem Core.addFlags_tables (k : Core) (x : Word) : (k.addFlags x).tables = k.tables := by rw [Core.addFlags_frame]
@[simp] theorem Core.addFlags_ppu (k : Core) (x : Word) : (k.addFlags x).ppu = k.ppu := by rw [Core.addFlags_frame]
@[simp] theorem Core.addFlags_kdo (k : Core) (x : Word) : (k.addFlags x).kdo = k.kdo := by rw [Core.addFlags_frame]
@[simp] theorem Core.addFlags_qw0 (k : Core) (x : Word) : (k.addFlags x).qw0 = k.qw0 := by rw [Core.addFlags_frame]
@[simp] theorem Core.addFlags_qw1 (k : Core) (x : Word) : (k.addFlags x).qw1 = k.qw1 := by rw [Core.addFlags_frame]
@[simp] theorem Core.addFlags_qw2 (k : Core) (x : Word) : (k.addFlags x).qw2 = k.qw2 := by rw [Core.addFlags_frame]
@[simp] theorem Core.addFlags_qw3 (k : Core) (x : Word) : (k.addFlags x).qw3 = k.qw3 := by rw [Core.addFlags_frame]
@[simp] theorem Core.addFlags_jobs (k : Core) (x : Word) : (k.addFlags x).jobs = k.jobs := by rw [Core.addFlags_frame]
@[simp] theorem Core.addFlags_lastJob (k : Core) (x : Word) : (k.addFlags x).lastJob = k.lastJob := by rw [Core.addFlags_frame]
@[simp] theorem Core.addFlags_wrapped (k : Core) (x : Word) : (k.addFlags x).wrapped = k.wrapped := by rw [Core.addFlags_frame]
@[simp] theorem Core.addFlags_history (k : Core) (x : Word) : (k.addFlags x).history = k.history := by rw [Core.addFlags_frame]
@[simp] theorem Core.addFlags_asyncs (k : Core) (x : Word) : (k.addFlags x).asyncs = k.asyncs := by rw [Core.addFlags_frame]
@[simp] theorem Core.addFlags_asyncLost (k : Core) (x : Word) : (k.addFlags x).asyncLost = k.asyncLost := by rw [Core.addFlags_frame]
@[simp] theorem Core.addFlags_mentries (k : Core) (x : Word) : (k.addFlags x).mentries = k.mentries := by rw [Core.addFlags_frame]
@[simp] theorem Core.addFlags_mtargets (k : Core) (x : Word) : (k.addFlags x).mtargets = k.mtargets := by rw [Core.addFlags_frame]
@[simp] theorem Core.addFlags_fcnt (k : Core) (x : Word) : (k.addFlags x).fcnt = k.fcnt := by rw [Core.addFlags_frame]
@[simp] theorem Core.addFlags_tcnt (k : Core) (x : Word) : (k.addFlags x).tcnt = k.tcnt := by rw [Core.addFlags_frame]
@[simp] theorem Core.addFlags_issuedDone (k : Core) (x : Word) : (k.addFlags x).issuedDone = k.issuedDone := by rw [Core.addFlags_frame]
@[simp] theorem Core.addFlags_miss (k : Core) (x : Word) : (k.addFlags x).miss = k.miss := by rw [Core.addFlags_frame]
@[simp] theorem Core.addFlags_tasks (k : Core) (x : Word) : (k.addFlags x).tasks = k.tasks := by rw [Core.addFlags_frame]
@[simp] theorem Core.addFlags_fired (k : Core) (x : Word) : (k.addFlags x).fired = k.fired := by rw [Core.addFlags_frame]
@[simp] theorem Core.addFlags_bindings (k : Core) (x : Word) : (k.addFlags x).bindings = k.bindings := by rw [Core.addFlags_frame]

end Sys2Proof.Machine
end

