-- ==== Sys2Proof/Laws/Ops.lean ====
section
/-! SUPPORT. What the shared operations can do: issue, the forms, the end of an instruction, ordered execution, and the
canonical form of memory under traps, stalls, stores and records. -/

namespace Sys2Proof.Machine

/-! ## Issue and the register forms -/

/-- A ready instruction runs its body. -/
theorem issue_ready {s : State} {n : Names} (hr : s.core.ready n = true) (hm : s.core.meshBarred = false) (body : Out) :
    s.issue n body = body := by
  simp only [Core.ready, Bool.and_eq_true] at hr
  simp [State.issue, hr.1.1, hr.1.2, hr.2, hm]

/-- All that issue can do: trap for a distance, for a write, or in a transfer phase; wait; or run the body, the names ready. -/
theorem issue_cases (s : State) (n : Names) (body : Out) :
    (s.core.distsOk n = false ∧ s.issue n body = s.trapWord 0x080#10) ∨
      (s.core.distsOk n = true ∧ s.core.writesOk n = false ∧ s.issue n body = s.trapWord 0x0C0#10) ∨
      (s.core.distsOk n = true ∧ s.core.writesOk n = true ∧ s.core.meshBarred = true ∧
        s.issue n body = s.trap 0x342#10 0#64) ∨
      (s.core.distsOk n = true ∧ s.core.writesOk n = true ∧ s.core.meshBarred = false ∧ s.core.full n = false ∧
        s.issue n body = s.stall) ∨
      (s.core.ready n = true ∧ s.core.meshBarred = false ∧ s.issue n body = body) := by
  unfold State.issue Core.ready
  cases s.core.distsOk n <;> cases s.core.writesOk n <;> cases s.core.meshBarred <;> cases s.core.full n <;> simp

/-- An instruction of a quiet core ends at x with its marks cleared. -/
theorem goto_quiet {s : State} (h : s.core.quiet) (x : Word) :
    s.goto x =
      { s with
        core := { s.core with
          pc := x
          held := none
          chanStep := 0
          pendingWait := false
          walkFaults := []
          wb := none
          fencing := false
          inWait := false
          arriving := false
          barpDone := false
          imgOrder := []
          imgGot := [] } } := by
  obtain ⟨hg, hw, hs, hr⟩ := h
  simp [State.goto, State.complete, State.issued, State.afterInstr, hg, hw, hs, hr]

theorem advance_quiet {s : State} (h : s.core.quiet) :
    s.advance =
      { s with
        core := { s.core with
          pc := s.core.pc + 4#64
          held := none
          chanStep := 0
          pendingWait := false
          walkFaults := []
          wb := none
          fencing := false
          inWait := false
          arriving := false
          barpDone := false
          imgOrder := []
          imgGot := [] } } := goto_quiet h _

theorem quiet_writeS {k : Core} (h : k.quiet) (r : Reg) (x : Word) : (k.writeS r x).quiet := by
  simpa [Core.quiet] using h
theorem quiet_writeV {k : Core} (h : k.quiet) (r : Reg) (x : Vec) : (k.writeV r x).quiet := h
theorem quiet_setMask {k : Core} (h : k.quiet) (r : KReg) (x : Word) : (k.setMask r x).quiet := by
  simpa [Core.quiet] using h
theorem quiet_addFlags {k : Core} (h : k.quiet) (x : Word) : (k.addFlags x).quiet := by
  simpa [Core.quiet] using h

theorem form0_ready {s : State} {d : Reg} (hr : s.core.ready { ds := [d] } = true) (hm : s.core.meshBarred = false) (x : Word) :
    s.form0 d x = .next (s.setS d x).advance := issue_ready hr hm _

theorem form1_ready {s : State} {d a : Reg} {da : Nat} (hr : s.core.ready { ss := [(a, da)], ds := [d] } = true)
    (hm : s.core.meshBarred = false) (f : Word → Word) :
    s.form1 d a da f = .next (s.setS d (f (s.src a da))).advance := issue_ready hr hm _

theorem form2_ready {s : State} {d a b : Reg} {da db : Nat}
    (hr : s.core.ready { ss := [(a, da), (b, db)], ds := [d] } = true) (hm : s.core.meshBarred = false)
    (f : Word → Word → Word) :
    s.form2 d a da b db f = .next (s.setS d (f (s.src a da) (s.src b db))).advance := issue_ready hr hm _

theorem form3_ready {s : State} {d a b : Reg} {da db : Nat}
    (hr : s.core.ready { ss := [(a, da), (b, db), (d, 0)], ds := [d] } = true) (hm : s.core.meshBarred = false)
    (f : Word → Word → Word → Word) :
    s.form3 d a da b db f = .next (s.setS d (f (s.src d 0) (s.src a da) (s.src b db))).advance := issue_ready hr hm _

/-! ## Ordered execution -/

/-- Outside a loop with W > 1, with nothing buffered or still to be sent, an ordered instruction acts at once. -/
theorem ordered_calm {s : State} (ho : s.core.overlapped = false) (hb : s.core.sbuf = []) (hq : s.core.outq = [])
    (body : State → Out) : s.ordered body = body s := by
  simp [State.ordered, State.flushable, State.flush, ho, hb, hq]

/-! ## The focus -/

theorem focus_mem (s : State) (c : CoreId) : (s.focus c).mem = s.mem := by
  unfold State.focus
  split <;> rfl

theorem rotate_mem (s : State) : s.rotate.mem = s.mem := by
  unfold State.rotate
  split
  · exact focus_mem s _
  · rfl

theorem rotateIfStopped_mem (s : State) : s.rotateIfStopped.mem = s.mem := by
  unfold State.rotateIfStopped
  split
  · exact rotate_mem s
  · rfl

theorem setCore_mem (s : State) (c : CoreId) (k : Core) : (s.setCore c k).mem = s.mem := by
  unfold State.setCore
  split <;> rfl

theorem mapCore_mem (s : State) (c : CoreId) (f : Core → Core) : (s.mapCore c f).mem = s.mem := setCore_mem s c _

theorem getCore_setCore_same (s : State) (c : CoreId) (k : Core) : (s.setCore c k).getCore c = k := by
  unfold State.setCore State.getCore
  by_cases h : c = s.cur <;> simp [h]

theorem getCore_setCore_of_ne {s : State} {c d : CoreId} (h : d ≠ c) (k : Core) : (s.setCore c k).getCore d = s.getCore d := by
  unfold State.setCore State.getCore
  by_cases hc : c = s.cur
  · subst hc
    simp [h]
  · by_cases hd : d = s.cur <;> simp [hc, hd, tget_tset_of_ne h]

/-! ## Memory stays in its form -/

/-- The outcome, if it is a next state, has its memory in the canonical form. -/
def Keeps (o : Out) : Prop := ∀ t, o = .next t → t.MemWf

theorem keeps_next {t : State} (h : t.MemWf) : Keeps (.next t) := fun _ e => by cases e; exact h
theorem keeps_refused (r : Refusal) : Keeps (.refused r) := fun _ e => by cases e

theorem foldl_keeps {α β : Type} (P : β → Prop) (f : β → α → β) (hf : ∀ b a, P b → P (f b a)) :
    ∀ (l : List α) (b : β), P b → P (l.foldl f b) := by
  intro l
  induction l with
  | nil => intro b h; exact h
  | cons a l ih => intro b h; exact ih _ (hf b a h)

theorem memWf_of_eq {s t : State} (e : t.mem = s.mem) (h : s.MemWf) : t.MemWf := by
  unfold State.MemWf
  rw [e]
  exact h

theorem logWrite_mem (s : State) (n key : Nat) : (s.logWrite n key).mem = s.mem := by
  unfold State.logWrite
  split
  · rfl
  · split
    · rfl
    · split <;> rfl

/-- A write at its point. -/
theorem writeAt_mem (s : State) (n key size v : Nat) : (s.writeAt n key size v).mem = memWrite s.mem key v size := by
  show memWrite (s.logWrite n key).mem key v size = _
  rw [logWrite_mem]

theorem writeAt_memWf {s : State} (h : s.MemWf) (n key size v : Nat) : (s.writeAt n key size v).MemWf := by
  unfold State.MemWf
  rw [writeAt_mem]
  exact wf_memWrite _ _ _ _ h

theorem putBytes_memWf {s : State} (h : s.MemWf) (key : Nat) (b : List Byte) : (s.putBytes key b).MemWf :=
  wf_memWriteBytes _ _ _ h

theorem countCtx_mem (s : State) (ctx idx n : Nat) : (s.countCtx ctx idx n).mem = s.mem := by
  unfold State.countCtx
  split <;> rfl

theorem countAt_mem (s : State) (ctx pa : Nat) : (s.countAt ctx pa).mem = s.mem := by
  unfold State.countAt
  split
  · simp only [State.countHbm, countCtx_mem]
  · exact countCtx_mem _ _ _ _

theorem setFut_memWf {s : State} (h : s.MemWf) (n i : Nat) (e : FutEntry) : (s.setFut n i e).MemWf :=
  memWf_of_eq (countAt_mem _ _ _) (putBytes_memWf (memWf_of_eq (logWrite_mem _ _ _) h) _ _)

theorem addWaiter_memWf {s : State} (h : s.MemWf) (ctx i n : Nat) (who : Waiter) : (s.addWaiter ctx i n who).MemWf := by
  unfold State.addWaiter
  apply setFut_memWf
  exact h

theorem relink_memWf {s : State} (h : s.MemWf) (ctx i : Nat) (l : List Nat) : (s.relink ctx i l).MemWf := by
  unfold State.relink
  apply setFut_memWf
  exact h

theorem unwait_memWf {s : State} (h : s.MemWf) (ctx i n : Nat) : (s.unwait ctx i n).MemWf := by
  unfold State.unwait
  have := relink_memWf h ctx i ((s.waitList (s.fut ctx i).nwait (s.fut ctx i).whead).filter (· ≠ n))
  exact this

theorem unsleep_memWf {s : State} (h : s.MemWf) (c : CoreId) : (s.unsleep c).MemWf := by
  unfold State.unsleep
  dsimp only
  split
  · exact memWf_of_eq (setCore_mem _ _ _) (unwait_memWf h _ _ _)
  · exact h

theorem notify_memWf {s : State} (h : s.MemWf) (n kind queue cause detail : Nat) : (s.notify n kind queue cause detail).MemWf := by
  unfold State.notify
  split
  · exact h
  · next x _ =>
    dsimp only
    have hc : (s.countAt n x.desc.nqbase).MemWf := memWf_of_eq (countAt_mem _ _ _) h
    split
    · exact h
    · split
      · exact putBytes_memWf hc _ _
      · exact putBytes_memWf (putBytes_memWf (memWf_of_eq (countAt_mem _ _ _) hc) _ _) _ _

theorem enterCore_memWf {s : State} (h : s.MemWf) (c : CoreId) (cause : Cause) (async : Bool) (gang : Option Stow)
    (pc at_ raised val : Word) : (s.enterCore c cause async gang pc at_ raised val).MemWf := by
  unfold State.enterCore
  dsimp only
  split
  · split
    · exact notify_memWf (memWf_of_eq (setCore_mem _ _ _) (unsleep_memWf h c)) _ _ _ _ _
    · exact memWf_of_eq (setCore_mem _ _ _) (unsleep_memWf h c)
  · exact memWf_of_eq (setCore_mem _ _ _) (unsleep_memWf h c)

theorem enter_memWf {s : State} (h : s.MemWf) (cause : Cause) (async alike : Bool) (pc at_ val : Word) :
    (s.enter cause async alike pc at_ val).MemWf := by
  unfold State.enter
  split
  · exact enterCore_memWf h _ _ _ _ _ _ _ _
  · exact foldl_keeps State.MemWf _ (fun t c ht => enterCore_memWf ht _ _ _ _ _ _ _ _) _ _ h

theorem pathDone_mem (s : State) (g : Gang) : (s.pathDone g).mem = s.mem := by
  unfold State.pathDone
  split
  · exact foldl_keeps (fun t : State => t.mem = s.mem) _ (fun t c ht => (mapCore_mem t c _).trans ht) _ _ rfl
  · rfl

theorem trimTrail_mem (s : State) (g : Gang) : (s.trimTrail g).mem = s.mem := mapCore_mem _ _ _

theorem issued_mem (s : State) : s.issued.mem = s.mem := by
  unfold State.issued
  split
  · rfl
  · split
    · rw [pathDone_mem]
    · rw [trimTrail_mem]

theorem noFill_mem (s : State) (c : CoreId) (f : Nat → Bool) : (s.noFill c f).mem = s.mem := rfl

theorem ownLines_mem (s : State) (r : Req) : (s.ownLines r).mem = s.mem := by
  unfold State.ownLines
  split <;> rfl

theorem takeEntry_mem (s : State) (i owner off size : Nat) : (s.takeEntry i owner off size).mem = s.mem := rfl

theorem send_memWf {s : State} (h : s.MemWf) (r : Req) : (s.send r).MemWf := by
  unfold State.send
  split
  · split
    · dsimp only
      split
      · exact h
      · split
        · exact writeAt_memWf (s := s.heal r.whole _) h _ _ _ _
        · exact writeAt_memWf (s := s.heal r.whole _) h _ _ _ _
    · exact h
  · exact memWf_of_eq (ownLines_mem s r) h

theorem stopCluster_mem (s : State) (cl : Nat) : (s.stopCluster cl).mem = s.mem := rfl

theorem wpStop_mem (s : State) (c : CoreId) (i agent : Nat) : (s.wpStop c i agent).mem = s.mem := by
  unfold State.wpStop
  dsimp only
  split
  · rfl
  · rw [stopCluster_mem, setCore_mem]

theorem watchPieces_mem (s : State) (acc : Access) (l : List (Nat × Piece)) : (s.watchPieces acc l).mem = s.mem := by
  unfold State.watchPieces
  dsimp only
  split
  · rfl
  · split
    · rfl
    · exact wpStop_mem _ _ _ _

theorem watchOwn_mem (s : State) (acc : Access) (p : Piece) : (s.watchOwn acc p).mem = s.mem := watchPieces_mem s acc _

/-- All that a drain does is send stores, take journal entries, and leave the rest for later. -/
theorem drain_memWf {s : State} (h : s.MemWf) (rs : List Req) : (s.drain rs).MemWf := by
  induction rs generalizing s with
  | nil => exact h
  | cons r t ih =>
    unfold State.drain
    split
    · exact h
    · split
      · exact ih (send_memWf h r)
      · split
        · exact h
        · exact ih (send_memWf (memWf_of_eq (takeEntry_mem _ _ _ _ _) h) _)

theorem watchBuffered_mem (s : State) (rs : List Req) : (s.watchBuffered rs).mem = s.mem := watchPieces_mem _ _ _

theorem flush_memWf {s : State} (h : s.MemWf) : s.flush.MemWf := by
  unfold State.flush
  split
  · split <;> exact h
  · refine drain_memWf (foldl_keeps State.MemWf _ (fun t rs ht => memWf_of_eq (watchBuffered_mem t rs) ht) _ _ ?_) _
    exact h

theorem flushAll_memWf {s : State} (h : s.MemWf) : s.flushAll.MemWf := by
  unfold State.flushAll
  split
  · exact flush_memWf h
  · exact foldl_keeps State.MemWf _
      (fun t c ht => memWf_of_eq (focus_mem _ _) (flush_memWf (memWf_of_eq (focus_mem _ _) ht))) _ _ h

theorem hitTrap_memWf {s : State} (h : s.MemWf) (x : Async × Word) : (s.hitTrap x).MemWf := by
  unfold State.hitTrap
  dsimp only
  split
  · split
    · exact enter_memWf (s := State.upd _ _) (flushAll_memWf h) _ _ _ _ _ _
    · exact flushAll_memWf h
  · exact h

theorem afterInstr_memWf {s : State} (h : s.MemWf) : s.afterInstr.MemWf := by
  unfold State.afterInstr
  split
  · exact hitTrap_memWf h _
  · split <;> exact h

theorem complete_memWf {s : State} (h : s.MemWf) : s.complete.MemWf := by
  unfold State.complete
  split
  · exact afterInstr_memWf h
  · exact afterInstr_memWf (memWf_of_eq (issued_mem _) h)

theorem goto_memWf {s : State} (h : s.MemWf) (x : Word) : (s.goto x).MemWf := by
  unfold State.goto
  dsimp only
  split
  · exact h
  · exact complete_memWf h

theorem advance_memWf {s : State} (h : s.MemWf) : s.advance.MemWf := goto_memWf h _

theorem keeps_stall {s : State} (h : s.MemWf) : Keeps s.stall := keeps_next (memWf_of_eq (rotate_mem s) h)

theorem keeps_waits {s : State} (h : s.MemWf) : Keeps s.waits := by
  unfold State.waits
  dsimp only
  split
  · refine keeps_next (memWf_of_eq (rotate_mem _)
      (foldl_keeps State.MemWf _ (fun t c ht => memWf_of_eq (mapCore_mem t c _) ht) _ _ ?_))
    exact h
  · exact keeps_stall (s := { s with core := { s.core with inWait := true, arriving := false } }) h

theorem keeps_takeTrap {s : State} (h : s.MemWf) (cause : Cause) (alike : Bool) (pc at_ val : Word) :
    Keeps (s.takeTrap cause alike pc at_ val) := by
  unfold State.takeTrap
  split
  · dsimp only
    split
    · exact keeps_next (memWf_of_eq (rotateIfStopped_mem _) (enter_memWf (flushAll_memWf h) _ _ _ _ _ _))
    · exact keeps_next (memWf_of_eq (rotate_mem _) (flushAll_memWf h))
  · exact keeps_stall h

theorem keeps_trapFrom {s : State} (h : s.MemWf) (cause : Cause) (alike : Bool) (pc at_ val : Word) :
    Keeps (s.trapFrom cause alike pc at_ val) := by
  unfold State.trapFrom
  split
  · refine keeps_takeTrap ?_ _ _ _ _ _
    exact h
  · exact keeps_takeTrap h _ _ _ _ _

theorem keeps_trapAt {s : State} (h : s.MemWf) (cause : Cause) (pc val : Word) : Keeps (s.trapAt cause pc val) :=
  keeps_trapFrom h _ _ _ _ _

theorem keeps_trap {s : State} (h : s.MemWf) (cause : Cause) (val : Word) : Keeps (s.trap cause val) := keeps_trapAt h _ _ _

theorem keeps_trapWord {s : State} (h : s.MemWf) (cause : Cause) : Keeps (s.trapWord cause) := keeps_trap h _ _

theorem keeps_trapOpen {s : State} (h : s.MemWf) (cause : Cause) : Keeps (s.trapOpen cause) := by
  unfold State.trapOpen
  split
  · exact keeps_trap (s := { s with fresh := s.fresh + 1 }) h _ _
  · exact keeps_stall h

/-- Issue keeps the form when the body does. -/
theorem keeps_issue {s : State} (h : s.MemWf) (n : Names) {body : Out} (hb : Keeps body) : Keeps (s.issue n body) := by
  rcases issue_cases s n body with h' | h' | h' | h' | h'
  · rw [h'.2]; exact keeps_trapWord h _
  · rw [h'.2.2]; exact keeps_trapWord h _
  · rw [h'.2.2.2]; exact keeps_trap h _ _
  · rw [h'.2.2.2.2]; exact keeps_stall h
  · rw [h'.2.2]; exact hb

theorem keeps_ordered {s : State} (h : s.MemWf) {body : State → Out} (hb : ∀ t : State, t.MemWf → Keeps (body t)) :
    Keeps (s.ordered body) := by
  unfold State.ordered
  split
  · exact hb _ h
  · split
    · exact keeps_stall h
    · split
      · exact hb _ (flush_memWf h)
      · exact keeps_next (memWf_of_eq (rotate_mem _) (flush_memWf h))

theorem keeps_form0 {s : State} (h : s.MemWf) (d : Reg) (x : Word) : Keeps (s.form0 d x) :=
  keeps_issue h _ (keeps_next (advance_memWf h))
theorem keeps_form1 {s : State} (h : s.MemWf) (d a : Reg) (da : Nat) (f : Word → Word) : Keeps (s.form1 d a da f) :=
  keeps_issue h _ (keeps_next (advance_memWf h))
theorem keeps_form2 {s : State} (h : s.MemWf) (d a : Reg) (da : Nat) (b : Reg) (db : Nat) (f : Word → Word → Word) :
    Keeps (s.form2 d a da b db f) := keeps_issue h _ (keeps_next (advance_memWf h))
theorem keeps_form3 {s : State} (h : s.MemWf) (d a : Reg) (da : Nat) (b : Reg) (db : Nat) (f : Word → Word → Word → Word) :
    Keeps (s.form3 d a da b db f) := keeps_issue h _ (keeps_next (advance_memWf h))

end Sys2Proof.Machine
end

