-- ==== Sys2Proof/Laws/PerInstr.lean ====
section
/-! SUPPORT. What holds of each instruction as syntax: the word of a well-formed instruction decodes to it. -/

namespace Sys2Proof.Laws.Encoding

/-- The word of the instruction, where it has one, decodes to the instruction with every operand (R53, R56, R71 to R77). -/
def Statement (i : Instr) : Prop := ∀ w : Word32, i.wf = true → encode i = some w → decode w = .ok i

theorem add (d : Reg) (a : Reg) (da : Dist) (b : Reg) (db : Dist) : Statement (.add d a da b db) := by
  intro word _ he
  have hb := bits_of (ns := [6, 5, 5, 2, 5, 2]) (Option.some.inj he)
    ⟨by decide, by decide, by decide, d.isLt, by decide, a.isLt, by decide, da.isLt, by decide, b.isLt, by decide, db.isLt, trivial⟩
  unfold decode
  rw [show _ = 1#6 from hb 26 6 rfl]
  change decodeIop _ = _
  unfold decodeIop
  rw [show _ = 0#7 from hb 0 7 rfl]
  change Except.ok _ = _
  simp only [(hb 21 5 rfl).trans (ofNat_toNat d), (hb 16 5 rfl).trans (ofNat_toNat a), (hb 14 2 rfl).trans (ofNat_toNat da), (hb 9 5 rfl).trans (ofNat_toNat b), (hb 7 2 rfl).trans (ofNat_toNat db)]

theorem sub (d : Reg) (a : Reg) (da : Dist) (b : Reg) (db : Dist) : Statement (.sub d a da b db) := by
  intro word _ he
  have hb := bits_of (ns := [6, 5, 5, 2, 5, 2, 7]) (Option.some.inj he)
    ⟨by decide, by decide, by decide, d.isLt, by decide, a.isLt, by decide, da.isLt, by decide, b.isLt, by decide, db.isLt, by decide, by decide, trivial⟩
  unfold decode
  rw [show _ = 1#6 from hb 26 6 rfl]
  change decodeIop _ = _
  unfold decodeIop
  rw [show _ = 1#7 from hb 0 7 rfl]
  change Except.ok _ = _
  simp only [(hb 21 5 rfl).trans (ofNat_toNat d), (hb 16 5 rfl).trans (ofNat_toNat a), (hb 14 2 rfl).trans (ofNat_toNat da), (hb 9 5 rfl).trans (ofNat_toNat b), (hb 7 2 rfl).trans (ofNat_toNat db)]

theorem mul (d : Reg) (a : Reg) (da : Dist) (b : Reg) (db : Dist) : Statement (.mul d a da b db) := by
  intro word _ he
  have hb := bits_of (ns := [6, 5, 5, 2, 5, 2, 7]) (Option.some.inj he)
    ⟨by decide, by decide, by decide, d.isLt, by decide, a.isLt, by decide, da.isLt, by decide, b.isLt, by decide, db.isLt, by decide, by decide, trivial⟩
  unfold decode
  rw [show _ = 1#6 from hb 26 6 rfl]
  change decodeIop _ = _
  unfold decodeIop
  rw [show _ = 2#7 from hb 0 7 rfl]
  change Except.ok _ = _
  simp only [(hb 21 5 rfl).trans (ofNat_toNat d), (hb 16 5 rfl).trans (ofNat_toNat a), (hb 14 2 rfl).trans (ofNat_toNat da), (hb 9 5 rfl).trans (ofNat_toNat b), (hb 7 2 rfl).trans (ofNat_toNat db)]

theorem mulh (d : Reg) (a : Reg) (da : Dist) (b : Reg) (db : Dist) : Statement (.mulh d a da b db) := by
  intro word _ he
  have hb := bits_of (ns := [6, 5, 5, 2, 5, 2, 7]) (Option.some.inj he)
    ⟨by decide, by decide, by decide, d.isLt, by decide, a.isLt, by decide, da.isLt, by decide, b.isLt, by decide, db.isLt, by decide, by decide, trivial⟩
  unfold decode
  rw [show _ = 1#6 from hb 26 6 rfl]
  change decodeIop _ = _
  unfold decodeIop
  rw [show _ = 3#7 from hb 0 7 rfl]
  change Except.ok _ = _
  simp only [(hb 21 5 rfl).trans (ofNat_toNat d), (hb 16 5 rfl).trans (ofNat_toNat a), (hb 14 2 rfl).trans (ofNat_toNat da), (hb 9 5 rfl).trans (ofNat_toNat b), (hb 7 2 rfl).trans (ofNat_toNat db)]

theorem mulhu (d : Reg) (a : Reg) (da : Dist) (b : Reg) (db : Dist) : Statement (.mulhu d a da b db) := by
  intro word _ he
  have hb := bits_of (ns := [6, 5, 5, 2, 5, 2, 7]) (Option.some.inj he)
    ⟨by decide, by decide, by decide, d.isLt, by decide, a.isLt, by decide, da.isLt, by decide, b.isLt, by decide, db.isLt, by decide, by decide, trivial⟩
  unfold decode
  rw [show _ = 1#6 from hb 26 6 rfl]
  change decodeIop _ = _
  unfold decodeIop
  rw [show _ = 4#7 from hb 0 7 rfl]
  change Except.ok _ = _
  simp only [(hb 21 5 rfl).trans (ofNat_toNat d), (hb 16 5 rfl).trans (ofNat_toNat a), (hb 14 2 rfl).trans (ofNat_toNat da), (hb 9 5 rfl).trans (ofNat_toNat b), (hb 7 2 rfl).trans (ofNat_toNat db)]

theorem madd (d : Reg) (a : Reg) (da : Dist) (b : Reg) (db : Dist) : Statement (.madd d a da b db) := by
  intro word _ he
  have hb := bits_of (ns := [6, 5, 5, 2, 5, 2, 7]) (Option.some.inj he)
    ⟨by decide, by decide, by decide, d.isLt, by decide, a.isLt, by decide, da.isLt, by decide, b.isLt, by decide, db.isLt, by decide, by decide, trivial⟩
  unfold decode
  rw [show _ = 1#6 from hb 26 6 rfl]
  change decodeIop _ = _
  unfold decodeIop
  rw [show _ = 5#7 from hb 0 7 rfl]
  change Except.ok _ = _
  simp only [(hb 21 5 rfl).trans (ofNat_toNat d), (hb 16 5 rfl).trans (ofNat_toNat a), (hb 14 2 rfl).trans (ofNat_toNat da), (hb 9 5 rfl).trans (ofNat_toNat b), (hb 7 2 rfl).trans (ofNat_toNat db)]

theorem div (d : Reg) (a : Reg) (da : Dist) (b : Reg) (db : Dist) : Statement (.div d a da b db) := by
  intro word _ he
  have hb := bits_of (ns := [6, 5, 5, 2, 5, 2, 7]) (Option.some.inj he)
    ⟨by decide, by decide, by decide, d.isLt, by decide, a.isLt, by decide, da.isLt, by decide, b.isLt, by decide, db.isLt, by decide, by decide, trivial⟩
  unfold decode
  rw [show _ = 1#6 from hb 26 6 rfl]
  change decodeIop _ = _
  unfold decodeIop
  rw [show _ = 6#7 from hb 0 7 rfl]
  change Except.ok _ = _
  simp only [(hb 21 5 rfl).trans (ofNat_toNat d), (hb 16 5 rfl).trans (ofNat_toNat a), (hb 14 2 rfl).trans (ofNat_toNat da), (hb 9 5 rfl).trans (ofNat_toNat b), (hb 7 2 rfl).trans (ofNat_toNat db)]

theorem divu (d : Reg) (a : Reg) (da : Dist) (b : Reg) (db : Dist) : Statement (.divu d a da b db) := by
  intro word _ he
  have hb := bits_of (ns := [6, 5, 5, 2, 5, 2, 7]) (Option.some.inj he)
    ⟨by decide, by decide, by decide, d.isLt, by decide, a.isLt, by decide, da.isLt, by decide, b.isLt, by decide, db.isLt, by decide, by decide, trivial⟩
  unfold decode
  rw [show _ = 1#6 from hb 26 6 rfl]
  change decodeIop _ = _
  unfold decodeIop
  rw [show _ = 7#7 from hb 0 7 rfl]
  change Except.ok _ = _
  simp only [(hb 21 5 rfl).trans (ofNat_toNat d), (hb 16 5 rfl).trans (ofNat_toNat a), (hb 14 2 rfl).trans (ofNat_toNat da), (hb 9 5 rfl).trans (ofNat_toNat b), (hb 7 2 rfl).trans (ofNat_toNat db)]

theorem rem (d : Reg) (a : Reg) (da : Dist) (b : Reg) (db : Dist) : Statement (.rem d a da b db) := by
  intro word _ he
  have hb := bits_of (ns := [6, 5, 5, 2, 5, 2, 7]) (Option.some.inj he)
    ⟨by decide, by decide, by decide, d.isLt, by decide, a.isLt, by decide, da.isLt, by decide, b.isLt, by decide, db.isLt, by decide, by decide, trivial⟩
  unfold decode
  rw [show _ = 1#6 from hb 26 6 rfl]
  change decodeIop _ = _
  unfold decodeIop
  rw [show _ = 8#7 from hb 0 7 rfl]
  change Except.ok _ = _
  simp only [(hb 21 5 rfl).trans (ofNat_toNat d), (hb 16 5 rfl).trans (ofNat_toNat a), (hb 14 2 rfl).trans (ofNat_toNat da), (hb 9 5 rfl).trans (ofNat_toNat b), (hb 7 2 rfl).trans (ofNat_toNat db)]

theorem remu (d : Reg) (a : Reg) (da : Dist) (b : Reg) (db : Dist) : Statement (.remu d a da b db) := by
  intro word _ he
  have hb := bits_of (ns := [6, 5, 5, 2, 5, 2, 7]) (Option.some.inj he)
    ⟨by decide, by decide, by decide, d.isLt, by decide, a.isLt, by decide, da.isLt, by decide, b.isLt, by decide, db.isLt, by decide, by decide, trivial⟩
  unfold decode
  rw [show _ = 1#6 from hb 26 6 rfl]
  change decodeIop _ = _
  unfold decodeIop
  rw [show _ = 9#7 from hb 0 7 rfl]
  change Except.ok _ = _
  simp only [(hb 21 5 rfl).trans (ofNat_toNat d), (hb 16 5 rfl).trans (ofNat_toNat a), (hb 14 2 rfl).trans (ofNat_toNat da), (hb 9 5 rfl).trans (ofNat_toNat b), (hb 7 2 rfl).trans (ofNat_toNat db)]

theorem and (d : Reg) (a : Reg) (da : Dist) (b : Reg) (db : Dist) : Statement (.and d a da b db) := by
  intro word _ he
  have hb := bits_of (ns := [6, 5, 5, 2, 5, 2, 7]) (Option.some.inj he)
    ⟨by decide, by decide, by decide, d.isLt, by decide, a.isLt, by decide, da.isLt, by decide, b.isLt, by decide, db.isLt, by decide, by decide, trivial⟩
  unfold decode
  rw [show _ = 1#6 from hb 26 6 rfl]
  change decodeIop _ = _
  unfold decodeIop
  rw [show _ = 10#7 from hb 0 7 rfl]
  change Except.ok _ = _
  simp only [(hb 21 5 rfl).trans (ofNat_toNat d), (hb 16 5 rfl).trans (ofNat_toNat a), (hb 14 2 rfl).trans (ofNat_toNat da), (hb 9 5 rfl).trans (ofNat_toNat b), (hb 7 2 rfl).trans (ofNat_toNat db)]

theorem or (d : Reg) (a : Reg) (da : Dist) (b : Reg) (db : Dist) : Statement (.or d a da b db) := by
  intro word _ he
  have hb := bits_of (ns := [6, 5, 5, 2, 5, 2, 7]) (Option.some.inj he)
    ⟨by decide, by decide, by decide, d.isLt, by decide, a.isLt, by decide, da.isLt, by decide, b.isLt, by decide, db.isLt, by decide, by decide, trivial⟩
  unfold decode
  rw [show _ = 1#6 from hb 26 6 rfl]
  change decodeIop _ = _
  unfold decodeIop
  rw [show _ = 11#7 from hb 0 7 rfl]
  change Except.ok _ = _
  simp only [(hb 21 5 rfl).trans (ofNat_toNat d), (hb 16 5 rfl).trans (ofNat_toNat a), (hb 14 2 rfl).trans (ofNat_toNat da), (hb 9 5 rfl).trans (ofNat_toNat b), (hb 7 2 rfl).trans (ofNat_toNat db)]

theorem xor (d : Reg) (a : Reg) (da : Dist) (b : Reg) (db : Dist) : Statement (.xor d a da b db) := by
  intro word _ he
  have hb := bits_of (ns := [6, 5, 5, 2, 5, 2, 7]) (Option.some.inj he)
    ⟨by decide, by decide, by decide, d.isLt, by decide, a.isLt, by decide, da.isLt, by decide, b.isLt, by decide, db.isLt, by decide, by decide, trivial⟩
  unfold decode
  rw [show _ = 1#6 from hb 26 6 rfl]
  change decodeIop _ = _
  unfold decodeIop
  rw [show _ = 12#7 from hb 0 7 rfl]
  change Except.ok _ = _
  simp only [(hb 21 5 rfl).trans (ofNat_toNat d), (hb 16 5 rfl).trans (ofNat_toNat a), (hb 14 2 rfl).trans (ofNat_toNat da), (hb 9 5 rfl).trans (ofNat_toNat b), (hb 7 2 rfl).trans (ofNat_toNat db)]

theorem andn (d : Reg) (a : Reg) (da : Dist) (b : Reg) (db : Dist) : Statement (.andn d a da b db) := by
  intro word _ he
  have hb := bits_of (ns := [6, 5, 5, 2, 5, 2, 7]) (Option.some.inj he)
    ⟨by decide, by decide, by decide, d.isLt, by decide, a.isLt, by decide, da.isLt, by decide, b.isLt, by decide, db.isLt, by decide, by decide, trivial⟩
  unfold decode
  rw [show _ = 1#6 from hb 26 6 rfl]
  change decodeIop _ = _
  unfold decodeIop
  rw [show _ = 13#7 from hb 0 7 rfl]
  change Except.ok _ = _
  simp only [(hb 21 5 rfl).trans (ofNat_toNat d), (hb 16 5 rfl).trans (ofNat_toNat a), (hb 14 2 rfl).trans (ofNat_toNat da), (hb 9 5 rfl).trans (ofNat_toNat b), (hb 7 2 rfl).trans (ofNat_toNat db)]

theorem shl (d : Reg) (a : Reg) (da : Dist) (b : Reg) (db : Dist) : Statement (.shl d a da b db) := by
  intro word _ he
  have hb := bits_of (ns := [6, 5, 5, 2, 5, 2, 7]) (Option.some.inj he)
    ⟨by decide, by decide, by decide, d.isLt, by decide, a.isLt, by decide, da.isLt, by decide, b.isLt, by decide, db.isLt, by decide, by decide, trivial⟩
  unfold decode
  rw [show _ = 1#6 from hb 26 6 rfl]
  change decodeIop _ = _
  unfold decodeIop
  rw [show _ = 14#7 from hb 0 7 rfl]
  change Except.ok _ = _
  simp only [(hb 21 5 rfl).trans (ofNat_toNat d), (hb 16 5 rfl).trans (ofNat_toNat a), (hb 14 2 rfl).trans (ofNat_toNat da), (hb 9 5 rfl).trans (ofNat_toNat b), (hb 7 2 rfl).trans (ofNat_toNat db)]

theorem shr (d : Reg) (a : Reg) (da : Dist) (b : Reg) (db : Dist) : Statement (.shr d a da b db) := by
  intro word _ he
  have hb := bits_of (ns := [6, 5, 5, 2, 5, 2, 7]) (Option.some.inj he)
    ⟨by decide, by decide, by decide, d.isLt, by decide, a.isLt, by decide, da.isLt, by decide, b.isLt, by decide, db.isLt, by decide, by decide, trivial⟩
  unfold decode
  rw [show _ = 1#6 from hb 26 6 rfl]
  change decodeIop _ = _
  unfold decodeIop
  rw [show _ = 15#7 from hb 0 7 rfl]
  change Except.ok _ = _
  simp only [(hb 21 5 rfl).trans (ofNat_toNat d), (hb 16 5 rfl).trans (ofNat_toNat a), (hb 14 2 rfl).trans (ofNat_toNat da), (hb 9 5 rfl).trans (ofNat_toNat b), (hb 7 2 rfl).trans (ofNat_toNat db)]

theorem sra (d : Reg) (a : Reg) (da : Dist) (b : Reg) (db : Dist) : Statement (.sra d a da b db) := by
  intro word _ he
  have hb := bits_of (ns := [6, 5, 5, 2, 5, 2, 7]) (Option.some.inj he)
    ⟨by decide, by decide, by decide, d.isLt, by decide, a.isLt, by decide, da.isLt, by decide, b.isLt, by decide, db.isLt, by decide, by decide, trivial⟩
  unfold decode
  rw [show _ = 1#6 from hb 26 6 rfl]
  change decodeIop _ = _
  unfold decodeIop
  rw [show _ = 16#7 from hb 0 7 rfl]
  change Except.ok _ = _
  simp only [(hb 21 5 rfl).trans (ofNat_toNat d), (hb 16 5 rfl).trans (ofNat_toNat a), (hb 14 2 rfl).trans (ofNat_toNat da), (hb 9 5 rfl).trans (ofNat_toNat b), (hb 7 2 rfl).trans (ofNat_toNat db)]

theorem rol (d : Reg) (a : Reg) (da : Dist) (b : Reg) (db : Dist) : Statement (.rol d a da b db) := by
  intro word _ he
  have hb := bits_of (ns := [6, 5, 5, 2, 5, 2, 7]) (Option.some.inj he)
    ⟨by decide, by decide, by decide, d.isLt, by decide, a.isLt, by decide, da.isLt, by decide, b.isLt, by decide, db.isLt, by decide, by decide, trivial⟩
  unfold decode
  rw [show _ = 1#6 from hb 26 6 rfl]
  change decodeIop _ = _
  unfold decodeIop
  rw [show _ = 17#7 from hb 0 7 rfl]
  change Except.ok _ = _
  simp only [(hb 21 5 rfl).trans (ofNat_toNat d), (hb 16 5 rfl).trans (ofNat_toNat a), (hb 14 2 rfl).trans (ofNat_toNat da), (hb 9 5 rfl).trans (ofNat_toNat b), (hb 7 2 rfl).trans (ofNat_toNat db)]

theorem min (d : Reg) (a : Reg) (da : Dist) (b : Reg) (db : Dist) : Statement (.min d a da b db) := by
  intro word _ he
  have hb := bits_of (ns := [6, 5, 5, 2, 5, 2, 7]) (Option.some.inj he)
    ⟨by decide, by decide, by decide, d.isLt, by decide, a.isLt, by decide, da.isLt, by decide, b.isLt, by decide, db.isLt, by decide, by decide, trivial⟩
  unfold decode
  rw [show _ = 1#6 from hb 26 6 rfl]
  change decodeIop _ = _
  unfold decodeIop
  rw [show _ = 18#7 from hb 0 7 rfl]
  change Except.ok _ = _
  simp only [(hb 21 5 rfl).trans (ofNat_toNat d), (hb 16 5 rfl).trans (ofNat_toNat a), (hb 14 2 rfl).trans (ofNat_toNat da), (hb 9 5 rfl).trans (ofNat_toNat b), (hb 7 2 rfl).trans (ofNat_toNat db)]

theorem max (d : Reg) (a : Reg) (da : Dist) (b : Reg) (db : Dist) : Statement (.max d a da b db) := by
  intro word _ he
  have hb := bits_of (ns := [6, 5, 5, 2, 5, 2, 7]) (Option.some.inj he)
    ⟨by decide, by decide, by decide, d.isLt, by decide, a.isLt, by decide, da.isLt, by decide, b.isLt, by decide, db.isLt, by decide, by decide, trivial⟩
  unfold decode
  rw [show _ = 1#6 from hb 26 6 rfl]
  change decodeIop _ = _
  unfold decodeIop
  rw [show _ = 19#7 from hb 0 7 rfl]
  change Except.ok _ = _
  simp only [(hb 21 5 rfl).trans (ofNat_toNat d), (hb 16 5 rfl).trans (ofNat_toNat a), (hb 14 2 rfl).trans (ofNat_toNat da), (hb 9 5 rfl).trans (ofNat_toNat b), (hb 7 2 rfl).trans (ofNat_toNat db)]

theorem minu (d : Reg) (a : Reg) (da : Dist) (b : Reg) (db : Dist) : Statement (.minu d a da b db) := by
  intro word _ he
  have hb := bits_of (ns := [6, 5, 5, 2, 5, 2, 7]) (Option.some.inj he)
    ⟨by decide, by decide, by decide, d.isLt, by decide, a.isLt, by decide, da.isLt, by decide, b.isLt, by decide, db.isLt, by decide, by decide, trivial⟩
  unfold decode
  rw [show _ = 1#6 from hb 26 6 rfl]
  change decodeIop _ = _
  unfold decodeIop
  rw [show _ = 20#7 from hb 0 7 rfl]
  change Except.ok _ = _
  simp only [(hb 21 5 rfl).trans (ofNat_toNat d), (hb 16 5 rfl).trans (ofNat_toNat a), (hb 14 2 rfl).trans (ofNat_toNat da), (hb 9 5 rfl).trans (ofNat_toNat b), (hb 7 2 rfl).trans (ofNat_toNat db)]

theorem maxu (d : Reg) (a : Reg) (da : Dist) (b : Reg) (db : Dist) : Statement (.maxu d a da b db) := by
  intro word _ he
  have hb := bits_of (ns := [6, 5, 5, 2, 5, 2, 7]) (Option.some.inj he)
    ⟨by decide, by decide, by decide, d.isLt, by decide, a.isLt, by decide, da.isLt, by decide, b.isLt, by decide, db.isLt, by decide, by decide, trivial⟩
  unfold decode
  rw [show _ = 1#6 from hb 26 6 rfl]
  change decodeIop _ = _
  unfold decodeIop
  rw [show _ = 21#7 from hb 0 7 rfl]
  change Except.ok _ = _
  simp only [(hb 21 5 rfl).trans (ofNat_toNat d), (hb 16 5 rfl).trans (ofNat_toNat a), (hb 14 2 rfl).trans (ofNat_toNat da), (hb 9 5 rfl).trans (ofNat_toNat b), (hb 7 2 rfl).trans (ofNat_toNat db)]

theorem slt (d : Reg) (a : Reg) (da : Dist) (b : Reg) (db : Dist) : Statement (.slt d a da b db) := by
  intro word _ he
  have hb := bits_of (ns := [6, 5, 5, 2, 5, 2, 7]) (Option.some.inj he)
    ⟨by decide, by decide, by decide, d.isLt, by decide, a.isLt, by decide, da.isLt, by decide, b.isLt, by decide, db.isLt, by decide, by decide, trivial⟩
  unfold decode
  rw [show _ = 1#6 from hb 26 6 rfl]
  change decodeIop _ = _
  unfold decodeIop
  rw [show _ = 22#7 from hb 0 7 rfl]
  change Except.ok _ = _
  simp only [(hb 21 5 rfl).trans (ofNat_toNat d), (hb 16 5 rfl).trans (ofNat_toNat a), (hb 14 2 rfl).trans (ofNat_toNat da), (hb 9 5 rfl).trans (ofNat_toNat b), (hb 7 2 rfl).trans (ofNat_toNat db)]

theorem sltu (d : Reg) (a : Reg) (da : Dist) (b : Reg) (db : Dist) : Statement (.sltu d a da b db) := by
  intro word _ he
  have hb := bits_of (ns := [6, 5, 5, 2, 5, 2, 7]) (Option.some.inj he)
    ⟨by decide, by decide, by decide, d.isLt, by decide, a.isLt, by decide, da.isLt, by decide, b.isLt, by decide, db.isLt, by decide, by decide, trivial⟩
  unfold decode
  rw [show _ = 1#6 from hb 26 6 rfl]
  change decodeIop _ = _
  unfold decodeIop
  rw [show _ = 23#7 from hb 0 7 rfl]
  change Except.ok _ = _
  simp only [(hb 21 5 rfl).trans (ofNat_toNat d), (hb 16 5 rfl).trans (ofNat_toNat a), (hb 14 2 rfl).trans (ofNat_toNat da), (hb 9 5 rfl).trans (ofNat_toNat b), (hb 7 2 rfl).trans (ofNat_toNat db)]

theorem seq (d : Reg) (a : Reg) (da : Dist) (b : Reg) (db : Dist) : Statement (.seq d a da b db) := by
  intro word _ he
  have hb := bits_of (ns := [6, 5, 5, 2, 5, 2, 7]) (Option.some.inj he)
    ⟨by decide, by decide, by decide, d.isLt, by decide, a.isLt, by decide, da.isLt, by decide, b.isLt, by decide, db.isLt, by decide, by decide, trivial⟩
  unfold decode
  rw [show _ = 1#6 from hb 26 6 rfl]
  change decodeIop _ = _
  unfold decodeIop
  rw [show _ = 24#7 from hb 0 7 rfl]
  change Except.ok _ = _
  simp only [(hb 21 5 rfl).trans (ofNat_toNat d), (hb 16 5 rfl).trans (ofNat_toNat a), (hb 14 2 rfl).trans (ofNat_toNat da), (hb 9 5 rfl).trans (ofNat_toNat b), (hb 7 2 rfl).trans (ofNat_toNat db)]

theorem clz (d : Reg) (a : Reg) (da : Dist) : Statement (.clz d a da) := by
  intro word _ he
  have hb := bits_of (ns := [6, 5, 5, 2, 7]) (Option.some.inj he)
    ⟨by decide, by decide, by decide, d.isLt, by decide, a.isLt, by decide, da.isLt, by decide, by decide, trivial⟩
  unfold decode
  rw [show _ = 1#6 from hb 26 6 rfl]
  change decodeIop _ = _
  unfold decodeIop
  rw [show _ = 25#7 from hb 0 7 rfl]
  change ensure _ _ _ = _
  simp only [(hb 21 5 rfl).trans (ofNat_toNat d), (hb 16 5 rfl).trans (ofNat_toNat a), (hb 14 2 rfl).trans (ofNat_toNat da), show _ = 0#7 from hb 7 7 rfl, zeros, List.all_cons, List.all_nil, BEq.rfl, Bool.and_self, ensure, ite_true]

theorem ctz (d : Reg) (a : Reg) (da : Dist) : Statement (.ctz d a da) := by
  intro word _ he
  have hb := bits_of (ns := [6, 5, 5, 2, 7]) (Option.some.inj he)
    ⟨by decide, by decide, by decide, d.isLt, by decide, a.isLt, by decide, da.isLt, by decide, by decide, trivial⟩
  unfold decode
  rw [show _ = 1#6 from hb 26 6 rfl]
  change decodeIop _ = _
  unfold decodeIop
  rw [show _ = 26#7 from hb 0 7 rfl]
  change ensure _ _ _ = _
  simp only [(hb 21 5 rfl).trans (ofNat_toNat d), (hb 16 5 rfl).trans (ofNat_toNat a), (hb 14 2 rfl).trans (ofNat_toNat da), show _ = 0#7 from hb 7 7 rfl, zeros, List.all_cons, List.all_nil, BEq.rfl, Bool.and_self, ensure, ite_true]

theorem popc (d : Reg) (a : Reg) (da : Dist) : Statement (.popc d a da) := by
  intro word _ he
  have hb := bits_of (ns := [6, 5, 5, 2, 7]) (Option.some.inj he)
    ⟨by decide, by decide, by decide, d.isLt, by decide, a.isLt, by decide, da.isLt, by decide, by decide, trivial⟩
  unfold decode
  rw [show _ = 1#6 from hb 26 6 rfl]
  change decodeIop _ = _
  unfold decodeIop
  rw [show _ = 27#7 from hb 0 7 rfl]
  change ensure _ _ _ = _
  simp only [(hb 21 5 rfl).trans (ofNat_toNat d), (hb 16 5 rfl).trans (ofNat_toNat a), (hb 14 2 rfl).trans (ofNat_toNat da), show _ = 0#7 from hb 7 7 rfl, zeros, List.all_cons, List.all_nil, BEq.rfl, Bool.and_self, ensure, ite_true]

theorem sextb (d : Reg) (a : Reg) (da : Dist) : Statement (.sextb d a da) := by
  intro word _ he
  have hb := bits_of (ns := [6, 5, 5, 2, 7]) (Option.some.inj he)
    ⟨by decide, by decide, by decide, d.isLt, by decide, a.isLt, by decide, da.isLt, by decide, by decide, trivial⟩
  unfold decode
  rw [show _ = 1#6 from hb 26 6 rfl]
  change decodeIop _ = _
  unfold decodeIop
  rw [show _ = 28#7 from hb 0 7 rfl]
  change ensure _ _ _ = _
  simp only [(hb 21 5 rfl).trans (ofNat_toNat d), (hb 16 5 rfl).trans (ofNat_toNat a), (hb 14 2 rfl).trans (ofNat_toNat da), show _ = 0#7 from hb 7 7 rfl, zeros, List.all_cons, List.all_nil, BEq.rfl, Bool.and_self, ensure, ite_true]

theorem sexth (d : Reg) (a : Reg) (da : Dist) : Statement (.sexth d a da) := by
  intro word _ he
  have hb := bits_of (ns := [6, 5, 5, 2, 7]) (Option.some.inj he)
    ⟨by decide, by decide, by decide, d.isLt, by decide, a.isLt, by decide, da.isLt, by decide, by decide, trivial⟩
  unfold decode
  rw [show _ = 1#6 from hb 26 6 rfl]
  change decodeIop _ = _
  unfold decodeIop
  rw [show _ = 29#7 from hb 0 7 rfl]
  change ensure _ _ _ = _
  simp only [(hb 21 5 rfl).trans (ofNat_toNat d), (hb 16 5 rfl).trans (ofNat_toNat a), (hb 14 2 rfl).trans (ofNat_toNat da), show _ = 0#7 from hb 7 7 rfl, zeros, List.all_cons, List.all_nil, BEq.rfl, Bool.and_self, ensure, ite_true]

theorem sextw (d : Reg) (a : Reg) (da : Dist) : Statement (.sextw d a da) := by
  intro word _ he
  have hb := bits_of (ns := [6, 5, 5, 2, 7]) (Option.some.inj he)
    ⟨by decide, by decide, by decide, d.isLt, by decide, a.isLt, by decide, da.isLt, by decide, by decide, trivial⟩
  unfold decode
  rw [show _ = 1#6 from hb 26 6 rfl]
  change decodeIop _ = _
  unfold decodeIop
  rw [show _ = 30#7 from hb 0 7 rfl]
  change ensure _ _ _ = _
  simp only [(hb 21 5 rfl).trans (ofNat_toNat d), (hb 16 5 rfl).trans (ofNat_toNat a), (hb 14 2 rfl).trans (ofNat_toNat da), show _ = 0#7 from hb 7 7 rfl, zeros, List.all_cons, List.all_nil, BEq.rfl, Bool.and_self, ensure, ite_true]

theorem bfx (d : Reg) (a : Reg) (da : Dist) (b : Reg) (db : Dist) : Statement (.bfx d a da b db) := by
  intro word _ he
  have hb := bits_of (ns := [6, 5, 5, 2, 5, 2, 7]) (Option.some.inj he)
    ⟨by decide, by decide, by decide, d.isLt, by decide, a.isLt, by decide, da.isLt, by decide, b.isLt, by decide, db.isLt, by decide, by decide, trivial⟩
  unfold decode
  rw [show _ = 1#6 from hb 26 6 rfl]
  change decodeIop _ = _
  unfold decodeIop
  rw [show _ = 31#7 from hb 0 7 rfl]
  change Except.ok _ = _
  simp only [(hb 21 5 rfl).trans (ofNat_toNat d), (hb 16 5 rfl).trans (ofNat_toNat a), (hb 14 2 rfl).trans (ofNat_toNat da), (hb 9 5 rfl).trans (ofNat_toNat b), (hb 7 2 rfl).trans (ofNat_toNat db)]

theorem bfi (d : Reg) (a : Reg) (da : Dist) (b : Reg) (db : Dist) : Statement (.bfi d a da b db) := by
  intro word _ he
  have hb := bits_of (ns := [6, 5, 5, 2, 5, 2, 7]) (Option.some.inj he)
    ⟨by decide, by decide, by decide, d.isLt, by decide, a.isLt, by decide, da.isLt, by decide, b.isLt, by decide, db.isLt, by decide, by decide, trivial⟩
  unfold decode
  rw [show _ = 1#6 from hb 26 6 rfl]
  change decodeIop _ = _
  unfold decodeIop
  rw [show _ = 32#7 from hb 0 7 rfl]
  change Except.ok _ = _
  simp only [(hb 21 5 rfl).trans (ofNat_toNat d), (hb 16 5 rfl).trans (ofNat_toNat a), (hb 14 2 rfl).trans (ofNat_toNat da), (hb 9 5 rfl).trans (ofNat_toNat b), (hb 7 2 rfl).trans (ofNat_toNat db)]

theorem sel (d : Reg) (a : Reg) (da : Dist) (b : Reg) (db : Dist) : Statement (.sel d a da b db) := by
  intro word _ he
  have hb := bits_of (ns := [6, 5, 5, 2, 5, 2, 7]) (Option.some.inj he)
    ⟨by decide, by decide, by decide, d.isLt, by decide, a.isLt, by decide, da.isLt, by decide, b.isLt, by decide, db.isLt, by decide, by decide, trivial⟩
  unfold decode
  rw [show _ = 1#6 from hb 26 6 rfl]
  change decodeIop _ = _
  unfold decodeIop
  rw [show _ = 33#7 from hb 0 7 rfl]
  change Except.ok _ = _
  simp only [(hb 21 5 rfl).trans (ofNat_toNat d), (hb 16 5 rfl).trans (ofNat_toNat a), (hb 14 2 rfl).trans (ofNat_toNat da), (hb 9 5 rfl).trans (ofNat_toNat b), (hb 7 2 rfl).trans (ofNat_toNat db)]

theorem addw (d : Reg) (a : Reg) (da : Dist) (b : Reg) (db : Dist) : Statement (.addw d a da b db) := by
  intro word _ he
  have hb := bits_of (ns := [6, 5, 5, 2, 5, 2, 7]) (Option.some.inj he)
    ⟨by decide, by decide, by decide, d.isLt, by decide, a.isLt, by decide, da.isLt, by decide, b.isLt, by decide, db.isLt, by decide, by decide, trivial⟩
  unfold decode
  rw [show _ = 1#6 from hb 26 6 rfl]
  change decodeIop _ = _
  unfold decodeIop
  rw [show _ = 34#7 from hb 0 7 rfl]
  change Except.ok _ = _
  simp only [(hb 21 5 rfl).trans (ofNat_toNat d), (hb 16 5 rfl).trans (ofNat_toNat a), (hb 14 2 rfl).trans (ofNat_toNat da), (hb 9 5 rfl).trans (ofNat_toNat b), (hb 7 2 rfl).trans (ofNat_toNat db)]

theorem subw (d : Reg) (a : Reg) (da : Dist) (b : Reg) (db : Dist) : Statement (.subw d a da b db) := by
  intro word _ he
  have hb := bits_of (ns := [6, 5, 5, 2, 5, 2, 7]) (Option.some.inj he)
    ⟨by decide, by decide, by decide, d.isLt, by decide, a.isLt, by decide, da.isLt, by decide, b.isLt, by decide, db.isLt, by decide, by decide, trivial⟩
  unfold decode
  rw [show _ = 1#6 from hb 26 6 rfl]
  change decodeIop _ = _
  unfold decodeIop
  rw [show _ = 35#7 from hb 0 7 rfl]
  change Except.ok _ = _
  simp only [(hb 21 5 rfl).trans (ofNat_toNat d), (hb 16 5 rfl).trans (ofNat_toNat a), (hb 14 2 rfl).trans (ofNat_toNat da), (hb 9 5 rfl).trans (ofNat_toNat b), (hb 7 2 rfl).trans (ofNat_toNat db)]

theorem addi (d : Reg) (a : Reg) (da : Dist) (i : BitVec 14) : Statement (.addi d a da i) := by
  intro word _ he
  have hb := bits_of (ns := [6, 5, 5, 2, 14]) (Option.some.inj he)
    ⟨by decide, by decide, by decide, d.isLt, by decide, a.isLt, by decide, da.isLt, by decide, i.isLt, trivial⟩
  unfold decode
  rw [show _ = 2#6 from hb 26 6 rfl]
  change Except.ok _ = _
  simp only [(hb 21 5 rfl).trans (ofNat_toNat d), (hb 16 5 rfl).trans (ofNat_toNat a), (hb 14 2 rfl).trans (ofNat_toNat da), (hb 0 14 rfl).trans (ofNat_toNat i)]

theorem andi (d : Reg) (a : Reg) (da : Dist) (i : BitVec 14) : Statement (.andi d a da i) := by
  intro word _ he
  have hb := bits_of (ns := [6, 5, 5, 2, 14]) (Option.some.inj he)
    ⟨by decide, by decide, by decide, d.isLt, by decide, a.isLt, by decide, da.isLt, by decide, i.isLt, trivial⟩
  unfold decode
  rw [show _ = 3#6 from hb 26 6 rfl]
  change Except.ok _ = _
  simp only [(hb 21 5 rfl).trans (ofNat_toNat d), (hb 16 5 rfl).trans (ofNat_toNat a), (hb 14 2 rfl).trans (ofNat_toNat da), (hb 0 14 rfl).trans (ofNat_toNat i)]

theorem ori (d : Reg) (a : Reg) (da : Dist) (i : BitVec 14) : Statement (.ori d a da i) := by
  intro word _ he
  have hb := bits_of (ns := [6, 5, 5, 2, 14]) (Option.some.inj he)
    ⟨by decide, by decide, by decide, d.isLt, by decide, a.isLt, by decide, da.isLt, by decide, i.isLt, trivial⟩
  unfold decode
  rw [show _ = 4#6 from hb 26 6 rfl]
  change Except.ok _ = _
  simp only [(hb 21 5 rfl).trans (ofNat_toNat d), (hb 16 5 rfl).trans (ofNat_toNat a), (hb 14 2 rfl).trans (ofNat_toNat da), (hb 0 14 rfl).trans (ofNat_toNat i)]

theorem xori (d : Reg) (a : Reg) (da : Dist) (i : BitVec 14) : Statement (.xori d a da i) := by
  intro word _ he
  have hb := bits_of (ns := [6, 5, 5, 2, 14]) (Option.some.inj he)
    ⟨by decide, by decide, by decide, d.isLt, by decide, a.isLt, by decide, da.isLt, by decide, i.isLt, trivial⟩
  unfold decode
  rw [show _ = 5#6 from hb 26 6 rfl]
  change Except.ok _ = _
  simp only [(hb 21 5 rfl).trans (ofNat_toNat d), (hb 16 5 rfl).trans (ofNat_toNat a), (hb 14 2 rfl).trans (ofNat_toNat da), (hb 0 14 rfl).trans (ofNat_toNat i)]

theorem slti (d : Reg) (a : Reg) (da : Dist) (i : BitVec 14) : Statement (.slti d a da i) := by
  intro word _ he
  have hb := bits_of (ns := [6, 5, 5, 2, 14]) (Option.some.inj he)
    ⟨by decide, by decide, by decide, d.isLt, by decide, a.isLt, by decide, da.isLt, by decide, i.isLt, trivial⟩
  unfold decode
  rw [show _ = 6#6 from hb 26 6 rfl]
  change Except.ok _ = _
  simp only [(hb 21 5 rfl).trans (ofNat_toNat d), (hb 16 5 rfl).trans (ofNat_toNat a), (hb 14 2 rfl).trans (ofNat_toNat da), (hb 0 14 rfl).trans (ofNat_toNat i)]

theorem sltiu (d : Reg) (a : Reg) (da : Dist) (i : BitVec 14) : Statement (.sltiu d a da i) := by
  intro word _ he
  have hb := bits_of (ns := [6, 5, 5, 2, 14]) (Option.some.inj he)
    ⟨by decide, by decide, by decide, d.isLt, by decide, a.isLt, by decide, da.isLt, by decide, i.isLt, trivial⟩
  unfold decode
  rw [show _ = 7#6 from hb 26 6 rfl]
  change Except.ok _ = _
  simp only [(hb 21 5 rfl).trans (ofNat_toNat d), (hb 16 5 rfl).trans (ofNat_toNat a), (hb 14 2 rfl).trans (ofNat_toNat da), (hb 0 14 rfl).trans (ofNat_toNat i)]

theorem shli (d : Reg) (a : Reg) (da : Dist) (n : BitVec 6) : Statement (.shli d a da n) := by
  intro word _ he
  have hb := bits_of (ns := [6, 5, 5, 2, 6]) (Option.some.inj he)
    ⟨by decide, by decide, by decide, d.isLt, by decide, a.isLt, by decide, da.isLt, by decide, n.isLt, trivial⟩
  unfold decode
  rw [show _ = 8#6 from hb 26 6 rfl]
  change decodeShi _ = _
  unfold decodeShi
  rw [show _ = 0#2 from hb 12 2 rfl]
  change ensure _ _ _ = _
  simp only [(hb 21 5 rfl).trans (ofNat_toNat d), (hb 16 5 rfl).trans (ofNat_toNat a), (hb 14 2 rfl).trans (ofNat_toNat da), show _ = 0#6 from hb 6 6 rfl, (hb 0 6 rfl).trans (ofNat_toNat n), zeros, List.all_cons, List.all_nil, BEq.rfl, Bool.and_self, ensure, ite_true]

theorem shri (d : Reg) (a : Reg) (da : Dist) (n : BitVec 6) : Statement (.shri d a da n) := by
  intro word _ he
  have hb := bits_of (ns := [6, 5, 5, 2, 2, 6]) (Option.some.inj he)
    ⟨by decide, by decide, by decide, d.isLt, by decide, a.isLt, by decide, da.isLt, by decide, by decide, by decide, n.isLt, trivial⟩
  unfold decode
  rw [show _ = 8#6 from hb 26 6 rfl]
  change decodeShi _ = _
  unfold decodeShi
  rw [show _ = 1#2 from hb 12 2 rfl]
  change ensure _ _ _ = _
  simp only [(hb 21 5 rfl).trans (ofNat_toNat d), (hb 16 5 rfl).trans (ofNat_toNat a), (hb 14 2 rfl).trans (ofNat_toNat da), show _ = 0#6 from hb 6 6 rfl, (hb 0 6 rfl).trans (ofNat_toNat n), zeros, List.all_cons, List.all_nil, BEq.rfl, Bool.and_self, ensure, ite_true]

theorem srai (d : Reg) (a : Reg) (da : Dist) (n : BitVec 6) : Statement (.srai d a da n) := by
  intro word _ he
  have hb := bits_of (ns := [6, 5, 5, 2, 2, 6]) (Option.some.inj he)
    ⟨by decide, by decide, by decide, d.isLt, by decide, a.isLt, by decide, da.isLt, by decide, by decide, by decide, n.isLt, trivial⟩
  unfold decode
  rw [show _ = 8#6 from hb 26 6 rfl]
  change decodeShi _ = _
  unfold decodeShi
  rw [show _ = 2#2 from hb 12 2 rfl]
  change ensure _ _ _ = _
  simp only [(hb 21 5 rfl).trans (ofNat_toNat d), (hb 16 5 rfl).trans (ofNat_toNat a), (hb 14 2 rfl).trans (ofNat_toNat da), show _ = 0#6 from hb 6 6 rfl, (hb 0 6 rfl).trans (ofNat_toNat n), zeros, List.all_cons, List.all_nil, BEq.rfl, Bool.and_self, ensure, ite_true]

theorem rori (d : Reg) (a : Reg) (da : Dist) (n : BitVec 6) : Statement (.rori d a da n) := by
  intro word _ he
  have hb := bits_of (ns := [6, 5, 5, 2, 2, 6]) (Option.some.inj he)
    ⟨by decide, by decide, by decide, d.isLt, by decide, a.isLt, by decide, da.isLt, by decide, by decide, by decide, n.isLt, trivial⟩
  unfold decode
  rw [show _ = 8#6 from hb 26 6 rfl]
  change decodeShi _ = _
  unfold decodeShi
  rw [show _ = 3#2 from hb 12 2 rfl]
  change ensure _ _ _ = _
  simp only [(hb 21 5 rfl).trans (ofNat_toNat d), (hb 16 5 rfl).trans (ofNat_toNat a), (hb 14 2 rfl).trans (ofNat_toNat da), show _ = 0#6 from hb 6 6 rfl, (hb 0 6 rfl).trans (ofNat_toNat n), zeros, List.all_cons, List.all_nil, BEq.rfl, Bool.and_self, ensure, ite_true]

theorem lui (d : Reg) (i : BitVec 21) : Statement (.lui d i) := by
  intro word _ he
  have hb := bits_of (ns := [6, 5, 21]) (Option.some.inj he)
    ⟨by decide, by decide, by decide, d.isLt, by decide, i.isLt, trivial⟩
  unfold decode
  rw [show _ = 9#6 from hb 26 6 rfl]
  change Except.ok _ = _
  simp only [(hb 21 5 rfl).trans (ofNat_toNat d), (hb 0 21 rfl).trans (ofNat_toNat i)]

theorem adpc (d : Reg) (i : BitVec 21) : Statement (.adpc d i) := by
  intro word _ he
  have hb := bits_of (ns := [6, 5, 21]) (Option.some.inj he)
    ⟨by decide, by decide, by decide, d.isLt, by decide, i.isLt, trivial⟩
  unfold decode
  rw [show _ = 10#6 from hb 26 6 rfl]
  change Except.ok _ = _
  simp only [(hb 21 5 rfl).trans (ofNat_toNat d), (hb 0 21 rfl).trans (ofNat_toNat i)]

theorem insi (d : Reg) (p : BitVec 2) (z : BitVec 1) (i : BitVec 16) : Statement (.insi d p z i) := by
  intro word _ he
  have hb := bits_of (ns := [6, 5, 2, 1, 16]) (Option.some.inj he)
    ⟨by decide, by decide, by decide, d.isLt, by decide, p.isLt, by decide, z.isLt, by decide, i.isLt, trivial⟩
  unfold decode
  rw [show _ = 11#6 from hb 26 6 rfl]
  change ensure _ _ _ = _
  simp only [(hb 21 5 rfl).trans (ofNat_toNat d), (hb 19 2 rfl).trans (ofNat_toNat p), (hb 18 1 rfl).trans (ofNat_toNat z), show _ = 0#2 from hb 16 2 rfl, (hb 0 16 rfl).trans (ofNat_toNat i), zeros, List.all_cons, List.all_nil, BEq.rfl, Bool.and_self, ensure, ite_true]

theorem beqz (a : Reg) (da : Dist) (o : BitVec 16) : Statement (.beqz a da o) := by
  intro word _ he
  have hb := bits_of (ns := [6, 5, 2, 16]) (Option.some.inj he)
    ⟨by decide, by decide, by decide, a.isLt, by decide, da.isLt, by decide, o.isLt, trivial⟩
  unfold decode
  rw [show _ = 12#6 from hb 26 6 rfl]
  change decodeBr _ = _
  unfold decodeBr
  rw [show _ = 0#3 from hb 16 3 rfl]
  change Except.ok _ = _
  simp only [(hb 21 5 rfl).trans (ofNat_toNat a), (hb 19 2 rfl).trans (ofNat_toNat da), (hb 0 16 rfl).trans (ofNat_toNat o)]

theorem bnez (a : Reg) (da : Dist) (o : BitVec 16) : Statement (.bnez a da o) := by
  intro word _ he
  have hb := bits_of (ns := [6, 5, 2, 3, 16]) (Option.some.inj he)
    ⟨by decide, by decide, by decide, a.isLt, by decide, da.isLt, by decide, by decide, by decide, o.isLt, trivial⟩
  unfold decode
  rw [show _ = 12#6 from hb 26 6 rfl]
  change decodeBr _ = _
  unfold decodeBr
  rw [show _ = 1#3 from hb 16 3 rfl]
  change Except.ok _ = _
  simp only [(hb 21 5 rfl).trans (ofNat_toNat a), (hb 19 2 rfl).trans (ofNat_toNat da), (hb 0 16 rfl).trans (ofNat_toNat o)]

theorem bltz (a : Reg) (da : Dist) (o : BitVec 16) : Statement (.bltz a da o) := by
  intro word _ he
  have hb := bits_of (ns := [6, 5, 2, 3, 16]) (Option.some.inj he)
    ⟨by decide, by decide, by decide, a.isLt, by decide, da.isLt, by decide, by decide, by decide, o.isLt, trivial⟩
  unfold decode
  rw [show _ = 12#6 from hb 26 6 rfl]
  change decodeBr _ = _
  unfold decodeBr
  rw [show _ = 2#3 from hb 16 3 rfl]
  change Except.ok _ = _
  simp only [(hb 21 5 rfl).trans (ofNat_toNat a), (hb 19 2 rfl).trans (ofNat_toNat da), (hb 0 16 rfl).trans (ofNat_toNat o)]

theorem bgez (a : Reg) (da : Dist) (o : BitVec 16) : Statement (.bgez a da o) := by
  intro word _ he
  have hb := bits_of (ns := [6, 5, 2, 3, 16]) (Option.some.inj he)
    ⟨by decide, by decide, by decide, a.isLt, by decide, da.isLt, by decide, by decide, by decide, o.isLt, trivial⟩
  unfold decode
  rw [show _ = 12#6 from hb 26 6 rfl]
  change decodeBr _ = _
  unfold decodeBr
  rw [show _ = 3#3 from hb 16 3 rfl]
  change Except.ok _ = _
  simp only [(hb 21 5 rfl).trans (ofNat_toNat a), (hb 19 2 rfl).trans (ofNat_toNat da), (hb 0 16 rfl).trans (ofNat_toNat o)]

theorem bgtz (a : Reg) (da : Dist) (o : BitVec 16) : Statement (.bgtz a da o) := by
  intro word _ he
  have hb := bits_of (ns := [6, 5, 2, 3, 16]) (Option.some.inj he)
    ⟨by decide, by decide, by decide, a.isLt, by decide, da.isLt, by decide, by decide, by decide, o.isLt, trivial⟩
  unfold decode
  rw [show _ = 12#6 from hb 26 6 rfl]
  change decodeBr _ = _
  unfold decodeBr
  rw [show _ = 4#3 from hb 16 3 rfl]
  change Except.ok _ = _
  simp only [(hb 21 5 rfl).trans (ofNat_toNat a), (hb 19 2 rfl).trans (ofNat_toNat da), (hb 0 16 rfl).trans (ofNat_toNat o)]

theorem blez (a : Reg) (da : Dist) (o : BitVec 16) : Statement (.blez a da o) := by
  intro word _ he
  have hb := bits_of (ns := [6, 5, 2, 3, 16]) (Option.some.inj he)
    ⟨by decide, by decide, by decide, a.isLt, by decide, da.isLt, by decide, by decide, by decide, o.isLt, trivial⟩
  unfold decode
  rw [show _ = 12#6 from hb 26 6 rfl]
  change decodeBr _ = _
  unfold decodeBr
  rw [show _ = 5#3 from hb 16 3 rfl]
  change Except.ok _ = _
  simp only [(hb 21 5 rfl).trans (ofNat_toNat a), (hb 19 2 rfl).trans (ofNat_toNat da), (hb 0 16 rfl).trans (ofNat_toNat o)]

theorem bodd (a : Reg) (da : Dist) (o : BitVec 16) : Statement (.bodd a da o) := by
  intro word _ he
  have hb := bits_of (ns := [6, 5, 2, 3, 16]) (Option.some.inj he)
    ⟨by decide, by decide, by decide, a.isLt, by decide, da.isLt, by decide, by decide, by decide, o.isLt, trivial⟩
  unfold decode
  rw [show _ = 12#6 from hb 26 6 rfl]
  change decodeBr _ = _
  unfold decodeBr
  rw [show _ = 6#3 from hb 16 3 rfl]
  change Except.ok _ = _
  simp only [(hb 21 5 rfl).trans (ofNat_toNat a), (hb 19 2 rfl).trans (ofNat_toNat da), (hb 0 16 rfl).trans (ofNat_toNat o)]

theorem jmp (o : BitVec 26) : Statement (.jmp o) := by
  intro word _ he
  have hb := bits_of (ns := [6, 26]) (Option.some.inj he)
    ⟨by decide, by decide, by decide, o.isLt, trivial⟩
  unfold decode
  rw [show _ = 13#6 from hb 26 6 rfl]
  change Except.ok _ = _
  simp only [(hb 0 26 rfl).trans (ofNat_toNat o)]

theorem jal (o : BitVec 26) : Statement (.jal o) := by
  intro word _ he
  have hb := bits_of (ns := [6, 26]) (Option.some.inj he)
    ⟨by decide, by decide, by decide, o.isLt, trivial⟩
  unfold decode
  rw [show _ = 14#6 from hb 26 6 rfl]
  change Except.ok _ = _
  simp only [(hb 0 26 rfl).trans (ofNat_toNat o)]

theorem jr (a : Reg) (da : Dist) : Statement (.jr a da) := by
  intro word _ he
  have hb := bits_of (ns := [6, 5, 2]) (Option.some.inj he)
    ⟨by decide, by decide, by decide, a.isLt, by decide, da.isLt, trivial⟩
  unfold decode
  rw [show _ = 15#6 from hb 26 6 rfl]
  change decodeJr _ = _
  unfold decodeJr
  rw [show _ = 0#7 from hb 0 7 rfl]
  change ensure _ _ _ = _
  simp only [show _ = 0#5 from hb 21 5 rfl, (hb 16 5 rfl).trans (ofNat_toNat a), (hb 14 2 rfl).trans (ofNat_toNat da), show _ = 0#7 from hb 7 7 rfl, zeros, List.all_cons, List.all_nil, BEq.rfl, Bool.and_self, ensure, ite_true]

theorem jalr (d : Reg) (a : Reg) (da : Dist) : Statement (.jalr d a da) := by
  intro word _ he
  have hb := bits_of (ns := [6, 5, 5, 2, 7]) (Option.some.inj he)
    ⟨by decide, by decide, by decide, d.isLt, by decide, a.isLt, by decide, da.isLt, by decide, by decide, trivial⟩
  unfold decode
  rw [show _ = 15#6 from hb 26 6 rfl]
  change decodeJr _ = _
  unfold decodeJr
  rw [show _ = 1#7 from hb 0 7 rfl]
  change ensure _ _ _ = _
  simp only [(hb 21 5 rfl).trans (ofNat_toNat d), (hb 16 5 rfl).trans (ofNat_toNat a), (hb 14 2 rfl).trans (ofNat_toNat da), show _ = 0#7 from hb 7 7 rfl, zeros, List.all_cons, List.all_nil, BEq.rfl, Bool.and_self, ensure, ite_true]

theorem lcar (b : Reg) (a : Reg) (da : Dist) (i : BitVec 11) : Statement (.lcar b a da i) := by
  intro word _ he
  have hb := bits_of (ns := [6, 5, 5, 2, 11]) (Option.some.inj he)
    ⟨by decide, by decide, by decide, b.isLt, by decide, a.isLt, by decide, da.isLt, by decide, i.isLt, trivial⟩
  unfold decode
  rw [show _ = 16#6 from hb 26 6 rfl]
  change decodeLoop _ = _
  unfold decodeLoop
  rw [show _ = 0#3 from hb 23 3 rfl]
  change Except.ok _ = _
  simp only [(hb 18 5 rfl).trans (ofNat_toNat b), (hb 13 5 rfl).trans (ofNat_toNat a), (hb 11 2 rfl).trans (ofNat_toNat da), (hb 0 11 rfl).trans (ofNat_toNat i)]

theorem loop (a : Reg) (da : Dist) (n : BitVec 11) : Statement (.loop a da n) := by
  intro word _ he
  have hb := bits_of (ns := [6, 3, 5, 2, 11]) (Option.some.inj he)
    ⟨by decide, by decide, by decide, by decide, by decide, a.isLt, by decide, da.isLt, by decide, n.isLt, trivial⟩
  unfold decode
  rw [show _ = 16#6 from hb 26 6 rfl]
  change decodeLoop _ = _
  unfold decodeLoop
  rw [show _ = 1#3 from hb 23 3 rfl]
  change ensure _ _ _ = _
  simp only [show _ = 0#5 from hb 18 5 rfl, (hb 13 5 rfl).trans (ofNat_toNat a), (hb 11 2 rfl).trans (ofNat_toNat da), (hb 0 11 rfl).trans (ofNat_toNat n), zeros, List.all_cons, List.all_nil, BEq.rfl, Bool.and_self, ensure, ite_true]

theorem endit : Statement .endit := by
  intro word _ he
  have hb := bits_of (ns := [6, 3]) (Option.some.inj he)
    ⟨by decide, by decide, by decide, by decide, trivial⟩
  unfold decode
  rw [show _ = 16#6 from hb 26 6 rfl]
  change decodeLoop _ = _
  unfold decodeLoop
  rw [show _ = 2#3 from hb 23 3 rfl]
  change ensure _ _ _ = _
  simp only [show _ = 0#23 from hb 0 23 rfl, zeros, List.all_cons, List.all_nil, BEq.rfl, Bool.and_self, ensure, ite_true]

theorem brkif (a : Reg) (da : Dist) (l : BitVec 11) : Statement (.brkif a da l) := by
  intro word hw he
  have hb := bits_of (ns := [6, 3, 5, 2, 11]) (Option.some.inj he)
    ⟨by decide, by decide, by decide, by decide, by decide, a.isLt, by decide, da.isLt, by decide, l.isLt, trivial⟩
  unfold decode
  rw [show _ = 16#6 from hb 26 6 rfl]
  change decodeLoop _ = _
  unfold decodeLoop
  rw [show _ = 3#3 from hb 23 3 rfl]
  change ensure _ _ _ = _
  simp only [Instr.wf] at hw
  simp only [show _ = 0#5 from hb 18 5 rfl, (hb 13 5 rfl).trans (ofNat_toNat a), (hb 11 2 rfl).trans (ofNat_toNat da), (hb 0 11 rfl).trans (ofNat_toNat l), zeros, List.all_cons, List.all_nil, BEq.rfl, Bool.and_self, ensure, ite_true, hw]

theorem contif (a : Reg) (da : Dist) : Statement (.contif a da) := by
  intro word _ he
  have hb := bits_of (ns := [6, 3, 5, 2]) (Option.some.inj he)
    ⟨by decide, by decide, by decide, by decide, by decide, a.isLt, by decide, da.isLt, trivial⟩
  unfold decode
  rw [show _ = 16#6 from hb 26 6 rfl]
  change decodeLoop _ = _
  unfold decodeLoop
  rw [show _ = 4#3 from hb 23 3 rfl]
  change ensure _ _ _ = _
  simp only [show _ = 0#5 from hb 18 5 rfl, (hb 13 5 rfl).trans (ofNat_toNat a), (hb 11 2 rfl).trans (ofNat_toNat da), show _ = 0#11 from hb 0 11 rfl, zeros, List.all_cons, List.all_nil, BEq.rfl, Bool.and_self, ensure, ite_true]

theorem itx (d : Reg) (l : BitVec 11) : Statement (.itx d l) := by
  intro word hw he
  have hb := bits_of (ns := [6, 3, 5, 11]) (Option.some.inj he)
    ⟨by decide, by decide, by decide, by decide, by decide, d.isLt, by decide, l.isLt, trivial⟩
  unfold decode
  rw [show _ = 16#6 from hb 26 6 rfl]
  change decodeLoop _ = _
  unfold decodeLoop
  rw [show _ = 5#3 from hb 23 3 rfl]
  change ensure _ _ _ = _
  simp only [Instr.wf] at hw
  simp only [(hb 18 5 rfl).trans (ofNat_toNat d), show _ = 0#7 from hb 11 7 rfl, (hb 0 11 rfl).trans (ofNat_toNat l), zeros, List.all_cons, List.all_nil, BEq.rfl, Bool.and_self, ensure, ite_true, hw]

theorem lstat (d : Reg) (l : BitVec 11) : Statement (.lstat d l) := by
  intro word hw he
  have hb := bits_of (ns := [6, 3, 5, 11]) (Option.some.inj he)
    ⟨by decide, by decide, by decide, by decide, by decide, d.isLt, by decide, l.isLt, trivial⟩
  unfold decode
  rw [show _ = 16#6 from hb 26 6 rfl]
  change decodeLoop _ = _
  unfold decodeLoop
  rw [show _ = 6#3 from hb 23 3 rfl]
  change ensure _ _ _ = _
  simp only [Instr.wf] at hw
  simp only [(hb 18 5 rfl).trans (ofNat_toNat d), show _ = 0#7 from hb 11 7 rfl, (hb 0 11 rfl).trans (ofNat_toNat l), zeros, List.all_cons, List.all_nil, BEq.rfl, Bool.and_self, ensure, ite_true, hw]

theorem movd (d : Reg) (a : Reg) (m : BitVec 3) : Statement (.movd d a m) := by
  intro word _ he
  have hb := bits_of (ns := [6, 3, 5, 5, 3]) (Option.some.inj he)
    ⟨by decide, by decide, by decide, by decide, by decide, d.isLt, by decide, a.isLt, by decide, m.isLt, trivial⟩
  unfold decode
  rw [show _ = 16#6 from hb 26 6 rfl]
  change decodeLoop _ = _
  unfold decodeLoop
  rw [show _ = 7#3 from hb 23 3 rfl]
  change ensure _ _ _ = _
  simp only [(hb 18 5 rfl).trans (ofNat_toNat d), (hb 13 5 rfl).trans (ofNat_toNat a), show _ = 0#10 from hb 3 10 rfl, (hb 0 3 rfl).trans (ofNat_toNat m), zeros, List.all_cons, List.all_nil, BEq.rfl, Bool.and_self, ensure, ite_true]

theorem fuse : Statement .fuse := by
  intro word _ he
  have hb := bits_of (ns := [6]) (Option.some.inj he)
    ⟨by decide, by decide, trivial⟩
  unfold decode
  rw [show _ = 17#6 from hb 26 6 rfl]
  change decodeGang _ = _
  unfold decodeGang
  rw [show _ = 0#3 from hb 23 3 rfl]
  change ensure _ _ _ = _
  simp only [show _ = 0#23 from hb 0 23 rfl, zeros, List.all_cons, List.all_nil, BEq.rfl, Bool.and_self, ensure, ite_true]

theorem split : Statement .split := by
  intro word _ he
  have hb := bits_of (ns := [6, 3]) (Option.some.inj he)
    ⟨by decide, by decide, by decide, by decide, trivial⟩
  unfold decode
  rw [show _ = 17#6 from hb 26 6 rfl]
  change decodeGang _ = _
  unfold decodeGang
  rw [show _ = 1#3 from hb 23 3 rfl]
  change ensure _ _ _ = _
  simp only [show _ = 0#23 from hb 0 23 rfl, zeros, List.all_cons, List.all_nil, BEq.rfl, Bool.and_self, ensure, ite_true]

theorem gany (d : Reg) (a : Reg) (da : Dist) : Statement (.gany d a da) := by
  intro word _ he
  have hb := bits_of (ns := [6, 3, 5, 5, 2]) (Option.some.inj he)
    ⟨by decide, by decide, by decide, by decide, by decide, d.isLt, by decide, a.isLt, by decide, da.isLt, trivial⟩
  unfold decode
  rw [show _ = 17#6 from hb 26 6 rfl]
  change decodeGang _ = _
  unfold decodeGang
  rw [show _ = 2#3 from hb 23 3 rfl]
  change ensure _ _ _ = _
  simp only [(hb 18 5 rfl).trans (ofNat_toNat d), (hb 13 5 rfl).trans (ofNat_toNat a), (hb 11 2 rfl).trans (ofNat_toNat da), show _ = 0#11 from hb 0 11 rfl, zeros, List.all_cons, List.all_nil, BEq.rfl, Bool.and_self, ensure, ite_true]

theorem gall (d : Reg) (a : Reg) (da : Dist) : Statement (.gall d a da) := by
  intro word _ he
  have hb := bits_of (ns := [6, 3, 5, 5, 2]) (Option.some.inj he)
    ⟨by decide, by decide, by decide, by decide, by decide, d.isLt, by decide, a.isLt, by decide, da.isLt, trivial⟩
  unfold decode
  rw [show _ = 17#6 from hb 26 6 rfl]
  change decodeGang _ = _
  unfold decodeGang
  rw [show _ = 3#3 from hb 23 3 rfl]
  change ensure _ _ _ = _
  simp only [(hb 18 5 rfl).trans (ofNat_toNat d), (hb 13 5 rfl).trans (ofNat_toNat a), (hb 11 2 rfl).trans (ofNat_toNat da), show _ = 0#11 from hb 0 11 rfl, zeros, List.all_cons, List.all_nil, BEq.rfl, Bool.and_self, ensure, ite_true]

theorem gidx (d : Reg) : Statement (.gidx d) := by
  intro word _ he
  have hb := bits_of (ns := [6, 3, 5]) (Option.some.inj he)
    ⟨by decide, by decide, by decide, by decide, by decide, d.isLt, trivial⟩
  unfold decode
  rw [show _ = 17#6 from hb 26 6 rfl]
  change decodeGang _ = _
  unfold decodeGang
  rw [show _ = 4#3 from hb 23 3 rfl]
  change ensure _ _ _ = _
  simp only [(hb 18 5 rfl).trans (ofNat_toNat d), show _ = 0#18 from hb 0 18 rfl, zeros, List.all_cons, List.all_nil, BEq.rfl, Bool.and_self, ensure, ite_true]

theorem gbc (d : Reg) (a : Reg) (da : Dist) (m : BitVec 11) : Statement (.gbc d a da m) := by
  intro word hw he
  have hb := bits_of (ns := [6, 3, 5, 5, 2, 11]) (Option.some.inj he)
    ⟨by decide, by decide, by decide, by decide, by decide, d.isLt, by decide, a.isLt, by decide, da.isLt, by decide, m.isLt, trivial⟩
  unfold decode
  rw [show _ = 17#6 from hb 26 6 rfl]
  change decodeGang _ = _
  unfold decodeGang
  rw [show _ = 5#3 from hb 23 3 rfl]
  change ensure _ _ _ = _
  simp only [Instr.wf] at hw
  simp only [(hb 18 5 rfl).trans (ofNat_toNat d), (hb 13 5 rfl).trans (ofNat_toNat a), (hb 11 2 rfl).trans (ofNat_toNat da), (hb 0 11 rfl).trans (ofNat_toNat m), ensure, ite_true, hw]

theorem gsum (d : Reg) (a : Reg) (da : Dist) : Statement (.gsum d a da) := by
  intro word _ he
  have hb := bits_of (ns := [6, 3, 5, 5, 2]) (Option.some.inj he)
    ⟨by decide, by decide, by decide, by decide, by decide, d.isLt, by decide, a.isLt, by decide, da.isLt, trivial⟩
  unfold decode
  rw [show _ = 17#6 from hb 26 6 rfl]
  change decodeGang _ = _
  unfold decodeGang
  rw [show _ = 6#3 from hb 23 3 rfl]
  change ensure _ _ _ = _
  simp only [(hb 18 5 rfl).trans (ofNat_toNat d), (hb 13 5 rfl).trans (ofNat_toNat a), (hb 11 2 rfl).trans (ofNat_toNat da), show _ = 0#11 from hb 0 11 rfl, zeros, List.all_cons, List.all_nil, BEq.rfl, Bool.and_self, ensure, ite_true]

theorem lb (d : Reg) (a : Reg) (da : Dist) (o : BitVec 11) : Statement (.lb d a da o) := by
  intro word _ he
  have hb := bits_of (ns := [6, 5, 5, 2, 11]) (Option.some.inj he)
    ⟨by decide, by decide, by decide, d.isLt, by decide, a.isLt, by decide, da.isLt, by decide, o.isLt, trivial⟩
  unfold decode
  rw [show _ = 18#6 from hb 26 6 rfl]
  change decodeLd _ = _
  unfold decodeLd
  rw [show _ = 0#3 from hb 11 3 rfl]
  change Except.ok _ = _
  simp only [(hb 21 5 rfl).trans (ofNat_toNat d), (hb 16 5 rfl).trans (ofNat_toNat a), (hb 14 2 rfl).trans (ofNat_toNat da), (hb 0 11 rfl).trans (ofNat_toNat o)]

theorem lbu (d : Reg) (a : Reg) (da : Dist) (o : BitVec 11) : Statement (.lbu d a da o) := by
  intro word _ he
  have hb := bits_of (ns := [6, 5, 5, 2, 3, 11]) (Option.some.inj he)
    ⟨by decide, by decide, by decide, d.isLt, by decide, a.isLt, by decide, da.isLt, by decide, by decide, by decide, o.isLt, trivial⟩
  unfold decode
  rw [show _ = 18#6 from hb 26 6 rfl]
  change decodeLd _ = _
  unfold decodeLd
  rw [show _ = 1#3 from hb 11 3 rfl]
  change Except.ok _ = _
  simp only [(hb 21 5 rfl).trans (ofNat_toNat d), (hb 16 5 rfl).trans (ofNat_toNat a), (hb 14 2 rfl).trans (ofNat_toNat da), (hb 0 11 rfl).trans (ofNat_toNat o)]

theorem lh (d : Reg) (a : Reg) (da : Dist) (o : BitVec 11) : Statement (.lh d a da o) := by
  intro word _ he
  have hb := bits_of (ns := [6, 5, 5, 2, 3, 11]) (Option.some.inj he)
    ⟨by decide, by decide, by decide, d.isLt, by decide, a.isLt, by decide, da.isLt, by decide, by decide, by decide, o.isLt, trivial⟩
  unfold decode
  rw [show _ = 18#6 from hb 26 6 rfl]
  change decodeLd _ = _
  unfold decodeLd
  rw [show _ = 2#3 from hb 11 3 rfl]
  change Except.ok _ = _
  simp only [(hb 21 5 rfl).trans (ofNat_toNat d), (hb 16 5 rfl).trans (ofNat_toNat a), (hb 14 2 rfl).trans (ofNat_toNat da), (hb 0 11 rfl).trans (ofNat_toNat o)]

theorem lhu (d : Reg) (a : Reg) (da : Dist) (o : BitVec 11) : Statement (.lhu d a da o) := by
  intro word _ he
  have hb := bits_of (ns := [6, 5, 5, 2, 3, 11]) (Option.some.inj he)
    ⟨by decide, by decide, by decide, d.isLt, by decide, a.isLt, by decide, da.isLt, by decide, by decide, by decide, o.isLt, trivial⟩
  unfold decode
  rw [show _ = 18#6 from hb 26 6 rfl]
  change decodeLd _ = _
  unfold decodeLd
  rw [show _ = 3#3 from hb 11 3 rfl]
  change Except.ok _ = _
  simp only [(hb 21 5 rfl).trans (ofNat_toNat d), (hb 16 5 rfl).trans (ofNat_toNat a), (hb 14 2 rfl).trans (ofNat_toNat da), (hb 0 11 rfl).trans (ofNat_toNat o)]

theorem lw (d : Reg) (a : Reg) (da : Dist) (o : BitVec 11) : Statement (.lw d a da o) := by
  intro word _ he
  have hb := bits_of (ns := [6, 5, 5, 2, 3, 11]) (Option.some.inj he)
    ⟨by decide, by decide, by decide, d.isLt, by decide, a.isLt, by decide, da.isLt, by decide, by decide, by decide, o.isLt, trivial⟩
  unfold decode
  rw [show _ = 18#6 from hb 26 6 rfl]
  change decodeLd _ = _
  unfold decodeLd
  rw [show _ = 4#3 from hb 11 3 rfl]
  change Except.ok _ = _
  simp only [(hb 21 5 rfl).trans (ofNat_toNat d), (hb 16 5 rfl).trans (ofNat_toNat a), (hb 14 2 rfl).trans (ofNat_toNat da), (hb 0 11 rfl).trans (ofNat_toNat o)]

theorem lwu (d : Reg) (a : Reg) (da : Dist) (o : BitVec 11) : Statement (.lwu d a da o) := by
  intro word _ he
  have hb := bits_of (ns := [6, 5, 5, 2, 3, 11]) (Option.some.inj he)
    ⟨by decide, by decide, by decide, d.isLt, by decide, a.isLt, by decide, da.isLt, by decide, by decide, by decide, o.isLt, trivial⟩
  unfold decode
  rw [show _ = 18#6 from hb 26 6 rfl]
  change decodeLd _ = _
  unfold decodeLd
  rw [show _ = 5#3 from hb 11 3 rfl]
  change Except.ok _ = _
  simp only [(hb 21 5 rfl).trans (ofNat_toNat d), (hb 16 5 rfl).trans (ofNat_toNat a), (hb 14 2 rfl).trans (ofNat_toNat da), (hb 0 11 rfl).trans (ofNat_toNat o)]

theorem ld (d : Reg) (a : Reg) (da : Dist) (o : BitVec 11) : Statement (.ld d a da o) := by
  intro word _ he
  have hb := bits_of (ns := [6, 5, 5, 2, 3, 11]) (Option.some.inj he)
    ⟨by decide, by decide, by decide, d.isLt, by decide, a.isLt, by decide, da.isLt, by decide, by decide, by decide, o.isLt, trivial⟩
  unfold decode
  rw [show _ = 18#6 from hb 26 6 rfl]
  change decodeLd _ = _
  unfold decodeLd
  rw [show _ = 6#3 from hb 11 3 rfl]
  change Except.ok _ = _
  simp only [(hb 21 5 rfl).trans (ofNat_toNat d), (hb 16 5 rfl).trans (ofNat_toNat a), (hb 14 2 rfl).trans (ofNat_toNat da), (hb 0 11 rfl).trans (ofNat_toNat o)]

theorem sb (d : Reg) (a : Reg) (da : Dist) (o : BitVec 11) : Statement (.sb d a da o) := by
  intro word _ he
  have hb := bits_of (ns := [6, 5, 5, 2, 11]) (Option.some.inj he)
    ⟨by decide, by decide, by decide, d.isLt, by decide, a.isLt, by decide, da.isLt, by decide, o.isLt, trivial⟩
  unfold decode
  rw [show _ = 19#6 from hb 26 6 rfl]
  change decodeSt _ = _
  unfold decodeSt
  rw [show _ = 0#3 from hb 11 3 rfl]
  change Except.ok _ = _
  simp only [(hb 21 5 rfl).trans (ofNat_toNat d), (hb 16 5 rfl).trans (ofNat_toNat a), (hb 14 2 rfl).trans (ofNat_toNat da), (hb 0 11 rfl).trans (ofNat_toNat o)]

theorem sh (d : Reg) (a : Reg) (da : Dist) (o : BitVec 11) : Statement (.sh d a da o) := by
  intro word _ he
  have hb := bits_of (ns := [6, 5, 5, 2, 3, 11]) (Option.some.inj he)
    ⟨by decide, by decide, by decide, d.isLt, by decide, a.isLt, by decide, da.isLt, by decide, by decide, by decide, o.isLt, trivial⟩
  unfold decode
  rw [show _ = 19#6 from hb 26 6 rfl]
  change decodeSt _ = _
  unfold decodeSt
  rw [show _ = 2#3 from hb 11 3 rfl]
  change Except.ok _ = _
  simp only [(hb 21 5 rfl).trans (ofNat_toNat d), (hb 16 5 rfl).trans (ofNat_toNat a), (hb 14 2 rfl).trans (ofNat_toNat da), (hb 0 11 rfl).trans (ofNat_toNat o)]

theorem sw (d : Reg) (a : Reg) (da : Dist) (o : BitVec 11) : Statement (.sw d a da o) := by
  intro word _ he
  have hb := bits_of (ns := [6, 5, 5, 2, 3, 11]) (Option.some.inj he)
    ⟨by decide, by decide, by decide, d.isLt, by decide, a.isLt, by decide, da.isLt, by decide, by decide, by decide, o.isLt, trivial⟩
  unfold decode
  rw [show _ = 19#6 from hb 26 6 rfl]
  change decodeSt _ = _
  unfold decodeSt
  rw [show _ = 4#3 from hb 11 3 rfl]
  change Except.ok _ = _
  simp only [(hb 21 5 rfl).trans (ofNat_toNat d), (hb 16 5 rfl).trans (ofNat_toNat a), (hb 14 2 rfl).trans (ofNat_toNat da), (hb 0 11 rfl).trans (ofNat_toNat o)]

theorem sd (d : Reg) (a : Reg) (da : Dist) (o : BitVec 11) : Statement (.sd d a da o) := by
  intro word _ he
  have hb := bits_of (ns := [6, 5, 5, 2, 3, 11]) (Option.some.inj he)
    ⟨by decide, by decide, by decide, d.isLt, by decide, a.isLt, by decide, da.isLt, by decide, by decide, by decide, o.isLt, trivial⟩
  unfold decode
  rw [show _ = 19#6 from hb 26 6 rfl]
  change decodeSt _ = _
  unfold decodeSt
  rw [show _ = 6#3 from hb 11 3 rfl]
  change Except.ok _ = _
  simp only [(hb 21 5 rfl).trans (ofNat_toNat d), (hb 16 5 rfl).trans (ofNat_toNat a), (hb 14 2 rfl).trans (ofNat_toNat da), (hb 0 11 rfl).trans (ofNat_toNat o)]

theorem lda (d : Reg) (a : Reg) (da : Dist) (z : Size) (s : Scope) : Statement (.lda d a da z s) := by
  intro word _ he
  have hb := bits_of (ns := [6, 5, 5, 2, 2, 3]) (Option.some.inj he)
    ⟨by decide, by decide, by decide, d.isLt, by decide, a.isLt, by decide, da.isLt, by decide, z.bits.isLt, by decide, s.bits.isLt, trivial⟩
  unfold decode
  rw [show _ = 20#6 from hb 26 6 rfl]
  change decodeMx _ = _
  unfold decodeMx
  rw [show _ = 0#3 from hb 9 3 rfl]
  change ensure _ _ _ = _
  simp only [(hb 21 5 rfl).trans (ofNat_toNat d), (hb 16 5 rfl).trans (ofNat_toNat a), (hb 14 2 rfl).trans (ofNat_toNat da), (hb 12 2 rfl).trans (ofNat_toNat z.bits), (hb 6 3 rfl).trans (ofNat_toNat s.bits), show _ = 0#6 from hb 0 6 rfl, zeros, List.all_cons, List.all_nil, BEq.rfl, Bool.and_self, ensure, ite_true, withScope, scope_ofBits_bits, size_ofBits_bits]

theorem stl (d : Reg) (a : Reg) (da : Dist) (z : Size) (s : Scope) : Statement (.stl d a da z s) := by
  intro word _ he
  have hb := bits_of (ns := [6, 5, 5, 2, 2, 3, 3]) (Option.some.inj he)
    ⟨by decide, by decide, by decide, d.isLt, by decide, a.isLt, by decide, da.isLt, by decide, z.bits.isLt, by decide, by decide, by decide, s.bits.isLt, trivial⟩
  unfold decode
  rw [show _ = 20#6 from hb 26 6 rfl]
  change decodeMx _ = _
  unfold decodeMx
  rw [show _ = 1#3 from hb 9 3 rfl]
  change ensure _ _ _ = _
  simp only [(hb 21 5 rfl).trans (ofNat_toNat d), (hb 16 5 rfl).trans (ofNat_toNat a), (hb 14 2 rfl).trans (ofNat_toNat da), (hb 12 2 rfl).trans (ofNat_toNat z.bits), (hb 6 3 rfl).trans (ofNat_toNat s.bits), show _ = 0#6 from hb 0 6 rfl, zeros, List.all_cons, List.all_nil, BEq.rfl, Bool.and_self, ensure, ite_true, withScope, scope_ofBits_bits, size_ofBits_bits]

theorem ldro (d : Reg) (a : Reg) (da : Dist) (z : Size) (s : Scope) : Statement (.ldro d a da z s) := by
  intro word _ he
  have hb := bits_of (ns := [6, 5, 5, 2, 2, 3, 3]) (Option.some.inj he)
    ⟨by decide, by decide, by decide, d.isLt, by decide, a.isLt, by decide, da.isLt, by decide, z.bits.isLt, by decide, by decide, by decide, s.bits.isLt, trivial⟩
  unfold decode
  rw [show _ = 20#6 from hb 26 6 rfl]
  change decodeMx _ = _
  unfold decodeMx
  rw [show _ = 2#3 from hb 9 3 rfl]
  change ensure _ _ _ = _
  simp only [(hb 21 5 rfl).trans (ofNat_toNat d), (hb 16 5 rfl).trans (ofNat_toNat a), (hb 14 2 rfl).trans (ofNat_toNat da), (hb 12 2 rfl).trans (ofNat_toNat z.bits), (hb 6 3 rfl).trans (ofNat_toNat s.bits), show _ = 0#6 from hb 0 6 rfl, zeros, List.all_cons, List.all_nil, BEq.rfl, Bool.and_self, ensure, ite_true, withScope, scope_ofBits_bits, size_ofBits_bits]

theorem pref (a : Reg) (da : Dist) (s : Scope) (n : BitVec 1) : Statement (.pref a da s n) := by
  intro word _ he
  have hb := bits_of (ns := [6, 5, 2, 2, 3, 3, 1]) (Option.some.inj he)
    ⟨by decide, by decide, by decide, a.isLt, by decide, da.isLt, by decide, by decide, by decide, by decide, by decide, s.bits.isLt, by decide, n.isLt, trivial⟩
  unfold decode
  rw [show _ = 20#6 from hb 26 6 rfl]
  change decodeMx _ = _
  unfold decodeMx
  rw [show _ = 3#3 from hb 9 3 rfl]
  change ensure _ _ _ = _
  simp only [show _ = 0#5 from hb 21 5 rfl, (hb 16 5 rfl).trans (ofNat_toNat a), (hb 14 2 rfl).trans (ofNat_toNat da), show _ = 3#2 from hb 12 2 rfl, (hb 6 3 rfl).trans (ofNat_toNat s.bits), show _ = 0#5 from hb 1 5 rfl, (hb 0 1 rfl).trans (ofNat_toNat n), zeros, List.all_cons, List.all_nil, BEq.rfl, Bool.and_self, ensure, ite_true, withScope, scope_ofBits_bits]

theorem stn (d : Reg) (a : Reg) (da : Dist) (s : Scope) (h : BitVec 1) : Statement (.stn d a da s h) := by
  intro word _ he
  have hb := bits_of (ns := [6, 5, 5, 2, 3, 3, 1]) (Option.some.inj he)
    ⟨by decide, by decide, by decide, d.isLt, by decide, a.isLt, by decide, da.isLt, by decide, by decide, by decide, s.bits.isLt, by decide, h.isLt, trivial⟩
  unfold decode
  rw [show _ = 20#6 from hb 26 6 rfl]
  change decodeMx _ = _
  unfold decodeMx
  rw [show _ = 4#3 from hb 9 3 rfl]
  change ensure _ _ _ = _
  simp only [(hb 21 5 rfl).trans (ofNat_toNat d), (hb 16 5 rfl).trans (ofNat_toNat a), (hb 14 2 rfl).trans (ofNat_toNat da), show _ = 0#2 from hb 12 2 rfl, (hb 6 3 rfl).trans (ofNat_toNat s.bits), (hb 5 1 rfl).trans (ofNat_toNat h), show _ = 0#5 from hb 0 5 rfl, zeros, List.all_cons, List.all_nil, BEq.rfl, Bool.and_self, ensure, ite_true, withScope, scope_ofBits_bits]

theorem sts (d : Reg) (a : Reg) (da : Dist) (z : Size) (s : Scope) : Statement (.sts d a da z s) := by
  intro word _ he
  have hb := bits_of (ns := [6, 5, 5, 2, 2, 3, 3]) (Option.some.inj he)
    ⟨by decide, by decide, by decide, d.isLt, by decide, a.isLt, by decide, da.isLt, by decide, z.bits.isLt, by decide, by decide, by decide, s.bits.isLt, trivial⟩
  unfold decode
  rw [show _ = 20#6 from hb 26 6 rfl]
  change decodeMx _ = _
  unfold decodeMx
  rw [show _ = 5#3 from hb 9 3 rfl]
  change ensure _ _ _ = _
  simp only [(hb 21 5 rfl).trans (ofNat_toNat d), (hb 16 5 rfl).trans (ofNat_toNat a), (hb 14 2 rfl).trans (ofNat_toNat da), (hb 12 2 rfl).trans (ofNat_toNat z.bits), (hb 6 3 rfl).trans (ofNat_toNat s.bits), show _ = 0#6 from hb 0 6 rfl, zeros, List.all_cons, List.all_nil, BEq.rfl, Bool.and_self, ensure, ite_true, withScope, scope_ofBits_bits, size_ofBits_bits]

theorem amoswp (d : Reg) (a : Reg) (b : Reg) (o : Order) (s : Scope) (z : Wide) : Statement (.amoswp d a b o s z) := by
  intro word _ he
  have hb := bits_of (ns := [6, 5, 5, 5, 2, 3, 1]) (Option.some.inj he)
    ⟨by decide, by decide, by decide, d.isLt, by decide, a.isLt, by decide, b.isLt, by decide, o.bits.isLt, by decide, s.bits.isLt, by decide, z.bits.isLt, trivial⟩
  unfold decode
  rw [show _ = 21#6 from hb 26 6 rfl]
  change decodeAmo _ = _
  unfold decodeAmo
  rw [show _ = 0#4 from hb 7 4 rfl]
  change ensure _ _ _ = _
  simp only [(hb 21 5 rfl).trans (ofNat_toNat d), (hb 16 5 rfl).trans (ofNat_toNat a), (hb 11 5 rfl).trans (ofNat_toNat b), (hb 5 2 rfl).trans (ofNat_toNat o.bits), (hb 2 3 rfl).trans (ofNat_toNat s.bits), (hb 1 1 rfl).trans (ofNat_toNat z.bits), show _ = 0#1 from hb 0 1 rfl, zeros, List.all_cons, List.all_nil, BEq.rfl, Bool.and_self, ensure, ite_true, withScope, scope_ofBits_bits, order_ofBits_bits, wide_ofBits_bits]

theorem amoadd (d : Reg) (a : Reg) (b : Reg) (o : Order) (s : Scope) (z : Wide) : Statement (.amoadd d a b o s z) := by
  intro word _ he
  have hb := bits_of (ns := [6, 5, 5, 5, 4, 2, 3, 1]) (Option.some.inj he)
    ⟨by decide, by decide, by decide, d.isLt, by decide, a.isLt, by decide, b.isLt, by decide, by decide, by decide, o.bits.isLt, by decide, s.bits.isLt, by decide, z.bits.isLt, trivial⟩
  unfold decode
  rw [show _ = 21#6 from hb 26 6 rfl]
  change decodeAmo _ = _
  unfold decodeAmo
  rw [show _ = 1#4 from hb 7 4 rfl]
  change ensure _ _ _ = _
  simp only [(hb 21 5 rfl).trans (ofNat_toNat d), (hb 16 5 rfl).trans (ofNat_toNat a), (hb 11 5 rfl).trans (ofNat_toNat b), (hb 5 2 rfl).trans (ofNat_toNat o.bits), (hb 2 3 rfl).trans (ofNat_toNat s.bits), (hb 1 1 rfl).trans (ofNat_toNat z.bits), show _ = 0#1 from hb 0 1 rfl, zeros, List.all_cons, List.all_nil, BEq.rfl, Bool.and_self, ensure, ite_true, withScope, scope_ofBits_bits, order_ofBits_bits, wide_ofBits_bits]

theorem amoand (d : Reg) (a : Reg) (b : Reg) (o : Order) (s : Scope) (z : Wide) : Statement (.amoand d a b o s z) := by
  intro word _ he
  have hb := bits_of (ns := [6, 5, 5, 5, 4, 2, 3, 1]) (Option.some.inj he)
    ⟨by decide, by decide, by decide, d.isLt, by decide, a.isLt, by decide, b.isLt, by decide, by decide, by decide, o.bits.isLt, by decide, s.bits.isLt, by decide, z.bits.isLt, trivial⟩
  unfold decode
  rw [show _ = 21#6 from hb 26 6 rfl]
  change decodeAmo _ = _
  unfold decodeAmo
  rw [show _ = 2#4 from hb 7 4 rfl]
  change ensure _ _ _ = _
  simp only [(hb 21 5 rfl).trans (ofNat_toNat d), (hb 16 5 rfl).trans (ofNat_toNat a), (hb 11 5 rfl).trans (ofNat_toNat b), (hb 5 2 rfl).trans (ofNat_toNat o.bits), (hb 2 3 rfl).trans (ofNat_toNat s.bits), (hb 1 1 rfl).trans (ofNat_toNat z.bits), show _ = 0#1 from hb 0 1 rfl, zeros, List.all_cons, List.all_nil, BEq.rfl, Bool.and_self, ensure, ite_true, withScope, scope_ofBits_bits, order_ofBits_bits, wide_ofBits_bits]

theorem amoor (d : Reg) (a : Reg) (b : Reg) (o : Order) (s : Scope) (z : Wide) : Statement (.amoor d a b o s z) := by
  intro word _ he
  have hb := bits_of (ns := [6, 5, 5, 5, 4, 2, 3, 1]) (Option.some.inj he)
    ⟨by decide, by decide, by decide, d.isLt, by decide, a.isLt, by decide, b.isLt, by decide, by decide, by decide, o.bits.isLt, by decide, s.bits.isLt, by decide, z.bits.isLt, trivial⟩
  unfold decode
  rw [show _ = 21#6 from hb 26 6 rfl]
  change decodeAmo _ = _
  unfold decodeAmo
  rw [show _ = 3#4 from hb 7 4 rfl]
  change ensure _ _ _ = _
  simp only [(hb 21 5 rfl).trans (ofNat_toNat d), (hb 16 5 rfl).trans (ofNat_toNat a), (hb 11 5 rfl).trans (ofNat_toNat b), (hb 5 2 rfl).trans (ofNat_toNat o.bits), (hb 2 3 rfl).trans (ofNat_toNat s.bits), (hb 1 1 rfl).trans (ofNat_toNat z.bits), show _ = 0#1 from hb 0 1 rfl, zeros, List.all_cons, List.all_nil, BEq.rfl, Bool.and_self, ensure, ite_true, withScope, scope_ofBits_bits, order_ofBits_bits, wide_ofBits_bits]

theorem amoxor (d : Reg) (a : Reg) (b : Reg) (o : Order) (s : Scope) (z : Wide) : Statement (.amoxor d a b o s z) := by
  intro word _ he
  have hb := bits_of (ns := [6, 5, 5, 5, 4, 2, 3, 1]) (Option.some.inj he)
    ⟨by decide, by decide, by decide, d.isLt, by decide, a.isLt, by decide, b.isLt, by decide, by decide, by decide, o.bits.isLt, by decide, s.bits.isLt, by decide, z.bits.isLt, trivial⟩
  unfold decode
  rw [show _ = 21#6 from hb 26 6 rfl]
  change decodeAmo _ = _
  unfold decodeAmo
  rw [show _ = 4#4 from hb 7 4 rfl]
  change ensure _ _ _ = _
  simp only [(hb 21 5 rfl).trans (ofNat_toNat d), (hb 16 5 rfl).trans (ofNat_toNat a), (hb 11 5 rfl).trans (ofNat_toNat b), (hb 5 2 rfl).trans (ofNat_toNat o.bits), (hb 2 3 rfl).trans (ofNat_toNat s.bits), (hb 1 1 rfl).trans (ofNat_toNat z.bits), show _ = 0#1 from hb 0 1 rfl, zeros, List.all_cons, List.all_nil, BEq.rfl, Bool.and_self, ensure, ite_true, withScope, scope_ofBits_bits, order_ofBits_bits, wide_ofBits_bits]

theorem amomin (d : Reg) (a : Reg) (b : Reg) (o : Order) (s : Scope) (z : Wide) : Statement (.amomin d a b o s z) := by
  intro word _ he
  have hb := bits_of (ns := [6, 5, 5, 5, 4, 2, 3, 1]) (Option.some.inj he)
    ⟨by decide, by decide, by decide, d.isLt, by decide, a.isLt, by decide, b.isLt, by decide, by decide, by decide, o.bits.isLt, by decide, s.bits.isLt, by decide, z.bits.isLt, trivial⟩
  unfold decode
  rw [show _ = 21#6 from hb 26 6 rfl]
  change decodeAmo _ = _
  unfold decodeAmo
  rw [show _ = 5#4 from hb 7 4 rfl]
  change ensure _ _ _ = _
  simp only [(hb 21 5 rfl).trans (ofNat_toNat d), (hb 16 5 rfl).trans (ofNat_toNat a), (hb 11 5 rfl).trans (ofNat_toNat b), (hb 5 2 rfl).trans (ofNat_toNat o.bits), (hb 2 3 rfl).trans (ofNat_toNat s.bits), (hb 1 1 rfl).trans (ofNat_toNat z.bits), show _ = 0#1 from hb 0 1 rfl, zeros, List.all_cons, List.all_nil, BEq.rfl, Bool.and_self, ensure, ite_true, withScope, scope_ofBits_bits, order_ofBits_bits, wide_ofBits_bits]

theorem amomax (d : Reg) (a : Reg) (b : Reg) (o : Order) (s : Scope) (z : Wide) : Statement (.amomax d a b o s z) := by
  intro word _ he
  have hb := bits_of (ns := [6, 5, 5, 5, 4, 2, 3, 1]) (Option.some.inj he)
    ⟨by decide, by decide, by decide, d.isLt, by decide, a.isLt, by decide, b.isLt, by decide, by decide, by decide, o.bits.isLt, by decide, s.bits.isLt, by decide, z.bits.isLt, trivial⟩
  unfold decode
  rw [show _ = 21#6 from hb 26 6 rfl]
  change decodeAmo _ = _
  unfold decodeAmo
  rw [show _ = 6#4 from hb 7 4 rfl]
  change ensure _ _ _ = _
  simp only [(hb 21 5 rfl).trans (ofNat_toNat d), (hb 16 5 rfl).trans (ofNat_toNat a), (hb 11 5 rfl).trans (ofNat_toNat b), (hb 5 2 rfl).trans (ofNat_toNat o.bits), (hb 2 3 rfl).trans (ofNat_toNat s.bits), (hb 1 1 rfl).trans (ofNat_toNat z.bits), show _ = 0#1 from hb 0 1 rfl, zeros, List.all_cons, List.all_nil, BEq.rfl, Bool.and_self, ensure, ite_true, withScope, scope_ofBits_bits, order_ofBits_bits, wide_ofBits_bits]

theorem amominu (d : Reg) (a : Reg) (b : Reg) (o : Order) (s : Scope) (z : Wide) : Statement (.amominu d a b o s z) := by
  intro word _ he
  have hb := bits_of (ns := [6, 5, 5, 5, 4, 2, 3, 1]) (Option.some.inj he)
    ⟨by decide, by decide, by decide, d.isLt, by decide, a.isLt, by decide, b.isLt, by decide, by decide, by decide, o.bits.isLt, by decide, s.bits.isLt, by decide, z.bits.isLt, trivial⟩
  unfold decode
  rw [show _ = 21#6 from hb 26 6 rfl]
  change decodeAmo _ = _
  unfold decodeAmo
  rw [show _ = 7#4 from hb 7 4 rfl]
  change ensure _ _ _ = _
  simp only [(hb 21 5 rfl).trans (ofNat_toNat d), (hb 16 5 rfl).trans (ofNat_toNat a), (hb 11 5 rfl).trans (ofNat_toNat b), (hb 5 2 rfl).trans (ofNat_toNat o.bits), (hb 2 3 rfl).trans (ofNat_toNat s.bits), (hb 1 1 rfl).trans (ofNat_toNat z.bits), show _ = 0#1 from hb 0 1 rfl, zeros, List.all_cons, List.all_nil, BEq.rfl, Bool.and_self, ensure, ite_true, withScope, scope_ofBits_bits, order_ofBits_bits, wide_ofBits_bits]

theorem amomaxu (d : Reg) (a : Reg) (b : Reg) (o : Order) (s : Scope) (z : Wide) : Statement (.amomaxu d a b o s z) := by
  intro word _ he
  have hb := bits_of (ns := [6, 5, 5, 5, 4, 2, 3, 1]) (Option.some.inj he)
    ⟨by decide, by decide, by decide, d.isLt, by decide, a.isLt, by decide, b.isLt, by decide, by decide, by decide, o.bits.isLt, by decide, s.bits.isLt, by decide, z.bits.isLt, trivial⟩
  unfold decode
  rw [show _ = 21#6 from hb 26 6 rfl]
  change decodeAmo _ = _
  unfold decodeAmo
  rw [show _ = 8#4 from hb 7 4 rfl]
  change ensure _ _ _ = _
  simp only [(hb 21 5 rfl).trans (ofNat_toNat d), (hb 16 5 rfl).trans (ofNat_toNat a), (hb 11 5 rfl).trans (ofNat_toNat b), (hb 5 2 rfl).trans (ofNat_toNat o.bits), (hb 2 3 rfl).trans (ofNat_toNat s.bits), (hb 1 1 rfl).trans (ofNat_toNat z.bits), show _ = 0#1 from hb 0 1 rfl, zeros, List.all_cons, List.all_nil, BEq.rfl, Bool.and_self, ensure, ite_true, withScope, scope_ofBits_bits, order_ofBits_bits, wide_ofBits_bits]

theorem cas (d : Reg) (a : Reg) (b : Reg) (o : Order) (s : Scope) (z : Wide) : Statement (.cas d a b o s z) := by
  intro word _ he
  have hb := bits_of (ns := [6, 5, 5, 5, 4, 2, 3, 1]) (Option.some.inj he)
    ⟨by decide, by decide, by decide, d.isLt, by decide, a.isLt, by decide, b.isLt, by decide, by decide, by decide, o.bits.isLt, by decide, s.bits.isLt, by decide, z.bits.isLt, trivial⟩
  unfold decode
  rw [show _ = 21#6 from hb 26 6 rfl]
  change decodeAmo _ = _
  unfold decodeAmo
  rw [show _ = 9#4 from hb 7 4 rfl]
  change ensure _ _ _ = _
  simp only [(hb 21 5 rfl).trans (ofNat_toNat d), (hb 16 5 rfl).trans (ofNat_toNat a), (hb 11 5 rfl).trans (ofNat_toNat b), (hb 5 2 rfl).trans (ofNat_toNat o.bits), (hb 2 3 rfl).trans (ofNat_toNat s.bits), (hb 1 1 rfl).trans (ofNat_toNat z.bits), show _ = 0#1 from hb 0 1 rfl, zeros, List.all_cons, List.all_nil, BEq.rfl, Bool.and_self, ensure, ite_true, withScope, scope_ofBits_bits, order_ofBits_bits, wide_ofBits_bits]

theorem amofadd (d : Reg) (a : Reg) (b : Reg) (o : Order) (s : Scope) : Statement (.amofadd d a b o s) := by
  intro word _ he
  have hb := bits_of (ns := [6, 5, 5, 5, 4, 2, 3]) (Option.some.inj he)
    ⟨by decide, by decide, by decide, d.isLt, by decide, a.isLt, by decide, b.isLt, by decide, by decide, by decide, o.bits.isLt, by decide, s.bits.isLt, trivial⟩
  unfold decode
  rw [show _ = 21#6 from hb 26 6 rfl]
  change decodeAmo _ = _
  unfold decodeAmo
  rw [show _ = 10#4 from hb 7 4 rfl]
  change ensure _ _ _ = _
  simp only [(hb 21 5 rfl).trans (ofNat_toNat d), (hb 16 5 rfl).trans (ofNat_toNat a), (hb 11 5 rfl).trans (ofNat_toNat b), (hb 5 2 rfl).trans (ofNat_toNat o.bits), (hb 2 3 rfl).trans (ofNat_toNat s.bits), show _ = 0#1 from hb 1 1 rfl, show _ = 0#1 from hb 0 1 rfl, zeros, List.all_cons, List.all_nil, BEq.rfl, Bool.and_self, ensure, ite_true, withScope, scope_ofBits_bits, order_ofBits_bits]

theorem amoinc (d : Reg) (a : Reg) (b : Reg) (o : Order) (s : Scope) (z : Wide) : Statement (.amoinc d a b o s z) := by
  intro word _ he
  have hb := bits_of (ns := [6, 5, 5, 5, 4, 2, 3, 1]) (Option.some.inj he)
    ⟨by decide, by decide, by decide, d.isLt, by decide, a.isLt, by decide, b.isLt, by decide, by decide, by decide, o.bits.isLt, by decide, s.bits.isLt, by decide, z.bits.isLt, trivial⟩
  unfold decode
  rw [show _ = 21#6 from hb 26 6 rfl]
  change decodeAmo _ = _
  unfold decodeAmo
  rw [show _ = 11#4 from hb 7 4 rfl]
  change ensure _ _ _ = _
  simp only [(hb 21 5 rfl).trans (ofNat_toNat d), (hb 16 5 rfl).trans (ofNat_toNat a), (hb 11 5 rfl).trans (ofNat_toNat b), (hb 5 2 rfl).trans (ofNat_toNat o.bits), (hb 2 3 rfl).trans (ofNat_toNat s.bits), (hb 1 1 rfl).trans (ofNat_toNat z.bits), show _ = 0#1 from hb 0 1 rfl, zeros, List.all_cons, List.all_nil, BEq.rfl, Bool.and_self, ensure, ite_true, withScope, scope_ofBits_bits, order_ofBits_bits, wide_ofBits_bits]

theorem fence (s : Scope) : Statement (.fence s) := by
  intro word _ he
  have hb := bits_of (ns := [6, 3]) (Option.some.inj he)
    ⟨by decide, by decide, by decide, s.bits.isLt, trivial⟩
  unfold decode
  rw [show _ = 22#6 from hb 26 6 rfl]
  change decodeFence _ = _
  unfold decodeFence
  rw [show _ = 0#3 from hb 23 3 rfl]
  change ensure _ _ _ = _
  simp only [(hb 20 3 rfl).trans (ofNat_toNat s.bits), show _ = 0#20 from hb 0 20 rfl, zeros, List.all_cons, List.all_nil, BEq.rfl, Bool.and_self, ensure, ite_true, withScope, scope_ofBits_bits]

theorem fenceR (s : Scope) : Statement (.fenceR s) := by
  intro word _ he
  have hb := bits_of (ns := [6, 3, 3]) (Option.some.inj he)
    ⟨by decide, by decide, by decide, by decide, by decide, s.bits.isLt, trivial⟩
  unfold decode
  rw [show _ = 22#6 from hb 26 6 rfl]
  change decodeFence _ = _
  unfold decodeFence
  rw [show _ = 1#3 from hb 23 3 rfl]
  change ensure _ _ _ = _
  simp only [(hb 20 3 rfl).trans (ofNat_toNat s.bits), show _ = 0#20 from hb 0 20 rfl, zeros, List.all_cons, List.all_nil, BEq.rfl, Bool.and_self, ensure, ite_true, withScope, scope_ofBits_bits]

theorem fenceW (s : Scope) : Statement (.fenceW s) := by
  intro word _ he
  have hb := bits_of (ns := [6, 3, 3]) (Option.some.inj he)
    ⟨by decide, by decide, by decide, by decide, by decide, s.bits.isLt, trivial⟩
  unfold decode
  rw [show _ = 22#6 from hb 26 6 rfl]
  change decodeFence _ = _
  unfold decodeFence
  rw [show _ = 2#3 from hb 23 3 rfl]
  change ensure _ _ _ = _
  simp only [(hb 20 3 rfl).trans (ofNat_toNat s.bits), show _ = 0#20 from hb 0 20 rfl, zeros, List.all_cons, List.all_nil, BEq.rfl, Bool.and_self, ensure, ite_true, withScope, scope_ofBits_bits]

theorem ifence (s : Scope) : Statement (.ifence s) := by
  intro word _ he
  have hb := bits_of (ns := [6, 3, 3]) (Option.some.inj he)
    ⟨by decide, by decide, by decide, by decide, by decide, s.bits.isLt, trivial⟩
  unfold decode
  rw [show _ = 22#6 from hb 26 6 rfl]
  change decodeFence _ = _
  unfold decodeFence
  rw [show _ = 3#3 from hb 23 3 rfl]
  change ensure _ _ _ = _
  simp only [(hb 20 3 rfl).trans (ofNat_toNat s.bits), show _ = 0#20 from hb 0 20 rfl, zeros, List.all_cons, List.all_nil, BEq.rfl, Bool.and_self, ensure, ite_true, withScope, scope_ofBits_bits]

theorem fenceE (s : Scope) : Statement (.fenceE s) := by
  intro word _ he
  have hb := bits_of (ns := [6, 3, 3]) (Option.some.inj he)
    ⟨by decide, by decide, by decide, by decide, by decide, s.bits.isLt, trivial⟩
  unfold decode
  rw [show _ = 22#6 from hb 26 6 rfl]
  change decodeFence _ = _
  unfold decodeFence
  rw [show _ = 4#3 from hb 23 3 rfl]
  change ensure _ _ _ = _
  simp only [(hb 20 3 rfl).trans (ofNat_toNat s.bits), show _ = 0#20 from hb 0 20 rfl, zeros, List.all_cons, List.all_nil, BEq.rfl, Bool.and_self, ensure, ite_true, withScope, scope_ofBits_bits]

theorem fenceJ (s : Scope) : Statement (.fenceJ s) := by
  intro word _ he
  have hb := bits_of (ns := [6, 3, 3]) (Option.some.inj he)
    ⟨by decide, by decide, by decide, by decide, by decide, s.bits.isLt, trivial⟩
  unfold decode
  rw [show _ = 22#6 from hb 26 6 rfl]
  change decodeFence _ = _
  unfold decodeFence
  rw [show _ = 5#3 from hb 23 3 rfl]
  change ensure _ _ _ = _
  simp only [(hb 20 3 rfl).trans (ofNat_toNat s.bits), show _ = 0#20 from hb 0 20 rfl, zeros, List.all_cons, List.all_nil, BEq.rfl, Bool.and_self, ensure, ite_true, withScope, scope_ofBits_bits]

theorem fadd (d : Reg) (a : Reg) (da : Dist) (b : Reg) (db : Dist) (p : Prec) : Statement (.fadd d a da b db p) := by
  intro word _ he
  have hb := bits_of (ns := [6, 5, 5, 2, 5, 2, 1]) (Option.some.inj he)
    ⟨by decide, by decide, by decide, d.isLt, by decide, a.isLt, by decide, da.isLt, by decide, b.isLt, by decide, db.isLt, by decide, p.bits.isLt, trivial⟩
  unfold decode
  rw [show _ = 23#6 from hb 26 6 rfl]
  change decodeFop _ = _
  unfold decodeFop
  rw [show _ = 0#6 from hb 1 6 rfl]
  change Except.ok _ = _
  simp only [(hb 21 5 rfl).trans (ofNat_toNat d), (hb 16 5 rfl).trans (ofNat_toNat a), (hb 14 2 rfl).trans (ofNat_toNat da), (hb 9 5 rfl).trans (ofNat_toNat b), (hb 7 2 rfl).trans (ofNat_toNat db), (hb 0 1 rfl).trans (ofNat_toNat p.bits), prec_ofBits_bits]

theorem fsub (d : Reg) (a : Reg) (da : Dist) (b : Reg) (db : Dist) (p : Prec) : Statement (.fsub d a da b db p) := by
  intro word _ he
  have hb := bits_of (ns := [6, 5, 5, 2, 5, 2, 6, 1]) (Option.some.inj he)
    ⟨by decide, by decide, by decide, d.isLt, by decide, a.isLt, by decide, da.isLt, by decide, b.isLt, by decide, db.isLt, by decide, by decide, by decide, p.bits.isLt, trivial⟩
  unfold decode
  rw [show _ = 23#6 from hb 26 6 rfl]
  change decodeFop _ = _
  unfold decodeFop
  rw [show _ = 1#6 from hb 1 6 rfl]
  change Except.ok _ = _
  simp only [(hb 21 5 rfl).trans (ofNat_toNat d), (hb 16 5 rfl).trans (ofNat_toNat a), (hb 14 2 rfl).trans (ofNat_toNat da), (hb 9 5 rfl).trans (ofNat_toNat b), (hb 7 2 rfl).trans (ofNat_toNat db), (hb 0 1 rfl).trans (ofNat_toNat p.bits), prec_ofBits_bits]

theorem fmul (d : Reg) (a : Reg) (da : Dist) (b : Reg) (db : Dist) (p : Prec) : Statement (.fmul d a da b db p) := by
  intro word _ he
  have hb := bits_of (ns := [6, 5, 5, 2, 5, 2, 6, 1]) (Option.some.inj he)
    ⟨by decide, by decide, by decide, d.isLt, by decide, a.isLt, by decide, da.isLt, by decide, b.isLt, by decide, db.isLt, by decide, by decide, by decide, p.bits.isLt, trivial⟩
  unfold decode
  rw [show _ = 23#6 from hb 26 6 rfl]
  change decodeFop _ = _
  unfold decodeFop
  rw [show _ = 2#6 from hb 1 6 rfl]
  change Except.ok _ = _
  simp only [(hb 21 5 rfl).trans (ofNat_toNat d), (hb 16 5 rfl).trans (ofNat_toNat a), (hb 14 2 rfl).trans (ofNat_toNat da), (hb 9 5 rfl).trans (ofNat_toNat b), (hb 7 2 rfl).trans (ofNat_toNat db), (hb 0 1 rfl).trans (ofNat_toNat p.bits), prec_ofBits_bits]

theorem fdiv (d : Reg) (a : Reg) (da : Dist) (b : Reg) (db : Dist) (p : Prec) : Statement (.fdiv d a da b db p) := by
  intro word _ he
  have hb := bits_of (ns := [6, 5, 5, 2, 5, 2, 6, 1]) (Option.some.inj he)
    ⟨by decide, by decide, by decide, d.isLt, by decide, a.isLt, by decide, da.isLt, by decide, b.isLt, by decide, db.isLt, by decide, by decide, by decide, p.bits.isLt, trivial⟩
  unfold decode
  rw [show _ = 23#6 from hb 26 6 rfl]
  change decodeFop _ = _
  unfold decodeFop
  rw [show _ = 3#6 from hb 1 6 rfl]
  change Except.ok _ = _
  simp only [(hb 21 5 rfl).trans (ofNat_toNat d), (hb 16 5 rfl).trans (ofNat_toNat a), (hb 14 2 rfl).trans (ofNat_toNat da), (hb 9 5 rfl).trans (ofNat_toNat b), (hb 7 2 rfl).trans (ofNat_toNat db), (hb 0 1 rfl).trans (ofNat_toNat p.bits), prec_ofBits_bits]

theorem fsqrt (d : Reg) (a : Reg) (da : Dist) (p : Prec) : Statement (.fsqrt d a da p) := by
  intro word _ he
  have hb := bits_of (ns := [6, 5, 5, 2, 6, 1]) (Option.some.inj he)
    ⟨by decide, by decide, by decide, d.isLt, by decide, a.isLt, by decide, da.isLt, by decide, by decide, by decide, p.bits.isLt, trivial⟩
  unfold decode
  rw [show _ = 23#6 from hb 26 6 rfl]
  change decodeFop _ = _
  unfold decodeFop
  rw [show _ = 4#6 from hb 1 6 rfl]
  change ensure _ _ _ = _
  simp only [(hb 21 5 rfl).trans (ofNat_toNat d), (hb 16 5 rfl).trans (ofNat_toNat a), (hb 14 2 rfl).trans (ofNat_toNat da), show _ = 0#7 from hb 7 7 rfl, (hb 0 1 rfl).trans (ofNat_toNat p.bits), zeros, List.all_cons, List.all_nil, BEq.rfl, Bool.and_self, ensure, ite_true, prec_ofBits_bits]

theorem fma (d : Reg) (a : Reg) (da : Dist) (b : Reg) (db : Dist) (p : Prec) : Statement (.fma d a da b db p) := by
  intro word _ he
  have hb := bits_of (ns := [6, 5, 5, 2, 5, 2, 6, 1]) (Option.some.inj he)
    ⟨by decide, by decide, by decide, d.isLt, by decide, a.isLt, by decide, da.isLt, by decide, b.isLt, by decide, db.isLt, by decide, by decide, by decide, p.bits.isLt, trivial⟩
  unfold decode
  rw [show _ = 23#6 from hb 26 6 rfl]
  change decodeFop _ = _
  unfold decodeFop
  rw [show _ = 5#6 from hb 1 6 rfl]
  change Except.ok _ = _
  simp only [(hb 21 5 rfl).trans (ofNat_toNat d), (hb 16 5 rfl).trans (ofNat_toNat a), (hb 14 2 rfl).trans (ofNat_toNat da), (hb 9 5 rfl).trans (ofNat_toNat b), (hb 7 2 rfl).trans (ofNat_toNat db), (hb 0 1 rfl).trans (ofNat_toNat p.bits), prec_ofBits_bits]

theorem fmin (d : Reg) (a : Reg) (da : Dist) (b : Reg) (db : Dist) (p : Prec) : Statement (.fmin d a da b db p) := by
  intro word _ he
  have hb := bits_of (ns := [6, 5, 5, 2, 5, 2, 6, 1]) (Option.some.inj he)
    ⟨by decide, by decide, by decide, d.isLt, by decide, a.isLt, by decide, da.isLt, by decide, b.isLt, by decide, db.isLt, by decide, by decide, by decide, p.bits.isLt, trivial⟩
  unfold decode
  rw [show _ = 23#6 from hb 26 6 rfl]
  change decodeFop _ = _
  unfold decodeFop
  rw [show _ = 6#6 from hb 1 6 rfl]
  change Except.ok _ = _
  simp only [(hb 21 5 rfl).trans (ofNat_toNat d), (hb 16 5 rfl).trans (ofNat_toNat a), (hb 14 2 rfl).trans (ofNat_toNat da), (hb 9 5 rfl).trans (ofNat_toNat b), (hb 7 2 rfl).trans (ofNat_toNat db), (hb 0 1 rfl).trans (ofNat_toNat p.bits), prec_ofBits_bits]

theorem fmax (d : Reg) (a : Reg) (da : Dist) (b : Reg) (db : Dist) (p : Prec) : Statement (.fmax d a da b db p) := by
  intro word _ he
  have hb := bits_of (ns := [6, 5, 5, 2, 5, 2, 6, 1]) (Option.some.inj he)
    ⟨by decide, by decide, by decide, d.isLt, by decide, a.isLt, by decide, da.isLt, by decide, b.isLt, by decide, db.isLt, by decide, by decide, by decide, p.bits.isLt, trivial⟩
  unfold decode
  rw [show _ = 23#6 from hb 26 6 rfl]
  change decodeFop _ = _
  unfold decodeFop
  rw [show _ = 7#6 from hb 1 6 rfl]
  change Except.ok _ = _
  simp only [(hb 21 5 rfl).trans (ofNat_toNat d), (hb 16 5 rfl).trans (ofNat_toNat a), (hb 14 2 rfl).trans (ofNat_toNat da), (hb 9 5 rfl).trans (ofNat_toNat b), (hb 7 2 rfl).trans (ofNat_toNat db), (hb 0 1 rfl).trans (ofNat_toNat p.bits), prec_ofBits_bits]

theorem feq (d : Reg) (a : Reg) (da : Dist) (b : Reg) (db : Dist) (p : Prec) : Statement (.feq d a da b db p) := by
  intro word _ he
  have hb := bits_of (ns := [6, 5, 5, 2, 5, 2, 6, 1]) (Option.some.inj he)
    ⟨by decide, by decide, by decide, d.isLt, by decide, a.isLt, by decide, da.isLt, by decide, b.isLt, by decide, db.isLt, by decide, by decide, by decide, p.bits.isLt, trivial⟩
  unfold decode
  rw [show _ = 23#6 from hb 26 6 rfl]
  change decodeFop _ = _
  unfold decodeFop
  rw [show _ = 8#6 from hb 1 6 rfl]
  change Except.ok _ = _
  simp only [(hb 21 5 rfl).trans (ofNat_toNat d), (hb 16 5 rfl).trans (ofNat_toNat a), (hb 14 2 rfl).trans (ofNat_toNat da), (hb 9 5 rfl).trans (ofNat_toNat b), (hb 7 2 rfl).trans (ofNat_toNat db), (hb 0 1 rfl).trans (ofNat_toNat p.bits), prec_ofBits_bits]

theorem flt (d : Reg) (a : Reg) (da : Dist) (b : Reg) (db : Dist) (p : Prec) : Statement (.flt d a da b db p) := by
  intro word _ he
  have hb := bits_of (ns := [6, 5, 5, 2, 5, 2, 6, 1]) (Option.some.inj he)
    ⟨by decide, by decide, by decide, d.isLt, by decide, a.isLt, by decide, da.isLt, by decide, b.isLt, by decide, db.isLt, by decide, by decide, by decide, p.bits.isLt, trivial⟩
  unfold decode
  rw [show _ = 23#6 from hb 26 6 rfl]
  change decodeFop _ = _
  unfold decodeFop
  rw [show _ = 9#6 from hb 1 6 rfl]
  change Except.ok _ = _
  simp only [(hb 21 5 rfl).trans (ofNat_toNat d), (hb 16 5 rfl).trans (ofNat_toNat a), (hb 14 2 rfl).trans (ofNat_toNat da), (hb 9 5 rfl).trans (ofNat_toNat b), (hb 7 2 rfl).trans (ofNat_toNat db), (hb 0 1 rfl).trans (ofNat_toNat p.bits), prec_ofBits_bits]

theorem fle (d : Reg) (a : Reg) (da : Dist) (b : Reg) (db : Dist) (p : Prec) : Statement (.fle d a da b db p) := by
  intro word _ he
  have hb := bits_of (ns := [6, 5, 5, 2, 5, 2, 6, 1]) (Option.some.inj he)
    ⟨by decide, by decide, by decide, d.isLt, by decide, a.isLt, by decide, da.isLt, by decide, b.isLt, by decide, db.isLt, by decide, by decide, by decide, p.bits.isLt, trivial⟩
  unfold decode
  rw [show _ = 23#6 from hb 26 6 rfl]
  change decodeFop _ = _
  unfold decodeFop
  rw [show _ = 10#6 from hb 1 6 rfl]
  change Except.ok _ = _
  simp only [(hb 21 5 rfl).trans (ofNat_toNat d), (hb 16 5 rfl).trans (ofNat_toNat a), (hb 14 2 rfl).trans (ofNat_toNat da), (hb 9 5 rfl).trans (ofNat_toNat b), (hb 7 2 rfl).trans (ofNat_toNat db), (hb 0 1 rfl).trans (ofNat_toNat p.bits), prec_ofBits_bits]

theorem fclass (d : Reg) (a : Reg) (da : Dist) (p : Prec) : Statement (.fclass d a da p) := by
  intro word _ he
  have hb := bits_of (ns := [6, 5, 5, 2, 6, 1]) (Option.some.inj he)
    ⟨by decide, by decide, by decide, d.isLt, by decide, a.isLt, by decide, da.isLt, by decide, by decide, by decide, p.bits.isLt, trivial⟩
  unfold decode
  rw [show _ = 23#6 from hb 26 6 rfl]
  change decodeFop _ = _
  unfold decodeFop
  rw [show _ = 11#6 from hb 1 6 rfl]
  change ensure _ _ _ = _
  simp only [(hb 21 5 rfl).trans (ofNat_toNat d), (hb 16 5 rfl).trans (ofNat_toNat a), (hb 14 2 rfl).trans (ofNat_toNat da), show _ = 0#7 from hb 7 7 rfl, (hb 0 1 rfl).trans (ofNat_toNat p.bits), zeros, List.all_cons, List.all_nil, BEq.rfl, Bool.and_self, ensure, ite_true, prec_ofBits_bits]

theorem fcvti (d : Reg) (a : Reg) (da : Dist) (p : Prec) : Statement (.fcvti d a da p) := by
  intro word _ he
  have hb := bits_of (ns := [6, 5, 5, 2, 6, 1]) (Option.some.inj he)
    ⟨by decide, by decide, by decide, d.isLt, by decide, a.isLt, by decide, da.isLt, by decide, by decide, by decide, p.bits.isLt, trivial⟩
  unfold decode
  rw [show _ = 23#6 from hb 26 6 rfl]
  change decodeFop _ = _
  unfold decodeFop
  rw [show _ = 12#6 from hb 1 6 rfl]
  change ensure _ _ _ = _
  simp only [(hb 21 5 rfl).trans (ofNat_toNat d), (hb 16 5 rfl).trans (ofNat_toNat a), (hb 14 2 rfl).trans (ofNat_toNat da), show _ = 0#7 from hb 7 7 rfl, (hb 0 1 rfl).trans (ofNat_toNat p.bits), zeros, List.all_cons, List.all_nil, BEq.rfl, Bool.and_self, ensure, ite_true, prec_ofBits_bits]

theorem fcvtf (d : Reg) (a : Reg) (da : Dist) (p : Prec) : Statement (.fcvtf d a da p) := by
  intro word _ he
  have hb := bits_of (ns := [6, 5, 5, 2, 6, 1]) (Option.some.inj he)
    ⟨by decide, by decide, by decide, d.isLt, by decide, a.isLt, by decide, da.isLt, by decide, by decide, by decide, p.bits.isLt, trivial⟩
  unfold decode
  rw [show _ = 23#6 from hb 26 6 rfl]
  change decodeFop _ = _
  unfold decodeFop
  rw [show _ = 13#6 from hb 1 6 rfl]
  change ensure _ _ _ = _
  simp only [(hb 21 5 rfl).trans (ofNat_toNat d), (hb 16 5 rfl).trans (ofNat_toNat a), (hb 14 2 rfl).trans (ofNat_toNat da), show _ = 0#7 from hb 7 7 rfl, (hb 0 1 rfl).trans (ofNat_toNat p.bits), zeros, List.all_cons, List.all_nil, BEq.rfl, Bool.and_self, ensure, ite_true, prec_ofBits_bits]

theorem fcvtw (d : Reg) (a : Reg) (da : Dist) (p : Prec) : Statement (.fcvtw d a da p) := by
  intro word _ he
  have hb := bits_of (ns := [6, 5, 5, 2, 6, 1]) (Option.some.inj he)
    ⟨by decide, by decide, by decide, d.isLt, by decide, a.isLt, by decide, da.isLt, by decide, by decide, by decide, p.bits.isLt, trivial⟩
  unfold decode
  rw [show _ = 23#6 from hb 26 6 rfl]
  change decodeFop _ = _
  unfold decodeFop
  rw [show _ = 14#6 from hb 1 6 rfl]
  change ensure _ _ _ = _
  simp only [(hb 21 5 rfl).trans (ofNat_toNat d), (hb 16 5 rfl).trans (ofNat_toNat a), (hb 14 2 rfl).trans (ofNat_toNat da), show _ = 0#7 from hb 7 7 rfl, (hb 0 1 rfl).trans (ofNat_toNat p.bits), zeros, List.all_cons, List.all_nil, BEq.rfl, Bool.and_self, ensure, ite_true, prec_ofBits_bits]

theorem vadd (d : Reg) (a : Reg) (dva : VDist) (b : Reg) (k : KReg) (t : IntTy) : Statement (.vadd d a dva b k t) := by
  intro word _ he
  have hb := bits_of (ns := [6, 5, 5, 1, 5, 3, 2]) (Option.some.inj he)
    ⟨by decide, by decide, by decide, d.isLt, by decide, a.isLt, by decide, dva.isLt, by decide, b.isLt, by decide, k.isLt, by decide, t.bits.isLt, trivial⟩
  unfold decode
  rw [show _ = 24#6 from hb 26 6 rfl]
  change decodeVint _ = _
  unfold decodeVint
  rw [show _ = 0#5 from hb 2 5 rfl]
  change Except.ok _ = _
  simp only [(hb 21 5 rfl).trans (ofNat_toNat d), (hb 16 5 rfl).trans (ofNat_toNat a), (hb 15 1 rfl).trans (ofNat_toNat dva), (hb 10 5 rfl).trans (ofNat_toNat b), (hb 7 3 rfl).trans (ofNat_toNat k), (hb 0 2 rfl).trans (ofNat_toNat t.bits), intTy_ofBits_bits]

theorem vsub (d : Reg) (a : Reg) (dva : VDist) (b : Reg) (k : KReg) (t : IntTy) : Statement (.vsub d a dva b k t) := by
  intro word _ he
  have hb := bits_of (ns := [6, 5, 5, 1, 5, 3, 5, 2]) (Option.some.inj he)
    ⟨by decide, by decide, by decide, d.isLt, by decide, a.isLt, by decide, dva.isLt, by decide, b.isLt, by decide, k.isLt, by decide, by decide, by decide, t.bits.isLt, trivial⟩
  unfold decode
  rw [show _ = 24#6 from hb 26 6 rfl]
  change decodeVint _ = _
  unfold decodeVint
  rw [show _ = 1#5 from hb 2 5 rfl]
  change Except.ok _ = _
  simp only [(hb 21 5 rfl).trans (ofNat_toNat d), (hb 16 5 rfl).trans (ofNat_toNat a), (hb 15 1 rfl).trans (ofNat_toNat dva), (hb 10 5 rfl).trans (ofNat_toNat b), (hb 7 3 rfl).trans (ofNat_toNat k), (hb 0 2 rfl).trans (ofNat_toNat t.bits), intTy_ofBits_bits]

theorem vmul (d : Reg) (a : Reg) (dva : VDist) (b : Reg) (k : KReg) (t : IntTy) : Statement (.vmul d a dva b k t) := by
  intro word _ he
  have hb := bits_of (ns := [6, 5, 5, 1, 5, 3, 5, 2]) (Option.some.inj he)
    ⟨by decide, by decide, by decide, d.isLt, by decide, a.isLt, by decide, dva.isLt, by decide, b.isLt, by decide, k.isLt, by decide, by decide, by decide, t.bits.isLt, trivial⟩
  unfold decode
  rw [show _ = 24#6 from hb 26 6 rfl]
  change decodeVint _ = _
  unfold decodeVint
  rw [show _ = 2#5 from hb 2 5 rfl]
  change Except.ok _ = _
  simp only [(hb 21 5 rfl).trans (ofNat_toNat d), (hb 16 5 rfl).trans (ofNat_toNat a), (hb 15 1 rfl).trans (ofNat_toNat dva), (hb 10 5 rfl).trans (ofNat_toNat b), (hb 7 3 rfl).trans (ofNat_toNat k), (hb 0 2 rfl).trans (ofNat_toNat t.bits), intTy_ofBits_bits]

theorem vmulh (d : Reg) (a : Reg) (dva : VDist) (b : Reg) (k : KReg) (t : IntTy) : Statement (.vmulh d a dva b k t) := by
  intro word _ he
  have hb := bits_of (ns := [6, 5, 5, 1, 5, 3, 5, 2]) (Option.some.inj he)
    ⟨by decide, by decide, by decide, d.isLt, by decide, a.isLt, by decide, dva.isLt, by decide, b.isLt, by decide, k.isLt, by decide, by decide, by decide, t.bits.isLt, trivial⟩
  unfold decode
  rw [show _ = 24#6 from hb 26 6 rfl]
  change decodeVint _ = _
  unfold decodeVint
  rw [show _ = 3#5 from hb 2 5 rfl]
  change Except.ok _ = _
  simp only [(hb 21 5 rfl).trans (ofNat_toNat d), (hb 16 5 rfl).trans (ofNat_toNat a), (hb 15 1 rfl).trans (ofNat_toNat dva), (hb 10 5 rfl).trans (ofNat_toNat b), (hb 7 3 rfl).trans (ofNat_toNat k), (hb 0 2 rfl).trans (ofNat_toNat t.bits), intTy_ofBits_bits]

theorem vmin (d : Reg) (a : Reg) (dva : VDist) (b : Reg) (k : KReg) (t : IntTy) : Statement (.vmin d a dva b k t) := by
  intro word _ he
  have hb := bits_of (ns := [6, 5, 5, 1, 5, 3, 5, 2]) (Option.some.inj he)
    ⟨by decide, by decide, by decide, d.isLt, by decide, a.isLt, by decide, dva.isLt, by decide, b.isLt, by decide, k.isLt, by decide, by decide, by decide, t.bits.isLt, trivial⟩
  unfold decode
  rw [show _ = 24#6 from hb 26 6 rfl]
  change decodeVint _ = _
  unfold decodeVint
  rw [show _ = 4#5 from hb 2 5 rfl]
  change Except.ok _ = _
  simp only [(hb 21 5 rfl).trans (ofNat_toNat d), (hb 16 5 rfl).trans (ofNat_toNat a), (hb 15 1 rfl).trans (ofNat_toNat dva), (hb 10 5 rfl).trans (ofNat_toNat b), (hb 7 3 rfl).trans (ofNat_toNat k), (hb 0 2 rfl).trans (ofNat_toNat t.bits), intTy_ofBits_bits]

theorem vmax (d : Reg) (a : Reg) (dva : VDist) (b : Reg) (k : KReg) (t : IntTy) : Statement (.vmax d a dva b k t) := by
  intro word _ he
  have hb := bits_of (ns := [6, 5, 5, 1, 5, 3, 5, 2]) (Option.some.inj he)
    ⟨by decide, by decide, by decide, d.isLt, by decide, a.isLt, by decide, dva.isLt, by decide, b.isLt, by decide, k.isLt, by decide, by decide, by decide, t.bits.isLt, trivial⟩
  unfold decode
  rw [show _ = 24#6 from hb 26 6 rfl]
  change decodeVint _ = _
  unfold decodeVint
  rw [show _ = 5#5 from hb 2 5 rfl]
  change Except.ok _ = _
  simp only [(hb 21 5 rfl).trans (ofNat_toNat d), (hb 16 5 rfl).trans (ofNat_toNat a), (hb 15 1 rfl).trans (ofNat_toNat dva), (hb 10 5 rfl).trans (ofNat_toNat b), (hb 7 3 rfl).trans (ofNat_toNat k), (hb 0 2 rfl).trans (ofNat_toNat t.bits), intTy_ofBits_bits]

theorem vminu (d : Reg) (a : Reg) (dva : VDist) (b : Reg) (k : KReg) (t : IntTy) : Statement (.vminu d a dva b k t) := by
  intro word _ he
  have hb := bits_of (ns := [6, 5, 5, 1, 5, 3, 5, 2]) (Option.some.inj he)
    ⟨by decide, by decide, by decide, d.isLt, by decide, a.isLt, by decide, dva.isLt, by decide, b.isLt, by decide, k.isLt, by decide, by decide, by decide, t.bits.isLt, trivial⟩
  unfold decode
  rw [show _ = 24#6 from hb 26 6 rfl]
  change decodeVint _ = _
  unfold decodeVint
  rw [show _ = 6#5 from hb 2 5 rfl]
  change Except.ok _ = _
  simp only [(hb 21 5 rfl).trans (ofNat_toNat d), (hb 16 5 rfl).trans (ofNat_toNat a), (hb 15 1 rfl).trans (ofNat_toNat dva), (hb 10 5 rfl).trans (ofNat_toNat b), (hb 7 3 rfl).trans (ofNat_toNat k), (hb 0 2 rfl).trans (ofNat_toNat t.bits), intTy_ofBits_bits]

theorem vmaxu (d : Reg) (a : Reg) (dva : VDist) (b : Reg) (k : KReg) (t : IntTy) : Statement (.vmaxu d a dva b k t) := by
  intro word _ he
  have hb := bits_of (ns := [6, 5, 5, 1, 5, 3, 5, 2]) (Option.some.inj he)
    ⟨by decide, by decide, by decide, d.isLt, by decide, a.isLt, by decide, dva.isLt, by decide, b.isLt, by decide, k.isLt, by decide, by decide, by decide, t.bits.isLt, trivial⟩
  unfold decode
  rw [show _ = 24#6 from hb 26 6 rfl]
  change decodeVint _ = _
  unfold decodeVint
  rw [show _ = 7#5 from hb 2 5 rfl]
  change Except.ok _ = _
  simp only [(hb 21 5 rfl).trans (ofNat_toNat d), (hb 16 5 rfl).trans (ofNat_toNat a), (hb 15 1 rfl).trans (ofNat_toNat dva), (hb 10 5 rfl).trans (ofNat_toNat b), (hb 7 3 rfl).trans (ofNat_toNat k), (hb 0 2 rfl).trans (ofNat_toNat t.bits), intTy_ofBits_bits]

theorem vand (d : Reg) (a : Reg) (dva : VDist) (b : Reg) (k : KReg) (t : IntTy) : Statement (.vand d a dva b k t) := by
  intro word _ he
  have hb := bits_of (ns := [6, 5, 5, 1, 5, 3, 5, 2]) (Option.some.inj he)
    ⟨by decide, by decide, by decide, d.isLt, by decide, a.isLt, by decide, dva.isLt, by decide, b.isLt, by decide, k.isLt, by decide, by decide, by decide, t.bits.isLt, trivial⟩
  unfold decode
  rw [show _ = 24#6 from hb 26 6 rfl]
  change decodeVint _ = _
  unfold decodeVint
  rw [show _ = 8#5 from hb 2 5 rfl]
  change Except.ok _ = _
  simp only [(hb 21 5 rfl).trans (ofNat_toNat d), (hb 16 5 rfl).trans (ofNat_toNat a), (hb 15 1 rfl).trans (ofNat_toNat dva), (hb 10 5 rfl).trans (ofNat_toNat b), (hb 7 3 rfl).trans (ofNat_toNat k), (hb 0 2 rfl).trans (ofNat_toNat t.bits), intTy_ofBits_bits]

theorem vor (d : Reg) (a : Reg) (dva : VDist) (b : Reg) (k : KReg) (t : IntTy) : Statement (.vor d a dva b k t) := by
  intro word _ he
  have hb := bits_of (ns := [6, 5, 5, 1, 5, 3, 5, 2]) (Option.some.inj he)
    ⟨by decide, by decide, by decide, d.isLt, by decide, a.isLt, by decide, dva.isLt, by decide, b.isLt, by decide, k.isLt, by decide, by decide, by decide, t.bits.isLt, trivial⟩
  unfold decode
  rw [show _ = 24#6 from hb 26 6 rfl]
  change decodeVint _ = _
  unfold decodeVint
  rw [show _ = 9#5 from hb 2 5 rfl]
  change Except.ok _ = _
  simp only [(hb 21 5 rfl).trans (ofNat_toNat d), (hb 16 5 rfl).trans (ofNat_toNat a), (hb 15 1 rfl).trans (ofNat_toNat dva), (hb 10 5 rfl).trans (ofNat_toNat b), (hb 7 3 rfl).trans (ofNat_toNat k), (hb 0 2 rfl).trans (ofNat_toNat t.bits), intTy_ofBits_bits]

theorem vxor (d : Reg) (a : Reg) (dva : VDist) (b : Reg) (k : KReg) (t : IntTy) : Statement (.vxor d a dva b k t) := by
  intro word _ he
  have hb := bits_of (ns := [6, 5, 5, 1, 5, 3, 5, 2]) (Option.some.inj he)
    ⟨by decide, by decide, by decide, d.isLt, by decide, a.isLt, by decide, dva.isLt, by decide, b.isLt, by decide, k.isLt, by decide, by decide, by decide, t.bits.isLt, trivial⟩
  unfold decode
  rw [show _ = 24#6 from hb 26 6 rfl]
  change decodeVint _ = _
  unfold decodeVint
  rw [show _ = 10#5 from hb 2 5 rfl]
  change Except.ok _ = _
  simp only [(hb 21 5 rfl).trans (ofNat_toNat d), (hb 16 5 rfl).trans (ofNat_toNat a), (hb 15 1 rfl).trans (ofNat_toNat dva), (hb 10 5 rfl).trans (ofNat_toNat b), (hb 7 3 rfl).trans (ofNat_toNat k), (hb 0 2 rfl).trans (ofNat_toNat t.bits), intTy_ofBits_bits]

theorem vshl (d : Reg) (a : Reg) (dva : VDist) (b : Reg) (k : KReg) (t : IntTy) : Statement (.vshl d a dva b k t) := by
  intro word _ he
  have hb := bits_of (ns := [6, 5, 5, 1, 5, 3, 5, 2]) (Option.some.inj he)
    ⟨by decide, by decide, by decide, d.isLt, by decide, a.isLt, by decide, dva.isLt, by decide, b.isLt, by decide, k.isLt, by decide, by decide, by decide, t.bits.isLt, trivial⟩
  unfold decode
  rw [show _ = 24#6 from hb 26 6 rfl]
  change decodeVint _ = _
  unfold decodeVint
  rw [show _ = 11#5 from hb 2 5 rfl]
  change Except.ok _ = _
  simp only [(hb 21 5 rfl).trans (ofNat_toNat d), (hb 16 5 rfl).trans (ofNat_toNat a), (hb 15 1 rfl).trans (ofNat_toNat dva), (hb 10 5 rfl).trans (ofNat_toNat b), (hb 7 3 rfl).trans (ofNat_toNat k), (hb 0 2 rfl).trans (ofNat_toNat t.bits), intTy_ofBits_bits]

theorem vshr (d : Reg) (a : Reg) (dva : VDist) (b : Reg) (k : KReg) (t : IntTy) : Statement (.vshr d a dva b k t) := by
  intro word _ he
  have hb := bits_of (ns := [6, 5, 5, 1, 5, 3, 5, 2]) (Option.some.inj he)
    ⟨by decide, by decide, by decide, d.isLt, by decide, a.isLt, by decide, dva.isLt, by decide, b.isLt, by decide, k.isLt, by decide, by decide, by decide, t.bits.isLt, trivial⟩
  unfold decode
  rw [show _ = 24#6 from hb 26 6 rfl]
  change decodeVint _ = _
  unfold decodeVint
  rw [show _ = 12#5 from hb 2 5 rfl]
  change Except.ok _ = _
  simp only [(hb 21 5 rfl).trans (ofNat_toNat d), (hb 16 5 rfl).trans (ofNat_toNat a), (hb 15 1 rfl).trans (ofNat_toNat dva), (hb 10 5 rfl).trans (ofNat_toNat b), (hb 7 3 rfl).trans (ofNat_toNat k), (hb 0 2 rfl).trans (ofNat_toNat t.bits), intTy_ofBits_bits]

theorem vsra (d : Reg) (a : Reg) (dva : VDist) (b : Reg) (k : KReg) (t : IntTy) : Statement (.vsra d a dva b k t) := by
  intro word _ he
  have hb := bits_of (ns := [6, 5, 5, 1, 5, 3, 5, 2]) (Option.some.inj he)
    ⟨by decide, by decide, by decide, d.isLt, by decide, a.isLt, by decide, dva.isLt, by decide, b.isLt, by decide, k.isLt, by decide, by decide, by decide, t.bits.isLt, trivial⟩
  unfold decode
  rw [show _ = 24#6 from hb 26 6 rfl]
  change decodeVint _ = _
  unfold decodeVint
  rw [show _ = 13#5 from hb 2 5 rfl]
  change Except.ok _ = _
  simp only [(hb 21 5 rfl).trans (ofNat_toNat d), (hb 16 5 rfl).trans (ofNat_toNat a), (hb 15 1 rfl).trans (ofNat_toNat dva), (hb 10 5 rfl).trans (ofNat_toNat b), (hb 7 3 rfl).trans (ofNat_toNat k), (hb 0 2 rfl).trans (ofNat_toNat t.bits), intTy_ofBits_bits]

theorem vsadd (d : Reg) (a : Reg) (dva : VDist) (b : Reg) (k : KReg) (t : IntTy) : Statement (.vsadd d a dva b k t) := by
  intro word _ he
  have hb := bits_of (ns := [6, 5, 5, 1, 5, 3, 5, 2]) (Option.some.inj he)
    ⟨by decide, by decide, by decide, d.isLt, by decide, a.isLt, by decide, dva.isLt, by decide, b.isLt, by decide, k.isLt, by decide, by decide, by decide, t.bits.isLt, trivial⟩
  unfold decode
  rw [show _ = 24#6 from hb 26 6 rfl]
  change decodeVint _ = _
  unfold decodeVint
  rw [show _ = 14#5 from hb 2 5 rfl]
  change Except.ok _ = _
  simp only [(hb 21 5 rfl).trans (ofNat_toNat d), (hb 16 5 rfl).trans (ofNat_toNat a), (hb 15 1 rfl).trans (ofNat_toNat dva), (hb 10 5 rfl).trans (ofNat_toNat b), (hb 7 3 rfl).trans (ofNat_toNat k), (hb 0 2 rfl).trans (ofNat_toNat t.bits), intTy_ofBits_bits]

theorem vssub (d : Reg) (a : Reg) (dva : VDist) (b : Reg) (k : KReg) (t : IntTy) : Statement (.vssub d a dva b k t) := by
  intro word _ he
  have hb := bits_of (ns := [6, 5, 5, 1, 5, 3, 5, 2]) (Option.some.inj he)
    ⟨by decide, by decide, by decide, d.isLt, by decide, a.isLt, by decide, dva.isLt, by decide, b.isLt, by decide, k.isLt, by decide, by decide, by decide, t.bits.isLt, trivial⟩
  unfold decode
  rw [show _ = 24#6 from hb 26 6 rfl]
  change decodeVint _ = _
  unfold decodeVint
  rw [show _ = 15#5 from hb 2 5 rfl]
  change Except.ok _ = _
  simp only [(hb 21 5 rfl).trans (ofNat_toNat d), (hb 16 5 rfl).trans (ofNat_toNat a), (hb 15 1 rfl).trans (ofNat_toNat dva), (hb 10 5 rfl).trans (ofNat_toNat b), (hb 7 3 rfl).trans (ofNat_toNat k), (hb 0 2 rfl).trans (ofNat_toNat t.bits), intTy_ofBits_bits]

theorem vabs (d : Reg) (a : Reg) (dva : VDist) (k : KReg) (t : IntTy) : Statement (.vabs d a dva k t) := by
  intro word _ he
  have hb := bits_of (ns := [6, 5, 5, 1, 3, 5, 2]) (Option.some.inj he)
    ⟨by decide, by decide, by decide, d.isLt, by decide, a.isLt, by decide, dva.isLt, by decide, k.isLt, by decide, by decide, by decide, t.bits.isLt, trivial⟩
  unfold decode
  rw [show _ = 24#6 from hb 26 6 rfl]
  change decodeVint _ = _
  unfold decodeVint
  rw [show _ = 16#5 from hb 2 5 rfl]
  change ensure _ _ _ = _
  simp only [(hb 21 5 rfl).trans (ofNat_toNat d), (hb 16 5 rfl).trans (ofNat_toNat a), (hb 15 1 rfl).trans (ofNat_toNat dva), show _ = 0#5 from hb 10 5 rfl, (hb 7 3 rfl).trans (ofNat_toNat k), (hb 0 2 rfl).trans (ofNat_toNat t.bits), zeros, List.all_cons, List.all_nil, BEq.rfl, Bool.and_self, ensure, ite_true, intTy_ofBits_bits]

theorem vcmpeq (d : KReg) (a : Reg) (dva : VDist) (b : Reg) (k : KReg) (t : IntTy) : Statement (.vcmpeq d a dva b k t) := by
  intro word _ he
  have hb := bits_of (ns := [6, 3, 5, 1, 5, 3, 5, 2]) (Option.some.inj he)
    ⟨by decide, by decide, by decide, d.isLt, by decide, a.isLt, by decide, dva.isLt, by decide, b.isLt, by decide, k.isLt, by decide, by decide, by decide, t.bits.isLt, trivial⟩
  unfold decode
  rw [show _ = 24#6 from hb 26 6 rfl]
  change decodeVint _ = _
  unfold decodeVint
  rw [show _ = 17#5 from hb 2 5 rfl]
  change ensure _ _ _ = _
  simp only [show _ = 0#2 from hb 24 2 rfl, (hb 21 3 rfl).trans (ofNat_toNat d), (hb 16 5 rfl).trans (ofNat_toNat a), (hb 15 1 rfl).trans (ofNat_toNat dva), (hb 10 5 rfl).trans (ofNat_toNat b), (hb 7 3 rfl).trans (ofNat_toNat k), (hb 0 2 rfl).trans (ofNat_toNat t.bits), zeros, List.all_cons, List.all_nil, BEq.rfl, Bool.and_self, ensure, ite_true, intTy_ofBits_bits]

theorem vcmplt (d : KReg) (a : Reg) (dva : VDist) (b : Reg) (k : KReg) (t : IntTy) : Statement (.vcmplt d a dva b k t) := by
  intro word _ he
  have hb := bits_of (ns := [6, 3, 5, 1, 5, 3, 5, 2]) (Option.some.inj he)
    ⟨by decide, by decide, by decide, d.isLt, by decide, a.isLt, by decide, dva.isLt, by decide, b.isLt, by decide, k.isLt, by decide, by decide, by decide, t.bits.isLt, trivial⟩
  unfold decode
  rw [show _ = 24#6 from hb 26 6 rfl]
  change decodeVint _ = _
  unfold decodeVint
  rw [show _ = 18#5 from hb 2 5 rfl]
  change ensure _ _ _ = _
  simp only [show _ = 0#2 from hb 24 2 rfl, (hb 21 3 rfl).trans (ofNat_toNat d), (hb 16 5 rfl).trans (ofNat_toNat a), (hb 15 1 rfl).trans (ofNat_toNat dva), (hb 10 5 rfl).trans (ofNat_toNat b), (hb 7 3 rfl).trans (ofNat_toNat k), (hb 0 2 rfl).trans (ofNat_toNat t.bits), zeros, List.all_cons, List.all_nil, BEq.rfl, Bool.and_self, ensure, ite_true, intTy_ofBits_bits]

theorem vcmpltu (d : KReg) (a : Reg) (dva : VDist) (b : Reg) (k : KReg) (t : IntTy) : Statement (.vcmpltu d a dva b k t) := by
  intro word _ he
  have hb := bits_of (ns := [6, 3, 5, 1, 5, 3, 5, 2]) (Option.some.inj he)
    ⟨by decide, by decide, by decide, d.isLt, by decide, a.isLt, by decide, dva.isLt, by decide, b.isLt, by decide, k.isLt, by decide, by decide, by decide, t.bits.isLt, trivial⟩
  unfold decode
  rw [show _ = 24#6 from hb 26 6 rfl]
  change decodeVint _ = _
  unfold decodeVint
  rw [show _ = 19#5 from hb 2 5 rfl]
  change ensure _ _ _ = _
  simp only [show _ = 0#2 from hb 24 2 rfl, (hb 21 3 rfl).trans (ofNat_toNat d), (hb 16 5 rfl).trans (ofNat_toNat a), (hb 15 1 rfl).trans (ofNat_toNat dva), (hb 10 5 rfl).trans (ofNat_toNat b), (hb 7 3 rfl).trans (ofNat_toNat k), (hb 0 2 rfl).trans (ofNat_toNat t.bits), zeros, List.all_cons, List.all_nil, BEq.rfl, Bool.and_self, ensure, ite_true, intTy_ofBits_bits]

theorem vfadd (d : Reg) (a : Reg) (dva : VDist) (b : Reg) (k : KReg) (t : FltTy) : Statement (.vfadd d a dva b k t) := by
  intro word _ he
  have hb := bits_of (ns := [6, 5, 5, 1, 5, 3, 2]) (Option.some.inj he)
    ⟨by decide, by decide, by decide, d.isLt, by decide, a.isLt, by decide, dva.isLt, by decide, b.isLt, by decide, k.isLt, by decide, t.bits.isLt, trivial⟩
  unfold decode
  rw [show _ = 25#6 from hb 26 6 rfl]
  change decodeVflt _ = _
  unfold decodeVflt
  rw [show _ = 0#5 from hb 2 5 rfl]
  change withFltTy _ _ = _
  simp only [(hb 21 5 rfl).trans (ofNat_toNat d), (hb 16 5 rfl).trans (ofNat_toNat a), (hb 15 1 rfl).trans (ofNat_toNat dva), (hb 10 5 rfl).trans (ofNat_toNat b), (hb 7 3 rfl).trans (ofNat_toNat k), (hb 0 2 rfl).trans (ofNat_toNat t.bits), withFltTy, fltTy_ofBits_bits]

theorem vfsub (d : Reg) (a : Reg) (dva : VDist) (b : Reg) (k : KReg) (t : FltTy) : Statement (.vfsub d a dva b k t) := by
  intro word _ he
  have hb := bits_of (ns := [6, 5, 5, 1, 5, 3, 5, 2]) (Option.some.inj he)
    ⟨by decide, by decide, by decide, d.isLt, by decide, a.isLt, by decide, dva.isLt, by decide, b.isLt, by decide, k.isLt, by decide, by decide, by decide, t.bits.isLt, trivial⟩
  unfold decode
  rw [show _ = 25#6 from hb 26 6 rfl]
  change decodeVflt _ = _
  unfold decodeVflt
  rw [show _ = 1#5 from hb 2 5 rfl]
  change withFltTy _ _ = _
  simp only [(hb 21 5 rfl).trans (ofNat_toNat d), (hb 16 5 rfl).trans (ofNat_toNat a), (hb 15 1 rfl).trans (ofNat_toNat dva), (hb 10 5 rfl).trans (ofNat_toNat b), (hb 7 3 rfl).trans (ofNat_toNat k), (hb 0 2 rfl).trans (ofNat_toNat t.bits), withFltTy, fltTy_ofBits_bits]

theorem vfmul (d : Reg) (a : Reg) (dva : VDist) (b : Reg) (k : KReg) (t : FltTy) : Statement (.vfmul d a dva b k t) := by
  intro word _ he
  have hb := bits_of (ns := [6, 5, 5, 1, 5, 3, 5, 2]) (Option.some.inj he)
    ⟨by decide, by decide, by decide, d.isLt, by decide, a.isLt, by decide, dva.isLt, by decide, b.isLt, by decide, k.isLt, by decide, by decide, by decide, t.bits.isLt, trivial⟩
  unfold decode
  rw [show _ = 25#6 from hb 26 6 rfl]
  change decodeVflt _ = _
  unfold decodeVflt
  rw [show _ = 2#5 from hb 2 5 rfl]
  change withFltTy _ _ = _
  simp only [(hb 21 5 rfl).trans (ofNat_toNat d), (hb 16 5 rfl).trans (ofNat_toNat a), (hb 15 1 rfl).trans (ofNat_toNat dva), (hb 10 5 rfl).trans (ofNat_toNat b), (hb 7 3 rfl).trans (ofNat_toNat k), (hb 0 2 rfl).trans (ofNat_toNat t.bits), withFltTy, fltTy_ofBits_bits]

theorem vfma (d : Reg) (a : Reg) (dva : VDist) (b : Reg) (k : KReg) (t : FltTy) : Statement (.vfma d a dva b k t) := by
  intro word _ he
  have hb := bits_of (ns := [6, 5, 5, 1, 5, 3, 5, 2]) (Option.some.inj he)
    ⟨by decide, by decide, by decide, d.isLt, by decide, a.isLt, by decide, dva.isLt, by decide, b.isLt, by decide, k.isLt, by decide, by decide, by decide, t.bits.isLt, trivial⟩
  unfold decode
  rw [show _ = 25#6 from hb 26 6 rfl]
  change decodeVflt _ = _
  unfold decodeVflt
  rw [show _ = 3#5 from hb 2 5 rfl]
  change withFltTy _ _ = _
  simp only [(hb 21 5 rfl).trans (ofNat_toNat d), (hb 16 5 rfl).trans (ofNat_toNat a), (hb 15 1 rfl).trans (ofNat_toNat dva), (hb 10 5 rfl).trans (ofNat_toNat b), (hb 7 3 rfl).trans (ofNat_toNat k), (hb 0 2 rfl).trans (ofNat_toNat t.bits), withFltTy, fltTy_ofBits_bits]

theorem vfmin (d : Reg) (a : Reg) (dva : VDist) (b : Reg) (k : KReg) (t : FltTy) : Statement (.vfmin d a dva b k t) := by
  intro word _ he
  have hb := bits_of (ns := [6, 5, 5, 1, 5, 3, 5, 2]) (Option.some.inj he)
    ⟨by decide, by decide, by decide, d.isLt, by decide, a.isLt, by decide, dva.isLt, by decide, b.isLt, by decide, k.isLt, by decide, by decide, by decide, t.bits.isLt, trivial⟩
  unfold decode
  rw [show _ = 25#6 from hb 26 6 rfl]
  change decodeVflt _ = _
  unfold decodeVflt
  rw [show _ = 4#5 from hb 2 5 rfl]
  change withFltTy _ _ = _
  simp only [(hb 21 5 rfl).trans (ofNat_toNat d), (hb 16 5 rfl).trans (ofNat_toNat a), (hb 15 1 rfl).trans (ofNat_toNat dva), (hb 10 5 rfl).trans (ofNat_toNat b), (hb 7 3 rfl).trans (ofNat_toNat k), (hb 0 2 rfl).trans (ofNat_toNat t.bits), withFltTy, fltTy_ofBits_bits]

theorem vfmax (d : Reg) (a : Reg) (dva : VDist) (b : Reg) (k : KReg) (t : FltTy) : Statement (.vfmax d a dva b k t) := by
  intro word _ he
  have hb := bits_of (ns := [6, 5, 5, 1, 5, 3, 5, 2]) (Option.some.inj he)
    ⟨by decide, by decide, by decide, d.isLt, by decide, a.isLt, by decide, dva.isLt, by decide, b.isLt, by decide, k.isLt, by decide, by decide, by decide, t.bits.isLt, trivial⟩
  unfold decode
  rw [show _ = 25#6 from hb 26 6 rfl]
  change decodeVflt _ = _
  unfold decodeVflt
  rw [show _ = 5#5 from hb 2 5 rfl]
  change withFltTy _ _ = _
  simp only [(hb 21 5 rfl).trans (ofNat_toNat d), (hb 16 5 rfl).trans (ofNat_toNat a), (hb 15 1 rfl).trans (ofNat_toNat dva), (hb 10 5 rfl).trans (ofNat_toNat b), (hb 7 3 rfl).trans (ofNat_toNat k), (hb 0 2 rfl).trans (ofNat_toNat t.bits), withFltTy, fltTy_ofBits_bits]

theorem vfdiv (d : Reg) (a : Reg) (dva : VDist) (b : Reg) (k : KReg) (t : FltTy) : Statement (.vfdiv d a dva b k t) := by
  intro word _ he
  have hb := bits_of (ns := [6, 5, 5, 1, 5, 3, 5, 2]) (Option.some.inj he)
    ⟨by decide, by decide, by decide, d.isLt, by decide, a.isLt, by decide, dva.isLt, by decide, b.isLt, by decide, k.isLt, by decide, by decide, by decide, t.bits.isLt, trivial⟩
  unfold decode
  rw [show _ = 25#6 from hb 26 6 rfl]
  change decodeVflt _ = _
  unfold decodeVflt
  rw [show _ = 6#5 from hb 2 5 rfl]
  change withFltTy _ _ = _
  simp only [(hb 21 5 rfl).trans (ofNat_toNat d), (hb 16 5 rfl).trans (ofNat_toNat a), (hb 15 1 rfl).trans (ofNat_toNat dva), (hb 10 5 rfl).trans (ofNat_toNat b), (hb 7 3 rfl).trans (ofNat_toNat k), (hb 0 2 rfl).trans (ofNat_toNat t.bits), withFltTy, fltTy_ofBits_bits]

theorem vfsqrt (d : Reg) (a : Reg) (dva : VDist) (k : KReg) (t : FltTy) : Statement (.vfsqrt d a dva k t) := by
  intro word _ he
  have hb := bits_of (ns := [6, 5, 5, 1, 3, 5, 2]) (Option.some.inj he)
    ⟨by decide, by decide, by decide, d.isLt, by decide, a.isLt, by decide, dva.isLt, by decide, k.isLt, by decide, by decide, by decide, t.bits.isLt, trivial⟩
  unfold decode
  rw [show _ = 25#6 from hb 26 6 rfl]
  change decodeVflt _ = _
  unfold decodeVflt
  rw [show _ = 7#5 from hb 2 5 rfl]
  change ensure _ _ _ = _
  simp only [(hb 21 5 rfl).trans (ofNat_toNat d), (hb 16 5 rfl).trans (ofNat_toNat a), (hb 15 1 rfl).trans (ofNat_toNat dva), show _ = 0#5 from hb 10 5 rfl, (hb 7 3 rfl).trans (ofNat_toNat k), (hb 0 2 rfl).trans (ofNat_toNat t.bits), zeros, List.all_cons, List.all_nil, BEq.rfl, Bool.and_self, ensure, ite_true, withFltTy, fltTy_ofBits_bits]

theorem vfabs (d : Reg) (a : Reg) (dva : VDist) (k : KReg) (t : FltTy) : Statement (.vfabs d a dva k t) := by
  intro word _ he
  have hb := bits_of (ns := [6, 5, 5, 1, 3, 5, 2]) (Option.some.inj he)
    ⟨by decide, by decide, by decide, d.isLt, by decide, a.isLt, by decide, dva.isLt, by decide, k.isLt, by decide, by decide, by decide, t.bits.isLt, trivial⟩
  unfold decode
  rw [show _ = 25#6 from hb 26 6 rfl]
  change decodeVflt _ = _
  unfold decodeVflt
  rw [show _ = 8#5 from hb 2 5 rfl]
  change ensure _ _ _ = _
  simp only [(hb 21 5 rfl).trans (ofNat_toNat d), (hb 16 5 rfl).trans (ofNat_toNat a), (hb 15 1 rfl).trans (ofNat_toNat dva), show _ = 0#5 from hb 10 5 rfl, (hb 7 3 rfl).trans (ofNat_toNat k), (hb 0 2 rfl).trans (ofNat_toNat t.bits), zeros, List.all_cons, List.all_nil, BEq.rfl, Bool.and_self, ensure, ite_true, withFltTy, fltTy_ofBits_bits]

theorem vfneg (d : Reg) (a : Reg) (dva : VDist) (k : KReg) (t : FltTy) : Statement (.vfneg d a dva k t) := by
  intro word _ he
  have hb := bits_of (ns := [6, 5, 5, 1, 3, 5, 2]) (Option.some.inj he)
    ⟨by decide, by decide, by decide, d.isLt, by decide, a.isLt, by decide, dva.isLt, by decide, k.isLt, by decide, by decide, by decide, t.bits.isLt, trivial⟩
  unfold decode
  rw [show _ = 25#6 from hb 26 6 rfl]
  change decodeVflt _ = _
  unfold decodeVflt
  rw [show _ = 9#5 from hb 2 5 rfl]
  change ensure _ _ _ = _
  simp only [(hb 21 5 rfl).trans (ofNat_toNat d), (hb 16 5 rfl).trans (ofNat_toNat a), (hb 15 1 rfl).trans (ofNat_toNat dva), show _ = 0#5 from hb 10 5 rfl, (hb 7 3 rfl).trans (ofNat_toNat k), (hb 0 2 rfl).trans (ofNat_toNat t.bits), zeros, List.all_cons, List.all_nil, BEq.rfl, Bool.and_self, ensure, ite_true, withFltTy, fltTy_ofBits_bits]

theorem vfcmpeq (d : KReg) (a : Reg) (dva : VDist) (b : Reg) (k : KReg) (t : FltTy) : Statement (.vfcmpeq d a dva b k t) := by
  intro word _ he
  have hb := bits_of (ns := [6, 3, 5, 1, 5, 3, 5, 2]) (Option.some.inj he)
    ⟨by decide, by decide, by decide, d.isLt, by decide, a.isLt, by decide, dva.isLt, by decide, b.isLt, by decide, k.isLt, by decide, by decide, by decide, t.bits.isLt, trivial⟩
  unfold decode
  rw [show _ = 25#6 from hb 26 6 rfl]
  change decodeVflt _ = _
  unfold decodeVflt
  rw [show _ = 10#5 from hb 2 5 rfl]
  change ensure _ _ _ = _
  simp only [show _ = 0#2 from hb 24 2 rfl, (hb 21 3 rfl).trans (ofNat_toNat d), (hb 16 5 rfl).trans (ofNat_toNat a), (hb 15 1 rfl).trans (ofNat_toNat dva), (hb 10 5 rfl).trans (ofNat_toNat b), (hb 7 3 rfl).trans (ofNat_toNat k), (hb 0 2 rfl).trans (ofNat_toNat t.bits), zeros, List.all_cons, List.all_nil, BEq.rfl, Bool.and_self, ensure, ite_true, withFltTy, fltTy_ofBits_bits]

theorem vfcmplt (d : KReg) (a : Reg) (dva : VDist) (b : Reg) (k : KReg) (t : FltTy) : Statement (.vfcmplt d a dva b k t) := by
  intro word _ he
  have hb := bits_of (ns := [6, 3, 5, 1, 5, 3, 5, 2]) (Option.some.inj he)
    ⟨by decide, by decide, by decide, d.isLt, by decide, a.isLt, by decide, dva.isLt, by decide, b.isLt, by decide, k.isLt, by decide, by decide, by decide, t.bits.isLt, trivial⟩
  unfold decode
  rw [show _ = 25#6 from hb 26 6 rfl]
  change decodeVflt _ = _
  unfold decodeVflt
  rw [show _ = 11#5 from hb 2 5 rfl]
  change ensure _ _ _ = _
  simp only [show _ = 0#2 from hb 24 2 rfl, (hb 21 3 rfl).trans (ofNat_toNat d), (hb 16 5 rfl).trans (ofNat_toNat a), (hb 15 1 rfl).trans (ofNat_toNat dva), (hb 10 5 rfl).trans (ofNat_toNat b), (hb 7 3 rfl).trans (ofNat_toNat k), (hb 0 2 rfl).trans (ofNat_toNat t.bits), zeros, List.all_cons, List.all_nil, BEq.rfl, Bool.and_self, ensure, ite_true, withFltTy, fltTy_ofBits_bits]

theorem vfcmple (d : KReg) (a : Reg) (dva : VDist) (b : Reg) (k : KReg) (t : FltTy) : Statement (.vfcmple d a dva b k t) := by
  intro word _ he
  have hb := bits_of (ns := [6, 3, 5, 1, 5, 3, 5, 2]) (Option.some.inj he)
    ⟨by decide, by decide, by decide, d.isLt, by decide, a.isLt, by decide, dva.isLt, by decide, b.isLt, by decide, k.isLt, by decide, by decide, by decide, t.bits.isLt, trivial⟩
  unfold decode
  rw [show _ = 25#6 from hb 26 6 rfl]
  change decodeVflt _ = _
  unfold decodeVflt
  rw [show _ = 12#5 from hb 2 5 rfl]
  change ensure _ _ _ = _
  simp only [show _ = 0#2 from hb 24 2 rfl, (hb 21 3 rfl).trans (ofNat_toNat d), (hb 16 5 rfl).trans (ofNat_toNat a), (hb 15 1 rfl).trans (ofNat_toNat dva), (hb 10 5 rfl).trans (ofNat_toNat b), (hb 7 3 rfl).trans (ofNat_toNat k), (hb 0 2 rfl).trans (ofNat_toNat t.bits), zeros, List.all_cons, List.all_nil, BEq.rfl, Bool.and_self, ensure, ite_true, withFltTy, fltTy_ofBits_bits]

theorem vld (d : Reg) (a : Reg) (da : Dist) (k : KReg) (e : Size) : Statement (.vld d a da k e) := by
  intro word _ he
  have hb := bits_of (ns := [6, 5, 5, 2, 3, 2]) (Option.some.inj he)
    ⟨by decide, by decide, by decide, d.isLt, by decide, a.isLt, by decide, da.isLt, by decide, k.isLt, by decide, e.bits.isLt, trivial⟩
  unfold decode
  rw [show _ = 26#6 from hb 26 6 rfl]
  change decodeVmem _ = _
  unfold decodeVmem
  rw [show _ = 0#3 from hb 3 3 rfl]
  change ensure _ _ _ = _
  simp only [(hb 21 5 rfl).trans (ofNat_toNat d), (hb 16 5 rfl).trans (ofNat_toNat a), (hb 14 2 rfl).trans (ofNat_toNat da), show _ = 0#5 from hb 9 5 rfl, (hb 6 3 rfl).trans (ofNat_toNat k), (hb 1 2 rfl).trans (ofNat_toNat e.bits), show _ = 0#1 from hb 0 1 rfl, zeros, List.all_cons, List.all_nil, BEq.rfl, Bool.and_self, ensure, ite_true, size_ofBits_bits]

theorem vst (d : Reg) (a : Reg) (da : Dist) (k : KReg) (e : Size) : Statement (.vst d a da k e) := by
  intro word _ he
  have hb := bits_of (ns := [6, 5, 5, 2, 3, 3, 2]) (Option.some.inj he)
    ⟨by decide, by decide, by decide, d.isLt, by decide, a.isLt, by decide, da.isLt, by decide, k.isLt, by decide, by decide, by decide, e.bits.isLt, trivial⟩
  unfold decode
  rw [show _ = 26#6 from hb 26 6 rfl]
  change decodeVmem _ = _
  unfold decodeVmem
  rw [show _ = 1#3 from hb 3 3 rfl]
  change ensure _ _ _ = _
  simp only [(hb 21 5 rfl).trans (ofNat_toNat d), (hb 16 5 rfl).trans (ofNat_toNat a), (hb 14 2 rfl).trans (ofNat_toNat da), show _ = 0#5 from hb 9 5 rfl, (hb 6 3 rfl).trans (ofNat_toNat k), (hb 1 2 rfl).trans (ofNat_toNat e.bits), show _ = 0#1 from hb 0 1 rfl, zeros, List.all_cons, List.all_nil, BEq.rfl, Bool.and_self, ensure, ite_true, size_ofBits_bits]

theorem vlds (d : Reg) (a : Reg) (da : Dist) (b : Reg) (k : KReg) (e : Size) : Statement (.vlds d a da b k e) := by
  intro word _ he
  have hb := bits_of (ns := [6, 5, 5, 2, 5, 3, 3, 2]) (Option.some.inj he)
    ⟨by decide, by decide, by decide, d.isLt, by decide, a.isLt, by decide, da.isLt, by decide, b.isLt, by decide, k.isLt, by decide, by decide, by decide, e.bits.isLt, trivial⟩
  unfold decode
  rw [show _ = 26#6 from hb 26 6 rfl]
  change decodeVmem _ = _
  unfold decodeVmem
  rw [show _ = 2#3 from hb 3 3 rfl]
  change ensure _ _ _ = _
  simp only [(hb 21 5 rfl).trans (ofNat_toNat d), (hb 16 5 rfl).trans (ofNat_toNat a), (hb 14 2 rfl).trans (ofNat_toNat da), (hb 9 5 rfl).trans (ofNat_toNat b), (hb 6 3 rfl).trans (ofNat_toNat k), (hb 1 2 rfl).trans (ofNat_toNat e.bits), show _ = 0#1 from hb 0 1 rfl, zeros, List.all_cons, List.all_nil, BEq.rfl, Bool.and_self, ensure, ite_true, size_ofBits_bits]

theorem vsts (d : Reg) (a : Reg) (da : Dist) (b : Reg) (k : KReg) (e : Size) : Statement (.vsts d a da b k e) := by
  intro word _ he
  have hb := bits_of (ns := [6, 5, 5, 2, 5, 3, 3, 2]) (Option.some.inj he)
    ⟨by decide, by decide, by decide, d.isLt, by decide, a.isLt, by decide, da.isLt, by decide, b.isLt, by decide, k.isLt, by decide, by decide, by decide, e.bits.isLt, trivial⟩
  unfold decode
  rw [show _ = 26#6 from hb 26 6 rfl]
  change decodeVmem _ = _
  unfold decodeVmem
  rw [show _ = 3#3 from hb 3 3 rfl]
  change ensure _ _ _ = _
  simp only [(hb 21 5 rfl).trans (ofNat_toNat d), (hb 16 5 rfl).trans (ofNat_toNat a), (hb 14 2 rfl).trans (ofNat_toNat da), (hb 9 5 rfl).trans (ofNat_toNat b), (hb 6 3 rfl).trans (ofNat_toNat k), (hb 1 2 rfl).trans (ofNat_toNat e.bits), show _ = 0#1 from hb 0 1 rfl, zeros, List.all_cons, List.all_nil, BEq.rfl, Bool.and_self, ensure, ite_true, size_ofBits_bits]

theorem vgath (d : Reg) (a : Reg) (da : Dist) (b : Reg) (k : KReg) (e : Size) : Statement (.vgath d a da b k e) := by
  intro word _ he
  have hb := bits_of (ns := [6, 5, 5, 2, 5, 3, 3, 2]) (Option.some.inj he)
    ⟨by decide, by decide, by decide, d.isLt, by decide, a.isLt, by decide, da.isLt, by decide, b.isLt, by decide, k.isLt, by decide, by decide, by decide, e.bits.isLt, trivial⟩
  unfold decode
  rw [show _ = 26#6 from hb 26 6 rfl]
  change decodeVmem _ = _
  unfold decodeVmem
  rw [show _ = 4#3 from hb 3 3 rfl]
  change ensure _ _ _ = _
  simp only [(hb 21 5 rfl).trans (ofNat_toNat d), (hb 16 5 rfl).trans (ofNat_toNat a), (hb 14 2 rfl).trans (ofNat_toNat da), (hb 9 5 rfl).trans (ofNat_toNat b), (hb 6 3 rfl).trans (ofNat_toNat k), (hb 1 2 rfl).trans (ofNat_toNat e.bits), show _ = 0#1 from hb 0 1 rfl, zeros, List.all_cons, List.all_nil, BEq.rfl, Bool.and_self, ensure, ite_true, size_ofBits_bits]

theorem vscat (d : Reg) (a : Reg) (da : Dist) (b : Reg) (k : KReg) (e : Size) : Statement (.vscat d a da b k e) := by
  intro word _ he
  have hb := bits_of (ns := [6, 5, 5, 2, 5, 3, 3, 2]) (Option.some.inj he)
    ⟨by decide, by decide, by decide, d.isLt, by decide, a.isLt, by decide, da.isLt, by decide, b.isLt, by decide, k.isLt, by decide, by decide, by decide, e.bits.isLt, trivial⟩
  unfold decode
  rw [show _ = 26#6 from hb 26 6 rfl]
  change decodeVmem _ = _
  unfold decodeVmem
  rw [show _ = 5#3 from hb 3 3 rfl]
  change ensure _ _ _ = _
  simp only [(hb 21 5 rfl).trans (ofNat_toNat d), (hb 16 5 rfl).trans (ofNat_toNat a), (hb 14 2 rfl).trans (ofNat_toNat da), (hb 9 5 rfl).trans (ofNat_toNat b), (hb 6 3 rfl).trans (ofNat_toNat k), (hb 1 2 rfl).trans (ofNat_toNat e.bits), show _ = 0#1 from hb 0 1 rfl, zeros, List.all_cons, List.all_nil, BEq.rfl, Bool.and_self, ensure, ite_true, size_ofBits_bits]

theorem vldb (d : Reg) (a : Reg) (da : Dist) (k : KReg) (e : Size) : Statement (.vldb d a da k e) := by
  intro word _ he
  have hb := bits_of (ns := [6, 5, 5, 2, 3, 3, 2]) (Option.some.inj he)
    ⟨by decide, by decide, by decide, d.isLt, by decide, a.isLt, by decide, da.isLt, by decide, k.isLt, by decide, by decide, by decide, e.bits.isLt, trivial⟩
  unfold decode
  rw [show _ = 26#6 from hb 26 6 rfl]
  change decodeVmem _ = _
  unfold decodeVmem
  rw [show _ = 6#3 from hb 3 3 rfl]
  change ensure _ _ _ = _
  simp only [(hb 21 5 rfl).trans (ofNat_toNat d), (hb 16 5 rfl).trans (ofNat_toNat a), (hb 14 2 rfl).trans (ofNat_toNat da), show _ = 0#5 from hb 9 5 rfl, (hb 6 3 rfl).trans (ofNat_toNat k), (hb 1 2 rfl).trans (ofNat_toNat e.bits), show _ = 0#1 from hb 0 1 rfl, zeros, List.all_cons, List.all_nil, BEq.rfl, Bool.and_self, ensure, ite_true, size_ofBits_bits]

theorem vshuf (d : Reg) (a : Reg) (dva : VDist) (b : Reg) (k : KReg) : Statement (.vshuf d a dva b k) := by
  intro word _ he
  have hb := bits_of (ns := [6, 5, 5, 1, 5, 3]) (Option.some.inj he)
    ⟨by decide, by decide, by decide, d.isLt, by decide, a.isLt, by decide, dva.isLt, by decide, b.isLt, by decide, k.isLt, trivial⟩
  unfold decode
  rw [show _ = 27#6 from hb 26 6 rfl]
  change decodeVxf _ = _
  unfold decodeVxf
  rw [show _ = 0#7 from hb 0 7 rfl]
  change Except.ok _ = _
  simp only [(hb 21 5 rfl).trans (ofNat_toNat d), (hb 16 5 rfl).trans (ofNat_toNat a), (hb 15 1 rfl).trans (ofNat_toNat dva), (hb 10 5 rfl).trans (ofNat_toNat b), (hb 7 3 rfl).trans (ofNat_toNat k)]

theorem vslide (d : Reg) (a : Reg) (dva : VDist) (b : Reg) (k : KReg) : Statement (.vslide d a dva b k) := by
  intro word _ he
  have hb := bits_of (ns := [6, 5, 5, 1, 5, 3, 7]) (Option.some.inj he)
    ⟨by decide, by decide, by decide, d.isLt, by decide, a.isLt, by decide, dva.isLt, by decide, b.isLt, by decide, k.isLt, by decide, by decide, trivial⟩
  unfold decode
  rw [show _ = 27#6 from hb 26 6 rfl]
  change decodeVxf _ = _
  unfold decodeVxf
  rw [show _ = 1#7 from hb 0 7 rfl]
  change Except.ok _ = _
  simp only [(hb 21 5 rfl).trans (ofNat_toNat d), (hb 16 5 rfl).trans (ofNat_toNat a), (hb 15 1 rfl).trans (ofNat_toNat dva), (hb 10 5 rfl).trans (ofNat_toNat b), (hb 7 3 rfl).trans (ofNat_toNat k)]

theorem vbcast (d : Reg) (a : Reg) (dva : VDist) (k : KReg) : Statement (.vbcast d a dva k) := by
  intro word _ he
  have hb := bits_of (ns := [6, 5, 5, 1, 3, 7]) (Option.some.inj he)
    ⟨by decide, by decide, by decide, d.isLt, by decide, a.isLt, by decide, dva.isLt, by decide, k.isLt, by decide, by decide, trivial⟩
  unfold decode
  rw [show _ = 27#6 from hb 26 6 rfl]
  change decodeVxf _ = _
  unfold decodeVxf
  rw [show _ = 2#7 from hb 0 7 rfl]
  change ensure _ _ _ = _
  simp only [(hb 21 5 rfl).trans (ofNat_toNat d), (hb 16 5 rfl).trans (ofNat_toNat a), (hb 15 1 rfl).trans (ofNat_toNat dva), show _ = 0#5 from hb 10 5 rfl, (hb 7 3 rfl).trans (ofNat_toNat k), zeros, List.all_cons, List.all_nil, BEq.rfl, Bool.and_self, ensure, ite_true]

theorem vext (d : Reg) (a : Reg) (dva : VDist) (b : Reg) : Statement (.vext d a dva b) := by
  intro word _ he
  have hb := bits_of (ns := [6, 5, 5, 1, 5, 7]) (Option.some.inj he)
    ⟨by decide, by decide, by decide, d.isLt, by decide, a.isLt, by decide, dva.isLt, by decide, b.isLt, by decide, by decide, trivial⟩
  unfold decode
  rw [show _ = 27#6 from hb 26 6 rfl]
  change decodeVxf _ = _
  unfold decodeVxf
  rw [show _ = 3#7 from hb 0 7 rfl]
  change ensure _ _ _ = _
  simp only [(hb 21 5 rfl).trans (ofNat_toNat d), (hb 16 5 rfl).trans (ofNat_toNat a), (hb 15 1 rfl).trans (ofNat_toNat dva), (hb 10 5 rfl).trans (ofNat_toNat b), show _ = 0#3 from hb 7 3 rfl, zeros, List.all_cons, List.all_nil, BEq.rfl, Bool.and_self, ensure, ite_true]

theorem vins (d : Reg) (a : Reg) (dva : VDist) (b : Reg) : Statement (.vins d a dva b) := by
  intro word _ he
  have hb := bits_of (ns := [6, 5, 5, 1, 5, 7]) (Option.some.inj he)
    ⟨by decide, by decide, by decide, d.isLt, by decide, a.isLt, by decide, dva.isLt, by decide, b.isLt, by decide, by decide, trivial⟩
  unfold decode
  rw [show _ = 27#6 from hb 26 6 rfl]
  change decodeVxf _ = _
  unfold decodeVxf
  rw [show _ = 4#7 from hb 0 7 rfl]
  change ensure _ _ _ = _
  simp only [(hb 21 5 rfl).trans (ofNat_toNat d), (hb 16 5 rfl).trans (ofNat_toNat a), (hb 15 1 rfl).trans (ofNat_toNat dva), (hb 10 5 rfl).trans (ofNat_toNat b), show _ = 0#3 from hb 7 3 rfl, zeros, List.all_cons, List.all_nil, BEq.rfl, Bool.and_self, ensure, ite_true]

theorem vredsum (d : Reg) (a : Reg) (dva : VDist) (k : KReg) : Statement (.vredsum d a dva k) := by
  intro word _ he
  have hb := bits_of (ns := [6, 5, 5, 1, 3, 7]) (Option.some.inj he)
    ⟨by decide, by decide, by decide, d.isLt, by decide, a.isLt, by decide, dva.isLt, by decide, k.isLt, by decide, by decide, trivial⟩
  unfold decode
  rw [show _ = 27#6 from hb 26 6 rfl]
  change decodeVxf _ = _
  unfold decodeVxf
  rw [show _ = 5#7 from hb 0 7 rfl]
  change ensure _ _ _ = _
  simp only [(hb 21 5 rfl).trans (ofNat_toNat d), (hb 16 5 rfl).trans (ofNat_toNat a), (hb 15 1 rfl).trans (ofNat_toNat dva), show _ = 0#5 from hb 10 5 rfl, (hb 7 3 rfl).trans (ofNat_toNat k), zeros, List.all_cons, List.all_nil, BEq.rfl, Bool.and_self, ensure, ite_true]

theorem vredmax (d : Reg) (a : Reg) (dva : VDist) (k : KReg) : Statement (.vredmax d a dva k) := by
  intro word _ he
  have hb := bits_of (ns := [6, 5, 5, 1, 3, 7]) (Option.some.inj he)
    ⟨by decide, by decide, by decide, d.isLt, by decide, a.isLt, by decide, dva.isLt, by decide, k.isLt, by decide, by decide, trivial⟩
  unfold decode
  rw [show _ = 27#6 from hb 26 6 rfl]
  change decodeVxf _ = _
  unfold decodeVxf
  rw [show _ = 6#7 from hb 0 7 rfl]
  change ensure _ _ _ = _
  simp only [(hb 21 5 rfl).trans (ofNat_toNat d), (hb 16 5 rfl).trans (ofNat_toNat a), (hb 15 1 rfl).trans (ofNat_toNat dva), show _ = 0#5 from hb 10 5 rfl, (hb 7 3 rfl).trans (ofNat_toNat k), zeros, List.all_cons, List.all_nil, BEq.rfl, Bool.and_self, ensure, ite_true]

theorem vredmin (d : Reg) (a : Reg) (dva : VDist) (k : KReg) : Statement (.vredmin d a dva k) := by
  intro word _ he
  have hb := bits_of (ns := [6, 5, 5, 1, 3, 7]) (Option.some.inj he)
    ⟨by decide, by decide, by decide, d.isLt, by decide, a.isLt, by decide, dva.isLt, by decide, k.isLt, by decide, by decide, trivial⟩
  unfold decode
  rw [show _ = 27#6 from hb 26 6 rfl]
  change decodeVxf _ = _
  unfold decodeVxf
  rw [show _ = 7#7 from hb 0 7 rfl]
  change ensure _ _ _ = _
  simp only [(hb 21 5 rfl).trans (ofNat_toNat d), (hb 16 5 rfl).trans (ofNat_toNat a), (hb 15 1 rfl).trans (ofNat_toNat dva), show _ = 0#5 from hb 10 5 rfl, (hb 7 3 rfl).trans (ofNat_toNat k), zeros, List.all_cons, List.all_nil, BEq.rfl, Bool.and_self, ensure, ite_true]

theorem vcvt (d : Reg) (a : Reg) (dva : VDist) (k : KReg) : Statement (.vcvt d a dva k) := by
  intro word _ he
  have hb := bits_of (ns := [6, 5, 5, 1, 3, 7]) (Option.some.inj he)
    ⟨by decide, by decide, by decide, d.isLt, by decide, a.isLt, by decide, dva.isLt, by decide, k.isLt, by decide, by decide, trivial⟩
  unfold decode
  rw [show _ = 27#6 from hb 26 6 rfl]
  change decodeVxf _ = _
  unfold decodeVxf
  rw [show _ = 8#7 from hb 0 7 rfl]
  change ensure _ _ _ = _
  simp only [(hb 21 5 rfl).trans (ofNat_toNat d), (hb 16 5 rfl).trans (ofNat_toNat a), (hb 15 1 rfl).trans (ofNat_toNat dva), show _ = 0#5 from hb 10 5 rfl, (hb 7 3 rfl).trans (ofNat_toNat k), zeros, List.all_cons, List.all_nil, BEq.rfl, Bool.and_self, ensure, ite_true]

theorem venc (d : Reg) (a : Reg) (dva : VDist) (k : KReg) : Statement (.venc d a dva k) := by
  intro word _ he
  have hb := bits_of (ns := [6, 5, 5, 1, 3, 7]) (Option.some.inj he)
    ⟨by decide, by decide, by decide, d.isLt, by decide, a.isLt, by decide, dva.isLt, by decide, k.isLt, by decide, by decide, trivial⟩
  unfold decode
  rw [show _ = 27#6 from hb 26 6 rfl]
  change decodeVxf _ = _
  unfold decodeVxf
  rw [show _ = 9#7 from hb 0 7 rfl]
  change ensure _ _ _ = _
  simp only [(hb 21 5 rfl).trans (ofNat_toNat d), (hb 16 5 rfl).trans (ofNat_toNat a), (hb 15 1 rfl).trans (ofNat_toNat dva), show _ = 0#5 from hb 10 5 rfl, (hb 7 3 rfl).trans (ofNat_toNat k), zeros, List.all_cons, List.all_nil, BEq.rfl, Bool.and_self, ensure, ite_true]

theorem vdec (d : Reg) (a : Reg) (dva : VDist) (k : KReg) : Statement (.vdec d a dva k) := by
  intro word _ he
  have hb := bits_of (ns := [6, 5, 5, 1, 3, 7]) (Option.some.inj he)
    ⟨by decide, by decide, by decide, d.isLt, by decide, a.isLt, by decide, dva.isLt, by decide, k.isLt, by decide, by decide, trivial⟩
  unfold decode
  rw [show _ = 27#6 from hb 26 6 rfl]
  change decodeVxf _ = _
  unfold decodeVxf
  rw [show _ = 10#7 from hb 0 7 rfl]
  change ensure _ _ _ = _
  simp only [(hb 21 5 rfl).trans (ofNat_toNat d), (hb 16 5 rfl).trans (ofNat_toNat a), (hb 15 1 rfl).trans (ofNat_toNat dva), show _ = 0#5 from hb 10 5 rfl, (hb 7 3 rfl).trans (ofNat_toNat k), zeros, List.all_cons, List.all_nil, BEq.rfl, Bool.and_self, ensure, ite_true]

theorem vqnt (d : Reg) (a : Reg) (dva : VDist) (b : Reg) : Statement (.vqnt d a dva b) := by
  intro word _ he
  have hb := bits_of (ns := [6, 5, 5, 1, 5, 7]) (Option.some.inj he)
    ⟨by decide, by decide, by decide, d.isLt, by decide, a.isLt, by decide, dva.isLt, by decide, b.isLt, by decide, by decide, trivial⟩
  unfold decode
  rw [show _ = 27#6 from hb 26 6 rfl]
  change decodeVxf _ = _
  unfold decodeVxf
  rw [show _ = 11#7 from hb 0 7 rfl]
  change ensure _ _ _ = _
  simp only [(hb 21 5 rfl).trans (ofNat_toNat d), (hb 16 5 rfl).trans (ofNat_toNat a), (hb 15 1 rfl).trans (ofNat_toNat dva), (hb 10 5 rfl).trans (ofNat_toNat b), show _ = 0#3 from hb 7 3 rfl, zeros, List.all_cons, List.all_nil, BEq.rfl, Bool.and_self, ensure, ite_true]

theorem vdqnt (d : Reg) (a : Reg) (dva : VDist) (k : KReg) : Statement (.vdqnt d a dva k) := by
  intro word _ he
  have hb := bits_of (ns := [6, 5, 5, 1, 3, 7]) (Option.some.inj he)
    ⟨by decide, by decide, by decide, d.isLt, by decide, a.isLt, by decide, dva.isLt, by decide, k.isLt, by decide, by decide, trivial⟩
  unfold decode
  rw [show _ = 27#6 from hb 26 6 rfl]
  change decodeVxf _ = _
  unfold decodeVxf
  rw [show _ = 12#7 from hb 0 7 rfl]
  change ensure _ _ _ = _
  simp only [(hb 21 5 rfl).trans (ofNat_toNat d), (hb 16 5 rfl).trans (ofNat_toNat a), (hb 15 1 rfl).trans (ofNat_toNat dva), show _ = 0#5 from hb 10 5 rfl, (hb 7 3 rfl).trans (ofNat_toNat k), zeros, List.all_cons, List.all_nil, BEq.rfl, Bool.and_self, ensure, ite_true]

theorem vppu (d : Reg) (a : Reg) (dva : VDist) (k : KReg) : Statement (.vppu d a dva k) := by
  intro word _ he
  have hb := bits_of (ns := [6, 5, 5, 1, 3, 7]) (Option.some.inj he)
    ⟨by decide, by decide, by decide, d.isLt, by decide, a.isLt, by decide, dva.isLt, by decide, k.isLt, by decide, by decide, trivial⟩
  unfold decode
  rw [show _ = 27#6 from hb 26 6 rfl]
  change decodeVxf _ = _
  unfold decodeVxf
  rw [show _ = 13#7 from hb 0 7 rfl]
  change ensure _ _ _ = _
  simp only [(hb 21 5 rfl).trans (ofNat_toNat d), (hb 16 5 rfl).trans (ofNat_toNat a), (hb 15 1 rfl).trans (ofNat_toNat dva), show _ = 0#5 from hb 10 5 rfl, (hb 7 3 rfl).trans (ofNat_toNat k), zeros, List.all_cons, List.all_nil, BEq.rfl, Bool.and_self, ensure, ite_true]

theorem viota (d : Reg) (k : KReg) : Statement (.viota d k) := by
  intro word _ he
  have hb := bits_of (ns := [6, 5, 3, 7]) (Option.some.inj he)
    ⟨by decide, by decide, by decide, d.isLt, by decide, k.isLt, by decide, by decide, trivial⟩
  unfold decode
  rw [show _ = 27#6 from hb 26 6 rfl]
  change decodeVxf _ = _
  unfold decodeVxf
  rw [show _ = 14#7 from hb 0 7 rfl]
  change ensure _ _ _ = _
  simp only [(hb 21 5 rfl).trans (ofNat_toNat d), show _ = 0#11 from hb 10 11 rfl, (hb 7 3 rfl).trans (ofNat_toNat k), zeros, List.all_cons, List.all_nil, BEq.rfl, Bool.and_self, ensure, ite_true]

theorem vsel (d : Reg) (a : Reg) (dva : VDist) (b : Reg) (k : KReg) : Statement (.vsel d a dva b k) := by
  intro word _ he
  have hb := bits_of (ns := [6, 5, 5, 1, 5, 3, 7]) (Option.some.inj he)
    ⟨by decide, by decide, by decide, d.isLt, by decide, a.isLt, by decide, dva.isLt, by decide, b.isLt, by decide, k.isLt, by decide, by decide, trivial⟩
  unfold decode
  rw [show _ = 27#6 from hb 26 6 rfl]
  change decodeVxf _ = _
  unfold decodeVxf
  rw [show _ = 15#7 from hb 0 7 rfl]
  change Except.ok _ = _
  simp only [(hb 21 5 rfl).trans (ofNat_toNat d), (hb 16 5 rfl).trans (ofNat_toNat a), (hb 15 1 rfl).trans (ofNat_toNat dva), (hb 10 5 rfl).trans (ofNat_toNat b), (hb 7 3 rfl).trans (ofNat_toNat k)]

theorem kand (d : KReg) (a : KReg) (b : KReg) : Statement (.kand d a b) := by
  intro word _ he
  have hb := bits_of (ns := [6, 3, 3, 3]) (Option.some.inj he)
    ⟨by decide, by decide, by decide, d.isLt, by decide, a.isLt, by decide, b.isLt, trivial⟩
  unfold decode
  rw [show _ = 28#6 from hb 26 6 rfl]
  change decodeVmask _ = _
  unfold decodeVmask
  rw [show _ = 0#7 from hb 0 7 rfl]
  change ensure _ _ _ = _
  simp only [show _ = 0#2 from hb 24 2 rfl, (hb 21 3 rfl).trans (ofNat_toNat d), show _ = 0#2 from hb 19 2 rfl, (hb 16 3 rfl).trans (ofNat_toNat a), show _ = 0#3 from hb 13 3 rfl, (hb 10 3 rfl).trans (ofNat_toNat b), show _ = 0#3 from hb 7 3 rfl, zeros, List.all_cons, List.all_nil, BEq.rfl, Bool.and_self, ensure, ite_true]

theorem kor (d : KReg) (a : KReg) (b : KReg) : Statement (.kor d a b) := by
  intro word _ he
  have hb := bits_of (ns := [6, 3, 3, 3, 7]) (Option.some.inj he)
    ⟨by decide, by decide, by decide, d.isLt, by decide, a.isLt, by decide, b.isLt, by decide, by decide, trivial⟩
  unfold decode
  rw [show _ = 28#6 from hb 26 6 rfl]
  change decodeVmask _ = _
  unfold decodeVmask
  rw [show _ = 1#7 from hb 0 7 rfl]
  change ensure _ _ _ = _
  simp only [show _ = 0#2 from hb 24 2 rfl, (hb 21 3 rfl).trans (ofNat_toNat d), show _ = 0#2 from hb 19 2 rfl, (hb 16 3 rfl).trans (ofNat_toNat a), show _ = 0#3 from hb 13 3 rfl, (hb 10 3 rfl).trans (ofNat_toNat b), show _ = 0#3 from hb 7 3 rfl, zeros, List.all_cons, List.all_nil, BEq.rfl, Bool.and_self, ensure, ite_true]

theorem kxor (d : KReg) (a : KReg) (b : KReg) : Statement (.kxor d a b) := by
  intro word _ he
  have hb := bits_of (ns := [6, 3, 3, 3, 7]) (Option.some.inj he)
    ⟨by decide, by decide, by decide, d.isLt, by decide, a.isLt, by decide, b.isLt, by decide, by decide, trivial⟩
  unfold decode
  rw [show _ = 28#6 from hb 26 6 rfl]
  change decodeVmask _ = _
  unfold decodeVmask
  rw [show _ = 2#7 from hb 0 7 rfl]
  change ensure _ _ _ = _
  simp only [show _ = 0#2 from hb 24 2 rfl, (hb 21 3 rfl).trans (ofNat_toNat d), show _ = 0#2 from hb 19 2 rfl, (hb 16 3 rfl).trans (ofNat_toNat a), show _ = 0#3 from hb 13 3 rfl, (hb 10 3 rfl).trans (ofNat_toNat b), show _ = 0#3 from hb 7 3 rfl, zeros, List.all_cons, List.all_nil, BEq.rfl, Bool.and_self, ensure, ite_true]

theorem knot (d : KReg) (a : KReg) : Statement (.knot d a) := by
  intro word _ he
  have hb := bits_of (ns := [6, 3, 3, 7]) (Option.some.inj he)
    ⟨by decide, by decide, by decide, d.isLt, by decide, a.isLt, by decide, by decide, trivial⟩
  unfold decode
  rw [show _ = 28#6 from hb 26 6 rfl]
  change decodeVmask _ = _
  unfold decodeVmask
  rw [show _ = 3#7 from hb 0 7 rfl]
  change ensure _ _ _ = _
  simp only [show _ = 0#2 from hb 24 2 rfl, (hb 21 3 rfl).trans (ofNat_toNat d), show _ = 0#2 from hb 19 2 rfl, (hb 16 3 rfl).trans (ofNat_toNat a), show _ = 0#9 from hb 7 9 rfl, zeros, List.all_cons, List.all_nil, BEq.rfl, Bool.and_self, ensure, ite_true]

theorem kfrom (d : KReg) (a : Reg) (dva : VDist) : Statement (.kfrom d a dva) := by
  intro word _ he
  have hb := bits_of (ns := [6, 3, 5, 1, 7]) (Option.some.inj he)
    ⟨by decide, by decide, by decide, d.isLt, by decide, a.isLt, by decide, dva.isLt, by decide, by decide, trivial⟩
  unfold decode
  rw [show _ = 28#6 from hb 26 6 rfl]
  change decodeVmask _ = _
  unfold decodeVmask
  rw [show _ = 4#7 from hb 0 7 rfl]
  change ensure _ _ _ = _
  simp only [show _ = 0#2 from hb 24 2 rfl, (hb 21 3 rfl).trans (ofNat_toNat d), (hb 16 5 rfl).trans (ofNat_toNat a), (hb 15 1 rfl).trans (ofNat_toNat dva), show _ = 0#8 from hb 7 8 rfl, zeros, List.all_cons, List.all_nil, BEq.rfl, Bool.and_self, ensure, ite_true]

theorem kto (d : Reg) (a : KReg) : Statement (.kto d a) := by
  intro word _ he
  have hb := bits_of (ns := [6, 5, 3, 7]) (Option.some.inj he)
    ⟨by decide, by decide, by decide, d.isLt, by decide, a.isLt, by decide, by decide, trivial⟩
  unfold decode
  rw [show _ = 28#6 from hb 26 6 rfl]
  change decodeVmask _ = _
  unfold decodeVmask
  rw [show _ = 5#7 from hb 0 7 rfl]
  change ensure _ _ _ = _
  simp only [(hb 21 5 rfl).trans (ofNat_toNat d), show _ = 0#2 from hb 19 2 rfl, (hb 16 3 rfl).trans (ofNat_toNat a), show _ = 0#9 from hb 7 9 rfl, zeros, List.all_cons, List.all_nil, BEq.rfl, Bool.and_self, ensure, ite_true]

theorem kpop (d : Reg) (a : KReg) : Statement (.kpop d a) := by
  intro word _ he
  have hb := bits_of (ns := [6, 5, 3, 7]) (Option.some.inj he)
    ⟨by decide, by decide, by decide, d.isLt, by decide, a.isLt, by decide, by decide, trivial⟩
  unfold decode
  rw [show _ = 28#6 from hb 26 6 rfl]
  change decodeVmask _ = _
  unfold decodeVmask
  rw [show _ = 6#7 from hb 0 7 rfl]
  change ensure _ _ _ = _
  simp only [(hb 21 5 rfl).trans (ofNat_toNat d), show _ = 0#2 from hb 19 2 rfl, (hb 16 3 rfl).trans (ofNat_toNat a), show _ = 0#9 from hb 7 9 rfl, zeros, List.all_cons, List.all_nil, BEq.rfl, Bool.and_self, ensure, ite_true]

theorem kfirst (d : Reg) (a : KReg) : Statement (.kfirst d a) := by
  intro word _ he
  have hb := bits_of (ns := [6, 5, 3, 7]) (Option.some.inj he)
    ⟨by decide, by decide, by decide, d.isLt, by decide, a.isLt, by decide, by decide, trivial⟩
  unfold decode
  rw [show _ = 28#6 from hb 26 6 rfl]
  change decodeVmask _ = _
  unfold decodeVmask
  rw [show _ = 7#7 from hb 0 7 rfl]
  change ensure _ _ _ = _
  simp only [(hb 21 5 rfl).trans (ofNat_toNat d), show _ = 0#2 from hb 19 2 rfl, (hb 16 3 rfl).trans (ofNat_toNat a), show _ = 0#9 from hb 7 9 rfl, zeros, List.all_cons, List.all_nil, BEq.rfl, Bool.and_self, ensure, ite_true]

theorem mcfg (a : Reg) (b : Reg) (w : BitVec 1) (n : BitVec 2) : Statement (.mcfg a b w n) := by
  intro word _ he
  have hb := bits_of (ns := [6, 5, 5, 1, 2]) (Option.some.inj he)
    ⟨by decide, by decide, by decide, a.isLt, by decide, b.isLt, by decide, w.isLt, by decide, n.isLt, trivial⟩
  unfold decode
  rw [show _ = 29#6 from hb 26 6 rfl]
  change decodeMxe _ = _
  unfold decodeMxe
  rw [show _ = 0#7 from hb 4 7 rfl]
  change ensure _ _ _ = _
  simp only [show _ = 0#5 from hb 21 5 rfl, (hb 16 5 rfl).trans (ofNat_toNat a), (hb 11 5 rfl).trans (ofNat_toNat b), (hb 3 1 rfl).trans (ofNat_toNat w), show _ = 0#1 from hb 2 1 rfl, (hb 0 2 rfl).trans (ofNat_toNat n), zeros, List.all_cons, List.all_nil, BEq.rfl, Bool.and_self, ensure, ite_true]

theorem mgeo (a : Reg) (w : BitVec 1) (n : BitVec 2) : Statement (.mgeo a w n) := by
  intro word _ he
  have hb := bits_of (ns := [6, 5, 7, 1, 2]) (Option.some.inj he)
    ⟨by decide, by decide, by decide, a.isLt, by decide, by decide, by decide, w.isLt, by decide, n.isLt, trivial⟩
  unfold decode
  rw [show _ = 29#6 from hb 26 6 rfl]
  change decodeMxe _ = _
  unfold decodeMxe
  rw [show _ = 1#7 from hb 4 7 rfl]
  change ensure _ _ _ = _
  simp only [show _ = 0#5 from hb 21 5 rfl, (hb 16 5 rfl).trans (ofNat_toNat a), show _ = 0#5 from hb 11 5 rfl, (hb 3 1 rfl).trans (ofNat_toNat w), show _ = 0#1 from hb 2 1 rfl, (hb 0 2 rfl).trans (ofNat_toNat n), zeros, List.all_cons, List.all_nil, BEq.rfl, Bool.and_self, ensure, ite_true]

theorem mzero (w : BitVec 1) (n : BitVec 2) : Statement (.mzero w n) := by
  intro word _ he
  have hb := bits_of (ns := [6, 7, 1, 2]) (Option.some.inj he)
    ⟨by decide, by decide, by decide, by decide, by decide, w.isLt, by decide, n.isLt, trivial⟩
  unfold decode
  rw [show _ = 29#6 from hb 26 6 rfl]
  change decodeMxe _ = _
  unfold decodeMxe
  rw [show _ = 2#7 from hb 4 7 rfl]
  change ensure _ _ _ = _
  simp only [show _ = 0#15 from hb 11 15 rfl, (hb 3 1 rfl).trans (ofNat_toNat w), show _ = 0#1 from hb 2 1 rfl, (hb 0 2 rfl).trans (ofNat_toNat n), zeros, List.all_cons, List.all_nil, BEq.rfl, Bool.and_self, ensure, ite_true]

theorem mma (a : Reg) (b : Reg) (w : BitVec 1) (n : BitVec 2) : Statement (.mma a b w n) := by
  intro word _ he
  have hb := bits_of (ns := [6, 5, 5, 7, 1, 2]) (Option.some.inj he)
    ⟨by decide, by decide, by decide, a.isLt, by decide, b.isLt, by decide, by decide, by decide, w.isLt, by decide, n.isLt, trivial⟩
  unfold decode
  rw [show _ = 29#6 from hb 26 6 rfl]
  change decodeMxe _ = _
  unfold decodeMxe
  rw [show _ = 3#7 from hb 4 7 rfl]
  change ensure _ _ _ = _
  simp only [show _ = 0#5 from hb 21 5 rfl, (hb 16 5 rfl).trans (ofNat_toNat a), (hb 11 5 rfl).trans (ofNat_toNat b), (hb 3 1 rfl).trans (ofNat_toNat w), show _ = 0#1 from hb 2 1 rfl, (hb 0 2 rfl).trans (ofNat_toNat n), zeros, List.all_cons, List.all_nil, BEq.rfl, Bool.and_self, ensure, ite_true]

theorem mmat (a : Reg) (b : Reg) (w : BitVec 1) (n : BitVec 2) : Statement (.mmat a b w n) := by
  intro word _ he
  have hb := bits_of (ns := [6, 5, 5, 7, 1, 2]) (Option.some.inj he)
    ⟨by decide, by decide, by decide, a.isLt, by decide, b.isLt, by decide, by decide, by decide, w.isLt, by decide, n.isLt, trivial⟩
  unfold decode
  rw [show _ = 29#6 from hb 26 6 rfl]
  change decodeMxe _ = _
  unfold decodeMxe
  rw [show _ = 4#7 from hb 4 7 rfl]
  change ensure _ _ _ = _
  simp only [show _ = 0#5 from hb 21 5 rfl, (hb 16 5 rfl).trans (ofNat_toNat a), (hb 11 5 rfl).trans (ofNat_toNat b), (hb 3 1 rfl).trans (ofNat_toNat w), show _ = 0#1 from hb 2 1 rfl, (hb 0 2 rfl).trans (ofNat_toNat n), zeros, List.all_cons, List.all_nil, BEq.rfl, Bool.and_self, ensure, ite_true]

theorem mmas (a : Reg) (b : Reg) (w : BitVec 1) (n : BitVec 2) : Statement (.mmas a b w n) := by
  intro word _ he
  have hb := bits_of (ns := [6, 5, 5, 7, 1, 2]) (Option.some.inj he)
    ⟨by decide, by decide, by decide, a.isLt, by decide, b.isLt, by decide, by decide, by decide, w.isLt, by decide, n.isLt, trivial⟩
  unfold decode
  rw [show _ = 29#6 from hb 26 6 rfl]
  change decodeMxe _ = _
  unfold decodeMxe
  rw [show _ = 5#7 from hb 4 7 rfl]
  change ensure _ _ _ = _
  simp only [show _ = 0#5 from hb 21 5 rfl, (hb 16 5 rfl).trans (ofNat_toNat a), (hb 11 5 rfl).trans (ofNat_toNat b), (hb 3 1 rfl).trans (ofNat_toNat w), show _ = 0#1 from hb 2 1 rfl, (hb 0 2 rfl).trans (ofNat_toNat n), zeros, List.all_cons, List.all_nil, BEq.rfl, Bool.and_self, ensure, ite_true]

theorem mdrain (a : Reg) (b : Reg) (w : BitVec 1) (u : BitVec 1) (n : BitVec 2) : Statement (.mdrain a b w u n) := by
  intro word _ he
  have hb := bits_of (ns := [6, 5, 5, 7, 1, 1, 2]) (Option.some.inj he)
    ⟨by decide, by decide, by decide, a.isLt, by decide, b.isLt, by decide, by decide, by decide, w.isLt, by decide, u.isLt, by decide, n.isLt, trivial⟩
  unfold decode
  rw [show _ = 29#6 from hb 26 6 rfl]
  change decodeMxe _ = _
  unfold decodeMxe
  rw [show _ = 6#7 from hb 4 7 rfl]
  change ensure _ _ _ = _
  simp only [show _ = 0#5 from hb 21 5 rfl, (hb 16 5 rfl).trans (ofNat_toNat a), (hb 11 5 rfl).trans (ofNat_toNat b), (hb 3 1 rfl).trans (ofNat_toNat w), (hb 2 1 rfl).trans (ofNat_toNat u), (hb 0 2 rfl).trans (ofNat_toNat n), zeros, List.all_cons, List.all_nil, BEq.rfl, Bool.and_self, ensure, ite_true]

theorem mldacc (a : Reg) (b : Reg) (w : BitVec 1) (n : BitVec 2) : Statement (.mldacc a b w n) := by
  intro word _ he
  have hb := bits_of (ns := [6, 5, 5, 7, 1, 2]) (Option.some.inj he)
    ⟨by decide, by decide, by decide, a.isLt, by decide, b.isLt, by decide, by decide, by decide, w.isLt, by decide, n.isLt, trivial⟩
  unfold decode
  rw [show _ = 29#6 from hb 26 6 rfl]
  change decodeMxe _ = _
  unfold decodeMxe
  rw [show _ = 7#7 from hb 4 7 rfl]
  change ensure _ _ _ = _
  simp only [show _ = 0#5 from hb 21 5 rfl, (hb 16 5 rfl).trans (ofNat_toNat a), (hb 11 5 rfl).trans (ofNat_toNat b), (hb 3 1 rfl).trans (ofNat_toNat w), show _ = 0#1 from hb 2 1 rfl, (hb 0 2 rfl).trans (ofNat_toNat n), zeros, List.all_cons, List.all_nil, BEq.rfl, Bool.and_self, ensure, ite_true]

theorem mstacc (d : Reg) (a : Reg) (w : BitVec 1) (n : BitVec 2) : Statement (.mstacc d a w n) := by
  intro word _ he
  have hb := bits_of (ns := [6, 5, 5, 7, 1, 2]) (Option.some.inj he)
    ⟨by decide, by decide, by decide, d.isLt, by decide, a.isLt, by decide, by decide, by decide, w.isLt, by decide, n.isLt, trivial⟩
  unfold decode
  rw [show _ = 29#6 from hb 26 6 rfl]
  change decodeMxe _ = _
  unfold decodeMxe
  rw [show _ = 8#7 from hb 4 7 rfl]
  change ensure _ _ _ = _
  simp only [(hb 21 5 rfl).trans (ofNat_toNat d), (hb 16 5 rfl).trans (ofNat_toNat a), show _ = 0#5 from hb 11 5 rfl, (hb 3 1 rfl).trans (ofNat_toNat w), show _ = 0#1 from hb 2 1 rfl, (hb 0 2 rfl).trans (ofNat_toNat n), zeros, List.all_cons, List.all_nil, BEq.rfl, Bool.and_self, ensure, ite_true]

theorem mstat (d : Reg) (w : BitVec 1) (n : BitVec 2) : Statement (.mstat d w n) := by
  intro word _ he
  have hb := bits_of (ns := [6, 5, 7, 1, 2]) (Option.some.inj he)
    ⟨by decide, by decide, by decide, d.isLt, by decide, by decide, by decide, w.isLt, by decide, n.isLt, trivial⟩
  unfold decode
  rw [show _ = 29#6 from hb 26 6 rfl]
  change decodeMxe _ = _
  unfold decodeMxe
  rw [show _ = 9#7 from hb 4 7 rfl]
  change ensure _ _ _ = _
  simp only [(hb 21 5 rfl).trans (ofNat_toNat d), show _ = 0#10 from hb 11 10 rfl, (hb 3 1 rfl).trans (ofNat_toNat w), show _ = 0#1 from hb 2 1 rfl, (hb 0 2 rfl).trans (ofNat_toNat n), zeros, List.all_cons, List.all_nil, BEq.rfl, Bool.and_self, ensure, ite_true]

theorem mwait (w : BitVec 1) (n : BitVec 2) : Statement (.mwait w n) := by
  intro word _ he
  have hb := bits_of (ns := [6, 7, 1, 2]) (Option.some.inj he)
    ⟨by decide, by decide, by decide, by decide, by decide, w.isLt, by decide, n.isLt, trivial⟩
  unfold decode
  rw [show _ = 29#6 from hb 26 6 rfl]
  change decodeMxe _ = _
  unfold decodeMxe
  rw [show _ = 10#7 from hb 4 7 rfl]
  change ensure _ _ _ = _
  simp only [show _ = 0#15 from hb 11 15 rfl, (hb 3 1 rfl).trans (ofNat_toNat w), show _ = 0#1 from hb 2 1 rfl, (hb 0 2 rfl).trans (ofNat_toNat n), zeros, List.all_cons, List.all_nil, BEq.rfl, Bool.and_self, ensure, ite_true]

theorem chain (a : Reg) (b : Reg) (w : BitVec 1) (n : BitVec 2) : Statement (.chain a b w n) := by
  intro word _ he
  have hb := bits_of (ns := [6, 5, 5, 1, 2]) (Option.some.inj he)
    ⟨by decide, by decide, by decide, a.isLt, by decide, b.isLt, by decide, w.isLt, by decide, n.isLt, trivial⟩
  unfold decode
  rw [show _ = 30#6 from hb 26 6 rfl]
  change decodeCry _ = _
  unfold decodeCry
  rw [show _ = 0#7 from hb 4 7 rfl]
  change ensure _ _ _ = _
  simp only [show _ = 0#5 from hb 21 5 rfl, (hb 16 5 rfl).trans (ofNat_toNat a), (hb 11 5 rfl).trans (ofNat_toNat b), (hb 3 1 rfl).trans (ofNat_toNat w), show _ = 0#1 from hb 2 1 rfl, (hb 0 2 rfl).trans (ofNat_toNat n), zeros, List.all_cons, List.all_nil, BEq.rfl, Bool.and_self, ensure, ite_true]

theorem cadd (d : Reg) (a : Reg) (b : Reg) (w : BitVec 1) (n : BitVec 2) : Statement (.cadd d a b w n) := by
  intro word _ he
  have hb := bits_of (ns := [6, 5, 5, 5, 7, 1, 2]) (Option.some.inj he)
    ⟨by decide, by decide, by decide, d.isLt, by decide, a.isLt, by decide, b.isLt, by decide, by decide, by decide, w.isLt, by decide, n.isLt, trivial⟩
  unfold decode
  rw [show _ = 30#6 from hb 26 6 rfl]
  change decodeCry _ = _
  unfold decodeCry
  rw [show _ = 1#7 from hb 4 7 rfl]
  change ensure _ _ _ = _
  simp only [(hb 21 5 rfl).trans (ofNat_toNat d), (hb 16 5 rfl).trans (ofNat_toNat a), (hb 11 5 rfl).trans (ofNat_toNat b), (hb 3 1 rfl).trans (ofNat_toNat w), show _ = 0#1 from hb 2 1 rfl, (hb 0 2 rfl).trans (ofNat_toNat n), BEq.rfl, ensure, ite_true]

theorem cclose (w : BitVec 1) (n : BitVec 2) : Statement (.cclose w n) := by
  intro word _ he
  have hb := bits_of (ns := [6, 7, 1, 2]) (Option.some.inj he)
    ⟨by decide, by decide, by decide, by decide, by decide, w.isLt, by decide, n.isLt, trivial⟩
  unfold decode
  rw [show _ = 30#6 from hb 26 6 rfl]
  change decodeCry _ = _
  unfold decodeCry
  rw [show _ = 2#7 from hb 4 7 rfl]
  change ensure _ _ _ = _
  simp only [show _ = 0#15 from hb 11 15 rfl, (hb 3 1 rfl).trans (ofNat_toNat w), show _ = 0#1 from hb 2 1 rfl, (hb 0 2 rfl).trans (ofNat_toNat n), zeros, List.all_cons, List.all_nil, BEq.rfl, Bool.and_self, ensure, ite_true]

theorem cstat (d : Reg) (a : Reg) (w : BitVec 1) : Statement (.cstat d a w) := by
  intro word _ he
  have hb := bits_of (ns := [6, 5, 5, 7, 1]) (Option.some.inj he)
    ⟨by decide, by decide, by decide, d.isLt, by decide, a.isLt, by decide, by decide, by decide, w.isLt, trivial⟩
  unfold decode
  rw [show _ = 30#6 from hb 26 6 rfl]
  change decodeCry _ = _
  unfold decodeCry
  rw [show _ = 3#7 from hb 4 7 rfl]
  change ensure _ _ _ = _
  simp only [(hb 21 5 rfl).trans (ofNat_toNat d), (hb 16 5 rfl).trans (ofNat_toNat a), show _ = 0#5 from hb 11 5 rfl, (hb 3 1 rfl).trans (ofNat_toNat w), show _ = 0#3 from hb 0 3 rfl, zeros, List.all_cons, List.all_nil, BEq.rfl, Bool.and_self, ensure, ite_true]

theorem cwait (w : BitVec 1) (n : BitVec 2) : Statement (.cwait w n) := by
  intro word _ he
  have hb := bits_of (ns := [6, 7, 1, 2]) (Option.some.inj he)
    ⟨by decide, by decide, by decide, by decide, by decide, w.isLt, by decide, n.isLt, trivial⟩
  unfold decode
  rw [show _ = 30#6 from hb 26 6 rfl]
  change decodeCry _ = _
  unfold decodeCry
  rw [show _ = 4#7 from hb 4 7 rfl]
  change ensure _ _ _ = _
  simp only [show _ = 0#15 from hb 11 15 rfl, (hb 3 1 rfl).trans (ofNat_toNat w), show _ = 0#1 from hb 2 1 rfl, (hb 0 2 rfl).trans (ofNat_toNat n), zeros, List.all_cons, List.all_nil, BEq.rfl, Bool.and_self, ensure, ite_true]

theorem rgcfg (a : Reg) : Statement (.rgcfg a) := by
  intro word _ he
  have hb := bits_of (ns := [6, 5]) (Option.some.inj he)
    ⟨by decide, by decide, by decide, a.isLt, trivial⟩
  unfold decode
  rw [show _ = 31#6 from hb 26 6 rfl]
  change decodeRng _ = _
  unfold decodeRng
  rw [show _ = 0#7 from hb 4 7 rfl]
  change ensure _ _ _ = _
  simp only [show _ = 0#5 from hb 21 5 rfl, (hb 16 5 rfl).trans (ofNat_toNat a), show _ = 0#5 from hb 11 5 rfl, show _ = 0#1 from hb 3 1 rfl, show _ = 0#3 from hb 0 3 rfl, zeros, List.all_cons, List.all_nil, BEq.rfl, Bool.and_self, ensure, ite_true]

theorem mtld (a : Reg) : Statement (.mtld a) := by
  intro word _ he
  have hb := bits_of (ns := [6, 5, 7]) (Option.some.inj he)
    ⟨by decide, by decide, by decide, a.isLt, by decide, by decide, trivial⟩
  unfold decode
  rw [show _ = 31#6 from hb 26 6 rfl]
  change decodeRng _ = _
  unfold decodeRng
  rw [show _ = 1#7 from hb 4 7 rfl]
  change ensure _ _ _ = _
  simp only [show _ = 0#5 from hb 21 5 rfl, (hb 16 5 rfl).trans (ofNat_toNat a), show _ = 0#5 from hb 11 5 rfl, show _ = 0#1 from hb 3 1 rfl, show _ = 0#3 from hb 0 3 rfl, zeros, List.all_cons, List.all_nil, BEq.rfl, Bool.and_self, ensure, ite_true]

theorem mtclr : Statement .mtclr := by
  intro word _ he
  have hb := bits_of (ns := [6, 7]) (Option.some.inj he)
    ⟨by decide, by decide, by decide, by decide, trivial⟩
  unfold decode
  rw [show _ = 31#6 from hb 26 6 rfl]
  change decodeRng _ = _
  unfold decodeRng
  rw [show _ = 2#7 from hb 4 7 rfl]
  change ensure _ _ _ = _
  simp only [show _ = 0#15 from hb 11 15 rfl, show _ = 0#1 from hb 3 1 rfl, show _ = 0#3 from hb 0 3 rfl, zeros, List.all_cons, List.all_nil, BEq.rfl, Bool.and_self, ensure, ite_true]

theorem binj (a : Reg) (w : BitVec 1) : Statement (.binj a w) := by
  intro word _ he
  have hb := bits_of (ns := [6, 5, 7, 1]) (Option.some.inj he)
    ⟨by decide, by decide, by decide, a.isLt, by decide, by decide, by decide, w.isLt, trivial⟩
  unfold decode
  rw [show _ = 31#6 from hb 26 6 rfl]
  change decodeRng _ = _
  unfold decodeRng
  rw [show _ = 3#7 from hb 4 7 rfl]
  change ensure _ _ _ = _
  simp only [show _ = 0#5 from hb 21 5 rfl, (hb 16 5 rfl).trans (ofNat_toNat a), show _ = 0#5 from hb 11 5 rfl, (hb 3 1 rfl).trans (ofNat_toNat w), show _ = 0#3 from hb 0 3 rfl, zeros, List.all_cons, List.all_nil, BEq.rfl, Bool.and_self, ensure, ite_true]

theorem btake (d : Reg) (a : Reg) : Statement (.btake d a) := by
  intro word _ he
  have hb := bits_of (ns := [6, 5, 5, 7]) (Option.some.inj he)
    ⟨by decide, by decide, by decide, d.isLt, by decide, a.isLt, by decide, by decide, trivial⟩
  unfold decode
  rw [show _ = 31#6 from hb 26 6 rfl]
  change decodeRng _ = _
  unfold decodeRng
  rw [show _ = 4#7 from hb 4 7 rfl]
  change ensure _ _ _ = _
  simp only [(hb 21 5 rfl).trans (ofNat_toNat d), (hb 16 5 rfl).trans (ofNat_toNat a), show _ = 0#5 from hb 11 5 rfl, show _ = 0#1 from hb 3 1 rfl, show _ = 0#3 from hb 0 3 rfl, zeros, List.all_cons, List.all_nil, BEq.rfl, Bool.and_self, ensure, ite_true]

theorem bstat (d : Reg) (a : Reg) : Statement (.bstat d a) := by
  intro word _ he
  have hb := bits_of (ns := [6, 5, 5, 7]) (Option.some.inj he)
    ⟨by decide, by decide, by decide, d.isLt, by decide, a.isLt, by decide, by decide, trivial⟩
  unfold decode
  rw [show _ = 31#6 from hb 26 6 rfl]
  change decodeRng _ = _
  unfold decodeRng
  rw [show _ = 5#7 from hb 4 7 rfl]
  change ensure _ _ _ = _
  simp only [(hb 21 5 rfl).trans (ofNat_toNat d), (hb 16 5 rfl).trans (ofNat_toNat a), show _ = 0#5 from hb 11 5 rfl, show _ = 0#1 from hb 3 1 rfl, show _ = 0#3 from hb 0 3 rfl, zeros, List.all_cons, List.all_nil, BEq.rfl, Bool.and_self, ensure, ite_true]

theorem tkget (d : Reg) : Statement (.tkget d) := by
  intro word _ he
  have hb := bits_of (ns := [6, 5, 7]) (Option.some.inj he)
    ⟨by decide, by decide, by decide, d.isLt, by decide, by decide, trivial⟩
  unfold decode
  rw [show _ = 31#6 from hb 26 6 rfl]
  change decodeRng _ = _
  unfold decodeRng
  rw [show _ = 6#7 from hb 4 7 rfl]
  change ensure _ _ _ = _
  simp only [(hb 21 5 rfl).trans (ofNat_toNat d), show _ = 0#10 from hb 11 10 rfl, show _ = 0#1 from hb 3 1 rfl, show _ = 0#3 from hb 0 3 rfl, zeros, List.all_cons, List.all_nil, BEq.rfl, Bool.and_self, ensure, ite_true]

theorem tkdone (a : Reg) : Statement (.tkdone a) := by
  intro word _ he
  have hb := bits_of (ns := [6, 5, 7]) (Option.some.inj he)
    ⟨by decide, by decide, by decide, a.isLt, by decide, by decide, trivial⟩
  unfold decode
  rw [show _ = 31#6 from hb 26 6 rfl]
  change decodeRng _ = _
  unfold decodeRng
  rw [show _ = 7#7 from hb 4 7 rfl]
  change ensure _ _ _ = _
  simp only [show _ = 0#5 from hb 21 5 rfl, (hb 16 5 rfl).trans (ofNat_toNat a), show _ = 0#5 from hb 11 5 rfl, show _ = 0#1 from hb 3 1 rfl, show _ = 0#3 from hb 0 3 rfl, zeros, List.all_cons, List.all_nil, BEq.rfl, Bool.and_self, ensure, ite_true]

theorem rgsub (d : Reg) (a : Reg) (b : Reg) : Statement (.rgsub d a b) := by
  intro word _ he
  have hb := bits_of (ns := [6, 5, 5, 5, 7]) (Option.some.inj he)
    ⟨by decide, by decide, by decide, d.isLt, by decide, a.isLt, by decide, b.isLt, by decide, by decide, trivial⟩
  unfold decode
  rw [show _ = 31#6 from hb 26 6 rfl]
  change decodeRng _ = _
  unfold decodeRng
  rw [show _ = 8#7 from hb 4 7 rfl]
  change ensure _ _ _ = _
  simp only [(hb 21 5 rfl).trans (ofNat_toNat d), (hb 16 5 rfl).trans (ofNat_toNat a), (hb 11 5 rfl).trans (ofNat_toNat b), show _ = 0#1 from hb 3 1 rfl, show _ = 0#3 from hb 0 3 rfl, zeros, List.all_cons, List.all_nil, BEq.rfl, Bool.and_self, ensure, ite_true]

theorem rgquiet : Statement .rgquiet := by
  intro word _ he
  have hb := bits_of (ns := [6, 7]) (Option.some.inj he)
    ⟨by decide, by decide, by decide, by decide, trivial⟩
  unfold decode
  rw [show _ = 31#6 from hb 26 6 rfl]
  change decodeRng _ = _
  unfold decodeRng
  rw [show _ = 9#7 from hb 4 7 rfl]
  change ensure _ _ _ = _
  simp only [show _ = 0#15 from hb 11 15 rfl, show _ = 0#1 from hb 3 1 rfl, show _ = 0#3 from hb 0 3 rfl, zeros, List.all_cons, List.all_nil, BEq.rfl, Bool.and_self, ensure, ite_true]

theorem tabld (a : Reg) (b : Reg) (w : BitVec 1) (t : BitVec 2) : Statement (.tabld a b w t) := by
  intro word _ he
  have hb := bits_of (ns := [6, 5, 5, 1, 2]) (Option.some.inj he)
    ⟨by decide, by decide, by decide, a.isLt, by decide, b.isLt, by decide, w.isLt, by decide, t.isLt, trivial⟩
  unfold decode
  rw [show _ = 32#6 from hb 26 6 rfl]
  change decodeTbl _ = _
  unfold decodeTbl
  rw [show _ = 0#7 from hb 4 7 rfl]
  change ensure _ _ _ = _
  simp only [show _ = 0#5 from hb 21 5 rfl, (hb 16 5 rfl).trans (ofNat_toNat a), (hb 11 5 rfl).trans (ofNat_toNat b), (hb 3 1 rfl).trans (ofNat_toNat w), show _ = 0#1 from hb 2 1 rfl, (hb 0 2 rfl).trans (ofNat_toNat t), zeros, List.all_cons, List.all_nil, BEq.rfl, Bool.and_self, ensure, ite_true]

theorem tabrd (d : Reg) (a : Reg) (w : BitVec 1) (t : BitVec 2) : Statement (.tabrd d a w t) := by
  intro word _ he
  have hb := bits_of (ns := [6, 5, 5, 7, 1, 2]) (Option.some.inj he)
    ⟨by decide, by decide, by decide, d.isLt, by decide, a.isLt, by decide, by decide, by decide, w.isLt, by decide, t.isLt, trivial⟩
  unfold decode
  rw [show _ = 32#6 from hb 26 6 rfl]
  change decodeTbl _ = _
  unfold decodeTbl
  rw [show _ = 1#7 from hb 4 7 rfl]
  change ensure _ _ _ = _
  simp only [(hb 21 5 rfl).trans (ofNat_toNat d), (hb 16 5 rfl).trans (ofNat_toNat a), show _ = 0#5 from hb 11 5 rfl, (hb 3 1 rfl).trans (ofNat_toNat w), show _ = 0#1 from hb 2 1 rfl, (hb 0 2 rfl).trans (ofNat_toNat t), zeros, List.all_cons, List.all_nil, BEq.rfl, Bool.and_self, ensure, ite_true]

theorem tabchk (d : Reg) (w : BitVec 1) (t : BitVec 2) : Statement (.tabchk d w t) := by
  intro word _ he
  have hb := bits_of (ns := [6, 5, 7, 1, 2]) (Option.some.inj he)
    ⟨by decide, by decide, by decide, d.isLt, by decide, by decide, by decide, w.isLt, by decide, t.isLt, trivial⟩
  unfold decode
  rw [show _ = 32#6 from hb 26 6 rfl]
  change decodeTbl _ = _
  unfold decodeTbl
  rw [show _ = 2#7 from hb 4 7 rfl]
  change ensure _ _ _ = _
  simp only [(hb 21 5 rfl).trans (ofNat_toNat d), show _ = 0#10 from hb 11 10 rfl, (hb 3 1 rfl).trans (ofNat_toNat w), show _ = 0#1 from hb 2 1 rfl, (hb 0 2 rfl).trans (ofNat_toNat t), zeros, List.all_cons, List.all_nil, BEq.rfl, Bool.and_self, ensure, ite_true]

theorem ppuld (a : Reg) (w : BitVec 1) : Statement (.ppuld a w) := by
  intro word _ he
  have hb := bits_of (ns := [6, 5, 7, 1]) (Option.some.inj he)
    ⟨by decide, by decide, by decide, a.isLt, by decide, by decide, by decide, w.isLt, trivial⟩
  unfold decode
  rw [show _ = 32#6 from hb 26 6 rfl]
  change decodeTbl _ = _
  unfold decodeTbl
  rw [show _ = 3#7 from hb 4 7 rfl]
  change ensure _ _ _ = _
  simp only [show _ = 0#5 from hb 21 5 rfl, (hb 16 5 rfl).trans (ofNat_toNat a), show _ = 0#5 from hb 11 5 rfl, (hb 3 1 rfl).trans (ofNat_toNat w), show _ = 0#3 from hb 0 3 rfl, zeros, List.all_cons, List.all_nil, BEq.rfl, Bool.and_self, ensure, ite_true]

theorem ppurd (d : Reg) (a : Reg) (w : BitVec 1) : Statement (.ppurd d a w) := by
  intro word _ he
  have hb := bits_of (ns := [6, 5, 5, 7, 1]) (Option.some.inj he)
    ⟨by decide, by decide, by decide, d.isLt, by decide, a.isLt, by decide, by decide, by decide, w.isLt, trivial⟩
  unfold decode
  rw [show _ = 32#6 from hb 26 6 rfl]
  change decodeTbl _ = _
  unfold decodeTbl
  rw [show _ = 4#7 from hb 4 7 rfl]
  change ensure _ _ _ = _
  simp only [(hb 21 5 rfl).trans (ofNat_toNat d), (hb 16 5 rfl).trans (ofNat_toNat a), show _ = 0#5 from hb 11 5 rfl, (hb 3 1 rfl).trans (ofNat_toNat w), show _ = 0#3 from hb 0 3 rfl, zeros, List.all_cons, List.all_nil, BEq.rfl, Bool.and_self, ensure, ite_true]

theorem enc (d : Reg) (a : Reg) (w : BitVec 1) (t : BitVec 2) : Statement (.enc d a w t) := by
  intro word _ he
  have hb := bits_of (ns := [6, 5, 5, 7, 1, 2]) (Option.some.inj he)
    ⟨by decide, by decide, by decide, d.isLt, by decide, a.isLt, by decide, by decide, by decide, w.isLt, by decide, t.isLt, trivial⟩
  unfold decode
  rw [show _ = 32#6 from hb 26 6 rfl]
  change decodeTbl _ = _
  unfold decodeTbl
  rw [show _ = 5#7 from hb 4 7 rfl]
  change ensure _ _ _ = _
  simp only [(hb 21 5 rfl).trans (ofNat_toNat d), (hb 16 5 rfl).trans (ofNat_toNat a), show _ = 0#5 from hb 11 5 rfl, (hb 3 1 rfl).trans (ofNat_toNat w), show _ = 0#1 from hb 2 1 rfl, (hb 0 2 rfl).trans (ofNat_toNat t), zeros, List.all_cons, List.all_nil, BEq.rfl, Bool.and_self, ensure, ite_true]

theorem dec (d : Reg) (a : Reg) (w : BitVec 1) (t : BitVec 2) : Statement (.dec d a w t) := by
  intro word _ he
  have hb := bits_of (ns := [6, 5, 5, 7, 1, 2]) (Option.some.inj he)
    ⟨by decide, by decide, by decide, d.isLt, by decide, a.isLt, by decide, by decide, by decide, w.isLt, by decide, t.isLt, trivial⟩
  unfold decode
  rw [show _ = 32#6 from hb 26 6 rfl]
  change decodeTbl _ = _
  unfold decodeTbl
  rw [show _ = 6#7 from hb 4 7 rfl]
  change ensure _ _ _ = _
  simp only [(hb 21 5 rfl).trans (ofNat_toNat d), (hb 16 5 rfl).trans (ofNat_toNat a), show _ = 0#5 from hb 11 5 rfl, (hb 3 1 rfl).trans (ofNat_toNat w), show _ = 0#1 from hb 2 1 rfl, (hb 0 2 rfl).trans (ofNat_toNat t), zeros, List.all_cons, List.all_nil, BEq.rfl, Bool.and_self, ensure, ite_true]

theorem cpstat (d : Reg) (a : Reg) : Statement (.cpstat d a) := by
  intro word _ he
  have hb := bits_of (ns := [6, 5, 5]) (Option.some.inj he)
    ⟨by decide, by decide, by decide, d.isLt, by decide, a.isLt, trivial⟩
  unfold decode
  rw [show _ = 33#6 from hb 26 6 rfl]
  change decodeCpe _ = _
  unfold decodeCpe
  rw [show _ = 0#7 from hb 4 7 rfl]
  change ensure _ _ _ = _
  simp only [(hb 21 5 rfl).trans (ofNat_toNat d), (hb 16 5 rfl).trans (ofNat_toNat a), show _ = 0#5 from hb 11 5 rfl, show _ = 0#1 from hb 3 1 rfl, show _ = 0#3 from hb 0 3 rfl, zeros, List.all_cons, List.all_nil, BEq.rfl, Bool.and_self, ensure, ite_true]

theorem cpwait (d : Reg) (a : Reg) : Statement (.cpwait d a) := by
  intro word _ he
  have hb := bits_of (ns := [6, 5, 5, 7]) (Option.some.inj he)
    ⟨by decide, by decide, by decide, d.isLt, by decide, a.isLt, by decide, by decide, trivial⟩
  unfold decode
  rw [show _ = 33#6 from hb 26 6 rfl]
  change decodeCpe _ = _
  unfold decodeCpe
  rw [show _ = 1#7 from hb 4 7 rfl]
  change ensure _ _ _ = _
  simp only [(hb 21 5 rfl).trans (ofNat_toNat d), (hb 16 5 rfl).trans (ofNat_toNat a), show _ = 0#5 from hb 11 5 rfl, show _ = 0#1 from hb 3 1 rfl, show _ = 0#3 from hb 0 3 rfl, zeros, List.all_cons, List.all_nil, BEq.rfl, Bool.and_self, ensure, ite_true]

theorem cpcan (a : Reg) : Statement (.cpcan a) := by
  intro word _ he
  have hb := bits_of (ns := [6, 5, 7]) (Option.some.inj he)
    ⟨by decide, by decide, by decide, a.isLt, by decide, by decide, trivial⟩
  unfold decode
  rw [show _ = 33#6 from hb 26 6 rfl]
  change decodeCpe _ = _
  unfold decodeCpe
  rw [show _ = 2#7 from hb 4 7 rfl]
  change ensure _ _ _ = _
  simp only [show _ = 0#5 from hb 21 5 rfl, (hb 16 5 rfl).trans (ofNat_toNat a), show _ = 0#5 from hb 11 5 rfl, show _ = 0#1 from hb 3 1 rfl, show _ = 0#3 from hb 0 3 rfl, zeros, List.all_cons, List.all_nil, BEq.rfl, Bool.and_self, ensure, ite_true]

theorem fnew (d : Reg) : Statement (.fnew d) := by
  intro word _ he
  have hb := bits_of (ns := [6, 5]) (Option.some.inj he)
    ⟨by decide, by decide, by decide, d.isLt, trivial⟩
  unfold decode
  rw [show _ = 34#6 from hb 26 6 rfl]
  change decodeFut _ = _
  unfold decodeFut
  rw [show _ = 0#7 from hb 4 7 rfl]
  change ensure _ _ _ = _
  simp only [(hb 21 5 rfl).trans (ofNat_toNat d), show _ = 0#10 from hb 11 10 rfl, show _ = 0#1 from hb 3 1 rfl, show _ = 0#3 from hb 0 3 rfl, zeros, List.all_cons, List.all_nil, BEq.rfl, Bool.and_self, ensure, ite_true]

theorem fput (a : Reg) (b : Reg) : Statement (.fput a b) := by
  intro word _ he
  have hb := bits_of (ns := [6, 5, 5, 7]) (Option.some.inj he)
    ⟨by decide, by decide, by decide, a.isLt, by decide, b.isLt, by decide, by decide, trivial⟩
  unfold decode
  rw [show _ = 34#6 from hb 26 6 rfl]
  change decodeFut _ = _
  unfold decodeFut
  rw [show _ = 1#7 from hb 4 7 rfl]
  change ensure _ _ _ = _
  simp only [show _ = 0#5 from hb 21 5 rfl, (hb 16 5 rfl).trans (ofNat_toNat a), (hb 11 5 rfl).trans (ofNat_toNat b), show _ = 0#1 from hb 3 1 rfl, show _ = 0#3 from hb 0 3 rfl, zeros, List.all_cons, List.all_nil, BEq.rfl, Bool.and_self, ensure, ite_true]

theorem fget (d : Reg) (a : Reg) (b : Reg) : Statement (.fget d a b) := by
  intro word _ he
  have hb := bits_of (ns := [6, 5, 5, 5, 7]) (Option.some.inj he)
    ⟨by decide, by decide, by decide, d.isLt, by decide, a.isLt, by decide, b.isLt, by decide, by decide, trivial⟩
  unfold decode
  rw [show _ = 34#6 from hb 26 6 rfl]
  change decodeFut _ = _
  unfold decodeFut
  rw [show _ = 2#7 from hb 4 7 rfl]
  change ensure _ _ _ = _
  simp only [(hb 21 5 rfl).trans (ofNat_toNat d), (hb 16 5 rfl).trans (ofNat_toNat a), (hb 11 5 rfl).trans (ofNat_toNat b), show _ = 0#1 from hb 3 1 rfl, show _ = 0#3 from hb 0 3 rfl, zeros, List.all_cons, List.all_nil, BEq.rfl, Bool.and_self, ensure, ite_true]

theorem ftry (d : Reg) (a : Reg) (b : Reg) : Statement (.ftry d a b) := by
  intro word _ he
  have hb := bits_of (ns := [6, 5, 5, 5, 7]) (Option.some.inj he)
    ⟨by decide, by decide, by decide, d.isLt, by decide, a.isLt, by decide, b.isLt, by decide, by decide, trivial⟩
  unfold decode
  rw [show _ = 34#6 from hb 26 6 rfl]
  change decodeFut _ = _
  unfold decodeFut
  rw [show _ = 3#7 from hb 4 7 rfl]
  change ensure _ _ _ = _
  simp only [(hb 21 5 rfl).trans (ofNat_toNat d), (hb 16 5 rfl).trans (ofNat_toNat a), (hb 11 5 rfl).trans (ofNat_toNat b), show _ = 0#1 from hb 3 1 rfl, show _ = 0#3 from hb 0 3 rfl, zeros, List.all_cons, List.all_nil, BEq.rfl, Bool.and_self, ensure, ite_true]

theorem fpois (a : Reg) (b : Reg) : Statement (.fpois a b) := by
  intro word _ he
  have hb := bits_of (ns := [6, 5, 5, 7]) (Option.some.inj he)
    ⟨by decide, by decide, by decide, a.isLt, by decide, b.isLt, by decide, by decide, trivial⟩
  unfold decode
  rw [show _ = 34#6 from hb 26 6 rfl]
  change decodeFut _ = _
  unfold decodeFut
  rw [show _ = 4#7 from hb 4 7 rfl]
  change ensure _ _ _ = _
  simp only [show _ = 0#5 from hb 21 5 rfl, (hb 16 5 rfl).trans (ofNat_toNat a), (hb 11 5 rfl).trans (ofNat_toNat b), show _ = 0#1 from hb 3 1 rfl, show _ = 0#3 from hb 0 3 rfl, zeros, List.all_cons, List.all_nil, BEq.rfl, Bool.and_self, ensure, ite_true]

theorem ffree (a : Reg) : Statement (.ffree a) := by
  intro word _ he
  have hb := bits_of (ns := [6, 5, 7]) (Option.some.inj he)
    ⟨by decide, by decide, by decide, a.isLt, by decide, by decide, trivial⟩
  unfold decode
  rw [show _ = 34#6 from hb 26 6 rfl]
  change decodeFut _ = _
  unfold decodeFut
  rw [show _ = 5#7 from hb 4 7 rfl]
  change ensure _ _ _ = _
  simp only [show _ = 0#5 from hb 21 5 rfl, (hb 16 5 rfl).trans (ofNat_toNat a), show _ = 0#5 from hb 11 5 rfl, show _ = 0#1 from hb 3 1 rfl, show _ = 0#3 from hb 0 3 rfl, zeros, List.all_cons, List.all_nil, BEq.rfl, Bool.and_self, ensure, ite_true]

theorem flink (d : Reg) (a : Reg) (b : Reg) : Statement (.flink d a b) := by
  intro word _ he
  have hb := bits_of (ns := [6, 5, 5, 5, 7]) (Option.some.inj he)
    ⟨by decide, by decide, by decide, d.isLt, by decide, a.isLt, by decide, b.isLt, by decide, by decide, trivial⟩
  unfold decode
  rw [show _ = 34#6 from hb 26 6 rfl]
  change decodeFut _ = _
  unfold decodeFut
  rw [show _ = 6#7 from hb 4 7 rfl]
  change ensure _ _ _ = _
  simp only [(hb 21 5 rfl).trans (ofNat_toNat d), (hb 16 5 rfl).trans (ofNat_toNat a), (hb 11 5 rfl).trans (ofNat_toNat b), show _ = 0#1 from hb 3 1 rfl, show _ = 0#3 from hb 0 3 rfl, zeros, List.all_cons, List.all_nil, BEq.rfl, Bool.and_self, ensure, ite_true]

theorem jsub (a : Reg) : Statement (.jsub a) := by
  intro word _ he
  have hb := bits_of (ns := [6, 5]) (Option.some.inj he)
    ⟨by decide, by decide, by decide, a.isLt, trivial⟩
  unfold decode
  rw [show _ = 35#6 from hb 26 6 rfl]
  change decodeJob _ = _
  unfold decodeJob
  rw [show _ = 0#7 from hb 4 7 rfl]
  change ensure _ _ _ = _
  simp only [show _ = 0#5 from hb 21 5 rfl, (hb 16 5 rfl).trans (ofNat_toNat a), show _ = 0#5 from hb 11 5 rfl, show _ = 0#1 from hb 3 1 rfl, show _ = 0#3 from hb 0 3 rfl, zeros, List.all_cons, List.all_nil, BEq.rfl, Bool.and_self, ensure, ite_true]

theorem jwid (d : Reg) : Statement (.jwid d) := by
  intro word _ he
  have hb := bits_of (ns := [6, 5, 7]) (Option.some.inj he)
    ⟨by decide, by decide, by decide, d.isLt, by decide, by decide, trivial⟩
  unfold decode
  rw [show _ = 35#6 from hb 26 6 rfl]
  change decodeJob _ = _
  unfold decodeJob
  rw [show _ = 1#7 from hb 4 7 rfl]
  change ensure _ _ _ = _
  simp only [(hb 21 5 rfl).trans (ofNat_toNat d), show _ = 0#10 from hb 11 10 rfl, show _ = 0#1 from hb 3 1 rfl, show _ = 0#3 from hb 0 3 rfl, zeros, List.all_cons, List.all_nil, BEq.rfl, Bool.and_self, ensure, ite_true]

theorem jarg (d : Reg) : Statement (.jarg d) := by
  intro word _ he
  have hb := bits_of (ns := [6, 5, 7]) (Option.some.inj he)
    ⟨by decide, by decide, by decide, d.isLt, by decide, by decide, trivial⟩
  unfold decode
  rw [show _ = 35#6 from hb 26 6 rfl]
  change decodeJob _ = _
  unfold decodeJob
  rw [show _ = 2#7 from hb 4 7 rfl]
  change ensure _ _ _ = _
  simp only [(hb 21 5 rfl).trans (ofNat_toNat d), show _ = 0#10 from hb 11 10 rfl, show _ = 0#1 from hb 3 1 rfl, show _ = 0#3 from hb 0 3 rfl, zeros, List.all_cons, List.all_nil, BEq.rfl, Bool.and_self, ensure, ite_true]

theorem jend : Statement .jend := by
  intro word _ he
  have hb := bits_of (ns := [6, 7]) (Option.some.inj he)
    ⟨by decide, by decide, by decide, by decide, trivial⟩
  unfold decode
  rw [show _ = 35#6 from hb 26 6 rfl]
  change decodeJob _ = _
  unfold decodeJob
  rw [show _ = 3#7 from hb 4 7 rfl]
  change ensure _ _ _ = _
  simp only [show _ = 0#15 from hb 11 15 rfl, show _ = 0#1 from hb 3 1 rfl, show _ = 0#3 from hb 0 3 rfl, zeros, List.all_cons, List.all_nil, BEq.rfl, Bool.and_self, ensure, ite_true]

theorem jqry (d : Reg) (a : Reg) : Statement (.jqry d a) := by
  intro word _ he
  have hb := bits_of (ns := [6, 5, 5, 7]) (Option.some.inj he)
    ⟨by decide, by decide, by decide, d.isLt, by decide, a.isLt, by decide, by decide, trivial⟩
  unfold decode
  rw [show _ = 35#6 from hb 26 6 rfl]
  change decodeJob _ = _
  unfold decodeJob
  rw [show _ = 4#7 from hb 4 7 rfl]
  change ensure _ _ _ = _
  simp only [(hb 21 5 rfl).trans (ofNat_toNat d), (hb 16 5 rfl).trans (ofNat_toNat a), show _ = 0#5 from hb 11 5 rfl, show _ = 0#1 from hb 3 1 rfl, show _ = 0#3 from hb 0 3 rfl, zeros, List.all_cons, List.all_nil, BEq.rfl, Bool.and_self, ensure, ite_true]

theorem chsnd (d : Reg) (a : Reg) (c : BitVec 4) : Statement (.chsnd d a c) := by
  intro word _ he
  have hb := bits_of (ns := [6, 5, 5, 4]) (Option.some.inj he)
    ⟨by decide, by decide, by decide, d.isLt, by decide, a.isLt, by decide, c.isLt, trivial⟩
  unfold decode
  rw [show _ = 36#6 from hb 26 6 rfl]
  change decodeChn _ = _
  unfold decodeChn
  rw [show _ = 0#7 from hb 4 7 rfl]
  change ensure _ _ _ = _
  simp only [(hb 21 5 rfl).trans (ofNat_toNat d), (hb 16 5 rfl).trans (ofNat_toNat a), show _ = 0#1 from hb 15 1 rfl, (hb 11 4 rfl).trans (ofNat_toNat c), show _ = 0#1 from hb 3 1 rfl, show _ = 0#3 from hb 0 3 rfl, zeros, List.all_cons, List.all_nil, BEq.rfl, Bool.and_self, ensure, ite_true]

theorem chrcv (d : Reg) (a : Reg) (c : BitVec 4) : Statement (.chrcv d a c) := by
  intro word _ he
  have hb := bits_of (ns := [6, 5, 5, 4, 7]) (Option.some.inj he)
    ⟨by decide, by decide, by decide, d.isLt, by decide, a.isLt, by decide, c.isLt, by decide, by decide, trivial⟩
  unfold decode
  rw [show _ = 36#6 from hb 26 6 rfl]
  change decodeChn _ = _
  unfold decodeChn
  rw [show _ = 1#7 from hb 4 7 rfl]
  change ensure _ _ _ = _
  simp only [(hb 21 5 rfl).trans (ofNat_toNat d), (hb 16 5 rfl).trans (ofNat_toNat a), show _ = 0#1 from hb 15 1 rfl, (hb 11 4 rfl).trans (ofNat_toNat c), show _ = 0#1 from hb 3 1 rfl, show _ = 0#3 from hb 0 3 rfl, zeros, List.all_cons, List.all_nil, BEq.rfl, Bool.and_self, ensure, ite_true]

theorem chsndv (d : Reg) (a : Reg) (c : BitVec 4) : Statement (.chsndv d a c) := by
  intro word _ he
  have hb := bits_of (ns := [6, 5, 5, 4, 7]) (Option.some.inj he)
    ⟨by decide, by decide, by decide, d.isLt, by decide, a.isLt, by decide, c.isLt, by decide, by decide, trivial⟩
  unfold decode
  rw [show _ = 36#6 from hb 26 6 rfl]
  change decodeChn _ = _
  unfold decodeChn
  rw [show _ = 2#7 from hb 4 7 rfl]
  change ensure _ _ _ = _
  simp only [(hb 21 5 rfl).trans (ofNat_toNat d), (hb 16 5 rfl).trans (ofNat_toNat a), show _ = 0#1 from hb 15 1 rfl, (hb 11 4 rfl).trans (ofNat_toNat c), show _ = 0#1 from hb 3 1 rfl, show _ = 0#3 from hb 0 3 rfl, zeros, List.all_cons, List.all_nil, BEq.rfl, Bool.and_self, ensure, ite_true]

theorem chrcvv (d : Reg) (c : BitVec 4) : Statement (.chrcvv d c) := by
  intro word _ he
  have hb := bits_of (ns := [6, 5, 4, 7]) (Option.some.inj he)
    ⟨by decide, by decide, by decide, d.isLt, by decide, c.isLt, by decide, by decide, trivial⟩
  unfold decode
  rw [show _ = 36#6 from hb 26 6 rfl]
  change decodeChn _ = _
  unfold decodeChn
  rw [show _ = 3#7 from hb 4 7 rfl]
  change ensure _ _ _ = _
  simp only [(hb 21 5 rfl).trans (ofNat_toNat d), show _ = 0#6 from hb 15 6 rfl, (hb 11 4 rfl).trans (ofNat_toNat c), show _ = 0#1 from hb 3 1 rfl, show _ = 0#3 from hb 0 3 rfl, zeros, List.all_cons, List.all_nil, BEq.rfl, Bool.and_self, ensure, ite_true]

theorem chpoll (d : Reg) (c : BitVec 4) : Statement (.chpoll d c) := by
  intro word _ he
  have hb := bits_of (ns := [6, 5, 4, 7]) (Option.some.inj he)
    ⟨by decide, by decide, by decide, d.isLt, by decide, c.isLt, by decide, by decide, trivial⟩
  unfold decode
  rw [show _ = 36#6 from hb 26 6 rfl]
  change decodeChn _ = _
  unfold decodeChn
  rw [show _ = 4#7 from hb 4 7 rfl]
  change ensure _ _ _ = _
  simp only [(hb 21 5 rfl).trans (ofNat_toNat d), show _ = 0#6 from hb 15 6 rfl, (hb 11 4 rfl).trans (ofNat_toNat c), show _ = 0#1 from hb 3 1 rfl, show _ = 0#3 from hb 0 3 rfl, zeros, List.all_cons, List.all_nil, BEq.rfl, Bool.and_self, ensure, ite_true]

theorem barp (k : BitVec 2) : Statement (.barp k) := by
  intro word _ he
  have hb := bits_of (ns := [6, 2]) (Option.some.inj he)
    ⟨by decide, by decide, by decide, k.isLt, trivial⟩
  unfold decode
  rw [show _ = 37#6 from hb 26 6 rfl]
  change decodePhs _ = _
  unfold decodePhs
  rw [show _ = 0#7 from hb 4 7 rfl]
  change ensure _ _ _ = _
  simp only [show _ = 0#15 from hb 11 15 rfl, show _ = 0#1 from hb 3 1 rfl, show _ = 0#1 from hb 2 1 rfl, (hb 0 2 rfl).trans (ofNat_toNat k), zeros, List.all_cons, List.all_nil, BEq.rfl, Bool.and_self, ensure, ite_true]

theorem xsel (a : Reg) (k : BitVec 2) : Statement (.xsel a k) := by
  intro word _ he
  have hb := bits_of (ns := [6, 5, 7, 2]) (Option.some.inj he)
    ⟨by decide, by decide, by decide, a.isLt, by decide, by decide, by decide, k.isLt, trivial⟩
  unfold decode
  rw [show _ = 37#6 from hb 26 6 rfl]
  change decodePhs _ = _
  unfold decodePhs
  rw [show _ = 1#7 from hb 4 7 rfl]
  change ensure _ _ _ = _
  simp only [show _ = 0#5 from hb 21 5 rfl, (hb 16 5 rfl).trans (ofNat_toNat a), show _ = 0#5 from hb 11 5 rfl, show _ = 0#1 from hb 3 1 rfl, show _ = 0#1 from hb 2 1 rfl, (hb 0 2 rfl).trans (ofNat_toNat k), zeros, List.all_cons, List.all_nil, BEq.rfl, Bool.and_self, ensure, ite_true]

theorem xmit (h : Reg) (b : Reg) (l : BitVec 3) : Statement (.xmit h b l) := by
  intro word _ he
  have hb := bits_of (ns := [6, 5, 5, 7, 3]) (Option.some.inj he)
    ⟨by decide, by decide, by decide, h.isLt, by decide, b.isLt, by decide, by decide, by decide, l.isLt, trivial⟩
  unfold decode
  rw [show _ = 37#6 from hb 26 6 rfl]
  change decodePhs _ = _
  unfold decodePhs
  rw [show _ = 2#7 from hb 4 7 rfl]
  change (if _ then _ else _) = _
  simp only [show _ = 0#1 from hb 25 1 rfl, show _ = 0#5 from hb 21 5 rfl, show _ = 0#4 from hb 21 4 rfl, (hb 16 5 rfl).trans (ofNat_toNat h), (hb 11 5 rfl).trans (ofNat_toNat b), show _ = 0#1 from hb 3 1 rfl, (hb 0 3 rfl).trans (ofNat_toNat l), zeros, List.all_cons, List.all_nil, BEq.rfl, Bool.and_self, ensure, ite_true]

theorem xmitCh (c : BitVec 4) (h : Reg) (b : Reg) (l : BitVec 3) : Statement (.xmitCh c h b l) := by
  intro word hw he
  have hb := bits_of (ns := [6, 4, 5, 5, 7, 1, 3]) (Option.some.inj he)
    ⟨by decide, by decide, by decide, c.isLt, by decide, h.isLt, by decide, b.isLt, by decide, by decide, by decide, by decide, by decide, l.isLt, trivial⟩
  unfold decode
  rw [show _ = 37#6 from hb 26 6 rfl]
  change decodePhs _ = _
  unfold decodePhs
  rw [show _ = 2#7 from hb 4 7 rfl]
  change (if _ then _ else _) = _
  simp only [Instr.wf] at hw
  simp only [show _ = 0#1 from hb 25 1 rfl, (hb 21 4 rfl).trans (ofNat_toNat c), (hb 16 5 rfl).trans (ofNat_toNat h), (hb 11 5 rfl).trans (ofNat_toNat b), show _ = 1#1 from hb 3 1 rfl, (hb 0 3 rfl).trans (ofNat_toNat l), zeros, List.all_cons, List.all_nil, BEq.rfl, Bool.and_self, ensure, ite_true, hw]
  rfl

theorem xrecv (d : Reg) (h : Reg) (l : BitVec 3) : Statement (.xrecv d h l) := by
  intro word _ he
  have hb := bits_of (ns := [6, 5, 5, 7, 3]) (Option.some.inj he)
    ⟨by decide, by decide, by decide, d.isLt, by decide, h.isLt, by decide, by decide, by decide, l.isLt, trivial⟩
  unfold decode
  rw [show _ = 37#6 from hb 26 6 rfl]
  change decodePhs _ = _
  unfold decodePhs
  rw [show _ = 3#7 from hb 4 7 rfl]
  change (if _ then _ else _) = _
  simp only [(hb 21 5 rfl).trans (ofNat_toNat d), (hb 16 5 rfl).trans (ofNat_toNat h), show _ = 0#1 from hb 15 1 rfl, show _ = 0#5 from hb 11 5 rfl, show _ = 0#4 from hb 11 4 rfl, show _ = 0#1 from hb 3 1 rfl, (hb 0 3 rfl).trans (ofNat_toNat l), zeros, List.all_cons, List.all_nil, BEq.rfl, Bool.and_self, ensure, ite_true]

theorem xrecvCh (d : Reg) (h : Reg) (c : BitVec 4) (l : BitVec 3) : Statement (.xrecvCh d h c l) := by
  intro word hw he
  have hb := bits_of (ns := [6, 5, 5, 4, 7, 1, 3]) (Option.some.inj he)
    ⟨by decide, by decide, by decide, d.isLt, by decide, h.isLt, by decide, c.isLt, by decide, by decide, by decide, by decide, by decide, l.isLt, trivial⟩
  unfold decode
  rw [show _ = 37#6 from hb 26 6 rfl]
  change decodePhs _ = _
  unfold decodePhs
  rw [show _ = 3#7 from hb 4 7 rfl]
  change (if _ then _ else _) = _
  simp only [Instr.wf] at hw
  simp only [(hb 21 5 rfl).trans (ofNat_toNat d), (hb 16 5 rfl).trans (ofNat_toNat h), show _ = 0#1 from hb 15 1 rfl, (hb 11 4 rfl).trans (ofNat_toNat c), show _ = 1#1 from hb 3 1 rfl, (hb 0 3 rfl).trans (ofNat_toNat l), zeros, List.all_cons, List.all_nil, BEq.rfl, Bool.and_self, ensure, ite_true, hw]
  rfl

theorem xend (d : Reg) : Statement (.xend d) := by
  intro word _ he
  have hb := bits_of (ns := [6, 5, 7]) (Option.some.inj he)
    ⟨by decide, by decide, by decide, d.isLt, by decide, by decide, trivial⟩
  unfold decode
  rw [show _ = 37#6 from hb 26 6 rfl]
  change decodePhs _ = _
  unfold decodePhs
  rw [show _ = 4#7 from hb 4 7 rfl]
  change ensure _ _ _ = _
  simp only [(hb 21 5 rfl).trans (ofNat_toNat d), show _ = 0#10 from hb 11 10 rfl, show _ = 0#1 from hb 3 1 rfl, show _ = 0#3 from hb 0 3 rfl, zeros, List.all_cons, List.all_nil, BEq.rfl, Bool.and_self, ensure, ite_true]

theorem bar (a : Reg) (n : BitVec 2) : Statement (.bar a n) := by
  intro word _ he
  have hb := bits_of (ns := [6, 5, 2]) (Option.some.inj he)
    ⟨by decide, by decide, by decide, a.isLt, by decide, n.isLt, trivial⟩
  unfold decode
  rw [show _ = 38#6 from hb 26 6 rfl]
  change decodeSyn _ = _
  unfold decodeSyn
  rw [show _ = 0#7 from hb 4 7 rfl]
  change ensure _ _ _ = _
  simp only [show _ = 0#5 from hb 21 5 rfl, (hb 16 5 rfl).trans (ofNat_toNat a), show _ = 0#5 from hb 11 5 rfl, show _ = 0#1 from hb 3 1 rfl, show _ = 0#1 from hb 2 1 rfl, (hb 0 2 rfl).trans (ofNat_toNat n), zeros, List.all_cons, List.all_nil, BEq.rfl, Bool.and_self, ensure, ite_true]

theorem barnw (a : Reg) (n : BitVec 2) : Statement (.barnw a n) := by
  intro word _ he
  have hb := bits_of (ns := [6, 5, 7, 2]) (Option.some.inj he)
    ⟨by decide, by decide, by decide, a.isLt, by decide, by decide, by decide, n.isLt, trivial⟩
  unfold decode
  rw [show _ = 38#6 from hb 26 6 rfl]
  change decodeSyn _ = _
  unfold decodeSyn
  rw [show _ = 1#7 from hb 4 7 rfl]
  change ensure _ _ _ = _
  simp only [show _ = 0#5 from hb 21 5 rfl, (hb 16 5 rfl).trans (ofNat_toNat a), show _ = 0#5 from hb 11 5 rfl, show _ = 0#1 from hb 3 1 rfl, show _ = 0#1 from hb 2 1 rfl, (hb 0 2 rfl).trans (ofNat_toNat n), zeros, List.all_cons, List.all_nil, BEq.rfl, Bool.and_self, ensure, ite_true]

theorem sleep (d : Reg) (a : Reg) : Statement (.sleep d a) := by
  intro word _ he
  have hb := bits_of (ns := [6, 5, 5, 7]) (Option.some.inj he)
    ⟨by decide, by decide, by decide, d.isLt, by decide, a.isLt, by decide, by decide, trivial⟩
  unfold decode
  rw [show _ = 38#6 from hb 26 6 rfl]
  change decodeSyn _ = _
  unfold decodeSyn
  rw [show _ = 2#7 from hb 4 7 rfl]
  change ensure _ _ _ = _
  simp only [(hb 21 5 rfl).trans (ofNat_toNat d), (hb 16 5 rfl).trans (ofNat_toNat a), show _ = 0#5 from hb 11 5 rfl, show _ = 0#1 from hb 3 1 rfl, show _ = 0#3 from hb 0 3 rfl, zeros, List.all_cons, List.all_nil, BEq.rfl, Bool.and_self, ensure, ite_true]

theorem wake (a : Reg) : Statement (.wake a) := by
  intro word _ he
  have hb := bits_of (ns := [6, 5, 7]) (Option.some.inj he)
    ⟨by decide, by decide, by decide, a.isLt, by decide, by decide, trivial⟩
  unfold decode
  rw [show _ = 38#6 from hb 26 6 rfl]
  change decodeSyn _ = _
  unfold decodeSyn
  rw [show _ = 3#7 from hb 4 7 rfl]
  change ensure _ _ _ = _
  simp only [show _ = 0#5 from hb 21 5 rfl, (hb 16 5 rfl).trans (ofNat_toNat a), show _ = 0#5 from hb 11 5 rfl, show _ = 0#1 from hb 3 1 rfl, show _ = 0#3 from hb 0 3 rfl, zeros, List.all_cons, List.all_nil, BEq.rfl, Bool.and_self, ensure, ite_true]

theorem time (d : Reg) : Statement (.time d) := by
  intro word _ he
  have hb := bits_of (ns := [6, 5, 7]) (Option.some.inj he)
    ⟨by decide, by decide, by decide, d.isLt, by decide, by decide, trivial⟩
  unfold decode
  rw [show _ = 38#6 from hb 26 6 rfl]
  change decodeSyn _ = _
  unfold decodeSyn
  rw [show _ = 4#7 from hb 4 7 rfl]
  change ensure _ _ _ = _
  simp only [(hb 21 5 rfl).trans (ofNat_toNat d), show _ = 0#10 from hb 11 10 rfl, show _ = 0#1 from hb 3 1 rfl, show _ = 0#3 from hb 0 3 rfl, zeros, List.all_cons, List.all_nil, BEq.rfl, Bool.and_self, ensure, ite_true]

theorem kop (s : BitVec 3) (d : Reg) (a : Reg) (b : Reg) (c : Reg) (k : KReg) : Statement (.kop s d a b c k) := by
  intro word _ he
  have hb := bits_of (ns := [6, 3, 5, 5, 5, 5, 3]) (Option.some.inj he)
    ⟨by decide, by decide, by decide, s.isLt, by decide, d.isLt, by decide, a.isLt, by decide, b.isLt, by decide, c.isLt, by decide, k.isLt, trivial⟩
  unfold decode
  rw [show _ = 39#6 from hb 26 6 rfl]
  change Except.ok _ = _
  simp only [(hb 23 3 rfl).trans (ofNat_toNat s), (hb 18 5 rfl).trans (ofNat_toNat d), (hb 13 5 rfl).trans (ofNat_toNat a), (hb 8 5 rfl).trans (ofNat_toNat b), (hb 3 5 rfl).trans (ofNat_toNat c), (hb 0 3 rfl).trans (ofNat_toNat k)]

theorem kld (a : Reg) (b : Reg) : Statement (.kld a b) := by
  intro word _ he
  have hb := bits_of (ns := [6, 5, 5]) (Option.some.inj he)
    ⟨by decide, by decide, by decide, a.isLt, by decide, b.isLt, trivial⟩
  unfold decode
  rw [show _ = 40#6 from hb 26 6 rfl]
  change decodeKdm _ = _
  unfold decodeKdm
  rw [show _ = 0#7 from hb 4 7 rfl]
  change ensure _ _ _ = _
  simp only [show _ = 0#5 from hb 21 5 rfl, (hb 16 5 rfl).trans (ofNat_toNat a), (hb 11 5 rfl).trans (ofNat_toNat b), show _ = 0#1 from hb 3 1 rfl, show _ = 0#3 from hb 0 3 rfl, zeros, List.all_cons, List.all_nil, BEq.rfl, Bool.and_self, ensure, ite_true]

theorem krel (a : Reg) : Statement (.krel a) := by
  intro word _ he
  have hb := bits_of (ns := [6, 5, 7]) (Option.some.inj he)
    ⟨by decide, by decide, by decide, a.isLt, by decide, by decide, trivial⟩
  unfold decode
  rw [show _ = 40#6 from hb 26 6 rfl]
  change decodeKdm _ = _
  unfold decodeKdm
  rw [show _ = 1#7 from hb 4 7 rfl]
  change ensure _ _ _ = _
  simp only [show _ = 0#5 from hb 21 5 rfl, (hb 16 5 rfl).trans (ofNat_toNat a), show _ = 0#5 from hb 11 5 rfl, show _ = 0#1 from hb 3 1 rfl, show _ = 0#3 from hb 0 3 rfl, zeros, List.all_cons, List.all_nil, BEq.rfl, Bool.and_self, ensure, ite_true]

theorem kqry (d : Reg) (a : Reg) : Statement (.kqry d a) := by
  intro word _ he
  have hb := bits_of (ns := [6, 5, 5, 7]) (Option.some.inj he)
    ⟨by decide, by decide, by decide, d.isLt, by decide, a.isLt, by decide, by decide, trivial⟩
  unfold decode
  rw [show _ = 40#6 from hb 26 6 rfl]
  change decodeKdm _ = _
  unfold decodeKdm
  rw [show _ = 2#7 from hb 4 7 rfl]
  change ensure _ _ _ = _
  simp only [(hb 21 5 rfl).trans (ofNat_toNat d), (hb 16 5 rfl).trans (ofNat_toNat a), show _ = 0#5 from hb 11 5 rfl, show _ = 0#1 from hb 3 1 rfl, show _ = 0#3 from hb 0 3 rfl, zeros, List.all_cons, List.all_nil, BEq.rfl, Bool.and_self, ensure, ite_true]

theorem srd (d : Reg) (r : BitVec 12) : Statement (.srd d r) := by
  intro word hw he
  have hb := bits_of (ns := [6, 5, 12]) (Option.some.inj he)
    ⟨by decide, by decide, by decide, d.isLt, by decide, r.isLt, trivial⟩
  unfold decode
  rw [show _ = 41#6 from hb 26 6 rfl]
  change decodeSys _ = _
  unfold decodeSys
  rw [show _ = 0#4 from hb 0 4 rfl]
  change ensure _ _ _ = _
  simp only [Instr.wf] at hw
  simp only [(hb 21 5 rfl).trans (ofNat_toNat d), show _ = 0#5 from hb 16 5 rfl, (hb 4 12 rfl).trans (ofNat_toNat r), zeros, List.all_cons, List.all_nil, BEq.rfl, Bool.and_self, ensure, ite_true, hw]

theorem swr (a : Reg) (r : BitVec 12) : Statement (.swr a r) := by
  intro word hw he
  have hb := bits_of (ns := [6, 5, 12, 4]) (Option.some.inj he)
    ⟨by decide, by decide, by decide, a.isLt, by decide, r.isLt, by decide, by decide, trivial⟩
  unfold decode
  rw [show _ = 41#6 from hb 26 6 rfl]
  change decodeSys _ = _
  unfold decodeSys
  rw [show _ = 1#4 from hb 0 4 rfl]
  change ensure _ _ _ = _
  simp only [Instr.wf] at hw
  simp only [show _ = 0#5 from hb 21 5 rfl, (hb 16 5 rfl).trans (ofNat_toNat a), (hb 4 12 rfl).trans (ofNat_toNat r), zeros, List.all_cons, List.all_nil, BEq.rfl, Bool.and_self, ensure, ite_true, hw]

theorem sset (a : Reg) (r : BitVec 12) : Statement (.sset a r) := by
  intro word hw he
  have hb := bits_of (ns := [6, 5, 12, 4]) (Option.some.inj he)
    ⟨by decide, by decide, by decide, a.isLt, by decide, r.isLt, by decide, by decide, trivial⟩
  unfold decode
  rw [show _ = 41#6 from hb 26 6 rfl]
  change decodeSys _ = _
  unfold decodeSys
  rw [show _ = 2#4 from hb 0 4 rfl]
  change ensure _ _ _ = _
  simp only [Instr.wf] at hw
  simp only [show _ = 0#5 from hb 21 5 rfl, (hb 16 5 rfl).trans (ofNat_toNat a), (hb 4 12 rfl).trans (ofNat_toNat r), zeros, List.all_cons, List.all_nil, BEq.rfl, Bool.and_self, ensure, ite_true, hw]

theorem sclr (a : Reg) (r : BitVec 12) : Statement (.sclr a r) := by
  intro word hw he
  have hb := bits_of (ns := [6, 5, 12, 4]) (Option.some.inj he)
    ⟨by decide, by decide, by decide, a.isLt, by decide, r.isLt, by decide, by decide, trivial⟩
  unfold decode
  rw [show _ = 41#6 from hb 26 6 rfl]
  change decodeSys _ = _
  unfold decodeSys
  rw [show _ = 3#4 from hb 0 4 rfl]
  change ensure _ _ _ = _
  simp only [Instr.wf] at hw
  simp only [show _ = 0#5 from hb 21 5 rfl, (hb 16 5 rfl).trans (ofNat_toNat a), (hb 4 12 rfl).trans (ofNat_toNat r), zeros, List.all_cons, List.all_nil, BEq.rfl, Bool.and_self, ensure, ite_true, hw]

theorem trap (n : BitVec 12) : Statement (.trap n) := by
  intro word hw he
  have hb := bits_of (ns := [6, 12, 4]) (Option.some.inj he)
    ⟨by decide, by decide, by decide, n.isLt, by decide, by decide, trivial⟩
  unfold decode
  rw [show _ = 41#6 from hb 26 6 rfl]
  change decodeSys _ = _
  unfold decodeSys
  rw [show _ = 4#4 from hb 0 4 rfl]
  change ensure _ _ _ = _
  simp only [Instr.wf] at hw
  simp only [show _ = 0#10 from hb 16 10 rfl, (hb 4 12 rfl).trans (ofNat_toNat n), zeros, List.all_cons, List.all_nil, BEq.rfl, Bool.and_self, ensure, ite_true, hw]

theorem eret : Statement .eret := by
  intro word _ he
  have hb := bits_of (ns := [6, 4]) (Option.some.inj he)
    ⟨by decide, by decide, by decide, by decide, trivial⟩
  unfold decode
  rw [show _ = 41#6 from hb 26 6 rfl]
  change decodeSys _ = _
  unfold decodeSys
  rw [show _ = 5#4 from hb 0 4 rfl]
  change ensure _ _ _ = _
  simp only [show _ = 0#22 from hb 4 22 rfl, zeros, List.all_cons, List.all_nil, BEq.rfl, Bool.and_self, ensure, ite_true]

theorem halt : Statement .halt := by
  intro word _ he
  have hb := bits_of (ns := [6, 4]) (Option.some.inj he)
    ⟨by decide, by decide, by decide, by decide, trivial⟩
  unfold decode
  rw [show _ = 41#6 from hb 26 6 rfl]
  change decodeSys _ = _
  unfold decodeSys
  rw [show _ = 6#4 from hb 0 4 rfl]
  change ensure _ _ _ = _
  simp only [show _ = 0#22 from hb 4 22 rfl, zeros, List.all_cons, List.all_nil, BEq.rfl, Bool.and_self, ensure, ite_true]

theorem tlbinv (a : Reg) (m : BitVec 12) : Statement (.tlbinv a m) := by
  intro word hw he
  have hb := bits_of (ns := [6, 5, 12, 4]) (Option.some.inj he)
    ⟨by decide, by decide, by decide, a.isLt, by decide, m.isLt, by decide, by decide, trivial⟩
  unfold decode
  rw [show _ = 41#6 from hb 26 6 rfl]
  change decodeSys _ = _
  unfold decodeSys
  rw [show _ = 7#4 from hb 0 4 rfl]
  change ensure _ _ _ = _
  simp only [Instr.wf] at hw
  simp only [show _ = 0#5 from hb 21 5 rfl, (hb 16 5 rfl).trans (ofNat_toNat a), (hb 4 12 rfl).trans (ofNat_toNat m), zeros, List.all_cons, List.all_nil, BEq.rfl, Bool.and_self, ensure, ite_true, hw]

theorem acct (d : Reg) (a : Reg) (n : BitVec 12) : Statement (.acct d a n) := by
  intro word hw he
  have hb := bits_of (ns := [6, 5, 5, 12, 4]) (Option.some.inj he)
    ⟨by decide, by decide, by decide, d.isLt, by decide, a.isLt, by decide, n.isLt, by decide, by decide, trivial⟩
  unfold decode
  rw [show _ = 41#6 from hb 26 6 rfl]
  change decodeSys _ = _
  unfold decodeSys
  rw [show _ = 8#4 from hb 0 4 rfl]
  change ensure _ _ _ = _
  simp only [Instr.wf, Bool.and_eq_true] at hw
  simp only [(hb 21 5 rfl).trans (ofNat_toNat d), (hb 16 5 rfl).trans (ofNat_toNat a), (hb 4 12 rfl).trans (ofNat_toNat n), ensure, ite_true, hw.1, hw.2]

theorem brk (n : BitVec 12) : Statement (.brk n) := by
  intro word _ he
  have hb := bits_of (ns := [6, 12]) (Option.some.inj he)
    ⟨by decide, by decide, by decide, n.isLt, trivial⟩
  unfold decode
  rw [show _ = 42#6 from hb 26 6 rfl]
  change decodeDbg _ = _
  unfold decodeDbg
  rw [show _ = 0#4 from hb 0 4 rfl]
  change ensure _ _ _ = _
  simp only [show _ = 0#10 from hb 16 10 rfl, (hb 4 12 rfl).trans (ofNat_toNat n), zeros, List.all_cons, List.all_nil, BEq.rfl, Bool.and_self, ensure, ite_true]

theorem wpset (a : Reg) (n : BitVec 3) : Statement (.wpset a n) := by
  intro word _ he
  have hb := bits_of (ns := [6, 5, 3, 4]) (Option.some.inj he)
    ⟨by decide, by decide, by decide, a.isLt, by decide, n.isLt, by decide, by decide, trivial⟩
  unfold decode
  rw [show _ = 42#6 from hb 26 6 rfl]
  change decodeDbg _ = _
  unfold decodeDbg
  rw [show _ = 1#4 from hb 0 4 rfl]
  change ensure _ _ _ = _
  simp only [show _ = 0#5 from hb 21 5 rfl, (hb 16 5 rfl).trans (ofNat_toNat a), show _ = 0#9 from hb 7 9 rfl, (hb 4 3 rfl).trans (ofNat_toNat n), zeros, List.all_cons, List.all_nil, BEq.rfl, Bool.and_self, ensure, ite_true]

theorem wpclr (n : BitVec 3) : Statement (.wpclr n) := by
  intro word _ he
  have hb := bits_of (ns := [6, 3, 4]) (Option.some.inj he)
    ⟨by decide, by decide, by decide, n.isLt, by decide, by decide, trivial⟩
  unfold decode
  rw [show _ = 42#6 from hb 26 6 rfl]
  change decodeDbg _ = _
  unfold decodeDbg
  rw [show _ = 2#4 from hb 0 4 rfl]
  change ensure _ _ _ = _
  simp only [show _ = 0#19 from hb 7 19 rfl, (hb 4 3 rfl).trans (ofNat_toNat n), zeros, List.all_cons, List.all_nil, BEq.rfl, Bool.and_self, ensure, ite_true]

theorem dstop (d : Reg) (a : Reg) (m : BitVec 12) : Statement (.dstop d a m) := by
  intro word hw he
  have hb := bits_of (ns := [6, 5, 5, 12, 4]) (Option.some.inj he)
    ⟨by decide, by decide, by decide, d.isLt, by decide, a.isLt, by decide, m.isLt, by decide, by decide, trivial⟩
  unfold decode
  rw [show _ = 42#6 from hb 26 6 rfl]
  change decodeDbg _ = _
  unfold decodeDbg
  rw [show _ = 3#4 from hb 0 4 rfl]
  change ensure _ _ _ = _
  simp only [Instr.wf] at hw
  simp only [(hb 21 5 rfl).trans (ofNat_toNat d), (hb 16 5 rfl).trans (ofNat_toNat a), (hb 4 12 rfl).trans (ofNat_toNat m), ensure, ite_true, hw]

theorem dstep (d : Reg) (a : Reg) : Statement (.dstep d a) := by
  intro word _ he
  have hb := bits_of (ns := [6, 5, 5, 4]) (Option.some.inj he)
    ⟨by decide, by decide, by decide, d.isLt, by decide, a.isLt, by decide, by decide, trivial⟩
  unfold decode
  rw [show _ = 42#6 from hb 26 6 rfl]
  change decodeDbg _ = _
  unfold decodeDbg
  rw [show _ = 4#4 from hb 0 4 rfl]
  change ensure _ _ _ = _
  simp only [(hb 21 5 rfl).trans (ofNat_toNat d), (hb 16 5 rfl).trans (ofNat_toNat a), show _ = 0#12 from hb 4 12 rfl, zeros, List.all_cons, List.all_nil, BEq.rfl, Bool.and_self, ensure, ite_true]

theorem dres (d : Reg) (a : Reg) (m : BitVec 12) : Statement (.dres d a m) := by
  intro word hw he
  have hb := bits_of (ns := [6, 5, 5, 12, 4]) (Option.some.inj he)
    ⟨by decide, by decide, by decide, d.isLt, by decide, a.isLt, by decide, m.isLt, by decide, by decide, trivial⟩
  unfold decode
  rw [show _ = 42#6 from hb 26 6 rfl]
  change decodeDbg _ = _
  unfold decodeDbg
  rw [show _ = 5#4 from hb 0 4 rfl]
  change ensure _ _ _ = _
  simp only [Instr.wf] at hw
  simp only [(hb 21 5 rfl).trans (ofNat_toNat d), (hb 16 5 rfl).trans (ofNat_toNat a), (hb 4 12 rfl).trans (ofNat_toNat m), ensure, ite_true, hw]

/-- The two fields of a deferred word's primary lie as one. -/
theorem deferred_pack (p a e : Nat) (l : List (Nat × Nat)) : pack ((p + 2, a) :: (p, e) :: l) = pack ((p, 4 * a + e) :: l) := by
  refine congrArg (BitVec.ofNat 32) ?_
  rw [List.foldr_cons, List.foldr_cons, List.foldr_cons]
  ring

theorem deferredInstruction (e : BitVec 2) (f : BitVec 20) (i : BitVec 6) : Statement (.deferredInstruction e f i) := by
  intro word hw he
  have hb := bits_of (ns := [6, 20, 6]) ((deferred_pack 26 15 e.toNat [(6, f.toNat), (0, i.toNat)]).symm.trans (Option.some.inj he))
    ⟨by decide, by omega, by decide, f.isLt, by decide, i.isLt, trivial⟩
  have hc := bits_of (ns := [4, 2, 20, 6]) (Option.some.inj he)
    ⟨by decide, by decide, by decide, e.isLt, by decide, f.isLt, by decide, i.isLt, trivial⟩
  have h1 := (hc 26 2 rfl).trans (ofNat_toNat e)
  have h2 := (hc 6 20 rfl).trans (ofNat_toNat f)
  have h3 := (hc 0 6 rfl).trans (ofNat_toNat i)
  obtain rfl | rfl | rfl | rfl : e = 0#2 ∨ e = 1#2 ∨ e = 2#2 ∨ e = 3#2 := by
    clear hb hc h1 he hw
    revert e
    decide
  · unfold decode
    rw [show _ = 60#6 from hb 26 6 rfl]
    change Except.ok _ = _
    rw [h1, h2, h3]
  · unfold decode
    rw [show _ = 61#6 from hb 26 6 rfl]
    change Except.ok _ = _
    rw [h1, h2, h3]
  · unfold decode
    rw [show _ = 62#6 from hb 26 6 rfl]
    change Except.ok _ = _
    rw [h1, h2, h3]
  · cases hw

theorem iterationRetire (c : Nat) : Statement (.iterationRetire c) := by
  intro _ _ he
  cases he

theorem asyncTrapDelivery (c : Nat) : Statement (.asyncTrapDelivery c) := by
  intro _ _ he
  cases he

theorem matrixCommandComplete (c : Nat) : Statement (.matrixCommandComplete c) := by
  intro _ _ he
  cases he

theorem carryRouterMerge (i : Nat) (j : Nat) : Statement (.carryRouterMerge i j) := by
  intro _ _ he
  cases he

theorem carryRowArrival (i : Nat) : Statement (.carryRowArrival i) := by
  intro _ _ he
  cases he

theorem qgoCopy : Statement .qgoCopy := by
  intro _ _ he
  cases he

theorem qgoTensor : Statement .qgoTensor := by
  intro _ _ he
  cases he

theorem qgoMcast : Statement .qgoMcast := by
  intro _ _ he
  cases he

theorem qgoMcwrite : Statement .qgoMcwrite := by
  intro _ _ he
  cases he

theorem qgoFill : Statement .qgoFill := by
  intro _ _ he
  cases he

theorem qgoSubscribe : Statement .qgoSubscribe := by
  intro _ _ he
  cases he

theorem qgoPull : Statement .qgoPull := by
  intro _ _ he
  cases he

theorem registerWrite (n : BitVec 2) (v : Word) : Statement (.registerWrite n v) := by
  intro _ _ he
  cases he

theorem copyJobComplete (c : Nat) (i : Nat) : Statement (.copyJobComplete c i) := by
  intro _ _ he
  cases he

theorem copyJobFail (c : Nat) (i : Nat) : Statement (.copyJobFail c i) := by
  intro _ _ he
  cases he

theorem ringStep (cl : Nat) : Statement (.ringStep cl) := by
  intro _ _ he
  cases he

theorem sliceRequest (i : Nat) (merge : Bool) : Statement (.sliceRequest i merge) := by
  intro _ _ he
  cases he

theorem remoteApertureRequest (i : Nat) : Statement (.remoteApertureRequest i) := by
  intro _ _ he
  cases he

theorem loadResponse (i : Nat) : Statement (.loadResponse i) := by
  intro _ _ he
  cases he

theorem postedStoreAck (c : Nat) (e : Nat) : Statement (.postedStoreAck c e) := by
  intro _ _ he
  cases he

theorem postedStoreRefusal (c : Nat) (e : Nat) : Statement (.postedStoreRefusal c e) := by
  intro _ _ he
  cases he

theorem journalTimeout (c : Nat) (e : Nat) (lost : Bool) : Statement (.journalTimeout c e lost) := by
  intro _ _ he
  cases he

theorem pageWalkComplete (c : Nat) : Statement (.pageWalkComplete c) := by
  intro _ _ he
  cases he

theorem tlbInvalidationRequest (i : Nat) : Statement (.tlbInvalidationRequest i) := by
  intro _ _ he
  cases he

theorem tlbInvalidationAck (i : Nat) : Statement (.tlbInvalidationAck i) := by
  intro _ _ he
  cases he

theorem wbRetry (c : Nat) : Statement (.wbRetry c) := by
  intro _ _ he
  cases he

theorem wbTimeout (c : Nat) : Statement (.wbTimeout c) := by
  intro _ _ he
  cases he

theorem peerRequest (p : Nat) (addr : Nat) (size : Nat) (fn : Nat) (data : Word) (cmp : Word) : Statement (.peerRequest p addr size fn data cmp) := by
  intro _ _ he
  cases he

theorem hostPostedWrite (fn : Nat) (off : Nat) (data : List Byte) : Statement (.hostPostedWrite fn off data) := by
  intro _ _ he
  cases he

theorem hostRead (fn : Nat) (off : Nat) (n : Nat) : Statement (.hostRead fn off n) := by
  intro _ _ he
  cases he

theorem hostAtomicop (fn : Nat) (off : Nat) (op : Nat) (size : Nat) (operand : Word) (compare : Word) : Statement (.hostAtomicop fn off op size operand compare) := by
  intro _ _ he
  cases he

theorem queuePublish (fn : Nat) (q : Nat) : Statement (.queuePublish fn q) := by
  intro _ _ he
  cases he

theorem queuePoll (q : Nat) : Statement (.queuePoll q) := by
  intro _ _ he
  cases he

theorem reservationTimeout (q : Nat) : Statement (.reservationTimeout q) := by
  intro _ _ he
  cases he

theorem dealChunk (pos : Nat) : Statement (.dealChunk pos) := by
  intro _ _ he
  cases he

theorem cardComplete (n : Nat) : Statement (.cardComplete n) := by
  intro _ _ he
  cases he

theorem waiterRecheck (c : Nat) : Statement (.waiterRecheck c) := by
  intro _ _ he
  cases he

theorem activityForecastUpdate : Statement .activityForecastUpdate := by
  intro _ _ he
  cases he

theorem reckoningFold : Statement .reckoningFold := by
  intro _ _ he
  cases he

theorem clockStep (mhz : Nat) : Statement (.clockStep mhz) := by
  intro _ _ he
  cases he

theorem phaseStart (ctx : Nat) : Statement (.phaseStart ctx) := by
  intro _ _ he
  cases he

theorem phaseEnd (ctx : Nat) : Statement (.phaseEnd ctx) := by
  intro _ _ he
  cases he

theorem sleepDeadline (c : Nat) : Statement (.sleepDeadline c) := by
  intro _ _ he
  cases he

theorem clusterStopArrival (c : Nat) : Statement (.clusterStopArrival c) := by
  intro _ _ he
  cases he

theorem stopTime (n : Nat) : Statement (.stopTime n) := by
  intro _ _ he
  cases he

theorem contextSave (n : Nat) : Statement (.contextSave n) := by
  intro _ _ he
  cases he

theorem watchdogExpiry (n : Nat) : Statement (.watchdogExpiry n) := by
  intro _ _ he
  cases he

theorem saveBoundExpiry (n : Nat) : Statement (.saveBoundExpiry n) := by
  intro _ _ he
  cases he

theorem uncorrectableError (what : Nat) (a : Nat) (code : Nat) (unit : Nat) : Statement (.uncorrectableError what a code unit) := by
  intro _ _ he
  cases he

theorem linkRetryExhausted (n : Nat) (link : Nat) : Statement (.linkRetryExhausted n link) := by
  intro _ _ he
  cases he

theorem adxusLinkFailure (link : Nat) (lost : BitVec 64) (ctxs : List Nat) : Statement (.adxusLinkFailure link lost ctxs) := by
  intro _ _ he
  cases he

theorem hostLinkFailure (ctxs : List Nat) : Statement (.hostLinkFailure ctxs) := by
  intro _ _ he
  cases he

theorem powerOnReset : Statement .powerOnReset := by
  intro _ _ he
  cases he

theorem firmwareUpdate (store : List Word32) (table : List Word) (translator : List Byte) (build : Nat) (wmin : Nat) (svn : Nat) (sigs : List (BitVec 768)) : Statement (.firmwareUpdate store table translator build wmin svn sigs) := by
  intro _ _ he
  cases he

theorem updateTakesEffect : Statement .updateTakesEffect := by
  intro _ _ he
  cases he

theorem accWrite (fn : Nat) (v : BitVec 256) : Statement (.accWrite fn v) := by
  intro _ _ he
  cases he

theorem accept (fn : Nat) (ops : List Word) : Statement (.accept fn ops) := by
  intro _ _ he
  cases he

theorem ctxload (fn : Nat) (ops : List Word) : Statement (.ctxload fn ops) := by
  intro _ _ he
  cases he

theorem ctxend (fn : Nat) (ops : List Word) : Statement (.ctxend fn ops) := by
  intro _ _ he
  cases he

theorem ctxstop (fn : Nat) (ops : List Word) : Statement (.ctxstop fn ops) := by
  intro _ _ he
  cases he

theorem ctxresume (fn : Nat) (ops : List Word) : Statement (.ctxresume fn ops) := by
  intro _ _ he
  cases he

theorem ckpt (fn : Nat) (ops : List Word) : Statement (.ckpt fn ops) := by
  intro _ _ he
  cases he

theorem rollback (fn : Nat) (ops : List Word) : Statement (.rollback fn ops) := by
  intro _ _ he
  cases he

theorem devckpt (fn : Nat) (ops : List Word) : Statement (.devckpt fn ops) := by
  intro _ _ he
  cases he

theorem keyreg (fn : Nat) (ops : List Word) : Statement (.keyreg fn ops) := by
  intro _ _ he
  cases he

theorem keyrev (fn : Nat) (ops : List Word) : Statement (.keyrev fn ops) := by
  intro _ _ he
  cases he

theorem agassign (fn : Nat) (ops : List Word) : Statement (.agassign fn ops) := by
  intro _ _ he
  cases he

theorem agweight (fn : Nat) (ops : List Word) : Statement (.agweight fn ops) := by
  intro _ _ he
  cases he

theorem acctsnap (fn : Nat) (ops : List Word) : Statement (.acctsnap fn ops) := by
  intro _ _ he
  cases he

theorem objload (fn : Nat) (ops : List Word) (pl : Placement) : Statement (.objload fn ops pl) := by
  intro _ _ he
  cases he

theorem objunload (fn : Nat) (ops : List Word) : Statement (.objunload fn ops) := by
  intro _ _ he
  cases he

theorem qset (fn : Nat) (ops : List Word) : Statement (.qset fn ops) := by
  intro _ _ he
  cases he

theorem bargrant (fn : Nat) (ops : List Word) : Statement (.bargrant fn ops) := by
  intro _ _ he
  cases he

theorem futmake (fn : Nat) (ops : List Word) : Statement (.futmake fn ops) := by
  intro _ _ he
  cases he

theorem futput (fn : Nat) (ops : List Word) : Statement (.futput fn ops) := by
  intro _ _ he
  cases he

theorem futfree (fn : Nat) (ops : List Word) : Statement (.futfree fn ops) := by
  intro _ _ he
  cases he

theorem wdset (fn : Nat) (ops : List Word) : Statement (.wdset fn ops) := by
  intro _ _ he
  cases he

theorem getVersion (req : List Byte) : Statement (.getVersion req) := by
  intro _ _ he
  cases he

theorem getCapabilities (req : List Byte) : Statement (.getCapabilities req) := by
  intro _ _ he
  cases he

theorem negotiateAlgorithms (req : List Byte) : Statement (.negotiateAlgorithms req) := by
  intro _ _ he
  cases he

theorem getDigests (req : List Byte) : Statement (.getDigests req) := by
  intro _ _ he
  cases he

theorem getCertificate (req : List Byte) : Statement (.getCertificate req) := by
  intro _ _ he
  cases he

theorem challenge (req : List Byte) : Statement (.challenge req) := by
  intro _ _ he
  cases he

theorem getMeasurements (req : List Byte) : Statement (.getMeasurements req) := by
  intro _ _ he
  cases he

theorem spdmOtherRequest (req : List Byte) : Statement (.spdmOtherRequest req) := by
  intro _ _ he
  cases he

theorem nonInstructionWord (w : Word32) (cause : Cause) : Statement (.nonInstructionWord w cause) := by
  intro _ _ he
  cases he

theorem transferPhaseSlot (ctx : Nat) : Statement (.transferPhaseSlot ctx) := by
  intro _ _ he
  cases he

theorem hostCompletion (i : Nat) (rejected : Bool) : Statement (.hostCompletion i rejected) := by
  intro _ _ he
  cases he

theorem peerResponse (i : Nat) : Statement (.peerResponse i) := by
  intro _ _ he
  cases he

theorem replicaEviction (cl : Nat) (line : Nat) : Statement (.replicaEviction cl line) := by
  intro _ _ he
  cases he

theorem watchdogRewrite (n : Nat) : Statement (.watchdogRewrite n) := by
  intro _ _ he
  cases he

theorem correctedError : Statement .correctedError := by
  intro _ _ he
  cases he

theorem loaderBeadArrival (c : Nat) (i : Nat) : Statement (.loaderBeadArrival c i) := by
  intro _ _ he
  cases he

theorem mailboxUnknownCommand (fn : Nat) (code : BitVec 16) : Statement (.mailboxUnknownCommand fn code) := by
  intro _ _ he
  cases he

theorem capwWrite (fn : Nat) (v : BitVec 16) : Statement (.capwWrite fn v) := by
  intro _ _ he
  cases he

theorem contextDescriptorChange (n : Nat) (image : List Byte) : Statement (.contextDescriptorChange n image) := by
  intro _ _ he
  cases he

end Sys2Proof.Laws.Encoding
end

