-- ==== Sys2Proof/Laws/Premises.lean ====
section
/-! SUPPORT. The premises of the statements as conjunctions, which can be decided on a concrete state. -/

namespace Sys2Proof.Claims

open Sys2Proof.Machine

theorem quiet_iff (k : Core) : k.quiet ↔ k.gang = none ∧ k.wpHit = none ∧ k.stepping = none ∧ k.routine = none := Iff.rfl

theorem alone_iff (s : State) : Alone s ↔ s.core.quiet ∧ s.core.meshBarred = false :=
  ⟨fun h => ⟨h.quiet, h.mesh⟩, fun h => ⟨h.1, h.2⟩⟩

theorem member_iff (s : State) (g : Gang) :
    Member s g ↔
      s.core.gang = some g ∧ s.cur ∈ g.members ∧ s.core.routine = none ∧ s.core.stepping = none ∧ s.core.wpHit = none ∧
        s.core.meshBarred = false :=
  ⟨fun h => ⟨h.gang, h.inside, h.routine, h.step, h.hit, h.mesh⟩, fun h => ⟨h.1, h.2.1, h.2.2.1, h.2.2.2.1, h.2.2.2.2.1, h.2.2.2.2.2⟩⟩

theorem own_iff (s : State) (acc : Access) (va n : Nat) :
    Own s acc va n ↔
      va / 2 ^ 56 = 15 ∧ va % 2 ^ 56 + n ≤ s.core.scratchSize ∧ va % 2 ^ 56 + n ≤ 2 ^ 19 ∧
        s.core.wpMatch s.cur acc true (va % 2 ^ 56) n = none ∧ s.poisonIn (scratchKey s.cur (va % 2 ^ 56)) n = false :=
  ⟨fun h => ⟨h.aperture, h.size, h.room, h.watch, h.clean⟩, fun h => ⟨h.1, h.2.1, h.2.2.1, h.2.2.2.1, h.2.2.2.2⟩⟩

theorem settled_iff (s : State) :
    Settled s ↔
      s.core.overlapped = false ∧ s.core.sbuf = [] ∧ s.core.mqueue = [] ∧ s.core.jobs = [] ∧ s.core.journal = [] ∧
        s.core.pend = [] ∧ s.storesPerformed = true :=
  ⟨fun h => ⟨h.loop, h.buffer, h.queue, h.jobs, h.journal, h.loads, h.stores⟩,
    fun h => ⟨h.1, h.2.1, h.2.2.1, h.2.2.2.1, h.2.2.2.2.1, h.2.2.2.2.2.1, h.2.2.2.2.2.2⟩⟩

theorem calm_iff (s : State) : Calm s ↔ s.core.overlapped = false ∧ s.core.sbuf = [] ∧ s.core.outq = [] :=
  ⟨fun h => ⟨h.loop, h.buffer, h.out⟩, fun h => ⟨h.1, h.2.1, h.2.2⟩⟩

theorem image_iff (s : State) (va n : Nat) :
    Image s va n ↔
      va / 2 ^ 56 = 15 ∧ va % 2 ^ 56 + n ≤ s.core.scratchSize ∧ va % 2 ^ 56 + n ≤ 2 ^ 19 ∧ s.core.wp = [] ∧
        s.poisonIn (ownKey s va) n = false ∧ (∀ r ∈ s.core.outq, r.place ≠ .scratch s.cur) ∧
        (∀ r ∈ s.hostq ++ s.flight, r.src = s.cur → r.place ≠ .scratch s.cur) ∧ s.core.imgOrder = [] ∧ s.core.imgGot = [] :=
  ⟨fun h =>
      ⟨h.aperture, h.size, h.room, h.watch, h.clean, fun r hr => h.away r (.inl hr),
        fun r hr hc => h.away r (.inr ⟨List.mem_append.1 hr, hc⟩), h.order, h.got⟩,
    fun ⟨a, b, c, d, e, f, g, i, j⟩ =>
      ⟨a, b, c, d, e, fun r hr => hr.elim (f r) fun q => g r (List.mem_append.2 q.1) q.2, i, j⟩⟩

theorem inContext_iff (s : State) (n : Nat) (x : Context) :
    InContext s n x ↔ s.core.context = some n ∧ tfind n s.contexts = some x :=
  ⟨fun h => ⟨h.core, h.context⟩, fun h => ⟨h.1, h.2⟩⟩

theorem bare_iff (s : State) : Bare s ↔ s.flight = [] ∧ s.hostq = [] ∧ s.poisoned = [] ∧ s.core.wp = [] :=
  ⟨fun h => ⟨h.flight, h.order, h.poison, h.watch⟩, fun h => ⟨h.1, h.2.1, h.2.2.1, h.2.2.2⟩⟩

theorem lone_iff (s : State) (r : Req) :
    Lone s r ↔ s.flight = [r] ∧ s.fallen r.ctx r.src = false ∧ s.poisoned = [] :=
  ⟨fun h => ⟨h.flight, h.runs, h.poison⟩, fun h => ⟨h.1, h.2.1, h.2.2⟩⟩

theorem ready_iff (s : State) : Ready s ↔ s.bootst.getLsbD 63 = true ∧ s.command = none ∧ s.accepted = true :=
  ⟨fun h => ⟨h.booted, h.idle, h.accepted⟩, fun h => ⟨h.1, h.2.1, h.2.2⟩⟩

theorem issues_iff (s : State) :
    Issues s ↔
      s.core.runs = true ∧ s.engineLive s.cur = true ∧ s.core.waiting = false ∧ s.core.outq = [] ∧ s.core.ending = none ∧
        s.core.hitDue = false ∧ s.core.nextCause = none ∧ s.core.preparing = false ∧ s.core.routine = none ∧ s.core.gang = none :=
  ⟨fun h => ⟨h.runs, h.live, h.waiting, h.outq, h.ending, h.due, h.cause, h.preparing, h.routine, h.gang⟩,
    fun ⟨a, b, c, d, e, f, g, p, i, j⟩ => ⟨a, b, c, d, e, f, g, p, i, j⟩⟩

end Sys2Proof.Claims
end

