-- ==== Sys2Proof/Tests/Slice0.lean ====
section
/-! SUPPORT. Tests: terms that no word stands for, words written out bit by bit, states that meet the premises of every
statement, and single steps whose results stand in the manual or were worked out by hand. -/

namespace Sys2Proof.Tests

open Sys2Proof.Machine

set_option Elab.async false

/-! ## Small states -/

/-- A core in a unit of work, in user mode, with word 0x12345678 in issue. -/
def core0 : Core :=
  { context := some 0, pc := 0x0F00000000001000#64, trapvec := 0x0F00000000002000#64, word := 0x12345678#32,
    unit := some { card := 1, ident := 3, stop := 5, argBase := 0x1000#64, argSize := 16 },
    sregs := [(1, Ver.one 5#64), (2, Ver.one 0x0F00000000000100#64), (3, Ver.one 3#64)] }

/-- A context on cluster 0 with eight futures. -/
def ctx0 : Context :=
  { desc := { ctx := 0, agency := 5, root := 0#64, part := 1#160, acn := 0, keys := 1#256, actab := 0, acthr := 256, nqlog := 4,
              nqbase := 0x100000, futbase := 0x200000, futn := 8, tvec := 0x0F00000000002000#64 },
    freeFutures := [0,1,2,3], futures := 8 }

def base : State := { core := core0, contexts := [(0, ctx0)], clusters := [(0, { context := some 0 })] }

/-- That machine with its core changed. -/
def mk (f : Core → Core) : State := { base with core := f core0 }

def withCore (s : State) (f : Core → Core) : State := { s with core := f s.core }

/-- Memory with numbers written at addresses. -/
def cells (l : List (Nat × Nat × Nat)) : List Host.Cell := l.foldl (fun m x => memWrite m x.1 x.2.1 x.2.2) []

/-- The same in the scratchpad of core 0. -/
def pad (l : List (Nat × Nat × Nat)) : List Host.Cell := cells (l.map fun x => (scratchKey 0 x.1, x.2))

/-- A step gave a next state with p. -/
def next (o : Out) (p : State → Bool) : Bool := match o with | .next t => p t | _ => false

/-- A step gave a next state with value x in name d. -/
def gives (o : Out) (d : Reg) (x : Word) : Bool := next o fun t => decide (t.core.sval d = x)

/-- A step entered the handler with a cause. -/
def traps (o : Out) (c : Nat) : Bool :=
  next o fun t => decide (t.core.trapcause = BitVec.ofNat 64 c ∧ t.core.pc = 0x0F00000000002000#64)

/-! ## Premises: integer operations and control -/

def three (x y z : Word) : State := mk fun k => { k with sregs := [(1, Ver.one x), (2, Ver.one y), (4, Ver.one z)] }

def lastLoop : LoopRec := { start := 0x0F00000000000F00#64, last := 0x0F00000000001100#64, count := 3, window := 2, iter := 1 }

def inLoop : State := mk fun k => { k with loops := [lastLoop] }

theorem test_premises_int_distance :
    (∃ v, Claims.intResult base (.clz 4#5 1#5 1#2) = some (Claims.reads [(1#5, 1#2)] 4#5, 4#5, v)) ∧
    base.core.distsOk (Claims.reads [(1#5, 1#2)] 4#5) = false :=
  ⟨⟨_, rfl⟩,
    by decide +kernel⟩

theorem test_premises_int_uncarried :
    (∃ v, Claims.intResult inLoop (.clz 4#5 1#5 0#2) = some (Claims.reads [(1#5, 0#2)] 4#5, 4#5, v)) ∧
    inLoop.core.distsOk (Claims.reads [(1#5, 0#2)] 4#5) = true ∧
    inLoop.core.writesOk (Claims.reads [(1#5, 0#2)] 4#5) = false :=
  ⟨⟨_, rfl⟩,
    by decide +kernel⟩

theorem test_premises_int_result :
    (∃ v, Claims.intResult (three 0x8000000000000000#64 0xFFFFFFFFFFFFFFFF#64 0#64) (.div 4#5 1#5 0#2 2#5 0#2) = some (Claims.reads [(1#5, 0#2), (2#5, 0#2)] 4#5, 4#5, v)) ∧
    (three 0x8000000000000000#64 0xFFFFFFFFFFFFFFFF#64 0#64).core.ready (Claims.reads [(1#5, 0#2), (2#5, 0#2)] 4#5) = true ∧
    Claims.Alone (three 0x8000000000000000#64 0xFFFFFFFFFFFFFFFF#64 0#64) :=
  ⟨⟨_, rfl⟩,
    by decide +kernel,
    (Claims.alone_iff _).mpr ⟨(Claims.quiet_iff _).mpr (by decide +kernel), by decide +kernel⟩⟩

theorem test_premises_int_result_s0 :
    (∃ v, Claims.intResult base (.add 0#5 1#5 0#2 2#5 0#2) = some (Claims.reads [(1#5, 0#2), (2#5, 0#2)] 0#5, 0#5, v)) ∧
    base.core.ready (Claims.reads [(1#5, 0#2), (2#5, 0#2)] 0#5) = true ∧
    Claims.Alone base :=
  ⟨⟨_, rfl⟩,
    by decide +kernel,
    (Claims.alone_iff _).mpr ⟨(Claims.quiet_iff _).mpr (by decide +kernel), by decide +kernel⟩⟩

theorem test_premises_branch_not_taken :
    ((∃ t, Claims.transfer base (.beqz 1#5 0#2 8#16) = some t ∧ base.core.ready t.names = true ∧ ¬t.taken)) ∧
    Claims.Alone base :=
  ⟨⟨_, rfl, by decide +kernel, by show ¬(base.src 1#5 0).toInt = 0; decide +kernel⟩,
    (Claims.alone_iff _).mpr ⟨(Claims.quiet_iff _).mpr (by decide +kernel), by decide +kernel⟩⟩

theorem test_premises_branch_taken :
    ((∃ t, Claims.transfer base (.bodd 1#5 0#2 8#16) = some t ∧ base.core.ready t.names = true ∧ t.taken)) ∧
    Claims.Alone base ∧
    (∀ x, ¬Claims.outside base x) :=
  ⟨⟨_, rfl, by decide +kernel, by show (base.src 1#5 0).getLsbD 0 = true; decide +kernel⟩,
    (Claims.alone_iff _).mpr ⟨(Claims.quiet_iff _).mpr (by decide +kernel), by decide +kernel⟩,
    by rintro x ⟨r, h, -⟩; exact absurd h (by have : base.core.liveLoop = none := by decide +kernel
                                              rw [this]; simp)⟩

theorem test_premises_jump_outside :
    ((∃ t, Claims.transfer inLoop (.jmp 0x41#26) = some t ∧ inLoop.core.ready t.names = true ∧ t.taken ∧ Claims.outside inLoop t.target)) ∧
    Claims.Alone inLoop :=
  ⟨⟨_, rfl, by decide +kernel, trivial, lastLoop, by decide +kernel, by decide +kernel, by decide +kernel⟩,
    (Claims.alone_iff _).mpr ⟨(Claims.quiet_iff _).mpr (by decide +kernel), by decide +kernel⟩⟩

theorem test_premises_jump_to_endit :
    ((∃ t, Claims.transfer inLoop (.jmp 0x40#26) = some t ∧ inLoop.core.ready t.names = true ∧ t.taken ∧ ¬Claims.outside inLoop t.target)) ∧
    Claims.Alone inLoop :=
  ⟨⟨_, rfl, by decide +kernel, trivial, by
      rintro ⟨r, h, -, o⟩
      have : some lastLoop = some r := (by decide +kernel : inLoop.core.liveLoop = some lastLoop).symm.trans h
      cases this
      revert o; decide +kernel⟩,
    (Claims.alone_iff _).mpr ⟨(Claims.quiet_iff _).mpr (by decide +kernel), by decide +kernel⟩⟩

def outerLoop : LoopRec := { start := 0x0F00000000001004#64, last := 0x0F00000000001000#64, count := 3, window := 1, iter := 1 }

def nested : State := mk fun k => { k with loops := [outerLoop, { outerLoop with iter := 7 }], x1 := 11#64, x2 := 12#64 }

def full : State := mk fun k => { k with sregs := [(1, Ver.one 0xFFFFFFFF#64), (3, Ver.one 0xFFFFFFFF#64)] }

theorem test_premises_lcar_depth :
    Claims.Alone base ∧
    base.core.loading = false ∧
    base.core.ready { ss := [(1#5, 0), (3#5, 0)] } = true ∧
    (¬(1 ≤ (0#11).toNat ∧ (0#11).toNat ≤ 8)) ∧
    (¬(1 ≤ (9#11).toNat ∧ (9#11).toNat ≤ 8)) :=
  ⟨(Claims.alone_iff _).mpr ⟨(Claims.quiet_iff _).mpr (by decide +kernel), by decide +kernel⟩,
    by decide +kernel⟩

theorem test_premises_lcar_overflow :
    Claims.Alone full ∧
    full.core.loading = false ∧
    full.core.ready { ss := [(1#5, 0), (3#5, 0)] } = true ∧
    (¬Claims.fits full.core (Claims.declared full 3#5 1#5 0#2 8#11)) :=
  ⟨(Claims.alone_iff _).mpr ⟨(Claims.quiet_iff _).mpr (by decide +kernel), by decide +kernel⟩,
    by decide +kernel,
    by decide +kernel,
    by unfold Claims.fits; decide +kernel⟩

theorem test_premises_lcar_fits :
    Claims.fits base.core (Claims.declared base 3#5 1#5 0#2 8#11) ∧
    Claims.fits base.core (Claims.declared base 3#5 1#5 0#2 1#11) :=
  ⟨by unfold Claims.fits; decide +kernel,
    by unfold Claims.fits; decide +kernel⟩

theorem test_premises_loop_reads :
    Claims.Alone nested ∧
    nested.core.loading = false ∧
    (∃ v, Claims.loopRead nested (.itx 4#5 2#11) = some (Claims.reads [] 4#5, 4#5, v)) ∧
    (∃ v, Claims.loopRead nested (.lstat 4#5 2#11) = some (Claims.reads [] 4#5, 4#5, v)) ∧
    nested.core.ready (Claims.reads [] 4#5) = true ∧
    (∃ v, Claims.loopRead nested (.movd 4#5 1#5 0#3) = some ({ ss := [(1#5, 0)], ds := [4#5] }, 4#5, v)) ∧
    nested.core.ready { ss := [(1#5, 0)], ds := [4#5] } = true :=
  ⟨(Claims.alone_iff _).mpr ⟨(Claims.quiet_iff _).mpr (by decide +kernel), by decide +kernel⟩,
    by decide +kernel,
    ⟨_, rfl⟩,
    ⟨_, rfl⟩,
    by decide +kernel,
    ⟨_, rfl⟩,
    by decide +kernel⟩

theorem test_premises_loop_ends :
    Claims.Alone nested ∧
    nested.core.loading = false ∧
    nested.core.loops = [outerLoop, { outerLoop with iter := 7 }] ∧
    nested.core.ready { ss := [(1#5, 0)] } = true ∧
    nested.core.pc = outerLoop.last ∧
    [outerLoop] ≠ [] :=
  ⟨(Claims.alone_iff _).mpr ⟨(Claims.quiet_iff _).mpr (by decide +kernel), by decide +kernel⟩,
    by decide +kernel⟩

theorem test_premises_endit_elsewhere :
    inLoop.core.loops = [lastLoop] ∧
    inLoop.core.pc ≠ lastLoop.last ∧
    Claims.Alone inLoop ∧
    inLoop.core.loading = false :=
  ⟨by decide +kernel,
    by decide +kernel,
    (Claims.alone_iff _).mpr ⟨(Claims.quiet_iff _).mpr (by decide +kernel), by decide +kernel⟩,
    by decide +kernel⟩

def atLoop (c : Carry) : State := { mk (fun k => { k with lcar := some c }) with mem := pad [(0x1008, 0x41000000, 4)] }

theorem test_premises_loop_entry :
    Claims.Alone (atLoop { scalars := 0x6#32, vectors := 0x2#32, depth := 3 }) ∧
    (atLoop { scalars := 0x6#32, vectors := 0x2#32, depth := 3 }).core.loading = false ∧
    (atLoop { scalars := 0x6#32, vectors := 0x2#32, depth := 3 }).core.ready { ss := [(1#5, 0)] } = true ∧
    (atLoop { scalars := 0x6#32, vectors := 0x2#32, depth := 3 }).core.loops.length < 2 ∧
    ((match (atLoop { scalars := 0x6#32, vectors := 0x2#32, depth := 3 }).fetchAt (0x0F00000000001000 + 4 * (2#11).toNat) with | .word w u => decide (w = 0x41000000#32 ∧ u.core.gang = none ∧ u.core.wpHit = none ∧ u.core.stepping = none ∧ u.core.routine = none) | _ => false) = true) ∧
    (atLoop { scalars := 0x6#32, vectors := 0x2#32, depth := 3 }).core.carryFull { scalars := 0x6#32, vectors := 0x2#32, depth := 3 } = true ∧
    Claims.enditAt (atLoop { scalars := 0x6#32, vectors := 0x2#32, depth := 3 }) ((atLoop { scalars := 0x6#32, vectors := 0x2#32, depth := 3 }).core.pc.toNat + 4 * (2#11).toNat) ∧
    (atLoop { scalars := 0x6#32, vectors := 0x2#32, depth := 3 }).core.wp = [] ∧
    (atLoop { scalars := 0x6#32, vectors := 0x2#32, depth := 3 }).core.carryFull ((atLoop { scalars := 0x6#32, vectors := 0x2#32, depth := 3 }).core.lcar.getD {}) = true ∧
    ((atLoop {}).src 0#5 0).toNat % 2 ^ 32 = 0 ∧
    ((atLoop {}).src 1#5 0).toNat % 2 ^ 32 ≠ 0 :=
  ⟨(Claims.alone_iff _).mpr ⟨(Claims.quiet_iff _).mpr (by decide +kernel), by decide +kernel⟩,
    by decide +kernel,
    by decide +kernel,
    by decide +kernel,
    by decide +kernel,
    by decide +kernel,
    by unfold Claims.enditAt; decide +kernel,
    by decide +kernel⟩

def ending (e : Ending) (l : List LoopRec) : State := mk fun k => { k with loops := l, ending := some e }

theorem test_premises_retires :
    ((ending .endit [lastLoop]).focus 0).core.wp = [] ∧
    (((ending .endit [lastLoop]).focus 0).core.gang = none ∧ ((ending .endit [lastLoop]).focus 0).core.wpHit = none ∧ ((ending .endit [lastLoop]).focus 0).core.stepping = none ∧ ((ending .endit [lastLoop]).focus 0).core.routine = none) ∧
    ((ending .endit [lastLoop]).focus 0).core.ending = some .endit ∧
    ((ending .endit [lastLoop]).focus 0).core.loops = [lastLoop] ∧
    ((ending .endit [lastLoop]).focus 0).mayRetire = true ∧
    lastLoop.iter + 1 < lastLoop.count ∧
    { lastLoop with iter := 2 }.count ≤ { lastLoop with iter := 2 }.iter + 1 :=
  by decide +kernel

theorem test_premises_retires_left :
    ((ending (.brk 2) [lastLoop, outerLoop]).focus 0).core.ending = some (.brk 2) ∧
    ((ending (.brk 2) [lastLoop, outerLoop]).focus 0).core.loops = [lastLoop, outerLoop] ∧
    ((ending (.brk 2) [lastLoop, outerLoop]).focus 0).mayRetire = true ∧
    ((ending (.brk 1) [lastLoop]).focus 0).mayRetire = true :=
  by decide +kernel

def younger : Iter := { pc := 0x0F00000000000F08#64, flags := 1#64 }

theorem test_premises_retires_younger :
    (((withCore (ending .endit [lastLoop]) fun k => { k with young := [younger] }).focus 0).core.young = [younger]) ∧
    ((withCore (ending .endit [lastLoop]) fun k => { k with young := [younger] }).focus 0).core.ending = some .endit ∧
    ((withCore (ending .endit [lastLoop]) fun k => { k with young := [younger] }).focus 0).core.loops = [lastLoop] ∧
    ((withCore (ending .endit [lastLoop]) fun k => { k with young := [younger] }).focus 0).mayRetire = true ∧
    ((withCore (ending .endit [lastLoop]) fun k => { k with young := [younger] }).focus 0).core.refetch = false ∧
    lastLoop.iter + 1 < lastLoop.count :=
  by decide +kernel

def pair : Gang := { leader := 0, width := 2 }

def member : Core := { core0 with gang := some pair }

def ganged (x : Option PathEntry) : State :=
  { base with core := { member with path := x }, others := [(1, { member with sregs := [(1, Ver.one 9#64)] })] }

theorem test_premises_collective_leader :
    Claims.Member (ganged (some { pc := core0.pc, word := 0#32 })) pair ∧
    (∃ v, Claims.collective (ganged (some { pc := core0.pc, word := 0#32 })) pair (.gbc 4#5 1#5 0#2 7#11) = some (Claims.reads [(1#5, 0#2)] 4#5, 4#5, v)) ∧
    (ganged (some { pc := core0.pc, word := 0#32 })).core.ready (Claims.reads [(1#5, 0#2)] 4#5) = true ∧
    (ganged (some { pc := core0.pc, word := 0#32 })).cur = pair.leader ∧
    ((∀ c ∈ pair.members, ((ganged (some { pc := core0.pc, word := 0#32 })).getCore c).lag = 0 ∧ ((ganged (some { pc := core0.pc, word := 0#32 })).getCore c).ending = none ∧ (((ganged (some { pc := core0.pc, word := 0#32 })).getCore c).srcS 1#5 0).full = true)) ∧
    pair.leader % 16 + pair.width ≤ 16 ∧
    (ganged (some { pc := core0.pc, word := 0#32 })).core.ready { ds := [4#5] } = true :=
  ⟨(Claims.member_iff _ _).mpr (by decide +kernel),
    ⟨_, rfl⟩,
    by decide +kernel⟩

def follower : State := { base with cur := 1, core := member, others := [(0, { member with path := some { pc := core0.pc, word := 0#32, outcome := some 7#64 } })] }

theorem test_premises_collective_follower :
    Claims.Member follower pair ∧
    follower.cur ≠ pair.leader ∧
    follower.pathOutcome = some 7#64 ∧
    follower.core.ready (Claims.reads [(1#5, 0#2)] 4#5) = true :=
  ⟨(Claims.member_iff _ _).mpr (by decide +kernel),
    by decide +kernel⟩

theorem test_premises_fuse_plain :
    base.core.loops = [] ∧
    (base.core.gang = none ∧ base.core.wpHit = none ∧ base.core.stepping = none ∧ base.core.routine = none) ∧
    base.core.wasGang = none :=
  by decide +kernel

theorem test_premises_fuse_member :
    (ganged none).core.loops = [] ∧
    Claims.Member (ganged none) pair :=
  ⟨by decide +kernel,
    (Claims.member_iff _ _).mpr (by decide +kernel)⟩

def split : State := { base with core := { core0 with wasGang := some pair }, others := [(1, { core0 with wasGang := some pair, join := some .fuse })] }

theorem test_premises_fuse_last :
    split.core.loops = [] ∧
    (split.core.gang = none ∧ split.core.wpHit = none ∧ split.core.stepping = none ∧ split.core.routine = none) ∧
    split.core.wasGang = some pair ∧
    split.cur ∈ pair.members ∧
    ((∀ c ∈ pair.members, c ≠ split.cur → (split.getCore c).join = some .fuse ∧ (split.getCore c).pc = split.core.pc)) :=
  by decide +kernel

def splitting : State := { ganged none with others := [(1, { member with ahead := true })] }

theorem test_premises_split_last :
    splitting.core.loops = [] ∧
    Claims.Member splitting pair ∧
    ((∀ c ∈ pair.members, c ≠ splitting.cur → (splitting.getCore c).ahead = true)) :=
  ⟨by decide +kernel,
    (Claims.member_iff _ _).mpr (by decide +kernel),
    by decide +kernel⟩

/-! ## Premises: loads, stores, atomics, fences, the engine window -/

def padded : State := { withCore base (fun k => { k with sregs := [(1, Ver.one 0xFEDCBA9876543280#64), (2, Ver.one 0x0F00000000000100#64), (3, Ver.one 0x0F00000000000103#64), (4, Ver.one 0x8000000000000010#64)] }) with mem := pad [(0x100, 0xF1E2D3C4B5A69788, 8), (0x108, 0x8899AABBCCDDEEFF, 8)] }

def bufferedStore (a n v : Nat) : Req := { src := 0, ctx := 0, place := .scratch 0, addr := a, size := n, kind := .store, data := BitVec.ofNat 64 v }

def buffering : State := withCore padded fun k => { k with loops := [{ lastLoop with carry := { scalars := 0x30#32, depth := 1 } }], sbuf := [[bufferedStore 0x102 2 0x5566], [bufferedStore 0x103 1 0x77]] }

theorem test_premises_own_load :
    ((∃ l, Claims.load padded (.ld 4#5 3#5 0#2 1#11) = some l ∧ padded.core.ready l.names = true ∧ Claims.Own padded .load l.va l.n)) ∧
    Claims.Alone padded :=
  ⟨⟨_, rfl, by decide +kernel, (Claims.own_iff _ _ _ _).mpr (by decide +kernel)⟩,
    (Claims.alone_iff _).mpr ⟨(Claims.quiet_iff _).mpr (by decide +kernel), by decide +kernel⟩⟩

theorem test_premises_own_load_end :
    ((∃ l, Claims.load (three 0x0F0000000001FFFC#64 0#64 0#64) (.ldro 4#5 1#5 0#2 .w .sys) = some l ∧ (three 0x0F0000000001FFFC#64 0#64 0#64).core.ready l.names = true ∧ Claims.Own (three 0x0F0000000001FFFC#64 0#64 0#64) .load l.va l.n)) ∧
    Claims.Alone (three 0x0F0000000001FFFC#64 0#64 0#64) :=
  ⟨⟨_, rfl, by decide +kernel, (Claims.own_iff _ _ _ _).mpr (by decide +kernel)⟩,
    (Claims.alone_iff _).mpr ⟨(Claims.quiet_iff _).mpr (by decide +kernel), by decide +kernel⟩⟩

def far : State := withCore padded fun k => { k with sregs := [(1, Ver.one 0xFEDCBA9876543280#64), (2, Ver.one 0x0E00000000080103#64)], journal := [(0, 5#32)] }

theorem test_premises_far_load :
    ((∃ l p, Claims.load far (.lw 4#5 2#5 0#2 0#11) = some l ∧ far.core.ready l.names = true ∧ far.plan .load [(l.va, l.n, 0)] = .go [p] ∧ p.place ≠ .scratch far.cur ∧ tfind (p.addr / 128) far.core.l1d = none)) ∧
    Claims.Alone far ∧
    far.core.sbuf = [] ∧
    far.core.wp = [] :=
  ⟨⟨_, _, rfl, by decide +kernel, rfl, by decide +kernel, by decide +kernel⟩,
    (Claims.alone_iff _).mpr ⟨(Claims.quiet_iff _).mpr (by decide +kernel), by decide +kernel⟩,
    by decide +kernel⟩

theorem test_premises_own_store :
    ((∃ l, Claims.store padded (.sd 1#5 3#5 0#2 0x7FE#11) = some l ∧ padded.core.ready l.names = true ∧ Claims.Own padded .store l.va l.n)) ∧
    Claims.Alone padded ∧
    padded.core.mqueue = [] ∧
    padded.core.overlapped = false ∧
    padded.core.sbuf = [] ∧
    padded.core.outq = [] :=
  ⟨⟨_, rfl, by decide +kernel, (Claims.own_iff _ _ _ _).mpr (by decide +kernel)⟩,
    (Claims.alone_iff _).mpr ⟨(Claims.quiet_iff _).mpr (by decide +kernel), by decide +kernel⟩,
    by decide +kernel⟩

theorem test_premises_buffered_store :
    ((∃ l, Claims.store buffering (.sb 0#5 2#5 0#2 0#11) = some l ∧ buffering.core.ready l.names = true ∧ Claims.Own buffering .store l.va l.n)) ∧
    Claims.Alone buffering ∧
    buffering.core.mqueue = [] ∧
    buffering.core.overlapped = true ∧
    buffering.core.sbuf.length < 64 :=
  ⟨⟨_, rfl, by decide +kernel, (Claims.own_iff _ _ _ _).mpr (by decide +kernel)⟩,
    (Claims.alone_iff _).mpr ⟨(Claims.quiet_iff _).mpr (by decide +kernel), by decide +kernel⟩,
    by decide +kernel⟩

def cached : State := { withCore padded (fun k => { k with l1d := [(3, 1#1024)], l1i := [(4, 1#1024)], fbuf := [(1, 2#32)], lbuf := [(2, 3#32)] }) with flight := [{ bufferedStore 0 1 0 with place := .hbm, kind := .load, fill := true }] }

theorem test_premises_ordered :
    Claims.Alone cached ∧
    Claims.Settled cached ∧
    cached.core.held = none ∧
    cached.core.ready (Claims.reads [(2#5, 0#2)] 4#5) = true ∧
    (cached.src 2#5 0).toNat % 8 = 0 ∧
    Claims.Own cached .load (cached.src 2#5 0).toNat 8 ∧
    (cached.src 3#5 0).toNat % 2 ≠ 0 ∧
    cached.core.ready (Claims.reads [(3#5, 0#2)] 4#5) = true ∧
    cached.core.ready { ss := [(2#5, 0), (1#5, 0)] } = true ∧
    Claims.Own cached .store (cached.src 2#5 0).toNat 8 ∧
    cached.core.ready { ss := [(3#5, 0), (1#5, 0)] } = true ∧
    Claims.Own cached .store (cached.src 3#5 0).toNat 1 :=
  ⟨(Claims.alone_iff _).mpr ⟨(Claims.quiet_iff _).mpr (by decide +kernel), by decide +kernel⟩,
    (Claims.settled_iff _).mpr (by decide +kernel),
    by decide +kernel,
    by decide +kernel,
    by decide +kernel,
    (Claims.own_iff _ _ _ _).mpr (by decide +kernel),
    by decide +kernel,
    by decide +kernel,
    by decide +kernel,
    (Claims.own_iff _ _ _ _).mpr (by decide +kernel),
    by decide +kernel,
    (Claims.own_iff _ _ _ _).mpr (by decide +kernel)⟩

theorem test_premises_far_store :
    ((∃ l p, Claims.store far (.sw 1#5 2#5 0#2 0#11) = some l ∧ far.core.ready l.names = true ∧ far.plan .store [(l.va, l.n, 0)] = .go [p] ∧ p.place = .scratch 1)) ∧
    Claims.Alone far ∧
    (1 : Nat) ≠ far.cur ∧
    far.core.wp = [] ∧
    far.core.mqueue = [] ∧
    far.core.overlapped = false ∧
    far.core.sbuf = [] ∧
    far.core.freeEntry = some 1 ∧
    far.core.outq = [] :=
  ⟨⟨_, _, rfl, by decide +kernel, rfl, by decide +kernel⟩,
    (Claims.alone_iff _).mpr ⟨(Claims.quiet_iff _).mpr (by decide +kernel), by decide +kernel⟩,
    by decide +kernel⟩

/-- A core with one page of memory, of the host or of a peer in its TLB. -/

def paged (frame : Word) : State := { withCore padded (fun k => { k with sregs := [(1, Ver.one 0xFEDCBA9876543280#64), (2, Ver.one 0x1100#64)], tlb := [{ ctx := 0, base := 0, log2 := 16, pte := frame ||| 0x63F#64 }] }) with peers := 2#64 }

theorem test_premises_far_memory :
    ((∃ l p, Claims.store (paged 0#64) (.sw 1#5 2#5 0#2 0#11) = some l ∧ (paged 0#64).core.ready l.names = true ∧ (paged 0#64).plan .store [(l.va, l.n, 0)] = .go [p] ∧ p.place = .hbm ∧ p.addr % 128 + l.n ≤ 128)) ∧
    Claims.Alone (paged 0#64) ∧
    (paged 0#64).core.wp = [] ∧
    (paged 0#64).core.mqueue = [] ∧
    (paged 0#64).core.overlapped = false ∧
    (paged 0#64).core.sbuf = [] ∧
    (paged 0#64).core.outq = [] :=
  ⟨⟨_, _, rfl, by decide +kernel, rfl, by decide +kernel, by decide +kernel⟩,
    (Claims.alone_iff _).mpr ⟨(Claims.quiet_iff _).mpr (by decide +kernel), by decide +kernel⟩,
    by decide +kernel⟩

theorem test_premises_far_elsewhere :
    ((∃ l p, Claims.store (paged 0x8000000008000#64) (.sd 1#5 2#5 0#2 0#11) = some l ∧ (paged 0x8000000008000#64).plan .store [(l.va, l.n, 0)] = .go [p] ∧ p.place = .host)) ∧
    ((∃ l p, Claims.store (paged 0x1040000000000#64) (.sb 1#5 2#5 0#2 0#11) = some l ∧ (paged 0x1040000000000#64).plan .store [(l.va, l.n, 0)] = .go [p] ∧ p.place = .peer)) ∧
    Claims.Alone (paged 0x1040000000000#64) :=
  ⟨⟨_, _, rfl, rfl, by decide +kernel⟩,
    ⟨_, _, rfl, rfl, by decide +kernel⟩,
    (Claims.alone_iff _).mpr ⟨(Claims.quiet_iff _).mpr (by decide +kernel), by decide +kernel⟩⟩

theorem test_premises_atomic :
    (Claims.atomic (.cas 4#5 2#5 1#5 .acquire .sys .d)).isSome = true ∧
    Claims.Alone cached ∧
    Claims.Settled cached ∧
    cached.core.held = none ∧
    cached.core.ready { ss := [(2#5, 0), (1#5, 0), (4#5, 0)], ds := [4#5] } = true ∧
    (cached.src 2#5 0).toNat % 8 = 0 ∧
    Claims.Own cached .atomic (cached.src 2#5 0).toNat 8 ∧
    (cached.src 3#5 0).toNat % 4 ≠ 0 ∧
    cached.core.ready { ss := [(3#5, 0), (1#5, 0), (4#5, 0)], ds := [4#5] } = true :=
  ⟨by decide +kernel,
    (Claims.alone_iff _).mpr ⟨(Claims.quiet_iff _).mpr (by decide +kernel), by decide +kernel⟩,
    (Claims.settled_iff _).mpr (by decide +kernel),
    by decide +kernel,
    by decide +kernel,
    by decide +kernel,
    (Claims.own_iff _ _ _ _).mpr (by decide +kernel),
    by decide +kernel⟩

theorem test_premises_fences :
    Claims.Alone cached ∧
    Claims.Settled cached ∧
    cached.core.inPhase = none ∧
    cached.core.ready { ss := [(2#5, 0)] } = true :=
  ⟨(Claims.alone_iff _).mpr ⟨(Claims.quiet_iff _).mpr (by decide +kernel), by decide +kernel⟩,
    (Claims.settled_iff _).mpr (by decide +kernel),
    by decide +kernel⟩

def journaled (l : Tab Word32) (f : List Req) : State := { withCore padded (fun k => { k with journal := l }) with flight := f }

theorem test_premises_release :
    (journaled [] []).core.overlapped = false ∧
    (journaled [] []).core.sbuf = [] ∧
    (journaled [] []).core.routine = none ∧
    (journaled [] []).core.inPhase = none ∧
    (withCore padded fun k => { k with inPhase := some 3 }).core.inPhase ≠ none ∧
    (∃ i < 32, (tget i (journaled [(31, 0x40000000#32)] []).core.journal 0#32).toNat / 2 ^ 30 = 1) ∧
    ((∃ r ∈ (journaled [] [{ bufferedStore 0 1 0 with place := .hbm }]).flight, r.src = (journaled [] [{ bufferedStore 0 1 0 with place := .hbm }]).cur ∧ r.kind ≠ .load ∧ r.kind ≠ .ldro ∧ r.late = false)) ∧
    (journaled [] []).core.outq = [] :=
  by decide +kernel

theorem test_premises_release_refused :
    (∀ r ∈ (journaled [(31, 0x80000000#32), (2, 0xC0000000#32)] []).core.journal, r.2.toNat / 2 ^ 30 ≠ 1) ∧
    (tget 31 (journaled [(31, 0x80000000#32), (2, 0xC0000000#32)] []).core.journal 0#32).toNat / 2 ^ 30 = 2 ∧
    (∀ j < 31, (tget j (journaled [(31, 0x80000000#32), (2, 0xC0000000#32)] []).core.journal 0#32).toNat / 2 ^ 30 ≠ 2) :=
  by decide +kernel

theorem test_premises_release_timed_out :
    (∀ r ∈ (journaled [(31, 0xC0000000#32)] []).core.journal, r.2.toNat / 2 ^ 30 ≠ 1) ∧
    (∀ j < 32, (tget j (journaled [(31, 0xC0000000#32)] []).core.journal 0#32).toNat / 2 ^ 30 ≠ 2) ∧
    (tget 31 (journaled [(31, 0xC0000000#32)] []).core.journal 0#32).toNat / 2 ^ 30 = 3 ∧
    (∀ j < 31, (tget j (journaled [(31, 0xC0000000#32)] []).core.journal 0#32).toNat / 2 ^ 30 ≠ 3) :=
  by decide +kernel

def windowed (a b c d : Nat) : State := withCore padded fun k => { k with sregs := [(1, Ver.one 0x0F00000000080000#64)], qw0 := BitVec.ofNat 64 (a * 2 ^ 32), qw1 := BitVec.ofNat 64 b, qw2 := BitVec.ofNat 64 c, qw3 := BitVec.ofNat 64 d, lastJob := 2 ^ 32 - 1 }

theorem test_premises_window :
    Claims.Alone (windowed 4 0 8 8) ∧
    (windowed 4 0 8 8).core.inPhase = none ∧
    (windowed 4 0 8 8).core.ready (Claims.reads [(1#5, 0#2)] 4#5) = true ∧
    Claims.address (windowed 4 0 8 8) 1#5 0#2 5#11 8 = 0x0F00000000080000 + 8 * 5 ∧
    (windowed 4 0 8 8).core.overlapped = false ∧
    (windowed 4 0 8 8).core.sbuf = [] ∧
    (windowed 4 0 8 8).core.badJob = false ∧
    (windowed 4 0 8 8).core.jobs.length < 2 ∧
    wfield (windowed 4 0 8 8).core.qw0 32 4 = 4 ∧
    (windowed 4 0 8 7).core.badJob = true ∧
    wfield (windowed 4 0 8 7).core.qw0 32 4 = 4 ∧
    (windowed 4 0 8 8).core.outq = [] :=
  ⟨(Claims.alone_iff _).mpr ⟨(Claims.quiet_iff _).mpr (by decide +kernel), by decide +kernel⟩,
    by decide +kernel⟩

theorem test_premises_window_jobs :
    (windowed 0 1 2 3).core.badJob = false ∧
    (windowed 1 1 1 8).core.badJob = false ∧
    (windowed 2 0 (2 ^ 48) 8).core.badJob = false ∧
    (windowed 3 0 8 8).core.badJob = false ∧
    (windowed 5 8 8 0).core.badJob = false ∧
    (windowed 6 8 0 0).core.badJob = false :=
  by decide +kernel

/-! ## Premises: floating point and vectors -/

def vec (vtype m1 : Word) (v1 v2 : Vec) : State := mk fun k => { k with vregs := [(1, Ver.one v1), (2, Ver.one v2), (3, Ver.one 0x55#512)], masks := [(1, m1), (2, 0xF0#64)], vtype := vtype, sregs := [(1, Ver.one 0x0F00000000000100#64), (2, Ver.one 0x3FF8000000000000#64), (3, Ver.one 3#64)] }

def vec0 : State := vec 0#64 0x00FF0000FFFF0001#64 0x0A0B0C0D#512 0x10080203#512

theorem test_premises_float :
    (∃ r, Claims.fopResult vec0 (.fma 4#5 2#5 0#2 3#5 0#2 .f64) = some (Claims.reads [(2#5, 0#2), (3#5, 0#2), (4#5, 0#2)] 4#5, 4#5, r)) ∧
    vec0.core.ready (Claims.reads [(2#5, 0#2), (3#5, 0#2), (4#5, 0#2)] 4#5) = true ∧
    Claims.Alone vec0 :=
  ⟨⟨_, rfl⟩,
    by decide +kernel,
    (Claims.alone_iff _).mpr ⟨(Claims.quiet_iff _).mpr (by decide +kernel), by decide +kernel⟩⟩

theorem test_premises_float_one :
    (∃ r, Claims.fopResult vec0 (.fcvtw 4#5 2#5 0#2 .f32) = some (Claims.reads [(2#5, 0#2)] 4#5, 4#5, r)) ∧
    vec0.core.ready (Claims.reads [(2#5, 0#2)] 4#5) = true :=
  ⟨⟨_, rfl⟩,
    by decide +kernel⟩

theorem test_premises_vint :
    (Claims.vint (.vsadd 4#5 1#5 0#1 2#5 1#3 .i16)).isSome = true ∧
    vec0.core.ready (Claims.vectors 4#5 1#5 0#1 (some 2#5)) = true ∧
    Claims.Alone vec0 ∧
    Claims.lit vec0 1#3 16 8 ∧
    (¬Claims.lit vec0 1#3 16 31) :=
  ⟨by decide +kernel,
    by decide +kernel,
    (Claims.alone_iff _).mpr ⟨(Claims.quiet_iff _).mpr (by decide +kernel), by decide +kernel⟩,
    by unfold Claims.lit; decide +kernel,
    by unfold Claims.lit; decide +kernel⟩

theorem test_premises_vint_one :
    (Claims.vint (.vabs 1#5 1#5 0#1 0#3 .i64)).isSome = true ∧
    vec0.core.ready (Claims.vectors 1#5 1#5 0#1 none) = true ∧
    Claims.lit vec0 0#3 64 7 :=
  ⟨by decide +kernel,
    by decide +kernel,
    by unfold Claims.lit; decide +kernel⟩

theorem test_premises_vflt :
    (Claims.vflt 0 (.vfma 3#5 1#5 0#1 2#5 1#3 .bf16)).isSome = true ∧
    vec0.core.ready (Claims.vectors 3#5 1#5 0#1 (some 2#5)) = true ∧
    Claims.Alone vec0 ∧
    vec0.core.status.toNat / 4 % 4 = 0 :=
  ⟨by decide +kernel,
    by decide +kernel,
    (Claims.alone_iff _).mpr ⟨(Claims.quiet_iff _).mpr (by decide +kernel), by decide +kernel⟩,
    by decide +kernel⟩

theorem test_premises_vflt_one :
    (Claims.vflt 0 (.vfneg 3#5 1#5 0#1 1#3 .f32)).isSome = true ∧
    vec0.core.ready (Claims.vectors 3#5 1#5 0#1 none) = true :=
  by decide +kernel

theorem test_premises_vcmp :
    (Claims.vcmp (.vfcmple 0#3 1#5 0#1 2#5 1#3 .f16)).isSome = true ∧
    (Claims.vcmp (.vcmpltu 2#3 1#5 0#1 2#5 1#3 .i8)).isSome = true ∧
    vec0.core.ready { vs := [(1#5, 0), (2#5, 0)], dk := [2#3] } = true ∧
    vec0.core.ready { vs := [(1#5, 0), (2#5, 0)], dk := [0#3] } = true ∧
    Claims.Alone vec0 :=
  ⟨by decide +kernel,
    by decide +kernel,
    by decide +kernel,
    by decide +kernel,
    (Claims.alone_iff _).mpr ⟨(Claims.quiet_iff _).mpr (by decide +kernel), by decide +kernel⟩⟩

theorem test_premises_vload :
    ((∃ x, Claims.vload vec0 (.vgath 3#5 1#5 0#2 2#5 1#3 .b) = some x ∧ (∀ j ∈ Claims.lanes vec0 x.k (8 * x.n), Claims.Own vec0 .load (x.va j).toNat x.n))) ∧
    vec0.core.ready { ss := [(1#5, 0)], vs := [(2#5, 0), (3#5, 0)], dv := [3#5] } = true ∧
    Claims.Alone vec0 ∧
    Claims.lanes vec0 1#3 8 ≠ [] :=
  ⟨⟨_, rfl, by simp only [Claims.own_iff]; decide +kernel⟩,
    by decide +kernel,
    (Claims.alone_iff _).mpr ⟨(Claims.quiet_iff _).mpr (by decide +kernel), by decide +kernel⟩,
    by decide +kernel⟩

theorem test_premises_vload_none :
    Claims.lanes (vec 0#64 0#64 0#512 0#512) 1#3 64 = [] ∧
    (Claims.vload vec0 (.vlds 3#5 1#5 0#2 3#5 1#3 .d)).isSome = true ∧
    vec0.core.ready { ss := [(1#5, 0), (3#5, 0)], vs := [(3#5, 0)], dv := [3#5] } = true :=
  by decide +kernel

theorem test_premises_vstore :
    ((∃ x, Claims.vstore vec0 (.vscat 3#5 1#5 0#2 2#5 1#3 .b) = some x ∧ (∀ j ∈ Claims.lanes vec0 x.k (8 * x.n), Claims.Own vec0 .store (x.va j).toNat x.n))) ∧
    vec0.core.ready { ss := [(1#5, 0)], vs := [(2#5, 0), (3#5, 0)] } = true ∧
    Claims.Alone vec0 ∧
    vec0.core.overlapped = false ∧
    vec0.core.sbuf = [] ∧
    vec0.core.mqueue = [] ∧
    vec0.core.outq = [] ∧
    ((∀ r ∈ vec0.flight, r.src = vec0.cur → r.order = 0)) ∧
    1 < (Claims.lanes vec0 1#3 8).length :=
  ⟨⟨_, rfl, by simp only [Claims.own_iff]; decide +kernel⟩,
    by decide +kernel,
    (Claims.alone_iff _).mpr ⟨(Claims.quiet_iff _).mpr (by decide +kernel), by decide +kernel⟩,
    by decide +kernel⟩

theorem test_premises_permute :
    ((∃ x, Claims.permute vec0 (.vslide 3#5 1#5 0#1 3#5 1#3) = some x ∧ vec0.core.ready x.names = true ∧ x.k = some 1#3)) ∧
    Claims.Alone vec0 ∧
    Claims.et vec0 < 7 ∧
    Claims.lit vec0 1#3 8 0 ∧
    (¬Claims.lit vec0 1#3 8 63) ∧
    ((∃ x, Claims.permute vec0 (.viota 3#5 1#3) = some x ∧ vec0.core.ready x.names = true ∧ x.k = none)) ∧
    Claims.et vec0 < 4 ∧
    vec0.core.ready { ss := [(3#5, 0)], vs := [(1#5, 0)], ds := [4#5] } = true :=
  ⟨⟨_, rfl, by decide +kernel, rfl⟩,
    (Claims.alone_iff _).mpr ⟨(Claims.quiet_iff _).mpr (by decide +kernel), by decide +kernel⟩,
    by decide +kernel,
    by unfold Claims.lit; decide +kernel,
    by unfold Claims.lit; decide +kernel,
    ⟨_, rfl, by decide +kernel, rfl⟩,
    by decide +kernel⟩

theorem test_premises_permute_type :
    (¬Claims.et (vec 7#64 0#64 0#512 0#512) < 7) ∧
    (¬Claims.et (vec 4#64 0#64 0#512 0#512) < 4) ∧
    Claims.Alone (vec 7#64 0#64 0#512 0#512) ∧
    Claims.Alone (vec 4#64 0#64 0#512 0#512) :=
  ⟨by decide +kernel,
    by decide +kernel,
    (Claims.alone_iff _).mpr ⟨(Claims.quiet_iff _).mpr (by decide +kernel), by decide +kernel⟩,
    (Claims.alone_iff _).mpr ⟨(Claims.quiet_iff _).mpr (by decide +kernel), by decide +kernel⟩⟩

theorem test_premises_reduce :
    Claims.Alone vec0 ∧
    vec0.core.ready { vs := [(1#5, 0)], ds := [4#5] } = true ∧
    Claims.et vec0 < 4 ∧
    Claims.signedLanes vec0 (vec0.vsrc 1#5 0) 1#3 8 ≠ [] ∧
    Claims.signedLanes (vec 3#64 0#64 0#512 0#512) ((vec 3#64 0#64 0#512 0#512).vsrc 1#5 0) 1#3 64 = [] :=
  ⟨(Claims.alone_iff _).mpr ⟨(Claims.quiet_iff _).mpr (by decide +kernel), by decide +kernel⟩,
    by decide +kernel⟩

theorem test_premises_reduce_float :
    Claims.Alone (vec 6#64 1#64 0#512 0#512) ∧
    (vec 6#64 1#64 0#512 0#512).core.ready { vs := [(1#5, 0)], ds := [4#5] } = true ∧
    4 ≤ Claims.et (vec 6#64 1#64 0#512 0#512) ∧
    Claims.et (vec 6#64 1#64 0#512 0#512) < 7 ∧
    4 ≤ Claims.et (vec 4#64 1#64 0#512 0#512) :=
  ⟨(Claims.alone_iff _).mpr ⟨(Claims.quiet_iff _).mpr (by decide +kernel), by decide +kernel⟩,
    by decide +kernel⟩

def widening : State := vec 0x1040#64 0xFFFF#64 0x0A0B0C0D#512 0#512

theorem test_premises_convert :
    ((∃ x, Claims.conv widening (.vcvt 3#5 1#5 0#1 1#3) = some x ∧ x.ok)) ∧
    Claims.Alone widening ∧
    widening.core.ready (Claims.vectors 3#5 1#5 0#1 none) = true ∧
    ((∃ x, Claims.conv vec0 (.vppu 3#5 1#5 0#1 1#3) = some x ∧ ¬x.ok)) ∧
    Claims.Alone vec0 :=
  ⟨⟨_, rfl, by show Claims.et widening < 7 ∧ Claims.et2 widening < 7 ∧ Claims.part widening < max (Claims.ew (Claims.et widening) / Claims.ew (Claims.et2 widening)) (Claims.ew (Claims.et2 widening) / Claims.ew (Claims.et widening)); decide +kernel⟩,
    (Claims.alone_iff _).mpr ⟨(Claims.quiet_iff _).mpr (by decide +kernel), by decide +kernel⟩,
    by decide +kernel,
    ⟨_, rfl, by show ¬Claims.et vec0 = 4; decide +kernel⟩,
    (Claims.alone_iff _).mpr ⟨(Claims.quiet_iff _).mpr (by decide +kernel), by decide +kernel⟩⟩

theorem test_premises_mask :
    (∃ f, Claims.maskResult vec0 (.kand 0#3 1#3 2#3) = some ({ dk := [0#3] }, f)) ∧
    (∃ f, Claims.maskResult vec0 (.kpop 4#5 1#3) = some ({ ds := [4#5] }, f)) ∧
    Claims.Alone vec0 ∧
    vec0.core.ready { dk := [0#3] } = true ∧
    vec0.core.ready { ds := [4#5] } = true :=
  ⟨⟨_, rfl⟩,
    ⟨_, rfl⟩,
    (Claims.alone_iff _).mpr ⟨(Claims.quiet_iff _).mpr (by decide +kernel), by decide +kernel⟩,
    by decide +kernel⟩

theorem test_premises_mask_in_loop :
    (∃ f, Claims.maskResult inLoop (.knot 2#3 1#3) = some ({ dk := [2#3] }, f)) ∧
    Claims.Alone inLoop ∧
    (2#3 : KReg) ≠ 0#3 ∧
    inLoop.core.overlapped = true ∧
    inLoop.core.distsOk { dk := [2#3] } = true :=
  ⟨⟨_, rfl⟩,
    (Claims.alone_iff _).mpr ⟨(Claims.quiet_iff _).mpr (by decide +kernel), by decide +kernel⟩,
    by decide +kernel⟩

/-- The table of the format E2M1 (R133). -/

def e2m1 : DecTab := { entries := [(1, 0x0FC00000#32), (2, 0x0FE00000#32), (3, 0x0FF00000#32), (4, 0x10000000#32), (5, 0x10100000#32), (6, 0x10200000#32), (7, 0x10300000#32), (8, 0x20000000#32), (9, 0x2FC00000#32), (10, 0x2FE00000#32), (11, 0x2FF00000#32), (12, 0x30000000#32), (13, 0x30100000#32), (14, 0x30200000#32), (15, 0x30300000#32)], four := true, verified := true, n3 := true }

/-- The example of 08_vector_instructions.md: VTYPE 0x205, table t2, v1 = 10, -3, 0.6875, 0.1875 and zeros as bf16. -/

def quant (x : Vec) (t : DecTab) : State := withCore (vec 0x205#64 1#64 x 0#512) fun k => { k with tables := [(2, t)] }

theorem test_premises_encode_unverified :
    Claims.Alone (quant 0#512 {}) ∧
    4 ≤ Claims.et (quant 0#512 {}) ∧
    Claims.et (quant 0#512 {}) < 7 ∧
    (Claims.part (quant 0#512 {}) + 1) * (Claims.el (Claims.et (quant 0#512 {})) * (Claims.vtable (quant 0#512 {})).codeBits / 8) ≤ 64 ∧
    (quant 0#512 {}).core.ready (Claims.vectors 3#5 1#5 0#1 none) = true ∧
    (Claims.vtable (quant 0#512 {})).verified = false ∧
    (quant 0#512 {}).core.ready { vs := [(1#5, 0)], dv := [3#5] } = true :=
  ⟨(Claims.alone_iff _).mpr ⟨(Claims.quiet_iff _).mpr (by decide +kernel), by decide +kernel⟩,
    by decide +kernel⟩

theorem test_premises_encode :
    Claims.Alone (quant 0xC040#512 e2m1) ∧
    4 ≤ Claims.et (quant 0xC040#512 e2m1) ∧
    Claims.et (quant 0xC040#512 e2m1) < 7 ∧
    (Claims.part (quant 0xC040#512 e2m1) + 1) * (Claims.el (Claims.et (quant 0xC040#512 e2m1)) * (Claims.vtable (quant 0xC040#512 e2m1)).codeBits / 8) ≤ 64 ∧
    (quant 0xC040#512 e2m1).core.ready (Claims.vectors 3#5 1#5 0#1 none) = true ∧
    (Claims.vtable (quant 0xC040#512 e2m1)).verified = true ∧
    Claims.lanes (quant 0xC040#512 e2m1) 1#3 16 = [0] ∧
    (Claims.vtable (quant 0xC040#512 e2m1)).encode (fmtBF.val (Claims.laneOf ((quant 0xC040#512 e2m1).vsrc 1#5 0) 16 0).toNat) = .ok (13, false) :=
  ⟨(Claims.alone_iff _).mpr ⟨(Claims.quiet_iff _).mpr (by decide +kernel), by decide +kernel⟩,
    by decide +kernel⟩

theorem test_premises_quantise :
    Claims.Alone (quant 0x3E403F30C0404120#512 e2m1) ∧
    Claims.et (quant 0x3E403F30C0404120#512 e2m1) = 5 ∧
    (quant 0x3E403F30C0404120#512 e2m1).core.ready { vs := [(1#5, 0)], dv := [3#5] } = true ∧
    (Claims.vtable (quant 0x3E403F30C0404120#512 e2m1)).verified = true ∧
    blockScale (amax (Claims.block (quant 0x3E403F30C0404120#512 e2m1) 1#5 0#1 0#5)) (Claims.vtable (quant 0x3E403F30C0404120#512 e2m1)).lmax = some 0x80 ∧
    (∀ i < 32, (Claims.vtable (quant 0x3E403F30C0404120#512 e2m1)).encode (((Claims.block (quant 0x3E403F30C0404120#512 e2m1) 1#5 0#1 0#5).getD i (.fin false 0 0)).scale (127 - ((0x80 : Nat) : Int))) = .ok ([6, 0xB, 1].getD i 0, false)) :=
  ⟨(Claims.alone_iff _).mpr ⟨(Claims.quiet_iff _).mpr (by decide +kernel), by decide +kernel⟩,
    by decide +kernel⟩

theorem test_premises_quantise_none :
    blockScale (amax (Claims.block (quant 0x4120#512 {}) 1#5 0#1 0#5)) (Claims.vtable (quant 0x4120#512 {})).lmax = none ∧
    (quant 0x4120#512 {}).core.ready { vs := [(1#5, 0)], dv := [3#5] } = true ∧
    (blockScale (amax (Claims.block (quant 0#512 {}) 1#5 0#1 0#5)) (Claims.vtable (quant 0#512 {})).lmax).isSome = true :=
  by decide +kernel

/-! ## Premises: engines -/

def slot : MSlot := { elems := [(5, { v := 3, count := 2, nan := true }), (31, { v := 9, count := 1 })], scale := 3, headroom := 2, context := 0#64, geometry := 0x0421#64 }

def slotted (m : MSlot) : State := mk fun k => { k with sregs := [(1, Ver.one 0#64), (2, Ver.one 0x0C05#64), (3, Ver.one 0x20C05#64), (4, Ver.one 0x4#64)], mslots := [(1, m)] }

theorem test_premises_slot :
    Claims.Alone (slotted slot) ∧
    Claims.Calm (slotted slot) ∧
    (∀ q ∈ (slotted slot).core.mqueue, q.slot ≠ (1#2).toNat) ∧
    (slotted slot).core.ready { ss := [(1#5, 0), (2#5, 0)] } = true ∧
    (Claims.slotOf (slotted slot) 1#2).isOpen = false ∧
    badContext ((slotted slot).src 4#5 0) = true ∧
    badContext ((slotted slot).src 1#5 0) = false ∧
    badSlotWord ((slotted slot).src 3#5 0) = true ∧
    badSlotWord ((slotted slot).src 2#5 0) = false ∧
    badChainWord false ((slotted slot).src 1#5 0) = true ∧
    badChainWord false ((slotted slot).src 3#5 0) = false ∧
    (slotted slot).core.ready { ss := [(4#5, 0), (3#5, 0)] } = true :=
  ⟨(Claims.alone_iff _).mpr ⟨(Claims.quiet_iff _).mpr (by decide +kernel), by decide +kernel⟩,
    (Claims.calm_iff _).mpr (by decide +kernel),
    by decide +kernel⟩

theorem test_premises_slot_geometry :
    (slotted slot).core.ready { ss := [(3#5, 0)] } = true ∧
    badGeometry ((slotted slot).src 3#5 0) = true ∧
    badGeometry ((slotted slot).src 2#5 0) = false ∧
    (slotted slot).core.ready { ds := [4#5] } = true :=
  by decide +kernel

theorem test_premises_slot_open :
    Claims.Alone (slotted { slot with isOpen := true }) ∧
    Claims.Calm (slotted { slot with isOpen := true }) ∧
    (Claims.slotOf (slotted { slot with isOpen := true }) 1#2).isOpen = true ∧
    (Claims.slotOf (slotted { slot with isOpen := true }) 1#2).future = 0 ∧
    (slotted { slot with isOpen := true }).core.ready { ss := [(1#5, 0), (2#5, 0)] } = true :=
  ⟨(Claims.alone_iff _).mpr ⟨(Claims.quiet_iff _).mpr (by decide +kernel), by decide +kernel⟩,
    (Claims.calm_iff _).mpr (by decide +kernel),
    by decide +kernel⟩

def queueing (m : MSlot) (mem : List Host.Cell) : State := { mk (fun k => { k with sregs := [(1, Ver.one 0x0F00000000000100#64), (2, Ver.one 0x0F00000000000200#64), (3, Ver.one 0#64), (4, Ver.one 0x800#64), (5, Ver.one 0x10405#64), (6, Ver.one 0x100#64)], mslots := [(1, m)] }) with mem := mem }

theorem test_premises_queue_over :
    Claims.Alone (queueing slot []) ∧
    Claims.Calm (queueing slot []) ∧
    (queueing slot []).core.pendingWait = false ∧
    Claims.multiply (.mma 1#5 2#5 0#1 1#2) = some (1#5, 2#5, 0#1, 1#2, .mma false false) ∧
    (queueing slot []).core.ready { ss := [(1#5, 0), (2#5, 0)] } = true ∧
    (queueing slot []).core.mqueue.length < 2 ∧
    ((queueing slot []).src 1#5 0).toNat % 8 = 0 ∧
    ((queueing slot []).src 2#5 0).toNat % 8 = 0 ∧
    (match (queueing slot []).cmdPlan .load ((queueing slot []).core.mmaAccesses (Claims.slotOf (queueing slot []) 1#2) false ((queueing slot []).src 1#5 0).toNat ((queueing slot []).src 2#5 0).toNat) with | .go _ => true | _ => false) = true ∧
    (queueing { slot with headroom := 1, elems := [(0, { count := 2 })] } []).core.overCount 1 2 2 2 = true ∧
    Claims.geo slot.geometry = (2, 2, 2) ∧
    (queueing slot []).core.overCount 1 2 2 2 = false :=
  ⟨(Claims.alone_iff _).mpr ⟨(Claims.quiet_iff _).mpr (by decide +kernel), by decide +kernel⟩,
    (Claims.calm_iff _).mpr (by decide +kernel),
    by decide +kernel⟩

theorem test_premises_queue_drain :
    (queueing slot []).core.ready { ss := [(1#5, 0), (4#5, 0)] } = true ∧
    (queueing slot []).core.mqueue = [] ∧
    (Claims.slotOf (queueing slot []) 1#2).isOpen = false ∧
    badDrain (queueing slot []).core ((queueing slot []).src 4#5 0) false 2 2 = false ∧
    (match (queueing slot []).cmdPlan .store (drainAccesses (queueing slot []).core (Claims.slotOf (queueing slot []) 1#2).geometry ((queueing slot []).src 4#5 0) false ((queueing slot []).src 1#5 0)) with | .go _ => true | _ => false) = true ∧
    drainCoded ((queueing slot []).src 4#5 0) = false ∧
    (match (Claims.slotOf (queueing slot []) 1#2).drain (queueing slot []).core ((queueing slot []).src 4#5 0) false with | .ok _ => true | _ => false) = true :=
  by decide +kernel

theorem test_premises_queue_load :
    (queueing slot []).core.ready { ss := [(1#5, 0), (5#5, 0)] } = true ∧
    badChainWord true ((queueing slot []).src 5#5 0) = false ∧
    Claims.Image (queueing slot (pad [(0x108, 0x1000000000000000, 8)])) 0x0F00000000000100 8192 ∧
    (∃ i < 1024, 2 ^ 60 ≤ memRead (queueing slot (pad [(0x108, 0x1000000000000000, 8)])).mem (Claims.ownKey (queueing slot (pad [(0x108, 0x1000000000000000, 8)])) 0x0F00000000000100 + 8 * i) 8) ∧
    ((∀ i < 1024, memRead (queueing slot []).mem (Claims.ownKey (queueing slot []) 0x0F00000000000100 + 8 * i) 8 < 2 ^ 60 ∧ ((BitVec.ofNat 56 (memRead (queueing slot []).mem (Claims.ownKey (queueing slot []) 0x0F00000000000100 + 8 * i) 8)).toInt.natAbs ≤ Claims.wordN ((queueing slot []).src 5#5 0) * (2 ^ (55 - Claims.wordH ((queueing slot []).src 5#5 0)) - 1)))) :=
  ⟨by decide +kernel,
    by decide +kernel,
    (Claims.image_iff _ _ _).mpr (by decide +kernel),
    ⟨1, by decide +kernel, by decide +kernel⟩,
    by decide +kernel⟩

theorem test_premises_queue_beyond :
    (∀ i < 1024, memRead (queueing slot (pad [(0x108, 0x40000000000000, 8)])).mem (Claims.ownKey (queueing slot (pad [(0x108, 0x40000000000000, 8)])) 0x0F00000000000100 + 8 * i) 8 < 2 ^ 60) ∧
    memRead (queueing slot (pad [(0x108, 0x40000000000000, 8)])).mem (Claims.ownKey (queueing slot (pad [(0x108, 0x40000000000000, 8)])) 0x0F00000000000100 + 8 * 1) 8 / 2 ^ 56 % 8 = 0 ∧
    Claims.wordN ((queueing slot (pad [(0x108, 0x40000000000000, 8)])).src 5#5 0) * (2 ^ (55 - Claims.wordH ((queueing slot (pad [(0x108, 0x40000000000000, 8)])).src 5#5 0)) - 1) < (BitVec.ofNat 56 (memRead (queueing slot (pad [(0x108, 0x40000000000000, 8)])).mem (Claims.ownKey (queueing slot (pad [(0x108, 0x40000000000000, 8)])) 0x0F00000000000100 + 8 * 1) 8)).toInt.natAbs ∧
    Claims.Image (queueing slot (pad [(0x108, 0x40000000000000, 8)])) 0x0F00000000000100 8192 :=
  ⟨by decide +kernel,
    by decide +kernel,
    by decide +kernel,
    (Claims.image_iff _ _ _).mpr (by decide +kernel)⟩

theorem test_premises_queue_completes :
    Claims.Alone (queueing { slot with elems := [] } []) ∧
    Claims.Calm (queueing { slot with elems := [] } []) ∧
    (queueing { slot with elems := [] } []).core.pendingWait = false ∧
    (queueing { slot with elems := [] } []).core.mqueue = [] ∧
    (queueing { slot with elems := [] } []).core.ready { ss := [(1#5, 0), (2#5, 0)] } = true ∧
    ((queueing { slot with elems := [] } []).src 1#5 0).toNat % 8 = 0 ∧
    ((queueing { slot with elems := [] } []).src 2#5 0).toNat % 8 = 0 ∧
    Claims.geo (Claims.slotOf (queueing { slot with elems := [] } []) 1#2).geometry = (2, 2, 2) ∧
    (∀ p, (tget p (Claims.slotOf (queueing { slot with elems := [] } []) 1#2).elems {}).count + 2 ≤ 2 ^ (Claims.slotOf (queueing { slot with elems := [] } []) 1#2).headroom) ∧
    (∀ r ∈ (queueing { slot with elems := [] } []).core.mmaAccesses (Claims.slotOf (queueing { slot with elems := [] } []) 1#2) false ((queueing { slot with elems := [] } []).src 1#5 0).toNat ((queueing { slot with elems := [] } []).src 2#5 0).toNat, Claims.inOwn (queueing { slot with elems := [] } []) r.1 r.2.1) ∧
    (∀ r ∈ (queueing { slot with elems := [] } []).core.mmaAccesses (Claims.slotOf (queueing { slot with elems := [] } []) 1#2) true ((queueing { slot with elems := [] } []).src 1#5 0).toNat ((queueing { slot with elems := [] } []).src 2#5 0).toNat, Claims.inOwn (queueing { slot with elems := [] } []) r.1 r.2.1) :=
  ⟨(Claims.alone_iff _).mpr ⟨(Claims.quiet_iff _).mpr (by decide +kernel), by decide +kernel⟩,
    (Claims.calm_iff _).mpr (by decide +kernel),
    by decide +kernel,
    by decide +kernel,
    by decide +kernel,
    by decide +kernel,
    by decide +kernel,
    (by decide +kernel),
    fun _ => (by decide : (0 : Nat) + 2 ≤ 2 ^ 2),
    by unfold Claims.inOwn; decide +kernel,
    by unfold Claims.inOwn; decide +kernel⟩

theorem test_premises_queue_ends :
    (queueing { slot with elems := [] } []).core.ready { ss := [(1#5, 0), (4#5, 0)] } = true ∧
    (Claims.slotOf (queueing { slot with elems := [] } []) 1#2).isOpen = false ∧
    ((queueing { slot with elems := [] } []).src 4#5 0).toNat % 16 < 3 ∧
    badDrain (queueing { slot with elems := [] } []).core ((queueing { slot with elems := [] } []).src 4#5 0) (0#1 == 1#1) 2 2 = false ∧
    (∀ r ∈ drainAccesses (queueing { slot with elems := [] } []).core (Claims.slotOf (queueing { slot with elems := [] } []) 1#2).geometry ((queueing { slot with elems := [] } []).src 4#5 0) (0#1 == 1#1) ((queueing { slot with elems := [] } []).src 1#5 0), Claims.inOwn (queueing { slot with elems := [] } []) r.1 r.2.1) ∧
    Claims.Image (queueing { slot with elems := [] } []) ((queueing { slot with elems := [] } []).src 1#5 0).toNat 8192 ∧
    Claims.inOwn (queueing { slot with elems := [] } []) ((queueing { slot with elems := [] } []).src 1#5 0).toNat 8192 ∧
    (queueing { slot with elems := [] } []).core.ready { ss := [(3#5, 0), (2#5, 0)], ds := [7#5] } = true ∧
    (queueing { slot with elems := [] } []).isPeer (((queueing { slot with elems := [] } []).src 3#5 0).toNat % 4096) = true :=
  ⟨by decide +kernel,
    by decide +kernel,
    by decide +kernel,
    by decide +kernel,
    by unfold Claims.inOwn; decide +kernel,
    (Claims.image_iff _ _ _).mpr (by decide +kernel),
    by unfold Claims.inOwn; decide +kernel,
    by decide +kernel⟩

theorem test_premises_queue_store :
    (queueing slot []).core.ready { ss := [(1#5, 0)], ds := [7#5] } = true ∧
    (match (queueing slot []).cmdPlan .store (blockAccesses ((queueing slot []).src 1#5 0).toNat 8192) with | .go _ => true | _ => false) = true :=
  by decide +kernel

theorem test_premises_queue_carry :
    (queueing slot []).core.ready { ss := [(3#5, 0), (2#5, 0)], ds := [7#5] } = true ∧
    (queueing slot []).isPeer (((queueing slot []).src 3#5 0).toNat % 4096) = true ∧
    (queueing slot []).isPeer (((queueing slot []).src 6#5 0).toNat % 4096) = false ∧
    (queueing slot []).core.ready { ss := [(6#5, 0), (2#5, 0)], ds := [7#5] } = true :=
  by decide +kernel

def waitsDone : State := withCore (queueing slot []) fun k => { k with pendingWait := true }

theorem test_premises_queue_wait :
    Claims.Alone waitsDone ∧
    Claims.Calm waitsDone ∧
    Claims.waitable (.cadd 7#5 1#5 2#5 1#1 1#2) = some { ss := [(1#5, 0), (2#5, 0)], ds := [7#5] } ∧
    waitsDone.core.ready { ss := [(1#5, 0), (2#5, 0)], ds := [7#5] } = true ∧
    waitsDone.core.pendingWait = true ∧
    (∀ q ∈ waitsDone.core.mqueue, q.waits = false) :=
  ⟨(Claims.alone_iff _).mpr ⟨(Claims.quiet_iff _).mpr (by decide +kernel), by decide +kernel⟩,
    (Claims.calm_iff _).mpr (by decide +kernel),
    by decide +kernel⟩

def loadCmd : QCmd := { cmd := .mldacc, slot := 1, b := 0x10405#64, elems := [{ v := 1, count := 1 }] }

def addCmd : QCmd := { cmd := .cadd false, slot := 1, a := 0x1003#64, b := 0x6#64, d := 4#5 }

def commanded (q : QCmd) : State := mk fun k => { k with mslots := [(1, slot)], mqueue := [q] }

theorem test_premises_command_load :
    ((commanded loadCmd).getCore 0).mqueue = [loadCmd] ∧
    (commanded loadCmd).engineLive 0 = true ∧
    ((commanded loadCmd).getCore 0).mentries = [] ∧
    loadCmd.cmd = .mldacc :=
  by decide +kernel

theorem test_premises_command_add :
    ((commanded addCmd).getCore 0).mqueue = [addCmd] ∧
    (commanded addCmd).engineLive 0 = true ∧
    addCmd.cmd = .cadd false :=
  by decide +kernel

def piece (a n o : Nat) (w : Bool) : Span := { va := 0x0F00000000000000 + a, len := n, place := .scratch 0, addr := a, off := o, wr := w }

def multiplyCmd : QCmd := { cmd := .mma true true, slot := 1, spans := [piece 0x100 8 0 false, piece 0x200 8 8192 false] }

def drainCmd : QCmd := { cmd := .mdrain false, slot := 1, spans := [piece 0x100 8 0 true, piece 0x110 8 8 true], out := List.replicate 16 7#8 }

theorem test_premises_command_multiply :
    ((commanded multiplyCmd).getCore 0).mqueue = [multiplyCmd] ∧
    multiplyCmd.cmd = .mma true true ∧
    multiplyCmd.taken = [] ∧
    (commanded multiplyCmd).engineLive 0 = true ∧
    ((commanded multiplyCmd).getCore 0).mentries = [] ∧
    ((commanded multiplyCmd).getCore 0).wp = [] ∧
    Claims.atHome (commanded multiplyCmd) 0 multiplyCmd ∧
    (((commanded multiplyCmd).getCore 0).slot 1).isOpen = false ∧
    (0 : Nat) < (Claims.geo multiplyCmd.geometry).1 :=
  ⟨by decide +kernel,
    by decide +kernel,
    by decide +kernel,
    by decide +kernel,
    by decide +kernel,
    (by decide +kernel),
    by unfold Claims.atHome; decide +kernel,
    by decide +kernel⟩

theorem test_premises_command_drain :
    ((commanded drainCmd).getCore 0).mqueue = [drainCmd] ∧
    drainCmd.cmd = .mdrain false ∧
    (commanded drainCmd).engineLive 0 = true ∧
    Claims.atHome (commanded drainCmd) 0 drainCmd ∧
    ((∀ p ∈ drainCmd.spans, p.done = false ∧ p.blocked = false ∧ p.off + p.len ≤ drainCmd.out.length)) ∧
    ((commanded drainCmd).getCore 0).wp = [] :=
  ⟨by decide +kernel,
    by decide +kernel,
    by decide +kernel,
    by unfold Claims.atHome; decide +kernel,
    by decide +kernel⟩

theorem test_premises_command_store :
    ((commanded { drainCmd with cmd := .mstacc }).getCore 0).mqueue = [{ drainCmd with cmd := .mstacc }] ∧
    { drainCmd with cmd := .mstacc }.started = false ∧
    { drainCmd with cmd := .mstacc, started := true }.started = true ∧
    (commanded { drainCmd with cmd := .mstacc }).engineLive 0 = true ∧
    Claims.atHome (commanded { drainCmd with cmd := .mstacc, started := true }) 0 { drainCmd with cmd := .mstacc, started := true } :=
  ⟨by decide +kernel,
    by decide +kernel,
    by decide +kernel,
    by decide +kernel,
    by unfold Claims.atHome; decide +kernel⟩

theorem test_premises_grid :
    (-3 : Int) ≤ 0 ∧
    7 * 2 ^ ((0 : Int) - -3).toNat ≤ 2 ^ (55 - 24) - 1 ∧
    (-3 : Int) ≤ 28 ∧
    2 ^ (55 - 24) - 1 < 1 * 2 ^ ((28 : Int) - -3).toNat ∧
    2 * (5 % 2 ^ 1) = 2 ^ 1 :=
  by decide +kernel

def row (d : Nat) : CarryRow := { ctx := 0, dst := 0, dslot := 1, row := 0, src := 3, sslot := 2, scale := 3, headroom := 2, elems := [{ v := 4, count := d }] }

def rowed (op : Bool) (d : Nat) (sc : Int) : State := { mk (fun k => { k with mslots := [(1, { slot with isOpen := op, nexp := 3, scale := sc })], carryRecs := [(0, { word := 1#64 })] }) with rows := [row d, { row 1 with src := 2 }] }

theorem test_premises_row_added :
    (rowed true 3 3).live (row 3).ctx = true ∧
    (rowed true 3 3).rows = [row 3, { row 1 with src := 2 }] ∧
    (((rowed true 3 3).getCore 0).slot 1).isOpen = true ∧
    (((rowed true 3 3).getCore 0).slot 1).scale = (row 3).scale ∧
    (((rowed true 3 3).getCore 0).slot 1).headroom = (row 3).headroom ∧
    (∀ j < 32, ((((rowed true 3 3).getCore 0).slot 1).elem (32 * (row 3).row + j)).count + ((row 3).elems.getD j {}).count ≤ (((rowed true 3 3).getCore 0).slot 1).nexp) ∧
    (row 3).row < 32 ∧
    (((rowed true 3 3).getCore 0).slot 1).future = 0 :=
  by decide +kernel

theorem test_premises_row_closed :
    (rowed false 3 3).live (row 3).ctx = true ∧
    (rowed false 3 3).rows = [row 3, { row 1 with src := 2 }] ∧
    (((rowed false 3 3).getCore 0).slot 1).isOpen = false ∧
    tfind 1 ((rowed false 3 3).getCore 0).carryRecs = none ∧
    (∀ j < 1, tfind j ((rowed false 3 3).getCore 0).carryRecs ≠ none) :=
  by decide +kernel

theorem test_premises_row_scale :
    (((rowed true 3 4).getCore 0).slot 1).isOpen = true ∧
    (((rowed true 3 4).getCore 0).slot 1).scale ≠ (row 3).scale :=
  by decide +kernel

theorem test_premises_row_excess :
    (¬(∀ j < 32, ((((rowed true 4 3).getCore 0).slot 1).elem (32 * (row 4).row + j)).count + ((row 4).elems.getD j {}).count ≤ (((rowed true 4 3).getCore 0).slot 1).nexp)) ∧
    (((rowed true 4 3).getCore 0).slot 1).scale = (row 4).scale :=
  by decide +kernel

theorem test_premises_row_merge :
    mayMerge (row 2) { row 1 with src := 2 } = true ∧
    (rowed true 2 3).rows = [row 2, { row 1 with src := 2 }] :=
  by decide +kernel

def recorded (a : Word) : State := mk fun k => { k with sregs := [(1, Ver.one a)], carryRecs := [(0, { word := 1#64 }), (3, { word := 9#64, delivered := true })], carryLost := 2 ^ 32 - 1 }

theorem test_premises_carry_record :
    Claims.Alone (recorded 0x3#64) ∧
    Claims.Calm (recorded 0x3#64) ∧
    (recorded 0x3#64).core.ready { ss := [(1#5, 0)], ds := [4#5] } = true ∧
    ((recorded 0x3#64).src 1#5 0).getLsbD 4 = false ∧
    ((recorded 0x3#64).src 1#5 0).getLsbD 3 = false ∧
    ((recorded 0x8#64).src 1#5 0).getLsbD 4 = false ∧
    ((recorded 0x8#64).src 1#5 0).getLsbD 3 = true ∧
    (recorded 0x8#64).core.carryLost < 2 ^ 32 :=
  ⟨(Claims.alone_iff _).mpr ⟨(Claims.quiet_iff _).mpr (by decide +kernel), by decide +kernel⟩,
    (Claims.calm_iff _).mpr (by decide +kernel),
    by decide +kernel⟩

def tabled (t : DecTab) : State := { mk (fun k => { k with tables := [(2, t)], sregs := [(1, Ver.one 0x0F00000000000100#64), (2, Ver.one 6#64), (3, Ver.one 0x0F00000000000104#64), (4, Ver.one 8#64), (5, Ver.one 1292#64), (6, Ver.one 0x3FF8000000000000#64)] }) with mem := pad [(0x104, 0x0FE00000, 4), (0x4FC, 0x80000000, 4)] }

theorem test_premises_table_refused :
    Claims.Alone (tabled e2m1) ∧
    Claims.Calm (tabled e2m1) ∧
    (tabled e2m1).core.ready { ss := [(3#5, 0), (4#5, 0)] } = true ∧
    ((tabled e2m1).src 3#5 0).toNat % 8 ≠ 0 ∧
    8 ≤ ((tabled e2m1).src 4#5 0).toNat :=
  ⟨(Claims.alone_iff _).mpr ⟨(Claims.quiet_iff _).mpr (by decide +kernel), by decide +kernel⟩,
    (Claims.calm_iff _).mpr (by decide +kernel),
    by decide +kernel⟩

theorem test_premises_table_loaded :
    (tabled e2m1).core.ready { ss := [(1#5, 0), (2#5, 0)] } = true ∧
    ((tabled e2m1).src 1#5 0).toNat % 8 = 0 ∧
    ((tabled e2m1).src 2#5 0).toNat < 8 ∧
    (∀ q ∈ (tabled e2m1).core.mqueue, q.namesTable (2#2).toNat = false) ∧
    Claims.Image (tabled e2m1) ((tabled e2m1).src 1#5 0).toNat 1024 ∧
    imageFault (imageEntries (Claims.imageBytes (tabled e2m1) ((tabled e2m1).src 1#5 0).toNat 1024)) = none :=
  ⟨by decide +kernel,
    by decide +kernel,
    by decide +kernel,
    by decide +kernel,
    (Claims.image_iff _ _ _).mpr (by decide +kernel),
    by decide +kernel⟩

theorem test_premises_table_read :
    (tabled e2m1).core.ready { ss := [(5#5, 0)], ds := [7#5] } = true ∧
    ((tabled e2m1).src 5#5 0).toNat = 1292 ∧
    (1292 : Nat) % 4 = 0 ∧
    e2m1.encode (fmt64.val ((tabled e2m1).src 6#5 0).toNat) = .ok (3, false) ∧
    (tabled e2m1).core.ready { ds := [7#5] } = true ∧
    e2m1.check = none ∧
    (∃ c, ({} : DecTab).check = some c) :=
  ⟨by decide +kernel,
    by decide +kernel,
    by decide +kernel,
    by decide +kernel,
    by decide +kernel,
    (by decide +kernel),
    ⟨(({} : DecTab).check).getD 0, by decide +kernel⟩⟩

def ppuImage : State := { tabled e2m1 with mem := pad ((List.range 63).map fun j => (0x117 + 4 * j, j + 1, 1)) }

/-- Above every listed cell memory reads as zero. -/

theorem readBytes_above {m : List Host.Cell} {a : Nat} (h : ∀ c ∈ m, c.1 < a) (n : Nat) :
    memReadBytes m a n = List.replicate n 0#8 := by
  have z : ∀ (m : List Host.Cell) (b : Nat), (∀ c ∈ m, c.1 < b) → memByte m b = 0#8 := by
    intro m
    induction m with
    | nil => intro _ _; rfl
    | cons c m ih =>
      intro b hb
      show (if c.1 = b then c.2 else memByte m b) = 0#8
      rw [if_neg (Nat.ne_of_lt (hb c (by simp))), ih b fun d hd => hb d (by simp [hd])]
  rw [List.eq_replicate_iff]
  refine ⟨by simp [memReadBytes], fun b hb => ?_⟩
  obtain ⟨i, -, rfl⟩ := List.mem_map.mp hb
  exact z m _ fun c hc => Nat.lt_of_lt_of_le (h c hc) (Nat.le_add_right a i)

theorem readBytes_drop (m : List Host.Cell) (a n k : Nat) : (memReadBytes m a n).drop k = memReadBytes m (a + k) (n - k) := by
  apply List.ext_getElem
  · simp [memReadBytes]
  · intro i _ _
    simp [memReadBytes, Nat.add_assoc]

/-- An image whose breakpoints rise, with every coefficient zero, passes. -/

theorem ppu_passes {img : List Byte} (h : (decide (bytesNat ((img.drop 0).take 4) < 3 ∧ bytesNat ((img.drop 8).take 4) = 0 ∧ bytesNat ((img.drop 12).take 4) = 0) &&
      ((List.range 64).all fun j => decide (field (bytesNat ((img.drop (0x10 + 4 * j)).take 4)) 23 8 ≠ 255)) &&
      (List.range 63).all fun j => (fmt32.val (bytesNat ((img.drop (0x10 + 4 * j)).take 4))).lt (fmt32.val (bytesNat ((img.drop (0x10 + 4 * (j + 1))).take 4)))) = true)
    (z : img.drop 0x110 = List.replicate 1024 0#8) : ppuFault img = none := by
  simp only [Bool.and_eq_true, decide_eq_true_eq] at h
  obtain ⟨⟨⟨h1, h2, h3⟩, h4⟩, h5⟩ := h
  have h6 : ((List.range 256).all fun j => decide (field (bytesNat ((img.drop (0x110 + 4 * j)).take 4)) 23 8 ≠ 255)) = true := by
    rw [List.all_eq_true]
    intro j hj
    have hj : j < 256 := List.mem_range.mp hj
    rw [← List.drop_drop, z, List.drop_replicate, List.take_replicate, Nat.min_eq_left (by omega)]
    rfl
  unfold ppuFault
  simp only []
  rw [if_neg (by omega), h4, h5, h6]
  rfl

theorem test_premises_ppu :
    ppuImage.core.ready { ss := [(1#5, 0)] } = true ∧
    Claims.Image ppuImage (ppuImage.src 1#5 0).toNat 1296 ∧
    ppuFault (Claims.imageBytes ppuImage 0x0F00000000000100 1296) = none ∧
    ppuFault (Claims.imageBytes { tabled e2m1 with mem := [] } 0x0F00000000000100 1296) = some 0x184#10 :=
  ⟨by decide +kernel,
    (Claims.image_iff _ _ _).mpr (by decide +kernel),
    ppu_passes (by decide +kernel) ((readBytes_drop _ _ _ _).trans (readBytes_above (by decide +kernel) 1024)),
    by decide +kernel⟩

def config : Word := 0x100000000#64 ||| (0x1F#64 <<< 28) ||| (4#64 <<< 40)

def ringed (r : Ring) (m : List Host.Cell) : State := { mk (fun k => { k with sregs := [(1, Ver.one config), (2, Ver.one 0#64), (3, Ver.one 0x0F00000000000100#64), (4, Ver.one 0x5#64), (5, Ver.one 0x60#64)], fcnt := [(1, 3)] }) with clusters := [(0, { context := some 0, ring := r })], mem := m }

def off : State := ringed {} []

theorem test_premises_ring_config :
    Claims.Alone off ∧
    Claims.Calm off ∧
    off.core.ready { ss := [(1#5, 0)] } = true ∧
    (Claims.ringOf off).state = .off ∧
    off.badRing (off.src 1#5 0) = false ∧
    off.badRing (off.src 2#5 0) = true ∧
    (Claims.ringOf (ringed { state := .draining } [])).state = .draining :=
  ⟨(Claims.alone_iff _).mpr ⟨(Claims.quiet_iff _).mpr (by decide +kernel), by decide +kernel⟩,
    (Claims.calm_iff _).mpr (by decide +kernel),
    by decide +kernel⟩

theorem test_premises_ring_match :
    off.core.ready { ss := [(3#5, 0)] } = true ∧
    (off.src 3#5 0).toNat % 8 = 0 ∧
    Claims.Image off (off.src 3#5 0).toNat 192 ∧
    off.core.noTasks = true ∧
    badMatchImage (Claims.imageBytes off 0x0F00000000000100 192) = false ∧
    badMatchImage (Claims.imageBytes (ringed {} (pad [(0x100, 0xC0000000, 8)])) 0x0F00000000000100 192) = true ∧
    (∀ e < 8, off.core.actionDue e = false) :=
  ⟨by decide +kernel,
    by decide +kernel,
    (Claims.image_iff _ _ _).mpr (by decide +kernel),
    by decide +kernel⟩

def tasked : State := withCore off fun k => { k with tasks := [(1, 2, 10, 11, 5, true)], tcnt := [(2, 2)] }

theorem test_premises_ring_task :
    (∀ e x y n, tfind ((off.src 4#5 0).toNat % 4) off.core.tasks ≠ some (e, x, y, n, true)) ∧
    tfind ((tasked.src 4#5 0).toNat % 4) tasked.core.tasks = some (2, 10, 11, 5, true) ∧
    tasked.core.mentries = [] :=
  ⟨by intro e x y n h; exact absurd h (by simp [off, ringed, mk, tfind, core0]),
    by decide +kernel⟩

def injecting (r : Ring) : State := ringed r (pad [(0x100, 0x0000000380001002, 8), (0x110, 3, 1)])

def running : Ring := { state := .running, config := 0x8000000#64 }

theorem test_premises_ring_inject :
    Claims.Alone (injecting running) ∧
    Claims.Calm (injecting running) ∧
    (injecting running).core.ready { ss := [(3#5, 0)] } = true ∧
    (injecting running).core.pendingWait = false ∧
    ((injecting running).src 3#5 0).toNat % 8 = 0 ∧
    (memByte (injecting running).mem (Claims.ownKey (injecting running) 0x0F00000000000110)).toNat = 3 ∧
    Claims.Image (injecting running) 0x0F00000000000100 (64 + bodySize 3) ∧
    (beadOf (Claims.imageBytes (injecting running) 0x0F00000000000100 (64 + bodySize 3)) 0 (injecting running).ctxNo false).bad = false ∧
    running.roomFor (beadOf (Claims.imageBytes (injecting running) 0x0F00000000000100 (64 + bodySize 3)) 0 (injecting running).ctxNo false) = true ∧
    (beadOf (Claims.imageBytes (ringed running []) 0x0F00000000000100 (64 + bodySize 0)) 0 0 false).bad = true :=
  ⟨(Claims.alone_iff _).mpr ⟨(Claims.quiet_iff _).mpr (by decide +kernel), by decide +kernel⟩,
    (Claims.calm_iff _).mpr (by decide +kernel),
    by decide +kernel,
    by decide +kernel,
    by decide +kernel,
    by decide +kernel,
    (Claims.image_iff _ _ _).mpr (by decide +kernel),
    by decide +kernel⟩

def bead : Bead := { tag := 5#32, pcnt := 2, fmt := 0#8, scale := [], body := [], from_ := 0 }

theorem test_premises_ring_take :
    off.core.ready { ss := [(4#5, 0)], ds := [6#5] } = true ∧
    (Claims.ringOf off).queued 5 = none ∧
    (Claims.ringOf off).find 5 = none ∧
    off.core.ringDone = none ∧
    off.core.ringWait = none ∧
    (Claims.ringOf (ringed { running with queueB := [{ bead with tag := 4#32 }, bead] } [])).queued 5 = some (false, 1, bead) ∧
    (Claims.ringOf (ringed { running with slotB := [(7, bead)] } [])).queued 5 = none ∧
    (Claims.ringOf (ringed { running with slotB := [(7, bead)] } [])).find 5 = some (false, 7, bead) ∧
    (Claims.ringOf (ringed { state := .frozen, slotB := [(7, bead)] } [])).find 5 = some (false, 7, bead) ∧
    (withCore off fun k => { k with ringDone := some 3#64 }).core.ringDone = some 3#64 ∧
    (off.src 5#5 0).toNat / 32 % 4 = 3 :=
  by decide +kernel

def severalTasks : State := withCore off fun k => { k with tasks := [(1, 0, 8, 9, 7, false), (3, 2, 10, 11, 5, false), (2, 2, 12, 13, 4, true)] }

theorem test_premises_ring_tasks :
    off.core.ready { ds := [6#5] } = true ∧
    off.core.tasks = [] ∧
    off.core.ready { ss := [(3#5, 0), (2#5, 0)], ds := [6#5] } = true ∧
    off.core.jobs.length < 2 ∧
    (off.src 2#5 0).toNat % 8 = 0 ∧
    (Claims.ringOf (ringed { state := .frozen } [])).state = .frozen :=
  by decide +kernel

theorem test_premises_ring_tasks_several :
    (3, 2, 10, 11, 5, false) ∈ severalTasks.core.tasks ∧
    ((∀ t ∈ severalTasks.core.tasks, t.1 = 3 → t = (3, 2, 10, 11, 5, false))) ∧
    ((∀ t ∈ severalTasks.core.tasks, t.2.2.2.2.2 = false → t ≠ (3, 2, 10, 11, 5, false) → 5 < t.2.2.2.2.1)) :=
  ⟨by simp [severalTasks, withCore],
    by simp [severalTasks, withCore],
    by simp [severalTasks, withCore]⟩

theorem test_premises_ring_quiet :
    ((running.slotA ≠ [] ∨ running.slotB ≠ [] ∨ ∃ i < 16, ((ringed running []).getCore ((ringed running []).cur / 16 * 16 + i)).noTasks = false) = False) ∧
    (({ running with slotB := [(7, bead)] }.slotA ≠ [] ∨ { running with slotB := [(7, bead)] }.slotB ≠ [])) ∧
    (∃ i < 16, ((withCore (ringed running []) fun k => { k with tcnt := [(2, 1)] }).getCore ((ringed running []).cur / 16 * 16 + i)).noTasks = false) ∧
    Claims.Alone (ringed running []) ∧
    Claims.Calm (ringed running []) ∧
    (Claims.ringOf (ringed running [])).state = .running :=
  ⟨by decide +kernel,
    by decide +kernel,
    by decide +kernel,
    (Claims.alone_iff _).mpr ⟨(Claims.quiet_iff _).mpr (by decide +kernel), by decide +kernel⟩,
    (Claims.calm_iff _).mpr (by decide +kernel),
    by decide +kernel⟩

def turning (n : Nat) : Ring := { state := .running, config := 4#64 <<< 40, steps := n, slotA := [(3, bead), (15, { bead with dcnt := 2 })], slotB := [(0, { bead with age := 9 })] }

theorem test_premises_ring_step :
    ((ringed (turning 5) []).cluster 0).ring = turning 5 ∧
    ((ringed (turning 5) []).cluster 0).context = some 0 ∧
    (ringed (turning 5) []).live 0 = true ∧
    (turning 5).state = .running ∧
    1 ≤ (turning 5).limit ∧
    { turning 5 with queueB := [bead] }.queueB ≠ [] ∧
    Claims.injectInto [(3, bead)] [{ bead with tag := 6#32 }] = ([(0, { bead with tag := 6#32 }), (3, bead)], []) ∧
    Claims.injectInto [(0, bead)] [bead] = ([(0, bead)], [bead]) ∧
    (turning 5).takes = [] ∧
    (∀ i < 16, (turning 5).takesPart i = false) ∧
    ((∀ i < 16, ((ringed (turning 5) []).getCore (16 * 0 + i)).mentries = [] ∧ ((ringed (turning 5) []).getCore (16 * 0 + i)).debugStopped = false)) ∧
    (∀ x ∈ (turning 5).slotA, x.1 < 16) ∧
    (∀ x ∈ (turning 5).slotB, x.1 < 16) ∧
    (∀ x ∈ (turning 5).slotA ++ (turning 5).slotB, x.2.age + 1 < 32 * (turning 5).limit) ∧
    (turning 5).steps % 2 = 1 ∧
    (turning 4).steps % 2 = 0 :=
  by decide +kernel

def fillJob (n : Nat) : Job := { num := n, qw0 := 0x400000000#64, qw1 := 0x1122334455667788#64, qw2 := 0x0F00000000000208#64, qw3 := 8#64, system := false }

def copying (js : List Job) (h : List Word) (last : Nat) : State := mk fun k => { k with sregs := [(1, Ver.one 7#64), (2, Ver.one 0#64)], jobs := js, history := h, lastJob := last }

theorem test_premises_copy_status :
    Claims.Alone (copying [fillJob 7] [] 8) ∧
    Claims.Calm (copying [fillJob 7] [] 8) ∧
    (copying [fillJob 7] [] 8).core.ready { ss := [(1#5, 0)], ds := [4#5] } = true ∧
    (copying [fillJob 7] [] 8).core.ready { ss := [(1#5, 0)] } = true ∧
    (∃ j ∈ (copying [fillJob 7] [] 8).core.jobs, j.num = 7) ∧
    ((copying [fillJob 7] [] 8).src 2#5 0).toNat % 2 ^ 32 = 0 ∧
    (∀ j ∈ (copying [fillJob 8] [0x12300000007#64] 8).core.jobs, j.num ≠ 7) ∧
    (0x12300000007#64 : Word).toNat % 2 ^ 32 = 7 ∧
    (copying [] [] 6).core.history = [] ∧
    (copying [] [] 6).core.wrapped = false ∧
    (copying [] [] 6).core.lastJob < 7 ∧
    (fillJob 7).qw0.toNat % 2 ^ 32 = 0 ∧
    ((copying [fillJob 7] [] 8).getCore (pullCore (fillJob 7).record)).mentries = [] :=
  ⟨(Claims.alone_iff _).mpr ⟨(Claims.quiet_iff _).mpr (by decide +kernel), by decide +kernel⟩,
    (Claims.calm_iff _).mpr (by decide +kernel),
    by decide +kernel⟩

theorem test_premises_copy_fill :
    Claims.Unbegun (copying [fillJob 7] [] 8) 0 (fillJob 7) ∧
    ((copying [fillJob 7] [] 8).getCore 0).jobs = [fillJob 7] ∧
    (copying [fillJob 7] [] 8).jobMayRun 0 0 = true ∧
    wfield (fillJob 7).qw0 32 4 = 4 ∧
    (fillJob 7).qw2.toNat / 2 ^ 56 = 15 ∧
    (fillJob 7).qw2.toNat % 8 = 0 ∧
    (fillJob 7).qw3.toNat = 8 ∧
    (fillJob 7).qw2.toNat % 2 ^ 56 + 8 ≤ ((copying [fillJob 7] [] 8).getCore 0).scratchSize ∧
    ((copying [fillJob 7] [] 8).getCore 0).wp = [] ∧
    (copying [{ fillJob 7 with qw2 := 0x1000000000000000#64 }] [] 8).jobMayRun 0 0 = true ∧
    2 ^ 60 ≤ ({ fillJob 7 with qw2 := 0x1000000000000000#64 } : Job).qw2.toNat ∧
    ((copying [{ fillJob 7 with qw2 := 0x1000000000000000#64 }] [] 8).getCore 0).asyncs = [] :=
  ⟨⟨by decide +kernel, by decide +kernel, by decide +kernel, by decide +kernel, by decide +kernel, by decide +kernel⟩,
    by decide +kernel⟩

def subscribed : Job := { fillJob 7 with qw0 := 0x500000000#64, running := true, record := natBytes (0xFF + 2 ^ 32) 16 ++ natBytes (0x0F00000000000200 + 5 * 2 ^ 64 + 3 * 2 ^ 96 + 3 * 2 ^ 104 + 16 * 2 ^ 112) 16 }

def loading : State := { copying [subscribed] [] 8 with clusters := [(0, { context := some 0, ring := running })] }

theorem test_premises_copy_bead :
    Claims.Unbegun loading 0 subscribed ∧
    (loading.getCore 0).jobs = [subscribed] ∧
    loading.jobMayRun 0 0 = true ∧
    subscribed.qw0.toNat % 2 ^ 32 = 0 ∧
    subscribed.qw0.toNat / 2 ^ 32 % 16 = 5 ∧
    subscribed.recordLeft = none ∧
    ((match loading.nextBead 0 subscribed with | .bead b cl t => decide ((t.ring cl).state = .running ∧ (t.ring cl).roomFor b = true) | _ => false) = true) :=
  ⟨⟨by decide +kernel, by decide +kernel, by decide +kernel, by decide +kernel, by decide +kernel, by decide +kernel⟩,
    by decide +kernel⟩

/-! ## Premises: futures, units of work, channels, phases, barriers -/

def entryBytes (v st gen nw wh wt : Nat) : List Byte := FutEntry.bytes { value := v, st := st, gen := gen, nwait := nw, whead := wh, wtail := wt }

def futures (l : List (Nat × List Byte)) (a b : Nat) : State := { mk (fun k => { k with sregs := [(1, Ver.one (BitVec.ofNat 64 a)), (2, Ver.one (BitVec.ofNat 64 b))], l1d := [(7, 1#1024)] }) with mem := l.foldl (fun m x => memWriteBytes m (0x200000 + 32 * x.1) x.2) [] }

/-- Handle of entry 5 in generation 9. -/

def handle : Nat := 9 * 2 ^ 20 + 5

def fut (st nw wh : Nat) : State := futures [(5, entryBytes 77 st 9 nw wh wh)] handle handle

theorem test_premises_future_new :
    (∀ p ∈ (futures [] 0 0).cards, p.2.count ≠ 0) ∧
    Claims.Alone (futures [] 0 0) ∧
    Claims.Settled (futures [] 0 0) ∧
    Memory.wf (futures [] 0 0).mem = true ∧
    Claims.InContext (futures [] 0 0) 0 ctx0 ∧
    (futures [] 0 0).core.ready { ds := [4#5] } = true ∧
    ctx0.freeFutures = [0, 1, 2, 3] ∧
    { ctx0 with freeFutures := [] }.freeFutures = [] ∧
    Claims.InContext { futures [] 0 0 with contexts := [(0, { ctx0 with freeFutures := [] })] } 0 { ctx0 with freeFutures := [] } ∧
    (∀ a, (futures [] 0 0).canLog 0 a = true) :=
  ⟨by decide +kernel,
    (Claims.alone_iff _).mpr ⟨(Claims.quiet_iff _).mpr (by decide +kernel), by decide +kernel⟩,
    (Claims.settled_iff _).mpr (by decide +kernel),
    by decide +kernel,
    (Claims.inContext_iff _ _ _).mpr (by decide +kernel),
    by decide +kernel,
    by decide +kernel,
    by decide +kernel,
    (Claims.inContext_iff _ _ _).mpr (by decide +kernel),
    fun a => (by simp [futures, mk, base, ctx0, State.canLog, tfind])⟩

theorem test_premises_future_free :
    Claims.Alone (fut 2 0 0) ∧
    Claims.Settled (fut 2 0 0) ∧
    Memory.wf (fut 2 0 0).mem = true ∧
    Claims.InContext (fut 2 0 0) 0 ctx0 ∧
    (fut 2 0 0).core.ready { ss := [(1#5, 0)] } = true ∧
    ((fut 2 0 0).src 1#5 0).toNat % 2 ^ 32 = handle ∧
    Claims.valid ctx0 handle ∧
    Claims.live (fut 2 0 0) ctx0 handle ∧
    (Claims.entry ctx0 (fut 2 0 0).mem (Claims.idx handle)).st ≠ 1 ∧
    (¬Claims.valid ctx0 (9 * 2 ^ 20 + 8)) ∧
    (¬Claims.valid ctx0 5) ∧
    (¬Claims.live (fut 2 0 0) ctx0 (8 * 2 ^ 20 + 5)) ∧
    Claims.valid ctx0 (8 * 2 ^ 20 + 5) ∧
    (Claims.entry ctx0 (fut 1 1 1).mem (Claims.idx handle)).st = 1 ∧
    (Claims.entry ctx0 (fut 1 1 1).mem (Claims.idx handle)).nwait ≠ 0 ∧
    Claims.live (fut 1 1 1) ctx0 handle :=
  ⟨(Claims.alone_iff _).mpr ⟨(Claims.quiet_iff _).mpr (by decide +kernel), by decide +kernel⟩,
    (Claims.settled_iff _).mpr (by decide +kernel),
    by decide +kernel,
    (Claims.inContext_iff _ _ _).mpr (by decide +kernel),
    by decide +kernel,
    by decide +kernel,
    by unfold Claims.valid; decide +kernel,
    by unfold Claims.live; decide +kernel,
    by decide +kernel,
    by unfold Claims.valid; decide +kernel,
    by unfold Claims.valid; decide +kernel,
    by unfold Claims.live; decide +kernel,
    by unfold Claims.valid; decide +kernel,
    by decide +kernel,
    by decide +kernel,
    by unfold Claims.live; decide +kernel⟩

def awaited : State := { fut 1 1 4 with waiters := [(4, { who := .core 3, fut := 5 })], others := [(3, { sleeping := some (5, 4) })] }

theorem test_premises_future_put :
    Claims.settling (fut 1 0 0) (.fput 1#5 2#5) = some (1#5, 2#5, 2, ((fut 1 0 0).src 2#5 0).toNat) ∧
    (fut 1 0 0).core.ready { ss := [(1#5, 0), (2#5, 0)] } = true ∧
    Claims.live (fut 1 0 0) ctx0 handle ∧
    (Claims.entry ctx0 (fut 1 0 0).mem (Claims.idx handle)).st = 1 ∧
    (Claims.entry ctx0 (fut 1 0 0).mem (Claims.idx handle)).nwait = 0 ∧
    Claims.Alone awaited ∧
    Claims.Settled awaited ∧
    Claims.live awaited ctx0 handle ∧
    (Claims.entry ctx0 awaited.mem (Claims.idx handle)).nwait = 1 ∧
    (Claims.entry ctx0 awaited.mem (Claims.idx handle)).whead = 4 ∧
    tfind 4 awaited.waiters = some { who := .core 3, fut := 5, next := 0 } ∧
    (3 : Nat) ≠ awaited.cur :=
  ⟨by decide +kernel,
    by decide +kernel,
    by unfold Claims.live; decide +kernel,
    by decide +kernel,
    by decide +kernel,
    (Claims.alone_iff _).mpr ⟨(Claims.quiet_iff _).mpr (by decide +kernel), by decide +kernel⟩,
    (Claims.settled_iff _).mpr (by decide +kernel),
    by unfold Claims.live; decide +kernel,
    by decide +kernel⟩

theorem test_premises_future_get :
    (fut 2 0 0).core.ready { ss := [(1#5, 0)], ds := [4#5, 6#5] } = true ∧
    (fut 2 0 0).core.sleeping = none ∧
    (fut 2 0 0).core.rechecking = false ∧
    (fut 2 0 0).core.futDone = none ∧
    (fut 1 0 0).waiters = [] ∧
    (withCore (fut 1 0 0) fun k => { k with futDone := some (3#64, 3) }).core.futDone = some (3#64, 3) :=
  by decide +kernel

def card : Card := { queue := 0, resv := 0, ctx := 0, agency := 5, prio := 0, gang := 0, note := false, hreq := false, count := 5, entry := 0x0F00000000003000#64, argBase := 0x1000#64, argSize := 16, chunk0 := 1, chunkMin := 1, image := 1, hint := 0, done := 2 ^ 20 + 2, regions := [], rem := 2 }

def linking (st : Nat) : State := { futures [(5, entryBytes 77 st 9 0 0 0), (2, entryBytes 0 1 1 0 0 0)] handle (2 ^ 20 + 2) with cards := [(3, card)] }

theorem test_premises_future_link :
    (∀ p ∈ (linking 1).cards, p.2.count ≠ 0) ∧
    Claims.Alone (linking 1) ∧
    Claims.Settled (linking 1) ∧
    Memory.wf (linking 1).mem = true ∧
    Claims.InContext (linking 1) 0 ctx0 ∧
    (linking 1).core.ready { ss := [(1#5, 0), (2#5, 0)], ds := [4#5] } = true ∧
    ((linking 1).src 1#5 0).toNat % 2 ^ 32 = handle ∧
    ((linking 1).src 2#5 0).toNat % 2 ^ 32 = 2 ^ 20 + 2 ∧
    Claims.valid ctx0 handle ∧
    Claims.live (linking 1) ctx0 handle ∧
    Claims.valid ctx0 (2 ^ 20 + 2) ∧
    Claims.live (linking 1) ctx0 (2 ^ 20 + 2) ∧
    (linking 1).cards = [(3, card)] ∧
    (card.state = .waiting ∧ card.ctx = 0 ∧ card.done = 2 ^ 20 + 2) ∧
    (Claims.entry ctx0 (linking 1).mem (Claims.idx handle)).st = 1 ∧
    (Claims.entry ctx0 (linking 1).mem (Claims.idx handle)).nwait = 0 ∧
    (linking 1).waiters = [] ∧
    (Claims.entry ctx0 (linking 2).mem (Claims.idx handle)).st = 2 ∧
    (Claims.entry ctx0 (linking 3).mem (Claims.idx handle)).st = 3 ∧
    Claims.live (linking 3) ctx0 handle ∧
    (∀ p ∈ ({ linking 1 with cards := [] } : State).cards, p.2.done ≠ 2 ^ 20 + 2) :=
  ⟨by decide +kernel,
    (Claims.alone_iff _).mpr ⟨(Claims.quiet_iff _).mpr (by decide +kernel), by decide +kernel⟩,
    (Claims.settled_iff _).mpr (by decide +kernel),
    by decide +kernel,
    (Claims.inContext_iff _ _ _).mpr (by decide +kernel),
    by decide +kernel,
    by decide +kernel,
    by decide +kernel,
    by unfold Claims.valid; decide +kernel,
    by unfold Claims.live; decide +kernel,
    by unfold Claims.valid; decide +kernel,
    by unfold Claims.live; decide +kernel,
    by decide +kernel,
    by decide +kernel,
    by decide +kernel,
    by decide +kernel,
    by decide +kernel,
    (by decide +kernel),
    by decide +kernel,
    by unfold Claims.live; decide +kernel,
    by decide +kernel⟩

theorem test_premises_future_recheck : ({ base with others := [(3, { rechecking := true })] }.getCore 3).rechecking = true := by decide +kernel

def queueDesc (ctx : Nat) : Word := BitVec.ofNat 64 (2 ^ 63 + 4 * 2 ^ 48 + ctx * 2 ^ 26)

def jobbing (ctx : Nat) : State := { mk (fun k => { k with sregs := [(1, Ver.one 3#64)], lastCard := some 1, stackTop := 0x55#64 }) with queues := [(3, { desc := queueDesc ctx, base := 0x300000, h := 17 })], cards := [(1, card)] }

theorem test_premises_job_submit :
    Claims.Alone (jobbing 0) ∧
    Claims.Calm (jobbing 0) ∧
    (jobbing 0).core.context = some 0 ∧
    (jobbing 0).core.ready { ss := [(1#5, 0)] } = true ∧
    ((jobbing 0).src 1#5 0).toNat % 2 ^ 15 = 3 ∧
    (queueDesc 0).getLsbD 63 = true ∧
    (queueDesc 0).toNat / 2 ^ 26 % 64 = 0 ∧
    (queueDesc 1).toNat / 2 ^ 26 % 64 ≠ 0 ∧
    (jobbing 0).live 0 = true ∧
    { jobbing 0 with contexts := [(0, { ctx0 with state := .stopped 3 })] }.live 0 = false ∧
    memRead (jobbing 0).mem (0x300000 + 0x80 + 128 * (17 % 2 ^ ((queueDesc 0).toNat / 2 ^ 48 % 256)) + 0x70) 4 ≠ (17 + 1) % 2 ^ 32 :=
  ⟨(Claims.alone_iff _).mpr ⟨(Claims.quiet_iff _).mpr (by decide +kernel), by decide +kernel⟩,
    (Claims.calm_iff _).mpr (by decide +kernel),
    by decide +kernel⟩

theorem test_premises_job_unit :
    (jobbing 0).core.unit = some { card := 1, ident := 3, stop := 5, argBase := 0x1000#64, argSize := 16 } ∧
    tfind 1 (jobbing 0).cards = some card ∧
    Claims.unitRead (jobbing 0) { card := 1, ident := 3, stop := 5, argBase := 0x1000#64, argSize := 16 } card (.jqry 4#5 1#5) = some (Claims.reads [(1#5, 0#2)] 4#5, 4#5, BitVec.ofNat 64 0) ∧
    (jobbing 0).core.ready (Claims.reads [(1#5, 0#2)] 4#5) = true ∧
    (jobbing 0).core.loading = false ∧
    (jobbing 0).core.loops = [] ∧
    (jobbing 0).core.wasGang = none ∧
    (jobbing 0).core.lastCard = some 1 ∧
    inLoop.core.loops ≠ [] ∧
    inLoop.core.loading = false :=
  by decide +kernel

def binding (kind peer dir szm1 depm1 buf ctr : Nat) : Word × Word := (BitVec.ofNat 64 (kind * 2 ^ 60 + peer * 2 ^ 48 + dir * 2 ^ 44 + szm1 * 2 ^ 32 + depm1 * 2 ^ 26 + buf), BitVec.ofNat 64 ctr)

def channel (dir szm1 : Nat) (sent taken step : Nat) : State := { mk (fun k => { k with bindings := [(2, binding 1 1 dir szm1 1 0x800 0x40)], vregs := [(1, Ver.one 7#512)], sregs := [(1, Ver.one 0x0F00000000000100#64)], chanStep := step }) with mem := cells ([0, 1].flatMap fun c => [(scratchKey c 0x40, sent, 8), (scratchKey c 0x48, taken, 8)]) }

def bound (dir szm1 : Nat) : Word × Word := binding 1 1 dir szm1 1 0x800 0x40

theorem test_premises_channel_send :
    Claims.Alone (channel 0 0 5 3 0) ∧
    Claims.Settled (channel 0 0 5 3 0) ∧
    Claims.Bare (channel 0 0 5 3 0) ∧
    tget (2#4).toNat (channel 0 0 5 3 0).core.bindings (0#64, 0#64) = bound 0 0 ∧
    (channel 0 0 5 3 0).core.ready { ds := [4#5] } = true ∧
    Claims.kind (bound 0 0) = 1 ∧
    Claims.sends (bound 0 0) = true ∧
    Claims.kind (tget 3 (channel 0 0 5 3 0).core.bindings (0#64, 0#64)) ≠ 1 ∧
    (channel 0 0 5 3 0).core.ready { ss := [(1#5, 0)], ds := [4#5] } = true ∧
    ((channel 0 0 5 3 0).src 1#5 0).toNat % 8 = 0 ∧
    (channel 0 0 5 3 0).core.chanStep = 0 ∧
    Claims.depth (bound 0 0) ≤ Claims.inside (channel 0 0 5 3 0) (Claims.peer (bound 0 0)) (bound 0 0) ∧
    (channel 0 0 5 3 6).core.chanStep ≠ 0 ∧
    Claims.peer (bound 0 0) ≠ (channel 0 0 5 3 6).cur ∧
    (channel 0 0 5 3 0).core.ready { vs := [(1#5, 0)], ds := [4#5] } = true ∧
    Claims.bytes (bound 0 0) = 64 ∧
    Claims.bytes (bound 0 1) ≠ 64 ∧
    Claims.inside (channel 0 0 5 4 0) 1 (bound 0 0) < Claims.depth (bound 0 0) :=
  ⟨(Claims.alone_iff _).mpr ⟨(Claims.quiet_iff _).mpr (by decide +kernel), by decide +kernel⟩,
    (Claims.settled_iff _).mpr (by decide +kernel),
    (Claims.bare_iff _).mpr (by decide +kernel),
    by decide +kernel⟩

theorem test_premises_channel_moves :
    ((channel 0 0 5 4 0).getCore 1).wp = [] ∧
    Claims.peer (bound 0 0) ≠ (channel 0 0 5 4 0).cur ∧
    Claims.Image (channel 0 0 5 4 0) ((channel 0 0 5 4 0).src 1#5 0).toNat (Claims.bytes (bound 0 0)) ∧
    Claims.takenOf (channel 1 0 5 4 0) 0 (bound 1 0) < Claims.sentOf (channel 1 0 5 4 0) 0 (bound 1 0) ∧
    Claims.inOwn (channel 1 0 5 4 0) ((channel 1 0 5 4 0).src 1#5 0).toNat (Claims.bytes (bound 1 0)) ∧
    (channel 1 0 5 4 0).core.chanStep = 0 :=
  ⟨by decide +kernel,
    by decide +kernel,
    (Claims.image_iff _ _ _).mpr (by decide +kernel),
    by decide +kernel,
    by unfold Claims.inOwn; decide +kernel,
    by decide +kernel⟩

theorem test_premises_channel_receive :
    Claims.Alone (channel 1 0 5 5 0) ∧
    Claims.Settled (channel 1 0 5 5 0) ∧
    Claims.Bare (channel 1 0 5 5 0) ∧
    Claims.sends (bound 1 0) = false ∧
    Claims.inside (channel 1 0 5 5 0) 0 (bound 1 0) = 0 ∧
    (channel 1 0 5 4 2).core.chanStep ≠ 0 ∧
    (channel 1 0 5 4 2).core.ready { ss := [(1#5, 0)], ds := [4#5] } = true ∧
    (channel 1 0 5 4 2).core.ready { dv := [4#5] } = true ∧
    Claims.bytes (bound 1 0) = 64 :=
  ⟨(Claims.alone_iff _).mpr ⟨(Claims.quiet_iff _).mpr (by decide +kernel), by decide +kernel⟩,
    (Claims.settled_iff _).mpr (by decide +kernel),
    (Claims.bare_iff _).mpr (by decide +kernel),
    by decide +kernel⟩

def schedule : Schedule := { tag := 9, slots := [0#64, 0#64, 0#64] }

def phased (p : Option Phase) (f : Core → Core) : State := { mk (fun k => f { k with inPhase := some 1, vregs := [(1, Ver.one 7#512)], sregs := [(1, Ver.one 0x0F00000000000100#64)] }) with contexts := [(0, { ctx0 with phase := p })], clusters := [(0, { context := some 0, schedules := [(1, schedule)], drops := 70000 })], mem := pad [(0x100, 0x900000003, 8)] }

def outside : State := phased none fun k => { k with inPhase := none }

theorem test_premises_phase_select :
    Claims.Alone outside ∧
    Claims.Calm outside ∧
    Claims.InContext outside 0 ctx0 ∧
    outside.core.ready { ss := [(1#5, 0)] } = true ∧
    outside.core.inPhase = none ∧
    (outside.src 1#5 0).toNat % 8 = 0 ∧
    Claims.Image outside (outside.src 1#5 0).toNat (8 + 8 * 3) ∧
    memRead outside.mem (Claims.ownKey outside 0x0F00000000000100) 8 % 2 ^ 32 = 3 ∧
    (∀ i < 3, memRead outside.mem (Claims.ownKey outside 0x0F00000000000100 + 8 + 8 * i) 8 = 0) ∧
    outside.badSlot ctx0.desc 0 0#64 = false ∧
    outside.badSlot ctx0.desc 0 7#64 = true :=
  ⟨(Claims.alone_iff _).mpr ⟨(Claims.quiet_iff _).mpr (by decide +kernel), by decide +kernel⟩,
    (Claims.calm_iff _).mpr (by decide +kernel),
    (Claims.inContext_iff _ _ _).mpr (by decide +kernel),
    by decide +kernel,
    by decide +kernel,
    by decide +kernel,
    (Claims.image_iff _ _ _).mpr (by decide +kernel),
    by decide +kernel⟩

def waitingCore : Core := { pc := 0x100#64, barpAt := some 1, context := some 0 }

def gathered : State := { cur := 0, core := waitingCore, others := (List.range 16).map fun i => (i, waitingCore), contexts := [(0, ctx0)], clusters := [(0, { context := some 0, schedules := [(1, schedule)] })] }

theorem test_premises_phase_start :
    gathered.live 0 = true ∧
    outside.core.barpDone = false ∧
    (withCore outside fun k => { k with barpDone := true }).core.barpDone = true ∧
    (waitingCore.debugStopped = false) ∧
    { waitingCore with dstat := 0x8000000000000000#64 }.debugStopped = true ∧
    gathered.coresOf 0 ≠ [] ∧
    ((∀ c ∈ gathered.coresOf 0, (gathered.getCore c).barpAt = some 1 ∧ gathered.quietMesh c = true ∧ (gathered.getCore c).gang = none ∧ (gathered.getCore c).wpHit = none ∧ (gathered.getCore c).stepping = none ∧ (gathered.getCore c).routine = none)) ∧
    (∀ m ∈ gathered.partOf 0, (tfind 1 (gathered.cluster m).schedules).map (fun y => (y.slots.length, y.tag)) = some (3, 9)) :=
  by decide +kernel

def phase (n : Nat) : Phase := { sched := 1, nslot := 3, next := n, beats := [{ slot := n + 1, cluster := 0, upper := false, input := 1, data := 0#512 }] }

def inPhase : State := phased (some (phase 2)) id

def ctx2 : Context := { ctx0 with phase := some (phase 2) }

theorem test_premises_phase_transmit :
    Claims.Alone inPhase ∧
    Claims.Calm inPhase ∧
    Claims.InContext inPhase 0 ctx2 ∧
    Claims.transmit inPhase (.xmit 0#5 1#5 1#3) = some (1#5, 1) ∧
    inPhase.core.ready { vs := [(1#5, 0)] } = true ∧
    (Claims.inSchedule inPhase 1) ∧
    (Claims.past ctx2 1) ∧
    tfind 1 inPhase.core.xmitAt = none ∧
    tfind 1 (withCore inPhase fun k => { k with xmitAt := [(1, 7#512)] }).core.xmitAt ≠ none ∧
    outside.core.inPhase = none ∧
    inPhase.core.xmitSent = false ∧
    (withCore inPhase fun k => { k with xmitSent := true }).core.xmitSent = true :=
  ⟨(Claims.alone_iff _).mpr ⟨(Claims.quiet_iff _).mpr (by decide +kernel), by decide +kernel⟩,
    (Claims.calm_iff _).mpr (by decide +kernel),
    (Claims.inContext_iff _ _ _).mpr (by decide +kernel),
    by decide +kernel,
    by decide +kernel,
    ⟨1, schedule, by decide +kernel, by decide +kernel, by decide +kernel⟩,
    fun p h => by cases h; decide +kernel,
    by decide +kernel⟩

theorem test_premises_phase_receive :
    Claims.receives inPhase (.xrecv 1#5 0#5 2#3) = some (1#5, 2) ∧
    inPhase.core.ready { dv := [1#5] } = true ∧
    (Claims.inSchedule inPhase 2) ∧
    ((∃ p, ctx2.phase = some p ∧ p.next ≤ 2)) ∧
    tfind 1 inPhase.core.recvBeats = none ∧
    tfind 1 (withCore inPhase fun k => { k with recvBeats := [(1, 5#512)] }).core.recvBeats = some 5#512 :=
  ⟨by decide +kernel,
    by decide +kernel,
    ⟨1, schedule, by decide +kernel, by decide +kernel, by decide +kernel⟩,
    ⟨phase 2, rfl, by decide +kernel⟩,
    by decide +kernel⟩

def channelPhase (dir : Nat) : State := withCore inPhase fun k => { k with bindings := [(4, ((binding 2 0 dir 3 0 0 0).1, BitVec.ofNat 64 (2 ^ 56 + 2 ^ 40)))] }

theorem test_premises_phase_completes :
    Claims.Alone (phased none id) ∧
    Claims.Calm (phased none id) ∧
    Claims.InContext (phased none id) 0 ctx0 ∧
    (phased none id).core.inPhase = some 1 ∧
    tfind 1 (tget ((phased none id).cur / 16) (phased none id).clusters {}).schedules = some schedule ∧
    (phased none id).core.ready { vs := [(1#5, 0)] } = true ∧
    (phased none id).core.ready { dv := [1#5] } = true ∧
    (phased none id).core.ready { ds := [4#5] } = true ∧
    (2 : Nat) < schedule.slots.length ∧
    Claims.past ctx0 2 ∧
    ctx0.phase = none :=
  ⟨(Claims.alone_iff _).mpr ⟨(Claims.quiet_iff _).mpr (by decide +kernel), by decide +kernel⟩,
    (Claims.calm_iff _).mpr (by decide +kernel),
    (Claims.inContext_iff _ _ _).mpr (by decide +kernel),
    by decide +kernel,
    by decide +kernel,
    by decide +kernel,
    by decide +kernel,
    by decide +kernel,
    (by decide +kernel),
    fun p h => (by cases h),
    by decide +kernel⟩

theorem test_premises_phase_completes_channel :
    tget (4#4).toNat (channelPhase 0).core.bindings (0#64, 0#64) = ((binding 2 0 0 3 0 0 0).1, BitVec.ofNat 64 (2 ^ 56 + 2 ^ 40)) ∧
    Claims.kind ((binding 2 0 0 3 0 0 0).1, BitVec.ofNat 64 (2 ^ 56 + 2 ^ 40)) = 2 ∧
    Claims.sends ((binding 2 0 0 3 0 0 0).1, BitVec.ofNat 64 (2 ^ 56 + 2 ^ 40)) = true ∧
    Claims.sends ((binding 2 0 1 3 0 0 0).1, BitVec.ofNat 64 (2 ^ 56 + 2 ^ 40)) = false ∧
    1 ≤ (binding 2 0 0 3 0 0 0).1.toNat / 2 ^ 32 % 64 ∧
    (BitVec.ofNat 64 (2 ^ 56 + 2 ^ 40)).toNat / 2 ^ 56 % 4 = 1 ∧
    (BitVec.ofNat 64 (2 ^ 56 + 2 ^ 40)).toNat / 2 ^ 32 % 256 + 1 * ((BitVec.ofNat 64 (2 ^ 56 + 2 ^ 40)).toNat / 2 ^ 40 % 256) < schedule.slots.length :=
  by decide +kernel

theorem test_premises_phase_channel :
    Claims.transmit (channelPhase 0) (.xmitCh 4#4 0#5 1#5 1#3) = some (1#5, 1) ∧
    Claims.receives (channelPhase 1) (.xrecvCh 1#5 0#5 4#4 1#3) = some (1#5, 1) ∧
    Claims.Alone (channelPhase 0) ∧
    Claims.Calm (channelPhase 0) :=
  ⟨by decide +kernel,
    by decide +kernel,
    (Claims.alone_iff _).mpr ⟨(Claims.quiet_iff _).mpr (by decide +kernel), by decide +kernel⟩,
    (Claims.calm_iff _).mpr (by decide +kernel)⟩

theorem test_premises_phase_end :
    inPhase.core.ready { ds := [4#5] } = true ∧
    inPhase.core.inPhase ≠ none ∧
    ctx2.phase ≠ none ∧
    ctx0.phase = none ∧
    Claims.InContext (phased none id) 0 ctx0 ∧
    (phased none id).core.inPhase ≠ none ∧
    (phase 50).next < (phase 50).nslot + 48 ∧
    (phase 51).nslot + 48 ≤ (phase 51).next :=
  ⟨by decide +kernel,
    by decide +kernel,
    by decide +kernel,
    by decide +kernel,
    (Claims.inContext_iff _ _ _).mpr (by decide +kernel),
    by decide +kernel⟩

def barrier (q : Nat) (b : Barrier) : State := { mk (fun k => { k with sregs := [(1, Ver.one (BitVec.ofNat 64 q))] }) with clusters := [(0, { context := some 0, barriers := [(2, b)] })] }

theorem test_premises_barrier_last :
    Claims.Alone (barrier 3 { mask := 3#16, arrived := 2#16, gen := 4 }) ∧
    Claims.Settled (barrier 3 { mask := 3#16, arrived := 2#16, gen := 4 }) ∧
    (barrier 3 { mask := 3#16, arrived := 2#16, gen := 4 }).core.ready { ss := [(1#5, 0)] } = true ∧
    Claims.ownBit (barrier 3 {}) = 1#16 ∧
    Claims.goodMask (barrier 3 { mask := 3#16, arrived := 2#16, gen := 4 }) 3#16 ∧
    Claims.barrierOf (barrier 3 { mask := 3#16, arrived := 2#16, gen := 4 }) 2#2 = { mask := 3#16, arrived := 2#16, gen := 4 } ∧
    (2#16 ||| 1#16) &&& 3#16 = 3#16 :=
  ⟨(Claims.alone_iff _).mpr ⟨(Claims.quiet_iff _).mpr (by decide +kernel), by decide +kernel⟩,
    (Claims.settled_iff _).mpr (by decide +kernel),
    by decide +kernel,
    by decide +kernel,
    by unfold Claims.goodMask; decide +kernel,
    by decide +kernel⟩

theorem test_premises_barrier_first :
    Claims.Alone (barrier 3 {}) ∧
    Claims.Settled (barrier 3 {}) ∧
    Claims.goodMask (barrier 3 {}) 3#16 ∧
    (Claims.barrierOf (barrier 3 {}) 2#2).arrived = 0#16 ∧
    (0#16 ||| 1#16) &&& 3#16 ≠ 3#16 ∧
    (Claims.barrierOf (barrier 3 {}) 2#2).pending &&& 1#16 = 0#16 ∧
    (Claims.barrierOf (barrier 3 {}) 2#2).waiting &&& 1#16 = 0#16 :=
  ⟨(Claims.alone_iff _).mpr ⟨(Claims.quiet_iff _).mpr (by decide +kernel), by decide +kernel⟩,
    (Claims.settled_iff _).mpr (by decide +kernel),
    by unfold Claims.goodMask; decide +kernel,
    by decide +kernel⟩

theorem test_premises_barrier_mask :
    (¬Claims.goodMask (barrier 2 {}) 2#16) ∧
    Claims.Alone (barrier 2 {}) ∧
    Claims.Settled (barrier 2 {}) ∧
    (Claims.barrierOf (barrier 3 { mask := 7#16, arrived := 2#16 }) 2#2).arrived ≠ 0#16 ∧
    (Claims.barrierOf (barrier 3 { mask := 7#16, arrived := 2#16 }) 2#2).mask ≠ 3#16 :=
  ⟨by unfold Claims.goodMask; decide +kernel,
    (Claims.alone_iff _).mpr ⟨(Claims.quiet_iff _).mpr (by decide +kernel), by decide +kernel⟩,
    (Claims.settled_iff _).mpr (by decide +kernel),
    by decide +kernel⟩

def sleeping (a t : Nat) (f : Core → Core) : State := { mk (fun k => f { k with sregs := [(1, Ver.one (BitVec.ofNat 64 a))] }) with time := t }

theorem test_premises_sleep :
    Claims.Alone (sleeping 5 5 id) ∧
    Claims.Settled (sleeping 5 5 id) ∧
    (sleeping 5 5 id).core.ready { ss := [(1#5, 0)], ds := [4#5] } = true ∧
    (sleeping 5 5 id).core.slept = false ∧
    (sleeping 5 5 id).core.wake = false ∧
    (sleeping 5 5 id).src 1#5 0 ≠ 0#64 ∧
    ((sleeping 5 5 id).src 1#5 0).toNat ≤ (sleeping 5 5 id).time ∧
    (sleeping 6 5 id).time < ((sleeping 6 5 id).src 1#5 0).toNat ∧
    (sleeping 0 5 id).src 1#5 0 = 0#64 ∧
    (sleeping 0 5 fun k => { k with wake := true }).core.wake = true ∧
    (sleeping 0 5 fun k => { k with slept := true }).core.slept = true :=
  ⟨(Claims.alone_iff _).mpr ⟨(Claims.quiet_iff _).mpr (by decide +kernel), by decide +kernel⟩,
    (Claims.settled_iff _).mpr (by decide +kernel),
    by decide +kernel⟩

theorem test_premises_wake :
    (sleeping 15 5 id).isPeer 15 = true ∧
    (sleeping 16 5 id).isPeer 16 = false ∧
    (sleeping 15 5 id).core.ready { ss := [(1#5, 0)] } = true ∧
    ({ base with time := 5, others := [(3, { sleepUntil := some 5 })] }.getCore 3).sleepUntil = some 5 ∧
    ({ base with time := 5, others := [(3, { sleepUntil := some 5 })] }.getCore 3).wake = false ∧
    ({ base with time := 5, others := [(3, { sleepUntil := some 5 })] }.getCore 3).slept = false :=
  by decide +kernel

/-! ## Premises: kernel operations, state registers, system and debug instructions, traps -/

/-- A KDO image of one cell, for 32-bit integer lanes. -/

def kernelImage : List Byte := natBytes (1 + 1 * 2 ^ 6 + 0 * 2 ^ 8 + 2 * 2 ^ 12) 4 ++ natBytes 0 4 ++ natBytes (2 ^ 31 + 1 * 2 ^ 26 + 1 * 2 ^ 21 + 5 * 2 ^ 16) 4 ++ natBytes 0 84

def kernel (f : Core → Core) : State := { mk (fun k => f { k with vregs := [(1, Ver.one 0x0000000500000003#512), (2, Ver.one 0x0000000100000004#512)], masks := [(1, 0x0F#64)], sregs := [(1, Ver.one 0x0F00000000000100#64), (2, Ver.one 11#64), (3, Ver.one 0x0F00000000000101#64)] }) with mem := memWriteBytes [] (scratchKey 0 0x100) kernelImage }

theorem test_premises_kernel_run :
    Claims.Alone (kernel fun k => { k with kdo := [(3, kdoOf kernelImage)] }) ∧
    Claims.Calm (kernel fun k => { k with kdo := [(3, kdoOf kernelImage)] }) ∧
    tfind 3 (kernel fun k => { k with kdo := [(3, kdoOf kernelImage)] }).core.kdo = some (kdoOf kernelImage) ∧
    (kdoOf kernelImage).et < 7 ∧
    (kernel fun k => { k with kdo := [(3, kdoOf kernelImage)] }).core.ready { vs := (([1#5, 0#5, 0#5].take (kdoOf kernelImage).nops).map fun r => (r, 0)) ++ [(2#5, 0)], dv := [2#5] } = true :=
  ⟨(Claims.alone_iff _).mpr ⟨(Claims.quiet_iff _).mpr (by decide +kernel), by decide +kernel⟩,
    (Claims.calm_iff _).mpr (by decide +kernel),
    by decide +kernel⟩

theorem test_premises_kernel_empty :
    Claims.Alone (kernel id) ∧
    Claims.Calm (kernel id) ∧
    tfind 3 (kernel id).core.kdo = none ∧
    (kernel id).core.ready { dv := [2#5] } = true ∧
    (kernel id).core.klstate.getLsbD 63 = false ∧
    (kernel id).core.kloader.getLsbD 0 = false ∧
    (kernel fun k => { k with kloader := 0x0F00000000003001#64 }).core.kloader.getLsbD 0 = true ∧
    (kernel fun k => { k with klstate := 0x8000000000000000#64 }).core.klstate.getLsbD 63 = true :=
  ⟨(Claims.alone_iff _).mpr ⟨(Claims.quiet_iff _).mpr (by decide +kernel), by decide +kernel⟩,
    (Claims.calm_iff _).mpr (by decide +kernel),
    by decide +kernel⟩

theorem test_premises_kernel_load :
    (kernel id).core.ready { ss := [(1#5, 0), (2#5, 0)] } = true ∧
    ((kernel id).src 3#5 0).toNat % 8 ≠ 0 ∧
    ((kernel id).src 1#5 0).toNat % 8 = 0 ∧
    Claims.Image (kernel id) ((kernel id).src 1#5 0).toNat 96 ∧
    kdoFault (Claims.imageBytes (kernel id) ((kernel id).src 1#5 0).toNat 96) = none ∧
    kdoFault (Claims.imageBytes { kernel id with mem := [] } 0x0F00000000000100 96) = some (0x186#10, 0) ∧
    (kernel id).core.ready { ss := [(1#5, 0)], ds := [4#5] } = true :=
  ⟨by decide +kernel,
    by decide +kernel,
    by decide +kernel,
    (Claims.image_iff _ _ _).mpr (by decide +kernel),
    by decide +kernel⟩

def reg (sys : Bool) (v : Word) (f : Core → Core) : State := mk fun k => f { k with status := if sys then 1#64 else 0#64, sregs := [(1, Ver.one v)] }

theorem test_premises_state_read :
    Claims.Alone (reg true 0#64 id) ∧
    Claims.Calm (reg true 0#64 id) ∧
    Claims.InContext (reg true 0#64 id) 0 ctx0 ∧
    (0x109#12).toNat ∈ Claims.registers ∧
    (reg true 0#64 id).core.ready { ds := [4#5] } = true ∧
    (reg true 0#64 id).core.status.getLsbD 0 = true ∧
    (reg false 0#64 id).core.status.getLsbD 0 = false ∧
    (6 : Nat) ∈ Claims.userReads ∧
    (4 : Nat) ∉ Claims.userReads ∧
    (4 : Nat) ∈ Claims.registers :=
  ⟨(Claims.alone_iff _).mpr ⟨(Claims.quiet_iff _).mpr (by decide +kernel), by decide +kernel⟩,
    (Claims.calm_iff _).mpr (by decide +kernel),
    (Claims.inContext_iff _ _ _).mpr (by decide +kernel),
    by decide +kernel⟩

theorem test_premises_state_write :
    (∃ f, Claims.regWrite (.sset 1#5 0x006#12) = some (1#5, 0x006#12, f, true, true)) ∧
    (reg false 0xFF#64 id).core.ready { ss := [(1#5, 0)] } = true ∧
    (((0#64 &&& ~~~Claims.systemBits 6) ||| ((0#64 ||| 0xFF#64) &&& Claims.systemBits 6)) ^^^ 0#64) &&& ~~~Claims.userBits 6 = 0#64 ∧
    Claims.systemBits 6 ≠ 0#64 ∧
    Claims.systemBits 0x20 = 0#64 ∧
    (((0#64 &&& ~~~Claims.systemBits 0x104) ||| (4#64 &&& Claims.systemBits 0x104)).getLsbD 2 = true) ∧
    (reg true 0#64 fun k => { k with klstate := 0x8000000000000000#64 }).core.klstate.getLsbD 63 = true ∧
    Claims.register (reg true 2#64 fun k => { k with lmsplit := 2#64 }) ctx0 0x13 = 2#64 ∧
    (2 : Nat) % 8 = (reg true 2#64 fun k => { k with lmsplit := 2#64 }).core.lmsplit.toNat % 8 ∧
    (7#64 &&& Claims.systemBits 0x13).toNat % 8 = 7 :=
  ⟨⟨_, rfl⟩,
    by decide +kernel⟩

theorem test_premises_state_split :
    Claims.Settled (reg true 3#64 id) ∧
    Claims.Alone (reg true 3#64 id) ∧
    (3#64 &&& Claims.systemBits 0x13).toNat % 8 ≠ (reg true 3#64 id).core.lmsplit.toNat % 8 ∧
    (reg true 3#64 id).cutsOff ((128 + 64 * 3) * 1024) = false ∧
    Memory.wf (reg true 3#64 id).mem = true ∧
    Claims.Settled (reg true 0#64 fun k => { k with lmsplit := 3#64, bindings := [(1, binding 1 1 1 63 63 0x2E000 0x40)] }) ∧
    (reg true 0#64 fun k => { k with lmsplit := 3#64, bindings := [(1, binding 1 1 1 63 63 0x2E000 0x40)] }).cutsOff (128 * 1024) = true :=
  ⟨(Claims.settled_iff _).mpr (by decide +kernel),
    (Claims.alone_iff _).mpr ⟨(Claims.quiet_iff _).mpr (by decide +kernel), by decide +kernel⟩,
    by decide +kernel,
    by decide +kernel,
    by decide +kernel,
    (Claims.settled_iff _).mpr (by decide +kernel),
    by decide +kernel⟩

theorem test_premises_system :
    Claims.Alone (reg true 0#64 id) ∧
    Claims.Settled (reg true 0#64 id) ∧
    (reg true 0#64 id).core.system = true ∧
    (reg false 0#64 id).core.system = false ∧
    Claims.Settled (reg false 0#64 id) ∧
    (reg false 0#64 fun k => { k with klstate := 0xB000000000001230#64 }).core.klstate.getLsbD 63 = true ∧
    (reg false 0#64 id).core.klstate.getLsbD 63 = false ∧
    Claims.systemForm (.dres 4#5 1#5 1#12) = some { ss := [(1#5, 0)], ds := [4#5] } ∧
    (reg false 0#64 id).core.ready { ss := [(1#5, 0)], ds := [4#5] } = true ∧
    (reg true 0#64 id).core.ready { ss := [(1#5, 0)] } = true ∧
    (reg true 0#64 fun k => { k with tlbinv := some 0 }).core.tlbinv = some 0 ∧
    (reg true 0#64 id).core.tlbinv = none ∧
    (reg true 0#64 id).core.context = some 0 ∧
    (2#12 : BitVec 12) ≠ 0x100#12 ∧
    ((reg true 4#64 id).src 1#5 0).toNat % 8 ≠ 0 ∧
    (reg true 0#64 fun k => { k with chanStep := 8 }).core.chanStep ≠ 0 :=
  ⟨(Claims.alone_iff _).mpr ⟨(Claims.quiet_iff _).mpr (by decide +kernel), by decide +kernel⟩,
    (Claims.settled_iff _).mpr (by decide +kernel),
    by decide +kernel,
    by decide +kernel,
    (Claims.settled_iff _).mpr (by decide +kernel),
    by decide +kernel⟩

def debugged (a : Nat) (st : Word) (u : Bool) : State := { reg true (BitVec.ofNat 64 a) id with others := [(3, { core0 with dstat := st, unit := if u then core0.unit else none })] }

theorem test_premises_debug :
    Claims.Alone (debugged 3 0#64 true) ∧
    Claims.Calm (debugged 3 0#64 true) ∧
    (debugged 3 0#64 true).core.system = true ∧
    (debugged 3 0#64 true).core.ready { ss := [(1#5, 0)], ds := [4#5] } = true ∧
    (debugged 3 0#64 true).isPeer 3 = true ∧
    (3 : Nat) ≠ (debugged 3 0#64 true).cur ∧
    (debugged 16 0#64 true).isPeer 16 = false ∧
    ((debugged 3 0#64 true).getCore 3).gang = none ∧
    ((debugged 3 0#64 true).getCore 3).dstat.getLsbD 63 = false ∧
    (debugged 3 0#64 true).core.chanStep = 0 ∧
    ((debugged 3 0x9000000000001230#64 false).getCore 3).dstat.getLsbD 63 = true ∧
    ((debugged 3 0x9000000000001230#64 false).getCore 3).unit = none ∧
    ((debugged 3 0x9000000000001230#64 true).getCore 3).unit ≠ none ∧
    ((debugged 3 0x9000000000001230#64 true).getCore 3).stepping = none ∧
    (debugged 3 0x9000000000001230#64 true).accessesDone 3 = true ∧
    ((debugged 4 0#64 true).src 1#5 0).getLsbD 2 = true ∧
    ((debugged 3 0#64 true).src 1#5 0).getLsbD 2 = false :=
  ⟨(Claims.alone_iff _).mpr ⟨(Claims.quiet_iff _).mpr (by decide +kernel), by decide +kernel⟩,
    (Claims.calm_iff _).mpr (by decide +kernel),
    by decide +kernel⟩

theorem test_premises_debug_stop :
    tfind (3 % 16) ({ debugged 3 0#64 true with clusters := [(0, { context := some 0, stopping := [(3, 1)] })] }.cluster (3 / 16)).stopping = some 1 ∧
    ((debugged 3 0#64 true).getCore 3).ahead = false ∧
    (debugged 3 0#64 true).mayStop 3 = true ∧
    (debugged 3 0#64 true).accessesDone 3 = true ∧
    ((debugged 3 0#64 true).getCore 3).lag = 0 :=
  by decide +kernel

def trapped (f : Core → Core) : State := mk fun k => f { k with loops := [{ lastLoop with window := 1 }], status := 0xC#64 }

theorem test_premises_trap :
    Claims.Alone (trapped id) ∧
    Claims.Calm (trapped id) ∧
    (trapped id).core.sleeping = none ∧
    (trapped id).core.dstat.getLsbD 63 = false ∧
    Claims.trapping (trapped id) (.trap 0xFFF#12) = some (0x3FF#10, 0#64, (trapped id).core.pc + 4#64) ∧
    (trapped id).core.status.getLsbD 4 = false ∧
    (trapped id).core.trapvec ≠ 0#64 ∧
    (trapped fun k => { k with status := 0x10#64 }).core.status.getLsbD 4 = true ∧
    (trapped fun k => { k with trapvec := 0#64 }).core.trapvec = 0#64 :=
  ⟨(Claims.alone_iff _).mpr ⟨(Claims.quiet_iff _).mpr (by decide +kernel), by decide +kernel⟩,
    (Claims.calm_iff _).mpr (by decide +kernel),
    by decide +kernel⟩

theorem test_premises_trap_async :
    (mk fun k => { k with asyncs := [{ cause := 0x308#10, val := 9#64 }] }).core.asyncs = [{ cause := 0x308#10, val := 9#64 }] ∧
    base.core.journal = [] ∧
    base.core.carryRecs = [] ∧
    base.core.asyncLost = 0 ∧
    base.core.unit ≠ none ∧
    base.core.rest = .none ∧
    (mk fun k => { k with asyncs := [{ cause := 0x308#10, val := 9#64 }] }).core.midway = false ∧
    base.core.failing = false :=
  by decide +kernel

def deferring (x : Nat) : State := { base with dispatch := [(64 * 2 + 5, BitVec.ofNat 64 x)], accepted := true, acc := 8#256 }

theorem test_premises_deferred :
    (deferring 0).core.held = none ∧
    (deferring (2 ^ 63 + 2 ^ 62 + 2 ^ 57)).core.distsOk (formatNames 1 0xF8000005#32) = true ∧
    Claims.Alone (deferring 0) ∧
    Claims.Calm (deferring 0) ∧
    (tget (64 * 2 + 5) (deferring 0).dispatch 0#64).getLsbD 63 = false ∧
    (tget (64 * 2 + 5) (deferring (2 ^ 63)).dispatch 0#64).getLsbD 62 = false ∧
    (tget (64 * 2 + 5) (deferring (2 ^ 63 + 2 ^ 62 + 2 ^ 61)).dispatch 0#64).getLsbD 61 = true ∧
    (deferring (2 ^ 63 + 2 ^ 62 + 2 ^ 61)).acc.getLsbD ((tget (64 * 2 + 5) (deferring (2 ^ 63 + 2 ^ 62 + 2 ^ 61)).dispatch 0#64).toNat / 2 ^ 49 % 256) = false ∧
    (deferring (2 ^ 63 + 2 ^ 62)).core.pend = [] ∧
    (tget (64 * 2 + 5) (deferring (2 ^ 63 + 2 ^ 62)).dispatch 0#64).getLsbD 61 = false ∧
    (deferring (2 ^ 63 + 2 ^ 62)).core.distsOk (formatNames 0 0xF8000005#32) = true :=
  ⟨by decide +kernel,
    by decide +kernel,
    (Claims.alone_iff _).mpr ⟨(Claims.quiet_iff _).mpr (by decide +kernel), by decide +kernel⟩,
    (Claims.calm_iff _).mpr (by decide +kernel),
    by decide +kernel⟩

/-! ## Premises: events -/

def request : Req := { src := 0, ctx := 0, place := .hbm, addr := 0x1000, size := 8, kind := .load, pend := some 1, shift := 8, data := 0x99AABBCC#64, cmp := 5#64 }

def flying (r : Req) : State := { base with mem := cells [(0x1000, 0x1122334455667788, 8), (2 ^ 51 + 0x40, 0xAABBCCDDEEFF0011, 8)], flight := [r] }

def hostRequest : Req := { request with place := .host, addr := 2 ^ 51 + 0x40 }

theorem test_premises_request :
    (flying hostRequest).hostq = [] ∧
    ({ base with hostq := [{ hostRequest with kind := .store }] } : State).poisoned = [] ∧
    Claims.Lone (flying request) request ∧
    request.place = .hbm ∧
    request.near = false ∧
    request.pend ≠ none ∧
    request.addr % 128 + request.size ≤ 128 ∧
    (flying { request with kind := .store }).canLog 0 0x1000 = true ∧
    hostRequest.place = .host ∧
    hostRequest.sent = false ∧
    hostRequest.counted = false ∧
    Claims.Lone (flying { hostRequest with sent := true, kind := .amo 13, holds := true }) { hostRequest with sent := true, kind := .amo 13, holds := true } ∧
    ((withCore (flying { hostRequest with sent := true, kind := .amo 13, holds := true }) fun k => { k with held := some .waiting }).getCore 0).held = some .waiting ∧
    Claims.Lone (flying { request with place := .peer, addr := 2 ^ 45 }) { request with place := .peer, addr := 2 ^ 45 } ∧
    ({ base with hostq := [{ hostRequest with kind := .store }] } : State).hostq = [{ hostRequest with kind := .store }] :=
  ⟨by decide +kernel,
    by decide +kernel,
    (Claims.lone_iff _ _).mpr (by decide +kernel),
    by decide +kernel,
    by decide +kernel,
    by decide +kernel,
    by decide +kernel,
    by decide +kernel,
    (by decide +kernel),
    by decide +kernel,
    by decide +kernel,
    (Claims.lone_iff _ _).mpr (by decide +kernel),
    by decide +kernel,
    (Claims.lone_iff _ _).mpr (by decide +kernel),
    by decide +kernel⟩

def posted (sent : Bool) (ctx : Nat) : State := { flying { request with place := .scratch 5, addr := 0x20, kind := .store, pend := none, journal := some 2, sent := sent } with time := 2000000, core := { core0 with journal := [(2, 0x40012345#32)], journalAt := [(2, if sent || ctx = 1 then 1900000 else 0)] }, others := [(5, { context := some ctx })] }

theorem test_premises_posted :
    Claims.inTime (posted true 0) 0 2 ∧
    Claims.inTime (posted false 1) 0 2 ∧
    0x20 + 8 ≤ ((posted false 0).getCore 5).scratchSize ∧
    (posted false 0).poisoned = [] ∧
    (posted false 0).flight = [{ request with place := .scratch 5, addr := 0x20, kind := .store, pend := none, journal := some 2 }] ∧
    ((posted false 0).getCore 5).context = some 0 ∧
    ((posted false 0).getCore 5).wp = [] ∧
    ((posted false 1).getCore 5).context ≠ some 0 ∧
    tfind 2 ((posted false 0).getCore 0).journalAt = some 0 ∧
    0 + 1048576 ≤ (posted false 0).time ∧
    (posted true 0).flight = [{ request with place := .scratch 5, addr := 0x20, kind := .store, pend := none, journal := some 2, sent := true }] :=
  ⟨⟨1900000, by decide +kernel, by decide +kernel⟩,
    ⟨1900000, by decide +kernel, by decide +kernel⟩,
    by decide +kernel⟩

def ackOf (e : Nat) : Answer := { dst := 0, source := some 165, pend := none, shift := 0, value := 0, ack := some e }

theorem test_premises_posted_ack :
    [ackOf 2, ackOf 3] = [] ++ ackOf 2 :: [ackOf 3] ∧
    (ackOf 2).dst = 0 ∧
    (ackOf 2).ack = some 2 ∧
    ((∃ b ∈ [ackOf 3], b.dst = 0 ∧ b.source = (ackOf 2).source)) ∧
    ((∀ b ∈ [ackOf 3], b.dst ≠ 0 ∨ b.ack ≠ some 2)) ∧
    ((∀ a ∈ (posted false 1).answers, a.dst ≠ 0 ∨ a.source ≠ some (160 + 5))) ∧
    Claims.Lone (posted false 1) ((posted false 1).flight.headD request) :=
  ⟨by decide +kernel,
    by decide +kernel,
    by decide +kernel,
    by decide +kernel,
    by decide +kernel,
    (by decide +kernel),
    (Claims.lone_iff _ _).mpr (by decide +kernel)⟩

def answer : Answer := { dst := 0, pend := some 4, shift := 16, value := 0xF123 }

def answered : State := { mk (fun k => { k with pend := [(4, { dest := .scalar 6#5 4 true, acc := 0x77, left := 1 })], sregs := [(6, { hist := [{ val := 0#64, full := false }] })] }) with answers := [answer] }

theorem test_premises_answer :
    answered.answers = [answer] ∧
    answer.pend = some 4 ∧
    answer.line = none ∧
    tfind 4 (answered.getCore 0).pend = some { dest := .scalar 6#5 4 true, acc := 0x77, left := 1 } ∧
    answer.ack = none ∧
    answered.fallen ((answered.getCore 0).context.getD 64) 0 = false ∧
    (answered.getCore 0).routine = none :=
  by decide +kernel

def walking (m : List Host.Cell) (root : Word) : State := { mk (fun k => { k with walk := some { va := 0x100001000#64, access := .load } }) with mem := m, contexts := [(0, { ctx0 with desc := { ctx0.desc with root := root } })] }

def walked : State := walking (cells [(0x80000, 0x90001, 8), (0x90000, 0xA0001, 8), (0xA0020, 0x4000003F, 8)]) 0x80000#64

theorem test_premises_walk :
    (match (walking [] 0#64).walkRoot 0#64 0x100001000 with | .error _ => true | _ => false) = true ∧
    ((walking [] 0#64).getCore 0).walk = some { va := 0x100001000#64, access := .load } ∧
    (walking [] 0#64).ctxOf 0 = some { ctx0 with desc := { ctx0.desc with root := 0#64 } } ∧
    ((walking [] 0#64).getCore 0).context = some ({ ctx0 with desc := { ctx0.desc with root := 0#64 } } : Context).desc.ctx ∧
    ((∀ o, o / 16 = 0 / 16 → o ≠ 0 → ((walking [] 0#64).getCore o).walk = none)) ∧
    (walking [] 0#64).poisoned = [] ∧
    (match walked.walkRoot 0x80000#64 0x100001000 with | .ok l => (match walked.viaLeaf ctx0.desc.keys false .load (withAD l.pte .load) l.log2 0x100001000 with | .ok _ _ _ => true | _ => false) | _ => false) = true :=
  ⟨by decide +kernel,
    by decide +kernel,
    by decide +kernel,
    by decide +kernel,
    fun o _ h => by simp [State.getCore, h, walking, mk, base, tget, tfind],
    by decide +kernel⟩

def shot : Shootdown := { src := 0, cluster := 0, ctx := 0, va := some 0x1234 }

theorem test_premises_shootdown :
    ({ base with shootdowns := [shot] } : State).shootdowns = [shot] ∧
    shot.acked = false ∧
    ((∀ c ∈ ({ base with shootdowns := [shot] } : State).shotCores shot, ({ base with shootdowns := [shot] } : State).accessesLeft shot c = false ∧ ({ base with shootdowns := [shot] } : State).buffersShot shot c = false)) ∧
    { shot with acked := true }.acked = true :=
  by decide +kernel

def held : State := { mk (fun k => { k with wb := some { va := 0x1234#64, since := 5 } }) with time := 2000000 }

theorem test_premises_held_back :
    (held.getCore 0).wb = some { va := 0x1234#64, since := 5 } ∧
    ({ va := 0x1234#64, since := 5 } : WbStall).waiting = true ∧
    (held.getCore 0).context = some 0 ∧
    5 + 1000000 ≤ held.time :=
  by decide +kernel

def peered : State := { base with peers := 2#64, grants := [(3, 0x1000, 0x100)] }

theorem test_premises_peer :
    (1 : Nat) ≠ peered.fabid.toNat ∧
    peered.peers.getLsbD 1 = true ∧
    (4 : Nat) ∈ [1, 2, 4, 8] ∧
    0x5FFFFFFFFC + 4 ≤ 0x6000000000 ∧
    peered.stmap.getLsbD (0x5FFFFFFFFC / 0xC00000000) = true ∧
    peered.stmap.getLsbD (0 / 0xC00000000) = true :=
  by decide +kernel

theorem test_premises_host :
    peered.postedNone 3 = true ∧
    peered.postedNone 2 = true ∧
    tfind 3 peered.grants = some (0x1000, 0x100) ∧
    tfind 2 peered.grants = none ∧
    tfind 5 ({ base with clusters := [(0, { replicas := [(5, (0#1024, 1))] })] }.cluster 0).replicas ≠ none ∧
    peered.hostq = [] ∧
    ({ peered with hostq := [hostRequest] } : State).hostq ≠ [] ∧
    ((∀ r ∈ peered.reserved, 0x1000 < r.1 ∨ r.1 + r.2.length ≤ 0x1000)) :=
  ⟨by decide +kernel,
    by decide +kernel,
    by decide +kernel,
    by decide +kernel,
    by decide +kernel,
    (by decide +kernel),
    by decide +kernel,
    by intro r hr; obtain ⟨i, -, rfl⟩ := List.mem_map.1 (show r ∈ (List.range 8).map fun i => (Config.logAt i, ([] : List Byte)) from hr); simp only [List.length_nil]; omega⟩

def desc9 : Word := 0x8001000500000000#64 ||| (7#64 <<< 11)

def queue9 : Queue := { desc := desc9, base := 0x10000, fn := 2, h := 5 }

def slot5 : List (Nat × Nat × Nat) := [(0x10102, 2, 1), (0x10104, 100, 4), (0x10108, 0x4000, 8), (0x10110, 0x100, 8), (0x10118, 16, 4), (0x1011C, 8, 2), (0x1011E, 2, 2), (0x10120, 7, 4), (0x10170, 6, 4)]

def withImage : Context := { ctx0 with images := [{ handle := 7, kernels := [(0x4000, 16)], split := 0, futures := 0, bindings := [], stackTops := [], parts := [] }] }

def scheduling (m : List (Nat × Nat × Nat)) (at_ : Option Nat) (cs : Tab Card) : State := { base with core := { core0 with unit := none }, others := [(1, { context := some 0 })], contexts := [(0, withImage)], queues := [(9, { queue9 with timer := at_ })], mem := cells m, time := 900000, cards := cs }

def publishing : State := scheduling ((0x10000, 8, 4) :: slot5) none []

theorem test_premises_publish :
    tfind 9 publishing.queues = some queue9 ∧
    queue9.desc.getLsbD 63 = true ∧
    publishing.live (queue9.desc.toNat / 2 ^ 26 % 64) = true ∧
    Claims.published publishing queue9 5 ∧
    (¬Claims.published publishing queue9 6) ∧
    Memory.wf publishing.mem = true ∧
    1 ≤ queue9.desc.toNat / 2 ^ 48 % 256 ∧
    publishing.poisoned = [] ∧
    publishing.cardFault (cardOf desc9 9 5 (memReadBytes publishing.mem (Claims.slotAddr queue9 5) 128)) (memReadBytes publishing.mem (Claims.slotAddr queue9 5) 128) = none ∧
    imgNat (memReadBytes publishing.mem (Claims.slotAddr queue9 5) 128) 0x2C 4 = 0 ∧
    (cardOf desc9 9 5 (memReadBytes publishing.mem (Claims.slotAddr queue9 5) 128)).count ≠ 0 ∧
    (∀ p ∈ publishing.cards, p.2.count ≠ 0) ∧
    (publishing.queue 9).fn ≠ 1 ∧
    (¬Claims.published (scheduling [(0x10000, 8, 4)] none []) queue9 5) ∧
    memRead publishing.mem 0x10000 4 ≠ 5 :=
  ⟨by decide +kernel,
    by decide +kernel,
    by decide +kernel,
    by unfold Claims.published; decide +kernel,
    by unfold Claims.published; decide +kernel,
    by decide +kernel,
    by decide +kernel,
    by decide +kernel,
    by decide +kernel,
    by decide +kernel,
    (by decide +kernel),
    by decide +kernel,
    by decide +kernel,
    by unfold Claims.published; decide +kernel,
    by decide +kernel⟩

theorem test_premises_publish_late :
    (scheduling [(0x10000, 8, 4)] (some 1000) []).time = 900000 ∧
    1000 + 1000 * (queue9.desc.toNat / 2 ^ 32 % 2 ^ 16) ≤ 900000 ∧
    queue9.posted = false ∧
    queue9.desc.toNat / 2 ^ 32 % 2 ^ 16 ≠ 0 :=
  by decide +kernel

def card9 : Card := { queue := 9, resv := 5, ctx := 0, agency := 5, prio := 3, gang := 2, note := false, hreq := false, count := 100, entry := 0x4000#64, argBase := 0x100#64, argSize := 16, chunk0 := 8, chunkMin := 2, image := 7, hint := 0, done := 0, regions := [], state := .released, rem := 90 }

theorem test_premises_deal :
    (scheduling [] none [(3, card9)]).prepared 3 0 2 = true ∧
    (scheduling [] none []).foldTime + 10000 ≤ (scheduling [] none []).time ∧
    (∀ p ∈ (scheduling [] none [(3, card9)]).cards, p.2.count ≠ 0) ∧
    (scheduling [] none [(3, card9)]).cards = [(3, card9)] ∧
    (scheduling [] none [(3, card9)]).dealable 3 card9 0 = true ∧
    (scheduling [] none [(3, { card9 with rem := 0, ended := 100 })]).cardBusy 3 = false ∧
    (card9.state = .released ∧ card9.done = 0 ∧ card9.note = false) ∧
    ((scheduling [] none []).mhz = 2200 + 200 ∨ (scheduling [] none []).mhz = 2300 + 100 ∨ 2300 = (scheduling [] none []).mhz + 100) ∧
    (scheduling [] none []).core.midway = false ∧
    (∀ r ∈ (scheduling [] none []).others, r.2.midway = false) :=
  by decide +kernel

def ctxIn (x : CtxState) (f : Context → Context) : State := { base with contexts := [(0, f { ctx0 with state := x })], time := 9000000000 }

theorem test_premises_stop :
    tfind 0 (ctxIn (.stopping 800) id).contexts = some { ctx0 with state := .stopping 800 } ∧
    800 ≤ (ctxIn (.stopping 800) id).time ∧
    ctx0.phase = none ∧
    ((∀ c ∈ ({ ctxIn (.stopping 800) id with core := { core0 with unit := none } } : State).ctxCores 0, (({ ctxIn (.stopping 800) id with core := { core0 with unit := none } } : State).getCore c).unit = none ∧ (({ ctxIn (.stopping 800) id with core := { core0 with unit := none } } : State).getCore c).mqueue = [])) ∧
    (ctxIn (.stopping 800) id).others = [] ∧
    (core0.context = some 0 ∧ core0.unit ≠ none ∧ core0.rest = .none ∧ core0.dstat.getLsbD 63 = false ∧ core0.gang = none ∧ core0.ahead = false) ∧
    core0.stoppable = true ∧
    (core0.stepping = none ∧ core0.overlapped = false ∧ core0.mqueue = [] ∧ core0.sleeping = none) ∧
    800 + 4000000 ≤ (ctxIn (.stopping 800) id).time :=
  by decide +kernel

theorem test_premises_save :
    tfind 0 (ctxIn (.stopped 800) id).contexts = some { ctx0 with state := .stopped 800 } ∧
    (ctxIn (.stopped 800) id).command = none ∧
    ctx0.ckpt = none ∧
    ctx0.wdog = false ∧
    { ctx0 with ckpt := some 4 }.ckpt = some 4 ∧
    (core0.l1d = [] ∧ core0.l1i = [] ∧ core0.fbuf = [] ∧ core0.lbuf = [] ∧ core0.tlb = []) ∧
    ctx0.rewritten + 1000000 * ctx0.wdp ≤ (ctxIn .running id).time ∧
    ctx0.interval = 0 ∧
    ctx0.state = .running ∧
    (ctxIn .running id).lkmap.getLsbD 11 = true ∧
    (ctxIn .running id).linksDown.getLsbD 11 = false ∧
    ({ ctxIn .running id with sliceBad := [(2, 5)], poisoned := [2] } : State).sliceBad ≠ [] :=
  by decide +kernel

/-! ## Premises: the mailbox and what starts from outside -/

def noPlace : Placement := { bases := [], frames := [], resources := [], groups := [], channels := [], relocs := [], stackTops := [] }

def ready (f : State → State) : State := f { base with bootst := 0x8000000000000000#64, accepted := true, time := 5000 }

theorem test_premises_mailbox :
    Claims.Ready (ready id) ∧
    (∃ ops n, Claims.command (.qset 0 [1#64]) = some (0, 0x40, ops, n)) ∧
    base.bootst.getLsbD 63 = false ∧
    (ready fun s => { s with accepted := false }).accepted = false ∧
    ([0#64, 0#64, 0#64, 0#64, 0#64, 7#64] : List Word).getD 5 0#64 ≠ 0#64 ∧
    ((∀ l, 4 ≤ l → l < 5 → ([0#64, 0#64, 0#64, 0#64, 0#64, 7#64] : List Word).getD l 0#64 = 0#64)) ∧
    (600 ≤ (600#16).toNat ∧ (600#16).toNat ≤ 1650) ∧
    (599#16).toNat < 600 :=
  ⟨(Claims.ready_iff _).mpr (by decide +kernel),
    ⟨_, _, rfl⟩,
    by decide +kernel⟩

theorem no_command (i : Instr) (fn c : Nat) (ops : List Word) (n : Nat) (h : Claims.command i = some (fn, c, ops, n)) : c ≠ 0x17 := by
  cases i <;> simp_all [Claims.command] <;> omega

theorem test_premises_mailbox_code :
    ((∀ i fn c ops n, Claims.command i = some (fn, c, ops, n) → c ≠ (0x17#16).toNat)) ∧
    (ready fun s => { s with accepted := false }).command = none ∧
    (ready fun s => { s with accepted := false }).bootst.getLsbD 63 = true :=
  ⟨no_command,
    by decide +kernel⟩

def descriptor : List (Nat × Nat × Nat) := [(2 ^ 51 + 0x400, 3, 2), (2 ^ 51 + 0x402, 9, 2), (2 ^ 51 + 0x410, 4, 8), (2 ^ 51 + 0x450, 5, 2), (2 ^ 51 + 0x452, 4, 1), (2 ^ 51 + 0x458, 0x1000, 8), (2 ^ 51 + 0x460, 0x5000, 8), (2 ^ 51 + 0x468, 8, 4), (2 ^ 51 + 0x470, 0x8000, 8)]

theorem test_premises_load_context :
    Claims.Ready (ready fun s => { s with mem := cells descriptor }) ∧
    ((∀ i < 7, 1 ≤ i → ([0x400#64] : List Word).getD i 0#64 = 0#64)) ∧
    (ready fun s => { s with mem := cells descriptor }).badDescriptor (Claims.hostBytes (ready fun s => { s with mem := cells descriptor }) 0x400 128) = false ∧
    (descOf (Claims.hostBytes (ready fun s => { s with mem := cells descriptor }) 0x400 128)).ctx = 3 ∧
    tfind 3 (ready fun s => { s with mem := cells descriptor }).contexts = none ∧
    (ready fun s => { s with mem := cells descriptor }).badCluster 3 (descOf (Claims.hostBytes (ready fun s => { s with mem := cells descriptor }) 0x400 128)).part = none :=
  ⟨(Claims.ready_iff _).mpr (by decide +kernel),
    by decide +kernel⟩

theorem idle_actions (e : Nat) : core0.actionDue e = false := by
  simp [Core.actionDue, Core.entry, core0, tget, tfind, entryCk, field]

theorem test_premises_manage_context :
    tfind 0 (ready id).contexts = some ctx0 ∧
    (∀ p ∈ (ready id).cards, p.2.ctx ≠ 0) ∧
    ctx0.state = .running ∧
    tfind (2 * 0) ([(0, ({ stopTime := 7, cores := [(4, core0)], clusters := [] } : Save))] : Tab Save) = some { stopTime := 7, cores := [(4, core0)], clusters := [] } ∧
    ({ stopTime := 7, cores := [(4, core0)], clusters := [] } : Save).intact = true ∧
    ({ stopTime := 7, cores := [(4, core0)], clusters := [] } : Save).wdog = false ∧
    (ready fun s => { s with core := {} }).taken 0 ctx0.desc.part = none ∧
    ({ stopTime := 7, cores := [(4, core0)], clusters := [], part := 1#160 } : Save).intact = true ∧
    (ready id).taken 0 1#160 = none ∧
    (∀ e, core0.actionDue e = false) :=
  ⟨by decide +kernel,
    by decide +kernel,
    by decide +kernel,
    by decide +kernel,
    by decide +kernel,
    (by decide +kernel),
    by decide +kernel,
    by decide +kernel,
    by decide +kernel,
    idle_actions⟩

theorem test_premises_manage_future :
    (∀ p ∈ (fut 1 0 0).cards, p.2.count ≠ 0) ∧
    (Claims.entry ctx0 (ready id).mem 3).st = 0 ∧
    (3 : Nat) < ctx0.futures ∧
    Memory.wf (ready id).mem = true ∧
    Claims.valid ctx0 handle ∧
    Claims.live { fut 1 0 0 with accepted := true } ctx0 handle ∧
    Memory.wf (fut 1 0 0).mem = true ∧
    (Claims.entry ctx0 (fut 1 0 0).mem (Claims.idx handle)).st = 1 ∧
    (Claims.entry ctx0 (fut 1 0 0).mem (Claims.idx handle)).nwait = 0 ∧
    (∃ i ∈ withImage.images, i.handle = 7) :=
  ⟨by decide +kernel,
    by decide +kernel,
    by decide +kernel,
    by decide +kernel,
    by unfold Claims.valid; decide +kernel,
    by unfold Claims.live; decide +kernel,
    by decide +kernel⟩

theorem test_premises_manage_device :
    (ready fun s => { s with contexts := [] }).contexts = [] ∧
    (ready id).saves = [] ∧
    (ready id).logs = [] ∧
    0x1000 + 0x6000000000 ≤ 2 ^ 51 ∧
    tfind (16 * 5 + 3) (ready id).keys = none ∧
    0x20 + 96 ≤ 2 ^ 51 ∧
    queueWordOk 0x8010000500000000#64 = true ∧
    tfind ((0x8010000500000000#64 : Word).toNat / 2 ^ 26 % 64) (ready id).contexts ≠ none ∧
    (ready id).inMemory 0x10000 (128 + 128 * 2 ^ ((0x8010000500000000#64 : Word).toNat / 2 ^ 48 % 256)) = true ∧
    (∃ i < 10, 0x40000000 = 2 ^ (30 + i)) ∧
    0x40000000 % 0x40000000 = 0 :=
  by decide +kernel

def descriptor0 : State := { base with mem := cells (descriptor ++ [(2 ^ 51 + 0x400, 0, 2), (2 ^ 51 + 0x410, 1, 8)]) }

theorem test_premises_change_descriptor :
    tfind 0 descriptor0.contexts = some ctx0 ∧
    descriptor0.badDescriptor (Claims.hostBytes descriptor0 0x400 128) = false ∧
    (descOf (Claims.hostBytes descriptor0 0x400 128)).ctx = 0 ∧
    (descOf (Claims.hostBytes descriptor0 0x400 128)).part = ctx0.desc.part ∧
    descriptor0.badCluster 0 (descOf (Claims.hostBytes descriptor0 0x400 128)).part = none :=
  by decide +kernel

def objectCells : List (Nat × Nat × Nat) := let o := 2 ^ 51 + 0x1000; [(o, 0x4E52574B, 4), (o + 4, 13, 2), (o + 8, 5, 2), (o + 0x0A, 2, 1), (o + 0x0B, 2, 1), (o + 0x0C, 0x40, 4), (o + 0x90, 11, 4), (o + 0x94, 0x20, 4), (o + 0x98, 16, 4), (o + 0xA0, 1, 4), (o + 0xA4, 0x30, 4), (o + 0xA8, 16, 4), (o + 0xB0, 8, 4), (o + 0xB4, 16, 4), (o + 0xC0, 0x112001E0, 4)]

def placement : Placement := { noPlace with bases := [0x10000#64, 0#64, 0#64], frames := [0x10000, 0, 0], resources := [128, 0, 0, 0, 0, 0, 0, 4, 0] }

def objecting : State := ready fun s => { s with mem := cells objectCells, keys := [(82, { key := 5#768 })] }

theorem test_premises_load_object :
    Claims.Ready objecting ∧
    tfind 0 objecting.contexts = some ctx0 ∧
    (Claims.object objecting 0x1000 0xD0).step1 = none ∧
    imgNat (Claims.object objecting 0x1000 0xD0).bytes 8 2 = ctx0.desc.agency ∧
    imgByte (Claims.object objecting 0x1000 0xD0).bytes 0x0A = 2 ∧
    tfind (16 * ctx0.desc.agency + 2) objecting.keys = some { key := 5#768 } ∧
    ({ key := 5#768 } : AgencyKey).revoked = false ∧
    objecting.wmin ≤ imgNat (Claims.object objecting 0x1000 0xD0).bytes 4 2 ∧
    imgNat (Claims.object objecting 0x1000 0xD0).bytes 4 2 ≤ objecting.wmax ∧
    objecting.missingFeature (imgNat (Claims.object objecting 0x1000 0xD0).bytes 0x10 32) = none ∧
    (Claims.object objecting 0x1000 0xD0).step7 = none ∧
    plStep8 placement = none ∧
    objecting.plStep9 ctx0 placement = none ∧
    (match objecting.plStep10 (Claims.object objecting 0x1000 0xD0) placement with | .ok _ => true | _ => false) = true ∧
    boundApart placement placement.channels = true ∧
    objecting.partsFree 0 (imageSpans (Claims.object objecting 0x1000 0xD0) placement) = true ∧
    objecting.placed ctx0 placement = true ∧
    ctx0.images.length < 256 ∧
    objecting.phasesFit ctx0 placement = true :=
  ⟨(Claims.ready_iff _).mpr (by decide +kernel),
    by decide +kernel⟩

theorem test_premises_trust :
    (ready fun s => { s with contexts := [], update := some { store := [(0, 5#32)], dispatch := [], translator := [], wmin := 14, svn := 3, build := 9 } }).contexts = [] ∧
    Memory.wf (ready id).mem = true ∧
    Claims.spdm (.challenge []) = some 0x03 ∧
    Claims.spdm (.challenge [0#8, 0#8, 1#8]) = some 0x7F ∧
    (ready id).bootst.getLsbD 63 = true ∧
    imgByte [0#8, 0#8, 0#8, 8#8] 3 = 7 + 1 ∧
    (imgByte [0#8, 0#8, 0#8, 8#8] 2).testBit 0 = false ∧
    imgByte [0#8, 0#8, 0x10#8] 2 % 16 = 0 ∧
    imgByte [0#8, 0#8, 0x11#8] 2 % 16 ≠ 0 ∧
    (∀ c ∈ [0x84, 0xE1, 0xE3, 0x81, 0x82, 0x83, 0xE0], imgByte [0#8, 0x85#8] 1 ≠ c) ∧
    (ready id).update = none ∧
    (ready id).contexts ≠ [] ∧
    9 < 2 ^ 16 ∧
    (ready id).wmin ≤ 251 ∧
    (ready id).svn ≤ 3 ∧
    3 < 2 ^ 32 ∧
    base.bootst.getLsbD 63 = false ∧
    (match exec .updateTakesEffect (ready fun s => { s with contexts := [], update := some { store := [], dispatch := [], translator := [], wmin := 14, svn := 3, build := 9 } }) with | .next _ => true | _ => false) = true :=
  by decide +kernel

/-! ## Premises: the machine as a whole -/

theorem test_premises_memory_step :
    Memory.wf (pad [(0x100, 0xF1E2D3C4B5A69788, 8)]) = true ∧
    State.reset.MemWf :=
  ⟨by decide +kernel,
    by unfold State.MemWf; decide +kernel⟩

theorem test_premises_word :
    (Instr.ori 9#5 0#5 0#2 0x1E0#14).wf = true ∧
    encode (.ori 9#5 0#5 0#2 0x1E0#14) = some 0x112001E0#32 ∧
    decode 0x112001E0#32 = .ok (.ori 9#5 0#5 0#2 0x1E0#14) :=
  by decide +kernel

def issuing : State := { base with mem := pad [(0x1000, 0x112001E0, 4)] }

theorem test_premises_step :
    issuing.agenda = [] ∧
    (firstNext issuing.housekeeping issuing = none) ∧
    Claims.Issues issuing ∧
    issuing.core.pc.toNat / 2 ^ 56 = 15 ∧
    issuing.core.pc.toNat % 2 ^ 56 + 4 ≤ issuing.core.scratchSize ∧
    (issuing.core.fbuf = [] ∧ issuing.core.lbuf = [] ∧ issuing.core.loops = [] ∧ issuing.core.wp = [] ∧ issuing.poisoned = []) ∧
    (BitVec.ofNat 32 (memRead issuing.mem (scratchKey 0 (issuing.core.pc.toNat % 2 ^ 56)) 4) : Word32) = 0x112001E0#32 ∧
    issuing.core.young = [] ∧
    issuing.core.preparing = false :=
  ⟨by decide +kernel,
    by rfl,
    (Claims.issues_iff _).mpr (by decide +kernel),
    by decide +kernel⟩

/-! ## Words of the manual, and the instructions they stand for -/

/-- IOP and immediates (R89 to R95). -/

theorem test_words_iop_and_immediates :
    decode 0x04810406#32 = .ok (.div 4#5 1#5 0#2 2#5 0#2) ∧
      decode 0x088003E8#32 = .ok (.addi 4#5 0#5 0#2 1000#14) ∧
      decode 0x20E60001#32 = .ok (.shli 7#5 6#5 0#2 1#6) ∧
      decode 0x24800006#32 = .ok (.lui 4#5 6#21) ∧
      decode 0x28A00004#32 = .ok (.adpc 5#5 4#21) ∧
      decode 0x2C780E00#32 = .ok (.insi 3#5 3#2 0#1 0x0E00#16) := by decide +kernel

/-- Branches and jumps (R96 to R98). -/

theorem test_words_branches_and_jumps :
    decode 0x30E00008#32 = .ok (.beqz 7#5 0#2 8#16) ∧
      decode 0x38000010#32 = .ok (.jal 16#26) ∧
      decode 0x37FFFFFC#32 = .ok (.jmp 0x3FFFFFC#26) ∧
      decode 0x3C1F0000#32 = .ok (.jr 31#5 0#2) := by decide +kernel

/-- LOOP and GANG (R100 to R111). -/

theorem test_words_loop_and_gang :
    decode 0x40012003#32 = .ok (.lcar 0#5 9#5 0#2 3#11) ∧
      decode 0x4081400C#32 = .ok (.loop 10#5 0#2 12#11) ∧
      decode 0x41808002#32 = .ok (.brkif 4#5 0#2 2#11) ∧
      decode 0x4200C000#32 = .ok (.contif 6#5 0#2) ∧
      decode 0x42980001#32 = .ok (.itx 6#5 1#11) ∧
      decode 0x43300001#32 = .ok (.lstat 12#5 1#11) ∧
      decode 0x439CA005#32 = .ok (.movd 7#5 5#5 5#3) ∧
      decode 0x469C6002#32 = .ok (.gbc 7#5 3#5 0#2 2#11) ∧
      decode 0x4718A000#32 = .ok (.gsum 6#5 5#5 0#2) := by decide +kernel

/-- FOP (R165). -/

theorem test_words_fop :
    decode 0x5CA58E00#32 = .ok (.fadd 5#5 5#5 2#2 7#5 0#2 .f32) ∧
      decode 0x5CA60E0A#32 = .ok (.fma 5#5 6#5 0#2 7#5 0#2 .f32) ∧
      decode 0x5C830009#32 = .ok (.fsqrt 4#5 3#5 0#2 .f64) := by decide +kernel

/-- Vectors (R167 to R180). -/

theorem test_words_vectors :
    decode 0x60220C02#32 = .ok (.vadd 1#5 2#5 0#1 3#5 0#3 .i32) ∧
      decode 0x60441449#32 = .ok (.vcmplt 2#3 4#5 0#1 5#5 0#3 .i16) ∧
      decode 0x6461080D#32 = .ok (.vfma 3#5 1#5 0#1 2#5 0#3 .bf16) ∧
      decode 0x68820C62#32 = .ok (.vgath 4#5 2#5 0#2 6#5 1#3 .h) ∧
      decode 0x68E20004#32 = .ok (.vld 7#5 2#5 0#2 0#3 .w) ∧
      decode 0x6D210005#32 = .ok (.vredsum 9#5 1#5 0#1 0#3) ∧
      decode 0x6D01000B#32 = .ok (.vqnt 8#5 1#5 0#1 0#5) ∧
      decode 0x70220C00#32 = .ok (.kand 1#3 2#3 3#3) := by decide +kernel

/-- Memory (R277 to R283). -/

theorem test_words_memory :
    decode 0x48A32002#32 = .ok (.lw 5#5 3#5 0#2 2#11) ∧
      decode 0x4CA23002#32 = .ok (.sd 5#5 2#5 0#2 2#11) ∧
      decode 0x50C42080#32 = .ok (.lda 6#5 4#5 0#2 .w .pkg) ∧
      decode 0x51223480#32 = .ok (.ldro 9#5 2#5 0#2 .d .pkg) ∧
      decode 0x50023600#32 = .ok (.pref 2#5 0#2 .core 0#1) ∧
      decode 0x51EE2280#32 = .ok (.stl 15#5 14#5 0#2 .w .pkg) ∧
      decode 0x50A20860#32 = .ok (.stn 5#5 2#5 0#2 .clu 1#1) ∧
      decode 0x50A23A80#32 = .ok (.sts 5#5 2#5 0#2 .d .pkg) ∧
      decode 0x5464288A#32 = .ok (.amoadd 3#5 4#5 5#5 .relaxed .pkg .d) ∧
      decode 0x54642D88#32 = .ok (.amoinc 3#5 4#5 5#5 .relaxed .pkg .w) ∧
      decode 0x54642CEA#32 = .ok (.cas 3#5 4#5 5#5 .acquireRelease .pkg .d) := by decide +kernel

/-- Matrix engine and carry chains (R183 to R193). -/

theorem test_words_matrix_engine_and_carry_chains :
    decode 0x74042800#32 = .ok (.mcfg 4#5 5#5 0#1 0#2) ∧
      decode 0x74060011#32 = .ok (.mgeo 6#5 0#1 1#2) ∧
      decode 0x74000022#32 = .ok (.mzero 0#1 2#2) ∧
      decode 0x74011031#32 = .ok (.mma 1#5 2#5 0#1 1#2) ∧
      decode 0x74011053#32 = .ok (.mmas 1#5 2#5 0#1 3#2) ∧
      decode 0x74034066#32 = .ok (.mdrain 3#5 8#5 0#1 1#1 2#2) ∧
      decode 0x74034069#32 = .ok (.mdrain 3#5 8#5 1#1 0#1 1#2) ∧
      decode 0x74032870#32 = .ok (.mldacc 3#5 5#5 0#1 0#2) ∧
      decode 0x75230080#32 = .ok (.mstacc 9#5 3#5 0#1 0#2) ∧
      decode 0x75200091#32 = .ok (.mstat 9#5 0#1 1#2) ∧
      decode 0x740000A1#32 = .ok (.mwait 0#1 1#2) ∧
      decode 0x78070001#32 = .ok (.chain 7#5 0#5 0#1 1#2) ∧
      decode 0x780C6818#32 = .ok (.cadd 0#5 12#5 13#5 1#1 0#2) ∧
      decode 0x78000021#32 = .ok (.cclose 0#1 1#2) ∧
      decode 0x792A0030#32 = .ok (.cstat 9#5 10#5 0#1) ∧
      decode 0x78000041#32 = .ok (.cwait 0#1 1#2) := by decide +kernel

/-- Tables, kernels (R194 to R208). -/

theorem test_words_tables_kernels :
    decode 0x80042801#32 = .ok (.tabld 4#5 5#5 0#1 1#2) ∧
      decode 0x80C00021#32 = .ok (.tabchk 6#5 0#1 1#2) ∧
      decode 0x80040030#32 = .ok (.ppuld 4#5 0#1) ∧
      decode 0x80E80051#32 = .ok (.enc 7#5 8#5 0#1 1#2) ∧
      decode 0x81270061#32 = .ok (.dec 9#5 7#5 0#1 1#2) ∧
      decode 0x9D902218#32 = .ok (.kop 3#3 4#5 1#5 2#5 3#5 0#3) ∧
      decode 0xA0020800#32 = .ok (.kld 2#5 1#5) ∧
      decode 0xA0010010#32 = .ok (.krel 1#5) ∧
      decode 0xA0C10020#32 = .ok (.kqry 6#5 1#5) := by decide +kernel

/-- Rings, copies, futures, jobs (R366 to R369, R288, R353 to R357). -/

theorem test_words_rings_copies_futures_jobs :
    decode 0x7C080000#32 = .ok (.rgcfg 8#5) ∧
      decode 0x7C110010#32 = .ok (.mtld 17#5) ∧
      decode 0x7C000020#32 = .ok .mtclr ∧
      decode 0x7C040038#32 = .ok (.binj 4#5 1#1) ∧
      decode 0x7CC40040#32 = .ok (.btake 6#5 4#5) ∧
      decode 0x7CC40050#32 = .ok (.bstat 6#5 4#5) ∧
      decode 0x7CC00060#32 = .ok (.tkget 6#5) ∧
      decode 0x7C060070#32 = .ok (.tkdone 6#5) ∧
      decode 0x7CD29880#32 = .ok (.rgsub 6#5 18#5 19#5) ∧
      decode 0x7C000090#32 = .ok .rgquiet ∧
      decode 0x84C70000#32 = .ok (.cpstat 6#5 7#5) ∧
      decode 0x84C70010#32 = .ok (.cpwait 6#5 7#5) ∧
      decode 0x84070020#32 = .ok (.cpcan 7#5) ∧
      decode 0x88A00000#32 = .ok (.fnew 5#5) ∧
      decode 0x88E54020#32 = .ok (.fget 7#5 5#5 8#5) ∧
      decode 0x89253060#32 = .ok (.flink 9#5 5#5 6#5) ∧
      decode 0x8C040000#32 = .ok (.jsub 4#5) ∧
      decode 0x8CC00020#32 = .ok (.jarg 6#5) ∧
      decode 0x8C000030#32 = .ok .jend := by decide +kernel

/-- Channels, phases, barriers (R358 to R365). -/

theorem test_words_channels_phases_barriers :
    decode 0x90A21800#32 = .ok (.chsnd 5#5 2#5 3#4) ∧
      decode 0x90801830#32 = .ok (.chrcvv 4#5 3#4) ∧
      decode 0x90C01840#32 = .ok (.chpoll 6#5 3#4) ∧
      decode 0x94000000#32 = .ok (.barp 0#2) ∧
      decode 0x94040010#32 = .ok (.xsel 4#5 0#2) ∧
      decode 0x94010825#32 = .ok (.xmit 1#5 1#5 5#3) ∧
      decode 0x9440082D#32 = .ok (.xmitCh 2#4 0#5 1#5 5#3) ∧
      decode 0x94600031#32 = .ok (.xrecv 3#5 0#5 1#3) ∧
      decode 0x94C00040#32 = .ok (.xend 6#5) ∧
      decode 0x98040000#32 = .ok (.bar 4#5 0#2) ∧
      decode 0x98040011#32 = .ok (.barnw 4#5 1#2) ∧
      decode 0x98C40020#32 = .ok (.sleep 6#5 4#5) ∧
      decode 0x98040030#32 = .ok (.wake 4#5) ∧
      decode 0x98C00040#32 = .ok (.time 6#5) := by decide +kernel

/-- System and debug (R403 to R417). -/

theorem test_words_system_and_debug :
    decode 0xA5800210#32 = .ok (.srd 12#5 0x021#12) ∧
      decode 0xA4050141#32 = .ok (.swr 5#5 0x014#12) ∧
      decode 0xA4050002#32 = .ok (.sset 5#5 0x000#12) ∧
      decode 0xA4050063#32 = .ok (.sclr 5#5 0x006#12) ∧
      decode 0xA4000054#32 = .ok (.trap 5#12) ∧
      decode 0xA4040017#32 = .ok (.tlbinv 4#5 1#12) ∧
      decode 0xA4C71008#32 = .ok (.acct 6#5 7#5 0x100#12) ∧
      decode 0xA8050021#32 = .ok (.wpset 5#5 2#3) := by decide +kernel

/-- Words that R55 refuses: zero, primaries of R77, selectors beyond a table, fields that must be zero. -/

theorem test_words_refused : ([0x00000000#32, 0x00000001#32, 0xAC000000#32, 0xEC000000#32, 0xFC000000#32, 0x04810424#32, 0x04810599#32, 0x30E70008#32, 0x3C1F0002#32, 0x41808003#32, 0x20E60041#32, 0x546428AB#32, 0x68E20005#32, 0xA4000404#32].map fun w => (decode w).toOption.isSome) = List.replicate 14 false := by decide +kernel

/-! ## Terms that no word stands for -/

theorem test_ill_formed : (Instr.brkif 4#5 0#2 3#11).wf = false ∧ (Instr.itx 6#5 0#11).wf = false ∧ (Instr.lstat 6#5 4#11).wf = false ∧ (Instr.gbc 7#5 3#5 0#2 16#11).wf = false ∧ (Instr.xmitCh 2#4 8#5 1#5 5#3).wf = false ∧ (Instr.xrecvCh 1#5 8#5 4#4 1#3).wf = false ∧ (Instr.srd 4#5 0x008#12).wf = false ∧ (Instr.swr 4#5 0x016#12).wf = false ∧ (Instr.sset 4#5 0x040#12).wf = false ∧ (Instr.sclr 4#5 0x10A#12).wf = false ∧ (Instr.trap 64#12).wf = false ∧ (Instr.tlbinv 4#5 2#12).wf = false ∧ (Instr.acct 6#5 7#5 1#12).wf = false ∧ (Instr.acct 6#5 0#5 9#12).wf = false ∧ (Instr.dstop 4#5 1#5 4#12).wf = false ∧ (Instr.dres 4#5 1#5 2#12).wf = false ∧ (Instr.deferredInstruction 3#2 0#20 0#6).wf = false := by decide +kernel

/-! ## Single steps: results of the manual's examples, or worked out by hand from its rules -/

def regs (l : List (Nat × Word)) : State := mk fun k => { k with sregs := l.map fun x => (x.1, Ver.one x.2) }

/-- R90: DIV of -7 by 2 gives -3, REM gives -1; division by zero gives all ones and the dividend. -/

theorem test_div : gives (exec (.div 4#5 1#5 0#2 2#5 0#2) (regs [(1, 0xFFFFFFFFFFFFFFF9#64), (2, 2#64)])) 4#5 0xFFFFFFFFFFFFFFFD#64 = true ∧
    gives (exec (.rem 4#5 1#5 0#2 2#5 0#2) (regs [(1, 0xFFFFFFFFFFFFFFF9#64), (2, 2#64)])) 4#5 0xFFFFFFFFFFFFFFFF#64 = true ∧
    gives (exec (.divu 4#5 1#5 0#2 0#5 0#2) (regs [(1, 9#64)])) 4#5 0xFFFFFFFFFFFFFFFF#64 = true ∧ gives (exec (.remu 4#5 1#5 0#2 0#5 0#2) (regs [(1, 9#64)])) 4#5 9#64 = true := by decide +kernel

/-- R94: LUI s4, #6 gives 98,304; ADPC s5, #4 gives its own address plus 16. -/

theorem test_lui : gives (exec (.lui 4#5 6#21) base) 4#5 98304#64 = true ∧ gives (exec (.adpc 5#5 4#21) base) 5#5 0x0F00000000001010#64 = true := by decide +kernel

/-- R95: INSI into lane 3 keeps the other three lanes. -/

theorem test_insi : gives (exec (.insi 3#5 3#2 0#1 0x0E00#16) (regs [(3, 0x1111222233334444#64)])) 3#5 0x0E00222233334444#64 = true := by decide +kernel

/-- R91: a field that runs past bit 63 is cut; BFI replaces only its bits. -/

theorem test_bit_fields : gives (exec (.bfx 4#5 1#5 0#2 2#5 0#2) (regs [(1, 0xFEDCBA9876543210#64), (2, 0x103C#64)])) 4#5 0xF#64 = true ∧
    gives (exec (.bfi 4#5 1#5 0#2 2#5 0#2) (regs [(1, 0xAB#64), (2, 0x0804#64), (4, 0xFFFFFFFFFFFFFFFF#64)])) 4#5 0xFFFFFFFFFFFFFABF#64 = true := by decide +kernel

/-- R92: the immediate of SLTIU is sign-extended before the unsigned comparison. -/

theorem test_sltiu : gives (exec (.sltiu 4#5 1#5 0#2 0x3FFF#14) (regs [(1, 0xFFFFFFFFFFFFFFFE#64)])) 4#5 1#64 = true := by decide +kernel

/-- R23: s0 reads as zero and takes no write. -/

theorem test_s0 : gives (exec (.addi 0#5 1#5 0#2 1#14) (regs [(1, 5#64)])) 0#5 0#64 = true := by decide +kernel

/-- R96, R98: a branch 8 words ahead; JALR s31, s31 calls through s31 and leaves the return address there. -/

theorem test_control : (next (exec (.beqz 7#5 0#2 8#16) base) fun t => decide (t.core.pc = 0x0F00000000001020#64)) = true ∧
    (next (exec (.jalr 31#5 31#5 0#2) (regs [(31, 0x0F00000000003003#64)])) fun t => decide (t.core.pc = 0x0F00000000003000#64 ∧ t.core.sval 31#5 = 0x0F00000000001004#64)) = true := by decide +kernel

/-- R102: a LOOP whose count is zero goes past its ENDIT and sets X1 to 0xFFFFFFFF. -/

theorem test_loop_zero : (next (exec (.loop 0#5 0#2 2#11) (atLoop {})) fun t => decide (t.core.pc = 0x0F0000000000100C#64 ∧ t.core.x1 = 0xFFFFFFFF#64 ∧ t.core.loops = [])) = true := by decide +kernel

/-- R110: SPLIT outside a gang raises 0x0C5. -/

theorem test_split : traps (exec .split base) 0x0C5 = true := by decide +kernel

/-- R115, R117: 1 / 3 in FP32 rounds to nearest and sets NX; 1 / 0 gives infinity and DZ. -/

theorem test_fdiv : (next (exec (.fdiv 4#5 1#5 0#2 2#5 0#2 .f32) (regs [(1, 0x3F800000#64), (2, 0x40400000#64)])) fun t => decide (t.core.sval 4#5 = 0x3EAAAAAB#64 ∧ t.core.fflags = 1#64)) = true ∧
    (next (exec (.fdiv 4#5 1#5 0#2 0#5 0#2 .f64) (regs [(1, 0x3FF0000000000000#64)])) fun t => decide (t.core.sval 4#5 = 0x7FF0000000000000#64 ∧ t.core.fflags = 8#64)) = true := by decide +kernel

/-- R165: an infinite factor times zero gives the canonical NaN and NV, whatever d holds; minimumNumber orders -0 below +0. -/

theorem test_fma : (next (exec (.fma 4#5 1#5 0#2 2#5 0#2 .f32) (regs [(1, 0x7F800000#64), (2, 0#64), (4, 0x7FC00001#64)])) fun t => decide (t.core.sval 4#5 = 0x7FC00000#64 ∧ t.core.fflags = 0x10#64)) = true ∧
    gives (exec (.fmin 4#5 1#5 0#2 2#5 0#2 .f64) (regs [(1, 0#64), (2, 0x8000000000000000#64)])) 4#5 0x8000000000000000#64 = true := by decide +kernel

/-- R166: 2.5 converts to 2 with NX in RNE and to 3 in RUP; a NaN to 0 with NV. -/

theorem test_fcvti : (next (exec (.fcvti 4#5 1#5 0#2 .f64) (regs [(1, 0x4004000000000000#64)])) fun t => decide (t.core.sval 4#5 = 2#64 ∧ t.core.fflags = 1#64)) = true ∧
    gives (exec (.fcvti 4#5 1#5 0#2 .f64) (withCore (regs [(1, 0x4004000000000000#64)]) fun k => { k with status := 8#64 })) 4#5 3#64 = true ∧
    (next (exec (.fcvti 4#5 1#5 0#2 .f32) (regs [(1, 0xFFC00000#64)])) fun t => decide (t.core.sval 4#5 = 0#64 ∧ t.core.fflags = 0x10#64)) = true := by decide +kernel

def lanes8 : State := vec 0#64 0x3#64 0x7F80#512 0x01FF#512

/-- R167: VABS of -128 is -128; VSADD saturates 127 + 1; inactive lanes are kept. -/

theorem test_vint : (next (exec (.vabs 3#5 1#5 0#1 1#3 .i8) lanes8) fun t => decide (t.core.vval 3#5 = 0x7F80#512)) = true ∧
    (next (exec (.vsadd 3#5 1#5 0#1 2#5 1#3 .i8) lanes8) fun t => decide (t.core.vval 3#5 = 0x7F80#512)) = true ∧
    (next (exec (.vadd 3#5 1#5 0#1 2#5 2#3 .i8) lanes8) fun t => decide (t.core.vval 3#5 = 0x55#512)) = true := by decide +kernel

/-- R168: a compare sets every mask bit of its active lanes and keeps the others. -/

theorem test_vcmp : (next (exec (.vcmplt 2#3 1#5 0#1 2#5 0#3 .i16) lanes8) fun t => decide (t.core.mask 2#3 = 0#64)) = true ∧
    (next (exec (.vcmpeq 2#3 1#5 0#1 1#5 1#3 .i16) lanes8) fun t => decide (t.core.mask 2#3 = 0xF3#64)) = true := by decide +kernel

/-- R170, R172, R173: VTYPE 7 raises 0x05E; VEXT sign-extends; the sum of the active lanes. -/

theorem test_vxf : traps (exec (.vshuf 3#5 1#5 0#1 2#5 0#3) (vec 7#64 0#64 0#512 0#512)) 0x05E = true ∧
    gives (exec (.vext 4#5 1#5 0#1 0#5) lanes8) 4#5 0xFFFFFFFFFFFFFF80#64 = true ∧
    gives (exec (.vredsum 4#5 1#5 0#1 1#3) lanes8) 4#5 0xFFFFFFFFFFFFFFFF#64 = true ∧
    gives (exec (.vredmin 4#5 1#5 0#1 3#3) lanes8) 4#5 0x7F#64 = true := by decide +kernel

/-- The example of 08_vector_instructions.md: VQNT gives the codes 6, B, 1, 0 and the scale 0x80, and sets no flag. -/

theorem test_vqnt : (next (exec (.vqnt 3#5 1#5 0#1 0#5) (quant 0x3E403F30C0404120#512 e2m1)) fun t => decide (t.core.vval 3#5 = 0x8000000000000000000000000000000000000000000000000000000000000001B6#512 ∧ t.core.fflags = 0#64)) = true := by decide +kernel

/-- The same example: VDQNT of that vector gives 8, -3, 1 and zeros as bf16. -/

theorem test_vdqnt : (next (exec (.vdqnt 3#5 1#5 0#1 0#3) (quant 0x8000000000000000000000000000000000000000000000000000000000000001B6#512 e2m1)) fun t => decide (t.core.vval 3#5 = 0x3F80C0404100#512)) = true := by decide +kernel

/-- R180: KFIRST of an empty mask is 64; KNOT of k0 is 0. -/

theorem test_masks : gives (exec (.kfirst 4#5 3#3) lanes8) 4#5 64#64 = true ∧ gives (exec (.kpop 4#5 2#3) lanes8) 4#5 4#64 = true ∧
    (next (exec (.knot 2#3 0#3) lanes8) fun t => decide (t.core.mask 2#3 = 0#64)) = true := by decide +kernel

/-- R277, R221: little-endian, with no alignment, and LH sign-extends. -/

theorem test_loads : gives (exec (.lh 4#5 3#5 0#2 0#11) padded) 4#5 0xFFFFFFFFFFFFD3C4#64 = false ∧ gives (exec (.lh 4#5 3#5 0#2 0#11) padded) 4#5 0xFFFFFFFFFFFFC4B5#64 = true ∧
    gives (exec (.lbu 4#5 2#5 0#2 7#11) padded) 4#5 0xF1#64 = true ∧ gives (exec (.lw 4#5 2#5 0#2 1#11) padded) 4#5 0xFFFFFFFFF1E2D3C4#64 = true := by decide +kernel

/-- R278, R279: SH writes two bytes; STN with #1 writes the high nibble; a misaligned LDA raises 0x240. -/

theorem test_stores : (next (exec (.sh 4#5 2#5 0#2 0#11) padded) fun t => decide (memRead t.mem (scratchKey 0 0x100) 4 = 0xB5A60010)) = true ∧
    (next (exec (.stn 4#5 2#5 0#2 .core 1#1) padded) fun t => decide (memByte t.mem (scratchKey 0 0x100) = 0x08#8)) = true ∧
    traps (exec (.lda 4#5 3#5 0#2 .h .core) padded) 0x240 = true := by decide +kernel

/-- R282: AMOINC wraps to zero at its bound; CAS that fails writes the old value and returns it. -/

theorem test_atomics : (next (exec (.amoinc 4#5 2#5 1#5 .relaxed .core .d) (withCore padded fun k => { k with sregs := [(1, Ver.one 0xF1E2D3C4B5A69788#64), (2, Ver.one 0x0F00000000000100#64)] })) fun t => decide (memRead t.mem (scratchKey 0 0x100) 8 = 0 ∧ t.core.sval 4#5 = 0xF1E2D3C4B5A69788#64)) = true ∧
    (next (exec (.cas 4#5 2#5 1#5 .relaxed .core .w) padded) fun t => decide (memRead t.mem (scratchKey 0 0x100) 4 = 0xB5A69788 ∧ t.core.sval 4#5 = 0xB5A69788#64)) = true := by decide +kernel

/-- R231: a malformed job raises 0x1C4; R227: QGO takes the next job number, 1 after 2^32 - 1. -/

theorem test_qgo : traps (exec .qgoFill (windowed 4 0 8 7)) 0x1C4 = true ∧ (next (exec .qgoFill (windowed 4 0 8 8)) fun t => decide (t.core.jobs.map (fun j => j.num) = [1] ∧ t.core.lastJob = 1)) = true := by decide +kernel

/-- R148, R183: an open chain turns a new configuration away. -/

theorem test_chain : traps (exec (.mcfg 1#5 2#5 0#1 1#2) (slotted { slot with isOpen := true })) 0x144 = true ∧
    (next (exec (.chain 3#5 4#5 0#1 1#2) (slotted slot)) fun t => decide ((t.core.slot 1).isOpen = true ∧ (t.core.slot 1).scale = 5 ∧ (t.core.slot 1).headroom = 3 ∧ (t.core.slot 1).nexp = 2 ∧ (t.core.slot 1).future = 4)) = true := by decide +kernel

/-- R141: a product of 1/2 ulp rounds to even; one beyond the bound is clipped. -/

theorem test_grid : ({ v := 5 } : Elem).accumulate 0 0 (.fin false 5 (-1)) = { v := 7 } ∧ ({ v := 5 } : Elem).accumulate 0 24 (.fin true (2 ^ 31) 0) = { v := 5 - (2 ^ 31 - 1 : Nat), clip := true } := by decide +kernel

/-- R146, R149: a row for a closed slot is discarded with cause 0x148. -/

theorem test_row : (next (exec (.carryRowArrival 0) (rowed false 3 3)) fun t => decide (t.rows.length = 1 ∧ (t.getCore 0).carryRecs.length = 2)) = true ∧
    (next (exec (.carryRowArrival 0) (rowed true 3 3)) fun t => decide (((t.getCore 0).slot 1).elem 0 = { v := 4, count := 3 })) = true := by decide +kernel

/-- R193: the selector 8 gives the lost count and the bitmap. -/

theorem test_cstat : gives (exec (.cstat 4#5 1#5 0#1) (recorded 8#64)) 4#5 0xFFFFFFFF00000009#64 = true := by decide +kernel

/-- R196, R133: the E2M1 image passes with N3; R128: 1.5 encodes as code 3, R126: code 13 decodes to -3. -/

theorem test_table : gives (exec (.tabchk 4#5 0#1 2#2) (tabled { e2m1 with verified := false })) 4#5 3#64 = true ∧ gives (exec (.enc 4#5 6#5 0#1 2#2) (tabled e2m1)) 4#5 3#64 = true ∧
    gives (exec (.dec 4#5 1#5 0#1 2#2) (withCore (tabled e2m1) fun k => { k with sregs := [(1, Ver.one 13#64)] })) 4#5 0xC008000000000000#64 = true := by decide +kernel

/-- R367: BTAKE of a bead that is not there gives 0. R369: TKDONE of no task raises 0x2C8. -/

theorem test_ring : gives (exec (.btake 6#5 4#5) off) 6#5 0#64 = true ∧ traps (exec (.tkdone 4#5) off) 0x2C8 = true ∧
    (next (exec (.ringStep 0) (ringed (turning 5) [])) fun t => decide ((t.cluster 0).ring.steps = 6 ∧ ((t.cluster 0).ring.slotB.map fun x => (x.1, x.2.age)) = [(15, 10)] ∧ ((t.cluster 0).ring.slotA.map fun x => x.1) = [3])) = true := by decide +kernel

/-- R290: the status of job 0, and of a queued job; R228: FILL writes its pattern. -/

theorem test_copy : gives (exec (.cpstat 4#5 2#5) (copying [] [] 6)) 4#5 0x700000000#64 = true ∧ gives (exec (.cpstat 4#5 1#5) (copying [fillJob 7] [] 8)) 4#5 0x100000007#64 = true ∧
    (next (exec (.copyJobComplete 0 0) (copying [fillJob 7] [] 8)) fun t => decide (memRead t.mem (scratchKey 0 0x208) 8 = 0x1122334455667788 ∧ (t.getCore 0).jobs = [])) = true := by decide +kernel

/-- R305: the generation after 4095 is 1; R353: FTRY of a pending future gives 0 and state 1. -/

theorem test_futures : gives (exec (.fnew 4#5) (futures [(0, entryBytes 9 0 4095 0 0 0)] 0 0)) 4#5 0x100000#64 = true ∧ gives (exec (.ftry 4#5 1#5 6#5) (fut 1 0 0)) 6#5 1#64 = true ∧
    traps (exec (.ffree 1#5) (fut 1 1 1)) 0x303 = true ∧ gives (exec (.fget 4#5 1#5 6#5) (fut 2 0 0)) 4#5 77#64 = true := by decide +kernel

/-- R357, R48: JARG is ARGBASE + index x ARGSIZE; JEND begins the next unit of the chunk with s28 its index. -/

theorem test_job : gives (exec (.jarg 4#5) (jobbing 0)) 4#5 0x1030#64 = true ∧ gives (exec .jend (jobbing 0)) 28#5 4#64 = true ∧ traps (exec (.jsub 1#5) (jobbing 1)) 0x316 = true := by decide +kernel

/-- R358, R360: two messages in a channel of two leave no room; a receiver sees them. -/

theorem test_channel : gives (exec (.chpoll 4#5 2#4) (channel 0 0 5 3 0)) 4#5 0#64 = true ∧ gives (exec (.chpoll 4#5 2#4) (channel 1 0 5 3 0)) 4#5 2#64 = true ∧ traps (exec (.chpoll 4#5 3#4) (channel 0 0 5 3 0)) 0x345 = true := by decide +kernel

/-- R361: XEND counts drops up to 65535; XMIT outside a phase raises 0x343. -/

theorem test_phase : gives (exec (.xend 4#5) (withCore (phased none id) fun k => { k with unsent := 3, empty := 2 })) 4#5 0xFFFF00020003#64 = true ∧ traps (exec (.xmit 0#5 1#5 1#3) outside) 0x343 = true := by decide +kernel

/-- R363, R364: a mask without the own station raises 0x349; SLEEP whose deadline has come gives 0; TIME. -/

theorem test_sync : traps (exec (.bar 1#5 2#2) (barrier 2 {})) 0x349 = true ∧ gives (exec (.sleep 4#5 1#5) (sleeping 5 5 id)) 4#5 0#64 = true ∧ gives (exec (.time 4#5) (sleeping 0 5 id)) 4#5 5#64 = true := by decide +kernel

/-- R205, R209: KOP of an empty slot raises 0x189 with no loader; a loaded ADD slot adds lane by lane. -/

theorem test_kop : traps (exec (.kop 3#3 2#5 1#5 0#5 0#5 1#3) (kernel id)) 0x189 = true ∧
    (next (exec (.kop 3#3 2#5 1#5 0#5 0#5 1#3) (kernel fun k => { k with kdo := [(3, kdoOf kernelImage)] })) fun t => decide (t.core.vval 2#5 = 0x0000000100000007#512)) = true := by decide +kernel

/-- R403: COREID is the number of the core; user mode may not write TRAPVEC; FFLAGS keeps its reserved bits zero. -/

theorem test_registers : gives (exec (.srd 4#5 0x021#12) (reg false 0#64 id)) 4#5 0#64 = true ∧ traps (exec (.swr 1#5 0x004#12) (reg false 0x40#64 id)) 0x1C5 = true ∧
    (next (exec (.swr 1#5 0x006#12) (reg false 0xFFFF#64 id)) fun t => decide (t.core.fflags = 0xDF#64)) = true := by decide +kernel

/-- R409, R410, R425: TRAP #5 enters the handler with cause 5 and TRAPPC past the word; ERET restores what it saved. -/

theorem test_trap : (next (exec (.trap 5#12) base) fun t => decide (t.core.trapcause = 5#64 ∧ t.core.trappc = 0x0F00000000001004#64 ∧ t.core.status = 0x11#64 ∧ t.core.pc = 0x0F00000000002000#64)) = true ∧
    (next (exec .eret (reg true 0#64 fun k => { k with trappc := 0x1230#64 })) fun t => decide (t.core.pc = 0x1230#64 ∧ t.core.status = 0#64)) = true := by decide +kernel

/-- R376, R412, R416: HALT in user mode raises 0x1C6; WPSET with bit 2 raises 0x383; BRK raises 0x380 at its own word. -/

theorem test_debug : traps (exec .halt (reg false 0#64 id)) 0x1C6 = true ∧ traps (exec (.wpset 1#5 2#3) (reg true 4#64 id)) 0x383 = true ∧
    (next (exec (.brk 0xABC#12) base) fun t => decide (t.core.trapcause = 0x380#64 ∧ t.core.trappc = core0.pc ∧ t.core.trapval = 0xABC#64)) = true := by decide +kernel

/-- R81: a dispatch entry that is not enabled raises 0x044. -/

theorem test_deferred_off : traps (exec (.deferredInstruction 2#2 7#20 5#6) (deferring 0)) 0x044 = true := by decide +kernel

/-- R276, R254: an answer fills its name; a refusal leaves state 2 in the journal entry. -/

theorem test_answer : (next (exec (.loadResponse 0) answered) fun t => decide (t.core.sval 6#5 = 0xFFFFFFFFF1230077#64)) = true ∧
    (next (exec (.postedStoreRefusal 0 2) (posted false 1)) fun t => decide (tget 2 (t.getCore 0).journal 0#32 = 0x80012345#32)) = true := by decide +kernel

/-- R302: a dealt chunk is min(remaining, max(least, min(first, share))). -/

theorem test_deal : (next (exec (.dealChunk 0) (scheduling [] none [(3, card9)])) fun t => decide (t.cards.map (fun x => x.2.rem) = [84] ∧ (t.getCore 1).pc = 0x4000#64)) = true := by decide +kernel

/-- R446 to R448: before ACCEPT a command is refused with 0x0403; after it FUTMAKE gives a handle. -/

theorem test_mailbox : (next (exec (.wdset 0 [0#64, 5#64]) (ready fun s => { s with accepted := false })) fun t => decide (t.rsp.head? = some 0x04030003#64)) = true ∧
    (next (exec (.futmake 0 [0#64, 3#64]) (ready id)) fun t => decide (t.rsp.take 2 = [0#64, 0x100003#64])) = true := by decide +kernel

/-- R22: at a retirement the oldest iteration that has begun goes on where it stands, with its own flags. -/

theorem test_younger : (next (exec (.iterationRetire 0) (withCore (ending .endit [lastLoop]) fun k => { k with young := [younger] })) fun t => decide (t.core.pc = younger.pc ∧ t.core.pendingFlags = 1#64 ∧ t.core.young = [])) = true := by decide +kernel


end Sys2Proof.Tests
end

section
/-! SUPPORT. Changes of one core of the machine or of several, and the end of an instruction in a gang. -/

namespace Sys2Proof.Machine
open Sys2Proof

/-! ## One core of the machine and the others -/

@[simp] theorem setCore_cur (s : State) (c : CoreId) (k : Core) : (s.setCore c k).cur = s.cur := by
  unfold State.setCore
  split <;> rfl

@[simp] theorem mapCore_cur (s : State) (c : CoreId) (f : Core → Core) : (s.mapCore c f).cur = s.cur := setCore_cur s c _

theorem getCore_cur (s : State) : s.getCore s.cur = s.core := if_pos rfl

theorem getCore_mapCore_same (s : State) (c : CoreId) (f : Core → Core) : (s.mapCore c f).getCore c = f (s.getCore c) :=
  getCore_setCore_same s c _

theorem getCore_mapCore_of_ne {s : State} {c d : CoreId} (h : d ≠ c) (f : Core → Core) :
    (s.mapCore c f).getCore d = s.getCore d := getCore_setCore_of_ne h _

/-- What a change of one core leaves alone in that core, it leaves alone in every core. -/
theorem getCore_mapCore_proj {α : Type} (p : Core → α) {f : Core → Core} (hf : ∀ k, p (f k) = p k) (s : State)
    (c d : CoreId) : p ((s.mapCore c f).getCore d) = p (s.getCore d) := by
  by_cases h : d = c
  · rw [h, getCore_mapCore_same, hf]
  · rw [getCore_mapCore_of_ne h]

theorem mapCore_core_proj {α : Type} (p : Core → α) {f : Core → Core} (hf : ∀ k, p (f k) = p k) (s : State) (c : CoreId) :
    p (s.mapCore c f).core = p s.core := by
  have h := getCore_mapCore_proj p hf s c s.cur
  rwa [getCore_cur, ← mapCore_cur s c f, getCore_cur] at h

section Fold
variable {f : Core → Core}

theorem foldl_mapCore_core_proj {α : Type} (p : Core → α) (s : State) (l : List CoreId) (hf : ∀ k, p (f k) = p k) :
    p (l.foldl (fun t c => t.mapCore c f) s).core = p s.core := by
  induction l generalizing s with
  | nil => rfl
  | cons c l ih => exact (ih (s.mapCore c f)).trans (mapCore_core_proj p hf s c)

theorem getCore_foldl_mapCore_of_notMem {s : State} {l : List CoreId} {d : CoreId} (h : d ∉ l) :
    (l.foldl (fun t c => t.mapCore c f) s).getCore d = s.getCore d := by
  induction l generalizing s with
  | nil => rfl
  | cons c l ih =>
    rw [List.mem_cons, not_or] at h
    exact (ih h.2).trans (getCore_mapCore_of_ne h.1 f)

/-- Each of some different cores is changed once. -/
theorem getCore_foldl_mapCore_of_mem {s : State} {l : List CoreId} (hl : l.Nodup) {d : CoreId} (h : d ∈ l) :
    (l.foldl (fun t c => t.mapCore c f) s).getCore d = f (s.getCore d) := by
  induction l generalizing s with
  | nil => cases h
  | cons c l ih =>
    rw [List.nodup_cons] at hl
    rcases List.mem_cons.mp h with rfl | h
    · exact (getCore_foldl_mapCore_of_notMem hl.1).trans (getCore_mapCore_same s d f)
    · have hne : d ≠ c := fun e => hl.1 (e ▸ h)
      exact (ih hl.2 h).trans (by rw [getCore_mapCore_of_ne hne])

end Fold

theorem Gang.members_nodup (g : Gang) : g.members.Nodup :=
  List.nodup_range.map fun _ _ h => Nat.add_left_cancel h

theorem Gang.members_length (g : Gang) : g.members.length = g.width := by
  simp [Gang.members]

/-! ## The end of an instruction in a core that no step, routine or watchpoint holds -/

/-- Nothing but a gang takes note of the end of an instruction. -/
structure Core.Ends (k : Core) : Prop where
  routine : k.routine = none
  step : k.stepping = none
  hit : k.wpHit = none

theorem afterInstr_ends {s : State} (hw : s.core.wpHit = none) (hs : s.core.stepping = none) : s.afterInstr = s := by
  simp [State.afterInstr, hw, hs]

/-- The core without its place on the path of its gang. -/
def Core.offPath (k : Core) : Core := { k with ahead := false, path := none, trail := [], lag := 0 }

/-- That a member has issued its word shows in its place on the path alone. -/
theorem issued_offPath (s : State) : s.issued.core.offPath = s.core.offPath := by
  unfold State.issued
  split
  · rfl
  · split
    · unfold State.pathDone
      split
      · exact foldl_mapCore_core_proj Core.offPath _ _ (by exact fun _ => rfl)
      · rfl
    · exact mapCore_core_proj Core.offPath (by exact fun _ => rfl) _ _

theorem complete_ends {s : State} (h : s.core.Ends) : s.complete = s.issued := by
  have hw := congrArg Core.wpHit (issued_offPath s)
  have hs := congrArg Core.stepping (issued_offPath s)
  unfold State.complete
  rw [h.hit, afterInstr_ends (hw.trans h.hit) (hs.trans h.step)]
  rfl

/-- Control goes to x; of the rest of the core only the marks of the instruction in issue and its place on the path change. -/
theorem goto_ends {s : State} (h : s.core.Ends) (x : Word) :
    (s.goto x).core.offPath = (Claims.closed s.core x).offPath := by
  have hc : ({ s with core := Claims.closed s.core x } : State).core.Ends := ⟨h.routine, h.step, h.hit⟩
  unfold State.goto
  rw [h.routine]
  exact (congrArg (fun t : State => t.core.offPath) (complete_ends hc)).trans (issued_offPath _)

theorem advance_ends {s : State} (h : s.core.Ends) :
    s.advance.core.offPath = (Claims.closed s.core (s.core.pc + 4#64)).offPath := goto_ends h _

theorem writeS_ends {k : Core} (h : k.Ends) (d : Reg) (x : Word) : (k.writeS d x).Ends :=
  ⟨by simpa using h.routine, by simpa using h.step, by simpa using h.hit⟩

/-- An instruction that writes d ends at the next word. -/
theorem setS_advance_ends {s : State} (h : s.core.Ends) (d : Reg) (x : Word) :
    (s.setS d x).advance.core.pc = s.core.pc + 4#64 ∧ (s.setS d x).advance.core.sregs = (s.core.writeS d x).sregs := by
  have he := advance_ends (s := s.setS d x) (writeS_ends h d x)
  have hpc := congrArg Core.pc he
  have hregs := congrArg Core.sregs he
  exact ⟨hpc.trans (by rw [State.setS_core, Core.writeS_pc]; rfl), hregs⟩

end Sys2Proof.Machine
end

section
/-! SUPPORT. The GANG group (O59): collectives, FUSE and SPLIT. -/

namespace Sys2Proof.Machine
open Sys2Proof

/-! ## Collectives (R111) -/

theorem offPath_writeS (k : Core) (d : Reg) (x : Word) : (k.writeS d x).offPath = k.offPath.writeS d x := by
  unfold Core.writeS
  split <;> rfl

theorem putOutcome_offPath (s : State) (x : Word) : (s.putOutcome x).core.offPath = s.core.offPath := by
  unfold State.putOutcome
  split
  · exact mapCore_core_proj Core.offPath (by exact fun _ => rfl) _ _
  · rfl

/-- The outcome o has written v to d, and control is at the next word. -/
def GoesOn (s : State) (d : Reg) (v : Word) (o : Out) : Prop :=
  ∃ t, o = .next t ∧ t.core.pc = s.core.pc + 4#64 ∧ t.core.sregs = (s.core.writeS d v).sregs

/-- An instruction that writes d ends so whatever it has done to the path of its gang. -/
theorem goesOn_setS {s t : State} (h : s.core.Ends) (ht : t.core.offPath = s.core.offPath) (d : Reg) (v : Word) :
    GoesOn s d v (.next (t.setS d v).advance) := by
  have hr := congrArg Core.routine ht
  have hs := congrArg Core.stepping ht
  have hw := congrArg Core.wpHit ht
  have hpc := congrArg Core.pc ht
  have he : (t.core.writeS d v).offPath = (s.core.writeS d v).offPath := by rw [offPath_writeS, ht, ← offPath_writeS]
  have hv := congrArg Core.sregs he
  obtain ⟨hp, hregs⟩ := setS_advance_ends (s := t) ⟨hr.trans h.routine, hs.trans h.step, hw.trans h.hit⟩ d v
  exact ⟨_, rfl, hp.trans (congrArg (· + 4#64) hpc), hregs.trans hv⟩

theorem member_ends {s : State} {g : Gang} (h : Claims.Member s g) : s.core.Ends := ⟨h.routine, h.step, h.hit⟩

/-- A member follows unless it leads. -/
theorem follows_member {s : State} {g : Gang} (h : Claims.Member s g) : s.follows = (s.cur != g.leader) := by
  simp [State.follows, h.gang, h.routine]

/-- One source of each member of g. -/
def State.sources (s : State) (g : Gang) (a : Reg) (da : Dist) : List Word :=
  g.members.map fun c => ((s.getCore c).srcS a da.toNat).val

/-- Each member of g has retired the iteration before, and its source is full. -/
def State.SourcesFull (s : State) (g : Gang) (a : Reg) (da : Dist) : Prop :=
  ∀ c ∈ g.members, (s.getCore c).lag = 0 ∧ (s.getCore c).ending = none ∧ ((s.getCore c).srcS a da.toNat).full = true

section Member
variable {s : State} {g : Gang} {d a : Reg} {da : Dist}

/-- The leader writes the value formed from the sources of the members. -/
theorem collective_leader (hm : Claims.Member s g) (hr : s.core.ready (Claims.reads [(a, da)] d) = true)
    (hl : s.cur = g.leader) (hfull : s.SourcesFull g a da) (f : List Word → Word) :
    GoesOn s d (f (s.sources g a da)) (s.collective d a da f) := by
  have hall : (g.members.all fun c => decide ((s.getCore c).lag = 0) && (s.getCore c).ending.isNone &&
      ((s.getCore c).srcS a da.toNat).full) = true := by
    simp only [List.all_eq_true, Bool.and_eq_true, decide_eq_true_eq, Option.isNone_iff_eq_none]
    exact fun c hc => ⟨⟨(hfull c hc).1, (hfull c hc).2.1⟩, (hfull c hc).2.2⟩
  have hfollow : s.follows = false := by simp [follows_member hm, hl]
  unfold State.collective
  rw [hm.gang]
  dsimp only
  rw [issue_ready (n := { ss := [(a, da.toNat)], ds := [d] }) hr hm.mesh, hfollow, if_neg Bool.false_ne_true, if_pos hall]
  exact goesOn_setS (member_ends hm) (putOutcome_offPath s _) d _

/-- A follower writes the value that the path brings. -/
theorem collective_follower (hm : Claims.Member s g) (hr : s.core.ready (Claims.reads [(a, da)] d) = true)
    (hl : s.cur ≠ g.leader) {y : Word} (hy : s.pathOutcome = some y) (f : List Word → Word) :
    GoesOn s d y (s.collective d a da f) := by
  have hfollow : s.follows = true := by simp [follows_member hm, hl]
  unfold State.collective
  rw [hm.gang]
  dsimp only
  rw [issue_ready (n := { ss := [(a, da.toNat)], ds := [d] }) hr hm.mesh, hfollow, if_pos rfl, hy]
  exact goesOn_setS (member_ends hm) rfl d _

/-- Within one cluster a distance of COREIDs is one of stations. -/
theorem sub_stations {c j w : Nat} (hw : c % 16 + w ≤ 16) (hj : j < w) : c + j - c = (c + j) % 16 - c % 16 := by
  omega

/-- The index of a member is its station less the leader's. -/
theorem gangIndex_member (hm : Claims.Member s g) (hw : g.leader % 16 + g.width ≤ 16) :
    s.gangIndex = s.cur % 16 - g.leader % 16 := by
  obtain ⟨j, hj, hc⟩ := List.mem_map.mp hm.inside
  simp only [State.gangIndex, hm.gang, ← hc]
  exact sub_stations hw (List.mem_range.mp hj)

theorem gidx_member (hm : Claims.Member s g) (hr : s.core.ready { ds := [d] } = true) :
    GoesOn s d (BitVec.ofNat 64 s.gangIndex) (execGidx d s) := by
  unfold execGidx
  rw [hm.gang]
  dsimp only
  rw [form0_ready hr hm.mesh]
  exact goesOn_setS (member_ends hm) rfl d _

end Member

/-- A sum of words is the sum of their numbers. -/
theorem foldl_add_ofNat (l : List Word) (x : Word) :
    l.foldl (· + ·) x = BitVec.ofNat 64 (x.toNat + (l.map fun y => y.toNat).sum) := by
  induction l generalizing x with
  | nil => simp
  | cons y l ih =>
    rw [List.foldl_cons, ih, List.map_cons, List.sum_cons]
    apply BitVec.eq_of_toNat_eq
    simp [Nat.add_assoc]

/-! ## FUSE and SPLIT (R46, R110) -/

theorem fuse_of_gang {s : State} {g : Gang} (hl : s.core.loops = []) (hg : s.core.gang = some g) :
    execFuse s = .next s.advance := by
  simp [execFuse, hl, hg]

theorem fuse_of_no_gang {s : State} (hl : s.core.loops = []) (hg : s.core.gang = none) (hw : s.core.wasGang = none) :
    execFuse s = .next s.advance := by
  simp [execFuse, hl, hg, hw]

/-- A member that its gang takes back goes on behind its FUSE (R46). -/
def Core.rejoin (g : Gang) (k : Core) : Core :=
  { k with
    join := none, gang := some g, wasGang := none, ahead := false, path := none, trail := [], lag := 0, inWait := false,
    pc := k.pc + 4#64 }

/-- The FUSE that the last split member reaches puts every member back into the gang. -/
theorem fuse_last {s : State} {g : Gang} (hl : s.core.loops = []) (hg : s.core.gang = none)
    (hs : s.core.stepping = none) (hw : s.core.wpHit = none) (hwas : s.core.wasGang = some g)
    (hothers : ∀ c ∈ g.members, c ≠ s.cur → (s.getCore c).join = some .fuse ∧ (s.getCore c).pc = s.core.pc) :
    execFuse s =
      .next (g.members.foldl (fun t c => t.mapCore c (Core.rejoin g)) (s.upd fun k => { k with join := some .fuse })) := by
  let t : State := s.upd fun k => { k with join := some .fuse }
  have hwaits : ∀ c ∈ g.members, (t.getCore c).join = some .fuse ∧ (t.getCore c).pc = s.core.pc := by
    intro c hc
    by_cases hcur : c = s.cur
    · subst hcur
      rw [show t.getCore s.cur = t.core from if_pos rfl]
      exact ⟨rfl, rfl⟩
    · rw [show t.getCore c = s.getCore c from by simp [State.getCore, t, hcur]]
      exact hothers c hc hcur
  have hall : t.allJoined g = true := by
    simp only [State.allJoined, List.all_eq_true]
    exact fun c hc => by rw [(hwaits c hc).1]; rfl
  have hsame : (g.members.all fun c => (t.getCore c).join == some .fuse && (t.getCore c).pc == t.core.pc) = true := by
    simp only [List.all_eq_true, Bool.and_eq_true, beq_iff_eq]
    exact hwaits
  have hhit := foldl_mapCore_core_proj (f := Core.rejoin g) Core.wpHit t g.members fun _ => rfl
  have hstep := foldl_mapCore_core_proj (f := Core.rejoin g) Core.stepping t g.members fun _ => rfl
  unfold execFuse
  rw [hl, hg, hwas]
  dsimp only
  rw [if_neg (by simp), show (s.upd fun k => { k with join := some .fuse }) = t from rfl, hall, if_neg (by simp), if_pos hsame]
  exact congrArg Host.Outcome.next (afterInstr_ends (hhit.trans hw) (hstep.trans hs))

/-- A member of a gang that SPLIT dissolves (R46). -/
def Core.splitOff (g : Gang) (k : Core) : Core := { k with gang := none, wasGang := some g, ahead := false, path := none }

/-- The SPLIT that the last member issues dissolves the gang; one before it ends as any instruction. -/
theorem split_member {s : State} {g : Gang} (hl : s.core.loops = []) (hg : s.core.gang = some g) :
    execSplit s =
      .next
        (if s.lastToIssue g then g.members.foldl (fun t c => t.mapCore c (Core.splitOff g)) s.advance else s.advance) := by
  unfold execSplit
  rw [hg]
  dsimp only
  rw [hl, if_neg (by simp), ← apply_ite Host.Outcome.next]
  rfl

theorem lastToIssue_of_ahead {s : State} {g : Gang} (h : ∀ c ∈ g.members, c ≠ s.cur → (s.getCore c).ahead = true) :
    s.lastToIssue g = true := by
  simp only [State.lastToIssue, List.all_eq_true, Bool.or_eq_true, decide_eq_true_eq]
  exact fun c hc => or_iff_not_imp_left.mpr (h c hc)

end Sys2Proof.Machine

namespace Sys2Proof.Proofs
open Sys2Proof Sys2Proof.Machine

/-- A collective is one exchange: its names, and its value as a function f of the members' sources. -/
theorem exec_collective {s : State} {g : Gang} {i : Instr} {n : Names} {d : Reg} {v : Word}
    (h : Claims.collective s g i = some (n, d, v)) :
    ∃ a da f, n = Claims.reads [(a, da)] d ∧ f (s.sources g a da) = v ∧ exec i s = s.collective d a da f ∧
      (Claims.collected s g i → s.SourcesFull g a da) := by
  unfold Claims.collective at h
  split at h
  case h_1 d a da =>
    cases h
    refine ⟨a, da, fun l => bool64 (l.any fun x => x != 0#64), rfl, ?_, rfl, id⟩
    simp [Claims.collective.vals, State.sources, bool64, List.any_eq_true]
  case h_2 d a da =>
    cases h
    refine ⟨a, da, fun l => bool64 (l.all fun x => x != 0#64), rfl, ?_, rfl, id⟩
    simp [Claims.collective.vals, State.sources, bool64, List.all_eq_true]
  case h_3 d a da m =>
    cases h
    refine ⟨a, da, fun l => l.getD (m.toNat % l.length) 0#64, rfl, ?_, rfl, id⟩
    simp [Claims.collective.vals, State.sources, Gang.members_length]
  case h_4 d a da =>
    cases h
    refine ⟨a, da, fun l => l.foldl (· + ·) 0#64, rfl, ?_, rfl, id⟩
    simp [foldl_add_ofNat, Claims.collective.vals, State.sources]
  case h_5 => cases h

theorem collectives : Claims.Collectives := by
  intro s g hm
  constructor
  · intro i n d v hi hr
    obtain ⟨a, da, f, rfl, rfl, hexec, hfull⟩ := exec_collective hi
    rw [hexec]
    exact ⟨fun hl hc => collective_leader hm hr hl (hfull hc) f, fun hl y hy => collective_follower hm hr hl hy f⟩
  · intro d hw hr
    rw [← gangIndex_member hm hw]
    exact gidx_member hm hr

theorem fuseAndSplit : Claims.FuseAndSplit := by
  intro s hl
  refine ⟨fun hq hw => ?_, fun g hm => ?_, fun g hq hwas _ hothers => ?_, fun g hm hahead => ?_, fun hg => ?_⟩
  · rw [show exec .fuse s = execFuse s from rfl, fuse_of_no_gang hl hq.1 hw, advance_quiet hq]
    rfl
  · have hpc := congrArg Core.pc (advance_ends (member_ends hm))
    exact ⟨s.advance, fuse_of_gang hl hm.gang, hpc⟩
  · obtain ⟨hg, hw, hs, -⟩ := hq
    refine ⟨_, fuse_last hl hg hs hw hwas hothers, fun c hc => ?_⟩
    rw [getCore_foldl_mapCore_of_mem g.members_nodup hc]
    refine ⟨rfl, ?_, rfl⟩
    show ((s.upd _).getCore c).pc + 4#64 = _
    congr 1
    by_cases hcur : c = s.cur
    · simp [State.getCore, hcur]
    · simpa [State.getCore, hcur] using (hothers c hc hcur).2
  · refine ⟨_, split_member hl hm.gang, fun c hc => ?_⟩
    rw [if_pos (lastToIssue_of_ahead hahead), getCore_foldl_mapCore_of_mem g.members_nodup hc]
    exact ⟨rfl, rfl⟩
  · show execSplit s = _
    simp [execSplit, hg]

/-- Settles O59: a collective is one exchange between the members, and FUSE and SPLIT act on each member once. -/
theorem gangInstructions : Obligations.GangInstructions := ⟨collectives, fuseAndSplit⟩

end Sys2Proof.Proofs
end

section
/-! SUPPORT. The step of a core that issues (O56): what a fetch leaves of the core, and the fetch of a word in the own
scratchpad. -/

namespace Sys2Proof.Machine
open Sys2Proof

/-! ## Reckoning counts change nothing but the counters -/

theorem countCtx_frame (s : State) (ctx idx n : Nat) :
    s.countCtx ctx idx n = { s with counters := (s.countCtx ctx idx n).counters } := by
  unfold State.countCtx
  split <;> rfl

theorem countHbm_frame (s : State) (ctx : Nat) :
    s.countHbm ctx = { s with counters := (s.countHbm ctx).counters, fresh := s.fresh + 1 } := by
  unfold State.countHbm
  dsimp only
  rw [countCtx_frame, countCtx_frame { s with fresh := s.fresh + 1 }]

theorem countAt_frame (s : State) (ctx pa : Nat) :
    s.countAt ctx pa = { s with counters := (s.countAt ctx pa).counters, fresh := (s.countAt ctx pa).fresh } := by
  unfold State.countAt
  split
  · rw [countHbm_frame]
  · rw [countCtx_frame]

/-- The state without memory, which granules of it are poisoned, and the counters. -/
def State.offMemory (s : State) : State := { s with mem := [], poisoned := [], counters := [], fresh := 0 }

theorem countCtx_offMemory (s : State) (ctx idx n : Nat) : (s.countCtx ctx idx n).offMemory = s.offMemory := by
  rw [countCtx_frame]
  rfl

theorem countHbm_offMemory (s : State) (ctx : Nat) : (s.countHbm ctx).offMemory = s.offMemory := by
  rw [countHbm_frame]
  rfl

theorem countAt_offMemory (s : State) (ctx pa : Nat) : (s.countAt ctx pa).offMemory = s.offMemory := by
  rw [countAt_frame]
  rfl

theorem putBytes_offMemory (s : State) (key : Nat) (b : List Byte) : (s.putBytes key b).offMemory = s.offMemory := rfl

/-- A notification record changes memory and the counters alone. -/
theorem notify_offMemory (s : State) (n kind queue cause detail : Nat) :
    (s.notify n kind queue cause detail).offMemory = s.offMemory := by
  unfold State.notify
  split
  · rfl
  · dsimp only
    split
    · rfl
    · split
      · rw [putBytes_offMemory, countAt_offMemory]
      · rw [putBytes_offMemory, putBytes_offMemory, countAt_offMemory, countAt_offMemory]

theorem countAccess_offMemory (s : State) (ctx pa : Nat) : (s.countAccess ctx pa).offMemory = s.offMemory := by
  unfold State.countAccess
  split
  · rfl
  · dsimp only
    split
    · rfl
    · split
      · rfl
      · split
        · rw [notify_offMemory, countAt_offMemory]; rfl
        · rw [countAt_offMemory]; rfl

/-! ## A fetch keeps the core's gang -/

@[simp] theorem pendAsync_gang (k : Core) (c : Cause) (v : Word) : (k.pendAsync c v).gang = k.gang := by
  unfold Core.pendAsync
  split <;> rfl

theorem wpTrap_gang (k : Core) (i va : Nat) : (k.wpTrap i va).gang = k.gang := by
  unfold Core.wpTrap
  dsimp only
  split
  · exact pendAsync_gang k _ _
  · rfl

theorem wpStop_gang (s : State) (i agent : Nat) : (s.wpStop s.cur i agent).core.gang = s.core.gang := by
  unfold State.wpStop
  dsimp only
  split
  · rfl
  · simp [State.setCore, State.getCore, State.stopCluster, State.stopStations, State.mapCluster]

theorem watchOwn_gang (s : State) (acc : Access) (p : Piece) : (s.watchOwn acc p).core.gang = s.core.gang := by
  unfold State.watchOwn State.watchPieces
  dsimp only
  split
  · rfl
  · split
    · exact wpTrap_gang _ _ _
    · exact wpStop_gang _ _ _

/-- The core without the lines and words that its fetches keep. -/
def Core.offLines (k : Core) : Core := { k with l1d := [], l1i := [], lbuf := [], fbuf := [] }

theorem holdWord_offLines (k : Core) (va : Nat) (w : Word32) : (k.holdWord va w).offLines = k.offLines := by
  unfold Core.holdWord
  split <;> rfl

/-- The core in focus and its number, as reading words leaves them. -/
def State.reader (s : State) : CoreId × Core := (s.cur, s.core.offLines)

theorem reader_of_offMemory {s t : State} (h : t.offMemory = s.offMemory) : t.reader = s.reader := by
  have hc := congrArg State.cur h
  have hk := congrArg State.core h
  exact Prod.ext hc (congrArg Core.offLines hk)

theorem nearLine_reader (s : State) (c : CoreId) (card line home : Nat) :
    (s.nearLine c card line home).2.reader = s.reader := by
  unfold State.nearLine
  split
  · rfl
  · dsimp only
    split <;> rfl

/-- Reading a word changes of the core in focus what its fetches keep alone. -/
theorem readWord_reader {s t : State} {p : Place} {addr : Nat} {pte : Word} {w : Word32}
    (h : s.readWord p addr pte = .word w t) : t.reader = s.reader := by
  unfold State.readWord at h
  dsimp only at h
  split at h
  · cases h
  · cases p with
    | scratch c =>
      dsimp only at h
      split at h <;> cases h
      rfl
    | hbm =>
      dsimp only at h
      split at h
      · cases h; rfl
      · split at h
        · cases h
        · cases h
          rw [reader_of_offMemory (countHbm_offMemory _ _)]
          split
          · split <;> exact nearLine_reader s _ _ _ _
          · split <;> rfl
    | host =>
      cases h
      split
      · rw [reader_of_offMemory (countAccess_offMemory _ _ _), reader_of_offMemory (countCtx_offMemory _ _ _ _)]
      · exact reader_of_offMemory (countCtx_offMemory _ _ _ _)
    | peer =>
      cases h
      exact reader_of_offMemory (countCtx_offMemory _ _ _ _)

theorem fetchAt_gang {s t : State} {va : Nat} {w : Word32} (h : s.fetchAt va = .word w t) :
    t.core.gang = s.core.gang := by
  unfold State.fetchAt at h
  dsimp only at h
  split at h
  · cases h
    exact watchOwn_gang _ _ _
  · split at h
    · split at h
      · next p addr pte w' u hr =>
        cases h
        have hread := congrArg (fun x => x.2.gang) (readWord_reader hr)
        have hhold := congrArg Core.gang (holdWord_offLines u.core va w)
        exact (watchOwn_gang _ _ _).trans (hhold.trans hread)
      · next p addr pte _ hn =>
        exact absurd h (hn _ _)
    all_goals cases h

/-! ## The step of a core that issues -/

/-- With no younger iteration there is none to cancel. -/
theorem keepYoung_none {s : State} (h : s.core.young = []) : s.keepYoung = id := by
  funext t
  simp [State.keepYoung, h]

@[simp] theorem onNext_id (o : Out) : onNext id o = o := by
  cases o <;> rfl

theorem focus_cur (s : State) : s.focus s.cur = s := if_pos rfl

/-- The next step is the turn of the core in focus, in the state with the rest of the agenda. -/
theorem step_of_turnOf {s : State} {l : List Turn} (h : Claims.TurnOf s l) :
    step s = ({ s with agenda := l } : State).coreTurn := by
  rcases h with ha | ⟨ha, rfl, hf⟩
  · unfold step
    rw [ha]
    exact congrArg State.coreTurn (focus_cur { s with agenda := l })
  · have hs : ({ s with agenda := [] } : State) = s := by rw [← ha]
    rw [hs]
    unfold step
    rw [ha]
    show s.defaultTurn = _
    unfold State.defaultTurn
    rw [hf]

/-- Nothing comes before the instruction of a core that issues. -/
theorem coreTurn_issues {s : State} (h : Claims.Issues s) : s.coreTurn = onNext s.keepYoung s.fetchIssue := by
  obtain ⟨hruns, hlive, hwait, hout, hend, hdue, hcause, hprep, hrout, hgang⟩ := h
  simp [State.coreTurn, State.deliverable, State.issueNext, hruns, hlive, hwait, hout, hend, hdue, hcause, hprep, hrout, hgang]

/-- Outside a gang the word fetched is issued as it stands. -/
theorem fetchIssue_word {s t : State} {w : Word32} {i : Instr} (hg : s.core.gang = none)
    (hf : s.fetchAt s.core.pc.toNat = .word w t) (hd : decode w = .ok i) :
    s.fetchIssue = exec i { t with core := { t.core with word := w } } := by
  have hg' : t.core.gang = none := (fetchAt_gang hf).trans hg
  simp [State.fetchIssue, hf, hg', State.issueWord, hd, State.upd]

/-! ## The fetch of a word in the own scratchpad -/

/-- A place in the own aperture translates to itself. -/
theorem translate_own {s : State} {va : Nat} (ha : va / 2 ^ 56 = 15) (hs : va % 2 ^ 56 < s.core.scratchSize)
    (hr : va % 2 ^ 56 < 2 ^ 19) : s.translate .fetch va = .ok (.scratch s.cur) (va % 2 ^ 56) 0#64 := by
  have h60 : ¬2 ^ 60 ≤ va := by omega
  have hm : s.core.meshAccess s.cur .fetch va = false := by simp [Core.meshAccess]
  unfold State.translate State.aperture
  rw [if_neg h60, hm, if_neg Bool.false_ne_true, if_pos (by omega)]
  dsimp only
  rw [if_neg (by omega), if_pos hr, if_neg (by simpa [State.getCore] using hs)]

theorem poisonIn_clean {s : State} (h : s.poisoned = []) (key n : Nat) : s.poisonIn key n = false := by
  simp [State.poisonIn, h]

/-- A core with no watchpoint matches none. -/
theorem wpMatch_none {k : Core} (h : k.wp = []) (c : CoreId) (acc : Access) (own : Bool) (addr n : Nat) :
    k.wpMatch c acc own addr n = none := by
  simp [Core.wpMatch, h, tget, tfind, wpKind, wbit]

theorem watchPieces_none {s : State} (h : s.core.wp = []) (acc : Access) (l : List (Nat × Piece)) :
    s.watchPieces acc l = s := by
  simp [State.watchPieces, wpMatch_none h]

theorem readWord_scratch {s : State} {c : CoreId} {addr : Nat} (hp : s.poisonIn (scratchKey c addr) 4 = false)
    (pte : Word) :
    s.readWord (.scratch c) addr pte = .word (BitVec.ofNat 32 (memRead s.mem (scratchKey c addr) 4)) s := by
  unfold State.readWord
  dsimp only
  rw [hp]
  rfl

/-- Holding a word changes the loop buffer alone. -/
theorem holdWord_frame (k : Core) (va : Nat) (w : Word32) :
    k.holdWord va w = { k with lbuf := (k.holdWord va w).lbuf } := by
  unfold Core.holdWord
  split <;> rfl

theorem holdWord_no_loop {k : Core} (h : k.loops = []) (va : Nat) (w : Word32) : k.holdWord va w = k := by
  simp [Core.holdWord, Core.inLoopBuffer, h]

/-- A word in the own scratchpad that the core does not hold yet is read there, and held in a loop body. -/
theorem fetchAt_own {s : State} {va : Nat} (hf : tfind (heldKey va s.core.system) s.core.fbuf = none)
    (hb : tfind (heldKey va s.core.system) s.core.lbuf = none) (ha : va / 2 ^ 56 = 15)
    (hs : va % 2 ^ 56 + 4 ≤ s.core.scratchSize) (hr : va % 2 ^ 56 + 4 ≤ 2 ^ 19) (hw : s.core.wp = [])
    (hp : s.poisonIn (scratchKey s.cur (va % 2 ^ 56)) 4 = false) {w : Word32}
    (hm : BitVec.ofNat 32 (memRead s.mem (scratchKey s.cur (va % 2 ^ 56)) 4) = w) :
    s.fetchAt va = .word w { s with core := s.core.holdWord va w } := by
  have hwatch : (s.core.holdWord va w).wp = [] := by rw [holdWord_frame]; exact hw
  unfold State.fetchAt
  dsimp only
  rw [hf, hb, translate_own ha (by omega) (by omega)]
  dsimp only [Option.orElse_none]
  rw [readWord_scratch hp, hm]
  exact congrArg (Fetched.word w) (watchPieces_none (s := { s with core := s.core.holdWord va w }) hwatch _ _)

end Sys2Proof.Machine

namespace Sys2Proof.Proofs
open Sys2Proof Sys2Proof.Machine

/-- The state with the rest of the agenda issues as well: the agenda bears on the choice of the turn only. -/
theorem issues_agenda {s : State} (h : Claims.Issues s) (l : List Turn) : Claims.Issues { s with agenda := l } :=
  ⟨h.runs, h.live, h.waiting, h.outq, h.ending, h.due, h.cause, h.preparing, h.routine, h.gang⟩

/-- The step of a core that issues is the meaning of the word that it fetches. -/
theorem step_fetched {s t : State} {l : List Turn} {w : Word32} {i : Instr} (hturn : Claims.TurnOf s l)
    (hi : Claims.Issues s) (hf : ({ s with agenda := l } : State).fetchAt s.core.pc.toNat = .word w t)
    (hd : decode w = .ok i) :
    step s = onNext ({ s with agenda := l } : State).keepYoung (exec i { t with core := { t.core with word := w } }) := by
  rw [step_of_turnOf hturn, coreTurn_issues (issues_agenda hi l), fetchIssue_word (s := { s with agenda := l }) hi.gang hf hd]

/-- Settles O56: the turn of a core that issues comes down to its fetch, and the fetch to the word in issue. -/
theorem stepRunsDecoded : Obligations.StepRunsDecoded := by
  unfold Obligations.StepRunsDecoded
  intro s l i hturn hi u
  have hnone (h : s.core.young = []) : u.keepYoung = id := keepYoung_none h
  constructor
  · intro w t hf hd v
    have hstep := step_fetched hturn hi hf hd
    exact ⟨hstep, fun hy => by rw [hstep, hnone hy, onNext_id]⟩
  · intro hy ha hs hr hb hl hloops hw hp w hd
    have hf : u.fetchAt s.core.pc.toNat = .word w { u with core := s.core.holdWord s.core.pc.toNat w } :=
      fetchAt_own (s := u) (congrArg (tfind _) hb) (congrArg (tfind _) hl) ha hs hr hw (poisonIn_clean (s := u) hp _ _) rfl
    rw [holdWord_no_loop hloops] at hf
    rw [step_fetched hturn hi hf hd, hnone hy, onNext_id]

end Sys2Proof.Proofs
end

section
/-! SUPPORT. The LOOP group (O3): the instructions of a core that stands alone, and where LOOP and the GANG group go on. -/

namespace Sys2Proof.Machine
open Sys2Proof

/-! ## Instructions of a core that stands between two of its own -/

theorem advance_alone {s : State} (h : s.core.quiet) : s.advance = Claims.ends s s.core := advance_quiet h

theorem goto_alone {s : State} (h : s.core.quiet) (x : Word) : s.goto x = Claims.endsAt s s.core x := goto_quiet h x

/-- An instruction that changes the core by f, and leaves its program counter, ends at the next word. -/
theorem advance_upd_alone {s : State} {f : Core → Core} (h : (f s.core).quiet) (hp : (f s.core).pc = s.core.pc) :
    (s.upd f).advance = Claims.ends s (f s.core) := by
  rw [advance_alone (s := s.upd f) h, Claims.ends, Claims.ends, State.upd_core, hp]
  rfl

/-- A ready instruction of such a core, outside the loader, that writes d. -/
theorem issue_writes {s : State} {n : Names} (ha : Claims.Alone s) (hl : s.core.loading = false)
    (hr : s.core.ready n = true) (d : Reg) (v : Word) :
    s.issue n (s.noLoader (.next (s.setS d v).advance)) = .next (Claims.ends s (s.core.writeS d v)) := by
  rw [issue_ready hr ha.mesh, State.noLoader, hl, if_neg Bool.false_ne_true, advance_alone (quiet_writeS ha.quiet d v)]
  simp [Claims.ends, Claims.endsAt]

theorem issued_alone {s : State} (h : s.core.gang = none) : s.issued = s := by
  simp [State.issued, h]

/-- An iteration that ends is marked, and nothing else changes. -/
theorem ending_issued {s : State} (h : s.core.gang = none) (e : Ending) :
    (s.upd fun k => { k with ending := some e }).issued = { s with core := { s.core with ending := some e } } :=
  issued_alone (s := s.upd fun k => { k with ending := some e }) h

theorem noLoader_outside {s : State} (h : s.core.loading = false) (body : Out) : s.noLoader body = body := by
  simp [State.noLoader, h]

theorem follows_alone {s : State} (h : s.core.quiet) : s.follows = false := by
  simp [State.follows, h.1]

theorem putOutcome_alone {s : State} (h : s.core.quiet) (x : Word) : s.putOutcome x = s := by
  simp [State.putOutcome, h.1, h.2.2.2]

theorem distsOk_of_ready {k : Core} {n : Names} (h : k.ready n = true) : k.distsOk n = true := by
  simp only [Core.ready, Bool.and_eq_true] at h
  exact h.1.1

theorem full_of_ready {k : Core} {n : Names} (h : k.ready n = true) : k.full n = true := by
  simp only [Core.ready, Bool.and_eq_true] at h
  exact h.2

/-- The condition of such a core is its own source. -/
theorem condition_alone {s : State} {a : Reg} {da : Dist} (ha : Claims.Alone s)
    (hr : s.core.ready { ss := [(a, da.toNat)] } = true) (body : State → Bool → Out) :
    s.condition a da body = body s (s.src a da.toNat != 0#64) := by
  unfold State.condition
  rw [follows_alone ha.quiet, if_neg Bool.false_ne_true, issue_ready hr ha.mesh, putOutcome_alone ha.quiet]

/-! ## LCAR (R25, R101) -/

theorem carried_eq (m : BitVec 32) : Claims.carried m = (namesIn m).length := rfl

/-- The declaration fits the version stores as R25 counts their entries. -/
theorem carryFits_iff (k : Core) (c : Carry) : k.carryFits c = true ↔ Claims.fits k c := by
  have hv (c : Carry) : c.extraV = if 2 ≤ c.depth then Claims.carried c.vectors else 0 := by
    unfold Carry.extraV
    split <;> rename_i h
    · rw [if_neg (by omega)]
    · rw [if_pos (by omega), carried_eq]
  simp only [Core.carryFits, Claims.fits, Bool.and_eq_true, decide_eq_true_eq, hv]
  rfl

section Alone
variable {s : State} {a b : Reg} {da : Dist}

theorem lcar_deep {i : BitVec 11} (hr : s.core.ready { ss := [(a, da.toNat), (b, 0)] } = true)
    (hi : ¬(1 ≤ i.toNat ∧ i.toNat ≤ 8)) : execLcar b a da i s = s.trapWord 0x082#10 :=
  if_pos ⟨distsOk_of_ready hr, hi⟩

theorem lcar_ready {i : BitVec 11} (ha : Claims.Alone s) (hl : s.core.loading = false)
    (hr : s.core.ready { ss := [(a, da.toNat), (b, 0)] } = true) (hi : 1 ≤ i.toNat ∧ i.toNat ≤ 8) :
    execLcar b a da i s =
      if s.core.carryFits (Claims.declared s b a da i) then
        .next (Claims.ends s { s.core with lcar := some (Claims.declared s b a da i) })
      else s.trapWord 0x081#10 := by
  unfold execLcar
  dsimp only
  rw [if_neg fun h => h.2 hi, issue_ready hr ha.mesh, noLoader_outside hl, advance_upd_alone ha.quiet rfl]
  rfl

/-! ## CONTIF, BRKIF and ENDIT (R103 to R105) -/

variable {r : LoopRec} {l : List LoopRec}

theorem contif_ready (ha : Claims.Alone s) (hl : s.core.loading = false) (hloops : s.core.loops = r :: l)
    (hr : s.core.ready { ss := [(a, da.toNat)] } = true) :
    execContif a da s =
      .next (if s.src a da.toNat = 0#64 then Claims.ends s s.core else Claims.endsAt s s.core r.last) := by
  unfold execContif
  rw [distsOk_of_ready hr, hloops]
  dsimp only
  rw [if_neg (by simp), noLoader_outside hl, condition_alone ha hr, advance_alone ha.quiet, goto_alone ha.quiet]
  by_cases h : s.src a da.toNat = 0#64 <;> simp [h]

theorem brkif_ready {n : BitVec 11} (ha : Claims.Alone s) (hl : s.core.loading = false) (hloops : s.core.loops = r :: l)
    (hr : s.core.ready { ss := [(a, da.toNat)] } = true) (hn : n = 1#11 ∨ n = 2#11 ∧ l ≠ []) :
    execBrkif a da n s =
      .next
        (if s.src a da.toNat = 0#64 then Claims.ends s s.core
         else { s with core := { s.core with ending := some (.brk n.toNat) } }) := by
  have hlevel : ¬(n.toNat = 2 ∧ s.core.loops.length < 2) := by
    rintro ⟨h2, hlen⟩
    rcases hn with rfl | ⟨-, hne⟩
    · cases h2
    · rw [hloops, List.length_cons] at hlen
      exact hne (List.length_eq_zero_iff.mp (by omega))
  unfold execBrkif
  rw [distsOk_of_ready hr, if_neg (by simp), if_neg (by simp [hloops]), if_neg hlevel, noLoader_outside hl,
    condition_alone ha hr, advance_alone ha.quiet, ending_issued ha.quiet.1]
  by_cases h : s.src a da.toNat = 0#64 <;> simp [h]

theorem endit_inside (ha : Claims.Alone s) (hl : s.core.loading = false) (hloops : s.core.loops = r :: l) :
    execEndit s =
      if s.core.pc = r.last then .next { s with core := { s.core with ending := some .endit } }
      else s.trapWord 0x0C7#10 := by
  unfold execEndit
  rw [hloops]
  dsimp only
  rw [noLoader_outside hl, ending_issued ha.quiet.1, ite_not]

end Alone

/-! ## The entry of a loop (R31, R33, R102) -/

theorem putRecord_alone {s : State} (h : s.core.gang = none) (r : LoopRec) : s.putRecord r = s := by
  simp [State.putRecord, h]

/-- The core without what a loop and control in it change: the loops, the names, the exit words and the program counter. -/
def Core.offLoop (k : Core) : Core :=
  { k with pc := 0#64, sregs := [], vregs := [], loops := [], x1 := 0#64, x2 := 0#64 }

theorem exitLoop_offLoop (k : Core) : k.exitLoop.offLoop = k.offLoop := by
  unfold Core.exitLoop
  split <;> rfl

/-- Where control goes at a LOOP: into the body, or with a count of 0 past its end. -/
theorem startLoop_alone {s : State} (h : s.core.quiet) (r : LoopRec) :
    (s.startLoop r).core.lcar = none ∧ (s.startLoop r).core.pc = if r.count = 0 then r.last + 4#64 else r.start := by
  have hcount : (s.core.enterLoop r).2.count = r.count := rfl
  have hend : (s.core.enterLoop r).2.last + 4#64 = r.last + 4#64 := rfl
  have hstart : (s.core.enterLoop r).2.start = r.start := rfl
  unfold State.startLoop
  dsimp only
  rw [hcount, hend, hstart]
  generalize hk : Core.exitLoop _ = k
  have hkeep := hk ▸ exitLoop_offLoop _
  have hlcar := congrArg Core.lcar hkeep
  have hquiet : k.quiet := (congrArg Core.quiet hkeep).mpr h
  split
  · rw [goto_quiet]
    · exact ⟨hlcar, rfl⟩
    · exact hquiet
  · rw [goto_quiet]
    · exact ⟨rfl, rfl⟩
    · exact h

/-- The fetch of an ENDIT that the core holds, or that lies in its own scratchpad, changes the loop buffer at most. -/
theorem fetchAt_enditAt {s : State} {va : Nat} (hw : s.core.wp = []) (h : Claims.enditAt s va) :
    ∃ b, s.fetchAt va = .word 0x41000000#32 { s with core := { s.core with lbuf := b } } := by
  have hheld : s.watchHeld va = s := watchPieces_none hw _ _
  have hkey : 2 * va + (if s.core.system then 1 else 0) = heldKey va s.core.system := rfl
  unfold Claims.enditAt at h
  rw [hkey] at h
  rcases h with hf | ⟨hf, hb⟩ | ⟨hf, hb, ha, hs, hr, hp, hm⟩
  · exact ⟨s.core.lbuf, by simp [State.fetchAt, hf, hheld]⟩
  · exact ⟨s.core.lbuf, by simp [State.fetchAt, hf, hb, hheld]⟩
  · refine ⟨(s.core.holdWord va 0x41000000#32).lbuf, ?_⟩
    rw [← holdWord_frame]
    exact fetchAt_own hf hb ha hs hr hw hp (congrArg (BitVec.ofNat 32) hm)

/-- The record of a LOOP whose body the core can fetch. -/
def State.loopRecord (s : State) (a : Reg) (da : Dist) (n : BitVec 11) : LoopRec :=
  { start := s.core.pc + 4#64
    last := BitVec.ofNat 64 (s.core.pc.toNat + 4 * n.toNat)
    count := (s.src a da.toNat).toNat % 2 ^ 32
    window := windowOf (s.nestsLoop (s.core.pc.toNat + 4) n.toNat) (s.core.lcar.getD {})
    carry := s.core.lcar.getD {}
    reach := s.reach (s.core.pc.toNat + 4) n.toNat (s.core.lcar.getD {}) }

theorem loop_ready {s u : State} {a : Reg} {da : Dist} {n : BitVec 11} (ha : Claims.Alone s)
    (hl : s.core.loading = false) (hloops : s.core.loops.length < 2) (h1 : 1 ≤ n.toNat) (h2 : n.toNat ≤ 1024)
    (hr : s.core.ready { ss := [(a, da.toNat)] } = true) (hfull : s.core.carryFull (s.core.lcar.getD {}) = true)
    (hf : s.fetchAt (s.core.pc.toNat + 4 * n.toNat) = .word 0x41000000#32 u) (hu : u.core.gang = none) :
    execLoop a da n s = .next (u.startLoop (s.loopRecord a da n)) := by
  unfold execLoop
  simp only [follows_alone ha.quiet, if_neg Bool.false_ne_true, distsOk_of_ready hr, Bool.not_true,
    if_neg (show ¬2 ≤ s.core.loops.length by omega), noLoader_outside hl,
    if_neg (show ¬(n.toNat = 0 ∨ 1024 < n.toNat) by omega), hf, full_of_ready hr, hfull, Bool.and_self, ne_eq, not_true,
    if_false, putRecord_alone hu]
  rfl

end Sys2Proof.Machine

namespace Sys2Proof.Proofs
open Sys2Proof Sys2Proof.Machine

theorem loopCompletes : Claims.LoopCompletes := by
  intro s a da n ha hl hw hloops h1 h2 hr hfull he
  obtain ⟨b, hf⟩ := fetchAt_enditAt hw he
  obtain ⟨hlcar, hpc⟩ :=
    startLoop_alone (s := { s with core := { s.core with lbuf := b } }) ha.quiet (s.loopRecord a da n)
  exact ⟨_, loop_ready ha hl hloops h1 h2 hr hfull hf ha.quiet.1, hlcar, hpc⟩

/-- A collective of the leader goes on to the next word. -/
theorem collective_completes {s : State} {g : Gang} {i : Instr} {n : Names} {d : Reg} {v : Word} (hm : Claims.Member s g)
    (hl : s.cur = g.leader) (hi : Claims.collective s g i = some (n, d, v)) (hr : s.core.ready n = true)
    (hc : Claims.collected s g i) : ∃ t, exec i s = .next t ∧ t.core.pc = s.core.pc + 4#64 := by
  obtain ⟨t, ht, hpc, -⟩ := ((collectives s g hm).1 i n d v hi hr).1 hl hc
  exact ⟨t, ht, hpc⟩

theorem gangCompletes : Claims.GangCompletes := by
  intro s
  refine ⟨fun hq hl hw => ?_, fun g hm => ⟨fun hl => ?_, fun d hr => ?_, fun d a da m hl hr hfull => ?_⟩⟩
  · exact ⟨_, fuse_of_no_gang hl hq.1 hw, by rw [advance_quiet hq]⟩
  · have hpc := congrArg Core.pc (advance_ends (member_ends hm))
    refine ⟨⟨_, fuse_of_gang hl hm.gang, hpc⟩, _, split_member hl hm.gang, ?_⟩
    split
    · exact (foldl_mapCore_core_proj Core.pc _ _ (by exact fun _ => rfl)).trans hpc
    · exact hpc
  · obtain ⟨t, ht, hpc, -⟩ := gidx_member hm hr
    exact ⟨t, ht, hpc⟩
  · exact ⟨collective_completes (i := .gany d a da) hm hl rfl hr hfull,
      collective_completes (i := .gall d a da) hm hl rfl hr hfull,
      collective_completes (i := .gbc d a da m) hm hl rfl hr hfull,
      collective_completes (i := .gsum d a da) hm hl rfl hr hfull⟩

/-- ITX, LSTAT and MOVD. -/
theorem exec_loopRead {s : State} {i : Instr} {n : Names} {d : Reg} {v : Word} (ha : Claims.Alone s)
    (hl : s.core.loading = false) (h : Claims.loopRead s i = some (n, d, v)) (hr : s.core.ready n = true) :
    exec i s = .next (Claims.ends s (s.core.writeS d v)) := by
  unfold Claims.loopRead at h
  split at h
  case h_1 d l =>
    obtain ⟨r, hrec, hv⟩ := Option.map_eq_some_iff.mp h
    cases hv
    show execItx d l s = _
    unfold execItx
    rw [hrec]
    exact issue_writes ha hl hr d _
  case h_2 d l =>
    cases h
    have hx : (if l = 1#11 then s.core.x1 else s.core.x2) = if l.toNat = 1 then s.core.x1 else s.core.x2 := by
      simp [BitVec.toNat_eq]
    rw [hx]
    exact issue_writes ha hl hr d _
  case h_3 d a m =>
    cases h
    exact issue_writes ha hl hr d _
  case h_4 => cases h

/-- Settles O3: each LOOP-group instruction of a core that stands alone, by its own rule. -/
theorem loopGroupResults : Obligations.LoopGroupResults := by
  refine ⟨loopCompletes, gangCompletes, fun s ha hl => ⟨fun b a da i hr => ⟨fun hi => ?_, fun hi hc => ?_, fun hi hc => ?_⟩,
    fun i n d v h hr => exec_loopRead ha hl h hr, fun r l hloops => ⟨fun a da hr => ?_, fun a da n hr hn => ?_,
      fun hpc => ?_, fun hpc => ?_⟩⟩⟩
  · exact lcar_deep hr hi
  · exact (lcar_ready ha hl hr hi).trans (if_neg fun h => hc ((carryFits_iff _ _).mp h))
  · exact (lcar_ready ha hl hr hi).trans (if_pos ((carryFits_iff _ _).mpr hc))
  · exact contif_ready ha hl hloops hr
  · exact brkif_ready ha hl hloops hr hn
  · exact (endit_inside ha hl hloops).trans (if_pos hpc)
  · exact (endit_inside ha hl hloops).trans (if_neg hpc)

end Sys2Proof.Proofs
end

section
/-! SUPPORT. The retirement of an iteration (O5): what the flush, the settlement of names, the exit of a loop and the next
iteration leave in the core. -/

namespace Sys2Proof.Machine
open Sys2Proof

/-! ## The stores of an iteration leave (R41, R42) -/

/-- The core without the books of its stores and its L1 lines. -/
def Core.offStores (k : Core) : Core := { k with outq := [], journal := [], journalAt := [], l1d := [], l1i := [] }

/-- The core in focus and its number, as stores that leave it find them. -/
def State.storer (s : State) : CoreId × Core := (s.cur, s.core.offStores)

theorem logWrite_storer (s : State) (n key : Nat) : (s.logWrite n key).storer = s.storer := by
  unfold State.logWrite
  split
  · rfl
  · split
    · rfl
    · split <;> rfl

theorem writeAt_storer (s : State) (n key size v : Nat) : (s.writeAt n key size v).storer = s.storer :=
  logWrite_storer s n key

theorem ownLines_storer (s : State) (r : Req) : (s.ownLines r).storer = s.storer := by
  unfold State.ownLines
  split <;> rfl

theorem send_storer (s : State) (r : Req) : (s.send r).storer = s.storer := by
  unfold State.send
  split
  · split
    · dsimp only
      split
      · rfl
      · split <;> exact writeAt_storer _ _ _ _ _
    · rfl
  · exact ownLines_storer s r

theorem drain_storer (s : State) (rs : List Req) : (s.drain rs).storer = s.storer := by
  induction rs generalizing s with
  | nil => rfl
  | cons r rs ih =>
    unfold State.drain
    split
    · rfl
    · split
      · exact (ih _).trans (send_storer s r)
      · split
        · rfl
        · exact (ih _).trans (send_storer _ _)

theorem watchBuffered_none {s : State} (h : s.core.wp = []) (rs : List Req) : s.watchBuffered rs = s :=
  watchPieces_none h _ _

theorem foldl_watchBuffered_none {s : State} (h : s.core.wp = []) (l : List (List Req)) :
    l.foldl State.watchBuffered s = s := by
  induction l with
  | nil => rfl
  | cons rs l ih => rw [List.foldl_cons, watchBuffered_none h, ih]

/-- With no watchpoint in their way the buffered stores leave nothing but the mark of the commit. -/
theorem flush_storer {s : State} (h : s.core.wp = []) :
    ∃ b, s.flush.storer = (s.cur, { s.core.offStores with sbuf := [], committed := b }) := by
  unfold State.flush
  split
  · next hb =>
    have hs : s.core.sbuf = [] := List.isEmpty_iff.mp hb
    split
    · exact ⟨true, by rw [← hs]; rfl⟩
    · exact ⟨s.core.committed, by rw [← hs]; rfl⟩
  · refine ⟨true, ?_⟩
    rw [drain_storer, foldl_watchBuffered_none (by exact h)]
    rfl

theorem flush_core {s : State} (h : s.core.wp = []) :
    ∃ b o j a d i, s.flush.core =
      { s.core with sbuf := [], committed := b, outq := o, journal := j, journalAt := a, l1d := d, l1i := i } := by
  obtain ⟨b, hb⟩ := flush_storer h
  let f := s.flush.core
  have hf := congrArg
    (fun x : CoreId × Core =>
      { x.2 with outq := f.outq, journal := f.journal, journalAt := f.journalAt, l1d := f.l1d, l1i := f.l1i }) hb
  exact ⟨b, f.outq, f.journal, f.journalAt, f.l1d, f.l1i, hf⟩

theorem flush_cur {s : State} (h : s.core.wp = []) : s.flush.cur = s.cur := by
  obtain ⟨b, hb⟩ := flush_storer h
  exact (congrArg Prod.fst hb :)

/-! ## The loop buffer is filled again (R244) -/

theorem foldl_countAt_offMemory (s : State) (ctx : Nat) (l : List Nat) :
    (l.foldl (fun t a => t.countAt ctx a) s).offMemory = s.offMemory := by
  induction l generalizing s with
  | nil => rfl
  | cons a l ih => exact (ih _).trans (countAt_offMemory s ctx a)

theorem orAD_offMemory (s : State) (ctx : Nat) (l : Leaf) (acc : Access) : (s.orAD ctx l acc).offMemory = s.offMemory := by
  unfold State.orAD
  split
  · exact countAt_offMemory _ _ _
  · rfl

theorem prefetchWord_reader {s t : State} {va : Nat} {w : Word32} (h : s.prefetchWord va = some (w, t)) :
    t.reader = s.reader := by
  have hvia {u : State} (hu : u.reader = s.reader) {p : Place} {a : Nat} {e : Word}
      (hr : (match u.readWord p a e with | .word w t => some (w, t) | _ => none) = some (w, t)) : t.reader = s.reader := by
    split at hr
    · next hw =>
      cases hr
      exact (readWord_reader hw).trans hu
    · cases hr
  unfold State.prefetchWord at h
  dsimp only at h
  split at h
  · cases h; rfl
  · split at h
    · exact hvia rfl h
    · split at h
      · cases h
      · split at h
        · refine hvia (reader_of_offMemory ?_) h
          rw [orAD_offMemory]
          exact foldl_countAt_offMemory _ _ _
        · cases h
    · cases h

/-- Filling the loop buffer changes of the core in focus what its fetches keep alone, and the mark that asks for it. -/
theorem refill_reader (s : State) : s.refill.reader = (s.cur, { s.core.offLines with refetch := false }) := by
  unfold State.refill
  split
  · dsimp only
    split
    · refine foldl_keeps (fun t : State => t.reader = _) _ (fun t i ht => ?_) _ _ rfl
      split
      · split
        · next w u hw =>
          have hu := (prefetchWord_reader hw).trans ht
          rw [← hu]
          exact Prod.ext rfl (holdWord_offLines u.core _ w)
        · exact ht
      · exact ht
    · rfl
  · next h =>
    rw [← Bool.eq_false_iff.mpr h]
    rfl

theorem refill_core (s : State) :
    ∃ d i lb fb, s.refill.core = { s.core with refetch := false, l1d := d, l1i := i, lbuf := lb, fbuf := fb } := by
  let f := s.refill.core
  have hf := congrArg
    (fun x : CoreId × Core => { x.2 with l1d := f.l1d, l1i := f.l1i, lbuf := f.lbuf, fbuf := f.fbuf }) (refill_reader s)
  exact ⟨f.l1d, f.l1i, f.lbuf, f.fbuf, hf⟩

theorem refill_cur (s : State) : s.refill.cur = s.cur := (congrArg Prod.fst (refill_reader s) :)

theorem refill_none {s : State} (h : s.core.refetch = false) : s.refill = s := by
  simp [State.refill, h]

end Sys2Proof.Machine
namespace Sys2Proof.Machine
open Sys2Proof

/-! ## The names of a loop (R35, R39, R40) -/

theorem mem_namesIn {m : BitVec 32} {x : Reg} (h : m.getLsbD x.toNat = true) : x.toNat ∈ namesIn m :=
  List.mem_filter.mpr ⟨List.mem_range.mpr x.isLt, h⟩

theorem namesIn_nodup (m : BitVec 32) : (namesIn m).Nodup := List.nodup_range.filter _

/-- One write for each of some different keys, of a value that the old one gives. -/
theorem tget_foldl_tset {α : Type} {dflt : α} {g : Nat → α → α} {step : Tab α → Nat → Tab α}
    (hstep : ∀ t n, step t n = tset n (g n (tget n t dflt)) t) {l : List Nat} (hl : l.Nodup) (t : Tab α) (m : Nat) :
    tget m (l.foldl step t) dflt = if m ∈ l then g m (tget m t dflt) else tget m t dflt := by
  induction l generalizing t with
  | nil => simp
  | cons n l ih =>
    rw [List.nodup_cons] at hl
    rw [List.foldl_cons, ih hl.2, hstep]
    by_cases hm : m = n
    · subst hm
      simp [hl.1]
    · simp [tget_tset_of_ne hm, hm]

/-- The name of an exited loop: one put aside takes a write of its last inner version, another keeps its versions (R39, R40). -/
def Ver.leave {α : Type} (level : Nat) (dflt : α) (aside : Option (Ver α)) (v : Ver α) : Ver α :=
  match aside with
  | some o => o.write true { val := (v.newest dflt).val }
  | none => { v with exited := level, wrote := false, dropped := none }

theorem tget_exitNames {α : Type} (level : Nat) (dflt : α) {names : List Nat} (hn : names.Nodup) (aside : Tab (Ver α))
    (d1 : Ver α) (t : Tab (Ver α)) {m : Nat} (hm : m ∈ names) :
    tget m (exitNames level dflt names aside d1 t) d1 = (tget m t d1).leave level dflt (tfind m aside) := by
  have hstep (t : Tab (Ver α)) (n : Nat) :
      (match tfind n aside with
        | some o => tset n (o.write true { val := ((tget n t d1).newest dflt).val }) t
        | none => tset n { tget n t d1 with exited := level, wrote := false, dropped := none } t) =
        tset n ((tget n t d1).leave level dflt (tfind n aside)) t := by
    cases tfind n aside <;> rfl
  have h := tget_foldl_tset hstep hn t m
  rw [if_pos hm] at h
  exact h

theorem retire_hist {α : Type} (dflt : α) (v : Ver α) : (v.retire dflt).hist = Claims.retired dflt v := by
  unfold Ver.retire Claims.retired
  split <;> rfl

theorem retire_newest {α : Type} (dflt : α) (v : Ver α) : (v.retire dflt).newest dflt = v.newest dflt := by
  unfold Ver.retire
  split <;> rfl

theorem leave_retire_hist {α : Type} (level : Nat) (dflt : α) (aside : Option (Ver α)) (v : Ver α) :
    ((v.retire dflt).leave level dflt aside).hist = Claims.left dflt aside v := by
  cases aside with
  | none => exact retire_hist dflt v
  | some o =>
    simp only [Ver.leave, retire_newest, Claims.left, Ver.write, if_true]
    split <;> rfl

/-! ## What an iteration that retires leaves in the core -/

/-- The core without its names. -/
def Core.offNames (k : Core) : Core := { k with sregs := [], vregs := [] }

theorem retireNames_offNames (k : Core) : k.retireNames.offNames = k.offNames := by
  unfold Core.retireNames
  split <;> rfl

theorem retireNames_offLoop (k : Core) : k.retireNames.offLoop = k.offLoop :=
  (congrArg Core.offLoop (retireNames_offNames k) :)

theorem retireNames_loops (k : Core) : k.retireNames.loops = k.loops := (congrArg Core.loops (retireNames_offNames k) :)

/-- The flags of the iteration are added, and its declaration lapses (R101, R163). -/
theorem settle_offNames (k : Core) :
    k.settle.offNames =
      { k.offNames with
        fflags := k.fflags ||| k.pendingFlags
        pendingFlags := 0#64
        lcar := none
        committed := false
        ending := none
        orderNo := k.orderNo + 1 } := by
  rw [← retireNames_offNames k]
  rfl

theorem follow_offLoop (k : Core) (e : Ending) : (k.follow e).offLoop = k.offLoop := by
  unfold Core.follow
  split
  · rfl
  · split
    · split
      · rfl
      · exact exitLoop_offLoop k
    · split
      · exact exitLoop_offLoop k
      · split
        · rfl
        · exact ((exitLoop_offLoop _).trans (retireNames_offLoop _)).trans (exitLoop_offLoop k)

/-- The core without the loop and what else belongs to the current iteration alone. -/
def Core.offIter (k : Core) : Core :=
  { k.offLoop with sbuf := [], pend := [], pendingFlags := 0#64, ending := none, young := [] }

theorem succeed_offIter (k : Core) (before : List LoopRec) : (k.succeed before).offIter = k.offIter := by
  unfold Core.succeed
  split
  · rfl
  · split <;> rfl

/-- The core after its current iteration has retired with the ending e. -/
def Core.retire (e : Ending) (k : Core) : Core := ((k.settle).follow e).succeed k.loops

theorem settle_follow_offLoop (k : Core) (e : Ending) :
    (k.settle.follow e).offLoop =
      { k.offLoop with
        fflags := k.fflags ||| k.pendingFlags
        pendingFlags := 0#64
        lcar := none
        committed := false
        ending := none
        orderNo := k.orderNo + 1 } :=
  (follow_offLoop _ e).trans (congrArg Core.offLoop (settle_offNames k) :)

theorem retire_offIter (k : Core) (e : Ending) :
    (k.retire e).offIter =
      { k.offIter with
        fflags := k.fflags ||| k.pendingFlags
        lcar := none
        committed := false
        orderNo := k.orderNo + 1 } :=
  (succeed_offIter _ _).trans
    (congrArg (fun x : Core => { x with sbuf := [], pend := [], pendingFlags := 0#64, ending := none, young := [] })
      (settle_follow_offLoop k e))

theorem exitWord_one (early : Bool) (i : Nat) : exitWord early 1 i = Claims.exitStatus early 1 i := by
  cases early <;> simp [exitWord, Claims.exitStatus]

theorem exitWord_two (i : Nat) : exitWord true 2 i = Claims.exitStatus true 2 i := by
  simp [exitWord, Claims.exitStatus, Nat.add_assoc]

section Loop
variable {k : Core} {r : LoopRec} {l : List LoopRec}

theorem retireNames_sver (h : k.loops = r :: l) {x : Reg} (hx : r.carry.scalars.getLsbD x.toNat = true) :
    k.retireNames.sver x = (k.sver x).retire 0#64 := by
  have := tget_foldl_tset (g := fun _ => Ver.retire 0#64) (dflt := dfltS) (fun _ _ => rfl)
    (namesIn_nodup r.carry.scalars) k.sregs x.toNat
  rw [if_pos (mem_namesIn hx)] at this
  unfold Core.retireNames
  rw [h]
  exact this

theorem retireNames_vver (h : k.loops = r :: l) {x : Reg} (hx : r.carry.vectors.getLsbD x.toNat = true) :
    k.retireNames.vver x = (k.vver x).retire 0#512 := by
  have := tget_foldl_tset (g := fun _ => Ver.retire 0#512) (dflt := dfltV) (fun _ _ => rfl)
    (namesIn_nodup r.carry.vectors) k.vregs x.toNat
  rw [if_pos (mem_namesIn hx)] at this
  unfold Core.retireNames
  rw [h]
  exact this

theorem exitLoop_loops (h : k.loops = r :: l) : k.exitLoop.loops = l := by
  unfold Core.exitLoop
  rw [h]

theorem exitLoop_sver (h : k.loops = r :: l) {x : Reg} (hx : r.carry.scalars.getLsbD x.toNat = true) :
    k.exitLoop.sver x = (k.sver x).leave k.loops.length 0#64 (tfind x.toNat r.asideS) := by
  unfold Core.exitLoop
  split
  · next h' => rw [h] at h'; cases h'
  · next h' =>
    rw [h] at h'
    cases h'
    exact tget_exitNames _ 0#64 (namesIn_nodup _) _ dfltS k.sregs (mem_namesIn hx)

theorem exitLoop_vver (h : k.loops = r :: l) {x : Reg} (hx : r.carry.vectors.getLsbD x.toNat = true) :
    k.exitLoop.vver x = (k.vver x).leave k.loops.length 0#512 (tfind x.toNat r.asideV) := by
  unfold Core.exitLoop
  split
  · next h' => rw [h] at h'; cases h'
  · next h' =>
    rw [h] at h'
    cases h'
    exact tget_exitNames _ 0#512 (namesIn_nodup _) _ dfltV k.vregs (mem_namesIn hx)

theorem settle_loops (h : k.loops = r :: l) : k.settle.loops = r :: l := (retireNames_loops k).trans h

theorem settle_young (k : Core) : k.settle.young = k.young := (congrArg Core.young (settle_offNames k) :)

/-! ### The loop goes on -/

theorem follow_more (h : k.loops = r :: l) (hm : r.iter + 1 < r.count) :
    k.follow .endit = { k with loops := { r with iter := r.iter + 1 } :: l, pc := r.start } := by
  unfold Core.follow
  rw [h]
  exact if_pos hm

/-- None has begun: the next iteration begins at the start of the body. -/
theorem retire_more_none (h : k.loops = r :: l) (hm : r.iter + 1 < r.count) (hy : k.young = []) :
    k.retire .endit = { k.settle with loops := { r with iter := r.iter + 1 } :: l, pc := r.start } := by
  unfold Core.retire Core.succeed
  rw [follow_more (settle_loops h) hm]
  dsimp only
  rw [settle_young, hy]

/-- The oldest of those that have begun goes on where it stands (R22). -/
theorem retire_more_some (h : k.loops = r :: l) (hm : r.iter + 1 < r.count) {y : Iter} {ys : List Iter}
    (hy : k.young = y :: ys) :
    k.retire .endit =
      ({ k.settle with loops := { r with iter := r.iter + 1 } :: l, pc := r.start } : Core).promote y ys := by
  unfold Core.retire Core.succeed
  rw [follow_more (settle_loops h) hm, h]
  dsimp only
  rw [settle_young, hy]
  exact if_pos rfl

/-! ### The loop ends -/

/-- The ending e leaves the innermost loop, and the one around it where it breaks out of two. -/
def Ending.leaves (e : Ending) (r : LoopRec) (l : List LoopRec) : Prop :=
  e = .endit ∧ r.count ≤ r.iter + 1 ∨ e = .brk 1 ∨ e = .brk 2 ∧ l ≠ []

def Ending.early : Ending → Bool
  | .endit => false
  | .brk _ => true

theorem follow_one (h : k.loops = r :: l) {e : Ending} (he : e = .endit ∧ r.count ≤ r.iter + 1 ∨ e = .brk 1) :
    k.follow e = { k.exitLoop with x1 := exitWord e.early 1 r.iter, x2 := 0#64, pc := r.last + 4#64 } := by
  unfold Core.follow
  rw [h]
  rcases he with ⟨rfl, hc⟩ | rfl
  · exact if_neg (by omega)
  · rfl

theorem follow_two {o : LoopRec} (h : k.loops = r :: o :: l) :
    k.follow (.brk 2) =
      { k.exitLoop.retireNames.exitLoop with
        x1 := exitWord true 2 r.iter
        x2 := exitWord true 2 o.iter
        pc := o.last + 4#64 } := by
  unfold Core.follow
  rw [h]
  rfl

theorem exitTwo_loops {o : LoopRec} (h : k.loops = r :: o :: l) : k.exitLoop.retireNames.exitLoop.loops = l :=
  exitLoop_loops ((retireNames_loops _).trans (exitLoop_loops h))

/-- An ending that leaves the loop leaves fewer loops. -/
theorem follow_length (h : k.loops = r :: l) {e : Ending} (he : e.leaves r l) :
    (k.follow e).loops.length < k.loops.length := by
  have hone (he : e = .endit ∧ r.count ≤ r.iter + 1 ∨ e = .brk 1) : (k.follow e).loops.length < k.loops.length := by
    have hl := congrArg Core.loops (follow_one h he)
    rw [hl, h]
    exact (congrArg List.length (exitLoop_loops h)).trans_lt (Nat.lt_succ_self _)
  rcases he with he | he | ⟨rfl, hne⟩
  · exact hone (.inl he)
  · exact hone (.inr he)
  · obtain ⟨o, m, rfl⟩ := List.exists_cons_of_ne_nil hne
    have hl := congrArg Core.loops (follow_two h)
    rw [hl, h]
    exact (congrArg List.length (exitTwo_loops h)).trans_lt (by simp)

/-- With no younger iteration, or at the exit of the loop, where they are cancelled (R37), none is left. -/
theorem retire_alone (h : k.loops = r :: l) {e : Ending} (he : k.young = [] ∨ e.leaves r l) :
    k.retire e = { k.settle.follow e with young := [] } := by
  have hyoung : (k.settle.follow e).young = k.young := (congrArg Core.young (settle_follow_offLoop k e) :)
  unfold Core.retire Core.succeed
  split
  · next hy => rw [← hy]
  · next y ys hy =>
    rcases he with hn | he
    · rw [hyoung, hn] at hy
      cases hy
    · have hlen := follow_length (settle_loops h) he
      rw [settle_loops h, ← h] at hlen
      exact if_neg (Nat.ne_of_lt hlen)

/-- Nothing of the iteration is left. -/
theorem retire_alone_clean (h : k.loops = r :: l) (hs : k.sbuf = []) {e : Ending} (he : k.young = [] ∨ e.leaves r l) :
    (k.retire e).young = [] ∧ (k.retire e).sbuf = [] ∧ (k.retire e).ending = none ∧ (k.retire e).pendingFlags = 0#64 := by
  have hsbuf := congrArg Core.sbuf (settle_follow_offLoop k e)
  have hending := congrArg Core.ending (settle_follow_offLoop k e)
  have hflags := congrArg Core.pendingFlags (settle_follow_offLoop k e)
  rw [retire_alone h he]
  exact ⟨rfl, hsbuf.trans hs, hending, hflags⟩

/-! ### Control, the exit words and the names after a retirement -/

theorem retire_more_keeps (h : k.loops = r :: l) (hm : r.iter + 1 < r.count) :
    (k.retire .endit).loops = { r with iter := r.iter + 1 } :: l ∧ (k.retire .endit).x1 = k.x1 ∧
      (k.retire .endit).x2 = k.x2 := by
  have hx1 : k.settle.x1 = k.x1 := (congrArg Core.x1 (settle_offNames k) :)
  have hx2 : k.settle.x2 = k.x2 := (congrArg Core.x2 (settle_offNames k) :)
  cases hy : k.young with
  | nil =>
    rw [retire_more_none h hm hy]
    exact ⟨rfl, hx1, hx2⟩
  | cons y ys =>
    rw [retire_more_some h hm hy]
    exact ⟨rfl, hx1, hx2⟩

theorem retire_more_sver (h : k.loops = r :: l) (hm : r.iter + 1 < r.count) (hy : k.young = []) {x : Reg}
    (hx : r.carry.scalars.getLsbD x.toNat = true) :
    ((k.retire .endit).sver x).hist = Claims.retired 0#64 (k.sver x) := by
  rw [retire_more_none h hm hy, ← retire_hist, ← retireNames_sver h hx]
  rfl

theorem retire_more_vver (h : k.loops = r :: l) (hm : r.iter + 1 < r.count) (hy : k.young = []) {x : Reg}
    (hx : r.carry.vectors.getLsbD x.toNat = true) :
    ((k.retire .endit).vver x).hist = Claims.retired 0#512 (k.vver x) := by
  rw [retire_more_none h hm hy, ← retire_hist, ← retireNames_vver h hx]
  rfl

/-- The iteration e ends leaves the innermost loop alone. -/
theorem retire_one (h : k.loops = r :: l) {e : Ending} (he : e = .endit ∧ r.count ≤ r.iter + 1 ∨ e = .brk 1) :
    k.retire e =
      { k.settle.exitLoop with x1 := exitWord e.early 1 r.iter, x2 := 0#64, pc := r.last + 4#64, young := [] } := by
  have hleaves : e.leaves r l := he.imp_right .inl
  rw [retire_alone h (.inr hleaves), follow_one (settle_loops h) he]

theorem retire_one_control (h : k.loops = r :: l) {e : Ending} (he : e = .endit ∧ r.count ≤ r.iter + 1 ∨ e = .brk 1) :
    (k.retire e).pc = r.last + 4#64 ∧ (k.retire e).loops = l ∧
      (k.retire e).x1 = Claims.exitStatus e.early 1 r.iter ∧ (k.retire e).x2 = 0#64 := by
  rw [retire_one h he, exitWord_one]
  exact ⟨rfl, exitLoop_loops (settle_loops h), rfl, rfl⟩

theorem retire_one_sver (h : k.loops = r :: l) {e : Ending} (he : e = .endit ∧ r.count ≤ r.iter + 1 ∨ e = .brk 1)
    {x : Reg} (hx : r.carry.scalars.getLsbD x.toNat = true) :
    ((k.retire e).sver x).hist = Claims.left 0#64 (tfind x.toNat r.asideS) (k.sver x) := by
  rw [retire_one h he, ← leave_retire_hist k.settle.loops.length, ← retireNames_sver h hx]
  exact congrArg Ver.hist (exitLoop_sver (settle_loops h) hx)

theorem retire_one_vver (h : k.loops = r :: l) {e : Ending} (he : e = .endit ∧ r.count ≤ r.iter + 1 ∨ e = .brk 1)
    {x : Reg} (hx : r.carry.vectors.getLsbD x.toNat = true) :
    ((k.retire e).vver x).hist = Claims.left 0#512 (tfind x.toNat r.asideV) (k.vver x) := by
  rw [retire_one h he, ← leave_retire_hist k.settle.loops.length, ← retireNames_vver h hx]
  exact congrArg Ver.hist (exitLoop_vver (settle_loops h) hx)

theorem retire_two_control {o : LoopRec} (h : k.loops = r :: o :: l) :
    (k.retire (.brk 2)).pc = o.last + 4#64 ∧ (k.retire (.brk 2)).loops = l ∧
      (k.retire (.brk 2)).x1 = Claims.exitStatus true 2 r.iter ∧ (k.retire (.brk 2)).x2 = Claims.exitStatus true 2 o.iter := by
  have hleaves : Ending.leaves (.brk 2) r (o :: l) := .inr (.inr ⟨rfl, List.cons_ne_nil _ _⟩)
  rw [retire_alone h (.inr hleaves), follow_two (settle_loops h), exitWord_two, exitWord_two]
  exact ⟨rfl, exitTwo_loops (settle_loops h), rfl, rfl⟩

end Loop

/-! ## ITERATION_RETIRE -/

/-- The state in which the current iteration has retired with the ending e. -/
def State.retired (s : State) (e : Ending) : State := (s.flush.upd (Core.retire e)).refill

theorem retired_core {s : State} (hw : s.core.wp = []) (e : Ending) :
    ∃ b o j a d i d' i' lb fb, (s.retired e).core =
      { Core.retire e
          { s.core with sbuf := [], committed := b, outq := o, journal := j, journalAt := a, l1d := d, l1i := i } with
        refetch := false, l1d := d', l1i := i', lbuf := lb, fbuf := fb } := by
  obtain ⟨b, o, j, a, d, i, hf⟩ := flush_core hw
  obtain ⟨d', i', lb, fb, hr⟩ := refill_core (s.flush.upd (Core.retire e))
  exact ⟨b, o, j, a, d, i, d', i', lb, fb, by rw [← hf]; exact hr⟩

theorem retired_cur {s : State} (hw : s.core.wp = []) (e : Ending) : (s.retired e).cur = s.cur :=
  (refill_cur _).trans (flush_cur hw)

/-- With no body to fetch again memory and the requests in flight are as the stores have left them. -/
theorem retired_unfilled {s : State} (hw : s.core.wp = []) (hr : s.core.refetch = false) (e : Ending) :
    s.retired e = s.flush.upd (Core.retire e) := by
  obtain ⟨b, o, j, a, d, i, hf⟩ := flush_core hw
  have hk := congrArg Core.refetch (retire_offIter s.flush.core e)
  rw [hf] at hk
  refine refill_none ?_
  rw [State.upd_core, hf]
  exact hk.trans hr

theorem focus_cur_eq (s : State) (c : CoreId) : (s.focus c).cur = c := by
  unfold State.focus
  split
  · next h => exact h.symm
  · rfl

theorem iterationRetire_next {s : State} {c : CoreId} {e : Ending} (hq : (s.focus c).core.quiet)
    (hw : (s.focus c).core.wp = []) (he : (s.focus c).core.ending = some e) (hr : (s.focus c).mayRetire = true) :
    execIterationRetire c s = .next ((s.focus c).retired e) := by
  obtain ⟨-, hhit, hstep, -⟩ := hq
  obtain ⟨b, o, j, a, d, i, d', i', lb, fb, hcore⟩ := retired_core hw e
  have hk (k : Core) := retire_offIter k e
  have hhit' := fun k => congrArg Core.wpHit (hk k)
  have hstep' := fun k => congrArg Core.stepping (hk k)
  unfold execIterationRetire
  dsimp only
  rw [he, hr]
  refine congrArg Host.Outcome.next (afterInstr_ends (s := (s.focus c).retired e) ?_ ?_)
  · rw [hcore]
    exact (hhit' _).trans hhit
  · rw [hcore]
    exact (hstep' _).trans hstep

end Sys2Proof.Machine

namespace Sys2Proof.Proofs
open Sys2Proof Sys2Proof.Machine

/-- Settles O5: the retirement is a function of the core that the flush leaves, and each of its cases has its own equation. -/
theorem iterationRetires : Obligations.IterationRetires := by
  intro c s e r l hq hw he hl hr hbrk k done
  obtain ⟨b, o, j, a, d, i, d', i', lb, fb, hcore⟩ := retired_core hw e
  let k' : Core := { k with sbuf := [], committed := b, outq := o, journal := j, journalAt := a, l1d := d, l1i := i }
  have hl' : k'.loops = r :: l := hl
  have hdone : done → e.leaves r l := by
    rintro (h | ⟨n, rfl⟩)
    · exact .inl h
    · rcases hbrk n rfl with rfl | ⟨rfl, hne⟩
      · exact .inr (.inl rfl)
      · exact .inr (.inr ⟨rfl, hne⟩)
  refine ⟨(s.focus c).retired e, iterationRetire_next hq hw he hr, (retired_cur hw e).trans (focus_cur_eq s c),
    fun hn => by rw [retired_unfilled hw hn]; rfl, fun hn => by rw [retired_unfilled hw hn]; rfl, ?_⟩
  unfold Claims.NamesOf Core.sver Core.vver
  rw [hcore]
  refine ⟨(congrArg Core.lcar (retire_offIter k' e) :), (congrArg Core.fflags (retire_offIter k' e) :),
    fun h => retire_alone_clean hl' rfl (h.imp_right hdone), ?_, ?_, ?_, ?_, ?_⟩
  · rintro rfl hm
    obtain ⟨hloops, hx1, hx2⟩ := retire_more_keeps hl' hm
    refine ⟨hloops, hx1, hx2, fun hy => ?_, fun y ys hy => ?_⟩
    · have hpc := congrArg Core.pc (retire_more_none hl' hm hy)
      exact ⟨hpc, fun x hx => retire_more_sver hl' hm hy hx, fun x hx => retire_more_vver hl' hm hy hx⟩
    · have hk := retire_more_some hl' hm hy
      have hpc := congrArg Core.pc hk
      have hsbuf := congrArg Core.sbuf hk
      have hpend := congrArg Core.pend hk
      have hending := congrArg Core.ending hk
      have hflags := congrArg Core.pendingFlags hk
      have hyoung := congrArg Core.young hk
      exact ⟨hpc, hsbuf, hpend, hending, hflags, hyoung⟩
  · rintro rfl hc
    exact retire_one_control hl' (.inl ⟨rfl, hc⟩)
  · rintro rfl
    exact retire_one_control hl' (.inr rfl)
  · intro hne hd
    have he1 : e = .endit ∧ r.count ≤ r.iter + 1 ∨ e = .brk 1 :=
      (hdone hd).imp_right fun h => h.resolve_right fun h2 => hne h2.1
    exact ⟨fun x hx => retire_one_sver hl' he1 hx, fun x hx => retire_one_vver hl' he1 hx⟩
  · rintro o' m rfl rfl
    exact retire_two_control hl'

end Sys2Proof.Proofs
end

section
/-! SUPPORT. Scheduling (O46): the queue engine, acceptance and dealing of cards, completion, forecast, fold and clock. -/

namespace Sys2Proof.Machine
open Sys2Proof

/-! ## Fields of a word -/

/-- A field that is put into a word: its own bits are the value's, the others the word's. -/
theorem getLsbD_wput (lo len : Nat) (w : Word) (v : Nat) {i : Nat} (hi : i < 64) :
    (wput w lo len v).getLsbD i = if lo ≤ i ∧ i < lo + len then v.testBit (i - lo) else w.getLsbD i := by
  have hm : (BitVec.ofNat 64 ((2 ^ len - 1) * 2 ^ lo)).getLsbD i = decide (lo ≤ i ∧ i < lo + len) := by
    rw [BitVec.getLsbD_ofNat, Nat.testBit_mul_two_pow, Nat.testBit_two_pow_sub_one]
    simp only [hi, decide_true, Bool.true_and, Bool.decide_and]
    by_cases hl : lo ≤ i
    · simp [hl, show i - lo < len ↔ i < lo + len by omega]
    · simp [hl]
  have hv : (BitVec.ofNat 64 (v % 2 ^ len * 2 ^ lo)).getLsbD i = (decide (lo ≤ i ∧ i < lo + len) && v.testBit (i - lo)) := by
    rw [BitVec.getLsbD_ofNat, Nat.testBit_mul_two_pow, Nat.testBit_mod_two_pow]
    simp only [hi, decide_true, Bool.true_and, Bool.decide_and]
    by_cases hl : lo ≤ i
    · simp [hl, show i - lo < len ↔ i < lo + len by omega]
    · simp [hl]
  unfold wput
  rw [BitVec.getLsbD_or, BitVec.getLsbD_and, BitVec.getLsbD_not, hm, hv]
  by_cases hc : lo ≤ i ∧ i < lo + len <;> simp [hc, hi]

theorem testBit_wfield (w : Word) (lo len i : Nat) :
    (wfield w lo len).testBit i = (decide (i < len) && w.getLsbD (lo + i)) := by
  rw [wfield, field, Nat.testBit_mod_two_pow, Nat.testBit_div_two_pow, BitVec.getLsbD, Nat.add_comm]

theorem wfield_wput_same {lo len : Nat} (h : lo + len ≤ 64) (w : Word) (v : Nat) :
    wfield (wput w lo len v) lo len = v % 2 ^ len := by
  refine Nat.eq_of_testBit_eq fun i => ?_
  rw [testBit_wfield, Nat.testBit_mod_two_pow]
  by_cases hi : i < len
  · rw [getLsbD_wput _ _ _ _ (by omega), if_pos (by omega), Nat.add_sub_cancel_left]
  · simp [hi]

theorem wfield_wput_of_disjoint {lo len lo' len' : Nat} (h' : lo' + len' ≤ 64)
    (hd : lo + len ≤ lo' ∨ lo' + len' ≤ lo) (w : Word) (v : Nat) :
    wfield (wput w lo len v) lo' len' = wfield w lo' len' := by
  refine Nat.eq_of_testBit_eq fun i => ?_
  rw [testBit_wfield, testBit_wfield]
  by_cases hi : i < len'
  · rw [getLsbD_wput _ _ _ _ (by omega), if_neg (by omega)]
  · simp [hi]

/-! ## The activity forecast, the reckoning fold and the clock (R310, R389, R453) -/

/-- The fields of the forecast after an update: its number, the busy positions, the cards with work to deal. -/
theorem activityForecast_fields (s : State) :
    ∃ f, execActivityForecastUpdate s = .next { s with forecast := f } ∧
      wfield f 56 8 = (wfield s.forecast 56 8 + 1) % 2 ^ 8 ∧ wfield f 16 12 = s.busyPositions % 2 ^ 12 ∧
      wfield f 32 12 =
        min 4095 (s.cards.filter fun p => decide (p.2.state = .released) && decide (0 < p.2.rem)).length := by
  refine ⟨_, rfl, ?_, ?_, ?_⟩
  · rw [wfield_wput_of_disjoint (by decide) (by decide), wfield_wput_of_disjoint (by decide) (by decide),
      wfield_wput_of_disjoint (by decide) (by decide), wfield_wput_same (by decide)]
  · rw [wfield_wput_of_disjoint (by decide) (by decide), wfield_wput_same (by decide)]
  · rw [wfield_wput_of_disjoint (by decide) (by decide), wfield_wput_of_disjoint (by decide) (by decide),
      wfield_wput_same (by decide), Nat.mod_eq_of_lt (by omega)]

/-- The estimates of energy go to counter 7 of each agency, and nothing else changes. -/
theorem foldl_count_energy (ags : List Nat) (s : State) :
    ∃ c, ags.foldl (fun (t : State) a => t.count a 7 (Config.energy (t.fresh + a))) s = { s with counters := c } ∧
      ∀ j, j % 16 ≠ 7 → tget j c 0 = tget j s.counters 0 := by
  induction ags generalizing s with
  | nil => exact ⟨s.counters, rfl, fun _ _ => rfl⟩
  | cons a ags ih =>
    obtain ⟨c, hc, hget⟩ := ih (s.count a 7 (Config.energy (s.fresh + a)))
    exact ⟨c, hc, fun j hj => (hget j hj).trans (tget_tset_of_ne (by omega) _ _ _)⟩

theorem reckoningFold_due {s : State} (h : s.foldTime + 10000 ≤ s.time) :
    ∃ c, execReckoningFold s =
        .next { s with
          counters := c, folded := c, folds := s.folds + 1, foldTime := s.foldTime + 10000, fresh := s.fresh + 4096 } ∧
      ∀ j, j % 16 ≠ 7 → tget j c 0 = tget j s.counters 0 := by
  obtain ⟨c, hc, hget⟩ := foldl_count_energy (s.contexts.map fun p => p.2.desc.agency).eraseDups s
  refine ⟨c, ?_, hget⟩
  unfold execReckoningFold
  rw [if_neg (by omega)]
  dsimp only
  rw [hc]

theorem clockStep_boundary {s : State} {m : Nat} (h1 : 1200 ≤ m) (h2 : m ≤ 2400) (h3 : m % 100 = 0)
    (h4 : m = s.mhz + 100 ∨ s.mhz = m + 100) (h5 : s.core.midway = false) (h6 : ∀ r ∈ s.others, r.2.midway = false) :
    execClockStep m s = .next { s with mhz := m } := by
  have hall : s.others.all (fun r => !r.2.midway) = true := by
    simp only [List.all_eq_true, Bool.not_eq_true']
    exact h6
  unfold execClockStep
  rw [if_pos ⟨h1, h2, h3, h4, by simp [h5], hall⟩]

/-! ## Cards that are released (R300, R301) -/

/-- Where no card is empty, releasing cards completes none. -/
theorem releaseCards_nonempty {s : State} (h : ∀ p ∈ s.cards, p.2.count ≠ 0) : s.releaseCards = s.markReleased := by
  have hcount : ∀ p ∈ s.markReleased.cards, p.2.count ≠ 0 := by
    intro p hp
    obtain ⟨q, hq, rfl⟩ := List.mem_map.mp hp
    dsimp only
    split <;> exact h q hq
  have hfind : (s.markReleased.cards.find? fun p => decide (p.2.state = .released) && decide (p.2.count = 0)) = none := by
    rw [List.find?_eq_none]
    intro p hp
    simp [hcount p hp]
  unfold State.releaseCards
  cases s.cards.length with
  | zero => rfl
  | succ n =>
    unfold State.releaseSome
    dsimp only
    rw [hfind]

/-- A card stays in its place: it is released at most. -/
theorem mem_markReleased {s : State} {n : Nat} {k : Card} (h : (n, k) ∈ s.cards) :
    ∃ c, (n, c) ∈ s.markReleased.cards ∧ c = { k with state := c.state, releasedAt := c.releasedAt } := by
  have hmap := List.mem_map_of_mem (f := fun p : Nat × Card =>
    if p.2.state = .waiting ∧ p.2.preds = 0 ∧ !s.heldByEdge p.1 p.2 then
      (p.1, { p.2 with state := .released, releasedAt := s.time })
    else p) h
  dsimp only at hmap
  split at hmap
  · exact ⟨_, hmap, rfl⟩
  · exact ⟨k, hmap, rfl⟩

theorem markReleased_mem (s : State) : s.markReleased.mem = s.mem := rfl

theorem addCard_mem (s : State) (k : Card) : (s.addCard k).mem = s.mem := rfl

theorem tfind_map_none {α : Type} {f : Nat × α → Nat × α} (hf : ∀ p, (f p).1 = p.1) {n : Nat} :
    ∀ {t : Tab α}, tfind n t = none → tfind n (t.map f) = none
  | [], _ => rfl
  | (j, v) :: t, h => by
    have hj := hf (j, v)
    have hne : j ≠ n := by
      rintro rfl
      simp [tfind] at h
    rw [tfind, if_neg hne] at h
    rw [List.map_cons, show f (j, v) = (j, (f (j, v)).2) from Prod.ext hj rfl, tfind, if_neg hne]
    exact tfind_map_none hf h

theorem tfind_markReleased_none {s : State} {n : Nat} (h : tfind n s.cards = none) : tfind n s.markReleased.cards = none :=
  tfind_map_none (by intro p; dsimp only; split <;> rfl) h

/-- A card without DONE and note that is complete goes; the other cards stay, and memory with them. -/
theorem cardDone_silent {k : Card} (hd : k.done = 0) (hn : k.note = false) (s : State) (n : Nat) :
    s.cardDone n k = (({ s with cards := terase n s.cards } : State).dropReplicas n).countCtx k.ctx 8 1 := by
  simp [State.cardDone, hd, hn]

theorem cardComplete_silent {s : State} {n : Nat} {k : Card} (hk : tfind n s.cards = some k) (hr : k.state = .released)
    (hrem : k.rem = 0) (he : k.ended = k.count) (hb : s.cardBusy n = false) (hd : k.done = 0) (hn : k.note = false)
    (hc : ∀ p ∈ s.cards, p.2.count ≠ 0) :
    ∃ t, execCardComplete n s = .next t ∧ t.mem = s.mem ∧ tfind n t.cards = none := by
  have hcards : (s.cardDone n k).cards = terase n s.cards := by
    rw [cardDone_silent hd hn]
    exact (congrArg State.cards (countCtx_offMemory _ _ _ _) :)
  have hrelease := releaseCards_nonempty (s := s.cardDone n k) (by
    rw [hcards]
    exact fun p hp => hc p (List.mem_of_mem_filter hp))
  refine ⟨(s.cardDone n k).markReleased, ?_, ?_, ?_⟩
  · unfold execCardComplete
    rw [hk]
    dsimp only
    rw [if_pos ⟨hr, hrem, he, by simp [hb], Or.inl hd⟩, hrelease]
  · show (s.cardDone n k).mem = s.mem
    rw [cardDone_silent hd hn]
    exact countCtx_mem _ _ _ _
  · refine tfind_markReleased_none ?_
    rw [hcards]
    exact tfind_terase_same n s.cards

/-! ## The queue engine (R294 to R297) -/

theorem queue_eq {s : State} {q : Nat} {k : Queue} (h : tfind q s.queues = some k) : s.queue q = k := by
  simp [State.queue, tget, h]

theorem queue_setQueue (s : State) (q : Nat) (k : Queue) : (s.setQueue q k).queue q = k := tget_tset_same q k {} s.queues

theorem countAt_queue (s : State) (ctx pa q : Nat) : (s.countAt ctx pa).queue q = s.queue q :=
  congrArg (fun l => tget q l ({} : Queue)) (congrArg State.queues (countAt_offMemory s ctx pa) :)

theorem slotAt_eq (k : Queue) : k.slotAt = Claims.slotAddr k k.h := by
  unfold Queue.slotAt Claims.slotAddr Queue.size wfield field
  rfl

theorem published_iff {s : State} {k : Queue} :
    Claims.published s k k.h ↔ memRead s.mem (k.slotAt + 0x70) 4 = (k.h + 1) % 2 ^ 32 := by
  rw [slotAt_eq]
  rfl

/-- A ring of an enabled queue of the function starts the engine. -/
theorem queuePublish_enabled {s : State} {q : Nat} {k : Queue} (hk : s.queue q = k) (hq : q < 32768)
    (he : k.enabled = true) (hl : s.live k.ctx = true) :
    execQueuePublish k.fn q s = .next (State.consume q k.size s) := by
  unfold execQueuePublish State.ringQueue State.queueLive
  rw [hk, if_pos ⟨hq, rfl, he⟩, if_pos (by simp [he, hl])]

theorem queuePublish_discarded {s : State} {fn q : Nat} (h : (s.queue q).fn ≠ fn ∨ (s.queue q).enabled = false) :
    execQueuePublish fn q s = .next s := by
  unfold execQueuePublish
  rw [if_neg]
  rintro ⟨-, hfn, he⟩
  rcases h with h | h
  · exact h hfn
  · rw [h] at he
    cases he

theorem queuePoll_due {s : State} {q : Nat} {k : Queue} (hk : s.queue q = k) (he : k.enabled = true)
    (hl : s.live k.ctx = true) (ht : k.tail s.mem ≠ k.h) :
    execQueuePoll q s = .next (State.consume q k.size s) := by
  have hlive : s.queueLive k = true := by simp [State.queueLive, he, hl]
  unfold execQueuePoll State.ringQueue
  rw [hk]
  dsimp only
  rw [if_pos ⟨hlive, ht⟩, if_pos hlive]

theorem await_h (k : Queue) (m : List Host.Cell) (time : Nat) : (k.await m time).h = k.h := by
  unfold Queue.await
  split <;> rfl

theorem await_timer {k : Queue} {m : List Host.Cell} (h : k.tail m ≠ k.h) (time : Nat) : (k.await m time).timer ≠ none := by
  unfold Queue.await
  split
  · exact fun h => by cases h
  · next hn => exact fun h0 => hn ⟨h, by simp [h0]⟩

/-- An unpublished slot stops the engine, which waits for it. -/
theorem consume_unpublished {s : State} {q : Nat} {k : Queue} (hk : s.queue q = k) (hp : ¬Claims.published s k k.h) (n : Nat) :
    State.consume q (n + 1) s = (s.setQueue q (k.await s.mem s.time)).countAt k.ctx k.slotAt := by
  subst hk
  exact if_pos (mt published_iff.mpr hp)

theorem consume_unpublished_looked {s : State} {q : Nat} {k : Queue} (hk : s.queue q = k)
    (hp : ¬Claims.published s k k.h) (n : Nat) :
    Claims.looked s (State.consume q (n + 1) s) q (k.await s.mem s.time) := by
  rw [consume_unpublished hk hp, countAt_frame]
  rfl

/-- HEAD of queue k is written, and the write counted. -/
def State.headed (t : State) (k : Queue) (h : Nat) : State :=
  ({ t with mem := memWrite t.mem (k.base + 8) h 4 } : State).countAt k.ctx (k.base + 8)

theorem headed_offMemory (t : State) (k : Queue) (h : Nat) : (t.headed k h).offMemory = t.offMemory :=
  countAt_offMemory _ _ _

theorem headed_mem (t : State) (k : Queue) (h : Nat) : (t.headed k h).mem = memWrite t.mem (k.base + 8) h 4 :=
  countAt_mem _ _ _

/-- Queue k once the slot at H has been consumed. -/
def Queue.next (k : Queue) : Queue := { k with h := (k.h + 1) % 2 ^ 32, timer := none, posted := false }

/-- The state in which card c is held. -/
def State.holding (s : State) (k : Queue) (c : Card) : State := ((s.countAt k.ctx k.slotAt).addCard c).markReleased

/-- The state after the consumption of the slot at H of queue q, which is k, with card c, which waits for nothing. -/
def State.consumed (s : State) (q : Nat) (k : Queue) (c : Card) : State :=
  ((s.holding k c).setQueue q k.next).headed k k.next.h

section Consumed
variable (s : State) (q : Nat) (k : Queue) (c : Card)

theorem holding_mem : (s.holding k c).mem = s.mem :=
  (markReleased_mem _).trans ((addCard_mem _ _).trans (countAt_mem s k.ctx k.slotAt))

theorem holding_core : (s.holding k c).core = s.core := (congrArg State.core (countAt_offMemory s k.ctx k.slotAt) :)

theorem mem_holding_cards :
    ∃ x, (s.nextCard, x) ∈ (s.holding k c).cards ∧ x = { c with state := x.state, releasedAt := x.releasedAt } := by
  have hnext := congrArg State.nextCard (countAt_offMemory s k.ctx k.slotAt)
  refine mem_markReleased (List.mem_append_right _ ?_)
  exact List.mem_singleton.mpr (congrArg (fun n => (n, c)) hnext.symm)

theorem consumed_offMemory : (s.consumed q k c).offMemory = ((s.holding k c).setQueue q k.next).offMemory :=
  headed_offMemory _ _ _

theorem consumed_queue : (s.consumed q k c).queue q = k.next :=
  (countAt_queue _ _ _ _).trans (queue_setQueue _ _ _)

theorem consumed_mem : (s.consumed q k c).mem = memWrite s.mem (k.base + 8) k.next.h 4 :=
  (headed_mem _ _ _).trans (congrArg (fun m => memWrite m (k.base + 8) k.next.h 4) (holding_mem s k c))

theorem consumed_cards : (s.consumed q k c).cards = (s.holding k c).cards :=
  (congrArg State.cards (consumed_offMemory s q k c) :)

theorem consumed_core : (s.consumed q k c).core = s.core :=
  (congrArg State.core (consumed_offMemory s q k c) :).trans (holding_core s k c)

end Consumed

theorem handleCard_accepted {s : State} {c : Card} {b : List Byte} (hf : s.cardFault c b = none) (hw : imgNat b 0x2C 4 = 0) :
    s.handleCard c b = some (s.addCard c).releaseCards := by
  unfold State.handleCard
  rw [hf, hw]
  rfl

theorem countAt_cardFault (s : State) (ctx pa : Nat) (c : Card) (b : List Byte) :
    (s.countAt ctx pa).cardFault c b = s.cardFault c b := by
  rw [countAt_frame]
  rfl

section Publish
variable {s : State} {q : Nat} {k : Queue} {c : Card} {b : List Byte}

/-- A published slot whose card passes its checks and waits for nothing is consumed. -/
theorem consume_published (hk : s.queue q = k) (hp : Claims.published s k k.h) (hpo : s.poisoned = [])
    (hb : memReadBytes s.mem k.slotAt 128 = b) (hcard : cardOf k.desc q k.h b = c) (hf : s.cardFault c b = none)
    (hw : imgNat b 0x2C 4 = 0) (hc : c.count ≠ 0) (hcs : ∀ p ∈ s.cards, p.2.count ≠ 0) (n : Nat) :
    State.consume q (n + 1) s = State.consume q n (s.consumed q k c) := by
  have hcards := congrArg State.cards (countAt_offMemory s k.ctx k.slotAt)
  have hrelease : ((s.countAt k.ctx k.slotAt).addCard c).releaseCards = s.holding k c := releaseCards_nonempty (by
    intro p hp
    rcases List.mem_append.mp hp with hp | hp
    · exact hcs p (hcards ▸ hp)
    · rw [List.mem_singleton.mp hp]
      exact hc)
  have hhandle : (s.countAt k.ctx k.slotAt).handleCard c b = some (s.holding k c) :=
    (handleCard_accepted ((countAt_cardFault s _ _ _ _).trans hf) hw).trans (congrArg some hrelease)
  subst hk hb hcard
  refine (if_neg (not_not.mpr (published_iff.mp hp))).trans ((if_neg (by simp [poisonIn_clean hpo])).trans ?_)
  dsimp only
  rw [hhandle]
  rfl

/-- The write of HEAD does not reach the slots. -/
theorem published_consumed :
    Claims.published (s.consumed q k c) k.next k.next.h ↔ Claims.published s k k.next.h := by
  unfold Claims.published
  rw [consumed_mem, memRead_memWrite_of_disjoint _ _ (by unfold Claims.slotAddr; dsimp only [Queue.next]; omega)]
  rfl

/-- The engine takes one card, where the slot after it is not published. -/
theorem consume_one (hk : s.queue q = k) (hp : Claims.published s k k.h) (hnext : ¬Claims.published s k k.next.h)
    (hpo : s.poisoned = []) (hb : memReadBytes s.mem k.slotAt 128 = b) (hcard : cardOf k.desc q k.h b = c)
    (hf : s.cardFault c b = none) (hw : imgNat b 0x2C 4 = 0) (hc : c.count ≠ 0) (hcs : ∀ p ∈ s.cards, p.2.count ≠ 0)
    (n : Nat) :
    ∃ t x, State.consume q (n + 2) s = t ∧ (t.queue q).h = k.next.h ∧ memRead t.mem (k.base + 8) 4 = k.next.h ∧
      (s.nextCard, x) ∈ t.cards ∧ x = { c with state := x.state, releasedAt := x.releasedAt } ∧ t.core = s.core := by
  obtain ⟨x, hx, hxc⟩ := mem_holding_cards s k c
  have hstop := consume_unpublished (consumed_queue s q k c) (fun h => hnext (published_consumed.mp h)) n
  generalize hu : (s.consumed q k c).setQueue q (k.next.await (s.consumed q k c).mem (s.consumed q k c).time) = u at hstop
  have hqueue : u.queue q = k.next.await (s.consumed q k c).mem (s.consumed q k c).time := by rw [← hu, queue_setQueue]
  have hmem : u.mem = (s.consumed q k c).mem := by rw [← hu]; rfl
  have hcards : u.cards = (s.holding k c).cards := by rw [← hu]; exact consumed_cards s q k c
  have hcore : u.core = s.core := by rw [← hu]; exact consumed_core s q k c
  have hkeep := countAt_offMemory u k.next.ctx k.next.slotAt
  refine ⟨_, x, (consume_published hk hp hpo hb hcard hf hw hc hcs (n + 1)).trans hstop, ?_, ?_, ?_, hxc, ?_⟩
  · rw [countAt_queue, hqueue, await_h]
  · rw [countAt_mem, hmem, consumed_mem, memRead_memWrite_same]
    exact Nat.mod_eq_of_lt (Nat.mod_lt _ (by decide))
  · exact ((congrArg State.cards hkeep :).trans hcards) ▸ hx
  · exact (congrArg State.core hkeep :).trans hcore

end Publish

/-- A reservation that is not published in time is reported once. -/
theorem reservationTimeout_due {s : State} {q at_ : Nat} {k : Queue} (hk : s.queue q = k) (he : k.enabled = true)
    (hl : s.live k.ctx = true) (hti : k.timer = some at_) (hto : k.tmo ≠ 0) (hpo : k.posted = false)
    (ht : k.tail s.mem ≠ k.h) (hdue : at_ + 1000 * k.tmo ≤ s.time) :
    execReservationTimeout q s = .next ((s.notify k.ctx 1 q 0x320 k.h).setQueue q { k with posted := true }) := by
  unfold execReservationTimeout
  rw [hk]
  dsimp only
  rw [hti]
  dsimp only
  rw [if_pos ⟨by simp [State.queueLive, he, hl], hto, by simp [hpo], ht, hdue⟩]

/-! ## Dealing (R302, R303) -/

/-- Among cards of one agency alone, the round ends with that agency. -/
theorem drr_singleton (level a : Nat) (fuel : Nat) (s : State) :
    ∃ tu d, State.drr level [a] fuel s = ({ s with turns := tu, deficits := d }, a) := by
  induction fuel generalizing s with
  | zero => exact ⟨s.turns, s.deficits, rfl⟩
  | succ n ih =>
    have hnext (x : Nat) : nextAfter x [a] = some a := by
      by_cases hx : x < a <;> simp [nextAfter, hx]
    rw [State.drr]
    cases tfind level s.turns with
    | none => exact ih _
    | some x =>
      dsimp only
      split
      · next b hb =>
        split at hb
        · next hc =>
          obtain rfl : x = a := by simpa using hc.1
          obtain rfl : x = b := Option.some.inj hb
          exact ⟨s.turns, s.deficits, rfl⟩
        · cases hb
      · rw [hnext]
        exact ih _

/-- The only card that there is, is the one to deal. -/
theorem choose_single {s : State} {n pos : Nat} {k : Card} (hc : s.cards = [(n, k)]) (hd : s.dealable n k pos = true) :
    ∃ tu d, s.choose pos = some ({ s with turns := tu, deficits := d }, n, k) := by
  obtain ⟨tu, d, hdrr⟩ := drr_singleton (s.level k) k.agency 131074 s.resetDeficits
  have hd' : s.resetDeficits.dealable n k pos = true := hd
  have hl : s.resetDeficits.level k = s.level k := rfl
  have hags : [k.agency].eraseDups = [k.agency] := by simp [List.eraseDups_cons]
  have hfilter : s.resetDeficits.cards.filter (fun p => s.resetDeficits.dealable p.1 p.2 pos) = [(n, k)] := by
    show s.cards.filter _ = _
    rw [hc]
    simp [hd']
  refine ⟨tu, d, ?_⟩
  unfold State.choose
  dsimp only
  rw [hfilter]
  show _ = some (({ s.resetDeficits with turns := tu, deficits := d } : State), n, k)
  simp [hl, hags, hdrr]

/-- Of the cores, at most core c differs, and the cards are the same. -/
structure State.SameButCore (s : State) (c : CoreId) (t : State) : Prop where
  cards : t.cards = s.cards
  others : ∀ d, d ≠ c → t.getCore d = s.getCore d

section Touch
variable {c : CoreId} {s t u : State}

theorem State.SameButCore.refl (s : State) (c : CoreId) : s.SameButCore c s := ⟨rfl, fun _ _ => rfl⟩

theorem State.SameButCore.trans (h : s.SameButCore c t) (h' : t.SameButCore c u) : s.SameButCore c u :=
  ⟨h'.cards.trans h.cards, fun d hd => (h'.others d hd).trans (h.others d hd)⟩

theorem sameButCore_setCore (s : State) (c : CoreId) (k : Core) : s.SameButCore c (s.setCore c k) :=
  ⟨by unfold State.setCore; split <;> rfl, fun _ hd => getCore_setCore_of_ne hd k⟩

theorem sameButCore_mapCore (s : State) (c : CoreId) (f : Core → Core) : s.SameButCore c (s.mapCore c f) :=
  sameButCore_setCore s c _

/-- The cores and the cards. -/
def State.board (s : State) : CoreId × Core × Tab Core × Tab Card := (s.cur, s.core, s.others, s.cards)

theorem sameButCore_of_board (h : t.board = s.board) (c : CoreId) : s.SameButCore c t := by
  have hcur : t.cur = s.cur := congrArg (·.1) h
  have hcore : t.core = s.core := congrArg (·.2.1) h
  have hothers : t.others = s.others := congrArg (·.2.2.1) h
  have hcards : t.cards = s.cards := congrArg (·.2.2.2) h
  exact ⟨hcards, fun d _ => by simp only [State.getCore, hcur, hcore, hothers]⟩

end Touch

theorem noFill_board (s : State) (c : CoreId) (f : Nat → Bool) : (s.noFill c f).board = s.board := rfl

theorem writeAt_board (s : State) (n key size v : Nat) : (s.writeAt n key size v).board = s.board := by
  show (s.logWrite n key).board = s.board
  unfold State.logWrite
  split
  · rfl
  · split
    · rfl
    · split <;> rfl

theorem zeroCounters_board (s : State) (ctx : Nat) (i : Image) : (s.zeroCounters ctx i).board = s.board := by
  refine List.foldlRecOn (motive := fun t : State => t.board = s.board) i.bindings _ rfl fun t ht q _ => ?_
  refine (List.foldlRecOn (motive := fun u : State => u.board = t.board) q.2 _ rfl fun u hu b _ => ?_).trans ht
  split
  · exact (writeAt_board _ _ _ _ _).trans hu
  · exact hu

theorem resplit_sameButCore (s : State) (c : CoreId) (n : Nat) : s.SameButCore c (s.resplit c n) := by
  have hset := sameButCore_setCore (s.noFill c fun _ => true) c
    { s.getCore c with lmsplit := BitVec.ofNat 64 (n % 8), l1d := [], l1i := [] }
  exact (sameButCore_of_board (noFill_board s c _) c).trans (hset.trans ⟨rfl, fun _ _ => rfl⟩)

theorem launch_sameButCore (s : State) (c : CoreId) (i : Image) : s.SameButCore c (s.launch c i) := by
  unfold State.launch
  dsimp only
  split
  · exact sameButCore_mapCore s c _
  · exact (resplit_sameButCore s c i.split).trans (sameButCore_mapCore _ c _)

/-- The entry of a unit changes its core alone. -/
theorem enterUnit_sameButCore (s : State) (c : CoreId) (u : WorkUnit) (k : Card) (g : Option Gang) :
    s.SameButCore c (s.enterUnit c u k g) := by
  unfold State.enterUnit
  dsimp only
  refine State.SameButCore.trans ?_ (sameButCore_mapCore _ c _)
  split
  · exact .refl s c
  · refine State.SameButCore.trans ?_ ((sameButCore_of_board (noFill_board _ c _) c).trans (sameButCore_mapCore _ c _))
    split
    · split
      · exact (sameButCore_of_board (zeroCounters_board s _ _) c).trans (launch_sameButCore _ c _)
      · exact launch_sameButCore s c _
    · exact .refl s c

theorem takeUnit_sameButCore (s : State) (c : CoreId) (u : WorkUnit) (k : Card) (g : Option Gang) :
    s.SameButCore c (s.takeUnit c u k g) := sameButCore_mapCore s c _

section Position
variable {F : State → CoreId → State} {P : Core → Prop}

/-- Each core of a position in turn is brought to P: in the end all of them are there, with the cards as before. -/
theorem foldl_position (hF : ∀ (t : State) c, t.SameButCore c (F t c)) (hP : ∀ t c, P ((F t c).getCore c)) (s : State)
    (pos w : Nat) :
    ((List.range w).foldl (fun t j => F t (pos + j)) s).cards = s.cards ∧
      ∀ j < w, P (((List.range w).foldl (fun t j => F t (pos + j)) s).getCore (pos + j)) := by
  induction w with
  | zero => exact ⟨rfl, fun j hj => absurd hj (Nat.not_lt_zero j)⟩
  | succ w ih =>
    obtain ⟨hcards, hcores⟩ := ih
    rw [List.range_succ, List.foldl_append]
    refine ⟨(hF _ _).cards.trans hcards, fun j hj => ?_⟩
    rcases Nat.lt_succ_iff_lt_or_eq.mp hj with hlt | rfl
    · have hne : pos + j ≠ pos + w := fun h => absurd (Nat.add_left_cancel h) (Nat.ne_of_lt hlt)
      rw [List.foldl_cons, List.foldl_nil, (hF _ _).others _ hne]
      exact hcores j hlt
    · exact hP _ _

end Position

/-- A core that a chunk came to: its unit, where it begins, and whether it waits for what R49 asks. -/
def Core.Dealt (k : Card) (u : WorkUnit) (waits : Bool) (x : Core) : Prop :=
  x.pc = k.entry ∧ x.preparing = waits ∧ x.unit = some u

theorem enterUnit_dealt (s : State) (c : CoreId) (u : WorkUnit) (k : Card) (g : Option Gang) :
    ((s.enterUnit c u k g).getCore c).Dealt k u false := by
  unfold State.enterUnit
  dsimp only
  rw [getCore_mapCore_same]
  exact ⟨rfl, rfl, rfl⟩

theorem takeUnit_dealt (s : State) (c : CoreId) (u : WorkUnit) (k : Card) (g : Option Gang) :
    ((s.takeUnit c u k g).getCore c).Dealt k u true := by
  unfold State.takeUnit
  rw [getCore_mapCore_same]
  exact ⟨rfl, rfl, rfl⟩

/-- The unit that begins a chunk of c units of card n. -/
def Card.unitOf (n : Nat) (k : Card) (c : Nat) : WorkUnit :=
  { card := n, ident := k.count - k.rem, stop := k.count - k.rem + c, argBase := k.argBase, argSize := k.argSize }

/-- The state in which a chunk of c units of card n has been taken from the card, before its position hears of it. -/
def State.dealtOut (s : State) (n : Nat) (k : Card) (c : Nat) (tu : Tab Nat) (d : Tab Int) : State :=
  let key := drrKey (s.level k) k.agency
  ({ s with
    turns := tu
    cards := s.cards.map fun (p : Nat × Card) => if p.1 = n then (n, { k with rem := k.rem - c }) else p
    deficits := tset key (tget key d 0 - c) d } : State).resetDeficits

/-- The gang of a position of a card. -/
def Card.gangAt (k : Card) (pos : Nat) : Option Gang := if k.width = 1 then none else some { leader := pos, width := k.width }

theorem dealChunk_single {s : State} {n pos : Nat} {k : Card} (hc : s.cards = [(n, k)]) (hd : s.dealable n k pos = true) :
    ∃ tu d, execDealChunk pos s =
      if s.prepared n pos k.width then
        .next ((List.range k.width).foldl
          (fun t j => t.enterUnit (pos + j) (k.unitOf n (Claims.chunkOf s k)) k (k.gangAt pos))
          (s.dealtOut n k (Claims.chunkOf s k) tu d))
      else
        .next ((List.range k.width).foldl
          (fun t j => t.takeUnit (pos + j) (k.unitOf n (Claims.chunkOf s k)) k (k.gangAt pos))
          (s.dealtOut n k (Claims.chunkOf s k) tu d)) := by
  obtain ⟨tu, d, hchoose⟩ := choose_single hc hd
  refine ⟨tu, d, ?_⟩
  unfold execDealChunk
  rw [hchoose]
  rfl

theorem dealtOut_cards {s : State} {n : Nat} {k : Card} (hc : s.cards = [(n, k)]) (c : Nat) (tu : Tab Nat) (d : Tab Int) :
    (s.dealtOut n k c tu d).cards = [(n, { k with rem := k.rem - c })] := by
  show s.cards.map _ = _
  rw [hc]
  simp

/-- A chunk of the only card goes to a position for which it can be dealt. -/
theorem dealChunk_deals {s : State} {n pos : Nat} {k : Card} (hc : s.cards = [(n, k)]) (hd : s.dealable n k pos = true) :
    ∃ t, execDealChunk pos s = .next t ∧ t.cards = [(n, { k with rem := k.rem - Claims.chunkOf s k })] ∧
      ∀ j < k.width,
        (t.getCore (pos + j)).Dealt k (k.unitOf n (Claims.chunkOf s k)) (!s.prepared n pos k.width) := by
  obtain ⟨tu, d, hdeal⟩ := dealChunk_single hc hd
  cases hprep : s.prepared n pos k.width with
  | true =>
    rw [hprep, if_pos rfl] at hdeal
    obtain ⟨hcards, hcores⟩ := foldl_position (fun t c => enterUnit_sameButCore t c _ _ _)
      (fun t c => enterUnit_dealt t c (k.unitOf n (Claims.chunkOf s k)) k (k.gangAt pos))
      (s.dealtOut n k (Claims.chunkOf s k) tu d) pos k.width
    exact ⟨_, hdeal, hcards.trans (dealtOut_cards hc _ tu d), hcores⟩
  | false =>
    rw [hprep, if_neg Bool.false_ne_true] at hdeal
    obtain ⟨hcards, hcores⟩ := foldl_position (fun t c => takeUnit_sameButCore t c _ _ _)
      (fun t c => takeUnit_dealt t c (k.unitOf n (Claims.chunkOf s k)) k (k.gangAt pos))
      (s.dealtOut n k (Claims.chunkOf s k) tu d) pos k.width
    exact ⟨_, hdeal, hcards.trans (dealtOut_cards hc _ tu d), hcores⟩

end Sys2Proof.Machine

namespace Sys2Proof.Proofs
open Sys2Proof Sys2Proof.Machine

/-- A queue has more than one slot. -/
theorem queue_size {k : Queue} (h : 1 ≤ k.desc.toNat / 2 ^ 48 % 256) : ∃ n, k.size = n + 2 := by
  refine ⟨2 ^ wfield k.desc 48 8 - 2, (Nat.sub_add_cancel ?_).symm⟩
  exact Nat.le_self_pow (Nat.ne_of_gt h) 2

theorem queue_size_pos (k : Queue) : ∃ n, k.size = n + 1 :=
  ⟨k.size - 1, (Nat.sub_add_cancel (Nat.two_pow_pos _)).symm⟩

section Queues
variable {s : State} {q : Nat} {k : Queue}

/-- A ring or a poll that finds the slot at H unpublished. -/
theorem queue_unpublished (hk : s.queue q = k) (hp : ¬Claims.published s k k.h) :
    ∃ k', Claims.looked s (State.consume q k.size s) q k' ∧ k'.h = k.h ∧ (k.tail s.mem ≠ k.h → k'.timer ≠ none) := by
  obtain ⟨n, hn⟩ := queue_size_pos k
  rw [hn]
  exact ⟨_, consume_unpublished_looked hk hp n, await_h k _ _, fun ht => await_timer ht _⟩

/-- A ring that finds one card. -/
theorem queue_published (hk : s.queue q = k) (hq : q < 32768) (he : k.enabled = true) (hl : s.live k.ctx = true)
    (hp : Claims.published s k k.h) (hnext : ¬Claims.published s k ((k.h + 1) % 2 ^ 32))
    (hsize : 1 ≤ k.desc.toNat / 2 ^ 48 % 256) (hpo : s.poisoned = []) {b : List Byte}
    (hb : memReadBytes s.mem (Claims.slotAddr k k.h) 128 = b) {card : Card} (hcard : cardOf k.desc q k.h b = card)
    (hf : s.cardFault card b = none) (hw : imgNat b 0x2C 4 = 0) (hc : card.count ≠ 0) (hcs : ∀ p ∈ s.cards, p.2.count ≠ 0) :
    ∃ t c, execQueuePublish k.fn q s = .next t ∧ (t.queue q).h = (k.h + 1) % 2 ^ 32 ∧
      memRead t.mem (k.base + 8) 4 = (k.h + 1) % 2 ^ 32 ∧ (s.nextCard, c) ∈ t.cards ∧ c.count = card.count ∧
      c.entry = card.entry ∧ c.rem = card.count ∧ t.core = s.core := by
  obtain ⟨n, hn⟩ := queue_size hsize
  obtain ⟨t, c, hrun, hh, hhead, hmem, hfields, hcore⟩ :=
    consume_one hk hp hnext hpo (slotAt_eq k ▸ hb) hcard hf hw hc hcs n
  have hrem : c.rem = card.count := by
    rw [hfields, ← hcard]
    rfl
  have hcount := congrArg Card.count hfields
  have hentry := congrArg Card.entry hfields
  refine ⟨t, c, ?_, hh, hhead, hmem, hcount, hentry, hrem, hcore⟩
  rw [queuePublish_enabled hk hq he hl, hn, hrun]

end Queues

/-- Settles O46: each event in turn, with the queue engine stopped by the first unpublished slot. -/
theorem scheduling : Obligations.Scheduling := by
  unfold Obligations.Scheduling
  intro s
  refine ⟨fun fn q h => queuePublish_discarded h, ?_, ?_, ?_, ?_, fun h => ?_, fun m h1 h2 h3 h4 h5 h6 =>
    clockStep_boundary h1 h2 h3 h4 h5 h6⟩
  · intro q k hfind hq he hl
    have hk := queue_eq hfind
    refine ⟨fun hp => ?_, fun hp hnext _ _ hsize hpo hf hw hc hcs => ?_, fun at_ hti hto hpo ht hdue => ?_⟩
    · obtain ⟨k', hlook, hh, htimer⟩ := queue_unpublished hk hp
      exact ⟨⟨_, k', queuePublish_enabled hk hq he hl, hlook, hh⟩,
        fun ht => ⟨_, k', queuePoll_due hk he hl ht, hlook, hh, htimer ht⟩⟩
    · exact queue_published hk hq he hl hp hnext hsize hpo rfl rfl hf hw hc hcs
    · have hset := queue_setQueue (s.notify k.ctx 1 q 0x320 k.h) q { k with posted := true }
      exact ⟨_, reservationTimeout_due hk he hl hti hto hpo ht hdue, congrArg Queue.posted hset, (congrArg Queue.h hset :)⟩
  · intro n k pos hc hd
    exact dealChunk_deals hc hd
  · intro n k hk hr hrem he hb hd hn hc
    exact cardComplete_silent hk hr hrem he hb hd hn hc
  · obtain ⟨f, hf, hnumber, hbusy, hcards⟩ := activityForecast_fields s
    have htop (w : Word) : wfield w 56 8 = w.toNat / 2 ^ 56 :=
      Nat.mod_eq_of_lt (Nat.div_lt_of_lt_mul w.isLt)
    rw [htop, htop] at hnumber
    exact ⟨_, hf, rfl, hnumber, hbusy, hcards⟩
  · obtain ⟨c, hc, hget⟩ := reckoningFold_due h
    exact ⟨_, hc, rfl, rfl, rfl, rfl, hget⟩

end Sys2Proof.Proofs
end

section
/-! SUPPORT. Both directions between words and instructions (O53, O54). A word is the sum of its fields, so the word of an
instruction is known once its fields are: the checks of the decoder, the selectors and the operands cover all 32 bits. -/

namespace Sys2Proof.Laws.Encoding

/-- Each instruction has its lemma among the laws of the encoding; here they stand in the order of the constructors. -/
theorem decode_encode (i : Instr) : Statement i :=
  Instr.casesOn (motive := Statement) i
    add sub mul mulh mulhu madd div divu rem remu and or xor andn shl shr sra rol min max minu maxu slt sltu seq clz
    ctz popc sextb sexth sextw bfx bfi sel addw subw addi andi ori xori slti sltiu shli shri srai rori lui adpc insi
    beqz bnez bltz bgez bgtz blez bodd jmp jal jr jalr lcar loop endit brkif contif itx lstat movd fuse split gany
    gall gidx gbc gsum lb lbu lh lhu lw lwu ld sb sh sw sd lda stl ldro pref stn sts amoswp amoadd amoand amoor
    amoxor amomin amomax amominu amomaxu cas amofadd amoinc fence fenceR fenceW ifence fenceE fenceJ fadd fsub fmul
    fdiv fsqrt fma fmin fmax feq flt fle fclass fcvti fcvtf fcvtw vadd vsub vmul vmulh vmin vmax vminu vmaxu vand
    vor vxor vshl vshr vsra vsadd vssub vabs vcmpeq vcmplt vcmpltu vfadd vfsub vfmul vfma vfmin vfmax vfdiv vfsqrt
    vfabs vfneg vfcmpeq vfcmplt vfcmple vld vst vlds vsts vgath vscat vldb vshuf vslide vbcast vext vins vredsum
    vredmax vredmin vcvt venc vdec vqnt vdqnt vppu viota vsel kand kor kxor knot kfrom kto kpop kfirst mcfg mgeo
    mzero mma mmat mmas mdrain mldacc mstacc mstat mwait chain cadd cclose cstat cwait rgcfg mtld mtclr binj btake
    bstat tkget tkdone rgsub rgquiet tabld tabrd tabchk ppuld ppurd enc dec cpstat cpwait cpcan fnew fput fget ftry
    fpois ffree flink jsub jwid jarg jend jqry chsnd chrcv chsndv chrcvv chpoll barp xsel xmit xmitCh xrecv xrecvCh
    xend bar barnw sleep wake time kop kld krel kqry srd swr sset sclr trap eret halt tlbinv acct brk wpset wpclr
    dstop dstep dres deferredInstruction iterationRetire asyncTrapDelivery matrixCommandComplete carryRouterMerge
    carryRowArrival qgoCopy qgoTensor qgoMcast qgoMcwrite qgoFill qgoSubscribe qgoPull registerWrite copyJobComplete
    copyJobFail ringStep sliceRequest remoteApertureRequest loadResponse postedStoreAck postedStoreRefusal
    journalTimeout pageWalkComplete tlbInvalidationRequest tlbInvalidationAck wbRetry wbTimeout peerRequest
    hostPostedWrite hostRead hostAtomicop queuePublish queuePoll reservationTimeout dealChunk cardComplete
    waiterRecheck activityForecastUpdate reckoningFold clockStep phaseStart phaseEnd sleepDeadline
    clusterStopArrival stopTime contextSave watchdogExpiry saveBoundExpiry uncorrectableError linkRetryExhausted
    adxusLinkFailure hostLinkFailure powerOnReset firmwareUpdate updateTakesEffect accWrite accept ctxload ctxend
    ctxstop ctxresume ckpt rollback devckpt keyreg keyrev agassign agweight acctsnap objload objunload qset bargrant
    futmake futput futfree wdset getVersion getCapabilities negotiateAlgorithms getDigests getCertificate challenge
    getMeasurements spdmOtherRequest nonInstructionWord transferPhaseSlot hostCompletion peerResponse
    replicaEviction watchdogRewrite correctedError loaderBeadArrival mailboxUnknownCommand capwWrite
    contextDescriptorChange

/-- The instructions that have a word are those that the claims take to have one. -/
theorem encode_isSome (i : Instr) : (encode i).isSome = !Claims.noWord i := by
  cases i <;> rfl

end Sys2Proof.Laws.Encoding

namespace Sys2Proof.Laws.Decoding
open Sys2Proof Sys2Proof.Laws

/-! ## A word as the sum of its fields -/

variable {w : Word32}

theorem toNat_bits (w : Word32) (lo len : Nat) : (bits w lo len).toNat = w.toNat / 2 ^ lo % 2 ^ len :=
  BitVec.toNat_ofNat _ _

/-- A field of m + n bits is its low m bits and, above them, its high n bits. -/
theorem toNat_bits_add (w : Word32) (lo m n : Nat) :
    (bits w lo (m + n)).toNat = (bits w lo m).toNat + 2 ^ m * (bits w (lo + m) n).toNat := by
  simp only [toNat_bits, Nat.pow_add, Nat.mod_mul, Nat.div_div_eq_div_mul]

/-- A field whose bits from k upwards are zero has the value of its bits below k. -/
theorem gap {lo k m len v : Nat} (hz : (bits w k m).toNat = 0) (h : (bits w lo (k - lo)).toNat = v)
    (hk : (Nat.ble lo k && Nat.beq (k - lo + m) len) = true) : (bits w lo len).toNat = v := by
  obtain ⟨hlo, hlen⟩ := Bool.and_eq_true_iff.1 hk
  rw [← Nat.eq_of_beq_eq_true hlen, toNat_bits_add, Nat.add_sub_cancel' (Nat.le_of_ble_eq_true hlo), hz, h, Nat.mul_zero,
    Nat.add_zero]

/-- The fields of the list, each given by its low bit and its value, are what the low b bits of w hold: each with the bits
up to the field above it, and nothing below the last. -/
def Carries (w : Word32) : List (Nat × Nat) → Nat → Prop
  | [], b => (bits w 0 b).toNat = 0
  | [(0, v)], b => (bits w 0 b).toNat = v
  | (p, v) :: l, b => (bits w p (b - p)).toNat = v ∧ Carries w l p

/-- Each field starts below bit b and below the field before it. -/
def descending : List (Nat × Nat) → Nat → Bool
  | [], _ => true
  | (p, _) :: l, b => Nat.ble p b && descending l p

theorem total_eq_of_carries {l : List (Nat × Nat)} {b : Nat} (hd : descending l b = true) (h : Carries w l b) :
    total l = (bits w 0 b).toNat := by
  induction l, b using Carries.induct with
  | case1 b => exact h.symm
  | case2 v b => exact (Nat.mul_one v).trans h.symm
  | case3 p v l b hlast ih =>
    rw [Carries] at h
    obtain ⟨hv, hl⟩ := h
    obtain ⟨hp, hdl⟩ := Bool.and_eq_true_iff.1 hd
    have hb := toNat_bits_add w 0 p (b - p)
    rw [Nat.add_sub_cancel' (Nat.le_of_ble_eq_true hp), Nat.zero_add, hv, ← ih hdl hl] at hb
    rw [hb, Nat.mul_comm, Nat.add_comm]
    · rfl
    · exact hlast

/-- A word that carries the fields is the word packed of them. -/
theorem pack_eq_of_carries {l : List (Nat × Nat)} (hd : descending l 32 = true) (h : Carries w l 32) : pack l = w := by
  apply BitVec.eq_of_toNat_eq
  have ht : total l = w.toNat := by
    rw [total_eq_of_carries hd h, toNat_bits, Nat.pow_zero, Nat.div_one, Nat.mod_eq_of_lt w.isLt]
  show total l % 2 ^ 32 = w.toNat
  rw [ht, Nat.mod_eq_of_lt w.isLt]

/-! ## The codes of scopes, sizes, orders and lane types -/

theorem size_toNat (b : BitVec 2) : b.toNat = (Size.ofBits b).bits.toNat := by revert b; decide
theorem order_toNat (b : BitVec 2) : b.toNat = (Order.ofBits b).bits.toNat := by revert b; decide
theorem wide_toNat (b : BitVec 1) : b.toNat = (Wide.ofBits b).bits.toNat := by revert b; decide
theorem prec_toNat (b : BitVec 1) : b.toNat = (Prec.ofBits b).bits.toNat := by revert b; decide
theorem intTy_toNat (b : BitVec 2) : b.toNat = (IntTy.ofBits b).bits.toNat := by revert b; decide

theorem scope_toNat {b : BitVec 3} {s : Scope} (h : Scope.ofBits? b = some s) : b.toNat = s.bits.toNat := by
  unfold Scope.ofBits? at h
  split at h <;> cases h <;> assumption

theorem fltTy_toNat {b : BitVec 2} {t : FltTy} (h : FltTy.ofBits? b = some t) : b.toNat = t.bits.toNat := by
  unfold FltTy.ofBits? at h
  split at h <;> cases h <;> assumption

/-! ## What each check of the decoder gives -/

/-- An instruction among the outcomes r of decoding w is well formed, and w is its word. -/
def Sound (w : Word32) (r : Except Cause Instr) : Prop := ∀ i, r = .ok i → i.wf = true ∧ encode i = some w

variable {k k' : Except Cause Instr} {c : Cause}

theorem sound_error : Sound w (.error c) := fun _ h => nomatch h

theorem sound_ok {i : Instr} {l : List (Nat × Nat)} (hwf : i.wf = true) (he : encode i = some (pack l))
    (hd : descending l 32 = true) (h : Carries w l 32) : Sound w (.ok i) := by
  rintro _ ⟨⟩
  exact ⟨hwf, he.trans (congrArg some (pack_eq_of_carries hd h))⟩

theorem sound_ensure {ok : Bool} (h : ok = true → Sound w k) : Sound w (ensure ok c k) := by
  cases ok with
  | false => exact sound_error
  | true => exact h rfl

/-- A field fixed at the value v. -/
theorem sound_beq {n : Nat} {b v : BitVec n} (h : b.toNat = v.toNat → Sound w k) : Sound w (ensure (b == v) c k) :=
  sound_ensure fun hb => h (congrArg BitVec.toNat (eq_of_beq hb))

/-- The reserved fields of the list are zero. -/
def Blank (w : Word32) : List (Nat × Nat) → Prop
  | [] => True
  | (lo, len) :: fs => (bits w lo len).toNat = 0 ∧ Blank w fs

theorem blank_of_zeros {fs : List (Nat × Nat)} (h : zeros w fs = true) : Blank w fs := by
  induction fs with
  | nil => trivial
  | cons f fs ih =>
    obtain ⟨hf, hfs⟩ := Bool.and_eq_true_iff.1 h
    exact ⟨congrArg BitVec.toNat (eq_of_beq hf), ih hfs⟩

theorem sound_zeros {fs : List (Nat × Nat)} (h : Blank w fs → Sound w k) : Sound w (ensure (zeros w fs) c k) :=
  sound_ensure fun hz => h (blank_of_zeros hz)

/-- A bit that selects between two forms. -/
theorem sound_ite {b : BitVec 1} (h0 : b.toNat = 0 → Sound w k) (h1 : b.toNat = 1 → Sound w k') :
    Sound w (if b == 0#1 then k else k') := by
  obtain rfl | rfl := BitVec.eq_zero_or_eq_one b
  · exact h0 rfl
  · exact h1 rfl

theorem sound_scope {b : BitVec 3} {f : Scope → Except Cause Instr}
    (h : ∀ s : Scope, b.toNat = s.bits.toNat → Sound w (f s)) : Sound w (withScope b f) := by
  unfold withScope
  split
  next s hs => exact h s (scope_toNat hs)
  next => exact sound_error

theorem sound_fltTy {b : BitVec 2} {f : FltTy → Except Cause Instr}
    (h : ∀ t : FltTy, b.toNat = t.bits.toNat → Sound w (f t)) : Sound w (withFltTy b f) := by
  unfold withFltTy
  split
  next t ht => exact h t (fltTy_toNat ht)
  next => exact sound_error

/-- The primaries of the deferred words are 15 in their high four bits and the engine, which is not 3, in their low two. -/
theorem deferred_fields (h : (bits w 26 6).toNat = 60 ∨ (bits w 26 6).toNat = 61 ∨ (bits w 26 6).toNat = 62) :
    (bits w 28 4).toNat = 15 ∧ (bits w 26 2).toNat ≠ 3 := by
  have hsum : (bits w 26 6).toNat = (bits w 26 2).toNat + 4 * (bits w 28 4).toNat := toNat_bits_add w 26 2 4
  have hlow := (bits w 26 2).isLt
  omega

theorem sound_deferred (h : (bits w 26 6).toNat = 60 ∨ (bits w 26 6).toNat = 61 ∨ (bits w 26 6).toNat = 62) :
    Sound w (.ok (.deferredInstruction (bits w 26 2) (bits w 6 20) (bits w 0 6))) := by
  obtain ⟨hprimary, he⟩ := deferred_fields h
  exact sound_ok (bne_iff_ne.2 fun h3 => he (congrArg BitVec.toNat h3)) rfl rfl ⟨hprimary, rfl, rfl, rfl⟩

/-! ## The decoder, primary by primary

In each case the fields of the word, highest first, are what the encoder writes: hp is the primary, hs the selector, an
operand is read as it is written (rfl), z and m with a bit number are the reserved and the fixed fields that start there, c
is the code of a scope or lane type, r the range of a value field, and gap takes away bits that are zero. A side condition
on positions is proved by rfl, since a nested tactic block in each of the many cases costs the build memory. -/

theorem decodeIop_sound (hp : (bits w 26 6).toNat = 1) : Sound w (decodeIop w) := by
  unfold decodeIop
  split <;> rename_i hs
  case h_26 | h_27 | h_28 | h_29 | h_30 | h_31 =>
    exact sound_zeros fun ⟨z7, _⟩ => sound_ok rfl rfl rfl ⟨hp, rfl, rfl, rfl, gap z7 hs rfl⟩
  case h_37 => exact sound_error
  all_goals exact sound_ok rfl rfl rfl ⟨hp, rfl, rfl, rfl, rfl, rfl, hs⟩

theorem decodeShi_sound (hp : (bits w 26 6).toNat = 8) : Sound w (decodeShi w) := by
  unfold decodeShi
  split <;> rename_i hs
  case h_1 =>
    exact sound_zeros fun ⟨z6, _⟩ => sound_ok rfl rfl rfl ⟨hp, rfl, rfl, rfl, gap hs (gap z6 rfl rfl) rfl⟩
  case h_2 | h_3 | h_4 =>
    exact sound_zeros fun ⟨z6, _⟩ => sound_ok rfl rfl rfl ⟨hp, rfl, rfl, rfl, hs, gap z6 rfl rfl⟩
  case h_5 => exact sound_error

theorem decodeBr_sound (hp : (bits w 26 6).toNat = 12) : Sound w (decodeBr w) := by
  unfold decodeBr
  split <;> rename_i hs
  case h_1 => exact sound_ok rfl rfl rfl ⟨hp, rfl, rfl, gap hs rfl rfl⟩
  case h_8 => exact sound_error
  all_goals exact sound_ok rfl rfl rfl ⟨hp, rfl, rfl, hs, rfl⟩

theorem decodeJr_sound (hp : (bits w 26 6).toNat = 15) : Sound w (decodeJr w) := by
  unfold decodeJr
  split <;> rename_i hs
  case h_1 =>
    exact sound_zeros fun ⟨z7, z21, _⟩ => sound_ok rfl rfl rfl ⟨hp, gap z21 rfl rfl, rfl, gap z7 hs rfl⟩
  case h_2 => exact sound_zeros fun ⟨z7, _⟩ => sound_ok rfl rfl rfl ⟨hp, rfl, rfl, rfl, gap z7 hs rfl⟩
  case h_3 => exact sound_error

theorem decodeLoop_sound (hp : (bits w 26 6).toNat = 16) : Sound w (decodeLoop w) := by
  unfold decodeLoop
  split <;> rename_i hs
  case h_1 => exact sound_ok rfl rfl rfl ⟨hp, gap hs rfl rfl, rfl, rfl, rfl⟩
  case h_2 => exact sound_zeros fun ⟨z18, _⟩ => sound_ok rfl rfl rfl ⟨hp, hs, gap z18 rfl rfl, rfl, rfl⟩
  case h_3 => exact sound_zeros fun ⟨z0, _⟩ => sound_ok rfl rfl rfl ⟨hp, hs, z0⟩
  case h_4 =>
    exact sound_ensure fun r => sound_zeros fun ⟨z18, _⟩ =>
      sound_ok r rfl rfl ⟨hp, hs, gap z18 rfl rfl, rfl, rfl⟩
  case h_5 => exact sound_zeros fun ⟨z0, z18, _⟩ => sound_ok rfl rfl rfl ⟨hp, hs, gap z18 rfl rfl, rfl, z0⟩
  case h_6 | h_7 =>
    exact sound_ensure fun r => sound_zeros fun ⟨z11, _⟩ => sound_ok r rfl rfl ⟨hp, hs, rfl, gap z11 rfl rfl⟩
  case h_8 => exact sound_zeros fun ⟨z3, _⟩ => sound_ok rfl rfl rfl ⟨hp, hs, rfl, rfl, gap z3 rfl rfl⟩
  case h_9 => exact sound_error

theorem decodeGang_sound (hp : (bits w 26 6).toNat = 17) : Sound w (decodeGang w) := by
  unfold decodeGang
  split <;> rename_i hs
  case h_1 => exact sound_zeros fun ⟨z0, _⟩ => sound_ok rfl rfl rfl ⟨hp, gap hs z0 rfl⟩
  case h_2 => exact sound_zeros fun ⟨z0, _⟩ => sound_ok rfl rfl rfl ⟨hp, hs, z0⟩
  case h_3 | h_4 | h_7 => exact sound_zeros fun ⟨z0, _⟩ => sound_ok rfl rfl rfl ⟨hp, hs, rfl, rfl, rfl, z0⟩
  case h_5 => exact sound_zeros fun ⟨z0, _⟩ => sound_ok rfl rfl rfl ⟨hp, hs, rfl, z0⟩
  case h_6 => exact sound_ensure fun r => sound_ok r rfl rfl ⟨hp, hs, rfl, rfl, rfl, rfl⟩
  case h_8 => exact sound_error

theorem decodeLd_sound (hp : (bits w 26 6).toNat = 18) : Sound w (decodeLd w) := by
  unfold decodeLd
  split <;> rename_i hs
  case h_1 => exact sound_ok rfl rfl rfl ⟨hp, rfl, rfl, rfl, gap hs rfl rfl⟩
  case h_8 => exact sound_error
  all_goals exact sound_ok rfl rfl rfl ⟨hp, rfl, rfl, rfl, hs, rfl⟩

theorem decodeSt_sound (hp : (bits w 26 6).toNat = 19) : Sound w (decodeSt w) := by
  unfold decodeSt
  split <;> rename_i hs
  case h_1 => exact sound_ok rfl rfl rfl ⟨hp, rfl, rfl, rfl, gap hs rfl rfl⟩
  case h_2 | h_3 | h_4 => exact sound_ok rfl rfl rfl ⟨hp, rfl, rfl, rfl, hs, rfl⟩
  case h_5 => exact sound_error

theorem decodeMx_sound (hp : (bits w 26 6).toNat = 20) : Sound w (decodeMx w) := by
  unfold decodeMx
  split <;> rename_i hs
  case h_1 =>
    exact sound_zeros fun ⟨z0, _⟩ => sound_scope fun _ c =>
      sound_ok rfl rfl rfl ⟨hp, rfl, rfl, rfl, size_toNat _, gap hs c rfl, z0⟩
  case h_2 | h_3 | h_6 =>
    exact sound_zeros fun ⟨z0, _⟩ => sound_scope fun _ c =>
      sound_ok rfl rfl rfl ⟨hp, rfl, rfl, rfl, size_toNat _, hs, c, z0⟩
  case h_4 =>
    exact sound_zeros fun ⟨z1, z21, _⟩ => sound_scope fun _ c => sound_beq fun m12 =>
      sound_ok rfl rfl rfl ⟨hp, gap z21 rfl rfl, rfl, m12, hs, c, gap z1 rfl rfl⟩
  case h_5 =>
    exact sound_zeros fun ⟨z0, _⟩ => sound_scope fun _ c => sound_beq fun m12 =>
      sound_ok rfl rfl rfl ⟨hp, rfl, rfl, rfl, gap m12 hs rfl, c, rfl, z0⟩
  case h_7 => exact sound_error

theorem decodeAmo_sound (hp : (bits w 26 6).toNat = 21) : Sound w (decodeAmo w) := by
  unfold decodeAmo
  split <;> rename_i hs
  case h_1 =>
    exact sound_zeros fun ⟨z0, _⟩ => sound_scope fun _ c =>
      sound_ok rfl rfl rfl ⟨hp, rfl, rfl, rfl, gap hs (order_toNat _) rfl, c, wide_toNat _, z0⟩
  case h_11 =>
    exact sound_zeros fun ⟨z0, _⟩ => sound_scope fun _ c => sound_beq fun m1 =>
      sound_ok rfl rfl rfl ⟨hp, rfl, rfl, rfl, hs, order_toNat _, c, gap m1 z0 rfl⟩
  case h_13 => exact sound_error
  all_goals
    exact sound_zeros fun ⟨z0, _⟩ => sound_scope fun _ c =>
      sound_ok rfl rfl rfl ⟨hp, rfl, rfl, rfl, hs, order_toNat _, c, wide_toNat _, z0⟩

theorem decodeFence_sound (hp : (bits w 26 6).toNat = 22) : Sound w (decodeFence w) := by
  unfold decodeFence
  split <;> rename_i hs
  case h_1 =>
    exact sound_zeros fun ⟨z0, _⟩ => sound_scope fun _ c => sound_ok rfl rfl rfl ⟨hp, gap hs c rfl, z0⟩
  case h_7 => exact sound_error
  all_goals exact sound_zeros fun ⟨z0, _⟩ => sound_scope fun _ c => sound_ok rfl rfl rfl ⟨hp, hs, c, z0⟩

theorem decodeFop_sound (hp : (bits w 26 6).toNat = 23) : Sound w (decodeFop w) := by
  unfold decodeFop
  split <;> rename_i hs
  case h_1 => exact sound_ok rfl rfl rfl ⟨hp, rfl, rfl, rfl, rfl, rfl, gap hs (prec_toNat _) rfl⟩
  case h_5 | h_12 | h_13 | h_14 | h_15 =>
    exact sound_zeros fun ⟨z7, _⟩ => sound_ok rfl rfl rfl ⟨hp, rfl, rfl, rfl, gap z7 hs rfl, prec_toNat _⟩
  case h_16 => exact sound_error
  all_goals exact sound_ok rfl rfl rfl ⟨hp, rfl, rfl, rfl, rfl, rfl, hs, prec_toNat _⟩

theorem decodeVint_sound (hp : (bits w 26 6).toNat = 24) : Sound w (decodeVint w) := by
  unfold decodeVint
  split <;> rename_i hs
  case h_1 => exact sound_ok rfl rfl rfl ⟨hp, rfl, rfl, rfl, rfl, rfl, gap hs (intTy_toNat _) rfl⟩
  case h_17 =>
    exact sound_zeros fun ⟨z10, _⟩ =>
      sound_ok rfl rfl rfl ⟨hp, rfl, rfl, rfl, gap z10 rfl rfl, hs, intTy_toNat _⟩
  case h_18 | h_19 | h_20 =>
    exact sound_zeros fun ⟨z24, _⟩ =>
      sound_ok rfl rfl rfl ⟨hp, gap z24 rfl rfl, rfl, rfl, rfl, rfl, hs, intTy_toNat _⟩
  case h_21 => exact sound_error
  all_goals exact sound_ok rfl rfl rfl ⟨hp, rfl, rfl, rfl, rfl, rfl, hs, intTy_toNat _⟩

theorem decodeVflt_sound (hp : (bits w 26 6).toNat = 25) : Sound w (decodeVflt w) := by
  unfold decodeVflt
  split <;> rename_i hs
  case h_1 => exact sound_fltTy fun _ c => sound_ok rfl rfl rfl ⟨hp, rfl, rfl, rfl, rfl, rfl, gap hs c rfl⟩
  case h_8 | h_9 | h_10 =>
    exact sound_zeros fun ⟨z10, _⟩ => sound_fltTy fun _ c =>
      sound_ok rfl rfl rfl ⟨hp, rfl, rfl, rfl, gap z10 rfl rfl, hs, c⟩
  case h_11 | h_12 | h_13 =>
    exact sound_zeros fun ⟨z24, _⟩ => sound_fltTy fun _ c =>
      sound_ok rfl rfl rfl ⟨hp, gap z24 rfl rfl, rfl, rfl, rfl, rfl, hs, c⟩
  case h_14 => exact sound_error
  all_goals exact sound_fltTy fun _ c => sound_ok rfl rfl rfl ⟨hp, rfl, rfl, rfl, rfl, rfl, hs, c⟩

theorem decodeVmem_sound (hp : (bits w 26 6).toNat = 26) : Sound w (decodeVmem w) := by
  unfold decodeVmem
  split <;> rename_i hs
  case h_1 =>
    exact sound_zeros fun ⟨z0, z9, _⟩ =>
      sound_ok rfl rfl rfl ⟨hp, rfl, rfl, rfl, gap z9 rfl rfl, gap hs (size_toNat _) rfl, z0⟩
  case h_2 | h_7 =>
    exact sound_zeros fun ⟨z0, z9, _⟩ =>
      sound_ok rfl rfl rfl ⟨hp, rfl, rfl, rfl, gap z9 rfl rfl, hs, size_toNat _, z0⟩
  case h_8 => exact sound_error
  all_goals
    exact sound_zeros fun ⟨z0, _⟩ => sound_ok rfl rfl rfl ⟨hp, rfl, rfl, rfl, rfl, rfl, hs, size_toNat _, z0⟩

theorem decodeVxf_sound (hp : (bits w 26 6).toNat = 27) : Sound w (decodeVxf w) := by
  unfold decodeVxf
  split <;> rename_i hs
  case h_1 | h_2 | h_16 => exact sound_ok rfl rfl rfl ⟨hp, rfl, rfl, rfl, rfl, rfl, hs⟩
  case h_4 | h_5 | h_12 =>
    exact sound_zeros fun ⟨z7, _⟩ => sound_ok rfl rfl rfl ⟨hp, rfl, rfl, rfl, rfl, gap z7 hs rfl⟩
  case h_15 => exact sound_zeros fun ⟨z10, _⟩ => sound_ok rfl rfl rfl ⟨hp, rfl, gap z10 rfl rfl, hs⟩
  case h_17 => exact sound_error
  all_goals exact sound_zeros fun ⟨z10, _⟩ => sound_ok rfl rfl rfl ⟨hp, rfl, rfl, rfl, gap z10 rfl rfl, hs⟩

theorem decodeVmask_sound (hp : (bits w 26 6).toNat = 28) : Sound w (decodeVmask w) := by
  unfold decodeVmask
  split <;> rename_i hs
  case h_1 | h_2 | h_3 =>
    exact sound_zeros fun ⟨z7, z13, z19, z24, _⟩ =>
      sound_ok rfl rfl rfl ⟨hp, gap z24 rfl rfl, gap z19 rfl rfl, gap z13 rfl rfl, gap z7 hs rfl⟩
  case h_4 =>
    exact sound_zeros fun ⟨z7, z19, z24, _⟩ =>
      sound_ok rfl rfl rfl ⟨hp, gap z24 rfl rfl, gap z19 rfl rfl, gap z7 hs rfl⟩
  case h_5 =>
    exact sound_zeros fun ⟨z7, z24, _⟩ => sound_ok rfl rfl rfl ⟨hp, gap z24 rfl rfl, rfl, rfl, gap z7 hs rfl⟩
  case h_6 | h_7 | h_8 =>
    exact sound_zeros fun ⟨z7, z19, _⟩ => sound_ok rfl rfl rfl ⟨hp, rfl, gap z19 rfl rfl, gap z7 hs rfl⟩
  case h_9 => exact sound_error

theorem decodeMxe_sound (hp : (bits w 26 6).toNat = 29) : Sound w (decodeMxe w) := by
  unfold decodeMxe
  split <;> rename_i hs
  case h_1 =>
    exact sound_beq fun m2 => sound_zeros fun ⟨z21, _⟩ =>
      sound_ok rfl rfl rfl ⟨hp, gap z21 rfl rfl, rfl, gap hs rfl rfl, gap m2 rfl rfl⟩
  case h_2 =>
    exact sound_beq fun m2 => sound_zeros fun ⟨z11, z21, _⟩ =>
      sound_ok rfl rfl rfl ⟨hp, gap z21 rfl rfl, gap z11 hs rfl, rfl, gap m2 rfl rfl⟩
  case h_3 | h_11 =>
    exact sound_beq fun m2 => sound_zeros fun ⟨z11, _⟩ =>
      sound_ok rfl rfl rfl ⟨hp, gap z11 hs rfl, rfl, gap m2 rfl rfl⟩
  case h_7 =>
    exact sound_zeros fun ⟨z21, _⟩ => sound_ok rfl rfl rfl ⟨hp, gap z21 rfl rfl, rfl, hs, rfl, rfl, rfl⟩
  case h_9 =>
    exact sound_beq fun m2 => sound_zeros fun ⟨z11, _⟩ =>
      sound_ok rfl rfl rfl ⟨hp, rfl, rfl, gap z11 hs rfl, rfl, gap m2 rfl rfl⟩
  case h_10 =>
    exact sound_beq fun m2 => sound_zeros fun ⟨z11, _⟩ =>
      sound_ok rfl rfl rfl ⟨hp, rfl, gap z11 hs rfl, rfl, gap m2 rfl rfl⟩
  case h_12 => exact sound_error
  all_goals
    exact sound_beq fun m2 => sound_zeros fun ⟨z21, _⟩ =>
      sound_ok rfl rfl rfl ⟨hp, gap z21 rfl rfl, rfl, hs, rfl, gap m2 rfl rfl⟩

theorem decodeCry_sound (hp : (bits w 26 6).toNat = 30) : Sound w (decodeCry w) := by
  unfold decodeCry
  split <;> rename_i hs
  case h_1 =>
    exact sound_beq fun m2 => sound_zeros fun ⟨z21, _⟩ =>
      sound_ok rfl rfl rfl ⟨hp, gap z21 rfl rfl, rfl, gap hs rfl rfl, gap m2 rfl rfl⟩
  case h_2 => exact sound_beq fun m2 => sound_ok rfl rfl rfl ⟨hp, rfl, rfl, rfl, hs, rfl, gap m2 rfl rfl⟩
  case h_3 | h_5 =>
    exact sound_beq fun m2 => sound_zeros fun ⟨z11, _⟩ =>
      sound_ok rfl rfl rfl ⟨hp, gap z11 hs rfl, rfl, gap m2 rfl rfl⟩
  case h_4 =>
    exact sound_beq fun m0 => sound_zeros fun ⟨z11, _⟩ =>
      sound_ok rfl rfl rfl ⟨hp, rfl, rfl, gap z11 hs rfl, rfl, m0⟩
  case h_6 => exact sound_error

theorem decodeRng_sound (hp : (bits w 26 6).toNat = 31) : Sound w (decodeRng w) := by
  unfold decodeRng
  split <;> rename_i hs
  case h_1 =>
    exact sound_beq fun m0 => sound_zeros fun ⟨z3, z11, z21, _⟩ =>
      sound_ok rfl rfl rfl ⟨hp, gap z21 rfl rfl, gap z11 (gap hs (gap z3 m0 rfl) rfl) rfl⟩
  case h_2 | h_8 =>
    exact sound_beq fun m0 => sound_zeros fun ⟨z3, z11, z21, _⟩ =>
      sound_ok rfl rfl rfl ⟨hp, gap z21 rfl rfl, gap z11 hs rfl, gap z3 m0 rfl⟩
  case h_3 | h_10 =>
    exact sound_beq fun m0 => sound_zeros fun ⟨z3, z11, _⟩ =>
      sound_ok rfl rfl rfl ⟨hp, gap z11 hs rfl, gap z3 m0 rfl⟩
  case h_4 =>
    exact sound_beq fun m0 => sound_zeros fun ⟨z11, z21, _⟩ =>
      sound_ok rfl rfl rfl ⟨hp, gap z21 rfl rfl, gap z11 hs rfl, rfl, m0⟩
  case h_5 | h_6 =>
    exact sound_beq fun m0 => sound_zeros fun ⟨z3, z11, _⟩ =>
      sound_ok rfl rfl rfl ⟨hp, rfl, rfl, gap z11 hs rfl, gap z3 m0 rfl⟩
  case h_7 =>
    exact sound_beq fun m0 => sound_zeros fun ⟨z3, z11, _⟩ =>
      sound_ok rfl rfl rfl ⟨hp, rfl, gap z11 hs rfl, gap z3 m0 rfl⟩
  case h_9 =>
    exact sound_beq fun m0 => sound_zeros fun ⟨z3, _⟩ =>
      sound_ok rfl rfl rfl ⟨hp, rfl, rfl, rfl, hs, gap z3 m0 rfl⟩
  case h_11 => exact sound_error

theorem decodeTbl_sound (hp : (bits w 26 6).toNat = 32) : Sound w (decodeTbl w) := by
  unfold decodeTbl
  split <;> rename_i hs
  case h_1 =>
    exact sound_beq fun m2 => sound_zeros fun ⟨z21, _⟩ =>
      sound_ok rfl rfl rfl ⟨hp, gap z21 rfl rfl, rfl, gap hs rfl rfl, gap m2 rfl rfl⟩
  case h_2 | h_6 | h_7 =>
    exact sound_beq fun m2 => sound_zeros fun ⟨z11, _⟩ =>
      sound_ok rfl rfl rfl ⟨hp, rfl, rfl, gap z11 hs rfl, rfl, gap m2 rfl rfl⟩
  case h_3 =>
    exact sound_beq fun m2 => sound_zeros fun ⟨z11, _⟩ =>
      sound_ok rfl rfl rfl ⟨hp, rfl, gap z11 hs rfl, rfl, gap m2 rfl rfl⟩
  case h_4 =>
    exact sound_beq fun m0 => sound_zeros fun ⟨z11, z21, _⟩ =>
      sound_ok rfl rfl rfl ⟨hp, gap z21 rfl rfl, gap z11 hs rfl, rfl, m0⟩
  case h_5 =>
    exact sound_beq fun m0 => sound_zeros fun ⟨z11, _⟩ =>
      sound_ok rfl rfl rfl ⟨hp, rfl, rfl, gap z11 hs rfl, rfl, m0⟩
  case h_8 => exact sound_error

theorem decodeCpe_sound (hp : (bits w 26 6).toNat = 33) : Sound w (decodeCpe w) := by
  unfold decodeCpe
  split <;> rename_i hs
  case h_1 =>
    exact sound_beq fun m0 => sound_zeros fun ⟨z3, z11, _⟩ =>
      sound_ok rfl rfl rfl ⟨hp, rfl, rfl, gap z11 (gap hs (gap z3 m0 rfl) rfl) rfl⟩
  case h_2 =>
    exact sound_beq fun m0 => sound_zeros fun ⟨z3, z11, _⟩ =>
      sound_ok rfl rfl rfl ⟨hp, rfl, rfl, gap z11 hs rfl, gap z3 m0 rfl⟩
  case h_3 =>
    exact sound_beq fun m0 => sound_zeros fun ⟨z3, z11, z21, _⟩ =>
      sound_ok rfl rfl rfl ⟨hp, gap z21 rfl rfl, gap z11 hs rfl, gap z3 m0 rfl⟩
  case h_4 => exact sound_error

theorem decodeFut_sound (hp : (bits w 26 6).toNat = 34) : Sound w (decodeFut w) := by
  unfold decodeFut
  split <;> rename_i hs
  case h_1 =>
    exact sound_beq fun m0 => sound_zeros fun ⟨z3, z11, _⟩ =>
      sound_ok rfl rfl rfl ⟨hp, rfl, gap z11 (gap hs (gap z3 m0 rfl) rfl) rfl⟩
  case h_2 | h_5 =>
    exact sound_beq fun m0 => sound_zeros fun ⟨z3, z21, _⟩ =>
      sound_ok rfl rfl rfl ⟨hp, gap z21 rfl rfl, rfl, hs, gap z3 m0 rfl⟩
  case h_3 | h_4 | h_7 =>
    exact sound_beq fun m0 => sound_zeros fun ⟨z3, _⟩ =>
      sound_ok rfl rfl rfl ⟨hp, rfl, rfl, rfl, hs, gap z3 m0 rfl⟩
  case h_6 =>
    exact sound_beq fun m0 => sound_zeros fun ⟨z3, z11, z21, _⟩ =>
      sound_ok rfl rfl rfl ⟨hp, gap z21 rfl rfl, gap z11 hs rfl, gap z3 m0 rfl⟩
  case h_8 => exact sound_error

theorem decodeJob_sound (hp : (bits w 26 6).toNat = 35) : Sound w (decodeJob w) := by
  unfold decodeJob
  split <;> rename_i hs
  case h_1 =>
    exact sound_beq fun m0 => sound_zeros fun ⟨z3, z11, z21, _⟩ =>
      sound_ok rfl rfl rfl ⟨hp, gap z21 rfl rfl, gap z11 (gap hs (gap z3 m0 rfl) rfl) rfl⟩
  case h_2 | h_3 =>
    exact sound_beq fun m0 => sound_zeros fun ⟨z3, z11, _⟩ =>
      sound_ok rfl rfl rfl ⟨hp, rfl, gap z11 hs rfl, gap z3 m0 rfl⟩
  case h_4 =>
    exact sound_beq fun m0 => sound_zeros fun ⟨z3, z11, _⟩ =>
      sound_ok rfl rfl rfl ⟨hp, gap z11 hs rfl, gap z3 m0 rfl⟩
  case h_5 =>
    exact sound_beq fun m0 => sound_zeros fun ⟨z3, z11, _⟩ =>
      sound_ok rfl rfl rfl ⟨hp, rfl, rfl, gap z11 hs rfl, gap z3 m0 rfl⟩
  case h_6 => exact sound_error

theorem decodeChn_sound (hp : (bits w 26 6).toNat = 36) : Sound w (decodeChn w) := by
  unfold decodeChn
  split <;> rename_i hs
  case h_1 =>
    exact sound_beq fun m0 => sound_zeros fun ⟨z3, z15, _⟩ =>
      sound_ok rfl rfl rfl ⟨hp, rfl, rfl, gap z15 rfl rfl, gap hs (gap z3 m0 rfl) rfl⟩
  case h_2 | h_3 =>
    exact sound_beq fun m0 => sound_zeros fun ⟨z3, z15, _⟩ =>
      sound_ok rfl rfl rfl ⟨hp, rfl, rfl, gap z15 rfl rfl, hs, gap z3 m0 rfl⟩
  case h_4 | h_5 =>
    exact sound_beq fun m0 => sound_zeros fun ⟨z3, z15, _⟩ =>
      sound_ok rfl rfl rfl ⟨hp, rfl, gap z15 rfl rfl, hs, gap z3 m0 rfl⟩
  case h_6 => exact sound_error

theorem decodePhs_sound (hp : (bits w 26 6).toNat = 37) : Sound w (decodePhs w) := by
  unfold decodePhs
  split <;> rename_i hs
  case h_1 =>
    exact sound_beq fun m2 => sound_zeros fun ⟨z3, z11, _⟩ =>
      sound_ok rfl rfl rfl ⟨hp, gap z11 (gap hs (gap z3 (gap m2 rfl rfl) rfl) rfl) rfl⟩
  case h_2 =>
    exact sound_beq fun m2 => sound_zeros fun ⟨z3, z11, z21, _⟩ =>
      sound_ok rfl rfl rfl ⟨hp, gap z21 rfl rfl, gap z11 hs rfl, gap z3 (gap m2 rfl rfl) rfl⟩
  case h_3 =>
    exact sound_ite
      (fun h3 => sound_zeros fun ⟨z21, _⟩ =>
        sound_ok rfl rfl rfl ⟨hp, gap z21 rfl rfl, rfl, hs, gap h3 rfl rfl⟩)
      fun h3 => sound_ensure fun r => sound_zeros fun ⟨z25, _⟩ =>
        sound_ok r rfl rfl ⟨hp, gap z25 rfl rfl, rfl, rfl, hs, h3, rfl⟩
  case h_4 =>
    exact sound_ite
      (fun h3 => sound_zeros fun ⟨z11, _⟩ =>
        sound_ok rfl rfl rfl ⟨hp, rfl, rfl, gap z11 hs rfl, gap h3 rfl rfl⟩)
      fun h3 => sound_ensure fun r => sound_zeros fun ⟨z15, _⟩ =>
        sound_ok r rfl rfl ⟨hp, rfl, rfl, gap z15 rfl rfl, hs, h3, rfl⟩
  case h_5 =>
    exact sound_beq fun m0 => sound_zeros fun ⟨z3, z11, _⟩ =>
      sound_ok rfl rfl rfl ⟨hp, rfl, gap z11 hs rfl, gap z3 m0 rfl⟩
  case h_6 => exact sound_error

theorem decodeSyn_sound (hp : (bits w 26 6).toNat = 38) : Sound w (decodeSyn w) := by
  unfold decodeSyn
  split <;> rename_i hs
  case h_1 =>
    exact sound_beq fun m2 => sound_zeros fun ⟨z3, z11, z21, _⟩ =>
      sound_ok rfl rfl rfl ⟨hp, gap z21 rfl rfl, gap z11 (gap hs (gap z3 (gap m2 rfl rfl) rfl) rfl) rfl⟩
  case h_2 =>
    exact sound_beq fun m2 => sound_zeros fun ⟨z3, z11, z21, _⟩ =>
      sound_ok rfl rfl rfl ⟨hp, gap z21 rfl rfl, gap z11 hs rfl, gap z3 (gap m2 rfl rfl) rfl⟩
  case h_3 =>
    exact sound_beq fun m0 => sound_zeros fun ⟨z3, z11, _⟩ =>
      sound_ok rfl rfl rfl ⟨hp, rfl, rfl, gap z11 hs rfl, gap z3 m0 rfl⟩
  case h_4 =>
    exact sound_beq fun m0 => sound_zeros fun ⟨z3, z11, z21, _⟩ =>
      sound_ok rfl rfl rfl ⟨hp, gap z21 rfl rfl, gap z11 hs rfl, gap z3 m0 rfl⟩
  case h_5 =>
    exact sound_beq fun m0 => sound_zeros fun ⟨z3, z11, _⟩ =>
      sound_ok rfl rfl rfl ⟨hp, rfl, gap z11 hs rfl, gap z3 m0 rfl⟩
  case h_6 => exact sound_error

theorem decodeKdm_sound (hp : (bits w 26 6).toNat = 40) : Sound w (decodeKdm w) := by
  unfold decodeKdm
  split <;> rename_i hs
  case h_1 =>
    exact sound_beq fun m0 => sound_zeros fun ⟨z3, z21, _⟩ =>
      sound_ok rfl rfl rfl ⟨hp, gap z21 rfl rfl, rfl, gap hs (gap z3 m0 rfl) rfl⟩
  case h_2 =>
    exact sound_beq fun m0 => sound_zeros fun ⟨z3, z11, z21, _⟩ =>
      sound_ok rfl rfl rfl ⟨hp, gap z21 rfl rfl, gap z11 hs rfl, gap z3 m0 rfl⟩
  case h_3 =>
    exact sound_beq fun m0 => sound_zeros fun ⟨z3, z11, _⟩ =>
      sound_ok rfl rfl rfl ⟨hp, rfl, rfl, gap z11 hs rfl, gap z3 m0 rfl⟩
  case h_4 => exact sound_error

theorem decodeSys_sound (hp : (bits w 26 6).toNat = 41) : Sound w (decodeSys w) := by
  unfold decodeSys
  split <;> rename_i hs
  case h_1 =>
    exact sound_ensure fun r => sound_zeros fun ⟨z16, _⟩ => sound_ok r rfl rfl ⟨hp, rfl, gap z16 rfl rfl, hs⟩
  case h_5 =>
    exact sound_ensure fun r => sound_zeros fun ⟨z16, _⟩ => sound_ok r rfl rfl ⟨hp, gap z16 rfl rfl, hs⟩
  case h_6 | h_7 => exact sound_zeros fun ⟨z4, _⟩ => sound_ok rfl rfl rfl ⟨hp, gap z4 hs rfl⟩
  case h_9 =>
    exact sound_ensure fun r => sound_ensure fun r1 =>
      sound_ok (Bool.and_eq_true_iff.2 ⟨r, r1⟩) rfl rfl ⟨hp, rfl, rfl, rfl, hs⟩
  case h_10 => exact sound_error
  all_goals
    exact sound_ensure fun r => sound_zeros fun ⟨z21, _⟩ => sound_ok r rfl rfl ⟨hp, gap z21 rfl rfl, rfl, hs⟩

theorem decodeDbg_sound (hp : (bits w 26 6).toNat = 42) : Sound w (decodeDbg w) := by
  unfold decodeDbg
  split <;> rename_i hs
  case h_1 => exact sound_zeros fun ⟨z16, _⟩ => sound_ok rfl rfl rfl ⟨hp, gap z16 rfl rfl, hs⟩
  case h_2 =>
    exact sound_zeros fun ⟨z7, z21, _⟩ => sound_ok rfl rfl rfl ⟨hp, gap z21 rfl rfl, gap z7 rfl rfl, hs⟩
  case h_3 => exact sound_zeros fun ⟨z7, _⟩ => sound_ok rfl rfl rfl ⟨hp, gap z7 rfl rfl, hs⟩
  case h_4 | h_6 => exact sound_ensure fun r => sound_ok r rfl rfl ⟨hp, rfl, rfl, rfl, hs⟩
  case h_5 => exact sound_zeros fun ⟨z4, _⟩ => sound_ok rfl rfl rfl ⟨hp, rfl, rfl, gap z4 hs rfl⟩
  case h_7 => exact sound_error

theorem decode_sound : Sound w (decode w) := by
  unfold decode
  split <;> rename_i hp
  case h_1 | h_47 | h_48 => exact sound_error
  case h_2 => exact decodeIop_sound hp
  case h_9 => exact decodeShi_sound hp
  case h_10 | h_11 => exact sound_ok rfl rfl rfl ⟨hp, rfl, rfl⟩
  case h_12 => exact sound_zeros fun ⟨z16, _⟩ => sound_ok rfl rfl rfl ⟨hp, rfl, rfl, rfl, gap z16 rfl rfl⟩
  case h_13 => exact decodeBr_sound hp
  case h_14 | h_15 => exact sound_ok rfl rfl rfl ⟨hp, rfl⟩
  case h_16 => exact decodeJr_sound hp
  case h_17 => exact decodeLoop_sound hp
  case h_18 => exact decodeGang_sound hp
  case h_19 => exact decodeLd_sound hp
  case h_20 => exact decodeSt_sound hp
  case h_21 => exact decodeMx_sound hp
  case h_22 => exact decodeAmo_sound hp
  case h_23 => exact decodeFence_sound hp
  case h_24 => exact decodeFop_sound hp
  case h_25 => exact decodeVint_sound hp
  case h_26 => exact decodeVflt_sound hp
  case h_27 => exact decodeVmem_sound hp
  case h_28 => exact decodeVxf_sound hp
  case h_29 => exact decodeVmask_sound hp
  case h_30 => exact decodeMxe_sound hp
  case h_31 => exact decodeCry_sound hp
  case h_32 => exact decodeRng_sound hp
  case h_33 => exact decodeTbl_sound hp
  case h_34 => exact decodeCpe_sound hp
  case h_35 => exact decodeFut_sound hp
  case h_36 => exact decodeJob_sound hp
  case h_37 => exact decodeChn_sound hp
  case h_38 => exact decodePhs_sound hp
  case h_39 => exact decodeSyn_sound hp
  case h_40 => exact sound_ok rfl rfl rfl ⟨hp, rfl, rfl, rfl, rfl, rfl, rfl⟩
  case h_41 => exact decodeKdm_sound hp
  case h_42 => exact decodeSys_sound hp
  case h_43 => exact decodeDbg_sound hp
  case h_44 => exact sound_deferred (.inl hp)
  case h_45 => exact sound_deferred (.inr (.inl hp))
  case h_46 => exact sound_deferred (.inr (.inr hp))
  all_goals exact sound_ok rfl rfl rfl ⟨hp, rfl, rfl, rfl, rfl⟩

end Sys2Proof.Laws.Decoding

namespace Sys2Proof.Proofs
open Sys2Proof Sys2Proof.Laws

/-- Settles O53, instruction by instruction: each has its own lemma, and the encoder leaves out only what has no word. -/
theorem encodeDecode : Obligations.EncodeDecode := by
  unfold Obligations.EncodeDecode
  refine ⟨Encoding.decode_encode, fun i _ hw => Option.isSome_iff_exists.1 ?_⟩
  rw [Encoding.encode_isSome, hw]
  rfl

/-- Settles O54, primary by primary: what the decoder has checked and read when it accepts a word is all of its 32 bits. -/
theorem decodeEncode : Obligations.DecodeEncode := by
  unfold Obligations.DecodeEncode
  exact fun _ => Decoding.decode_sound

end Sys2Proof.Proofs
end

section
/-! SUPPORT. The words of the manual, and the primaries that no instruction has (O55). -/

namespace Sys2Proof.Machine

/-- The state with w the word in issue. -/
def State.issuing (s : State) (w : Word32) : State := { s with core := { s.core with word := w } }

end Sys2Proof.Machine

namespace Sys2Proof.Laws.Decoding
open Sys2Proof Sys2Proof.Machine

theorem toNat_primary (w : Word32) : (bits w 26 6).toNat = w.toNat / 2 ^ 26 := by
  rw [toNat_bits]
  exact Nat.mod_eq_of_lt (Nat.div_lt_of_lt_mul w.isLt)

/-- The word zero and the other words of primary 0 have causes of their own (R77). -/
theorem decode_primary_zero {w : Word32} (h : w.toNat / 2 ^ 26 = 0) :
    decode w = .error (if w = 0#32 then 0x040#10 else 0x041#10) := by
  unfold decode
  rw [toNat_primary, h]
  rfl

theorem decode_primary_reserved {w : Word32} (hlo : 0x2B ≤ w.toNat / 2 ^ 26) (hhi : w.toNat / 2 ^ 26 ≤ 0x3B) :
    decode w = .error 0x042#10 := by
  unfold decode
  rw [toNat_primary]
  generalize w.toNat / 2 ^ 26 = p at hlo hhi
  interval_cases p <;> rfl

theorem decode_primary_last {w : Word32} (h : w.toNat / 2 ^ 26 = 0x3F) : decode w = .error 0x043#10 := by
  unfold decode
  rw [toNat_primary, h]
  rfl

/-- A word that does not decode takes the trap of its cause as the word in issue (R78). -/
theorem issueWord_error {s : State} {w : Word32} {c : Cause} (h : decode w = .error c) :
    s.issueWord w = (s.issuing w).trapWord c := by
  unfold State.issueWord
  rw [h]
  rfl

/-- The words that 03_encoding.md and 05_core_instructions.md write out. -/
theorem decode_manual :
    decode 0x112001E0#32 = .ok (.ori 9#5 0#5 0#2 0x1E0#14) ∧
      decode 0x485D3001#32 = .ok (.ld 2#5 29#5 0#2 1#11) ∧
      decode 0x5CA58E00#32 = .ok (.fadd 5#5 5#5 2#2 7#5 0#2 .f32) ∧
      decode 0x3061FFFD#32 = .ok (.bnez 3#5 0#2 0xFFFD#16) ∧
      decode 0x5464288A#32 = .ok (.amoadd 3#5 4#5 5#5 .relaxed .pkg .d) ∧
      decode 0x50C42080#32 = .ok (.lda 6#5 4#5 0#2 .w .pkg) ∧
      decode 0x24800006#32 = .ok (.lui 4#5 6#21) ∧
      decode 0x28A00004#32 = .ok (.adpc 5#5 4#21) ∧
      decode 0x38000010#32 = .ok (.jal 16#26) ∧
      decode 0x37FFFFFC#32 = .ok (.jmp 0x3FFFFFC#26) ∧
      decode 0x04810406#32 = .ok (.div 4#5 1#5 0#2 2#5 0#2) ∧
      decode 0x439CA005#32 = .ok (.movd 7#5 5#5 5#3) := by decide +kernel

end Sys2Proof.Laws.Decoding

namespace Sys2Proof.Proofs
open Sys2Proof Sys2Proof.Laws.Decoding

/-- Settles O55: the manual's words by the decoder's own evaluation, the illegal primaries by the cause each decodes to. -/
theorem decodeWords : Obligations.DecodeWords := by
  unfold Obligations.DecodeWords
  obtain ⟨hori, hld, hfadd, hbnez, hamoadd, hlda, hlui, hadpc, hjal, hjmp, hdiv, hmovd⟩ := decode_manual
  refine ⟨hori, hld, hfadd, hbnez, hamoadd, hlda, hlui, hadpc, hjal, hjmp, hdiv, hmovd,
    fun s w => ⟨fun hw => ?_, fun hp hw => ?_, ?_, ?_⟩⟩
  · subst hw
    exact issueWord_error (decode_primary_zero rfl)
  · exact issueWord_error ((decode_primary_zero hp).trans (by rw [if_neg hw]))
  · exact fun hlo hhi => issueWord_error (decode_primary_reserved hlo hhi)
  · exact fun hp => issueWord_error (decode_primary_last hp)

end Sys2Proof.Proofs
end

section
/-! SUPPORT. Trap entry (O42): a trap of a core that stands alone and calm is taken at once, and its entry is that of the
handler or the stop of a double trap. -/

namespace Sys2Proof.Machine
open Sys2Proof

/-! ## Which cores a turn and a record leave alone -/

theorem getCore_focus (s : State) (c d : CoreId) : (s.focus c).getCore d = s.getCore d := by
  unfold State.focus
  split
  · rfl
  next hc =>
    unfold State.getCore
    by_cases hdc : d = c
    · rw [hdc, if_pos rfl, if_neg hc]
    · rw [if_neg hdc]
      by_cases hds : d = s.cur
      · rw [hds, if_pos rfl, tget_tset_same]
      · rw [if_neg hds, tget_tset_of_ne hds, tget, tfind_terase_of_ne hdc, tget]

theorem getCore_rotateIfStopped (s : State) (d : CoreId) : s.rotateIfStopped.getCore d = s.getCore d := by
  unfold State.rotateIfStopped State.rotate
  split
  · split
    · exact getCore_focus s _ d
    · rfl
  · rfl

theorem rotateIfStopped_running {s : State} (h : s.core.debugStopped = false) : s.rotateIfStopped = s := by
  unfold State.rotateIfStopped
  rw [h, if_neg Bool.false_ne_true]

theorem getCore_notify (s : State) (n kind queue cause detail : Nat) (d : CoreId) :
    (s.notify n kind queue cause detail).getCore d = s.getCore d := by
  have h := congrArg (fun t : State => t.getCore d) (notify_offMemory s n kind queue cause detail)
  exact h

theorem setCore_cur_core (s : State) (k : Core) : s.setCore s.cur k = { s with core := k } := if_pos rfl

/-! ## What an abandoned instruction leaves of its core -/

/-- The core without its journal and without what the instruction in issue has begun. -/
def Core.offWork (k : Core) : Core :=
  { k with
    journal := [], journalAt := [], wpHit := none, hitDue := false, held := none, walk := none, walkFaults := [], wb := none
    fencing := false, inWait := false, chanStep := 0, rechecking := false, sleepUntil := none, imgOrder := [], imgGot := []
    join := none, barpAt := none, arriving := false, young := [], xmitAt := [] }

theorem freeJournal_offWork (k : Core) (c : Cause) : (k.freeJournal c).offWork = k.offWork := by
  unfold Core.freeJournal
  split <;> rfl

theorem abandon_offWork (k : Core) : k.abandon.offWork = k.offWork := by
  unfold Core.abandon
  split
  · exact freeJournal_offWork k _
  · rfl

/-- What does not depend on the instruction in issue outlasts it. -/
theorem proj_of_offWork {α : Type} (p : Core → α) (hp : ∀ k : Core, p k.offWork = p k) {k k' : Core}
    (h : k.offWork = k'.offWork) : p k = p k' :=
  calc p k = p k.offWork := (hp k).symm
    _ = p k'.offWork := congrArg p h
    _ = p k' := hp k'

theorem freeJournal_proj {α : Type} (p : Core → α) (hp : ∀ k : Core, p k.offWork = p k) (k : Core) (c : Cause) :
    p (k.freeJournal c) = p k := proj_of_offWork p hp (freeJournal_offWork k c)

theorem abandon_proj {α : Type} (p : Core → α) (hp : ∀ k : Core, p k.offWork = p k) (k : Core) : p k.abandon = p k :=
  proj_of_offWork p hp (abandon_offWork k)

/-! ## A trap of a core that stands alone and calm is taken at once -/

/-- The trap of a core in no gang is taken by the instruction at at_. -/
def State.trapTaken (s : State) (c : Cause) (async : Bool) (pc at_ v : Word) : State :=
  (s.enterCore s.cur c async none pc at_ at_ v).rotateIfStopped

section Calm
variable {s : State} (hq : s.core.quiet) (hc : Claims.Calm s)
include hq hc

theorem trapReady_calm : s.trapReady = true := by
  simp [State.trapReady, State.flushableAll, State.trapping, State.focus, State.flushable, State.gangSettled, hq.1, hc.buffer]

theorem flushAll_calm : s.flushAll = s := by
  simp [State.flushAll, State.flush, hq.1, hc.buffer, hc.loop]

theorem allSent_calm : s.allSent = true := by
  simp [State.allSent, State.trapping, State.getCore, hq.1, hc.out]

theorem trapFrom_calm (c : Cause) (alike : Bool) (pc at_ v : Word) :
    s.trapFrom c alike pc at_ v = .next (s.trapTaken c false pc at_ v) := by
  have ⟨hgang, _, _, hroutine⟩ := hq
  unfold State.trapFrom State.takeTrap
  rw [hroutine]
  dsimp only
  rw [trapReady_calm hq hc, flushAll_calm hq hc, allSent_calm hq hc, if_pos rfl, if_pos rfl]
  unfold State.enter
  rw [hgang]
  rfl

theorem execTrap_calm (hm : s.core.meshBarred = false) (n : BitVec 12) :
    execTrap n s = .next (s.trapTaken (n.truncate 10) false (s.core.pc + 4#64) s.core.pc 0#64) := by
  have hpast : s.pastTrap = s := by simp [State.pastTrap, hq.1]
  have hcaught : s.caughtUp = true := by simp [State.caughtUp, hq.1]
  unfold execTrap
  rw [issue_ready rfl hm, ordered_calm hc.loop hc.buffer hc.out, trapReady_calm hq hc, hcaught, flushAll_calm hq hc,
    allSent_calm hq hc, hpast]
  exact trapFrom_calm hq hc _ _ _ _ _

/-- An instruction whose effect is a trap takes it, with the word in issue recorded. -/
theorem exec_trapping (hm : s.core.meshBarred = false) {i : Instr} {c : Cause} {v pc : Word}
    (h : Claims.trapping s i = some (c, v, pc)) :
    ∃ w, exec i s = .next ((s.issuing w).trapTaken c false pc s.core.pc v) := by
  unfold Claims.trapping at h
  split at h
  case h_1 w c =>
    cases h
    exact ⟨w, trapFrom_calm (s := s.issuing w) hq ⟨hc.loop, hc.buffer, hc.out⟩ c false _ _ _⟩
  case h_2 n =>
    cases h
    exact ⟨s.core.word, execTrap_calm hq hc hm n⟩
  case h_3 n =>
    cases h
    exact ⟨s.core.word, (issue_ready (n := {}) rfl hm _).trans (trapFrom_calm hq hc 0x380#10 false _ _ _)⟩
  case h_4 => cases h

end Calm

/-! ## The two ends of a trap entry (R425) -/

/-- The core in its handler: its journal entry, where the cause is one of the journal's, is free. -/
def Core.inHandler (k : Core) (c : Cause) (async : Bool) (pc v : Word) : Core :=
  (k.freeJournal c).enterHandler c async none pc v

/-- The core n that a double trap has stopped at the instruction at_. -/
def Core.doubleStopped (k : Core) (n : CoreId) (at_ : Word) : Core := { k.abandon.stopAt n 5 at_ with pc := at_ }

/-- What does not depend on the instruction in issue, and what the entry does not set, is in the handler as it was. -/
theorem inHandler_proj {α : Type} (p : Core → α) (hp : ∀ k : Core, p k.offWork = p k) {k : Core} {c : Cause}
    {async : Bool} {pc v : Word} (h : p (k.inHandler c async pc v) = p (k.freeJournal c).abandon) :
    p (k.inHandler c async pc v) = p k :=
  calc p (k.inHandler c async pc v) = p (k.freeJournal c).abandon := h
    _ = p (k.freeJournal c) := abandon_proj p hp _
    _ = p k := freeJournal_proj p hp k c

theorem unsleep_awake {s : State} (h : s.core.sleeping = none) : s.unsleep s.cur = s := by
  simp [State.unsleep, getCore_cur, h]

theorem deferHit_none {k : Core} (h : k.wpHit = none) : k.deferHit = k := by
  simp [Core.deferHit, h]

section Entry
variable {s : State} (hsleep : s.core.sleeping = none) (hhit : s.core.wpHit = none) {async : Bool}
include hsleep hhit

theorem trapTaken_handler (hd : s.core.doubleTrap async = none) (hrun : s.core.debugStopped = false) (c : Cause)
    (pc at_ v : Word) : s.trapTaken c async pc at_ v = { s with core := s.core.inHandler c async pc v } := by
  have hfree : (s.core.freeJournal c).debugStopped = false :=
    (freeJournal_proj Core.debugStopped (fun _ => rfl) s.core c).trans hrun
  have hhandler : (s.core.inHandler c async pc v).debugStopped = false :=
    (inHandler_proj Core.debugStopped (fun _ => rfl) rfl).trans hrun
  unfold State.trapTaken State.enterCore
  dsimp only
  rw [unsleep_awake hsleep, getCore_cur, deferHit_none hhit, hd]
  dsimp only
  rw [if_pos rfl, hfree, if_neg Bool.false_ne_true, setCore_cur_core]
  exact rotateIfStopped_running hhandler

theorem getCore_trapTaken_double {d : Cause} (hd : s.core.doubleTrap async = some d) (c : Cause) (pc at_ v : Word) :
    (s.trapTaken c async pc at_ v).getCore s.cur = s.core.doubleStopped s.cur at_ := by
  unfold State.trapTaken State.enterCore
  dsimp only
  rw [getCore_rotateIfStopped, unsleep_awake hsleep, getCore_cur, deferHit_none hhit, hd]
  dsimp only
  split
  · rw [getCore_notify, getCore_setCore_same]
    rfl
  · rw [getCore_setCore_same]
    rfl

end Entry

/-- STATUS in the handler: system mode and NEST, with the mode it was in kept aside. -/
theorem handler_status (x : Word) :
    (x &&& ~~~0x13#64) ||| (if wbit x 0 then 0x13#64 else 0x11#64) =
      (x &&& 0xFFFFFFFFFFFFFFEC#64) ||| 0x11#64 ||| (if x.getLsbD 0 then 2#64 else 0#64) := by
  rw [BitVec.or_assoc]
  congr 1
  unfold wbit
  split <;> rfl

theorem handler_cause (c : Cause) (async : Bool) :
    trapCauseWord c async none = c.zeroExtend 64 ||| (if async then 0x400#64 else 0#64) := BitVec.or_zero

theorem entered_inHandler (s : State) (c : Cause) (async : Bool) (pc v : Word) :
    Claims.Entered s { s with core := s.core.inHandler c async pc v } c async v pc where
  cur := rfl
  cause := handler_cause c async
  trappc := rfl
  val := rfl
  status := by
    rw [← handler_status, ← freeJournal_proj Core.status (fun _ => rfl) s.core c]
    rfl
  pc := freeJournal_proj Core.trapvec (fun _ => rfl) s.core c
  scalars := inHandler_proj Core.sregs (fun _ => rfl) rfl
  vectors := inHandler_proj Core.vregs (fun _ => rfl) rfl
  masks := inHandler_proj Core.masks (fun _ => rfl) rfl
  loops := inHandler_proj Core.loops (fun _ => rfl) rfl
  others :=
    ⟨inHandler_proj Core.scratch (fun _ => rfl) rfl, inHandler_proj Core.fflags (fun _ => rfl) rfl,
      inHandler_proj Core.vtype (fun _ => rfl) rfl, inHandler_proj Core.trapvec (fun _ => rfl) rfl,
      inHandler_proj Core.lmsplit (fun _ => rfl) rfl, inHandler_proj Core.kloader (fun _ => rfl) rfl⟩
  mem := rfl

/-- The word in issue and the pending causes play no part in what an entry keeps. -/
theorem entered_of_marked {s t : State} {w : Word32} {l : List Async} {c : Cause} {async : Bool} {v pc : Word}
    (h : Claims.Entered { s with core := { s.core with word := w, asyncs := l } } t c async v pc) :
    Claims.Entered s t c async v pc := by
  obtain ⟨hcur, hcause, htrappc, hval, hstatus, hpc, hs, hv, hm, hl, ho, hmem⟩ := h
  exact ⟨hcur, hcause, htrappc, hval, hstatus, hpc, hs, hv, hm, hl, ho, hmem⟩

theorem doubleTrap_none {k : Core} (hn : k.nest = false) (hv : k.trapvec ≠ 0#64) (async : Bool) :
    k.doubleTrap async = none := by
  simp [Core.doubleTrap, hn, hv]

theorem doubleTrap_some {k : Core} (h : k.nest = true ∨ k.trapvec = 0#64) : ∃ d, k.doubleTrap false = some d := by
  unfold Core.doubleTrap
  split
  · exact ⟨_, rfl⟩
  next hn =>
    rw [if_pos (h.resolve_left (by simpa using hn))]
    exact ⟨_, rfl⟩

/-! ## The delivery of a pending cause (R424) -/

section Delivery
variable {k : Core} {c : Cause} {v : Word} (h : k.asyncs = [{ cause := c, val := v }])
include h

theorem nextCause_single (hj : k.journal = []) (hr : k.carryRecs = []) : k.nextCause = some (c, v) := by
  have hp : k.pendingCauses = [(c, v)] := by simp [Core.pendingCauses, h, hj, hr]
  simp [Core.nextCause, hp]

theorem dropCause_single (hlost : k.asyncLost = 0) : k.dropCause (c, v) = { k with asyncs := [] } := by
  simp [Core.dropCause, Core.freeAsync, h, hlost]

end Delivery

theorem deliverable_calm {s : State} (hq : s.core.quiet) (hc : Claims.Calm s) {x : Cause × Word}
    (hnext : s.core.nextCause = some x) (hunit : s.core.unit ≠ none) (hrest : s.core.rest = .none)
    (hrun : s.core.debugStopped = false) (hn : s.core.nest = false) (hmid : s.core.midway = false)
    (hfail : s.core.failing = false) : s.deliverable = true := by
  have hready := trapReady_calm hq hc
  simp [State.deliverable, hnext, Option.isSome_iff_ne_none, hunit, hrest, hrun, hn, hmid, hfail, hready]

/-- The delivery to the core in focus. -/
theorem execAsyncTrapDelivery_cur {s : State} (h : s.deliverable = true) :
    execAsyncTrapDelivery s.cur s = .next s.deliver := by
  have hfocus : s.focus s.cur = s := if_pos rfl
  unfold execAsyncTrapDelivery
  dsimp only
  rw [hfocus, h, if_pos rfl, if_pos rfl]

/-- The only pending cause of a calm core between two instructions is delivered: it enters its handler, the cause gone. -/
theorem deliver_single {s : State} (hq : s.core.quiet) (hc : Claims.Calm s) (hsleep : s.core.sleeping = none)
    (hrun : s.core.debugStopped = false) {c : Cause} {v : Word} (hnext : s.core.nextCause = some (c, v))
    (hdrop : s.core.dropCause (c, v) = { s.core with asyncs := [] }) (hd : ∀ async, s.core.doubleTrap async = none) :
    s.deliver = { s with core := ({ s.core with asyncs := [] } : Core).inHandler c true s.core.pc v } := by
  have ⟨hgang, hhit, _, _⟩ := hq
  let t : State := { s with core := { s.core with asyncs := [] } }
  have henter : (t.enter c true false s.core.pc s.core.pc v).rotateIfStopped = t.trapTaken c true s.core.pc s.core.pc v := by
    unfold State.enter
    rw [show t.core.gang = none from hgang]
    rfl
  unfold State.deliver
  rw [hnext]
  dsimp only
  rw [flushAll_calm hq hc, allSent_calm hq hc, if_pos rfl, hd true]
  simp only [Option.isSome_none, Bool.false_eq_true, if_false]
  rw [State.upd, hdrop]
  exact henter.trans (trapTaken_handler (s := t) hsleep hhit (hd true) hrun c _ _ v)

end Sys2Proof.Machine

namespace Sys2Proof.Proofs
open Sys2Proof Sys2Proof.Machine

/-- Settles O42: a trap that is taken at once enters the handler or stops, and the delivery of a cause is such an entry. -/
theorem trapEntry : Obligations.TrapEntry := by
  unfold Obligations.TrapEntry
  intro s ha hc hsleep hrun
  have hq := ha.quiet
  have hhit := hq.2.1
  refine ⟨fun i c v pc hi => ?_, fun c v hasync hj hr hlost hunit hrest hmid hfail hn hv => ?_⟩
  · obtain ⟨w, he⟩ := exec_trapping hq hc ha.mesh hi
    refine ⟨fun hn hv => ?_, fun hdouble => ?_⟩
    · rw [trapTaken_handler (s := s.issuing w) hsleep hhit (doubleTrap_none hn hv false) hrun] at he
      exact ⟨_, he, entered_of_marked (entered_inHandler (s.issuing w) c false pc v)⟩
    · obtain ⟨d, hd⟩ := doubleTrap_some hdouble
      have hstop : ((s.issuing w).trapTaken c false pc s.core.pc v).getCore s.cur =
          (s.issuing w).core.doubleStopped s.cur s.core.pc :=
        getCore_trapTaken_double (s := s.issuing w) hsleep hhit hd c pc _ v
      refine ⟨_, he, ?_⟩
      rw [hstop]
      exact ⟨rfl, rfl, abandon_proj Core.trapcause (fun _ => rfl) _, abandon_proj Core.trappc (fun _ => rfl) _,
        abandon_proj Core.trapval (fun _ => rfl) _, abandon_proj Core.status (fun _ => rfl) _⟩
  · have hnext := nextCause_single hasync hj hr
    have hready := deliverable_calm hq hc hnext hunit hrest hrun hn hmid hfail
    have he := deliver_single hq hc hsleep hrun hnext (dropCause_single hasync hlost) (doubleTrap_none hn hv)
    refine ⟨s.deliver, execAsyncTrapDelivery_cur hready, ?_, ?_⟩
    · rw [he]
      exact entered_of_marked (w := s.core.word) (l := [])
        (entered_inHandler { s with core := { s.core with asyncs := [] } } c true s.core.pc v)
    · rw [he]
      exact inHandler_proj Core.asyncs (fun _ => rfl) rfl

end Sys2Proof.Proofs
end

section
/-! SUPPORT. Deferred instructions (O43): the check of the dispatch entry and the start of the routine. -/

namespace Sys2Proof.Machine
open Sys2Proof

/-! ## The check of a dispatch entry (R82) -/

/-- The entry is gated by a feature that the driver has not accepted. -/
def State.gated (s : State) (x : Word) : Bool := wbit x 61 && !s.feature (wfield x 49 8)

theorem gated_iff (s : State) (x : Word) :
    s.gated x = true ↔ x.getLsbD 61 = true ∧ ¬(s.accepted = true ∧ s.acc.getLsbD (x.toNat / 2 ^ 49 % 256) = true) := by
  simp only [State.gated, State.feature, wbit, wfield, field, Bool.and_eq_true, Bool.not_eq_true', ← Bool.not_eq_true]
  rfl

section Entry
variable {s : State} {x : Word}

theorem entryFault_disabled (h : wbit x 63 = false) : s.entryFault x = some 0x044#10 := by
  simp [State.entryFault, h]

theorem entryFault_unverified (h : wbit x 63 = true) (hv : wbit x 62 = false) : s.entryFault x = some 0x045#10 := by
  simp [State.entryFault, h, hv]

theorem entryFault_verified (h : wbit x 63 = true) (hv : wbit x 62 = true) :
    s.entryFault x = if s.gated x then some 0x046#10 else none := by
  simp [State.entryFault, State.gated, h, hv]

end Entry

/-! ## The deferred instruction of a core that stands alone -/

section Deferred
variable {s : State} {e : BitVec 2} {f : BitVec 20} {i : BitVec 6}
variable (hroutine : s.core.routine = none) (hheld : s.core.held = none)
include hroutine hheld

theorem deferred_fault {c : Cause} (h : s.entryFault (s.dispatchEntry e.toNat i.toNat) = some c) :
    execDeferredInstruction e f i s = s.trap c ((deferredWord e f i).zeroExtend 64) := by
  simp [execDeferredInstruction, hheld, hroutine, h]

theorem deferred_distance (h : s.entryFault (s.dispatchEntry e.toNat i.toNat) = none)
    (hd : s.core.distsOk (formatNames (wfield (s.dispatchEntry e.toNat i.toNat) 57 4) (deferredWord e f i)) = false) :
    execDeferredInstruction e f i s = s.trap 0x080#10 ((deferredWord e f i).zeroExtend 64) := by
  simp [execDeferredInstruction, hheld, hroutine, h, hd]

theorem deferred_begins (hc : Claims.Calm s) (h : s.entryFault (s.dispatchEntry e.toNat i.toNat) = none)
    (hd : s.core.distsOk (formatNames (wfield (s.dispatchEntry e.toNat i.toNat) 57 4) (deferredWord e f i)) = true)
    (hp : s.core.pend = []) :
    execDeferredInstruction e f i s =
      .next (({ s with fresh := s.fresh + 32 } : State).upd fun k =>
        k.beginRoutine (deferredWord e f i) (wfield (s.dispatchEntry e.toNat i.toNat) 0 16)
          (wfield (s.dispatchEntry e.toNat i.toNat) 32 9) s.fresh) := by
  simp [execDeferredInstruction, hheld, hroutine, h, hd, hp, ordered_calm hc.loop hc.buffer hc.out]

end Deferred
end Sys2Proof.Machine

namespace Sys2Proof.Proofs
open Sys2Proof Sys2Proof.Machine

/-- Settles O43: the checks of the entry in their order, then the distances, then the routine. -/
theorem deferredInstructions : Obligations.DeferredInstructions := by
  unfold Obligations.DeferredInstructions
  intro s e f i ha hc hheld x w gated
  obtain ⟨-, -, -, hroutine⟩ := ha.quiet
  have hfield : wfield x 0 16 = x.toNat % 2 ^ 16 := by simp [wfield, field]
  have hnone (h : wbit x 63 = true) (hv : wbit x 62 = true) (hg : ¬gated) : s.entryFault x = none :=
    (entryFault_verified h hv).trans (if_neg fun h => hg ((gated_iff s x).mp h))
  refine ⟨fun h => ?_, fun h hv => ?_, fun h hv hg => ?_, fun h hv hg hd => ?_, fun h hv hg hd hp => ?_⟩
  · exact deferred_fault hroutine hheld (entryFault_disabled h)
  · exact deferred_fault hroutine hheld (entryFault_unverified h hv)
  · exact deferred_fault hroutine hheld ((entryFault_verified h hv).trans (if_pos ((gated_iff s x).mpr hg)))
  · exact deferred_distance hroutine hheld (hnone h hv hg) hd
  · exact ⟨_, _, deferred_begins hroutine hheld hc (hnone h hv hg) hd hp,
      rfl, rfl, rfl, rfl, rfl, hfield, rfl, rfl, rfl, rfl, rfl, rfl⟩

end Sys2Proof.Proofs
end

section
/-! SUPPORT. The entry of a loop (O4): what the fetch of its ENDIT leaves of the core, and the versions that its names get. -/

namespace Sys2Proof.Machine
open Sys2Proof

/-! ## A fetch and the names, the loops and the exit words -/

/-- The core without what a matched watchpoint records. -/
def Core.offHits (k : Core) : Core := { k with wpHit := none, dinfo := 0#64, asyncs := [], asyncLost := 0 }

/-- The core without what its fetches change: the lines and words that they keep, and what watchpoints record of them. -/
def Core.offFetch (k : Core) : Core := k.offLines.offHits

theorem pendAsync_offFetch (k : Core) (c : Cause) (v : Word) : (k.pendAsync c v).offFetch = k.offFetch := by
  unfold Core.pendAsync
  split <;> rfl

theorem wpTrap_offFetch (k : Core) (i va : Nat) : (k.wpTrap i va).offFetch = k.offFetch := by
  unfold Core.wpTrap
  dsimp only
  split
  · exact pendAsync_offFetch k _ _
  · rfl

theorem wpStop_offFetch (s : State) (i agent : Nat) : (s.wpStop s.cur i agent).core.offFetch = s.core.offFetch := by
  unfold State.wpStop
  dsimp only
  split
  · rfl
  · rw [getCore_cur, setCore_cur_core]
    rfl

theorem watchOwn_offFetch (s : State) (acc : Access) (p : Piece) : (s.watchOwn acc p).core.offFetch = s.core.offFetch := by
  unfold State.watchOwn State.watchPieces
  dsimp only
  split
  · rfl
  · split
    · exact wpTrap_offFetch _ _ _
    · exact wpStop_offFetch _ _ _

theorem fetchAt_offFetch {s t : State} {va : Nat} {w : Word32} (h : s.fetchAt va = .word w t) :
    t.core.offFetch = s.core.offFetch := by
  unfold State.fetchAt at h
  dsimp only at h
  split at h
  · cases h
    exact watchOwn_offFetch _ _ _
  · split at h
    · split at h
      · next p addr pte w' u hr =>
        cases h
        have hread := congrArg (fun x => x.2.offHits) (readWord_reader hr)
        have hhold := congrArg Core.offHits (holdWord_offLines u.core va w)
        exact (watchOwn_offFetch _ _ _).trans (hhold.trans hread)
      · next hn => exact absurd h (hn _ _)
    all_goals cases h

/-! ## The names of a loop that begins (R33, R39) -/

theorem tfind_collapse {α : Type} (level : Nat) (dflt : α) (n : Nat) (t : Tab (Ver α)) :
    tfind n (collapse level dflt t) =
      (tfind n t).map fun v => if v.exited = level then { hist := [v.newest dflt] } else v := by
  induction t with
  | nil => rfl
  | cons p t ih =>
    obtain ⟨j, v⟩ := p
    have hcons : collapse level dflt ((j, v) :: t) =
        (j, if v.exited = level then { hist := [v.newest dflt] } else v) :: collapse level dflt t := by
      by_cases h : v.exited = level <;> simp [collapse, h]
    rw [hcons]
    by_cases hj : j = n
    · simp [tfind, hj]
    · simpa [tfind, hj] using ih

/-- The versions of an exited loop collapse to the newest, which stays. -/
theorem newest_collapse {α : Type} (level : Nat) (dflt : α) (n : Nat) (t : Tab (Ver α)) (d : Ver α) :
    (tget n (collapse level dflt t) d).newest dflt = (tget n t d).newest dflt := by
  rw [tget, tget, tfind_collapse]
  cases tfind n t with
  | none => rfl
  | some v =>
    rw [Option.map_some, Option.getD_some, Option.getD_some]
    split <;> rfl

/-- Every slot of a carried name takes its current value. -/
theorem entered_hist {α : Type} {names : List Nat} (hn : names.Nodup) (level depth : Nat) (dflt : α) (d : Ver α)
    (t : Tab (Ver α)) {m : Nat} (hm : m ∈ names) :
    (tget m (names.foldl (fun t n => mapVer t d n (Ver.enter dflt depth)) (collapse level dflt t)) d).hist =
      List.replicate depth { val := ((tget m t d).newest dflt).val } := by
  have h := tget_foldl_tset (g := fun _ => Ver.enter dflt depth) (dflt := d) (fun _ _ => rfl) hn (collapse level dflt t) m
  rw [if_pos hm] at h
  rw [← newest_collapse level dflt m t d]
  exact congrArg Ver.hist h

theorem tfind_map_of_notMem {α : Type} (f : Nat → α) {n : Nat} {l : List Nat} (h : n ∉ l) :
    tfind n (l.map fun i => (i, f i)) = none := by
  induction l with
  | nil => rfl
  | cons i l ih =>
    rw [List.mem_cons, not_or] at h
    exact (if_neg (Ne.symm h.1)).trans (ih h.2)

section Entry
variable {k : Core} {r : LoopRec} {x : Reg}

theorem enterLoop_sver (hx : r.carry.scalars.getLsbD x.toNat = true) :
    ((k.enterLoop r).1.sver x).hist = List.replicate r.carry.depth { val := ((k.sver x).newest 0#64).val } :=
  entered_hist (namesIn_nodup _) _ _ _ dfltS k.sregs (mem_namesIn hx)

theorem enterLoop_vver (hx : r.carry.vectors.getLsbD x.toNat = true) :
    ((k.enterLoop r).1.vver x).hist =
      List.replicate (min r.carry.depth 2) { val := ((k.vver x).newest 0#512).val } :=
  entered_hist (namesIn_nodup _) _ _ _ dfltV k.vregs (mem_namesIn hx)

/-- A name that no enclosing loop carries is not put aside. -/
theorem enterLoop_asideS (hx : k.carriesS x = false) : tfind x.toNat (k.enterLoop r).2.asideS = none :=
  tfind_map_of_notMem _ fun h => Bool.false_ne_true (hx.symm.trans (List.mem_filter.mp h).2)

theorem enterLoop_asideV (hx : k.carriesV x = false) : tfind x.toNat (k.enterLoop r).2.asideV = none :=
  tfind_map_of_notMem _ fun h => Bool.false_ne_true (hx.symm.trans (List.mem_filter.mp h).2)

/-! ## Into the body, and past a loop of count 0 (R38, R102) -/

/-- The core that has begun the loop of r. -/
def Core.begin (k : Core) (r : LoopRec) : Core := { (k.enterLoop r).1 with loops := (k.enterLoop r).2 :: k.loops }

/-- The core that has passed the loop of r, whose count is 0. -/
def Core.passBy (k : Core) (r : LoopRec) : Core := { (k.begin r).exitLoop with x1 := 0xFFFFFFFF#64, x2 := 0#64 }

theorem begin_sver (hx : r.carry.scalars.getLsbD x.toNat = true) :
    ((k.begin r).sver x).hist = List.replicate r.carry.depth { val := ((k.sver x).newest 0#64).val } := enterLoop_sver hx

theorem begin_vver (hx : r.carry.vectors.getLsbD x.toNat = true) :
    ((k.begin r).vver x).hist = List.replicate (min r.carry.depth 2) { val := ((k.vver x).newest 0#512).val } :=
  enterLoop_vver hx

theorem passBy_offLoop (k : Core) (r : LoopRec) : (k.passBy r).offLoop = (k.begin r).offLoop := exitLoop_offLoop (k.begin r)

theorem passBy_loops (k : Core) (r : LoopRec) : (k.passBy r).loops = k.loops := exitLoop_loops (k := k.begin r) rfl

theorem passBy_sver (hx : r.carry.scalars.getLsbD x.toNat = true) (hout : k.carriesS x = false) :
    ((k.passBy r).sver x).hist = List.replicate r.carry.depth { val := ((k.sver x).newest 0#64).val } := by
  have h := exitLoop_sver (k := k.begin r) rfl hx
  rw [enterLoop_asideS hout] at h
  exact (congrArg Ver.hist h).trans (begin_sver hx)

theorem passBy_vver (hx : r.carry.vectors.getLsbD x.toNat = true) (hout : k.carriesV x = false) :
    ((k.passBy r).vver x).hist = List.replicate (min r.carry.depth 2) { val := ((k.vver x).newest 0#512).val } := by
  have h := exitLoop_vver (k := k.begin r) rfl hx
  rw [enterLoop_asideV hout] at h
  exact (congrArg Ver.hist h).trans (begin_vver hx)

end Entry

theorem startLoop_begins {s : State} (h : s.core.quiet) {r : LoopRec} (hc : r.count ≠ 0) :
    s.startLoop r = Claims.endsAt s (s.core.begin r) r.start :=
  (if_neg hc).trans (goto_alone (s := { s with core := s.core.begin r }) h _)

theorem startLoop_passes {s : State} (h : s.core.quiet) {r : LoopRec} (hc : r.count = 0) :
    s.startLoop r = Claims.endsAt s (s.core.passBy r) (r.last + 4#64) :=
  (if_pos hc).trans (goto_alone (s := { s with core := s.core.passBy r })
    ((congrArg Core.quiet (passBy_offLoop s.core r)).mpr h) _)

/-- The window is 1 around another loop; carried vectors have 2 versions at most (R32). -/
theorem windowOf_eq (nested : Bool) (c : Carry) :
    windowOf nested c = if nested then 1 else if c.vectors = 0#32 then c.depth else min c.depth 2 := by
  unfold windowOf
  by_cases hv : c.vectors = 0#32
  · simp [hv]
  · by_cases hd : 2 < c.depth
    · simp [hv, hd, Nat.min_eq_right hd.le]
    · simp [hv, hd, Nat.min_eq_left (Nat.le_of_not_lt hd)]

end Sys2Proof.Machine

namespace Sys2Proof.Proofs
open Sys2Proof Sys2Proof.Machine

/-- Settles O4: the fetch of ENDIT keeps the names, the loops and the exit words; then the record begins, or is passed. -/
theorem loopEntry : Obligations.LoopEntry := by
  unfold Obligations.LoopEntry
  intro a da n s u ha hl hr hloops h1 h2 hf hq hfull
  have hkeep := fetchAt_offFetch hf
  have hl' : u.core.loops = s.core.loops := (congrArg Core.loops hkeep :)
  have hx1 : u.core.x1 = s.core.x1 := (congrArg Core.x1 hkeep :)
  have hx2 : u.core.x2 = s.core.x2 := (congrArg Core.x2 hkeep :)
  have hsver (x : Reg) : u.core.sver x = s.core.sver x := (congrArg (fun k => Core.sver k x) hkeep :)
  have hvver (x : Reg) : u.core.vver x = s.core.vver x := (congrArg (fun k => Core.vver k x) hkeep :)
  have houtS (x : Reg) : u.core.carriesS x = s.core.carriesS x := (congrArg (fun k => Core.carriesS k x) hkeep :)
  have houtV (x : Reg) : u.core.carriesV x = s.core.carriesV x := (congrArg (fun k => Core.carriesV k x) hkeep :)
  refine ⟨_, loop_ready ha hl hloops h1 h2 hr hfull hf hq.1, (startLoop_alone hq _).1, fun hc => ?_, fun hc => ?_⟩
  · rw [startLoop_passes hq hc]
    refine ⟨rfl, (passBy_loops u.core (s.loopRecord a da n)).trans hl', rfl, rfl, fun x hx hout => ?_, fun x hx hout => ?_⟩
    · rw [← hsver]
      exact passBy_sver hx ((houtS x).trans hout)
    · rw [← hvver]
      exact passBy_vver hx ((houtV x).trans hout)
  · rw [startLoop_begins hq hc]
    refine ⟨rfl, hx1, hx2, _, congrArg _ hl', rfl, rfl, rfl, rfl, rfl, windowOf_eq _ _, fun x hx => ?_, fun x hx => ?_⟩
    · rw [← hsver]
      exact begin_sver hx
    · rw [← hvver]
      exact begin_vver hx

end Sys2Proof.Proofs
end

section
/-! SUPPORT. Control transfers (O2): branches and jumps as transfers with a test and a link, in a core that stands alone. -/

namespace Sys2Proof.Machine
open Sys2Proof

/-! ## Targets (R57, R98) -/

theorem ofInt_shiftLeft (z : Int) (k : Nat) : BitVec.ofInt 64 z <<< k = BitVec.ofInt 64 (z * 2 ^ k) := by
  have htwo : BitVec.ofInt 64 (2 ^ k) = BitVec.twoPow 64 k := by
    apply BitVec.eq_of_toNat_eq
    rw [← Nat.cast_two, ← Nat.cast_pow, BitVec.ofInt_natCast, BitVec.toNat_twoPow, BitVec.toNat_ofNat]
  rw [BitVec.shiftLeft_eq_mul_twoPow, BitVec.ofInt_mul, htwo]

/-- A word offset counts in words from the program counter. -/
theorem add_signExtend_shiftLeft (x : Word) {n : Nat} (o : BitVec n) (k : Nat) :
    x + (o.signExtend 64 <<< k) = BitVec.ofInt 64 (x.toInt + o.toInt * 2 ^ k) := by
  rw [BitVec.ofInt_add, BitVec.ofInt_toInt, BitVec.signExtend, ofInt_shiftLeft]

/-- The target of an indirect jump has its low two bits clear. -/
theorem and_not_three (x : Word) : x &&& ~~~3#64 = BitVec.ofNat 64 (x.toNat / 4 * 4) := by
  have hshift : x &&& ~~~3#64 = x >>> 2 <<< 2 := by
    refine BitVec.eq_of_getLsbD_eq fun i hi => ?_
    have hthree : (3#64).getLsbD i = decide (i < 2) := by
      rw [BitVec.getLsbD_ofNat, decide_eq_true hi, Bool.true_and]
      exact Nat.testBit_two_pow_sub_one 2 i
    rw [BitVec.getLsbD_and, BitVec.getLsbD_not, hthree, BitVec.getLsbD_shiftLeft, BitVec.getLsbD_ushiftRight]
    by_cases h : i < 2
    · simp [h]
    · simp [hi, h, Nat.add_sub_cancel' (Nat.le_of_not_lt h)]
  rw [hshift]
  apply BitVec.eq_of_toNat_eq
  rw [BitVec.toNat_shiftLeft, BitVec.toNat_ushiftRight, BitVec.toNat_ofNat, Nat.shiftLeft_eq, Nat.shiftRight_eq_div_pow]

/-! ## A transfer in a core that stands alone (R99) -/

theorem leaves_iff {s : State} (h : s.core.routine = none) (x : Word) : s.core.leaves x = true ↔ Claims.outside s x := by
  unfold Core.leaves Claims.outside
  rw [h, Option.isSome_none, if_neg Bool.false_ne_true]
  cases s.core.liveLoop with
  | none => simp
  | some r => simp

/-- The core with the return address of a word in the name that receives it, if one does. -/
def Core.link (k : Core) (d : Option Reg) : Core := d.elim k fun d => k.writeS d (k.pc + 4#64)

theorem quiet_link {k : Core} (h : k.quiet) (d : Option Reg) : (k.link d).quiet := by
  cases d with
  | none => exact h
  | some d => exact quiet_writeS h d _

theorem link_foldl (s : State) (d : Option Reg) :
    d.toList.foldl (fun t d => t.setS d (s.core.pc + 4#64)) s = { s with core := s.core.link d } := by
  cases d <;> rfl

/-- A ready transfer traps where it leaves a loop with W > 1, and otherwise ends where it leads. -/
theorem transfer_alone {s : State} {ss : List (Reg × Nat)} {d : Option Reg} (ha : Claims.Alone s)
    (hr : s.core.ready { ss := ss, ds := d.toList } = true) (taken : Bool) (x : Word) :
    s.transfer ss d.toList taken x =
      if taken && s.core.leaves x then s.trapWord 0x0C7#10
      else .next (Claims.endsAt s (s.core.link d) (if taken then x else s.core.pc + 4#64)) := by
  unfold State.transfer
  dsimp only
  rw [follows_alone ha.quiet, if_neg Bool.false_ne_true, issue_ready hr ha.mesh, putOutcome_alone ha.quiet, link_foldl,
    goto_alone (s := { s with core := s.core.link d }) (quiet_link ha.quiet d)]
  cases taken <;> rfl

/-! ## Branches and jumps are transfers -/

/-- The outcome o is that of the transfer t: its test is t's, and only a transfer that is always taken links. -/
structure State.Transfers (s : State) (t : Claims.Transfer) (o : Out) : Prop where
  names : t.names = { ss := t.names.ss, ds := t.link.toList }
  links : t.link = none ∨ t.taken
  runs : ∃ b : Bool, (b = true ↔ t.taken) ∧ o = s.transfer t.names.ss t.link.toList b t.target

theorem branch_transfers {s : State} {a : Reg} {da : Dist} {o : BitVec 16} {f : Word → Bool} {p : Word → Prop}
    {t : Claims.Transfer} (h : Claims.transfer.br s a da o p = some t) (hf : ∀ x, f x = true ↔ p x) :
    s.Transfers t (s.branch a da o f) := by
  cases h
  refine ⟨rfl, .inl rfl, _, hf _, ?_⟩
  rw [State.branch, State.offset, add_signExtend_shiftLeft]
  rfl

theorem jump_transfers {s : State} {n : Names} {d : Option Reg} {x y : Word} (hn : n = { ss := n.ss, ds := d.toList })
    (hx : x = y) :
    s.Transfers { names := n, link := d, taken := True, target := y } (s.transfer n.ss d.toList true x) :=
  ⟨hn, .inr trivial, true, iff_of_true rfl trivial, congrArg _ hx⟩

end Sys2Proof.Machine

namespace Sys2Proof.Proofs
open Sys2Proof Sys2Proof.Machine

theorem exec_transfers {s : State} {i : Instr} {t : Claims.Transfer} (h : Claims.transfer s i = some t) :
    s.Transfers t (exec i s) := by
  unfold Claims.transfer at h
  split at h
  case h_1 => exact branch_transfers (f := fun x => x == 0#64) h fun x => by rw [beq_iff_eq, ← BitVec.toInt_inj]; rfl
  case h_2 => exact branch_transfers (f := fun x => x != 0#64) h fun x => by rw [bne_iff_ne, ne_eq, ← BitVec.toInt_inj]; rfl
  case h_3 => exact branch_transfers (f := fun x => x.slt 0#64) h fun x => by simp [BitVec.slt_eq_decide]
  case h_4 => exact branch_transfers (f := fun x => !x.slt 0#64) h fun x => by simp [BitVec.slt_eq_decide]
  case h_5 => exact branch_transfers (f := fun x => (0#64).slt x) h fun x => by simp [BitVec.slt_eq_decide]
  case h_6 => exact branch_transfers (f := fun x => !(0#64).slt x) h fun x => by simp [BitVec.slt_eq_decide]
  case h_7 => exact branch_transfers (f := fun x => wbit x 0) h fun x => Iff.rfl
  case h_8 o =>
    cases h
    exact jump_transfers rfl (add_signExtend_shiftLeft s.core.pc o 2)
  case h_9 o =>
    cases h
    exact jump_transfers rfl (add_signExtend_shiftLeft s.core.pc o 2)
  case h_10 =>
    cases h
    exact jump_transfers rfl (and_not_three _)
  case h_11 =>
    cases h
    exact jump_transfers rfl (and_not_three _)
  case h_12 => cases h

/-- Settles O2: every branch and jump is a transfer, which a core that stands alone ends at once. -/
theorem controlTransfers : Obligations.ControlTransfers := by
  unfold Obligations.ControlTransfers
  intro i s t h hr ha
  obtain ⟨hnames, hlinks, b, hb, hexec⟩ := exec_transfers h
  rw [hnames] at hr
  rw [hexec, transfer_alone ha hr]
  have hleaves := leaves_iff ha.quiet.2.2.2 t.target
  refine ⟨fun hn => ?_, fun ht ho => ?_, fun ht ho => ?_⟩
  · rw [Bool.eq_false_iff.mpr (mt hb.mp hn), hlinks.resolve_right hn]
    rfl
  · rw [hb.mpr ht, hleaves.mpr ho]
    rfl
  · rw [hb.mpr ht, Bool.eq_false_iff.mpr (mt hleaves.mp ho)]
    show Host.Outcome.next (Claims.endsAt s (s.core.link t.link) t.target) = _
    unfold Claims.linked
    cases t.link <;> rfl

end Sys2Proof.Proofs
end

section
/-! SUPPORT. Integer instructions (O1): the value of each rule, and the register forms. -/

namespace Sys2Proof.Machine
open Sys2Proof

/-! ## Sums, products and quotients (R90) -/

theorem sub_eq_ofInt (x y : Word) : x - y = BitVec.ofInt 64 (x.toInt - y.toInt) := by
  rw [Int.sub_eq_add_neg, BitVec.ofInt_add, BitVec.ofInt_neg, BitVec.ofInt_toInt, BitVec.ofInt_toInt, BitVec.sub_eq_add_neg]

theorem mul_eq_ofNat (x y : Word) : x * y = BitVec.ofNat 64 (x.toNat * y.toNat) := by
  rw [BitVec.ofNat_mul, BitVec.ofNat_toNat, BitVec.ofNat_toNat, BitVec.setWidth_eq, BitVec.setWidth_eq]

theorem add_mul_eq_ofNat (z x y : Word) : z + x * y = BitVec.ofNat 64 (z.toNat + x.toNat * y.toNat) := by
  rw [BitVec.ofNat_add, ← mul_eq_ofNat, BitVec.ofNat_toNat, BitVec.setWidth_eq]

/-- The one quotient that does not fit wraps to the dividend. -/
theorem divS_eq (x y : Word) :
    divS x y =
      if y = 0#64 then 0xFFFFFFFFFFFFFFFF#64
      else if x.toInt = -2 ^ 63 ∧ y.toInt = -1 then BitVec.ofInt 64 (-2 ^ 63)
      else BitVec.ofInt 64 (x.toInt.tdiv y.toInt) := by
  unfold divS
  by_cases h : x.toInt = -2 ^ 63 ∧ y.toInt = -1
  · rw [if_pos h, h.1, h.2]
    rfl
  · rw [if_neg h]
    rfl

theorem remS_eq (x y : Word) :
    remS x y =
      if y = 0#64 then x
      else if x.toInt = -2 ^ 63 ∧ y.toInt = -1 then 0#64
      else BitVec.ofInt 64 (x.toInt - y.toInt * x.toInt.tdiv y.toInt) := by
  unfold remS
  by_cases h : x.toInt = -2 ^ 63 ∧ y.toInt = -1
  · rw [if_pos h, h.1, h.2]
    rfl
  · rw [if_neg h, Int.tmod_def]

/-! ## Shifts and rotations -/

theorem shiftLeft_eq_ofNat {n : Nat} (x : BitVec n) (k : Nat) : x <<< k = BitVec.ofNat n (x.toNat * 2 ^ k) := by
  apply BitVec.eq_of_toNat_eq
  rw [BitVec.toNat_shiftLeft, BitVec.toNat_ofNat, Nat.shiftLeft_eq]

theorem ushiftRight_eq_ofNat (x : Word) (k : Nat) : x >>> k = BitVec.ofNat 64 (x.toNat / 2 ^ k) := by
  apply BitVec.eq_of_toNat_eq
  rw [BitVec.toNat_ushiftRight, BitVec.toNat_ofNat, Nat.shiftRight_eq_div_pow,
    Nat.mod_eq_of_lt ((Nat.div_le_self _ _).trans_lt x.isLt)]

theorem sshiftRight_eq_ofInt (x : Word) (k : Nat) : x.sshiftRight k = BitVec.ofInt 64 (x.toInt / 2 ^ k) := by
  rw [BitVec.sshiftRight, Int.shiftRight_eq_div_pow, Nat.cast_pow, Nat.cast_two]

theorem rotateLeft_amount (x y : Word) :
    x.rotateLeft (amount y) = (x <<< (y.toNat % 64)) ||| (x >>> (64 - y.toNat % 64)) := by
  rw [BitVec.rotateLeft_def, amount, Nat.mod_mod]

theorem rotateRight_eq (x : Word) (n : BitVec 6) :
    x.rotateRight n.toNat = (x >>> n.toNat) ||| (x <<< (64 - n.toNat)) := by
  rw [BitVec.rotateRight_def, Nat.mod_eq_of_lt n.isLt]

/-! ## Comparisons -/

/-- Of two values that are equal where their keys are, either may stand at a tie. -/
theorem ite_le_eq_ite_lt {α β : Type} [LinearOrder β] {a b : β} [Decidable (a ≤ b)] [Decidable (a < b)] {u v : α}
    (h : a = b → u = v) : (if a ≤ b then u else v) = if a < b then u else v := by
  rcases lt_trichotomy a b with hab | hab | hab
  · rw [if_pos hab.le, if_pos hab]
  · rw [h hab, ite_self, ite_self]
  · rw [if_neg hab.not_ge, if_neg hab.not_gt]

theorem sminW_eq (x y : Word) : sminW x y = if x.toInt < y.toInt then x else y :=
  ite_le_eq_ite_lt fun h => BitVec.toInt_inj.mp h

theorem smaxW_eq (x y : Word) : smaxW x y = if x.toInt < y.toInt then y else x :=
  ite_le_eq_ite_lt fun h => (BitVec.toInt_inj.mp h).symm

theorem uminW_eq (x y : Word) : uminW x y = if x.toNat < y.toNat then x else y :=
  ite_le_eq_ite_lt fun h => BitVec.toNat_inj.mp h

theorem umaxW_eq (x y : Word) : umaxW x y = if x.toNat < y.toNat then y else x :=
  ite_le_eq_ite_lt fun h => (BitVec.toNat_inj.mp h).symm

theorem bool64_decide (p : Prop) [Decidable p] : bool64 (decide p) = if p then 1#64 else 0#64 := by
  by_cases h : p <;> simp [bool64, h]

theorem bool64_slt (x y : Word) : bool64 (x.slt y) = if x.toInt < y.toInt then 1#64 else 0#64 := bool64_decide _

theorem bool64_ult (x y : Word) : bool64 (x.ult y) = if x.toNat < y.toNat then 1#64 else 0#64 := bool64_decide _

theorem bool64_beq (x y : Word) : bool64 (x == y) = if x.toNat = y.toNat then 1#64 else 0#64 := by
  rw [← bool64_decide, beq_eq_decide, decide_eq_decide.mpr BitVec.toNat_inj.symm]

theorem bool64_slt_signExtend (x : Word) (i : BitVec 14) :
    bool64 (x.slt (i.signExtend 64)) = if x.toInt < i.toInt then 1#64 else 0#64 := by
  rw [bool64_slt, BitVec.toInt_signExtend_of_le (by decide)]

/-! ## Counts of bits -/

theorem leadingZeros_zero (n : Nat) : leadingZeros 0#64 n = n := by
  induction n with
  | zero => rfl
  | succ n ih => rw [leadingZeros, BitVec.getLsbD_zero, if_neg Bool.false_ne_true, ih, Nat.add_comm]

/-- The highest one bit below bit n and the zeros above it make up n. -/
theorem leadingZeros_add_log2 {x : Word} (h : x.toNat ≠ 0) {n : Nat} (hn : x.toNat < 2 ^ n) :
    leadingZeros x n + (x.toNat.log2 + 1) = n := by
  induction n with
  | zero => omega
  | succ n ih =>
    rw [leadingZeros]
    by_cases hbit : x.getLsbD n = true
    · have hlog : x.toNat.log2 = n := (Nat.log2_eq_iff h).mpr ⟨Nat.ge_two_pow_of_testBit hbit, hn⟩
      rw [if_pos hbit, hlog, Nat.zero_add]
    · have hlt : x.toNat < 2 ^ n := by
        refine Nat.lt_pow_two_of_testBit _ fun i hi => ?_
        rcases hi.eq_or_lt with rfl | hi
        · exact Bool.eq_false_iff.mpr hbit
        · exact Nat.testBit_lt_two_pow (hn.trans_le (Nat.pow_le_pow_right (by decide) hi))
      rw [if_neg hbit, Nat.add_assoc, ih hlt, Nat.add_comm]

theorem leadingZeros_eq (x : Word) :
    BitVec.ofNat 64 (leadingZeros x 64) = if x = 0#64 then 64#64 else BitVec.ofNat 64 (63 - x.toNat.log2) := by
  by_cases h : x = 0#64
  · rw [if_pos h, h, leadingZeros_zero]
  · have hsum := leadingZeros_add_log2 (fun h0 => h (BitVec.eq_of_toNat_eq h0)) x.isLt
    rw [if_neg h, show leadingZeros x 64 = 63 - x.toNat.log2 by omega]

/-- The trailing zeros from bit 64 - n on end at the lowest one bit there, or at bit 64. -/
theorem find?_add_trailingZeros (x : Word) {n : Nat} (hn : n ≤ 64) :
    ((List.range' (64 - n) n).find? fun i => x.getLsbD i).getD 64 = 64 - n + trailingZeros x n := by
  induction n with
  | zero => rfl
  | succ n ih =>
    have hstart : 64 - (n + 1) = 63 - n := by omega
    have hnext : 63 - n + 1 = 64 - n := by omega
    rw [hstart, List.range'_succ, List.find?_cons, trailingZeros, hnext]
    cases x.getLsbD (63 - n) with
    | true => rfl
    | false =>
      dsimp only
      rw [ih (by omega), if_neg Bool.false_ne_true]
      omega

theorem trailingZeros_eq (x : Word) :
    trailingZeros x 64 = ((List.range 64).find? fun i => x.getLsbD i).getD 64 := by
  rw [List.range_eq_range']
  exact ((find?_add_trailingZeros x le_rfl).trans (Nat.zero_add _)).symm

theorem popCount_eq (x : Word) (n : Nat) : popCount x.toNat n = ((List.range n).filter fun i => x.getLsbD i).length := by
  induction n with
  | zero => rfl
  | succ n ih =>
    rw [popCount, ih, List.range_succ, List.filter_append, List.length_append, List.filter_singleton]
    show _ + (if x.getLsbD n = true then 1 else 0) = _
    cases x.getLsbD n <;> rfl

/-! ## Fields (R91, R95) -/

theorem sextTo_eq (n : Nat) (x : Word) : sextTo x.toNat n = Claims.sext n x := by
  rw [sextTo, BitVec.ofNat_toNat]
  rfl

/-- The mask of a field is its ones, shifted. -/
theorem wput_eq (z : Word) (lo len v : Nat) :
    wput z lo len v =
      (z &&& ~~~BitVec.ofNat 64 ((2 ^ len - 1) <<< lo)) ||| BitVec.ofNat 64 ((v % 2 ^ len) <<< lo) := by
  rw [wput, Nat.shiftLeft_eq, Nat.shiftLeft_eq]

/-- The bits of x under the mask of a field are its low bits, shifted. -/
theorem shiftLeft_and_mask (x : Word) (lo len : Nat) :
    (x <<< lo) &&& BitVec.ofNat 64 ((2 ^ len - 1) <<< lo) = BitVec.ofNat 64 ((x.toNat % 2 ^ len) <<< lo) := by
  rw [← Nat.and_two_pow_sub_one_eq_mod, Nat.shiftLeft_and_distrib, BitVec.ofNat_and, shiftLeft_eq_ofNat x,
    ← Nat.shiftLeft_eq]

theorem bfExtract_eq (x y : Word) :
    bfExtract x y = BitVec.ofNat 64 ((x.toNat >>> Claims.intResult.place y) % 2 ^ Claims.intResult.len y) := by
  rw [Nat.shiftRight_eq_div_pow]
  rfl

theorem bfInsert_eq (z x y : Word) :
    bfInsert z x y =
      (z &&& ~~~BitVec.ofNat 64 ((2 ^ Claims.intResult.len y - 1) <<< Claims.intResult.place y)) |||
        ((x <<< Claims.intResult.place y) &&&
          BitVec.ofNat 64 ((2 ^ Claims.intResult.len y - 1) <<< Claims.intResult.place y)) := by
  rw [shiftLeft_and_mask, ← wput_eq]
  rfl

theorem wput_half (z : Word) (k : Nat) (i : BitVec 16) :
    wput z k 16 i.toNat = (z &&& ~~~(0xFFFF#64 <<< k)) ||| (i.zeroExtend 64 <<< k) := by
  have hi : (i.zeroExtend 64).toNat = i.toNat := BitVec.toNat_setWidth_of_le (by decide)
  rw [wput, Nat.mod_eq_of_lt i.isLt, shiftLeft_eq_ofNat, shiftLeft_eq_ofNat (i.zeroExtend 64), hi]
  rfl

theorem zeroExtend_shiftLeft (i : BitVec 16) (k : Nat) : i.zeroExtend 64 <<< k = BitVec.ofNat 64 (i.toNat * 2 ^ k) := by
  rw [shiftLeft_eq_ofNat, BitVec.toNat_setWidth_of_le (by decide)]

theorem add_signExtend (x : Word) {n : Nat} (i : BitVec n) :
    x + i.signExtend 64 = BitVec.ofInt 64 (x.toInt + i.toInt) := by
  rw [BitVec.ofInt_add, BitVec.ofInt_toInt, BitVec.signExtend]

/-! ## The register forms -/

/-- The outcome o is that of an instruction with the names n that writes v to d. -/
def State.Writes (s : State) (n : Names) (d : Reg) (v : Word) (o : Out) : Prop :=
  o = s.issue n (.next (s.setS d v).advance)

section Forms
variable {s : State} {n : Names} {d d' a b : Reg} {da db : Dist} {v : Word}

theorem form1_writes {f g : Word → Word} (h : Claims.intResult.one s d a da g = some (n, d', v)) (hf : ∀ x, f x = g x) :
    s.Writes n d' v (s.form1 d a da.toNat f) := by
  cases h
  rw [funext hf]
  rfl

theorem form2_writes {f g : Word → Word → Word} (h : Claims.intResult.two s d a da b db g = some (n, d', v))
    (hf : ∀ x y, f x y = g x y) : s.Writes n d' v (s.form2 d a da.toNat b db.toNat f) := by
  cases h
  rw [funext fun x => funext (hf x)]
  rfl

theorem form3_writes {f g : Word → Word → Word → Word} (h : Claims.intResult.three s d a da b db g = some (n, d', v))
    (hf : ∀ z x y, f z x y = g z x y) : s.Writes n d' v (s.form3 d a da.toNat b db.toNat f) := by
  cases h
  rw [funext fun z => funext fun x => funext (hf z x)]
  rfl

theorem form0_writes (d : Reg) {x y : Word} (hx : x = y) : s.Writes (Claims.reads [] d) d y (s.form0 d x) := by
  rw [hx]
  rfl

/-- All that such an instruction can do in a core that stands alone. -/
theorem writes_cases {o : Out} (h : s.Writes n d v o) :
    (s.core.distsOk n = false → o = s.trapWord 0x080#10) ∧
      (s.core.distsOk n = true → s.core.writesOk n = false → o = s.trapWord 0x0C0#10) ∧
      (s.core.ready n = true → Claims.Alone s → o = .next (Claims.ends s (s.core.writeS d v))) := by
  unfold State.Writes at h
  rw [h]
  refine ⟨fun hd => ?_, fun hd hw => ?_, fun hr ha => ?_⟩
  · simp [State.issue, hd]
  · simp [State.issue, hd, hw]
  · rw [issue_ready hr ha.mesh, advance_alone (s := s.setS d v) (quiet_writeS ha.quiet d v)]
    simp [Claims.ends, Claims.endsAt]

end Forms

end Sys2Proof.Machine

namespace Sys2Proof.Proofs
open Sys2Proof Sys2Proof.Machine

/-- Each integer instruction is a register form with the value of its rule. -/
theorem exec_intResult {s : State} {i : Instr} {n : Names} {d : Reg} {v : Word}
    (h : Claims.intResult s i = some (n, d, v)) : s.Writes n d v (exec i s) := by
  unfold Claims.intResult at h
  split at h
  case h_1 => exact form2_writes (f := fun x y => x + y) h BitVec.add_def
  case h_2 => exact form2_writes (f := fun x y => x - y) h sub_eq_ofInt
  case h_3 => exact form2_writes (f := fun x y => x * y) h mul_eq_ofNat
  case h_4 => exact form2_writes (f := mulhS) h fun _ _ => rfl
  case h_5 => exact form2_writes (f := mulhU) h fun _ _ => rfl
  case h_6 => exact form3_writes (f := fun z x y => z + x * y) h add_mul_eq_ofNat
  case h_7 => exact form2_writes (f := divS) h divS_eq
  case h_8 => exact form2_writes (f := remS) h remS_eq
  case h_9 => exact form2_writes (f := divU) h fun _ _ => rfl
  case h_10 => exact form2_writes (f := remU) h fun _ _ => rfl
  case h_11 => exact form2_writes (f := fun x y => x &&& y) h fun _ _ => rfl
  case h_12 => exact form2_writes (f := fun x y => x ||| y) h fun _ _ => rfl
  case h_13 => exact form2_writes (f := fun x y => x ^^^ y) h fun _ _ => rfl
  case h_14 => exact form2_writes (f := fun x y => x &&& ~~~y) h fun _ _ => rfl
  case h_15 =>
    exact form2_writes (f := fun x y => x <<< amount y) h fun x y => shiftLeft_eq_ofNat x (amount y)
  case h_16 =>
    exact form2_writes (f := fun x y => x >>> amount y) h fun x y => ushiftRight_eq_ofNat x (amount y)
  case h_17 =>
    exact form2_writes (f := fun x y => x.sshiftRight (amount y)) h fun x y => sshiftRight_eq_ofInt x (amount y)
  case h_18 => exact form2_writes (f := fun x y => x.rotateLeft (amount y)) h rotateLeft_amount
  case h_19 => exact form2_writes (f := sminW) h sminW_eq
  case h_20 => exact form2_writes (f := smaxW) h smaxW_eq
  case h_21 => exact form2_writes (f := uminW) h uminW_eq
  case h_22 => exact form2_writes (f := umaxW) h umaxW_eq
  case h_23 => exact form2_writes (f := fun x y => bool64 (x.slt y)) h bool64_slt
  case h_24 => exact form2_writes (f := fun x y => bool64 (x.ult y)) h bool64_ult
  case h_25 => exact form2_writes (f := fun x y => bool64 (x == y)) h bool64_beq
  case h_26 => exact form1_writes (f := fun x => BitVec.ofNat 64 (leadingZeros x 64)) h leadingZeros_eq
  case h_27 =>
    exact form1_writes (f := fun x => BitVec.ofNat 64 (trailingZeros x 64)) h fun x =>
      congrArg (BitVec.ofNat 64) (trailingZeros_eq x)
  case h_28 =>
    exact form1_writes (f := fun x => BitVec.ofNat 64 (popCount x.toNat 64)) h fun x =>
      congrArg (BitVec.ofNat 64) (popCount_eq x 64)
  case h_29 => exact form1_writes (f := fun x => sextTo x.toNat 8) h (sextTo_eq 8)
  case h_30 => exact form1_writes (f := fun x => sextTo x.toNat 16) h (sextTo_eq 16)
  case h_31 => exact form1_writes (f := fun x => sextTo x.toNat 32) h (sextTo_eq 32)
  case h_32 => exact form2_writes (f := bfExtract) h bfExtract_eq
  case h_33 => exact form3_writes (f := bfInsert) h bfInsert_eq
  case h_34 =>
    exact form3_writes (f := fun z x y => if z = 0#64 then y else x) h fun z x y => (ite_not (z = 0#64) x y).symm
  case h_35 => exact form2_writes (f := fun x y => sextTo (x + y).toNat 32) h fun x y => sextTo_eq 32 (x + y)
  case h_36 => exact form2_writes (f := fun x y => sextTo (x - y).toNat 32) h fun x y => sextTo_eq 32 (x - y)
  case h_37 i => exact form1_writes (f := fun x => x + i.signExtend 64) h fun x => add_signExtend x i
  case h_38 i => exact form1_writes (f := fun x => x &&& i.signExtend 64) h fun _ => rfl
  case h_39 i => exact form1_writes (f := fun x => x ||| i.signExtend 64) h fun _ => rfl
  case h_40 i => exact form1_writes (f := fun x => x ^^^ i.signExtend 64) h fun _ => rfl
  case h_41 i =>
    exact form1_writes (f := fun x => bool64 (x.slt (i.signExtend 64))) h fun x => bool64_slt_signExtend x i
  case h_42 i => exact form1_writes (f := fun x => bool64 (x.ult (i.signExtend 64))) h fun x => bool64_ult x _
  case h_43 n => exact form1_writes (f := fun x => x <<< n.toNat) h fun x => shiftLeft_eq_ofNat x _
  case h_44 n => exact form1_writes (f := fun x => x >>> n.toNat) h fun x => ushiftRight_eq_ofNat x _
  case h_45 n => exact form1_writes (f := fun x => x.sshiftRight n.toNat) h fun x => sshiftRight_eq_ofInt x _
  case h_46 n => exact form1_writes (f := fun x => x.rotateRight n.toNat) h fun x => rotateRight_eq x n
  case h_47 d i =>
    cases h
    exact form0_writes d (ofInt_shiftLeft i.toInt 14)
  case h_48 d i =>
    cases h
    exact form0_writes d (add_signExtend_shiftLeft s.core.pc i 2)
  case h_49 d p z i =>
    show s.Writes _ _ _ (execInsi d p z i s)
    unfold execInsi
    split at h <;> rename_i hz <;> cases h
    · rw [if_pos hz]
      exact form0_writes d (zeroExtend_shiftLeft i _)
    · rw [if_neg hz]
      exact form1_writes (da := 0#2) rfl fun x => wput_half x _ i
  case h_50 => cases h

/-- Settles O1: each integer instruction is a register form, with the value of its rule for every operand value. -/
theorem integerResults : Obligations.IntegerResults := by
  unfold Obligations.IntegerResults
  intro i s n d v h
  exact writes_cases (exec_intResult h)

end Sys2Proof.Proofs
end

section
/-! SUPPORT. The one rounding (O13): what it does in each mode, by the quotient and the remainder of the shift. -/

namespace Sys2Proof.Machine
open Sys2Proof

section Rounding
variable {rm m k : Nat} {neg : Bool}

theorem roundShift_inexact : (roundShift rm neg m k).2 = true ↔ m % 2 ^ k ≠ 0 := decide_eq_true_iff

/-- No mode moves a quotient that is exact. -/
theorem roundShift_exact (h : m % 2 ^ k = 0) : (roundShift rm neg m k).1 = m / 2 ^ k := by
  have hpos : 0 < 2 ^ k := Nat.two_pow_pos k
  simp [roundShift, h, hpos.ne]

theorem roundShift_nearest :
    (roundShift 0 neg m k).1 =
      if 2 ^ k < 2 * (m % 2 ^ k) ∨ 2 * (m % 2 ^ k) = 2 ^ k ∧ m / 2 ^ k % 2 = 1 then m / 2 ^ k + 1 else m / 2 ^ k := by
  simp [roundShift]

theorem roundShift_towardZero : (roundShift 1 neg m k).1 = m / 2 ^ k := by simp [roundShift]

/-- Upward, a magnitude that is not exact grows when it is positive. -/
theorem roundShift_up :
    (roundShift 2 neg m k).1 = if m % 2 ^ k ≠ 0 ∧ neg = false then m / 2 ^ k + 1 else m / 2 ^ k := by
  simp [roundShift]

/-- Downward, it grows when it is negative. -/
theorem roundShift_down :
    (roundShift 3 neg m k).1 = if m % 2 ^ k ≠ 0 ∧ neg = true then m / 2 ^ k + 1 else m / 2 ^ k := by
  simp [roundShift]

/-- A quotient is even when it lies as near to the value as its successor. -/
theorem roundShift_tie_even (h : 2 * (m % 2 ^ k) = 2 ^ k) : (roundShift 0 neg m k).1 % 2 = 0 := by
  rw [roundShift_nearest]
  split <;> omega

end Rounding

/-! ## The multiples of p about m -/

/-- The least multiple of p that is not below m. -/
theorem ceil_mul_bounds (m : Nat) {p : Nat} (hp : 0 < p) :
    (if m % p ≠ 0 then m / p + 1 else m / p) * p < m + p ∧ m ≤ (if m % p ≠ 0 then m / p + 1 else m / p) * p := by
  have hdiv := Nat.div_add_mod' m p
  split
  · rw [Nat.add_mul]
    have := Nat.mod_lt m hp
    omega
  · omega

theorem roundShift_nearest_bounds (neg : Bool) (m k : Nat) :
    2 * m ≤ 2 * ((roundShift 0 neg m k).1 * 2 ^ k) + 2 ^ k ∧ 2 * ((roundShift 0 neg m k).1 * 2 ^ k) ≤ 2 * m + 2 ^ k := by
  have hdiv := Nat.div_add_mod' m (2 ^ k)
  have hmod := Nat.mod_lt m (Nat.two_pow_pos k)
  rw [roundShift_nearest]
  split
  · rw [Nat.add_mul]
    omega
  · omega

end Sys2Proof.Machine

namespace Sys2Proof.Proofs
open Sys2Proof Sys2Proof.Machine

/-- Settles O13: each mode takes the quotient of the shift or its successor, as the remainder and the sign say. -/
theorem oneRounding : Obligations.OneRounding := by
  unfold Obligations.OneRounding
  intro neg m k
  have hpos := Nat.two_pow_pos k
  dsimp only
  refine ⟨fun rm => roundShift_inexact, fun rm h => ?_, roundShift_nearest_bounds neg m k, roundShift_tie_even, ?_,
    fun hn => ?_, fun hn => ?_⟩
  · rw [roundShift_exact h, Nat.div_mul_cancel (Nat.dvd_of_mod_eq_zero h)]
  · rw [roundShift_towardZero]
    exact ⟨Nat.div_mul_le_self m _, by rw [Nat.mul_comm]; exact Nat.lt_mul_div_succ m hpos⟩
  · subst hn
    simpa only [roundShift_up, roundShift_down, roundShift_towardZero, and_true, Bool.false_eq_true, and_false, if_false]
      using ceil_mul_bounds m hpos
  · subst hn
    simpa only [roundShift_up, roundShift_down, roundShift_towardZero, and_true, Bool.true_eq_false, and_false, if_false]
      using ceil_mul_bounds m hpos

end Sys2Proof.Proofs
end

section
/-! SUPPORT. Verified tables (O28): the order of finite values is that of the rationals they stand for, so the walk of TABCHK,
which compares neighbours, orders them all. -/

namespace Sys2Proof.Machine
open Sys2Proof

/-! ## Finite values as rationals -/

/-- The rational that m * 2^e with a sign stands for. -/
def finRat (neg : Bool) (m : Nat) (e : Int) : ℚ := (if neg then -(m : ℚ) else m) * 2 ^ e

/-- At a scale that is not above its own, a value is an integer. -/
theorem alignTo_mul_zpow (neg : Bool) (m : Nat) {e e0 : Int} (h : e0 ≤ e) :
    (alignTo neg m e e0 : ℚ) * 2 ^ e0 = finRat neg m e := by
  obtain ⟨n, rfl⟩ : ∃ n : ℕ, e = e0 + n := ⟨(e - e0).toNat, by omega⟩
  have hn : (e0 + (n : Int) - e0).toNat = n := by omega
  rw [alignTo, finRat, hn, zpow_add₀ (by norm_num : (2 : ℚ) ≠ 0), zpow_natCast]
  cases neg
  · simp only [Bool.false_eq_true, if_false]
    push_cast
    ring
  · simp only [if_true]
    push_cast
    ring

theorem lt_fin_iff (a b : Bool) (m n : Nat) (e f : Int) :
    (Fl.fin a m e).lt (.fin b n f) = true ↔ finRat a m e < finRat b n f := by
  have hpos : (0 : ℚ) < 2 ^ min e f := zpow_pos (by norm_num) _
  rw [← alignTo_mul_zpow a m (min_le_left e f), ← alignTo_mul_zpow b n (min_le_right e f), mul_lt_mul_iff_left₀ hpos,
    Int.cast_lt]
  exact decide_eq_true_iff

/-- The rational of a finite value; 0 for the others. -/
def Fl.toRat : Fl → ℚ
  | .fin a m e => finRat a m e
  | _ => 0

/-- A value that is neither an infinity nor NaN. -/
def Fl.isFin : Fl → Bool
  | .fin _ _ _ => true
  | _ => false

theorem lt_iff_toRat {x y : Fl} (hx : x.isFin = true) (hy : y.isFin = true) : x.lt y = true ↔ x.toRat < y.toRat := by
  cases x <;> cases y <;> simp only [Fl.isFin, Bool.false_eq_true] at hx hy
  exact lt_fin_iff ..

theorem lt_trans_fin {x y z : Fl} (hx : x.isFin = true) (hy : y.isFin = true) (hz : z.isFin = true)
    (hxy : x.lt y = true) (hyz : y.lt z = true) : x.lt z = true := by
  rw [lt_iff_toRat] at *
  · exact hxy.trans hyz
  all_goals assumption

theorem entryVal_isFin {e : Word32} (h : entryClass e = 0) : (entryVal e).isFin = true := by
  rw [entryVal, if_pos h, e8m10]
  split <;> rfl

/-! ## The walk of TABCHK (R127) -/

section Walk
variable {t : DecTab} {w w' : Walked} {c : Nat}

/-- The walk passes a finite entry only above the last one, which it then is. -/
theorem checkCode_finite (hc : entryClass (t.entry c) = 0) (h : t.checkCode w c = .ok w') :
    w'.last = some (entryVal (t.entry c)) ∧ ∀ x, w.last = some x → x.lt (entryVal (t.entry c)) = true := by
  unfold DecTab.checkCode at h
  simp only [hc, if_true] at h
  split at h
  · cases h
  split at h
  · cases h
  obtain ⟨-, herr⟩ | ⟨hlast, hok⟩ := ite_eq_iff.mp h
  · cases herr
  · cases hok
    refine ⟨rfl, fun x hx => ?_⟩
    simpa [hx] using hlast

/-- An entry that is not finite leaves the last finite value. -/
theorem checkCode_not_finite (hc : entryClass (t.entry c) ≠ 0) (h : t.checkCode w c = .ok w') : w'.last = w.last := by
  unfold DecTab.checkCode at h
  simp only [hc, if_false] at h
  split at h
  · cases h
  repeat' split at h
  all_goals cases h <;> rfl

end Walk

/-- Code a stands before code b: the value of a is below that of b. -/
def DecTab.below (t : DecTab) (a b : Nat) : Prop := (entryVal (t.entry a)).lt (entryVal (t.entry b)) = true

/-- A walk that ends well has met finite values that rise strictly, from the last one before it. -/
theorem checkAll_rises (t : DecTab) (l : List Nat) : ∀ w : Walked, t.checkAll w l = none →
    (∀ x, w.last = some x → x.isFin = true) →
    (∀ x, w.last = some x → ∀ b ∈ l, entryClass (t.entry b) = 0 → x.lt (entryVal (t.entry b)) = true) ∧
      (l.filter fun c => decide (entryClass (t.entry c) = 0)).Pairwise t.below := by
  induction l with
  | nil => exact fun w _ _ => ⟨fun _ _ _ hb => absurd hb List.not_mem_nil, .nil⟩
  | cons c l ih =>
    intro w hcheck hfin
    rw [DecTab.checkAll] at hcheck
    split at hcheck
    · cases hcheck
    case h_2 w' hcode =>
    by_cases hc : entryClass (t.entry c) = 0
    · have hcfin := entryVal_isFin hc
      obtain ⟨hlast, hbelow⟩ := checkCode_finite hc hcode
      obtain ⟨hrest, hpair⟩ := ih w' hcheck (by rw [hlast]; rintro x ⟨⟩; exact hcfin)
      replace hrest := hrest _ hlast
      refine ⟨fun x hx b hb hb0 => ?_, ?_⟩
      · rcases List.mem_cons.mp hb with rfl | hb
        · exact hbelow x hx
        · exact lt_trans_fin (hfin x hx) hcfin (entryVal_isFin hb0) (hbelow x hx) (hrest b hb hb0)
      · rw [List.filter_cons_of_pos (by simpa using hc), List.pairwise_cons]
        exact ⟨fun b hb => hrest b (List.mem_filter.mp hb).1 (by simpa using (List.mem_filter.mp hb).2), hpair⟩
    · have hlast := checkCode_not_finite hc hcode
      obtain ⟨hrest, hpair⟩ := ih w' hcheck (hlast ▸ hfin)
      refine ⟨fun x hx b hb hb0 => ?_, ?_⟩
      · rcases List.mem_cons.mp hb with rfl | hb
        · exact absurd hb0 hc
        · exact hrest x (hlast.trans hx) b hb hb0
      · rwa [List.filter_cons_of_neg (by simpa using hc)]

end Sys2Proof.Machine

namespace Sys2Proof.Proofs
open Sys2Proof Sys2Proof.Machine

/-- Settles O28: the check is a walk that begins with no finite value met. -/
theorem verifiedTablesRise : Obligations.VerifiedTablesRise := by
  unfold Obligations.VerifiedTablesRise
  intro t h
  exact (checkAll_rises t t.order {} h nofun).2

end Sys2Proof.Proofs
end

section
/-! SUPPORT. Images in the own scratchpad: the pieces of a block there cover it in order, and its read gives the bytes of
memory and changes nothing. -/

namespace Sys2Proof.Machine
open Sys2Proof

/-! ## Pieces that cover a block -/

/-- The pieces cover, in order, n bytes of the scratchpad of core c from offset a. -/
def Covers (c : CoreId) : Nat → Nat → List Piece → Prop
  | _, n, [] => n = 0
  | a, n, p :: ps => p.place = .scratch c ∧ p.addr = a ∧ p.len ≤ n ∧ Covers c (a + p.len) (n - p.len) ps

theorem covers_append {c : CoreId} {l l' : List Piece} {a n m : Nat} (h : Covers c a n l) (h' : Covers c (a + n) m l') :
    Covers c a (n + m) (l ++ l') := by
  induction l generalizing a n with
  | nil =>
    obtain rfl : n = 0 := h
    rwa [Nat.zero_add]
  | cons p ps ih =>
    obtain ⟨hplace, haddr, hlen, hps⟩ := h
    refine ⟨hplace, haddr, by omega, ?_⟩
    rw [show n + m - p.len = n - p.len + m by omega]
    exact ih hps (by rwa [show a + p.len + (n - p.len) = a + n by omega])

theorem covers_mem {c : CoreId} {l : List Piece} {a n : Nat} (h : Covers c a n l) {p : Piece} (hp : p ∈ l) :
    p.place = .scratch c ∧ a ≤ p.addr ∧ p.addr + p.len ≤ a + n := by
  induction l generalizing a n with
  | nil => exact absurd hp List.not_mem_nil
  | cons q ps ih =>
    obtain ⟨hplace, haddr, hlen, hps⟩ := h
    rcases List.mem_cons.mp hp with rfl | hp
    · exact ⟨hplace, by omega, by omega⟩
    · obtain ⟨hplace', hlo, hhi⟩ := ih hps hp
      exact ⟨hplace', by omega, by omega⟩

/-- Two pieces of a cover that are joined cover the same bytes. -/
theorem covers_join {c : CoreId} {p q : Piece} {u : List Piece} {a n : Nat} (h : Covers c a n (p :: q :: u)) :
    Covers c a n ({ p with len := p.len + q.len } :: u) := by
  obtain ⟨hplace, haddr, hlen, -, -, hlen', hu⟩ := h
  refine ⟨hplace, haddr, by dsimp only; omega, ?_⟩
  dsimp only
  rwa [← Nat.add_assoc, ← Nat.sub_sub]

theorem covers_coalesce {c : CoreId} {l : List Piece} {a n : Nat} (h : Covers c a n l) : Covers c a n (coalesce l) := by
  induction l generalizing a n with
  | nil => exact h
  | cons p t ih =>
    obtain ⟨hplace, haddr, hlen, ht⟩ := h
    have hrest := ih ht
    rw [coalesce]
    split
    case h_1 q u hq =>
      rw [hq] at hrest
      have hboth : Covers c a n (p :: q :: u) := ⟨hplace, haddr, hlen, hrest⟩
      split
      · exact covers_join hboth
      · exact hboth
    case h_2 hq =>
      rw [hq] at hrest
      exact ⟨hplace, haddr, hlen, hrest⟩

/-! ## The plan of a block in the own scratchpad -/

section Plan
variable {s : State} {va n : Nat} (acc : Access)

/-- A place in the own aperture translates to itself for every kind of access. -/
theorem translate_own_any (ha : va / 2 ^ 56 = 15) (hs : va % 2 ^ 56 < s.core.scratchSize) (hr : va % 2 ^ 56 < 2 ^ 19) :
    s.translate acc va = .ok (.scratch s.cur) (va % 2 ^ 56) 0#64 := by
  have hmesh : s.core.meshAccess s.cur acc va = false := by
    rw [Core.meshAccess, decide_eq_true ha, decide_eq_true hr]
    simp
  unfold State.translate State.aperture
  rw [if_neg (by omega), hmesh, if_neg Bool.false_ne_true, if_pos (by omega)]
  dsimp only
  rw [if_neg (by omega), if_pos hr, getCore_cur, if_neg (by omega)]

theorem planPart_own {off len : Nat} (base : Nat) (ha : va / 2 ^ 56 = 15) (hlen : 0 < len)
    (hs : va % 2 ^ 56 + (off + len) ≤ s.core.scratchSize) (hr : va % 2 ^ 56 + (off + len) ≤ 2 ^ 19) :
    s.planPart acc va base off len =
      .go [{ off := base + off, len := len, va := va + off, place := .scratch s.cur, addr := va % 2 ^ 56 + off,
             pte := 0#64 }] := by
  have hoff : (va + off) % 2 ^ 56 = va % 2 ^ 56 + off := by omega
  rw [State.planPart, translate_own_any acc (va := va + off) (by omega) (by omega) (by omega), hoff]

/-- One access is one part or two. -/
theorem planOne_own (base : Nat) (ha : va / 2 ^ 56 = 15) (hn : 0 < n) (hs : va % 2 ^ 56 + n ≤ s.core.scratchSize)
    (hr : va % 2 ^ 56 + n ≤ 2 ^ 19) :
    ∃ l, s.planOne acc (va, n, base) = .go l ∧ Covers s.cur (va % 2 ^ 56) n l := by
  unfold State.planOne splitAccess
  dsimp only
  rw [if_pos (by omega : 14 ≤ va / 2 ^ 56)]
  split
  · rw [List.foldl_cons, List.foldl_nil, planPart_own acc base ha hn (by omega) (by omega)]
    exact ⟨_, rfl, rfl, rfl, le_rfl, Nat.sub_self n⟩
  case isFalse hroom =>
    obtain ⟨room, hroomEq⟩ : ∃ room, room = 65536 - va % 65536 := ⟨_, rfl⟩
    rw [← hroomEq] at hroom ⊢
    rw [List.foldl_cons, List.foldl_cons, List.foldl_nil,
      planPart_own acc base ha (len := room) (by omega) (by omega) (by omega),
      planPart_own acc base ha (len := n - room) (by omega) (by omega) (by omega)]
    have hcovers : Covers s.cur (va % 2 ^ 56) n
        [{ off := base + 0, len := room, va := va + 0, place := .scratch s.cur, addr := va % 2 ^ 56 + 0, pte := 0#64 },
          { off := base + room, len := n - room, va := va + room, place := .scratch s.cur, addr := va % 2 ^ 56 + room,
            pte := 0#64 }] :=
      ⟨rfl, rfl, by dsimp only; omega, rfl, rfl, le_rfl, Nat.sub_self _⟩
    show ∃ l, Plan.seal (.go [_, _]) = .go l ∧ _
    rw [Plan.seal]
    split
    · exact ⟨_, rfl, covers_join hcovers⟩
    · exact ⟨_, rfl, hcovers⟩

theorem plan_own (ha : va / 2 ^ 56 = 15) (hs : va % 2 ^ 56 + n ≤ s.core.scratchSize) (hr : va % 2 ^ 56 + n ≤ 2 ^ 19) :
    ∃ l, s.plan acc (blockAccesses va n) = .go l ∧ Covers s.cur (va % 2 ^ 56) n l := by
  have hprefix (m : Nat) : 128 * m < n + 128 →
      ∃ l, s.plan acc ((List.range m).map fun i => (va + 128 * i, min 128 (n - 128 * i), 128 * i)) = .go l ∧
        Covers s.cur (va % 2 ^ 56) (min (128 * m) n) l := by
    induction m with
    | zero => exact fun _ => ⟨[], rfl, Nat.zero_min n⟩
    | succ m ih =>
      intro hm
      obtain ⟨l, hplan, hl⟩ := ih (by omega)
      obtain ⟨l', hone, hl'⟩ := planOne_own (s := s) (va := va + 128 * m) (n := min 128 (n - 128 * m)) acc (128 * m)
        (by omega) (by omega) (by omega) (by omega)
      refine ⟨l ++ l', ?_, ?_⟩
      · unfold State.plan at hplan ⊢
        rw [List.range_succ, List.map_append, List.foldl_append, hplan, List.map_singleton, List.foldl_cons, List.foldl_nil,
          hone]
        rfl
      · rw [show min (128 * (m + 1)) n = min (128 * m) n + min 128 (n - 128 * m) by omega]
        refine covers_append hl ?_
        rwa [show va % 2 ^ 56 + min (128 * m) n = (va + 128 * m) % 2 ^ 56 by omega]
  obtain ⟨l, hplan, hl⟩ := hprefix ((n + 127) / 128) (by omega)
  exact ⟨l, hplan, by rwa [show min (128 * ((n + 127) / 128)) n = n by omega] at hl⟩

end Plan

/-! ## The bytes of a block -/

theorem memReadBytes_add (m : List Host.Cell) (a n k : Nat) :
    memReadBytes m a (n + k) = memReadBytes m a n ++ memReadBytes m (a + n) k := by
  simp [memReadBytes, List.range_add, Function.comp_def, Nat.add_assoc]

theorem memReadBytes_length (m : List Host.Cell) (a n : Nat) : (memReadBytes m a n).length = n := by
  simp [memReadBytes]

theorem memReadBytes_getD (m : List Host.Cell) (a : Nat) {n i : Nat} (h : i < n) :
    (memReadBytes m a n).getD i 0#8 = memByte m (a + i) := by
  simp [memReadBytes, List.getD_eq_getElem?_getD, h]

theorem take_drop_memReadBytes (m : List Host.Cell) (a : Nat) {n i k : Nat} (h : i + k ≤ n) :
    ((memReadBytes m a n).drop i).take k = memReadBytes m (a + i) k := by
  obtain ⟨r, rfl⟩ := Nat.exists_eq_add_of_le h
  rw [Nat.add_assoc, memReadBytes_add, List.drop_left' (memReadBytes_length m a i), memReadBytes_add,
    List.take_left' (memReadBytes_length ..)]

theorem bytesNat_memReadBytes (m : List Host.Cell) (a n : Nat) : bytesNat (memReadBytes m a n) = memRead m a n := by
  induction n generalizing a with
  | zero => rfl
  | succ n ih =>
    rw [Nat.add_comm n 1, memReadBytes_add, Nat.add_comm 1 n, memRead, ← ih]
    rfl

theorem imgNat_memReadBytes (m : List Host.Cell) (a : Nat) {n i k : Nat} (h : i + k ≤ n) :
    imgNat (memReadBytes m a n) i k = memRead m (a + i) k := by
  rw [imgNat, take_drop_memReadBytes m a h, bytesNat_memReadBytes]

theorem scratchKey_add (c : CoreId) (a n : Nat) : scratchKey c (a + n) = scratchKey c a + n := (Nat.add_assoc ..).symm

section Bytes
variable {s : State}

/-- With no store buffered, a byte of the own scratchpad is that of memory. -/
theorem localByte_own (hb : s.core.sbuf = []) (useL1 : Bool) (a : Nat) :
    s.localByte useL1 (.scratch s.cur) a = some (memByte s.mem (scratchKey s.cur a)).toNat := by
  have hforward : s.core.forward (.scratch s.cur) a = (0, 0) := by simp [Core.forward, hb]
  have hmask : (memByte s.mem (scratchKey s.cur a)).toNat &&& 255 = (memByte s.mem (scratchKey s.cur a)).toNat := by
    rw [show 255 = 2 ^ 8 - 1 by rfl, Nat.and_two_pow_sub_one_eq_mod, Nat.mod_eq_of_lt (BitVec.isLt _)]
  simp [State.localByte, State.localBits, State.heldByte, hforward, hmask]

theorem pieceBytes_own (hb : s.core.sbuf = []) (lines : Bool) {p : Piece} (hp : p.place = .scratch s.cur) :
    s.pieceBytes lines p = memReadBytes s.mem (scratchKey s.cur p.addr) p.len := by
  unfold State.pieceBytes
  cases lines with
  | false => rw [hp]; rfl
  | true =>
    simp only [hp, localByte_own hb, Bool.not_true, Bool.false_eq_true, if_false, BitVec.ofNat_toNat, BitVec.setWidth_eq]
    simp only [memReadBytes, scratchKey_add]

theorem flatMap_pieceBytes_own (hb : s.core.sbuf = []) (lines : Bool) {l : List Piece} {a n : Nat}
    (h : Covers s.cur a n l) : l.flatMap (s.pieceBytes lines) = memReadBytes s.mem (scratchKey s.cur a) n := by
  induction l generalizing a n with
  | nil =>
    obtain rfl : n = 0 := h
    rfl
  | cons p ps ih =>
    obtain ⟨hplace, rfl, hlen, hps⟩ := h
    obtain ⟨k, rfl⟩ := Nat.exists_eq_add_of_le hlen
    rw [Nat.add_sub_cancel_left] at hps
    rw [List.flatMap_cons, ih hps, pieceBytes_own hb lines hplace, memReadBytes_add, scratchKey_add]

/-! ## The read -/

theorem poisonIn_of_within {key n key' n' : Nat} (h : s.poisonIn key n = false) (hlo : key ≤ key')
    (hhi : key' + n' ≤ key + n) : s.poisonIn key' n' = false := by
  simp only [State.poisonIn, List.any_eq_false, overlaps, Bool.and_eq_true, decide_eq_true_eq, not_and] at h ⊢
  intro g hg hleft hright
  exact h g hg (by omega) (by omega)

theorem foldl_eq_self {α β : Type} {f : β → α → β} {b : β} {l : List α} (h : ∀ a ∈ l, f b a = b) : l.foldl f b = b := by
  induction l with
  | nil => rfl
  | cons a l ih =>
    rw [List.foldl_cons, h a List.mem_cons_self]
    exact ih fun x hx => h x (List.mem_cons_of_mem a hx)

variable {va n : Nat} {p : Piece}

theorem pieceBusy_image (hi : Claims.Image s va n) (hp : p.place = .scratch s.cur) (lines : Bool) :
    s.pieceBusy lines p = false := by
  have hout : (s.getCore s.cur).outq.any (fun r =>
      decide (r.place = p.place) && overlaps r.addr r.size p.addr p.len) = false := by
    rw [getCore_cur, List.any_eq_false]
    intro r hr
    simp [hp, hi.away r (.inl hr)]
  have hflight : s.flight.any (fun r =>
      decide (r.src = s.cur) && (lines || (decide (r.kind ≠ .load) && decide (r.kind ≠ .ldro))) &&
        decide (r.place = p.place) && overlaps r.addr r.size p.addr p.len) = false := by
    rw [List.any_eq_false]
    intro r hr
    by_cases hsrc : r.src = s.cur
    · simp [hp, hi.away r (.inr ⟨.inr hr, hsrc⟩)]
    · simp [hsrc]
  rw [State.pieceBusy, State.storeNear, hout, hflight, hp]
  simp

theorem watchEngine_own_none (hw : s.core.wp = []) (acc : Access) (addr n va : Nat) :
    s.watchEngine s.cur acc (.scratch s.cur) addr n va = s := by
  have hmatch : (s.getCore s.cur).wpMatch s.cur acc true addr n = none := by
    rw [getCore_cur]
    exact wpMatch_none hw ..
  simp [State.watchEngine, State.watchServed, hmatch]

theorem watchRead_own_none (hw : s.core.wp = []) (engine : Bool) {l : List Piece}
    (hl : ∀ p ∈ l, p.place = .scratch s.cur) : s.watchRead engine l = s := by
  unfold State.watchRead
  cases engine with
  | false =>
    rw [if_neg Bool.false_ne_true, watchPieces_none hw]
    exact foldl_eq_self fun p hp => by simp [hl p hp]
  | true => exact foldl_eq_self fun p hp => by rw [hl p hp]; exact watchEngine_own_none hw ..

/-- An image of the own scratchpad is read at once, and nothing of the machine changes. -/
theorem readImage_own (hb : s.core.sbuf = []) (hi : Claims.Image s va n) (engine lines : Bool)
    (body : State → List Byte → Out) :
    s.readImage engine lines va n body = body s (Claims.imageBytes s va n) := by
  obtain ⟨l, hplan, hl⟩ := plan_own (s := s) .load hi.aperture hi.size hi.room
  replace hl := covers_coalesce hl
  have hplace (p : Piece) (hp : p ∈ coalesce l) : p.place = .scratch s.cur := (covers_mem hl hp).1
  have hbusy : (coalesce l).any (s.pieceBusy lines) = false :=
    List.any_eq_false.mpr fun p hp => by simp [pieceBusy_image hi (hplace p hp)]
  have hclean : (coalesce l).find? s.poisonAt = none := by
    refine List.find?_eq_none.mpr fun p hp => ?_
    obtain ⟨hscratch, hlo, hhi⟩ := covers_mem hl hp
    rw [State.poisonAt, hscratch, keyOf, poisonIn_of_within hi.clean]
    · exact Bool.false_ne_true
    all_goals simp only [Claims.ownKey, scratchKey]; omega
  have hnear : (if lines then (coalesce l).foldl State.keepNear s else s) = s := by
    have hkeep : (coalesce l).foldl State.keepNear s = s :=
      foldl_eq_self fun p hp => by simp [State.keepNear, State.viaNear, hplace p hp]
    rw [hkeep, ite_self]
  have hnote : (coalesce l).foldl (fun t p => t.noteRead (t.core.context.getD 64) p.place p.addr p.len p.pte) s = s :=
    foldl_eq_self fun p hp => by rw [hplace p hp]; rfl
  unfold State.readImage
  rw [hplan]
  dsimp only
  rw [hbusy, if_neg Bool.false_ne_true, hclean]
  dsimp only
  rw [hi.order, hnear, watchRead_own_none hi.watch engine hplace]
  dsimp only
  rw [hnote, flatMap_pieceBytes_own hb lines hl, Core.overlay, hi.got]
  rfl

end Bytes

end Sys2Proof.Machine
end

section
/-! SUPPORT. The table and PPU commands (O27): what an image holds by entry and by byte, the outcome of a check, and the ends of
the commands in a core that stands alone and calm. -/

namespace Sys2Proof.Machine
open Sys2Proof

/-! ## Images by entry and by byte -/

theorem tget_cons {α : Type} (i k : Nat) (x d : α) (t : Tab α) :
    tget i ((k, x) :: t) d = if k = i then x else tget i t d := by
  rw [tget, tfind]
  split <;> rfl

/-- A table built from a list holds item i of it at key i. -/
theorem tget_tabOf {α : Type} [DecidableEq α] (zero : α) (l : List α) (i : Nat) :
    tget i (tabOf zero l) zero = l.getD i zero := by
  have hfrom (l : List α) : ∀ k, tget i (((List.range' k l.length).zip l).filter fun r => r.2 ≠ zero) zero =
      if k ≤ i then l.getD (i - k) zero else zero := by
    induction l with
    | nil => exact fun k => (ite_self zero).symm
    | cons x l ih =>
      intro k
      have hstep : (if k = i then x else if k + 1 ≤ i then l.getD (i - (k + 1)) zero else zero) =
          if k ≤ i then (x :: l).getD (i - k) zero else zero := by
        rcases lt_trichotomy k i with hk | rfl | hk
        · rw [if_neg hk.ne, if_pos (by omega), if_pos hk.le, show i - k = i - (k + 1) + 1 by omega, List.getD_cons_succ]
        · rw [if_pos rfl, if_pos le_rfl, Nat.sub_self, List.getD_cons_zero]
        · rw [if_neg hk.ne', if_neg (by omega), if_neg (by omega)]
      rw [List.length_cons, List.range'_succ, List.zip_cons_cons, List.filter_cons, ← hstep]
      split
      · rw [tget_cons, ih]
      case isFalse hx =>
        obtain rfl : x = zero := by simpa using hx
        rw [ih]
        by_cases hk : k = i
        · rw [if_pos hk, if_neg (by omega)]
        · rw [if_neg hk]
  rw [tabOf, List.range_eq_range', hfrom, if_pos (Nat.zero_le i), Nat.sub_zero]

/-- The table that TABLD makes of an image and a mode. -/
def loadedTable (img : List Byte) (mode : Word) : DecTab :=
  { entries := tabOf 0#32 (imageEntries img), tc := wbit mode 0, sat := wbit mode 1, four := wbit mode 2 }

/-- Its entry c is word c of the image. -/
theorem loadedTable_entry (m : List Host.Cell) (key : Nat) (mode : Word) {c : Nat} (hc : c < 256) :
    (loadedTable (memReadBytes m key 1024) mode).entry c = BitVec.ofNat 32 (memRead m (key + 4 * c) 4) := by
  rw [DecTab.entry, loadedTable, tget_tabOf, imageEntries, ← imgNat_memReadBytes m key (by omega : 4 * c + 4 ≤ 1024)]
  simp [List.getD_eq_getElem?_getD, hc]

/-! ## Checks, words and flags -/

theorem tabchk_of_some {t : DecTab} {c : Nat} (h : t.check = some c) :
    t.tabchk = (t, BitVec.ofNat 64 ((if t.n3 then 2 else 0) + 256 * c)) := by
  rw [DecTab.tabchk, h, Nat.mul_comm 256 c]

theorem tabchk_of_none {t : DecTab} (h : t.check = none) :
    t.tabchk = ({ t with verified := true, n3 := t.isN3 }, if t.isN3 then 3#64 else 1#64) := by
  rw [DecTab.tabchk, h]
  cases t.isN3 <;> rfl

theorem wfield_low_byte (x : Word) : wfield x 0 8 = x.toNat % 256 := by
  rw [wfield, field, Nat.pow_zero, Nat.div_one]
  rfl

theorem signals_iff {x : Fl} : x.signals = true ↔ ∃ b, x = .nan b true := by
  cases x <;> simp [Fl.signals]

theorem encodeFlags_eq (saturated : Bool) (l : List Fl) : encodeFlags saturated l = Claims.codeFlags saturated l := by
  have hsignals : l.any Fl.signals = true ↔ ∃ x ∈ l, ∃ b, x = .nan b true := by
    simp only [List.any_eq_true, signals_iff]
  exact congrArg₂ (· ||| ·) rfl (if_congr hsignals rfl rfl)

/-! ## The commands in a core that stands alone and calm -/

section Commands
variable {s : State} {n : Names} {d a b : Reg}

/-- A ready ordered instruction runs its body at once. -/
theorem issue_ordered_calm (ha : Claims.Alone s) (hc : Claims.Calm s) (hr : s.core.ready n = true) (body : State → Out) :
    s.issue n (s.ordered body) = body s := by
  rw [issue_ready hr ha.mesh, ordered_calm hc.loop hc.buffer hc.out]

theorem setS_advance_alone (ha : Claims.Alone s) (d : Reg) (x : Word) :
    (s.setS d x).advance = Claims.ends s (s.core.writeS d x) :=
  advance_upd_alone (f := fun k => k.writeS d x) (quiet_writeS ha.quiet d x) (by simp)

theorem setS_flags_advance_alone (ha : Claims.Alone s) (d : Reg) (x f : Word) :
    ((s.setS d x).flags f).advance = Claims.ends s ((s.core.writeS d x).addFlags f) :=
  advance_upd_alone (f := fun k => (k.writeS d x).addFlags f) (quiet_addFlags (quiet_writeS ha.quiet d x) f) (by simp)

variable (w : BitVec 1) (t : BitVec 2) (ha : Claims.Alone s) (hc : Claims.Calm s)
include ha hc

theorem tabld_refused (hr : s.core.ready { ss := [(a, 0), (b, 0)] } = true)
    (h : (s.src a 0).toNat % 8 ≠ 0 ∨ 8 ≤ (s.src b 0).toNat) : execTabld a b w t s = s.trap 0x185#10 0#64 := by
  unfold execTabld
  dsimp only
  rw [issue_ordered_calm ha hc hr, if_pos h]

theorem tabld_loads (hr : s.core.ready { ss := [(a, 0), (b, 0)] } = true) (halign : (s.src a 0).toNat % 8 = 0)
    (hmode : (s.src b 0).toNat < 8) (hfree : ∀ q ∈ s.core.mqueue, q.namesTable t.toNat = false)
    (hi : Claims.Image s (s.src a 0).toNat 1024)
    (hok : imageFault (imageEntries (Claims.imageBytes s (s.src a 0).toNat 1024)) = none) :
    execTabld a b w t s =
      .next (Claims.ends s (s.core.setTable t.toNat
        (loadedTable (Claims.imageBytes s (s.src a 0).toNat 1024) (s.src b 0)))) := by
  have hqueue : (s.core.mqueue.any fun q => q.namesTable t.toNat) = false :=
    List.any_eq_false.mpr fun q hq => by simp [hfree q hq]
  unfold execTabld
  dsimp only
  rw [issue_ordered_calm ha hc hr, if_neg (by omega), hqueue, if_neg Bool.false_ne_true, readImage_own hc.buffer hi, hok]
  exact congrArg _ (advance_upd_alone (f := fun k => k.setTable t.toNat _) ha.quiet rfl)

theorem tabrd_reads (hr : s.core.ready { ss := [(a, 0)], ds := [d] } = true) :
    execTabrd d a w t s =
      .next (Claims.ends s (s.core.writeS d
        (if (s.src a 0).getLsbD 8 then (s.core.table t.toNat).statusWord
          else ((s.core.table t.toNat).entry ((s.src a 0).toNat % 256)).zeroExtend 64))) := by
  unfold execTabrd
  dsimp only
  rw [issue_ordered_calm ha hc hr, wfield_low_byte, setS_advance_alone ha]
  rfl

theorem ppurd_reads (hr : s.core.ready { ss := [(a, 0)], ds := [d] } = true) (hlo : (s.src a 0).toNat ≤ 1292)
    (halign : (s.src a 0).toNat % 4 = 0) :
    execPpurd d a w s =
      .next (Claims.ends s (s.core.writeS d (BitVec.ofNat 64 (ppuWord s.core.ppu (s.src a 0).toNat)))) := by
  unfold execPpurd
  dsimp only
  rw [issue_ordered_calm ha hc hr, if_neg (by omega), setS_advance_alone ha]

theorem enc_encodes (hr : s.core.ready { ss := [(a, 0)], ds := [d] } = true) {c : Nat} {z : Bool}
    (he : (s.core.table t.toNat).encode (fmt64.val (s.src a 0).toNat) = .ok (c, z)) :
    execEnc d a w t s =
      .next (Claims.ends s ((s.core.writeS d (BitVec.ofNat 64 c)).addFlags
        (Claims.codeFlags z [fmt64.val (s.src a 0).toNat]))) := by
  unfold execEnc
  dsimp only
  rw [issue_ordered_calm ha hc hr, he]
  dsimp only
  rw [setS_flags_advance_alone ha, encodeFlags_eq]

theorem dec_decodes (hr : s.core.ready { ss := [(a, 0)], ds := [d] } = true) :
    execDec d a w t s =
      .next (Claims.ends s (s.core.writeS d
        (BitVec.ofNat 64 (fmt64.roundVal 0 ((s.core.table t.toNat).decode ((s.src a 0).toNat % 256))).bits))) := by
  unfold execDec
  dsimp only
  rw [issue_ordered_calm ha hc hr, wfield_low_byte, setS_advance_alone ha]

theorem tabchk_records (hr : s.core.ready { ds := [d] } = true) {new : DecTab} {v : Word}
    (hcheck : (s.core.table t.toNat).tabchk = (new, v)) :
    execTabchk d w t s = .next (Claims.ends s ((s.core.setTable t.toNat new).writeS d v)) := by
  unfold execTabchk
  rw [issue_ordered_calm ha hc hr, hcheck]
  exact congrArg _ (advance_upd_alone (f := fun k => (k.setTable t.toNat _).writeS d _)
    (quiet_writeS (k := s.core.setTable t.toNat _) ha.quiet d _) (by simp [Core.setTable]))

theorem ppuld_faults (hr : s.core.ready { ss := [(a, 0)] } = true) (halign : (s.src a 0).toNat % 8 = 0)
    (hi : Claims.Image s (s.src a 0).toNat 1296) {c : Cause}
    (hf : ppuFault (Claims.imageBytes s (s.src a 0).toNat 1296) = some c) : execPpuld a w s = s.trap c 0#64 := by
  unfold execPpuld
  dsimp only
  rw [issue_ordered_calm ha hc hr, if_neg (not_not.mpr halign), readImage_own hc.buffer hi, hf]

theorem ppuld_loads (hr : s.core.ready { ss := [(a, 0)] } = true) (halign : (s.src a 0).toNat % 8 = 0)
    (hi : Claims.Image s (s.src a 0).toNat 1296) (hok : ppuFault (Claims.imageBytes s (s.src a 0).toNat 1296) = none) :
    execPpuld a w s =
      .next (Claims.ends s { s.core with ppu := tabOf 0#8 (Claims.imageBytes s (s.src a 0).toNat 1296) }) := by
  unfold execPpuld
  dsimp only
  rw [issue_ordered_calm ha hc hr, if_neg (not_not.mpr halign), readImage_own hc.buffer hi, hok]
  exact congrArg _ (advance_upd_alone (f := fun k => { k with ppu := tabOf 0#8 _ }) ha.quiet rfl)

end Commands

end Sys2Proof.Machine

namespace Sys2Proof.Proofs
open Sys2Proof Sys2Proof.Machine

/-- Settles O27: each command is ordered, and acts at once in a core that is calm. -/
theorem tableCommands : Obligations.TableCommands := by
  unfold Obligations.TableCommands
  intro s w t ha hc tab
  refine ⟨fun a b hr => ⟨tabld_refused w t ha hc hr, fun halign hmode hfree hi hok => ?_⟩, fun d a hr => ⟨?_, ?_, ?_, ?_⟩,
    fun d hr => ⟨fun c hcheck => ?_, fun hcheck => ?_⟩,
    fun a hr halign hi => ⟨fun c => ppuld_faults w ha hc hr halign hi, fun hok => ?_⟩⟩
  · exact ⟨_, tabld_loads w t ha hc hr halign hmode hfree hi hok, rfl, rfl, rfl, rfl,
      fun c => loadedTable_entry _ _ _⟩
  · exact tabrd_reads w t ha hc hr
  · rintro o rfl hlo halign
    exact ppurd_reads w ha hc hr hlo halign
  · exact fun c z => enc_encodes w t ha hc hr
  · exact dec_decodes w t ha hc hr
  · exact tabchk_records w t ha hc hr (tabchk_of_some hcheck)
  · exact tabchk_records w t ha hc hr (tabchk_of_none hcheck)
  · refine ⟨_, ppuld_loads w ha hc hr halign hi hok, fun i hi => ?_⟩
    rw [tget_tabOf]
    exact memReadBytes_getD _ _ hi

end Sys2Proof.Proofs
end

section
/-! SUPPORT. Lanes: what a lane of a vector reads that is made of lanes, of a number, or of two vectors together; the element
types of VTYPE. -/

namespace Sys2Proof.Machine
open Sys2Proof

/-! ## Lanes of a vector -/

theorem laneOf_toNat (v : Vec) (w i : Nat) : (Claims.laneOf v w i).toNat = lane v w i := by
  rw [Claims.laneOf, BitVec.extractLsb'_toNat, Nat.shiftRight_eq_div_pow]
  rfl

/-- A lane that lies in the vector is a field of the number. -/
theorem lane_ofNat (x : Nat) {w i : Nat} (h : w * (i + 1) ≤ 512) :
    lane (BitVec.ofNat 512 x) w i = x / 2 ^ (w * i) % 2 ^ w := by
  rw [Nat.mul_add_one] at h
  obtain ⟨r, hr⟩ := Nat.exists_eq_add_of_le h
  rw [lane, BitVec.toNat_ofNat, hr, Nat.add_assoc, pow_add, Nat.mod_mul_right_div_self, pow_add, Nat.mod_mul_right_mod]

/-- The number that ofLanes makes of some lanes. -/
def lanesNat (w : Nat) (l : List Nat) : Nat := l.foldr (fun x acc => x % 2 ^ w + 2 ^ w * acc) 0

theorem ofLanes_eq (w : Nat) (l : List Nat) : ofLanes w l = BitVec.ofNat 512 (lanesNat w l) := rfl

theorem lanesNat_lane (w : Nat) (l : List Nat) (i : Nat) : lanesNat w l / 2 ^ (w * i) % 2 ^ w = l.getD i 0 % 2 ^ w := by
  have hpos : 0 < 2 ^ w := Nat.two_pow_pos w
  induction l generalizing i with
  | nil => simp [lanesNat]
  | cons x l ih =>
    show (x % 2 ^ w + 2 ^ w * lanesNat w l) / 2 ^ (w * i) % 2 ^ w = _
    cases i with
    | zero => rw [Nat.mul_zero, Nat.pow_zero, Nat.div_one, Nat.add_mul_mod_self_left, Nat.mod_mod, List.getD_cons_zero]
    | succ i =>
      rw [Nat.mul_add_one, Nat.add_comm (w * i), pow_add, ← Nat.div_div_eq_div_mul, Nat.add_mul_div_left _ _ hpos,
        Nat.div_eq_of_lt (Nat.mod_lt x hpos), Nat.zero_add, ih, List.getD_cons_succ]

theorem lanesNat_lt (w : Nat) (l : List Nat) : lanesNat w l < 2 ^ (w * l.length) := by
  induction l with
  | nil => exact Nat.one_pos
  | cons x l ih =>
    show x % 2 ^ w + 2 ^ w * lanesNat w l < _
    have hx := Nat.mod_lt x (Nat.two_pow_pos w)
    rw [List.length_cons, Nat.mul_add_one, Nat.add_comm (w * l.length), pow_add]
    calc x % 2 ^ w + 2 ^ w * lanesNat w l < 2 ^ w + 2 ^ w * lanesNat w l := by omega
      _ = 2 ^ w * (lanesNat w l + 1) := by ring
      _ ≤ 2 ^ w * 2 ^ (w * l.length) := Nat.mul_le_mul_left _ ih

theorem lane_ofLanes (l : List Nat) {w i : Nat} (h : w * (i + 1) ≤ 512) : lane (ofLanes w l) w i = l.getD i 0 % 2 ^ w := by
  rw [ofLanes_eq, lane_ofNat _ h, lanesNat_lane]

/-- A lane of another width that lies beyond all the lanes is 0. -/
theorem lane_ofLanes_beyond (l : List Nat) {w u i : Nat} (h : u * (i + 1) ≤ 512) (hbeyond : w * l.length ≤ u * i) :
    lane (ofLanes w l) u i = 0 := by
  have hlt : lanesNat w l < 2 ^ (u * i) := (lanesNat_lt w l).trans_le (Nat.pow_le_pow_right (by decide) hbeyond)
  rw [ofLanes_eq, lane_ofNat _ h, Nat.div_eq_of_lt hlt, Nat.zero_mod]

theorem laneOf_or (x y : Vec) (w i : Nat) : Claims.laneOf (x ||| y) w i = Claims.laneOf x w i ||| Claims.laneOf y w i :=
  BitVec.extractLsb'_or

theorem laneOf_eq_zero {v : Vec} {w i : Nat} (h : lane v w i = 0) : Claims.laneOf v w i = 0#w :=
  BitVec.eq_of_toNat_eq (by rw [laneOf_toNat, h, BitVec.toNat_ofNat, Nat.zero_mod])

/-- Lane i of a vector lies in it. -/
theorem mul_succ_le_of_lt_div {w i : Nat} (h : i < 512 / w) : w * (i + 1) ≤ 512 :=
  (Nat.mul_le_mul_left w h).trans (Nat.mul_div_le 512 w)

/-- Lanes below position k are 0 in a number shifted there. -/
theorem lane_mul_two_pow_below (x : Nat) {w i k : Nat} (hk : k ≤ 512) (h : w * (i + 1) ≤ k) :
    lane (BitVec.ofNat 512 (x * 2 ^ k)) w i = 0 := by
  rw [lane_ofNat _ (h.trans hk)]
  rw [Nat.mul_add_one] at h
  obtain ⟨r, rfl⟩ := Nat.exists_eq_add_of_le h
  rw [Nat.add_assoc, pow_add, pow_add, Nat.mul_left_comm, Nat.mul_div_cancel_left _ (Nat.two_pow_pos _), Nat.mul_left_comm,
    Nat.mul_mod_right]

/-! ## Element types (R170) -/

theorem et_eq (s : State) : s.core.et = Claims.et s := by
  rw [Core.et, wfield, field, Nat.pow_zero, Nat.div_one]
  rfl

theorem part_eq (s : State) : s.core.part = Claims.part s := rfl

theorem vtab_eq (s : State) : s.core.vtab = Claims.tab s := rfl

theorem etWidth_eq {t : Nat} (h : t < 7) : etWidth t = Claims.ew t := by
  interval_cases t <;> rfl

theorem lanesOf_eq {t : Nat} (h : t < 7) : lanesOf t = Claims.el t := by
  rw [lanesOf, etWidth_eq h]
  rfl

/-- A ready vector instruction whose VTYPE its entry accepts runs its body. -/
theorem vxf_ready {s : State} {n : Names} {ok : Bool} (ha : Claims.Alone s) (hok : ok = true) (hr : s.core.ready n = true)
    (body : Out) : s.vxf ok n body = body := by
  rw [State.vxf, hok, Bool.not_true, if_neg Bool.false_ne_true, issue_ready hr ha.mesh]

theorem setV_flags_advance_alone {s : State} (ha : Claims.Alone s) (d : Reg) (v : Vec) (f : Word) :
    ((s.setV d v).flags f).advance = Claims.ends s ((s.core.writeV d v).addFlags f) :=
  advance_upd_alone (f := fun k => (k.writeV d v).addFlags f) (quiet_addFlags (quiet_writeV ha.quiet d v) f) (by simp)

end Sys2Proof.Machine
end

section
/-! SUPPORT. VENC and VQNT (O22): the codes of a list of values, where they stand in the vector, and the scale of a block. -/

namespace Sys2Proof.Machine
open Sys2Proof

/-! ## The codes of a list (R128, R129) -/

section Codes
variable {t : DecTab}

theorem encodeAll_ok {α : Type} {x : α → Fl} {c : α → Nat} {z : α → Bool} {l : List α}
    (h : ∀ i ∈ l, t.encode (x i) = .ok (c i, z i)) (n : Nat) : t.encodeAll n (l.map x) = .ok (l.map c, l.any z) := by
  induction l generalizing n with
  | nil => rfl
  | cons i l ih =>
    rw [List.map_cons, DecTab.encodeAll, h i List.mem_cons_self]
    dsimp only
    rw [ih fun j hj => h j (List.mem_cons_of_mem i hj)]
    rfl

theorem encode_unverified (ht : t.verified = false) (x : Fl) : t.encode x = .error 0x182#10 := by
  unfold DecTab.encode
  rw [ht]
  rfl

/-- A table that is not verified encodes no list that holds a value. -/
theorem encodeAll_unverified (ht : t.verified = false) (n : Nat) {l : List Fl} (hl : l ≠ []) :
    t.encodeAll n l = .error (n, 0x182#10) := by
  cases l with
  | nil => exact absurd rfl hl
  | cons x l => rw [DecTab.encodeAll, encode_unverified ht]

theorem codeBits_cases (t : DecTab) : t.codeBits = 4 ∨ t.codeBits = 8 := by
  rw [DecTab.codeBits]
  cases t.four with
  | false => exact .inr rfl
  | true => exact .inl rfl

end Codes

theorem encodeTrap_eq (s : State) (c : Cause) (i tab : Nat) :
    s.encodeTrap c i tab = s.trap c (BitVec.ofNat 64 (i + 256 * tab)) := by
  rw [State.encodeTrap, Nat.mul_comm]

/-! ## VENC (R175) -/

/-- The vector that VENC makes of old: the codes of some lanes at their positions from base on, in lanes of width w. -/
def placed (w base : Nat) (codes : Tab Nat) (old : Vec) : Vec :=
  ofLanes w
    ((List.range (512 / w)).map fun j =>
      match (if base ≤ j then tfind (j - base) codes else none) with
      | some c => c
      | none => lane old w j)

theorem tfind_zip_map (c : Nat → Nat) (l : List Nat) (i : Nat) :
    tfind i (l.zip (l.map c)) = if i ∈ l then some (c i) else none := by
  induction l with
  | nil => rfl
  | cons j l ih =>
    rw [List.map_cons, List.zip_cons_cons, tfind, ih]
    by_cases h : j = i
    · simp [h]
    · simp [h, Ne.symm h]

section Placed
variable {w base j : Nat} (c : Nat → Nat) (l : List Nat) (old : Vec)

theorem lane_placed (codes : Tab Nat) (h : j < 512 / w) :
    lane (placed w base codes old) w j =
      (if base ≤ j then tfind (j - base) codes else none).getD (lane old w j) % 2 ^ w := by
  rw [placed, lane_ofLanes _ (mul_succ_le_of_lt_div h)]
  simp only [List.getD_eq_getElem?_getD, List.getElem?_map, List.getElem?_range h, Option.map_some, Option.getD_some]
  cases (if base ≤ j then tfind (j - base) codes else none) <;> rfl

/-- A lane of the list has its code. -/
theorem lane_placed_code {i : Nat} (h : base + i < 512 / w) (hi : i ∈ l) :
    lane (placed w base (l.zip (l.map c)) old) w (base + i) = c i % 2 ^ w := by
  rw [lane_placed _ _ h, if_pos (Nat.le_add_right base i), Nat.add_sub_cancel_left, tfind_zip_map, if_pos hi,
    Option.getD_some]

/-- Every other lane is kept. -/
theorem lane_placed_kept (h : j < 512 / w) (hj : ∀ i ∈ l, j ≠ base + i) :
    lane (placed w base (l.zip (l.map c)) old) w j = lane old w j := by
  have hnone : (if base ≤ j then tfind (j - base) (l.zip (l.map c)) else none) = none := by
    split
    · rw [tfind_zip_map, if_neg fun hmem => hj _ hmem (by omega)]
    · rfl
  rw [lane_placed _ _ h, hnone]
  exact Nat.mod_mod _ _

end Placed

section Venc
variable {s : State} {d a : Reg} {y : VDist} {k : KReg} (ha : Claims.Alone s) (hlo : 4 ≤ Claims.et s) (hhi : Claims.et s < 7)
  (hfit : (Claims.part s + 1) * (Claims.el (Claims.et s) * (Claims.vtable s).codeBits / 8) ≤ 64)
  (hr : s.core.ready (Claims.vectors d a y none) = true)

/-- The value of lane i that VENC encodes. -/
def encoded (s : State) (a : Reg) (y : VDist) (i : Nat) : Fl :=
  (Claims.ef (Claims.et s)).val (Claims.laneOf (s.vsrc a y.toNat) (Claims.ew (Claims.et s)) i).toNat

/-- The active lanes of the element type of VTYPE. -/
def typeLanes (s : State) (k : KReg) : List Nat := Claims.lanes s k (Claims.ew (Claims.et s))

/-- The model selects the same lanes. -/
theorem filter_active_eq (hhi : Claims.et s < 7) :
    ((List.range (lanesOf s.core.et)).filter fun i => active (s.core.mask k) (etWidth s.core.et) i) =
      typeLanes s k := by
  rw [et_eq, lanesOf_eq hhi, etWidth_eq hhi]
  rfl

theorem val_lane_eq (hhi : Claims.et s < 7) (v : Vec) (i : Nat) :
    (etFmt s.core.et).val (lane v (etWidth s.core.et) i) =
      (Claims.ef (Claims.et s)).val (Claims.laneOf v (Claims.ew (Claims.et s)) i).toNat := by
  rw [et_eq, etWidth_eq hhi, laneOf_toNat]
  rfl

include ha hlo hhi hfit hr

/-- What VENC does once its VTYPE is accepted and its names are ready. -/
theorem venc_body :
    execVenc d a y k s =
      if !(Claims.vtable s).verified then
        s.encodeTrap 0x182#10 ((typeLanes s k).headD 0) (Claims.tab s)
      else
        match (Claims.vtable s).encodeAll 0 ((typeLanes s k).map (encoded s a y)) with
        | .error (i, c) => s.encodeTrap c ((typeLanes s k).getD i 0) (Claims.tab s)
        | .ok (cs, sat) =>
          .next ((s.setV d
            (placed (Claims.vtable s).codeBits (Claims.part s * Claims.el (Claims.et s))
              ((typeLanes s k).zip cs) (s.vsrc d 0))).flags
            (encodeFlags sat ((typeLanes s k).map (encoded s a y)))).advance := by
  have hok : (decide (4 ≤ s.core.et) && decide (s.core.et < 7) && s.core.codesFit) = true := by
    rw [Core.codesFit, et_eq, lanesOf_eq hhi, part_eq, decide_eq_true hlo, decide_eq_true hhi]
    exact decide_eq_true hfit
  unfold execVenc
  dsimp only
  rw [vxf_ready (n := vnames d a y []) ha hok hr]
  simp only [filter_active_eq hhi, val_lane_eq hhi]
  rw [et_eq, lanesOf_eq hhi]
  rfl

theorem venc_unverified (ht : (Claims.vtable s).verified = false) :
    execVenc d a y k s =
      s.trap 0x182#10 (BitVec.ofNat 64 ((typeLanes s k).headD 0 + 256 * Claims.tab s)) := by
  rw [venc_body ha hlo hhi hfit hr, ht, Bool.not_false, if_pos rfl, encodeTrap_eq]

theorem venc_encodes (ht : (Claims.vtable s).verified = true) {c : Nat → Nat} {z : Nat → Bool}
    (he : ∀ i ∈ typeLanes s k, (Claims.vtable s).encode (encoded s a y i) = .ok (c i, z i)) :
    execVenc d a y k s =
      .next (Claims.ends s ((s.core.writeV d
        (placed (Claims.vtable s).codeBits (Claims.part s * Claims.el (Claims.et s))
          ((typeLanes s k).zip ((typeLanes s k).map c)) (s.vsrc d 0))).addFlags
        (Claims.codeFlags ((typeLanes s k).any z) ((typeLanes s k).map (encoded s a y))))) := by
  rw [venc_body ha hlo hhi hfit hr, ht, Bool.not_true, if_neg Bool.false_ne_true, encodeAll_ok he]
  dsimp only
  rw [setV_flags_advance_alone ha, encodeFlags_eq]

end Venc

/-! ## VQNT (R176) -/

theorem blockScale_lt {x lmax : Fl} {sc : Nat} (h : blockScale x lmax = some sc) : sc < 255 := by
  unfold blockScale at h
  split at h
  · cases h
    decide
  · exact List.mem_range.mp (List.mem_of_find?_eq_some h)

/-- The element that a trap for the scale names is one of the block. -/
theorem firstTooLarge_lt (lmax : Fl) {l : List Fl} (hl : 0 < l.length) : firstTooLarge lmax l < l.length := by
  rw [firstTooLarge]
  cases hfind : l.findIdx? fun x => !x.isNan && !x.isInf && lmax.lt (x.mag.scale (-127)) with
  | none => exact hl
  | some i => exact (List.findIdx?_eq_some_iff_findIdx_eq.mp hfind).1

/-- The vector that VQNT makes: 32 codes of width w from lane 0, and the scale in byte 32. -/
def quantised (w : Nat) (c : Nat → Nat) (sc : Nat) : Vec :=
  ofLanes w ((List.range 32).map c) ||| BitVec.ofNat 512 (sc * 2 ^ 256)

section Quantised
variable {w sc i : Nat} (c : Nat → Nat)

theorem laneOf_quantised_code (hw : w ≤ 8) (hi : i < 32) :
    (Claims.laneOf (quantised w c sc) w i).toNat = c i % 2 ^ w := by
  have hlane : w * (i + 1) ≤ 256 := (Nat.mul_le_mul hw hi).trans (by decide)
  have hscale : Claims.laneOf (BitVec.ofNat 512 (sc * 2 ^ 256)) w i = 0#w :=
    laneOf_eq_zero (lane_mul_two_pow_below sc (by decide) hlane)
  rw [quantised, laneOf_or, hscale, BitVec.or_zero, laneOf_toNat, lane_ofLanes _ (hlane.trans (by decide))]
  simp [List.getD_eq_getElem?_getD, hi]

theorem byte_scale (hsc : sc < 256) (hi : i < 64) :
    lane (BitVec.ofNat 512 (sc * 2 ^ 256)) 8 i = if i = 32 then sc else 0 := by
  rcases lt_trichotomy i 32 with h | rfl | h
  · rw [if_neg h.ne, lane_mul_two_pow_below sc (by decide) (by omega)]
  · rw [if_pos rfl, lane_ofNat _ (by decide), Nat.mul_div_cancel _ (Nat.two_pow_pos _)]
    exact Nat.mod_eq_of_lt hsc
  · have hlt : sc * 2 ^ 256 < 2 ^ (8 * i) := by
      have hbyte : 2 ^ 8 ≤ 2 ^ (8 * i - 256) := Nat.pow_le_pow_right (by decide) (by omega)
      rw [show 8 * i = 8 * i - 256 + 256 by omega, pow_add]
      exact Nat.mul_lt_mul_of_pos_right (hsc.trans_le hbyte) (Nat.two_pow_pos 256)
    rw [if_neg h.ne', lane_ofNat _ (by omega), Nat.div_eq_of_lt hlt, Nat.zero_mod]

/-- Beyond the codes only byte 32 is not 0. -/
theorem laneOf_quantised_byte (hsc : sc < 256) (hi : i < 64) (hbeyond : 4 * w ≤ i) :
    Claims.laneOf (quantised w c sc) 8 i = if i = 32 then BitVec.ofNat 8 sc else 0#8 := by
  have hcodes : Claims.laneOf (ofLanes w ((List.range 32).map c)) 8 i = 0#8 := by
    refine laneOf_eq_zero (lane_ofLanes_beyond _ (by omega) ?_)
    rw [List.length_map, List.length_range]
    omega
  rw [quantised, laneOf_or, hcodes, BitVec.zero_or]
  apply BitVec.eq_of_toNat_eq
  rw [laneOf_toNat, byte_scale hsc hi]
  split
  · exact (Nat.mod_eq_of_lt hsc).symm
  · rfl

end Quantised

section Vqnt
variable {s : State} {d a b : Reg} {y : VDist} (ha : Claims.Alone s) (hlo : 4 ≤ Claims.et s) (hhi : Claims.et s < 7)
  (hb : Claims.et s ≠ 4 → b = 0#5)
  (hr : s.core.ready { vs := [(a, y.toNat)] ++ (if Claims.et s = 4 then [(b, 0)] else []), dv := [d] } = true)

/-- A block has 32 elements, of one vector or of two. -/
theorem block_length (hlo : 4 ≤ Claims.et s) (hhi : Claims.et s < 7) : (Claims.block s a y b).length = 32 := by
  by_cases ht : Claims.et s = 4
  · have hel : Claims.el 4 = 16 := rfl
    simp [Claims.block, ht, hel]
  · have hel : Claims.el (Claims.et s) = 32 := by
      obtain h | h : Claims.et s = 5 ∨ Claims.et s = 6 := by omega
      all_goals rw [h]; rfl
    simp [Claims.block, ht, hel]

include ha hlo hhi hb hr

/-- What VQNT does once its VTYPE is accepted and its names are ready. -/
theorem vqnt_body :
    execVqnt d a y b s =
      match blockScale (amax (Claims.block s a y b)) (Claims.vtable s).lmax with
      | none => s.encodeTrap 0x100#10 (firstTooLarge (Claims.vtable s).lmax (Claims.block s a y b)) (Claims.tab s)
      | some sc =>
        match (Claims.vtable s).encodeAll 0 ((Claims.block s a y b).map fun x => x.scale (127 - (sc : Int))) with
        | .error (i, c) => s.encodeTrap c i (Claims.tab s)
        | .ok (cs, sat) =>
          .next ((s.setV d (ofLanes (Claims.vtable s).codeBits cs ||| BitVec.ofNat 512 (sc * 2 ^ 256))).flags
            (encodeFlags sat (Claims.block s a y b))).advance := by
  have hnames : ¬((s.core.et = 5 ∨ s.core.et = 6) ∧ b ≠ 0#5) := by
    rw [et_eq]
    rintro ⟨ht, hne⟩
    exact hne (hb (by omega))
  have hok : (decide (4 ≤ s.core.et) && decide (s.core.et < 7)) = true := by
    rw [et_eq, decide_eq_true hlo, decide_eq_true hhi]
    rfl
  have hblock : (((List.range (lanesOf s.core.et)).map fun i =>
      (etFmt s.core.et).val (lane (s.vsrc a y.toNat) (etWidth s.core.et) i)) ++
      if decide (s.core.et = 4) = true then
        (List.range (lanesOf s.core.et)).map fun i => (etFmt s.core.et).val (lane (s.vsrc b 0) (etWidth s.core.et) i)
      else []) = Claims.block s a y b := by
    simp only [val_lane_eq hhi, decide_eq_true_eq]
    rw [et_eq, lanesOf_eq hhi]
    rfl
  have hready : s.core.ready
      { vs := [(a, y.toNat)] ++ (if decide (s.core.et = 4) = true then [(b, 0)] else []), dv := [d] } = true := by
    rw [et_eq]
    simpa only [decide_eq_true_eq] using hr
  unfold execVqnt
  dsimp only
  rw [if_neg hnames, vxf_ready ha hok hready, hblock]
  rfl

/-- No scale fits the block. -/
theorem vqnt_noScale (h : blockScale (amax (Claims.block s a y b)) (Claims.vtable s).lmax = none) :
    execVqnt d a y b s =
      s.trap 0x100#10
        (BitVec.ofNat 64 (firstTooLarge (Claims.vtable s).lmax (Claims.block s a y b) + 256 * Claims.tab s)) := by
  rw [vqnt_body ha hlo hhi hb hr, h]
  exact encodeTrap_eq ..

variable {sc : Nat} (hsc : blockScale (amax (Claims.block s a y b)) (Claims.vtable s).lmax = some sc)
include hsc

theorem vqnt_unverified (ht : (Claims.vtable s).verified = false) :
    execVqnt d a y b s = s.trap 0x182#10 (BitVec.ofNat 64 (256 * Claims.tab s)) := by
  have hne : (Claims.block s a y b).map (fun x => x.scale (127 - (sc : Int))) ≠ [] :=
    List.ne_nil_of_length_eq_add_one (n := 31) (by rw [List.length_map, block_length hlo hhi])
  rw [vqnt_body ha hlo hhi hb hr, hsc]
  dsimp only
  rw [encodeAll_unverified ht 0 hne]
  dsimp only
  rw [encodeTrap_eq, Nat.zero_add]

theorem vqnt_quantises {c : Nat → Nat} {z : Nat → Bool}
    (he : ∀ i < 32, (Claims.vtable s).encode
      (((Claims.block s a y b).getD i (.fin false 0 0)).scale (127 - (sc : Int))) = .ok (c i, z i)) :
    execVqnt d a y b s =
      .next (Claims.ends s ((s.core.writeV d (quantised (Claims.vtable s).codeBits c sc)).addFlags
        (Claims.codeFlags ((List.range 32).any z) (Claims.block s a y b)))) := by
  have hlist : (Claims.block s a y b).map (fun x => x.scale (127 - (sc : Int))) =
      (List.range 32).map fun i => ((Claims.block s a y b).getD i (.fin false 0 0)).scale (127 - (sc : Int)) := by
    have hlen : (Claims.block s a y b).length = 32 := block_length hlo hhi
    refine List.ext_getElem (by simp [hlen]) fun i hi _ => ?_
    rw [List.length_map] at hi
    simp [List.getD_eq_getElem?_getD, hi]
  rw [vqnt_body ha hlo hhi hb hr, hsc]
  dsimp only
  rw [hlist, encodeAll_ok (fun i hi => he i (List.mem_range.mp hi))]
  dsimp only
  rw [setV_flags_advance_alone ha, encodeFlags_eq]
  rfl

end Vqnt

end Sys2Proof.Machine

namespace Sys2Proof.Proofs
open Sys2Proof Sys2Proof.Machine

/-- Settles O22: both encode a list of values, VENC the active lanes and VQNT a scaled block, and differ in where the codes
go. -/
theorem vectorEncodings : Obligations.VectorEncodings := by
  unfold Obligations.VectorEncodings
  intro s d a y ha t cw x
  have hcw : cw = 4 ∨ cw = 8 := codeBits_cases t
  refine ⟨fun k hlo hhi hfit hr => ⟨venc_unverified ha hlo hhi hfit hr, fun c z ht he => ?_⟩,
    fun b sc c z hlo hhi hb hr => ⟨fun hscale => ?_, fun ht hscale => ?_, fun _ hscale he => ?_⟩⟩
  · refine ⟨_, venc_encodes ha hlo hhi hfit hr ht he, fun j hj => ⟨?_, fun hkept => ?_⟩⟩
    · rintro i hi rfl
      rw [laneOf_toNat]
      exact lane_placed_code c _ _ hj hi
    · apply BitVec.eq_of_toNat_eq
      rw [laneOf_toNat, laneOf_toNat]
      exact lane_placed_kept c _ _ hj hkept
  · have hlen : (Claims.block s a y b).length = 32 := block_length hlo hhi
    exact ⟨_, hlen ▸ firstTooLarge_lt _ (by omega), vqnt_noScale ha hlo hhi hb hr hscale⟩
  · exact vqnt_unverified ha hlo hhi hb hr hscale ht
  · have hsc := blockScale_lt hscale
    refine ⟨_, vqnt_quantises ha hlo hhi hb hr hscale he, fun i hi => laneOf_quantised_code c (by omega) hi,
      fun i hi hbeyond => laneOf_quantised_byte c (by omega) hi hbeyond⟩

end Sys2Proof.Proofs
end

section
/-! SUPPORT. Products on the grid (O25): what a finite product adds to an element, and the grid point that it is rounded
to. -/

namespace Sys2Proof.Machine
open Sys2Proof

/-- A finite product of q grid steps and sign neg enters an element whose products are clipped at a bound (R141). -/
def Elem.addSteps (e : Elem) (neg : Bool) (bound q : Nat) : Elem :=
  { e with
    v := if neg then e.v - (min q bound : Nat) else e.v + (min q bound : Nat)
    clip := e.clip || decide (bound < q) }

theorem accumulate_fin (e : Elem) (scale : Int) (h : Nat) (neg : Bool) (m : Nat) (x : Int) :
    e.accumulate scale h (.fin neg m x) = e.addSteps neg (2 ^ (55 - h) - 1) (roundAt 0 neg m (scale - x)).1 := rfl

theorem addSteps_of_le {e : Elem} {neg : Bool} {bound q : Nat} (h : q ≤ bound) :
    e.addSteps neg bound q = { e with v := if neg then e.v - (q : Nat) else e.v + (q : Nat) } := by
  simp [Elem.addSteps, Nat.min_eq_left h, Nat.not_lt.mpr h]

theorem addSteps_of_lt {e : Elem} {neg : Bool} {bound q : Nat} (h : bound < q) :
    e.addSteps neg bound q =
      { e with v := if neg then e.v - (bound : Nat) else e.v + (bound : Nat), clip := true } := by
  simp [Elem.addSteps, Nat.min_eq_right h.le, h]

/-- No product changes the count of an element: the multiply counts its products itself. -/
theorem accumulate_count (e : Elem) (scale : Int) (h : Nat) (p : Fl) : (e.accumulate scale h p).count = e.count := by
  cases p with
  | nan b q => rfl
  | inf neg => cases neg <;> rfl
  | fin neg m x => rfl

section Grid
variable {rm m : Nat} {neg : Bool}

/-- A value that lies on the grid is the multiple that it says. -/
theorem roundAt_on_grid {scale x : Int} (h : scale ≤ x) :
    (roundAt rm neg m (scale - x)).1 = m * 2 ^ (x - scale).toNat := by
  rw [roundAt, if_pos (by omega), neg_sub]

/-- A value k binary places below the grid is rounded at place k. -/
theorem roundAt_below_grid (scale : Int) (k : Nat) :
    (roundAt rm neg m (scale - (scale - k))).1 = (roundShift rm neg m k).1 := by
  rw [sub_sub_cancel, roundAt]
  split
  case isTrue hk =>
    obtain rfl : k = 0 := by omega
    rw [roundShift_exact (by rw [Nat.pow_zero, Nat.mod_one])]
    simp
  case isFalse => rfl

end Grid

end Sys2Proof.Machine

namespace Sys2Proof.Proofs
open Sys2Proof Sys2Proof.Machine

/-- Settles O25: a finite product adds its grid steps, which are exact at or above the scale and rounded to nearest even
below it. -/
theorem gridAccumulation : Obligations.GridAccumulation := by
  unfold Obligations.GridAccumulation
  intro e scale h
  refine ⟨fun neg m x hx hle => ?_, fun neg m x hx hlt => ?_, fun neg m k => ?_, fun _ _ => rfl, rfl, rfl⟩
  · rw [accumulate_fin, roundAt_on_grid hx, addSteps_of_le hle]
  · rw [accumulate_fin, roundAt_on_grid hx, addSteps_of_lt hlt]
  · obtain ⟨hlo, hhi⟩ := roundShift_nearest_bounds neg m k
    refine ⟨(roundShift 0 neg m k).1, ?_, hhi, hlo, roundShift_tie_even⟩
    rw [accumulate_fin, roundAt_below_grid]
    rfl

end Sys2Proof.Proofs
end

section
/-! SUPPORT. Carry rows (O26): what a list of elements leaves in a slot, and the row that arrives, is discarded or
merges. -/

namespace Sys2Proof.Machine
open Sys2Proof

/-! ## The elements of a slot -/

theorem getD_map_range {α : Type} (f : Nat → α) (d : α) {n i : Nat} (h : i < n) :
    ((List.range n).map f).getD i d = f i := by
  simp [List.getD_eq_getElem?_getD, h]

/-- A table that lists the values of f at some keys, but for the default, holds f there. -/
theorem tget_filterMap {α : Type} [DecidableEq α] (f : Nat → α) (d : α) {l : List Nat} {i : Nat} (h : i ∈ l) :
    tget i (l.filterMap fun j => if f j = d then none else some (j, f j)) d = f i := by
  have hall (l : List Nat) :
      tget i (l.filterMap fun j => if f j = d then none else some (j, f j)) d = if i ∈ l then f i else d := by
    induction l with
    | nil => rfl
    | cons j l ih =>
      have hstep : tget i ((j :: l).filterMap fun j => if f j = d then none else some (j, f j)) d =
          if j = i then f i else if i ∈ l then f i else d := by
        rw [List.filterMap_cons, ← ih]
        by_cases hj : j = i
        · subst hj
          by_cases hd : f j = d
          · rw [if_pos hd, if_pos rfl, ih, hd, ite_self]
          · rw [if_neg hd, if_pos rfl]
            exact (tget_cons ..).trans (if_pos rfl)
        · rw [if_neg hj]
          by_cases hd : f j = d
          · rw [if_pos hd]
          · rw [if_neg hd]
            exact (tget_cons ..).trans (if_neg hj)
      rw [hstep]
      by_cases hj : j = i
      · simp [hj]
      · simp [hj, Ne.symm hj]
  rw [hall, if_pos h]

theorem build_elem (x : MSlot) (f : Nat → Elem) {i : Nat} (h : i < 1024) : (x.build f).elem i = f i := by
  have hmem := List.mem_range.mpr h
  unfold MSlot.build MSlot.elem
  generalize List.range 1024 = l at hmem ⊢
  exact tget_filterMap f {} hmem

/-- To list other elements changes nothing else of a slot. -/
theorem build_frame (x : MSlot) (f : Nat → Elem) : x.build f = { x with elems := (x.build f).elems } := by
  unfold MSlot.build
  generalize List.range 1024 = l
  rfl

theorem elem_congr {x y : MSlot} (h : x.elems = y.elems) (i : Nat) : x.elem i = y.elem i := by
  rw [MSlot.elem, MSlot.elem, h]

/-! ## The slots of a core -/

@[simp] theorem slot_setSlot_same (k : Core) (n : Nat) (x : MSlot) : (k.setSlot n x).slot n = x := tget_tset_same n x {} _

theorem slot_setSlot_of_ne {k : Core} {n m : Nat} (h : m ≠ n) (x : MSlot) : (k.setSlot n x).slot m = k.slot m :=
  tget_tset_of_ne h x {} _

theorem setCore_rows (s : State) (c : CoreId) (k : Core) : (s.setCore c k).rows = s.rows := by
  unfold State.setCore
  split <;> rfl

/-! ## The end of a chain (R148) -/

/-- An engine that owes no future fulfils none. -/
theorem engineFulfil_zero (s : State) (c : CoreId) (ctx st v : Nat) : s.engineFulfil c ctx 0 st v = s := if_pos rfl

/-- A slot whose chain has ended, with nothing else of it changed. -/
def MSlot.close (x : MSlot) : MSlot := { x with isOpen := false, future := 0 }

/-- A chain with no future closes in its slot alone. -/
theorem closeChain_noFuture {s : State} {c : CoreId} {n : Nat} (h : ((s.getCore c).slot n).future = 0) :
    s.closeChain c n = s.setCore c ((s.getCore c).setSlot n ((s.getCore c).slot n).close) := by
  unfold State.closeChain
  dsimp only
  rw [h, engineFulfil_zero]
  rfl

theorem checkChain_closed {s : State} {c : CoreId} {n : Nat} (h : ((s.getCore c).slot n).isOpen = false) :
    s.checkChain c n = s := by
  rw [State.checkChain, MSlot.complete, h]
  rfl

/-- Whether or not its chain is then complete, a slot with no future keeps its elements, and the machine its rows and
memory. -/
theorem checkChain_noFuture {s : State} {c : CoreId} {n : Nat} (h : ((s.getCore c).slot n).future = 0) :
    (s.checkChain c n).rows = s.rows ∧ (s.checkChain c n).mem = s.mem ∧
      (((s.checkChain c n).getCore c).slot n).elems = ((s.getCore c).slot n).elems := by
  unfold State.checkChain
  split
  · rw [closeChain_noFuture h, getCore_setCore_same, slot_setSlot_same]
    exact ⟨setCore_rows _ _ _, setCore_mem _ _ _, rfl⟩
  · exact ⟨rfl, rfl, rfl⟩

/-! ## A row arrives (R146) -/

/-- Row r of the slot with the elements of a carry row added. -/
def MSlot.addCarry (x : MSlot) (m : CarryRow) : MSlot :=
  x.build fun p => if p / 32 = m.row then (x.elem p).join (m.elems.getD (p % 32) {}) else x.elem p

/-- A count of the row would pass NEXP. -/
def MSlot.carryOver (x : MSlot) (m : CarryRow) : Bool :=
  (List.range 32).any fun j => decide (x.nexp < (x.elem (32 * m.row + j)).count + (m.elems.getD j {}).count)

theorem carryOver_false_iff (x : MSlot) (m : CarryRow) :
    x.carryOver m = false ↔ ∀ j < 32, (x.elem (32 * m.row + j)).count + (m.elems.getD j {}).count ≤ x.nexp := by
  simp [MSlot.carryOver, List.any_eq_false]

/-- The machine with the carry rows l on their way. -/
def State.withRows (s : State) (l : List CarryRow) : State := { s with rows := l }

section Arrival
variable {s : State} {m : CarryRow} {l : List CarryRow}

/-- The first row in the network has none before it to wait for. -/
theorem carryRowArrival_first (hrows : s.rows = m :: l) (hlive : s.live m.ctx = true) :
    exec (.carryRowArrival 0) s = .next ((s.withRows l).addRow m) := by
  show execCarryRowArrival 0 s = _
  unfold execCarryRowArrival
  rw [hrows]
  exact if_neg (by simp [hlive])

theorem addRow_fits (hopen : ((s.getCore m.dst).slot m.dslot).isOpen = true)
    (hscale : ((s.getCore m.dst).slot m.dslot).scale = m.scale)
    (hheadroom : ((s.getCore m.dst).slot m.dslot).headroom = m.headroom)
    (hfull : ((s.getCore m.dst).slot m.dslot).carryOver m = false) :
    s.addRow m =
      (s.setCore m.dst ((s.getCore m.dst).setSlot m.dslot (((s.getCore m.dst).slot m.dslot).addCarry m))).checkChain
        m.dst m.dslot := by
  unfold State.addRow
  dsimp only
  rw [hopen, if_neg (by simp), if_neg (by simp [hscale, hheadroom])]
  exact if_neg (by simpa [MSlot.carryOver] using hfull)

/-- A row that its slot takes adds its elements there, and nothing else of the network or of memory changes. -/
theorem addRow_adds (hopen : ((s.getCore m.dst).slot m.dslot).isOpen = true)
    (hscale : ((s.getCore m.dst).slot m.dslot).scale = m.scale)
    (hheadroom : ((s.getCore m.dst).slot m.dslot).headroom = m.headroom)
    (hfull : ((s.getCore m.dst).slot m.dslot).carryOver m = false)
    (hfuture : ((s.getCore m.dst).slot m.dslot).future = 0) :
    (s.addRow m).rows = s.rows ∧ (s.addRow m).mem = s.mem ∧
      (((s.addRow m).getCore m.dst).slot m.dslot).elems = (((s.getCore m.dst).slot m.dslot).addCarry m).elems := by
  rw [addRow_fits hopen hscale hheadroom hfull]
  obtain ⟨added, hadded⟩ : ∃ t : State, t =
      s.setCore m.dst ((s.getCore m.dst).setSlot m.dslot (((s.getCore m.dst).slot m.dslot).addCarry m)) := ⟨_, rfl⟩
  have hslot : (added.getCore m.dst).slot m.dslot = ((s.getCore m.dst).slot m.dslot).addCarry m := by
    rw [hadded, getCore_setCore_same, slot_setSlot_same]
  obtain ⟨hrows, hmem, helems⟩ := checkChain_noFuture (by rw [hslot, MSlot.addCarry, build_frame]; exact hfuture)
  rw [← hadded]
  refine ⟨hrows.trans ?_, hmem.trans ?_, helems.trans (congrArg MSlot.elems hslot)⟩
  · rw [hadded, setCore_rows]
  · rw [hadded, setCore_mem]

/-- Why a row is discarded, in the order of the checks (R149). -/
def MSlot.refusesRow (x : MSlot) (m : CarryRow) (cause : Nat) : Prop :=
  x.isOpen = false ∧ cause = 0x148 ∨
    x.isOpen = true ∧ (x.scale ≠ m.scale ∨ x.headroom ≠ m.headroom) ∧ cause = 0x149 ∨
    x.isOpen = true ∧ x.scale = m.scale ∧ x.headroom = m.headroom ∧ x.carryOver m = true ∧ cause = 0x14A

theorem addRow_refused {cause : Nat} (h : ((s.getCore m.dst).slot m.dslot).refusesRow m cause) :
    s.addRow m = s.setCore m.dst ((s.getCore m.dst).recordCarry (carryWord cause m s.time)) := by
  unfold State.addRow
  dsimp only
  rcases h with ⟨hopen, rfl⟩ | ⟨hopen, hother, rfl⟩ | ⟨hopen, hscale, hheadroom, hover, rfl⟩
  · rw [hopen, if_pos (by simp)]
  · rw [hopen, if_neg (by simp), if_pos hother]
  · rw [hopen, if_neg (by simp), if_neg (by simp [hscale, hheadroom])]
    exact if_pos hover

/-- The record goes to the lowest free place. -/
theorem recordCarry_lowest {k : Core} {i : Nat} (hi : i < 8) (hfree : tfind i k.carryRecs = none)
    (hused : ∀ j < i, tfind j k.carryRecs ≠ none) (w : Word) :
    k.recordCarry w = { k with carryRecs := tset i { word := w } k.carryRecs } := by
  have hfind : ((List.range 8).find? fun i => (tfind i k.carryRecs).isNone) = some i := by
    rw [List.find?_range_eq_some]
    simpa [hfree, hi] using fun j hj => Option.isSome_iff_ne_none.mpr (hused j hj)
  rw [Core.recordCarry, hfind]

end Arrival

/-! ## Rows that merge (R147) -/

theorem mayMerge_same {a b : CarryRow} (h : mayMerge a b = true) : b.dst = a.dst ∧ b.row = a.row := by
  simp only [mayMerge, Bool.and_eq_true, decide_eq_true_eq] at h
  obtain ⟨⟨⟨⟨⟨⟨-, hdst⟩, -⟩, hrow⟩, -⟩, -⟩, -⟩ := h
  exact ⟨hdst.symm, hrow.symm⟩

theorem mergeRows_place {a b : CarryRow} (h : mayMerge a b = true) :
    (mergeRows a b).dst = a.dst ∧ (mergeRows a b).row = a.row := by
  unfold mergeRows
  dsimp only
  split
  · exact mayMerge_same h
  · exact ⟨rfl, rfl⟩

theorem mergeRows_elem (a b : CarryRow) {j : Nat} (hj : j < 32) :
    (mergeRows a b).elems.getD j {} = (a.elems.getD j {}).join (b.elems.getD j {}) :=
  getD_map_range _ _ hj

/-- Two rows that stand first in the network merge at the place of the first. -/
theorem carryRouterMerge_first {s : State} {a b : CarryRow} {l : List CarryRow} (hrows : s.rows = a :: b :: l)
    (hlive : s.live a.ctx = true) (hmerge : mayMerge a b = true) :
    exec (.carryRouterMerge 0 1) s = .next { s with rows := mergeRows a b :: l } := by
  show execCarryRouterMerge 0 1 s = _
  unfold execCarryRouterMerge
  rw [hrows]
  exact if_pos ⟨Nat.one_pos, hlive, hmerge, rfl⟩

theorem join_comm (a b : Elem) : a.join b = b.join a := by
  simp [Elem.join, Int.add_comm, Nat.add_comm, Bool.or_comm]

theorem join_assoc (a b c : Elem) : (a.join b).join c = a.join (b.join c) := by
  simp [Elem.join, Int.add_assoc, Nat.add_assoc, Bool.or_assoc]

end Sys2Proof.Machine

namespace Sys2Proof.Proofs
open Sys2Proof Sys2Proof.Machine

/-- Settles O26: the first row of the network goes to the adder of its slot, or into a record, or merges with the next. -/
theorem carryRows : Obligations.CarryRows := by
  unfold Obligations.CarryRows
  intro s m l hrows k x full hlive
  have harrives := carryRowArrival_first hrows hlive
  have hover : x.carryOver m = false ↔ full := carryOver_false_iff x m
  refine ⟨fun hopen hscale hheadroom hfull hrow hfuture => ?_, fun cause hcause i hi hfree hused => ?_,
    fun b l' hl hmerge => ?_, fun a b c => ⟨join_comm a b, join_assoc a b c⟩⟩
  · obtain ⟨hrows', hmem, helems⟩ := addRow_adds (s := s.withRows l) hopen hscale hheadroom (hover.mpr hfull) hfuture
    refine ⟨_, harrives, hrows', hmem, fun p hp => ?_⟩
    rw [elem_congr helems]
    exact build_elem x _ hp
  · have hrefused : x.refusesRow m cause := by
      simpa only [MSlot.refusesRow, ← hover, Bool.not_eq_false] using hcause
    have hrecord := recordCarry_lowest (k := k) hi hfree hused (carryWord cause m s.time)
    have hadd : (s.withRows l).addRow m = (s.withRows l).setCore m.dst (k.recordCarry (carryWord cause m s.time)) :=
      addRow_refused hrefused
    rw [hrecord] at hadd
    refine ⟨_, harrives, ?_⟩
    rw [hadd, getCore_setCore_same]
    exact ⟨setCore_rows .., rfl, tfind_tset_same ..⟩
  · subst hl
    obtain ⟨hdst, hrow⟩ := mergeRows_place hmerge
    exact ⟨_, _, carryRouterMerge_first hrows hlive hmerge, rfl, rfl, hdst, hrow, fun j => mergeRows_elem m b⟩

end Sys2Proof.Proofs
end

section
/-! SUPPORT. Commands on a slot that execute at once, and CSTAT (O57), in a core that stands alone and calm: the fields of
their words, and the equation of each command. -/

namespace Sys2Proof.Machine
open Sys2Proof

/-! ## Fields of the words (R135, R184) -/

theorem wfield_zero (w : Word) (len : Nat) : wfield w 0 len = w.toNat % 2 ^ len := by
  rw [wfield, field, Nat.pow_zero, Nat.div_one]

theorem wordScale_eq (w : Word) : wordScale w = Claims.wordE w := by
  rw [wordScale, sint, Claims.wordE, wfield_zero]
  congr 1
  apply BitVec.eq_of_toNat_eq
  simp

theorem wordHeadroom_eq (w : Word) : wordHeadroom w = Claims.wordH w := rfl

theorem wordCount_eq (w : Word) : wordCount w = Claims.wordN w := rfl

theorem geo_eq (w : Word) : Claims.geo w = (geoM w, geoN w, geoK w) := by
  rw [geoM, wfield_zero]
  rfl

/-! ## Commands that execute at once (R187, R191) -/

theorem namesSlot_false {k : Core} {n : Nat} (h : ∀ q ∈ k.mqueue, q.slot ≠ n) : k.namesSlot n = false :=
  List.any_eq_false.mpr fun q hq => by simp [h q hq]

theorem setSlot_advance {s : State} (ha : Claims.Alone s) (n : BitVec 2) (x : MSlot) :
    (s.upd fun k => k.setSlot n.toNat x).advance = Claims.ends s (Claims.withSlot s.core n x) :=
  advance_upd_alone (f := fun k => k.setSlot n.toNat x) ha.quiet rfl

section Immediate
variable {s : State} {a b d : Reg} {n : BitVec 2} (w : BitVec 1) (ha : Claims.Alone s) (hc : Claims.Calm s)
  (hfree : ∀ q ∈ s.core.mqueue, q.slot ≠ n.toNat)
include ha hc hfree

/-- A ready command on a slot that no queued command names acts on it at once. -/
theorem issue_onSlot {l : Names} (hr : s.core.ready l = true) (body : State → MSlot → Out) :
    s.issue l (s.onSlot n body) = body s (Claims.slotOf s n) := by
  rw [State.onSlot, issue_ordered_calm ha hc hr, namesSlot_false hfree, if_neg Bool.false_ne_true]
  rfl

theorem mcfg_acts (hr : s.core.ready { ss := [(a, 0), (b, 0)] } = true) :
    execMcfg a b w n s =
      if (Claims.slotOf s n).isOpen then s.trap 0x144#10 0#64
      else if badContext (s.src a 0) then s.trap 0x141#10 0#64
      else if badSlotWord (s.src b 0) then s.trap 0x145#10 0#64
      else
        .next (Claims.ends s (Claims.withSlot s.core n
          { Claims.slotOf s n with
            elems := []
            context := s.src a 0
            scale := Claims.wordE (s.src b 0)
            headroom := Claims.wordH (s.src b 0) })) := by
  unfold execMcfg
  dsimp only
  rw [issue_onSlot ha hc hfree hr, setSlot_advance ha, wordScale_eq, wordHeadroom_eq]
  rfl

theorem chain_acts (hr : s.core.ready { ss := [(a, 0), (b, 0)] } = true) :
    execChain a b w n s =
      if (Claims.slotOf s n).isOpen then s.trap 0x144#10 0#64
      else if badChainWord false (s.src a 0) then s.trap 0x145#10 0#64
      else
        .next (Claims.ends s (Claims.withSlot s.core n
          { Claims.slotOf s n with
            elems := []
            scale := Claims.wordE (s.src a 0)
            headroom := Claims.wordH (s.src a 0)
            nexp := Claims.wordN (s.src a 0)
            isOpen := true
            future := (s.src b 0).toNat % 2 ^ 32
            card := s.core.card })) := by
  unfold execChain
  dsimp only
  rw [issue_onSlot ha hc hfree hr, ← wordScale_eq]
  exact congrArg _ (congrArg _ (congrArg _ (advance_upd_alone (f := fun k => k.setSlot n.toNat _) ha.quiet rfl)))

theorem mgeo_acts (hr : s.core.ready { ss := [(a, 0)] } = true) :
    execMgeo a w n s =
      if badGeometry (s.src a 0) then s.trap 0x141#10 0#64
      else .next (Claims.ends s (Claims.withSlot s.core n { Claims.slotOf s n with geometry := s.src a 0 })) := by
  unfold execMgeo
  dsimp only
  rw [issue_onSlot ha hc hfree hr, setSlot_advance ha]

theorem mzero_acts :
    execMzero w n s =
      if (Claims.slotOf s n).isOpen then s.trap 0x144#10 0#64
      else .next (Claims.ends s (Claims.withSlot s.core n { Claims.slotOf s n with elems := [] })) := by
  unfold execMzero
  rw [issue_onSlot ha hc hfree rfl, setSlot_advance ha]
  rfl

theorem mstat_reads (hr : s.core.ready { ds := [d] } = true) :
    execMstat d w n s = .next (Claims.ends s (s.core.writeS d (Claims.slotOf s n).statusWord)) := by
  unfold execMstat
  rw [issue_onSlot ha hc hfree hr, setS_advance_alone ha]

theorem mwait_passes : execMwait w n s = .next (Claims.ends s s.core) := by
  unfold execMwait
  rw [issue_ordered_calm ha hc rfl, namesSlot_false hfree, if_neg Bool.false_ne_true, advance_alone ha.quiet]

theorem cclose_closed (h : (Claims.slotOf s n).isOpen = false) : execCclose w n s = .next (Claims.ends s s.core) := by
  unfold execCclose
  rw [issue_onSlot ha hc hfree rfl, h, if_neg Bool.false_ne_true, advance_alone ha.quiet]

theorem cclose_noFuture (h : (Claims.slotOf s n).isOpen = true) (hf : (Claims.slotOf s n).future = 0) :
    execCclose w n s = .next (Claims.ends s (Claims.withSlot s.core n (Claims.slotOf s n).close)) := by
  have hclose : s.closeChain s.cur n.toNat = s.upd fun k => k.setSlot n.toNat (Claims.slotOf s n).close := by
    rw [closeChain_noFuture (by rw [getCore_cur]; exact hf), setCore_cur_core, getCore_cur]
    rfl
  unfold execCclose
  rw [issue_onSlot ha hc hfree rfl, h, if_pos rfl, hclose, setSlot_advance ha]

end Immediate

theorem cwait_closed {s : State} {n : BitVec 2} (w : BitVec 1) (ha : Claims.Alone s) (hc : Claims.Calm s)
    (h : (Claims.slotOf s n).isOpen = false) : execCwait w n s = .next (Claims.ends s s.core) := by
  unfold execCwait
  rw [issue_ordered_calm ha hc rfl]
  exact (if_neg (ne_true_of_eq_false h)).trans (congrArg _ (advance_alone ha.quiet))

/-! ## Carry records (R149, R193) -/

/-- Marks as the bits of a number. -/
theorem testBit_sum_marks (f : Nat → Bool) (n : Nat) :
    ((List.range n).map fun i => if f i then 2 ^ i else 0).sum < 2 ^ n ∧
      ∀ i < n, ((List.range n).map fun i => if f i then 2 ^ i else 0).sum.testBit i = f i := by
  induction n with
  | zero => simp
  | succ n ih =>
    obtain ⟨hlt, hbits⟩ := ih
    rw [List.range_succ, List.map_append, List.sum_append, List.map_singleton, List.sum_singleton]
    refine ⟨by split <;> omega, fun i hi => ?_⟩
    rcases Nat.lt_succ_iff_lt_or_eq.mp hi with hi | rfl
    · rw [← hbits i hi]
      cases f n with
      | false => rw [if_neg Bool.false_ne_true, Nat.add_zero]
      | true => rw [if_pos rfl, Nat.add_comm, Nat.testBit_two_pow_add_gt hi]
    · cases f i with
      | false => rw [if_neg Bool.false_ne_true, Nat.add_zero, Nat.testBit_lt_two_pow hlt]
      | true => rw [if_pos rfl, Nat.add_comm, Nat.testBit_two_pow_add_eq, Nat.testBit_lt_two_pow hlt, Bool.not_false]

theorem carryStatus_fields (k : Core) :
    (k.carryLost < 2 ^ 32 → k.carryStatus.toNat / 2 ^ 32 = k.carryLost) ∧
      ∀ i < 8, k.carryStatus.getLsbD i = (tfind i k.carryRecs).isSome := by
  obtain ⟨hlt, hbits⟩ := testBit_sum_marks (fun i => (tfind i k.carryRecs).isSome) 8
  unfold Core.carryStatus
  generalize ((List.range 8).map fun i => if (tfind i k.carryRecs).isSome then 2 ^ i else 0).sum = marks at hlt hbits
  refine ⟨fun hlost => ?_, fun i hi => ?_⟩
  · rw [BitVec.toNat_ofNat, Nat.mod_eq_of_lt (by omega)]
    omega
  · rw [← hbits i hi, BitVec.getLsbD_ofNat, decide_eq_true (by omega : i < 64), Bool.true_and, Nat.mul_comm,
      Nat.testBit_two_pow_mul_add _ (by omega : marks < 2 ^ 32), if_pos (by omega)]

section Status
variable {s : State} {d a : Reg} (w : BitVec 1) (ha : Claims.Alone s) (hc : Claims.Calm s)
  (hr : s.core.ready { ss := [(a, 0)], ds := [d] } = true) (hkeep : (s.src a 0).getLsbD 4 = false)
include ha hc hr hkeep

theorem cstat_record (h : (s.src a 0).getLsbD 3 = false) :
    execCstat d a w s =
      .next (Claims.ends s (s.core.writeS d
        (match tfind ((s.src a 0).toNat % 8) s.core.carryRecs with | some r => r.word | none => 0#64))) := by
  unfold execCstat
  dsimp only
  rw [issue_ordered_calm ha hc hr, wbit, wbit, h, hkeep, if_neg Bool.false_ne_true, if_neg Bool.false_ne_true,
    setS_advance_alone ha, wfield_zero]
  rfl

theorem cstat_lost (h : (s.src a 0).getLsbD 3 = true) :
    execCstat d a w s = .next (Claims.ends s (s.core.writeS d s.core.carryStatus)) := by
  unfold execCstat
  dsimp only
  rw [issue_ordered_calm ha hc hr, wbit, wbit, h, hkeep, if_pos rfl, if_neg Bool.false_ne_true, setS_advance_alone ha]

end Status

end Sys2Proof.Machine
end

section
/-! SUPPORT. Queued commands of the matrix engine (O23): their checks, and the command that enters the queue of a core that
stands alone and calm. -/

namespace Sys2Proof.Machine
open Sys2Proof

/-! ## The queue (R139, R181) -/

/-- The command as it stands in the queue when its core goes on at once. -/
def State.asQueued (s : State) (q : QCmd) : QCmd :=
  { q with waits := false, system := s.core.system, keys := s.keysNow, card := s.core.card }

@[simp] theorem asQueued_elems (s : State) (q : QCmd) : (s.asQueued q).elems = q.elems := rfl

theorem emptyS_frame (k : Core) (d : Reg) : k.emptyS d = { k with sregs := (k.emptyS d).sregs } := by
  unfold Core.emptyS
  split <;> rfl

theorem quiet_emptyS {k : Core} (h : k.quiet) (d : Reg) : (k.emptyS d).quiet := by
  rw [emptyS_frame]
  exact h

/-- With w = 0 the core goes on, its command queued. -/
theorem enqueue_goes {s : State} {f : Core → Core} (hq : (f s.core).quiet) (hp : (f s.core).pc = s.core.pc) (q : QCmd) :
    (s.upd f).enqueue 0#1 q = .next (Claims.queued s (f s.core) ((s.upd f).asQueued q)) := by
  have hadvance := advance_upd_alone
    (f := fun k => { f k with mqueue := (f k).mqueue ++ [(s.upd f).asQueued q] }) hq hp
  exact congrArg Host.Outcome.next hadvance

theorem enqueue_alone {s : State} (ha : Claims.Alone s) (q : QCmd) :
    s.enqueue 0#1 q = .next (Claims.queued s s.core (s.asQueued q)) :=
  enqueue_goes (f := fun k => k) ha.quiet rfl q

theorem enqueue_emptied {s : State} (ha : Claims.Alone s) (d : Reg) (q : QCmd) :
    (s.upd fun k => k.emptyS d).enqueue 0#1 q =
      .next (Claims.queued s (s.core.emptyS d) ((s.upd fun k => k.emptyS d).asQueued q)) :=
  enqueue_goes (f := fun k => k.emptyS d) (quiet_emptyS ha.quiet d) (by rw [emptyS_frame]) q

theorem queueFull_false {k : Core} (h : k.mqueue.length < 2) : k.queueFull = false := decide_eq_false (by omega)

theorem resumeWait_first {s : State} (h : s.core.pendingWait = false) (body : Out) : s.resumeWait body = body := by
  rw [State.resumeWait, h, if_neg Bool.false_ne_true]

/-- A core whose command has left the queue goes on. -/
theorem resumeWait_done {s : State} (ha : Claims.Alone s) (h : s.core.pendingWait = true)
    (hq : ∀ q ∈ s.core.mqueue, q.waits = false) (body : Out) : s.resumeWait body = .next (Claims.ends s s.core) := by
  have hnone : (s.core.mqueue.any fun q => q.waits) = false := List.any_eq_false.mpr fun q hm => by simp [hq q hm]
  rw [State.resumeWait, h, if_pos rfl, hnone, if_neg Bool.false_ne_true, advance_alone ha.quiet]

/-- Every instruction that may wait for its command first looks whether it does. -/
theorem exec_waitable {i : Instr} {l : Names} (h : Claims.waitable i = some l) (s : State) :
    ∃ body, exec i s = s.issue l (s.resumeWait body) := by
  unfold Claims.waitable at h
  split at h <;> cases h <;> exact ⟨_, rfl⟩

theorem translated_go {s : State} {acc : Access} {l : List (Nat × Nat × Nat)} {ps : List Piece}
    (h : s.cmdPlan acc l = .go ps) (body : List Span → Out) :
    s.translated acc l body = body (Claims.captured (acc == .store) ps) := by
  rw [State.translated, h]
  rfl

/-! ## The conversion of a drain (R128, R153, R189) -/

theorem outFmt_coded {w : Word} (h : drainCoded w = true) : outFmt w = .code (wfield w 6 2) := by
  have h3 : wfield w 0 4 = 3 := of_decide_eq_true h
  rw [outFmt, h3]
  rfl

/-- A format that needs no table has no element that fails. -/
theorem outFmt_ieee {w : Word} (h : wfield w 0 4 < 3) : ∃ f, outFmt w = .ieee f ∧ 0 < f.w / 8 := by
  have hcases : wfield w 0 4 = 0 ∨ wfield w 0 4 = 1 ∨ wfield w 0 4 = 2 := by omega
  rcases hcases with h | h | h <;> rw [outFmt, h]
  · exact ⟨fmt32, rfl, by decide⟩
  · exact ⟨fmtBF, rfl, by decide⟩
  · exact ⟨fmt16, rfl, by decide⟩

theorem drainCopy_unverified {k : Core} {w : Word} (h : drainCoded w = true)
    (hv : (k.table (wfield w 6 2)).verified = false) (lines : List (List (Nat × Fl))) :
    drainCopy k w lines = .error (0, 0x182#10) := by
  rw [drainCopy, outFmt_coded h]
  dsimp only
  rw [hv]
  rfl

theorem drainCopy_ieee {w : Word} {f : Fmt} (h : outFmt w = .ieee f) (k : Core) (lines : List (List (Nat × Fl))) :
    ∃ r, drainCopy k w lines = .ok r := by
  rw [drainCopy, h]
  exact ⟨_, rfl⟩

/-- A conversion through a table succeeds only if the table is verified. -/
theorem drain_verified {x : MSlot} {k : Core} {w : Word} {dual : Bool} {out : List Byte} (h : x.drain k w dual = .ok out) :
    (drainCoded w && !(k.table (wfield w 6 2)).verified) = false := by
  by_contra hbad
  obtain ⟨hcoded, hv⟩ : drainCoded w = true ∧ (k.table (wfield w 6 2)).verified = false := by simpa using hbad
  unfold MSlot.drain at h
  dsimp only at h
  rw [drainCopy_unverified hcoded hv, drainCopy_unverified hcoded hv] at h
  cases dual <;> cases h

theorem drain_ieee {w : Word} (h : wfield w 0 4 < 3) (x : MSlot) (k : Core) (dual : Bool) :
    ∃ out, x.drain k w dual = .ok out := by
  obtain ⟨f, hf, -⟩ := outFmt_ieee h
  obtain ⟨tile, htile⟩ := drainCopy_ieee hf k (x.rows (geoM x.geometry) (geoN x.geometry))
  obtain ⟨transpose, htranspose⟩ := drainCopy_ieee hf k (x.columns (geoM x.geometry) (geoN x.geometry))
  unfold MSlot.drain
  dsimp only
  rw [htile, htranspose]
  cases dual <;> exact ⟨_, rfl⟩

/-! ## The words of MLDACC (R122, R190) -/

theorem ofWord_v (w c : Nat) : (Elem.ofWord w c).v = (BitVec.ofNat 56 w).toInt := rfl

theorem ofWord_count (w c : Nat) : (Elem.ofWord w c).count = c := rfl

/-- The word has none of the flags NaN, +Inf and -Inf. -/
theorem flags_of_word (w c : Nat) :
    (!((Elem.ofWord w c).nan || (Elem.ofWord w c).pinf || (Elem.ofWord w c).ninf)) = decide (w / 2 ^ 56 % 8 = 0) := by
  have hbits : w / 2 ^ 56 % 8 = 0 ↔ w.testBit 56 = false ∧ w.testBit 57 = false ∧ w.testBit 58 = false := by
    simp only [Nat.testBit_eq_decide_div_mod_eq, decide_eq_false_iff_not]
    omega
  simp only [Elem.ofWord, hbits, Bool.decide_and]
  cases w.testBit 56 <;> cases w.testBit 57 <;> cases w.testBit 58 <;> rfl

/-- The words that MLDACC reads at va. -/
def loadedWords (s : State) (va : Nat) : List Nat :=
  (List.range 1024).map fun i => memRead s.mem (Claims.ownKey s va + 8 * i) 8

theorem any_loadedWords (s : State) (va : Nat) (f : Nat → Bool) :
    (loadedWords s va).any f = true ↔ ∃ i < 1024, f (memRead s.mem (Claims.ownKey s va + 8 * i) 8) = true := by
  simp [loadedWords, List.any_eq_true]

theorem imgNat_imageBytes (s : State) (va : Nat) :
    ((List.range 1024).map fun i => imgNat (Claims.imageBytes s va 8192) (8 * i) 8) = loadedWords s va :=
  List.map_congr_left fun i hi => imgNat_memReadBytes s.mem _ (by have := List.mem_range.mp hi; omega)

/-- The elements that MLDACC makes of them. -/
def loadedElems (s : State) (va : Nat) (y : Word) : List Elem :=
  (loadedWords s va).map fun v => Elem.ofWord v (Claims.wordN y)

theorem loadedElems_length (s : State) (va : Nat) (y : Word) : (loadedElems s va y).length = 1024 := by
  simp [loadedElems, loadedWords]

theorem loadedElems_getD (s : State) (va : Nat) (y : Word) {i : Nat} (h : i < 1024) :
    (loadedElems s va y).getD i {} = Elem.ofWord (memRead s.mem (Claims.ownKey s va + 8 * i) 8) (Claims.wordN y) := by
  rw [loadedElems, loadedWords, List.map_map, getD_map_range _ _ h, Function.comp_apply]

/-- A word with none of the flags NaN, +Inf and -Inf lies beyond what its products could reach. -/
def beyondReach (y : Word) (v : Nat) : Bool :=
  decide (v / 2 ^ 56 % 8 = 0) && decide (Claims.wordN y * (2 ^ (55 - Claims.wordH y) - 1) < (BitVec.ofNat 56 v).toInt.natAbs)

/-- The slot that a command names. -/
theorem slot_eq_slotOf (s : State) (n : BitVec 2) : s.core.slot n.toNat = Claims.slotOf s n := rfl

section Queue
variable {s : State} {a b d : Reg} {n : BitVec 2} (ha : Claims.Alone s) (hc : Claims.Calm s)
  (hp : s.core.pendingWait = false)
include ha hc hp

/-- A ready queued command of a core that waits for none runs its checks. -/
theorem issue_resume_ordered {l : Names} (hr : s.core.ready l = true) (body : State → Out) :
    s.issue l (s.resumeWait (s.ordered body)) = body s := by
  rw [issue_ready hr ha.mesh, resumeWait_first hp, ordered_calm hc.loop hc.buffer hc.out]

/-! ## Multiplies (R137, R138, R188) -/

/-- What a multiply queues. -/
def State.multiplyCmd (s : State) (transposed negated : Bool) (a b : Reg) (n : BitVec 2) (ps : List Piece) : QCmd :=
  { cmd := .mma transposed negated
    slot := n.toNat
    a := s.src a 0
    b := s.src b 0
    context := (Claims.slotOf s n).context
    geometry := (Claims.slotOf s n).geometry
    spans := Claims.captured false ps }

omit ha hc hp in
/-- The instructions that multiply differ in the command they queue alone. -/
theorem exec_multiply {i : Instr} {w : BitVec 1} {c : MCmd} (h : Claims.multiply i = some (a, b, w, n, c)) :
    ∃ negated, c = .mma (decide (c = .mma true false)) negated ∧
      exec i s = s.mma (decide (c = .mma true false)) negated a b w n := by
  unfold Claims.multiply at h
  split at h <;> cases h
  · exact ⟨false, rfl, rfl⟩
  · exact ⟨false, rfl, rfl⟩
  · exact ⟨true, rfl, rfl⟩

theorem mma_checked (transposed negated : Bool) (hr : s.core.ready { ss := [(a, 0), (b, 0)] } = true)
    (hroom : s.core.mqueue.length < 2) {ps : List Piece}
    (hplan : s.cmdPlan .load
      (s.core.mmaAccesses (Claims.slotOf s n) transposed (s.src a 0).toNat (s.src b 0).toNat) = .go ps)
    (hx : (s.src a 0).toNat % 8 = 0) (hy : (s.src b 0).toNat % 8 = 0) :
    s.mma transposed negated a b 0#1 n =
      if s.core.overCount n.toNat (geoM (Claims.slotOf s n).geometry) (geoN (Claims.slotOf s n).geometry)
          (geoK (Claims.slotOf s n).geometry) then s.trap 0x140#10 0#64
      else .next (Claims.queued s s.core (s.asQueued (s.multiplyCmd transposed negated a b n ps))) := by
  unfold State.mma
  dsimp only
  rw [issue_resume_ordered ha hc hp hr, queueFull_false hroom, if_neg Bool.false_ne_true]
  refine (translated_go hplan _).trans ?_
  rw [if_neg (by omega), enqueue_alone ha]
  rfl

/-! ## MDRAIN (R189) -/

theorem mdrain_queued (u : BitVec 1) (hr : s.core.ready { ss := [(a, 0), (b, 0)] } = true) (hidle : s.core.mqueue = [])
    (hclosed : (Claims.slotOf s n).isOpen = false)
    (hword : badDrain s.core (s.src b 0) (u == 1#1) (geoM (Claims.slotOf s n).geometry)
      (geoN (Claims.slotOf s n).geometry) = false)
    (hx : (s.src a 0).toNat % 8 = 0) {ps : List Piece}
    (hplan : s.cmdPlan .store
      (drainAccesses s.core (Claims.slotOf s n).geometry (s.src b 0) (u == 1#1) (s.src a 0)) = .go ps)
    {out : List Byte} (hout : (Claims.slotOf s n).drain s.core (s.src b 0) (u == 1#1) = .ok out) :
    execMdrain a b 0#1 u n s =
      .next (Claims.queued s s.core (s.asQueued
        { cmd := .mdrain (u == 1#1), slot := n.toNat, a := s.src a 0, b := s.src b 0,
          spans := Claims.captured true ps, out := out })) := by
  unfold execMdrain
  dsimp only
  rw [issue_resume_ordered ha hc hp hr, slot_eq_slotOf, hclosed, if_neg Bool.false_ne_true, hword,
    if_neg Bool.false_ne_true, if_neg (not_not.mpr hx)]
  refine (translated_go hplan _).trans ?_
  rw [if_neg (by rw [drain_verified hout]; exact Bool.false_ne_true), hidle, if_neg (by simp), hout]
  exact enqueue_alone ha _

/-! ## MLDACC (R190) -/

theorem mldacc_checked (hr : s.core.ready { ss := [(a, 0), (b, 0)] } = true) (hidle : s.core.mqueue = [])
    (hclosed : (Claims.slotOf s n).isOpen = false) (hword : badChainWord true (s.src b 0) = false)
    (hx : (s.src a 0).toNat % 8 = 0) (hi : Claims.Image s (s.src a 0).toNat 8192) :
    execMldacc a b 0#1 n s =
      if (loadedWords s (s.src a 0).toNat).any fun v => decide (2 ^ 60 ≤ v) then s.trap 0x102#10 0#64
      else if (loadedWords s (s.src a 0).toNat).any (beyondReach (s.src b 0)) then s.trap 0x142#10 0#64
      else
        .next (Claims.queued s s.core (s.asQueued
          { cmd := .mldacc, slot := n.toNat, a := s.src a 0, b := s.src b 0,
            elems := loadedElems s (s.src a 0).toNat (s.src b 0) })) := by
  have hbeyond : (fun e : Elem => !(e.nan || e.pinf || e.ninf) &&
      decide (Claims.wordN (s.src b 0) * (2 ^ (55 - Claims.wordH (s.src b 0)) - 1) < e.v.natAbs)) ∘
      (fun v => Elem.ofWord v (Claims.wordN (s.src b 0))) = beyondReach (s.src b 0) := by
    funext v
    rw [Function.comp_apply, flags_of_word]
    rfl
  unfold execMldacc
  dsimp only
  rw [issue_resume_ordered ha hc hp hr, slot_eq_slotOf, hclosed, if_neg Bool.false_ne_true, hword,
    if_neg Bool.false_ne_true, if_neg (not_not.mpr hx), hidle, if_neg (by simp), readImage_own hc.buffer hi,
    imgNat_imageBytes, enqueue_alone ha, wordCount_eq, wordHeadroom_eq, List.any_map, hbeyond, loadedElems]

/-! ## MSTACC and CADD (R145, R190) -/

theorem mstacc_queued (hr : s.core.ready { ss := [(a, 0)], ds := [d] } = true) (hroom : s.core.mqueue.length < 2)
    (hclosed : (Claims.slotOf s n).isOpen = false) (hx : (s.src a 0).toNat % 8 = 0) {ps : List Piece}
    (hplan : s.cmdPlan .store (blockAccesses (s.src a 0).toNat 8192) = .go ps) :
    execMstacc d a 0#1 n s =
      .next (Claims.queued s (s.core.emptyS d) ((s.upd fun k => k.emptyS d).asQueued
        { cmd := .mstacc, slot := n.toNat, a := s.src a 0, d := d, spans := Claims.captured true ps })) := by
  unfold execMstacc
  dsimp only
  rw [issue_resume_ordered ha hc hp hr, slot_eq_slotOf, hclosed, if_neg Bool.false_ne_true, if_neg (not_not.mpr hx),
    queueFull_false hroom, if_neg Bool.false_ne_true]
  exact (translated_go hplan _).trans (enqueue_emptied ha d _)

theorem cadd_checked (hr : s.core.ready { ss := [(a, 0), (b, 0)], ds := [d] } = true) (hroom : s.core.mqueue.length < 2)
    (hclosed : (Claims.slotOf s n).isOpen = false) :
    execCadd d a b 0#1 n s =
      if s.isPeer ((s.src a 0).toNat % 4096) then
        .next (Claims.queued s (s.core.emptyS d) ((s.upd fun k => k.emptyS d).asQueued
          { cmd := .cadd false, slot := n.toNat, a := s.src a 0, b := s.src b 0, d := d }))
      else s.trap 0x146#10 0#64 := by
  unfold execCadd
  dsimp only
  rw [issue_resume_ordered ha hc hp hr, wfield_zero, slot_eq_slotOf, hclosed, if_neg Bool.false_ne_true,
    queueFull_false hroom, if_neg Bool.false_ne_true, enqueue_emptied ha]
  cases s.isPeer ((s.src a 0).toNat % 2 ^ 12) <;> rfl

end Queue

end Sys2Proof.Machine

namespace Sys2Proof.Proofs
open Sys2Proof Sys2Proof.Machine

/-- Settles O23: each queued command passes its checks in their order, and its core goes on with the command in its queue. -/
theorem queuedCommands : Obligations.QueuedCommands := by
  unfold Obligations.QueuedCommands
  intro s ha hc
  refine ⟨fun i l hi hr hwait hdone => ?_, fun hp => ⟨fun i a b n c ps hi hr hroom hx hy hplan => ?_,
    fun a b u n ps out hr hidle hclosed hword hx hplan hout => ?_, ?_,
    fun d a n ps hr hroom hclosed hx hplan => ?_, fun d a b n hr hroom hclosed => ?_⟩⟩
  · obtain ⟨body, hbody⟩ := exec_waitable hi s
    rw [hbody, issue_ready hr ha.mesh, resumeWait_done ha hwait hdone]
  · obtain ⟨negated, hc', hexec⟩ := exec_multiply (s := s) hi
    have hmma := mma_checked ha hc hp _ negated hr hroom hplan hx hy
    rw [← hexec] at hmma
    dsimp only
    rw [geo_eq]
    refine ⟨fun hover => hmma.trans (if_pos hover), fun hover => ?_⟩
    exact ⟨_, hmma.trans (if_neg (ne_true_of_eq_false hover)), hc'.symm, rfl, rfl, rfl, rfl, rfl, rfl, rfl, rfl⟩
  · rw [geo_eq] at hword
    exact ⟨_, mdrain_queued ha hc hp u hr hidle hclosed hword hx hplan hout, rfl, rfl, rfl, rfl, rfl, rfl⟩
  · intro a b n va word hr hidle hclosed hword hx hi
    have hmldacc := mldacc_checked ha hc hp hr hidle hclosed hword hx hi
    have hbad : ((loadedWords s va).any fun v => decide (2 ^ 60 ≤ v)) = true ↔ ∃ i < 1024, 2 ^ 60 ≤ word i := by
      simp only [any_loadedWords, decide_eq_true_eq]
      rfl
    have hfar : (loadedWords s va).any (beyondReach (s.src b 0)) = true ↔ ∃ i < 1024, word i / 2 ^ 56 % 8 = 0 ∧
        Claims.wordN (s.src b 0) * (2 ^ (55 - Claims.wordH (s.src b 0)) - 1) < (BitVec.ofNat 56 (word i)).toInt.natAbs := by
      simp only [any_loadedWords, beyondReach, Bool.and_eq_true, decide_eq_true_eq]
      rfl
    refine ⟨fun h => hmldacc.trans (if_pos (hbad.mpr h)), fun hgood h => ?_, fun hgood => ?_⟩
    · rw [if_neg fun h => ?_, if_pos (hfar.mpr h)] at hmldacc
      · exact hmldacc
      · obtain ⟨i, hi, hle⟩ := hbad.mp h
        exact absurd (hgood i hi) (Nat.not_lt.mpr hle)
    · rw [if_neg fun h => ?_, if_neg fun h => ?_] at hmldacc
      · refine ⟨_, hmldacc, rfl, rfl, ?_⟩
        rw [asQueued_elems]
        dsimp only
        refine ⟨loadedElems_length .., fun i hi => ?_⟩
        rw [loadedElems_getD s _ _ hi]
        exact ⟨ofWord_v .., ofWord_count ..⟩
      · obtain ⟨i, hi, hbeyond⟩ := hfar.mp h
        exact (hgood i hi).2 hbeyond
      · obtain ⟨i, hi, hle⟩ := hbad.mp h
        exact absurd (hgood i hi).1 (Nat.not_lt.mpr hle)
  · exact ⟨_, mstacc_queued ha hc hp hr hroom hclosed hx hplan, rfl, rfl, rfl, rfl, rfl, rfl⟩
  · have hcadd := cadd_checked ha hc hp hr hroom hclosed
    refine ⟨fun hpeer => hcadd.trans (if_neg (ne_true_of_eq_false hpeer)), fun hpeer => ?_⟩
    exact ⟨_, hcadd.trans (if_pos hpeer), rfl, rfl, rfl, rfl, rfl⟩

end Sys2Proof.Proofs
end

section
/-! SUPPORT. Where a command goes on (O57): the accesses of a command whose operands lie in the own scratchpad, and the counts
that leave room for its products. -/

namespace Sys2Proof.Machine
open Sys2Proof

/-! ## The plan of a command in the own scratchpad (R182) -/

section Plan
variable {s : State} (acc : Access)

/-- A part of a command in the own scratchpad is one piece there. -/
theorem cmdPart_own {va off len : Nat} (base : Nat) (ha : va / 2 ^ 56 = 15) (hlen : 0 < len)
    (hs : va % 2 ^ 56 + (off + len) ≤ s.core.scratchSize) (hr : va % 2 ^ 56 + (off + len) ≤ 2 ^ 19) :
    ∃ p, s.cmdPart acc va base off len = .go [p] := by
  refine ⟨_, Eq.trans ?_ (planPart_own acc base ha hlen hs hr)⟩
  rw [State.cmdPart, translate_own_any acc (va := va + off) (by omega) (by omega) (by omega)]

/-- An access is one part or two, each after the other. -/
theorem splitAccess_cases (va n : Nat) :
    splitAccess va n = [(0, n)] ∨ ∃ room < n, 0 < room ∧ splitAccess va n = [(0, room), (room, n - room)] := by
  unfold splitAccess
  dsimp only
  split <;> split
  · exact .inl rfl
  · exact .inr ⟨_, by omega, by omega, rfl⟩
  · exact .inl rfl
  · exact .inr ⟨_, by omega, by omega, rfl⟩

theorem cmdAccess_own {va n : Nat} (base : Nat) (h : Claims.inOwn s va n) (hn : 0 < n) (ps : List Piece) :
    ∃ ps', (splitAccess va n).foldl (fun (p : Plan) y => p.join (s.cmdPart acc va base y.1 y.2)) (.go ps) = .go ps' := by
  obtain ⟨hap, -, hsize, hroom⟩ := h
  rcases splitAccess_cases va n with hsplit | ⟨room, hlt, hpos, hsplit⟩
  · obtain ⟨p, hp⟩ := cmdPart_own (s := s) (off := 0) acc base hap hn (by omega) (by omega)
    rw [hsplit, List.foldl_cons, List.foldl_nil, hp]
    exact ⟨_, rfl⟩
  · obtain ⟨p, hp⟩ := cmdPart_own (s := s) (off := 0) acc base hap hpos (by omega) (by omega)
    obtain ⟨q, hq⟩ := cmdPart_own (s := s) (off := room) (len := n - room) acc base hap (by omega) (by omega) (by omega)
    rw [hsplit, List.foldl_cons, List.foldl_cons, List.foldl_nil, hp, hq]
    exact ⟨_, rfl⟩

/-- A command whose accesses all lie in the own scratchpad has its translations at hand. -/
theorem cmdPlan_own {l : List (Nat × Nat × Nat)} (h : ∀ r ∈ l, Claims.inOwn s r.1 r.2.1 ∧ 0 < r.2.1) :
    ∃ ps, s.cmdPlan acc l = .go ps := by
  unfold State.cmdPlan
  refine List.foldlRecOn (motive := fun p => ∃ ps, p = Plan.go ps) l _ ⟨[], rfl⟩ ?_
  rintro _ ⟨ps, rfl⟩ r hr
  obtain ⟨hown, hn⟩ := h r hr
  exact cmdAccess_own acc r.2.2 hown hn ps

end Plan

/-! ## No access of a command is empty (R183 to R185) -/

theorem bytes_pos (f : ElemFmt) {n : Nat} (h : 0 < n) : 0 < f.bytes n := by
  cases f <;> simp only [ElemFmt.bytes] <;> omega

theorem geo_pos (w : Word) : 0 < geoM w ∧ 0 < geoN w ∧ 0 < geoK w :=
  ⟨Nat.succ_pos _, Nat.succ_pos _, Nat.succ_pos _⟩

theorem mmaAccesses_pos {k : Core} {x : MSlot} {transposed : Bool} {a b : Nat} {r : Nat × Nat × Nat}
    (h : r ∈ k.mmaAccesses x transposed a b) : 0 < r.2.1 := by
  obtain ⟨hm, hn, hk⟩ := geo_pos x.geometry
  unfold Core.mmaAccesses at h
  simp only [List.mem_append, List.mem_map] at h
  rcases h with ((⟨i, -, rfl⟩ | ⟨i, -, rfl⟩) | h) | h
  · exact bytes_pos _ (by split <;> assumption)
  · exact bytes_pos _ hn
  all_goals
    split at h
    · obtain rfl := List.mem_singleton.mp h
      assumption
    · cases h

/-- Rows that no table codes have no scale bytes, and are not empty. -/
theorem drainAccesses_pos {k : Core} {g w a : Word} {dual : Bool} (hw : wfield w 0 4 < 3) {r : Nat × Nat × Nat}
    (h : r ∈ drainAccesses k g w dual a) : 0 < r.2.1 := by
  obtain ⟨hm, hn, -⟩ := geo_pos g
  obtain ⟨f, hf, hbytes⟩ := outFmt_ieee hw
  have hrow {n : Nat} (hn : 0 < n) : 0 < outBytes k w n := by
    rw [outBytes, hf]
    exact Nat.mul_pos hn hbytes
  have hcoded : drainCoded w = false := decide_eq_false (by omega)
  unfold drainAccesses copyAccesses at h
  simp only [hcoded, Bool.false_eq_true, if_false, List.append_nil, List.mem_append, List.mem_map] at h
  rcases h with ⟨i, -, rfl⟩ | h
  · exact hrow hn
  · split at h
    · obtain ⟨i, -, rfl⟩ := List.mem_map.mp h
      exact hrow hm
    · cases h

/-- The lines of a block of 8,192 bytes. -/
theorem blockAccesses_own {s : State} {va : Nat} (h : Claims.inOwn s va 8192) {r : Nat × Nat × Nat}
    (hr : r ∈ blockAccesses va 8192) : Claims.inOwn s r.1 r.2.1 ∧ 0 < r.2.1 := by
  obtain ⟨hap, hin, hsize, hroom⟩ := h
  obtain ⟨i, hi, rfl⟩ := List.mem_map.mp hr
  have hlt := List.mem_range.mp hi
  unfold Claims.inOwn
  dsimp only
  omega

/-! ## Room for the products (R138) -/

/-- With no command queued, K products more pass no bound when no element's count would. -/
theorem overCount_false {k : Core} {n m nn kk : Nat} (hidle : k.mqueue = [])
    (h : ∀ p, ((k.slot n).elem p).count + kk ≤ 2 ^ (k.slot n).headroom ∧
      ((k.slot n).isOpen = true → ((k.slot n).elem p).count + kk ≤ (k.slot n).nexp)) :
    k.overCount n m nn kk = false := by
  have htop (bound : Nat) (hb : ∀ p, ((k.slot n).elem p).count + kk ≤ bound) :
      (List.range m).foldl (fun t i => (List.range nn).foldl (fun t j => max t ((k.slot n).elem (32 * i + j)).count) t) 0 +
        kk ≤ bound := by
    refine foldl_keeps (fun t => t + kk ≤ bound) _ (fun t i ht => ?_) _ _ ?_
    · refine foldl_keeps (fun t => t + kk ≤ bound) _ (fun t j ht => ?_) _ _ ht
      have := hb (32 * i + j)
      omega
    · have := hb 0
      omega
  have hqueued : k.queuedProducts n = 0 := by
    rw [Core.queuedProducts, hidle]
    rfl
  have hheadroom := htop _ fun p => (h p).1
  unfold Core.overCount
  dsimp only
  rw [hqueued, Nat.add_zero, decide_eq_false (Nat.not_lt.mpr hheadroom), Bool.false_or]
  cases hopen : (k.slot n).isOpen with
  | false => rfl
  | true => rw [Bool.true_and, decide_eq_false (Nat.not_lt.mpr (htop _ fun p => (h p).2 hopen))]

end Sys2Proof.Machine

namespace Sys2Proof.Proofs
open Sys2Proof Sys2Proof.Machine

/-- The commands that execute at once: each is one equation, whose branches the statement names. -/
theorem slotCommands_immediate : Claims.SlotCommands := by
  intro s n w ha hc hfree m
  refine ⟨fun a b hr => ?_, fun a hr => ?_, fun h => (mzero_acts w ha hc hfree).trans (if_pos h),
    fun h => (mzero_acts w ha hc hfree).trans (if_neg (ne_true_of_eq_false h)), fun d hr => mstat_reads w ha hc hfree hr,
    mwait_passes w ha hc hfree, fun h => ⟨cclose_closed w ha hc hfree h, cwait_closed w ha hc h⟩,
    fun h hf => cclose_noFuture w ha hc hfree h hf⟩
  · have hmcfg : exec (.mcfg a b w n) s = _ := mcfg_acts w ha hc hfree hr
    have hchain : exec (.chain a b w n) s = _ := chain_acts w ha hc hfree hr
    rw [hmcfg, hchain]
    refine ⟨fun h => ⟨if_pos h, if_pos h⟩, fun h => ⟨fun hx => ?_, fun hx hy => ?_, fun hx hy => ?_, fun hx => ?_,
      fun hx => ?_⟩⟩
    · rw [if_neg (ne_true_of_eq_false h), if_pos hx]
    · rw [if_neg (ne_true_of_eq_false h), if_neg (ne_true_of_eq_false hx), if_pos hy]
    · rw [if_neg (ne_true_of_eq_false h), if_neg (ne_true_of_eq_false hx), if_neg (ne_true_of_eq_false hy)]
    · rw [if_neg (ne_true_of_eq_false h), if_pos hx]
    · rw [if_neg (ne_true_of_eq_false h), if_neg (ne_true_of_eq_false hx)]
  · have hmgeo : exec (.mgeo a w n) s = _ := mgeo_acts w ha hc hfree hr
    rw [hmgeo]
    exact ⟨fun h => if_pos h, fun h => if_neg (ne_true_of_eq_false h)⟩

theorem carryStatus : Claims.CarryStatus := by
  intro s d a w ha hc hr hkeep
  exact ⟨cstat_record w ha hc hr hkeep, fun h => ⟨_, cstat_lost w ha hc hr hkeep h, carryStatus_fields s.core⟩⟩

/-- The conditions of each rule pass the checks of its command. -/
theorem matrixCompletes : Claims.MatrixCompletes := by
  intro s d a b n ha hc hp hidle m g x y
  have hroom : s.core.mqueue.length < 2 := by rw [hidle]; exact Nat.two_pos
  refine ⟨fun hr hx => ⟨fun hy hcount => ?_, fun hclosed => ⟨fun u hfmt hword hown => ?_, fun hword hi hwords => ?_⟩⟩,
    fun hclosed => ⟨fun hr hx hown => ?_, fun hr hpeer => ?_⟩⟩
  · have hunder : s.core.overCount n.toNat (geoM m.geometry) (geoN m.geometry) (geoK m.geometry) = false := by
      simp only [g, geo_eq] at hcount
      exact overCount_false hidle hcount
    have hgo (transposed negated : Bool)
        (hown : ∀ r ∈ s.core.mmaAccesses m transposed x.toNat y.toNat, Claims.inOwn s r.1 r.2.1) :
        ∃ q, s.mma transposed negated a b 0#1 n = .next (Claims.queued s s.core q) ∧
          q.cmd = .mma transposed negated := by
      obtain ⟨ps, hplan⟩ := cmdPlan_own .load fun r hr => ⟨hown r hr, mmaAccesses_pos hr⟩
      exact ⟨_, (mma_checked ha hc hp transposed negated hr hroom hplan hx hy).trans (if_neg (ne_true_of_eq_false hunder)),
        rfl⟩
    exact ⟨fun hown => ⟨hgo false false hown, hgo false true hown⟩, fun hown => hgo true false hown⟩
  · have hlow : wfield y 0 4 < 3 := by rwa [wfield_zero]
    obtain ⟨out, hout⟩ := drain_ieee hlow m s.core (u == 1#1)
    obtain ⟨ps, hplan⟩ := cmdPlan_own .store fun r hr => ⟨hown r hr, drainAccesses_pos hlow hr⟩
    simp only [g, geo_eq] at hword
    exact ⟨_, mdrain_queued ha hc hp u hr hidle hclosed hword hx hplan hout, rfl⟩
  · have hmldacc := mldacc_checked ha hc hp hr hidle hclosed hword hx hi
    rw [if_neg fun h => ?_, if_neg fun h => ?_] at hmldacc
    · exact ⟨_, hmldacc, rfl⟩
    · obtain ⟨i, hi, hbeyond⟩ := (any_loadedWords ..).mp h
      simp only [beyondReach, Bool.and_eq_true, decide_eq_true_eq] at hbeyond
      exact absurd (hwords i hi).2 (Nat.not_le.mpr hbeyond.2)
    · obtain ⟨i, hi, hle⟩ := (any_loadedWords ..).mp h
      exact absurd (hwords i hi).1 (Nat.not_lt.mpr (of_decide_eq_true hle))
  · obtain ⟨ps, hplan⟩ := cmdPlan_own .store fun r hr => blockAccesses_own hown hr
    exact ⟨_, mstacc_queued ha hc hp hr hroom hclosed hx hplan, rfl⟩
  · exact ⟨_, (cadd_checked ha hc hp hr hroom hclosed).trans (if_pos hpeer), rfl⟩

/-- Settles O57: the commands that execute at once, CSTAT, and where a queued command goes on. -/
theorem slotCommands : Obligations.SlotCommands := ⟨slotCommands_immediate, carryStatus, matrixCompletes⟩

end Sys2Proof.Proofs
end

section
/-! SUPPORT. The engine performs the command at the head of its queue (O24). -/

namespace Sys2Proof.Machine
open Sys2Proof

/-! ## What the engine leaves alone -/

theorem getCore_of_offMemory {s t : State} (h : t.offMemory = s.offMemory) (d : CoreId) : t.getCore d = s.getCore d := by
  have h' := congrArg (fun u : State => u.getCore d) h
  exact h'

theorem getCore_countCtx (s : State) (ctx idx n : Nat) (d : CoreId) : (s.countCtx ctx idx n).getCore d = s.getCore d :=
  getCore_of_offMemory (countCtx_offMemory s ctx idx n) d

theorem countCtx_rows (s : State) (ctx idx n : Nat) : (s.countCtx ctx idx n).rows = s.rows := by
  rw [countCtx_frame]

theorem getCore_popCommand (s : State) (c : CoreId) :
    (s.popCommand c).getCore c = { s.getCore c with mqueue := (s.getCore c).mqueue.tail } := getCore_mapCore_same s c _

theorem popCommand_mem (s : State) (c : CoreId) : (s.popCommand c).mem = s.mem := mapCore_mem s c _

theorem popCommand_rows (s : State) (c : CoreId) : (s.popCommand c).rows = s.rows := setCore_rows s c _

/-- The value of a command reaches its name, and the routine in progress, and nothing else of the core. -/
theorem fillS_frame (k : Core) (d : Reg) (x : Word) :
    k.fillS d x = { k with sregs := (k.fillS d x).sregs, routine := (k.fillS d x).routine } := by
  unfold Core.fillS Core.fillOwnS
  split
  · rfl
  · split <;> rfl

@[simp] theorem fillS_mentries (k : Core) (d : Reg) (x : Word) : (k.fillS d x).mentries = k.mentries := by rw [fillS_frame]
@[simp] theorem fillS_mqueue (k : Core) (d : Reg) (x : Word) : (k.fillS d x).mqueue = k.mqueue := by rw [fillS_frame]
@[simp] theorem fillS_mslots (k : Core) (d : Reg) (x : Word) : (k.fillS d x).mslots = k.mslots := by rw [fillS_frame]

/-- An empty match table has no completion action due. -/
theorem entryActions_none {s : State} {c : CoreId} (h : (s.getCore c).mentries = []) : s.entryActions c = s := by
  have hspent (e : Nat) : (s.getCore c).spent e = false := by
    simp [Core.spent, Core.entry, h, tget, tfind, entryNfire, field]
  refine foldl_eq_self fun e _ => ?_
  unfold State.entryAction
  dsimp only
  rw [Core.actionDue, hspent]
  rfl

section Head
variable {s : State} {c : CoreId} {q : QCmd} {l : List QCmd} (hqueue : (s.getCore c).mqueue = q :: l)
  (hlive : s.engineLive c = true)

include hqueue hlive in
/-- What the engine can do with the command at the head of the queue of a core with no match table, it does. -/
theorem matrixCommandComplete_finishes {t : State} (hf : s.finishCommand c q = some t) (ht : (t.getCore c).mentries = []) :
    exec (.matrixCommandComplete c) s = .next t := by
  show execMatrixCommandComplete c s = _
  unfold execMatrixCommandComplete
  rw [hqueue]
  dsimp only
  rw [hlive, Bool.true_or, Bool.not_true, if_neg Bool.false_ne_true]
  split
  case h_1 hcmd => rw [State.finishCommand, hcmd] at hf; cases hf
  case h_2 hcmd => rw [State.finishCommand, hcmd] at hf; cases hf
  case h_3 => rw [hf]; exact congrArg _ (entryActions_none ht)

/-! ## MLDACC (R190) -/

/-- The slot that MLDACC loads. -/
def QCmd.loaded (q : QCmd) (x : MSlot) : MSlot :=
  { x with scale := Claims.wordE q.b, headroom := Claims.wordH q.b }.build fun i => q.elems.getD i {}

theorem finish_mldacc (h : q.cmd = .mldacc) :
    s.finishCommand c q =
      some ((s.setCore c ((s.getCore c).setSlot q.slot (q.loaded ((s.getCore c).slot q.slot)))).popCommand c) := by
  rw [State.finishCommand, h]
  dsimp only
  rw [wordScale_eq, wordHeadroom_eq]
  rfl

theorem loaded_words (q : QCmd) (x : MSlot) :
    (q.loaded x).scale = Claims.wordE q.b ∧ (q.loaded x).headroom = Claims.wordH q.b := by
  rw [QCmd.loaded, build_frame]
  exact ⟨rfl, rfl⟩

/-! ## CADD (R145) -/

/-- Row r of the slot of a CADD. -/
def State.caddRow (s : State) (c : CoreId) (q : QCmd) (r : Nat) : CarryRow :=
  { ctx := (s.getCore c).context.getD 64
    dst := q.a.toNat % 4096
    dslot := q.b.toNat % 4
    row := r
    src := c
    sslot := q.slot
    scale := ((s.getCore c).slot q.slot).scale
    headroom := ((s.getCore c).slot q.slot).headroom
    elems := (List.range 32).map fun j => ((s.getCore c).slot q.slot).elem (32 * r + j) }

theorem caddRow_elem (s : State) (c : CoreId) (q : QCmd) (r : Nat) {j : Nat} (hj : j < 32) :
    (s.caddRow c q r).elems.getD j {} = ((s.getCore c).slot q.slot).elem (32 * r + j) :=
  getD_map_range _ _ hj

theorem sendRows_rows (s : State) (c : CoreId) (q : QCmd) :
    (s.sendRows c q).rows = s.rows ++ (List.range 32).map (s.caddRow c q) := by
  unfold State.sendRows
  dsimp only
  rw [countCtx_rows, wfield_zero, wfield_zero]
  dsimp only
  rw [setCore_rows]
  rfl

theorem sendRows_mem (s : State) (c : CoreId) (q : QCmd) : (s.sendRows c q).mem = s.mem :=
  (countCtx_mem ..).trans (setCore_mem s c _)

theorem getCore_sendRows (s : State) (c : CoreId) (q : QCmd) :
    (s.sendRows c q).getCore c = (s.getCore c).setSlot q.slot ((s.getCore c).slot q.slot).clear :=
  (getCore_countCtx ..).trans (getCore_setCore_same s c _)

theorem finish_cadd (h : q.cmd = .cadd false) :
    s.finishCommand c q = some (((s.sendRows c q).mapCore c fun k => k.fillS q.d 0#64).popCommand c) := by
  rw [State.finishCommand, h]
  exact if_neg fun hr => Bool.false_ne_true hr.1

/-! ## MSTACC reads its slot (R190) -/

/-- The command with the words of its slot. -/
def QCmd.reading (q : QCmd) (x : MSlot) : QCmd :=
  { q with out := (List.range 1024).flatMap fun i => natBytes (x.elem i).word 8, started := true }

theorem finish_mstacc_read (h : q.cmd = .mstacc) (hs : q.started = false) :
    s.finishCommand c q =
      some ((s.setCore c ((s.getCore c).fillS q.d ((s.getCore c).slot q.slot).statusWord)).setHead c
        (q.reading ((s.getCore c).slot q.slot))) := by
  rw [State.finishCommand, QCmd.reading, h]
  exact if_neg (ne_true_of_eq_false hs)

theorem getCore_setHead (s : State) (c : CoreId) (q : QCmd) :
    (s.setHead c q).getCore c = { s.getCore c with mqueue := q :: (s.getCore c).mqueue.tail } := getCore_mapCore_same s c _

/-! ## Writes to the own scratchpad (R189) -/

/-- A write of a command to the scratchpad of its core that nothing holds back. -/
structure HomeWrite (s : State) (c : CoreId) (q : QCmd) (p : Span) : Prop where
  place : p.place = .scratch c
  clean : s.poisonIn (scratchKey c p.addr) p.len = false
  near : s.ownNear c (.scratch c) p.addr p.len = false
  todo : p.done = false
  free : p.blocked = false
  bytes : p.off + p.len ≤ q.out.length

theorem HomeWrite.spanBytes_length {p : Span} (h : HomeWrite s c q p) : (spanBytes q p).length = p.len := by
  have := h.bytes
  rw [spanBytes, List.length_take, List.length_drop]
  omega

/-- It is still free after writes that change memory alone and poison nothing. -/
theorem HomeWrite.of_offMemory {t : State} {p : Span} (h : HomeWrite s c q p) (he : t.offMemory = s.offMemory)
    (hp : ∀ g ∈ t.poisoned, g ∈ s.poisoned) : HomeWrite t c q p where
  place := h.place
  clean := by
    have hclean := h.clean
    simp only [State.poisonIn, List.any_eq_false] at hclean ⊢
    exact fun g hg => hclean g (hp g hg)
  near := by
    have hnear := congrArg (fun u : State => u.ownNear c (.scratch c) p.addr p.len) he
    exact hnear.trans h.near
  todo := h.todo
  free := h.free
  bytes := h.bytes

theorem poisonPart_clean {key n : Nat} (h : s.poisonIn key n = false) : s.poisonPart key n = false := by
  simp only [State.poisonIn, State.poisonPart, List.any_eq_false, Bool.and_eq_true, not_and] at h ⊢
  exact fun g hg hover => absurd hover (h g hg)

/-- The write log holds lines of HBM alone. -/
theorem logWrite_scratch (s : State) (n c a : Nat) : s.logWrite n (scratchKey c a) = s := by
  unfold State.logWrite
  split
  · rfl
  · exact if_pos (.inr (by rw [scratchKey]; omega))

theorem watchEngine_home (hw : (s.getCore c).wp = []) (acc : Access) (addr n va : Nat) :
    s.watchEngine c acc (.scratch c) addr n va = s := by
  simp [State.watchEngine, State.watchServed, wpMatch_none hw]

theorem engineStore_home (hw : (s.getCore c).wp = []) (ctx : Nat) {a : Nat} (va : Nat) {bytes : List Byte}
    (hclean : s.poisonIn (scratchKey c a) bytes.length = false) :
    (s.engineStore c ctx (.scratch c) a va bytes true).offMemory = s.offMemory ∧
      (∀ g ∈ (s.engineStore c ctx (.scratch c) a va bytes true).poisoned, g ∈ s.poisoned) ∧
      (s.engineStore c ctx (.scratch c) a va bytes true).mem =
        memWrite s.mem (scratchKey c a) (bytesNat bytes) bytes.length := by
  unfold State.engineStore
  dsimp only [keyOf]
  by_cases hn : bytes.length = 0
  · rw [if_pos hn, hn]
    exact ⟨rfl, fun _ hg => hg, rfl⟩
  · rw [if_neg hn, poisonPart_clean hclean, if_neg Bool.false_ne_true, watchEngine_home hw, State.writeAt, logWrite_scratch]
    exact ⟨rfl, fun g hg => (List.mem_filter.mp hg).1, rfl⟩

theorem spanStep_home {p : Span} (hw : (s.getCore c).wp = []) (h : HomeWrite s c q p) :
    ∃ t, s.spanStep c q p = some (t, { p with done := true }) ∧ t.offMemory = s.offMemory ∧
      (∀ g ∈ t.poisoned, g ∈ s.poisoned) ∧
      t.mem = memWrite s.mem (scratchKey c p.addr) (bytesNat (spanBytes q p)) p.len := by
  have hstore := engineStore_home hw ((s.getCore c).context.getD 64) (a := p.addr) p.va (bytes := spanBytes q p)
    (by rw [h.spanBytes_length]; exact h.clean)
  rw [h.spanBytes_length] at hstore
  refine ⟨_, ?_, hstore⟩
  rw [State.spanStep, State.writeSpan, h.free, Bool.not_false, if_pos rfl, h.place, h.near]
  refine if_neg ?_
  rintro (⟨hhbm, -⟩ | hnear)
  · cases hhbm
  · cases hnear

/-- Memory after the writes of some spans, in their order. -/
def spansWritten (c : CoreId) (q : QCmd) (l : List Span) (m : List Host.Cell) : List Host.Cell :=
  l.foldl (fun m p => memWrite m (scratchKey c p.addr) (bytesNat (spanBytes q p)) p.len) m

/-- Every write is made, each after those before it. -/
theorem writeSpans_home {l seen : List Span} (moved : Bool) (hw : (s.getCore c).wp = []) (hl : ∀ p ∈ l, HomeWrite s c q p)
    (hseen : ∀ e ∈ seen, e.done = true) :
    ((State.writeSpans c q false l seen moved s).2.1.all fun p => p.done) = true ∧
      (State.writeSpans c q false l seen moved s).1.offMemory = s.offMemory ∧
      (State.writeSpans c q false l seen moved s).1.mem = spansWritten c q l s.mem := by
  induction l generalizing s seen moved with
  | nil => exact ⟨List.all_eq_true.mpr hseen, rfl, rfl⟩
  | cons p l ih =>
    have hp := hl p List.mem_cons_self
    obtain ⟨t, hstep, hoff, hpoison, hmem⟩ := spanStep_home hw hp
    have hwait : (seen.any fun e => !e.done && overlaps e.va e.len p.va p.len) = false :=
      List.any_eq_false.mpr fun e he => by simp [hseen e he]
    have hrest := ih (s := t) (seen := seen ++ [{ p with done := true }]) true
      (by rw [getCore_of_offMemory hoff]; exact hw)
      (fun r hr => (hl r (List.mem_cons_of_mem p hr)).of_offMemory hoff hpoison)
      (fun e he => by
        rcases List.mem_append.mp he with he | he
        · exact hseen e he
        · rw [List.mem_singleton.mp he])
    rw [State.writeSpans, hp.todo, hwait, Bool.false_and, Bool.or_false, Bool.or_false, if_neg Bool.false_ne_true, hstep]
    obtain ⟨hall, hoff', hmem'⟩ := hrest
    exact ⟨hall, hoff'.trans hoff, hmem'.trans (congrArg (spansWritten c q l) hmem)⟩

theorem finishWrites_home (hw : (s.getCore c).wp = []) (hl : ∀ p ∈ q.spans, HomeWrite s c q p) :
    ∃ t : State, s.finishWrites c q false = some (t.popCommand c) ∧ t.offMemory = s.offMemory ∧
      t.mem = spansWritten c q q.spans s.mem := by
  obtain ⟨hall, hoff, hmem⟩ := writeSpans_home (seen := []) false hw hl (fun e he => absurd he List.not_mem_nil)
  exact ⟨_, if_pos hall, hoff, hmem⟩

theorem finish_writes (h : (∃ dual, q.cmd = .mdrain dual) ∨ q.cmd = .mstacc ∧ q.started = true) :
    s.finishCommand c q = s.finishWrites c q false := by
  rcases h with ⟨dual, h⟩ | ⟨h, hs⟩ <;> rw [State.finishCommand, h]
  exact if_pos hs

/-! ## A multiply of operands in the own scratchpad (R137, R138, R141) -/

/-- The products that a multiply adds to element (i, j), one after the other. -/
def productsInto (negated : Bool) (x : MSlot) (f : Nat → Fl) (n : Nat) (e : Elem) : Elem :=
  (List.range n).foldl (fun e k => e.accumulate x.scale x.headroom (if negated then (f k).flip else f k)) e

theorem productsInto_count (negated : Bool) (x : MSlot) (f : Nat → Fl) (n : Nat) (e : Elem) :
    (productsInto negated x f n e).count = e.count :=
  foldl_keeps (fun t : Elem => t.count = e.count) _ (fun _ _ ht => (accumulate_count ..).trans ht) _ _ rfl

/-- Element (i, j) of the region takes the products of row i and column j; any other element stays. -/
theorem multiply_elem (x : MSlot) {m n k : Nat} (negated : Bool) {a b : List (List Fl)} {f g : Nat → Nat → Fl} {i j : Nat}
    (hi : i < 32) (hj : j < 32) (ha : i < m → a.getD i [] = (List.range k).map (f i))
    (hb : j < n → b.getD j [] = (List.range k).map (g j)) :
    (x.multiply m n k negated a b).elem (32 * i + j) =
      if i < m ∧ j < n then
        { productsInto negated x (fun c => product (f i c) (g j c)) k (x.elem (32 * i + j)) with
          count := (x.elem (32 * i + j)).count + k }
      else x.elem (32 * i + j) := by
  unfold MSlot.multiply
  rw [build_elem x _ (by omega)]
  dsimp only
  rw [show (32 * i + j) / 32 = i by omega, show (32 * i + j) % 32 = j by omega]
  split
  case isTrue hin =>
    rw [ha hin.1, hb hin.2, List.zip_map', List.foldl_map]
    rfl
  case isFalse => rfl

theorem multiply_frame (x : MSlot) (m n k : Nat) (negated : Bool) (a b : List (List Fl)) :
    x.multiply m n k negated a b = { x with elems := (x.multiply m n k negated a b).elems } := build_frame ..

section Home
variable (hhome : Claims.atHome s c q)
include hhome

theorem spanOf_place {o : Nat} {p : Span} (h : q.spanOf o = some p) : p.place = .scratch c :=
  (hhome p (List.mem_of_find?_eq_some h)).1

/-- Nothing read before, a byte of the operands is that of memory. -/
theorem readByte_home (ht : q.taken = []) (o : Nat) : s.readByte q o = Claims.operandByte s c q o := by
  have hfind : q.spanOf o = q.spans.find? fun p => decide (p.off ≤ o ∧ o < p.off + p.len) := by
    simp only [QCmd.spanOf, Bool.decide_and]
  rw [State.readByte, Claims.operandByte, ← hfind]
  cases hspan : q.spanOf o with
  | none => rfl
  | some p =>
    dsimp only
    rw [spanOf_place hhome hspan, ht]
    rfl

theorem readRow_home (ht : q.taken = []) (o n : Nat) : s.readRow q o n = Claims.operandRow s c q o n :=
  List.map_congr_left fun i _ => readByte_home hhome ht (o + i)

/-- The engine reads the operands with nothing on its way to them, no watchpoint, and nothing to note. -/
theorem finish_mma {transposed negated : Bool} (h : q.cmd = .mma transposed negated)
    (hw : (s.getCore c).wp = []) :
    s.finishCommand c q = some ((s.performMma c q transposed negated).popCommand c) := by
  have hbusy : s.operandsBusy c q = false := List.any_eq_false.mpr fun p hp => by
    obtain ⟨hplace, -, hstore, -⟩ := hhome p hp
    simp [hplace, hstore]
  have hwatch : q.spans.foldl (fun t p => t.watchEngine c .load p.place p.addr p.len p.va) s = s :=
    foldl_eq_self fun p hp => by rw [(hhome p hp).1]; exact watchEngine_home hw ..
  have hnote : q.spans.foldl (fun t p => t.noteRead ((s.getCore c).context.getD 64) p.place p.addr p.len
      (if p.counted then 0x100#64 else 0#64)) s = s :=
    foldl_eq_self fun p hp => by rw [(hhome p hp).1]; rfl
  have hclean : (q.spans.find? fun p => s.poisonIn (keyOf p.place p.addr) p.len) = none :=
    List.find?_eq_none.mpr fun p hp => by
      obtain ⟨hplace, hpoison, -⟩ := hhome p hp
      rw [hplace]
      exact ne_true_of_eq_false hpoison
  rw [State.finishCommand, h]
  dsimp only
  rw [hbusy, if_neg Bool.false_ne_true, hwatch, hnote, hclean]

/-- The products of a multiply are those of the rows of A and the columns of B, and its slot takes them. -/
theorem performMma_home (transposed negated : Bool) (ht : q.taken = [])
    (hclosed : ((s.getCore c).slot q.slot).isOpen = false) :
    ∃ a b, s.performMma c q transposed negated =
        (s.setCore c ((s.getCore c).setSlot q.slot (((s.getCore c).slot q.slot).multiply (geoM q.geometry)
          (geoN q.geometry) (geoK q.geometry) negated a b))).countCtx ((s.getCore c).context.getD 64) 1
            (geoM q.geometry * geoN q.geometry * geoK q.geometry) ∧
      (∀ i < geoM q.geometry, a.getD i [] = (List.range (geoK q.geometry)).map fun k =>
        Claims.operandA s c q transposed i k) ∧
      ∀ j < geoN q.geometry, b.getD j [] = (List.range (geoK q.geometry)).map fun k => Claims.operandB s c q k j := by
  unfold State.performMma
  dsimp only
  refine ⟨_, _, checkChain_closed ?_, fun i hi => ?_, fun j hj => ?_⟩
  · rw [getCore_countCtx, getCore_setCore_same, slot_setSlot_same, multiply_frame]
    exact hclosed
  · rw [getD_map_range _ _ hi]
    refine List.map_congr_left fun k hk => ?_
    have hk := List.mem_range.mp hk
    rw [Claims.operandA, geo_eq, readByte_home hhome ht]
    cases transposed with
    | false =>
      simp only [Bool.false_eq_true, if_false]
      rw [getD_map_range _ _ hi, readRow_home hhome ht]
      rfl
    | true =>
      simp only [if_true]
      rw [getD_map_range _ _ hk, readRow_home hhome ht]
      rfl
  · rw [getD_map_range _ _ hj]
    refine List.map_congr_left fun k hk => ?_
    rw [Claims.operandB, geo_eq, readByte_home hhome ht, getD_map_range _ _ (List.mem_range.mp hk), readRow_home hhome ht]
    rfl

end Home

/-- The statement's element after a multiply: its products, and its count grown by K. -/
theorem multiplied_eq (s : State) (c : CoreId) (q : QCmd) (transposed negated : Bool) (x : MSlot) (i j : Nat) :
    Claims.multiplied s c q transposed negated x i j =
      { productsInto negated x (fun k => product (Claims.operandA s c q transposed i k) (Claims.operandB s c q k j))
          (geoK q.geometry) (x.elem (32 * i + j)) with
        count := (x.elem (32 * i + j)).count + geoK q.geometry } := by
  rw [← productsInto_count negated x
    (fun k => product (Claims.operandA s c q transposed i k) (Claims.operandB s c q k j)) (geoK q.geometry),
    Claims.multiplied, geo_eq]
  rfl

/-! ## What each command leaves -/

section Complete
variable (hentries : (s.getCore c).mentries = [])
include hqueue

theorem tail_of_queue : (s.getCore c).mqueue.tail = l := by rw [hqueue, List.tail_cons]

include hlive hentries

theorem multiply_completes {transposed negated : Bool} (hcmd : q.cmd = .mma transposed negated) (ht : q.taken = [])
    (hw : (s.getCore c).wp = []) (hhome : Claims.atHome s c q) (hclosed : ((s.getCore c).slot q.slot).isOpen = false) :
    ∃ t, exec (.matrixCommandComplete c) s = .next t ∧ (t.getCore c).mqueue = l ∧ t.mem = s.mem ∧
      (∀ i < 32, ∀ j < 32, ((t.getCore c).slot q.slot).elem (32 * i + j) =
        if i < geoM q.geometry ∧ j < geoN q.geometry then
          Claims.multiplied s c q transposed negated ((s.getCore c).slot q.slot) i j
        else ((s.getCore c).slot q.slot).elem (32 * i + j)) ∧
      ∀ n, n ≠ q.slot → (t.getCore c).slot n = (s.getCore c).slot n := by
  obtain ⟨a, b, hmma, ha, hb⟩ := performMma_home hhome transposed negated ht hclosed
  have hcore := getCore_popCommand (s.performMma c q transposed negated) c
  rw [hmma, getCore_countCtx, getCore_setCore_same, ← hmma] at hcore
  refine ⟨_, matrixCommandComplete_finishes hqueue hlive (finish_mma hhome hcmd hw) ?_, ?_, ?_, fun i hi j hj => ?_,
    fun n hn => ?_⟩
  · rw [hcore]; exact hentries
  · rw [hcore]; exact tail_of_queue hqueue
  · rw [popCommand_mem, hmma, countCtx_mem, setCore_mem]
  · have helem := multiply_elem ((s.getCore c).slot q.slot) negated (f := Claims.operandA s c q transposed)
      (g := fun j k => Claims.operandB s c q k j) hi hj (ha i) (hb j)
    rw [hcore, multiplied_eq]
    exact (congrArg (fun x : MSlot => x.elem (32 * i + j)) (slot_setSlot_same (s.getCore c) q.slot _)).trans helem
  · rw [hcore]; exact slot_setSlot_of_ne hn _

theorem writes_complete (hcmd : (∃ dual, q.cmd = .mdrain dual) ∨ q.cmd = .mstacc ∧ q.started = true)
    (hw : (s.getCore c).wp = []) (hspans : ∀ p ∈ q.spans, HomeWrite s c q p) :
    ∃ t, exec (.matrixCommandComplete c) s = .next t ∧ (t.getCore c).mqueue = l ∧
      (t.getCore c).mslots = (s.getCore c).mslots ∧ t.mem = spansWritten c q q.spans s.mem := by
  obtain ⟨t, hfinish, hoff, hmem⟩ := finishWrites_home hw hspans
  have hcore := getCore_popCommand t c
  rw [getCore_of_offMemory hoff] at hcore
  refine ⟨_, matrixCommandComplete_finishes hqueue hlive ((finish_writes hcmd).trans hfinish) ?_, ?_, ?_,
    (popCommand_mem t c).trans hmem⟩
  · rw [hcore]; exact hentries
  · rw [hcore]; exact tail_of_queue hqueue
  · rw [hcore]

theorem slotRead_completes (hcmd : q.cmd = .mstacc) (hs : q.started = false) :
    ∃ t, exec (.matrixCommandComplete c) s = .next t ∧ t.mem = s.mem ∧
      (t.getCore c).sregs = ((s.getCore c).fillS q.d ((s.getCore c).slot q.slot).statusWord).sregs ∧
      (t.getCore c).mqueue = q.reading ((s.getCore c).slot q.slot) :: l := by
  have hcore := getCore_setHead (s.setCore c ((s.getCore c).fillS q.d ((s.getCore c).slot q.slot).statusWord)) c
    (q.reading ((s.getCore c).slot q.slot))
  rw [getCore_setCore_same] at hcore
  refine ⟨_, matrixCommandComplete_finishes hqueue hlive (finish_mstacc_read hcmd hs) ?_,
    (mapCore_mem ..).trans (setCore_mem ..), ?_, ?_⟩
  · rw [hcore]; exact (fillS_mentries ..).trans hentries
  · rw [hcore]
  · rw [hcore, fillS_mqueue, tail_of_queue hqueue]

theorem load_completes (hcmd : q.cmd = .mldacc) :
    ∃ t, exec (.matrixCommandComplete c) s = .next t ∧ (t.getCore c).mqueue = l ∧ t.mem = s.mem ∧
      (t.getCore c).slot q.slot = q.loaded ((s.getCore c).slot q.slot) ∧
      ∀ n, n ≠ q.slot → (t.getCore c).slot n = (s.getCore c).slot n := by
  have hcore := getCore_popCommand
    (s.setCore c ((s.getCore c).setSlot q.slot (q.loaded ((s.getCore c).slot q.slot)))) c
  rw [getCore_setCore_same] at hcore
  refine ⟨_, matrixCommandComplete_finishes hqueue hlive (finish_mldacc hcmd) ?_, ?_,
    (popCommand_mem ..).trans (setCore_mem ..), ?_, fun n hn => ?_⟩
  · rw [hcore]; exact hentries
  · rw [hcore]; exact tail_of_queue hqueue
  · rw [hcore]; exact slot_setSlot_same (s.getCore c) q.slot _
  · rw [hcore]; exact slot_setSlot_of_ne hn _

theorem rows_complete (hcmd : q.cmd = .cadd false) :
    ∃ t, exec (.matrixCommandComplete c) s = .next t ∧ (t.getCore c).mqueue = l ∧ t.mem = s.mem ∧
      t.rows = s.rows ++ (List.range 32).map (s.caddRow c q) ∧ ((t.getCore c).slot q.slot).elems = [] := by
  have hcore := getCore_popCommand ((s.sendRows c q).mapCore c fun k => k.fillS q.d 0#64) c
  rw [getCore_mapCore_same, getCore_sendRows] at hcore
  refine ⟨_, matrixCommandComplete_finishes hqueue hlive (finish_cadd hcmd) ?_, ?_, ?_, ?_, ?_⟩
  · rw [hcore]; exact (fillS_mentries ..).trans hentries
  · rw [hcore, fillS_mqueue]; exact tail_of_queue hqueue
  · rw [popCommand_mem, mapCore_mem, sendRows_mem]
  · rw [popCommand_rows, State.mapCore, setCore_rows, sendRows_rows]
  · rw [hcore, Core.slot, fillS_mslots]
    exact congrArg MSlot.elems (slot_setSlot_same (s.getCore c) q.slot _)

end Complete

end Head

end Sys2Proof.Machine

namespace Sys2Proof.Proofs
open Sys2Proof Sys2Proof.Machine

/-- Settles O24: the engine's part of each command, with what it leaves of the core, the memory and the network. -/
theorem commandsComplete : Obligations.CommandsComplete := by
  unfold Obligations.CommandsComplete
  intro s c q l hqueue hlive hentries k out
  refine ⟨fun transposed negated hcmd ht hw hhome hclosed => ?_, fun hcmd hw hhome hspans => ?_,
    slotRead_completes hqueue hlive hentries, fun hcmd => ?_, fun hcmd => ?_⟩
  · rw [geo_eq]
    exact multiply_completes hqueue hlive hentries hcmd ht hw hhome hclosed
  · refine writes_complete hqueue hlive hentries hcmd hw fun p hp => ?_
    obtain ⟨hplace, hclean, -, hnear⟩ := hhome p hp
    obtain ⟨hdone, hblocked, hbytes⟩ := hspans p hp
    exact ⟨hplace, hclean, hnear, hdone, hblocked, hbytes⟩
  · obtain ⟨t, hexec, hrest, hmem, hslot, hothers⟩ := load_completes hqueue hlive hentries hcmd
    obtain ⟨hscale, hheadroom⟩ := loaded_words q (k.slot q.slot)
    rw [← hslot] at hscale hheadroom
    refine ⟨t, hexec, hrest, hmem, fun i hi => ?_, hscale, hheadroom, hothers⟩
    rw [hslot]
    exact build_elem _ _ hi
  · obtain ⟨t, hexec, hrest, hmem, hrows, hcleared⟩ := rows_complete hqueue hlive hentries hcmd
    refine ⟨t, _, hexec, hrest, hmem, hrows, ?_, hcleared, fun r hr =>
      ⟨s.caddRow c q r, ?_, rfl, rfl, rfl, rfl, rfl, fun j hj => caddRow_elem s c q r hj⟩⟩
    · rw [List.length_map, List.length_range]
    · rw [List.getElem?_map, List.getElem?_range hr, Option.map_some]

end Sys2Proof.Proofs
end

section
/-! SUPPORT. The lanes that a vector form writes (O15, O16, O58): merged under the governing mask, with the flags of the active
lanes, or as the bits of a mask. -/

namespace Sys2Proof.Machine
open Sys2Proof

/-! ## Merged lanes (R161) -/

theorem lane_ofLanes_map_range {w j : Nat} (h : j < 512 / w) (f : Nat → Nat) :
    lane (ofLanes w ((List.range (512 / w)).map f)) w j = f j % 2 ^ w := by
  rw [lane_ofLanes _ (mul_succ_le_of_lt_div h), List.getD_eq_getElem?_getD, List.getElem?_map, List.getElem?_range h]
  rfl

theorem lane_mod (v : Vec) (w j : Nat) : lane v w j % 2 ^ w = lane v w j := Nat.mod_mod ..

/-- Lane j of v holds g j, reduced to its width, where the mask k has it active, and what it holds in old elsewhere. -/
def Merged (s : State) (k : KReg) (w : Nat) (old : Vec) (g : Nat → Nat) (v : Vec) : Prop :=
  ∀ j < 512 / w,
    (Claims.lit s k w j → (Claims.laneOf v w j).toNat = g j % 2 ^ w) ∧
      (¬Claims.lit s k w j → Claims.laneOf v w j = Claims.laneOf old w j)

theorem merged_merge (s : State) (k : KReg) (w : Nat) (old : Vec) (g : Nat → Nat) :
    Merged s k w old g (merge old (s.core.mask k) w g) := by
  intro j hj
  have hlane : lane (merge old (s.core.mask k) w g) w j =
      (if active (s.core.mask k) w j then g j else lane old w j) % 2 ^ w := lane_ofLanes_map_range hj _
  refine ⟨fun hlit => ?_, fun hdark => BitVec.eq_of_toNat_eq ?_⟩
  · rw [laneOf_toNat, hlane, if_pos (show active (s.core.mask k) w j = true from hlit)]
  · rw [laneOf_toNat, laneOf_toNat, hlane, if_neg (show ¬active (s.core.mask k) w j = true from hdark), lane_mod]

theorem mergeF_fst (old : Vec) (m : Word) (w : Nat) (f : Nat → FRes) :
    (mergeF old m w f).1 = merge old m w fun i => (f i).bits := by
  unfold mergeF merge
  simp only [List.map_map, Function.comp_def, apply_ite FRes.bits]

/-! ## Flags of the active lanes (R117) -/

theorem testBit_foldl_or {α : Type} (g : α → Nat) (l : List α) (z j : Nat) :
    (l.foldl (fun z a => z ||| g a) z).testBit j = true ↔ z.testBit j = true ∨ ∃ a ∈ l, (g a).testBit j = true := by
  induction l generalizing z with
  | nil => simp
  | cons a l ih => simp [ih, Nat.testBit_or, or_assoc]

/-- The flags that the active lanes give, gathered into one number. -/
theorem flagsOf_gathered (s : State) (k : KReg) (w : Nat) (f : Nat → FRes) :
    Claims.flagsOf s k w f
      (BitVec.ofNat 64
        ((List.range (512 / w)).foldl (fun z i => z ||| if active (s.core.mask k) w i then (f i).flags else 0) 0)) := by
  intro j hj
  rw [BitVec.getLsbD_ofNat, decide_eq_true hj, Bool.true_and, testBit_foldl_or]
  simp only [Nat.zero_testBit, Bool.false_eq_true, false_or, List.mem_range]
  refine exists_congr fun i => and_congr_right fun _ => ?_
  show _ ↔ active (s.core.mask k) w i = true ∧ _
  cases active (s.core.mask k) w i <;> simp

theorem flagsOf_mergeF (s : State) (k : KReg) (w : Nat) (old : Vec) (f : Nat → FRes) :
    Claims.flagsOf s k w f (mergeF old (s.core.mask k) w f).2 := by
  have h := flagsOf_gathered s k w f
  unfold mergeF
  simpa only [List.foldl_map, apply_ite FRes.flags] using h

/-! ## Mask bits of the active lanes (R168) -/

/-- In a fold over the first n numbers, a part of the accumulator that step i alone changes. -/
theorem foldl_range_governed {α β : Type} {step : α → Nat → α} {part : α → β} {new : β → β} {i : Nat}
    (hown : ∀ x, part (step x i) = new (part x)) (n : Nat) (hother : ∀ x, ∀ k < n, k ≠ i → part (step x k) = part x)
    (x : α) :
    part ((List.range n).foldl step x) = if i < n then new (part x) else part x := by
  induction n with
  | zero => rfl
  | succ n ih =>
    have hprefix := ih fun x k hk => hother x k (Nat.lt_succ_of_lt hk)
    rw [List.range_succ, List.foldl_append, List.foldl_cons, List.foldl_nil]
    rcases lt_trichotomy i n with h | rfl | h
    · rw [hother _ n n.lt_succ_self h.ne', hprefix, if_pos h, if_pos (by omega)]
    · rw [hown, hprefix, if_neg (lt_irrefl i), if_pos (Nat.lt_succ_self i)]
    · rw [hother _ n n.lt_succ_self h.ne, hprefix, if_neg (by omega), if_neg (by omega)]

/-- Bit j of a mask, set to the result of its lane if that is active. -/
def mergeBit (m : Word) (w : Nat) (f : Nat → Bool) (x : Word) (j : Nat) : Word :=
  if active m w (8 * j / w) then
    if f (8 * j / w) then x ||| BitVec.twoPow 64 j else x &&& ~~~BitVec.twoPow 64 j
  else x

theorem mergeK_eq (old m : Word) (w : Nat) (f : Nat → Bool) :
    mergeK old m w f = (List.range 64).foldl (mergeBit m w f) old := rfl

theorem getLsbD_mergeBit_same (m : Word) (w : Nat) (f : Nat → Bool) (x : Word) {j : Nat} (hj : j < 64) :
    (mergeBit m w f x j).getLsbD j = if active m w (8 * j / w) then f (8 * j / w) else x.getLsbD j := by
  unfold mergeBit
  cases active m w (8 * j / w) with
  | false => rfl
  | true => cases f (8 * j / w) <;> simp [hj]

theorem getLsbD_mergeBit_other (m : Word) (w : Nat) (f : Nat → Bool) (x : Word) {i j : Nat} (hj : j < 64) (h : i ≠ j) :
    (mergeBit m w f x i).getLsbD j = x.getLsbD j := by
  have hbit : (BitVec.twoPow 64 i).getLsbD j = false := by simp [BitVec.getLsbD_twoPow, h]
  unfold mergeBit
  split
  · split
    · rw [BitVec.getLsbD_or, hbit, Bool.or_false]
    · rw [BitVec.getLsbD_and, BitVec.getLsbD_not, hbit, decide_eq_true hj, Bool.not_false, Bool.and_self, Bool.and_true]
  · rfl

theorem getLsbD_mergeK (old m : Word) (w : Nat) (f : Nat → Bool) {j : Nat} (hj : j < 64) :
    (mergeK old m w f).getLsbD j = if active m w (8 * j / w) then f (8 * j / w) else old.getLsbD j := by
  rw [mergeK_eq]
  exact (foldl_range_governed (part := fun x : Word => x.getLsbD j)
    (new := fun b => if active m w (8 * j / w) then f (8 * j / w) else b)
    (fun x => getLsbD_mergeBit_same m w f x hj) 64 (fun x i _ hi => getLsbD_mergeBit_other m w f x hj hi) old).trans
    (if_pos hj)

/-! ## The ends of the forms in a core that stands alone -/

section Ends
variable {s : State} (ha : Claims.Alone s)
include ha

theorem setV_advance_alone (d : Reg) (v : Vec) : (s.setV d v).advance = Claims.ends s (s.core.writeV d v) :=
  advance_upd_alone (f := fun k => k.writeV d v) (quiet_writeV ha.quiet d v) (by simp)

theorem setK_flags_advance_alone (d : KReg) (x f : Word) :
    ((s.setK d x).flags f).advance = Claims.ends s ((s.core.setMask d x).addFlags f) :=
  advance_upd_alone (f := fun k => (k.setMask d x).addFlags f) (quiet_addFlags (quiet_setMask ha.quiet d x) f) (by simp)

end Ends

end Sys2Proof.Machine
end

section
/-! SUPPORT. Scalar floating point (O14). -/

namespace Sys2Proof.Machine
open Sys2Proof

/-- The outcome o is that of an instruction with the names n that writes d with r and adds the flags of r. -/
def State.Results (s : State) (n : Names) (d : Reg) (r : FRes) (o : Out) : Prop :=
  o = s.issue n (.next (s.fres d r).advance)

/-- The operand of a format, as the statement reads it (R165). -/
theorem low_eq_of (p : Prec) (x : Word) : Claims.fopResult.low p x = (Claims.fmtOf p).of x := by
  cases p with
  | f32 => rfl
  | f64 => exact (Nat.mod_eq_of_lt x.isLt).symm

section Forms
variable {s : State} {n : Names} {d d' a b : Reg} {da db : Dist} {p : Prec} {r : FRes}

theorem fop1_results {f : Fmt → Nat → FRes} (h : Claims.fopResult.one s d a da p f = some (n, d', r)) :
    s.Results n d' r (s.fop1 d a da fun x => f (Claims.fmtOf p) ((Claims.fmtOf p).of x)) := by
  rw [Claims.fopResult.one, low_eq_of] at h
  cases h
  rfl

theorem fop2_results {f : Fmt → Nat → Nat → FRes} (h : Claims.fopResult.two s d a da b db p f = some (n, d', r)) :
    s.Results n d' r
      (s.fop2 d a da b db fun x y => f (Claims.fmtOf p) ((Claims.fmtOf p).of x) ((Claims.fmtOf p).of y)) := by
  rw [Claims.fopResult.two, low_eq_of, low_eq_of] at h
  cases h
  rfl

theorem results_alone {o : Out} (h : s.Results n d r o) (hr : s.core.ready n = true) (ha : Claims.Alone s) :
    o = .next (Claims.ends s ((s.core.writeS d (BitVec.ofNat 64 r.bits)).addFlags (BitVec.ofNat 64 r.flags))) := by
  rw [State.Results] at h
  rw [h, issue_ready hr ha.mesh, State.fres, setS_flags_advance_alone ha]

end Forms

/-- Each FOP instruction is a form of one operand, of two, or FMA of three. -/
theorem exec_fopResult {s : State} {i : Instr} {n : Names} {d : Reg} {r : FRes}
    (h : Claims.fopResult s i = some (n, d, r)) : s.Results n d r (exec i s) := by
  unfold Claims.fopResult at h
  split at h
  case h_1 | h_2 | h_3 | h_4 | h_7 | h_8 | h_9 | h_10 | h_11 => exact (fop2_results h :)
  case h_5 | h_12 | h_13 | h_15 | h_16 => exact (fop1_results h :)
  case h_6 =>
    rw [low_eq_of, low_eq_of, low_eq_of] at h
    cases h
    rfl
  case h_14 =>
    cases h
    rfl
  case h_17 => cases h

end Sys2Proof.Machine

namespace Sys2Proof.Proofs
open Sys2Proof Sys2Proof.Machine

/-- Settles O14: each FOP instruction is a form that writes its result with its flags. -/
theorem floatResults : Obligations.FloatResults := by
  unfold Obligations.FloatResults
  intro i s n d r h hr ha
  exact results_alone (exec_fopResult h) hr ha

end Sys2Proof.Proofs
end

section
/-! SUPPORT. Vector integer forms (O15): the lane operations as operations of machine words of the lane's width. -/

namespace Sys2Proof.Machine
open Sys2Proof

/-! ## Numbers as words of a lane -/

section Numbers
variable {w : Nat}

theorem ofNat_mod_two_pow (w n : Nat) : BitVec.ofNat w (n % 2 ^ w) = BitVec.ofNat w n :=
  BitVec.eq_of_toNat_eq (by rw [BitVec.toNat_ofNat, BitVec.toNat_ofNat, Nat.mod_mod])

theorem ofNat_toNat_self (x : BitVec w) : BitVec.ofNat w x.toNat = x := by
  rw [BitVec.ofNat_toNat, BitVec.setWidth_eq]

theorem sint_toNat (x : BitVec w) : sint x.toNat w = x.toInt := by
  rw [sint, ofNat_toNat_self]

theorem ofNat_lowBits (w : Nat) (z : Int) : BitVec.ofNat w (lowBits w z) = BitVec.ofInt w z := by
  apply BitVec.eq_of_toNat_eq
  rw [lowBits, ← BitVec.toNat_ofInt, ofNat_toNat_self]

end Numbers

/-! ## The lane operations (R167) -/

/-- The operation g of the model gives in lanes of width w what F gives of machine words. -/
def Computes (w : Nat) (g : Nat → Nat → Nat) (F : BitVec w → BitVec w → BitVec w) : Prop :=
  ∀ x y : BitVec w, BitVec.ofNat w (g x.toNat y.toNat) = F x y

section Computes
variable (w : Nat)

theorem laneAdd_computes : Computes w (laneAdd w) fun x y => x + y := fun x y => by
  rw [laneAdd, ofNat_mod_two_pow, BitVec.ofNat_add, ofNat_toNat_self, ofNat_toNat_self]

theorem laneSub_computes : Computes w (laneSub w) fun x y => x - y := fun x y => by
  dsimp only
  rw [laneSub, ofNat_mod_two_pow, BitVec.sub_def, Nat.add_comm, Nat.sub_add_comm y.isLt.le]

theorem laneMul_computes : Computes w (laneMul w) fun x y => x * y := fun x y => by
  rw [laneMul, ofNat_mod_two_pow, BitVec.ofNat_mul, ofNat_toNat_self, ofNat_toNat_self]

theorem laneMulh_computes : Computes w (laneMulh w) fun x y => BitVec.ofInt w (x.toInt * y.toInt / 2 ^ w) := fun x y => by
  rw [laneMulh, ofNat_lowBits, sint_toNat, sint_toNat, Nat.cast_pow, Nat.cast_two]

theorem laneMin_computes : Computes w (laneMin w) fun x y => if x.toInt < y.toInt then x else y := fun x y => by
  rw [laneMin, sint_toNat, sint_toNat, apply_ite (BitVec.ofNat w), ofNat_toNat_self, ofNat_toNat_self]
  exact ite_le_eq_ite_lt fun h => BitVec.toInt_inj.mp h

theorem laneMax_computes : Computes w (laneMax w) fun x y => if x.toInt < y.toInt then y else x := fun x y => by
  rw [laneMax, sint_toNat, sint_toNat, apply_ite (BitVec.ofNat w), ofNat_toNat_self, ofNat_toNat_self]
  exact ite_le_eq_ite_lt fun h => (BitVec.toInt_inj.mp h).symm

theorem min_computes : Computes w (fun x y => min x y) fun x y => if x.toNat < y.toNat then x else y := fun x y => by
  dsimp only
  rw [min_def, apply_ite (BitVec.ofNat w), ofNat_toNat_self, ofNat_toNat_self]
  exact ite_le_eq_ite_lt fun h => BitVec.toNat_inj.mp h

theorem max_computes : Computes w (fun x y => max x y) fun x y => if x.toNat < y.toNat then y else x := fun x y => by
  dsimp only
  rw [max_def, apply_ite (BitVec.ofNat w), ofNat_toNat_self, ofNat_toNat_self]
  exact ite_le_eq_ite_lt fun h => (BitVec.toNat_inj.mp h).symm

theorem and_computes : Computes w (fun x y => x &&& y) fun x y => x &&& y := fun x y => by
  dsimp only
  rw [BitVec.ofNat_and, ofNat_toNat_self, ofNat_toNat_self]

theorem or_computes : Computes w (fun x y => x ||| y) fun x y => x ||| y := fun x y => by
  dsimp only
  rw [BitVec.ofNat_or, ofNat_toNat_self, ofNat_toNat_self]

theorem xor_computes : Computes w (fun x y => x ^^^ y) fun x y => x ^^^ y := fun x y => by
  dsimp only
  rw [BitVec.ofNat_xor, ofNat_toNat_self, ofNat_toNat_self]

theorem laneShl_computes : Computes w (laneShl w) fun x y => x <<< (y.toNat % w) := fun x y => by
  rw [laneShl, ofNat_mod_two_pow, ← shiftLeft_eq_ofNat]

theorem laneShr_computes : Computes w (laneShr w) fun x y => x >>> (y.toNat % w) := fun x y => by
  rw [laneShr, ← Nat.shiftRight_eq_div_pow, ← BitVec.toNat_ushiftRight, ofNat_toNat_self]

theorem laneSra_computes : Computes w (laneSra w) fun x y => x.sshiftRight (y.toNat % w) := fun x y => by
  dsimp only
  rw [laneSra, ofNat_lowBits, sint_toNat, BitVec.sshiftRight, Int.shiftRight_eq_div_pow]

/-- Saturation as the statement writes it. -/
theorem ofNat_satS (z : Int) : BitVec.ofNat w (satS w z) = Claims.vint.sat w z := by
  have hpos : (0 : Int) < 2 ^ (w - 1) := by positivity
  rw [satS, ofNat_lowBits, Claims.vint.sat, Nat.cast_pow, Nat.cast_two]
  congr 1
  split
  · omega
  · split <;> omega

theorem laneSadd_computes : Computes w (laneSadd w) fun x y => Claims.vint.sat w (x.toInt + y.toInt) := fun x y => by
  rw [laneSadd, ofNat_satS, sint_toNat, sint_toNat]

theorem laneSsub_computes : Computes w (laneSsub w) fun x y => Claims.vint.sat w (x.toInt - y.toInt) := fun x y => by
  rw [laneSsub, ofNat_satS, sint_toNat, sint_toNat]

theorem laneAbs_computes : Computes w (fun x _ => laneAbs w x) fun x _ => if x.toInt < 0 then 0 - x else x := fun x _ => by
  dsimp only
  rw [laneAbs, ofNat_lowBits, sint_toNat]
  split
  case isTrue h => 
    rw [Int.ofNat_natAbs_of_nonpos h.le, BitVec.ofInt_neg, BitVec.ofInt_toInt]
    exact (BitVec.zero_sub x).symm
  case isFalse h => rw [Int.natAbs_of_nonneg (not_lt.mp h), BitVec.ofInt_toInt]

end Computes

/-! ## The forms -/

/-- Lane j of the result of x. -/
def intLane (s : State) (x : Claims.VInt) (j : Nat) : BitVec (Claims.widthOf x.t) :=
  x.f (Claims.widthOf x.t) (Claims.laneOf (s.vsrc x.a x.dva.toNat) (Claims.widthOf x.t) j)
    (Claims.laneOf (s.vsrc (x.b.getD 0#5) 0) (Claims.widthOf x.t) j)

/-- The outcome o is that of an instruction which merges into vd lanes that hold the results of x. -/
def State.MergesInts (s : State) (x : Claims.VInt) (o : Out) : Prop :=
  ∃ g : Nat → Nat,
    o = s.issue (Claims.vectors x.d x.a x.dva x.b)
      (.next (s.setV x.d (merge (s.vsrc x.d 0) (s.core.mask x.k) (Claims.widthOf x.t) g)).advance) ∧
    ∀ j, BitVec.ofNat (Claims.widthOf x.t) (g j) = intLane s x j

section Forms
variable {s : State} {x : Claims.VInt} {d a b : Reg} {dva : VDist} {k : KReg} {t : IntTy}
  {F : (w : Nat) → BitVec w → BitVec w → BitVec w}

theorem vform_merges {g : Nat → Nat → Nat} (h : some ⟨d, a, dva, some b, k, t, F⟩ = some x)
    (hg : Computes (Claims.widthOf t) g (F (Claims.widthOf t))) :
    s.MergesInts x (s.vform (Claims.widthOf t) d a dva b k g) := by
  cases h
  refine ⟨_, rfl, fun j => ?_⟩
  rw [← laneOf_toNat, ← laneOf_toNat]
  exact hg _ _

theorem vform1_merges {g : Nat → Nat} (h : some ⟨d, a, dva, none, k, t, F⟩ = some x)
    (hg : Computes (Claims.widthOf t) (fun x _ => g x) (F (Claims.widthOf t))) :
    s.MergesInts x (s.vform1 (Claims.widthOf t) d a dva k g) := by
  cases h
  refine ⟨_, rfl, fun j => ?_⟩
  rw [← laneOf_toNat]
  exact hg _ _

end Forms

/-- Each vector integer form merges the results of its lane operation. -/
theorem exec_vint {s : State} {i : Instr} {x : Claims.VInt} (h : Claims.vint i = some x) : s.MergesInts x (exec i s) := by
  unfold Claims.vint at h
  split at h
  case h_1 => exact vform_merges h (laneAdd_computes _)
  case h_2 => exact vform_merges h (laneSub_computes _)
  case h_3 => exact vform_merges h (laneMul_computes _)
  case h_4 => exact vform_merges h (laneMulh_computes _)
  case h_5 => exact vform_merges h (laneMin_computes _)
  case h_6 => exact vform_merges h (laneMax_computes _)
  case h_7 => exact vform_merges h (min_computes _)
  case h_8 => exact vform_merges h (max_computes _)
  case h_9 => exact vform_merges h (and_computes _)
  case h_10 => exact vform_merges h (or_computes _)
  case h_11 => exact vform_merges h (xor_computes _)
  case h_12 => exact vform_merges h (laneShl_computes _)
  case h_13 => exact vform_merges h (laneShr_computes _)
  case h_14 => exact vform_merges h (laneSra_computes _)
  case h_15 => exact vform_merges h (laneSadd_computes _)
  case h_16 => exact vform_merges h (laneSsub_computes _)
  case h_17 => exact vform1_merges h (laneAbs_computes _)
  case h_18 => cases h

end Sys2Proof.Machine

namespace Sys2Proof.Proofs
open Sys2Proof Sys2Proof.Machine

/-- Settles O15: each form merges the results of its lane operation into vd. -/
theorem vectorIntegerResults : Obligations.VectorIntegerResults := by
  unfold Obligations.VectorIntegerResults
  intro i s x h hr ha
  obtain ⟨g, hexec, hg⟩ := exec_vint (s := s) h
  refine ⟨merge (s.vsrc x.d 0) (s.core.mask x.k) (Claims.widthOf x.t) g, ?_, fun j hj => ?_⟩
  · rw [hexec, issue_ready hr ha.mesh, setV_advance_alone ha]
  · obtain ⟨hlit, hdark⟩ := merged_merge s x.k (Claims.widthOf x.t) (s.vsrc x.d 0) g j hj
    refine ⟨fun hl => (BitVec.eq_of_toNat_eq ?_).trans (hg j), hdark⟩
    rw [hlit hl, BitVec.toNat_ofNat]

end Sys2Proof.Proofs
end

section
/-! SUPPORT. Vector floating-point forms (O16): each is the form of its operation in the format of the lane. -/

namespace Sys2Proof.Machine
open Sys2Proof

/-- The end of a form with flags: its lanes merged into vd, and the flags of the active ones. -/
theorem mergeF_advance_alone {s : State} (ha : Claims.Alone s) (d : Reg) (k : KReg) (w : Nat) (f : Nat → FRes) :
    ∃ (v : Vec) (fl : Word),
      ((s.setV d (mergeF (s.vsrc d 0) (s.core.mask k) w f).1).flags (mergeF (s.vsrc d 0) (s.core.mask k) w f).2).advance =
        Claims.ends s ((s.core.writeV d v).addFlags fl) ∧
      Claims.flagsOf s k w f fl ∧ Merged s k w (s.vsrc d 0) (fun j => (f j).bits) v := by
  refine ⟨_, _, setV_flags_advance_alone ha _ _ _, flagsOf_mergeF s k w _ f, ?_⟩
  rw [mergeF_fst]
  exact merged_merge s k w _ _

/-- Each vector floating-point form is the form with flags of its own operation. -/
theorem exec_vflt {s : State} {i : Instr} {x : Claims.VFlt} (h : Claims.vflt (s.core.status.toNat / 4 % 4) i = some x) :
    exec i s = s.vfform (Claims.vfmt x.t).w x.d x.a x.dva x.b.toList x.k (x.f (Claims.vfmt x.t)) := by
  unfold Claims.vflt at h
  split at h <;> cases h <;> rfl

/-- A ready form with flags writes what its operation gives of the lanes of va, of vb, which stands for va where it has none,
and of vd. -/
theorem vfform_ready {s : State} (ha : Claims.Alone s) (w : Nat) {d a : Reg} {dva : VDist} {b : Option Reg} (k : KReg)
    (f : Nat → Nat → Nat → FRes) (hr : s.core.ready (Claims.vectors d a dva b) = true) :
    s.vfform w d a dva b.toList k f =
      .next ((s.setV d (mergeF (s.vsrc d 0) (s.core.mask k) w fun j =>
          f (lane (s.vsrc a dva.toNat) w j) (lane (s.vsrc (b.getD a) 0) w j) (lane (s.vsrc d 0) w j)).1).flags
        (mergeF (s.vsrc d 0) (s.core.mask k) w fun j =>
          f (lane (s.vsrc a dva.toNat) w j) (lane (s.vsrc (b.getD a) 0) w j) (lane (s.vsrc d 0) w j)).2).advance := by
  cases b <;> exact issue_ready hr ha.mesh _

end Sys2Proof.Machine

namespace Sys2Proof.Proofs
open Sys2Proof Sys2Proof.Machine

/-- Settles O16: each form is that of its operation, and merges its lanes with the flags of the active ones. -/
theorem vectorFloatResults : Obligations.VectorFloatResults := by
  unfold Obligations.VectorFloatResults
  intro i s x h hr ha w f
  obtain ⟨v, fl, hend, hfl, hv⟩ := mergeF_advance_alone ha x.d x.k w f
  refine ⟨v, fl, ?_, hfl, hv⟩
  rw [exec_vflt h, vfform_ready ha _ _ _ hr, ← hend]
  simp only [f, laneOf_toNat]
  rfl

end Sys2Proof.Proofs
end

section
/-! SUPPORT. Vector compares and mask operations (O58). -/

namespace Sys2Proof.Machine
open Sys2Proof

/-! ## Compares (R168, R169) -/

/-- A comparison that raises no flag. -/
theorem boolRes_decide (p : Prop) [Decidable p] : boolRes (decide p) false = Claims.vcmp.is p := by
  by_cases h : p <;> simp [boolRes, Claims.vcmp.is, h]

/-- Each compare is the form of its operation. -/
theorem exec_vcmp {s : State} {i : Instr} {x : Claims.VCmp} (h : Claims.vcmp i = some x) :
    exec i s = s.vcmp x.w x.d x.a x.dva x.b x.k x.f := by
  unfold Claims.vcmp at h
  split at h <;> cases h
  case h_1 d a dva b k t =>
    show execVcmpeq d a dva b k t s = _
    exact congrArg (s.vcmp _ d a dva b k) (funext₂ fun _ _ => boolRes_decide _)
  case h_2 d a dva b k t =>
    show execVcmplt d a dva b k t s = _
    exact congrArg (s.vcmp _ d a dva b k) (funext₂ fun _ _ => boolRes_decide _)
  case h_3 d a dva b k t =>
    show execVcmpltu d a dva b k t s = _
    exact congrArg (s.vcmp _ d a dva b k) (funext₂ fun _ _ => boolRes_decide _)
  all_goals rfl

/-- The flags that a compare gathers, lane by lane. -/
theorem flagsOf_compare (s : State) (k : KReg) (w : Nat) (f : Nat → FRes) :
    Claims.flagsOf s k w f
      (BitVec.ofNat 64
        ((List.range (512 / w)).foldl (fun z i => if active (s.core.mask k) w i then z ||| (f i).flags else z) 0)) := by
  have hstep : (fun (z : Nat) i => if active (s.core.mask k) w i then z ||| (f i).flags else z) =
      fun z i => z ||| if active (s.core.mask k) w i then (f i).flags else 0 := by
    funext z i
    cases active (s.core.mask k) w i <;> simp
  rw [hstep]
  exact flagsOf_gathered s k w f

theorem vectorCompares : Claims.VectorCompares := by
  unfold Claims.VectorCompares
  intro i s x h hr ha f
  refine ⟨mergeK (s.core.mask x.d) (s.core.mask x.k) x.w fun j => decide ((f j).bits ≠ 0), _, ?_,
    flagsOf_compare s x.k x.w f, fun j hj => ?_⟩
  · rw [exec_vcmp h, State.vcmp, issue_ready hr ha.mesh]
    dsimp only
    rw [setK_flags_advance_alone ha]
    simp only [f, laneOf_toNat]
  · rw [getLsbD_mergeK _ _ _ _ hj]
    refine ⟨fun hlit => ?_, fun hdark => ?_⟩
    · rw [if_pos (show active (s.core.mask x.k) x.w (8 * j / x.w) = true from hlit)]
      simp only [f, laneOf_toNat, decide_eq_true_eq]
    · exact if_neg hdark

/-! ## Mask operations (R180) -/

/-- The outcome o is that of an instruction with the names n that changes its core by f, where f keeps what its end looks at. -/
def State.Changes (s : State) (n : Names) (f : Core → Core) (o : Out) : Prop :=
  o = s.issue n (.next (s.upd f).advance) ∧ (s.core.quiet → (f s.core).quiet) ∧ (f s.core).pc = s.core.pc

section Masks
variable {s : State} {n : Names} {f : Core → Core}

theorem writeK_changes (s : State) (n : Names) (d : KReg) (x : Word) :
    s.Changes n (fun k => k.setMask d x) (s.issue n (.next (s.setK d x).advance)) :=
  ⟨rfl, fun h => quiet_setMask h d x, Core.setMask_pc _ _ _⟩

theorem writeS_changes (s : State) (n : Names) (d : Reg) (x : Word) :
    s.Changes n (fun k => k.writeS d x) (s.issue n (.next (s.setS d x).advance)) :=
  ⟨rfl, fun h => quiet_writeS h d x, Core.writeS_pc _ _ _⟩

theorem changes_alone {o : Out} (h : s.Changes n f o) (hr : s.core.ready n = true) (ha : Claims.Alone s) :
    o = .next (Claims.ends s (f s.core)) := by
  obtain ⟨ho, hquiet, hpc⟩ := h
  rw [ho, issue_ready hr ha.mesh, advance_upd_alone (hquiet ha.quiet) hpc]

/-- Inside a loop with W > 1 no mask may be written. -/
theorem writesOk_mask (hdk : n.dk ≠ []) (ho : s.core.overlapped = true) : s.core.writesOk n = false := by
  obtain ⟨k, l, hl⟩ := List.exists_cons_of_ne_nil hdk
  simp [Core.writesOk, hl, ho]

theorem changes_barred {o : Out} (h : s.Changes n f o) (hdk : n.dk ≠ []) (ho : s.core.overlapped = true)
    (hd : s.core.distsOk n = true) : o = s.trapWord 0x0C0#10 := by
  obtain ⟨houtcome, -, -⟩ := h
  rw [houtcome, State.issue, hd, writesOk_mask hdk ho]
  rfl

end Masks

theorem lowestSet_eq_trailingZeros (x : Word) {n : Nat} (hn : n ≤ 64) : lowestSet x n = 64 - n + trailingZeros x n := by
  induction n with
  | zero => rfl
  | succ n ih =>
    rw [lowestSet, trailingZeros]
    split
    · omega
    · rw [ih (by omega)]
      omega

theorem lowestSet_eq (x : Word) : lowestSet x 64 = ((List.range 64).find? fun i => x.getLsbD i).getD 64 := by
  rw [lowestSet_eq_trailingZeros x le_rfl, ← trailingZeros_eq, Nat.sub_self, Nat.zero_add]

/-- Each mask operation writes its mask or its scalar. -/
theorem exec_maskResult {s : State} {i : Instr} {n : Names} {f : Core → Core} (h : Claims.maskResult s i = some (n, f)) :
    s.Changes n f (exec i s) := by
  unfold Claims.maskResult at h
  split at h <;> cases h
  case h_1 | h_2 | h_3 | h_5 => exact writeK_changes ..
  case h_4 d a =>
    rw [show (0xFFFFFFFFFFFFFFFF#64 : Word) = BitVec.allOnes 64 by decide, BitVec.xor_allOnes]
    exact writeK_changes ..
  case h_6 => exact writeS_changes ..
  case h_7 d a =>
    rw [← popCount_eq]
    exact writeS_changes ..
  case h_8 d a =>
    rw [← lowestSet_eq]
    exact writeS_changes ..

theorem maskResults : Claims.MaskResults := by
  unfold Claims.MaskResults
  intro i s n f h ha
  have hchanges := exec_maskResult h
  exact ⟨fun hr => changes_alone hchanges hr ha, changes_barred hchanges⟩

end Sys2Proof.Machine

namespace Sys2Proof.Proofs
open Sys2Proof Sys2Proof.Machine

/-- Settles O58: a compare sets bits of a mask, and a mask operation writes one name. -/
theorem masksAndCompares : Obligations.MasksAndCompares := ⟨vectorCompares, maskResults⟩

end Sys2Proof.Proofs
end

section
/-! SUPPORT. The vector permutes (O19): the lanes of the vector that each of them makes. -/

namespace Sys2Proof.Machine
open Sys2Proof

/-! ## Lanes as words -/

theorem ofNat_lane (v : Vec) (w i : Nat) : BitVec.ofNat w (lane v w i) = Claims.laneOf v w i := by
  rw [← laneOf_toNat, ofNat_toNat_self]

theorem laneOf_ofLanes_map_range {w j : Nat} (h : j < 512 / w) (g : Nat → Nat) :
    Claims.laneOf (ofLanes w ((List.range (512 / w)).map g)) w j = BitVec.ofNat w (g j) := by
  rw [← ofNat_lane, lane_ofLanes_map_range h, ofNat_mod_two_pow]

theorem laneOf_merge {w j : Nat} (h : j < 512 / w) (old : Vec) (m : Word) (g : Nat → Nat) :
    Claims.laneOf (merge old m w g) w j = if active m w j then BitVec.ofNat w (g j) else Claims.laneOf old w j := by
  rw [merge, laneOf_ofLanes_map_range h, apply_ite (BitVec.ofNat w), ofNat_lane]

/-! ## A VTYPE that the entry does not accept (R170) -/

theorem vxf_refused {s : State} {ok : Bool} (h : ok = false) (n : Names) (body : Out) :
    s.vxf ok n body = s.trapWord 0x05E#10 := by
  rw [State.vxf, h]
  rfl

/-! ## The permutes (R172) -/

/-- The element types that a permute accepts are those below this. -/
def permuteTypes : Instr → Nat
  | .viota _ _ => 4
  | _ => 7

/-- The vector v holds the lanes of the permute x, and those of vd where a mask keeps them. -/
def PermutesLanes (s : State) (x : Claims.Permute) (v : Vec) : Prop :=
  ∀ j < Claims.el (Claims.et s),
    ((∀ k, x.k = some k → Claims.lit s k (Claims.ew (Claims.et s)) j) →
      Claims.laneOf v (Claims.ew (Claims.et s)) j = x.f (Claims.ew (Claims.et s)) j) ∧
    ((∃ k, x.k = some k ∧ ¬Claims.lit s k (Claims.ew (Claims.et s)) j) →
      Claims.laneOf v (Claims.ew (Claims.et s)) j = Claims.laneOf (s.vsrc x.d 0) (Claims.ew (Claims.et s)) j)

section Lanes
variable {s : State} {x : Claims.Permute}

/-- Under a mask the lanes are merged into vd. -/
theorem permutesLanes_merge {k : KReg} {g : Nat → Nat} (hk : x.k = some k)
    (hg : ∀ j, BitVec.ofNat (Claims.ew (Claims.et s)) (g j) = x.f (Claims.ew (Claims.et s)) j) :
    PermutesLanes s x (merge (s.vsrc x.d 0) (s.core.mask k) (Claims.ew (Claims.et s)) g) := by
  intro j hj
  rw [laneOf_merge hj, hg j]
  refine ⟨fun hlit => if_pos (hlit k hk), ?_⟩
  rintro ⟨k', hk', hdark⟩
  obtain rfl : k' = k := Option.some.inj (hk'.symm.trans hk)
  exact if_neg hdark

/-- Without one every lane is written. -/
theorem permutesLanes_whole {v : Vec} (hk : x.k = none)
    (hv : ∀ j < Claims.el (Claims.et s),
      Claims.laneOf v (Claims.ew (Claims.et s)) j = x.f (Claims.ew (Claims.et s)) j) : PermutesLanes s x v := by
  refine fun j hj => ⟨fun _ => hv j hj, ?_⟩
  rintro ⟨k, hk', -⟩
  rw [hk] at hk'
  cases hk'

theorem permutesLanes_ofLanes {g : Nat → Nat} (hk : x.k = none)
    (hg : ∀ j, BitVec.ofNat (Claims.ew (Claims.et s)) (g j) = x.f (Claims.ew (Claims.et s)) j) :
    PermutesLanes s x (ofLanes (Claims.ew (Claims.et s)) ((List.range (Claims.el (Claims.et s))).map g)) :=
  permutesLanes_whole hk fun j hj => (laneOf_ofLanes_map_range hj g).trans (hg j)

end Lanes

/-- Each permute checks its element type and writes the vector of its lanes. -/
theorem exec_permute {s : State} {i : Instr} {x : Claims.Permute} (h : Claims.permute s i = some x) :
    ∃ v, exec i s = s.vxf (decide (s.core.et < permuteTypes i)) x.names (.next (s.setV x.d v).advance) ∧
      (Claims.et s < 7 → PermutesLanes s x v) := by
  unfold Claims.permute at h
  split at h <;> cases h
  case h_1 d a dva b k =>
    refine ⟨_, rfl, fun ht => ?_⟩
    rw [et_eq, etWidth_eq ht, lanesOf_eq ht]
    exact permutesLanes_merge rfl fun j => by rw [← laneOf_toNat (s.vsrc b 0), ofNat_lane]
  case h_2 d a dva b k =>
    refine ⟨_, rfl, fun ht => ?_⟩
    rw [et_eq, etWidth_eq ht, lanesOf_eq ht]
    refine permutesLanes_merge rfl fun j => ?_
    rw [apply_ite (BitVec.ofNat _), ofNat_lane]
    rfl
  case h_3 d a dva k =>
    refine ⟨_, rfl, fun ht => ?_⟩
    rw [et_eq, etWidth_eq ht]
    exact permutesLanes_merge rfl fun j => BitVec.ofNat_toNat ..
  case h_4 d a dva b =>
    refine ⟨_, rfl, fun ht => ?_⟩
    rw [et_eq, etWidth_eq ht, lanesOf_eq ht]
    refine permutesLanes_ofLanes rfl fun j => ?_
    rw [apply_ite (BitVec.ofNat _), BitVec.ofNat_toNat, ofNat_lane]
  case h_5 d a dva b k =>
    refine ⟨_, rfl, fun ht => ?_⟩
    rw [et_eq, etWidth_eq ht]
    refine permutesLanes_whole rfl fun j hj => ?_
    rw [laneOf_merge hj, ofNat_lane]
    rfl
  case h_6 d k =>
    refine ⟨_, rfl, fun ht => ?_⟩
    rw [et_eq, etWidth_eq ht, lanesOf_eq ht]
    exact permutesLanes_ofLanes rfl fun j => rfl

/-- VEXT reads the one lane that b names. -/
theorem vext_ready {s : State} (ha : Claims.Alone s) {d a b : Reg} {y : VDist} (ht : Claims.et s < 7)
    (hr : s.core.ready { ss := [(b, 0)], vs := [(a, y.toNat)], ds := [d] } = true) :
    exec (.vext d a y b) s =
      .next (Claims.ends s (s.core.writeS d
        (if Claims.et s < 4 then
          (Claims.laneOf (s.vsrc a y.toNat) (Claims.ew (Claims.et s))
            ((s.src b 0).toNat % Claims.el (Claims.et s))).signExtend 64
        else
          (Claims.laneOf (s.vsrc a y.toNat) (Claims.ew (Claims.et s))
            ((s.src b 0).toNat % Claims.el (Claims.et s))).zeroExtend 64))) := by
  show execVext d a y b s = _
  unfold execVext
  dsimp only
  rw [vxf_ready ha (by rw [et_eq]; exact decide_eq_true ht) hr, setS_advance_alone ha, et_eq, etWidth_eq ht, lanesOf_eq ht,
    sextTo, ofNat_lane, ← laneOf_toNat, BitVec.ofNat_toNat]

end Sys2Proof.Machine

namespace Sys2Proof.Proofs
open Sys2Proof Sys2Proof.Machine

/-- Settles O19: each permute writes the vector of its lanes, or is refused for its element type. -/
theorem vectorPermutes : Obligations.VectorPermutes := by
  unfold Obligations.VectorPermutes
  refine fun s ha => ⟨fun i x h hr ht => ?_, fun i x h ht => ?_, fun d a y b hr ht => vext_ready ha ht hr⟩
  · have hlim : Claims.et s < permuteTypes i := ht
    have htype : Claims.et s < 7 := by
      unfold permuteTypes at hlim
      split at hlim <;> omega
    obtain ⟨v, hexec, hv⟩ := exec_permute h
    refine ⟨v, ?_, hv htype⟩
    rw [hexec, et_eq, vxf_ready ha (decide_eq_true hlim) hr, setV_advance_alone ha]
  · have hlim : ¬Claims.et s < permuteTypes i := ht
    obtain ⟨v, hexec, -⟩ := exec_permute h
    rw [hexec, et_eq, vxf_refused (decide_eq_false hlim)]

end Sys2Proof.Proofs
end

section
/-! SUPPORT. The vector reductions (O20): the signed values of the active lanes, and the pairwise tree over them. -/

namespace Sys2Proof.Machine
open Sys2Proof

/-! ## The active lanes -/

theorem filterMap_activeLanes (v : Vec) (m : Word) (w : Nat) :
    (activeLanes v m w).filterMap id = ((List.range (512 / w)).filter fun i => active m w i).map fun i => lane v w i := by
  rw [activeLanes, List.filterMap_map]
  induction List.range (512 / w) with
  | nil => rfl
  | cons i l ih =>
    rw [List.filterMap_cons, ih, List.filter_cons]
    cases h : active m w i <;> simp [h]

theorem signedLanes_eq (s : State) (v : Vec) (k : KReg) (w : Nat) :
    ((activeLanes v (s.core.mask k) w).filterMap id).map (fun x => sint x w) = Claims.signedLanes s v k w := by
  rw [filterMap_activeLanes, List.map_map, Claims.signedLanes]
  refine List.map_congr_left fun i _ => ?_
  rw [Function.comp_apply, sint, ofNat_lane]

/-! ## Extremes -/

/-- The greatest member of a list, which has one. -/
theorem foldl_max_spec {l : List Int} (h : l ≠ []) :
    l.foldl max (l.headD 0) ∈ l ∧ ∀ z ∈ l, z ≤ l.foldl max (l.headD 0) := by
  cases l with
  | nil => exact absurd rfl h
  | cons x l =>
    refine List.max?_eq_some_iff.mp ?_
    rw [List.max?_cons', List.foldl_cons, List.headD_cons, max_self]

/-- The least member of a list, which has one. -/
theorem foldl_min_spec {l : List Int} (h : l ≠ []) :
    l.foldl min (l.headD 0) ∈ l ∧ ∀ z ∈ l, l.foldl min (l.headD 0) ≤ z := by
  cases l with
  | nil => exact absurd rfl h
  | cons x l =>
    refine List.min?_eq_some_iff.mp ?_
    rw [List.min?_cons', List.foldl_cons, List.headD_cons, min_self]

/-! ## The tree (R173) -/

/-- Two nodes combined by g; one that has no active lane below it passes the other. -/
def joinNodes (g : Nat → Nat → Nat) : Option Nat → Option Nat → Option Nat
  | some x, some y => some (g x y)
  | some x, none => some x
  | none, y => y

theorem node_succ (s : State) (v : Vec) (k : KReg) (w : Nat) (g : Nat → Nat → Nat) (m i : Nat) :
    Claims.node s v k w g (m + 1) i =
      joinNodes g (Claims.node s v k w g m (2 * i)) (Claims.node s v k w g m (2 * i + 1)) := by
  rw [Claims.node]
  cases Claims.node s v k w g m (2 * i) <;> cases Claims.node s v k w g m (2 * i + 1) <;> rfl

theorem joinNodes_none (g : Nat → Nat → Nat) (x : Option Nat) : joinNodes g x none = x := by
  cases x <;> rfl

theorem treeLevel_cons_cons (f : Nat → Nat → FRes) (x y : Option Nat) (l : List (Option Nat)) :
    (treeLevel f (x :: y :: l)).1 = joinNodes (fun x y => (f x y).bits) x y :: (treeLevel f l).1 := by
  cases x <;> cases y <;> rfl

/-- A node of the next level is made of two of this one. -/
theorem treeLevel_getD (f : Nat → Nat → FRes) : ∀ (l : List (Option Nat)) (i : Nat),
    (treeLevel f l).1.getD i none =
      joinNodes (fun x y => (f x y).bits) (l.getD (2 * i) none) (l.getD (2 * i + 1) none)
  | [], _ => rfl
  | [x], 0 => (joinNodes_none _ x).symm
  | [_], _ + 1 => rfl
  | x :: y :: l, 0 => by rw [treeLevel_cons_cons]; rfl
  | x :: y :: l, i + 1 => by rw [treeLevel_cons_cons]; exact treeLevel_getD f l i

/-- The tree over n levels from level m on. -/
theorem treeReduce_node {s : State} {v : Vec} {k : KReg} {w : Nat} (f : Nat → Nat → FRes) (n : Nat) {m : Nat}
    {l : List (Option Nat)}
    (h : ∀ i, l.getD i none = Claims.node s v k w (fun x y => (f x y).bits) m i) :
    (treeReduce f n l).1 = Claims.node s v k w (fun x y => (f x y).bits) (m + n) 0 := by
  induction n generalizing m l with
  | zero =>
    rw [treeReduce, Nat.add_zero, ← h 0]
    cases l <;> rfl
  | succ n ih =>
    rw [Nat.add_comm n 1, ← Nat.add_assoc, ← ih (l := (treeLevel f l).1)]
    · rw [Nat.add_comm 1 n]
      rfl
    · intro i
      rw [treeLevel_getD, h, h, ← node_succ]

theorem activeLanes_getD (s : State) (v : Vec) (k : KReg) (w : Nat) (g : Nat → Nat → Nat) (i : Nat) :
    (activeLanes v (s.core.mask k) w).getD i none = Claims.node s v k w g 0 i := by
  rw [activeLanes, List.getD_eq_getElem?_getD, List.getElem?_map, Claims.node]
  by_cases h : i < 512 / w
  · rw [List.getElem?_range h, laneOf_toNat]
    simp only [h, true_and]
    rfl
  · simp [h]

/-! ## The reductions -/

section Reductions
variable {s : State} {d a : Reg} {y : VDist} {k : KReg} (ha : Claims.Alone s)
  (hr : s.core.ready { vs := [(a, y.toNat)], ds := [d] } = true) (g : List Int → Int) (f : Fmt → Nat → Nat → FRes)
  (noInt : Nat → Int) (noFlt : Fmt → Nat)
include ha hr

/-- A reduction of integers writes what g gives of the signed values, or its value for no active lane. -/
theorem vreduce_int (ht : Claims.et s < 4) :
    s.vreduce d a y k g f noInt noFlt =
      .next (Claims.ends s (s.core.writeS d (BitVec.ofInt 64
        (if (Claims.signedLanes s (s.vsrc a y.toNat) k (Claims.ew (Claims.et s))).isEmpty then
          noInt (Claims.ew (Claims.et s))
        else g (Claims.signedLanes s (s.vsrc a y.toNat) k (Claims.ew (Claims.et s))))))) := by
  unfold State.vreduce
  dsimp only
  rw [et_eq, vxf_ready ha (decide_eq_true (by omega)) hr, if_pos ht, etWidth_eq (by omega), signedLanes_eq,
    setS_advance_alone ha]

/-- A reduction of floats writes the root of the tree, or its value for no active lane, and adds some flags. -/
theorem vreduce_flt (hlo : 4 ≤ Claims.et s) (hhi : Claims.et s < 7) :
    ∃ fl : Word, s.vreduce d a y k g f noInt noFlt =
      .next (Claims.ends s ((s.core.writeS d (BitVec.ofNat 64
        ((Claims.node s (s.vsrc a y.toNat) k (Claims.ew (Claims.et s))
          (fun x y => (f (Claims.ef (Claims.et s)) x y).bits) 5 0).getD (noFlt (Claims.ef (Claims.et s)))))).addFlags fl)) := by
  refine ⟨BitVec.ofNat 64 (treeReduce (f (etFmt (Claims.et s))) 5
    (activeLanes (s.vsrc a y.toNat) (s.core.mask k) (Claims.ew (Claims.et s)))).2, ?_⟩
  unfold State.vreduce
  dsimp only
  rw [et_eq, vxf_ready ha (decide_eq_true hhi) hr, if_neg (by omega), etWidth_eq hhi, setS_flags_advance_alone ha,
    treeReduce_node (m := 0) _ 5 (activeLanes_getD s _ k _ _)]
  rfl

end Reductions

section Instructions
variable (s : State) (d a : Reg) (y : VDist) (k : KReg)

theorem exec_vredsum :
    exec (.vredsum d a y k) s = s.vreduce d a y k List.sum (fun f => f.add s.core.rm) (fun _ => 0) fun _ => 0 := rfl

theorem exec_vredmax :
    exec (.vredmax d a y k) s =
      s.vreduce d a y k (fun l => l.foldl max (l.headD 0)) (fun f => f.minmax true) (fun w => -(2 ^ (w - 1) : Nat))
        fun f => f.signed true f.infBits := rfl

theorem exec_vredmin :
    exec (.vredmin d a y k) s =
      s.vreduce d a y k (fun l => l.foldl min (l.headD 0)) (fun f => f.minmax false) (fun w => (2 ^ (w - 1) : Nat) - 1)
        fun f => f.infBits := rfl

end Instructions

end Sys2Proof.Machine

namespace Sys2Proof.Proofs
open Sys2Proof Sys2Proof.Machine

/-- Settles O20: integers by the list of the active lanes, floats by the tree over them. -/
theorem vectorReductions : Obligations.VectorReductions := by
  unfold Obligations.VectorReductions
  intro s d a y k ha hr w v l f rm
  rw [exec_vredsum, exec_vredmax, exec_vredmin]
  refine ⟨fun ht => ⟨?_, ⟨_, vreduce_int ha hr _ _ _ _ ht, fun hl => ?_, fun hl => ?_⟩,
    ⟨_, vreduce_int ha hr _ _ _ _ ht, fun hl => ?_, fun hl => ?_⟩⟩, fun hlo hhi => ?_⟩
  · rw [vreduce_int ha hr _ _ _ _ ht]
    cases hl : Claims.signedLanes s (s.vsrc a y.toNat) k (Claims.ew (Claims.et s)) <;> simp [l, w, v, hl]
  · rw [if_neg (by simpa using hl)]
    exact foldl_max_spec hl
  · rw [if_pos (by simpa using hl), Nat.cast_pow, Nat.cast_two]
  · rw [if_neg (by simpa using hl)]
    exact foldl_min_spec hl
  · rw [if_pos (by simpa using hl), Nat.cast_pow, Nat.cast_two]
  · obtain ⟨f1, hsum⟩ := vreduce_flt (k := k) ha hr List.sum (fun f => f.add s.core.rm) (fun _ => 0) (fun _ => 0) hlo hhi
    obtain ⟨f2, hmax⟩ := vreduce_flt (k := k) ha hr (fun l => l.foldl max (l.headD 0)) (fun f => f.minmax true)
      (fun w => -(2 ^ (w - 1) : Nat)) (fun f => f.signed true f.infBits) hlo hhi
    obtain ⟨f3, hmin⟩ := vreduce_flt (k := k) ha hr (fun l => l.foldl min (l.headD 0)) (fun f => f.minmax false)
      (fun w => (2 ^ (w - 1) : Nat) - 1) (fun f => f.infBits) hlo hhi
    exact ⟨f1, f2, f3, hsum, hmax, hmin⟩

end Sys2Proof.Proofs
end

section
/-! SUPPORT. The vector conversions (O21): the VTYPE that each accepts, and its operation on a lane. -/

namespace Sys2Proof.Machine
open Sys2Proof

/-- The outcome o is that of the conversion x: refused where its VTYPE is not accepted, else its lanes merged into vd with their
flags. -/
def State.Converts (s : State) (x : Claims.Conv) (o : Out) : Prop :=
  (¬x.ok → o = s.trapWord 0x05E#10) ∧
    (x.ok → o = s.issue (Claims.vectors x.d x.a x.dva none)
      (.next ((s.setV x.d (mergeF (s.vsrc x.d 0) (s.core.mask x.k) x.w x.f).1).flags
        (mergeF (s.vsrc x.d 0) (s.core.mask x.k) x.w x.f).2).advance))

/-- A VXF form whose check is that of x, and which does under it what x does, converts as x. -/
theorem vxf_converts {s : State} {x : Claims.Conv} {ok : Bool} {w : Nat} {f : Nat → FRes} (hok : ok = true ↔ x.ok)
    (hw : x.ok → w = x.w) (hf : x.ok → ∀ i, f i = x.f i) :
    s.Converts x (s.vxf ok (Claims.vectors x.d x.a x.dva none)
      (.next ((s.setV x.d (mergeF (s.vsrc x.d 0) (s.core.mask x.k) w f).1).flags
        (mergeF (s.vsrc x.d 0) (s.core.mask x.k) w f).2).advance)) := by
  refine ⟨fun hx => vxf_refused ?_ _ _, fun hx => ?_⟩
  · exact Bool.eq_false_iff.mpr fun h => hx (hok.mp h)
  · rw [State.vxf, hok.mpr hx, hw hx, funext (hf hx)]
    rfl

/-! ## VCVT (R174) -/

theorem et2_eq (s : State) : s.core.et2 = Claims.et2 s := rfl

theorem etWidth_core {s : State} (h : Claims.et s < 7) : etWidth s.core.et = Claims.ew (Claims.et s) := by
  rw [et_eq, etWidth_eq h]

theorem convertFrom_eq {t u : Nat} (ht : t < 7) (hu : u < 7) (p i : Nat) : convertFrom t u p i = Claims.source t u p i := by
  rw [convertFrom, etWidth_eq ht, etWidth_eq hu, lanesOf_eq ht, lanesOf_eq hu, ← Nat.add_one_mul]
  rfl

theorem convertLane_eq {t u : Nat} (ht : t < 7) (hu : u < 7) (rm x : Nat) :
    convertLane rm t u x = Claims.converted rm t u x := by
  rw [convertLane, etWidth_eq ht, etWidth_eq hu, lowBits, ← BitVec.toNat_ofInt]
  rfl

section Forms
variable (s : State) (d a : Reg) (dva : VDist) (k : KReg) {x : Claims.Conv}

theorem vcvt_converts (h : Claims.conv s (.vcvt d a dva k) = some x) : s.Converts x (execVcvt d a dva k s) := by
  cases h
  refine vxf_converts ?_ (fun ⟨_, hu, _⟩ => etWidth_eq hu) fun hx i => ?_
  · rw [et_eq, et2_eq, part_eq]
    simp only [Bool.and_eq_true, decide_eq_true_eq, and_assoc]
    refine and_congr_right fun ht => and_congr_right fun hu => ?_
    rw [etWidth_eq ht, etWidth_eq hu]
  · obtain ⟨ht, hu, -⟩ := hx
    dsimp only
    rw [et_eq, et2_eq, part_eq, convertFrom_eq ht hu, etWidth_eq ht, etWidth_eq hu]
    simp only [convertLane_eq ht hu, ← laneOf_toNat]
    rfl

/-! ## VDEC, VDQNT and VPPU (R175 to R177) -/

theorem vdec_converts (h : Claims.conv s (.vdec d a dva k) = some x) : s.Converts x (execVdec d a dva k s) := by
  cases h
  refine vxf_converts ?_ (fun ⟨_, ht, _⟩ => etWidth_core ht) fun ⟨_, ht, _⟩ i => ?_
  · simp only [Bool.and_eq_true, decide_eq_true_eq, and_assoc, et_eq, Core.codesFit]
    refine and_congr_right fun _ => and_congr_right fun ht => ?_
    rw [lanesOf_eq ht]
    rfl
  · dsimp only
    rw [← laneOf_toNat, et_eq, lanesOf_eq ht]
    rfl

theorem vdqnt_converts (h : Claims.conv s (.vdqnt d a dva k) = some x) : s.Converts x (execVdqnt d a dva k s) := by
  cases h
  have htypes : (Claims.et s = 4 ∧ Claims.part s < 2) ∨ ((Claims.et s = 5 ∨ Claims.et s = 6) ∧ Claims.part s = 0) →
      Claims.et s < 7 := by omega
  refine vxf_converts ?_ (fun hx => etWidth_core (htypes hx)) fun hx i => ?_
  · simp only [Bool.and_eq_true, decide_eq_true_eq, and_assoc, et_eq, part_eq]
    split <;> omega
  · dsimp only
    rw [← laneOf_toNat, ← laneOf_toNat, et_eq, lanesOf_eq (htypes hx), scaled]
    rfl

theorem vppu_converts (h : Claims.conv s (.vppu d a dva k) = some x) : s.Converts x (execVppu d a dva k s) := by
  cases h
  refine vxf_converts ?_ (fun _ => rfl) fun _ i => ?_
  · rw [et_eq, decide_eq_true_eq]
  · exact congrArg (ppuEval s.core.ppu) (laneOf_toNat ..).symm

end Forms

/-- Each conversion is one of these. -/
theorem exec_conv {s : State} {i : Instr} {x : Claims.Conv} (h : Claims.conv s i = some x) : s.Converts x (exec i s) := by
  unfold Claims.conv at h
  split at h
  case h_1 d a dva k => exact vcvt_converts s d a dva k h
  case h_2 d a dva k => exact vdec_converts s d a dva k h
  case h_3 d a dva k => exact vdqnt_converts s d a dva k h
  case h_4 d a dva k => exact vppu_converts s d a dva k h
  case h_5 => cases h

end Sys2Proof.Machine

namespace Sys2Proof.Proofs
open Sys2Proof Sys2Proof.Machine

/-- Settles O21: each conversion merges its lanes with the flags of the active ones, or is refused for its VTYPE. -/
theorem vectorConversions : Obligations.VectorConversions := by
  unfold Obligations.VectorConversions
  intro i s x h ha
  obtain ⟨hrefused, hmerged⟩ := exec_conv h
  refine ⟨hrefused, fun hok hr => ?_⟩
  obtain ⟨v, fl, hend, hfl, hv⟩ := mergeF_advance_alone ha x.d x.k x.w x.f
  refine ⟨v, fl, ?_, hfl, hv⟩
  rw [hmerged hok, issue_ready hr ha.mesh, hend]

end Sys2Proof.Proofs
end

section
/-! SUPPORT. Accesses of several lanes to the own scratchpad: their plan, the bytes that a load finds there, and the writes of a
store. -/

namespace Sys2Proof.Machine
open Sys2Proof

/-! ## The plan of lanes in the own scratchpad (R179, R275) -/

/-- The one piece of an access to the own scratchpad, given by its address, its size and its first byte in the operand. -/
def ownPiece (c : CoreId) (r : Nat × Nat × Nat) : Piece :=
  { off := r.2.2, len := r.2.1, va := r.1, place := .scratch c, addr := r.1 % 2 ^ 56, pte := 0#64 }

/-- Every access lies in the own scratchpad, is not empty, and meets no watchpoint and no poison. -/
def OwnLanes (s : State) (acc : Access) (l : List (Nat × Nat × Nat)) : Prop :=
  ∀ r ∈ l, Claims.Own s acc r.1 r.2.1 ∧ 0 < r.2.1

section Plan
variable {s : State} {acc : Access}

/-- An access that is cut in two parts is one piece again. -/
theorem planOne_ownPiece {r : Nat × Nat × Nat} (h : Claims.Own s acc r.1 r.2.1) (hn : 0 < r.2.1) :
    s.planOne acc r = .go [ownPiece s.cur r] := by
  obtain ⟨va, n, base⟩ := r
  obtain ⟨hap, hsize, hroom, -, -⟩ := h
  dsimp only at hap hsize hroom hn
  unfold State.planOne
  dsimp only
  rcases splitAccess_cases va n with hsplit | ⟨room, hlt, hpos, hsplit⟩
  · rw [hsplit, List.foldl_cons, List.foldl_nil, planPart_own acc base hap hn (by omega) (by omega)]
    rfl
  · rw [hsplit, List.foldl_cons, List.foldl_cons, List.foldl_nil,
      planPart_own acc base hap hpos (by omega) (by omega),
      planPart_own acc base hap (off := room) (len := n - room) (by omega) (by omega) (by omega)]
    show Plan.seal (.go [_, _]) = _
    rw [Plan.seal, if_pos ⟨rfl, rfl, rfl⟩]
    dsimp only [ownPiece]
    rw [Nat.add_sub_cancel' hlt.le]
    rfl

theorem plan_ownLanes {l : List (Nat × Nat × Nat)} (h : OwnLanes s acc l) : s.plan acc l = .go (l.map (ownPiece s.cur)) := by
  have hfrom (ps : List Piece) : l.foldl (fun (p : Plan) x => p.join (s.planOne acc x)) (.go ps) =
      .go (ps ++ l.map (ownPiece s.cur)) := by
    induction l generalizing ps with
    | nil => rw [List.map_nil, List.append_nil]; rfl
    | cons r l ih =>
      obtain ⟨hown, hn⟩ := h r List.mem_cons_self
      rw [List.foldl_cons, planOne_ownPiece hown hn]
      refine (ih (fun x hx => h x (List.mem_cons_of_mem r hx)) (ps ++ [ownPiece s.cur r])).trans ?_
      rw [List.map_cons, List.append_assoc, List.singleton_append]
  exact hfrom []

/-- No watchpoint matches them. -/
theorem watchLanes_ownLanes {l : List (Nat × Nat × Nat)} (h : OwnLanes s acc l) :
    s.watchLanes acc l (l.map (ownPiece s.cur)) = s := by
  have hnone : (((l.map (ownPiece s.cur)).map fun p => (laneOf l p, p)).filterMap fun x =>
      (s.core.wpMatch s.cur acc (x.2.place == .scratch s.cur) (if x.2.place = .scratch s.cur then x.2.addr else x.2.va)
        x.2.len).map fun i => (i, x.1)) = [] := by
    rw [List.map_map, List.filterMap_map, List.filterMap_eq_nil_iff]
    intro r hr
    simp [ownPiece, (h r hr).1.watch, -Nat.reducePow]
  unfold State.watchLanes State.watchPieces
  rw [hnone]
  rfl

end Plan

/-! ## What a load finds in the own scratchpad (R41) -/

section Bytes
variable (s : State)

/-- The known bits of a byte are bits of a byte. -/
theorem forward_fst_lt (k : Core) (p : Place) (a : Nat) : (k.forward p a).1 < 256 := by
  refine foldl_keeps (fun x : Nat × Nat => x.1 < 256) _ (fun x r hx => ?_) _ _ (by decide)
  unfold Req.onByte
  split
  · split
    · exact Nat.or_lt_two_pow (n := 8) hx (by split <;> decide)
    · exact Nat.lt_succ_self 255
  · exact hx

/-- Every byte of the own scratchpad is found without a request. -/
theorem localBits_own (useL1 : Bool) (a : Nat) :
    (s.localBits useL1 (.scratch s.cur) a).1 = 255 ∧
      (s.localBits useL1 (.scratch s.cur) a).2 &&& 255 = Claims.ownByte s a := by
  unfold State.localBits Claims.ownByte
  dsimp only
  by_cases hall : (s.core.forward (.scratch s.cur) a).1 = 255
  · rw [if_pos hall, hall]
    simp
  · have hknown := forward_fst_lt s.core (.scratch s.cur) a
    have hmem : (memByte s.mem (scratchKey s.cur a)).toNat < 2 ^ 8 := BitVec.isLt _
    have hlt : ((memByte s.mem (scratchKey s.cur a)).toNat &&& (255 - (s.core.forward (.scratch s.cur) a).1)) |||
        ((s.core.forward (.scratch s.cur) a).2 &&& (s.core.forward (.scratch s.cur) a).1) < 2 ^ 8 :=
      Nat.or_lt_two_pow (Nat.and_lt_two_pow _ (by omega)) (Nat.and_lt_two_pow _ hknown)
    rw [if_neg hall, State.heldByte, if_pos rfl]
    refine ⟨rfl, ?_⟩
    dsimp only
    rw [show 255 = 2 ^ 8 - 1 by rfl, Nat.and_two_pow_sub_one_eq_mod]
    exact Nat.mod_eq_of_lt hlt

theorem ownByte_lt (a : Nat) : Claims.ownByte s a < 256 := by
  rw [← (localBits_own s true a).2]
  exact Nat.and_lt_two_pow (n := 8) _ (by decide)

theorem ownBytes_succ (a n : Nat) :
    Claims.ownBytes s a (n + 1) = Claims.ownBytes s a n + Claims.ownByte s (a + n) * 256 ^ n := by
  simp [Claims.ownBytes, List.range_succ]

theorem ownBytes_add (a n m : Nat) :
    Claims.ownBytes s a (n + m) = Claims.ownBytes s a n + Claims.ownBytes s (a + n) m * 256 ^ n := by
  induction m with
  | zero => simp [Claims.ownBytes]
  | succ m ih =>
    rw [← Nat.add_assoc, ownBytes_succ, ih, ownBytes_succ, Nat.add_assoc a n m]
    ring

theorem ownBytes_lt (a n : Nat) : Claims.ownBytes s a n < 256 ^ n := by
  induction n with
  | zero => exact Nat.one_pos
  | succ n ih =>
    have hbyte := ownByte_lt s (a + n)
    calc Claims.ownBytes s a (n + 1) = Claims.ownBytes s a n + Claims.ownByte s (a + n) * 256 ^ n := ownBytes_succ s a n
      _ < 256 ^ n + Claims.ownByte s (a + n) * 256 ^ n := Nat.add_lt_add_right ih _
      _ = (Claims.ownByte s (a + n) + 1) * 256 ^ n := by ring
      _ ≤ 256 * 256 ^ n := Nat.mul_le_mul_right _ hbyte
      _ = 256 ^ (n + 1) := by ring

theorem sum_full_bytes (n : Nat) : ((List.range n).map fun i => 255 * 256 ^ i).sum = 256 ^ n - 1 := by
  induction n with
  | zero => rfl
  | succ n ih =>
    have hpos : 0 < 256 ^ n := by positivity
    rw [List.range_succ, List.map_append, List.sum_append, ih, List.map_singleton, List.sum_singleton, pow_succ]
    omega

variable {s} {p : Piece} (hp : p.place = .scratch s.cur)
include hp

theorem localPart_own (useL1 : Bool) : s.localPart useL1 p = Claims.ownBytes s p.addr p.len := by
  unfold State.localPart Claims.ownBytes
  dsimp only
  simp only [hp, localBits_own]

/-- No request is sent for it. -/
theorem loadReqs_own (useL1 : Bool) (kind : ReqKind) : s.loadReqs useL1 kind p = [] := by
  have hhidden : s.hiddenPart useL1 p = 256 ^ p.len - 1 := by
    unfold State.hiddenPart
    simp only [hp, localBits_own, sum_full_bytes]
  unfold State.loadReqs
  rw [hhidden]
  exact if_pos rfl

end Bytes

/-! ## Pieces that are joined (R179) -/

/-- What a piece of the own scratchpad gives to the operand. -/
def pieceValue (s : State) (p : Piece) : Nat := Claims.ownBytes s p.addr p.len * 256 ^ p.off

theorem pieceValue_join (s : State) {p q : Piece} (hoff : p.off + p.len = q.off) (haddr : p.addr + p.len = q.addr) :
    pieceValue s { p with len := p.len + q.len } = pieceValue s p + pieceValue s q := by
  unfold pieceValue
  dsimp only
  rw [ownBytes_add, haddr, ← hoff, pow_add]
  ring

theorem coalesce_value (s : State) (l : List Piece) : ((coalesce l).map (pieceValue s)).sum = (l.map (pieceValue s)).sum := by
  induction l with
  | nil => rfl
  | cons p t ih =>
    rw [coalesce]
    split
    case h_1 q u hq =>
      rw [hq, List.map_cons, List.sum_cons] at ih
      split
      case isTrue h =>
        obtain ⟨-, -, hoff, haddr, -, -⟩ := h
        rw [List.map_cons, List.sum_cons, pieceValue_join s hoff haddr, List.map_cons, List.sum_cons, ← ih, Nat.add_assoc]
      case isFalse => rw [List.map_cons, List.sum_cons, List.map_cons, List.sum_cons, List.map_cons, List.sum_cons, ← ih]
    case h_2 hnil =>
      rw [hnil] at ih
      rw [List.map_cons, List.sum_cons, List.map_cons, List.sum_cons, ← ih]

theorem coalesce_place {c : Place} {l : List Piece} (h : ∀ p ∈ l, p.place = c) : ∀ p ∈ coalesce l, p.place = c := by
  induction l with
  | nil => exact fun p hp => absurd hp List.not_mem_nil
  | cons p t ih =>
    have hrest := ih fun q hq => h q (List.mem_cons_of_mem p hq)
    have hp := h p List.mem_cons_self
    rw [coalesce]
    split
    case h_1 q u hq =>
      rw [hq] at hrest
      split
      · exact List.forall_mem_cons.mpr ⟨hp, fun r hr => hrest r (List.mem_cons_of_mem q hr)⟩
      · exact List.forall_mem_cons.mpr ⟨hp, hrest⟩
    case h_2 => exact List.forall_mem_cons.mpr ⟨hp, fun _ hr => absurd hr List.not_mem_nil⟩

/-! ## A load of lanes -/

section Loads
variable {s : State}

theorem sendLoads_own {ps : List Piece} (h : ∀ p ∈ ps, p.place = .scratch s.cur) (useL1 : Bool) (kind : ReqKind) (d : Dest)
    (acc : Nat) (acquire : Option Scope) :
    s.sendLoads useL1 kind ps d acc acquire = s.upd fun k => k.deliver d (acc + (ps.map (pieceValue s)).sum) := by
  have hreqs : (ps.flatMap fun p => s.loadReqs useL1 kind p) = [] :=
    List.flatMap_eq_nil_iff.mpr fun p hp => loadReqs_own (h p hp) useL1 kind
  have hvalue : (ps.map fun p => s.localPart useL1 p * 256 ^ p.off) = ps.map (pieceValue s) :=
    List.map_congr_left fun p hp => by rw [localPart_own (h p hp), pieceValue]
  unfold State.sendLoads
  rw [hreqs, hvalue]
  rfl

theorem quiet_deliver {k : Core} (h : k.quiet) (d : Dest) (v : Nat) : (k.deliver d v).quiet := by
  cases d with
  | scalar r n signed => exact quiet_writeS h ..
  | vector r => exact quiet_writeV h ..
  | broadcast r old mask n => exact quiet_writeV h ..

theorem deliver_pc (k : Core) (d : Dest) (v : Nat) : (k.deliver d v).pc = k.pc := by
  cases d with
  | scalar r n signed => exact Core.writeS_pc ..
  | vector r => exact Core.writeV_pc ..
  | broadcast r old mask n => exact Core.writeV_pc ..

theorem poisonedLoad_own {r : Nat × Nat × Nat} (h : Claims.Own s .load r.1 r.2.1) :
    s.poisonedLoad (ownPiece s.cur r) = false := by
  unfold State.poisonedLoad
  rw [Bool.and_eq_false_iff]
  refine .inr (List.any_eq_false.mpr fun i hi => ?_)
  have hi : i < r.2.1 := List.mem_range.mp hi
  have hclean : s.poisonIn (scratchKey s.cur (r.1 % 2 ^ 56 + i)) 1 = false := by
    refine poisonIn_of_within h.clean ?_ ?_ <;> rw [scratchKey_add] <;> omega
  simp [ownPiece, hclean, -Nat.reducePow]

/-- A load of lanes in the own scratchpad delivers their bytes at once, and changes nothing else. -/
theorem loadLanes_own (ha : Claims.Alone s) {l : List (Nat × Nat × Nat)} (h : OwnLanes s .load l) (kind : ReqKind) (d : Dest)
    (acc : Nat) :
    s.loadLanes kind l d acc =
      .next (Claims.ends s
        (s.core.deliver d (acc + (l.map fun r => Claims.ownBytes s (r.1 % 2 ^ 56) r.2.1 * 256 ^ r.2.2).sum))) := by
  have hclean : (l.map (ownPiece s.cur)).find? s.poisonedLoad = none := by
    refine List.find?_eq_none.mpr fun p hp => ?_
    obtain ⟨r, hr, rfl⟩ := List.mem_map.mp hp
    rw [poisonedLoad_own (h r hr).1]
    exact Bool.false_ne_true
  have hplace : ∀ p ∈ coalesce (l.map (ownPiece s.cur)), p.place = .scratch s.cur := by
    refine coalesce_place fun p hp => ?_
    obtain ⟨r, -, rfl⟩ := List.mem_map.mp hp
    rfl
  unfold State.loadLanes
  rw [plan_ownLanes h]
  dsimp only
  rw [hclean]
  dsimp only
  rw [watchLanes_ownLanes h, sendLoads_own hplace, coalesce_value, List.map_map,
    advance_upd_alone (quiet_deliver ha.quiet _ _) (deliver_pc _ _ _)]
  rfl

end Loads

end Sys2Proof.Machine
end

section
/-! SUPPORT. Vector loads (O17): the vector that is made of the lanes kept and the bytes that came. -/

namespace Sys2Proof.Machine
open Sys2Proof

/-! ## The active lanes and their accesses (R178) -/

theorem lanes_per_vector (n : Nat) : 512 / (8 * n) = 64 / n := Nat.mul_div_mul_left (m := 8) 64 n (by decide)

theorem two_pow_bytes (n i : Nat) : 2 ^ (8 * n * i) = 256 ^ (n * i) := by
  rw [Nat.mul_assoc, pow_mul]
  rfl

theorem laneAccesses_eq (s : State) (k : KReg) (n : Nat) (addr : Nat → Word) :
    laneAccesses (s.core.mask k) n addr =
      (Claims.lanes s k (8 * n)).map fun i => ((addr i).toNat, n, n * i) := by
  rw [Claims.lanes, lanes_per_vector]
  rfl

theorem bytesOf_pos (e : Size) : 0 < Claims.bytesOf e := by
  cases e <;> decide

theorem ownLanes_laneAccesses {s : State} {acc : Access} {k : KReg} {n : Nat} {addr : Nat → Word} (hn : 0 < n)
    (h : ∀ j ∈ Claims.lanes s k (8 * n), Claims.Own s acc (addr j).toNat n) :
    OwnLanes s acc (laneAccesses (s.core.mask k) n addr) := by
  intro r hr
  rw [laneAccesses_eq] at hr
  obtain ⟨j, hj, rfl⟩ := List.mem_map.mp hr
  exact ⟨h j hj, hn⟩

theorem sextTo_lane (v : Vec) (w i : Nat) : sextTo (lane v w i) w = (Claims.laneOf v w i).signExtend 64 := by
  rw [sextTo, ofNat_lane]

/-! ## The bytes of the lanes over the lanes kept -/

theorem lanesNat_concat (w : Nat) (l : List Nat) (x : Nat) :
    lanesNat w (l ++ [x]) = lanesNat w l + x % 2 ^ w * 2 ^ (w * l.length) := by
  induction l with
  | nil => simp [lanesNat]
  | cons y l ih =>
    show y % 2 ^ w + 2 ^ w * lanesNat w (l ++ [x]) = y % 2 ^ w + 2 ^ w * lanesNat w l + _
    rw [ih, List.length_cons, Nat.mul_add_one, pow_add]
    ring

/-- Adding the fields of some lanes to a number in which those lanes are 0 puts them there. -/
theorem lanesNat_fill {w : Nat} {g : Nat → Nat} (hg : ∀ i, g i < 2 ^ w) (p : Nat → Bool) (f : Nat → Nat) (n : Nat) :
    lanesNat w ((List.range n).map fun i => if p i then 0 else f i) +
        (((List.range n).filter p).map fun i => g i * 2 ^ (w * i)).sum =
      lanesNat w ((List.range n).map fun i => if p i then g i else f i) := by
  induction n with
  | zero => rfl
  | succ n ih =>
    rw [List.range_succ, List.map_append, List.map_append, List.filter_append, List.map_append, List.sum_append,
      List.map_singleton, List.map_singleton, lanesNat_concat, lanesNat_concat, List.length_map, List.length_map,
      List.length_range, ← ih]
    cases hp : p n with
    | false =>
      rw [List.filter_cons_of_neg (by rw [hp]; exact Bool.false_ne_true)]
      simp only [Bool.false_eq_true, if_false, List.filter_nil, List.map_nil, List.sum_nil]
      ring
    | true =>
      rw [List.filter_cons_of_pos hp]
      simp only [if_true, List.filter_nil, List.map_singleton, List.sum_singleton, Nat.zero_mod, Nat.mod_eq_of_lt (hg n)]
      ring

/-- What a load of lanes gives to its destination is the old value with those lanes merged in. -/
theorem filled_eq_merge {s : State} {k : KReg} {n : Nat} (old : Vec) {g : Nat → Nat} (hg : ∀ i, g i < 2 ^ (8 * n)) :
    BitVec.ofNat 512 ((clearActive old (s.core.mask k) n).toNat +
      ((Claims.lanes s k (8 * n)).map fun i => g i * 256 ^ (n * i)).sum) = merge old (s.core.mask k) (8 * n) g := by
  have hfill := lanesNat_fill hg (active (s.core.mask k) (8 * n)) (lane old (8 * n)) (512 / (8 * n))
  simp only [two_pow_bytes] at hfill
  rw [BitVec.ofNat_add, ofNat_toNat_self, clearActive, merge, merge, ofLanes_eq, ofLanes_eq, ← hfill, BitVec.ofNat_add]
  rfl

/-! ## VLD, VLDS and VGATH -/

section Loads
variable {s : State} {d a : Reg} {da : Dist} {k : KReg} {n : Nat}

/-- The bytes at the address of lane i. -/
def laneBytes (s : State) (n : Nat) (addr : Nat → Word) (i : Nat) : Nat := Claims.ownBytes s ((addr i).toNat % 2 ^ 56) n

theorem laneBytes_lt (s : State) (n : Nat) (addr : Nat → Word) (i : Nat) : laneBytes s n addr i < 2 ^ (8 * n) :=
  (ownBytes_lt s _ n).trans_eq (pow_mul 2 8 n).symm

theorem vload_own (ha : Claims.Alone s) {extra : Names} {addr : Nat → Word} (hn : 0 < n)
    (hr : s.core.ready { ss := [(a, da.toNat)] ++ extra.ss, vs := extra.vs ++ [(d, 0)], dv := [d] } = true)
    (h : ∀ j ∈ Claims.lanes s k (8 * n), Claims.Own s .load (addr j).toNat n) :
    s.vload d a da extra k n addr =
      .next (Claims.ends s (s.core.writeV d
        (merge (s.vsrc d 0) (s.core.mask k) (8 * n) (laneBytes s n addr)))) := by
  rw [State.vload, issue_ready hr ha.mesh]
  dsimp only
  rw [loadLanes_own ha (ownLanes_laneAccesses hn h), laneAccesses_eq, List.map_map,
    ← filled_eq_merge _ (laneBytes_lt s n addr)]
  rfl

/-! ## VLDB -/

theorem laneOf_and_not (x m : Vec) {w i : Nat} (h : w * (i + 1) ≤ 512) :
    Claims.laneOf (x &&& ~~~m) w i = Claims.laneOf x w i &&& ~~~Claims.laneOf m w i := by
  apply BitVec.eq_of_getLsbD_eq
  intro j hj
  have hin : w * i + j < 512 := by
    rw [Nat.mul_add_one] at h
    omega
  simp [Claims.laneOf, hj, hin]

/-- A number of one lane's width at lane i is 0 in every other lane. -/
theorem laneOf_placed_other {w i j c : Nat} (hc : c < 2 ^ w) (hi : w * (i + 1) ≤ 512) (hj : w * (j + 1) ≤ 512)
    (h : i ≠ j) :
    Claims.laneOf (BitVec.ofNat 512 (c * 2 ^ (w * i))) w j = 0#w := by
  apply laneOf_eq_zero
  rcases Nat.lt_or_gt_of_ne h with hlt | hgt
  · have htop : c * 2 ^ (w * i) < 2 ^ (w * j) := by
      refine lt_of_lt_of_le (Nat.mul_lt_mul_of_pos_right hc (Nat.two_pow_pos _)) ?_
      rw [← pow_add, Nat.add_comm, ← Nat.mul_add_one]
      exact Nat.pow_le_pow_right (by decide) (Nat.mul_le_mul_left w hlt)
    rw [lane_ofNat _ hj, Nat.div_eq_of_lt htop, Nat.zero_mod]
  · exact lane_mul_two_pow_below c ((Nat.mul_le_mul_left w (Nat.le_succ i)).trans hi) (Nat.mul_le_mul_left w hgt)

theorem laneOf_placed_same {w i c : Nat} (hi : w * (i + 1) ≤ 512) :
    Claims.laneOf (BitVec.ofNat 512 (c * 2 ^ (w * i))) w i = BitVec.ofNat w c := by
  rw [← ofNat_lane, lane_ofNat _ hi, Nat.mul_div_cancel _ (Nat.two_pow_pos _), ofNat_mod_two_pow]

/-- One lane of a vector replaced. -/
def putLane (w v : Nat) (x : Vec) (i : Nat) : Vec :=
  (x &&& ~~~BitVec.ofNat 512 ((2 ^ w - 1) * 2 ^ (w * i))) ||| BitVec.ofNat 512 (v % 2 ^ w * 2 ^ (w * i))

section PutLane
variable {w v i j : Nat} (x : Vec) (hi : w * (i + 1) ≤ 512)
include hi

theorem laneOf_putLane_same : Claims.laneOf (putLane w v x i) w i = BitVec.ofNat w v := by
  have hones : BitVec.ofNat w (2 ^ w - 1) = BitVec.allOnes w := by
    rw [← BitVec.toNat_allOnes, ofNat_toNat_self]
  rw [putLane, laneOf_or, laneOf_and_not _ _ hi, laneOf_placed_same hi, laneOf_placed_same hi, hones, BitVec.not_allOnes,
    BitVec.and_zero, BitVec.zero_or, ofNat_mod_two_pow]

theorem laneOf_putLane_other (hj : w * (j + 1) ≤ 512) (h : i ≠ j) :
    Claims.laneOf (putLane w v x i) w j = Claims.laneOf x w j := by
  have hpos := Nat.two_pow_pos w
  rw [putLane, laneOf_or, laneOf_and_not _ _ hj, laneOf_placed_other (by omega) hi hj h,
    laneOf_placed_other (Nat.mod_lt _ hpos) hi hj h, BitVec.not_zero, BitVec.and_allOnes, BitVec.or_zero]

end PutLane

/-- The mask bit of a lane is that of its lowest byte. -/
theorem lit_iff (s : State) (k : KReg) (n i : Nat) : Claims.lit s k (8 * n) i ↔ (s.core.mask k).getLsbD (n * i) = true := by
  rw [Claims.lit, Nat.mul_assoc, Nat.mul_div_cancel_left _ (by decide)]

theorem spread_eq (old : Vec) (m : Word) (n v : Nat) :
    spread old m n v =
      (List.range (64 / n)).foldl (fun x i => if m.getLsbD (n * i) then putLane (8 * n) v x i else x) old := rfl

theorem laneOf_spread (old : Vec) (m : Word) {n j : Nat} (v : Nat) (hj : j < 64 / n) :
    Claims.laneOf (spread old m n v) (8 * n) j =
      if m.getLsbD (n * j) then BitVec.ofNat (8 * n) v else Claims.laneOf old (8 * n) j := by
  have hin (i : Nat) (hi : i < 64 / n) : 8 * n * (i + 1) ≤ 512 := mul_succ_le_of_lt_div (by rwa [lanes_per_vector])
  rw [spread_eq]
  refine (foldl_range_governed (part := fun x => Claims.laneOf x (8 * n) j)
    (new := fun y => if m.getLsbD (n * j) then BitVec.ofNat (8 * n) v else y) (fun x => ?_) (64 / n)
    (fun x i hi hne => ?_) old).trans (if_pos hj)
  · split
    · exact laneOf_putLane_same x (hin j hj)
    · rfl
  · split
    · exact laneOf_putLane_other x (hin i hi) (hin j hj) hne
    · rfl

/-- VLDB merges its one element into every active lane. -/
theorem merged_spread (s : State) (k : KReg) (n : Nat) (old : Vec) (v : Nat) :
    Merged s k (8 * n) old (fun _ => v) (spread old (s.core.mask k) n v) := by
  intro j hj
  rw [laneOf_spread old _ v (by rwa [lanes_per_vector] at hj), lit_iff]
  refine ⟨fun hlit => ?_, fun hdark => if_neg hdark⟩
  rw [if_pos hlit, BitVec.toNat_ofNat]

/-- With no lane active nothing is read, and vd keeps all it holds. -/
theorem merged_none {s : State} {k : KReg} {w : Nat} (old : Vec) (g : Nat → Nat) (h : ∀ j < 512 / w, ¬Claims.lit s k w j) :
    Merged s k w old g old := fun j hj => ⟨fun hlit => absurd hlit (h j hj), fun _ => rfl⟩

theorem vldb_own (ha : Claims.Alone s) {e : Size}
    (hr : s.core.ready { ss := [(a, da.toNat)], vs := [(d, 0)], dv := [d] } = true)
    (h : ∀ j ∈ Claims.lanes s k (8 * Claims.bytesOf e),
      Claims.Own s .load (s.src a da.toNat).toNat (Claims.bytesOf e)) :
    ∃ v : Vec, execVldb d a da k e s = .next (Claims.ends s (s.core.writeV d v)) ∧
      Merged s k (8 * Claims.bytesOf e) (s.vsrc d 0)
        (laneBytes s (Claims.bytesOf e) fun _ => s.src a da.toNat) v := by
  unfold execVldb
  dsimp only
  rw [issue_ready hr ha.mesh]
  by_cases hany : ((List.range (64 / esize e)).any fun i => active (s.core.mask k) (8 * esize e) i) = true
  · obtain ⟨j, hj, hlit⟩ := List.any_eq_true.mp hany
    have hmem : j ∈ Claims.lanes s k (8 * Claims.bytesOf e) := by
      rw [Claims.lanes, lanes_per_vector]
      exact List.mem_filter.mpr ⟨hj, hlit⟩
    have hown : OwnLanes s .load [((s.src a da.toNat).toNat, esize e, 0)] := by
      rintro r hr
      obtain rfl := List.mem_singleton.mp hr
      exact ⟨h j hmem, bytesOf_pos e⟩
    rw [if_pos hany, loadLanes_own ha hown]
    refine ⟨_, rfl, ?_⟩
    rw [List.map_singleton, List.sum_singleton, Nat.pow_zero, Nat.mul_one, Nat.zero_add]
    exact merged_spread s k _ _ _
  · rw [if_neg hany, setV_advance_alone ha]
    refine ⟨_, rfl, merged_none _ _ fun j hj hlit => hany ?_⟩
    rw [lanes_per_vector] at hj
    exact List.any_eq_true.mpr ⟨j, List.mem_range.mpr hj, hlit⟩

/-! ## The loads -/

/-- The outcome o is that of a ready load whose lanes lie in the own scratchpad. -/
def LoadsLanes (s : State) (x : Claims.VMem) (o : Out) : Prop :=
  ∃ v : Vec, o = .next (Claims.ends s (s.core.writeV x.d v)) ∧
    Merged s x.k (8 * x.n) (s.vsrc x.d 0) (laneBytes s x.n x.va) v

theorem exec_vload (ha : Claims.Alone s) {i : Instr} {x : Claims.VMem} (hx : Claims.vload s i = some x)
    (hr : s.core.ready { ss := x.ss, vs := x.vs ++ [(x.d, 0)], dv := [x.d] } = true)
    (h : ∀ j ∈ Claims.lanes s x.k (8 * x.n), Claims.Own s .load (x.va j).toNat x.n) : LoadsLanes s x (exec i s) := by
  unfold Claims.vload at hx
  split at hx <;> cases hx
  case h_1 d a da k e =>
    exact ⟨_, vload_own (extra := {}) ha (bytesOf_pos e) hr h, merged_merge _ _ _ _ _⟩
  case h_2 d a da b k e =>
    exact ⟨_, vload_own (extra := { ss := [(b, 0)] }) ha (bytesOf_pos e) hr h, merged_merge _ _ _ _ _⟩
  case h_3 d a da b k e =>
    refine ⟨_, ?_, merged_merge _ _ _ _ _⟩
    show execVgath d a da b k e s = _
    unfold execVgath
    simp only [sextTo_lane]
    exact vload_own (extra := { vs := [(b, 0)] }) ha (bytesOf_pos e) hr h
  case h_4 d a da k e => exact vldb_own ha hr h

end Loads

end Sys2Proof.Machine

namespace Sys2Proof.Proofs
open Sys2Proof Sys2Proof.Machine

/-- Settles O17: the load delivers the bytes of its active lanes, merged into vd. -/
theorem vectorLoads : Obligations.VectorLoads := by
  unfold Obligations.VectorLoads
  intro i s x hx hr ha h
  obtain ⟨v, hexec, hv⟩ := exec_vload ha hx hr h
  refine ⟨v, hexec, fun j hj => ?_⟩
  rw [← lanes_per_vector] at hj
  obtain ⟨hlit, hdark⟩ := hv j hj
  refine ⟨fun hl => ?_, hdark⟩
  rw [hlit hl, Nat.mod_eq_of_lt (laneBytes_lt s x.n x.va j)]
  rfl

end Sys2Proof.Proofs
end

section
/-! SUPPORT. Vector stores (O18): the requests of the lanes are performed in lane order, and each writes its bytes alone. -/

namespace Sys2Proof.Machine
open Sys2Proof

/-! ## One store to the own scratchpad (R235, R441) -/

/-- A core that stands alone, outside every loop with W > 1, with no queued command and no earlier store that its stores would
wait for. -/
structure Unhindered (s : State) : Prop where
  alone : Claims.Alone s
  loop : s.core.overlapped = false
  buffer : s.core.sbuf = []
  out : s.core.outq = []
  idle : s.core.mqueue = []
  turn : ∀ e ∈ s.flight, e.src = s.cur → e.order = 0

/-- No poisoned granule holds a byte of a clean place. -/
theorem granule_apart {s : State} {key n g : Nat} (h : s.poisonIn key n = false) (hg : g ∈ s.poisoned) :
    key < 8 * g + 8 → key + n ≤ 8 * g := by
  have hover := List.any_eq_false.mp h g hg
  simp only [overlaps, Bool.and_eq_true, decide_eq_true_eq, not_and, not_lt] at hover
  exact hover

/-- A store to the scratchpad of the core in focus that meets no poison and waits for no earlier store of its order. -/
structure HomeStore (s : State) (r : Req) : Prop where
  place : r.place = .scratch s.cur
  kind : r.kind = .store
  clean : s.poisonIn (scratchKey s.cur r.addr) r.size = false
  whole : ∀ i ∈ r.whole, scratchKey s.cur r.addr / 8 + i ∉ s.poisoned
  turn : ∀ e ∈ s.flight, e.src = s.cur → e.order = 0

section Send
variable {s : State} {r : Req} (m : List Host.Cell)

/-- Where it writes whole granules there is no poison to lift. -/
theorem heal_clean {whole : List Nat} {key : Nat} (h : ∀ i ∈ whole, key / 8 + i ∉ s.poisoned) : s.heal whole key = s := by
  have hkeep : (s.poisoned.filter fun g => !whole.any fun i => decide (key / 8 + i = g)) = s.poisoned := by
    refine List.filter_eq_self.mpr fun g hg => ?_
    rw [Bool.not_eq_true', List.any_eq_false]
    intro i hi heq
    exact h i hi (of_decide_eq_true heq ▸ hg)
  rw [State.heal, hkeep, ite_self]

/-- A write to a clean place of a scratchpad changes memory alone. -/
theorem writeAt_scratch {c a n : Nat} (h : s.poisonIn (scratchKey c a) n = false) (ctx v : Nat) :
    s.writeAt ctx (scratchKey c a) n v = { s with mem := memWrite s.mem (scratchKey c a) v n } := by
  have hkeep : (s.poisoned.filter fun g => !(decide (scratchKey c a ≤ 8 * g) && decide (8 * g + 8 ≤ scratchKey c a + n))) =
      s.poisoned := by
    refine List.filter_eq_self.mpr fun g hg => ?_
    have hapart := granule_apart h hg
    simp only [Bool.not_eq_true', Bool.and_eq_false_iff, decide_eq_false_iff_not]
    omega
  rw [State.writeAt, logWrite_scratch, hkeep]

theorem send_home (h : HomeStore s r) :
    ({ s with mem := m } : State).send r =
      { s with mem := memWrite m (scratchKey s.cur r.addr) r.data.toNat r.size } := by
  have hclean : ({ s with mem := m } : State).poisonIn (scratchKey s.cur r.addr) r.size = false := h.clean
  unfold State.send
  rw [h.place]
  dsimp only
  rw [if_pos rfl, heal_clean (s := { s with mem := m }) h.whole, poisonPart_clean hclean, if_neg Bool.false_ne_true, h.kind]
  dsimp only
  rw [writeAt_scratch hclean]

theorem outOfTurn_home (h : HomeStore s r) : ({ s with mem := m } : State).outOfTurn r = false := by
  unfold State.outOfTurn
  rw [Bool.and_eq_false_iff]
  refine .inr (List.any_eq_false.mpr fun e he => ?_)
  by_cases hsrc : e.src = s.cur
  · simp [Req.ahead, h.turn e he hsrc]
  · simp [hsrc]

/-- Such stores leave one after the other. -/
theorem drain_home {l : List Req} (h : ∀ r ∈ l, HomeStore s r) :
    ({ s with mem := m } : State).drain l =
      { s with mem := l.foldl (fun m r => memWrite m (scratchKey s.cur r.addr) r.data.toNat r.size) m } := by
  induction l generalizing m with
  | nil => rfl
  | cons r l ih =>
    have hr := h r List.mem_cons_self
    have howner : ({ s with mem := m } : State).remoteOwner r = none := by
      rw [State.remoteOwner, hr.place]
      exact if_pos rfl
    rw [State.drain, outOfTurn_home m hr, if_neg Bool.false_ne_true, howner]
    dsimp only
    rw [send_home m hr, ih _ fun x hx => h x (List.mem_cons_of_mem r hx)]
    rfl

end Send

/-! ## The requests of the lanes (R179) -/

/-- The request that a vector store makes of a lane, in the order given. -/
def laneReq (s : State) (lanes : List (Nat × Nat × Nat)) (data : Nat) (p : Piece) : Req :=
  { s.storeReq .store false data p with
    whole := wholeGranules (lanes.map (ownPiece s.cur)) p
    lane := BitVec.ofNat 64 (laneOf lanes p) }

section Requests
variable {s : State} {lanes : List (Nat × Nat × Nat)}

/-- A granule that the lanes write whole holds bytes of each lane that it is counted for. -/
theorem wholeGranules_clean {r : Nat × Nat × Nat} (h : Claims.Own s .store r.1 r.2.1) (ps : List Piece) :
    ∀ i ∈ wholeGranules ps (ownPiece s.cur r), scratchKey s.cur (r.1 % 2 ^ 56) / 8 + i ∉ s.poisoned := by
  intro i hi hg
  have hlt : i < (r.1 % 2 ^ 56 % 8 + r.2.1 + 7) / 8 := by
    unfold wholeGranules at hi
    split at hi
    · cases hi
    · exact List.mem_range.mp (List.mem_filter.mp hi).1
  have hapart := granule_apart h.clean hg
  simp only [scratchKey] at hapart
  omega

theorem homeStore_laneReq (h : OwnLanes s .store lanes) (hturn : ∀ e ∈ s.flight, e.src = s.cur → e.order = 0) (data o : Nat)
    {r : Nat × Nat × Nat} (hr : r ∈ lanes) : HomeStore s { laneReq s lanes data (ownPiece s.cur r) with order := o } where
  place := rfl
  kind := rfl
  clean := (h r hr).1.clean
  whole := wholeGranules_clean (h r hr).1 _
  turn := hturn

theorem interlocked_idle (h : s.core.mqueue = []) (r : Req) : s.interlocked r = false := by
  simp [State.interlocked, Core.interlocked, State.heldMeets, h]

/-- The bytes of a lane's request, as a number. -/
theorem laneReq_data (data : Nat) (p : Piece) (hp : p.len ≤ 8) :
    (laneReq s lanes data p).data.toNat = data / 256 ^ p.off % 256 ^ p.len := by
  have hlt : data / 256 ^ p.off % 256 ^ p.len < 2 ^ 64 :=
    (Nat.mod_lt _ (by positivity)).trans_le (Nat.pow_le_pow_right (by decide) hp)
  exact Nat.mod_eq_of_lt hlt

/-- Memory after the writes of the lanes, in their order. -/
def lanesWritten (c : CoreId) (lanes : List (Nat × Nat × Nat)) (data : Nat) (m : List Host.Cell) : List Host.Cell :=
  lanes.foldl (fun m r =>
    memWrite m (scratchKey c (r.1 % 2 ^ 56)) (data / 256 ^ r.2.2 % 256 ^ r.2.1) r.2.1) m

/-- The requests of the lanes leave and write their bytes, and the next order number is that of the next store. -/
theorem putStores_home (hu : Unhindered s) (h : OwnLanes s .store lanes) (hsize : ∀ r ∈ lanes, r.2.1 ≤ 8) (inLanes : Bool)
    (data : Nat) :
    s.putStores inLanes ((lanes.map (ownPiece s.cur)).map (laneReq s lanes data)) =
      { s with
        core := if inLanes then { s.core with orderNo := s.core.orderNo + 1 } else s.core
        mem := lanesWritten s.cur lanes data s.mem } := by
  have hdrain (o : Req → Nat) :
      s.drain (((lanes.map (ownPiece s.cur)).map (laneReq s lanes data)).map fun r => { r with order := o r }) =
        { s with mem := lanesWritten s.cur lanes data s.mem } := by
    refine (drain_home (s := s) s.mem fun r hr => ?_).trans ?_
    · simp only [List.map_map, List.mem_map, Function.comp_apply] at hr
      obtain ⟨x, hx, rfl⟩ := hr
      exact homeStore_laneReq h hu.turn data _ hx
    · have hwrites : (((lanes.map (ownPiece s.cur)).map (laneReq s lanes data)).map fun r => { r with order := o r }).foldl
          (fun m r => memWrite m (scratchKey s.cur r.addr) r.data.toNat r.size) s.mem =
            lanesWritten s.cur lanes data s.mem := by
        rw [List.map_map, List.map_map, List.foldl_map]
        refine List.foldl_ext _ _ _ fun m r hr => ?_
        exact congrArg (memWrite m (scratchKey s.cur (r.1 % 2 ^ 56)) · r.2.1)
          (laneReq_data (s := s) (lanes := lanes) data (ownPiece s.cur r) (hsize r hr))
      rw [hwrites]
  unfold State.putStores
  rw [hu.loop, Bool.not_false, Bool.and_true]
  cases inLanes with
  | false =>
    have hself := hdrain fun r => r.order
    rw [List.map_id'] at hself
    exact hself
  | true =>
    rw [if_pos rfl, hdrain fun _ => s.core.orderNo]
    rfl

/-- A store of lanes to the own scratchpad, of a core that nothing hinders, is performed at once. -/
theorem storeLanes_home (hu : Unhindered s) (h : OwnLanes s .store lanes) (hsize : ∀ r ∈ lanes, r.2.1 ≤ 8) (data : Nat) :
    s.storeLanes true .store lanes data =
      .next { Claims.ends s (if 1 < lanes.length then { s.core with orderNo := s.core.orderNo + 1 } else s.core) with
        mem := lanesWritten s.cur lanes data s.mem } := by
  have hfree : (((lanes.map (ownPiece s.cur)).map (laneReq s lanes data)).any fun r => s.interlocked r) = false :=
    List.any_eq_false.mpr fun r _ => by simp [interlocked_idle hu.idle]
  have hhome : (((lanes.map (ownPiece s.cur)).map (laneReq s lanes data)).any fun r => (s.remoteOwner r).isSome) = false := by
    refine List.any_eq_false.mpr fun r hr => ?_
    simp only [List.map_map, List.mem_map] at hr
    obtain ⟨x, -, rfl⟩ := hr
    simp [State.remoteOwner, laneReq, State.storeReq, ownPiece]
  have hroutine : s.core.routine.isSome = false := by
    obtain ⟨-, -, -, hnone⟩ := hu.alone.quiet
    rw [hnone]
    rfl
  unfold State.storeLanes
  rw [plan_ownLanes h]
  dsimp only
  rw [hu.loop, Bool.false_and, if_neg Bool.false_ne_true, ordered_calm hu.loop hu.buffer hu.out]
  show s.storeNow lanes (lanes.map (ownPiece s.cur)) ((lanes.map (ownPiece s.cur)).map (laneReq s lanes data)) = _
  unfold State.storeNow
  rw [hroutine, if_neg Bool.false_ne_true, hfree, if_neg Bool.false_ne_true, hhome, Bool.and_false, if_neg Bool.false_ne_true,
    watchLanes_ownLanes h, putStores_home hu h hsize]
  by_cases hmany : 1 < lanes.length
  · rw [decide_eq_true hmany, if_pos rfl, if_pos hmany]
    exact congrArg Host.Outcome.next (advance_alone hu.alone.quiet)
  · rw [decide_eq_false hmany, if_neg Bool.false_ne_true, if_neg hmany]
    exact congrArg Host.Outcome.next (advance_alone hu.alone.quiet)

end Requests

/-! ## The stores (R178) -/

section Stores
variable {s : State} {d a : Reg} {da : Dist} {k : KReg} {n : Nat}

theorem bytesOf_le (e : Size) : Claims.bytesOf e ≤ 8 := by
  cases e <;> decide

/-- The state that a store of the active lanes leaves. -/
def laneStored (s : State) (d : Reg) (k : KReg) (n : Nat) (addr : Nat → Word) : State :=
  { Claims.ends s
      (if 1 < (Claims.lanes s k (8 * n)).length then { s.core with orderNo := s.core.orderNo + 1 } else s.core) with
    mem := (Claims.lanes s k (8 * n)).foldl
      (fun m j => memWrite m (Claims.ownKey s (addr j).toNat) (Claims.laneOf (s.vsrc d 0) (8 * n) j).toNat n) s.mem }

/-- The lanes are written with their own bytes. -/
theorem lanesWritten_laneAccesses (s : State) (k : KReg) (n : Nat) (addr : Nat → Word) (v : Vec) (m : List Host.Cell) :
    lanesWritten s.cur (laneAccesses (s.core.mask k) n addr) v.toNat m =
      (Claims.lanes s k (8 * n)).foldl
        (fun m j => memWrite m (Claims.ownKey s (addr j).toNat) (Claims.laneOf v (8 * n) j).toNat n) m := by
  rw [lanesWritten, laneAccesses_eq, List.foldl_map]
  refine List.foldl_ext _ _ _ fun m j _ => ?_
  rw [laneOf_toNat, lane, two_pow_bytes, pow_mul 2 8 n]
  rfl

theorem vstore_home (hu : Unhindered s) {extra : Names} {addr : Nat → Word} (hn : 0 < n) (hle : n ≤ 8)
    (hr : s.core.ready { ss := [(a, da.toNat)] ++ extra.ss, vs := extra.vs ++ [(d, 0)] } = true)
    (h : ∀ j ∈ Claims.lanes s k (8 * n), Claims.Own s .store (addr j).toNat n) :
    s.vstore d a da extra k n addr = .next (laneStored s d k n addr) := by
  have hsize : ∀ r ∈ laneAccesses (s.core.mask k) n addr, r.2.1 ≤ 8 := by
    intro r hr
    obtain ⟨j, -, rfl⟩ := List.mem_map.mp hr
    exact hle
  rw [State.vstore, issue_ready hr hu.alone.mesh, storeLanes_home hu (ownLanes_laneAccesses hn h) hsize,
    lanesWritten_laneAccesses, laneAccesses_eq, List.length_map]
  rfl

/-- Each vector store writes its active lanes. -/
theorem exec_vstore (hu : Unhindered s) {i : Instr} {x : Claims.VMem} (hx : Claims.vstore s i = some x)
    (hr : s.core.ready { ss := x.ss, vs := x.vs ++ [(x.d, 0)] } = true)
    (h : ∀ j ∈ Claims.lanes s x.k (8 * x.n), Claims.Own s .store (x.va j).toNat x.n) :
    exec i s = .next (laneStored s x.d x.k x.n x.va) := by
  unfold Claims.vstore at hx
  split at hx <;> cases hx
  case h_1 d a da k e =>
    exact vstore_home (extra := {}) hu (bytesOf_pos e) (bytesOf_le e) hr h
  case h_2 d a da b k e =>
    exact vstore_home (extra := { ss := [(b, 0)] }) hu (bytesOf_pos e) (bytesOf_le e) hr h
  case h_3 d a da b k e =>
    show execVscat d a da b k e s = _
    unfold execVscat
    simp only [sextTo_lane]
    exact vstore_home (extra := { vs := [(b, 0)] }) hu (bytesOf_pos e) (bytesOf_le e) hr h

end Stores

end Sys2Proof.Machine

namespace Sys2Proof.Proofs
open Sys2Proof Sys2Proof.Machine

/-- Settles O18: the requests of the active lanes leave in lane order, each writing its bytes alone. -/
theorem vectorStores : Obligations.VectorStores := by
  unfold Obligations.VectorStores
  intro i s x hx hr ha ho hbuf hout hidle hturn h
  exact exec_vstore ⟨ha, ho, hbuf, hout, hidle, hturn⟩ hx hr h

end Sys2Proof.Proofs
end

section
/-! SUPPORT. Kernel-defined operations (O38): a KOP of a loaded slot and of an empty one, and the slot commands of a core that
stands alone and calm. -/

namespace Sys2Proof.Machine
open Sys2Proof

section Kernel
variable {s : State} {n : BitVec 3} {d a b c : Reg}

/-! ## KOP (R205, R209) -/

/-- Outside a gang, KOP looks at the slot of its own core only. -/
theorem kopSlot_alone (ha : Claims.Alone s) (n : Nat) :
    (if s.slotEmpty n then none else tfind n s.core.kdo) = tfind n s.core.kdo := by
  rw [State.slotEmpty, ha.quiet.1]
  cases tfind n s.core.kdo <;> rfl

/-- Lane i of the slot's output for the operands of a KOP. -/
def kopLane (s : State) (x : Kdo) (d a b c : Reg) (i : Nat) : FRes :=
  let at_ (r : Reg) : Nat := (Claims.laneOf (s.vsrc r 0) (Claims.ew x.et) i).toNat
  x.run (s.core.status.toNat / 4 % 4) (at_ a) (at_ b) (at_ c) (at_ d)

theorem kop_loaded (ha : Claims.Alone s) (k : KReg) {x : Kdo} (hx : tfind n.toNat s.core.kdo = some x) (het : x.et < 7)
    (hr : s.core.ready { vs := (([a, b, c].take x.nops).map fun r => (r, 0)) ++ [(d, 0)], dv := [d] } = true) :
    execKop n d a b c k s =
      .next ((s.setV d (mergeF (s.vsrc d 0) (s.core.mask k) (Claims.ew x.et) (kopLane s x d a b c)).1).flags
        (mergeF (s.vsrc d 0) (s.core.mask k) (Claims.ew x.et) (kopLane s x d a b c)).2).advance := by
  unfold execKop
  rw [kopSlot_alone ha, hx]
  dsimp only
  rw [issue_ready hr ha.mesh, etWidth_eq het]
  unfold kopLane
  simp only [laneOf_toNat]
  rfl

theorem kop_empty (ha : Claims.Alone s) (k : KReg) (hempty : tfind n.toNat s.core.kdo = none)
    (hr : s.core.ready { dv := [d] } = true) : execKop n d a b c k s = s.toLoader n.toNat := by
  unfold execKop
  rw [kopSlot_alone ha, hempty]
  exact issue_ready hr ha.mesh _

theorem toLoader_of_loading (hact : s.core.klstate.getLsbD 63 = true) (slot : Nat) :
    s.toLoader slot = s.trap 0x18A#10 0#64 := if_pos hact

theorem toLoader_of_disabled (hact : s.core.klstate.getLsbD 63 = false) (hen : s.core.kloader.getLsbD 0 = false)
    (slot : Nat) : s.toLoader slot = s.trap 0x189#10 0#64 := by
  rw [State.toLoader, Core.loading, wbit, hact, if_neg Bool.false_ne_true, wbit, hen]
  rfl

theorem toLoader_transfers (ha : Claims.Alone s) (hc : Claims.Calm s) (hact : s.core.klstate.getLsbD 63 = false)
    (hen : s.core.kloader.getLsbD 0 = true) (slot : Nat) :
    s.toLoader slot =
      .next (Claims.endsAt s
        { Claims.suspended s.core with
          klstate := 0x8000000000000000#64 ||| BitVec.ofNat 64 (slot * 2 ^ 60) ||| Claims.codeAddress s.core.pc }
        (Claims.codeAddress s.core.kloader)) := by
  rw [State.toLoader, Core.loading, wbit, hact, if_neg Bool.false_ne_true, wbit, hen, Bool.not_true,
    if_neg Bool.false_ne_true, ordered_calm hc.loop hc.buffer hc.out]
  exact congrArg _ (goto_alone (s := s.upd fun k => { k.suspend with klstate := _ }) ha.quiet _)

/-! ## KLD, KREL, KQRY (R206 to R208) -/

section Commands
variable (ha : Claims.Alone s) (hc : Claims.Calm s)
include ha hc

theorem krel_empties (hr : s.core.ready { ss := [(a, 0)] } = true) :
    execKrel a s = .next (Claims.ends s { s.core with kdo := terase ((s.src a 0).toNat % 8) s.core.kdo }) := by
  unfold execKrel
  dsimp only
  rw [issue_ordered_calm ha hc hr, wfield_zero]
  exact congrArg _ (advance_upd_alone (f := fun k => { k with kdo := terase _ k.kdo }) ha.quiet rfl)

theorem kld_misaligned (hr : s.core.ready { ss := [(a, 0), (b, 0)] } = true) (halign : (s.src a 0).toNat % 8 ≠ 0) :
    execKld a b s = s.trap 0x18C#10 0#64 := by
  unfold execKld
  dsimp only
  rw [issue_ordered_calm ha hc hr, if_pos halign]

variable (hr : s.core.ready { ss := [(a, 0), (b, 0)] } = true) (halign : (s.src a 0).toNat % 8 = 0)
  (hi : Claims.Image s (s.src a 0).toNat 96)
include hr halign hi

theorem kld_faults {e : Cause} {v : Nat} (hf : kdoFault (Claims.imageBytes s (s.src a 0).toNat 96) = some (e, v)) :
    execKld a b s = s.trap e (BitVec.ofNat 64 v) := by
  unfold execKld
  dsimp only
  rw [issue_ordered_calm ha hc hr, if_neg (not_not.mpr halign), readImage_own hc.buffer hi, hf]

theorem kld_loads (hok : kdoFault (Claims.imageBytes s (s.src a 0).toNat 96) = none) :
    execKld a b s =
      .next (Claims.ends s { s.core with
        kdo := tset ((s.src b 0).toNat % 8) (kdoOf (Claims.imageBytes s (s.src a 0).toNat 96)) s.core.kdo }) := by
  unfold execKld
  dsimp only
  rw [issue_ordered_calm ha hc hr, if_neg (not_not.mpr halign), readImage_own hc.buffer hi, hok, wfield_zero]
  exact congrArg _ (advance_upd_alone (f := fun k => { k with kdo := tset _ _ k.kdo }) ha.quiet rfl)

end Commands

theorem kqry_reads (ha : Claims.Alone s) (hr : s.core.ready { ss := [(a, 0)], ds := [d] } = true) :
    execKqry d a s =
      .next (Claims.ends s (s.core.writeS d
        (match tfind ((s.src a 0).toNat % 8) s.core.kdo with
         | some x => BitVec.ofNat 64 (x.hdr.toNat + 2 ^ 32)
         | none => 0#64))) := by
  unfold execKqry
  dsimp only
  rw [form1_ready hr ha.mesh, setS_advance_alone ha, wfield_zero]
  rfl

end Kernel

end Sys2Proof.Machine

namespace Sys2Proof.Proofs
open Sys2Proof Sys2Proof.Machine

/-- Settles O38: KOP merges the slot's output or transfers to the loader, and each slot command acts at once in a core that is
calm. -/
theorem kernelOperations : Obligations.KernelOperations := by
  unfold Obligations.KernelOperations
  intro s ha hc
  refine ⟨fun n d a b c k => ⟨?loaded, ?empty⟩, fun a b hr => ⟨kld_misaligned ha hc hr, fun halign hi => ?load⟩,
    fun a => krel_empties ha hc, fun d a => kqry_reads ha⟩
  case loaded =>
    intro x hx het hr w at_ res
    obtain ⟨v, fl, hend, hfl, hv⟩ := mergeF_advance_alone ha d k w res
    refine ⟨v, fl, (kop_loaded ha k hx het hr).trans (congrArg _ hend), hfl, fun i hi => ?_⟩
    obtain ⟨hlit, hdark⟩ := hv i hi
    exact ⟨fun hl => BitVec.eq_of_toNat_eq (by rw [hlit hl, BitVec.toNat_ofNat]), hdark⟩
  case empty =>
    intro hempty hr
    have hexec : exec (.kop n d a b c k) s = s.toLoader n.toNat := kop_empty ha k hempty hr
    rw [hexec]
    exact ⟨fun hact => toLoader_of_loading hact _, fun hact hen => toLoader_of_disabled hact hen _,
      fun hact hen => toLoader_transfers ha hc hact hen _⟩
  case load =>
    exact ⟨fun e v => kld_faults ha hc hr halign hi, kld_loads ha hc hr halign hi⟩

end Sys2Proof.Proofs
end

section
/-! SUPPORT. The engine window (O12): the loads and stores of its registers, and QGO, in a core that stands alone with no
watchpoint set. -/

namespace Sys2Proof.Machine
open Sys2Proof

section Window
variable {s : State}

/-! ## Loads (R226, R277) -/

theorem ea_eq_address (s : State) (a : Reg) (da : Dist) (o : BitVec 11) (n : Nat) :
    s.ea a da o n = Claims.address s a da o n := by
  rw [State.ea, Claims.address, BitVec.ofInt_add, BitVec.ofInt_toInt]

theorem watchWindow_none (hw : s.core.wp = []) (acc : Access) (o : Nat) : s.watchWindow acc o = s := watchPieces_none hw acc _

theorem windowLoad_eq_windowValue (k : Core) {n : Nat} (hn : n < 6) : k.windowLoad (8 * n) = Claims.windowValue k (8 * n) := by
  interval_cases n <;> simp [Core.windowLoad, Claims.windowValue, Core.qstat]

theorem ld_window (ha : Claims.Alone s) (hphase : s.core.inPhase = none) (hw : s.core.wp = []) {d a : Reg} {da : Dist}
    {o : BitVec 11} (hr : s.core.ready (Claims.reads [(a, da)] d) = true) {n : Nat} (hn : n < 6)
    (haddr : Claims.address s a da o 8 = windowVa + 8 * n) :
    execLd d a da o s = .next (Claims.ends s (s.core.writeS d (s.core.windowLoad (8 * n)))) := by
  have hwindow : 8 = 8 ∧ (windowVa + 8 * n) % 8 = 0 ∧ windowVa ≤ windowVa + 8 * n ∧ windowVa + 8 * n < windowVa + 0x30 ∧
      s.core.inPhase.isNone = true := by
    have halign : windowVa % 8 = 0 := by decide
    rw [hphase]
    refine ⟨rfl, ?_, ?_, ?_, rfl⟩ <;> omega
  have hissue := fun body => issue_ready hr ha.mesh body
  unfold execLd State.load
  dsimp only
  rw [ea_eq_address, haddr, if_pos hwindow, Nat.add_sub_cancel_left, watchWindow_none hw, setS_advance_alone ha]
  exact hissue _

/-! ## Stores (R231) -/

theorem quiet_windowSet {k : Core} (h : k.quiet) (n : Nat) (x : Word) :
    (k.windowSet n x).quiet ∧ (k.windowSet n x).pc = k.pc := by
  unfold Core.windowSet
  repeat' split
  all_goals exact ⟨h, rfl⟩

theorem windowStore_sets (ha : Claims.Alone s) (hc : Claims.Calm s) (hw : s.core.wp = []) {n : Nat} (hn : n < 4) (x : Word) :
    s.windowStore (8 * n) x = .next (Claims.ends s (s.core.windowSet n x)) := by
  obtain ⟨hquiet, hpc⟩ := quiet_windowSet ha.quiet n x
  unfold State.windowStore
  rw [if_neg (by omega), ordered_calm hc.loop hc.buffer hc.out, if_neg (by omega), watchWindow_none hw,
    Nat.mul_div_cancel_left n (by decide), advance_upd_alone (f := fun k => k.windowSet n x) hquiet hpc]

/-! ## QGO (R230, R231, R286) -/

theorem qgo_malformed (hbad : s.core.badJob = true) : s.qgo = s.trap 0x1C4#10 0x0F00000000080020#64 := if_pos hbad

theorem qgo_submits (ha : Claims.Alone s) (hw : s.core.wp = []) (hok : s.core.badJob = false) (hroom : s.core.jobs.length < 2) :
    s.qgo = .next (Claims.ends s (s.core.submit s.keysNow)) := by
  obtain ⟨hgang, hhit, hstep, hroutine⟩ := ha.quiet
  unfold State.qgo
  rw [hok, if_neg Bool.false_ne_true, hroutine]
  dsimp only
  rw [if_neg (by omega), watchWindow_none hw]
  exact congrArg _ (advance_upd_alone (f := fun k => k.submit s.keysNow) ⟨hgang, hhit, hstep, hroutine⟩ rfl)

/-- Each QGO event is the QGO store of the job that the window describes. -/
theorem exec_qgoKind {i : Instr} {kind : Nat} (hi : Claims.qgoKind i = some kind) (hkind : s.core.jobKind = kind) :
    exec i s = s.ordered State.qgo := by
  unfold Claims.qgoKind at hi
  split at hi
  case h_8 => cases hi
  all_goals
    cases hi
    exact if_pos hkind

end Window

end Sys2Proof.Machine

namespace Sys2Proof.Proofs
open Sys2Proof Sys2Proof.Machine

/-- Settles O12: the loads and stores of the window act at once, and QGO submits the job that the window describes or traps. -/
theorem engineWindow : Obligations.EngineWindow := by
  unfold Obligations.EngineWindow
  intro s ha hphase hw
  refine ⟨fun d a da o n hr hn haddr => ?load, fun hloop hbuf hout => ?stores⟩
  case load =>
    rw [← windowLoad_eq_windowValue s.core hn]
    exact ld_window ha hphase hw hr hn haddr
  case stores =>
    have hc : Claims.Calm s := ⟨hloop, hbuf, hout⟩
    refine ⟨fun v => ⟨?_, ?_, ?_, ?_⟩, fun i kind hi hkind => ?qgo⟩
    · exact windowStore_sets ha hc hw (n := 0) (by decide) v
    · exact windowStore_sets ha hc hw (n := 1) (by decide) v
    · exact windowStore_sets ha hc hw (n := 2) (by decide) v
    · exact windowStore_sets ha hc hw (n := 3) (by decide) v
    case qgo =>
      rw [exec_qgoKind hi hkind, ordered_calm hloop hbuf hout]
      refine ⟨qgo_malformed, fun hok hroom => ?_⟩
      exact ⟨_, qgo_submits ha hw hok hroom, rfl, rfl, rfl, rfl, rfl⟩

end Sys2Proof.Proofs
end

section
/-! SUPPORT. Copy jobs (O32): the run of a FILL that begins beyond the address space, and a write log that has no room for the
outcome of a job, whether or not the job names a future. -/

namespace Sys2Proof.Machine
open Sys2Proof

section Fill
variable {s : State} {c : CoreId} {j : Job}

/-! ## A FILL of one granule (R228) -/

theorem granulesOf_eight {va : Nat} (h : va % 8 = 0) : granulesOf va 8 = [(0, 8)] := by
  simp [granulesOf, h, List.range_succ]

/-- The one write of a FILL of eight bytes at a granule. -/
def Job.fillPart (j : Job) : JobPart := { va := j.qw2.toNat, len := 8, off := 0, first := true }

theorem writes_fill (hk : j.kind = 4) (halign : j.qw2.toNat % 8 = 0) (hlen : j.qw3.toNat = 8) : j.writes = [j.fillPart] := by
  simp [Job.writes, hk, hlen, granuleParts, granulesOf_eight halign, Job.fillPart]

/-- A job that reads no data has none to fetch. -/
theorem fetchData_none (h : ∀ o, j.readPart o = none) (share : Bool) (l : List Nat) :
    State.fetchData c share l s j = .ok s j := by
  induction l with
  | nil => rfl
  | cons o l ih =>
    rw [State.fetchData, h o]
    exact ih

theorem readPart_fill (hk : j.kind = 4) (o : Nat) : j.readPart o = none := by
  simp [Job.readPart, hk]

theorem beforeWrites_fill (hk : j.kind = 4) (hadd : j.add56 = false) : s.beforeWrites c j = .ok s j := by
  simp [State.beforeWrites, State.pullBadPlace, hk, hadd]

/-- The run of such a job that has not begun is its one write. -/
theorem runJob_fill (hk : j.kind = 4) (halign : j.qw2.toNat % 8 = 0) (hlen : j.qw3.toNat = 8) (hu : Claims.Unbegun s c j) :
    s.runJob c j =
      ((s.partWrite c j 0 j.fillPart).andThen fun t k => .ok t (k.advanceTo 0 j.fillPart)).outcome c j true := by
  have hrecord : j.recordLeft = none := by simp [Job.recordLeft, hk]
  have hfresh : ¬(0 < j.pos ∨ j.wrote.contains 0 = true) := by simp [hu.pos, hu.wrote]
  unfold State.runJob State.runPlain
  rw [if_neg (by omega), if_neg (by omega), hu.reading, if_neg Bool.false_ne_true, hrecord, Option.isSome_none,
    if_neg Bool.false_ne_true, beforeWrites_fill hk hu.add, PartRes.andThen, writes_fill hk halign hlen]
  simp only [List.length_singleton, List.range_one, List.zip_cons_cons, List.zip_nil_left, State.jobWrites, if_neg hfresh,
    State.jobWrite, fetchData_none (readPart_fill hk), PartRes.andThen]

/-- Beyond the address space it makes no write and fails (R230). -/
theorem runJob_fill_beyond (hk : j.kind = 4) (hva : 2 ^ 60 ≤ j.qw2.toNat) (halign : j.qw2.toNat % 8 = 0)
    (hlen : j.qw3.toNat = 8) (hu : Claims.Unbegun s c j) : s.runJob c j = .fail 0x200#10 s := by
  have hfault : s.partWrite c j 0 j.fillPart = .fail 0x200#10 s := by
    have htranslate : s.engineTranslate c j.ctx j.keys j.system .store j.fillPart.va = (.fault 0x200#10, s) := if_pos hva
    rw [State.partWrite, htranslate]
    rfl
  rw [runJob_fill hk halign hlen hu, hfault]
  rfl

end Fill

/-! ## Outcomes that cannot be written (R437) -/

/-- A job that has run into its fault stays where it is while its outcome cannot be written. -/
theorem copyJobFail_unsettled {s t : State} {c : CoreId} {j : Job} {e : Cause} (hj : (s.getCore c).jobs = [j])
    (hrun : s.jobMayRun c 0 = true) (hfault : s.runJob c j = .fail e t) (hfull : t.maySettle c j = false) :
    execCopyJobFail c 0 s = .refused (.notEnabled "COPY_JOB_FAIL") := by
  unfold execCopyJobFail State.jobEvent
  rw [hj]
  dsimp only [List.getElem?_cons_zero]
  rw [hrun, if_pos rfl, hfault, JobRes.out, hfull]
  rfl

/-- A FILL of eight bytes beyond the address space, which names no future. -/
def strayFill : Job :=
  { num := 1, qw0 := 0x400000000#64, qw1 := 0#64, qw2 := 0x1000000000000000#64, qw3 := 8#64, system := false }

/-- Context 0, with a checkpoint interval open and its future table in stack 0. -/
def loggedContext : Context :=
  { desc :=
      { ctx := 0, agency := 0, root := 0#64, part := 0#160, acn := 0, keys := 0#256, actab := 0, acthr := 0, nqlog := 0
        nqbase := 0, futbase := 0, futn := 0, tvec := 0#64 }
    interval := 1 }

/-- Core 0 of that context holds such a job, and the log region of stack 0 is full of entries for another line. -/
def fullLog : State :=
  { core := { context := some 0, jobs := [strayFill] }
    contexts := [(0, loggedContext)]
    logs := List.replicate (Config.logCapacity 0) { line := 1, ctx := 0, interval := 1, data := 0#1024 } }

/-- The first write to line 0 finds no room there. -/
theorem canLog_fullLog : fullLog.canLog 0 0 = false := by
  have hfill : fullLog.logFill 0 = Config.logCapacity 0 := by
    simp [State.logFill, fullLog, List.countP_replicate]
  have hcontext : tfind 0 fullLog.contexts = some loggedContext := rfl
  have hlogged : (fullLog.logs.any fun e => e.line = 0 / 128 && e.ctx = 0 && e.interval = loggedContext.interval) = false := by
    simp [fullLog]
  unfold State.canLog
  rw [hcontext]
  dsimp only
  rw [hlogged, if_neg (by decide), Nat.zero_div, hfill]
  simp

theorem maySettle_fullLog : fullLog.maySettle 0 strayFill = false := by
  have hroom : fullLog.futRoom strayFill.ctx strayFill.done = false := canLog_fullLog
  rw [State.maySettle, hroom, Bool.and_false]

end Sys2Proof.Machine

namespace Sys2Proof.Proofs
open Sys2Proof Sys2Proof.Machine

/-- Refutes O32: the outcome of a job waits for room in the write log for the future 0, which stands for none. In `fullLog` a
FILL beyond the address space may run and names no future, but COPY_JOB_FAIL is not enabled. -/
theorem not_copyJobs : ¬ Obligations.CopyJobs := by
  unfold Obligations.CopyJobs
  intro h
  have hrun : fullLog.jobMayRun 0 0 = true := rfl
  have hunbegun : Claims.Unbegun fullLog 0 strayFill := ⟨rfl, rfl, rfl, rfl, rfl, rfl⟩
  have hva : 2 ^ 60 ≤ strayFill.qw2.toNat := by decide
  have hfault := runJob_fill_beyond rfl hva rfl rfl hunbegun
  obtain ⟨t, hnext, -⟩ := (h fullLog 0 strayFill rfl hrun rfl hunbegun).2.1 rfl hva rfl rfl rfl
  have hrefused := copyJobFail_unsettled rfl hrun hfault maySettle_fullLog
  exact nomatch hrefused.symm.trans hnext

end Sys2Proof.Proofs
end

section
/-! SUPPORT. Requests at their point (O44): what the performance of a request changes of what is under way and of memory, the
answer of a load, and the outcomes of a posted store. -/

namespace Sys2Proof.Machine
open Sys2Proof

/-! ## Parts of a number in memory -/

theorem memRead_add (m : List Host.Cell) (a n k : Nat) :
    memRead m a (n + k) = memRead m a n + 256 ^ n * memRead m (a + n) k := by
  induction n generalizing a with
  | zero => simp [memRead]
  | succ n ih =>
    rw [Nat.succ_add, memRead, memRead, ih, Nat.pow_succ', Nat.add_assoc a 1 n, Nat.add_comm 1 n]
    ring

theorem memRead_lt (m : List Host.Cell) (a n : Nat) : memRead m a n < 256 ^ n := by
  induction n generalizing a with
  | zero => simp [memRead]
  | succ n ih =>
    have hbyte := (memByte m a).isLt
    have hrest := ih (a + 1)
    rw [memRead, Nat.pow_succ']
    omega

/-- Bytes k to k + n - 1 of a number in memory. -/
theorem memRead_div_mod (m : List Host.Cell) (a : Nat) {k n l : Nat} (h : k + n ≤ l) :
    memRead m a l / 256 ^ k % 256 ^ n = memRead m (a + k) n := by
  obtain ⟨r, rfl⟩ := Nat.le.dest h
  rw [Nat.add_assoc k n r, memRead_add m a k, Nat.add_mul_div_left _ _ (by positivity), Nat.div_eq_of_lt (memRead_lt m a k),
    Nat.zero_add, memRead_add m (a + k) n, Nat.add_mul_mod_self_left, Nat.mod_eq_of_lt (memRead_lt m (a + k) n)]

/-- A bit vector of n bytes holds every number of n bytes. -/
theorem toNat_ofNat_bytes {w n x : Nat} (hw : w = 8 * n) (hx : x < 256 ^ n) : (BitVec.ofNat w x).toNat = x := by
  subst hw
  rw [BitVec.toNat_ofNat, Nat.pow_mul]
  exact Nat.mod_eq_of_lt hx

/-- A part of a line as the slice has it. -/
theorem lineRead_lineBits (s : State) {addr n : Nat} (h : addr % 128 + n ≤ 128) :
    lineRead (s.lineBits (addr / 128)) (addr % 128) n = memRead s.mem addr n := by
  have hpart := memRead_div_mod s.mem (128 * (addr / 128)) h
  rw [Nat.div_add_mod] at hpart
  rw [lineRead, State.lineBits, toNat_ofNat_bytes rfl (memRead_lt _ _ 128), Nat.pow_mul, Nat.pow_mul]
  exact hpart

/-! ## What is under way -/

/-- What is under way between the cores and memory, with memory itself. -/
def State.net (s : State) : List Req × List Answer × List Req × List Host.Cell := (s.flight, s.answers, s.hostq, s.mem)

theorem net_fields {s : State} {l : List Req} {as : List Answer} {q : List Req} {m : List Host.Cell}
    (h : s.net = (l, as, q, m)) : s.flight = l ∧ s.answers = as ∧ s.hostq = q ∧ s.mem = m := by
  simpa only [State.net, Prod.mk.injEq] using h

/-- The same, but for the marks of shared reads. -/
def State.wire (s : State) : List Req × List Answer × List Req × List Host.Cell :=
  (s.flight, Claims.bare s.answers, s.hostq, s.mem)

theorem wire_of_net {s t : State} (h : t.net = s.net) : t.wire = s.wire :=
  congrArg (fun x : List Req × List Answer × List Req × List Host.Cell => (x.1, Claims.bare x.2.1, x.2.2)) h

section Net
variable (s : State)

theorem mapCore_net (c : CoreId) (f : Core → Core) : (s.mapCore c f).net = s.net := by
  unfold State.mapCore State.setCore
  split <;> rfl

theorem tell_net (r : Req) (h : Held) : (s.tell r h).net = s.net := by
  unfold State.tell
  split
  · exact mapCore_net s _ _
  · rfl

theorem amoLines_net (i : Nat) (r : Req) (v : Nat) : (s.amoLines i r v).net = s.net := by
  unfold State.amoLines
  dsimp only
  split
  · exact mapCore_net s _ _
  · rfl

theorem countCtx_net (ctx idx n : Nat) : (s.countCtx ctx idx n).net = s.net := by
  rw [countCtx_frame]
  rfl

theorem countHbm_net (ctx : Nat) : (s.countHbm ctx).net = s.net := by
  rw [countHbm_frame]
  rfl

theorem logWrite_net (n key : Nat) : (s.logWrite n key).net = s.net := by
  unfold State.logWrite
  split
  · rfl
  · split
    · rfl
    · split <;> rfl

theorem writeAt_net (n key size v : Nat) :
    (s.writeAt n key size v).net = (s.flight, s.answers, s.hostq, memWrite s.mem key v size) :=
  congrArg (fun x : List Req × List Answer × List Req × List Host.Cell => (x.1, x.2.1, x.2.2.1, memWrite x.2.2.2 key v size))
    (logWrite_net s n key)

/-- A write of a core marks the reads that its own later ones may not share. -/
theorem dropNear_wire (c : CoreId) (lo hi : Nat) : (s.dropNear c lo hi).wire = s.wire := by
  have hbare : Claims.bare (s.dropNear c lo hi).answers = Claims.bare s.answers := by
    simp [State.dropNear, Claims.bare, State.mapCluster, State.setCluster]
  exact congrArg (fun l => (s.flight, l, s.hostq, s.mem)) hbare

/-- What tells an instruction its outcome changes that note of the core alone. -/
theorem getCore_tell_proj {α : Type} (p : Core → α) (hp : ∀ (k : Core) h, p { k with held := h } = p k) (r : Req) (h : Held)
    (d : CoreId) : p ((s.tell r h).getCore d) = p (s.getCore d) := by
  unfold State.tell
  split
  · refine getCore_mapCore_proj p (fun k => ?_) s r.src d
    split
    · exact hp k _
    · rfl
  · rfl

end Net

/-- Outside the scratchpads an address is its own key. -/
theorem key_global {r : Req} (h : r.place = .hbm ∨ r.place = .host ∨ r.place = .peer) : r.key = r.addr := by
  rw [Req.key]
  rcases h with h | h | h <;> rw [h] <;> rfl

/-! ## The effect of a request -/

section Effect
variable (s : State) (i : Nat) {r : Req}

theorem performWrite_load (hk : r.kind = .load) : s.performWrite r = s := by
  rw [State.performWrite, hk]

theorem performWrite_store_net (hk : r.kind = .store) :
    (s.performWrite r).net = (s.flight, s.answers, s.hostq, memWrite s.mem r.key r.data.toNat r.size) := by
  rw [State.performWrite, hk]
  exact writeAt_net (s.heal r.whole r.key) _ _ _ _

theorem performWrite_amo_net {fn : Nat} (hk : r.kind = .amo fn) :
    (s.performWrite r).net =
      (s.flight, s.answers, s.hostq,
        memWrite s.mem r.key (amoNew fn r.size (memRead s.mem r.key r.size) r.data.toNat r.cmp.toNat) r.size) := by
  rw [State.performWrite, hk]
  exact writeAt_net s _ _ _ _

/-- The value that a request finds: of a line that serves it, or of memory. -/
def State.valueAt (s : State) (r : Req) (line : Option (BitVec 1024)) : Nat :=
  match (if r.reads then line else none) with
  | some x => lineRead x (r.addr % 128) r.size
  | none => memRead s.mem r.key r.size

/-- The state in which request i has had its effect and its instruction knows, before it leaves the network. -/
def State.effected (s : State) (i : Nat) (r : Req) (v : Nat) : State :=
  let t := s.performWrite r
  let u := if r.place = .hbm ∧ !r.reads then t.dropNear r.src (r.addr / 128) (r.addr / 128) else t
  (u.amoLines i r (memRead u.mem r.key r.size)).tell r (.done (BitVec.ofNat 64 v))

/-- What goes back for a request. -/
def Req.reply (r : Req) (v : Nat) (line : Option (BitVec 1024)) (shared : Bool) : List Answer :=
  match r.kind with
  | .store | .nibble _ => []
  | _ => r.answer v line shared

theorem perform_eq (r : Req) (line : Option (BitVec 1024)) (shared : Bool) :
    s.perform i r line shared =
      { (s.effected i r (s.valueAt r line)).dropReq i with
        answers := (s.effected i r (s.valueAt r line)).answers ++ r.reply (s.valueAt r line) line shared } := rfl

theorem effected_wire (r : Req) (v : Nat) : (s.effected i r v).wire = (s.performWrite r).wire := by
  unfold State.effected
  dsimp only
  rw [wire_of_net (tell_net _ _ _), wire_of_net (amoLines_net _ _ _ _)]
  split
  · exact dropNear_wire _ _ _ _
  · rfl

/-- A request that is performed leaves the network, and nothing else of what is under way changes but for its own write and
answer. -/
theorem perform_wire {l q : List Req} {as : List Answer} {m : List Host.Cell}
    (hwrite : (s.performWrite r).net = (l, as, q, m)) (line : Option (BitVec 1024)) (shared : Bool) :
    (s.perform i r line shared).wire =
      (l.eraseIdx i, Claims.bare as ++ Claims.bare (r.reply (s.valueAt r line) line shared), q, m) := by
  obtain ⟨hflight, hanswers, hhostq, hmem⟩ := net_fields hwrite
  have h := effected_wire s i r (s.valueAt r line)
  simp only [State.wire, Prod.mk.injEq, hflight, hanswers, hhostq, hmem] at h
  obtain ⟨hflight, hanswers, hhostq, hmem⟩ := h
  rw [perform_eq, State.wire, State.dropReq, ← hflight, ← hanswers, ← hhostq, ← hmem]
  exact congrArg (fun l => (_, l, _)) (List.map_append ..)

/-- A load changes nothing but for the note of its instruction. -/
theorem effected_load_net (hk : r.kind = .load) (v : Nat) : (s.effected i r v).net = s.net := by
  have hreads : ¬(r.place = .hbm ∧ (!r.reads) = true) := by simp [Req.reads, hk]
  unfold State.effected
  dsimp only
  rw [tell_net, amoLines_net, if_neg hreads, performWrite_load s hk]

end Effect

/-- A posted store that has timed out: no journal entry stands for it, and no instruction waits. -/
def Req.disowned (r : Req) : Req := { r with journal := none, holds := false }

/-- The journal without entry e. -/
def Core.freed (e : Nat) (k : Core) : Core := { k with journal := terase e k.journal, journalAt := terase e k.journalAt }

/-! ## Entries that keep their record (R255, R426) -/

section Record
variable (s : State) (c e : Nat) {st : Nat} (r : Req)

theorem recordEntry_net (st : Nat) : (s.recordEntry c e st r).net = s.net := by
  rw [State.recordEntry, tell_net, mapCore_net]

theorem recordEntry_entry (hst : st < 4) :
    Claims.entryState ((s.recordEntry c e st r).getCore c) e = st ∧
      Claims.entryRest ((s.recordEntry c e st r).getCore c) e = Claims.entryRest (s.getCore c) e := by
  have hjournal : ((s.recordEntry c e st r).getCore c).journal = ((s.getCore c).markEntry e st).journal := by
    rw [State.recordEntry, getCore_tell_proj _ Core.journal (fun _ _ => rfl), getCore_mapCore_same]
  have hfit : (tget e (s.getCore c).journal 0#32).toNat % 2 ^ 30 + st * 2 ^ 30 < 2 ^ 32 := by omega
  unfold Claims.entryState Claims.entryRest
  rw [hjournal, Core.markEntry, tget_tset_same, BitVec.toNat_ofNat, Nat.mod_eq_of_lt hfit]
  constructor <;> omega

theorem inTime_of_claim {s : State} {c e : Nat} (h : Claims.inTime s c e) : (s.getCore c).inTime e s.time = true := by
  obtain ⟨since, hsince, hle⟩ := h
  rw [Core.inTime, hsince]
  exact decide_eq_true hle

end Record

/-! ## The acknowledgement of a posted store (R259, R335) -/

section Acknowledgement
variable {s : State} {c e : Nat} {l l' : List Answer} {a : Answer}

/-- The first acknowledgement of an entry may arrive unless the same source sent the core an answer that is still on its way
before it. -/
theorem ackReady_first (hs : s.answers = l ++ a :: l') (hl : ∀ b ∈ l, b.dst ≠ c ∨ b.ack ≠ some e) (hdst : a.dst = c)
    (hack : a.ack = some e) : s.ackReady c e = !l.any fun b => decide (b.dst = a.dst) && decide (b.source = a.source) := by
  have hnone : (l.findIdx? fun a => decide (a.dst = c) && decide (a.ack = some e)) = none := by
    rw [List.findIdx?_eq_none_iff]
    intro b hb
    rcases hl b hb with h | h <;> simp [h]
  have hack : s.ackOf c e = some (l.length, a) := by
    simp [State.ackOf, hs, List.findIdx?_append, hnone, List.findIdx?_cons, hdst, hack]
  rw [State.ackReady, hack]
  simp [State.answerBehind, hs]

end Acknowledgement

/-! ## The only request of the network -/

/-- The outcome takes the only request out of the network and sends back v for it. -/
def State.Returns (s : State) (r : Req) (v : Nat) (o : Out) : Prop :=
  ∃ t a, o = .next t ∧ t.flight = [] ∧ t.mem = s.mem ∧ t.answers = s.answers ++ [a] ∧ Claims.answers r v a

section Lone
variable {s u : State} {r : Req}

/-- A load that is performed in a state which differs from s by counters alone sends back what it finds. -/
theorem returns_perform (hu : u.net = s.net) (hf : s.flight = [r]) (hk : r.kind = .load) (hp : r.pend ≠ none)
    (line : Option (BitVec 1024)) (shared : Bool) : s.Returns r (u.valueAt r line) (.next (u.perform 0 r line shared)) := by
  obtain ⟨n, hn⟩ := Option.ne_none_iff_exists'.mp hp
  obtain ⟨a, hreply, ha⟩ : ∃ a, r.reply (u.valueAt r line) line shared = [a] ∧ Claims.answers r (u.valueAt r line) a := by
    rw [Req.reply, hk]
    dsimp only
    rw [Req.answer, hn]
    exact ⟨_, rfl, rfl, hn.symm, rfl, rfl⟩
  have hnet := (effected_load_net u 0 hk (u.valueAt r line)).trans hu
  obtain ⟨hflight, hanswers, -, hmem⟩ := net_fields hnet
  refine ⟨_, a, congrArg _ (perform_eq u 0 r line shared), ?_, hmem, ?_, ha⟩
  · show (u.effected 0 r (u.valueAt r line)).flight.eraseIdx 0 = []
    rw [hflight, hf]
    rfl
  · show (u.effected 0 r (u.valueAt r line)).answers ++ _ = _
    rw [hanswers, hreply]

/-- A store that is performed writes its bytes and sends nothing back. -/
theorem perform_store (hu : u.net = s.net) (hf : s.flight = [r]) (hk : r.kind = .store) (line : Option (BitVec 1024))
    (shared : Bool) :
    (u.perform 0 r line shared).flight = [] ∧ Claims.bare (u.perform 0 r line shared).answers = Claims.bare s.answers ∧
      (u.perform 0 r line shared).mem = memWrite s.mem r.key r.data.toNat r.size := by
  obtain ⟨hflight, hanswers, hhostq, hmem⟩ := net_fields hu
  have hreply : Claims.bare s.answers ++ Claims.bare (r.reply (u.valueAt r line) line shared) = Claims.bare s.answers := by
    rw [Req.reply, hk]
    exact List.append_nil _
  have hwrite := performWrite_store_net u hk
  rw [hflight, hanswers, hhostq, hmem, hf] at hwrite
  have hwire := perform_wire u 0 hwrite line shared
  rw [hreply] at hwire
  simp only [State.wire, Prod.mk.injEq] at hwire
  obtain ⟨hnone, hbare, -, hwritten⟩ := hwire
  exact ⟨hnone, hbare, hwritten⟩

/-- An atomic that is performed writes its new value. -/
theorem perform_amo (hu : u.net = s.net) (hf : s.flight = [r]) {fn : Nat} (hk : r.kind = .amo fn)
    (line : Option (BitVec 1024)) (shared : Bool) :
    (u.perform 0 r line shared).flight = [] ∧
      (u.perform 0 r line shared).mem =
        memWrite s.mem r.key (amoNew fn r.size (memRead s.mem r.key r.size) r.data.toNat r.cmp.toNat) r.size := by
  obtain ⟨hflight, hanswers, hhostq, hmem⟩ := net_fields hu
  have hwrite := performWrite_amo_net u hk
  rw [hflight, hanswers, hhostq, hmem, hf] at hwrite
  have hwire := perform_wire u 0 hwrite line shared
  simp only [State.wire, Prod.mk.injEq] at hwire
  obtain ⟨hnone, -, -, hwritten⟩ := hwire
  exact ⟨hnone, hwritten⟩

variable (h : Claims.Lone s r)
include h

theorem mayServe_lone : s.mayServe 0 r = true := by
  simp [State.mayServe, h.runs]

theorem poisonedReq_lone : s.poisonedReq r = false := by
  unfold State.poisonedReq
  split <;> simp [State.poisonIn, State.poisonPart, State.heal, h.poison]

/-! ## Requests at their slice (R220, R225, R262) -/

theorem sliceRequest_hbm (hp : r.place = .hbm) : execSliceRequest 0 false s = s.serveHbm 0 r := by
  unfold execSliceRequest
  rw [h.flight]
  dsimp only [List.getElem?_cons_zero]
  rw [mayServe_lone h, hp]
  rfl

theorem sliceRequest_host (hp : r.place = .host) : execSliceRequest 0 false s = s.serveHost 0 r := by
  unfold execSliceRequest
  rw [h.flight]
  dsimp only [List.getElem?_cons_zero]
  rw [mayServe_lone h, hp]
  rfl

/-- At its home slice a request is performed with the line there. -/
theorem serveHbm_home (hnear : r.near = false) (hlog : r.reads = true ∨ s.canLog r.ctx r.key = true) :
    s.serveHbm 0 r =
      .next ((s.countHbm r.ctx).perform 0 r (some (s.lineBits (r.addr / 128))) (decide (r.kind = .ldro))) := by
  have hreplica : s.replica r = none := by rw [State.replica, hnear, if_neg Bool.false_ne_true]
  have hwhole : s.wholeLine (r.addr / 128) = some (s.lineBits (r.addr / 128)) := by
    rw [State.wholeLine, poisonIn_clean h.poison, if_neg Bool.false_ne_true]
  have hroom : ¬((!r.reads && !s.canLog r.ctx r.key) = true) := by
    rcases hlog with hr | hl
    · simp [hr]
    · simp [hl]
  unfold State.serveHbm
  dsimp only
  rw [hreplica]
  dsimp only
  rw [poisonedReq_lone h, if_neg Bool.false_ne_true, if_neg hroom, hwhole, hnear]
  rfl

theorem slice_load (hp : r.place = .hbm) (hnear : r.near = false) (hk : r.kind = .load) (hpend : r.pend ≠ none)
    (hline : r.addr % 128 + r.size ≤ 128) :
    s.Returns r (memRead s.mem r.addr r.size) (execSliceRequest 0 false s) := by
  have hreads : r.reads = true := by rw [Req.reads, hk]; rfl
  have hvalue : (s.countHbm r.ctx).valueAt r (some (s.lineBits (r.addr / 128))) = memRead s.mem r.addr r.size := by
    rw [State.valueAt, hreads, if_pos rfl]
    exact lineRead_lineBits s hline
  rw [sliceRequest_hbm h hp, serveHbm_home h hnear (.inl hreads), ← hvalue]
  exact returns_perform (countHbm_net s r.ctx) h.flight hk hpend _ _

theorem slice_store (hp : r.place = .hbm) (hnear : r.near = false) (hk : r.kind = .store)
    (hlog : s.canLog r.ctx r.addr = true) :
    ∃ t, execSliceRequest 0 false s = .next t ∧ t.flight = [] ∧ Claims.bare t.answers = Claims.bare s.answers ∧
      t.mem = memWrite s.mem r.addr r.data.toNat r.size := by
  have hkey : r.key = r.addr := key_global (.inl hp)
  have hperform := perform_store (countHbm_net s r.ctx) h.flight hk (some (s.lineBits (r.addr / 128)))
    (decide (r.kind = .ldro))
  rw [hkey] at hperform
  rw [sliceRequest_hbm h hp, serveHbm_home h hnear (.inr (hkey ▸ hlog))]
  exact ⟨_, rfl, hperform⟩

theorem slice_host_store (hp : r.place = .host) (hsent : r.sent = false) (hk : r.kind = .store) :
    ∃ t, execSliceRequest 0 false s = .next t ∧ t.flight = [] ∧ t.mem = s.mem ∧ t.hostq = s.hostq ++ [r] := by
  have hstore : r.isStore = true := by rw [Req.isStore, hk]
  have hnet := countCtx_net s r.ctx 4 128
  obtain ⟨hflight, -, -, hmem⟩ := net_fields hnet
  rw [sliceRequest_host h hp, State.serveHost, hsent, if_neg Bool.false_ne_true, if_pos hstore]
  refine ⟨_, rfl, ?_, hmem, rfl⟩
  show (s.countCtx r.ctx 4 128).flight.eraseIdx 0 = []
  rw [hflight, h.flight]
  rfl

theorem slice_host_load (hp : r.place = .host) (hsent : r.sent = false) (hk : r.kind = .load) :
    execSliceRequest 0 false s = .next { s with flight := [{ r with sent := true }] } := by
  have hstore : ¬r.isStore = true := by simp [Req.isStore, hk]
  rw [sliceRequest_host h hp, State.serveHost, hsent, if_neg Bool.false_ne_true, if_neg hstore, h.flight]
  rfl

/-! ## Completions of the host and of peers (R260, R284) -/

section Host
variable (hp : r.place = .host) (hsent : r.sent = true) (hq : s.hostq = [])
include hp hsent hq

/-- No store of the transmit order holds a completion back. -/
theorem hostCompletion_enabled (rejected : Bool) :
    execHostCompletion 0 rejected s =
      if r.reads then
        if rejected then .refused (.notEnabled "HOST_COMPLETION")
        else
          .next
            ((if r.counted then (s.countCtx r.ctx 4 128).countAccess r.ctx r.addr else s.countCtx r.ctx 4 128).perform 0 r none
              false)
      else if rejected then
        .next (((s.countCtx r.ctx 4 (2 * r.size)).dropReq 0).tell r (.failed 0x242#10 r.va))
      else .next ((s.countCtx r.ctx 4 (2 * r.size)).perform 0 r none false) := by
  have hahead : s.hostAhead r = false := by simp [State.hostAhead, hq]
  unfold execHostCompletion
  rw [h.flight]
  dsimp only [List.getElem?_cons_zero]
  rw [hp, hsent, mayServe_lone h, hahead]
  rfl

theorem host_load (hk : r.kind = .load) (hpend : r.pend ≠ none) (hcount : r.counted = false) :
    s.Returns r (memRead s.mem r.addr r.size) (execHostCompletion 0 false s) := by
  have hreads : r.reads = true := by rw [Req.reads, hk]; rfl
  have hvalue : (s.countCtx r.ctx 4 128).valueAt r none = memRead s.mem r.addr r.size := by
    have hmem : (s.countCtx r.ctx 4 128).mem = s.mem := countCtx_mem s r.ctx 4 128
    rw [State.valueAt, ite_self, key_global (.inr (.inl hp)), hmem]
  rw [hostCompletion_enabled h hp hsent hq, if_pos hreads, if_neg Bool.false_ne_true, hcount, if_neg Bool.false_ne_true,
    ← hvalue]
  exact returns_perform (countCtx_net s r.ctx 4 128) h.flight hk hpend _ _

theorem host_atomic {fn : Nat} (hk : r.kind = .amo fn) :
    ∃ t, execHostCompletion 0 false s = .next t ∧ t.flight = [] ∧
      t.mem = memWrite s.mem r.addr (amoNew fn r.size (memRead s.mem r.addr r.size) r.data.toNat r.cmp.toNat) r.size := by
  have hreads : ¬r.reads = true := by simp [Req.reads, hk]
  have hperform := perform_amo (countCtx_net s r.ctx 4 (2 * r.size)) h.flight hk none false
  rw [key_global (.inr (.inl hp))] at hperform
  rw [hostCompletion_enabled h hp hsent hq, if_neg hreads, if_neg Bool.false_ne_true]
  exact ⟨_, rfl, hperform⟩

/-- A rejection is the outcome of the instruction that waits (R284). -/
theorem host_rejected {fn : Nat} (hk : r.kind = .amo fn) (hholds : r.holds = true)
    (hwait : (s.getCore r.src).held = some .waiting) :
    ∃ t, execHostCompletion 0 true s = .next t ∧ t.flight = [] ∧ t.mem = s.mem ∧
      (t.getCore r.src).held = some (.failed 0x242#10 r.va) := by
  have hreads : ¬r.reads = true := by simp [Req.reads, hk]
  obtain ⟨hcflight, -, -, hcmem⟩ := net_fields (countCtx_net s r.ctx 4 (2 * r.size))
  obtain ⟨hflight, -, -, hmem⟩ :=
    net_fields (tell_net ((s.countCtx r.ctx 4 (2 * r.size)).dropReq 0) r (.failed 0x242#10 r.va))
  have hcore : ((s.countCtx r.ctx 4 (2 * r.size)).dropReq 0).getCore r.src = s.getCore r.src :=
    getCore_countCtx s r.ctx 4 (2 * r.size) r.src
  rw [hostCompletion_enabled h hp hsent hq, if_neg hreads, if_pos rfl]
  refine ⟨_, rfl, ?_, hmem.trans hcmem, ?_⟩
  · rw [hflight, State.dropReq, hcflight, h.flight]
    rfl
  · rw [State.tell, if_pos hholds, getCore_mapCore_same, hcore, if_pos hwait]

end Host

section Peer
variable (hp : r.place = .peer)
include hp

theorem peerResponse_enabled :
    ∃ n, execPeerResponse 0 s = .next ((s.countCtx r.ctx 5 n).perform 0 r none false) := by
  have hserve : ¬(r.place ≠ .peer ∨ (!s.mayServe 0 r) = true) := by simp [hp, mayServe_lone h]
  unfold execPeerResponse
  rw [h.flight]
  dsimp only [List.getElem?_cons_zero]
  rw [if_neg hserve]
  exact ⟨_, rfl⟩

theorem peer_store (hk : r.kind = .store) :
    ∃ t, execPeerResponse 0 s = .next t ∧ t.flight = [] ∧ t.mem = memWrite s.mem r.addr r.data.toNat r.size := by
  obtain ⟨n, hnext⟩ := peerResponse_enabled h hp
  obtain ⟨hflight, -, hmem⟩ := perform_store (countCtx_net s r.ctx 5 n) h.flight hk none false
  rw [key_global (.inr (.inr hp))] at hmem
  exact ⟨_, hnext, hflight, hmem⟩

theorem peer_load (hk : r.kind = .load) (hpend : r.pend ≠ none) :
    s.Returns r (memRead s.mem r.addr r.size) (execPeerResponse 0 s) := by
  obtain ⟨n, hnext⟩ := peerResponse_enabled h hp
  have hvalue : (s.countCtx r.ctx 5 n).valueAt r none = memRead s.mem r.addr r.size := by
    rw [State.valueAt, ite_self, key_global (.inr (.inr hp)), countCtx_mem]
  rw [hnext, ← hvalue]
  exact returns_perform (countCtx_net s r.ctx 5 n) h.flight hk hpend _ _

end Peer

/-! ## Requests at the owner of a scratchpad (R216, R254) -/

section Owner
variable {c : CoreId} (hp : r.place = .scratch c) (hsent : r.sent = false)
  (hctx : (s.getCore c).context = some r.ctx) (hw : (s.getCore c).wp = [])
  (hsize : r.addr + r.size ≤ (s.getCore c).scratchSize)
include hp hsent hctx hw hsize

/-- The owner still runs the context and has the bytes, so nothing but the kind of the request decides what it does. -/
theorem remoteAperture_enabled :
    execRemoteApertureRequest 0 s =
      if r.isStore then
        if r.journal.isSome then
          .next
            { s.performWrite r with
              flight := (s.performWrite r).flight.set 0 { r with sent := true }
              answers :=
                (s.performWrite r).answers ++
                  [{ dst := r.src, source := some r.source, pend := none, shift := 0, value := 0, ack := r.journal }] }
        else .next ((s.performWrite r).dropReq 0)
      else .next (s.perform 0 r none false) := by
  have hserve : ¬((!s.mayServe 0 r) = true ∨ r.acked = true ∨ (!s.ownerRuns r c) = true) := by
    simp [mayServe_lone h, Req.acked, hsent, State.ownerRuns, hctx]
  have hroom : s.outgrown r c = false := by
    rw [State.outgrown, decide_eq_false_iff_not]
    omega
  have hwatch (acc : Access) : s.watchServed c acc true r.addr r.size r.src r.va = s := by
    simp [State.watchServed, wpMatch_none hw]
  unfold execRemoteApertureRequest
  rw [h.flight]
  dsimp only [List.getElem?_cons_zero]
  rw [hp]
  dsimp only
  rw [if_neg hserve, hroom, poisonedReq_lone h, hwatch, hwatch]
  rfl

/-- A posted store is performed whole, and its acknowledgement sets out. -/
theorem owner_store (hk : r.kind = .store) (hj : r.journal ≠ none) :
    execRemoteApertureRequest 0 s =
      .next { s with
        flight := [{ r with sent := true }]
        answers :=
          s.answers ++ [{ dst := r.src, source := some (160 + c), pend := none, shift := 0, value := 0, ack := r.journal }]
        mem := memWrite s.mem (scratchKey c r.addr) r.data.toNat r.size } := by
  have hstore : r.isStore = true := by rw [Req.isStore, hk]
  have hkey : r.key = scratchKey c r.addr := by rw [Req.key, hp, keyOf]
  have hwrite : s.performWrite r = { s with mem := memWrite s.mem (scratchKey c r.addr) r.data.toNat r.size } := by
    have hheal : s.heal r.whole r.key = s := heal_clean fun i _ hi => by simp [h.poison] at hi
    rw [State.performWrite, hk]
    dsimp only
    rw [hheal, hkey, writeAt_scratch (poisonIn_clean h.poison _ _)]
  have hsource : r.source = 160 + c := by rw [Req.source, hp]
  rw [remoteAperture_enabled h hp hsent hctx hw hsize, if_pos hstore, if_pos (Option.isSome_iff_ne_none.mpr hj), hwrite,
    h.flight, hsource]
  rfl

theorem owner_load (hk : r.kind = .load) (hpend : r.pend ≠ none) :
    s.Returns r (memRead s.mem (scratchKey c r.addr) r.size) (execRemoteApertureRequest 0 s) := by
  have hstore : ¬r.isStore = true := by simp [Req.isStore, hk]
  have hvalue : s.valueAt r none = memRead s.mem (scratchKey c r.addr) r.size := by
    rw [State.valueAt, ite_self, Req.key, hp, keyOf]
  rw [remoteAperture_enabled h hp hsent hctx hw hsize, if_neg hstore, ← hvalue]
  exact returns_perform rfl h.flight hk hpend _ _

end Owner

/-! ## The journal entry of a posted store (R254, R255, R426) -/

section Journal
variable {e : Nat} (hj : r.journal = some e)
include hj

theorem journalReq_lone : s.journalReq r.src e = some (0, r) := by
  simp [State.journalReq, h.flight, hj]

/-- An acknowledgement that nothing of its source is ahead of frees its entry. -/
theorem postedStoreAck_frees (hsent : r.sent = true) (htime : Claims.inTime s r.src e)
    (hready : s.ackReady r.src e = true) :
    ∃ t, execPostedStoreAck r.src e s = .next t ∧ t.flight = [] ∧ t.mem = s.mem ∧
      tfind e (t.getCore r.src).journal = none ∧ ∀ b ∈ t.answers, b.dst ≠ r.src ∨ b.ack ≠ some e := by
  have hnext : execPostedStoreAck r.src e s =
      .next ((((s.dropAck r.src e).dropReq 0).mapCore r.src (Core.freed e)).tell r (.done 0#64)) := by
    unfold execPostedStoreAck
    rw [journalReq_lone h hj]
    exact if_pos ⟨hsent, inTime_of_claim htime, hready, by rw [h.runs]; rfl⟩
  obtain ⟨hflight, hanswers, -, hmem⟩ := net_fields
    ((tell_net _ r (.done 0#64)).trans (mapCore_net ((s.dropAck r.src e).dropReq 0) r.src (Core.freed e)))
  refine ⟨_, hnext, ?_, hmem, ?_, fun b hb => ?_⟩
  · rw [hflight]
    show s.flight.eraseIdx 0 = []
    rw [h.flight]
    rfl
  · rw [getCore_tell_proj _ Core.journal (fun _ _ => rfl), getCore_mapCore_same]
    exact tfind_terase_same e _
  · rw [hanswers] at hb
    have hkept := (List.mem_filter.mp hb).2
    simpa [Classical.or_iff_not_imp_left] using hkept

theorem postedStoreAck_waits (hready : s.ackReady r.src e = false) :
    execPostedStoreAck r.src e s = .refused (.notEnabled "POSTED_STORE_ACK") := by
  unfold execPostedStoreAck
  rw [journalReq_lone h hj]
  dsimp only
  rw [hready]
  exact if_neg fun hall => Bool.false_ne_true hall.2.2.1

/-- A store that its owner must refuse leaves its entry in state 2. -/
theorem postedStoreRefusal_records {c : CoreId} (hp : r.place = .scratch c) (hsent : r.sent = false)
    (htime : Claims.inTime s r.src e) (hgone : (s.getCore c).context ≠ some r.ctx)
    (hfirst : ∀ a ∈ s.answers, a.dst ≠ r.src ∨ a.source ≠ some (160 + c)) :
    ∃ t, execPostedStoreRefusal r.src e s = .next t ∧ t.flight = [] ∧ t.mem = s.mem ∧
      Claims.entryState (t.getCore r.src) e = 2 ∧
      Claims.entryRest (t.getCore r.src) e = Claims.entryRest (s.getCore r.src) e := by
  have hsource : r.source = 160 + c := by rw [Req.source, hp]
  have hquiet : (s.answers.any fun a => decide (a.dst = r.src) && decide (a.source = some r.source)) = false := by
    rw [List.any_eq_false]
    intro a ha
    rcases hfirst a ha with hne | hne <;> simp [hne, hsource]
  have hruns : s.ownerRuns r c = false := decide_eq_false hgone
  have hnet := recordEntry_net (s.dropReq 0) r.src e r 2
  obtain ⟨hflight, -, -, hmem⟩ := net_fields hnet
  have hentry := recordEntry_entry (s.dropReq 0) r.src e r (st := 2) (by decide)
  unfold execPostedStoreRefusal
  rw [journalReq_lone h hj]
  dsimp only
  rw [hp]
  dsimp only
  rw [if_pos ⟨mayServe_lone h, by rw [hsent]; rfl, inTime_of_claim htime, by rw [hquiet]; rfl, .inl (by rw [hruns]; rfl)⟩]
  refine ⟨_, rfl, ?_, hmem, hentry⟩
  rw [hflight, State.dropReq, h.flight]
  rfl

section Timeout
variable {since : Nat} (hsince : tfind e (s.getCore r.src).journalAt = some since) (hlate : since + 1048576 ≤ s.time)
include hsince hlate

theorem journalTimeout_enabled (lost : Bool) :
    execJournalTimeout r.src e lost s =
      .next
        ((if r.sent || lost then (s.dropAck r.src e).dropReq 0
          else { s.dropAck r.src e with flight := [r.disowned] }).recordEntry r.src e 3 r) := by
  have hset : (s.dropAck r.src e).flight.set 0 r.disowned = [r.disowned] := by
    show s.flight.set 0 _ = _
    rw [h.flight]
    rfl
  rw [← hset]
  unfold execJournalTimeout
  rw [journalReq_lone h hj, hsince]
  exact if_pos ⟨hlate, by rw [h.runs]; rfl⟩

/-- A store that is lost leaves its entry in state 3. -/
theorem journalTimeout_lost :
    ∃ t, execJournalTimeout r.src e true s = .next t ∧ t.flight = [] ∧ t.mem = s.mem ∧
      Claims.entryState (t.getCore r.src) e = 3 ∧
      Claims.entryRest (t.getCore r.src) e = Claims.entryRest (s.getCore r.src) e := by
  have hnet := recordEntry_net ((s.dropAck r.src e).dropReq 0) r.src e r 3
  obtain ⟨hflight, -, -, hmem⟩ := net_fields hnet
  have hentry := recordEntry_entry ((s.dropAck r.src e).dropReq 0) r.src e r (st := 3) (by decide)
  rw [journalTimeout_enabled h hj hsince hlate, Bool.or_true, if_pos rfl]
  refine ⟨_, rfl, ?_, hmem, hentry⟩
  rw [hflight]
  show s.flight.eraseIdx 0 = []
  rw [h.flight]
  rfl

/-- One that is not lost stays on its way, and no entry stands for it any more. -/
theorem journalTimeout_stays (hsent : r.sent = false) :
    ∃ t q, execJournalTimeout r.src e false s = .next t ∧ t.flight = [q] ∧ t.mem = s.mem ∧ q.journal = none ∧
      q.addr = r.addr ∧ q.data = r.data ∧ Claims.entryState (t.getCore r.src) e = 3 := by
  have hstays : ¬(r.sent || false) = true := by simp [hsent]
  have hnet := recordEntry_net { s.dropAck r.src e with flight := [r.disowned] } r.src e r 3
  obtain ⟨hflight, -, -, hmem⟩ := net_fields hnet
  have hentry := recordEntry_entry { s.dropAck r.src e with flight := [r.disowned] } r.src e r (st := 3) (by decide)
  rw [journalTimeout_enabled h hj hsince hlate, if_neg hstays]
  exact ⟨_, _, rfl, hflight, hmem, rfl, rfl, rfl, hentry.1⟩

end Timeout

end Journal

end Lone

/-! ## The transmit order and the answers of loads (R262, R276) -/

/-- The only store of the transmit order reaches host memory. -/
theorem hostStore_only {s : State} {r : Req} (hq : s.hostq = [r]) (hp : r.place = .host) (hk : r.kind = .store) :
    ∃ t, s.hostStore 0 = .next t ∧ t.hostq = [] ∧ t.mem = memWrite s.mem r.addr r.data.toNat r.size := by
  have htell := tell_net ((({ s with hostq := s.hostq.eraseIdx 0 } : State)).performWrite r) r (.done 0#64)
  have hwrite := performWrite_store_net { s with hostq := s.hostq.eraseIdx 0 } hk
  rw [key_global (.inr (.inl hp)), hq] at hwrite
  rw [hq] at htell
  have hnet := htell.trans hwrite
  obtain ⟨-, -, hhostq, hmem⟩ := net_fields hnet
  unfold State.hostStore
  rw [hq]
  refine ⟨_, ?_, hhostq, hmem⟩
  simp

/-- The value of a load depends on its own bytes alone. -/
theorem extend_eq_extended (n : Nat) (signed : Bool) (v : Nat) :
    extend n signed v = Claims.extended n signed (v % 2 ^ (8 * n)) := by
  have hlow : BitVec.ofNat (8 * n) (v % 2 ^ (8 * n)) = BitVec.ofNat (8 * n) v :=
    BitVec.eq_of_toNat_eq (by simp)
  rw [extend, Claims.extended, hlow, sextTo]

/-- Which loads are still to come says nothing of the versions of a name. -/
theorem fillS_sregs_of_pend {k : Core} (hroutine : k.routine = none) (p : Tab Pend) (d : Reg) (x : Word) :
    (({ k with pend := p } : Core).fillS d x).sregs = (k.fillS d x).sregs := by
  by_cases hd : d = 0#5
  · simp [Core.fillS, hd]
  · simp [Core.fillS, Core.hidden, Core.fillOwnS, Core.setSver, Core.sver, hroutine, hd]

/-- The last answer of a scalar load gives its destination the value. -/
theorem takeAnswer_last {k : Core} {n : Nat} {p : Pend} {d : Reg} {bytes : Nat} {signed : Bool}
    (hroutine : k.routine = none) (hp : tfind n k.pend = some p) (hleft : p.left = 1) (hd : p.dest = .scalar d bytes signed)
    (shift v : Nat) :
    k.takeAnswer n shift v =
      ({ k with pend := terase n k.pend } : Core).fillS d
        (Claims.extended bytes signed ((p.acc + v * 2 ^ shift) % 2 ^ (8 * bytes))) := by
  unfold Core.takeAnswer
  rw [hp]
  dsimp only
  rw [if_pos (by omega), hd, Core.arrive, hroutine, extend_eq_extended]
  rfl

/-- A core after one answer for load n, which a younger iteration may have sent. -/
def Core.answered (k : Core) (n shift v : Nat) : Core :=
  { k.takeAnswer n shift v with young := k.young.map fun y => y.takeAnswer n shift v }

section Response
variable {s : State} {a : Answer} {n : Nat} (hs : s.answers = [a]) (hack : a.ack = none)
  (hruns : s.fallen ((s.getCore a.dst).context.getD 64) a.dst = false) (hpend : a.pend = some n) (hline : a.line = none)
include hs hack hruns hpend hline

theorem loadResponse_arrives :
    execLoadResponse 0 s =
      .next (({ s with answers := [] } : State).mapCore a.dst fun k => k.answered n a.shift a.value) := by
  have hfirst : s.answerBehind 0 a = false := by simp [State.answerBehind]
  unfold execLoadResponse
  rw [hs]
  dsimp only [List.getElem?_cons_zero]
  rw [hack, hfirst, hruns, Option.isSome_none, Bool.or_self, Bool.or_self, if_neg Bool.false_ne_true, hline, hpend]
  rfl

theorem loadResponse_fills {p : Pend} {d : Reg} {bytes : Nat} {signed : Bool}
    (hroutine : (s.getCore a.dst).routine = none) (hp : tfind n (s.getCore a.dst).pend = some p) (hleft : p.left = 1)
    (hd : p.dest = .scalar d bytes signed) :
    ∃ t, execLoadResponse 0 s = .next t ∧ t.answers = [] ∧ t.mem = s.mem ∧
      (t.getCore a.dst).pend = terase n (s.getCore a.dst).pend ∧
      (t.getCore a.dst).sregs =
        ((s.getCore a.dst).fillS d
          (Claims.extended bytes signed ((p.acc + a.value * 2 ^ a.shift) % 2 ^ (8 * bytes)))).sregs := by
  have hnet := mapCore_net { s with answers := [] } a.dst fun k => k.answered n a.shift a.value
  obtain ⟨-, hanswers, -, hmem⟩ := net_fields hnet
  have htake := takeAnswer_last hroutine hp hleft hd a.shift a.value
  refine ⟨_, loadResponse_arrives hs hack hruns hpend hline, hanswers, hmem, ?_, ?_⟩ <;> rw [getCore_mapCore_same]
  · exact (congrArg Core.pend htake).trans (congrArg Core.pend (fillS_frame _ d _))
  · exact (congrArg Core.sregs htake).trans (fillS_sregs_of_pend hroutine _ d _)

end Response

end Sys2Proof.Machine

namespace Sys2Proof.Proofs
open Sys2Proof Sys2Proof.Machine

/-- Settles O44: each request is the only one of the network, so that its event performs it; the outcomes of a posted store
mark its journal entry. -/
theorem requestsAndAnswers : Obligations.RequestsAndAnswers := by
  unfold Obligations.RequestsAndAnswers
  intro s
  refine ⟨fun r h => ⟨?slice, ?toHost, ?fromHost, ?peer, fun c hp => ⟨?owner, fun e hj => ?journal⟩⟩, ?transmit, ?answer⟩
  case slice => exact fun hp hnear => ⟨slice_load h hp hnear, slice_store h hp hnear⟩
  case toHost => exact fun hp hsent => ⟨slice_host_store h hp hsent, slice_host_load h hp hsent⟩
  case fromHost =>
    exact fun hp hsent hq =>
      ⟨host_load h hp hsent hq, fun fn hk => ⟨host_atomic h hp hsent hq hk, host_rejected h hp hsent hq hk⟩⟩
  case peer => exact fun hp => ⟨peer_store h hp, peer_load h hp⟩
  case owner =>
    exact fun hsent hctx hw hsize => ⟨owner_store h hp hsent hctx hw hsize, owner_load h hp hsent hctx hw hsize⟩
  case journal =>
    refine ⟨fun l a l' hsent htime hs hdst hack hfirst => ?ack, fun l a l' hs hbehind hfirst hdst hack => ?behind,
      postedStoreRefusal_records h hj hp, fun since hsince hlate =>
        ⟨journalTimeout_lost h hj hsince hlate, journalTimeout_stays h hj hsince hlate⟩⟩
    case ack =>
      refine postedStoreAck_frees h hj hsent htime ?_
      rw [ackReady_first hs (fun b hb => (hfirst b hb).imp (hdst ▸ ·) And.right) hdst hack, Bool.not_eq_true',
        List.any_eq_false]
      intro b hb
      rcases hfirst b hb with hne | ⟨hne, -⟩ <;> simp [hne]
    case behind =>
      obtain ⟨b, hb, hbdst, hbsource⟩ := hbehind
      refine postedStoreAck_waits h hj ?_
      rw [ackReady_first hs hfirst hdst hack, Bool.not_eq_false', List.any_eq_true]
      exact ⟨b, hb, by simp [hbdst, hbsource, hdst]⟩
  case transmit => exact fun r hq hp hk _ => hostStore_only hq hp hk
  case answer =>
    exact fun a n p d bytes signed hs hack hruns hroutine hpend hline hp hleft hd =>
      loadResponse_fills hs hack hruns hpend hline hroutine hp hleft hd

end Sys2Proof.Proofs
end

section
/-! SUPPORT. Fences and PREF (O10): every fence of a core that has nothing under way completes at once, and PREF changes the
requests under way and the counters of its walk alone. -/

namespace Sys2Proof.Machine
open Sys2Proof

/-! ## What a core that has nothing under way need not wait for -/

section Settled
variable {s : State}

theorem settled_storesDone (hs : Claims.Settled s) : s.storesDone = true := (Bool.and_eq_true_iff.mp hs.stores).1

theorem settled_calm (hs : Claims.Settled s) : Claims.Calm s :=
  ⟨hs.loop, hs.buffer, List.isEmpty_iff.mp (Bool.and_eq_true_iff.mp (settled_storesDone hs)).1⟩

theorem settled_journalQuiet (hs : Claims.Settled s) : s.core.journalQuiet = true := by
  rw [Core.journalQuiet, hs.journal]
  rfl

/-- An empty journal records no refusal and no timeout. -/
theorem journalCause_empty {k : Core} (hj : k.journal = []) : k.journalCause = none := by
  rw [Core.journalCause, hj]
  decide

/-! ## Ordered execution, releases and acquires (R222, R250, R251) -/

theorem ordered_settled (hs : Claims.Settled s) (body : State → Out) : s.ordered body = body s :=
  ordered_calm hs.loop hs.buffer (settled_calm hs).out body

theorem fence_settled (hs : Claims.Settled s) (hphase : s.core.inPhase = none) (x : Scope) (body : State → Out) :
    s.fence x body = body s := by
  rw [State.fence, hphase]
  exact ordered_settled hs body

theorem storesOut_settled (hs : Claims.Settled s) (x : Scope) (body : Out) : s.storesOut x body = body := by
  simp [State.storesOut, settled_journalQuiet hs, journalCause_empty hs.journal, settled_storesDone hs]

theorem released_settled (hs : Claims.Settled s) (x : Scope) (body : Out) : s.released x body = body := by
  simp [State.released, storesOut_settled hs, hs.loads]

/-- When no line that comes to c is kept, each answer to c loses its line. -/
theorem noFill_all (s : State) (c : CoreId) :
    s.noFill c (fun _ => true) =
      { s with
        flight := s.flight.map fun r => if r.src = c then { r with fill := false } else r
        answers := s.answers.map fun a => if a.line.isSome ∧ a.dst = c then { a with line := none } else a } := by
  unfold State.noFill
  simp only [Bool.and_true, decide_eq_true_eq]
  congr 1
  refine List.map_congr_left fun a _ => ?_
  cases a.line <;> simp

/-- An acquire leaves the core no HBM line, in its L1 or on the way to it, unless its scope is CORE. -/
theorem acquired_eq_forgets (s : State) (x : Scope) : s.acquired x = Claims.forgets s x := by
  by_cases hx : x = .core
  · simp [State.acquired, Claims.forgets, wideScope, hx]
  · simp [State.acquired, Claims.forgets, wideScope, hx, noFill_all, State.upd]

theorem forgets_quiet (h : s.core.quiet) (x : Scope) : (Claims.forgets s x).core.quiet := by
  unfold Claims.forgets
  split <;> exact h

theorem acquired_advance_alone (h : s.core.quiet) (x : Scope) :
    (s.acquired x).advance = Claims.ends (Claims.forgets s x) (Claims.forgets s x).core := by
  rw [acquired_eq_forgets, advance_alone (forgets_quiet h x)]

/-! ## The fences (R242, R244, R255) -/

variable (ha : Claims.Alone s) (hs : Claims.Settled s) (x : Scope)
include ha hs

theorem fence_completes (hphase : s.core.inPhase = none) :
    execFence x s = .next (Claims.ends (Claims.forgets s x) (Claims.forgets s x).core) := by
  rw [execFence, fence_settled hs hphase, released_settled hs, acquired_advance_alone ha.quiet]

theorem fenceR_completes (hphase : s.core.inPhase = none) :
    execFenceR x s = .next (Claims.ends (Claims.forgets s x) (Claims.forgets s x).core) := by
  rw [execFenceR, fence_settled hs hphase, hs.loads, acquired_advance_alone ha.quiet]
  rfl

theorem fenceW_completes (hphase : s.core.inPhase = none) : execFenceW x s = .next (Claims.ends s s.core) := by
  rw [execFenceW, fence_settled hs hphase, storesOut_settled hs, advance_alone ha.quiet]

/-- Outside overlapped loops no body is left to be fetched afresh. -/
theorem ifence_completes : execIfence x s = .next (Claims.ends s { s.core.discardWords with refetch := false }) := by
  have hadvance := advance_upd_alone (f := fun k => { k.discardWords with refetch := k.overlapped }) ha.quiet rfl
  rw [execIfence, ordered_settled hs, hs.stores, settled_journalQuiet hs]
  exact congrArg _ (hadvance.trans (by rw [hs.loop]))

theorem fenceE_completes (hphase : s.core.inPhase = none) : execFenceE x s = .next (Claims.ends s s.core) := by
  rw [execFenceE, fence_settled hs hphase, hs.queue, hs.jobs, hs.stores, settled_journalQuiet hs, advance_alone ha.quiet]
  rfl

theorem fenceJ_completes (hphase : s.core.inPhase = none) : execFenceJ x s = .next (Claims.ends s s.core) := by
  rw [execFenceJ, fence_settled hs hphase, settled_journalQuiet hs, journalCause_empty hs.journal, advance_alone ha.quiet]
  rfl

end Settled

/-! ## PREF (R280, R388) -/

theorem countWalk_frame (s : State) (ctx : Nat) (root : Word) (va : Nat) :
    s.countWalk ctx root va =
      { s with counters := (s.countWalk ctx root va).counters, fresh := (s.countWalk ctx root va).fresh } :=
  foldl_keeps (fun t : State => t = { s with counters := t.counters, fresh := t.fresh }) (fun t at_ => t.countAt ctx at_)
    (fun t at_ ht => by rw [countAt_frame, ht]) _ s rfl

theorem quietWalk_frame (s : State) (acc : Access) (va : Nat) :
    s.quietWalk acc va = { s with counters := (s.quietWalk acc va).counters, fresh := (s.quietWalk acc va).fresh } := by
  unfold State.quietWalk
  split
  · exact countWalk_frame s _ _ va
  · rfl

/-- PREF adds at most one request to those under way; of the rest of the machine it changes the counters of its walk, and how
many device values have been drawn (log 7). -/
theorem pref_frame {s : State} (ha : Claims.Alone s) {a : Reg} {da : Dist}
    (hr : s.core.ready { ss := [(a, da.toNat)] } = true) (x : Scope) (n : BitVec 1) :
    ∃ (l : List Req) (counters : Tab Nat) (fresh : Nat), l.length ≤ 1 ∧
      execPref a da x n s =
        .next (Claims.ends { s with flight := s.flight ++ l, counters := counters, fresh := fresh } s.core) := by
  have hissue := fun body => issue_ready hr ha.mesh body
  unfold execPref
  dsimp only
  rw [hissue, quietWalk_frame]
  split
  · exact ⟨[_], _, _, Nat.le_refl 1, congrArg _ (advance_alone ha.quiet)⟩
  · exact ⟨[], _, _, Nat.zero_le 1, by rw [List.append_nil]; exact congrArg _ (advance_alone ha.quiet)⟩

end Sys2Proof.Machine

namespace Sys2Proof.Proofs
open Sys2Proof Sys2Proof.Machine

/-- Settles O10: each fence finds nothing to wait for, and PREF ends with at most one request more under way. -/
theorem fencesComplete : Obligations.FencesComplete := by
  unfold Obligations.FencesComplete
  intro s x ha
  refine ⟨fun hs hphase => ?fences, fun a da n hr => ?pref⟩
  case fences =>
    exact ⟨fence_completes ha hs x hphase, fenceR_completes ha hs x hphase, fenceW_completes ha hs x hphase,
      ifence_completes ha hs x, fenceE_completes ha hs x hphase, fenceJ_completes ha hs x hphase⟩
  case pref =>
    obtain ⟨l, counters, fresh, hl, hnext⟩ := pref_frame ha hr x n
    exact ⟨_, l, hnext, hl, rfl, rfl, rfl, rfl⟩

end Sys2Proof.Proofs
end

section
/-! SUPPORT. Releases that wait (O11): what a release does with each outcome of the journal, and FENCE.W by those outcomes. -/

namespace Sys2Proof.Machine
open Sys2Proof

theorem mem_of_tfind {α : Type} {k : Nat} {v : α} : ∀ {t : Tab α}, tfind k t = some v → (k, v) ∈ t
  | (j, w) :: t, h => by
    rw [tfind] at h
    split at h
    next hj => rw [← hj, ← Option.some.inj h]; exact List.mem_cons_self
    next => exact List.mem_cons_of_mem _ (mem_of_tfind h)

/-! ## The journal (R254, R255) -/

section Journal
variable {k : Core} {i : Nat}

theorem journalQuiet_iff : k.journalQuiet = true ↔ ∀ r ∈ k.journal, r.2.toNat / 2 ^ 30 ≠ 1 := by
  simp [Core.journalQuiet]

/-- An entry whose state is not 0 stands in the journal: a free entry reads as the word 0. -/
theorem entry_mem_journal (hi : Claims.entryState k i ≠ 0) : (i, tget i k.journal 0#32) ∈ k.journal := by
  cases hf : tfind i k.journal with
  | none => simp [Claims.entryState, tget, hf] at hi
  | some w =>
    rw [tget, hf]
    exact mem_of_tfind hf

theorem journalQuiet_pending (hi : Claims.entryState k i = 1) : k.journalQuiet = false :=
  Bool.eq_false_iff.mpr fun hq =>
    journalQuiet_iff.mp hq _ (entry_mem_journal (by rw [hi]; decide)) hi

/-- The search for a state finds the lowest entry that has it. -/
theorem find_lowestEntry {st : Nat} (h32 : i < 32) (hi : Claims.entryState k i = st)
    (hlow : ∀ j < i, Claims.entryState k j ≠ st) :
    ((List.range 32).find? fun e => decide ((tget e k.journal 0#32).toNat / 2 ^ 30 = st)) = some i :=
  List.find?_range_eq_some.mpr
    ⟨decide_eq_true hi, List.mem_range.mpr h32, fun j hj => (Bool.not_eq_true' _).mpr (decide_eq_false (hlow j hj))⟩

theorem journalCause_refused (h32 : i < 32) (hi : Claims.entryState k i = 2) (hlow : ∀ j < i, Claims.entryState k j ≠ 2) :
    k.journalCause = some (BitVec.ofNat 10 (0x280 + i), (tget i k.journal 0#32).zeroExtend 64) := by
  simp only [Core.journalCause, find_lowestEntry h32 hi hlow]

/-- A timeout is the cause only when no entry records a refusal. -/
theorem journalCause_timedOut (h32 : i < 32) (hnone : ∀ j < 32, Claims.entryState k j ≠ 2)
    (hi : Claims.entryState k i = 3) (hlow : ∀ j < i, Claims.entryState k j ≠ 3) :
    k.journalCause = some (BitVec.ofNat 10 (0x2A0 + i), (tget i k.journal 0#32).zeroExtend 64) := by
  have hrefused : ((List.range 32).find? fun e => decide ((tget e k.journal 0#32).toNat / 2 ^ 30 = 2)) = none :=
    List.find?_range_eq_none.mpr fun j hj => (Bool.not_eq_true' _).mpr (decide_eq_false (hnone j hj))
  simp only [Core.journalCause, hrefused, find_lowestEntry h32 hi hlow, Option.map_some]

end Journal

/-! ## The outcomes of a release at CLU scope or wider (R251, R255) -/

section Release
variable {s : State} {x : Scope} (hx : x ≠ .core)
include hx

theorem wideScope_of_ne : wideScope x = true := decide_eq_true hx

theorem storesOut_pending (hq : s.core.journalQuiet = false) (body : Out) : s.storesOut x body = s.awaitJournal := by
  simp [State.storesOut, wideScope_of_ne hx, hq]

theorem storesOut_recorded {c : Cause} {v : Word} (hq : s.core.journalQuiet = true) (hc : s.core.journalCause = some (c, v))
    (body : Out) : s.storesOut x body = s.trap c v := by
  simp [State.storesOut, wideScope_of_ne hx, hq, hc]

theorem storesOut_unperformed (hq : s.core.journalQuiet = true) (hc : s.core.journalCause = none)
    (hd : s.storesDone = false) (body : Out) : s.storesOut x body = s.stall := by
  simp [State.storesOut, wideScope_of_ne hx, hq, hc, hd]

/-- Log 56. -/
theorem fence_inPhase (hphase : s.core.inPhase ≠ none) (body : State → Out) : s.fence x body = s.trap 0x342#10 0#64 := by
  rw [State.fence, Option.isSome_iff_ne_none.mpr hphase, wideScope_of_ne hx]
  rfl

end Release

/-- A store of the core that is under way has not been performed at its point. -/
theorem storesDone_underWay {s : State}
    (h : ∃ r ∈ s.flight, r.src = s.cur ∧ r.kind ≠ .load ∧ r.kind ≠ .ldro ∧ r.late = false) : s.storesDone = false := by
  obtain ⟨r, hr, hsrc, hload, hldro, hlate⟩ := h
  have hall : (s.flight.all fun r => r.src ≠ s.cur || decide (r.kind = .load) || decide (r.kind = .ldro) || r.late) = false :=
    List.all_eq_false.mpr ⟨r, hr, by simp [hsrc, hload, hldro, hlate]⟩
  rw [State.storesDone, hall, Bool.and_false]

theorem fence_calm {s : State} (hs : Claims.Calm s) (hphase : s.core.inPhase = none) (x : Scope) (body : State → Out) :
    s.fence x body = body s := by
  rw [State.fence, hphase]
  exact ordered_calm hs.loop hs.buffer hs.out body

theorem fenceW_calm {s : State} (hs : Claims.Calm s) (hphase : s.core.inPhase = none) (x : Scope) :
    execFenceW x s = s.storesOut x (.next s.advance) :=
  fence_calm hs hphase x _

end Sys2Proof.Machine

namespace Sys2Proof.Proofs
open Sys2Proof Sys2Proof.Machine

/-- Settles O11: outside a transfer phase FENCE.W is the release's wait, whose outcome the journal gives, and the stores under
way when the journal is empty. -/
theorem releasesWait : Obligations.ReleasesWait := by
  unfold Obligations.ReleasesWait
  intro s x hx hloop hbuffer hout _
  refine ⟨fun hphase => fence_inPhase hx hphase _, fun hphase => ?_⟩
  have hwait : exec (.fenceW x) s = s.storesOut x (.next s.advance) := fenceW_calm ⟨hloop, hbuffer, hout⟩ hphase x
  rw [hwait]
  refine ⟨?pending, ?refused, ?timedOut, ?unperformed⟩
  case pending =>
    rintro ⟨i, _, hi⟩
    exact storesOut_pending hx (journalQuiet_pending hi) _
  case refused =>
    intro i h32 hresolved hi hlow
    exact storesOut_recorded hx (journalQuiet_iff.mpr hresolved) (journalCause_refused h32 hi hlow) _
  case timedOut =>
    intro i h32 hresolved hnone hi hlow
    exact storesOut_recorded hx (journalQuiet_iff.mpr hresolved) (journalCause_timedOut h32 hnone hi hlow) _
  case unperformed =>
    intro hempty hstore
    have hresolved : s.core.journalQuiet = true := journalQuiet_iff.mpr (by simp [hempty])
    exact storesOut_unperformed hx hresolved (journalCause_empty hempty) (storesDone_underWay hstore) _

end Sys2Proof.Proofs
end

section
/-! SUPPORT. Scalar loads and stores of the own scratchpad (O6, O7), which are accesses of one lane. -/

namespace Sys2Proof.Machine
open Sys2Proof

section Own
variable {s : State} {acc : Access} {va n : Nat}

/-- The one access of a scalar load or store. -/
theorem ownLanes_single (h : Claims.Own s acc va n) (hn : 0 < n) : OwnLanes s acc [(va, n, 0)] :=
  List.forall_mem_singleton.mpr ⟨h, hn⟩

/-- The engine window lies beyond every scratchpad (R226). -/
theorem below_window (h : Claims.Own s acc va n) (hn : 0 < n) : va < windowVa := by
  have haperture := h.aperture
  have hroom := h.room
  have hva := Nat.div_add_mod va (2 ^ 56)
  unfold windowVa
  omega

theorem bytes_sum_lt (s : State) (off n : Nat) : Claims.ownBytes s off n < 2 ^ (8 * n) := by
  rw [pow_mul]
  exact ownBytes_lt s off n

/-! ## Loads (R277, R280) -/

theorem scalarLoad_own (ha : Claims.Alone s) (h : Claims.Own s .load va n) (hn : 0 < n) (kind : ReqKind) (d : Reg)
    (signed : Bool) :
    s.loadLanes kind [(va, n, 0)] (.scalar d n signed) 0 =
      .next (Claims.ends s (s.core.writeS d (Claims.extended n signed (Claims.ownBytes s (va % 2 ^ 56) n)))) := by
  have hvalue : 0 + ([(va, n, 0)].map fun r : Nat × Nat × Nat =>
      Claims.ownBytes s (r.1 % 2 ^ 56) r.2.1 * 256 ^ r.2.2).sum = Claims.ownBytes s (va % 2 ^ 56) n := by
    simp
  rw [loadLanes_own ha (ownLanes_single h hn), hvalue, Core.deliver, extend_eq_extended,
    Nat.mod_eq_of_lt (bytes_sum_lt s _ n)]

/-- The access reaches the engine window (R226). -/
def InWindow (s : State) (va n : Nat) : Prop :=
  n = 8 ∧ va % 8 = 0 ∧ windowVa ≤ va ∧ va < windowVa + 0x30 ∧ s.core.inPhase.isNone = true

theorem not_inWindow_own (h : Claims.Own s acc va n) (hn : 0 < n) : ¬ InWindow s va n :=
  fun ⟨_, _, hle, _, _⟩ => absurd hle (Nat.not_le.mpr (below_window h hn))

theorem load_lanes (ha : Claims.Alone s) {d a : Reg} {da : Dist} {o : BitVec 11}
    (hr : s.core.ready (Claims.reads [(a, da)] d) = true) (hw : ¬ InWindow s (Claims.address s a da o n) n) (signed : Bool) :
    s.load d a da o n signed = s.loadLanes .load [(Claims.address s a da o n, n, 0)] (.scalar d n signed) 0 := by
  have hissue := fun body => issue_ready hr ha.mesh body
  unfold State.load
  dsimp only
  rw [ea_eq_address]
  exact (hissue _).trans (if_neg hw)

theorem load_size_pos {i : Instr} {l : Claims.Load} (hl : Claims.load s i = some l) : 0 < l.n := by
  cases i with
  | lb | lbu | lh | lhu | lw | lwu | ld => cases hl; exact Nat.succ_pos _
  | ldro d a da z x => cases hl; exact bytesOf_pos z
  | _ => cases hl

/-- Elsewhere a ready scalar load is a load of one lane. -/
theorem exec_load_lanes {i : Instr} {l : Claims.Load} (hl : Claims.load s i = some l) (hr : s.core.ready l.names = true)
    (ha : Claims.Alone s) (hw : ¬ InWindow s l.va l.n) :
    ∃ kind : ReqKind, (kind = .load ∨ kind = .ldro) ∧
      exec i s = s.loadLanes kind [(l.va, l.n, 0)] (.scalar l.d l.n l.signed) 0 := by
  cases i with
  | lb | lbu | lh | lhu | lw | lwu | ld =>
    cases hl
    exact ⟨.load, .inl rfl, load_lanes ha hr hw _⟩
  | ldro d a da z x =>
    cases hl
    have hissue := fun body => issue_ready (n := Claims.reads [(a, da)] d) hr ha.mesh body
    have hsize : Size.bytes z = Claims.bytesOf z := by cases z <;> rfl
    refine ⟨.ldro, .inr rfl, ?_⟩
    show execLdro d a da z x s = _
    unfold execLdro
    rw [hsize]
    exact hissue _
  | _ => cases hl

end Own
end Sys2Proof.Machine

namespace Sys2Proof.Proofs
open Sys2Proof Sys2Proof.Machine

/-- Settles O6: a scalar load of the own scratchpad is a load of one lane, which delivers its bytes at once. -/
theorem ownLoads : Obligations.OwnLoads := by
  unfold Obligations.OwnLoads
  intro i s l hl hr ha h
  have hn := load_size_pos hl
  obtain ⟨kind, -, hexec⟩ := exec_load_lanes hl hr ha (not_inWindow_own h hn)
  rw [hexec, scalarLoad_own ha h hn]

end Sys2Proof.Proofs
end

section
/-! SUPPORT. Accesses of one piece to the own scratchpad (O7 to O9): stores, ordered accesses and atomics. -/

namespace Sys2Proof.Machine
open Sys2Proof

/-! ## Memory under a write of n bytes, and a read of n bytes -/

/-- A write of n bytes writes the low n bytes of its value. -/
theorem memWrite_mod (n : Nat) : ∀ (m : List Host.Cell) (a v : Nat), memWrite m a (v % 256 ^ n) n = memWrite m a v n := by
  induction n with
  | zero => intros; rfl
  | succ n ih =>
    intro m a v
    have hbyte : BitVec.ofNat 8 (v % 256 ^ (n + 1)) = BitVec.ofNat 8 v := by
      apply BitVec.eq_of_toNat_eq
      rw [BitVec.toNat_ofNat, BitVec.toNat_ofNat, pow_succ']
      exact Nat.mod_mul_right_mod v 256 (256 ^ n)
    have hrest : v % 256 ^ (n + 1) / 256 = v / 256 % 256 ^ n := by
      rw [pow_succ', Nat.mod_mul_right_div_self]
    rw [memWrite, memWrite, hbyte, hrest, ih]

/-- A number of at most 8 bytes is what a register holds of it. -/
theorem toNat_word_mod {n : Nat} (hn : n ≤ 8) (v : Nat) : (BitVec.ofNat 64 (v % 256 ^ n)).toNat = v % 256 ^ n :=
  Nat.mod_eq_of_lt ((Nat.mod_lt v (by positivity)).trans_le (Nat.pow_le_pow_right (by decide) hn : 256 ^ n ≤ 256 ^ 8))

/-- With no buffered store, a load finds the bytes of memory. -/
theorem ownBytes_unbuffered {s : State} (hb : s.core.sbuf = []) (n : Nat) :
    ∀ off, Claims.ownBytes s off n = memRead s.mem (scratchKey s.cur off) n := by
  have hbyte (off : Nat) : Claims.ownByte s off = (memByte s.mem (scratchKey s.cur off)).toNat := by
    have hlt : (memByte s.mem (scratchKey s.cur off)).toNat < 2 ^ 8 := BitVec.isLt _
    have hforward : s.core.forward (.scratch s.cur) off = (0, 0) := by rw [Core.forward, hb]; rfl
    unfold Claims.ownByte
    rw [hforward]
    show ((memByte s.mem (scratchKey s.cur off)).toNat &&& (2 ^ 8 - 1)) ||| (0 &&& 0) = _
    rw [Nat.and_two_pow_sub_one_eq_mod, Nat.mod_eq_of_lt hlt, Nat.and_zero, Nat.or_zero]
  induction n with
  | zero => intro off; rfl
  | succ n ih =>
    intro off
    have hnext : scratchKey s.cur off + 1 = scratchKey s.cur (off + 1) := (Nat.add_assoc _ off 1)
    rw [Nat.add_comm n 1, ownBytes_add, ih, Nat.add_comm 1 n, memRead, hnext]
    simp [Claims.ownBytes, hbyte, Nat.mul_comm]

section Piece
variable {s : State} {acc : Access} {va n : Nat}

/-! ## The one piece (R275) -/

theorem plan_own_single (h : Claims.Own s acc va n) (hn : 0 < n) :
    s.plan acc [(va, n, 0)] = .go [ownPiece s.cur (va, n, 0)] :=
  plan_ownLanes (ownLanes_single h hn)

theorem onePiece_own (h : Claims.Own s acc va n) (hn : 0 < n) (body : State → Piece → Out) :
    s.onePiece acc va n body = body s (ownPiece s.cur (va, n, 0)) := by
  rw [State.onePiece, plan_own_single h hn]

/-- No watchpoint matches it, whichever lane it is a part of. -/
theorem watchLanes_own_single (h : Claims.Own s acc va n) (hn : 0 < n) :
    s.watchLanes acc [(va, n, 0)] [ownPiece s.cur (va, n, 0)] = s :=
  watchLanes_ownLanes (ownLanes_single h hn)

theorem watchOwn_own (h : Claims.Own s acc va n) : s.watchOwn acc (ownPiece s.cur (va, n, 0)) = s := by
  have hnone : s.core.wpMatch s.cur acc true (va % 2 ^ 56) n = none := h.watch
  unfold State.watchOwn State.watchPieces
  simp [ownPiece, hnone, -Nat.reducePow]

/-! ## One store that leaves (R235, R278) -/

/-- A store with no order number waits for no other. -/
theorem drain_unordered {r : Req} (hp : r.place = .scratch s.cur) (ho : r.order = 0) : s.drain [r] = s.send r := by
  have hturn : s.outOfTurn r = false := by
    unfold State.outOfTurn
    rw [Bool.and_eq_false_iff]
    refine .inr (List.any_eq_false.mpr fun e _ => ?_)
    simp only [Req.ahead, ho, Bool.and_eq_true, decide_eq_true_eq, not_and]
    exact fun _ hne heq => hne heq
  have howner : s.remoteOwner r = none := by
    rw [State.remoteOwner, hp]
    exact if_pos rfl
  rw [State.drain, hturn, if_neg Bool.false_ne_true, howner]
  rfl

/-- A store of that piece, which waits for no other store and writes no granule whole together with others. -/
structure OwnReq (s : State) (va n : Nat) (r : Req) : Prop where
  place : r.place = .scratch s.cur
  addr : r.addr = va % 2 ^ 56
  size : r.size = n
  whole : r.whole = []
  order : r.order = 0

/-- The requests that the store instructions make of it are such stores. -/
theorem ownReq_of_storeReq (ha : Claims.Alone s) (hloop : s.core.overlapped = false) (kind : ReqKind) (strict : Bool) (v : Nat)
    (lane : Word) : OwnReq s va n { s.storeReq kind strict v (ownPiece s.cur (va, n, 0)) with lane := lane } where
  place := rfl
  addr := rfl
  size := rfl
  whole := rfl
  order := by
    obtain ⟨-, -, -, hroutine⟩ := ha.quiet
    show (if s.core.overlapped || s.core.routine.isSome then s.core.orderNo else 0) = 0
    rw [hloop, hroutine]
    rfl

theorem storeReq_data (kind : ReqKind) (strict : Bool) (v : Nat) (hn8 : n ≤ 8) :
    (s.storeReq kind strict v (ownPiece s.cur (va, n, 0))).data.toNat = v % 256 ^ n := by
  show (BitVec.ofNat 64 (v / 256 ^ 0 % 256 ^ n)).toNat = _
  rw [pow_zero, Nat.div_one, toNat_word_mod hn8]

section Send
variable {r : Req} (hr : OwnReq s va n r) (h : Claims.Own s .store va n)
include hr h

theorem send_own (hk : r.kind = .store) :
    s.send r = { s with mem := memWrite s.mem (Claims.ownKey s va) r.data.toNat n } := by
  unfold State.send
  rw [hr.place, hk]
  dsimp only
  rw [if_pos rfl, hr.whole, heal_clean (by simp), hr.addr, hr.size, poisonPart_clean h.clean, if_neg Bool.false_ne_true,
    writeAt_scratch h.clean]
  rfl

/-- A store of one piece to the own scratchpad, of a core that stands alone with no queued command, leaves at once. -/
theorem storeNow_own (ha : Claims.Alone s) (hm : s.core.mqueue = []) (hn : 0 < n) :
    s.storeNow [(va, n, 0)] [ownPiece s.cur (va, n, 0)] [r] = .next (s.send r).advance := by
  obtain ⟨-, -, -, hroutine⟩ := ha.quiet
  have howner : s.remoteOwner r = none := by
    rw [State.remoteOwner, hr.place]
    exact if_pos rfl
  unfold State.storeNow
  rw [hroutine, watchLanes_own_single h hn, State.putStores, drain_unordered hr.place hr.order]
  simp [interlocked_idle hm, howner]

/-- It writes its bytes, and changes nothing else. -/
theorem store_own (ha : Claims.Alone s) (hm : s.core.mqueue = []) (hn : 0 < n) (hk : r.kind = .store) {v : Nat}
    (hv : r.data.toNat = v % 256 ^ n) :
    s.storeNow [(va, n, 0)] [ownPiece s.cur (va, n, 0)] [r] =
      .next { Claims.ends s s.core with mem := memWrite s.mem (Claims.ownKey s va) v n } := by
  rw [storeNow_own hr h ha hm hn, send_own hr h hk, hv, memWrite_mod]
  exact congrArg _ (advance_alone ha.quiet)

end Send

/-- STN reads the byte and writes it back with one nibble replaced (R256). -/
theorem nibble_own {r : Req} (hr : OwnReq s va 1 r) (h : Claims.Own s .store va 1) (ha : Claims.Alone s)
    (hm : s.core.mqueue = []) {high : Bool} (hk : r.kind = .nibble high) :
    s.storeNow [(va, 1, 0)] [ownPiece s.cur (va, 1, 0)] [r] =
      .next { Claims.ends s s.core with
        mem := memWrite s.mem (Claims.ownKey s va)
          (setNibble high (memByte s.mem (Claims.ownKey s va)).toNat r.data.toNat) 1 } := by
  have hsend : s.send r = { s with
      mem := memWrite s.mem (Claims.ownKey s va)
        (setNibble high (memByte s.mem (Claims.ownKey s va)).toNat r.data.toNat) 1 } := by
    unfold State.send
    rw [hr.place, hk]
    dsimp only
    rw [if_pos rfl, hr.whole, heal_clean (by simp), hr.addr, hr.size, poisonPart_clean h.clean, if_neg Bool.false_ne_true,
      writeAt_scratch h.clean]
    rfl
  rw [storeNow_own hr h ha hm Nat.one_pos, hsend]
  exact congrArg _ (advance_alone ha.quiet)

end Piece

/-! ## The stores (R41, R278) -/

section Stores
variable {s : State} {va n : Nat}

/-- The request that a scalar store makes of its piece. -/
def scalarReq (s : State) (v va n : Nat) : Req :=
  { s.storeReq .store false v (ownPiece s.cur (va, n, 0)) with
    lane := BitVec.ofNat 64 (laneOf [(va, n, 0)] (ownPiece s.cur (va, n, 0))) }

theorem storeLanes_scalar (h : Claims.Own s .store va n) (hn : 0 < n) (v : Nat) :
    s.storeLanes false .store [(va, n, 0)] v =
      if s.core.overlapped then s.buffer [[scalarReq s v va n]] State.advance
      else s.ordered fun t => t.storeNow [(va, n, 0)] [ownPiece s.cur (va, n, 0)] [scalarReq s v va n] := by
  have howner : s.remoteOwner (scalarReq s v va n) = none := if_pos rfl
  have hall : ([scalarReq s v va n].all fun r => (s.remoteOwner r).isNone) = true := by simp [howner]
  unfold State.storeLanes
  rw [plan_own_single h hn]
  show (if (s.core.overlapped && [scalarReq s v va n].all fun r => (s.remoteOwner r).isNone) = true
    then s.buffer [[scalarReq s v va n]] State.advance else _) = _
  rw [hall, Bool.and_true]
  rfl

theorem storeLanes_own (ha : Claims.Alone s) (h : Claims.Own s .store va n) (hn : 0 < n) (hn8 : n ≤ 8)
    (hm : s.core.mqueue = []) (v : Nat) :
    (s.core.overlapped = false → s.core.sbuf = [] → s.core.outq = [] →
      s.storeLanes false .store [(va, n, 0)] v =
        .next { Claims.ends s s.core with mem := memWrite s.mem (Claims.ownKey s va) v n }) ∧
    (s.core.overlapped = true → s.core.sbuf.length < 64 →
      ∃ r : Req, s.storeLanes false .store [(va, n, 0)] v = .next (Claims.ends s { s.core with sbuf := s.core.sbuf ++ [[r]] }) ∧
        r.src = s.cur ∧ r.kind = .store ∧ r.place = .scratch s.cur ∧ r.addr = va % 2 ^ 56 ∧ r.size = n ∧
        r.data = BitVec.ofNat 64 (v % 256 ^ n)) := by
  rw [storeLanes_scalar h hn]
  refine ⟨fun hloop hb ho => ?now, fun hloop hroom => ?buffered⟩
  case now =>
    rw [hloop, if_neg Bool.false_ne_true, ordered_calm hloop hb ho]
    exact store_own (ownReq_of_storeReq ha hloop .store false v _) h ha hm hn rfl (storeReq_data .store false v hn8)
  case buffered =>
    refine ⟨scalarReq s v va n, ?_, rfl, rfl, rfl, rfl, rfl, ?_⟩
    · rw [hloop, if_pos rfl, State.buffer, if_pos (.inl hroom)]
      exact congrArg _ (advance_upd_alone (s := s) (f := fun k => { k with sbuf := k.sbuf ++ [[scalarReq s v va n]] })
        ha.quiet rfl)
    · show BitVec.ofNat 64 (v / 256 ^ 0 % 256 ^ n) = _
      rw [pow_zero, Nat.div_one]

theorem store_size {i : Instr} {w : Claims.Store} (hi : Claims.store s i = some w) : 0 < w.n ∧ w.n ≤ 8 := by
  cases i with
  | sb | sh | sw | sd => cases hi; exact ⟨Nat.succ_pos _, Nat.le_of_ble_eq_true rfl⟩
  | _ => cases hi

/-- A ready scalar store that does not reach the engine window is a store of one lane. -/
theorem exec_store_lanes {i : Instr} {w : Claims.Store} (hi : Claims.store s i = some w) (hr : s.core.ready w.names = true)
    (ha : Claims.Alone s) (hw : ¬ InWindow s w.va w.n) : exec i s = s.storeLanes false .store [(w.va, w.n, 0)] w.v := by
  have hscalar {d a : Reg} {da : Dist} {o : BitVec 11} {n : Nat}
      (hr : s.core.ready { ss := [(a, da.toNat), (d, 0)] } = true) (hw : ¬ InWindow s (Claims.address s a da o n) n) :
      s.store d a da o n = s.storeLanes false .store [(Claims.address s a da o n, n, 0)] (s.src d 0).toNat := by
    have hissue := fun body => issue_ready hr ha.mesh body
    unfold State.store
    dsimp only
    rw [ea_eq_address]
    exact (hissue _).trans (if_neg hw)
  cases i with
  | sb | sh | sw | sd =>
    cases hi
    exact hscalar hr hw
  | _ => cases hi

end Stores
end Sys2Proof.Machine

namespace Sys2Proof.Proofs
open Sys2Proof Sys2Proof.Machine

/-- Settles O7: a scalar store of the own scratchpad is a store of one lane, which writes its bytes or enters the buffer. -/
theorem ownStores : Obligations.OwnStores := by
  unfold Obligations.OwnStores
  intro i s w hi hr ha h hm
  obtain ⟨hn, hn8⟩ := store_size hi
  rw [exec_store_lanes hi hr ha (not_inWindow_own h hn)]
  exact storeLanes_own ha h hn hn8 hm w.v

end Sys2Proof.Proofs
end

section
/-! SUPPORT. Ordered accesses and atomics of the own scratchpad (O8, O9), in a core that has nothing under way. -/

namespace Sys2Proof.Machine
open Sys2Proof

section Settled
variable {s : State} {va n : Nat}

theorem aligned_settled (hs : Claims.Settled s) (h : va % n = 0) (body : State → Out) : s.aligned va n body = body s := by
  rw [State.aligned, if_neg (not_not_intro h), ordered_settled hs]

theorem aligned_misaligned (h : va % n ≠ 0) (body : State → Out) :
    s.aligned va n body = s.trap 0x240#10 (BitVec.ofNat 64 va) := if_pos h

/-- An access to the own scratchpad waits for nothing. -/
theorem alignedPiece_own (hs : Claims.Settled s) (halign : va % n = 0) {acc : Access} (h : Claims.Own s acc va n) (hn : 0 < n)
    (body : State → Piece → Out) :
    (s.aligned va n fun t => t.onePiece acc va n body) = body s (ownPiece s.cur (va, n, 0)) := by
  rw [aligned_settled hs halign, onePiece_own h hn]

theorem routine_isSome (ha : Claims.Alone s) : s.core.routine.isSome = false := by
  obtain ⟨-, -, -, hroutine⟩ := ha.quiet
  rw [hroutine]
  rfl

theorem bytesOf_eq (z : Size) : Size.bytes z = Claims.bytesOf z := by cases z <;> rfl

/-! ## LDA (R250, R280) -/

/-- What an acquire forgets is neither memory nor the store buffer. -/
theorem ownBytes_forgets (hs : Claims.Settled s) (x : Scope) (off n : Nat) :
    Claims.ownBytes (Claims.forgets s x) off n = memRead s.mem (scratchKey s.cur off) n := by
  unfold Claims.forgets
  split
  · exact ownBytes_unbuffered hs.buffer n off
  · exact ownBytes_unbuffered (s := { s with core := { s.core with l1d := [] } }) hs.buffer n off

theorem forgets_cur (s : State) (x : Scope) : (Claims.forgets s x).cur = s.cur := by
  unfold Claims.forgets
  split <;> rfl

theorem forgets_pc (s : State) (x : Scope) : (Claims.forgets s x).core.pc = s.core.pc := by
  unfold Claims.forgets
  split <;> rfl

variable {d a : Reg} {da : Dist} {z : Size} {x : Scope}

theorem lda_own (ha : Claims.Alone s) (hs : Claims.Settled s) (hr : s.core.ready (Claims.reads [(a, da)] d) = true)
    (halign : (s.src a da.toNat).toNat % Claims.bytesOf z = 0)
    (h : Claims.Own s .load (s.src a da.toNat).toNat (Claims.bytesOf z)) :
    execLda d a da z x s =
      .next (Claims.ends (Claims.forgets s x)
        ((Claims.forgets s x).core.writeS d
          (BitVec.ofNat 64 (memRead s.mem (Claims.ownKey s (s.src a da.toNat).toNat) (Claims.bytesOf z))))) := by
  have hn := bytesOf_pos z
  have hissue := fun body => issue_ready hr ha.mesh body
  have hclean := poisonedLoad_own (r := ((s.src a da.toNat).toNat, Claims.bytesOf z, 0)) h
  have hplace : ∀ p ∈ [ownPiece s.cur ((s.src a da.toNat).toNat, Claims.bytesOf z, 0)],
      p.place = .scratch (Claims.forgets s x).cur := by
    rw [forgets_cur]
    exact List.forall_mem_singleton.mpr rfl
  have hvalue : 0 + ([ownPiece s.cur ((s.src a da.toNat).toNat, Claims.bytesOf z, 0)].map
      (pieceValue (Claims.forgets s x))).sum =
        memRead s.mem (Claims.ownKey s (s.src a da.toNat).toNat) (Claims.bytesOf z) := by
    simp [pieceValue, ownPiece, ownBytes_forgets hs, Claims.ownKey, -Nat.reducePow]
  have hlt : memRead s.mem (Claims.ownKey s (s.src a da.toNat).toNat) (Claims.bytesOf z) < 2 ^ (8 * Claims.bytesOf z) := by
    rw [pow_mul]
    exact memRead_lt ..
  unfold execLda
  dsimp only
  rw [bytesOf_eq, alignedPiece_own hs halign h hn, hclean, if_neg Bool.false_ne_true, watchOwn_own h, acquired_eq_forgets,
    if_neg (by simp [ownPiece]), sendLoads_own hplace, hvalue,
    advance_upd_alone (quiet_deliver (forgets_quiet ha.quiet x) _ _) (deliver_pc _ _ _)]
  refine (hissue _).trans ?_
  rw [Core.deliver, extend_eq_extended, Nat.mod_eq_of_lt hlt]
  rfl

/-! ## STL, STS and STN (R256, R281) -/

theorem unowned_own (strict : Bool) (v : Nat) :
    s.remoteOwner (s.storeReq .store strict v (ownPiece s.cur (va, n, 0))) = none := if_pos rfl

/-- A misaligned address is found before all else (log 31). -/
theorem stl_misaligned (ha : Claims.Alone s) (hr : s.core.ready { ss := [(a, da.toNat), (d, 0)] } = true)
    (halign : (s.src a da.toNat).toNat % Claims.bytesOf z ≠ 0) :
    execStl d a da z x s = s.trap 0x240#10 (s.src a da.toNat) := by
  have hissue := fun body => issue_ready hr ha.mesh body
  unfold execStl
  dsimp only
  rw [bytesOf_eq, aligned_misaligned halign, BitVec.ofNat_toNat, BitVec.setWidth_eq]
  exact hissue _

theorem lda_misaligned (ha : Claims.Alone s) (hr : s.core.ready (Claims.reads [(a, da)] d) = true)
    (halign : (s.src a da.toNat).toNat % Claims.bytesOf z ≠ 0) : execLda d a da z x s = s.trap 0x240#10 (s.src a da.toNat) := by
  have hissue := fun body => issue_ready hr ha.mesh body
  unfold execLda
  dsimp only
  rw [bytesOf_eq, aligned_misaligned halign, BitVec.ofNat_toNat, BitVec.setWidth_eq]
  exact hissue _

theorem sts_misaligned (ha : Claims.Alone s) (hr : s.core.ready { ss := [(a, da.toNat), (d, 0)] } = true)
    (hheld : s.core.held = none) (halign : (s.src a da.toNat).toNat % Claims.bytesOf z ≠ 0) :
    execSts d a da z x s = s.trap 0x240#10 (s.src a da.toNat) := by
  have hissue := fun body => issue_ready hr ha.mesh body
  unfold execSts
  dsimp only
  rw [bytesOf_eq, hheld]
  dsimp only
  rw [aligned_misaligned halign, BitVec.ofNat_toNat, BitVec.setWidth_eq]
  exact hissue _

section Store
variable (ha : Claims.Alone s) (hs : Claims.Settled s)
include ha hs

/-- The store of one piece that an ordered store makes. -/
theorem storeReq_own (h : Claims.Own s .store va n) (hn : 0 < n) (hn8 : n ≤ 8) (strict : Bool) (v : Nat) :
    s.storeNow [(va, n, 0)] [ownPiece s.cur (va, n, 0)] [s.storeReq .store strict v (ownPiece s.cur (va, n, 0))] =
      .next { Claims.ends s s.core with mem := memWrite s.mem (Claims.ownKey s va) v n } :=
  store_own (ownReq_of_storeReq ha hs.loop .store strict v _) h ha hs.queue hn rfl (storeReq_data .store strict v hn8)

variable (hr : s.core.ready { ss := [(a, da.toNat), (d, 0)] } = true)
include hr

theorem stl_own (halign : (s.src a da.toNat).toNat % Claims.bytesOf z = 0)
    (h : Claims.Own s .store (s.src a da.toNat).toNat (Claims.bytesOf z)) :
    execStl d a da z x s =
      .next { Claims.ends s s.core with
        mem := memWrite s.mem (Claims.ownKey s (s.src a da.toNat).toNat) (s.src d 0).toNat (Claims.bytesOf z) } := by
  have hissue := fun body => issue_ready hr ha.mesh body
  unfold execStl
  dsimp only
  rw [bytesOf_eq, alignedPiece_own hs halign h (bytesOf_pos z), routine_isSome ha, if_neg Bool.false_ne_true, unowned_own,
    Option.isSome_none, Bool.false_and, if_neg Bool.false_ne_true, released_settled hs]
  exact (hissue _).trans (storeReq_own ha hs h (bytesOf_pos z) (bytesOf_le z) _ _)

theorem sts_own (hheld : s.core.held = none) (halign : (s.src a da.toNat).toNat % Claims.bytesOf z = 0)
    (h : Claims.Own s .store (s.src a da.toNat).toNat (Claims.bytesOf z)) :
    execSts d a da z x s =
      .next { Claims.ends s s.core with
        mem := memWrite s.mem (Claims.ownKey s (s.src a da.toNat).toNat) (s.src d 0).toNat (Claims.bytesOf z) } := by
  have hissue := fun body => issue_ready hr ha.mesh body
  unfold execSts
  dsimp only
  rw [bytesOf_eq, hheld]
  dsimp only
  rw [alignedPiece_own hs halign h (bytesOf_pos z), routine_isSome ha, if_neg Bool.false_ne_true,
    interlocked_idle hs.queue, if_neg Bool.false_ne_true,
    if_pos (by rfl)]
  exact (hissue _).trans (storeReq_own ha hs h (bytesOf_pos z) (bytesOf_le z) _ _)

/-- The byte that STN leaves. -/
theorem stn_own (high : BitVec 1) (h : Claims.Own s .store (s.src a da.toNat).toNat 1) :
    execStn d a da x high s =
      .next { Claims.ends s s.core with
        mem := memSet (Claims.ownKey s (s.src a da.toNat).toNat)
          (BitVec.ofNat 8 (setNibble (high == 1#1) (memByte s.mem (Claims.ownKey s (s.src a da.toNat).toNat)).toNat
            ((s.src d 0).toNat % 16))) s.mem } := by
  have hissue := fun body => issue_ready hr ha.mesh body
  have hnibble := nibble_own (ownReq_of_storeReq ha hs.loop (.nibble (high == 1#1)) false ((s.src d 0).toNat % 16)
    (BitVec.ofNat 64 (s.src a da.toNat).toNat)) h ha hs.queue rfl
  have hdata := storeReq_data (s := s) (va := (s.src a da.toNat).toNat) (n := 1) (.nibble (high == 1#1)) false
    ((s.src d 0).toNat % 16) (by decide)
  have hsmall : (s.src d 0).toNat % 16 % 256 ^ 1 = (s.src d 0).toNat % 16 := by omega
  unfold execStn
  dsimp only
  rw [ordered_settled hs, onePiece_own h Nat.one_pos]
  refine (hissue _).trans (hnibble.trans ?_)
  rw [hdata, hsmall]
  rfl

end Store

/-! ## Atomics (R282, R283) -/

/-- The operation of an atomic on numbers of its size (R282, R283). -/
def amoFn : Instr → Nat
  | .amoswp .. => 0
  | .amoadd .. => 1
  | .amoand .. => 2
  | .amoor .. => 3
  | .amoxor .. => 4
  | .amomin .. => 5
  | .amomax .. => 6
  | .amominu .. => 7
  | .amomaxu .. => 8
  | .cas .. => 9
  | .amofadd .. => 10
  | _ => 11

theorem exec_atomic {i : Instr} {y : Claims.Atomic} (hi : Claims.atomic i = some y) :
    exec i s = s.amo (amoFn i) y.n y.d y.a y.b y.order y.scope ∧ (y.n = 4 ∨ y.n = 8) := by
  have hbytes (z : Wide) : Wide.bytes z = Claims.wideBytes z := by cases z <;> rfl
  have hwide (z : Wide) : Claims.wideBytes z = 4 ∨ Claims.wideBytes z = 8 := by cases z <;> simp [Claims.wideBytes]
  cases i with
  | amofadd => cases hi; exact ⟨rfl, .inl rfl⟩
  | amoswp d a b o x z | amoadd d a b o x z | amoand d a b o x z | amoor d a b o x z | amoxor d a b o x z
  | amomin d a b o x z | amomax d a b o x z | amominu d a b o x z | amomaxu d a b o x z | cas d a b o x z
  | amoinc d a b o x z => cases hi; exact ⟨congrArg (s.amo _ · d a b o x) (hbytes z), hwide z⟩
  | _ => cases hi

/-- The new value, for operands of the atomic's size. -/
theorem amoNew_eq {i : Instr} {y : Claims.Atomic} (hi : Claims.atomic i = some y) {old c : Nat} (e : Nat)
    (ho : old < 2 ^ (8 * y.n)) (hc : c < 2 ^ (8 * y.n)) :
    amoNew (amoFn i) y.n old c e = y.new old c e := by
  have hswap {α β : Type} [LinearOrder β] (p q : β) (u v : α) : (if p ≤ q then u else v) = if q < p then v else u := by
    rcases le_or_gt p q with h | h
    · rw [if_pos h, if_neg h.not_gt]
    · rw [if_neg h.not_ge, if_pos h]
  cases i with
  | amomin => cases hi; exact hswap (sint old _) (sint c _) old c
  | amominu => cases hi; exact (min_def old c).trans (hswap old c old c)
  | amomax d a b o x z =>
    cases hi
    refine ite_le_eq_ite_lt fun heq => ?_
    have hbits := congrArg BitVec.toNat (BitVec.toInt_inj.mp heq)
    rw [BitVec.toNat_ofNat, BitVec.toNat_ofNat, Nat.mod_eq_of_lt ho, Nat.mod_eq_of_lt hc] at hbits
    exact hbits.symm
  | amomaxu => cases hi; exact (max_def old c).trans (ite_le_eq_ite_lt fun h => h.symm)
  | amoinc d a b o x z =>
    cases hi
    show (if c ≤ old then 0 else (old + 1) % 2 ^ (8 * Claims.wideBytes z)) = if c ≤ old then 0 else old + 1
    dsimp only at hc
    split_ifs with hle
    · rfl
    · exact Nat.mod_eq_of_lt (by omega)
  | amofadd | amoswp | amoadd | amoand | amoor | amoxor | cas => cases hi; rfl
  | _ => cases hi

theorem forgets_mem (s : State) (x : Scope) (m : List Host.Cell) :
    Claims.forgets { s with mem := m } x = { Claims.forgets s x with mem := m } := by
  unfold Claims.forgets
  split <;> rfl

section Atomic
variable {fn : Nat} {o : Order} {b : Reg}

/-- What the roles of an atomic forget. -/
def roles (s : State) (o : Order) (x : Scope) : State := if Claims.acquires o then Claims.forgets s x else s

theorem roles_mem (s : State) (o : Order) (x : Scope) (m : List Host.Cell) :
    roles { s with mem := m } o x = { roles s o x with mem := m } := by
  unfold roles
  rw [forgets_mem]
  split <;> rfl

theorem roles_quiet (h : s.core.quiet) (o : Order) (x : Scope) : (roles s o x).core.quiet := by
  unfold roles
  split
  · exact forgets_quiet h x
  · exact h

theorem acquired_eq_roles (s : State) (o : Order) (x : Scope) :
    (if Order.acquires o then s.acquired x else s) = roles s o x := by
  have hacquires : Order.acquires o = Claims.acquires o := by cases o <;> rfl
  rw [roles, hacquires, acquired_eq_forgets]

/-- An atomic performed on the own scratchpad at once. -/
theorem amoOwn_own (ha : Claims.Alone s) (h : Claims.Own s .atomic va n) (r : Req) :
    s.amoOwn fn n r (ownPiece s.cur (va, n, 0)) d x o =
      .next { Claims.ends (roles s o x)
          ((roles s o x).core.writeS d (BitVec.ofNat 64 (memRead s.mem (Claims.ownKey s va) n))) with
        mem := memWrite s.mem (Claims.ownKey s va)
          (amoNew fn n (memRead s.mem (Claims.ownKey s va) n) r.data.toNat r.cmp.toNat) n } := by
  have hclean : s.poisonIn (scratchKey s.cur (ownPiece s.cur (va, n, 0)).addr) n = false := h.clean
  have hend (m : List Host.Cell) (v : Word) :
      (({ roles s o x with mem := m } : State).setS d v).advance =
        { Claims.ends (roles s o x) ((roles s o x).core.writeS d v) with mem := m } :=
    advance_upd_alone (s := { roles s o x with mem := m }) (f := fun k => k.writeS d v)
      (quiet_writeS (roles_quiet ha.quiet o x) d v) (Core.writeS_pc ..)
  unfold State.amoOwn
  dsimp only
  rw [hclean, if_neg Bool.false_ne_true, watchOwn_own h, writeAt_scratch hclean, acquired_eq_roles, roles_mem, hend]
  rfl

variable (ha : Claims.Alone s)
  (hr : s.core.ready { ss := [(a, 0), (b, 0), (d, 0)], ds := [d] } = true) (hheld : s.core.held = none)
include ha hr hheld

theorem amo_misaligned (halign : (s.src a 0).toNat % n ≠ 0) : s.amo fn n d a b o x = s.trap 0x240#10 (s.src a 0) := by
  have hissue := fun body => issue_ready hr ha.mesh body
  unfold State.amo
  rw [hheld]
  dsimp only
  rw [aligned_misaligned halign, BitVec.ofNat_toNat, BitVec.setWidth_eq]
  exact hissue _

theorem amo_own (hs : Claims.Settled s) (hn : 0 < n) (hn8 : n ≤ 8) (halign : (s.src a 0).toNat % n = 0)
    (h : Claims.Own s .atomic (s.src a 0).toNat n) :
    s.amo fn n d a b o x =
      .next { Claims.ends (roles s o x)
          ((roles s o x).core.writeS d (BitVec.ofNat 64 (memRead s.mem (Claims.ownKey s (s.src a 0).toNat) n))) with
        mem := memWrite s.mem (Claims.ownKey s (s.src a 0).toNat)
          (amoNew fn n (memRead s.mem (Claims.ownKey s (s.src a 0).toNat) n) ((s.src b 0).toNat % 2 ^ (8 * n))
            ((s.src d 0).toNat % 2 ^ (8 * n))) n } := by
  have hissue := fun body => issue_ready hr ha.mesh body
  have hword (v : Nat) : (BitVec.ofNat 64 (v % 2 ^ (8 * n))).toNat = v % 2 ^ (8 * n) := by
    rw [pow_mul]
    exact toNat_word_mod hn8 v
  unfold State.amo
  rw [hheld]
  dsimp only
  rw [alignedPiece_own hs halign h hn, if_neg (by simp [ownPiece]), interlocked_idle hs.queue, if_neg Bool.false_ne_true,
    released_settled hs, ite_self, if_pos (by rfl), amoOwn_own ha h]
  refine (hissue _).trans ?_
  dsimp only
  rw [hword, hword]

end Atomic
end Settled
end Sys2Proof.Machine

namespace Sys2Proof.Proofs
open Sys2Proof Sys2Proof.Machine

/-- Settles O8: in a core that has nothing under way each of them is one access of one piece, performed at once. -/
theorem orderedAccesses : Obligations.OrderedAccesses := by
  unfold Obligations.OrderedAccesses
  intro s ha hs hheld
  refine ⟨fun d a da z x hr => ⟨fun halign h => lda_own ha hs hr halign h, fun halign => lda_misaligned ha hr halign⟩,
    fun i w hi hr => ?stores, fun d a da x high hr => ?nibble⟩
  case stores =>
    cases i with
    | stl d a da z x =>
      cases hi
      exact ⟨fun halign h => stl_own ha hs hr halign h, fun halign => (stl_misaligned ha hr halign).trans (by simp)⟩
    | sts d a da z x =>
      cases hi
      exact ⟨fun halign h => sts_own ha hs hr hheld halign h,
        fun halign => (sts_misaligned ha hr hheld halign).trans (by simp)⟩
    | _ => cases hi
  case nibble =>
    intro va b q h
    refine (stn_own (x := x) ha hs hr high h).trans ?_
    have hbyte : setNibble (high == 1#1) b q = if high = 1#1 then b % 16 + 16 * q else b / 16 * 16 + q := by
      have hq : q % 16 = q := Nat.mod_mod _ _
      simp only [setNibble, beq_iff_eq, hq, Nat.mul_comm q 16]
    rw [← hbyte]

/-- Settles O9: an atomic on the own scratchpad is performed at once, and its operation on numbers of its size is that of the
claim. -/
theorem ownAtomics : Obligations.OwnAtomics := by
  unfold Obligations.OwnAtomics
  intro i s y hi ha hs hheld hr
  obtain ⟨hexec, hsize⟩ := exec_atomic (s := s) hi
  have hn : 0 < y.n ∧ y.n ≤ 8 := by omega
  dsimp only
  rw [hexec]
  refine ⟨fun halign h => ?_, fun halign => amo_misaligned ha hr hheld halign⟩
  have hpos : 0 < 2 ^ (8 * y.n) := by positivity
  have hold : memRead s.mem (Claims.ownKey s (s.src y.a 0).toNat) y.n < 2 ^ (8 * y.n) := by
    rw [pow_mul]
    exact memRead_lt ..
  rw [amo_own ha hr hheld hs hn.1 hn.2 halign h, amoNew_eq hi _ hold (Nat.mod_lt _ hpos)]
  rfl

end Sys2Proof.Proofs
end

section
/-! SUPPORT. The state after reset (O51): every core is the idle core, whose names and masks read their values at power-on. -/

namespace Sys2Proof.Machine
open Sys2Proof

theorem getCore_reset (c : CoreId) : State.reset.getCore c = {} := ite_self _

/-- No name of the idle core is written or carried: it has one version, which reads zero. -/
theorem idle_scalar (r : Reg) :
    ({} : Core).sval r = 0#64 ∧ (({} : Core).sver r).depth = 1 ∧ ({} : Core).fullS r = true := by
  refine ⟨?_, rfl, Bool.or_true _⟩
  rw [Core.sval, Core.srcS]
  split <;> rfl

theorem idle_mask (r : KReg) : ({} : Core).mask r = if r = 0#3 then 0xFFFFFFFFFFFFFFFF#64 else 0#64 := rfl

end Sys2Proof.Machine

namespace Sys2Proof.Proofs
open Sys2Proof Sys2Proof.Machine

/-- Settles O51: the tables of the state are empty, and each core is the idle core. -/
theorem resetState : Obligations.ResetState := by
  unfold Obligations.ResetState
  refine ⟨rfl, rfl, rfl, rfl, rfl, rfl, rfl, rfl, rfl, rfl, wf_nil, fun _ => rfl, fun _ => rfl, fun _ => ⟨rfl, rfl, rfl⟩,
    fun c => ?cores⟩
  case cores =>
    rw [getCore_reset]
    exact ⟨rfl, rfl, rfl, rfl, rfl, rfl, rfl, rfl, rfl, rfl, rfl, idle_scalar, fun _ => ⟨rfl, rfl⟩, idle_mask 0#3,
      fun r hr => (idle_mask r).trans (if_neg hr)⟩

end Sys2Proof.Proofs
end

section
/-! SUPPORT. Loads and stores outside the own scratchpad (O60): the one piece of their plan, and the request that leaves. -/

namespace Sys2Proof.Machine
open Sys2Proof

/-! ## The plan of one piece (R215, R275) -/

section Plan
variable {s : State} {acc : Access} {va n : Nat} {p : Piece}

theorem join_nil (x : Plan) : (Plan.go []).join x = x := by cases x <;> rfl

theorem plan_single (x : Nat × Nat × Nat) : s.plan acc [x] = s.planOne acc x := join_nil _

/-- A part that can go on is one piece, where its address leads. -/
theorem planPart_go {base off len : Nat} {l : List Piece} (h : s.planPart acc va base off len = .go l) :
    ∃ place addr pte, s.translate acc (va + off) = .ok place addr pte ∧
      l = [{ off := base + off, len := len, va := va + off, place := place, addr := addr, pte := pte }] := by
  unfold State.planPart at h
  split at h
  case h_1 place addr pte htr => exact ⟨place, addr, pte, htr, (Plan.go.inj h).symm⟩
  all_goals cases h

theorem join_go {x y : Plan} {l : List Piece} (h : x.join y = .go l) : ∃ a b, x = .go a ∧ y = .go b ∧ l = a ++ b := by
  cases x <;> cases y <;> simp only [Plan.join] at h <;> try cases h
  · exact ⟨_, _, rfl, rfl, rfl⟩
  · split at h <;> cases h

theorem seal_go {x : Plan} {l : List Piece} (h : x.seal = .go l) : ∃ l', x = .go l' := by
  unfold Plan.seal at h
  split at h
  · exact ⟨_, rfl⟩
  · exact ⟨_, h⟩

/-- The one piece of an access holds all its bytes, at the place that its address leads to. -/
theorem plan_piece (h : s.plan acc [(va, n, 0)] = .go [p]) :
    p.off = 0 ∧ p.len = n ∧ s.translate acc va = .ok p.place p.addr p.pte := by
  rw [plan_single] at h
  unfold State.planOne at h
  dsimp only at h
  rcases splitAccess_cases va n with hsplit | ⟨room, hlt, -, hsplit⟩
  · rw [hsplit, List.foldl_cons, List.foldl_nil, join_nil] at h
    obtain ⟨l, hl⟩ := seal_go h
    obtain ⟨place, addr, pte, htr, rfl⟩ := planPart_go hl
    rw [hl] at h
    cases h
    exact ⟨rfl, rfl, htr⟩
  · rw [hsplit, List.foldl_cons, List.foldl_cons, List.foldl_nil, join_nil] at h
    obtain ⟨l, hl⟩ := seal_go h
    obtain ⟨a, b, ha, hb, rfl⟩ := join_go hl
    obtain ⟨place, addr, pte, htr, rfl⟩ := planPart_go ha
    obtain ⟨place', addr', pte', -, rfl⟩ := planPart_go hb
    rw [hl] at h
    unfold Plan.seal at h
    dsimp only [List.singleton_append] at h
    split at h
    · cases h
      exact ⟨rfl, Nat.add_sub_cancel' hlt.le, htr⟩
    · cases h

/-- No piece lies in the engine window. -/
theorem not_inWindow_plan (h : s.plan acc [(va, n, 0)] = .go [p]) (hacc : acc ≠ .fetch) : ¬ InWindow s va n := by
  rintro ⟨-, -, hle, hlt, hphase⟩
  obtain ⟨-, -, htr⟩ := plan_piece h
  have hmesh : s.core.meshAccess s.cur acc va = false := by
    rw [Core.meshAccess, Option.isNone_iff_eq_none.mp hphase]
    rfl
  unfold windowVa at hle hlt
  unfold State.translate State.aperture at htr
  rw [if_neg (by omega), hmesh, if_neg Bool.false_ne_true, if_pos (by omega)] at htr
  dsimp only at htr
  rw [if_neg (by omega), if_neg (by omega), if_pos ⟨by omega, by omega, hacc⟩] at htr
  cases htr

end Plan

/-! ## The request of a load (R276, R277) -/

section Load
variable {s : State} {p : Piece} (hp : p.place ≠ .scratch s.cur) (hb : s.core.sbuf = [])
  (hline : tfind (p.addr / 128) s.core.l1d = none)
include hp hb hline

/-- The core has nothing of the first byte. -/
theorem localBits_remote (useL1 : Bool) : s.localBits useL1 p.place p.addr = (0, 0) := by
  have hforward : s.core.forward p.place p.addr = (0, 0) := by rw [Core.forward, hb]; rfl
  have hheld : s.heldByte useL1 p.place p.addr = none := by
    unfold State.heldByte
    split
    next c hc => exact if_neg fun h : c = s.cur => hp (h ▸ hc)
    next => rw [hline, Option.map_none, ite_self]
    next => rfl
  unfold State.localBits
  rw [hforward, hheld]
  rfl

/-- So it is not hidden. -/
theorem hiddenPart_remote (useL1 : Bool) (hn : 0 < p.len) : s.hiddenPart useL1 p ≠ 256 ^ p.len - 1 := by
  obtain ⟨m, hm⟩ : ∃ m, p.len = m + 1 := ⟨p.len - 1, by omega⟩
  have hmultiple : 256 ∣ s.hiddenPart useL1 p := by
    unfold State.hiddenPart
    refine List.dvd_sum fun x hx => ?_
    obtain ⟨i, -, rfl⟩ := List.mem_map.mp hx
    cases i with
    | zero => simp [localBits_remote hp hb hline]
    | succ i => exact dvd_mul_of_dvd_right (dvd_pow_self 256 i.succ_ne_zero) _
  have hpos : 0 < 256 ^ m := by positivity
  rw [hm, pow_succ]
  omega

/-- One request leaves for the piece. -/
theorem loadReqs_remote (useL1 : Bool) (kind : ReqKind) (hn : 0 < p.len) (hkind : kind = .load ∨ kind = .ldro) :
    ∃ r, s.loadReqs useL1 kind p = [r] ∧ r.src = s.cur ∧ r.place = p.place ∧ r.addr = p.addr ∧ r.size = p.len ∧
      (r.kind = .load ∨ r.kind = .ldro) := by
  unfold State.loadReqs
  dsimp only
  rw [if_neg (hiddenPart_remote hp hb hline useL1 hn)]
  refine ⟨_, rfl, rfl, rfl, rfl, rfl, ?_⟩
  dsimp only
  split
  · exact hkind
  · exact .inl rfl

end Load

/-- The requests of a state but for whether their lines are kept. -/
def unfilled (l : List Req) : List Req := l.map fun r => { r with fill := false }

theorem noFill_unfilled (s : State) (c : CoreId) (f : Nat → Bool) : unfilled (s.noFill c f).flight = unfilled s.flight := by
  unfold unfilled State.noFill
  rw [List.map_map]
  refine List.map_congr_left fun r _ => ?_
  dsimp only [Function.comp_apply]
  split <;> rfl

/-- What the L1 holds, and which of the requests under way it keeps, is no matter of any other field. -/
theorem passLine_frame (s : State) (line : Nat) :
    s.passLine line =
      { s with
        flight := (s.noFill s.cur fun l => l = line).flight
        answers := (s.noFill s.cur fun l => l = line).answers
        core := { s.core with l1d := terase line s.core.l1d } } := rfl

/-- The lines that the core no longer keeps do not concern its names. -/
theorem emptyS_sregs_l1d (k : Core) (l : Tab (BitVec 1024)) (d : Reg) :
    (({ k with l1d := l } : Core).emptyS d).sregs = (k.emptyS d).sregs := by
  unfold Core.emptyS
  split <;> rfl

/-- The state in which the request of a load has left. -/
def State.loadSent (s : State) (r : Req) (d : Dest) (v : Nat) : State :=
  let t := if decide (r.place = .hbm) && !r.fill then s.passLine (r.addr / 128) else s
  { t with
    core := { t.core.await d with
      pend := s.core.pend ++ [(s.core.nextPend, { dest := d, acc := v, left := 1, acquire := none })]
      nextPend := s.core.nextPend + 1 }
    flight := t.flight ++ [{ r with pend := some s.core.nextPend }] }

section LoadSent
variable (s : State) (r : Req) (d : Reg) (n : Nat) (signed : Bool) (v : Nat)

/-- It keeps memory, all requests before it, and all of the core but its destination. -/
theorem loadSent_frame :
    let t := s.loadSent r (.scalar d n signed) v
    (∃ l', t.flight = l' ++ [{ r with pend := some s.core.nextPend }] ∧ unfilled l' = unfilled s.flight) ∧ t.mem = s.mem ∧
      t.core.pc = s.core.pc ∧ t.core.sregs = (s.core.emptyS d).sregs ∧
      t.core.pend = s.core.pend ++
        [(s.core.nextPend, { dest := .scalar d n signed, acc := v, left := 1, acquire := none })] ∧
      (s.core.quiet → t.core.quiet) := by
  dsimp only
  unfold State.loadSent Core.await
  dsimp only
  rw [emptyS_frame]
  split
  · rw [passLine_frame]
    exact ⟨⟨_, rfl, noFill_unfilled s s.cur fun l => decide (l = r.addr / 128)⟩, rfl, rfl, emptyS_sregs_l1d _ _ _, rfl, id⟩
  · exact ⟨⟨_, rfl, rfl⟩, rfl, rfl, rfl, rfl, id⟩

end LoadSent

/-- A load of one piece that lies elsewhere, of which the core has no copy, sends its request. -/
theorem loadLanes_remote {s : State} {p : Piece} {va n : Nat} (hplan : s.plan .load [(va, n, 0)] = .go [p])
    (hp : p.place ≠ .scratch s.cur) (hb : s.core.sbuf = []) (hline : tfind (p.addr / 128) s.core.l1d = none)
    (hw : s.core.wp = []) (hn : 0 < n) {kind : ReqKind} (hkind : kind = .load ∨ kind = .ldro) (d : Dest) :
    ∃ (r : Req) (v : Nat), s.loadLanes kind [(va, n, 0)] d 0 = .next (s.loadSent r d v).advance ∧
      r.src = s.cur ∧ r.place = p.place ∧ r.addr = p.addr ∧ r.size = n ∧ (r.kind = .load ∨ r.kind = .ldro) := by
  obtain ⟨-, hlen, -⟩ := plan_piece hplan
  obtain ⟨r, hreq, hsrc, hplace, haddr, hsize, hrk⟩ := loadReqs_remote hp hb hline true kind (hlen ▸ hn) hkind
  have hclean : s.poisonedLoad p = false := by
    rw [State.poisonedLoad, decide_eq_false hp, Bool.false_and]
  refine ⟨r, 0 + ([p].map fun p => s.localPart true p * 256 ^ p.off).sum, ?_, hsrc, hplace, haddr, hsize.trans hlen, hrk⟩
  have hreqs : ([p].flatMap fun p => s.loadReqs true kind p) = [r] := by
    rw [List.flatMap_singleton, hreq]
  unfold State.loadLanes
  rw [hplan]
  dsimp only
  rw [List.find?_cons, hclean]
  show Host.Outcome.next ((s.watchPieces _ _).sendLoads true kind [p] d 0 none).advance = _
  rw [watchPieces_none hw]
  unfold State.sendLoads
  rw [hreqs]
  rfl

/-- A load elsewhere. -/
theorem loadsSendRequests : Claims.LoadsSendRequests := by
  unfold Claims.LoadsSendRequests
  intro i s l p hl hr ha hplan hp hb hline hw
  obtain ⟨kind, hkind, hexec⟩ := exec_load_lanes hl hr ha (not_inWindow_plan hplan (by decide))
  obtain ⟨r, v, hsent, hsrc, hplace, haddr, hsize, hrk⟩ :=
    loadLanes_remote hplan hp hb hline hw (load_size_pos hl) hkind (.scalar l.d l.n l.signed)
  obtain ⟨⟨l', hflight, hl'⟩, hmem, hpc, hsregs, hpend, hquiet⟩ := loadSent_frame s r l.d l.n l.signed v
  refine ⟨_, { r with pend := some s.core.nextPend }, l', (hexec.trans hsent).trans (congrArg _ (advance_alone (hquiet ha.quiet))),
    hflight, hl', hsrc, hplace, haddr, hsize, rfl, hrk, hmem, ?_, hsregs, _, hpend, rfl, rfl⟩
  exact congrArg (· + 4#64) hpc

/-! ## The request of a store (R222, R254, R278) -/

section Store
variable {s : State} {p : Piece} {va n : Nat}

/-- The request that a scalar store makes of its piece. -/
def pieceReq (s : State) (v va n : Nat) (p : Piece) : Req :=
  { s.storeReq .store false v p with lane := BitVec.ofNat 64 (laneOf [(va, n, 0)] p) }

/-- Outside overlapped loops a scalar store elsewhere drains its one request. -/
theorem storeLanes_remote (ha : Claims.Alone s) (hplan : s.plan .store [(va, n, 0)] = .go [p]) (hw : s.core.wp = [])
    (hm : s.core.mqueue = []) (hloop : s.core.overlapped = false) (hb : s.core.sbuf = []) (ho : s.core.outq = []) (v : Nat)
    (hfree : s.core.freeEntry = none → s.remoteOwner (pieceReq s v va n p) = none) :
    s.storeLanes false .store [(va, n, 0)] v = .next (s.drain [pieceReq s v va n p]).advance := by
  obtain ⟨-, -, -, hroutine⟩ := ha.quiet
  have hentry : (s.core.freeEntry.isNone && [pieceReq s v va n p].any fun r => (s.remoteOwner r).isSome) = false := by
    cases hf : s.core.freeEntry with
    | none => simp [hfree hf]
    | some e => rfl
  have hnow : s.storeNow [(va, n, 0)] [p] [pieceReq s v va n p] = .next (s.drain [pieceReq s v va n p]).advance := by
    unfold State.storeNow
    rw [hroutine, hentry, State.watchLanes, watchPieces_none hw]
    simp [interlocked_idle hm, State.putStores]
  unfold State.storeLanes
  rw [hplan]
  dsimp only
  rw [hloop, Bool.false_and, if_neg Bool.false_ne_true, ordered_calm hloop hb ho]
  exact hnow

theorem outOfTurn_remote {r : Req} (hp : r.place ≠ .scratch s.cur) : s.outOfTurn r = false := by
  rw [State.outOfTurn, decide_eq_false hp, Bool.false_and]

theorem pieceReq_data (v : Nat) (hoff : p.off = 0) (hlen : p.len = n) :
    (pieceReq s v va n p).data = BitVec.ofNat 64 (v % 256 ^ n) := by
  show BitVec.ofNat 64 (v / 256 ^ p.off % 256 ^ p.len) = _
  rw [hoff, hlen, pow_zero, Nat.div_one]

/-- To the scratchpad of another core the request takes the lowest free journal entry with it (R254). -/
theorem drain_posted {r : Req} {c : CoreId} {e : Nat} (hp : r.place = .scratch c) (hc : c ≠ s.cur)
    (hfree : s.core.freeEntry = some e) :
    s.drain [r] = { s.takeEntry e c r.addr r.size with flight := s.flight ++ [{ r with journal := some e }] } := by
  have hturn : s.outOfTurn r = false := outOfTurn_remote (by rw [hp]; exact fun h => hc (Place.scratch.inj h))
  have howner : s.remoteOwner r = some c := by
    rw [State.remoteOwner, hp]
    exact if_neg hc
  rw [State.drain, hturn, if_neg Bool.false_ne_true, howner]
  dsimp only
  rw [hfree]
  dsimp only
  unfold State.send State.drain
  dsimp only
  rw [hp]
  exact if_neg hc

/-- To HBM, the host or a peer it leaves as it is (R222). -/
theorem drain_global {r : Req} (hp : r.place = .hbm ∨ r.place = .host ∨ r.place = .peer) :
    s.drain [r] = { s.ownLines r with flight := (s.ownLines r).flight ++ [r] } := by
  have hturn : s.outOfTurn r = false := outOfTurn_remote (by rcases hp with h | h | h <;> rw [h] <;> exact Place.noConfusion)
  have howner : s.remoteOwner r = none := by
    rcases hp with h | h | h <;> rw [State.remoteOwner, h]
  rw [State.drain, hturn, if_neg Bool.false_ne_true, howner]
  dsimp only
  unfold State.drain State.send
  rcases hp with h | h | h <;> rw [h]

end Store

/-- A store to the scratchpad of another core. -/
theorem postedStores : Claims.PostedStores := by
  unfold Claims.PostedStores
  intro i s w p c e hi hr ha hplan hp hc hw hm hloop hb ho hfree
  obtain ⟨hoff, hlen, -⟩ := plan_piece hplan
  have hexec := exec_store_lanes hi hr ha (not_inWindow_plan hplan (by decide))
  have hsent := storeLanes_remote ha hplan hw hm hloop hb ho w.v (fun h => absurd (hfree.symm.trans h) (by simp))
  rw [drain_posted (r := pieceReq s w.v w.va w.n p) hp hc hfree] at hsent
  refine ⟨_, { pieceReq s w.v w.va w.n p with journal := some e }, (hexec.trans hsent).trans (congrArg _ (advance_alone ?_)),
    rfl, rfl, rfl, rfl, hp, rfl, hlen, rfl, rfl,
    pieceReq_data (s := s) (va := w.va) w.v hoff hlen, ?_, ?_⟩
  · exact ha.quiet
  · show tget e (tset e (journalWord 1 p.len c p.addr) s.core.journal) 0#32 = _
    rw [tget_tset_same, journalWord, hlen, Nat.one_mul]
  · intro j hj
    show tget j (tset e (journalWord 1 p.len c p.addr) s.core.journal) 0#32 = _
    exact tget_tset_of_ne hj _ _ _

/-! ## The L1 copy of a line that a store writes (R222) -/

/-- Clearing m bits from bit k on leaves the bits above them and those below. -/
theorem sub_and_field (x k m : Nat) :
    x - (x &&& (2 ^ m - 1) * 2 ^ k) = x / 2 ^ (k + m) * 2 ^ (k + m) + x % 2 ^ k := by
  have hfield : x &&& (2 ^ m - 1) * 2 ^ k = x / 2 ^ k % 2 ^ m * 2 ^ k := by
    rw [← Nat.shiftLeft_eq, ← Nat.shiftLeft_eq, ← Nat.shiftRight_eq_div_pow, ← Nat.and_two_pow_sub_one_eq_mod]
    apply Nat.eq_of_testBit_eq
    intro i
    simp only [Nat.testBit_and, Nat.testBit_shiftLeft, Nat.testBit_shiftRight]
    by_cases hi : k ≤ i
    · simp [hi, Nat.add_sub_cancel' hi]
    · simp [hi]
  have hhigh : x / 2 ^ k / 2 ^ m = x / 2 ^ (k + m) := by rw [Nat.div_div_eq_div_mul, pow_add]
  have hlow := Nat.div_add_mod x (2 ^ k)
  have hmid := Nat.div_add_mod (x / 2 ^ k) (2 ^ m)
  rw [hhigh] at hmid
  have hsplit : x = (x / 2 ^ (k + m) * 2 ^ (k + m) + x % 2 ^ k) + x / 2 ^ k % 2 ^ m * 2 ^ k := by
    calc x = 2 ^ k * (x / 2 ^ k) + x % 2 ^ k := hlow.symm
      _ = 2 ^ k * (2 ^ m * (x / 2 ^ (k + m)) + x / 2 ^ k % 2 ^ m) + x % 2 ^ k := by rw [hmid]
      _ = _ := by rw [pow_add]; ring
  rw [hfield]
  omega

/-- The line reads as the store's value at its bytes, and it was in the L1 before. -/
theorem l1Update_line {l : Tab (BitVec 1024)} {addr n : Nat} (v : Nat) (hfit : addr % 128 + n ≤ 128) {x : BitVec 1024}
    (hx : tfind (addr / 128) (l1Update l addr n v) = some x) :
    tfind (addr / 128) l ≠ none ∧ lineRead x (addr % 128) n = v % 2 ^ (8 * n) := by
  unfold l1Update at hx
  cases hl : tfind (addr / 128) l with
  | none => rw [hl] at hx; exact absurd (hl.symm.trans hx) (by simp)
  | some y =>
    rw [hl] at hx
    dsimp only at hx
    rw [tfind_tset_same] at hx
    obtain rfl := Option.some.inj hx
    refine ⟨by simp, ?_⟩
    obtain ⟨k, hk⟩ : ∃ k, k = 8 * (addr % 128) := ⟨_, rfl⟩
    obtain ⟨m, hm⟩ : ∃ m, m = 8 * n := ⟨_, rfl⟩
    have hdvd : 2 ^ k * 2 ^ m ∣ 2 ^ 1024 := by
      rw [← pow_add]
      exact pow_dvd_pow 2 (by omega)
    have hlow : (y.toNat / 2 ^ (k + m) * 2 ^ (k + m) + y.toNat % 2 ^ k + v % 2 ^ m * 2 ^ k) % (2 ^ k * 2 ^ m) =
        y.toNat % 2 ^ k + v % 2 ^ m * 2 ^ k := by
      have hk0 := Nat.mod_lt y.toNat (show 0 < 2 ^ k by positivity)
      have hv : v % 2 ^ m * 2 ^ k + 2 ^ k ≤ 2 ^ k * 2 ^ m := by
        have hlt : v % 2 ^ m + 1 ≤ 2 ^ m := Nat.mod_lt v (by positivity)
        calc v % 2 ^ m * 2 ^ k + 2 ^ k = (v % 2 ^ m + 1) * 2 ^ k := by ring
          _ ≤ 2 ^ m * 2 ^ k := Nat.mul_le_mul_right _ hlt
          _ = 2 ^ k * 2 ^ m := Nat.mul_comm _ _
      rw [pow_add, Nat.add_assoc, Nat.mul_comm (y.toNat / _), Nat.mul_add_mod]
      exact Nat.mod_eq_of_lt (by omega)
    have hpos : 0 < 2 ^ k := by positivity
    unfold lineRead
    rw [← hk, ← hm, sub_and_field, BitVec.toNat_ofNat, ← Nat.mod_mul_right_div_self, Nat.mod_mod_of_dvd _ hdvd, hlow,
      Nat.add_mul_div_right _ _ hpos, Nat.div_eq_of_lt (Nat.mod_lt _ hpos), Nat.zero_add]

section Global
variable (s : State) (r : Req)

/-- A store of the core changes lines alone before it leaves. -/
theorem ownLines_effect :
    unfilled (s.ownLines r).flight = unfilled s.flight ∧ (s.ownLines r).mem = s.mem ∧
      (s.ownLines r).core = { s.core with l1d := (s.ownLines r).core.l1d, l1i := (s.ownLines r).core.l1i } ∧
      (r.place = .hbm → r.kind = .store → (s.ownLines r).core.l1d = l1Update s.core.l1d r.addr r.size r.data.toNat) := by
  unfold State.ownLines
  split
  · refine ⟨noFill_unfilled s s.cur fun l => decide (l = r.addr / 128), rfl, rfl, fun _ hk => ?_⟩
    dsimp only
    rw [Req.inL1, hk]
    rfl
  case isFalse hp => exact ⟨rfl, rfl, rfl, fun h => absurd h hp⟩

end Global

/-- A store to HBM, a host frame or a peer. -/
theorem storesSendRequests : Claims.StoresSendRequests := by
  unfold Claims.StoresSendRequests
  intro i s w p hi hr ha hplan hp hw hm hloop hb ho
  obtain ⟨hn, hn8⟩ := store_size hi
  obtain ⟨hoff, hlen, -⟩ := plan_piece hplan
  have hexec := exec_store_lanes hi hr ha (not_inWindow_plan hplan (by decide))
  have howner : s.remoteOwner (pieceReq s w.v w.va w.n p) = none := by
    show (match p.place with | .scratch c => if c = s.cur then none else some c | _ => none) = none
    rcases hp with h | h | h <;> rw [h]
  have hsent := storeLanes_remote ha hplan hw hm hloop hb ho w.v fun _ => howner
  have hdata := pieceReq_data (s := s) (va := w.va) w.v hoff hlen
  obtain ⟨hflight, hmem, hcore, hline⟩ := ownLines_effect s (pieceReq s w.v w.va w.n p)
  have hquiet : (s.ownLines (pieceReq s w.v w.va w.n p)).core.quiet := by
    rw [hcore]
    exact ha.quiet
  rw [drain_global hp, advance_alone (s := { s.ownLines (pieceReq s w.v w.va w.n p) with
    flight := (s.ownLines (pieceReq s w.v w.va w.n p)).flight ++ [pieceReq s w.v w.va w.n p] }) hquiet] at hsent
  refine ⟨_, pieceReq s w.v w.va w.n p, _, hexec.trans hsent, ?_, hmem, rfl, hflight, rfl, rfl, rfl, hlen, rfl, rfl, hdata, ?_, ?_,
    fun hhbm hfit x hx => ?_⟩
  · exact congrArg (·.pc + 4#64) hcore
  · exact congrArg (·.journal) hcore
  · exact congrArg (·.sregs) hcore
  · have hx' : tfind (p.addr / 128) (l1Update s.core.l1d p.addr p.len (pieceReq s w.v w.va w.n p).data.toNat) = some x := by
      have heq := hline hhbm rfl
      exact heq ▸ hx
    obtain ⟨hbefore, hread⟩ := l1Update_line _ (hlen.symm ▸ hfit) hx'
    refine ⟨hbefore, ?_⟩
    rw [hlen, hdata, toNat_word_mod hn8, pow_mul] at hread
    exact hread.trans (Nat.mod_mod _ _)

end Sys2Proof.Machine

namespace Sys2Proof.Proofs
open Sys2Proof Sys2Proof.Machine

/-- Settles O60. -/
theorem remoteAccesses : Obligations.RemoteAccesses := ⟨loadsSendRequests, postedStores, storesSendRequests⟩

end Sys2Proof.Proofs
end

section
/-! SUPPORT. Every operation of the model keeps memory in its canonical form: addresses rising strictly, no cell listed that
holds what an unlisted address reads as. The lemmas go from the operations on the state up to a step, one per function of the
model that gives back a state, in the order of the model's text; they extend the layer of Laws/Ops. -/

namespace Sys2Proof.Machine

open Sys2Proof

/-! ### What keeping memory's form means for each kind of result -/

theorem foldl_memWf {α : Type} {f : State → α → State} {l : List α} {s : State}
    (hf : ∀ t a, t.MemWf → (f t a).MemWf) (h : s.MemWf) : (l.foldl f s).MemWf :=
  foldl_keeps State.MemWf f hf l s h

theorem memWf_of_same {s t : State} (h : s.MemWf) (e : t.mem = s.mem) : t.MemWf := memWf_of_eq e h

theorem respond_mem (s : State) (status : Nat) (results : List Word) : (s.respond status results).mem = s.mem := rfl

/-- What an optional result holds, as far as it is a state, has its memory in canonical form. -/
def Yields {α : Type} (proj : α → State) (o : Option α) : Prop := ∀ x, o = some x → (proj x).MemWf

theorem yields_none {α : Type} {proj : α → State} : Yields proj none := fun _ e => nomatch e

theorem yields_some {α : Type} {proj : α → State} {x : α} (h : (proj x).MemWf) : Yields proj (some x) := fun _ e =>
  Option.some.inj e ▸ h

theorem memWf_fst {α : Type} {p : State × α} {t : State} {a : α} (e : p = (t, a)) (h : p.1.MemWf) : t.MemWf := by
  rw [e] at h
  exact h

theorem memWf_snd {α : Type} {p : α × State} {t : State} {a : α} (e : p = (a, t)) (h : p.2.MemWf) : t.MemWf := by
  rw [e] at h
  exact h

/-- The state in a fetch's result has its memory in canonical form. -/
def Fetched.Keeps : Fetched → Prop
  | .word _ t | .trap _ t | .charged t => t.MemWf
  | .miss | .wait => True

/-- The state in the result of a job's accesses has its memory in canonical form. -/
def PartRes.Keeps : PartRes → Prop
  | .ok t _ | .fail _ t | .poison t _ | .stuck t _ => t.MemWf

/-- The state in a job's result has its memory in canonical form. -/
def JobRes.Keeps : JobRes → Prop
  | .done t | .fail _ t | .poison t | .onward t => t.MemWf
  | .wait => True

/-- The state in the result of a job's read has its memory in canonical form. -/
def ReadRes.Keeps : ReadRes → Prop
  | .ok _ t | .poison t => t.MemWf
  | .fail _ | .wait => True

/-- The state that comes with a job's next bead has its memory in canonical form. -/
def NextBead.Keeps : NextBead → Prop
  | .bead _ _ t | .fail _ t | .poison t => t.MemWf
  | .finished | .wait => True

theorem Fetched.keeps_of_eq {r q : Fetched} (e : r = q) (h : r.Keeps) : q.Keeps := e ▸ h
theorem PartRes.keeps_of_eq {r q : PartRes} (e : r = q) (h : r.Keeps) : q.Keeps := e ▸ h
theorem JobRes.keeps_of_eq {r q : JobRes} (e : r = q) (h : r.Keeps) : q.Keeps := e ▸ h
theorem ReadRes.keeps_of_eq {r q : ReadRes} (e : r = q) (h : r.Keeps) : q.Keeps := e ▸ h
theorem NextBead.keeps_of_eq {r q : NextBead} (e : r = q) (h : r.Keeps) : q.Keeps := e ▸ h

/-! ### The state's own operations (`Sys2Proof/Machine/State.lean`) -/

theorem reset_memWf : State.reset.MemWf := wf_nil

/-! ### Entries of the future table (`Sys2Proof/Machine/Fut.lean`) -/

theorem countHbm_memWf {s : State} {ctx : Nat} (h : s.MemWf) : (s.countHbm ctx).MemWf := by
  unfold State.countHbm
  refine memWf_of_eq (countCtx_mem _ _ _ _) ?_
  refine memWf_of_eq (countCtx_mem _ _ _ _) ?_
  exact h

/-! ### Operations that instructions share (`Sys2Proof/Machine/Ops.lean`) -/

theorem keeps_onNext {f : State → State} {a1 : Out} (hf : ∀ (a : State), a.MemWf → (f a).MemWf) (ha1 : Keeps a1) :
    Keeps (onNext f a1) := by
  unfold onNext
  split
  · exact keeps_next (hf _ (ha1 _ rfl))
  · exact ha1

theorem mapCtx_memWf {s : State} {n : Nat} {f : Context → Context} (h : s.MemWf) : (s.mapCtx n f).MemWf := by
  unfold State.mapCtx
  split
  · exact h
  · exact h

theorem putOutcome_memWf {s : State} {x : Word} (h : s.MemWf) : (s.putOutcome x).MemWf := by
  unfold State.putOutcome
  split
  · exact memWf_of_eq (mapCore_mem _ _ _) h
  · exact h

theorem leave_memWf {s : State} {g : Gang} (h : s.MemWf) : (s.leave g).MemWf := by
  unfold State.leave
  split
  · exact h
  · refine memWf_of_eq (mapCore_mem _ _ _) ?_
    exact foldl_memWf (fun t _ ht => memWf_of_eq (mapCore_mem _ _ _) ht) h

theorem issuedEret_memWf {s : State} (h : s.MemWf) : (s.issuedEret).MemWf := by
  unfold State.issuedEret
  dsimp only
  split
  · exact h
  · split
    · refine memWf_of_eq (trimTrail_mem _ _) ?_
      refine foldl_memWf (fun t _ ht => memWf_of_eq (mapCore_mem _ _ _) ht) ?_
      exact h
    · exact h

/-! ### Translations and accesses (`Sys2Proof/Machine/Access.lean`) -/

theorem countAccess_memWf {s : State} {ctx pa : Nat} (h : s.MemWf) : (s.countAccess ctx pa).MemWf := by
  unfold State.countAccess
  dsimp only
  split
  · exact h
  · split
    · exact h
    · split
      · exact h
      · split
        · refine notify_memWf ?_ _ _ _ _ _
          refine memWf_of_eq (countAt_mem _ _ _) ?_
          exact wf_memWrite _ _ _ _ h
        · refine memWf_of_eq (countAt_mem _ _ _) ?_
          exact wf_memWrite _ _ _ _ h

theorem countWalk_memWf {s : State} {ctx : Nat} {root : Word} {va : Nat} (h : s.MemWf) :
    (s.countWalk ctx root va).MemWf := by
  unfold State.countWalk
  exact foldl_memWf (fun t _ ht => memWf_of_eq (countAt_mem _ _ _) ht) h

theorem setAD_memWf {s : State} {l : Leaf} {acc : Access} (h : s.MemWf) : (s.setAD l acc).MemWf := wf_memWrite _ _ _ _ h

theorem orAD_memWf {s : State} {ctx : Nat} {l : Leaf} {acc : Access} (h : s.MemWf) : (s.orAD ctx l acc).MemWf := by
  unfold State.orAD
  split
  · exact memWf_of_eq (countAt_mem _ _ _) (setAD_memWf h)
  · exact h

theorem countLookup_memWf {s : State} {n : Nat} {root : Word} {va : Nat} (h : s.MemWf) :
    (s.countLookup n root va).MemWf := by
  unfold State.countLookup
  split
  · exact countWalk_memWf h
  · exact h

theorem engineTranslate_memWf {s : State} {c : CoreId} {n : Nat} {keys : BitVec 256} {system : Bool} {acc : Access} {va : Nat}
    (h : s.MemWf) :
    (s.engineTranslate c n keys system acc va).2.MemWf := by
  unfold State.engineTranslate
  split
  · exact h
  · split
    · exact h
    · split
      · exact h
      · split
        · exact h
        · split
          · exact h
          · split
            · exact orAD_memWf (countWalk_memWf h)
            · exact countLookup_memWf h

theorem watchLanes_memWf {s : State} {acc : Access} {l : List (Nat × Nat × Nat)} {ps : List Piece} (h : s.MemWf) :
    (s.watchLanes acc l ps).MemWf :=
  memWf_of_eq (watchPieces_mem _ _ _) h

theorem watchServed_memWf {s : State} {owner : CoreId} {acc : Access} {own : Bool} {addr n : Nat} {agent : CoreId} {val : Word}
    (h : s.MemWf) :
    (s.watchServed owner acc own addr n agent val).MemWf := by
  unfold State.watchServed
  dsimp only
  split
  · exact h
  · split
    · exact memWf_of_eq (setCore_mem _ _ _) h
    · exact memWf_of_eq (wpStop_mem _ _ _ _) h

/-! ### Asynchronous causes (`Sys2Proof/Machine/Async.lean`) -/

theorem deliver_memWf {s : State} (h : s.MemWf) : (s.deliver).MemWf := by
  unfold State.deliver
  dsimp only
  split
  · split
    · refine memWf_of_eq (rotateIfStopped_mem _) ?_
      refine enter_memWf ?_ _ _ _ _ _ _
      split
      · exact flushAll_memWf h
      · exact flushAll_memWf h
    · exact memWf_of_eq (rotate_mem _) (flushAll_memWf h)
  · exact h

theorem keeps_execAsyncTrapDelivery {c : Nat} {s : State} (h : s.MemWf) : Keeps (execAsyncTrapDelivery c s) := by
  unfold execAsyncTrapDelivery
  dsimp only
  split
  · refine keeps_next ?_
    split
    · exact deliver_memWf (memWf_of_eq (focus_mem _ _) h)
    · exact memWf_of_eq (focus_mem _ _) (deliver_memWf (memWf_of_eq (focus_mem _ _) h))
  · exact keeps_refused _

theorem keeps_execNonInstructionWord {w : Word32} {cause : Cause} {s : State} (h : s.MemWf) :
    Keeps (execNonInstructionWord w cause s) := by
  unfold execNonInstructionWord
  refine keeps_trapWord ?_ _
  exact h

/-! ### Fetching (`Sys2Proof/Machine/Fetch.lean`) -/

theorem nearLine_memWf {s : State} {c : CoreId} {card line home : Nat} (h : s.MemWf) :
    (s.nearLine c card line home).2.MemWf := by
  unfold State.nearLine
  split
  · exact h
  · split
    · exact h
    · exact h

theorem readWord_keeps {s : State} {p : Place} {addr : Nat} {pte : Word} (h : s.MemWf) : (s.readWord p addr pte).Keeps := by
  have hkeep (t : State) (b : Bool) (f : Core → Core) (ht : t.MemWf) : (if b = true then t else t.upd f).MemWf := by
    split
    · exact ht
    · exact ht
  unfold State.readWord
  dsimp only
  by_cases hwait : (decide (p = .host) && s.hostNear addr 4) = true
  · rw [if_pos hwait]
    trivial
  rw [if_neg hwait]
  split
  · split
    · exact h
    · exact h
  · split
    · exact h
    · split
      · exact h
      · refine countHbm_memWf ?_
        refine hkeep _ _ _ ?_
        split
        · exact nearLine_memWf h
        · exact h
  · have ht : (s.countCtx (s.core.context.getD 64) 4 128).MemWf := memWf_of_eq (countCtx_mem _ _ _ _) h
    unfold Fetched.Keeps
    dsimp only
    split
    · exact countAccess_memWf ht
    · exact ht
  · exact memWf_of_eq (countCtx_mem _ _ _ _) h

theorem watchHeld_memWf {s : State} {va : Nat} (h : s.MemWf) : (s.watchHeld va).MemWf := memWf_of_eq (watchOwn_mem _ _ _) h

theorem fetchAt_keeps {s : State} {va : Nat} (h : s.MemWf) : (s.fetchAt va).Keeps := by
  unfold State.fetchAt
  dsimp only
  split
  · exact watchHeld_memWf h
  · split
    · split
      next e2 =>
        refine memWf_of_eq (watchOwn_mem _ _ _) ?_
        exact memWf_of_same (Fetched.keeps_of_eq e2 (readWord_keeps h)) rfl
      · exact readWord_keeps h
    · exact h
    · exact trivial
    · exact h

theorem keeps_startWalk {s : State} {va : Nat} {acc : Access} (h : s.MemWf) : Keeps (s.startWalk va acc) := keeps_stall h

/-! ### Loads, stores and atomics (`Sys2Proof/Machine/Transfer.lean`) -/

theorem sendLoads_memWf {s : State} {useL1 : Bool} {kind : ReqKind} {ps : List Piece} {d : Dest} {acc : Nat}
    {acquire : Option Scope} (h : s.MemWf) :
    (s.sendLoads useL1 kind ps d acc acquire).MemWf := by
  unfold State.sendLoads
  dsimp only
  split
  · exact h
  · refine foldl_memWf (fun t _ ht => ?_) h
    split
    · exact ht
    · exact ht

theorem keeps_loadLanes {s : State} {kind : ReqKind} {lanes : List (Nat × Nat × Nat)} {d : Dest} {acc : Nat} (h : s.MemWf) :
    Keeps (s.loadLanes kind lanes d acc) := by
  unfold State.loadLanes
  split
  · exact keeps_trap h _ _
  · exact keeps_startWalk h
  · exact keeps_stall h
  · split
    · exact keeps_next h
    · exact keeps_next (advance_memWf (sendLoads_memWf (watchLanes_memWf h)))

theorem putStores_memWf {s : State} {inLanes : Bool} {rs : List Req} (h : s.MemWf) : (s.putStores inLanes rs).MemWf := by
  unfold State.putStores
  split
  · exact drain_memWf h _
  · exact drain_memWf h _

theorem keeps_buffer {s : State} {es : List (List Req)} {done : State → State} (h : s.MemWf)
    (hdone : ∀ (a : State), a.MemWf → (done a).MemWf) :
    Keeps (s.buffer es done) := by
  unfold State.buffer
  split
  · refine keeps_next ?_
    refine hdone _ ?_
    exact h
  · split
    · refine keeps_next ?_
      refine hdone _ ?_
      exact flush_memWf h
    · exact keeps_stall h

theorem keeps_holdWrite {s : State} {va : Nat} (h : s.MemWf) : Keeps (s.holdWrite va) := keeps_stall h

theorem keeps_storeNow {s : State} {lanes : List (Nat × Nat × Nat)} {ps : List Piece} {rs : List Req} (h : s.MemWf) :
    Keeps (s.storeNow lanes ps rs) := by
  unfold State.storeNow
  split
  · exact keeps_buffer h (fun _ ht => advance_memWf ht)
  · split
    · exact keeps_stall h
    · split
      · exact keeps_stall h
      · exact keeps_next (advance_memWf (putStores_memWf (watchLanes_memWf h)))

theorem keeps_storeLanes {s : State} {vector : Bool} {kind : ReqKind} {lanes : List (Nat × Nat × Nat)} {data : Nat}
    (h : s.MemWf) :
    Keeps (s.storeLanes vector kind lanes data) := by
  unfold State.storeLanes
  dsimp only
  split
  · exact keeps_trap h _ _
  · exact keeps_startWalk h
  · exact keeps_holdWrite h
  · split
    · split
      · exact keeps_buffer h (fun _ ht => advance_memWf ht)
      · exact keeps_ordered h (fun _ ht => keeps_storeNow ht)
    · split
      · exact keeps_buffer h (fun _ ht => advance_memWf ht)
      · exact keeps_ordered h (fun _ ht => keeps_storeNow ht)

theorem keeps_awaitJournal {s : State} (h : s.MemWf) : Keeps (s.awaitJournal) := keeps_stall h

theorem keeps_storesOut {s : State} {x : Scope} {body : Out} (h : s.MemWf) (hbody : Keeps body) :
    Keeps (s.storesOut x body) := by
  unfold State.storesOut
  split
  · exact hbody
  · split
    · exact keeps_awaitJournal h
    · split
      · exact keeps_trap h _ _
      · split
        · exact hbody
        · exact keeps_stall h

theorem keeps_released {s : State} {x : Scope} {body : Out} (h : s.MemWf) (hbody : Keeps body) :
    Keeps (s.released x body) := by
  unfold State.released
  refine keeps_storesOut h ?_
  split
  · exact hbody
  · exact keeps_stall h

theorem acquired_memWf {s : State} {x : Scope} (h : s.MemWf) : (s.acquired x).MemWf := by
  unfold State.acquired
  split
  · exact h
  · exact h

/-! ### Futures and cards (`Sys2Proof/Machine/Future.lean`) -/

theorem poisonDone_memWf {s : State} {ctx queue done cause : Nat} (h : s.MemWf) :
    (s.poisonDone ctx queue done cause).1.MemWf := by
  unfold State.poisonDone
  split
  · exact h
  · split
    · exact setFut_memWf h _ _ _
    · exact notify_memWf h _ _ _ _ _

theorem refuse_memWf {s : State} {ctx queue resv done cause high : Nat} (h : s.MemWf) :
    (s.refuse ctx queue resv done cause high).1.MemWf :=
  poisonDone_memWf (notify_memWf h _ _ _ _ _)

theorem dropWaits_memWf {s : State} {ctx n : Nat} (h : s.MemWf) : (s.dropWaits ctx n).MemWf := by
  unfold State.dropWaits
  exact foldl_memWf (fun t _ ht => unwait_memWf ht _ _ _) h

theorem refuseCard_memWf {s : State} {n high : Nat} (h : s.MemWf) : (s.refuseCard n high).1.MemWf := by
  unfold State.refuseCard
  split
  · exact h
  · exact refuse_memWf (dropWaits_memWf h)

theorem wake_memWf {st v : Nat} {p : State × List FutWork} {who : Waiter} (hp : p.1.MemWf) :
    (State.wake st v p who).1.MemWf := by
  unfold State.wake
  split
  · exact memWf_of_eq (mapCore_mem _ _ _) hp
  · split
    · exact hp
    · exact refuseCard_memWf hp

theorem settleFutures_memWf : ∀ (n : Nat) (l : List FutWork) {s : State}, s.MemWf → (State.settleFutures n l s).MemWf
  | 0, _, _, h => by
    unfold State.settleFutures
    exact h
  | _ + 1, [], _, h => h
  | n + 1, (ctx, i, st, v) :: work, s, h => by
    unfold State.settleFutures
    dsimp only
    refine settleFutures_memWf n _ ?_
    refine foldl_keeps (fun r : State × List FutWork => r.1.MemWf) _ (fun r w hr => wake_memWf hr) _ _ ?_
    refine setFut_memWf ?_ ctx i _
    exact h

theorem cardDone_memWf {s : State} {n : Nat} {k : Card} (h : s.MemWf) : (s.cardDone n k).MemWf := by
  unfold State.cardDone
  refine memWf_of_eq (countCtx_mem _ _ _ _) ?_
  split
  · refine notify_memWf ?_ _ _ _ _ _
    split
    · exact h
    · split
      · refine settleFutures_memWf _ _ ?_
        exact h
      · refine notify_memWf ?_ _ _ _ _ _
        exact h
  · split
    · exact h
    · split
      · refine settleFutures_memWf _ _ ?_
        exact h
      · refine notify_memWf ?_ _ _ _ _ _
        exact h

theorem releaseSome_memWf : ∀ (n : Nat) {s : State}, s.MemWf → (State.releaseSome n s).MemWf
  | 0, _, h => h
  | n + 1, s, h => by
    unfold State.releaseSome
    dsimp only
    split
    · exact releaseSome_memWf n (cardDone_memWf h)
    · exact h

theorem releaseCards_memWf {s : State} (h : s.MemWf) : (s.releaseCards).MemWf := releaseSome_memWf _ h

theorem settle_memWf {s : State} {work : List FutWork} (h : s.MemWf) : (s.settle work).MemWf :=
  releaseCards_memWf (settleFutures_memWf _ _ h)

theorem engineFulfil_memWf {s : State} {c : CoreId} {ctx h st v : Nat} (hs : s.MemWf) :
    (s.engineFulfil c ctx h st v).MemWf := by
  unfold State.engineFulfil
  split
  · exact hs
  · split
    · exact settle_memWf hs
    · exact memWf_of_eq (mapCore_mem _ _ _) hs

theorem allocFut_memWf {s : State} {ctx i : Nat} (h : s.MemWf) : (s.allocFut ctx i).1.MemWf := setFut_memWf h _ _ _

theorem freeFut_memWf {s : State} {ctx i : Nat} (h : s.MemWf) : (s.freeFut ctx i).MemWf :=
  mapCtx_memWf (setFut_memWf h _ _ _)

theorem keeps_futTrap {s : State} {c : Cause} {h : Nat} (hs : s.MemWf) : Keeps (s.futTrap c h) := keeps_trap hs _ _

theorem keeps_withHandle {s : State} {h : Nat} {body : FutEntry → Out} (hs : s.MemWf) (hbody : ∀ (a : FutEntry), Keeps (body a))
    :
    Keeps (s.withHandle h body) := by
  unfold State.withHandle
  split
  · exact keeps_futTrap hs
  · split
    · exact keeps_futTrap hs
    · exact hbody _

theorem keeps_execFnew {d : Reg} {s : State} (h : s.MemWf) : Keeps (execFnew d s) := by
  unfold execFnew
  refine keeps_issue h _ ?_
  refine keeps_ordered h (fun _ ht => ?_)
  split
  · exact keeps_trap ht _ _
  · split
    · exact keeps_stall ht
    · exact keeps_next (advance_memWf (mapCtx_memWf (allocFut_memWf ht)))

theorem keeps_futSet {s : State} {h st v : Nat} (hs : s.MemWf) : Keeps (s.futSet h st v) := by
  unfold State.futSet
  split
  · exact keeps_futTrap hs
  · refine keeps_released hs ?_
    refine keeps_withHandle hs (fun _ => ?_)
    split
    · exact keeps_futTrap hs
    · split
      · exact keeps_stall hs
      · exact keeps_next (advance_memWf (settle_memWf hs))

theorem keeps_execFput {a b : Reg} {s : State} (h : s.MemWf) : Keeps (execFput a b s) :=
  keeps_issue h _ (keeps_ordered h (fun _ ht => keeps_futSet ht))

theorem keeps_execFpois {a b : Reg} {s : State} (h : s.MemWf) : Keeps (execFpois a b s) :=
  keeps_issue h _ (keeps_ordered h (fun _ ht => keeps_futSet ht))

theorem keeps_futResult {s : State} {d b : Reg} {v : Word} {st : Nat} (h : s.MemWf) : Keeps (s.futResult d b v st) :=
  keeps_next (advance_memWf (acquired_memWf h))

theorem keeps_execFget {d a b : Reg} {s : State} (h : s.MemWf) : Keeps (execFget d a b s) := by
  unfold execFget
  refine keeps_issue h _ ?_
  refine keeps_ordered h (fun _ ht => ?_)
  split
  · exact keeps_futResult ht
  · split
    · exact keeps_waits ht
    · refine keeps_withHandle ht (fun _ => ?_)
      split
      · exact keeps_futResult ht
      · split
        · exact keeps_stall ht
        · split
          · exact keeps_waits ht
          · exact keeps_waits (addWaiter_memWf ht _ _ _ _)

theorem keeps_execFtry {d a b : Reg} {s : State} (h : s.MemWf) : Keeps (execFtry d a b s) := by
  unfold execFtry
  refine keeps_issue h _ ?_
  refine keeps_ordered h (fun _ ht => ?_)
  refine keeps_withHandle ht (fun _ => ?_)
  split
  · exact keeps_next (advance_memWf ht)
  · exact keeps_futResult ht

theorem keeps_execFfree {a : Reg} {s : State} (h : s.MemWf) : Keeps (execFfree a s) := by
  unfold execFfree
  refine keeps_issue h _ ?_
  refine keeps_ordered h (fun _ ht => ?_)
  refine keeps_withHandle ht (fun _ => ?_)
  split
  · exact keeps_futTrap ht
  · split
    · exact keeps_stall ht
    · exact keeps_next (advance_memWf (freeFut_memWf ht))

theorem keeps_execFlink {d a b : Reg} {s : State} (h : s.MemWf) : Keeps (execFlink d a b s) := by
  unfold execFlink
  dsimp only
  refine keeps_issue h _ ?_
  refine keeps_ordered h (fun _ ht => ?_)
  split
  · exact keeps_futTrap ht
  · split
    · exact keeps_futTrap ht
    · refine keeps_withHandle ht (fun _ => ?_)
      split
      · exact keeps_next (advance_memWf ht)
      · split
        · exact keeps_next (advance_memWf ht)
        · split
          · exact keeps_next (advance_memWf (settle_memWf (refuseCard_memWf ht)))
          · split
            · exact keeps_stall ht
            · split
              · exact keeps_stall ht
              · exact keeps_next (advance_memWf (addWaiter_memWf ht _ _ _ _))

theorem keeps_execWaiterRecheck {c : Nat} {s : State} (h : s.MemWf) : Keeps (execWaiterRecheck c s) := by
  unfold execWaiterRecheck
  split
  · exact keeps_next (memWf_of_eq (mapCore_mem _ _ _) h)
  · exact keeps_refused _

/-! ### Images (`Sys2Proof/Machine/Image.lean`) -/

theorem noteRead_memWf {s : State} {ctx : Nat} {place : Place} {addr n : Nat} {pte : Word} (h : s.MemWf) :
    (s.noteRead ctx place addr n pte).MemWf := by
  unfold State.noteRead
  split
  · exact h
  · exact countHbm_memWf h
  · split
    · exact countAccess_memWf (memWf_of_eq (countCtx_mem _ _ _ _) h)
    · exact memWf_of_eq (countCtx_mem _ _ _ _) h
  · exact memWf_of_eq (countCtx_mem _ _ _ _) h

theorem keepNear_memWf {s : State} {p : Piece} (h : s.MemWf) : (s.keepNear p).MemWf := by
  unfold State.keepNear
  split
  · exact nearLine_memWf h
  · exact h

theorem watchEngine_memWf {s : State} {c : CoreId} {acc : Access} {place : Place} {addr n va : Nat} (h : s.MemWf) :
    (s.watchEngine c acc place addr n va).MemWf := by
  unfold State.watchEngine
  split
  · split
    · exact watchServed_memWf h
    · exact watchServed_memWf (watchServed_memWf h)
  · exact watchServed_memWf h

theorem watchRead_memWf {s : State} {engine : Bool} {ps : List Piece} (h : s.MemWf) : (s.watchRead engine ps).MemWf := by
  unfold State.watchRead
  split
  · exact foldl_memWf (fun t _ ht => watchEngine_memWf ht) h
  · refine foldl_memWf (fun t _ ht => ?_) (memWf_of_eq (watchPieces_mem _ _ _) h)
    split
    · split
      · exact ht
      · exact watchServed_memWf ht
    · exact ht

theorem keeps_readImage {s : State} {engine lines : Bool} {va n : Nat} {body : State → List Byte → Out} (h : s.MemWf)
    (hbody : ∀ (a : State), a.MemWf → ∀ (a_1 : List Byte), Keeps (body a a_1)) :
    Keeps (s.readImage engine lines va n body) := by
  unfold State.readImage
  dsimp only
  split
  · exact keeps_trap h _ _
  · exact keeps_startWalk h
  · exact keeps_stall h
  · split
    · exact keeps_stall h
    · split
      · exact keeps_next h
      · split
        · exact keeps_stall h
        · refine hbody _ ?_ _
          refine foldl_memWf (fun t _ ht => noteRead_memWf ht) ?_
          refine watchRead_memWf ?_
          split
          · exact foldl_memWf (fun t _ ht => keepNear_memWf ht) h
          · exact h

/-! ### Lanes (`Sys2Proof/Machine/Lanes.lean`) -/

theorem keeps_vform {s : State} {w : Nat} {d a : Reg} {dva : VDist} {b : Reg} {k : KReg} {f : Nat → Nat → Nat} (h : s.MemWf) :
    Keeps (s.vform w d a dva b k f) :=
  keeps_issue h _ (keeps_next (advance_memWf h))

theorem keeps_vform1 {s : State} {w : Nat} {d a : Reg} {dva : VDist} {k : KReg} {f : Nat → Nat} (h : s.MemWf) :
    Keeps (s.vform1 w d a dva k f) :=
  keeps_issue h _ (keeps_next (advance_memWf h))

theorem keeps_vcmp {s : State} {w : Nat} {d : KReg} {a : Reg} {dva : VDist} {b : Reg} {k : KReg} {f : Nat → Nat → FRes}
    (h : s.MemWf) :
    Keeps (s.vcmp w d a dva b k f) :=
  keeps_issue h _ (keeps_next (advance_memWf h))

theorem keeps_vfform {s : State} {w : Nat} {d a : Reg} {dva : VDist} {bs : List Reg} {k : KReg} {f : Nat → Nat → Nat → FRes}
    (h : s.MemWf) :
    Keeps (s.vfform w d a dva bs k f) :=
  keeps_issue h _ (keeps_next (advance_memWf h))

/-! ### Vector instructions (`Sys2Proof/Machine/Vector.lean`) -/

theorem keeps_execVadd {d a : Reg} {dva : VDist} {b : Reg} {k : KReg} {t : IntTy} {s : State} (h : s.MemWf) :
    Keeps (execVadd d a dva b k t s) :=
  keeps_vform h

theorem keeps_execVsub {d a : Reg} {dva : VDist} {b : Reg} {k : KReg} {t : IntTy} {s : State} (h : s.MemWf) :
    Keeps (execVsub d a dva b k t s) :=
  keeps_vform h

theorem keeps_execVmul {d a : Reg} {dva : VDist} {b : Reg} {k : KReg} {t : IntTy} {s : State} (h : s.MemWf) :
    Keeps (execVmul d a dva b k t s) :=
  keeps_vform h

theorem keeps_execVmulh {d a : Reg} {dva : VDist} {b : Reg} {k : KReg} {t : IntTy} {s : State} (h : s.MemWf) :
    Keeps (execVmulh d a dva b k t s) :=
  keeps_vform h

theorem keeps_execVmin {d a : Reg} {dva : VDist} {b : Reg} {k : KReg} {t : IntTy} {s : State} (h : s.MemWf) :
    Keeps (execVmin d a dva b k t s) :=
  keeps_vform h

theorem keeps_execVmax {d a : Reg} {dva : VDist} {b : Reg} {k : KReg} {t : IntTy} {s : State} (h : s.MemWf) :
    Keeps (execVmax d a dva b k t s) :=
  keeps_vform h

theorem keeps_execVminu {d a : Reg} {dva : VDist} {b : Reg} {k : KReg} {t : IntTy} {s : State} (h : s.MemWf) :
    Keeps (execVminu d a dva b k t s) :=
  keeps_vform h

theorem keeps_execVmaxu {d a : Reg} {dva : VDist} {b : Reg} {k : KReg} {t : IntTy} {s : State} (h : s.MemWf) :
    Keeps (execVmaxu d a dva b k t s) :=
  keeps_vform h

theorem keeps_execVand {d a : Reg} {dva : VDist} {b : Reg} {k : KReg} {t : IntTy} {s : State} (h : s.MemWf) :
    Keeps (execVand d a dva b k t s) :=
  keeps_vform h

theorem keeps_execVor {d a : Reg} {dva : VDist} {b : Reg} {k : KReg} {t : IntTy} {s : State} (h : s.MemWf) :
    Keeps (execVor d a dva b k t s) :=
  keeps_vform h

theorem keeps_execVxor {d a : Reg} {dva : VDist} {b : Reg} {k : KReg} {t : IntTy} {s : State} (h : s.MemWf) :
    Keeps (execVxor d a dva b k t s) :=
  keeps_vform h

theorem keeps_execVshl {d a : Reg} {dva : VDist} {b : Reg} {k : KReg} {t : IntTy} {s : State} (h : s.MemWf) :
    Keeps (execVshl d a dva b k t s) :=
  keeps_vform h

theorem keeps_execVshr {d a : Reg} {dva : VDist} {b : Reg} {k : KReg} {t : IntTy} {s : State} (h : s.MemWf) :
    Keeps (execVshr d a dva b k t s) :=
  keeps_vform h

theorem keeps_execVsra {d a : Reg} {dva : VDist} {b : Reg} {k : KReg} {t : IntTy} {s : State} (h : s.MemWf) :
    Keeps (execVsra d a dva b k t s) :=
  keeps_vform h

theorem keeps_execVsadd {d a : Reg} {dva : VDist} {b : Reg} {k : KReg} {t : IntTy} {s : State} (h : s.MemWf) :
    Keeps (execVsadd d a dva b k t s) :=
  keeps_vform h

theorem keeps_execVssub {d a : Reg} {dva : VDist} {b : Reg} {k : KReg} {t : IntTy} {s : State} (h : s.MemWf) :
    Keeps (execVssub d a dva b k t s) :=
  keeps_vform h

theorem keeps_execVabs {d a : Reg} {dva : VDist} {k : KReg} {t : IntTy} {s : State} (h : s.MemWf) :
    Keeps (execVabs d a dva k t s) :=
  keeps_vform1 h

theorem keeps_execVcmpeq {d : KReg} {a : Reg} {dva : VDist} {b : Reg} {k : KReg} {t : IntTy} {s : State} (h : s.MemWf) :
    Keeps (execVcmpeq d a dva b k t s) :=
  keeps_vcmp h

theorem keeps_execVcmplt {d : KReg} {a : Reg} {dva : VDist} {b : Reg} {k : KReg} {t : IntTy} {s : State} (h : s.MemWf) :
    Keeps (execVcmplt d a dva b k t s) :=
  keeps_vcmp h

theorem keeps_execVcmpltu {d : KReg} {a : Reg} {dva : VDist} {b : Reg} {k : KReg} {t : IntTy} {s : State} (h : s.MemWf) :
    Keeps (execVcmpltu d a dva b k t s) :=
  keeps_vcmp h

theorem keeps_execVfadd {d a : Reg} {dva : VDist} {b : Reg} {k : KReg} {t : FltTy} {s : State} (h : s.MemWf) :
    Keeps (execVfadd d a dva b k t s) :=
  keeps_vfform h

theorem keeps_execVfsub {d a : Reg} {dva : VDist} {b : Reg} {k : KReg} {t : FltTy} {s : State} (h : s.MemWf) :
    Keeps (execVfsub d a dva b k t s) :=
  keeps_vfform h

theorem keeps_execVfmul {d a : Reg} {dva : VDist} {b : Reg} {k : KReg} {t : FltTy} {s : State} (h : s.MemWf) :
    Keeps (execVfmul d a dva b k t s) :=
  keeps_vfform h

theorem keeps_execVfma {d a : Reg} {dva : VDist} {b : Reg} {k : KReg} {t : FltTy} {s : State} (h : s.MemWf) :
    Keeps (execVfma d a dva b k t s) :=
  keeps_vfform h

theorem keeps_execVfmin {d a : Reg} {dva : VDist} {b : Reg} {k : KReg} {t : FltTy} {s : State} (h : s.MemWf) :
    Keeps (execVfmin d a dva b k t s) :=
  keeps_vfform h

theorem keeps_execVfmax {d a : Reg} {dva : VDist} {b : Reg} {k : KReg} {t : FltTy} {s : State} (h : s.MemWf) :
    Keeps (execVfmax d a dva b k t s) :=
  keeps_vfform h

theorem keeps_execVfdiv {d a : Reg} {dva : VDist} {b : Reg} {k : KReg} {t : FltTy} {s : State} (h : s.MemWf) :
    Keeps (execVfdiv d a dva b k t s) :=
  keeps_vfform h

theorem keeps_execVfsqrt {d a : Reg} {dva : VDist} {k : KReg} {t : FltTy} {s : State} (h : s.MemWf) :
    Keeps (execVfsqrt d a dva k t s) :=
  keeps_vfform h

theorem keeps_execVfabs {d a : Reg} {dva : VDist} {k : KReg} {t : FltTy} {s : State} (h : s.MemWf) :
    Keeps (execVfabs d a dva k t s) :=
  keeps_vfform h

theorem keeps_execVfneg {d a : Reg} {dva : VDist} {k : KReg} {t : FltTy} {s : State} (h : s.MemWf) :
    Keeps (execVfneg d a dva k t s) :=
  keeps_vfform h

theorem keeps_execVfcmpeq {d : KReg} {a : Reg} {dva : VDist} {b : Reg} {k : KReg} {t : FltTy} {s : State} (h : s.MemWf) :
    Keeps (execVfcmpeq d a dva b k t s) :=
  keeps_vcmp h

theorem keeps_execVfcmplt {d : KReg} {a : Reg} {dva : VDist} {b : Reg} {k : KReg} {t : FltTy} {s : State} (h : s.MemWf) :
    Keeps (execVfcmplt d a dva b k t s) :=
  keeps_vcmp h

theorem keeps_execVfcmple {d : KReg} {a : Reg} {dva : VDist} {b : Reg} {k : KReg} {t : FltTy} {s : State} (h : s.MemWf) :
    Keeps (execVfcmple d a dva b k t s) :=
  keeps_vcmp h

theorem keeps_vload {s : State} {d a : Reg} {da : Dist} {extra : Names} {k : KReg} {n : Nat} {addr : Nat → Word} (h : s.MemWf) :
    Keeps (s.vload d a da extra k n addr) :=
  keeps_issue h _ (keeps_loadLanes h)

theorem keeps_vstore {s : State} {d a : Reg} {da : Dist} {extra : Names} {k : KReg} {n : Nat} {addr : Nat → Word} (h : s.MemWf)
    :
    Keeps (s.vstore d a da extra k n addr) :=
  keeps_issue h _ (keeps_storeLanes h)

theorem keeps_execVld {d a : Reg} {da : Dist} {k : KReg} {e : Size} {s : State} (h : s.MemWf) :
    Keeps (execVld d a da k e s) :=
  keeps_vload h

theorem keeps_execVst {d a : Reg} {da : Dist} {k : KReg} {e : Size} {s : State} (h : s.MemWf) :
    Keeps (execVst d a da k e s) :=
  keeps_vstore h

theorem keeps_execVlds {d a : Reg} {da : Dist} {b : Reg} {k : KReg} {e : Size} {s : State} (h : s.MemWf) :
    Keeps (execVlds d a da b k e s) :=
  keeps_vload h

theorem keeps_execVsts {d a : Reg} {da : Dist} {b : Reg} {k : KReg} {e : Size} {s : State} (h : s.MemWf) :
    Keeps (execVsts d a da b k e s) :=
  keeps_vstore h

theorem keeps_execVgath {d a : Reg} {da : Dist} {b : Reg} {k : KReg} {e : Size} {s : State} (h : s.MemWf) :
    Keeps (execVgath d a da b k e s) :=
  keeps_vload h

theorem keeps_execVscat {d a : Reg} {da : Dist} {b : Reg} {k : KReg} {e : Size} {s : State} (h : s.MemWf) :
    Keeps (execVscat d a da b k e s) :=
  keeps_vstore h

theorem keeps_execVldb {d a : Reg} {da : Dist} {k : KReg} {e : Size} {s : State} (h : s.MemWf) :
    Keeps (execVldb d a da k e s) := by
  unfold execVldb
  dsimp only
  refine keeps_issue h _ ?_
  split
  · exact keeps_loadLanes h
  · exact keeps_next (advance_memWf h)

theorem keeps_kform {s : State} {d : KReg} {x : Word} (h : s.MemWf) : Keeps (s.kform d x) :=
  keeps_issue h _ (keeps_next (advance_memWf h))

theorem keeps_execKand {d a b : KReg} {s : State} (h : s.MemWf) : Keeps (execKand d a b s) := keeps_kform h

theorem keeps_execKor {d a b : KReg} {s : State} (h : s.MemWf) : Keeps (execKor d a b s) := keeps_kform h

theorem keeps_execKxor {d a b : KReg} {s : State} (h : s.MemWf) : Keeps (execKxor d a b s) := keeps_kform h

theorem keeps_execKnot {d a : KReg} {s : State} (h : s.MemWf) : Keeps (execKnot d a s) := keeps_kform h

theorem keeps_execKfrom {d : KReg} {a : Reg} {dva : VDist} {s : State} (h : s.MemWf) : Keeps (execKfrom d a dva s) :=
  keeps_issue h _ (keeps_next (advance_memWf h))

theorem keeps_execKto {d : Reg} {a : KReg} {s : State} (h : s.MemWf) : Keeps (execKto d a s) := keeps_form0 h _ _

theorem keeps_execKpop {d : Reg} {a : KReg} {s : State} (h : s.MemWf) : Keeps (execKpop d a s) := keeps_form0 h _ _

theorem keeps_execKfirst {d : Reg} {a : KReg} {s : State} (h : s.MemWf) : Keeps (execKfirst d a s) := keeps_form0 h _ _

/-! ### Permutes, conversions and encodings (`Sys2Proof/Machine/Vxf.lean`) -/

theorem keeps_vxf {s : State} {ok : Bool} {n : Names} {body : Out} (h : s.MemWf) (hbody : Keeps body) :
    Keeps (s.vxf ok n body) := by
  unfold State.vxf
  split
  · exact keeps_trapWord h _
  · exact keeps_issue h _ hbody

theorem keeps_execVshuf {d a : Reg} {dva : VDist} {b : Reg} {k : KReg} {s : State} (h : s.MemWf) :
    Keeps (execVshuf d a dva b k s) :=
  keeps_vxf h (keeps_next (advance_memWf h))

theorem keeps_execVslide {d a : Reg} {dva : VDist} {b : Reg} {k : KReg} {s : State} (h : s.MemWf) :
    Keeps (execVslide d a dva b k s) :=
  keeps_vxf h (keeps_next (advance_memWf h))

theorem keeps_execVbcast {d a : Reg} {dva : VDist} {k : KReg} {s : State} (h : s.MemWf) : Keeps (execVbcast d a dva k s) :=
  keeps_vxf h (keeps_next (advance_memWf h))

theorem keeps_execVext {d a : Reg} {dva : VDist} {b : Reg} {s : State} (h : s.MemWf) : Keeps (execVext d a dva b s) :=
  keeps_vxf h (keeps_next (advance_memWf h))

theorem keeps_execVins {d a : Reg} {dva : VDist} {b : Reg} {s : State} (h : s.MemWf) : Keeps (execVins d a dva b s) :=
  keeps_vxf h (keeps_next (advance_memWf h))

theorem keeps_execVsel {d a : Reg} {dva : VDist} {b : Reg} {k : KReg} {s : State} (h : s.MemWf) :
    Keeps (execVsel d a dva b k s) :=
  keeps_vxf h (keeps_next (advance_memWf h))

theorem keeps_execViota {d : Reg} {k : KReg} {s : State} (h : s.MemWf) : Keeps (execViota d k s) :=
  keeps_vxf h (keeps_next (advance_memWf h))

theorem keeps_vreduce {s : State} {d a : Reg} {dva : VDist} {k : KReg} {g : List ℤ → ℤ} {f : Fmt → Nat → Nat → FRes}
    {noInt : Nat → ℤ} {noFlt : Fmt → Nat} (h : s.MemWf) :
    Keeps (s.vreduce d a dva k g f noInt noFlt) := by
  unfold State.vreduce
  refine keeps_vxf h ?_
  split
  · exact keeps_next (advance_memWf h)
  · exact keeps_next (advance_memWf h)

theorem keeps_execVredsum {d a : Reg} {dva : VDist} {k : KReg} {s : State} (h : s.MemWf) :
    Keeps (execVredsum d a dva k s) :=
  keeps_vreduce h

theorem keeps_execVredmax {d a : Reg} {dva : VDist} {k : KReg} {s : State} (h : s.MemWf) :
    Keeps (execVredmax d a dva k s) :=
  keeps_vreduce h

theorem keeps_execVredmin {d a : Reg} {dva : VDist} {k : KReg} {s : State} (h : s.MemWf) :
    Keeps (execVredmin d a dva k s) :=
  keeps_vreduce h

theorem keeps_execVcvt {d a : Reg} {dva : VDist} {k : KReg} {s : State} (h : s.MemWf) : Keeps (execVcvt d a dva k s) :=
  keeps_vxf h (keeps_next (advance_memWf h))

theorem keeps_encodeTrap {s : State} {c : Cause} {lane tab : Nat} (h : s.MemWf) : Keeps (s.encodeTrap c lane tab) :=
  keeps_trap h _ _

theorem keeps_execVenc {d a : Reg} {dva : VDist} {k : KReg} {s : State} (h : s.MemWf) : Keeps (execVenc d a dva k s) := by
  unfold execVenc
  dsimp only
  refine keeps_vxf h ?_
  split
  · exact keeps_encodeTrap h
  · split
    · exact keeps_encodeTrap h
    · exact keeps_next (advance_memWf h)

theorem keeps_execVdec {d a : Reg} {dva : VDist} {k : KReg} {s : State} (h : s.MemWf) : Keeps (execVdec d a dva k s) :=
  keeps_vxf h (keeps_next (advance_memWf h))

theorem keeps_execVqnt {d a : Reg} {dva : VDist} {b : Reg} {s : State} (h : s.MemWf) : Keeps (execVqnt d a dva b s) := by
  unfold execVqnt
  dsimp only
  split
  · exact keeps_trapWord h _
  · refine keeps_vxf h ?_
    split
    · exact keeps_encodeTrap h
    · split
      · exact keeps_encodeTrap h
      · exact keeps_next (advance_memWf h)

theorem keeps_execVdqnt {d a : Reg} {dva : VDist} {k : KReg} {s : State} (h : s.MemWf) : Keeps (execVdqnt d a dva k s) :=
  keeps_vxf h (keeps_next (advance_memWf h))

theorem keeps_execVppu {d a : Reg} {dva : VDist} {k : KReg} {s : State} (h : s.MemWf) : Keeps (execVppu d a dva k s) :=
  keeps_vxf h (keeps_next (advance_memWf h))

/-! ### Tables (`Sys2Proof/Machine/Table.lean`) -/

theorem keeps_execTabld {a b : Reg} {a1 : BitVec 1} {t : BitVec 2} {s : State} (h : s.MemWf) :
    Keeps (execTabld a b a1 t s) := by
  unfold execTabld
  refine keeps_issue h _ ?_
  refine keeps_ordered h (fun _ ht1 => ?_)
  split
  · exact keeps_trap ht1 _ _
  · split
    · exact keeps_stall ht1
    · refine keeps_readImage ht1 (fun _ ht2 _ => ?_)
      split
      · exact keeps_trap ht2 _ _
      · exact keeps_next (advance_memWf ht2)

theorem keeps_execTabrd {d a : Reg} {a1 : BitVec 1} {t : BitVec 2} {s : State} (h : s.MemWf) :
    Keeps (execTabrd d a a1 t s) :=
  keeps_issue h _ (keeps_ordered h (fun _ ht1 => keeps_next (advance_memWf ht1)))

theorem keeps_execTabchk {d : Reg} {a1 : BitVec 1} {t : BitVec 2} {s : State} (h : s.MemWf) : Keeps (execTabchk d a1 t s) :=
  keeps_issue h _ (keeps_ordered h (fun _ ht1 => keeps_next (advance_memWf ht1)))

theorem keeps_execPpuld {a : Reg} {a1 : BitVec 1} {s : State} (h : s.MemWf) : Keeps (execPpuld a a1 s) := by
  unfold execPpuld
  refine keeps_issue h _ ?_
  refine keeps_ordered h (fun _ ht => ?_)
  split
  · exact keeps_trap ht _ _
  · refine keeps_readImage ht (fun _ ht1 _ => ?_)
    split
    · exact keeps_trap ht1 _ _
    · exact keeps_next (advance_memWf ht1)

theorem keeps_execPpurd {d a : Reg} {a1 : BitVec 1} {s : State} (h : s.MemWf) : Keeps (execPpurd d a a1 s) := by
  unfold execPpurd
  refine keeps_issue h _ ?_
  refine keeps_ordered h (fun _ ht => ?_)
  split
  · exact keeps_trap ht _ _
  · exact keeps_next (advance_memWf ht)

theorem keeps_execEnc {d a : Reg} {a1 : BitVec 1} {t : BitVec 2} {s : State} (h : s.MemWf) :
    Keeps (execEnc d a a1 t s) := by
  unfold execEnc
  dsimp only
  refine keeps_issue h _ ?_
  refine keeps_ordered h (fun _ ht1 => ?_)
  split
  · exact keeps_encodeTrap ht1
  · exact keeps_next (advance_memWf ht1)

theorem keeps_execDec {d a : Reg} {a1 : BitVec 1} {t : BitVec 2} {s : State} (h : s.MemWf) : Keeps (execDec d a a1 t s) :=
  keeps_issue h _ (keeps_ordered h (fun _ ht1 => keeps_next (advance_memWf ht1)))

/-! ### Slots (`Sys2Proof/Machine/Slot.lean`) -/

theorem closeChain_memWf {s : State} {c : CoreId} {n : Nat} (h : s.MemWf) : (s.closeChain c n).MemWf :=
  engineFulfil_memWf (memWf_of_eq (setCore_mem _ _ _) h)

theorem checkChain_memWf {s : State} {c : CoreId} {n : Nat} (h : s.MemWf) : (s.checkChain c n).MemWf := by
  unfold State.checkChain
  split
  · exact closeChain_memWf h
  · exact h

/-! ### Matrix commands (`Sys2Proof/Machine/Matrix.lean`) -/

theorem keeps_resumeWait {s : State} {body : Out} (h : s.MemWf) (hbody : Keeps body) : Keeps (s.resumeWait body) := by
  unfold State.resumeWait
  split
  · split
    · exact keeps_waits h
    · exact keeps_next (advance_memWf h)
  · exact hbody

theorem keeps_enqueue {s : State} {w : BitVec 1} {q : QCmd} (h : s.MemWf) : Keeps (s.enqueue w q) := by
  unfold State.enqueue
  split
  · exact keeps_waits h
  · exact keeps_next (advance_memWf h)

theorem keeps_translated {s : State} {acc : Access} {l : List (Nat × Nat × Nat)} {body : List Span → Out} (h : s.MemWf)
    (hbody : ∀ (a : List Span), Keeps (body a)) :
    Keeps (s.translated acc l body) := by
  unfold State.translated
  split
  · exact keeps_trap h _ _
  · exact keeps_startWalk h
  · exact keeps_stall h
  · exact hbody _

theorem keeps_onSlot {s : State} {n : BitVec 2} {body : State → MSlot → Out} (h : s.MemWf)
    (hbody : ∀ (a : State), a.MemWf → ∀ (a_1 : MSlot), Keeps (body a a_1)) :
    Keeps (s.onSlot n body) := by
  unfold State.onSlot
  refine keeps_ordered h (fun _ ht => ?_)
  split
  · exact keeps_stall ht
  · exact hbody _ ht _

theorem keeps_execMcfg {a b : Reg} {a1 : BitVec 1} {n : BitVec 2} {s : State} (h : s.MemWf) :
    Keeps (execMcfg a b a1 n s) := by
  unfold execMcfg
  refine keeps_issue h _ ?_
  refine keeps_onSlot h (fun _ ht _ => ?_)
  split
  · exact keeps_trap ht _ _
  · split
    · exact keeps_trap ht _ _
    · split
      · exact keeps_trap ht _ _
      · exact keeps_next (advance_memWf ht)

theorem keeps_execMgeo {a : Reg} {a1 : BitVec 1} {n : BitVec 2} {s : State} (h : s.MemWf) : Keeps (execMgeo a a1 n s) := by
  unfold execMgeo
  refine keeps_issue h _ ?_
  refine keeps_onSlot h (fun _ ht _ => ?_)
  split
  · exact keeps_trap ht _ _
  · exact keeps_next (advance_memWf ht)

theorem keeps_execMzero {a1 : BitVec 1} {n : BitVec 2} {s : State} (h : s.MemWf) : Keeps (execMzero a1 n s) := by
  unfold execMzero
  refine keeps_issue h _ ?_
  refine keeps_onSlot h (fun _ ht _ => ?_)
  split
  · exact keeps_trap ht _ _
  · exact keeps_next (advance_memWf ht)

theorem keeps_execMstat {d : Reg} {a1 : BitVec 1} {n : BitVec 2} {s : State} (h : s.MemWf) : Keeps (execMstat d a1 n s) :=
  keeps_issue h _ (keeps_onSlot h (fun _ ht _ => keeps_next (advance_memWf ht)))

theorem keeps_execMwait {a1 : BitVec 1} {n : BitVec 2} {s : State} (h : s.MemWf) : Keeps (execMwait a1 n s) := by
  unfold execMwait
  refine keeps_issue h _ ?_
  refine keeps_ordered h (fun _ ht => ?_)
  split
  · exact keeps_waits ht
  · exact keeps_next (advance_memWf ht)

theorem keeps_mma {s : State} {transposed negated : Bool} {a b : Reg} {w : BitVec 1} {n : BitVec 2} (h : s.MemWf) :
    Keeps (s.mma transposed negated a b w n) := by
  unfold State.mma
  refine keeps_issue h _ ?_
  refine keeps_resumeWait h ?_
  refine keeps_ordered h (fun _ ht => ?_)
  split
  · exact keeps_stall ht
  · refine keeps_translated ht (fun _ => ?_)
    split
    · exact keeps_trap ht _ _
    · split
      · exact keeps_trap ht _ _
      · exact keeps_enqueue ht

theorem keeps_execMma {a b : Reg} {w : BitVec 1} {n : BitVec 2} {s : State} (h : s.MemWf) : Keeps (execMma a b w n s) :=
  keeps_mma h

theorem keeps_execMmat {a b : Reg} {w : BitVec 1} {n : BitVec 2} {s : State} (h : s.MemWf) : Keeps (execMmat a b w n s) :=
  keeps_mma h

theorem keeps_execMmas {a b : Reg} {w : BitVec 1} {n : BitVec 2} {s : State} (h : s.MemWf) : Keeps (execMmas a b w n s) :=
  keeps_mma h

theorem keeps_execMdrain {a b : Reg} {w u : BitVec 1} {n : BitVec 2} {s : State} (h : s.MemWf) :
    Keeps (execMdrain a b w u n s) := by
  unfold execMdrain
  dsimp only
  refine keeps_issue h _ ?_
  refine keeps_resumeWait h ?_
  refine keeps_ordered h (fun _ ht => ?_)
  split
  · exact keeps_trap ht _ _
  · split
    · exact keeps_trap ht _ _
    · split
      · exact keeps_trap ht _ _
      · refine keeps_translated ht (fun _ => ?_)
        split
        · exact keeps_trap ht _ _
        · split
          · exact keeps_stall ht
          · split
            · exact keeps_trap ht _ _
            · exact keeps_enqueue ht

theorem keeps_execMldacc {a b : Reg} {w : BitVec 1} {n : BitVec 2} {s : State} (h : s.MemWf) :
    Keeps (execMldacc a b w n s) := by
  unfold execMldacc
  dsimp only
  refine keeps_issue h _ ?_
  refine keeps_resumeWait h ?_
  refine keeps_ordered h (fun _ ht => ?_)
  split
  · exact keeps_trap ht _ _
  · split
    · exact keeps_trap ht _ _
    · split
      · exact keeps_trap ht _ _
      · split
        · exact keeps_stall ht
        · refine keeps_readImage ht (fun _ ht1 _ => ?_)
          split
          · exact keeps_trap ht1 _ _
          · split
            · exact keeps_trap ht1 _ _
            · exact keeps_enqueue ht1

theorem keeps_execMstacc {d a : Reg} {w : BitVec 1} {n : BitVec 2} {s : State} (h : s.MemWf) :
    Keeps (execMstacc d a w n s) := by
  unfold execMstacc
  refine keeps_issue h _ ?_
  refine keeps_resumeWait h ?_
  refine keeps_ordered h (fun _ ht => ?_)
  split
  · exact keeps_trap ht _ _
  · split
    · exact keeps_trap ht _ _
    · split
      · exact keeps_stall ht
      · exact keeps_translated ht (fun _ => keeps_enqueue ht)

theorem noteWrite_memWf {s : State} {ctx : Nat} {place : Place} {n : Nat} (h : s.MemWf) :
    (s.noteWrite ctx place n).MemWf := by
  unfold State.noteWrite
  split
  · exact h
  · exact countHbm_memWf h
  · exact memWf_of_eq (countCtx_mem _ _ _ _) h
  · exact memWf_of_eq (countCtx_mem _ _ _ _) h

theorem dropLines_memWf {s : State} {c : CoreId} {addr n : Nat} (h : s.MemWf) : (s.dropLines c addr n).MemWf := by
  unfold State.dropLines
  refine memWf_of_eq (mapCore_mem _ _ _) ?_
  exact h

theorem engineStore_memWf {s : State} {c : CoreId} {ctx : Nat} {place : Place} {addr va : Nat} {bytes : List Byte} {note : Bool}
    (h : s.MemWf) :
    (s.engineStore c ctx place addr va bytes note).MemWf := by
  unfold State.engineStore
  dsimp only
  split
  · exact h
  · split
    · exact h
    · split
      · refine dropLines_memWf ?_
        split
        · exact writeAt_memWf (watchEngine_memWf h) _ _ _ _
        · exact noteWrite_memWf (writeAt_memWf (watchEngine_memWf h) _ _ _ _)
      · split
        · exact writeAt_memWf (watchEngine_memWf h) _ _ _ _
        · exact noteWrite_memWf (writeAt_memWf (watchEngine_memWf h) _ _ _ _)

theorem engineWrite_memWf {s : State} {c : CoreId} {ctx : Nat} {place : Place} {addr va : Nat} {bytes : List Byte} {note : Bool}
    (h : s.MemWf) :
    (s.engineWrite c ctx place addr va bytes note).MemWf := by
  unfold State.engineWrite
  split
  · split
    · exact noteWrite_memWf (watchEngine_memWf h)
    · exact watchEngine_memWf h
  · exact engineStore_memWf h

theorem writeSpan_yields {s : State} {c : CoreId} {q : QCmd} {p : Span} {pl : Place} {a : Nat} (h : s.MemWf) :
    Yields Prod.fst (s.writeSpan c q p pl a) := by
  unfold State.writeSpan
  dsimp only
  split
  · exact yields_none
  · exact yields_some (engineWrite_memWf h)

theorem spanStep_yields {s : State} {c : CoreId} {q : QCmd} {p : Span} (h : s.MemWf) :
    Yields Prod.fst (s.spanStep c q p) := by
  unfold State.spanStep
  split
  · exact writeSpan_yields h
  · split
    next e1 => exact writeSpan_yields (memWf_snd e1 (engineTranslate_memWf h))
    · split
      · exact yields_some h
      · split
        · exact yields_some (memWf_of_eq (mapCore_mem _ _ _) h)
        · exact yields_none

theorem writeSpans_memWf {c : CoreId} {q : QCmd} {one : Bool} : ∀ (l seen : List Span) (moved : Bool) {s : State}, s.MemWf →
    (State.writeSpans c q one l seen moved s).1.MemWf
  | [], _, _, _, h => h
  | p :: l, seen, moved, s, h => by
    unfold State.writeSpans
    split
    · exact writeSpans_memWf l _ _ h
    · split
      next e => exact writeSpans_memWf l _ _ (spanStep_yields h _ e)
      · exact writeSpans_memWf l _ _ h

theorem performMma_memWf {s : State} {c : CoreId} {q : QCmd} {transposed negated : Bool} (h : s.MemWf) :
    (s.performMma c q transposed negated).MemWf :=
  checkChain_memWf (memWf_of_eq (countCtx_mem _ _ _ _) (memWf_of_eq (setCore_mem _ _ _) h))

theorem setHead_memWf {s : State} {c : CoreId} {q : QCmd} (h : s.MemWf) : (s.setHead c q).MemWf :=
  memWf_of_eq (mapCore_mem _ _ _) h

theorem finishWrites_yields {s : State} {c : CoreId} {q : QCmd} {one : Bool} (h : s.MemWf) :
    Yields id (s.finishWrites c q one) := by
  unfold State.finishWrites
  dsimp only
  split
  · exact yields_some (memWf_of_eq (popCommand_mem _ _) (writeSpans_memWf _ _ _ h))
  · split
    · exact yields_some (setHead_memWf (writeSpans_memWf _ _ _ h))
    · exact yields_none

theorem takeOperand_yields {s : State} {c : CoreId} {q : QCmd} {o : Nat} (h : s.MemWf) :
    Yields id (s.takeOperand c q o) := by
  unfold State.takeOperand
  dsimp only
  split
  · exact yields_none
  · split
    · exact yields_none
    · exact yields_some (setHead_memWf h)

theorem commandAccess_yields {s : State} {c : CoreId} {o : Nat} (h : s.MemWf) : Yields id (s.commandAccess c o) := by
  unfold State.commandAccess
  split
  · exact yields_none
  · split
    · exact yields_none
    · split
      · exact takeOperand_yields h
      · exact finishWrites_yields h
      · split
        · exact finishWrites_yields h
        · exact yields_none
      · exact yields_none

theorem finishCommand_yields {s : State} {c : CoreId} {q : QCmd} (h : s.MemWf) : Yields id (s.finishCommand c q) := by
  unfold State.finishCommand
  dsimp only
  split
  · split
    · exact yields_none
    · split
      · refine yields_some ?_
        refine foldl_memWf (fun t _ ht => noteRead_memWf ht) ?_
        exact foldl_memWf (fun t _ ht => watchEngine_memWf ht) h
      · refine yields_some ?_
        refine memWf_of_eq (popCommand_mem _ _) ?_
        refine performMma_memWf ?_
        refine foldl_memWf (fun t _ ht => noteRead_memWf ht) ?_
        exact foldl_memWf (fun t _ ht => watchEngine_memWf ht) h
  · exact finishWrites_yields h
  · exact yields_some (memWf_of_eq (popCommand_mem _ _) (memWf_of_eq (setCore_mem _ _ _) h))
  · split
    · exact finishWrites_yields h
    · exact yields_some (setHead_memWf (memWf_of_eq (setCore_mem _ _ _) h))
  · split
    · exact yields_some (memWf_of_eq (popCommand_mem _ _) h)
    · exact yields_some
        (memWf_of_eq (popCommand_mem _ _) (memWf_of_eq (mapCore_mem _ _ _) (memWf_of_eq (sendRows_mem _ _ _) h)))
  · exact yields_none
  · exact yields_none

/-! ### Carries (`Sys2Proof/Machine/Carry.lean`) -/

theorem keeps_execChain {a b : Reg} {a1 : BitVec 1} {n : BitVec 2} {s : State} (h : s.MemWf) :
    Keeps (execChain a b a1 n s) := by
  unfold execChain
  refine keeps_issue h _ ?_
  refine keeps_onSlot h (fun _ ht _ => ?_)
  split
  · exact keeps_trap ht _ _
  · split
    · exact keeps_trap ht _ _
    · exact keeps_next (advance_memWf ht)

theorem keeps_execCadd {d a b : Reg} {w : BitVec 1} {n : BitVec 2} {s : State} (h : s.MemWf) :
    Keeps (execCadd d a b w n s) := by
  unfold execCadd
  refine keeps_issue h _ ?_
  refine keeps_resumeWait h ?_
  refine keeps_ordered h (fun _ ht => ?_)
  split
  · exact keeps_trap ht _ _
  · split
    · exact keeps_trap ht _ _
    · split
      · exact keeps_stall ht
      · exact keeps_enqueue ht

theorem keeps_execCclose {a1 : BitVec 1} {n : BitVec 2} {s : State} (h : s.MemWf) : Keeps (execCclose a1 n s) := by
  unfold execCclose
  refine keeps_issue h _ ?_
  refine keeps_onSlot h (fun _ ht _ => ?_)
  refine keeps_next ?_
  refine advance_memWf ?_
  split
  · exact closeChain_memWf ht
  · exact ht

theorem keeps_execCwait {a1 : BitVec 1} {n : BitVec 2} {s : State} (h : s.MemWf) : Keeps (execCwait a1 n s) := by
  unfold execCwait
  refine keeps_issue h _ ?_
  refine keeps_ordered h (fun _ ht => ?_)
  split
  · exact keeps_waits ht
  · exact keeps_next (advance_memWf ht)

theorem keeps_execCstat {d a : Reg} {a1 : BitVec 1} {s : State} (h : s.MemWf) : Keeps (execCstat d a a1 s) := by
  unfold execCstat
  refine keeps_issue h _ ?_
  refine keeps_ordered h (fun _ ht => ?_)
  split
  · refine keeps_next ?_
    refine advance_memWf ?_
    split
    · exact ht
    · exact ht
  · refine keeps_next ?_
    refine advance_memWf ?_
    split
    · exact ht
    · exact ht

theorem addRow_memWf {s : State} {m : CarryRow} (h : s.MemWf) : (s.addRow m).MemWf := by
  unfold State.addRow
  dsimp only
  split
  · exact memWf_of_eq (setCore_mem _ _ _) h
  · split
    · exact memWf_of_eq (setCore_mem _ _ _) h
    · split
      · exact memWf_of_eq (setCore_mem _ _ _) h
      · exact checkChain_memWf (memWf_of_eq (setCore_mem _ _ _) h)

theorem keeps_execCarryRowArrival {i : Nat} {s : State} (h : s.MemWf) : Keeps (execCarryRowArrival i s) := by
  unfold execCarryRowArrival
  split
  · exact keeps_refused _
  · split
    · exact keeps_refused _
    · exact keeps_next (addRow_memWf h)

theorem keeps_execCarryRouterMerge {i j : Nat} {s : State} (h : s.MemWf) : Keeps (execCarryRouterMerge i j s) := by
  unfold execCarryRouterMerge
  split
  · split
    · exact keeps_next h
    · exact keeps_refused _
  · exact keeps_refused _

/-! ### Channels (`Sys2Proof/Machine/Channel.lean`) -/

theorem keeps_withCounters {s : State} {b : Word × Word} {body : State → Nat → Nat → Out} (h : s.MemWf)
    (hbody : ∀ (a : State), a.MemWf → ∀ (a_1 a_2 : Nat), Keeps (body a a_1 a_2)) :
    Keeps (s.withCounters b body) := by
  unfold State.withCounters
  dsimp only
  split
  · exact keeps_stall h
  · split
    · exact keeps_next h
    · exact hbody _ (watchRead_memWf (watchRead_memWf h)) _ _

theorem sendPieces_memWf {s : State} {ps : List Piece} {bytes : Nat} (h : s.MemWf) : (s.sendPieces ps bytes).MemWf :=
  putStores_memWf (memWf_of_eq (watchPieces_mem _ _ _) h)

theorem keeps_chanRelease {s : State} {b : Word × Word} {i n : Nat} {done : State → State} (h : s.MemWf)
    (hdone : ∀ (a : State), a.MemWf → (done a).MemWf) :
    Keeps (s.chanRelease b i n done) := by
  unfold State.chanRelease
  dsimp only
  split
  · exact keeps_stall h
  · exact keeps_released h (keeps_next (advance_memWf (hdone _ (sendPieces_memWf h))))

theorem keeps_passed {s : State} {n : Nat} (h : s.MemWf) : Keeps (s.passed n) := keeps_stall h

theorem keeps_chanSend {s : State} {d : Reg} {ch : BitVec 4} {vector : Bool} {align : Nat}
    {source : State → Nat → (State → Nat → Out) → Out} (h : s.MemWf)
    (hsource : ∀ t : State, t.MemWf → ∀ (n : Nat) (body : State → Nat → Out),
      (∀ u : State, u.MemWf → ∀ x : Nat, Keeps (body u x)) → Keeps (source t n body))
    :
    Keeps (s.chanSend d ch vector align source) := by
  unfold State.chanSend
  dsimp only
  refine keeps_ordered h (fun _ ht => ?_)
  split
  · exact keeps_trap ht _ _
  · split
    · exact keeps_trap ht _ _
    · split
      · exact keeps_chanRelease ht (fun _ ht1 => ht1)
      · refine keeps_withCounters ht (fun _ ht1 _ _ => ?_)
        split
        · exact keeps_waits ht1
        · refine hsource _ (acquired_memWf ht1) _ _ (fun _ ht2 _ => ?_)
          split
          · exact keeps_stall ht2
          · exact keeps_passed (sendPieces_memWf ht2)

theorem keeps_execChsnd {d a : Reg} {c : BitVec 4} {s : State} (h : s.MemWf) : Keeps (execChsnd d a c s) :=
  keeps_issue h _ (keeps_chanSend h (fun _ ht _ _ hx => keeps_readImage ht (fun _ ht1 _ => hx _ ht1 _)))

theorem keeps_execChsndv {d a : Reg} {c : BitVec 4} {s : State} (h : s.MemWf) : Keeps (execChsndv d a c s) :=
  keeps_issue h _ (keeps_chanSend h (fun _ ht _ _ hx => hx _ ht _))

theorem keeps_chanReceive {s : State} {ch : BitVec 4} {vector : Bool} {align : Nat}
    {first last : State → Word × Word → Nat → Nat → Out} (h : s.MemWf)
    (hfirst : ∀ (a : State), a.MemWf → ∀ (a_1 : Word × Word) (a_2 a_3 : Nat), Keeps (first a a_1 a_2 a_3))
    (hlast : ∀ (a : State), a.MemWf → ∀ (a_1 : Word × Word) (a_2 a_3 : Nat), Keeps (last a a_1 a_2 a_3)) :
    Keeps (s.chanReceive ch vector align first last) := by
  unfold State.chanReceive
  dsimp only
  refine keeps_ordered h (fun _ ht => ?_)
  split
  · exact keeps_trap ht _ _
  · split
    · exact keeps_trap ht _ _
    · split
      · exact hlast _ ht _ _ _
      · refine keeps_withCounters ht (fun _ ht1 _ _ => ?_)
        split
        · exact keeps_waits ht1
        · split
          · exact keeps_next ht1
          · refine hfirst _ ?_ _ _ _
            refine acquired_memWf ?_
            exact foldl_memWf (fun t2 _ ht2 => memWf_of_eq (watchOwn_mem _ _ _) ht2) ht1

theorem keeps_storeMessage {s : State} {va n bytes : Nat} {body : State → Out} (h : s.MemWf)
    (hbody : ∀ (a : State), a.MemWf → Keeps (body a)) :
    Keeps (s.storeMessage va n bytes body) := by
  unfold State.storeMessage
  dsimp only
  split
  · exact keeps_trap h _ _
  · exact keeps_startWalk h
  · exact keeps_holdWrite h
  · split
    · exact keeps_stall h
    · exact hbody _ (sendPieces_memWf h)

theorem keeps_execChrcv {d a : Reg} {c : BitVec 4} {s : State} (h : s.MemWf) : Keeps (execChrcv d a c s) :=
  keeps_issue h _
      (keeps_chanReceive h (fun _ ht _ _ _ => keeps_storeMessage ht (fun _ ht1 => keeps_passed ht1))
        (fun _ ht _ _ _ => keeps_chanRelease ht (fun _ ht1 => ht1)))

theorem keeps_execChrcvv {d : Reg} {c : BitVec 4} {s : State} (h : s.MemWf) : Keeps (execChrcvv d c s) :=
  keeps_issue h _
      (keeps_chanReceive h (fun _ ht _ _ _ => keeps_passed ht) (fun _ ht _ _ _ => keeps_chanRelease ht (fun _ ht1 => ht1)))

theorem keeps_execChpoll {d : Reg} {c : BitVec 4} {s : State} (h : s.MemWf) : Keeps (execChpoll d c s) := by
  unfold execChpoll
  dsimp only
  refine keeps_issue h _ ?_
  refine keeps_ordered h (fun _ ht => ?_)
  split
  · exact keeps_trap ht _ _
  · exact keeps_withCounters ht (fun _ ht1 _ _ => keeps_next (advance_memWf ht1))

/-! ### Overlapped loops (`Sys2Proof/Machine/Overlap.lean`) -/

theorem keepYoung_memWf {s t : State} (ht : t.MemWf) : (s.keepYoung t).MemWf := by
  unfold State.keepYoung
  dsimp only
  split
  · exact ht
  · split
    · exact ht
    · exact memWf_of_eq (mapCore_mem _ _ _) ht

theorem acceptYoung_yields {s : State} {r : LoopRec} {j : Nat} {v : Core} {t : State} (ht : t.MemWf) :
    Yields id (s.acceptYoung r j v t) := by
  unfold State.acceptYoung
  dsimp only
  split
  · exact yields_some ht
  · exact yields_none

/-! ### Loops, gangs and collectives (`Sys2Proof/Machine/Control.lean`) -/

theorem keeps_transfer {s : State} {ss : List (Reg × Nat)} {ds : List Reg} {taken : Bool} {x : Word} (h : s.MemWf) :
    Keeps (s.transfer ss ds taken x) := by
  unfold State.transfer
  split
  · refine keeps_issue h _ ?_
    split
    · refine keeps_next ?_
      refine goto_memWf ?_ _
      exact foldl_memWf (fun t _ ht => ht) h
    · exact keeps_stall h
  · refine keeps_issue h _ ?_
    split
    · split
      · exact keeps_trapWord h _
      · refine keeps_next ?_
        refine goto_memWf ?_ _
        exact foldl_memWf (fun t _ ht => ht) (putOutcome_memWf h)
    · split
      · exact keeps_trapWord h _
      · refine keeps_next ?_
        refine goto_memWf ?_ _
        exact foldl_memWf (fun t _ ht => ht) (putOutcome_memWf h)

theorem keeps_branch {s : State} {a : Reg} {da : Dist} {o : BitVec 16} {test : Word → Bool} (h : s.MemWf) :
    Keeps (s.branch a da o test) :=
  keeps_transfer h

theorem keeps_execBeqz {a : Reg} {da : Dist} {o : BitVec 16} {s : State} (h : s.MemWf) : Keeps (execBeqz a da o s) :=
  keeps_branch h

theorem keeps_execBnez {a : Reg} {da : Dist} {o : BitVec 16} {s : State} (h : s.MemWf) : Keeps (execBnez a da o s) :=
  keeps_branch h

theorem keeps_execBltz {a : Reg} {da : Dist} {o : BitVec 16} {s : State} (h : s.MemWf) : Keeps (execBltz a da o s) :=
  keeps_branch h

theorem keeps_execBgez {a : Reg} {da : Dist} {o : BitVec 16} {s : State} (h : s.MemWf) : Keeps (execBgez a da o s) :=
  keeps_branch h

theorem keeps_execBgtz {a : Reg} {da : Dist} {o : BitVec 16} {s : State} (h : s.MemWf) : Keeps (execBgtz a da o s) :=
  keeps_branch h

theorem keeps_execBlez {a : Reg} {da : Dist} {o : BitVec 16} {s : State} (h : s.MemWf) : Keeps (execBlez a da o s) :=
  keeps_branch h

theorem keeps_execBodd {a : Reg} {da : Dist} {o : BitVec 16} {s : State} (h : s.MemWf) : Keeps (execBodd a da o s) :=
  keeps_branch h

theorem keeps_execJmp {o : BitVec 26} {s : State} (h : s.MemWf) : Keeps (execJmp o s) := keeps_transfer h

theorem keeps_execJal {o : BitVec 26} {s : State} (h : s.MemWf) : Keeps (execJal o s) := keeps_transfer h

theorem keeps_execJr {a : Reg} {da : Dist} {s : State} (h : s.MemWf) : Keeps (execJr a da s) := keeps_transfer h

theorem keeps_execJalr {d a : Reg} {da : Dist} {s : State} (h : s.MemWf) : Keeps (execJalr d a da s) := keeps_transfer h

theorem prefetchWord_yields {s : State} {va : Nat} (h : s.MemWf) : Yields Prod.snd (s.prefetchWord va) := by
  unfold State.prefetchWord
  dsimp only
  split
  · exact yields_some h
  · split
    · split
      next e3 => exact yields_some (Fetched.keeps_of_eq e3 (readWord_keeps h))
      · exact yields_none
    · split
      · exact yields_none
      · split
        · split
          next e6 => exact yields_some (Fetched.keeps_of_eq e6 (readWord_keeps (orAD_memWf (countWalk_memWf h))))
          · exact yields_none
        · exact yields_none
    · exact yields_none

theorem startLoop_memWf {s : State} {r : LoopRec} (h : s.MemWf) : (s.startLoop r).MemWf := by
  unfold State.startLoop
  dsimp only
  split
  · refine goto_memWf ?_ _
    exact h
  · refine goto_memWf ?_ _
    exact h

theorem keeps_noLoader {s : State} {body : Out} (h : s.MemWf) (hbody : Keeps body) : Keeps (s.noLoader body) := by
  unfold State.noLoader
  split
  · exact keeps_trap h _ _
  · exact hbody

theorem keeps_execLcar {b a : Reg} {da : Dist} {i : BitVec 11} {s : State} (h : s.MemWf) : Keeps (execLcar b a da i s) := by
  unfold execLcar
  dsimp only
  split
  · exact keeps_trapWord h _
  · refine keeps_issue h _ ?_
    refine keeps_noLoader h ?_
    split
    · exact keeps_next (advance_memWf h)
    · exact keeps_trapWord h _

theorem putRecord_memWf {s : State} {r : LoopRec} (h : s.MemWf) : (s.putRecord r).MemWf := by
  unfold State.putRecord
  split
  · exact memWf_of_eq (mapCore_mem _ _ _) h
  · exact h

theorem keeps_execLoop {a : Reg} {da : Dist} {n : BitVec 11} {s : State} (h : s.MemWf) : Keeps (execLoop a da n s) := by
  unfold execLoop
  dsimp only
  split
  · split
    · exact keeps_trapWord h _
    · split
      · exact keeps_trapWord h _
      · refine keeps_noLoader h ?_
        split
        · split
          · exact keeps_next (startLoop_memWf h)
          · exact keeps_stall h
        · exact keeps_stall h
  · split
    · exact keeps_trapWord h _
    · split
      · exact keeps_trapWord h _
      · refine keeps_noLoader h ?_
        split
        · exact keeps_trapWord h _
        · split
          · exact keeps_trap h _ _
          · exact keeps_startWalk h
          next e4 => exact keeps_next (Fetched.keeps_of_eq e4 (fetchAt_keeps h))
          · exact keeps_stall h
          next e4 =>
            split
            · exact keeps_trapWord h _
            · split
              · exact keeps_stall h
              · exact keeps_next (startLoop_memWf (putRecord_memWf (Fetched.keeps_of_eq e4 (fetchAt_keeps h))))

theorem keeps_execEndit {s : State} (h : s.MemWf) : Keeps (execEndit s) := by
  unfold execEndit
  split
  · exact keeps_trapWord h _
  · refine keeps_noLoader h ?_
    split
    · exact keeps_trapWord h _
    · refine keeps_next ?_
      refine memWf_of_eq (issued_mem _) ?_
      exact h

theorem keeps_condition {s : State} {a : Reg} {da : Dist} {body : State → Bool → Out} (h : s.MemWf)
    (hbody : ∀ (a : State), a.MemWf → ∀ (a_1 : Bool), Keeps (body a a_1)) :
    Keeps (s.condition a da body) := by
  unfold State.condition
  split
  · split
    · exact hbody _ h _
    · exact keeps_stall h
  · exact keeps_issue h _ (hbody _ (putOutcome_memWf h) _)

theorem keeps_execBrkif {a : Reg} {da : Dist} {l : BitVec 11} {s : State} (h : s.MemWf) : Keeps (execBrkif a da l s) := by
  unfold execBrkif
  split
  · exact keeps_trapWord h _
  · split
    · exact keeps_trapWord h _
    · split
      · exact keeps_trapWord h _
      · refine keeps_noLoader h ?_
        refine keeps_condition h (fun _ ht _ => ?_)
        split
        · refine keeps_next ?_
          refine memWf_of_eq (issued_mem _) ?_
          exact ht
        · exact keeps_next (advance_memWf ht)

theorem keeps_execContif {a : Reg} {da : Dist} {s : State} (h : s.MemWf) : Keeps (execContif a da s) := by
  unfold execContif
  split
  · exact keeps_trapWord h _
  · split
    · exact keeps_trapWord h _
    · refine keeps_noLoader h ?_
      refine keeps_condition h (fun _ ht _ => ?_)
      split
      · exact keeps_next (goto_memWf ht _)
      · exact keeps_next (advance_memWf ht)

theorem keeps_execItx {d : Reg} {l : BitVec 11} {s : State} (h : s.MemWf) : Keeps (execItx d l s) := by
  unfold execItx
  split
  · exact keeps_trapWord h _
  · exact keeps_issue h _ (keeps_noLoader h (keeps_next (advance_memWf h)))

theorem keeps_execLstat {d : Reg} {l : BitVec 11} {s : State} (h : s.MemWf) : Keeps (execLstat d l s) :=
  keeps_issue h _ (keeps_noLoader h (keeps_next (advance_memWf h)))

theorem keeps_execMovd {d a : Reg} {m : BitVec 3} {s : State} (h : s.MemWf) : Keeps (execMovd d a m s) :=
  keeps_issue h _ (keeps_noLoader h (keeps_next (advance_memWf h)))

theorem refill_memWf {s : State} (h : s.MemWf) : (s.refill).MemWf := by
  unfold State.refill
  dsimp only
  split
  · split
    · refine foldl_memWf (fun t _ ht => ?_) ?_
      · split
        · split
          next e3 => exact (prefetchWord_yields ht) _ e3
          · exact ht
        · exact ht
      · exact h
    · exact h
  · exact h

theorem keeps_execIterationRetire {c : Nat} {s : State} (h : s.MemWf) : Keeps (execIterationRetire c s) := by
  unfold execIterationRetire
  dsimp only
  split
  · split
    · exact keeps_next (afterInstr_memWf (refill_memWf (flush_memWf (memWf_of_eq (focus_mem _ _) h))))
    · exact keeps_refused _
  · exact keeps_refused _

theorem joinFails_memWf {s : State} {g : Gang} (h : s.MemWf) : (s.joinFails g).MemWf := by
  unfold State.joinFails
  exact foldl_memWf (fun t _ ht => enterCore_memWf (memWf_of_eq (setCore_mem _ _ _) ht) _ _ _ _ _ _ _ _) h

theorem keeps_execFuse {s : State} (h : s.MemWf) : Keeps (execFuse s) := by
  unfold execFuse
  dsimp only
  split
  · exact keeps_trapWord h _
  · split
    · exact keeps_next (advance_memWf h)
    · exact keeps_next (advance_memWf h)
    · split
      · exact keeps_waits h
      · split
        · refine keeps_next ?_
          refine afterInstr_memWf ?_
          refine foldl_memWf (fun t _ ht => memWf_of_eq (mapCore_mem _ _ _) ht) ?_
          exact h
        · exact keeps_next (memWf_of_eq (rotateIfStopped_mem _) (joinFails_memWf h))

theorem keeps_execSplit {s : State} (h : s.MemWf) : Keeps (execSplit s) := by
  unfold execSplit
  split
  · exact keeps_trapWord h _
  · split
    · exact keeps_trapWord h _
    · split
      · refine keeps_next ?_
        exact foldl_memWf (fun t _ ht => memWf_of_eq (mapCore_mem _ _ _) ht) (advance_memWf h)
      · exact keeps_next (advance_memWf h)

theorem keeps_collective {s : State} {d a : Reg} {da : Dist} {f : List Word → Word} (h : s.MemWf) :
    Keeps (s.collective d a da f) := by
  unfold State.collective
  split
  · split
    · exact keeps_trapWord h _
    · exact keeps_trapWord h _
  · refine keeps_issue h _ ?_
    split
    · split
      · exact keeps_next (advance_memWf h)
      · exact keeps_stall h
    · split
      · exact keeps_next (advance_memWf (putOutcome_memWf h))
      · exact keeps_stall h

theorem keeps_execGany {d a : Reg} {da : Dist} {s : State} (h : s.MemWf) : Keeps (execGany d a da s) := keeps_collective h

theorem keeps_execGall {d a : Reg} {da : Dist} {s : State} (h : s.MemWf) : Keeps (execGall d a da s) := keeps_collective h

theorem keeps_execGidx {d : Reg} {s : State} (h : s.MemWf) : Keeps (execGidx d s) := by
  unfold execGidx
  split
  · exact keeps_trapWord h _
  · exact keeps_form0 h _ _

theorem keeps_execGbc {d a : Reg} {da : Dist} {m : BitVec 11} {s : State} (h : s.MemWf) : Keeps (execGbc d a da m s) :=
  keeps_collective h

theorem keeps_execGsum {d a : Reg} {da : Dist} {s : State} (h : s.MemWf) : Keeps (execGsum d a da s) := keeps_collective h

/-! ### Copy jobs (`Sys2Proof/Machine/Copy.lean`) -/

theorem keeps_execCpstat {d a : Reg} {s : State} (h : s.MemWf) : Keeps (execCpstat d a s) :=
  keeps_issue h _ (keeps_ordered h (fun _ ht => keeps_next (advance_memWf ht)))

theorem keeps_execCpwait {d a : Reg} {s : State} (h : s.MemWf) : Keeps (execCpwait d a s) := by
  unfold execCpwait
  refine keeps_issue h _ ?_
  refine keeps_ordered h (fun _ ht => ?_)
  split
  · split
    · exact keeps_next (advance_memWf ht)
    · exact keeps_waits ht
  · split
    · exact keeps_waits ht
    · exact keeps_next (advance_memWf ht)

theorem finishJob_memWf {s : State} {c : CoreId} {j : Job} (h : s.MemWf) : (s.finishJob c j).MemWf :=
  engineFulfil_memWf (memWf_of_eq (mapCore_mem _ _ _) h)

theorem failJob_memWf {s : State} {c : CoreId} {j : Job} {cause : Cause} (h : s.MemWf) : (s.failJob c j cause).MemWf := by
  unfold State.failJob
  split
  · refine memWf_of_eq (mapCore_mem _ _ _) ?_
    refine memWf_of_eq (mapCore_mem _ _ _) ?_
    exact h
  · refine engineFulfil_memWf ?_
    refine memWf_of_eq (mapCore_mem _ _ _) ?_
    exact h

theorem setJob_memWf {s : State} {c : CoreId} {n : Nat} {f : Job → Job} (h : s.MemWf) : (s.setJob c n f).MemWf :=
  memWf_of_eq (mapCore_mem _ _ _) h

theorem putJob_memWf {s : State} {c : CoreId} {j : Job} (h : s.MemWf) : (s.putJob c j).MemWf := setJob_memWf h

theorem noteJobRead_memWf {s : State} {ctx : Nat} {place : Place} {addr n : Nat} {pte : Word} {first : Bool} (h : s.MemWf) :
    (s.noteJobRead ctx place addr n pte first).MemWf := by
  unfold State.noteJobRead
  split
  · exact h
  · exact noteRead_memWf h

theorem partRead_keeps {s : State} {c : CoreId} {j : Job} {share : Bool} {p : JobPart} (h : s.MemWf) :
    (s.partRead c j share p).Keeps := by
  unfold State.partRead
  split
  next e1 =>
    split
    · exact trivial
    · split
      · exact memWf_of_same (memWf_snd e1 (engineTranslate_memWf h)) rfl
      · split
        · exact noteJobRead_memWf (watchEngine_memWf (memWf_snd e1 (engineTranslate_memWf h)))
        · exact noteJobRead_memWf (watchEngine_memWf (memWf_snd e1 (engineTranslate_memWf h)))
  · exact trivial
  · exact trivial
  · exact trivial

theorem fetchData_keeps {c : CoreId} {share : Bool} : ∀ (l : List Nat) {s : State} {j : Job}, s.MemWf →
    (State.fetchData c share l s j).Keeps
  | [], _, _, h => h
  | o :: l, s, j, h => by
    unfold State.fetchData
    split
    · exact fetchData_keeps l h
    · split
      · exact fetchData_keeps l h
      · split
        next e => exact fetchData_keeps l (ReadRes.keeps_of_eq e (partRead_keeps h))
        · exact h
        next e => exact ReadRes.keeps_of_eq e (partRead_keeps h)
        · exact h

theorem readRecord_keeps {c : CoreId} : ∀ (n : Nat) {s : State} {j : Job}, s.MemWf → (State.readRecord c n s j).Keeps
  | 0, _, _, h => h
  | n + 1, s, j, h => by
    unfold State.readRecord
    dsimp only
    split
    · exact h
    · split
      next e => exact readRecord_keeps n (ReadRes.keeps_of_eq e (partRead_keeps h))
      · exact h
      next e => exact ReadRes.keeps_of_eq e (partRead_keeps h)
      · exact h

theorem partWrite_keeps {s : State} {c : CoreId} {j : Job} {i : Nat} {p : JobPart} (h : s.MemWf) :
    (s.partWrite c j i p).Keeps := by
  unfold State.partWrite
  split
  · exact h
  · split
    next e2 =>
      split
      · exact h
      · split
        · exact h
        · split
          · split
            · exact h
            · split
              · exact memWf_of_same (memWf_snd e2 (engineTranslate_memWf h)) rfl
              · split
                · exact h
                · exact engineStore_memWf (noteRead_memWf (watchEngine_memWf (memWf_snd e2 (engineTranslate_memWf h))))
          · exact engineWrite_memWf (memWf_snd e2 (engineTranslate_memWf h))
    · split
      · exact h
      · split
        · exact h
        · exact h
    · exact h
    · exact h
    · exact h

theorem beforeWrites_keeps {s : State} {c : CoreId} {j : Job} (h : s.MemWf) : (s.beforeWrites c j).Keeps := by
  unfold State.beforeWrites
  split
  · exact h
  · split
    · exact h
    · split
      · split
        next e3 =>
          split
          · show State.MemWf _
            exact PartRes.keeps_of_eq e3 (fetchData_keeps _ h)
          · show State.MemWf _
            exact PartRes.keeps_of_eq e3 (fetchData_keeps _ h)
        · exact fetchData_keeps _ h
      · exact h

theorem andThen_keeps {r : PartRes} {f : State → Job → PartRes} (hr : r.Keeps)
    (hf : ∀ (a : State), a.MemWf → ∀ (a_1 : Job), (f a a_1).Keeps) :
    (r.andThen f).Keeps := by
  unfold PartRes.andThen
  split
  · exact hf _ hr _
  · exact hr

theorem jobWrite_keeps {s : State} {c : CoreId} {j : Job} {i : Nat} {p : JobPart} (h : s.MemWf) :
    (s.jobWrite c j i p).Keeps :=
  andThen_keeps (fetchData_keeps _ h) (fun _ ht _ => partWrite_keeps ht)

theorem jobWrites_keeps {c : CoreId} : ∀ (l : List (Nat × JobPart)) {s : State} {j : Job}, s.MemWf →
    (State.jobWrites c l s j).Keeps
  | [], _, _, h => h
  | (i, p) :: l, s, j, h => by
    unfold State.jobWrites
    split
    · exact jobWrites_keeps l h
    · exact andThen_keeps (jobWrite_keeps h) fun _ ht _ => jobWrites_keeps l ht

theorem outcome_keeps {r : PartRes} {c : CoreId} {j : Job} {finished : Bool} (hr : r.Keeps) :
    (r.outcome c j finished).Keeps := by
  unfold PartRes.outcome
  split
  · split
    · exact hr
    · exact putJob_memWf hr
  · exact hr
  · exact putJob_memWf hr
  · split
    · exact trivial
    · exact putJob_memWf hr

theorem finishRecord_keeps {s : State} {c : CoreId} {j : Job} {n : Nat} (h : s.MemWf) : (s.finishRecord c j n).Keeps := by
  unfold State.finishRecord
  refine andThen_keeps (readRecord_keeps _ h) (fun _ ht _ => ?_)
  split
  · exact ht
  · exact ht

theorem runPlain_keeps {s : State} {c : CoreId} {j : Job} (h : s.MemWf) : (s.runPlain c j).Keeps := by
  unfold State.runPlain
  split
  · exact trivial
  · split
    · exact outcome_keeps (finishRecord_keeps h)
    · exact outcome_keeps (andThen_keeps (beforeWrites_keeps h) (fun _ ht _ => jobWrites_keeps _ ht))

theorem keeps_out {r : JobRes} {c : CoreId} {j : Job} {fails : Bool} {name : String} (hr : r.Keeps) :
    Keeps (r.out c j fails name) := by
  unfold JobRes.out
  split
  · split
    · exact keeps_refused _
    · exact keeps_next (finishJob_memWf hr)
  · split
    · exact keeps_next (failJob_memWf hr)
    · exact keeps_refused _
  · exact keeps_refused _
  · exact keeps_next hr
  · split
    · exact keeps_refused _
    · exact keeps_next hr

theorem jobAccess_keeps {s : State} {c : CoreId} {j : Job} {pick : Nat} (h : s.MemWf) : (s.jobAccess c j pick).Keeps := by
  unfold State.jobAccess
  split
  · exact finishRecord_keeps h
  · split
    · exact fetchData_keeps _ h
    · split
      · exact h
      · split
        · exact h
        · exact andThen_keeps (beforeWrites_keeps h) (fun _ ht _ => jobWrite_keeps ht)

theorem keeps_jobStep {s : State} {c i pick : Nat} (h : s.MemWf) : Keeps (s.jobStep c i pick) := by
  unfold State.jobStep
  split
  · split
    · split
      next e2 => exact keeps_next (JobRes.keeps_of_eq e2 (outcome_keeps (jobAccess_keeps h)))
      next e2 => exact keeps_next (JobRes.keeps_of_eq e2 (outcome_keeps (jobAccess_keeps h)))
      next e2 => exact keeps_next (JobRes.keeps_of_eq e2 (outcome_keeps (jobAccess_keeps h)))
      next e3 =>
        split
        · exact keeps_next (failJob_memWf (JobRes.keeps_of_eq e3 (outcome_keeps (jobAccess_keeps h))))
        · exact keeps_refused _
      · exact keeps_refused _
    · exact keeps_refused _
  · exact keeps_refused _

theorem keeps_jobMerge {s : State} {c i o : Nat} (h : s.MemWf) : Keeps (s.jobMerge c i o) := by
  unfold State.jobMerge
  split
  · split
    · split
      next e4 =>
        split
        · exact keeps_next (putJob_memWf (watchEngine_memWf (memWf_snd e4 (engineTranslate_memWf h))))
        · exact keeps_refused _
      · exact keeps_refused _
    · exact keeps_refused _
  · exact keeps_refused _

/-! ### The window (`Sys2Proof/Machine/Window.lean`) -/

theorem watchWindow_memWf {s : State} {acc : Access} {o : Nat} (h : s.MemWf) : (s.watchWindow acc o).MemWf :=
  memWf_of_eq (watchOwn_mem _ _ _) h

theorem keeps_qgo {s : State} (h : s.MemWf) : Keeps (s.qgo) := by
  unfold State.qgo
  split
  · exact keeps_trap h _ _
  · split
    · exact keeps_next (advance_memWf (watchWindow_memWf h))
    · split
      · exact keeps_stall h
      · exact keeps_next (advance_memWf (watchWindow_memWf h))

theorem keeps_windowStore {s : State} {o : Nat} {x : Word} (h : s.MemWf) : Keeps (s.windowStore o x) := by
  unfold State.windowStore
  split
  · exact keeps_trap h _ _
  · refine keeps_ordered h (fun _ ht => ?_)
    split
    · exact keeps_qgo ht
    · exact keeps_next (advance_memWf (watchWindow_memWf ht))

theorem keeps_qgoOf {s : State} {kind : Nat} {name : String} (h : s.MemWf) : Keeps (s.qgoOf kind name) := by
  unfold State.qgoOf
  split
  · exact keeps_ordered h (fun _ ht => keeps_qgo ht)
  · exact keeps_refused _

theorem keeps_execQgoCopy {s : State} (h : s.MemWf) : Keeps (execQgoCopy s) := keeps_qgoOf h

theorem keeps_execQgoTensor {s : State} (h : s.MemWf) : Keeps (execQgoTensor s) := keeps_qgoOf h

theorem keeps_execQgoMcast {s : State} (h : s.MemWf) : Keeps (execQgoMcast s) := keeps_qgoOf h

theorem keeps_execQgoMcwrite {s : State} (h : s.MemWf) : Keeps (execQgoMcwrite s) := keeps_qgoOf h

theorem keeps_execQgoFill {s : State} (h : s.MemWf) : Keeps (execQgoFill s) := keeps_qgoOf h

theorem keeps_execQgoSubscribe {s : State} (h : s.MemWf) : Keeps (execQgoSubscribe s) := keeps_qgoOf h

theorem keeps_execQgoPull {s : State} (h : s.MemWf) : Keeps (execQgoPull s) := keeps_qgoOf h

theorem keeps_execRegisterWrite {n : BitVec 2} {v : Word} {s : State} (h : s.MemWf) : Keeps (execRegisterWrite n v s) :=
  keeps_windowStore h

/-! ### Rings (`Sys2Proof/Machine/Ring.lean`) -/

theorem entryAction_memWf {s : State} {c : CoreId} {e : Nat} (h : s.MemWf) : (s.entryAction c e).MemWf := by
  unfold State.entryAction
  dsimp only
  split
  · exact h
  · split
    · split
      · exact h
      · exact engineFulfil_memWf (memWf_of_eq (setCore_mem _ _ _) h)
    · split
      · exact memWf_of_eq (setCore_mem _ _ _) h
      · split
        · exact memWf_of_eq (setCore_mem _ _ _) h
        · split
          · exact h
          · exact memWf_of_eq (setCore_mem _ _ _) h

theorem entryActions_memWf {s : State} {c : CoreId} (h : s.MemWf) : (s.entryActions c).MemWf := by
  unfold State.entryActions
  exact foldl_memWf (fun t _ ht => entryAction_memWf ht) h

theorem keeps_execCpcan {a : Reg} {s : State} (h : s.MemWf) : Keeps (execCpcan a s) := by
  unfold execCpcan
  refine keeps_issue h _ ?_
  refine keeps_ordered h (fun _ ht => ?_)
  split
  · exact keeps_next (advance_memWf ht)
  · split
    · exact keeps_stall ht
    · exact keeps_next (advance_memWf (entryActions_memWf (engineFulfil_memWf ht)))

theorem ringIdle_memWf {s : State} {cl : Nat} (h : s.MemWf) : (s.ringIdle cl).MemWf := by
  unfold State.ringIdle
  dsimp only
  split
  · exact h
  · exact h

theorem taskDone_memWf {s : State} {c : CoreId} {e : Nat} (h : s.MemWf) : (s.taskDone c e).MemWf :=
  ringIdle_memWf (entryActions_memWf (memWf_of_eq (mapCore_mem _ _ _) h))

theorem performTask_memWf {s : State} {c : CoreId} {q : QCmd} {negated : Bool} (h : s.MemWf) :
    (s.performTask c q negated).MemWf := by
  unfold State.performTask
  split
  · exact checkChain_memWf (memWf_of_eq (countCtx_mem _ _ _ _) (memWf_of_eq (setCore_mem _ _ _) h))
  · exact h

theorem performPull_memWf {s : State} {c : CoreId} {q : QCmd} {owner job : Nat} (h : s.MemWf) :
    (s.performPull c q owner job).MemWf := by
  unfold State.performPull
  dsimp only
  split
  · exact h
  · split
    · exact failJob_memWf h
    · split
      · exact failJob_memWf h
      · exact setJob_memWf h

theorem keeps_execMatrixCommandComplete {c : Nat} {s : State} (h : s.MemWf) : Keeps (execMatrixCommandComplete c s) := by
  unfold execMatrixCommandComplete
  split
  · exact keeps_refused _
  · split
    · exact keeps_refused _
    · split
      · exact keeps_next (taskDone_memWf (memWf_of_eq (popCommand_mem _ _) (performTask_memWf h)))
      · exact keeps_next (entryActions_memWf (performPull_memWf (memWf_of_eq (popCommand_mem _ _) h)))
      · split
        next e4 => exact keeps_next (entryActions_memWf ((finishCommand_yields h) _ e4))
        · exact keeps_refused _

theorem fire_memWf {s : State} {c : CoreId} {e : Nat} {x y : Bead} {slot : Option Nat} (h : s.MemWf) :
    (s.fire c e x y slot).MemWf := by
  unfold State.fire
  split
  · refine memWf_of_eq (setCore_mem _ _ _) ?_
    refine memWf_of_eq (mapCore_mem _ _ _) ?_
    exact h
  · refine memWf_of_eq (mapCore_mem _ _ _) ?_
    refine engineWrite_memWf ?_
    refine engineWrite_memWf ?_
    refine engineWrite_memWf ?_
    refine engineWrite_memWf ?_
    refine memWf_of_eq (mapCore_mem _ _ _) ?_
    exact h

theorem memWf_matched {part : Bool} {oa ob : Option Bead} {s : State} {f : Bead → Bead → State} (h : s.MemWf)
    (hf : ∀ x y, (f x y).MemWf) :
    (match part, oa, ob with
    | true, some x, some y => f x y
    | _, _, _ => s).MemWf := by
  split
  · exact hf _ _
  · exact h

theorem memWf_ite {p : Prop} [Decidable p] {s t : State} (hs : s.MemWf) (ht : t.MemWf) : (if p then s else t).MemWf := by
  split
  · exact hs
  · exact ht

theorem matchAt_memWf {s : State} {c : CoreId} (h : s.MemWf) : (s.matchAt c).MemWf := by
  refine memWf_matched h fun x y => ?_
  generalize (List.range 8).find? _ = o
  cases o with
  | none => exact h
  | some e =>
    refine memWf_ite h (memWf_ite ?full (memWf_ite ?frozen ?fire))
    case full => exact memWf_of_eq (setCore_mem _ _ _) h
    case frozen => exact memWf_of_eq (mapCore_mem _ _ _) h
    case fire => exact fire_memWf h

theorem takeBeads_memWf {cl : Nat} : ∀ (l : List (CoreId × Nat)) {s : State}, s.MemWf → (State.takeBeads cl l s).MemWf
  | [], _, h => h
  | (c, tag) :: l, s, h => by
    unfold State.takeBeads
    refine takeBeads_memWf l (memWf_of_eq (mapCore_mem _ _ _) ?_)
    split
    · exact h
    · exact h

theorem keeps_execRingStep {cl : Nat} {s : State} (h : s.MemWf) : Keeps (execRingStep cl s) := by
  unfold execRingStep
  dsimp only
  split
  · split
    · exact keeps_refused _
    · refine keeps_next ?_
      refine ringIdle_memWf ?_
      refine foldl_memWf (fun t _ ht => entryActions_memWf ht) ?_
      split
      · refine memWf_of_eq (mapCore_mem _ _ _) ?_
        refine takeBeads_memWf _ ?_
        refine foldl_memWf (fun t _ ht => matchAt_memWf ht) ?_
        exact h
      · refine takeBeads_memWf _ ?_
        refine foldl_memWf (fun t _ ht => matchAt_memWf ht) ?_
        exact h
  · split
    · exact keeps_refused _
    · refine keeps_next ?_
      refine ringIdle_memWf ?_
      refine foldl_memWf (fun t _ ht => entryActions_memWf ht) ?_
      split
      · refine memWf_of_eq (mapCore_mem _ _ _) ?_
        refine takeBeads_memWf _ ?_
        refine foldl_memWf (fun t _ ht => matchAt_memWf ht) ?_
        exact h
      · refine takeBeads_memWf _ ?_
        refine foldl_memWf (fun t _ ht => matchAt_memWf ht) ?_
        exact h

theorem keeps_execRgcfg {a : Reg} {s : State} (h : s.MemWf) : Keeps (execRgcfg a s) := by
  unfold execRgcfg
  dsimp only
  refine keeps_issue h _ ?_
  refine keeps_ordered h (fun _ ht => ?_)
  split
  · exact keeps_trap ht _ _
  · split
    · exact keeps_trap ht _ _
    · refine keeps_next ?_
      refine advance_memWf ?_
      refine foldl_memWf (fun t1 _ ht1 => memWf_of_eq (mapCore_mem _ _ _) ht1) ?_
      exact ht

theorem keeps_loadMatch {s : State} {img : List Byte} (h : s.MemWf) : Keeps (s.loadMatch img) := by
  unfold State.loadMatch
  split
  · exact keeps_stall h
  · exact keeps_next (advance_memWf h)

theorem keeps_execMtld {a : Reg} {s : State} (h : s.MemWf) : Keeps (execMtld a s) := by
  unfold execMtld
  refine keeps_issue h _ ?_
  refine keeps_ordered h (fun _ ht => ?_)
  split
  · exact keeps_trap ht _ _
  · refine keeps_readImage ht (fun _ ht1 _ => ?_)
    split
    · exact keeps_trap ht1 _ _
    · exact keeps_loadMatch ht1

theorem keeps_execMtclr {s : State} (h : s.MemWf) : Keeps (execMtclr s) :=
  keeps_issue h _ (keeps_ordered h (fun _ ht => keeps_loadMatch ht))

theorem keeps_execBinj {a : Reg} {w : BitVec 1} {s : State} (h : s.MemWf) : Keeps (execBinj a w s) := by
  unfold execBinj
  dsimp only
  refine keeps_issue h _ ?_
  refine keeps_ordered h (fun _ ht => ?_)
  split
  · split
    · exact keeps_waits ht
    · exact keeps_next (advance_memWf ht)
  · split
    · exact keeps_trap ht _ _
    · split
      · exact keeps_trap ht _ _
      · split
        · exact keeps_readImage ht (fun _ ht1 _ => keeps_stall ht1)
        · split
          · exact keeps_trap ht _ _
          · split
            · exact keeps_stall ht
            · refine keeps_readImage ht (fun _ ht1 _ => ?_)
              split
              · exact keeps_waits ht1
              · exact keeps_next (advance_memWf ht1)

theorem keeps_execBtake {d a : Reg} {s : State} (h : s.MemWf) : Keeps (execBtake d a s) := by
  unfold execBtake
  dsimp only
  refine keeps_issue h _ ?_
  refine keeps_ordered h (fun _ ht => ?_)
  split
  · exact keeps_next (advance_memWf ht)
  · split
    · exact keeps_waits ht
    · split
      · exact keeps_next (advance_memWf ht)
      · split
        · exact keeps_next (advance_memWf ht)
        · split
          · exact keeps_waits ht
          · exact keeps_next (advance_memWf ht)

theorem keeps_execBstat {d a : Reg} {s : State} (h : s.MemWf) : Keeps (execBstat d a s) :=
  keeps_issue h _ (keeps_ordered h (fun _ ht => keeps_next (advance_memWf ht)))

theorem keeps_execTkget {d : Reg} {s : State} (h : s.MemWf) : Keeps (execTkget d s) := by
  unfold execTkget
  refine keeps_issue h _ ?_
  refine keeps_ordered h (fun _ ht => ?_)
  split
  · exact keeps_next (advance_memWf ht)
  · split
    · exact keeps_waits ht
    · exact keeps_next (advance_memWf ht)

theorem keeps_execTkdone {a : Reg} {s : State} (h : s.MemWf) : Keeps (execTkdone a s) := by
  unfold execTkdone
  refine keeps_issue h _ ?_
  refine keeps_ordered h (fun _ ht => ?_)
  split
  · split
    · exact keeps_stall ht
    · exact keeps_next (advance_memWf (taskDone_memWf ht))
  · exact keeps_trap ht _ _

theorem keeps_execRgsub {d a b : Reg} {s : State} (h : s.MemWf) : Keeps (execRgsub d a b s) := by
  unfold execRgsub
  dsimp only
  refine keeps_issue h _ ?_
  refine keeps_ordered h (fun _ ht => ?_)
  split
  · exact keeps_trapOpen ht _
  · split
    · exact keeps_stall ht
    · exact keeps_next (advance_memWf ht)

theorem keeps_execRgquiet {s : State} (h : s.MemWf) : Keeps (execRgquiet s) := by
  unfold execRgquiet
  dsimp only
  refine keeps_issue h _ ?_
  refine keeps_ordered h (fun _ ht => ?_)
  split
  · exact keeps_next (advance_memWf (ringIdle_memWf ht))
  · exact keeps_next (advance_memWf ht)
  · exact keeps_next (advance_memWf ht)

theorem nextBead_keeps {s : State} {c : CoreId} {j : Job} (h : s.MemWf) : (s.nextBead c j).Keeps := by
  have hf (l : List Nat) : (State.fetchData c false l s j).Keeps := fetchData_keeps l h
  unfold State.nextBead
  extract_lets o rows fmt body
  generalize List.range (rows.map fun x => x.2).sum = l
  have hk := hf l
  split
  · trivial
  · split
    · exact h
    · cases hr : State.fetchData c false l s j with
      | fail e t => exact PartRes.keeps_of_eq hr hk
      | poison t k =>
        have ht : t.MemWf := PartRes.keeps_of_eq hr hk
        exact (putJob_memWf ht : (t.putJob c k).MemWf)
      | stuck t k =>
        have ht : t.MemWf := PartRes.keeps_of_eq hr hk
        dsimp only
        split
        · trivial
        · exact (putJob_memWf ht : (t.putJob c k).MemWf)
      | ok t k =>
        have ht : t.MemWf := PartRes.keeps_of_eq hr hk
        have hbead (b : Bead) : (if b.bad then NextBead.fail 0x2C4#10 t else .bead b (recordCluster c j.record) t).Keeps := by
          split
          · exact ht
          · exact ht
        exact hbead _

theorem runSubscribe_keeps {s : State} {c : CoreId} {j : Job} (h : s.MemWf) : (s.runSubscribe c j).Keeps := by
  unfold State.runSubscribe
  split
  · exact outcome_keeps (finishRecord_keeps h)
  · split
    next e2 =>
      show State.MemWf _
      exact NextBead.keeps_of_eq e2 (nextBead_keeps h)
    · split
      · exact trivial
      · exact h
    · exact trivial

theorem keeps_execLoaderBeadArrival {c i : Nat} {s : State} (h : s.MemWf) : Keeps (execLoaderBeadArrival c i s) := by
  unfold execLoaderBeadArrival
  dsimp only
  split
  · split
    · split
      next e2 =>
        split
        · exact keeps_next (setJob_memWf (memWf_of_same (NextBead.keeps_of_eq e2 (nextBead_keeps h)) rfl))
        · exact keeps_refused _
      next e2 => exact keeps_next (NextBead.keeps_of_eq e2 (nextBead_keeps h))
      · exact keeps_refused _
    · exact keeps_refused _
  · exact keeps_refused _

theorem runPull_keeps {s : State} {c : CoreId} {j : Job} (h : s.MemWf) : (s.runPull c j).Keeps := by
  unfold State.runPull
  dsimp only
  split
  · exact outcome_keeps (finishRecord_keeps h)
  · split
    · exact outcome_keeps (andThen_keeps (beforeWrites_keeps h) (fun _ ht _ => jobWrites_keeps _ ht))
    · split
      · exact trivial
      · split
        · exact trivial
        · exact memWf_of_eq (setCore_mem _ _ _) h

theorem runJob_keeps {s : State} {c : CoreId} {j : Job} (h : s.MemWf) : (s.runJob c j).Keeps := by
  unfold State.runJob
  split
  · exact runSubscribe_keeps h
  · split
    · exact runPull_keeps h
    · exact runPlain_keeps h

theorem keeps_jobEvent {s : State} {c i : Nat} {fails : Bool} {name : String} (h : s.MemWf) :
    Keeps (s.jobEvent c i fails name) := by
  unfold State.jobEvent
  split
  · split
    · exact keeps_out (runJob_keeps h)
    · exact keeps_refused _
  · exact keeps_refused _

theorem keeps_execCopyJobComplete {c i : Nat} {s : State} (h : s.MemWf) : Keeps (execCopyJobComplete c i s) :=
  keeps_jobEvent h

theorem keeps_execCopyJobFail {c i : Nat} {s : State} (h : s.MemWf) : Keeps (execCopyJobFail c i s) := keeps_jobEvent h

/-! ### Work units and queues (`Sys2Proof/Machine/Job.lean`) -/

theorem resplit_memWf {s : State} {c : CoreId} {n : Nat} (h : s.MemWf) : (s.resplit c n).MemWf := wf_filter _ _ h

theorem launch_memWf {s : State} {c : CoreId} {i : Image} (h : s.MemWf) : (s.launch c i).MemWf := by
  unfold State.launch
  refine memWf_of_eq (mapCore_mem _ _ _) ?_
  split
  · exact h
  · exact resplit_memWf h

theorem zeroCounters_memWf {s : State} {ctx : Nat} {i : Image} (h : s.MemWf) : (s.zeroCounters ctx i).MemWf := by
  unfold State.zeroCounters
  refine foldl_memWf (fun t _ ht => ?_) h
  refine foldl_memWf (fun t1 _ ht1 => ?_) ht
  split
  · exact writeAt_memWf ht1 _ _ _ _
  · exact ht1

theorem enterUnit_memWf {s : State} {c : CoreId} {u : WorkUnit} {k : Card} {g : Option Gang} (h : s.MemWf) :
    (s.enterUnit c u k g).MemWf := by
  unfold State.enterUnit
  refine memWf_of_eq (mapCore_mem _ _ _) ?_
  split
  · exact h
  · refine memWf_of_eq (mapCore_mem _ _ _) ?_
    split
    · split
      · exact launch_memWf (zeroCounters_memWf h)
      · exact launch_memWf h
    · exact h

theorem endUnit_memWf {s : State} {l : List CoreId} {g : Option Gang} (h : s.MemWf) : (s.endUnit l g).MemWf := by
  unfold State.endUnit
  dsimp only
  split
  · exact h
  · split
    · refine foldl_memWf (fun t _ ht => enterUnit_memWf ht) ?_
      exact h
    · refine foldl_memWf (fun t _ ht => memWf_of_eq (mapCore_mem _ _ _) ht) ?_
      exact h

theorem handleCard_yields {s : State} {k : Card} {b : List Byte} (h : s.MemWf) : Yields id (s.handleCard k b) := by
  unfold State.handleCard
  dsimp only
  split
  · exact yields_some (settle_memWf (refuse_memWf h))
  · split
    · exact yields_some (releaseCards_memWf (memWf_of_eq (addCard_mem _ _) h))
    · split
      · exact yields_some (settle_memWf (refuse_memWf h))
      · split
        · exact yields_none
        · exact yields_some (addWaiter_memWf (memWf_of_eq (addCard_mem _ _) h) _ _ _ _)

theorem consume_memWf (q n : Nat) {s : State} (h : s.MemWf) : (State.consume q n s).MemWf := by
  induction n generalizing s with
  | zero => exact h
  | succ n ih =>
    have hcount (t : State) (k : Queue) (ht : t.MemWf) (a : Nat) : (t.countAt k.ctx a).MemWf :=
      memWf_of_eq (countAt_mem _ _ _) ht
    by_cases hslot : memRead s.mem ((s.queue q).slotAt + 0x70) 4 ≠ ((s.queue q).h + 1) % 2 ^ 32
    · have hstop : State.consume q (n + 1) s = _ := if_pos hslot
      rw [hstop]
      exact hcount (s.setQueue q _) _ h _
    by_cases hbad : s.poisonIn (s.queue q).slotAt 128 = true
    · have hstop : State.consume q (n + 1) s = _ := (if_neg hslot).trans (if_pos hbad)
      rw [hstop]
      exact h
    have hgo : State.consume q (n + 1) s = _ := (if_neg hslot).trans (if_neg hbad)
    rw [hgo]
    dsimp only
    split
    · exact hcount _ _ h _
    next u e =>
      have hu : u.MemWf := handleCard_yields (hcount _ _ h _) u e
      refine ih (hcount _ _ ?_ _)
      exact wf_memWrite _ _ _ _ hu

theorem ringQueue_memWf {s : State} {q : Nat} (h : s.MemWf) : (s.ringQueue q).MemWf := by
  unfold State.ringQueue
  split
  · exact consume_memWf _ _ h
  · exact h

theorem keeps_execQueuePublish {fn q : Nat} {s : State} (h : s.MemWf) : Keeps (execQueuePublish fn q s) := by
  unfold execQueuePublish
  split
  · exact keeps_next (ringQueue_memWf h)
  · exact keeps_next h

theorem keeps_execQueuePoll {q : Nat} {s : State} (h : s.MemWf) : Keeps (execQueuePoll q s) := by
  unfold execQueuePoll
  dsimp only
  split
  · exact keeps_next (ringQueue_memWf h)
  · exact keeps_refused _

theorem keeps_execReservationTimeout {q : Nat} {s : State} (h : s.MemWf) : Keeps (execReservationTimeout q s) := by
  unfold execReservationTimeout
  dsimp only
  split
  · split
    · exact keeps_next (notify_memWf h _ _ _ _ _)
    · exact keeps_refused _
  · exact keeps_refused _

theorem drr_memWf {level : Nat} {agencies : List Nat} : ∀ (n : Nat) {s : State}, s.MemWf →
    (State.drr level agencies n s).1.MemWf
  | 0, _, h => h
  | n + 1, s, h => by
    unfold State.drr
    dsimp only
    split
    · exact h
    · split
      · exact h
      · exact drr_memWf n h

theorem choose_yields {s : State} {pos : Nat} (h : s.MemWf) : Yields Prod.fst (s.choose pos) := by
  unfold State.choose
  dsimp only
  split
  · exact yields_none
  · split
    · exact yields_none
    · intro x e
      obtain ⟨p, -, rfl⟩ := Option.map_eq_some_iff.mp e
      exact drr_memWf _ h

theorem takeUnit_memWf {s : State} {c : CoreId} {u : WorkUnit} {k : Card} {g : Option Gang} (h : s.MemWf) :
    (s.takeUnit c u k g).MemWf :=
  memWf_of_eq (mapCore_mem _ _ _) h

theorem keeps_prepare {s : State} (h : s.MemWf) : Keeps (s.prepare) := by
  unfold State.prepare
  dsimp only
  split
  · split
    · split
      · split
        · refine keeps_next ?_
          exact foldl_memWf (fun t _ ht => enterUnit_memWf ht) h
        · exact keeps_stall h
      · split
        · refine keeps_next ?_
          exact foldl_memWf (fun t _ ht => enterUnit_memWf ht) h
        · exact keeps_stall h
    · exact keeps_stall h
  · exact keeps_stall h

theorem keeps_execDealChunk {pos : Nat} {s : State} (h : s.MemWf) : Keeps (execDealChunk pos s) := by
  unfold execDealChunk
  dsimp only
  split
  · exact keeps_refused _
  next e =>
    split
    · refine keeps_next ?_
      refine foldl_memWf (fun t1 _ ht1 => enterUnit_memWf ht1) ?_
      exact (choose_yields h) _ e
    · refine keeps_next ?_
      refine foldl_memWf (fun t1 _ ht1 => takeUnit_memWf ht1) ?_
      exact (choose_yields h) _ e

theorem keeps_execCardComplete {n : Nat} {s : State} (h : s.MemWf) : Keeps (execCardComplete n s) := by
  unfold execCardComplete
  split
  · split
    · exact keeps_next (releaseCards_memWf (cardDone_memWf h))
    · exact keeps_refused _
  · exact keeps_refused _

theorem keeps_execJsub {a : Reg} {s : State} (h : s.MemWf) : Keeps (execJsub a s) := by
  unfold execJsub
  dsimp only
  refine keeps_issue h _ ?_
  refine keeps_ordered h (fun _ ht => ?_)
  split
  · exact keeps_trap ht _ _
  · exact keeps_next (advance_memWf (ringQueue_memWf ht))

theorem keeps_execJwid {d : Reg} {s : State} (h : s.MemWf) : Keeps (execJwid d s) :=
  keeps_issue h _ (keeps_ordered h (fun _ ht => keeps_next (advance_memWf ht)))

theorem keeps_execJarg {d : Reg} {s : State} (h : s.MemWf) : Keeps (execJarg d s) :=
  keeps_issue h _ (keeps_ordered h (fun _ ht => keeps_next (advance_memWf ht)))

theorem keeps_jendDone {s : State} {l : List CoreId} {g : Option Gang} (h : s.MemWf) : Keeps (s.jendDone l g) :=
  keeps_next (afterInstr_memWf (endUnit_memWf h))

theorem keeps_execJend {s : State} (h : s.MemWf) : Keeps (execJend s) := by
  unfold execJend
  dsimp only
  refine keeps_issue h _ ?_
  split
  · exact keeps_trapWord h _
  · refine keeps_noLoader h ?_
    split
    · split
      · exact keeps_jendDone h
      · exact keeps_next (advance_memWf h)
    · exact keeps_jendDone h
    · split
      · exact keeps_waits h
      · split
        · exact keeps_jendDone h
        · exact keeps_next (memWf_of_eq (rotateIfStopped_mem _) (joinFails_memWf h))

theorem keeps_execJqry {d a : Reg} {s : State} (h : s.MemWf) : Keeps (execJqry d a s) :=
  keeps_issue h _ (keeps_ordered h (fun _ ht => keeps_next (advance_memWf ht)))

theorem keeps_execActivityForecastUpdate {s : State} (h : s.MemWf) : Keeps (execActivityForecastUpdate s) := keeps_next h

theorem keeps_execReckoningFold {s : State} (h : s.MemWf) : Keeps (execReckoningFold s) := by
  unfold execReckoningFold
  split
  · exact keeps_refused _
  · refine keeps_next ?_
    exact foldl_memWf (fun t _ ht => ht) h

/-! ### Loader operations (`Sys2Proof/Machine/Kop.lean`) -/

theorem keeps_toLoader {s : State} {slot : Nat} (h : s.MemWf) : Keeps (s.toLoader slot) := by
  unfold State.toLoader
  split
  · exact keeps_trap h _ _
  · split
    · exact keeps_trap h _ _
    · refine keeps_ordered h (fun _ ht => ?_)
      refine keeps_next ?_
      refine goto_memWf ?_ _
      exact ht

theorem keeps_execKop {n : BitVec 3} {d a b c : Reg} {k : KReg} {s : State} (h : s.MemWf) :
    Keeps (execKop n d a b c k s) := by
  unfold execKop
  split
  · exact keeps_issue h _ (keeps_toLoader h)
  · exact keeps_issue h _ (keeps_next (advance_memWf h))

theorem keeps_execKld {a b : Reg} {s : State} (h : s.MemWf) : Keeps (execKld a b s) := by
  unfold execKld
  refine keeps_issue h _ ?_
  refine keeps_ordered h (fun _ ht => ?_)
  split
  · exact keeps_trap ht _ _
  · refine keeps_readImage ht (fun _ ht1 _ => ?_)
    split
    · exact keeps_trap ht1 _ _
    · exact keeps_next (advance_memWf ht1)

theorem keeps_execKrel {a : Reg} {s : State} (h : s.MemWf) : Keeps (execKrel a s) :=
  keeps_issue h _ (keeps_ordered h (fun _ ht => keeps_next (advance_memWf ht)))

theorem keeps_execKqry {d a : Reg} {s : State} (h : s.MemWf) : Keeps (execKqry d a s) := by
  unfold execKqry
  exact keeps_form1 h _ _ _ _

/-! ### State registers and system instructions (`Sys2Proof/Machine/System.lean`) -/

theorem keeps_execSrd {d : Reg} {r : BitVec 12} {s : State} (h : s.MemWf) : Keeps (execSrd d r s) := by
  unfold execSrd
  refine keeps_issue h _ ?_
  split
  · exact keeps_trapOpen h _
  · exact keeps_next (advance_memWf h)

theorem keeps_writeSplit {s : State} {x : Word} (h : s.MemWf) : Keeps (s.writeSplit x) := by
  unfold State.writeSplit
  dsimp only
  split
  · exact keeps_trapWord h _
  · split
    · exact keeps_next (advance_memWf h)
    · split
      · exact keeps_stall h
      · split
        · exact keeps_trapOpen h _
        · exact keeps_next (advance_memWf (resplit_memWf h))

theorem keeps_writeReg {s : State} {r : Nat} {reads loader : Bool} {new : Word} (h : s.MemWf) :
    Keeps (s.writeReg r reads loader new) := by
  unfold State.writeReg
  dsimp only
  split
  · exact keeps_trap h _ _
  · split
    · exact keeps_trapOpen h _
    · split
      · exact keeps_trapOpen h _
      · split
        · exact keeps_trapOpen h _
        · split
          · exact keeps_trap h _ _
          · split
            · exact keeps_writeSplit h
            · exact keeps_next (advance_memWf h)

theorem keeps_execSwr {a : Reg} {r : BitVec 12} {s : State} (h : s.MemWf) : Keeps (execSwr a r s) :=
  keeps_issue h _ (keeps_ordered h (fun _ ht => keeps_writeReg ht))

theorem keeps_execSset {a : Reg} {r : BitVec 12} {s : State} (h : s.MemWf) : Keeps (execSset a r s) :=
  keeps_issue h _ (keeps_ordered h (fun _ ht => keeps_writeReg ht))

theorem keeps_execSclr {a : Reg} {r : BitVec 12} {s : State} (h : s.MemWf) : Keeps (execSclr a r s) :=
  keeps_issue h _ (keeps_ordered h (fun _ ht => keeps_writeReg ht))

theorem pastTrap_memWf {s : State} (h : s.MemWf) : (s.pastTrap).MemWf := by
  unfold State.pastTrap
  split
  · exact h
  · exact foldl_memWf (fun t _ ht => memWf_of_eq (mapCore_mem _ _ _) ht) h

theorem keeps_execTrap {n : BitVec 12} {s : State} (h : s.MemWf) : Keeps (execTrap n s) := by
  unfold execTrap
  refine keeps_issue h _ ?_
  refine keeps_ordered h (fun _ ht => ?_)
  split
  · exact keeps_stall ht
  · split
    · exact keeps_trapFrom (pastTrap_memWf (flushAll_memWf ht)) _ _ _ _ _
    · exact keeps_next (memWf_of_eq (rotate_mem _) (flushAll_memWf ht))

theorem keeps_execEret {s : State} (h : s.MemWf) : Keeps (execEret s) := by
  unfold execEret
  refine keeps_issue h _ ?_
  refine keeps_ordered h (fun _ ht => ?_)
  split
  · exact keeps_next (afterInstr_memWf (issuedEret_memWf ht))
  · split
    · refine keeps_next ?_
      refine goto_memWf ?_ _
      exact ht
    · exact keeps_trapOpen ht _

theorem keeps_systemOnly {s : State} {body : State → Out} (h : s.MemWf) (hbody : ∀ (a : State), a.MemWf → Keeps (body a)) :
    Keeps (s.systemOnly body) := by
  unfold State.systemOnly
  refine keeps_ordered h (fun _ ht => ?_)
  split
  · exact hbody _ ht
  · exact keeps_trapOpen ht _

theorem keeps_execHalt {s : State} (h : s.MemWf) : Keeps (execHalt s) := by
  unfold execHalt
  refine keeps_issue h _ ?_
  refine keeps_systemOnly h (fun _ ht => ?_)
  refine keeps_next ?_
  refine memWf_of_eq (rotate_mem _) ?_
  split
  · refine notify_memWf ?_ _ _ _ _ _
    exact advance_memWf ht
  · exact advance_memWf ht

theorem keeps_execTlbinv {a : Reg} {m : BitVec 12} {s : State} (h : s.MemWf) : Keeps (execTlbinv a m s) := by
  unfold execTlbinv
  refine keeps_issue h _ ?_
  refine keeps_systemOnly h (fun _ ht => ?_)
  split
  · exact keeps_next (advance_memWf ht)
  · exact keeps_stall ht
  · exact keeps_released ht (keeps_stall ht)

theorem keeps_acctSnapshot {s : State} {d : Reg} {va agency : Nat} (h : s.MemWf) : Keeps (s.acctSnapshot d va agency) := by
  unfold State.acctSnapshot
  refine keeps_ordered h (fun _ ht => ?_)
  split
  · exact keeps_trap ht _ _
  · split
    · split
      · exact keeps_next (advance_memWf ht)
      · exact keeps_stall ht
    · exact keeps_storeMessage ht (fun _ ht1 => keeps_passed ht1)

theorem keeps_execAcct {d a : Reg} {n : BitVec 12} {s : State} (h : s.MemWf) : Keeps (execAcct d a n s) := by
  unfold execAcct
  dsimp only
  split
  · exact keeps_issue h _ (keeps_acctSnapshot h)
  · exact keeps_form0 h _ _

/-! ### Debug instructions (`Sys2Proof/Machine/Debug.lean`) -/

theorem keeps_execClusterStopArrival {c : Nat} {s : State} (h : s.MemWf) : Keeps (execClusterStopArrival c s) := by
  unfold execClusterStopArrival
  dsimp only
  split
  · exact keeps_refused _
  · split
    · refine keeps_next ?_
      refine memWf_of_eq (rotateIfStopped_mem _) ?_
      refine foldl_memWf (fun t _ ht => memWf_of_eq (mapCore_mem _ _ _) ht) ?_
      exact h
    · exact keeps_refused _

theorem keeps_execBrk {n : BitVec 12} {s : State} (h : s.MemWf) : Keeps (execBrk n s) := keeps_issue h _ (keeps_trap h _ _)

theorem keeps_execWpset {a : Reg} {n : BitVec 3} {s : State} (h : s.MemWf) : Keeps (execWpset a n s) := by
  unfold execWpset
  refine keeps_issue h _ ?_
  refine keeps_systemOnly h (fun _ ht => ?_)
  split
  · exact keeps_trap ht _ _
  · exact keeps_next (advance_memWf ht)

theorem keeps_execWpclr {n : BitVec 3} {s : State} (h : s.MemWf) : Keeps (execWpclr n s) :=
  keeps_issue h _ (keeps_systemOnly h (fun _ ht => keeps_next (advance_memWf ht)))

theorem keeps_debugTarget {s : State} {a : Word} {body : CoreId → Out} (h : s.MemWf) (hbody : ∀ (a : CoreId), Keeps (body a)) :
    Keeps (s.debugTarget a body) := by
  unfold State.debugTarget
  dsimp only
  split
  · exact keeps_trap h _ _
  · exact hbody _

theorem keeps_execDstop {d a : Reg} {m : BitVec 12} {s : State} (h : s.MemWf) : Keeps (execDstop d a m s) := by
  unfold execDstop
  refine keeps_issue h _ ?_
  refine keeps_systemOnly h (fun _ ht => ?_)
  refine keeps_debugTarget ht (fun _ => ?_)
  split
  · exact keeps_next (advance_memWf ht)
  · split
    · exact keeps_next (advance_memWf ht)
    · split
      · exact keeps_next (advance_memWf ht)
      · exact keeps_next (advance_memWf ht)

theorem keeps_execDstep {d a : Reg} {s : State} (h : s.MemWf) : Keeps (execDstep d a s) := by
  unfold execDstep
  dsimp only
  refine keeps_issue h _ ?_
  refine keeps_systemOnly h (fun _ ht => ?_)
  refine keeps_debugTarget ht (fun _ => ?_)
  split
  · split
    · exact keeps_next (advance_memWf ht)
    · exact keeps_stall ht
  · split
    · exact keeps_trap ht _ _
    · split
      · exact keeps_next (advance_memWf ht)
      · refine keeps_stall ?_
        exact foldl_memWf (fun t1 _ ht1 => memWf_of_eq (mapCore_mem _ _ _) ht1) ht

theorem keeps_execDres {d a : Reg} {m : BitVec 12} {s : State} (h : s.MemWf) : Keeps (execDres d a m s) := by
  unfold execDres
  refine keeps_issue h _ ?_
  refine keeps_systemOnly h (fun _ ht => ?_)
  refine keeps_debugTarget ht (fun _ => ?_)
  split
  · exact keeps_trap ht _ _
  · refine keeps_next ?_
    refine advance_memWf ?_
    exact foldl_memWf (fun t1 _ ht1 => memWf_of_eq (mapCore_mem _ _ _) ht1) ht

/-! ### Memory instructions (`Sys2Proof/Machine/Memory.lean`) -/

theorem keeps_load {s : State} {d a : Reg} {da : Dist} {o : BitVec 11} {n : Nat} {signed : Bool} (h : s.MemWf) :
    Keeps (s.load d a da o n signed) := by
  unfold State.load
  refine keeps_issue h _ ?_
  split
  · exact keeps_next (advance_memWf (watchWindow_memWf h))
  · exact keeps_loadLanes h

theorem keeps_execLb {d a : Reg} {da : Dist} {o : BitVec 11} {s : State} (h : s.MemWf) : Keeps (execLb d a da o s) :=
  keeps_load h

theorem keeps_execLbu {d a : Reg} {da : Dist} {o : BitVec 11} {s : State} (h : s.MemWf) : Keeps (execLbu d a da o s) :=
  keeps_load h

theorem keeps_execLh {d a : Reg} {da : Dist} {o : BitVec 11} {s : State} (h : s.MemWf) : Keeps (execLh d a da o s) :=
  keeps_load h

theorem keeps_execLhu {d a : Reg} {da : Dist} {o : BitVec 11} {s : State} (h : s.MemWf) : Keeps (execLhu d a da o s) :=
  keeps_load h

theorem keeps_execLw {d a : Reg} {da : Dist} {o : BitVec 11} {s : State} (h : s.MemWf) : Keeps (execLw d a da o s) :=
  keeps_load h

theorem keeps_execLwu {d a : Reg} {da : Dist} {o : BitVec 11} {s : State} (h : s.MemWf) : Keeps (execLwu d a da o s) :=
  keeps_load h

theorem keeps_execLd {d a : Reg} {da : Dist} {o : BitVec 11} {s : State} (h : s.MemWf) : Keeps (execLd d a da o s) :=
  keeps_load h

theorem keeps_store {s : State} {d a : Reg} {da : Dist} {o : BitVec 11} {n : Nat} (h : s.MemWf) :
    Keeps (s.store d a da o n) := by
  unfold State.store
  refine keeps_issue h _ ?_
  split
  · exact keeps_windowStore h
  · exact keeps_storeLanes h

theorem keeps_execSb {d a : Reg} {da : Dist} {o : BitVec 11} {s : State} (h : s.MemWf) : Keeps (execSb d a da o s) :=
  keeps_store h

theorem keeps_execSh {d a : Reg} {da : Dist} {o : BitVec 11} {s : State} (h : s.MemWf) : Keeps (execSh d a da o s) :=
  keeps_store h

theorem keeps_execSw {d a : Reg} {da : Dist} {o : BitVec 11} {s : State} (h : s.MemWf) : Keeps (execSw d a da o s) :=
  keeps_store h

theorem keeps_execSd {d a : Reg} {da : Dist} {o : BitVec 11} {s : State} (h : s.MemWf) : Keeps (execSd d a da o s) :=
  keeps_store h

theorem keeps_onePiece {s : State} {acc : Access} {va n : Nat} {body : State → Piece → Out} (h : s.MemWf)
    (hbody : ∀ (a : State), a.MemWf → ∀ (a_1 : Piece), Keeps (body a a_1)) :
    Keeps (s.onePiece acc va n body) := by
  unfold State.onePiece
  split
  · exact keeps_trap h _ _
  · exact keeps_startWalk h
  · exact keeps_holdWrite h
  · split
    · exact hbody _ h _
    · exact keeps_stall h

theorem keeps_aligned {s : State} {va n : Nat} {body : State → Out} (h : s.MemWf)
    (hbody : ∀ (a : State), a.MemWf → Keeps (body a)) :
    Keeps (s.aligned va n body) := by
  unfold State.aligned
  split
  · exact keeps_trap h _ _
  · exact keeps_ordered h (fun _ ht => hbody _ ht)

theorem keeps_execLda {d a : Reg} {da : Dist} {z : Size} {x : Scope} {s : State} (h : s.MemWf) :
    Keeps (execLda d a da z x s) := by
  unfold execLda
  refine keeps_issue h _ ?_
  refine keeps_aligned h (fun _ ht => ?_)
  refine keeps_onePiece ht (fun _ ht1 _ => ?_)
  split
  · exact keeps_next ht1
  · refine keeps_next ?_
    refine advance_memWf ?_
    refine sendLoads_memWf ?_
    split
    · exact acquired_memWf (memWf_of_eq (watchOwn_mem _ _ _) ht1)
    · exact acquired_memWf (memWf_of_eq (watchOwn_mem _ _ _) ht1)

theorem keeps_execStl {d a : Reg} {da : Dist} {z : Size} {x : Scope} {s : State} (h : s.MemWf) :
    Keeps (execStl d a da z x s) := by
  unfold execStl
  dsimp only
  refine keeps_issue h _ ?_
  refine keeps_aligned h (fun _ ht => ?_)
  refine keeps_onePiece ht (fun _ ht1 _ => ?_)
  split
  · exact keeps_storeNow ht1
  · split
    · split
      · exact keeps_awaitJournal ht1
      · exact keeps_stall ht1
    · exact keeps_released ht1 (keeps_storeNow ht1)

theorem keeps_execLdro {d a : Reg} {da : Dist} {z : Size} {a1 : Scope} {s : State} (h : s.MemWf) :
    Keeps (execLdro d a da z a1 s) :=
  keeps_issue h _ (keeps_loadLanes h)

theorem quietWalk_memWf {s : State} {acc : Access} {va : Nat} (h : s.MemWf) : (s.quietWalk acc va).MemWf := by
  unfold State.quietWalk
  split
  · exact countWalk_memWf h
  · exact h

theorem keeps_execPref {a : Reg} {da : Dist} {a1 : Scope} {n : BitVec 1} {s : State} (h : s.MemWf) :
    Keeps (execPref a da a1 n s) := by
  unfold execPref
  refine keeps_issue h _ ?_
  split
  · exact keeps_next (advance_memWf (quietWalk_memWf h))
  · exact keeps_next (advance_memWf (quietWalk_memWf h))

theorem keeps_execStn {d a : Reg} {da : Dist} {a1 : Scope} {h : BitVec 1} {s : State} (hs : s.MemWf) :
    Keeps (execStn d a da a1 h s) :=
  keeps_issue hs _ (keeps_ordered hs (fun _ ht => keeps_onePiece ht (fun _ ht1 _ => keeps_storeNow ht1)))

theorem keeps_hold {s : State} {r : Req} (h : s.MemWf) : Keeps (s.hold r) := keeps_stall h

theorem keeps_resumeHeld {s : State} {h : Held} {body : Word → Out} (hs : s.MemWf) (hbody : ∀ (a : Word), Keeps (body a)) :
    Keeps (s.resumeHeld h body) := by
  unfold State.resumeHeld
  split
  · exact keeps_stall hs
  · exact hbody _
  · exact keeps_trap hs _ _

theorem keeps_execSts {d a : Reg} {da : Dist} {z : Size} {x : Scope} {s : State} (h : s.MemWf) :
    Keeps (execSts d a da z x s) := by
  unfold execSts
  dsimp only
  refine keeps_issue h _ ?_
  split
  · exact keeps_resumeHeld h (fun _ => keeps_next (advance_memWf h))
  · refine keeps_aligned h (fun _ ht => ?_)
    refine keeps_onePiece ht (fun _ ht1 _ => ?_)
    split
    · exact keeps_storeNow ht1
    · split
      · exact keeps_stall ht1
      · split
        · exact keeps_storeNow ht1
        · split
          · exact keeps_hold (memWf_of_eq (ownLines_mem _ _) (memWf_of_eq (watchOwn_mem _ _ _) ht1))
          · split
            · exact keeps_stall ht1
            · exact keeps_hold (memWf_of_eq (takeEntry_mem _ _ _ _ _) (memWf_of_eq (watchOwn_mem _ _ _) ht1))

theorem keeps_amoOwn {s : State} {fn n : Nat} {r : Req} {p : Piece} {d : Reg} {x : Scope} {o : Order} (h : s.MemWf) :
    Keeps (s.amoOwn fn n r p d x o) := by
  unfold State.amoOwn
  dsimp only
  split
  · exact keeps_next h
  · refine keeps_next ?_
    refine advance_memWf ?_
    split
    · exact acquired_memWf (writeAt_memWf (memWf_of_eq (watchOwn_mem _ _ _) h) _ _ _ _)
    · exact writeAt_memWf (memWf_of_eq (watchOwn_mem _ _ _) h) _ _ _ _

theorem keeps_amo {s : State} {fn n : Nat} {d a b : Reg} {o : Order} {x : Scope} (h : s.MemWf) :
    Keeps (s.amo fn n d a b o x) := by
  unfold State.amo
  dsimp only
  refine keeps_issue h _ ?_
  split
  · refine keeps_resumeHeld h (fun _ => ?_)
    refine keeps_next ?_
    refine advance_memWf ?_
    split
    · exact acquired_memWf h
    · exact h
  · refine keeps_aligned h (fun _ ht => ?_)
    refine keeps_onePiece ht (fun _ ht1 _ => ?_)
    split
    · exact keeps_trap ht1 _ _
    · split
      · exact keeps_stall ht1
      · split
        · refine keeps_released ht1 ?_
          split
          · exact keeps_amoOwn ht1
          · split
            · exact keeps_hold (memWf_of_eq (watchOwn_mem _ _ _) ht1)
            · refine keeps_next ?_
              refine advance_memWf ?_
              split
              · exact acquired_memWf (memWf_of_eq (watchOwn_mem _ _ _) ht1)
              · exact memWf_of_eq (watchOwn_mem _ _ _) ht1
        · split
          · exact keeps_amoOwn ht1
          · split
            · exact keeps_hold (memWf_of_eq (watchOwn_mem _ _ _) ht1)
            · refine keeps_next ?_
              refine advance_memWf ?_
              split
              · exact acquired_memWf (memWf_of_eq (watchOwn_mem _ _ _) ht1)
              · exact memWf_of_eq (watchOwn_mem _ _ _) ht1

theorem keeps_execAmoswp {d a b : Reg} {o : Order} {x : Scope} {z : Wide} {s : State} (h : s.MemWf) :
    Keeps (execAmoswp d a b o x z s) :=
  keeps_amo h

theorem keeps_execAmoadd {d a b : Reg} {o : Order} {x : Scope} {z : Wide} {s : State} (h : s.MemWf) :
    Keeps (execAmoadd d a b o x z s) :=
  keeps_amo h

theorem keeps_execAmoand {d a b : Reg} {o : Order} {x : Scope} {z : Wide} {s : State} (h : s.MemWf) :
    Keeps (execAmoand d a b o x z s) :=
  keeps_amo h

theorem keeps_execAmoor {d a b : Reg} {o : Order} {x : Scope} {z : Wide} {s : State} (h : s.MemWf) :
    Keeps (execAmoor d a b o x z s) :=
  keeps_amo h

theorem keeps_execAmoxor {d a b : Reg} {o : Order} {x : Scope} {z : Wide} {s : State} (h : s.MemWf) :
    Keeps (execAmoxor d a b o x z s) :=
  keeps_amo h

theorem keeps_execAmomin {d a b : Reg} {o : Order} {x : Scope} {z : Wide} {s : State} (h : s.MemWf) :
    Keeps (execAmomin d a b o x z s) :=
  keeps_amo h

theorem keeps_execAmomax {d a b : Reg} {o : Order} {x : Scope} {z : Wide} {s : State} (h : s.MemWf) :
    Keeps (execAmomax d a b o x z s) :=
  keeps_amo h

theorem keeps_execAmominu {d a b : Reg} {o : Order} {x : Scope} {z : Wide} {s : State} (h : s.MemWf) :
    Keeps (execAmominu d a b o x z s) :=
  keeps_amo h

theorem keeps_execAmomaxu {d a b : Reg} {o : Order} {x : Scope} {z : Wide} {s : State} (h : s.MemWf) :
    Keeps (execAmomaxu d a b o x z s) :=
  keeps_amo h

theorem keeps_execCas {d a b : Reg} {o : Order} {x : Scope} {z : Wide} {s : State} (h : s.MemWf) :
    Keeps (execCas d a b o x z s) :=
  keeps_amo h

theorem keeps_execAmofadd {d a b : Reg} {o : Order} {x : Scope} {s : State} (h : s.MemWf) :
    Keeps (execAmofadd d a b o x s) :=
  keeps_amo h

theorem keeps_execAmoinc {d a b : Reg} {o : Order} {x : Scope} {z : Wide} {s : State} (h : s.MemWf) :
    Keeps (execAmoinc d a b o x z s) :=
  keeps_amo h

theorem keeps_fence {s : State} {x : Scope} {body : State → Out} (h : s.MemWf) (hbody : ∀ (a : State), a.MemWf → Keeps (body a))
    :
    Keeps (s.fence x body) := by
  unfold State.fence
  split
  · exact keeps_trap h _ _
  · exact keeps_ordered h (fun _ ht => hbody _ ht)

theorem keeps_execFence {x : Scope} {s : State} (h : s.MemWf) : Keeps (execFence x s) :=
  keeps_fence h (fun _ ht => keeps_released ht (keeps_next (advance_memWf (acquired_memWf ht))))

theorem keeps_execFenceR {x : Scope} {s : State} (h : s.MemWf) : Keeps (execFenceR x s) := by
  unfold execFenceR
  refine keeps_fence h (fun _ ht => ?_)
  split
  · exact keeps_next (advance_memWf (acquired_memWf ht))
  · exact keeps_stall ht

theorem keeps_execFenceW {x : Scope} {s : State} (h : s.MemWf) : Keeps (execFenceW x s) :=
  keeps_fence h (fun _ ht => keeps_storesOut ht (keeps_next (advance_memWf ht)))

theorem keeps_execIfence {a1 : Scope} {s : State} (h : s.MemWf) : Keeps (execIfence a1 s) := by
  unfold execIfence
  refine keeps_ordered h (fun _ ht => ?_)
  split
  · exact keeps_next (advance_memWf ht)
  · exact keeps_stall ht

theorem keeps_execFenceE {x : Scope} {s : State} (h : s.MemWf) : Keeps (execFenceE x s) := by
  unfold execFenceE
  refine keeps_fence h (fun _ ht => ?_)
  split
  · exact keeps_next (advance_memWf ht)
  · exact keeps_stall ht

theorem keeps_execFenceJ {x : Scope} {s : State} (h : s.MemWf) : Keeps (execFenceJ x s) := by
  unfold execFenceJ
  refine keeps_fence h (fun _ ht => ?_)
  split
  · exact keeps_awaitJournal ht
  · split
    · exact keeps_trap ht _ _
    · exact keeps_next (advance_memWf ht)

/-! ### What asynchronous delivery defers (`Sys2Proof/Machine/Deferred.lean`) -/

theorem keeps_execDeferredInstruction {e : BitVec 2} {f : BitVec 20} {i : BitVec 6} {s : State} (h : s.MemWf) :
    Keeps (execDeferredInstruction e f i s) := by
  unfold execDeferredInstruction
  dsimp only
  split
  · exact keeps_trap h _ _
  · split
    · exact keeps_trap h _ _
    · split
      · exact keeps_trap h _ _
      · split
        · exact keeps_trap h _ _
        · refine keeps_ordered h (fun _ ht => ?_)
          split
          · exact keeps_stall ht
          · exact keeps_next ht

theorem keeps_routineStore {s : State} {r : Req} {send : Out} (h : s.MemWf) (hsend : Keeps send) :
    Keeps (s.routineStore r send) := by
  unfold State.routineStore
  split
  · split
    · exact keeps_awaitJournal h
    · exact keeps_released h hsend
  · exact hsend

theorem keeps_writeStore {s : State} {r : Req} (h : s.MemWf) : Keeps (s.writeStore r) := by
  unfold State.writeStore
  split
  · split
    · refine keeps_hold ?_
      refine memWf_of_eq (ownLines_mem _ _) ?_
      exact memWf_of_eq (watchBuffered_mem _ _) h
    · split
      · exact keeps_stall h
      · refine keeps_hold ?_
        refine memWf_of_eq (takeEntry_mem _ _ _ _ _) ?_
        exact memWf_of_eq (watchBuffered_mem _ _) h
  · exact keeps_next (putStores_memWf (memWf_of_eq (watchBuffered_mem _ _) h))

theorem keeps_endRoutine {s : State} {r : Routine} (h : s.MemWf) : Keeps (s.endRoutine r) := by
  unfold State.endRoutine
  split
  · exact keeps_stall h
  · split
    · exact keeps_resumeHeld h (fun _ => keeps_next h)
    · split
      · exact keeps_routineStore h (keeps_writeStore h)
      · split
        · split
          · exact keeps_stall h
          · exact keeps_next h
        · exact keeps_next (advance_memWf h)

/-! ### Scalar floating point (`Sys2Proof/Machine/Fop.lean`) -/

theorem keeps_fop1 {s : State} {d a : Reg} {da : Dist} {f : Word → FRes} (h : s.MemWf) : Keeps (s.fop1 d a da f) :=
  keeps_issue h _ (keeps_next (advance_memWf h))

theorem keeps_fop2 {s : State} {d a : Reg} {da : Dist} {b : Reg} {db : Dist} {f : Word → Word → FRes} (h : s.MemWf) :
    Keeps (s.fop2 d a da b db f) :=
  keeps_issue h _ (keeps_next (advance_memWf h))

theorem keeps_execFadd {d a : Reg} {da : Dist} {b : Reg} {db : Dist} {p : Prec} {s : State} (h : s.MemWf) :
    Keeps (execFadd d a da b db p s) := by
  unfold execFadd
  exact keeps_fop2 h

theorem keeps_execFsub {d a : Reg} {da : Dist} {b : Reg} {db : Dist} {p : Prec} {s : State} (h : s.MemWf) :
    Keeps (execFsub d a da b db p s) := by
  unfold execFsub
  exact keeps_fop2 h

theorem keeps_execFmul {d a : Reg} {da : Dist} {b : Reg} {db : Dist} {p : Prec} {s : State} (h : s.MemWf) :
    Keeps (execFmul d a da b db p s) := by
  unfold execFmul
  exact keeps_fop2 h

theorem keeps_execFdiv {d a : Reg} {da : Dist} {b : Reg} {db : Dist} {p : Prec} {s : State} (h : s.MemWf) :
    Keeps (execFdiv d a da b db p s) := by
  unfold execFdiv
  exact keeps_fop2 h

theorem keeps_execFsqrt {d a : Reg} {da : Dist} {p : Prec} {s : State} (h : s.MemWf) : Keeps (execFsqrt d a da p s) := by
  unfold execFsqrt
  exact keeps_fop1 h

theorem keeps_execFma {d a : Reg} {da : Dist} {b : Reg} {db : Dist} {p : Prec} {s : State} (h : s.MemWf) :
    Keeps (execFma d a da b db p s) :=
  keeps_issue h _ (keeps_next (advance_memWf h))

theorem keeps_execFmin {d a : Reg} {da : Dist} {b : Reg} {db : Dist} {p : Prec} {s : State} (h : s.MemWf) :
    Keeps (execFmin d a da b db p s) := by
  unfold execFmin
  exact keeps_fop2 h

theorem keeps_execFmax {d a : Reg} {da : Dist} {b : Reg} {db : Dist} {p : Prec} {s : State} (h : s.MemWf) :
    Keeps (execFmax d a da b db p s) := by
  unfold execFmax
  exact keeps_fop2 h

theorem keeps_execFeq {d a : Reg} {da : Dist} {b : Reg} {db : Dist} {p : Prec} {s : State} (h : s.MemWf) :
    Keeps (execFeq d a da b db p s) := by
  unfold execFeq
  exact keeps_fop2 h

theorem keeps_execFlt {d a : Reg} {da : Dist} {b : Reg} {db : Dist} {p : Prec} {s : State} (h : s.MemWf) :
    Keeps (execFlt d a da b db p s) := by
  unfold execFlt
  exact keeps_fop2 h

theorem keeps_execFle {d a : Reg} {da : Dist} {b : Reg} {db : Dist} {p : Prec} {s : State} (h : s.MemWf) :
    Keeps (execFle d a da b db p s) := by
  unfold execFle
  exact keeps_fop2 h

theorem keeps_execFclass {d a : Reg} {da : Dist} {p : Prec} {s : State} (h : s.MemWf) : Keeps (execFclass d a da p s) := by
  unfold execFclass
  exact keeps_fop1 h

theorem keeps_execFcvti {d a : Reg} {da : Dist} {p : Prec} {s : State} (h : s.MemWf) : Keeps (execFcvti d a da p s) := by
  unfold execFcvti
  exact keeps_fop1 h

theorem keeps_execFcvtf {d a : Reg} {da : Dist} {p : Prec} {s : State} (h : s.MemWf) : Keeps (execFcvtf d a da p s) :=
  keeps_fop1 h

theorem keeps_execFcvtw {d a : Reg} {da : Dist} {p : Prec} {s : State} (h : s.MemWf) : Keeps (execFcvtw d a da p s) := by
  unfold execFcvtw
  split
  · exact keeps_fop1 h
  · exact keeps_fop1 h

/-! ### Requests where they are performed (`Sys2Proof/Machine/Serve.lean`) -/

theorem performWrite_memWf {s : State} {r : Req} (h : s.MemWf) : (s.performWrite r).MemWf := by
  unfold State.performWrite
  split
  · exact h
  · exact h
  · refine writeAt_memWf ?_ _ _ _ _
    exact h
  · exact writeAt_memWf h _ _ _ _
  · exact writeAt_memWf h _ _ _ _

theorem tell_memWf {s : State} {r : Req} {h : Held} (hs : s.MemWf) : (s.tell r h).MemWf := by
  unfold State.tell
  split
  · exact memWf_of_eq (mapCore_mem _ _ _) hs
  · exact hs

theorem amoLines_memWf {s : State} {i : Nat} {r : Req} {v : Nat} (h : s.MemWf) : (s.amoLines i r v).MemWf := by
  unfold State.amoLines
  split
  · exact memWf_of_eq (mapCore_mem _ _ _) h
  · exact h

theorem perform_memWf {s : State} {i : Nat} {r : Req} {line : Option (BitVec 1024)} {shared : Bool} (h : s.MemWf) :
    (s.perform i r line shared).MemWf := by
  unfold State.perform
  refine tell_memWf ?_
  refine amoLines_memWf ?_
  split
  · exact performWrite_memWf h
  · exact performWrite_memWf h

theorem chargeReq_memWf {s : State} {i : Nat} {r : Req} (h : s.MemWf) : (s.chargeReq i r).MemWf := by
  unfold State.chargeReq
  split
  · exact h
  · exact h

theorem keeps_serveHbm {s : State} {i : Nat} {r : Req} (h : s.MemWf) : Keeps (s.serveHbm i r) := by
  have hperform (x : Option (BitVec 1024)) : ((s.countHbm r.ctx).perform i r x (decide (r.kind = .ldro))).MemWf :=
    perform_memWf (countHbm_memWf h)
  unfold State.serveHbm
  extract_lets line x keep t
  split
  · exact keeps_next (perform_memWf h)
  · split
    · exact keeps_next (chargeReq_memWf h)
    · split
      · exact keeps_refused _
      · refine keeps_next ?_
        split
        · exact hperform x
        · exact hperform x

theorem keeps_serveHost {s : State} {i : Nat} {r : Req} (h : s.MemWf) : Keeps (s.serveHost i r) := by
  unfold State.serveHost
  split
  · exact keeps_refused _
  · split
    · exact keeps_next (memWf_of_eq (countCtx_mem _ _ _ _) h)
    · exact keeps_next h

theorem keeps_hostStore {s : State} {i : Nat} (h : s.MemWf) : Keeps (s.hostStore i) := by
  unfold State.hostStore
  split
  · exact keeps_refused _
  · split
    · exact keeps_refused _
    · exact keeps_next (tell_memWf (performWrite_memWf h))

theorem keeps_execSliceRequest {i : Nat} {merge : Bool} {s : State} (h : s.MemWf) : Keeps (execSliceRequest i merge s) := by
  unfold execSliceRequest
  split
  · exact keeps_refused _
  · split
    · exact keeps_refused _
    · split
      · split
        · exact keeps_next (perform_memWf h)
        · exact keeps_refused _
      · split
        · exact keeps_serveHbm h
        · exact keeps_serveHost h
        · exact keeps_refused _

theorem bounce_memWf {s : State} {i : Nat} {r : Req} (h : s.MemWf) : (s.bounce i r).MemWf := by
  unfold State.bounce
  split
  · exact tell_memWf h
  · refine memWf_of_eq (mapCore_mem _ _ _) ?_
    exact h

theorem keeps_execRemoteApertureRequest {i : Nat} {s : State} (h : s.MemWf) : Keeps (execRemoteApertureRequest i s) := by
  unfold execRemoteApertureRequest
  split
  · exact keeps_refused _
  · split
    · split
      · exact keeps_refused _
      · split
        · split
          · split
            · exact keeps_refused _
            · exact keeps_next h
          · split
            · exact keeps_next (performWrite_memWf (watchServed_memWf h))
            · exact keeps_next (performWrite_memWf (watchServed_memWf h))
        · split
          · exact keeps_next (bounce_memWf h)
          · split
            · exact keeps_next (chargeReq_memWf h)
            · exact keeps_next (perform_memWf (watchServed_memWf h))
    · exact keeps_refused _

theorem keepLine_memWf {s : State} {c : CoreId} {line : Nat} {x : BitVec 1024} {i : Nat} (h : s.MemWf) :
    (s.keepLine c line x i).MemWf := by
  unfold State.keepLine
  refine memWf_of_eq (mapCore_mem _ _ _) ?_
  exact h

theorem keeps_execLoadResponse {i : Nat} {s : State} (h : s.MemWf) : Keeps (execLoadResponse i s) := by
  unfold execLoadResponse
  split
  · exact keeps_refused _
  · split
    · exact keeps_refused _
    · refine keeps_next ?_
      refine memWf_of_eq (mapCore_mem _ _ _) ?_
      split
      · exact keepLine_memWf h
      · exact h

theorem keeps_execPostedStoreAck {c e : Nat} {s : State} (h : s.MemWf) : Keeps (execPostedStoreAck c e s) := by
  unfold execPostedStoreAck
  split
  · split
    · refine keeps_next ?_
      refine tell_memWf ?_
      refine memWf_of_eq (mapCore_mem _ _ _) ?_
      exact h
    · exact keeps_refused _
  · exact keeps_refused _

theorem recordEntry_memWf {s : State} {c e st : Nat} {r : Req} (h : s.MemWf) : (s.recordEntry c e st r).MemWf :=
  tell_memWf (memWf_of_eq (mapCore_mem _ _ _) h)

theorem keeps_execPostedStoreRefusal {c e : Nat} {s : State} (h : s.MemWf) : Keeps (execPostedStoreRefusal c e s) := by
  unfold execPostedStoreRefusal
  split
  · split
    · split
      · exact keeps_next (recordEntry_memWf h)
      · exact keeps_refused _
    · exact keeps_refused _
  · exact keeps_refused _

theorem keeps_execJournalTimeout {c e : Nat} {lost : Bool} {s : State} (h : s.MemWf) :
    Keeps (execJournalTimeout c e lost s) := by
  unfold execJournalTimeout
  split
  · split
    · refine keeps_next ?_
      refine recordEntry_memWf ?_
      split
      · exact h
      · exact h
    · exact keeps_refused _
  · exact keeps_refused _

theorem takeLeaf_memWf {s : State} {x : Desc} {l : Leaf} {c : CoreId} (h : s.MemWf) : (s.takeLeaf x l c).MemWf := by
  unfold State.takeLeaf
  dsimp only
  split
  · exact h
  · split
    · exact memWf_of_eq (mapCore_mem _ _ _) h
    · refine memWf_of_eq (mapCore_mem _ _ _) ?_
      exact orAD_memWf h

theorem keeps_execPageWalkComplete {c : Nat} {s : State} (h : s.MemWf) : Keeps (execPageWalkComplete c s) := by
  unfold execPageWalkComplete
  dsimp only
  split
  · split
    · exact keeps_next (memWf_of_eq (setCore_mem _ _ _) h)
    · split
      · refine keeps_next ?_
        exact foldl_memWf (fun t _ ht => memWf_of_eq (mapCore_mem _ _ _) ht) (countWalk_memWf h)
      · refine keeps_next ?_
        exact foldl_memWf (fun t _ ht => takeLeaf_memWf ht) (countWalk_memWf h)
  · exact keeps_refused _

theorem keeps_execTlbInvalidationRequest {i : Nat} {s : State} (h : s.MemWf) : Keeps (execTlbInvalidationRequest i s) := by
  unfold execTlbInvalidationRequest
  split
  · exact keeps_refused _
  · extract_lets l s1 s2 s3 s4
    have h1 : s1.MemWf := foldl_memWf (fun _ _ hu => memWf_of_eq (mapCore_mem _ _ _) hu) h
    clear_value s1
    have h2 : s2.MemWf := foldl_memWf (fun _ _ hu => memWf_of_eq (mapCore_mem _ _ _) hu) h1
    clear_value s2
    have h3 : s3.MemWf := h2
    clear_value s3
    have h4 : s4.MemWf := foldl_memWf (fun _ _ hu => memWf_of_eq (mapCore_mem _ _ _) hu) h3
    clear_value s4
    split
    · exact keeps_refused _
    · split
      · exact keeps_refused _
      · split
        · split
          · exact keeps_next (memWf_of_eq (focus_mem _ _) (flush_memWf (memWf_of_eq (focus_mem _ _) h)))
          · exact keeps_refused _
        · exact keeps_next h4

theorem keeps_execTlbInvalidationAck {i : Nat} {s : State} (h : s.MemWf) : Keeps (execTlbInvalidationAck i s) := by
  unfold execTlbInvalidationAck
  split
  · exact keeps_refused _
  · split
    · refine keeps_next ?_
      refine memWf_of_eq (mapCore_mem _ _ _) ?_
      exact h
    · exact keeps_refused _

theorem keeps_execWbRetry {c : Nat} {s : State} (h : s.MemWf) : Keeps (execWbRetry c s) := by
  unfold execWbRetry
  dsimp only
  split
  · split
    · exact keeps_next (memWf_of_eq (setCore_mem _ _ _) h)
    · exact keeps_refused _
  · exact keeps_refused _

theorem keeps_execWbTimeout {c : Nat} {s : State} (h : s.MemWf) : Keeps (execWbTimeout c s) := by
  unfold execWbTimeout
  dsimp only
  split
  · split
    · exact keeps_next (memWf_of_eq (setCore_mem _ _ _) h)
    · exact keeps_refused _
  · exact keeps_refused _

theorem keeps_execHostCompletion {i : Nat} {rejected : Bool} {s : State} (h : s.MemWf) :
    Keeps (execHostCompletion i rejected s) := by
  unfold execHostCompletion
  split
  · exact keeps_refused _
  · split
    · exact keeps_refused _
    · split
      · split
        · exact keeps_refused _
        · refine keeps_next ?_
          refine perform_memWf ?_
          split
          · exact countAccess_memWf (memWf_of_eq (countCtx_mem _ _ _ _) h)
          · exact memWf_of_eq (countCtx_mem _ _ _ _) h
      · split
        · exact keeps_next (tell_memWf (memWf_of_eq (countCtx_mem _ _ _ _) h))
        · exact keeps_next (perform_memWf (memWf_of_eq (countCtx_mem _ _ _ _) h))

theorem keeps_execPeerResponse {i : Nat} {s : State} (h : s.MemWf) : Keeps (execPeerResponse i s) := by
  unfold execPeerResponse
  split
  · exact keeps_refused _
  · split
    · exact keeps_refused _
    · exact keeps_next (perform_memWf (memWf_of_eq (countCtx_mem _ _ _ _) h))

theorem peerAdd_memWf {s : State} {addr : Nat} {data : Word} (h : s.MemWf) : (s.peerAdd addr data).MemWf := by
  unfold State.peerAdd
  split
  · exact writeAt_memWf h _ _ _ _
  · exact h

theorem keeps_execPeerRequest {p addr size fn : Nat} {data cmp : Word} {s : State} (h : s.MemWf) :
    Keeps (execPeerRequest p addr size fn data cmp s) := by
  unfold execPeerRequest
  extract_lets kind r old
  have hdone : (if fn = 16 then s.peerAdd addr data else s.performWrite r).MemWf := by
    by_cases hadd : fn = 16
    · rw [if_pos hadd]
      exact peerAdd_memWf h
    · rw [if_neg hadd]
      exact performWrite_memWf h
  split
  · exact keeps_next hdone
  · exact keeps_refused _

theorem hostPost_memWf {s : State} {fn off : Nat} {data : List Byte} {relaxed : Bool} (h : s.MemWf) :
    (s.hostPost fn off data relaxed).MemWf := by
  unfold State.hostPost
  split
  · exact h
  · exact h

theorem keeps_hostGranule {s : State} {i j : Nat} (h : s.MemWf) : Keeps (s.hostGranule i j) := by
  unfold State.hostGranule
  split
  · exact keeps_refused _
  · split
    · exact keeps_refused _
    · split
      · exact keeps_refused _
      · exact keeps_next (writeAt_memWf h _ _ _ _)

theorem keeps_execHostPostedWrite {fn off : Nat} {data : List Byte} {s : State} (h : s.MemWf) :
    Keeps (execHostPostedWrite fn off data s) := by
  unfold execHostPostedWrite
  split
  · split
    · exact keeps_next (writeAt_memWf h _ _ _ _)
    · exact keeps_refused _
  · exact keeps_next h

theorem keeps_execHostRead {fn off n : Nat} {s : State} (h : s.MemWf) : Keeps (execHostRead fn off n s) := by
  unfold execHostRead
  split
  · exact keeps_refused _
  · split
    · exact keeps_next h
    · exact keeps_next h

theorem keeps_execHostAtomicop {fn off op size : Nat} {operand compare : Word} {s : State} (h : s.MemWf) :
    Keeps (execHostAtomicop fn off op size operand compare s) := by
  unfold execHostAtomicop
  split
  · split
    · exact keeps_next (writeAt_memWf h _ _ _ _)
    · exact keeps_next h
  · exact keeps_refused _

theorem keeps_execReplicaEviction {cl line : Nat} {s : State} (h : s.MemWf) : Keeps (execReplicaEviction cl line s) := by
  unfold execReplicaEviction
  split
  · exact keeps_next h
  · exact keeps_refused _

/-! ### Stops, saves and errors (`Sys2Proof/Machine/Recover.lean`) -/

theorem vacate_memWf {s : State} {n : Nat} (h : s.MemWf) : (s.vacate n).MemWf := wf_filter _ _ h

theorem populate_memWf {s : State} {d : Desc} (h : s.MemWf) : (s.populate d).MemWf := by
  unfold State.populate
  refine foldl_memWf (fun t _ ht => memWf_of_eq (setCore_mem _ _ _) ht) ?_
  exact foldl_memWf (fun t _ ht => ht) h

theorem restCore_memWf {s : State} {c : CoreId} (h : s.MemWf) : (s.restCore c).MemWf :=
  memWf_of_eq (mapCore_mem _ _ _) (unsleep_memWf h _)

theorem tryRest_memWf {s : State} {c : CoreId} (h : s.MemWf) : (s.tryRest c).MemWf := by
  unfold State.tryRest
  dsimp only
  split
  · exact foldl_memWf (fun t _ ht => restCore_memWf ht) h
  · exact h

theorem keeps_execStopTime {n : Nat} {s : State} (h : s.MemWf) : Keeps (execStopTime n s) := by
  unfold execStopTime
  dsimp only
  split
  · split
    · split
      · split
        · refine keeps_next ?_
          refine mapCtx_memWf ?_
          exact foldl_memWf (fun t1 _ ht1 => tryRest_memWf ht1) h
        · split
          · exact keeps_refused _
          · refine keeps_next ?_
            exact foldl_memWf (fun t1 _ ht1 => tryRest_memWf ht1) h
      · exact keeps_refused _
    · exact keeps_refused _
  · exact keeps_refused _

theorem setStop_memWf {s : State} {n t : Nat} (h : s.MemWf) : (s.setStop n t).MemWf := mapCtx_memWf h

theorem commandDone_memWf {s : State} {codes : List Nat} {n status : Nat} {results : List Word} (h : s.MemWf) :
    (s.commandDone codes n status results).MemWf := by
  unfold State.commandDone
  split
  · split
    · exact h
    · exact h
  · exact h

theorem wf_iff_pairwise : ∀ m : List Host.Cell,
    Memory.wf m = true ↔ m.Pairwise (fun c d => c.1 < d.1) ∧ ∀ c ∈ m, c.2 ≠ unlisted
  | [] => by simp [Memory.wf]
  | (k, v) :: m => by
    rw [wf_cons, wf_iff_pairwise m, List.pairwise_cons, List.forall_mem_cons]
    grind

theorem wf_append {m n : List Host.Cell} (hm : Memory.wf m = true) (hn : Memory.wf n = true)
    (hlt : ∀ c ∈ m, ∀ d ∈ n, c.1 < d.1) : Memory.wf (m ++ n) = true := by
  rw [wf_iff_pairwise] at *
  refine ⟨List.pairwise_append.mpr ⟨hm.1, hn.1, hlt⟩, fun c hc => ?_⟩
  exact (List.mem_append.mp hc).elim (hm.2 c) (hn.2 c)

theorem wf_shift (base : Nat) {m : List Host.Cell} (hm : Memory.wf m = true) :
    Memory.wf (m.map fun c => (base + c.1, c.2)) = true := by
  rw [wf_iff_pairwise] at *
  refine ⟨List.pairwise_map.mpr (hm.1.imp fun hlt => Nat.add_lt_add_left hlt base), fun c hc => ?_⟩
  obtain ⟨d, hd, rfl⟩ := List.mem_map.mp hc
  exact hm.2 d hd

theorem withReserved_wf (s : State) (base : Nat) {m : List Host.Cell} (hm : Memory.wf m = true) :
    Memory.wf (s.withReserved base m) = true :=
  foldl_keeps (fun m => Memory.wf m = true) _ (fun m r h => wf_memWriteBytes _ m (base + r.1) h) _ _ hm

theorem streamHbm_memWf {s : State} {base : Nat} (h : s.MemWf) : (s.streamHbm base).MemWf := by
  refine withReserved_wf s base (wf_append (wf_append (wf_filter _ _ h) (wf_shift base (wf_filter _ _ h)) ?_) (wf_filter _ _ h) ?_)
  · intro c hc d hd
    have hcb : c.1 < base := by simpa using (List.mem_filter.mp hc).2
    obtain ⟨e, -, rfl⟩ := List.mem_map.mp hd
    exact Nat.lt_of_lt_of_le hcb (Nat.le_add_right base e.1)
  · intro c hc d hd
    have hdb : base + 0x6000000000 ≤ d.1 := by simpa using (List.mem_filter.mp hd).2
    rcases List.mem_append.mp hc with hc | hc
    · have hcb : c.1 < base := by simpa using (List.mem_filter.mp hc).2
      omega
    · obtain ⟨e, he, rfl⟩ := List.mem_map.mp hc
      have heb : e.1 < 0x6000000000 := by simpa using (List.mem_filter.mp he).2
      show base + e.1 < d.1
      omega

theorem deviceCheckpoint_memWf {s : State} (h : s.MemWf) : (s.deviceCheckpoint).MemWf := by
  unfold State.deviceCheckpoint
  split
  · split
    · exact foldl_memWf (fun t _ ht => streamHbm_memWf ht) h
    · exact h
  · exact h

theorem resumeFrom_memWf {s : State} {n : Nat} {r : Save} (h : s.MemWf) : (s.resumeFrom n r).MemWf := by
  have hclusters : (r.clusters.foldl (fun (t : State) p => t.setCluster p.1 p.2) s).MemWf := foldl_memWf (fun _ _ ht => ht) h
  have hcores (n : Nat) := foldl_keeps State.MemWf (fun (t : State) p => t.setCore p.1 (p.2.resumed n))
    (fun _ _ ht => memWf_of_eq (setCore_mem _ _ _) ht) r.cores _ hclusters
  have hscratch (n : Nat) := foldl_keeps (fun m => Memory.wf m = true)
    (fun (m : List Host.Cell) (c : Host.Cell) => memSet c.1 c.2 m) (fun m c hm => wf_memSet c.1 c.2 m hm) r.scratch _ (hcores n)
  unfold State.resumeFrom
  refine foldl_memWf (fun _ _ ht => entryActions_memWf ht) ?_
  exact mapCtx_memWf (hscratch _)

theorem settleStores_memWf {s : State} {c : CoreId} (h : s.MemWf) : (s.settleStores c).MemWf := by
  unfold State.settleStores
  refine foldl_memWf (fun t _ ht => ?_) h
  split
  · exact ht
  · exact performWrite_memWf ht

theorem endContext_memWf {s : State} {n : Nat} (h : s.MemWf) : (s.endContext n).MemWf :=
  deviceCheckpoint_memWf (commandDone_memWf (vacate_memWf h))

theorem terminate_memWf {s : State} {n cause detail : Nat} (h : s.MemWf) : (s.terminate n cause detail).MemWf := by
  unfold State.terminate
  refine endContext_memWf ?_
  refine notify_memWf ?_ _ _ _ _ _
  exact foldl_memWf (fun t _ ht => settleStores_memWf ht) h

theorem undoWrites_memWf {s : State} {n k : Nat} (h : s.MemWf) : (s.undoWrites n k).MemWf :=
  foldl_keeps (fun m => Memory.wf m = true) _ (fun m e hm => wf_memWriteBytes _ m (128 * e.line) hm) _ _ h

theorem rewait_memWf {s : State} {n : Nat} {l : List WaitRec} (h : s.MemWf) : (s.rewait n l).MemWf := by
  unfold State.rewait
  refine foldl_memWf (fun t _ ht => ?_) ?_
  · split
    · exact addWaiter_memWf ht _ _ _ _
    · exact ht
  · exact foldl_memWf (fun t _ ht => setFut_memWf ht _ _ _) h

theorem rollback_memWf {s : State} {n k cause : Nat} {r : Save} {x : Context} (h : s.MemWf) :
    (s.rollback n k cause r x).MemWf := by
  unfold State.rollback
  dsimp only
  split
  · refine setStop_memWf ?_
    refine notify_memWf ?_ _ _ _ _ _
    split
    · refine mapCtx_memWf ?_
      refine rewait_memWf ?_
      refine mapCtx_memWf ?_
      refine foldl_memWf (fun t _ ht => ht) ?_
      exact vacate_memWf (undoWrites_memWf h)
    · refine resumeFrom_memWf ?_
      refine rewait_memWf ?_
      refine mapCtx_memWf ?_
      refine foldl_memWf (fun t _ ht => ht) ?_
      exact vacate_memWf (undoWrites_memWf h)
  · refine commandDone_memWf ?_
    refine notify_memWf ?_ _ _ _ _ _
    split
    · refine mapCtx_memWf ?_
      refine rewait_memWf ?_
      refine mapCtx_memWf ?_
      refine foldl_memWf (fun t _ ht => ht) ?_
      exact vacate_memWf (undoWrites_memWf h)
    · refine resumeFrom_memWf ?_
      refine rewait_memWf ?_
      refine mapCtx_memWf ?_
      refine foldl_memWf (fun t _ ht => ht) ?_
      exact vacate_memWf (undoWrites_memWf h)

theorem lostRecord_memWf {s : State} {n : Nat} (h : s.MemWf) : (s.lostRecord n).MemWf :=
  terminate_memWf (notify_memWf h _ _ _ _ _)

theorem recover_memWf {s : State} {n : Nat} {cause : Cause} (h : s.MemWf) : (s.recover n cause).MemWf := by
  unfold State.recover
  split
  · exact h
  · split
    · split
      · exact lostRecord_memWf h
      · split
        · exact terminate_memWf h
        · exact rollback_memWf h
    · exact terminate_memWf h

theorem failContext_memWf {s : State} {n : Nat} {cause : Cause} {unit : Nat} (h : s.MemWf) :
    (s.failContext n cause unit).MemWf :=
  recover_memWf (notify_memWf h _ _ _ _ _)

theorem openInterval_memWf {s : State} {n k : Nat} (h : s.MemWf) : (s.openInterval n k).MemWf := by
  unfold State.openInterval
  refine notify_memWf (mapCtx_memWf ?_) n 9 0 0 k
  exact h

theorem keeps_execContextSave {n : Nat} {s : State} (h : s.MemWf) : Keeps (execContextSave n s) := by
  unfold execContextSave
  split
  · split
    · split
      · split
        · exact keeps_next (commandDone_memWf (mapCtx_memWf (openInterval_memWf (vacate_memWf h))))
        · exact keeps_next (commandDone_memWf (resumeFrom_memWf (openInterval_memWf (vacate_memWf h))))
      · exact keeps_next (deviceCheckpoint_memWf (commandDone_memWf (mapCtx_memWf (vacate_memWf h))))
    · exact keeps_refused _
  · exact keeps_refused _

theorem keeps_execWatchdogExpiry {n : Nat} {s : State} (h : s.MemWf) : Keeps (execWatchdogExpiry n s) := by
  unfold execWatchdogExpiry
  split
  · split
    · exact keeps_next (notify_memWf (mapCtx_memWf (setStop_memWf h)) _ _ _ _ _)
    · exact keeps_refused _
  · exact keeps_refused _

theorem keeps_execWatchdogRewrite {n : Nat} {s : State} (h : s.MemWf) : Keeps (execWatchdogRewrite n s) := by
  unfold execWatchdogRewrite
  split
  · exact keeps_next (mapCtx_memWf h)
  · exact keeps_refused _

theorem keeps_execSaveBoundExpiry {n : Nat} {s : State} (h : s.MemWf) : Keeps (execSaveBoundExpiry n s) := by
  unfold execSaveBoundExpiry
  split
  · split
    · split
      · exact keeps_next (failContext_memWf h)
      · exact keeps_refused _
    · split
      · exact keeps_next (failContext_memWf h)
      · exact keeps_refused _
    · exact keeps_refused _
  · exact keeps_refused _

theorem keeps_execUncorrectableError {what a code unit : Nat} {s : State} (h : s.MemWf) :
    Keeps (execUncorrectableError what a code unit s) := by
  unfold execUncorrectableError
  dsimp only
  split
  · exact keeps_next h
  · split
    · split
      · exact keeps_next (failContext_memWf h)
      · exact keeps_refused _
    · split
      · split
        · exact keeps_next (failContext_memWf h)
        · exact keeps_refused _
      · split
        · split
          · exact keeps_next h
          · exact keeps_refused _
        · exact keeps_refused _

theorem keeps_execCorrectedError {s : State} (h : s.MemWf) : Keeps (execCorrectedError s) := keeps_next h

theorem keeps_execLinkRetryExhausted {n link : Nat} {s : State} (h : s.MemWf) :
    Keeps (execLinkRetryExhausted n link s) := by
  unfold execLinkRetryExhausted
  split
  · exact keeps_next (failContext_memWf h)
  · exact keeps_refused _

theorem keeps_execAdxusLinkFailure {link : Nat} {lost : BitVec 64} {ctxs : List Nat} {s : State} (h : s.MemWf) :
    Keeps (execAdxusLinkFailure link lost ctxs s) := by
  unfold execAdxusLinkFailure
  split
  · refine keeps_next ?_
    refine foldl_memWf (fun t _ ht => failContext_memWf ht) ?_
    exact h
  · exact keeps_refused _

theorem keeps_execHostLinkFailure {ctxs : List Nat} {s : State} (h : s.MemWf) : Keeps (execHostLinkFailure ctxs s) := by
  unfold execHostLinkFailure
  refine keeps_next ?_
  refine foldl_memWf (fun t _ ht => failContext_memWf ht) ?_
  exact h

theorem freshFutures_memWf {s : State} {base lo hi : Nat} (h : s.MemWf) : (s.freshFutures base lo hi).MemWf :=
  wf_filter _ _ h

theorem loadContext_memWf {s : State} {d : Desc} (h : s.MemWf) : (s.loadContext d).MemWf :=
  populate_memWf (freshFutures_memWf h)

theorem leaveClusters_memWf {s : State} {n : Nat} {gone : List Nat} (h : s.MemWf) : (s.leaveClusters n gone).MemWf :=
  wf_filter _ _ h

theorem repartition_memWf {s : State} {n : Nat} {old d : Desc} (h : s.MemWf) : (s.repartition n old d).MemWf := by
  unfold State.repartition
  dsimp only
  split
  · exact h
  · exact populate_memWf (leaveClusters_memWf h)

theorem keeps_execContextDescriptorChange {n : Nat} {image : List Byte} {s : State} (h : s.MemWf) :
    Keeps (execContextDescriptorChange n image s) := by
  unfold execContextDescriptorChange
  dsimp only
  split
  · split
    · exact keeps_next h
    · refine keeps_next ?_
      split
      · split
        · exact mapCtx_memWf h
        · exact repartition_memWf (mapCtx_memWf h)
      · split
        · exact mapCtx_memWf h
        · exact repartition_memWf (mapCtx_memWf h)
  · exact keeps_refused _

/-! ### Management (`Sys2Proof/Machine/Manage.lean`) -/

theorem keeps_mailbox {s : State} {fn code : Nat} {ops : List Word} {listed : Nat} {body : State → Out} (h : s.MemWf)
    (hbody : ∀ (a : State), a.MemWf → Keeps (body a)) :
    Keeps (s.mailbox fn code ops listed body) := by
  unfold State.mailbox
  dsimp only
  split
  · exact keeps_next h
  · split
    · exact keeps_next h
    · split
      · exact keeps_next h
      · refine hbody _ ?_
        exact h

theorem keeps_badOp {s : State} {n : Nat} (h : s.MemWf) : Keeps (s.badOp n) := keeps_next h

theorem keeps_onContext {s : State} {ops : List Word} {body : Nat → Context → Out} (h : s.MemWf)
    (hbody : ∀ (a : Nat) (a_1 : Context), Keeps (body a a_1)) :
    Keeps (s.onContext ops body) := by
  unfold State.onContext
  dsimp only
  split
  · exact keeps_badOp h
  · split
    · exact keeps_next h
    · exact hbody _ _

theorem keeps_wrongState {s : State} {n : Nat} (h : s.MemWf) : Keeps (s.wrongState n) := keeps_next h

theorem keeps_execMailboxUnknownCommand {fn : Nat} {code : BitVec 16} {s : State} (h : s.MemWf) :
    Keeps (execMailboxUnknownCommand fn code s) := by
  unfold execMailboxUnknownCommand
  split
  · exact keeps_refused _
  · split
    · exact keeps_next h
    · split
      · refine keeps_next ?_
        refine memWf_of_eq (respond_mem _ _ _) ?_
        exact h
      · refine keeps_next ?_
        refine memWf_of_eq (respond_mem _ _ _) ?_
        exact h

theorem keeps_readBar2 {s : State} {off n : Nat} (h : s.MemWf) : Keeps (s.readBar2 off n) := by
  unfold State.readBar2
  dsimp only
  split
  · exact keeps_next h
  · exact keeps_refused _

theorem keeps_readBar0 {s : State} {n : Nat} (h : s.MemWf) : Keeps (s.readBar0 n) := keeps_next h

theorem keeps_joinDomain {s : State} {fabid : BitVec 6} {peers : BitVec 64} (h : s.MemWf) :
    Keeps (s.joinDomain fabid peers) := by
  unfold State.joinDomain
  split
  · exact keeps_refused _
  · exact keeps_next h

theorem keeps_execAccWrite {fn : Nat} {v : BitVec 256} {s : State} (h : s.MemWf) : Keeps (execAccWrite fn v s) := by
  unfold execAccWrite
  refine keeps_next ?_
  split
  · exact h
  · exact h

theorem applyUpdate_memWf {s : State} (h : s.MemWf) : (s.applyUpdate).MemWf := by
  unfold State.applyUpdate
  split
  · exact h
  · exact h

theorem keeps_execAccept {fn : Nat} {ops : List Word} {s : State} (h : s.MemWf) : Keeps (execAccept fn ops s) := by
  unfold execAccept
  refine keeps_mailbox h (fun _ ht => ?_)
  split
  · exact keeps_next ht
  · exact keeps_next ht

theorem keeps_execCapwWrite {fn : Nat} {v : BitVec 16} {s : State} (h : s.MemWf) : Keeps (execCapwWrite fn v s) := by
  unfold execCapwWrite
  refine keeps_next ?_
  split
  · exact h
  · exact h

theorem keeps_execClockStep {mhz : Nat} {s : State} (h : s.MemWf) : Keeps (execClockStep mhz s) := by
  unfold execClockStep
  split
  · exact keeps_next h
  · exact keeps_refused _

theorem keeps_execCtxload {fn : Nat} {ops : List Word} {s : State} (h : s.MemWf) : Keeps (execCtxload fn ops s) := by
  unfold execCtxload
  dsimp only
  refine keeps_mailbox h (fun _ ht => ?_)
  split
  · exact keeps_badOp (applyUpdate_memWf ht)
  · split
    · exact keeps_badOp (applyUpdate_memWf ht)
    · split
      · exact keeps_next (applyUpdate_memWf ht)
      · split
        · exact keeps_next (applyUpdate_memWf ht)
        · exact keeps_next (loadContext_memWf (applyUpdate_memWf ht))

theorem leaveWrites_memWf {s : State} {n : Nat} (h : s.MemWf) : (s.leaveWrites n).MemWf := endContext_memWf h

theorem keeps_execCtxend {fn : Nat} {ops : List Word} {s : State} (h : s.MemWf) : Keeps (execCtxend fn ops s) := by
  unfold execCtxend
  refine keeps_mailbox h (fun _ ht => ?_)
  refine keeps_onContext ht (fun _ _ => ?_)
  split
  · exact keeps_badOp ht
  · split
    · exact keeps_next (terminate_memWf ht)
    · split
      · exact keeps_next ht
      · exact keeps_next (leaveWrites_memWf ht)

theorem keeps_execCtxstop {fn : Nat} {ops : List Word} {s : State} (h : s.MemWf) : Keeps (execCtxstop fn ops s) := by
  unfold execCtxstop
  refine keeps_mailbox h (fun _ ht => ?_)
  refine keeps_onContext ht (fun _ _ => ?_)
  split
  · exact keeps_wrongState ht
  · exact keeps_next (setStop_memWf ht)

theorem keeps_execCtxresume {fn : Nat} {ops : List Word} {s : State} (h : s.MemWf) : Keeps (execCtxresume fn ops s) := by
  unfold execCtxresume
  refine keeps_mailbox h (fun _ ht => ?_)
  refine keeps_onContext ht (fun _ _ => ?_)
  split
  · exact keeps_badOp ht
  · split
    · exact keeps_wrongState ht
    · split
      · exact keeps_wrongState ht
      · split
        · exact keeps_next ht
        · split
          · exact keeps_next (resumeFrom_memWf ht)
          · exact keeps_next (failContext_memWf ht)

theorem keeps_execCkpt {fn : Nat} {ops : List Word} {s : State} (h : s.MemWf) : Keeps (execCkpt fn ops s) := by
  unfold execCkpt
  refine keeps_mailbox h (fun _ ht => ?_)
  refine keeps_onContext ht (fun _ _ => ?_)
  split
  · exact keeps_wrongState ht
  · exact keeps_next (mapCtx_memWf (setStop_memWf ht))

theorem keeps_execRollback {fn : Nat} {ops : List Word} {s : State} (h : s.MemWf) : Keeps (execRollback fn ops s) := by
  unfold execRollback
  refine keeps_mailbox h (fun _ ht => ?_)
  refine keeps_onContext ht (fun _ _ => ?_)
  split
  · exact keeps_badOp ht
  · split
    · exact keeps_badOp ht
    · split
      · exact keeps_next ht
      · split
        · exact keeps_next (lostRecord_memWf ht)
        · exact keeps_next (rollback_memWf ht)

theorem keeps_execDevckpt {fn : Nat} {ops : List Word} {s : State} (h : s.MemWf) : Keeps (execDevckpt fn ops s) := by
  unfold execDevckpt
  refine keeps_mailbox h (fun _ ht => ?_)
  split
  · exact keeps_badOp ht
  · split
    · exact keeps_badOp ht
    · split
      · exact keeps_badOp ht
      · refine keeps_next ?_
        refine deviceCheckpoint_memWf ?_
        exact foldl_memWf (fun t1 _ ht1 => setStop_memWf ht1) ht

theorem keeps_execWdset {fn : Nat} {ops : List Word} {s : State} (h : s.MemWf) : Keeps (execWdset fn ops s) := by
  unfold execWdset
  refine keeps_mailbox h (fun _ ht => ?_)
  refine keeps_onContext ht (fun _ _ => ?_)
  split
  · exact keeps_badOp ht
  · exact keeps_next (memWf_of_eq (respond_mem _ _ _) (mapCtx_memWf ht))

theorem keeps_execKeyreg {fn : Nat} {ops : List Word} {s : State} (h : s.MemWf) : Keeps (execKeyreg fn ops s) := by
  unfold execKeyreg
  dsimp only
  refine keeps_mailbox h (fun _ ht => ?_)
  split
  · exact keeps_badOp ht
  · split
    · exact keeps_badOp ht
    · split
      · exact keeps_badOp ht
      · exact keeps_next ht

theorem keeps_execKeyrev {fn : Nat} {ops : List Word} {s : State} (h : s.MemWf) : Keeps (execKeyrev fn ops s) := by
  unfold execKeyrev
  dsimp only
  refine keeps_mailbox h (fun _ ht => ?_)
  split
  · exact keeps_badOp ht
  · split
    · exact keeps_badOp ht
    · exact keeps_next ht

theorem keeps_weigh {s : State} {ops : List Word} {body : Nat → State → Out} (h : s.MemWf)
    (hbody : ∀ (a : Nat) (a_1 : State), a_1.MemWf → Keeps (body a a_1)) :
    Keeps (s.weigh ops body) := by
  unfold State.weigh
  dsimp only
  split
  · exact keeps_badOp h
  · split
    · exact keeps_badOp h
    · refine hbody _ _ ?_
      exact h

theorem keeps_execAgassign {fn : Nat} {ops : List Word} {s : State} (h : s.MemWf) : Keeps (execAgassign fn ops s) :=
  keeps_mailbox h (fun _ ht => keeps_weigh ht (fun _ _ ht1 => keeps_next ht1))

theorem keeps_execAgweight {fn : Nat} {ops : List Word} {s : State} (h : s.MemWf) : Keeps (execAgweight fn ops s) :=
  keeps_mailbox h (fun _ ht => keeps_weigh ht (fun _ _ ht1 => keeps_next ht1))

theorem keeps_execAcctsnap {fn : Nat} {ops : List Word} {s : State} (h : s.MemWf) : Keeps (execAcctsnap fn ops s) := by
  unfold execAcctsnap
  dsimp only
  refine keeps_mailbox h (fun _ ht => ?_)
  split
  · exact keeps_badOp ht
  · split
    · exact keeps_badOp ht
    · exact keeps_next (wf_memWriteBytes _ _ _ ht)

theorem keeps_execQset {fn : Nat} {ops : List Word} {s : State} (h : s.MemWf) : Keeps (execQset fn ops s) := by
  unfold execQset
  dsimp only
  refine keeps_mailbox h (fun _ ht => ?_)
  split
  · exact keeps_badOp ht
  · split
    · exact keeps_badOp ht
    · split
      · exact keeps_next ht
      · split
        · exact keeps_badOp ht
        · split
          · exact keeps_badOp ht
          · exact keeps_next ht

theorem keeps_execBargrant {fn : Nat} {ops : List Word} {s : State} (h : s.MemWf) : Keeps (execBargrant fn ops s) := by
  unfold execBargrant
  dsimp only
  refine keeps_mailbox h (fun _ ht => ?_)
  split
  · exact keeps_badOp ht
  · split
    · exact keeps_badOp ht
    · split
      · exact keeps_badOp ht
      · exact keeps_next ht

theorem unlogged_memWf {s : State} {n : Nat} {f : State → State} (h : s.MemWf) (hf : ∀ (a : State), a.MemWf → (f a).MemWf) :
    (s.unlogged n f).MemWf :=
  mapCtx_memWf (hf _ (mapCtx_memWf h))

theorem keeps_wouldRaise {s : State} {cause : Nat} (h : s.MemWf) : Keeps (s.wouldRaise cause) := keeps_next h

theorem keeps_execFutmake {fn : Nat} {ops : List Word} {s : State} (h : s.MemWf) : Keeps (execFutmake fn ops s) := by
  unfold execFutmake
  dsimp only
  refine keeps_mailbox h (fun _ ht => ?_)
  refine keeps_onContext ht (fun _ _ => ?_)
  split
  · exact keeps_wouldRaise ht
  · split
    · exact keeps_wouldRaise ht
    · exact keeps_next (mapCtx_memWf (unlogged_memWf ht (fun _ ht1 => allocFut_memWf ht1)))

theorem keeps_onFuture {s : State} {n h : Nat} {body : FutEntry → Out} (hs : s.MemWf) (hbody : ∀ (a : FutEntry), Keeps (body a))
    :
    Keeps (s.onFuture n h body) := by
  unfold State.onFuture
  split
  · exact keeps_badOp hs
  · split
    · exact keeps_wouldRaise hs
    · split
      · exact keeps_wouldRaise hs
      · exact hbody _

theorem unlogged_settle_memWf {s : State} (h : s.MemWf) (n : Nat) (work : List FutWork) :
    (s.unlogged n fun t => t.settle work).MemWf := by
  refine unlogged_memWf h fun t ht => ?_
  show (t.settle work).MemWf
  exact settle_memWf ht

theorem keeps_execFutput {fn : Nat} {ops : List Word} {s : State} (h : s.MemWf) : Keeps (execFutput fn ops s) := by
  unfold execFutput
  refine keeps_mailbox h fun t ht => keeps_onContext ht fun n x => ?_
  refine keeps_onFuture ht fun e => ?_
  split
  · exact keeps_wouldRaise ht
  · refine keeps_next (memWf_of_eq (respond_mem _ _ _) ?_)
    exact unlogged_settle_memWf ht n _

theorem keeps_execFutfree {fn : Nat} {ops : List Word} {s : State} (h : s.MemWf) : Keeps (execFutfree fn ops s) := by
  unfold execFutfree
  refine keeps_mailbox h (fun _ ht => ?_)
  refine keeps_onContext ht (fun _ _ => ?_)
  refine keeps_onFuture ht (fun _ => ?_)
  split
  · exact keeps_wouldRaise ht
  · exact keeps_next (memWf_of_eq (respond_mem _ _ _) (unlogged_memWf ht (fun _ ht1 => freeFut_memWf ht1)))

/-! ### Transfer phases (`Sys2Proof/Machine/Phase.lean`) -/

theorem keeps_execXsel {a : Reg} {k : BitVec 2} {s : State} (h : s.MemWf) : Keeps (execXsel a k s) := by
  unfold execXsel
  dsimp only
  refine keeps_issue h _ ?_
  refine keeps_ordered h (fun _ ht => ?_)
  split
  · exact keeps_trap ht _ _
  · split
    · exact keeps_trap ht _ _
    · split
      · exact keeps_readImage ht (fun _ ht1 _ => keeps_stall ht1)
      · split
        · exact keeps_trap ht _ _
        · refine keeps_readImage ht (fun _ ht1 _ => ?_)
          split
          · exact keeps_trap ht1 _ _
          · split
            · exact keeps_trap ht1 _ _
            · exact keeps_next (advance_memWf ht1)

theorem keeps_execBarp {k : BitVec 2} {s : State} (h : s.MemWf) : Keeps (execBarp k s) := by
  unfold execBarp
  refine keeps_issue h _ ?_
  refine keeps_ordered h (fun _ ht => ?_)
  split
  · exact keeps_next (advance_memWf ht)
  · split
    · exact keeps_trap ht _ _
    · exact keeps_waits ht

theorem finishAt_memWf {s : State} {c : CoreId} (h : s.MemWf) : (s.finishAt c).MemWf := by
  unfold State.finishAt
  split
  · exact memWf_of_eq (mapCore_mem _ _ _) h
  · exact advance_memWf (memWf_of_eq (focus_mem _ _) h)

theorem noSchedule_memWf {s : State} {cs : List CoreId} (h : s.MemWf) : (s.noSchedule cs).MemWf := by
  unfold State.noSchedule
  exact foldl_memWf (fun t _ ht => enterCore_memWf ht _ _ _ _ _ _ _ _) h

theorem keeps_execPhaseStart {ctx : Nat} {s : State} (h : s.MemWf) : Keeps (execPhaseStart ctx s) := by
  unfold execPhaseStart
  dsimp only
  split
  · exact keeps_refused _
  · split
    · split
      · refine keeps_next ?_
        refine memWf_of_eq (focus_mem _ _) ?_
        refine foldl_memWf (fun t _ ht => finishAt_memWf ht) ?_
        refine foldl_memWf (fun t _ ht => memWf_of_eq (mapCore_mem _ _ _) ht) ?_
        refine foldl_memWf (fun t _ ht => ht) ?_
        refine mapCtx_memWf ?_
        exact foldl_memWf (fun t _ ht => memWf_of_eq (mapCore_mem _ _ _) ht) h
      · refine keeps_next ?_
        refine noSchedule_memWf ?_
        exact foldl_memWf (fun t _ ht => memWf_of_eq (mapCore_mem _ _ _) ht) h
    · refine keeps_next ?_
      refine noSchedule_memWf ?_
      exact foldl_memWf (fun t _ ht => memWf_of_eq (mapCore_mem _ _ _) ht) h

theorem keeps_execTransferPhaseSlot {ctx : Nat} {s : State} (h : s.MemWf) : Keeps (execTransferPhaseSlot ctx s) := by
  unfold execTransferPhaseSlot
  split
  · exact keeps_refused _
  · split
    · exact keeps_refused _
    · refine keeps_next ?_
      refine mapCtx_memWf ?_
      refine foldl_memWf (fun t _ ht => ?_) ?_
      · exact foldl_memWf (fun t1 _ ht1 => memWf_of_eq (mapCore_mem _ _ _) ht1) ht
      · exact foldl_memWf (fun t _ ht => ht) h

theorem keeps_execPhaseEnd {ctx : Nat} {s : State} (h : s.MemWf) : Keeps (execPhaseEnd ctx s) := by
  unfold execPhaseEnd
  split
  · split
    · exact keeps_next (mapCtx_memWf h)
    · exact keeps_refused _
  · exact keeps_refused _

theorem keeps_inSlot {s : State} {t : Nat} {body : Option Phase → Out} (h : s.MemWf)
    (hbody : ∀ (a : Option Phase), Keeps (body a)) :
    Keeps (s.inSlot t body) := by
  unfold State.inSlot
  split
  · exact keeps_trap h _ _
  · split
    · exact keeps_trap h _ _
    · split
      · exact keeps_trap h _ _
      · exact hbody _

theorem keeps_xmitAtSlot {s : State} {t : Nat} {v : Vec} (h : s.MemWf) : Keeps (s.xmitAtSlot t v) := by
  unfold State.xmitAtSlot
  dsimp only
  refine keeps_inSlot h (fun _ => ?_)
  split
  · exact keeps_next (advance_memWf h)
  · split
    · exact keeps_waits h
    · split
      · split
        · exact keeps_next (advance_memWf h)
        · split
          · exact keeps_waits h
          · exact keeps_waits h
      · split
        · exact keeps_next (advance_memWf h)
        · exact keeps_waits h

theorem keeps_xrecvAtSlot {s : State} {d : Reg} {t : Nat} (h : s.MemWf) : Keeps (s.xrecvAtSlot d t) := by
  unfold State.xrecvAtSlot
  dsimp only
  refine keeps_inSlot h (fun _ => ?_)
  split
  · split
    · split
      · exact keeps_next (advance_memWf h)
      · exact keeps_next (advance_memWf h)
    · exact keeps_next (advance_memWf h)
  · split
    · split
      · exact keeps_next (advance_memWf h)
      · exact keeps_next (advance_memWf h)
    · exact keeps_next (advance_memWf h)

theorem keeps_beatSlot {s : State} {c : BitVec 4} {dir m : Nat} {body : Nat → Out} (h : s.MemWf)
    (hbody : ∀ (a : Nat), Keeps (body a)) :
    Keeps (s.beatSlot c dir m body) := by
  unfold State.beatSlot
  dsimp only
  split
  · exact keeps_trap h _ _
  · split
    · exact keeps_trap h _ _
    · exact hbody _

theorem keeps_execXmit {h b : Reg} {l : BitVec 3} {s : State} (hs : s.MemWf) : Keeps (execXmit h b l s) :=
  keeps_issue hs _ (keeps_ordered hs (fun _ ht => keeps_xmitAtSlot ht))

theorem keeps_execXmitCh {c : BitVec 4} {h b : Reg} {l : BitVec 3} {s : State} (hs : s.MemWf) :
    Keeps (execXmitCh c h b l s) :=
  keeps_issue hs _ (keeps_ordered hs (fun _ ht => keeps_beatSlot ht (fun _ => keeps_xmitAtSlot ht)))

theorem keeps_execXrecv {d h : Reg} {l : BitVec 3} {s : State} (hs : s.MemWf) : Keeps (execXrecv d h l s) :=
  keeps_issue hs _ (keeps_ordered hs (fun _ ht => keeps_xrecvAtSlot ht))

theorem keeps_execXrecvCh {d h : Reg} {c : BitVec 4} {l : BitVec 3} {s : State} (hs : s.MemWf) :
    Keeps (execXrecvCh d h c l s) :=
  keeps_issue hs _ (keeps_ordered hs (fun _ ht => keeps_beatSlot ht (fun _ => keeps_xrecvAtSlot ht)))

theorem keeps_execXend {d : Reg} {s : State} (h : s.MemWf) : Keeps (execXend d s) := by
  unfold execXend
  refine keeps_issue h _ ?_
  refine keeps_ordered h (fun _ ht => ?_)
  split
  · exact keeps_trap ht _ _
  · split
    · exact keeps_waits ht
    · exact keeps_next (advance_memWf ht)

/-! ### Scalar instructions (`Sys2Proof/Machine/Scalar.lean`) -/

theorem keeps_execAdd {d a : Reg} {da : Dist} {b : Reg} {db : Dist} {s : State} (h : s.MemWf) :
    Keeps (execAdd d a da b db s) :=
  keeps_form2 h _ _ _ _ _ _

theorem keeps_execSub {d a : Reg} {da : Dist} {b : Reg} {db : Dist} {s : State} (h : s.MemWf) :
    Keeps (execSub d a da b db s) :=
  keeps_form2 h _ _ _ _ _ _

theorem keeps_execMul {d a : Reg} {da : Dist} {b : Reg} {db : Dist} {s : State} (h : s.MemWf) :
    Keeps (execMul d a da b db s) :=
  keeps_form2 h _ _ _ _ _ _

theorem keeps_execMulh {d a : Reg} {da : Dist} {b : Reg} {db : Dist} {s : State} (h : s.MemWf) :
    Keeps (execMulh d a da b db s) :=
  keeps_form2 h _ _ _ _ _ _

theorem keeps_execMulhu {d a : Reg} {da : Dist} {b : Reg} {db : Dist} {s : State} (h : s.MemWf) :
    Keeps (execMulhu d a da b db s) :=
  keeps_form2 h _ _ _ _ _ _

theorem keeps_execMadd {d a : Reg} {da : Dist} {b : Reg} {db : Dist} {s : State} (h : s.MemWf) :
    Keeps (execMadd d a da b db s) :=
  keeps_form3 h _ _ _ _ _ _

theorem keeps_execDiv {d a : Reg} {da : Dist} {b : Reg} {db : Dist} {s : State} (h : s.MemWf) :
    Keeps (execDiv d a da b db s) :=
  keeps_form2 h _ _ _ _ _ _

theorem keeps_execDivu {d a : Reg} {da : Dist} {b : Reg} {db : Dist} {s : State} (h : s.MemWf) :
    Keeps (execDivu d a da b db s) :=
  keeps_form2 h _ _ _ _ _ _

theorem keeps_execRem {d a : Reg} {da : Dist} {b : Reg} {db : Dist} {s : State} (h : s.MemWf) :
    Keeps (execRem d a da b db s) :=
  keeps_form2 h _ _ _ _ _ _

theorem keeps_execRemu {d a : Reg} {da : Dist} {b : Reg} {db : Dist} {s : State} (h : s.MemWf) :
    Keeps (execRemu d a da b db s) :=
  keeps_form2 h _ _ _ _ _ _

theorem keeps_execAnd {d a : Reg} {da : Dist} {b : Reg} {db : Dist} {s : State} (h : s.MemWf) :
    Keeps (execAnd d a da b db s) :=
  keeps_form2 h _ _ _ _ _ _

theorem keeps_execOr {d a : Reg} {da : Dist} {b : Reg} {db : Dist} {s : State} (h : s.MemWf) :
    Keeps (execOr d a da b db s) :=
  keeps_form2 h _ _ _ _ _ _

theorem keeps_execXor {d a : Reg} {da : Dist} {b : Reg} {db : Dist} {s : State} (h : s.MemWf) :
    Keeps (execXor d a da b db s) :=
  keeps_form2 h _ _ _ _ _ _

theorem keeps_execAndn {d a : Reg} {da : Dist} {b : Reg} {db : Dist} {s : State} (h : s.MemWf) :
    Keeps (execAndn d a da b db s) :=
  keeps_form2 h _ _ _ _ _ _

theorem keeps_execShl {d a : Reg} {da : Dist} {b : Reg} {db : Dist} {s : State} (h : s.MemWf) :
    Keeps (execShl d a da b db s) :=
  keeps_form2 h _ _ _ _ _ _

theorem keeps_execShr {d a : Reg} {da : Dist} {b : Reg} {db : Dist} {s : State} (h : s.MemWf) :
    Keeps (execShr d a da b db s) :=
  keeps_form2 h _ _ _ _ _ _

theorem keeps_execSra {d a : Reg} {da : Dist} {b : Reg} {db : Dist} {s : State} (h : s.MemWf) :
    Keeps (execSra d a da b db s) :=
  keeps_form2 h _ _ _ _ _ _

theorem keeps_execRol {d a : Reg} {da : Dist} {b : Reg} {db : Dist} {s : State} (h : s.MemWf) :
    Keeps (execRol d a da b db s) :=
  keeps_form2 h _ _ _ _ _ _

theorem keeps_execMin {d a : Reg} {da : Dist} {b : Reg} {db : Dist} {s : State} (h : s.MemWf) :
    Keeps (execMin d a da b db s) :=
  keeps_form2 h _ _ _ _ _ _

theorem keeps_execMax {d a : Reg} {da : Dist} {b : Reg} {db : Dist} {s : State} (h : s.MemWf) :
    Keeps (execMax d a da b db s) :=
  keeps_form2 h _ _ _ _ _ _

theorem keeps_execMinu {d a : Reg} {da : Dist} {b : Reg} {db : Dist} {s : State} (h : s.MemWf) :
    Keeps (execMinu d a da b db s) :=
  keeps_form2 h _ _ _ _ _ _

theorem keeps_execMaxu {d a : Reg} {da : Dist} {b : Reg} {db : Dist} {s : State} (h : s.MemWf) :
    Keeps (execMaxu d a da b db s) :=
  keeps_form2 h _ _ _ _ _ _

theorem keeps_execSlt {d a : Reg} {da : Dist} {b : Reg} {db : Dist} {s : State} (h : s.MemWf) :
    Keeps (execSlt d a da b db s) :=
  keeps_form2 h _ _ _ _ _ _

theorem keeps_execSltu {d a : Reg} {da : Dist} {b : Reg} {db : Dist} {s : State} (h : s.MemWf) :
    Keeps (execSltu d a da b db s) :=
  keeps_form2 h _ _ _ _ _ _

theorem keeps_execSeq {d a : Reg} {da : Dist} {b : Reg} {db : Dist} {s : State} (h : s.MemWf) :
    Keeps (execSeq d a da b db s) :=
  keeps_form2 h _ _ _ _ _ _

theorem keeps_execClz {d a : Reg} {da : Dist} {s : State} (h : s.MemWf) : Keeps (execClz d a da s) := keeps_form1 h _ _ _ _

theorem keeps_execCtz {d a : Reg} {da : Dist} {s : State} (h : s.MemWf) : Keeps (execCtz d a da s) := keeps_form1 h _ _ _ _

theorem keeps_execPopc {d a : Reg} {da : Dist} {s : State} (h : s.MemWf) : Keeps (execPopc d a da s) :=
  keeps_form1 h _ _ _ _

theorem keeps_execSextb {d a : Reg} {da : Dist} {s : State} (h : s.MemWf) : Keeps (execSextb d a da s) :=
  keeps_form1 h _ _ _ _

theorem keeps_execSexth {d a : Reg} {da : Dist} {s : State} (h : s.MemWf) : Keeps (execSexth d a da s) :=
  keeps_form1 h _ _ _ _

theorem keeps_execSextw {d a : Reg} {da : Dist} {s : State} (h : s.MemWf) : Keeps (execSextw d a da s) :=
  keeps_form1 h _ _ _ _

theorem keeps_execBfx {d a : Reg} {da : Dist} {b : Reg} {db : Dist} {s : State} (h : s.MemWf) :
    Keeps (execBfx d a da b db s) :=
  keeps_form2 h _ _ _ _ _ _

theorem keeps_execBfi {d a : Reg} {da : Dist} {b : Reg} {db : Dist} {s : State} (h : s.MemWf) :
    Keeps (execBfi d a da b db s) :=
  keeps_form3 h _ _ _ _ _ _

theorem keeps_execSel {d a : Reg} {da : Dist} {b : Reg} {db : Dist} {s : State} (h : s.MemWf) :
    Keeps (execSel d a da b db s) :=
  keeps_form3 h _ _ _ _ _ _

theorem keeps_execAddw {d a : Reg} {da : Dist} {b : Reg} {db : Dist} {s : State} (h : s.MemWf) :
    Keeps (execAddw d a da b db s) :=
  keeps_form2 h _ _ _ _ _ _

theorem keeps_execSubw {d a : Reg} {da : Dist} {b : Reg} {db : Dist} {s : State} (h : s.MemWf) :
    Keeps (execSubw d a da b db s) :=
  keeps_form2 h _ _ _ _ _ _

theorem keeps_execAddi {d a : Reg} {da : Dist} {i : BitVec 14} {s : State} (h : s.MemWf) : Keeps (execAddi d a da i s) :=
  keeps_form1 h _ _ _ _

theorem keeps_execAndi {d a : Reg} {da : Dist} {i : BitVec 14} {s : State} (h : s.MemWf) : Keeps (execAndi d a da i s) :=
  keeps_form1 h _ _ _ _

theorem keeps_execOri {d a : Reg} {da : Dist} {i : BitVec 14} {s : State} (h : s.MemWf) : Keeps (execOri d a da i s) :=
  keeps_form1 h _ _ _ _

theorem keeps_execXori {d a : Reg} {da : Dist} {i : BitVec 14} {s : State} (h : s.MemWf) : Keeps (execXori d a da i s) :=
  keeps_form1 h _ _ _ _

theorem keeps_execSlti {d a : Reg} {da : Dist} {i : BitVec 14} {s : State} (h : s.MemWf) : Keeps (execSlti d a da i s) :=
  keeps_form1 h _ _ _ _

theorem keeps_execSltiu {d a : Reg} {da : Dist} {i : BitVec 14} {s : State} (h : s.MemWf) : Keeps (execSltiu d a da i s) :=
  keeps_form1 h _ _ _ _

theorem keeps_execShli {d a : Reg} {da : Dist} {n : BitVec 6} {s : State} (h : s.MemWf) : Keeps (execShli d a da n s) :=
  keeps_form1 h _ _ _ _

theorem keeps_execShri {d a : Reg} {da : Dist} {n : BitVec 6} {s : State} (h : s.MemWf) : Keeps (execShri d a da n s) :=
  keeps_form1 h _ _ _ _

theorem keeps_execSrai {d a : Reg} {da : Dist} {n : BitVec 6} {s : State} (h : s.MemWf) : Keeps (execSrai d a da n s) :=
  keeps_form1 h _ _ _ _

theorem keeps_execRori {d a : Reg} {da : Dist} {n : BitVec 6} {s : State} (h : s.MemWf) : Keeps (execRori d a da n s) :=
  keeps_form1 h _ _ _ _

theorem keeps_execLui {d : Reg} {i : BitVec 21} {s : State} (h : s.MemWf) : Keeps (execLui d i s) := keeps_form0 h _ _

theorem keeps_execAdpc {d : Reg} {i : BitVec 21} {s : State} (h : s.MemWf) : Keeps (execAdpc d i s) := keeps_form0 h _ _

theorem keeps_execInsi {d : Reg} {p : BitVec 2} {z : BitVec 1} {i : BitVec 16} {s : State} (h : s.MemWf) :
    Keeps (execInsi d p z i s) := by
  unfold execInsi
  split
  · exact keeps_form0 h _ _
  · exact keeps_form1 h _ _ _ _

/-! ### Barriers and sleep (`Sys2Proof/Machine/Sync.lean`) -/

theorem keeps_arriveAt {s : State} {n : Nat} {q : BitVec 16} {body : Barrier → Out} (h : s.MemWf)
    (hbody : ∀ (a : Barrier), Keeps (body a)) :
    Keeps (s.arriveAt n q body) := by
  unfold State.arriveAt
  dsimp only
  split
  · exact keeps_trap h _ _
  · split
    · exact keeps_trap h _ _
    · exact keeps_released h (hbody _)

theorem keeps_barEnd {s : State} {n : Nat} {b : Barrier} (h : s.MemWf) : Keeps (s.barEnd n b) := by
  unfold State.barEnd
  dsimp only
  split
  · exact keeps_next (advance_memWf (acquired_memWf h))
  · exact keeps_waits h

theorem keeps_execBar {a : Reg} {n : BitVec 2} {s : State} (h : s.MemWf) : Keeps (execBar a n s) := by
  unfold execBar
  dsimp only
  refine keeps_issue h _ ?_
  refine keeps_ordered h (fun _ ht => ?_)
  split
  · exact keeps_barEnd ht
  · exact keeps_arriveAt ht (fun _ => keeps_barEnd ht)

theorem keeps_execBarnw {a : Reg} {n : BitVec 2} {s : State} (h : s.MemWf) : Keeps (execBarnw a n s) := by
  unfold execBarnw
  refine keeps_issue h _ ?_
  refine keeps_ordered h (fun _ ht => ?_)
  split
  · exact keeps_trap ht _ _
  · exact keeps_arriveAt ht (fun _ => keeps_next (advance_memWf ht))

theorem keeps_sleepEnd {s : State} {d : Reg} {x : Word} {wake : Bool} (h : s.MemWf) : Keeps (s.sleepEnd d x wake) :=
  keeps_next (advance_memWf h)

theorem keeps_execSleep {d a : Reg} {s : State} (h : s.MemWf) : Keeps (execSleep d a s) := by
  unfold execSleep
  refine keeps_issue h _ ?_
  refine keeps_ordered h (fun _ ht => ?_)
  split
  · exact keeps_sleepEnd ht
  · split
    · exact keeps_sleepEnd ht
    · split
      · exact keeps_sleepEnd ht
      · exact keeps_waits ht

theorem keeps_execSleepDeadline {c : Nat} {s : State} (h : s.MemWf) : Keeps (execSleepDeadline c s) := by
  unfold execSleepDeadline
  dsimp only
  split
  · split
    · exact keeps_next (memWf_of_eq (setCore_mem _ _ _) h)
    · exact keeps_refused _
  · exact keeps_refused _

theorem keeps_execWake {a : Reg} {s : State} (h : s.MemWf) : Keeps (execWake a s) := by
  unfold execWake
  refine keeps_issue h _ ?_
  refine keeps_ordered h (fun _ ht => ?_)
  split
  · exact keeps_next (advance_memWf (memWf_of_eq (mapCore_mem _ _ _) ht))
  · exact keeps_trap ht _ _

theorem keeps_execTime {d : Reg} {s : State} (h : s.MemWf) : Keeps (execTime d s) :=
  keeps_issue h _ (keeps_ordered h (fun _ ht => keeps_next (advance_memWf ht)))

/-! ### Start-up and firmware (`Sys2Proof/Machine/Trust.lean`) -/

theorem bootFrom_memWf : ∀ (l : List (Nat × Nat)) {s : State}, s.MemWf → (s.bootFrom l).MemWf
  | [], _, h => h
  | p :: l, s, h => by
    unfold State.bootFrom
    dsimp only
    split
    · exact bootFrom_memWf l h
    · exact h

theorem powerOn_memWf {s : State} (h : s.MemWf) : (s.powerOn).MemWf := wf_filter _ _ h

theorem keeps_execPowerOnReset {s : State} (h : s.MemWf) : Keeps (execPowerOnReset s) :=
  keeps_next (bootFrom_memWf _ (powerOn_memWf h))

theorem keeps_answers_ {s : State} {b : List Byte} (h : s.MemWf) : Keeps (s.answers_ b) := keeps_next h

theorem keeps_execGetVersion {req : List Byte} {s : State} (h : s.MemWf) : Keeps (execGetVersion req s) := keeps_answers_ h

theorem keeps_execGetCapabilities {req : List Byte} {s : State} (h : s.MemWf) : Keeps (execGetCapabilities req s) :=
  keeps_answers_ h

theorem keeps_execNegotiateAlgorithms {req : List Byte} {s : State} (h : s.MemWf) : Keeps (execNegotiateAlgorithms req s) :=
  keeps_answers_ h

theorem keeps_execGetDigests {req : List Byte} {s : State} (h : s.MemWf) : Keeps (execGetDigests req s) := keeps_answers_ h

theorem keeps_execGetCertificate {req : List Byte} {s : State} (h : s.MemWf) : Keeps (execGetCertificate req s) := by
  unfold execGetCertificate
  split
  · exact keeps_answers_ h
  · exact keeps_answers_ h

theorem keeps_execChallenge {req : List Byte} {s : State} (h : s.MemWf) : Keeps (execChallenge req s) := by
  unfold execChallenge
  split
  · exact keeps_answers_ h
  · exact keeps_answers_ h

theorem keeps_execGetMeasurements {req : List Byte} {s : State} (h : s.MemWf) : Keeps (execGetMeasurements req s) := by
  unfold execGetMeasurements
  dsimp only
  split
  · exact keeps_answers_ h
  · exact keeps_answers_ h

theorem keeps_execSpdmOtherRequest {req : List Byte} {s : State} (h : s.MemWf) : Keeps (execSpdmOtherRequest req s) := by
  unfold execSpdmOtherRequest
  split
  · exact keeps_refused _
  · exact keeps_answers_ h

theorem growFutures_memWf {s : State} {n m : Nat} {x : Context} (h : s.MemWf) : (s.growFutures n m x).MemWf := by
  unfold State.growFutures
  split
  · exact h
  · exact mapCtx_memWf (freshFutures_memWf h)

theorem writeImage_memWf {s : State} {o : CodeObj} {p : Placement} {text : List Byte} (h : s.MemWf) :
    (s.writeImage o p text).MemWf :=
  wf_memWriteBytes _ _ _ (wf_memWriteBytes _ _ _ (wf_memWriteBytes _ _ _ h))

theorem keeps_loadFails {s : State} {code detail : Nat} {w1 : Word} (h : s.MemWf) : Keeps (s.loadFails code detail w1) :=
  keeps_next h

theorem keeps_makeImage {s : State} {n : Nat} {x : Context} {o : CodeObj} {p : Placement} (h : s.MemWf) :
    Keeps (s.makeImage n x o p) := by
  unfold State.makeImage
  split
  · exact keeps_loadFails h
  · split
    · exact keeps_loadFails h
    · split
      · exact keeps_refused _
      · split
        · exact keeps_loadFails h
        · split
          · exact keeps_loadFails h
          · split
            · exact keeps_refused _
            · exact keeps_next (mapCtx_memWf (writeImage_memWf (growFutures_memWf h)))

theorem keeps_execObjload {fn : Nat} {ops : List Word} {p : Placement} {s : State} (h : s.MemWf) :
    Keeps (execObjload fn ops p s) := by
  unfold execObjload
  dsimp only
  refine keeps_mailbox h (fun _ ht => ?_)
  refine keeps_onContext ht (fun _ _ => ?_)
  split
  · exact keeps_badOp ht
  · split
    · exact keeps_loadFails ht
    · split
      · exact keeps_loadFails ht
      · split
        · exact keeps_loadFails ht
        · split
          · exact keeps_loadFails ht
          · split
            · exact keeps_loadFails ht
            · split
              · exact keeps_loadFails ht
              · split
                · exact keeps_loadFails ht
                · split
                  · exact keeps_loadFails ht
                  · exact keeps_makeImage ht

theorem keeps_execObjunload {fn : Nat} {ops : List Word} {s : State} (h : s.MemWf) : Keeps (execObjunload fn ops s) := by
  unfold execObjunload
  dsimp only
  refine keeps_mailbox h (fun _ ht => ?_)
  refine keeps_onContext ht (fun _ _ => ?_)
  split
  · exact keeps_badOp ht
  · split
    · exact keeps_next ht
    · split
      · split
        · exact keeps_next (terminate_memWf ht)
        · exact keeps_next ht
      · exact keeps_next (mapCtx_memWf ht)

theorem keeps_execFirmwareUpdate {store : List Word32} {table : List Word} {translator : List Byte} {build wmin svn : Nat}
    {sigs : List (BitVec 768)} {s : State} (h : s.MemWf) :
    Keeps (execFirmwareUpdate store table translator build wmin svn sigs s) := by
  unfold execFirmwareUpdate
  dsimp only
  split
  · exact keeps_next (applyUpdate_memWf h)
  · exact keeps_next (applyUpdate_memWf h)

theorem keeps_execUpdateTakesEffect {s : State} (h : s.MemWf) : Keeps (execUpdateTakesEffect s) := by
  unfold execUpdateTakesEffect
  split
  · exact keeps_next (applyUpdate_memWf h)
  · exact keeps_refused _

/-! ### Every instruction (`Sys2Proof/Machine/Dispatch.lean`) -/

theorem exec_phaseStart (n : Nat) (s : State) : exec (.phaseStart n) s = execPhaseStart n s := rfl

theorem keeps_exec {i : Instr} {s : State} (h : s.MemWf) : Keeps (exec i s) := by
  cases i with
  | add => exact keeps_execAdd h
  | sub => exact keeps_execSub h
  | mul => exact keeps_execMul h
  | mulh => exact keeps_execMulh h
  | mulhu => exact keeps_execMulhu h
  | madd => exact keeps_execMadd h
  | div => exact keeps_execDiv h
  | divu => exact keeps_execDivu h
  | rem => exact keeps_execRem h
  | remu => exact keeps_execRemu h
  | and => exact keeps_execAnd h
  | or => exact keeps_execOr h
  | xor => exact keeps_execXor h
  | andn => exact keeps_execAndn h
  | shl => exact keeps_execShl h
  | shr => exact keeps_execShr h
  | sra => exact keeps_execSra h
  | rol => exact keeps_execRol h
  | min => exact keeps_execMin h
  | max => exact keeps_execMax h
  | minu => exact keeps_execMinu h
  | maxu => exact keeps_execMaxu h
  | slt => exact keeps_execSlt h
  | sltu => exact keeps_execSltu h
  | seq => exact keeps_execSeq h
  | clz => exact keeps_execClz h
  | ctz => exact keeps_execCtz h
  | popc => exact keeps_execPopc h
  | sextb => exact keeps_execSextb h
  | sexth => exact keeps_execSexth h
  | sextw => exact keeps_execSextw h
  | bfx => exact keeps_execBfx h
  | bfi => exact keeps_execBfi h
  | sel => exact keeps_execSel h
  | addw => exact keeps_execAddw h
  | subw => exact keeps_execSubw h
  | addi => exact keeps_execAddi h
  | andi => exact keeps_execAndi h
  | ori => exact keeps_execOri h
  | xori => exact keeps_execXori h
  | slti => exact keeps_execSlti h
  | sltiu => exact keeps_execSltiu h
  | shli => exact keeps_execShli h
  | shri => exact keeps_execShri h
  | srai => exact keeps_execSrai h
  | rori => exact keeps_execRori h
  | lui => exact keeps_execLui h
  | adpc => exact keeps_execAdpc h
  | insi => exact keeps_execInsi h
  | beqz => exact keeps_execBeqz h
  | bnez => exact keeps_execBnez h
  | bltz => exact keeps_execBltz h
  | bgez => exact keeps_execBgez h
  | bgtz => exact keeps_execBgtz h
  | blez => exact keeps_execBlez h
  | bodd => exact keeps_execBodd h
  | jmp => exact keeps_execJmp h
  | jal => exact keeps_execJal h
  | jr => exact keeps_execJr h
  | jalr => exact keeps_execJalr h
  | lcar => exact keeps_execLcar h
  | loop => exact keeps_execLoop h
  | endit => exact keeps_execEndit h
  | brkif => exact keeps_execBrkif h
  | contif => exact keeps_execContif h
  | itx => exact keeps_execItx h
  | lstat => exact keeps_execLstat h
  | movd => exact keeps_execMovd h
  | fuse => exact keeps_execFuse h
  | split => exact keeps_execSplit h
  | gany => exact keeps_execGany h
  | gall => exact keeps_execGall h
  | gidx => exact keeps_execGidx h
  | gbc => exact keeps_execGbc h
  | gsum => exact keeps_execGsum h
  | lb => exact keeps_execLb h
  | lbu => exact keeps_execLbu h
  | lh => exact keeps_execLh h
  | lhu => exact keeps_execLhu h
  | lw => exact keeps_execLw h
  | lwu => exact keeps_execLwu h
  | ld => exact keeps_execLd h
  | sb => exact keeps_execSb h
  | sh => exact keeps_execSh h
  | sw => exact keeps_execSw h
  | sd => exact keeps_execSd h
  | lda => exact keeps_execLda h
  | stl => exact keeps_execStl h
  | ldro _ _ _ _ w => exact keeps_execLdro (a1 := w) h
  | pref _ _ w => exact keeps_execPref (a1 := w) h
  | stn _ _ _ w => exact keeps_execStn (a1 := w) h
  | sts => exact keeps_execSts h
  | amoswp => exact keeps_execAmoswp h
  | amoadd => exact keeps_execAmoadd h
  | amoand => exact keeps_execAmoand h
  | amoor => exact keeps_execAmoor h
  | amoxor => exact keeps_execAmoxor h
  | amomin => exact keeps_execAmomin h
  | amomax => exact keeps_execAmomax h
  | amominu => exact keeps_execAmominu h
  | amomaxu => exact keeps_execAmomaxu h
  | cas => exact keeps_execCas h
  | amofadd => exact keeps_execAmofadd h
  | amoinc => exact keeps_execAmoinc h
  | fence => exact keeps_execFence h
  | fenceR => exact keeps_execFenceR h
  | fenceW => exact keeps_execFenceW h
  | ifence w => exact keeps_execIfence (a1 := w) h
  | fenceE => exact keeps_execFenceE h
  | fenceJ => exact keeps_execFenceJ h
  | fadd => exact keeps_execFadd h
  | fsub => exact keeps_execFsub h
  | fmul => exact keeps_execFmul h
  | fdiv => exact keeps_execFdiv h
  | fsqrt => exact keeps_execFsqrt h
  | fma => exact keeps_execFma h
  | fmin => exact keeps_execFmin h
  | fmax => exact keeps_execFmax h
  | feq => exact keeps_execFeq h
  | flt => exact keeps_execFlt h
  | fle => exact keeps_execFle h
  | fclass => exact keeps_execFclass h
  | fcvti => exact keeps_execFcvti h
  | fcvtf => exact keeps_execFcvtf h
  | fcvtw => exact keeps_execFcvtw h
  | vadd => exact keeps_execVadd h
  | vsub => exact keeps_execVsub h
  | vmul => exact keeps_execVmul h
  | vmulh => exact keeps_execVmulh h
  | vmin => exact keeps_execVmin h
  | vmax => exact keeps_execVmax h
  | vminu => exact keeps_execVminu h
  | vmaxu => exact keeps_execVmaxu h
  | vand => exact keeps_execVand h
  | vor => exact keeps_execVor h
  | vxor => exact keeps_execVxor h
  | vshl => exact keeps_execVshl h
  | vshr => exact keeps_execVshr h
  | vsra => exact keeps_execVsra h
  | vsadd => exact keeps_execVsadd h
  | vssub => exact keeps_execVssub h
  | vabs => exact keeps_execVabs h
  | vcmpeq => exact keeps_execVcmpeq h
  | vcmplt => exact keeps_execVcmplt h
  | vcmpltu => exact keeps_execVcmpltu h
  | vfadd => exact keeps_execVfadd h
  | vfsub => exact keeps_execVfsub h
  | vfmul => exact keeps_execVfmul h
  | vfma => exact keeps_execVfma h
  | vfmin => exact keeps_execVfmin h
  | vfmax => exact keeps_execVfmax h
  | vfdiv => exact keeps_execVfdiv h
  | vfsqrt => exact keeps_execVfsqrt h
  | vfabs => exact keeps_execVfabs h
  | vfneg => exact keeps_execVfneg h
  | vfcmpeq => exact keeps_execVfcmpeq h
  | vfcmplt => exact keeps_execVfcmplt h
  | vfcmple => exact keeps_execVfcmple h
  | vld => exact keeps_execVld h
  | vst => exact keeps_execVst h
  | vlds => exact keeps_execVlds h
  | vsts => exact keeps_execVsts h
  | vgath => exact keeps_execVgath h
  | vscat => exact keeps_execVscat h
  | vldb => exact keeps_execVldb h
  | vshuf => exact keeps_execVshuf h
  | vslide => exact keeps_execVslide h
  | vbcast => exact keeps_execVbcast h
  | vext => exact keeps_execVext h
  | vins => exact keeps_execVins h
  | vredsum => exact keeps_execVredsum h
  | vredmax => exact keeps_execVredmax h
  | vredmin => exact keeps_execVredmin h
  | vcvt => exact keeps_execVcvt h
  | venc => exact keeps_execVenc h
  | vdec => exact keeps_execVdec h
  | vqnt => exact keeps_execVqnt h
  | vdqnt => exact keeps_execVdqnt h
  | vppu => exact keeps_execVppu h
  | viota => exact keeps_execViota h
  | vsel => exact keeps_execVsel h
  | kand => exact keeps_execKand h
  | kor => exact keeps_execKor h
  | kxor => exact keeps_execKxor h
  | knot => exact keeps_execKnot h
  | kfrom => exact keeps_execKfrom h
  | kto => exact keeps_execKto h
  | kpop => exact keeps_execKpop h
  | kfirst => exact keeps_execKfirst h
  | mcfg _ _ w => exact keeps_execMcfg (a1 := w) h
  | mgeo _ w => exact keeps_execMgeo (a1 := w) h
  | mzero w => exact keeps_execMzero (a1 := w) h
  | mma => exact keeps_execMma h
  | mmat => exact keeps_execMmat h
  | mmas => exact keeps_execMmas h
  | mdrain => exact keeps_execMdrain h
  | mldacc => exact keeps_execMldacc h
  | mstacc => exact keeps_execMstacc h
  | mstat _ w => exact keeps_execMstat (a1 := w) h
  | mwait w => exact keeps_execMwait (a1 := w) h
  | chain _ _ w => exact keeps_execChain (a1 := w) h
  | cadd => exact keeps_execCadd h
  | cclose w => exact keeps_execCclose (a1 := w) h
  | cstat _ _ w => exact keeps_execCstat (a1 := w) h
  | cwait w => exact keeps_execCwait (a1 := w) h
  | rgcfg => exact keeps_execRgcfg h
  | mtld => exact keeps_execMtld h
  | mtclr => exact keeps_execMtclr h
  | binj => exact keeps_execBinj h
  | btake => exact keeps_execBtake h
  | bstat => exact keeps_execBstat h
  | tkget => exact keeps_execTkget h
  | tkdone => exact keeps_execTkdone h
  | rgsub => exact keeps_execRgsub h
  | rgquiet => exact keeps_execRgquiet h
  | tabld _ _ w => exact keeps_execTabld (a1 := w) h
  | tabrd _ _ w => exact keeps_execTabrd (a1 := w) h
  | tabchk _ w => exact keeps_execTabchk (a1 := w) h
  | ppuld _ w => exact keeps_execPpuld (a1 := w) h
  | ppurd _ _ w => exact keeps_execPpurd (a1 := w) h
  | enc _ _ w => exact keeps_execEnc (a1 := w) h
  | dec _ _ w => exact keeps_execDec (a1 := w) h
  | cpstat => exact keeps_execCpstat h
  | cpwait => exact keeps_execCpwait h
  | cpcan => exact keeps_execCpcan h
  | fnew => exact keeps_execFnew h
  | fput => exact keeps_execFput h
  | fget => exact keeps_execFget h
  | ftry => exact keeps_execFtry h
  | fpois => exact keeps_execFpois h
  | ffree => exact keeps_execFfree h
  | flink => exact keeps_execFlink h
  | jsub => exact keeps_execJsub h
  | jwid => exact keeps_execJwid h
  | jarg => exact keeps_execJarg h
  | jend => exact keeps_execJend h
  | jqry => exact keeps_execJqry h
  | chsnd => exact keeps_execChsnd h
  | chrcv => exact keeps_execChrcv h
  | chsndv => exact keeps_execChsndv h
  | chrcvv => exact keeps_execChrcvv h
  | chpoll => exact keeps_execChpoll h
  | barp => exact keeps_execBarp h
  | xsel => exact keeps_execXsel h
  | xmit => exact keeps_execXmit h
  | xmitCh => exact keeps_execXmitCh h
  | xrecv => exact keeps_execXrecv h
  | xrecvCh => exact keeps_execXrecvCh h
  | xend => exact keeps_execXend h
  | bar => exact keeps_execBar h
  | barnw => exact keeps_execBarnw h
  | sleep => exact keeps_execSleep h
  | wake => exact keeps_execWake h
  | time => exact keeps_execTime h
  | kop => exact keeps_execKop h
  | kld => exact keeps_execKld h
  | krel => exact keeps_execKrel h
  | kqry => exact keeps_execKqry h
  | srd => exact keeps_execSrd h
  | swr => exact keeps_execSwr h
  | sset => exact keeps_execSset h
  | sclr => exact keeps_execSclr h
  | trap => exact keeps_execTrap h
  | eret => exact keeps_execEret h
  | halt => exact keeps_execHalt h
  | tlbinv => exact keeps_execTlbinv h
  | acct => exact keeps_execAcct h
  | brk => exact keeps_execBrk h
  | wpset => exact keeps_execWpset h
  | wpclr => exact keeps_execWpclr h
  | dstop => exact keeps_execDstop h
  | dstep => exact keeps_execDstep h
  | dres => exact keeps_execDres h
  | deferredInstruction => exact keeps_execDeferredInstruction h
  | iterationRetire => exact keeps_execIterationRetire h
  | asyncTrapDelivery => exact keeps_execAsyncTrapDelivery h
  | matrixCommandComplete => exact keeps_execMatrixCommandComplete h
  | carryRouterMerge => exact keeps_execCarryRouterMerge h
  | carryRowArrival => exact keeps_execCarryRowArrival h
  | qgoCopy => exact keeps_execQgoCopy h
  | qgoTensor => exact keeps_execQgoTensor h
  | qgoMcast => exact keeps_execQgoMcast h
  | qgoMcwrite => exact keeps_execQgoMcwrite h
  | qgoFill => exact keeps_execQgoFill h
  | qgoSubscribe => exact keeps_execQgoSubscribe h
  | qgoPull => exact keeps_execQgoPull h
  | registerWrite => exact keeps_execRegisterWrite h
  | copyJobComplete => exact keeps_execCopyJobComplete h
  | copyJobFail => exact keeps_execCopyJobFail h
  | ringStep => exact keeps_execRingStep h
  | sliceRequest => exact keeps_execSliceRequest h
  | remoteApertureRequest => exact keeps_execRemoteApertureRequest h
  | loadResponse => exact keeps_execLoadResponse h
  | postedStoreAck => exact keeps_execPostedStoreAck h
  | postedStoreRefusal => exact keeps_execPostedStoreRefusal h
  | journalTimeout => exact keeps_execJournalTimeout h
  | pageWalkComplete => exact keeps_execPageWalkComplete h
  | tlbInvalidationRequest => exact keeps_execTlbInvalidationRequest h
  | tlbInvalidationAck => exact keeps_execTlbInvalidationAck h
  | wbRetry => exact keeps_execWbRetry h
  | wbTimeout => exact keeps_execWbTimeout h
  | peerRequest => exact keeps_execPeerRequest h
  | hostPostedWrite => exact keeps_execHostPostedWrite h
  | hostRead => exact keeps_execHostRead h
  | hostAtomicop => exact keeps_execHostAtomicop h
  | queuePublish => exact keeps_execQueuePublish h
  | queuePoll => exact keeps_execQueuePoll h
  | reservationTimeout => exact keeps_execReservationTimeout h
  | dealChunk => exact keeps_execDealChunk h
  | cardComplete => exact keeps_execCardComplete h
  | waiterRecheck => exact keeps_execWaiterRecheck h
  | activityForecastUpdate => exact keeps_execActivityForecastUpdate h
  | reckoningFold => exact keeps_execReckoningFold h
  | clockStep => exact keeps_execClockStep h
  | phaseStart n =>
    rw [exec_phaseStart]
    exact keeps_execPhaseStart h
  | phaseEnd => exact keeps_execPhaseEnd h
  | sleepDeadline => exact keeps_execSleepDeadline h
  | clusterStopArrival => exact keeps_execClusterStopArrival h
  | stopTime => exact keeps_execStopTime h
  | contextSave => exact keeps_execContextSave h
  | watchdogExpiry => exact keeps_execWatchdogExpiry h
  | saveBoundExpiry => exact keeps_execSaveBoundExpiry h
  | uncorrectableError => exact keeps_execUncorrectableError h
  | linkRetryExhausted => exact keeps_execLinkRetryExhausted h
  | adxusLinkFailure => exact keeps_execAdxusLinkFailure h
  | hostLinkFailure => exact keeps_execHostLinkFailure h
  | powerOnReset => exact keeps_execPowerOnReset h
  | firmwareUpdate => exact keeps_execFirmwareUpdate h
  | updateTakesEffect => exact keeps_execUpdateTakesEffect h
  | accWrite => exact keeps_execAccWrite h
  | accept => exact keeps_execAccept h
  | ctxload => exact keeps_execCtxload h
  | ctxend => exact keeps_execCtxend h
  | ctxstop => exact keeps_execCtxstop h
  | ctxresume => exact keeps_execCtxresume h
  | ckpt => exact keeps_execCkpt h
  | rollback => exact keeps_execRollback h
  | devckpt => exact keeps_execDevckpt h
  | keyreg => exact keeps_execKeyreg h
  | keyrev => exact keeps_execKeyrev h
  | agassign => exact keeps_execAgassign h
  | agweight => exact keeps_execAgweight h
  | acctsnap => exact keeps_execAcctsnap h
  | objload => exact keeps_execObjload h
  | objunload => exact keeps_execObjunload h
  | qset => exact keeps_execQset h
  | bargrant => exact keeps_execBargrant h
  | futmake => exact keeps_execFutmake h
  | futput => exact keeps_execFutput h
  | futfree => exact keeps_execFutfree h
  | wdset => exact keeps_execWdset h
  | getVersion => exact keeps_execGetVersion h
  | getCapabilities => exact keeps_execGetCapabilities h
  | negotiateAlgorithms => exact keeps_execNegotiateAlgorithms h
  | getDigests => exact keeps_execGetDigests h
  | getCertificate => exact keeps_execGetCertificate h
  | challenge => exact keeps_execChallenge h
  | getMeasurements => exact keeps_execGetMeasurements h
  | spdmOtherRequest => exact keeps_execSpdmOtherRequest h
  | nonInstructionWord => exact keeps_execNonInstructionWord h
  | transferPhaseSlot => exact keeps_execTransferPhaseSlot h
  | hostCompletion => exact keeps_execHostCompletion h
  | peerResponse => exact keeps_execPeerResponse h
  | replicaEviction => exact keeps_execReplicaEviction h
  | watchdogRewrite => exact keeps_execWatchdogRewrite h
  | correctedError => exact keeps_execCorrectedError h
  | loaderBeadArrival => exact keeps_execLoaderBeadArrival h
  | mailboxUnknownCommand => exact keeps_execMailboxUnknownCommand h
  | capwWrite => exact keeps_execCapwWrite h
  | contextDescriptorChange => exact keeps_execContextDescriptorChange h

/-! ### Turns (`Sys2Proof/Machine/Turn.lean`) -/

theorem keeps_issueWord {s : State} {w : Word32} (h : s.MemWf) : Keeps (s.issueWord w) := by
  unfold State.issueWord
  split
  · exact keeps_exec h
  · exact keeps_execNonInstructionWord h

theorem keeps_fetchIssue {s : State} (h : s.MemWf) : Keeps (s.fetchIssue) := by
  unfold State.fetchIssue
  split
  next e =>
    refine keeps_issueWord ?_
    split
    · exact memWf_of_same (Fetched.keeps_of_eq e (fetchAt_keeps h)) rfl
    · exact Fetched.keeps_of_eq e (fetchAt_keeps h)
  next e => exact keeps_trap (Fetched.keeps_of_eq e (fetchAt_keeps h)) _ _
  · exact keeps_startWalk h
  next e => exact keeps_next (Fetched.keeps_of_eq e (fetchAt_keeps h))
  · exact keeps_stall h

theorem keeps_gangTurn {s : State} {g : Gang} (h : s.MemWf) : Keeps (s.gangTurn g) := by
  unfold State.gangTurn
  split
  · exact keeps_stall h
  · split
    · exact keeps_issueWord h
    · split
      · exact keeps_fetchIssue h
      · exact keeps_stall h

theorem keeps_leadTurn {s : State} (h : s.MemWf) : Keeps (s.leadTurn) := by
  unfold State.leadTurn
  split
  · split
    · exact keeps_fetchIssue (leave_memWf h)
    · exact keeps_refused _
  · exact keeps_refused _

theorem keeps_youngTurn {s : State} {j : Nat} (h : s.MemWf) : Keeps (s.youngTurn j) := by
  unfold State.youngTurn
  split
  · exact keeps_refused _
  · extract_lets v t
    have ht : t.MemWf := h
    generalize (State.mayOverlap s _ j && _) = may
    split
    · split
      next e =>
        split
        next e' => exact keeps_next (acceptYoung_yields (keeps_fetchIssue ht _ e) _ e')
        · exact keeps_refused _
      · exact keeps_refused _
    · exact keeps_refused _

theorem keeps_routineTurn {s : State} {r : Routine} (h : s.MemWf) : Keeps (s.routineTurn r) := by
  unfold State.routineTurn
  split
  · split
    · exact keeps_trap h _ _
    · exact keeps_issueWord h
  · exact keeps_endRoutine h

theorem keeps_issueNext {s : State} (h : s.MemWf) : Keeps (s.issueNext) := by
  unfold State.issueNext
  split
  · exact keeps_routineTurn h
  · split
    · exact keeps_gangTurn h
    · exact keeps_fetchIssue h

theorem keeps_drainMore {s : State} (h : s.MemWf) : Keeps (s.drainMore) := by
  unfold State.drainMore
  dsimp only
  split
  · exact keeps_stall h
  · refine keeps_next ?_
    refine drain_memWf ?_ _
    exact h

theorem keeps_dueTrap {s : State} (h : s.MemWf) : Keeps (s.dueTrap) := by
  unfold State.dueTrap
  split
  · split
    · exact keeps_next (memWf_of_eq (rotateIfStopped_mem _) (hitTrap_memWf h _))
    · exact keeps_stall h
  · exact keeps_next h

theorem keeps_coreTurn {s : State} (h : s.MemWf) : Keeps (s.coreTurn) := by
  unfold State.coreTurn
  split
  · exact keeps_next (memWf_of_eq (rotate_mem _) h)
  · split
    · exact keeps_next (memWf_of_eq (rotate_mem _) (tryRest_memWf h))
    · split
      · exact keeps_prepare h
      · split
        · exact keeps_stall h
        · split
          · exact keeps_drainMore h
          · split
            · split
              next e6 => exact keeps_next ((keeps_execIterationRetire h) _ e6)
              · exact keeps_stall h
            · split
              · exact keeps_dueTrap h
              · split
                · exact keeps_next (deliver_memWf h)
                · split
                  · exact keeps_stall h
                  · exact keeps_onNext (fun _ ht => keepYoung_memWf ht) (keeps_issueNext h)

theorem keeps_manageTurn {s : State} {c : CoreId} (h : s.MemWf) : Keeps (s.manageTurn c) := by
  unfold State.manageTurn
  split
  · extract_lets t
    have ht : t.MemWf := memWf_of_eq (focus_mem _ _) h
    refine keeps_onNext (fun _ hu => memWf_of_eq (focus_mem _ _) hu) ?_
    split
    · exact keeps_stall ht
    · split
      · exact keeps_drainMore ht
      · split
        · split
          next e => exact keeps_next (keeps_execIterationRetire ht _ e)
          · exact keeps_stall ht
        · split
          · exact keeps_dueTrap ht
          · exact keeps_issueNext ht
  · exact keeps_refused _

theorem firstNext_yields : ∀ {l : List (State → Out)} {s : State}, (∀ f ∈ l, Keeps (f s)) → Yields id (firstNext l s)
  | [], _, _ => yields_none
  | f :: l, s, h => by
    unfold firstNext
    split
    next t e => exact yields_some (h f List.mem_cons_self t e)
    · exact firstNext_yields fun g hg => h g (List.mem_cons_of_mem f hg)

theorem countBusy_memWf {s : State} {cycles : Nat} (h : s.MemWf) : (s.countBusy cycles).MemWf := by
  unfold State.countBusy
  refine foldl_memWf (fun t _ ht => ?_) h
  split
  · exact memWf_of_eq (countCtx_mem _ _ _ _) ht
  · exact ht

theorem passTime_memWf {s : State} {ns : Nat} (h : s.MemWf) : (s.passTime ns).MemWf := countBusy_memWf h

theorem keeps_takeTurn {s : State} {x : Turn} (h : s.MemWf) : Keeps (s.takeTurn x) := by
  unfold State.takeTurn
  split
  · exact keeps_coreTurn (memWf_of_eq (focus_mem _ _) h)
  · split
    · exact keeps_exec h
    · exact keeps_refused _
  · exact keeps_next (passTime_memWf h)
  · exact keeps_next (memWf_of_eq (mapCore_mem _ _ _) h)
  · exact keeps_next (memWf_of_eq (mapCore_mem _ _ _) h)
  · refine keeps_next ?_
    split
    next e =>
      refine memWf_of_eq (focus_mem _ _) ?_
      exact (prefetchWord_yields (memWf_of_eq (focus_mem _ _) h)) _ e
    · exact h
  · exact keeps_jobStep h
  · exact keeps_jobMerge h
  · split
    next e => exact keeps_next ((commandAccess_yields h) _ e)
    · exact keeps_refused _
  · exact keeps_next (memWf_of_eq (mapCore_mem _ _ _) h)
  · exact keeps_hostStore h
  · exact keeps_next (hostPost_memWf h)
  · exact keeps_hostGranule h
  · exact keeps_readBar0 h
  · exact keeps_joinDomain h
  · exact keeps_leadTurn (memWf_of_eq (focus_mem _ _) h)
  · exact keeps_youngTurn (memWf_of_eq (focus_mem _ _) h)
  · exact keeps_manageTurn h
  · exact keeps_next h
  · exact keeps_readBar2 h
  · split
    · exact keeps_next (wf_memSet _ _ _ h)
    · exact keeps_refused _

/-- Every step of a list keeps memory's form. -/
def StepsKeep (l : List (State → Out)) : Prop := ∀ f ∈ l, ∀ s : State, s.MemWf → Keeps (f s)

theorem stepsKeep_nil : StepsKeep [] := fun _ hf => absurd hf List.not_mem_nil

theorem stepsKeep_cons {f : State → Out} {l : List (State → Out)} (hf : ∀ s : State, s.MemWf → Keeps (f s))
    (hl : StepsKeep l) : StepsKeep (f :: l) :=
  List.forall_mem_cons.mpr ⟨hf, hl⟩

theorem stepsKeep_append {l m : List (State → Out)} (hl : StepsKeep l) (hm : StepsKeep m) : StepsKeep (l ++ m) :=
  fun f hf => (List.mem_append.mp hf).elim (hl f) (hm f)

theorem stepsKeep_flatMap {α : Type} {l : List α} {f : α → List (State → Out)} (hf : ∀ a, StepsKeep (f a)) :
    StepsKeep (l.flatMap f) := fun g hg => by
  obtain ⟨a, -, ha⟩ := List.mem_flatMap.mp hg
  exact hf a g ha

theorem stepsKeep_map {α : Type} {l : List α} {f : α → State → Out} (hf : ∀ a, ∀ s : State, s.MemWf → Keeps (f a s)) :
    StepsKeep (l.map f) := fun g hg => by
  obtain ⟨a, -, rfl⟩ := List.mem_map.mp hg
  exact hf a

theorem stepsKeep_unless {p : Prop} [Decidable p] {l : List (State → Out)} (hl : StepsKeep l) :
    StepsKeep (if p then [] else l) := by
  split
  · exact stepsKeep_nil
  · exact hl

theorem stepsKeep_when {p : Prop} [Decidable p] {l : List (State → Out)} (hl : StepsKeep l) :
    StepsKeep (if p then l else []) := by
  split
  · exact hl
  · exact stepsKeep_nil

theorem stepsKeep_single {f : State → Out} (hf : ∀ s : State, s.MemWf → Keeps (f s)) : StepsKeep [f] :=
  stepsKeep_cons hf stepsKeep_nil

theorem contextEvents_keep (x : Context) (n time : Nat) : StepsKeep (x.events n time) := by
  unfold Context.events
  split
  · exact stepsKeep_when (stepsKeep_single fun _ h => keeps_execStopTime h)
  · exact stepsKeep_single fun _ h => keeps_execContextSave h
  · exact stepsKeep_nil

theorem reqEvents_keep (i : Nat) (r : Req) : StepsKeep (r.events i) := by
  unfold Req.events
  split
  · exact stepsKeep_single fun _ h => keeps_execSliceRequest h
  · exact stepsKeep_cons (fun _ h => keeps_execSliceRequest h) (stepsKeep_single fun _ h => keeps_execHostCompletion h)
  · exact stepsKeep_single fun _ h => keeps_execPeerResponse h
  · split
    · exact stepsKeep_cons (fun _ h => keeps_execPostedStoreAck h)
        (stepsKeep_cons (fun _ h => keeps_execRemoteApertureRequest h)
          (stepsKeep_cons (fun _ h => keeps_execPostedStoreRefusal h) (stepsKeep_single fun _ h => keeps_execJournalTimeout h)))
    · exact stepsKeep_single fun _ h => keeps_execRemoteApertureRequest h

theorem coreEvents_keep (k : Core) (c : CoreId) : StepsKeep (k.events c) := by
  unfold Core.events
  refine stepsKeep_append (stepsKeep_append (stepsKeep_append (stepsKeep_append (stepsKeep_append ?_ ?_) ?_) ?_) ?_) ?_
  · exact stepsKeep_when (stepsKeep_single fun _ h => keeps_execPageWalkComplete h)
  · exact stepsKeep_when (stepsKeep_single fun _ h => keeps_execIterationRetire h)
  · exact stepsKeep_unless (stepsKeep_single fun _ h => keeps_execMatrixCommandComplete h)
  · exact stepsKeep_flatMap fun _ => stepsKeep_cons (fun _ h => keeps_execCopyJobComplete h)
      (stepsKeep_cons (fun _ h => keeps_execCopyJobFail h) (stepsKeep_single fun _ h => keeps_execLoaderBeadArrival h))
  · exact stepsKeep_when (stepsKeep_single fun _ h => keeps_execSleepDeadline h)
  · split
    · exact stepsKeep_single fun _ h => keeps_execPhaseStart h
    · exact stepsKeep_nil

theorem cardEvents_keep (s : State) : StepsKeep s.cardEvents :=
  stepsKeep_unless (stepsKeep_append (stepsKeep_map fun _ _ h => keeps_execCardComplete h)
    (stepsKeep_map fun _ _ h => keeps_execDealChunk h))

/-- What the machine does by itself keeps memory's form (log 3). -/
theorem housekeeping_keep (s : State) : StepsKeep s.housekeeping := by
  unfold State.housekeeping
  refine stepsKeep_append (stepsKeep_append (stepsKeep_append (stepsKeep_append (stepsKeep_append (stepsKeep_append
    (stepsKeep_append (stepsKeep_append (stepsKeep_append (stepsKeep_append (stepsKeep_append (stepsKeep_append
      ?charges ?contexts) ?answers) ?flight) ?shootdowns) ?rows) ?cores) ?clusters) ?cards) ?update) ?hostq) ?posted) ?fold
  case charges => exact stepsKeep_unless (stepsKeep_single fun _ h => keeps_execUncorrectableError h)
  case contexts => exact stepsKeep_flatMap fun p => contextEvents_keep p.2 p.1 s.time
  case answers => exact stepsKeep_unless (stepsKeep_single fun _ h => keeps_execLoadResponse h)
  case flight => exact stepsKeep_flatMap fun p => reqEvents_keep p.1 p.2
  case shootdowns =>
    exact stepsKeep_flatMap fun _ => stepsKeep_cons (fun _ h => keeps_execTlbInvalidationAck h)
      (stepsKeep_single fun _ h => keeps_execTlbInvalidationRequest h)
  case rows => exact stepsKeep_unless (stepsKeep_single fun _ h => keeps_execCarryRowArrival h)
  case cores => exact stepsKeep_flatMap fun r => coreEvents_keep r.2 r.1
  case clusters => exact stepsKeep_flatMap fun _ => stepsKeep_map fun _ _ h => keeps_execClusterStopArrival h
  case cards => exact cardEvents_keep s
  case update => exact stepsKeep_when (stepsKeep_single fun _ h => keeps_execUpdateTakesEffect h)
  case hostq => exact stepsKeep_unless (stepsKeep_single fun _ h => keeps_hostStore h)
  case posted => exact stepsKeep_unless (stepsKeep_single fun _ h => keeps_hostGranule h)
  case fold => exact stepsKeep_unless (stepsKeep_single fun _ h => keeps_execReckoningFold h)

theorem keeps_defaultTurn {s : State} (h : s.MemWf) : Keeps s.defaultTurn := by
  unfold State.defaultTurn
  split
  next e => exact keeps_next (firstNext_yields (fun f hf => housekeeping_keep s f hf s h) _ e)
  · exact keeps_coreTurn h

/-! ### A step (`Sys2Proof/Machine/Step.lean`) -/

theorem keeps_step {s : State} (h : s.MemWf) : Keeps (step s) := by
  unfold step
  split
  · exact keeps_takeTurn h
  · exact keeps_defaultTurn h

end Sys2Proof.Machine

namespace Sys2Proof.Proofs

open Sys2Proof Sys2Proof.Machine

/-- Settles O52: the form is kept by every turn of the agenda and by the default turn, so by a step; the one place where cells
are moved as a block, the stream of a device checkpoint, keeps them in order because what it moves lands between its bounds
(`streamHbm_memWf`). -/
theorem stepKeepsMemory : Obligations.StepKeepsMemory := by
  unfold Obligations.StepKeepsMemory
  intro s t h hstep
  exact keeps_step h t hstep

end Sys2Proof.Proofs
end

section
/-! SUPPORT. CPSTAT, CPWAIT and CPCAN (R287, R290, R291). -/

namespace Sys2Proof.Machine

open Sys2Proof

theorem jobReport_eq (cause st n : Nat) : Claims.jobReport cause st n = jobWord cause st n := rfl

/-! ### The status word of job n -/

section Status
variable {k : Core} {n : Nat}

theorem jobStatus_zero : k.jobStatus 0 = jobWord 0 7 0 := if_pos rfl

theorem jobStatus_outstanding (hn : n ≠ 0) (hj : ∃ j ∈ k.jobs, j.num = n) :
    k.jobStatus n = jobWord 0 (if (k.jobs.find? fun j => decide (j.num = n)).any fun j => j.running then 2 else 1) n := by
  obtain ⟨j, hj, hjn⟩ := hj
  obtain ⟨i, hi⟩ := Option.isSome_iff_exists.mp
    (List.find?_isSome.mpr ⟨j, hj, decide_eq_true hjn⟩ : (k.jobs.find? fun j => decide (j.num = n)).isSome = true)
  simp [Core.jobStatus, hn, hi]

theorem jobs_find?_none (hj : ∀ j ∈ k.jobs, j.num ≠ n) : (k.jobs.find? fun j => decide (j.num = n)) = none :=
  List.find?_eq_none.mpr fun j hm => by simpa using hj j hm

theorem jobStatus_kept {w : Word} (hn : n ≠ 0) (hj : ∀ j ∈ k.jobs, j.num ≠ n) (hh : k.history = [w])
    (hw : w.toNat % 2 ^ 32 = n) : k.jobStatus n = w := by
  have hfind : k.history.find? (fun w => decide (w.toNat % 2 ^ 32 = n)) = some w := by
    rw [hh]
    exact List.find?_cons_of_pos (decide_eq_true hw)
  unfold Core.jobStatus
  rw [if_neg hn, jobs_find?_none hj, hfind]

theorem jobStatus_unsubmitted (hn : n ≠ 0) (hj : ∀ j ∈ k.jobs, j.num ≠ n) (hh : k.history = []) (hw : k.wrapped = false)
    (hl : k.lastJob < n) : k.jobStatus n = jobWord 0 0 n := by
  simp [Core.jobStatus, hn, jobs_find?_none hj, hh, hw, hl]

end Status

/-! ### The instructions in a core with nothing under way -/

section Calm
variable {s : State} {d a : Reg} {n : Nat}

theorem cpstat_calm (ha : Claims.Alone s) (hc : Claims.Calm s) (hr : s.core.ready { ss := [(a, 0)], ds := [d] } = true)
    (hn : (s.src a 0).toNat % 2 ^ 32 = n) :
    exec (.cpstat d a) s = .next (Claims.ends s (s.core.writeS d (s.core.jobStatus n))) := by
  subst hn
  refine (issue_ordered_calm ha hc hr _).trans ?_
  rw [setS_advance_alone ha]

theorem cpwait_over (ha : Claims.Alone s) (hc : Claims.Calm s) (hr : s.core.ready { ss := [(a, 0)], ds := [d] } = true)
    (hn : (s.src a 0).toNat % 2 ^ 32 = n) (hz : n ≠ 0) (hj : ∀ j ∈ s.core.jobs, j.num ≠ n) :
    exec (.cpwait d a) s = .next (Claims.ends s (s.core.writeS d (s.core.jobStatus n))) := by
  subst hn
  have hnone : ¬(s.core.jobs.any fun j => decide (j.num = (s.src a 0).toNat % 2 ^ 32)) = true := by
    simpa using hj
  refine (issue_ordered_calm ha hc hr _).trans ?_
  rw [if_neg hz, if_neg hnone, setS_advance_alone ha]

theorem cpcan_none (ha : Claims.Alone s) (hc : Claims.Calm s) (hr : s.core.ready { ss := [(a, 0)] } = true)
    (hn : (s.src a 0).toNat % 2 ^ 32 = n) (hj : ∀ j ∈ s.core.jobs, j.num ≠ n) :
    exec (.cpcan a) s = .next (Claims.ends s s.core) := by
  subst hn
  refine (issue_ordered_calm ha hc hr _).trans ?_
  rw [jobs_find?_none hj, advance_alone ha.quiet]

theorem tget_map_proj {α : Type} (p : Core → α) {f : Core → Core} (hf : ∀ k, p (f k) = p k) (d : CoreId) (l : Tab Core) :
    p (tget d (l.map fun r => (r.1, f r.2)) {}) = p (tget d l {}) := by
  induction l with
  | nil => rfl
  | cons r l ih =>
    by_cases hr : r.1 = d
    · simp [tget, tfind, hr, hf]
    · simpa [tget, tfind, hr] using ih

theorem getCore_dropPull_mentries (s : State) (c : CoreId) (n : Nat) (d : CoreId) :
    ((s.dropPull c n).getCore d).mentries = (s.getCore d).mentries := by
  by_cases hd : d = s.cur
  · rw [hd]
    exact (congrArg Core.mentries (getCore_cur (s.dropPull c n))).trans (congrArg Core.mentries (getCore_cur s)).symm
  · refine (congrArg Core.mentries (if_neg hd : (s.dropPull c n).getCore d = _)).trans ?_
    exact (tget_map_proj Core.mentries (f := fun k => { k with mqueue := k.mqueue.filter _ }) (fun _ => rfl) d s.others).trans
      (congrArg Core.mentries (if_neg hd : s.getCore d = _)).symm

/-- The state in which the cancelled job is gone, and its outcome is kept. -/
def State.cancelled (s : State) (n : Nat) : State :=
  (s.dropPull s.cur n).upd fun k => k.retireJob n (jobWord 0x31F 5 n)

theorem getCore_cancelled_mentries (s : State) (n : Nat) (d : CoreId) :
    ((s.cancelled n).getCore d).mentries = (s.getCore d).mentries := by
  rw [← getCore_dropPull_mentries s s.cur n d]
  by_cases hd : d = s.cur
  · rw [hd]
    exact (congrArg Core.mentries (getCore_cur (s.cancelled n))).trans
      (congrArg Core.mentries (getCore_cur (s.dropPull s.cur n))).symm
  · exact congrArg Core.mentries
      ((if_neg hd : (s.cancelled n).getCore d = _).trans (if_neg hd : (s.dropPull s.cur n).getCore d = _).symm)

/-- CPCAN of an outstanding job that names no future, and whose place takes no entry's action, ends it as cancelled. -/
theorem cpcan_outstanding {j : Job} (ha : Claims.Alone s) (hc : Claims.Calm s) (hr : s.core.ready { ss := [(a, 0)] } = true)
    (hn : (s.src a 0).toNat % 2 ^ 32 = n) (hj : s.core.jobs = [j]) (hjn : j.num = n) (hd : j.done = 0)
    (he : (s.getCore (pullCore j.record)).mentries = []) :
    exec (.cpcan a) s = .next (Claims.ends (s.cancelled n) (s.cancelled n).core) := by
  subst hn
  have hfind : (s.core.jobs.find? fun j => decide (j.num = (s.src a 0).toNat % 2 ^ 32)) = some j := by
    simp [hj, hjn]
  refine (issue_ordered_calm ha hc hr _).trans ?_
  rw [hfind]
  dsimp only
  rw [if_neg (fun h => h.1 hd), hd, engineFulfil_zero]
  have hkeep : (s.cancelled _).entryActions (pullCore j.record) = s.cancelled _ :=
    entryActions_none ((getCore_cancelled_mentries s ((s.src a 0).toNat % 2 ^ 32) _).trans he)
  refine congrArg Host.Outcome.next ((congrArg State.advance hkeep).trans ?_)
  exact advance_alone ha.quiet

end Calm

end Sys2Proof.Machine

namespace Sys2Proof.Proofs

open Sys2Proof Sys2Proof.Machine

/-- Settles O31: the four cases of the statement are the four branches of the job status word. -/
theorem copyStatus : Obligations.CopyStatus := by
  unfold Obligations.CopyStatus
  intro s a ha hc hr n
  refine ⟨fun d hr' v hv => ?_, fun hj => cpcan_none ha hc hr rfl hj, fun j hj hjn hd he => ?_⟩
  · have hstatus : s.core.jobStatus n = v := by
      rcases hv with ⟨hn, rfl⟩ | ⟨hn, hj, rfl⟩ | ⟨hn, hj, w, hh, hw, rfl⟩ | ⟨hn, hj, hh, hw, hl, rfl⟩
      · rw [hn]
        exact jobStatus_zero
      · exact jobStatus_outstanding hn hj
      · exact jobStatus_kept hn hj hh hw
      · exact jobStatus_unsubmitted hn hj hh hw hl
    subst hstatus
    exact ⟨cpstat_calm ha hc hr' rfl, fun hn hj => cpwait_over ha hc hr' rfl hn hj⟩
  · refine ⟨_, cpcan_outstanding ha hc hr rfl hj hjn hd he, rfl, ?_, rfl, rfl⟩
    show s.core.jobs.filter _ = []
    rw [hj]
    simp [hjn, n]

end Sys2Proof.Proofs
end

section
/-! SUPPORT. The JOB instructions (R355 to R357, R48). -/

namespace Sys2Proof.Machine

open Sys2Proof

/-! ### JSUB -/

section Jsub
variable {s : State} {a : Reg} {q n : Nat} {k : Queue}

theorem queue_ctx_eq (k : Queue) : k.ctx = k.desc.toNat / 2 ^ 26 % 64 := rfl

theorem jsub_refused (ha : Claims.Alone s) (hc : Claims.Calm s) (hr : s.core.ready { ss := [(a, 0)] } = true)
    (hq : wfield (s.src a 0) 0 15 = q) (hk : s.queue q = k) (h : k.enabled = false ∨ s.core.context ≠ some k.ctx) :
    exec (.jsub a) s = s.trap 0x316#10 0#64 := by
  subst hq hk
  refine (issue_ordered_calm ha hc hr _).trans (if_pos ?_)
  exact h.imp (fun he => by simp [he]) id

theorem jsub_rings (ha : Claims.Alone s) (hc : Claims.Calm s) (hr : s.core.ready { ss := [(a, 0)] } = true)
    (hq : wfield (s.src a 0) 0 15 = q) (hk : s.queue q = k) (he : k.enabled = true) (hx : s.core.context = some k.ctx) :
    exec (.jsub a) s = .next (s.ringQueue q).advance := by
  subst hq hk
  refine (issue_ordered_calm ha hc hr _).trans ?_
  exact if_neg (by simp [he, hx])

theorem ringQueue_dead (hk : s.queue q = k) (hl : s.live k.ctx = false) : s.ringQueue q = s := by
  subst hk
  exact if_neg (by simp [State.queueLive, hl])

theorem ringQueue_unpublished (hk : s.queue q = k) (he : k.enabled = true) (hl : s.live k.ctx = true)
    (hp : ¬Claims.published s k k.h) :
    s.ringQueue q = (s.setQueue q (k.await s.mem s.time)).countAt k.ctx k.slotAt := by
  obtain ⟨m, hm⟩ := Proofs.queue_size_pos k
  have hrun : s.ringQueue q = State.consume q (s.queue q).size s := if_pos (by simp [State.queueLive, hk, he, hl])
  rw [hrun, hk, hm, consume_unpublished hk hp]

theorem await_desc (k : Queue) (m : List Host.Cell) (time : Nat) : (k.await m time).desc = k.desc := by
  unfold Queue.await
  split
  · rfl
  · rfl

theorem await_base (k : Queue) (m : List Host.Cell) (time : Nat) : (k.await m time).base = k.base := by
  unfold Queue.await
  split
  · rfl
  · rfl

end Jsub

/-! ### JEND -/

section Jend
variable {s : State} {u : WorkUnit} {c : Card}

theorem jend_inLoop (ha : Claims.Alone s) (hl : s.core.loops ≠ []) : exec .jend s = s.trapWord 0x0C3#10 := by
  have hr : s.core.ready {} = true := rfl
  refine (issue_ready hr ha.mesh _).trans (if_pos ?_)
  simpa using hl

theorem jend_single (ha : Claims.Alone s) (hld : s.core.loading = false) (hl : s.core.loops = [])
    (hw : s.core.wasGang = none) : exec .jend s = .next (s.endUnit [s.cur] none).afterInstr := by
  have hr : s.core.ready {} = true := rfl
  refine (issue_ready hr ha.mesh _).trans ((if_neg (by simp [hl])).trans ?_)
  unfold State.noLoader
  rw [hld, if_neg Bool.false_ne_true, ha.quiet.1, hw]
  rfl

/-- One more unit of the card has ended. -/
def Card.endOne (k : Card) : Card := { k with ended := k.ended + 1 }

/-- One more unit of card n has ended. -/
def State.endOne (s : State) (n : Nat) : State :=
  { s with cards := s.cards.map fun p => if p.1 = n then (p.1, p.2.endOne) else p }

theorem tfind_endOne {n : Nat} (h : tfind n s.cards = some c) : tfind n (s.endOne n).cards = some c.endOne := by
  show tfind n (s.cards.map _) = _
  revert h
  generalize s.cards = l
  induction l with
  | nil => exact fun h => by cases h
  | cons p l ih =>
    by_cases hp : p.1 = n
    · simpa [tfind, hp] using fun h : p.2 = c => congrArg Card.endOne h
    · simpa [tfind, hp] using ih

theorem endUnit_last (hu : s.core.unit = some u) (hlast : u.stop ≤ u.ident + 1) :
    s.endUnit [s.cur] none = (s.endOne u.card).mapCore s.cur Core.leaveUnit := by
  have hunit : (s.getCore ([s.cur].headD 0)).unit = some u := (congrArg Core.unit (getCore_cur s)).trans hu
  unfold State.endUnit
  rw [hunit]
  dsimp only
  rw [if_neg (Nat.not_lt.mpr hlast)]
  rfl

theorem endUnit_next (hu : s.core.unit = some u) (hc : tfind u.card s.cards = some c) (hnext : u.ident + 1 < u.stop) :
    s.endUnit [s.cur] none =
      (s.endOne u.card).enterUnit s.cur { u with ident := u.ident + 1 } c.endOne none := by
  have hunit : (s.getCore ([s.cur].headD 0)).unit = some u := (congrArg Core.unit (getCore_cur s)).trans hu
  have hcard : tfind u.card (s.cards.map fun p => if p.1 = u.card then (p.1, p.2.endOne) else p) = some c.endOne :=
    tfind_endOne hc
  unfold State.endUnit
  rw [hunit]
  dsimp only
  rw [if_pos hnext]
  unfold Card.endOne at hcard
  rw [hcard]
  rfl

theorem mapCore_focus (s : State) (f : Core → Core) : s.mapCore s.cur f = s.upd f := by
  unfold State.mapCore State.setCore
  rw [if_pos rfl, getCore_cur]
  rfl

theorem leaveUnit_quiet {k : Core} (h : k.quiet) :
    k.leaveUnit.wpHit = none ∧ k.leaveUnit.stepping = none ∧ k.leaveUnit.unit = none := by
  obtain ⟨-, hhit, hstep, -⟩ := h
  have hleave : k.leaveUnit = _ := deferHit_none hhit
  rw [hleave]
  exact ⟨hhit, hstep, rfl⟩

/-- A unit of the card that the core is at begins in its core alone. -/
theorem enterUnit_sameCard (hlc : s.core.lastCard = some u.card) (k : Card) :
    s.enterUnit s.cur u k none = s.upd fun x => x.enterUnit u k.entry none := by
  unfold State.enterUnit
  rw [if_pos ((congrArg Core.lastCard (getCore_cur s)).trans hlc)]
  exact mapCore_focus s _

end Jend

/-! ### The names of a unit at its entry -/

section Entry
variable (k : Core) (u : WorkUnit) (e : Word)

theorem enterUnit_sval28 : (k.enterUnit u e none).sval 28#5 = BitVec.ofNat 64 u.ident := rfl

theorem enterUnit_sval29 :
    (k.enterUnit u e none).sval 29#5 = u.argBase + BitVec.ofNat 64 (u.ident * u.argSize) := rfl

theorem enterUnit_sval30 : (k.enterUnit u e none).sval 30#5 = k.stackTop := rfl

theorem enterUnit_sval_other {r : Reg} (hr : r.toNat < 28 ∨ r = 31#5) : (k.enterUnit u e none).sval r = 0#64 := by
  by_cases hz : r = 0#5
  · exact congrArg Slot.val (if_pos hz)
  · have hfree : tfind r.toNat (k.enterUnit u e none).sregs = none := by
      have hne : r.toNat ≠ 28 ∧ r.toNat ≠ 29 ∧ r.toNat ≠ 30 := by
        rcases hr with h | rfl
        · omega
        · decide
      simp [Core.enterUnit, tfind, hne.1.symm, hne.2.1.symm, hne.2.2.symm]
    have hver : (k.enterUnit u e none).sver r = Ver.one 0#64 := congrArg (fun o => Option.getD o (Ver.one 0#64)) hfree
    rw [Core.sval, Core.srcS, if_neg hz, hver]
    rfl

end Entry

end Sys2Proof.Machine

namespace Sys2Proof.Proofs

open Sys2Proof Sys2Proof.Machine

section Units
variable {s : State} {n : Nat}

theorem jsub_cases (ha : Claims.Alone s) (hc : Claims.Calm s) (hx : s.core.context = some n) {a : Reg}
    (hr : s.core.ready { ss := [(a, 0)] } = true) {k : Queue} {q : Nat} (hq : (s.src a 0).toNat % 2 ^ 15 = q)
    (hk : tget q s.queues {} = k) :
    (k.desc.getLsbD 63 = false ∨ k.desc.toNat / 2 ^ 26 % 64 ≠ n → exec (.jsub a) s = s.trap 0x316#10 0#64) ∧
      (k.desc.getLsbD 63 = true → k.desc.toNat / 2 ^ 26 % 64 = n → s.live n = false →
        exec (.jsub a) s = .next (Claims.ends s s.core)) ∧
      (k.desc.getLsbD 63 = true → k.desc.toNat / 2 ^ 26 % 64 = n → s.live n = true → ¬Claims.published s k k.h →
        ∃ t, exec (.jsub a) s = .next t ∧ t.core = (Claims.ends s s.core).core ∧ t.mem = s.mem ∧ t.cards = s.cards ∧
          (t.queue q).h = k.h ∧ (t.queue q).desc = k.desc ∧ (t.queue q).base = k.base) := by
  have hq' : wfield (s.src a 0) 0 15 = q := (wfield_zero _ _).trans hq
  refine ⟨fun h => ?_, fun he hn hl => ?_, fun he hn hl hp => ?_⟩
  · refine jsub_refused ha hc hr hq' hk (h.imp id fun hn he => hn ?_)
    exact (Option.some.inj (hx.symm.trans he)).symm
  · subst hn
    rw [jsub_rings ha hc hr hq' hk he hx, ringQueue_dead hk hl, advance_alone ha.quiet]
  · subst hn
    have hring := ringQueue_unpublished hk he hl hp
    have hoff := countAt_offMemory (s.setQueue q (k.await s.mem s.time)) k.ctx k.slotAt
    have hcore : (s.ringQueue q).core = s.core := hring ▸ (congrArg State.core hoff :)
    have hqueue : (s.ringQueue q).queue q = k.await s.mem s.time := by
      rw [hring, countAt_queue, queue_setQueue]
    refine ⟨_, jsub_rings ha hc hr hq' hk he hx, ?_, ?_, ?_, ?_, ?_, ?_⟩
    all_goals rw [advance_alone (hcore ▸ ha.quiet)]
    · exact congrArg (fun x : Core => Claims.closed x (x.pc + 4#64)) hcore
    · exact (congrArg State.mem hring).trans (countAt_mem _ _ _)
    · exact (congrArg State.cards hring).trans (congrArg State.cards hoff :)
    · exact (congrArg Queue.h hqueue).trans (await_h k _ _)
    · exact (congrArg Queue.desc hqueue).trans (await_desc k _ _)
    · exact (congrArg Queue.base hqueue).trans (await_base k _ _)

theorem unitRead_ends (ha : Claims.Alone s) (hc : Claims.Calm s) {u : WorkUnit} {c : Card} (hu : s.core.unit = some u)
    (hcard : tfind u.card s.cards = some c) {i : Instr} {m : Names} {d : Reg} {v : Word}
    (hi : Claims.unitRead s u c i = some (m, d, v)) (hr : s.core.ready m = true) :
    exec i s = .next (Claims.ends s (s.core.writeS d v)) := by
  unfold Claims.unitRead at hi
  split at hi
  · cases hi
    refine (issue_ordered_calm ha hc hr _).trans ?_
    rw [hu, setS_advance_alone ha]
  · cases hi
    refine (issue_ordered_calm ha hc hr _).trans ?_
    rw [hu, setS_advance_alone ha]
    simp [BitVec.ofNat_add]
  next d a =>
    cases hi
    refine (issue_ordered_calm ha hc hr _).trans ?_
    have hsel : wfield (s.src a 0) 0 2 = (s.src a 0).toNat % 4 := wfield_zero _ _
    have hbind : (s.core.unit.bind fun u => tfind u.card s.cards) = some c := (congrArg (Option.bind · _) hu).trans hcard
    dsimp only
    rw [hbind, hsel, setS_advance_alone ha]
    dsimp only
    generalize (s.src a 0).toNat % 4 = m
    match m with
    | 0 => rfl
    | 1 => rfl
    | 2 => rfl
    | _ + 3 => rfl
  · cases hi

theorem jend_ends (ha : Claims.Alone s) {u : WorkUnit} {c : Card} (hu : s.core.unit = some u)
    (hcard : tfind u.card s.cards = some c) (hld : s.core.loading = false) (hl : s.core.loops = [])
    (hw : s.core.wasGang = none) (hlast : u.stop ≤ u.ident + 1) :
    ∃ t, exec .jend s = .next t ∧ t.core.unit = none ∧ t.mem = s.mem ∧
      tfind u.card t.cards = some { c with ended := c.ended + 1 } := by
  obtain ⟨hhit, hstep, hunit⟩ := leaveUnit_quiet ha.quiet
  have hend : s.endUnit [s.cur] none = (s.endOne u.card).upd Core.leaveUnit :=
    (endUnit_last hu hlast).trans (mapCore_focus (s.endOne u.card) _)
  have hover : (s.endUnit [s.cur] none).afterInstr = s.endUnit [s.cur] none := by
    rw [hend]
    exact afterInstr_ends hhit hstep
  exact ⟨_, (jend_single ha hld hl hw).trans (congrArg Host.Outcome.next (hover.trans hend)), hunit, rfl, tfind_endOne hcard⟩

theorem jend_goesOn (ha : Claims.Alone s) {u : WorkUnit} {c : Card} (hu : s.core.unit = some u)
    (hcard : tfind u.card s.cards = some c) (hld : s.core.loading = false) (hl : s.core.loops = [])
    (hw : s.core.wasGang = none) (hnext : u.ident + 1 < u.stop) (hlc : s.core.lastCard = some u.card) :
    exec .jend s =
      .next ((s.endOne u.card).upd fun x => x.enterUnit { u with ident := u.ident + 1 } c.entry none) := by
  have hend : s.endUnit [s.cur] none = _ :=
    (endUnit_next hu hcard hnext).trans (enterUnit_sameCard (s := s.endOne u.card) (u := { u with ident := u.ident + 1 }) hlc c.endOne)
  rw [jend_single ha hld hl hw, hend]
  exact congrArg Host.Outcome.next (afterInstr_ends ha.quiet.2.1 ha.quiet.2.2.1)

end Units

/-- Settles O34: JSUB by the state of its queue, the reads by the unit and its card, JEND by what is left of the chunk. -/
theorem jobInstructions : Obligations.JobInstructions := by
  unfold Obligations.JobInstructions
  intro s n ha hc hx
  refine ⟨fun a hr => jsub_cases ha hc hx hr rfl rfl, fun u c hu hcard => ⟨?reads, ?loop, ?ends⟩⟩
  case reads => exact fun i m d v hi hr => unitRead_ends ha hc hu hcard hi hr
  case loop => exact fun _ hl => jend_inLoop ha hl
  case ends =>
    intro hld hl hw
    refine ⟨fun hlast => jend_ends ha hu hcard hld hl hw hlast, fun hnext hlc => ?_⟩
    refine ⟨_, jend_goesOn ha hu hcard hld hl hw hnext hlc, rfl, tfind_endOne hcard, rfl, rfl, rfl, ?_, rfl, ?_, ?_⟩
    · simp [enterUnit_sval29, BitVec.ofNat_add]
    · exact fun r hr => enterUnit_sval_other _ _ _ hr
    · simp [State.upd, Core.enterUnit]

end Sys2Proof.Proofs
end

section
/-! SUPPORT. What the mailbox does before a command's own body (R446 to R448, R450). -/

namespace Sys2Proof.Machine

open Sys2Proof

/-! ### The common part of the commands -/

/-- The state in which the mailbox has taken a command's words. -/
def State.receiving (s : State) (code : Nat) (ops : List Word) : State :=
  { s with cmd := BitVec.ofNat 64 code :: (List.range 7).map fun i => ops.getD i 0#64 }

section Mailbox
variable {s : State} {fn code n : Nat} {ops : List Word} {body : State → Out}

theorem takesCommand_iff :
    s.takesCommand fn = true ↔ fn = 0 ∧ s.bootst.getLsbD 63 = true ∧ s.command = none := by
  simp [State.takesCommand, wbit, and_assoc]

theorem mailbox_discarded (h : fn ≠ 0 ∨ s.bootst.getLsbD 63 = false ∨ s.command ≠ none) :
    s.mailbox fn code ops n body = .next s := by
  refine if_pos ?_
  rw [Bool.not_eq_true', ← Bool.not_eq_true, takesCommand_iff]
  rintro ⟨hfn, hb, hc⟩
  rcases h with h | h | h
  · exact h hfn
  · rw [hb] at h
    cases h
  · exact h hc

theorem mailbox_taken (ht : s.takesCommand fn = true) :
    s.mailbox fn code ops n body =
      if !s.accepted ∧ code ≠ 1 then .next ((s.receiving code ops).respond 0x04030003 [])
      else
        match strayOperand ops n with
        | some m => .next ((s.receiving code ops).respond (0x04020000 + m) [])
        | none => body (s.receiving code ops) :=
  if_neg (by simp [ht])

theorem mailbox_unaccepted (ht : s.takesCommand fn = true) (ha : s.accepted = false) (hc : code ≠ 1) :
    s.mailbox fn code ops n body = .next ((s.receiving code ops).respond 0x04030003 []) :=
  (mailbox_taken ht).trans (if_pos ⟨by simp [ha], hc⟩)

theorem mailbox_stray (ht : s.takesCommand fn = true) (ha : s.accepted = true ∨ code = 1) {m : Nat}
    (hm : strayOperand ops n = some m) :
    s.mailbox fn code ops n body = .next ((s.receiving code ops).respond (0x04020000 + m) []) := by
  rw [mailbox_taken ht, if_neg, hm]
  rintro ⟨hna, hc⟩
  rcases ha with h | h
  · rw [h] at hna
    cases hna
  · exact hc h

theorem mailbox_performed (ht : s.takesCommand fn = true) (ha : s.accepted = true ∨ code = 1)
    (hm : strayOperand ops n = none) : s.mailbox fn code ops n body = body (s.receiving code ops) := by
  rw [mailbox_taken ht, if_neg, hm]
  rintro ⟨hna, hc⟩
  rcases ha with h | h
  · rw [h] at hna
    cases hna
  · exact hc h

end Mailbox

/-! ### The operands that a command does not list -/

section Operands
variable {ops : List Word} {n j : Nat}

theorem strayOperand_lowest (hn : n ≤ j) (hj : j < 7) (hx : ops.getD j 0#64 ≠ 0#64)
    (hl : ∀ l, n ≤ l → l < j → ops.getD l 0#64 = 0#64) : strayOperand ops n = some (j + 1) := by
  unfold strayOperand
  rw [List.find?_eq_some_iff_getElem]
  refine ⟨by simpa [opWord, Nat.lt_succ_of_le hn] using hx, j, by simpa using hj, by simp, fun l hlj => ?_⟩
  simp only [List.getElem_map, List.getElem_range]
  by_cases hnl : n ≤ l
  · simpa [opWord] using Or.inr (hl l hnl hlj)
  · have : ¬n < l + 1 := by omega
    simp [this]

theorem strayOperand_none (h : Claims.only ops n) : strayOperand ops n = none := by
  unfold strayOperand
  rw [List.find?_eq_none]
  intro m hm
  obtain ⟨i, hi, rfl⟩ := List.mem_map.mp hm
  by_cases hni : n ≤ i
  · simpa [opWord] using fun _ => h i hni (List.mem_range.mp hi)
  · have : ¬n < i + 1 := by omega
    simp [this]

end Operands

/-! ### The commands -/

/-- Every command is the common part with a body of its own. -/
theorem exec_command {i : Instr} {fn code n : Nat} {ops : List Word} (h : Claims.command i = some (fn, code, ops, n)) :
    ∃ body : State → Out, ∀ s, exec i s = s.mailbox fn code ops n body := by
  unfold Claims.command at h
  split at h
  case _ fn ops =>
    cases h
    exact ⟨_, fun s => (rfl : execAccept fn ops s = s.mailbox fn _ ops _ _)⟩
  case _ fn ops =>
    cases h
    exact ⟨_, fun s => (rfl : execCtxload fn ops s = s.mailbox fn _ ops _ _)⟩
  case _ fn ops =>
    cases h
    exact ⟨_, fun s => (rfl : execCtxend fn ops s = s.mailbox fn _ ops _ _)⟩
  case _ fn ops =>
    cases h
    exact ⟨_, fun s => (rfl : execCtxstop fn ops s = s.mailbox fn _ ops _ _)⟩
  case _ fn ops =>
    cases h
    exact ⟨_, fun s => (rfl : execCtxresume fn ops s = s.mailbox fn _ ops _ _)⟩
  case _ fn ops =>
    cases h
    exact ⟨_, fun s => (rfl : execCkpt fn ops s = s.mailbox fn _ ops _ _)⟩
  case _ fn ops =>
    cases h
    exact ⟨_, fun s => (rfl : execRollback fn ops s = s.mailbox fn _ ops _ _)⟩
  case _ fn ops =>
    cases h
    exact ⟨_, fun s => (rfl : execDevckpt fn ops s = s.mailbox fn _ ops _ _)⟩
  case _ fn ops =>
    cases h
    exact ⟨_, fun s => (rfl : execKeyreg fn ops s = s.mailbox fn _ ops _ _)⟩
  case _ fn ops =>
    cases h
    exact ⟨_, fun s => (rfl : execKeyrev fn ops s = s.mailbox fn _ ops _ _)⟩
  case _ fn ops =>
    cases h
    exact ⟨_, fun s => (rfl : execAgassign fn ops s = s.mailbox fn _ ops _ _)⟩
  case _ fn ops =>
    cases h
    exact ⟨_, fun s => (rfl : execAgweight fn ops s = s.mailbox fn _ ops _ _)⟩
  case _ fn ops =>
    cases h
    exact ⟨_, fun s => (rfl : execAcctsnap fn ops s = s.mailbox fn _ ops _ _)⟩
  case _ fn ops data =>
    cases h
    exact ⟨_, fun s => (rfl : execObjload fn ops data s = s.mailbox fn _ ops _ _)⟩
  case _ fn ops =>
    cases h
    exact ⟨_, fun s => (rfl : execObjunload fn ops s = s.mailbox fn _ ops _ _)⟩
  case _ fn ops =>
    cases h
    exact ⟨_, fun s => (rfl : execQset fn ops s = s.mailbox fn _ ops _ _)⟩
  case _ fn ops =>
    cases h
    exact ⟨_, fun s => (rfl : execBargrant fn ops s = s.mailbox fn _ ops _ _)⟩
  case _ fn ops =>
    cases h
    exact ⟨_, fun s => (rfl : execFutmake fn ops s = s.mailbox fn _ ops _ _)⟩
  case _ fn ops =>
    cases h
    exact ⟨_, fun s => (rfl : execFutput fn ops s = s.mailbox fn _ ops _ _)⟩
  case _ fn ops =>
    cases h
    exact ⟨_, fun s => (rfl : execFutfree fn ops s = s.mailbox fn _ ops _ _)⟩
  case _ fn ops =>
    cases h
    exact ⟨_, fun s => (rfl : execWdset fn ops s = s.mailbox fn _ ops _ _)⟩
  case _ => cases h

theorem replied_respond (s : State) (status : Nat) (results : List Word) :
    Claims.replied (s.respond status results) status results := ⟨rfl, rfl⟩

/-- The codes of the list are those of the commands. -/
theorem exists_command {c : Nat} (h : c ∈ commandCodes) : ∃ i fn ops n, Claims.command i = some (fn, c, ops, n) := by
  simp only [commandCodes, List.mem_cons, List.not_mem_nil, or_false] at h
  rcases h with rfl | rfl | rfl | rfl | rfl | rfl | rfl | rfl | rfl | rfl | rfl | rfl | rfl | rfl | rfl | rfl | rfl | rfl |
    rfl | rfl | rfl
  · exact ⟨.accept 0 [], 0, [], 0, rfl⟩
  · exact ⟨.ctxload 0 [], 0, [], 1, rfl⟩
  · exact ⟨.ctxend 0 [], 0, [], 2, rfl⟩
  · exact ⟨.ctxstop 0 [], 0, [], 2, rfl⟩
  · exact ⟨.ctxresume 0 [], 0, [], 2, rfl⟩
  · exact ⟨.ckpt 0 [], 0, [], 1, rfl⟩
  · exact ⟨.rollback 0 [], 0, [], 2, rfl⟩
  · exact ⟨.devckpt 0 [], 0, [], 3, rfl⟩
  · exact ⟨.keyreg 0 [], 0, [], 3, rfl⟩
  · exact ⟨.keyrev 0 [], 0, [], 2, rfl⟩
  · exact ⟨.agassign 0 [], 0, [], 2, rfl⟩
  · exact ⟨.agweight 0 [], 0, [], 2, rfl⟩
  · exact ⟨.acctsnap 0 [], 0, [], 2, rfl⟩
  · exact ⟨.objload 0 [] default, 0, [], 3, rfl⟩
  · exact ⟨.objunload 0 [], 0, [], 3, rfl⟩
  · exact ⟨.qset 0 [], 0, [], 4, rfl⟩
  · exact ⟨.bargrant 0 [], 0, [], 3, rfl⟩
  · exact ⟨.futmake 0 [], 0, [], 2, rfl⟩
  · exact ⟨.futput 0 [], 0, [], 3, rfl⟩
  · exact ⟨.futfree 0 [], 0, [], 2, rfl⟩
  · exact ⟨.wdset 0 [], 0, [], 2, rfl⟩

section Unknown
variable {s : State} {code : BitVec 16}

/-- A code that no command has is looked at as any other: the mailbox must take it, and the driver must have accepted. -/
theorem unknownCommand_taken (hc : code.toNat ∉ commandCodes) (ht : s.takesCommand 0 = true) :
    execMailboxUnknownCommand 0 code s =
      if !s.accepted then
        .next (({ s with cmd := BitVec.ofNat 64 code.toNat :: s.cmd.tail } : State).respond 0x04030003 [])
      else
        .next (({ s with cmd := BitVec.ofNat 64 code.toNat :: s.cmd.tail } : State).respond (0x04010000 + code.toNat) []) :=
  (if_neg (by simpa using hc)).trans (if_neg (by simp [ht]))

end Unknown

theorem accept_performed {s : State} {ops : List Word} (ht : s.takesCommand 0 = true) (hm : strayOperand ops 0 = none) :
    ∃ t, exec (.accept 0 ops) s = .next t ∧ t.accepted = true ∧ t.acc = s.acc ∧ Claims.replied t 0 [] := by
  have hrun : execAccept 0 ops s = _ := mailbox_performed ht (.inr rfl) hm
  show ∃ t, execAccept 0 ops s = .next t ∧ _
  rw [hrun]
  by_cases ha : s.accepted = true
  · exact ⟨_, if_pos ha, ha, rfl, replied_respond _ _ _⟩
  · exact ⟨_, if_neg ha, rfl, rfl, replied_respond _ _ _⟩

end Sys2Proof.Machine

namespace Sys2Proof.Proofs

open Sys2Proof Sys2Proof.Machine

/-- Settles O48: every command is the mailbox's common part with a body of its own, and the rules are branches of that part. -/
theorem mailboxRules : Obligations.MailboxRules := by
  unfold Obligations.MailboxRules
  intro s
  refine ⟨fun i fn code ops n hi => ?commands, fun code hcode => ?unknown, fun ops ho hb hc => ?accept, fun v => ?acc,
    fun v => ?capw⟩
  case commands =>
    obtain ⟨body, hexec⟩ := exec_command hi
    refine ⟨fun h => (hexec s).trans (mailbox_discarded h), fun hfn hb hc => ?_⟩
    have ht := takesCommand_iff.mpr ⟨hfn, hb, hc⟩
    refine ⟨fun ha hcode => ?_, fun ha j hn hj hx hl => ?_⟩
    · exact ⟨_, (hexec s).trans (mailbox_unaccepted ht ha hcode), replied_respond _ _ _, rfl, rfl⟩
    · exact ⟨_, (hexec s).trans (mailbox_stray ht (.inl ha) (strayOperand_lowest hn hj hx hl)), replied_respond _ _ _, rfl,
        rfl⟩
  case unknown =>
    have hno : code.toNat ∉ commandCodes := fun hm => by
      obtain ⟨i, fn, ops, n, hi⟩ := exists_command hm
      exact hcode i fn _ ops n hi rfl
    refine ⟨fun hr => ?_, fun hb hc ha => ?_⟩
    · have ht := takesCommand_iff.mpr ⟨rfl, hr.booted, hr.idle⟩
      exact (unknownCommand_taken hno ht).trans (if_neg (by simp [hr.accepted]))
    · have ht := takesCommand_iff.mpr ⟨rfl, hb, hc⟩
      exact ⟨_, (unknownCommand_taken hno ht).trans (if_pos (by simp [ha])), replied_respond _ _ _⟩
  case accept => exact accept_performed (takesCommand_iff.mpr ⟨rfl, hb, hc⟩) (strayOperand_none ho)
  case acc =>
    refine ⟨fun ha => congrArg Host.Outcome.next (if_pos ⟨rfl, by simp [ha]⟩), fun ha => congrArg Host.Outcome.next (if_neg ?_)⟩
    simp [ha]
  case capw =>
    refine ⟨fun hlo hhi => congrArg Host.Outcome.next (if_pos ⟨rfl, hlo, hhi⟩), fun h => congrArg Host.Outcome.next (if_neg ?_)⟩
    omega

end Sys2Proof.Proofs
end

section
/-! SUPPORT. Schedules and transfer phases (R338 to R343, R361). -/

namespace Sys2Proof.Machine

open Sys2Proof

/-! ### What some changes leave alone -/

/-- A fold keeps what each of its steps keeps. -/
theorem foldl_proj {σ α β : Type} (p : σ → β) {f : σ → α → σ} (hf : ∀ t a, p (f t a) = p t) (l : List α) (s : σ) :
    p (l.foldl f s) = p s := by
  induction l generalizing s with
  | nil => rfl
  | cons a l ih => exact (ih (f s a)).trans (hf s a)

/-- A change of one core leaves alone whatever holds no core. -/
theorem mapCore_keeps {β : Type} (p : State → β)
    (hp : ∀ (t : State) (k : Core) (o : Tab Core), p { t with core := k, others := o } = p t)
    (f : Core → Core) (t : State) (c : CoreId) : p (t.mapCore c f) = p t := by
  unfold State.mapCore State.setCore
  split
  · exact hp t _ t.others
  · exact hp t t.core _

/-- A row of changes of cores leaves alone whatever holds no core. -/
theorem foldl_mapCore_proj {α β : Type} (p : State → β)
    (hp : ∀ (t : State) (k : Core) (o : Tab Core), p { t with core := k, others := o } = p t)
    (g : α → CoreId) (f : α → Core → Core) (l : List α) (s : State) :
    p (l.foldl (fun t a => t.mapCore (g a) (f a)) s) = p s :=
  foldl_proj p (fun t a => mapCore_keeps p hp (f a) t (g a)) l s

/-- A row of changes of clusters leaves alone whatever holds no cluster. -/
theorem foldl_mapCluster_proj {β : Type} (p : State → β)
    (hp : ∀ (t : State) (c : Tab Cluster), p { t with clusters := c } = p t)
    (f : Nat → Cluster → Cluster) (l : List Nat) (s : State) : p (l.foldl (fun t n => t.mapCluster n (f n)) s) = p s :=
  foldl_proj p (fun t _ => hp t _) l s

theorem focus_proj {β : Type} (p : State → β)
    (hp : ∀ (t : State) (c : CoreId) (k : Core) (o : Tab Core), p { t with cur := c, core := k, others := o } = p t)
    (t : State) (c : CoreId) : p (t.focus c) = p t := by
  unfold State.focus
  split
  · rfl
  · exact hp t c _ _

theorem tfind_mapCtx_same (s : State) (n : Nat) (f : Context → Context) :
    tfind n (s.mapCtx n f).contexts = (tfind n s.contexts).map f := by
  unfold State.mapCtx
  cases h : tfind n s.contexts with
  | none => exact h
  | some x => exact tfind_tset_same ..

theorem mapCtx_proj {β : Type} (p : State → β) (hp : ∀ (t : State) (l : Tab Context), p { t with contexts := l } = p t)
    (s : State) (n : Nat) (f : Context → Context) : p (s.mapCtx n f) = p s := by
  unfold State.mapCtx
  split
  · exact hp s _
  · rfl

theorem curCtx_eq {s : State} {n : Nat} {x : Context} (hx : Claims.InContext s n x) : s.curCtx = some x := by
  rw [State.curCtx, hx.core]
  exact hx.context

/-! ### The fields of a channel binding, and the slot of a beat -/

theorem bindKind_eq (b : Word × Word) : bindKind b = Claims.kind b := by
  have := b.1.isLt
  simp only [bindKind, Claims.kind, wfield, field]
  omega

theorem bindDir_eq (b : Word × Word) : bindDir b = if Claims.sends b then 0 else 1 := by
  simp only [bindDir, Claims.sends, wfield, field, BitVec.getLsbD, Nat.testBit_eq_decide_div_mod_eq, Nat.pow_one]
  rcases Nat.mod_two_eq_zero_or_one (b.1.toNat / 2 ^ 44) with h | h
  · rw [h]
    rfl
  · rw [h]
    rfl

section Slots
variable {s : State} {n : Nat} {x : Context} {t : Nat}

theorem scheduleId_eq (s : State) (n k : Nat) :
    s.scheduleId n k = (tfind k (s.cluster n).schedules).map fun y => (y.slots.length, y.tag) := rfl

theorem inSlot_none (h : s.core.inPhase = none) (t : Nat) (body : Option Phase → Out) :
    s.inSlot t body = s.trap 0x343#10 0#64 := by
  rw [State.inSlot, h]

/-- A slot of the schedule: the body gets the phase of the context, while it lasts. -/
theorem inSlot_within (hx : Claims.InContext s n x) (h : Claims.inSchedule s t) (body : Option Phase → Out) :
    s.inSlot t body = body x.phase := by
  obtain ⟨k, y, hk, hy, hlt⟩ := h
  have hid : s.scheduleId (clusterOf s.cur) k = some (y.slots.length, y.tag) := congrArg (Option.map _) hy
  rw [State.inSlot, hk]
  dsimp only
  rw [hid]
  dsimp only
  rw [if_neg (Nat.not_le.mpr hlt), curCtx_eq hx, Option.bind_some]

theorem past_iff (x : Context) (t : Nat) :
    (match x.phase with | some p => decide (t < p.next) | none => true) = true ↔ Claims.past x t := by
  unfold Claims.past
  cases x.phase with
  | none => simp
  | some p => simp

/-- The slot of beat m of a channel form whose binding fits (R361). -/
theorem beatSlot_fits {c : BitVec 4} {out : Bool} {m : Nat} (h : Claims.transmit.channelSlot s c out m = some t)
    (body : Nat → Out) : s.beatSlot c (if out then 0 else 1) m body = body t := by
  unfold Claims.transmit.channelSlot at h
  dsimp only at h
  split at h
  case isFalse => cases h
  case isTrue hfit =>
    obtain ⟨hkind, hsends, hm, hphase⟩ := hfit
    cases h
    unfold State.beatSlot
    rw [hphase]
    dsimp only
    rw [if_neg]
    · rfl
    · rintro (hk | hd | hb | hp)
      · exact hk ((bindKind_eq _).trans hkind)
      · exact hd ((bindDir_eq _).trans (by rw [show Claims.sends (s.core.binding c.toNat) = out from hsends]))
      · exact Nat.not_lt.mpr hm hb
      · exact hp rfl

/-- The channel form of a binding that fits is in a phase. -/
theorem channelSlot_inPhase {c : BitVec 4} {out : Bool} {m : Nat}
    (h : Claims.transmit.channelSlot s c out m = some t) : s.core.inPhase ≠ none := by
  unfold Claims.transmit.channelSlot at h
  dsimp only at h
  split at h
  case isFalse => cases h
  case isTrue hfit => simp [hfit.2.2.2]

end Slots

/-! ### Instructions that change the core, and write d -/

section Updated
variable {s : State} {f : Core → Core} (hq : (f s.core).quiet) (hp : (f s.core).pc = s.core.pc)
include hq hp

theorem setS_upd_advance (d : Reg) (v : Word) : ((s.upd f).setS d v).advance = Claims.ends s ((f s.core).writeS d v) :=
  advance_upd_alone (f := fun k => (f k).writeS d v) (quiet_writeS hq d v) (by simpa using hp)

theorem setV_upd_advance (d : Reg) (v : Vec) : ((s.upd f).setV d v).advance = Claims.ends s ((f s.core).writeV d v) :=
  advance_upd_alone (f := fun k => (f k).writeV d v) (quiet_writeV hq d v) (by simpa using hp)

end Updated

/-! ### XMIT, XRECV and XEND in a core with nothing under way -/

section Calm
variable {s : State} {n : Nat} {x : Context} {t : Nat} {i : Instr}

theorem transmit_calm (ha : Claims.Alone s) (hc : Claims.Calm s) {b : Reg} (hi : Claims.transmit s i = some (b, t))
    (hr : s.core.ready { vs := [(b, 0)] } = true) : exec i s = s.xmitAtSlot t (s.vsrc b 0) := by
  unfold Claims.transmit at hi
  split at hi
  case h_1 h b' l =>
    cases hi
    exact issue_ordered_calm ha hc hr _
  case h_2 c h b' l =>
    obtain ⟨t', ht, hb⟩ := Option.map_eq_some_iff.mp hi
    cases hb
    exact (issue_ordered_calm ha hc hr _).trans (beatSlot_fits ht _)
  case h_3 => cases hi

theorem receives_calm (ha : Claims.Alone s) (hc : Claims.Calm s) {d : Reg} (hi : Claims.receives s i = some (d, t))
    (hr : s.core.ready { dv := [d] } = true) : exec i s = s.xrecvAtSlot d t := by
  unfold Claims.receives at hi
  split at hi
  case h_1 d' h l =>
    cases hi
    exact issue_ordered_calm ha hc hr _
  case h_2 d' h c l =>
    obtain ⟨t', ht, hd⟩ := Option.map_eq_some_iff.mp hi
    cases hd
    exact (issue_ordered_calm ha hc hr _).trans (beatSlot_fits ht _)
  case h_3 => cases hi

theorem xmitAtSlot_sent (ha : Claims.Alone s) (hx : Claims.InContext s n x) (ht : Claims.inSchedule s t)
    (hs : s.core.xmitSent = true) (v : Vec) :
    s.xmitAtSlot t v = .next (Claims.ends s { s.core with xmitSent := false }) := by
  unfold State.xmitAtSlot
  rw [inSlot_within hx ht]
  dsimp only
  rw [if_pos hs, advance_upd_alone ha.quiet rfl]

theorem xmitAtSlot_late (ha : Claims.Alone s) (hx : Claims.InContext s n x) (ht : Claims.inSchedule s t)
    (hp : Claims.past x t) (hs : s.core.xmitSent = false) (hat : tfind t s.core.xmitAt = none) (v : Vec) :
    s.xmitAtSlot t v = .next (Claims.ends s { s.core with unsent := s.core.unsent + 1 }) := by
  unfold State.xmitAtSlot
  rw [inSlot_within hx ht]
  dsimp only
  rw [if_neg (by simp [hs]), if_neg (by simp [hat])]
  refine (if_pos ((past_iff x t).mpr hp)).trans ?_
  rw [advance_upd_alone ha.quiet rfl]

theorem xrecvAtSlot_beat (ha : Claims.Alone s) (hx : Claims.InContext s n x) (ht : Claims.inSchedule s t)
    (hp : Claims.past x t) {v : Vec} (hv : tfind t s.core.recvBeats = some v) (d : Reg) :
    s.xrecvAtSlot d t = .next (Claims.ends s (s.core.writeV d v)) := by
  unfold State.xrecvAtSlot
  rw [inSlot_within hx ht]
  refine (if_pos ((past_iff x t).mpr hp)).trans ?_
  rw [hv]
  dsimp only
  rw [setV_advance_alone ha]

theorem xrecvAtSlot_nothing (ha : Claims.Alone s) (hx : Claims.InContext s n x) (ht : Claims.inSchedule s t)
    (hp : Claims.past x t) (hv : tfind t s.core.recvBeats = none) (d : Reg) :
    s.xrecvAtSlot d t = .next (Claims.ends s ({ s.core with empty := s.core.empty + 1 }.writeV d 0#512)) := by
  unfold State.xrecvAtSlot
  rw [inSlot_within hx ht]
  refine (if_pos ((past_iff x t).mpr hp)).trans ?_
  rw [hv]
  exact congrArg Host.Outcome.next (setV_upd_advance (f := fun k => { k with empty := k.empty + 1 }) ha.quiet rfl d 0#512)

theorem xrecvAtSlot_early (ha : Claims.Alone s) (hx : Claims.InContext s n x) (ht : Claims.inSchedule s t)
    (hp : ∃ p, x.phase = some p ∧ p.next ≤ t) (d : Reg) :
    s.xrecvAtSlot d t = .next (Claims.ends s { s.core.emptyV d with recvAt := (t, d) :: s.core.recvAt }) := by
  have hfuture : ¬Claims.past x t := fun h => by
    obtain ⟨p, hp, hle⟩ := hp
    exact Nat.not_lt.mpr hle (h p hp)
  unfold State.xrecvAtSlot
  rw [inSlot_within hx ht]
  refine (if_neg fun h => hfuture ((past_iff x t).mp h)).trans ?_
  exact congrArg Host.Outcome.next
    (advance_upd_alone (f := fun k => { k.emptyV d with recvAt := (t, d) :: k.recvAt }) ha.quiet rfl)

/-- The core as its XEND leaves it, but for d. -/
def Core.xended (k : Core) : Core :=
  { k with inPhase := none, xmitAt := [], xmitSent := false, recvAt := [], recvBeats := [] }

theorem xend_outside (ha : Claims.Alone s) (hc : Claims.Calm s) {d : Reg} (hr : s.core.ready { ds := [d] } = true)
    (h : s.core.inPhase = none) : exec (.xend d) s = s.trap 0x343#10 0#64 :=
  (issue_ordered_calm ha hc hr _).trans (if_pos (by rw [h]; rfl))

theorem xend_within (ha : Claims.Alone s) (hc : Claims.Calm s) (hx : Claims.InContext s n x) {d : Reg}
    (hr : s.core.ready { ds := [d] } = true) (h : s.core.inPhase ≠ none) (hp : x.phase ≠ none) :
    exec (.xend d) s = s.waits := by
  refine (issue_ordered_calm ha hc hr _).trans ((if_neg (by simpa using h)).trans (if_pos ?_))
  rw [curCtx_eq hx]
  exact Option.isSome_iff_ne_none.mpr hp

theorem xend_over (ha : Claims.Alone s) (hc : Claims.Calm s) (hx : Claims.InContext s n x) {d : Reg}
    (hr : s.core.ready { ds := [d] } = true) (h : s.core.inPhase ≠ none) (hp : x.phase = none) :
    exec (.xend d) s =
      .next (Claims.ends s (s.core.xended.writeS d
        (BitVec.ofNat 64 (min (tget (s.cur / 16) s.clusters {}).drops 65535 * 2 ^ 32 +
          min s.core.empty 65535 * 2 ^ 16 + min s.core.unsent 65535)))) := by
  refine (issue_ordered_calm ha hc hr _).trans ((if_neg (by simpa using h)).trans ((if_neg ?_).trans ?_))
  · rw [curCtx_eq hx, Option.bind_some, hp]
    exact Bool.false_ne_true
  · exact congrArg Host.Outcome.next (setS_upd_advance (f := Core.xended) ha.quiet rfl d _)

end Calm

/-! ### XSEL -/

section Xsel
variable {s : State} {va n : Nat}

theorem image_prefix {m : Nat} (hi : Claims.Image s va n) (h : m ≤ n) : Claims.Image s va m where
  aperture := hi.aperture
  size := by have := hi.size; omega
  room := by have := hi.room; omega
  watch := hi.watch
  clean := poisonIn_of_within hi.clean (Nat.le_refl _) (by omega)
  away := hi.away
  order := hi.order
  got := hi.got

/-- An image of the own scratchpad can be seen before it is read. -/
theorem peekImage_own (hb : s.core.sbuf = []) (hi : Claims.Image s va n) :
    s.peekImage va n = some (Claims.imageBytes s va n) := by
  obtain ⟨l, hplan, hl⟩ := plan_own (s := s) .load hi.aperture hi.size hi.room
  replace hl := covers_coalesce hl
  have hbusy : (coalesce l).any (s.pieceBusy true) = false :=
    List.any_eq_false.mpr fun p hp => by simp [pieceBusy_image hi (covers_mem hl hp).1]
  unfold State.peekImage
  rw [hplan]
  dsimp only
  rw [hbusy, if_neg Bool.false_ne_true, flatMap_pieceBytes_own hb true hl, Core.overlay, hi.got]
  rfl

theorem badHeader_of {h m : Nat} (hm : h % 2 ^ 32 = m) (h1 : 1 ≤ m) (h2 : m ≤ 256) : badHeader (BitVec.ofNat 64 h) = false := by
  simp only [badHeader, wfield, field, BitVec.toNat_ofNat, Bool.or_eq_false_iff, decide_eq_false_iff_not]
  omega

/-- The slots of a schedule of m slots at a key of memory. -/
def slotsAt (s : State) (key m : Nat) : List Word :=
  (List.range m).map fun i => BitVec.ofNat 64 (memRead s.mem (key + 8 + 8 * i) 8)

variable {a : Reg} {m : Nat}

/-- XSEL of an image with a good header checks the slots, then records the schedule. -/
theorem xsel_read (ha : Claims.Alone s) (hc : Claims.Calm s) {i : Nat} {x : Context} (hx : Claims.InContext s i x)
    (hr : s.core.ready { ss := [(a, 0)] } = true) (hphase : s.core.inPhase = none) (hva : (s.src a 0).toNat = va)
    (halign : va % 8 = 0) (hi : Claims.Image s va (8 + 8 * m)) (hm : memRead s.mem (Claims.ownKey s va) 8 % 2 ^ 32 = m)
    (h1 : 1 ≤ m) (h2 : m ≤ 256) (k : BitVec 2) :
    exec (.xsel a k) s =
      if (slotsAt s (Claims.ownKey s va) m).any (s.badSlot x.desc (s.cur / 16)) then s.trap 0x340#10 0#64
      else
        .next (s.mapCluster (s.cur / 16) fun c =>
          { c with
            schedules :=
              tset k.toNat
                { tag := memRead s.mem (Claims.ownKey s va) 8 / 2 ^ 32, slots := slotsAt s (Claims.ownKey s va) m }
                c.schedules }).advance := by
  subst hva
  have hhead : bytesNat (Claims.imageBytes s (s.src a 0).toNat 8) = memRead s.mem (Claims.ownKey s (s.src a 0).toNat) 8 :=
    bytesNat_memReadBytes ..
  have hcount : memRead s.mem (Claims.ownKey s (s.src a 0).toNat) 8 % 512 = m := by omega
  have htag : imgNat (Claims.imageBytes s (s.src a 0).toNat (8 + 8 * m)) 4 4 =
      memRead s.mem (Claims.ownKey s (s.src a 0).toNat) 8 / 2 ^ 32 := by
    refine (imgNat_memReadBytes s.mem _ (by omega)).trans ?_
    rw [← memRead_div_mod s.mem _ (by omega : 4 + 4 ≤ 8)]
    exact Nat.mod_eq_of_lt (Nat.div_lt_of_lt_mul (memRead_lt s.mem _ 8))
  have hslots : ((List.range m).map fun i =>
      BitVec.ofNat 64 (imgNat (Claims.imageBytes s (s.src a 0).toNat (8 + 8 * m)) (8 + 8 * i) 8)) =
      slotsAt s (Claims.ownKey s (s.src a 0).toNat) m :=
    List.map_congr_left fun i hi => by
      have := List.mem_range.mp hi
      rw [Claims.imageBytes, imgNat_memReadBytes s.mem _ (by omega), Nat.add_assoc]
  refine (issue_ordered_calm ha hc hr _).trans ((if_neg (by simp [hphase])).trans ((if_neg (by omega)).trans ?_))
  rw [peekImage_own hc.buffer (image_prefix hi (by omega))]
  dsimp only
  rw [hhead, badHeader_of hm h1 h2, if_neg Bool.false_ne_true, hcount, readImage_own hc.buffer hi, hslots, htag, curCtx_eq hx]
  rfl

end Xsel

/-! ### A core that waits -/

theorem rotate_proj {β : Type} (p : State → β)
    (hp : ∀ (t : State) (c : CoreId) (k : Core) (o : Tab Core), p { t with cur := c, core := k, others := o } = p t)
    (t : State) : p t.rotate = p t := by
  unfold State.rotate
  split
  · exact focus_proj p hp t _
  · rfl

theorem getCore_rotate (s : State) (d : CoreId) : s.rotate.getCore d = s.getCore d := by
  unfold State.rotate
  split
  · exact getCore_focus s _ d
  · rfl

/-- The core of an instruction that waits. -/
def Core.putToWait (k : Core) : Core := { k with inWait := true, arriving := false }

theorem waits_quiet {s : State} (h : s.core.quiet) : s.waits = .next (s.upd Core.putToWait).rotate := by
  obtain ⟨-, -, hstep, -⟩ := h
  refine if_neg ?_
  rw [hstep]
  exact Bool.false_ne_true

theorem getCore_waits (s : State) : (s.upd Core.putToWait).rotate.getCore s.cur = s.core.putToWait :=
  (getCore_rotate _ _).trans (getCore_cur (s.upd Core.putToWait))

section Barp
variable {s : State} (ha : Claims.Alone s) (hc : Claims.Calm s) (k : BitVec 2)
include ha hc

theorem barp_done (h : s.core.barpDone = true) : exec (.barp k) s = .next (Claims.ends s s.core) := by
  refine (issue_ordered_calm (n := {}) ha hc rfl _).trans ((if_pos h).trans ?_)
  rw [advance_alone ha.quiet]

/-- The core arrived at its BARP. -/
def Core.atBarp (k : Core) (n : Nat) : Core := { k with barpAt := some n }

theorem barp_arrives (hp : s.core.inPhase = none) (h : s.core.barpDone = false) :
    exec (.barp k) s = .next ((s.upd (·.atBarp k.toNat)).upd Core.putToWait).rotate := by
  refine (issue_ordered_calm (n := {}) ha hc rfl _).trans ((if_neg (by simp [h])).trans ((if_neg (by simp [hp])).trans ?_))
  exact waits_quiet (s := s.upd (·.atBarp k.toNat)) ha.quiet

end Barp

/-! ### The start of a phase -/

/-- Core c at the start of phase k: its BARP is over, or satisfied where the core is debug-stopped. -/
def Core.pastBarp (k : Core) : Core :=
  if k.debugStopped then { k with barpDone := true } else Claims.closed k (k.pc + 4#64)

theorem focus_core (s : State) (c : CoreId) : (s.focus c).core = s.getCore c := by
  rw [← getCore_focus s c c, ← getCore_cur (s.focus c), focus_cur_eq]

section Finish
variable {s : State} {c : CoreId} (h : (s.getCore c).quiet)
include h

theorem finishAt_running (hd : (s.getCore c).debugStopped = false) :
    s.finishAt c = Claims.endsAt (s.focus c) (s.getCore c) ((s.getCore c).pc + 4#64) := by
  unfold State.finishAt
  rw [hd, if_neg Bool.false_ne_true, advance_alone (by rw [focus_core]; exact h), Claims.ends, focus_core]

theorem getCore_finishAt (d : CoreId) :
    (s.finishAt c).getCore d = if d = c then (s.getCore c).pastBarp else s.getCore d := by
  unfold Core.pastBarp
  cases hd : (s.getCore c).debugStopped with
  | true =>
    unfold State.finishAt
    rw [hd, if_pos rfl, if_pos rfl]
    split
    next hdc => rw [hdc, getCore_mapCore_same]
    next hdc => exact getCore_mapCore_of_ne hdc _
  | false =>
    rw [finishAt_running h hd, if_neg Bool.false_ne_true]
    split
    next hdc =>
      rw [hdc]
      exact if_pos (focus_cur_eq s c).symm
    next hdc =>
      rw [← getCore_focus s c d]
      have hne : d ≠ (s.focus c).cur := by rwa [focus_cur_eq]
      exact (if_neg hne).trans (if_neg hne).symm

theorem finishAt_proj {β : Type} (p : State → β)
    (hp : ∀ (t : State) (c : CoreId) (k : Core) (o : Tab Core), p { t with cur := c, core := k, others := o } = p t) :
    p (s.finishAt c) = p s := by
  cases hd : (s.getCore c).debugStopped with
  | true =>
    unfold State.finishAt
    rw [hd, if_pos rfl]
    exact mapCore_keeps p (fun t k o => hp t t.cur k o) _ s c
  | false =>
    rw [finishAt_running h hd]
    exact (hp (s.focus c) (s.focus c).cur _ (s.focus c).others).trans (focus_proj p hp s c)

end Finish

/-- Quiet cores complete their BARPs one by one, and nothing but cores changes. -/
theorem finishAll (l : List CoreId) (hl : l.Nodup) (s : State) (h : ∀ c ∈ l, (s.getCore c).quiet) :
    (∀ c ∈ l, (l.foldl State.finishAt s).getCore c = (s.getCore c).pastBarp) ∧
      (∀ c, c ∉ l → (l.foldl State.finishAt s).getCore c = s.getCore c) ∧
      (l.foldl State.finishAt s).mem = s.mem ∧ (l.foldl State.finishAt s).contexts = s.contexts := by
  induction l generalizing s with
  | nil => exact ⟨fun c hc => absurd hc List.not_mem_nil, fun _ _ => rfl, rfl, rfl⟩
  | cons c l ih =>
    obtain ⟨hnot, hl⟩ := List.nodup_cons.mp hl
    have hc := h c List.mem_cons_self
    have hother (d : CoreId) (hd : d ∈ l) : (s.finishAt c).getCore d = s.getCore d :=
      (getCore_finishAt hc d).trans (if_neg fun e : d = c => hnot (e ▸ hd))
    obtain ⟨hin, hout, hmem, hctx⟩ :=
      ih hl (s.finishAt c) fun d hd => by rw [hother d hd]; exact h d (List.mem_cons_of_mem c hd)
    refine ⟨fun d hd => ?_, fun d hd => ?_, hmem.trans ?_, hctx.trans ?_⟩
    · rcases List.mem_cons.mp hd with rfl | hd
      · exact (hout d hnot).trans ((getCore_finishAt hc d).trans (if_pos rfl))
      · exact (hin d hd).trans (by rw [hother d hd])
    · rw [List.mem_cons, not_or] at hd
      exact (hout d hd.2).trans ((getCore_finishAt hc d).trans (if_neg hd.1))
    · exact finishAt_proj hc State.mem fun _ _ _ _ => rfl
    · exact finishAt_proj hc State.contexts fun _ _ _ _ => rfl

/-- The core that begins phase k, at its BARP still. -/
def Core.inPhaseOf (j : Nat) (k : Core) : Core :=
  { k with inPhase := some j, unsent := 0, empty := 0, recvAt := [], recvBeats := [], xmitAt := [], xmitSent := false }

def Core.offBarp (k : Core) : Core := { k with barpAt := none }

/-- The state in which every core of context n has begun phase k, of l slots, and stands at its BARP still. -/
def State.phaseBegun (s : State) (n k l : Nat) : State :=
  let cs := s.coresOf n
  let t := cs.foldl (fun t c => t.mapCore c Core.offBarp) s
  let t := t.mapCtx n fun x => { x with phase := some { sched := k, nslot := l } }
  let t := (s.partOf n).foldl (fun t c => t.mapCluster c fun x => { x with drops := 0 }) t
  cs.foldl (fun t c => t.mapCore c (Core.inPhaseOf k)) t

section Start
variable {s : State} {n k : Nat} {h : Nat × Nat}

theorem coresOf_nodup (s : State) (n : Nat) : (s.coresOf n).Nodup := List.nodup_range.filter _

theorem barpReady_all (hlive : s.live n = true) (hne : s.coresOf n ≠ [])
    (hall : ∀ c ∈ s.coresOf n, (s.getCore c).barpAt = some k ∧ s.quietMesh c = true) : s.barpReady n = some k := by
  unfold State.barpReady
  rw [if_pos hlive]
  revert hne hall
  cases s.coresOf n with
  | nil => exact fun h => absurd rfl h
  | cons c l =>
    intro _ hall
    dsimp only
    rw [(hall c List.mem_cons_self).1]
    exact if_pos (List.all_eq_true.mpr fun d hd => decide_eq_true (hall d hd))

theorem partOf_ne_nil (hne : s.coresOf n ≠ []) : s.partOf n ≠ [] := by
  obtain ⟨c, hc⟩ := List.exists_mem_of_ne_nil _ hne
  obtain ⟨hlt, hcore⟩ := List.mem_filter.mp hc
  unfold State.coreOf at hcore
  unfold State.partOf
  cases hx : tfind n s.contexts with
  | none => simp [hx] at hcore
  | some x =>
    rw [hx] at hcore
    have hlt' : clusterOf c < 160 := by
      have := List.mem_range.mp hlt
      unfold clusterOf
      omega
    exact List.ne_nil_of_mem (List.mem_filter.mpr ⟨List.mem_range.mpr hlt', hcore⟩)

theorem clusters_foldl_mapCore (f : Core → Core) (l : List CoreId) (s : State) :
    (l.foldl (fun t c => t.mapCore c f) s).clusters = s.clusters :=
  foldl_mapCore_proj State.clusters (fun _ _ _ => rfl) id (fun _ => f) l s

theorem phaseStart_begins (hlive : s.live n = true) (hne : s.coresOf n ≠ [])
    (hall : ∀ c ∈ s.coresOf n, (s.getCore c).barpAt = some k ∧ s.quietMesh c = true)
    (hsched : ∀ m ∈ s.partOf n, s.scheduleId m k = some h) :
    exec (.phaseStart n) s =
      .next (((s.coresOf n).foldl State.finishAt (s.phaseBegun n k h.1)).focus
        (s.phaseBegun n k h.1).cur) := by
  have hkeep (m : Nat) : ((s.coresOf n).foldl (fun t c => t.mapCore c Core.offBarp) s).scheduleId m k =
      s.scheduleId m k := by
    rw [scheduleId_eq, scheduleId_eq, State.cluster, State.cluster, clusters_foldl_mapCore]
  have hhead : (s.partOf n).headD 0 ∈ s.partOf n := by
    have hpart := partOf_ne_nil hne
    cases hl : s.partOf n with
    | nil => exact absurd hl hpart
    | cons m l => exact List.mem_cons_self
  show execPhaseStart n s = _
  unfold execPhaseStart
  rw [barpReady_all hlive hne hall]
  dsimp only
  have h1 := (hkeep _).trans (hsched _ hhead)
  unfold Core.offBarp at h1
  rw [h1]
  dsimp only
  refine (if_pos (List.all_eq_true.mpr fun m hm => decide_eq_true ((hkeep m).trans (hsched m hm)))).trans ?_
  rfl

theorem getCore_phaseBegun {c : CoreId} (hc : c ∈ s.coresOf n) (l : Nat) :
    (s.phaseBegun n k l).getCore c = (s.getCore c).offBarp.inPhaseOf k := by
  unfold State.phaseBegun
  rw [getCore_foldl_mapCore_of_mem (coresOf_nodup s n) hc]
  congr 1
  refine (foldl_mapCluster_proj (fun t => State.getCore t c) (fun _ _ => rfl) _ _ _).trans ?_
  refine (mapCtx_proj (fun t => State.getCore t c) (fun _ _ => rfl) _ _ _).trans ?_
  exact getCore_foldl_mapCore_of_mem (coresOf_nodup s n) hc

/-- What holds neither cores nor clusters nor contexts is as it was at the start of a phase. -/
theorem phaseBegun_mem (s : State) (n k l : Nat) : (s.phaseBegun n k l).mem = s.mem := by
  unfold State.phaseBegun
  refine (foldl_mapCore_proj State.mem (fun _ _ _ => rfl) id _ _ _).trans ?_
  refine (foldl_mapCluster_proj State.mem (fun _ _ => rfl) _ _ _).trans ((mapCtx_proj State.mem (fun t l => rfl) _ _ _).trans ?_)
  exact foldl_mapCore_proj State.mem (fun _ _ _ => rfl) id _ _ _

theorem phaseBegun_phase {x : Context} (hx : tfind n s.contexts = some x) (k l : Nat) :
    tfind n (s.phaseBegun n k l).contexts = some { x with phase := some { sched := k, nslot := l } } := by
  have hkeep : (s.phaseBegun n k l).contexts = (((s.coresOf n).foldl (fun t c => t.mapCore c Core.offBarp) s).mapCtx n
      fun x => { x with phase := some { sched := k, nslot := l } }).contexts := by
    unfold State.phaseBegun
    refine (foldl_mapCore_proj State.contexts (fun _ _ _ => rfl) id _ _ _).trans ?_
    exact foldl_mapCluster_proj State.contexts (fun _ _ => rfl) _ _ _
  have hfirst : ((s.coresOf n).foldl (fun t c => t.mapCore c Core.offBarp) s).contexts = s.contexts :=
    foldl_mapCore_proj State.contexts (fun _ _ _ => rfl) id _ _ _
  rw [hkeep, tfind_mapCtx_same, hfirst, hx]
  rfl

end Start

/-! ### The slots and the end of a phase -/

/-- What a slot of the phase of context n does to the clusters and the cores of its partition. -/
def State.slotMoved (s : State) (p : Phase) (n : Nat) : State :=
  let t := (s.partOf n).foldl (fun t n => t.mapCluster n fun x => { x with drops := x.drops + s.unselected p n }) s
  ((s.partOf n).map fun n => (n, s.localOut p n)).foldl
    (fun t o =>
      (List.range 16).foldl
        (fun t i =>
          t.mapCore (16 * o.1 + i) fun k =>
            (k.sendBeat p.next).receive p.next
              (match o.2 with | some (st, v) => if st = i then some v else none | none => none))
        t)
    t

/-- The phase when its next slot has passed, in which the routers have sent some beats. -/
def Phase.slotPast (p : Phase) (sent : List Beat) : Phase :=
  { p with next := p.next + 1, beats := (p.beats.filter fun b => p.next < b.slot) ++ sent }

section Passing
variable {s : State} {n : Nat} {x : Context} {p : Phase}

theorem phaseOf_eq (hx : tfind n s.contexts = some x) (hp : x.phase = some p) :
    ((tfind n s.contexts).bind fun x => x.phase) = some p := by rw [hx]; exact hp

theorem phaseEnd_over (hx : tfind n s.contexts = some x) (hp : x.phase = some p) (h : p.nslot + 48 ≤ p.next) :
    exec (.phaseEnd n) s = .next (s.mapCtx n fun x => { x with phase := none }) := by
  show execPhaseEnd n s = _
  unfold execPhaseEnd
  rw [phaseOf_eq hx hp]
  exact if_pos h

theorem transferPhaseSlot_passes (hx : tfind n s.contexts = some x) (hp : x.phase = some p) (h : p.next < p.nslot + 48) :
    exec (.transferPhaseSlot n) s =
      .next ((s.slotMoved p n).mapCtx n fun x =>
        { x with phase := some (p.slotPast ((s.partOf n).flatMap (s.sends p))) }) := by
  show execTransferPhaseSlot n s = _
  unfold execTransferPhaseSlot
  rw [phaseOf_eq hx hp]
  exact if_neg (Nat.not_le.mpr h)

/-- A slot moves what neither holds a core nor a cluster nowhere. -/
theorem slotMoved_proj {β : Type} (q : State → β)
    (hq : ∀ (t : State) (k : Core) (o : Tab Core) (c : Tab Cluster), q { t with core := k, others := o, clusters := c } = q t) :
    q (s.slotMoved p n) = q s := by
  have hcore (t : State) (k : Core) (o : Tab Core) : q { t with core := k, others := o } = q t := hq t k o t.clusters
  unfold State.slotMoved
  refine (foldl_proj q (fun t a => ?_) _ _).trans (foldl_mapCluster_proj q (fun t c => hq t t.core t.others c) _ _ _)
  exact foldl_mapCore_proj q hcore _ _ _ t

end Passing

end Sys2Proof.Machine

namespace Sys2Proof.Proofs

open Sys2Proof Sys2Proof.Machine

/-- The end of the phase start, core by core. -/
theorem phaseStart_cores {s : State} {n k l : Nat} (hq : ∀ c ∈ s.coresOf n, (s.getCore c).quiet) {c : CoreId}
    (hc : c ∈ s.coresOf n) (d : CoreId) :
    ((((s.coresOf n).foldl State.finishAt (s.phaseBegun n k l)).focus d).getCore c) =
      ((s.getCore c).offBarp.inPhaseOf k).pastBarp := by
  rw [getCore_focus, (finishAll _ (coresOf_nodup s n) _ fun c hc => ?_).1 c hc, getCore_phaseBegun hc]
  rw [getCore_phaseBegun hc]
  exact hq c hc

theorem pastBarp_fields (k : Core) (j : Nat) :
    (k.offBarp.inPhaseOf j).pastBarp.inPhase = some j ∧ (k.offBarp.inPhaseOf j).pastBarp.barpAt = none ∧
      (k.offBarp.inPhaseOf j).pastBarp.pc = (if k.debugStopped then k.pc else k.pc + 4#64) ∧
      (k.debugStopped = true → (k.offBarp.inPhaseOf j).pastBarp.barpDone = true) ∧
      (k.offBarp.inPhaseOf j).pastBarp.unsent = 0 ∧ (k.offBarp.inPhaseOf j).pastBarp.empty = 0 := by
  have hkeep : (k.offBarp.inPhaseOf j).debugStopped = k.debugStopped := rfl
  unfold Core.pastBarp
  rw [hkeep]
  cases k.debugStopped with
  | true => exact ⟨rfl, rfl, rfl, fun _ => rfl, rfl, rfl⟩
  | false => exact ⟨rfl, rfl, rfl, fun h => absurd h Bool.false_ne_true, rfl, rfl⟩

/-- Settles O36: each clause is one of the rules above, for the instructions, for the start of a phase, and for its slots. -/
theorem transferPhases : Obligations.TransferPhases := by
  unfold Obligations.TransferPhases
  intro s n x ha hc hx
  refine ⟨?_, fun k hp => ?_, fun k h hlive hne hall hsched => ?_,
    fun i b t hi hr => ?_, fun i d t hi hr => ?_, fun d hr => ?_, fun p hp => ?_⟩
  · intro a k m hr hphase halign hi key h slots hm h1 h2
    have hread := xsel_read ha hc hx hr hphase rfl halign hi hm h1 h2 k
    refine ⟨fun hbad => hread.trans (if_pos (List.any_eq_true.mpr hbad)), fun hgood => ⟨_, hread.trans (if_neg ?_), ?_⟩⟩
    · rw [Bool.not_eq_true]
      exact List.any_eq_false.mpr fun w hw => by simp [hgood w hw]
    · rw [advance_alone (s := s.mapCluster _ _) ha.quiet]
      refine ⟨rfl, rfl, rfl, ?_⟩
      show tfind k.toNat (tget (s.cur / 16) (tset (s.cur / 16) _ s.clusters) {}).schedules = _
      rw [tget_tset_same, tfind_tset_same]
      rfl
  · refine ⟨fun hd => ⟨_, barp_arrives ha hc k hp hd, rotate_proj State.mem (fun _ _ _ _ => rfl) _, ?_⟩, barp_done ha hc k⟩
    exact getCore_waits (s.upd (·.atBarp k.toNat))
  · have hstart := phaseStart_begins hlive hne (fun c hc => ⟨(hall c hc).1, (hall c hc).2.1⟩) hsched
    have hq (c : CoreId) (hc : c ∈ s.coresOf n) : (s.getCore c).quiet := (hall c hc).2.2
    obtain ⟨-, -, hmem, hctx⟩ := finishAll _ (coresOf_nodup s n) (s.phaseBegun n k h.1) fun c hc => by
      rw [getCore_phaseBegun hc]
      exact hq c hc
    refine ⟨_, hstart, ?_, ?_, fun c hc => ?_⟩
    · exact (focus_proj State.mem (fun _ _ _ _ => rfl) _ _).trans (hmem.trans (phaseBegun_mem s n k h.1))
    · rw [focus_proj State.contexts (fun _ _ _ _ => rfl), hctx, phaseBegun_phase hx.context]
      rfl
    · rw [phaseStart_cores hq hc]
      exact pastBarp_fields _ _
  · rw [transmit_calm ha hc hi hr]
    refine ⟨fun h => inSlot_none h t _, fun ht hp => ⟨fun hs => xmitAtSlot_sent ha hx ht hs _,
      fun hs hat => xmitAtSlot_late ha hx ht hp hs hat _⟩⟩
  · rw [receives_calm ha hc hi hr]
    exact ⟨fun h => inSlot_none h t _, fun ht hp => ⟨fun v hv => xrecvAtSlot_beat ha hx ht hp hv d,
      fun hv => xrecvAtSlot_nothing ha hx ht hp hv d⟩, fun ht hp => xrecvAtSlot_early ha hx ht hp d⟩
  · exact ⟨xend_outside ha hc hr, xend_within ha hc hx hr, xend_over ha hc hx hr⟩
  · refine ⟨fun h => ?_, fun h => ⟨_, phaseEnd_over hx.context hp h, ?_, ?_, ?_⟩⟩
    · refine ⟨_, p.slotPast ((s.partOf n).flatMap (s.sends p)), transferPhaseSlot_passes hx.context hp h,
        (mapCtx_proj State.mem (fun _ _ => rfl) _ _ _).trans ?_, ?_,
        rfl, rfl, rfl, fun b hb hlt => ?_⟩
      · exact slotMoved_proj State.mem fun _ _ _ _ => rfl
      · rw [tfind_mapCtx_same, slotMoved_proj State.contexts fun _ _ _ _ => rfl, hx.context]
        rfl
      · exact List.mem_append_left _ (List.mem_filter.mpr ⟨hb, decide_eq_true hlt⟩)
    · exact mapCtx_proj State.mem (fun _ _ => rfl) _ _ _
    · exact mapCtx_proj State.core (fun _ _ => rfl) _ _ _
    · rw [tfind_mapCtx_same, hx.context]
      rfl

end Sys2Proof.Proofs
end

section
/-! SUPPORT. Barriers, sleep, wake and time (R362 to R365). -/

namespace Sys2Proof.Machine

open Sys2Proof

/-! ### What the instruction in issue waits for shows in the core in focus alone -/

/-- A store into a line of an open interval changes the write log alone. -/
theorem logWrite_frame (s : State) (n key : Nat) :
    s.logWrite n key = { s with logs := (s.logWrite n key).logs, logNotice := (s.logWrite n key).logNotice } := by
  unfold State.logWrite
  split
  · rfl
  · split
    · rfl
    · split
      · rfl
      · rfl

/-- An entry that is written changes memory, the write log and the counters alone. -/
theorem setFut_frame (s : State) (n i : Nat) (e : FutEntry) :
    s.setFut n i e =
      { s with
        mem := (s.setFut n i e).mem, poisoned := (s.setFut n i e).poisoned, logs := (s.setFut n i e).logs
        logNotice := (s.setFut n i e).logNotice, counters := (s.setFut n i e).counters, fresh := (s.setFut n i e).fresh } := by
  unfold State.setFut State.putBytes
  rw [countAt_frame, logWrite_frame]

section Blind
variable (s : State) (f : Core → Core)

theorem countCtx_upd (ctx idx n : Nat) : (s.upd f).countCtx ctx idx n = (s.countCtx ctx idx n).upd f := by
  unfold State.countCtx
  rw [State.upd_contexts]
  cases tfind ctx s.contexts with
  | none => rfl
  | some x => rfl

theorem countHbm_upd (ctx : Nat) : (s.upd f).countHbm ctx = (s.countHbm ctx).upd f := by
  unfold State.countHbm
  dsimp only
  rw [← countCtx_upd, ← countCtx_upd]
  rfl

theorem countAt_upd (ctx pa : Nat) : (s.upd f).countAt ctx pa = (s.countAt ctx pa).upd f := by
  unfold State.countAt
  split
  · exact countHbm_upd s f ctx
  · exact countCtx_upd s f ctx 4 128

theorem logWrite_upd (n key : Nat) : (s.upd f).logWrite n key = (s.logWrite n key).upd f := by
  unfold State.logWrite
  rw [State.upd_contexts]
  cases tfind n s.contexts with
  | none => rfl
  | some x =>
    dsimp only
    rw [State.upd_logs]
    split
    · rfl
    split
    · rfl
    · rfl

theorem setFut_upd (n i : Nat) (e : FutEntry) : (s.upd f).setFut n i e = (s.setFut n i e).upd f := by
  have haddr : (s.upd f).futAddr n i = s.futAddr n i := rfl
  have hput (t : State) (key : Nat) (b : List Byte) : (t.upd f).putBytes key b = (t.putBytes key b).upd f := rfl
  unfold State.setFut
  rw [haddr, logWrite_upd, hput, countAt_upd]

theorem waitList_upd (m r : Nat) : (s.upd f).waitList m r = s.waitList m r := by
  induction m generalizing r with
  | zero => rfl
  | succ m ih =>
    unfold State.waitList
    rw [State.upd_waiters]
    cases tfind r s.waiters with
    | none => rfl
    | some w => exact congrArg (r :: ·) (ih w.next)

/-- The waiter records when the list of a future is built again, and its entry. -/
def State.relinked (s : State) (l : List Nat) : Tab WaitRec :=
  s.waiters.map fun p =>
    if l.contains p.1 then (p.1, { p.2 with next := match l.dropWhile (· ≠ p.1) with | _ :: y :: _ => y | _ => 0 }) else p

def State.relinkedEntry (s : State) (ctx i : Nat) (l : List Nat) : FutEntry :=
  { s.fut ctx i with nwait := l.length, whead := l.headD 0, wtail := l.getLastD 0 }

theorem relink_eq (ctx i : Nat) (l : List Nat) :
    s.relink ctx i l = ({ s with waiters := s.relinked l } : State).setFut ctx i
      (({ s with waiters := s.relinked l } : State).relinkedEntry ctx i l) := rfl

theorem relink_upd (ctx i : Nat) (l : List Nat) : (s.upd f).relink ctx i l = (s.relink ctx i l).upd f := by
  rw [relink_eq, relink_eq, ← setFut_upd]
  rfl

theorem unwait_upd (ctx i n : Nat) : (s.upd f).unwait ctx i n = (s.unwait ctx i n).upd f := by
  unfold State.unwait
  dsimp only
  rw [waitList_upd, relink_upd]
  rfl

end Blind

/-- The core while it arrives at a barrier. -/
def Core.arrives (k : Core) : Core := { k with arriving := true }

theorem freeJournal_arrives (k : Core) (c : Cause) : k.arrives.freeJournal c = (k.freeJournal c).arrives := by
  unfold Core.freeJournal
  split
  · rfl
  · rfl

theorem abandon_arrives (k : Core) : k.arrives.abandon = k.abandon := by
  have hheld : k.arrives.held = k.held := rfl
  unfold Core.abandon
  rw [hheld]
  cases k.held with
  | none => rfl
  | some h =>
    cases h with
    | waiting => rfl
    | done v => rfl
    | failed c v =>
      dsimp only
      rw [freeJournal_arrives]
      rfl

theorem pendAsync_arrives (k : Core) (c : Cause) (v : Word) : k.arrives.pendAsync c v = (k.pendAsync c v).arrives := by
  unfold Core.pendAsync
  by_cases h : k.asyncs.length < 8
  · have h' : k.arrives.asyncs.length < 8 := h
    rw [if_pos h, if_pos h']
    rfl
  · have h' : ¬k.arrives.asyncs.length < 8 := h
    rw [if_neg h, if_neg h']
    rfl

theorem deferHit_arrives (k : Core) : k.arrives.deferHit = k.deferHit.arrives := by
  have hhit : k.arrives.wpHit = k.wpHit := rfl
  unfold Core.deferHit
  rw [hhit]
  cases k.wpHit with
  | none => rfl
  | some h =>
    dsimp only
    rw [pendAsync_arrives]
    rfl

theorem enterHandler_arrives (k : Core) (c : Cause) (async : Bool) (gang : Option Stow) (pc v : Word) :
    k.arrives.enterHandler c async gang pc v = k.enterHandler c async gang pc v := by
  unfold Core.enterHandler
  rw [abandon_arrives]
  rfl

theorem unwait_cur (s : State) (ctx i n : Nat) : (s.unwait ctx i n).cur = s.cur := by
  unfold State.unwait
  dsimp only
  rw [relink_eq, setFut_frame]

theorem unsleep_cur (s : State) (c : CoreId) : (s.unsleep c).cur = s.cur := by
  unfold State.unsleep
  dsimp only
  split
  · unfold State.setCore
    split
    · exact unwait_cur s _ _ _
    · exact unwait_cur s _ _ _
  · rfl

theorem unsleep_arrives (s : State) : (s.upd Core.arrives).unsleep s.cur = (s.unsleep s.cur).upd Core.arrives := by
  have hcore : (s.upd Core.arrives).getCore s.cur = s.core.arrives := getCore_cur (s.upd Core.arrives)
  have hs : s.core.arrives.sleeping = s.core.sleeping := rfl
  have hx : s.core.arrives.context = s.core.context := rfl
  unfold State.unsleep
  rw [hcore, getCore_cur]
  dsimp only
  rw [hs, hx]
  cases s.core.sleeping with
  | none => rfl
  | some i =>
    cases s.core.context with
    | none => rfl
    | some n =>
      dsimp only
      rw [unwait_upd]
      unfold State.setCore
      rw [State.upd_cur, if_pos (unwait_cur s _ _ _).symm, if_pos (unwait_cur s _ _ _).symm]
      rfl

/-- The entry of a core in no gang that arrives at a barrier is that of the core before its arrival. -/
theorem enterCore_arrives (s : State) (c : Cause) (async : Bool) (pc at_ raised v : Word) :
    (s.upd Core.arrives).enterCore s.cur c async none pc at_ raised v = s.enterCore s.cur c async none pc at_ raised v := by
  have hcore : ((s.unsleep s.cur).upd Core.arrives).getCore s.cur = ((s.unsleep s.cur).getCore s.cur).arrives := by
    have hcur := unsleep_cur s s.cur
    have h := getCore_cur ((s.unsleep s.cur).upd Core.arrives)
    rw [State.upd_cur, hcur] at h
    have hget := getCore_cur (s.unsleep s.cur)
    rw [hcur] at hget
    exact h.trans (congrArg Core.arrives hget.symm)
  unfold State.enterCore
  dsimp only
  rw [unsleep_arrives, hcore, deferHit_arrives]
  generalize ((s.unsleep s.cur).getCore s.cur).deferHit = k
  have hdouble : k.arrives.doubleTrap async = k.doubleTrap async := rfl
  have hset (x : Core) : ((s.unsleep s.cur).upd Core.arrives).setCore s.cur x = (s.unsleep s.cur).setCore s.cur x := by
    unfold State.setCore
    rw [State.upd_cur, if_pos (unsleep_cur s s.cur).symm, if_pos (unsleep_cur s s.cur).symm]
    rfl
  rw [hdouble]
  cases k.doubleTrap async with
  | some d =>
    dsimp only
    rw [abandon_arrives, hset]
    rfl
  | none =>
    dsimp only
    rw [hset, State.upd_cur, freeJournal_arrives]
    split
    · rw [enterHandler_arrives]
      rfl
    · rw [enterHandler_arrives]
      rfl

theorem trap_arrives {s : State} (hq : s.core.quiet) (hc : Claims.Calm s) (c : Cause) (v : Word) :
    (s.upd Core.arrives).trap c v = s.trap c v := by
  have hcalm : Claims.Calm (s.upd Core.arrives) := ⟨hc.loop, hc.buffer, hc.out⟩
  refine (trapFrom_calm (s := s.upd Core.arrives) hq hcalm c false _ _ _).trans ?_
  refine Eq.trans ?_ (trapFrom_calm hq hc c false _ _ _).symm
  exact congrArg (fun t : State => Host.Outcome.next t.rotateIfStopped) (enterCore_arrives s c false _ _ _ v)

/-! ### The arrival -/

theorem stationBit_eq (s : State) : stationBit s.cur = Claims.ownBit s := by
  refine BitVec.eq_of_toNat_eq ?_
  simp [stationBit, Claims.ownBit, stationOf, Nat.shiftLeft_eq]

theorem ownBit_ne_zero (s : State) : Claims.ownBit s ≠ 0#16 := by
  intro h
  have hbit := congrArg (·.getLsbD (s.cur % 16)) h
  have hlt : s.cur % 16 < 16 := Nat.mod_lt _ (by decide)
  simp [Claims.ownBit, hlt] at hbit

theorem badMask_iff (s : State) (q : BitVec 16) : s.badMask q = true ↔ ¬Claims.goodMask s q := by
  simp only [State.badMask, Claims.goodMask, clusterOf, stationOf, Nat.mul_comm 16]
  simp only [Bool.or_eq_true, Bool.not_eq_true', List.any_eq_true, List.mem_range, Bool.and_eq_true, not_and_or,
    Bool.not_eq_true, not_forall, exists_prop]

section Arrive
variable {b : Barrier} {q bit : BitVec 16} (h : b.arrived = 0#16 ∨ b.mask = q)
include h

/-- The mask of the generation that an arrival joins or begins. -/
theorem arrive_mask : (if b.arrived = 0#16 then q else b.mask) = q := by
  split
  · rfl
  next hne => exact h.resolve_left hne

theorem arrive_completes (hall : (b.arrived ||| bit) &&& q = q) :
    b.arrive q bit = { b with mask := q, arrived := 0#16, gen := b.gen + 1 } := by
  unfold Barrier.arrive
  dsimp only
  rw [arrive_mask h, if_pos hall]

theorem arrive_joins (hsome : (b.arrived ||| bit) &&& q ≠ q) :
    b.arrive q bit = { b with mask := q, arrived := b.arrived ||| bit } := by
  unfold Barrier.arrive
  dsimp only
  rw [arrive_mask h, if_neg hsome]

end Arrive

section ArriveAt
variable {s : State} {n : Nat} {q : BitVec 16} (body : Barrier → Out)

theorem arriveAt_badMask (h : ¬Claims.goodMask s q) : s.arriveAt n q body = s.trap 0x349#10 0#64 :=
  if_pos ((badMask_iff s q).mpr h)

theorem arriveAt_otherMask (h : Claims.goodMask s q) (harr : (s.barrier (s.cur / 16) n).arrived ≠ 0#16)
    (hmask : (s.barrier (s.cur / 16) n).mask ≠ q) : s.arriveAt n q body = s.trap 0x348#10 0#64 :=
  (if_neg fun hbad => (badMask_iff s q).mp hbad h).trans (if_pos ⟨harr, hmask⟩)

theorem arriveAt_settled (hs : Claims.Settled s) (h : Claims.goodMask s q)
    (hb : (s.barrier (s.cur / 16) n).arrived = 0#16 ∨ (s.barrier (s.cur / 16) n).mask = q) :
    s.arriveAt n q body = body ((s.barrier (s.cur / 16) n).arrive q (Claims.ownBit s)) := by
  refine (if_neg fun hbad => (badMask_iff s q).mp hbad h).trans ((if_neg fun hb' => ?_).trans ?_)
  · exact hb.elim hb'.1 hb'.2
  · rw [released_settled hs, stationBit_eq]
    rfl

end ArriveAt

/-! ### BAR and BARNW -/

/-- Nothing of a barrier stands for the station of the core in focus. -/
structure Unarrived (s : State) (n : BitVec 2) : Prop where
  pending : (Claims.barrierOf s n).pending &&& Claims.ownBit s = 0#16
  waiting : (Claims.barrierOf s n).waiting &&& Claims.ownBit s = 0#16

theorem and_not_of_and {w : Nat} {x b : BitVec w} (h : x &&& b = 0#w) : x &&& ~~~b = x := by
  refine BitVec.eq_of_getLsbD_eq fun i hi => ?_
  have hbit : (x.getLsbD i && b.getLsbD i) = false := by
    rw [← BitVec.getLsbD_and, h, BitVec.getLsbD_zero]
  rw [BitVec.getLsbD_and, BitVec.getLsbD_not, decide_eq_true hi]
  cases hx : x.getLsbD i with
  | false => rfl
  | true => simpa [hx] using hbit

theorem barrierOf_setBarrier (s : State) (n : BitVec 2) (b : Barrier) :
    Claims.barrierOf (s.setBarrier (s.cur / 16) n.toNat b) n = b := by
  show tget n.toNat (tget (s.cur / 16) (tset (s.cur / 16) _ s.clusters) {}).barriers {} = b
  rw [tget_tset_same]
  exact tget_tset_same ..

section Bar
variable {s : State} {a : Reg} {n : BitVec 2} {q : BitVec 16} (ha : Claims.Alone s) (hs : Claims.Settled s)
  (hr : s.core.ready { ss := [(a, 0)] } = true) (hq : (s.src a 0).truncate 16 = q) (hu : Unarrived s n)
include ha hs hr hq hu

theorem bar_arrives : exec (.bar a n) s =
    (s.upd Core.arrives).arriveAt n.toNat q fun b => s.barEnd n.toNat b := by
  subst hq
  refine (issue_ordered_calm ha (settled_calm hs) hr _).trans (if_neg ?_)
  have hp : Claims.ownBit s &&& (s.barrier (clusterOf s.cur) n.toNat).pending = 0#16 := (BitVec.and_comm ..).trans hu.pending
  have hw : Claims.ownBit s &&& (s.barrier (clusterOf s.cur) n.toNat).waiting = 0#16 := (BitVec.and_comm ..).trans hu.waiting
  rw [not_not, stationBit_eq, BitVec.and_comm, BitVec.and_or_distrib_left, hp, hw]
  rfl

theorem barnw_arrives : exec (.barnw a n) s =
    s.arriveAt n.toNat q fun b =>
      .next (s.setBarrier (s.cur / 16) n.toNat { b with pending := b.pending ||| Claims.ownBit s }).advance := by
  subst hq
  refine (issue_ordered_calm ha (settled_calm hs) hr _).trans ((if_neg ?_).trans ?_)
  · rw [not_not, stationBit_eq]
    exact hu.pending
  · rw [stationBit_eq]
    rfl

end Bar

/-- The arrival of BAR that completes the generation. -/
theorem barEnd_completed {s : State} (ha : Claims.Alone s) (n : BitVec 2) {b : Barrier} (hb : b.arrived = 0#16)
    (hp : b.pending &&& Claims.ownBit s = 0#16) (hw : b.waiting &&& Claims.ownBit s = 0#16) :
    s.barEnd n.toNat b =
      .next (Claims.ends (Claims.forgets (s.setBarrier (s.cur / 16) n.toNat b) .clu)
        (Claims.forgets (s.setBarrier (s.cur / 16) n.toNat b) .clu).core) := by
  have hkeep : { b with pending := b.pending &&& ~~~Claims.ownBit s, waiting := b.waiting &&& ~~~Claims.ownBit s } = b := by
    rw [and_not_of_and hp, and_not_of_and hw]
  unfold State.barEnd
  dsimp only
  rw [stationBit_eq, if_pos (by rw [hb, BitVec.zero_and]), hkeep, acquired_eq_forgets]
  exact congrArg Host.Outcome.next (advance_alone (forgets_quiet (s := s.setBarrier _ _ _) ha.quiet .clu))

/-- The arrival of BAR that has others to wait for. -/
theorem barEnd_waiting {s : State} (ha : Claims.Alone s) (n : BitVec 2) {b : Barrier} {x : BitVec 16}
    (hb : b.arrived = x ||| Claims.ownBit s) :
    s.barEnd n.toNat b =
      .next ((s.setBarrier (s.cur / 16) n.toNat { b with waiting := b.waiting ||| Claims.ownBit s }).upd
        Core.putToWait).rotate := by
  have habsorb : b.arrived &&& Claims.ownBit s = Claims.ownBit s := by
    rw [hb]
    refine BitVec.eq_of_getLsbD_eq fun i _ => ?_
    rw [BitVec.getLsbD_and, BitVec.getLsbD_or]
    cases x.getLsbD i <;> cases (Claims.ownBit s).getLsbD i <;> rfl
  unfold State.barEnd
  dsimp only
  rw [stationBit_eq, if_neg (by rw [habsorb]; exact ownBit_ne_zero s)]
  exact waits_quiet (s := s.setBarrier _ _ _) ha.quiet

theorem pc_setBarrier_waits (s : State) (n : Nat) (b : Barrier) :
    (((s.setBarrier (s.cur / 16) n b).upd Core.putToWait).rotate.getCore s.cur).pc = s.core.pc :=
  (congrArg Core.pc (getCore_waits (s.setBarrier (s.cur / 16) n b)) :)

/-! ### SLEEP, WAKE and TIME -/

/-- The core with its SLEEP over. -/
def Core.rested (k : Core) (wake : Bool) : Core := { k with wake := wake, slept := false, sleepUntil := none }

/-- The core asleep until t. -/
def Core.sleeps (t : Nat) (k : Core) : Core := { k with sleepUntil := some t }

section Sleep
variable {s : State} {d a : Reg} (ha : Claims.Alone s) (hc : Claims.Calm s)
include ha

theorem sleepEnd_alone (d : Reg) (x : Word) (wake : Bool) :
    s.sleepEnd d x wake = .next (Claims.ends s ((s.core.rested wake).writeS d x)) :=
  congrArg Host.Outcome.next (setS_upd_advance (f := fun k => k.rested wake) ha.quiet rfl d x)

include hc

theorem sleep_slept (hr : s.core.ready { ss := [(a, 0)], ds := [d] } = true) (h : s.core.slept = true) :
    exec (.sleep d a) s = .next (Claims.ends s ((s.core.rested s.core.wake).writeS d 0#64)) :=
  (issue_ordered_calm ha hc hr _).trans ((if_pos h).trans (sleepEnd_alone ha d _ _))

theorem sleep_woken (hr : s.core.ready { ss := [(a, 0)], ds := [d] } = true) (h : s.core.slept = false)
    (hw : s.core.wake = true) : exec (.sleep d a) s = .next (Claims.ends s ((s.core.rested false).writeS d 1#64)) :=
  (issue_ordered_calm ha hc hr _).trans ((if_neg (by simp [h])).trans ((if_pos hw).trans (sleepEnd_alone ha d _ _)))

theorem sleep_past (hr : s.core.ready { ss := [(a, 0)], ds := [d] } = true) (h : s.core.slept = false)
    (hw : s.core.wake = false) (ht : s.src a 0 ≠ 0#64) (hle : (s.src a 0).toNat ≤ s.time) :
    exec (.sleep d a) s = .next (Claims.ends s ((s.core.rested s.core.wake).writeS d 0#64)) := by
  have hzero : (s.src a 0).toNat ≠ 0 := fun h0 => ht (BitVec.eq_of_toNat_eq h0)
  rw [hw]
  exact (issue_ordered_calm ha hc hr _).trans ((if_neg (by simp [h])).trans ((if_neg (by simp [hw])).trans
    ((if_pos ⟨hzero, hle⟩).trans (sleepEnd_alone ha d _ _))))

theorem sleep_sleeps (hr : s.core.ready { ss := [(a, 0)], ds := [d] } = true) (h : s.core.slept = false)
    (hw : s.core.wake = false) (ht : s.src a 0 = 0#64 ∨ s.time < (s.src a 0).toNat) :
    exec (.sleep d a) s =
      .next ((s.upd (Core.sleeps (s.src a 0).toNat)).upd Core.putToWait).rotate := by
  have hlate : ¬((s.src a 0).toNat ≠ 0 ∧ (s.src a 0).toNat ≤ s.time) := by
    rintro ⟨hne, hle⟩
    rcases ht with h0 | hlt
    · exact hne (by rw [h0]; rfl)
    · omega
  exact (issue_ordered_calm ha hc hr _).trans ((if_neg (by simp [h])).trans ((if_neg (by simp [hw])).trans
    ((if_neg hlate).trans (waits_quiet (s := s.upd (Core.sleeps (s.src a 0).toNat)) ha.quiet))))

/-- The core woken. -/
def Core.wakes (k : Core) : Core := { k with wake := true }

theorem wake_stranger (hr : s.core.ready { ss := [(a, 0)] } = true) {c : CoreId} (hv : (s.src a 0).toNat % 4096 = c)
    (h : s.isPeer c = false) : exec (.wake a) s = s.trap 0x34A#10 0#64 := by
  subst hv
  exact (issue_ordered_calm ha hc hr _).trans (if_neg (by rw [wfield_zero]; simp [h]))

theorem wake_peer (hr : s.core.ready { ss := [(a, 0)] } = true) {c : CoreId} (hv : (s.src a 0).toNat % 4096 = c)
    (h : s.isPeer c = true) :
    exec (.wake a) s = .next (Claims.ends (s.mapCore c Core.wakes) (s.mapCore c Core.wakes).core) := by
  have hq : (s.mapCore c Core.wakes).core.quiet := by
    have hkeep := mapCore_core_proj (f := Core.wakes) (fun k => (k.gang, k.wpHit, k.stepping, k.routine))
      (fun _ => rfl) s c
    simp only [Prod.mk.injEq] at hkeep
    obtain ⟨hg, hh, hs, hrt⟩ := hkeep
    obtain ⟨qg, qh, qs, qr⟩ := ha.quiet
    exact ⟨hg.trans qg, hh.trans qh, hs.trans qs, hrt.trans qr⟩
  have hfield : wfield (s.src a 0) 0 12 = c := (wfield_zero _ _).trans hv
  refine (issue_ordered_calm ha hc hr _).trans ?_
  rw [hfield]
  exact (if_pos h).trans (congrArg Host.Outcome.next (advance_alone hq))

omit ha hc in
theorem wake_wakes (s : State) (c : CoreId) :
    ((Claims.ends (s.mapCore c Core.wakes) (s.mapCore c Core.wakes).core).getCore c).wake = true := by
  have hmapped : ((s.mapCore c Core.wakes).getCore c).wake = true := by rw [getCore_mapCore_same]; rfl
  by_cases hcur : c = (s.mapCore c Core.wakes).cur
  · refine (congrArg Core.wake (if_pos hcur)).trans (Eq.trans (b := (s.mapCore c Core.wakes).core.wake) rfl ?_)
    exact (congrArg Core.wake ((congrArg (s.mapCore c Core.wakes).getCore hcur).trans (getCore_cur _))).symm.trans hmapped
  · exact (congrArg Core.wake ((if_neg hcur).trans (if_neg hcur).symm)).trans hmapped

theorem time_reads (hr : s.core.ready { ds := [d] } = true) :
    exec (.time d) s = .next (Claims.ends s (s.core.writeS d (BitVec.ofNat 64 s.time))) :=
  (issue_ordered_calm ha hc hr _).trans (congrArg Host.Outcome.next (setS_advance_alone ha d _))

end Sleep

theorem sleepDeadline_reached {s : State} {c t : Nat} (h : (s.getCore c).sleepUntil = some t) (h0 : t ≠ 0) (ht : t ≤ s.time)
    (hw : (s.getCore c).wake = false) (hs : (s.getCore c).slept = false) :
    exec (.sleepDeadline c) s = .next (s.setCore c { s.getCore c with slept := true }) := by
  show execSleepDeadline c s = _
  unfold execSleepDeadline
  dsimp only
  rw [h]
  exact if_pos ⟨h0, ht, by simp [hw], by simp [hs]⟩

end Sys2Proof.Machine

namespace Sys2Proof.Proofs

open Sys2Proof Sys2Proof.Machine

/-- An XMIT, an XRECV or an XEND of a phase goes on, with memory as it was. -/
theorem phaseCompletes : Claims.PhaseCompletes := by
  unfold Claims.PhaseCompletes
  intro s n x k y ha hc hx hk hy
  have hin {t : Nat} (ht : t < y.slots.length) : Claims.inSchedule s t := ⟨k, y, hk, hy, ht⟩
  have hslot {c : BitVec 4} {m : Nat} {out : Bool}
      (hkind : Claims.kind (tget c.toNat s.core.bindings (0#64, 0#64)) = 2)
      (hsends : Claims.sends (tget c.toNat s.core.bindings (0#64, 0#64)) = out)
      (hm : m ≤ (tget c.toNat s.core.bindings (0#64, 0#64)).1.toNat / 2 ^ 32 % 64)
      (hsched : (tget c.toNat s.core.bindings (0#64, 0#64)).2.toNat / 2 ^ 56 % 4 = k) :
      Claims.transmit.channelSlot s c out m =
        some ((tget c.toNat s.core.bindings (0#64, 0#64)).2.toNat / 2 ^ 32 % 256 +
          m * ((tget c.toNat s.core.bindings (0#64, 0#64)).2.toNat / 2 ^ 40 % 256)) :=
    if_pos ⟨hkind, hsends, hm, hk.trans (congrArg some hsched.symm)⟩
  have hsend {i : Instr} {b : Reg} {t : Nat} (hi : Claims.transmit s i = some (b, t))
      (hr : s.core.ready { vs := [(b, 0)] } = true) (ht : t < y.slots.length) (hp : Claims.past x t)
      (hat : s.core.xmitSent = true ∨ tfind t s.core.xmitAt = none) :
      ∃ u, exec i s = .next u ∧ Claims.stepped s u ∧ u.mem = s.mem := by
    rw [transmit_calm ha hc hi hr]
    cases hs : s.core.xmitSent with
    | true => exact ⟨_, xmitAtSlot_sent ha hx (hin ht) hs _, rfl, rfl⟩
    | false => exact ⟨_, xmitAtSlot_late ha hx (hin ht) hp hs (hat.resolve_left (by simp [hs])) _, rfl, rfl⟩
  have hreceive {i : Instr} {d : Reg} {t : Nat} (hi : Claims.receives s i = some (d, t))
      (hr : s.core.ready { dv := [d] } = true) (ht : t < y.slots.length) :
      ∃ u, exec i s = .next u ∧ Claims.stepped s u ∧ u.mem = s.mem := by
    rw [receives_calm ha hc hi hr]
    by_cases hp : Claims.past x t
    · cases hv : tfind t s.core.recvBeats with
      | some v => exact ⟨_, xrecvAtSlot_beat ha hx (hin ht) hp hv d, rfl, rfl⟩
      | none => exact ⟨_, xrecvAtSlot_nothing ha hx (hin ht) hp hv d, rfl, rfl⟩
    · have hearly : ∃ p, x.phase = some p ∧ p.next ≤ t := by
        simpa [Claims.past] using hp
      exact ⟨_, xrecvAtSlot_early ha hx (hin ht) hearly d, rfl, rfl⟩
  refine ⟨fun h b l hr => ⟨fun ht hp hat => hsend rfl hr ht hp hat, ?_⟩,
    fun d h l hr => ⟨fun ht => hreceive rfl hr ht, ?_⟩,
    fun d hr hp => ⟨_, xend_over ha hc hx hr (by simp [hk]) hp, rfl, ?_, rfl⟩⟩
  · intro c w t' hkind hsends hm hsched ht hp hat
    exact hsend (congrArg (Option.map _) (hslot hkind hsends hm hsched)) hr ht hp hat
  · intro c w t' hkind hsends hm hsched ht
    exact hreceive (congrArg (Option.map _) (hslot hkind hsends hm hsched)) hr ht
  · show ((s.core.xended).writeS d _).inPhase = none
    rw [Core.writeS_inPhase]
    rfl

/-- Settles O37: an arrival is refused, waits or completes its generation as the three cases of the mask say, and the other
instructions end as their rules above say. -/
theorem barriersAndSleep : Obligations.BarriersAndSleep := by
  unfold Obligations.BarriersAndSleep
  refine ⟨phaseCompletes, fun s ha hs => ?_⟩
  have hc := settled_calm hs
  refine ⟨?_, fun d a hr => ⟨fun h => sleep_slept ha hc hr h, fun h hw => sleep_woken ha hc hr h hw,
    fun h hw ht hle => sleep_past ha hc hr h hw ht hle, fun h hw ht => ⟨_, sleep_sleeps ha hc hr h hw ht, ?_⟩⟩,
    fun a hr => ⟨fun h => wake_stranger ha hc hr rfl h, fun h => ⟨_, wake_peer ha hc hr rfl h, ?_, ?_, ?_⟩⟩,
    fun d hr => time_reads ha hc hr, fun c t ht h0 hle hw hsl => ⟨_, sleepDeadline_reached ht h0 hle hw hsl, ?_, ?_⟩⟩
  · intro a n hr q b bit hpend hwait
    have hu : Unarrived s n := ⟨hpend, hwait⟩
    have hs' : Claims.Settled (s.upd Core.arrives) :=
      ⟨hs.loop, hs.buffer, hs.queue, hs.jobs, hs.journal, hs.loads, hs.stores⟩
    have hbar := bar_arrives ha hs hr rfl hu
    have hbarnw := barnw_arrives ha hs hr rfl hu
    refine ⟨fun hbad => ?_, fun hgood harr hmask => ?_, fun hgood hb => ?_⟩
    · exact ⟨hbar.trans ((arriveAt_badMask (s := s.upd Core.arrives) _ hbad).trans (trap_arrives ha.quiet hc _ _)),
        hbarnw.trans (arriveAt_badMask _ hbad)⟩
    · exact ⟨hbar.trans ((arriveAt_otherMask (s := s.upd Core.arrives) _ hgood harr hmask).trans
          (trap_arrives ha.quiet hc _ _)),
        hbarnw.trans (arriveAt_otherMask _ hgood harr hmask)⟩
    · replace hbar := hbar.trans (arriveAt_settled (s := s.upd Core.arrives) _ hs' hgood hb)
      replace hbarnw := hbarnw.trans (arriveAt_settled _ hs hgood hb)
      refine ⟨fun hall => ?_, fun hsome => ?_⟩
      · have hdone := arrive_completes hb hall
        refine ⟨⟨_, hbar.trans ((congrArg (s.barEnd n.toNat) hdone).trans (barEnd_completed ha n rfl hpend hwait)),
          rfl, rfl, rfl, barrierOf_setBarrier s n _⟩, ?_⟩
        refine ⟨_, hbarnw.trans (congrArg Host.Outcome.next (advance_alone (s := s.setBarrier _ _ _) ha.quiet)), rfl, rfl, ?_⟩
        refine (barrierOf_setBarrier s n _).trans ?_
        exact congrArg (fun x : Barrier => { x with pending := x.pending ||| Claims.ownBit s }) hdone
      · have hjoin := arrive_joins hb hsome
        refine ⟨⟨_, hbar.trans ((congrArg (s.barEnd n.toNat) hjoin).trans (barEnd_waiting ha n rfl)), ?_, ?_⟩, ?_⟩
        · exact pc_setBarrier_waits s n.toNat _
        · rw [rotate_proj State.clusters fun _ _ _ _ => rfl]
          exact congrArg Barrier.arrived (barrierOf_setBarrier s n _)
        refine ⟨_, hbarnw.trans (congrArg Host.Outcome.next (advance_alone (s := s.setBarrier _ _ _) ha.quiet)), rfl, ?_⟩
        refine (barrierOf_setBarrier s n _).trans ?_
        exact congrArg (fun x : Barrier => { x with pending := x.pending ||| Claims.ownBit s }) hjoin
  · exact getCore_waits (s.upd (Core.sleeps (s.src a 0).toNat))
  · exact congrArg (· + 4#64) (mapCore_core_proj (f := Core.wakes) Core.pc (fun _ => rfl) s _)
  · exact wake_wakes s _
  · exact mapCore_mem s _ _
  · rw [getCore_setCore_same]
  · exact setCore_mem s c _

end Sys2Proof.Proofs
end

section
/-! SUPPORT. The SYS instructions (R376, R383, R389, R408 to R411). -/

namespace Sys2Proof.Machine

open Sys2Proof

/-! ### What only system mode executes -/

section SystemOnly
variable {s : State} {n : Names} (ha : Claims.Alone s) (hc : Claims.Calm s) (hr : s.core.ready n = true) (body : State → Out)
include ha hc hr

theorem issue_systemOnly_system (h : s.core.system = true) : s.issue n (s.systemOnly body) = body s :=
  (issue_ordered_calm ha hc hr _).trans (if_pos h)

theorem issue_systemOnly_user (h : s.core.system = false) : s.issue n (s.systemOnly body) = s.trapOpen 0x1C6#10 :=
  (issue_ordered_calm ha hc hr _).trans (if_neg (by simp [h]))

end SystemOnly

theorem systemForm_user {s : State} (ha : Claims.Alone s) (hc : Claims.Calm s) (h : s.core.system = false) {i : Instr}
    {n : Names} (hi : Claims.systemForm i = some n) (hr : s.core.ready n = true) : exec i s = s.trapOpen 0x1C6#10 := by
  unfold Claims.systemForm at hi
  split at hi <;> cases hi <;> exact issue_systemOnly_user ha hc hr _ h

/-! ### ERET and HALT -/

section Returns
variable {s : State} (ha : Claims.Alone s) (hc : Claims.Calm s)
include ha hc

omit ha hc in
theorem unsuspend_eq_resumed (k : Core) : k.unsuspend = Claims.resumed k := by
  unfold Core.unsuspend Claims.resumed
  cases k.asideMarks with
  | nil => rfl
  | cons m l => rfl

theorem eret_system (h : s.core.system = true) : exec .eret s = .next (s.upd Core.eret) := by
  refine (issue_ordered_calm (n := {}) ha hc rfl _).trans ((if_pos h).trans (congrArg Host.Outcome.next ?_))
  obtain ⟨hgang, hhit, hstep, -⟩ := ha.quiet
  have hissued : (s.upd Core.eret).issuedEret = s.upd Core.eret := by
    unfold State.issuedEret
    rw [show (s.upd Core.eret).core.gang = none from hgang]
  rw [hissued]
  exact afterInstr_ends hhit hstep

theorem eret_loader (h : s.core.system = false) (hl : s.core.klstate.getLsbD 63 = true) :
    exec .eret s =
      .next (Claims.endsAt s { Claims.resumed s.core with klstate := s.core.klstate &&& 0x7FFFFFFFFFFFFFFF#64 }
        (Claims.codeAddress s.core.klstate)) := by
  refine (issue_ordered_calm (n := {}) ha hc rfl _).trans ((if_neg (by simp [h])).trans ((if_pos hl).trans ?_))
  rw [← unsuspend_eq_resumed]
  exact congrArg Host.Outcome.next
    (goto_alone (s := s.upd fun k => { k.unsuspend with klstate := k.klstate &&& 0x7FFFFFFFFFFFFFFF#64 }) ha.quiet _)

theorem eret_user (h : s.core.system = false) (hl : s.core.klstate.getLsbD 63 = false) :
    exec .eret s = s.trapOpen 0x1C6#10 :=
  (issue_ordered_calm (n := {}) ha hc rfl _).trans ((if_neg (by simp [h])).trans
    (if_neg fun ht => Bool.false_ne_true (hl.symm.trans ht)))

/-- The state that HALT leaves, but for its notification record. -/
def State.halted (s : State) : State := (Claims.ends s s.core).upd fun k => k.stopAt s.cur 5 k.pc

theorem halt_system (h : s.core.system = true) :
    exec .halt s =
      .next (match s.core.context with | some n => s.halted.notify n 6 0 0 s.cur | none => s.halted).rotate := by
  refine (issue_systemOnly_system (n := {}) ha hc rfl _ h).trans ?_
  rw [advance_alone ha.quiet]
  rfl

omit ha hc in
theorem getCore_halted (s : State) (d : CoreId) :
    (match s.core.context with | some n => s.halted.notify n 6 0 0 s.cur | none => s.halted).rotate.getCore d =
      s.halted.getCore d := by
  rw [getCore_rotate]
  cases s.core.context with
  | none => rfl
  | some n => exact getCore_notify ..

end Returns

/-! ### TLBINV and ACCT -/

section Tlbinv
variable {s : State} {a : Reg} (ha : Claims.Alone s) (hs : Claims.Settled s)
  (hr : s.core.ready { ss := [(a, 0)] } = true) (hsys : s.core.system = true) (m : BitVec 12)
include ha hs hr hsys

theorem tlbinv_acknowledged (h : s.core.tlbinv = some 0) :
    exec (.tlbinv a m) s = .next (Claims.ends s { s.core with tlbinv := none }) := by
  refine (issue_systemOnly_system ha (settled_calm hs) hr _ hsys).trans ?_
  rw [h]
  exact congrArg Host.Outcome.next (advance_upd_alone (f := fun k => { k with tlbinv := none }) ha.quiet rfl)

/-- The core while its invalidations are under way. -/
def Core.invalidates (k : Core) : Core := { k with tlbinv := some 160 }

theorem tlbinv_sends (h : s.core.tlbinv = none) {n : Nat} (hx : s.core.context = some n) :
    exec (.tlbinv a m) s =
      .next ((s.shootDown s.cur n (if m = 0#12 then some (s.src a 0).toNat else none)).upd Core.invalidates).rotate := by
  refine (issue_systemOnly_system ha (settled_calm hs) hr _ hsys).trans ?_
  rw [h]
  refine (released_settled hs _ _).trans ?_
  rw [hx]
  rfl

end Tlbinv

section Acct
variable {s : State} {d a : Reg} {m : BitVec 12} {n : Nat} {x : Context} (ha : Claims.Alone s) (hx : Claims.InContext s n x)
include ha

include hx in
theorem acct_folded (hm : m ≠ 0x100#12) (hr : s.core.ready { ds := [d] } = true) :
    exec (.acct d a m) s =
      .next (Claims.ends s (s.core.writeS d (BitVec.ofNat 64 (tget (16 * x.desc.agency + m.toNat) s.folded 0)))) := by
  refine (if_neg hm).trans ((form0_ready hr ha.mesh _).trans ?_)
  rw [setS_advance_alone ha, curCtx_eq hx]

variable (hs : Claims.Settled s) (hr : s.core.ready { ss := [(a, 0)], ds := [d] } = true)
include hs hr

theorem acct_misaligned (h : (s.src a 0).toNat % 8 ≠ 0) :
    exec (.acct d a 0x100#12) s = s.trap 0x1C8#10 (s.src a 0) := by
  have hc := settled_calm hs
  refine (issue_ready hr ha.mesh _).trans ((ordered_calm hc.loop hc.buffer hc.out _).trans ((if_pos h).trans ?_))
  rw [BitVec.ofNat_toNat, BitVec.setWidth_eq]

theorem acct_stored (h : (s.src a 0).toNat % 8 = 0) (hstep : s.core.chanStep ≠ 0) :
    exec (.acct d a 0x100#12) s =
      .next (Claims.ends s (s.core.writeS d (BitVec.ofNat 64 (s.core.chanStep - 1)))) := by
  have hc := settled_calm hs
  refine (issue_ready hr ha.mesh _).trans ((ordered_calm hc.loop hc.buffer hc.out _).trans ?_)
  refine (if_neg (by simp [h])).trans ((if_pos hstep).trans ((if_pos ?_).trans ?_))
  · rw [hs.stores, settled_journalQuiet hs]
    rfl
  · rw [setS_advance_alone ha]

end Acct

end Sys2Proof.Machine

namespace Sys2Proof.Proofs

open Sys2Proof Sys2Proof.Machine

/-- Settles O40: each clause is the rule of its instruction above. -/
theorem systemInstructions : Obligations.SystemInstructions := by
  unfold Obligations.SystemInstructions
  intro s ha hs
  have hc := settled_calm hs
  refine ⟨fun h => (eret_system ha hc h).trans (congrArg Host.Outcome.next ?_), fun h hl => eret_loader ha hc h hl,
    fun h hl => eret_user ha hc h hl, fun i m hi hr h => systemForm_user ha hc h hi hr,
    fun h => ⟨_, halt_system ha hc h, ?_⟩,
    fun a m hsys hr => ⟨tlbinv_acknowledged ha hs hr hsys m,
      fun n h hx => ⟨_, tlbinv_sends ha hs hr hsys m h hx, ?_, ?_, ?_⟩⟩,
    fun d a m n x hx => ⟨fun hm hr => acct_folded ha hx hm hr,
      fun hr => ⟨acct_misaligned ha hs hr, acct_stored ha hs hr⟩⟩⟩
  · unfold State.upd Core.eret
    rw [unsuspend_eq_resumed]
    rfl
  · rw [getCore_halted]
    have hcur : s.halted.getCore s.cur = s.halted.core := getCore_cur s.halted
    rw [hcur]
    exact ⟨rfl, rfl, rfl⟩
  · exact rotate_proj State.mem (fun _ _ _ _ => rfl) _
  · exact (getCore_rotate _ _).trans (getCore_cur (State.upd _ Core.invalidates))
  · exact rotate_proj State.shootdowns (fun _ _ _ _ => rfl) _

end Sys2Proof.Proofs
end

section
/-! SUPPORT. State registers (R403 to R407, R209, R210). -/

namespace Sys2Proof.Machine

open Sys2Proof

/-! ### The registers one by one -/

theorem readReg_eq_register {s : State} {n : Nat} {x : Context} (hx : Claims.InContext s n x) :
    ∀ r ∈ Claims.registers, s.readReg r = Claims.register s x r := by
  simp only [State.readReg, curCtx_eq hx]
  refine List.forall_iff_forall_mem.mp ?_
  repeat' apply And.intro
  all_goals rfl

theorem setReg_eq_put (k : Core) (v : Word) : ∀ r ∈ Claims.registers, k.setReg r v = Claims.put k r v := by
  refine List.forall_iff_forall_mem.mp ?_
  repeat' apply And.intro
  all_goals rfl

theorem writable_eq_systemBits : ∀ r ∈ Claims.registers, writable r = Claims.systemBits r := by decide

theorem userWritable_eq_userBits : ∀ r ∈ Claims.registers, userWritable r = Claims.userBits r := by decide

theorem systemRead_eq : ∀ r ∈ Claims.registers, systemRead r = !decide (r ∈ Claims.userReads) := by decide

/-! ### A write, its checks, and the split of the scratchpad -/

/-- The value that a write gives a register: the bits that are not writable stay. -/
def State.written (s : State) (r : Nat) (v : Word) : Word :=
  (s.readReg r &&& ~~~writable r) ||| (v &&& writable r)

/-- The mode may make the write. -/
def State.mayWrite (s : State) (r : Nat) (reads : Bool) (v : Word) : Prop :=
  s.core.system = true ∨
    (s.written r v ^^^ s.readReg r) &&& ~~~userWritable r = 0#64 ∧ (reads = true → systemRead r = false)

section WriteReg
variable {s : State} {r : Nat} {reads lock : Bool} {v : Word}

theorem writeReg_locked (h : lock = true ∧ r = 0x014 ∧ s.core.loading = true) :
    s.writeReg r reads lock v = s.trap 0x18B#10 0#64 := by
  obtain ⟨hl, hr, hload⟩ := h
  exact if_pos (by rw [hl, hr, hload]; rfl)

variable (hlock : ¬(lock = true ∧ r = 0x014 ∧ s.core.loading = true))
include hlock

theorem not_locked : ¬(lock && decide (r = 0x014) && s.core.loading) = true := by
  simpa [and_assoc] using hlock

theorem writeReg_refused (h : writable r = 0#64 ∨ ¬s.mayWrite r reads v) :
    s.writeReg r reads lock v = s.trapOpen 0x1C5#10 := by
  refine (if_neg (not_locked hlock)).trans ?_
  by_cases hw : writable r = 0#64
  · exact if_pos hw
  refine (if_neg hw).trans ?_
  have hmay := h.resolve_left hw
  simp only [State.mayWrite, not_or, not_and_or, Bool.not_eq_true] at hmay
  obtain ⟨hsys, hbits | hreads⟩ := hmay
  · by_cases hr : (reads && systemRead r && !s.core.system) = true
    · exact if_pos hr
    · exact (if_neg hr).trans (if_pos (by simpa [hsys, State.written] using hbits))
  · exact if_pos (by simpa [hsys] using hreads)

theorem writeReg_allowed (hw : writable r ≠ 0#64) (h : s.mayWrite r reads v) :
    s.writeReg r reads lock v =
      if 0x100 ≤ r ∧ r ≤ 0x107 ∧ wbit (s.written r v) 2 then s.trap 0x383#10 0#64
      else if r = 0x013 then s.writeSplit (s.written r v)
      else .next (s.upd fun k => k.setReg r (s.written r v)).advance := by
  refine (if_neg (not_locked hlock)).trans ((if_neg hw).trans ((if_neg ?_).trans ((if_neg ?_).trans rfl)))
  · rcases h with hsys | ⟨-, hread⟩
    · simp [hsys]
    · cases reads with
      | false => simp
      | true => simp [hread rfl]
  · rcases h with hsys | ⟨hbits, -⟩
    · simp [hsys]
    · rw [State.written] at hbits
      simp [hbits]

end WriteReg

section WriteSplit
variable {s : State} {v : Word} (ha : Claims.Alone s)

theorem wfield_low3 (v : Word) : wfield v 0 3 = v.toNat % 8 := wfield_zero v 3

theorem writeSplit_illegal (h : v.toNat % 8 = 7) : s.writeSplit v = s.trapWord 0x05F#10 :=
  if_pos ((wfield_low3 v).trans h)

include ha in
theorem writeSplit_same (h : v.toNat % 8 = s.core.lmsplit.toNat % 8) (h7 : v.toNat % 8 ≠ 7) :
    s.writeSplit v = .next (Claims.ends s s.core) := by
  refine (if_neg (by rwa [wfield_low3])).trans ((if_pos (by rwa [wfield_low3, wfield_low3])).trans ?_)
  rw [advance_alone ha.quiet]

variable (hs : Claims.Settled s) (h : v.toNat % 8 ≠ s.core.lmsplit.toNat % 8) (h7 : v.toNat % 8 ≠ 7)
include hs h h7

theorem writeSplit_settled : s.writeSplit v =
    if s.cutsOff ((128 + 64 * (v.toNat % 8)) * 1024) then s.trapOpen 0x1C7#10
    else .next (s.resplit s.cur (v.toNat % 8)).advance := by
  have hoff : s.enginesOff = true := by
    simp [State.enginesOff, hs.queue, hs.jobs]
  rw [← wfield_low3] at h h7 ⊢
  refine (if_neg h7).trans ((if_neg (by rwa [wfield_low3 s.core.lmsplit])).trans (if_neg ?_))
  simp [settled_storesDone hs, hs.loads, settled_journalQuiet hs, hoff]

end WriteSplit

section Resplit
variable {s : State} {n : Nat}

theorem memByte_filter_keys (p : Nat → Bool) (m : List Host.Cell) (a : Nat) :
    memByte (m.filter fun x => p x.1) a = if p a then memByte m a else 0#8 := by
  induction m with
  | nil => exact (ite_self _).symm
  | cons x m ih =>
    obtain ⟨k, v⟩ := x
    by_cases hk : k = a
    · subst hk
      cases hp : p k with
      | true => simp [hp, memByte]
      | false => simpa [List.filter_cons, hp] using ih
    · cases hp : p k with
      | true => simpa [List.filter_cons, hp, memByte, hk] using ih
      | false => simpa [List.filter_cons, hp, memByte, hk] using ih

/-- The core with a scratchpad of another size. -/
def Core.resplit (k : Core) (n : Nat) : Core := { k with lmsplit := BitVec.ofNat 64 (n % 8), l1d := [], l1i := [] }

theorem resplit_scratchSize (k : Core) (h : n < 8) : (k.resplit n).scratchSize = (128 + 64 * n) * 1024 := by
  unfold Core.scratchSize
  rw [wfield_low3]
  show (128 + 64 * ((BitVec.ofNat 64 (n % 8)).toNat % 8)) * 1024 = _
  rw [BitVec.toNat_ofNat]
  omega

theorem resplit_core (s : State) (n : Nat) : (s.resplit s.cur n).core = s.core.resplit n := by
  unfold State.resplit
  dsimp only
  rw [getCore_cur]
  exact congrArg State.core (if_pos rfl : (s.noFill s.cur fun _ => true).setCore s.cur _ = _)

theorem memByte_resplit (s : State) (h : n < 8) (a : Nat) :
    memByte (s.resplit s.cur n).mem a =
      if scratchKey s.cur s.core.scratchSize ≤ a ∧ a < scratchKey s.cur ((128 + 64 * n) * 1024) then 0#8
      else memByte s.mem a := by
  unfold State.resplit
  dsimp only
  rw [getCore_cur, show Core.scratchSize { s.core with lmsplit := BitVec.ofNat 64 (n % 8), l1d := [], l1i := [] } = _ from
    resplit_scratchSize s.core h]
  refine (memByte_filter_keys (fun key => !(decide (scratchKey s.cur s.core.scratchSize ≤ key) &&
    decide (key < scratchKey s.cur ((128 + 64 * n) * 1024)))) s.mem a).trans ?_
  simp only [Bool.not_eq_true', Bool.and_eq_false_iff, decide_eq_false_iff_not, Nat.not_le, Nat.not_lt]
  split
  · rw [if_neg (by omega)]
  · rw [if_pos (by omega)]

end Resplit

theorem setReg_keeps (k : Core) (v : Word) : ∀ r ∈ Claims.registers,
    ((k.setReg r v).gang, (k.setReg r v).wpHit, (k.setReg r v).stepping, (k.setReg r v).routine, (k.setReg r v).pc) =
      (k.gang, k.wpHit, k.stepping, k.routine, k.pc) := by
  refine List.forall_iff_forall_mem.mp ?_
  repeat' apply And.intro
  all_goals rfl

theorem quiet_setReg {k : Core} (h : k.quiet) {r : Nat} (hr : r ∈ Claims.registers) (v : Word) :
    (k.setReg r v).quiet ∧ (k.setReg r v).pc = k.pc := by
  have hkeep := setReg_keeps k v r hr
  simp only [Prod.mk.injEq] at hkeep
  obtain ⟨hgang, hhit, hstep, hroutine, hpc⟩ := hkeep
  obtain ⟨qgang, qhit, qstep, qroutine⟩ := h
  exact ⟨⟨hgang.trans qgang, hhit.trans qhit, hstep.trans qstep, hroutine.trans qroutine⟩, hpc⟩

/-! ### The instructions -/

section Instructions
variable {s : State} {n : Nat} {x : Context} (ha : Claims.Alone s) (hc : Claims.Calm s)
include ha

theorem srd_read {d : Reg} {r : BitVec 12} (hr : s.core.ready { ds := [d] } = true)
    (h : s.core.system = true ∨ systemRead r.toNat = false) :
    exec (.srd d r) s = .next (Claims.ends s (s.core.writeS d (s.readReg r.toNat))) := by
  refine (issue_ready hr ha.mesh _).trans ((if_neg ?_).trans ?_)
  · rcases h with h | h <;> simp [h]
  · rw [setS_advance_alone ha]

theorem srd_refused {d : Reg} {r : BitVec 12} (hr : s.core.ready { ds := [d] } = true)
    (hsys : s.core.system = false) (h : systemRead r.toNat = true) : exec (.srd d r) s = s.trapOpen 0x1C5#10 :=
  (issue_ready hr ha.mesh _).trans (if_pos (by simp [hsys, h]))

include hc

theorem regWrite_calm {i : Instr} {a : Reg} {r : BitVec 12} {f : Word → Word → Word} {reads lock : Bool}
    (hi : Claims.regWrite i = some (a, r, f, reads, lock)) (hr : s.core.ready { ss := [(a, 0)] } = true) :
    exec i s = s.writeReg r.toNat reads lock (f (s.readReg r.toNat) (s.src a 0)) := by
  unfold Claims.regWrite at hi
  split at hi
  case h_1 => cases hi; exact issue_ordered_calm ha hc hr _
  case h_2 => cases hi; exact issue_ordered_calm ha hc hr _
  case h_3 => cases hi; exact issue_ordered_calm ha hc hr _
  case h_4 => cases hi

end Instructions

end Sys2Proof.Machine

namespace Sys2Proof.Proofs

open Sys2Proof Sys2Proof.Machine

/-- Settles O39: the model's tables are those of the statement, register by register, and a write passes its checks in the
order of the clauses. -/
theorem stateRegisters : Obligations.StateRegisters := by
  unfold Obligations.StateRegisters
  intro s n x ha hc hx sys
  refine ⟨fun d r hmem hr => ?_, ?_⟩
  · have hread := systemRead_eq _ hmem
    refine ⟨fun h => ?_, fun h hnot => ?_⟩
    · rw [← readReg_eq_register hx _ hmem]
      exact srd_read ha hr (h.imp id fun hu => by rw [hread]; simpa using hu)
    · exact srd_refused ha hr h (by rw [hread]; simpa using hnot)
  · intro i a r f reads lock hi hmem hr old w new loader watch allowed
    have hold : s.readReg r.toNat = old := readReg_eq_register hx _ hmem
    have hw : writable r.toNat = w := writable_eq_systemBits _ hmem
    have hnew : s.written r.toNat (f (s.readReg r.toNat) (s.src a 0)) = new := by rw [State.written, hold, hw]
    have hreg (c : Nat) (hc : c < 4096) : r.toNat = c ↔ r = BitVec.ofNat 12 c := by
      rw [← BitVec.toNat_inj, BitVec.toNat_ofNat, Nat.mod_eq_of_lt hc]
    have hloader : loader ↔ lock = true ∧ r.toNat = 0x014 ∧ s.core.loading = true := by
      rw [hreg 0x014 (by decide)]
      rfl
    have hallowed : allowed ↔ s.mayWrite r.toNat reads (f (s.readReg r.toNat) (s.src a 0)) := by
      rw [State.mayWrite, hnew, hold, userWritable_eq_userBits _ hmem, systemRead_eq _ hmem]
      simp only [allowed, Bool.not_eq_false', decide_eq_true_eq]
      rfl
    rw [regWrite_calm ha hc hi hr, hloader, hallowed]
    refine ⟨writeReg_locked, fun hl h => writeReg_refused hl (h.imp hw.trans id), fun hl hne hmay => ?_⟩
    rw [writeReg_allowed hl (hw.trans_ne hne) hmay, hnew]
    have hsplit (h : r = 0x013#12) : (if 0x100 ≤ r.toNat ∧ r.toNat ≤ 0x107 ∧ wbit new 2 then s.trap 0x383#10 0#64
        else if r.toNat = 0x013 then s.writeSplit new else .next (s.upd fun k => k.setReg r.toNat new).advance) =
        s.writeSplit new := by
      have h13 : r.toNat = 0x013 := by rw [h]; rfl
      exact (if_neg (by omega)).trans (if_pos h13)
    refine ⟨fun h => if_pos h, fun hnw hne => ?_, fun h heq h7 => ?_, fun h h7 => ?_, fun h hdiff h7 hs => ?_⟩
    · refine (if_neg hnw).trans ((if_neg fun h => hne ((hreg 0x013 (by decide)).mp h)).trans ?_)
      have hkeep := quiet_setReg ha.quiet hmem new
      rw [advance_upd_alone (f := fun k => k.setReg r.toNat new) hkeep.1 hkeep.2, setReg_eq_put _ _ _ hmem]
    · rw [hsplit h, writeSplit_same ha heq h7]
    · rw [hsplit h, writeSplit_illegal h7]
    · rw [hsplit h, writeSplit_settled hs hdiff h7]
      intro size
      have hlt : new.toNat % 8 < 8 := Nat.mod_lt _ (by decide)
      have hcore := resplit_core s (new.toNat % 8)
      have hend : (s.resplit s.cur (new.toNat % 8)).advance =
          Claims.ends (s.resplit s.cur (new.toNat % 8)) (s.core.resplit (new.toNat % 8)) := by
        rw [← hcore]
        exact advance_alone (by rw [hcore]; exact ha.quiet)
      refine ⟨fun hcut => if_pos hcut, fun hcut => ⟨_, (if_neg (by simp [size, hcut])).trans (congrArg _ hend), ?_⟩⟩
      refine ⟨?_, ?_, resplit_scratchSize s.core hlt, rfl, rfl, rfl, fun _ a => memByte_resplit s hlt a⟩
      · show (s.resplit s.cur (new.toNat % 8)).core.pc + 4#64 = _
        rw [hcore]
        rfl
      · exact congrArg (BitVec.ofNat 64) (Nat.mod_mod _ 8)

end Sys2Proof.Proofs
end

section
/-! SUPPORT. The DBG instructions, and the arrival of a stop (R412 to R417). -/

namespace Sys2Proof.Machine

open Sys2Proof

/-! ### The stops that a cluster is to make -/

/-- One more station is to stop, unless it is already. -/
def stopNext (reason : Nat) (t : Tab Nat) (i : Nat) : Tab Nat := if (tfind i t).isSome then t else t ++ [(i, reason)]

theorem tfind_append_isSome {α : Type} (i : Nat) (t u : Tab α) :
    (tfind i (t ++ u)).isSome = ((tfind i t).isSome || (tfind i u).isSome) := by
  induction t with
  | nil => rfl
  | cons r t ih =>
    by_cases hr : r.1 = i
    · simp [tfind, hr]
    · simpa [tfind, hr] using ih

theorem stopNext_keeps (reason : Nat) (t : Tab Nat) (i : Nat) {j : Nat} (h : (tfind j t).isSome = true) :
    (tfind j (stopNext reason t i)).isSome = true := by
  unfold stopNext
  split
  · exact h
  · rw [tfind_append_isSome, h, Bool.true_or]

theorem stopNext_stops (reason : Nat) (t : Tab Nat) (i : Nat) : (tfind i (stopNext reason t i)).isSome = true := by
  unfold stopNext
  split
  · assumption
  · simp [tfind_append_isSome, tfind]

/-- A station stays among the stops, and every station of a list comes to them. -/
theorem stopping_foldl (reason : Nat) (l : List Nat) (t : Tab Nat) :
    (∀ j, (tfind j t).isSome = true → (tfind j (l.foldl (stopNext reason) t)).isSome = true) ∧
      ∀ i ∈ l, (tfind i (l.foldl (stopNext reason) t)).isSome = true := by
  induction l generalizing t with
  | nil => exact ⟨fun _ h => h, fun _ h => absurd h List.not_mem_nil⟩
  | cons a l ih =>
    obtain ⟨hkeep, hall⟩ := ih (stopNext reason t a)
    refine ⟨fun j hj => hkeep j (stopNext_keeps reason t a hj), fun i hi => ?_⟩
    rcases List.mem_cons.mp hi with rfl | hi
    · exact hkeep i (stopNext_stops reason t i)
    · exact hall i hi

theorem stopStations_stopping {s : State} {n reason i : Nat} {l : List Nat} (h : i ∈ l) :
    tfind i (tget n (s.stopStations n reason l).clusters {}).stopping ≠ none := by
  rw [← Option.isSome_iff_ne_none]
  show (tfind i (tget n (tset n _ s.clusters) {}).stopping).isSome = true
  rw [tget_tset_same]
  exact (stopping_foldl reason l _).2 i h

/-! ### The target of a DBG form -/

section Target
variable {s : State} {c : CoreId} {x : Word} {body : CoreId → Out}

theorem debugTarget_bad (hx : x.toNat % 4096 = c) (h : s.isPeer c = false ∨ c = s.cur) :
    s.debugTarget x body = s.trap 0x381#10 0#64 := by
  have hfield : wfield x 0 12 = c := (wfield_zero x 12).trans hx
  refine if_pos ?_
  rw [hfield]
  exact h.imp (fun hp => by simp [hp]) id

theorem debugTarget_good (hx : x.toNat % 4096 = c) (hp : s.isPeer c = true) (hc : c ≠ s.cur) :
    s.debugTarget x body = body c := by
  have hfield : wfield x 0 12 = c := (wfield_zero x 12).trans hx
  refine (if_neg ?_).trans (congrArg body hfield)
  rw [hfield, not_or]
  exact ⟨by simp [hp], hc⟩

theorem together_single (h : (s.getCore c).gang = none) : s.together c = [c] := by
  rw [State.together, h]

theorem together_cur (h : s.core.gang = none) : s.together s.cur = [s.cur] :=
  together_single (by rw [getCore_cur]; exact h)

theorem stationMask_single (c : CoreId) : stationMask [c] = BitVec.ofNat 64 (2 ^ (c % 16)) := rfl

theorem mem_clusterCores {i n : Nat} (hi : i < 16) (hp : s.isPeer (16 * n + i) = true) : 16 * n + i ∈ s.clusterCores n :=
  List.mem_filter.mpr ⟨List.mem_map.mpr ⟨i, List.mem_range.mpr hi, rfl⟩, hp⟩

end Target

/-! ### The instructions in system mode -/

section Debug
variable {s : State} {d a : Reg} {c : CoreId} (ha : Claims.Alone s) (hc : Claims.Calm s) (hsys : s.core.system = true)
include ha hc hsys

theorem wpset_data (hr : s.core.ready { ss := [(a, 0)] } = true) (n : BitVec 3) (h : (s.src a 0).getLsbD 2 = true) :
    exec (.wpset a n) s = s.trap 0x383#10 0#64 :=
  (issue_systemOnly_system ha hc hr _ hsys).trans (if_pos h)

omit ha hc hsys in
theorem setReg_watch (k : Core) (n : BitVec 3) (v : Word) :
    k.setReg (0x100 + n.toNat) v = { k with wp := tset n.toNat v k.wp } := by
  have hlt := n.isLt
  unfold Core.setReg
  repeat rw [if_neg (by omega)]
  rw [if_pos (by omega), Nat.add_sub_cancel_left]

theorem wpset_sets (hr : s.core.ready { ss := [(a, 0)] } = true) (n : BitVec 3) (h : (s.src a 0).getLsbD 2 = false) :
    exec (.wpset a n) s =
      .next (Claims.ends s { s.core with wp := tset n.toNat (s.src a 0 &&& 0xFFFFFFFFFFFFFFFE#64) s.core.wp }) := by
  refine (issue_systemOnly_system ha hc hr _ hsys).trans ((if_neg fun ht => Bool.false_ne_true (h.symm.trans ht)).trans ?_)
  simp only [setReg_watch]
  rw [advance_upd_alone ha.quiet rfl]

theorem wpclr_clears (n : BitVec 3) :
    exec (.wpclr n) s =
      .next (Claims.ends s
        { s.core with wp := tset n.toNat (tget n.toNat s.core.wp 0#64 &&& 0x7FFFFFFFFFFFFFFF#64) s.core.wp }) := by
  refine (issue_systemOnly_system (n := {}) ha hc rfl _ hsys).trans ?_
  simp only [setReg_watch]
  rw [advance_upd_alone ha.quiet rfl]

section Targets
variable (hr : s.core.ready { ss := [(a, 0)], ds := [d] } = true) (hx : (s.src a 0).toNat % 4096 = c)
include hr hx

theorem debug_badTarget (h : s.isPeer c = false ∨ c = s.cur) (m : BitVec 12) :
    exec (.dstop d a m) s = s.trap 0x381#10 0#64 ∧ exec (.dres d a m) s = s.trap 0x381#10 0#64 ∧
      exec (.dstep d a) s = s.trap 0x381#10 0#64 := by
  refine ⟨?_, ?_, ?_⟩
  all_goals exact (issue_systemOnly_system ha hc hr _ hsys).trans (debugTarget_bad hx h)

variable (hp : s.isPeer c = true) (hne : c ≠ s.cur)
include hp hne

theorem dstop_dstat : exec (.dstop d a 2#12) s = .next (Claims.ends s (s.core.writeS d (s.getCore c).dstat)) := by
  refine (issue_systemOnly_system ha hc hr _ hsys).trans ((debugTarget_good hx hp hne).trans ?_)
  exact congrArg Host.Outcome.next (setS_advance_alone ha d _)

theorem dstop_dinfo : exec (.dstop d a 3#12) s = .next (Claims.ends s (s.core.writeS d (s.getCore c).dinfo)) := by
  refine (issue_systemOnly_system ha hc hr _ hsys).trans ((debugTarget_good hx hp hne).trans ?_)
  exact congrArg Host.Outcome.next (setS_advance_alone ha d _)

/-- The state in which some cores of the cluster of c are to stop, with the mask of their stations in d. -/
def State.stopsCores (s : State) (d : Reg) (c : CoreId) (l : List CoreId) : State :=
  Claims.ends (s.stopStations (c / 16) 1 (l.map stationOf)) (s.core.writeS d (stationMask l))

theorem dstop_core (hg : (s.getCore c).gang = none) (hd : (s.getCore c).dstat.getLsbD 63 = false) :
    exec (.dstop d a 1#12) s = .next (s.stopsCores d c [c]) := by
  refine (issue_systemOnly_system ha hc hr _ hsys).trans ((debugTarget_good hx hp hne).trans ?_)
  have hlist : (s.together c).filter (fun i => !(s.getCore i).debugStopped) = [c] := by
    rw [together_single hg]
    exact List.filter_cons_of_pos (by rw [show (s.getCore c).debugStopped = false from hd]; rfl)
  have hadvance := setS_advance_alone (s := s.stopStations (c / 16) 1 ([c].map stationOf)) ⟨ha.quiet, ha.mesh⟩ d
    (stationMask [c])
  refine Eq.trans ?_ (congrArg Host.Outcome.next hadvance)
  rw [← hlist]
  rfl

theorem dstop_cluster :
    exec (.dstop d a 0#12) s =
      .next (s.stopsCores d c (((s.clusterCores (c / 16)).filter fun i => !(s.together s.cur).contains i).filter
        fun i => !(s.getCore i).debugStopped)) := by
  refine (issue_systemOnly_system ha hc hr _ hsys).trans ((debugTarget_good hx hp hne).trans ?_)
  exact congrArg Host.Outcome.next (setS_advance_alone (s := s.stopStations _ _ _) ⟨ha.quiet, ha.mesh⟩ d _)

/-! DSTEP. -/

theorem dstep_running (hd : (s.getCore c).dstat.getLsbD 63 = false) (h0 : s.core.chanStep = 0) :
    exec (.dstep d a) s = s.trap 0x382#10 0#64 := by
  refine (issue_systemOnly_system ha hc hr _ hsys).trans ((debugTarget_good hx hp hne).trans ?_)
  refine (if_neg (by simp [h0])).trans (if_pos ?_)
  rw [show (s.getCore c).debugStopped = false from hd]
  rfl

theorem dstep_idle (hd : (s.getCore c).dstat.getLsbD 63 = true) (hu : (s.getCore c).unit = none) (h0 : s.core.chanStep = 0) :
    exec (.dstep d a) s = .next (Claims.ends s (s.core.writeS d (s.getCore c).dstat)) := by
  refine (issue_systemOnly_system ha hc hr _ hsys).trans ((debugTarget_good hx hp hne).trans ?_)
  refine (if_neg (by simp [h0])).trans ((if_neg ?_).trans ((if_pos (by rw [hu]; rfl)).trans ?_))
  · rw [show (s.getCore c).debugStopped = true from hd]
    exact Bool.false_ne_true
  · rw [setS_advance_alone ha]

/-- The core about to issue one instruction for core n. -/
def Core.stepsFor (n : CoreId) (k : Core) : Core := { k with stepping := some n }
def Core.awaitsStep (k : Core) : Core := { k with chanStep := 1 }

theorem dstep_begins (hd : (s.getCore c).dstat.getLsbD 63 = true) (hu : (s.getCore c).unit ≠ none)
    (hg : (s.getCore c).gang = none) (h0 : s.core.chanStep = 0) :
    exec (.dstep d a) s = .next ((s.mapCore c (Core.stepsFor s.cur)).upd Core.awaitsStep).rotate := by
  refine (issue_systemOnly_system ha hc hr _ hsys).trans ((debugTarget_good hx hp hne).trans ?_)
  refine (if_neg (by simp [h0])).trans ((if_neg ?_).trans ((if_neg (by simpa using hu)).trans ?_))
  · rw [show (s.getCore c).debugStopped = true from hd]
    exact Bool.false_ne_true
  · rw [together_single hg]
    rfl

theorem dstep_ends (hg : (s.getCore c).gang = none) (hs : (s.getCore c).stepping = none) (hacc : s.accessesDone c = true)
    (h0 : s.core.chanStep ≠ 0) :
    exec (.dstep d a) s = .next (Claims.ends s (s.core.writeS d (s.getCore c).dstat)) := by
  refine (issue_systemOnly_system ha hc hr _ hsys).trans ((debugTarget_good hx hp hne).trans ?_)
  refine (if_pos h0).trans ((if_pos ?_).trans ?_)
  · rw [together_single hg]
    simp [hs, hacc]
  · rw [setS_advance_alone ha]

/-! DRES. -/

theorem dres_running (hd : (s.getCore c).dstat.getLsbD 63 = false) : exec (.dres d a 0#12) s = s.trap 0x382#10 0#64 := by
  refine (issue_systemOnly_system ha hc hr _ hsys).trans ((debugTarget_good hx hp hne).trans (if_pos ⟨rfl, ?_⟩))
  rw [show (s.getCore c).debugStopped = false from hd]
  rfl

omit ha hc hsys hr hx hp hne in
/-- A change of cores that leaves the core in focus quiet and in its place, whichever it changes. -/
theorem foldl_mapCore_core {P : Core → Prop} {f : Core → Core} (hf : ∀ k, P k → P (f k)) (l : List CoreId) (s : State)
    (h : P s.core) : P (l.foldl (fun t i => t.mapCore i f) s).core := by
  induction l generalizing s with
  | nil => exact h
  | cons i l ih =>
    refine ih _ ?_
    show P (s.mapCore i f).core
    by_cases hi : i = s.cur
    · subst hi
      rw [mapCore_focus]
      exact hf _ h
    · unfold State.mapCore State.setCore
      rw [if_neg hi]
      exact h

/-- The state in which some stopped cores run again, with the mask of their stations in d. -/
def State.resumesCores (s : State) (d : Reg) (l : List CoreId) : State :=
  let t := l.foldl (fun t i => t.mapCore i Core.resume) s
  Claims.ends t (t.core.writeS d (stationMask l))

omit hc hsys hr hx hp hne in
theorem resumes_advance (l : List CoreId) :
    ((l.foldl (fun t i => t.mapCore i Core.resume) s).setS d (stationMask l)).advance = s.resumesCores d l := by
  have hq : (l.foldl (fun t i => t.mapCore i Core.resume) s).core.quiet ∧
      (l.foldl (fun t i => t.mapCore i Core.resume) s).core.meshBarred = false := by
    refine foldl_mapCore_core (P := fun k => k.quiet ∧ k.meshBarred = false) (f := Core.resume) (fun k hk => ⟨?_, hk.2⟩) l s
      ⟨ha.quiet, ha.mesh⟩
    obtain ⟨hg, hh, -, hrt⟩ := hk.1
    exact ⟨hg, hh, rfl, hrt⟩
  exact setS_advance_alone ⟨hq.1, hq.2⟩ d _

theorem dres_core (hd : (s.getCore c).dstat.getLsbD 63 = true) (hg : (s.getCore c).gang = none) :
    exec (.dres d a 0#12) s = .next (s.resumesCores d [c]) := by
  refine (issue_systemOnly_system ha hc hr _ hsys).trans ((debugTarget_good hx hp hne).trans ((if_neg ?_).trans ?_))
  · rw [show (s.getCore c).debugStopped = true from hd]
    simp
  · have hlist : (s.together c).filter (fun i => (s.getCore i).debugStopped) = [c] := by
      rw [together_single hg]
      exact List.filter_cons_of_pos hd
    rw [if_pos rfl, hlist]
    exact congrArg Host.Outcome.next (resumes_advance ha [c])

theorem dres_cluster :
    exec (.dres d a 1#12) s =
      .next (s.resumesCores d ((s.clusterCores (c / 16)).filter fun i => (s.getCore i).debugStopped)) := by
  refine (issue_systemOnly_system ha hc hr _ hsys).trans ((debugTarget_good hx hp hne).trans ((if_neg (by simp)).trans ?_))
  rw [if_neg (by decide)]
  exact congrArg Host.Outcome.next (resumes_advance ha _)

end Targets

end Debug

/-! ### What the other cores show -/

section Others
variable {s : State} {d : Reg}

theorem getCore_upd_of_ne {c : CoreId} (h : c ≠ s.cur) (f : Core → Core) : (s.upd f).getCore c = s.getCore c :=
  (if_neg h).trans (if_neg h).symm

theorem getCore_upd_cur (f : Core → Core) : (s.upd f).getCore s.cur = f s.core := getCore_cur (s.upd f)

theorem getCore_mapCore_upd_cur (c : CoreId) (f g : Core → Core) :
    ((s.mapCore c f).upd g).getCore s.cur = g (s.mapCore c f).core :=
  (congrArg ((s.mapCore c f).upd g).getCore (mapCore_cur s c f).symm).trans (getCore_upd_cur g)

theorem mem_stopped {c i : Nat} (hg : s.core.gang = none) (hi : i < 16) (hp : s.isPeer (16 * (c / 16) + i) = true)
    (hne : 16 * (c / 16) + i ≠ s.cur) (hd : (s.getCore (16 * (c / 16) + i)).dstat.getLsbD 63 = false) :
    i ∈ (((s.clusterCores (c / 16)).filter fun i => !(s.together s.cur).contains i).filter
      fun i => !(s.getCore i).debugStopped).map stationOf := by
  have hstation : stationOf (16 * (c / 16) + i) = i := by
    unfold stationOf
    omega
  refine List.mem_map.mpr ⟨_, List.mem_filter.mpr ⟨List.mem_filter.mpr ⟨mem_clusterCores hi hp, ?_⟩, ?_⟩, hstation⟩
  · simp [together_cur hg, hne]
  · rw [show (s.getCore (16 * (c / 16) + i)).debugStopped = false from hd]
    rfl

/-- The end of an instruction that writes d leaves DSTAT of every core. -/
theorem getCore_ends_dstat (s : State) (d : Reg) (v : Word) (i : CoreId) :
    ((Claims.ends s (s.core.writeS d v)).getCore i).dstat = (s.getCore i).dstat := by
  by_cases hi : i = s.cur
  · subst hi
    refine (congrArg Core.dstat (getCore_cur (Claims.ends s (s.core.writeS d v)))).trans ?_
    rw [getCore_cur]
    exact Core.writeS_dstat ..
  · exact congrArg Core.dstat ((if_neg hi).trans (if_neg hi).symm)

theorem clusterCores_nodup (s : State) (n : Nat) : (s.clusterCores n).Nodup :=
  (List.nodup_range.map fun _ _ h => Nat.add_left_cancel h).filter _

/-- No enabled core of the cluster is debug-stopped after DRES of all of them. -/
theorem resumesCores_running {n i : Nat} (hi : i < 16) (hp : s.isPeer (16 * n + i) = true) :
    ((s.resumesCores d ((s.clusterCores n).filter fun i => (s.getCore i).debugStopped)).getCore
      (16 * n + i)).dstat.getLsbD 63 = false := by
  unfold State.resumesCores
  dsimp only
  rw [getCore_ends_dstat]
  cases hd : (s.getCore (16 * n + i)).debugStopped with
  | true =>
    rw [getCore_foldl_mapCore_of_mem ((clusterCores_nodup s n).filter _)
      (List.mem_filter.mpr ⟨mem_clusterCores hi hp, hd⟩)]
    exact BitVec.getLsbD_zero
  | false =>
    have hnot : 16 * n + i ∉ (s.clusterCores n).filter fun i => (s.getCore i).debugStopped := fun hm =>
      Bool.false_ne_true (hd.symm.trans (List.mem_filter.mp hm).2)
    rw [getCore_foldl_mapCore_of_notMem hnot]
    exact hd

theorem mapCore_core_of_ne {c : CoreId} (h : c ≠ s.cur) (f : Core → Core) : (s.mapCore c f).core = s.core := by
  unfold State.mapCore State.setCore
  rw [if_neg h]

/-- Another core that runs again is as it was, but for its stop. -/
theorem getCore_resumesCores {c : CoreId} (h : c ≠ s.cur) : (s.resumesCores d [c]).getCore c = (s.getCore c).resume := by
  have hcur : c ≠ (s.mapCore c Core.resume).cur := by rwa [mapCore_cur]
  refine ((if_neg hcur).trans (if_neg hcur).symm : _ = (s.mapCore c Core.resume).getCore c).trans ?_
  exact getCore_mapCore_same s c _

end Others

/-! ### The arrival of a stop -/

section Arrival
variable {s : State} {c reason : Nat}

/-- The core stopped by its cluster. -/
def Core.stoppedAt (c : CoreId) (reason : Nat) (k : Core) : Core :=
  if k.debugStopped then k else { k.debugStop c reason with path := none }

/-- The stop of core c taken off the list of its cluster. -/
def State.stopArrived (s : State) (c : CoreId) : State :=
  s.mapCluster (c / 16) fun k => { k with stopping := terase (c % 16) k.stopping }

theorem clusterStopArrival_arrives (hr : tfind (c % 16) (s.cluster (c / 16)).stopping = some reason)
    (hg : (s.getCore c).gang = none) (ha : (s.getCore c).ahead = false) (hlag : (s.getCore c).lag = 0)
    (hmay : s.mayStop c = true) (hacc : s.accessesDone c = true) :
    exec (.clusterStopArrival c) s =
      .next ((s.stopArrived c).mapCore c (Core.stoppedAt c reason)).rotateIfStopped := by
  show execClusterStopArrival c s = _
  unfold execClusterStopArrival
  dsimp only
  have hfind : tfind (stationOf c) (s.cluster (clusterOf c)).stopping = some reason := hr
  rw [together_single hg, hfind]
  refine if_pos ?_
  simp [State.even, hmay, hacc, hfind, ha, hlag]

theorem stopArrived_stopping (s : State) (c reason : Nat) :
    tfind (c % 16) (((s.stopArrived c).mapCore c (Core.stoppedAt c reason)).rotateIfStopped.cluster (c / 16)).stopping =
      none := by
  have hkeep (t : State) : t.rotateIfStopped.clusters = t.clusters := by
    unfold State.rotateIfStopped
    split
    · exact rotate_proj State.clusters (fun _ _ _ _ => rfl) t
    · rfl
  unfold State.cluster
  rw [hkeep, mapCore_keeps State.clusters fun _ _ _ => rfl]
  show tfind (c % 16) (tget (c / 16) (tset (c / 16) _ s.clusters) {}).stopping = none
  rw [tget_tset_same]
  exact tfind_terase_same ..

theorem stoppedAt_stopped (k : Core) (c : CoreId) (reason : Nat) : (k.stoppedAt c reason).dstat.getLsbD 63 = true := by
  unfold Core.stoppedAt
  split
  next h => exact h
  next h =>
    show ((0x8000000000000000#64 ||| _) ||| _ : Word).getLsbD 63 = true
    simp

end Arrival

end Sys2Proof.Machine

namespace Sys2Proof.Proofs

open Sys2Proof Sys2Proof.Machine

/-- Settles O41: each clause is the rule of its instruction above, and a stop that may take effect does so at its arrival. -/
theorem debugInstructions : Obligations.DebugInstructions := by
  unfold Obligations.DebugInstructions
  intro s ha hc hsys
  refine ⟨fun a n hr => ⟨wpset_data ha hc hsys hr n, wpset_sets ha hc hsys hr n⟩, wpclr_clears ha hc hsys, ?_,
    fun c r hr hg hah hlag hmay hacc hrun => ⟨_, clusterStopArrival_arrives hr hg hah hlag hmay hacc, ?_, ?_, ?_⟩⟩
  · intro d a hr c k bit stopping
    refine ⟨fun hbad => ⟨fun m => ?_, (debug_badTarget ha hc hsys hr rfl hbad 0).2.2⟩, fun hp hne => ?_⟩
    · obtain ⟨hstop, hres, -⟩ := debug_badTarget ha hc hsys hr rfl hbad m
      exact ⟨hstop, hres⟩
    refine ⟨dstop_dstat ha hc hsys hr rfl hp hne, dstop_dinfo ha hc hsys hr rfl hp hne, fun hg hd => ⟨_,
      dstop_core ha hc hsys hr rfl hp hne hg hd, rfl, rfl, stopStations_stopping (List.mem_cons_self)⟩, ⟨_,
      dstop_cluster ha hc hsys hr rfl hp hne, rfl, fun i hi hpeer hcur hd => stopStations_stopping ?_⟩,
      dstep_running ha hc hsys hr rfl hp hne, dstep_idle ha hc hsys hr rfl hp hne, fun hd hu hg h0 => ⟨_,
      dstep_begins ha hc hsys hr rfl hp hne hd hu hg h0, ?_, ?_, ?_⟩, dstep_ends ha hc hsys hr rfl hp hne,
      dres_running ha hc hsys hr rfl hp hne, fun hd hg => ⟨_, dres_core ha hc hsys hr rfl hp hne hd hg, ?_, ?_, ?_⟩, ⟨_,
      dres_cluster ha hc hsys hr rfl hp hne, fun i hi hpeer => ?_⟩⟩
    · exact mem_stopped ha.quiet.1 hi hpeer hcur hd
    · rw [getCore_rotate, getCore_upd_of_ne (by rwa [mapCore_cur]), getCore_mapCore_same]
      rfl
    · rw [getCore_rotate, getCore_mapCore_upd_cur]
      rfl
    · rw [getCore_rotate, getCore_mapCore_upd_cur]
      exact congrArg (fun k : Core => k.awaitsStep.pc) (mapCore_core_of_ne hne _)
    · exact congrArg (fun k : Core => k.pc + 4#64) (mapCore_core_of_ne hne _)
    · exact congrArg (fun k : Core => (k.writeS d bit).sregs) (mapCore_core_of_ne hne Core.resume)
    · exact getCore_resumesCores hne
    · exact resumesCores_running hi hpeer
  · rw [getCore_rotateIfStopped, getCore_mapCore_same]
    exact stoppedAt_stopped _ c r
  · exact (rotateIfStopped_mem _).trans (mapCore_mem _ _ _)
  · rw [stopArrived_stopping]

end Sys2Proof.Proofs
end

section
/-! SUPPORT. The RNG instructions (R316, R317, R320, R321, R366 to R369). -/

namespace Sys2Proof.Machine

open Sys2Proof

/-! ### The ring of the own cluster -/

section Ring
variable {s : State} {r : Ring}

theorem ring_cl (s : State) : s.ring s.cl = Claims.ringOf s := rfl

theorem setRing_cl (s : State) (r : Ring) : s.setRing s.cl r = Claims.withRing s r := rfl

theorem ringOf_withRing (s : State) (r : Ring) : Claims.ringOf (Claims.withRing s r) = r := by
  show (tget (s.cur / 16) (tset (s.cur / 16) _ s.clusters) {}).ring = r
  rw [tget_tset_same]

theorem ringOf_ends (s : State) (k : Core) : Claims.ringOf (Claims.ends s k) = Claims.ringOf s :=
  rfl

theorem stepped_ends {s t : State} (h : t.core.pc = s.core.pc) : Claims.stepped s (Claims.ends t t.core) :=
  congrArg (· + 4#64) h

theorem mem_ends {s t : State} (k : Core) (h : t.mem = s.mem) : (Claims.ends t k).mem = s.mem :=
  h

theorem ring_queue_setQueue (r : Ring) (f : Bool) (l : List Bead) : (r.setQueue f l).queue f = l := by
  cases f <;> rfl

theorem stepping_iff (r : Ring) : r.stepping = true ↔ r.state = .running ∨ r.state = .draining := by
  unfold Ring.stepping
  cases r.state <;> decide

theorem not_stepping {r : Ring} (h : r.state = .off ∨ r.state = .frozen) : ¬r.stepping = true := by
  rw [stepping_iff]
  rcases h with h | h
  · simp [h]
  · simp [h]

theorem withRing_advance (hq : s.core.quiet) (r : Ring) :
    (Claims.withRing s r).advance = Claims.ends (Claims.withRing s r) s.core :=
  advance_alone (s := Claims.withRing s r) hq

theorem withRing_withRing_advance (hq : s.core.quiet) (r r' : Ring) :
    ((Claims.withRing s r).setRing s.cl r').advance =
      Claims.ends (Claims.withRing (Claims.withRing s r) r') s.core :=
  withRing_advance (s := Claims.withRing s r) hq r'

end Ring

/-! ### RGCFG -/

section Rgcfg
variable {s : State} {a : Reg} (ha : Claims.Alone s) (hc : Claims.Calm s) (hr : s.core.ready { ss := [(a, 0)] } = true)
include ha hc hr

theorem rgcfg_busy (h : (Claims.ringOf s).state = .running ∨ (Claims.ringOf s).state = .draining) :
    exec (.rgcfg a) s = s.trap 0x2C2#10 0#64 :=
  (issue_ordered_calm ha hc hr _).trans (if_pos ((stepping_iff _).mpr h))

theorem rgcfg_malformed (h : (Claims.ringOf s).state = .off ∨ (Claims.ringOf s).state = .frozen)
    (hbad : s.badRing (s.src a 0) = true) : exec (.rgcfg a) s = s.trap 0x2C1#10 0#64 :=
  (issue_ordered_calm ha hc hr _).trans ((if_neg (not_stepping h)).trans (if_pos hbad))

/-- A core whose missed matches are forgotten. -/
def Core.noMiss (k : Core) : Core := { k with miss := 0 }

/-- The machine with the ring of the own cluster configured anew. -/
def State.ringStarted (s : State) (w : Word) : State :=
  (List.range 16).foldl (fun t i => t.mapCore (16 * s.cl + i) Core.noMiss)
    (Claims.withRing s { state := .running, config := w })

omit ha hc hr in
/-- A row of changes of cores that keeps a property of the core in focus. -/
theorem foldl_mapCore_holds {α : Type} {P : Core → Prop} {f : Core → Core} (hf : ∀ k, P k → P (f k)) (g : α → CoreId)
    (l : List α) (s : State) (h : P s.core) : P (l.foldl (fun t i => t.mapCore (g i) f) s).core := by
  induction l generalizing s with
  | nil => exact h
  | cons i l ih =>
    refine ih _ ?_
    have hone := foldl_mapCore_core hf [g i] s h
    exact hone

theorem rgcfg_starts (h : (Claims.ringOf s).state = .off ∨ (Claims.ringOf s).state = .frozen)
    (hgood : s.badRing (s.src a 0) = false) :
    exec (.rgcfg a) s = .next (Claims.ends (s.ringStarted (s.src a 0)) (s.ringStarted (s.src a 0)).core) := by
  refine (issue_ordered_calm ha hc hr _).trans ((if_neg (not_stepping h)).trans ((if_neg (by simp [hgood])).trans ?_))
  have hq : (s.ringStarted (s.src a 0)).core.quiet :=
    foldl_mapCore_holds (f := Core.noMiss) (P := Core.quiet) (fun _ hk => hk) _ _
      (Claims.withRing s { state := .running, config := s.src a 0 }) ha.quiet
  exact congrArg Host.Outcome.next (advance_alone hq)

omit ha hc hr in
theorem ringStarted_pc (s : State) (w : Word) : (s.ringStarted w).core.pc = s.core.pc := by
  have hkeep (k : Core) (h : k.pc = s.core.pc) : k.noMiss.pc = s.core.pc := h
  unfold State.ringStarted
  exact foldl_mapCore_holds hkeep (fun i => 16 * s.cl + i) (List.range 16)
    (Claims.withRing s { state := .running, config := w }) rfl

omit ha hc hr in
theorem ringStarted_ring (s : State) (w : Word) :
    Claims.ringOf (s.ringStarted w) = { state := .running, config := w } := by
  unfold State.ringStarted
  rw [foldl_mapCore_proj Claims.ringOf (fun _ _ _ => rfl), ringOf_withRing]

omit ha hc hr in
theorem ringStarted_mem (s : State) (w : Word) : (s.ringStarted w).mem = s.mem := by
  unfold State.ringStarted
  rw [foldl_mapCore_proj State.mem (fun _ _ _ => rfl)]
  rfl

end Rgcfg

/-! ### MTLD and MTCLR -/

section Match
variable {s : State} {a : Reg} (ha : Claims.Alone s) (hc : Claims.Calm s)

theorem loadMatch_idle (ha : Claims.Alone s) (ht : s.core.noTasks = true) (hd : ∀ e < 8, s.core.actionDue e = false)
    (img : List Byte) : s.loadMatch img = .next (Claims.ends s (s.core.setMatch img)) := by
  have hdue : (List.range 8).any s.core.actionDue = false :=
    List.any_eq_false.mpr fun e he => by simp [hd e (List.mem_range.mp he)]
  refine (if_neg (by simp [ht, hdue])).trans ?_
  rw [advance_upd_alone (f := fun k => k.setMatch img) ha.quiet rfl]

include ha hc

theorem mtld_image (hr : s.core.ready { ss := [(a, 0)] } = true) (h8 : (s.src a 0).toNat % 8 = 0)
    (hi : Claims.Image s (s.src a 0).toNat 192) :
    exec (.mtld a) s =
      if badMatchImage (Claims.imageBytes s (s.src a 0).toNat 192) then s.trap 0x2C3#10 0#64
      else s.loadMatch (Claims.imageBytes s (s.src a 0).toNat 192) := by
  refine (issue_ordered_calm ha hc hr _).trans ((if_neg (by simp [h8])).trans ?_)
  exact readImage_own hc.buffer hi true true _

omit ha hc in
theorem setMatch_image (s : State) (va o n i : Nat) (hi : i < n) (ho : o + 8 * n ≤ 192) :
    ((List.range n).map fun i => BitVec.ofNat 64 (imgNat (Claims.imageBytes s va 192) (o + 8 * i) 8)).getD i 0#64 =
      BitVec.ofNat 64 (memRead s.mem (Claims.ownKey s va + o + 8 * i) 8) := by
  rw [getD_map_range _ _ hi, Claims.imageBytes, imgNat_memReadBytes s.mem _ (by omega), Nat.add_assoc]

omit ha hc in
theorem setMatch_tables (k : Core) (img : List Byte) :
    k.setMatch img =
      { k with
        mentries := tabOf 0#64 ((List.range 16).map fun i => BitVec.ofNat 64 (imgNat img (0 + 8 * i) 8))
        mtargets := tabOf 0#64 ((List.range 8).map fun i => BitVec.ofNat 64 (imgNat img (0x80 + 8 * i) 8))
        fcnt := [], tcnt := [], issuedDone := [] } := rfl

omit ha hc in
theorem setMatch_entries (s : State) (va i : Nat) (hi : i < 16) :
    tget i (s.core.setMatch (Claims.imageBytes s va 192)).mentries 0#64 =
      BitVec.ofNat 64 (memRead s.mem (Claims.ownKey s va + 8 * i) 8) := by
  rw [setMatch_tables, tget_tabOf, setMatch_image s va 0 16 i hi (by decide), Nat.add_zero]

omit ha hc in
theorem setMatch_targets (s : State) (va i : Nat) (hi : i < 8) :
    tget i (s.core.setMatch (Claims.imageBytes s va 192)).mtargets 0#64 =
      BitVec.ofNat 64 (memRead s.mem (Claims.ownKey s va + 0x80 + 8 * i) 8) := by
  rw [setMatch_tables, tget_tabOf, setMatch_image s va 0x80 8 i hi (by decide)]

omit ha hc in
/-- A match table with nothing in it. -/
theorem setMatch_nil (k : Core) :
    k.setMatch [] = { k with mentries := [], mtargets := [], fcnt := [], tcnt := [], issuedDone := [] } := rfl

theorem mtclr_idle (ht : s.core.noTasks = true) (hd : ∀ e < 8, s.core.actionDue e = false) :
    exec .mtclr s =
      .next (Claims.ends s
        { s.core with mentries := [], mtargets := [], fcnt := [], tcnt := [], issuedDone := [] }) :=
  (issue_ordered_calm (n := {}) ha hc rfl _).trans ((loadMatch_idle ha ht hd []).trans
    (congrArg (fun k => Host.Outcome.next (Claims.ends s k)) (setMatch_nil s.core)))

end Match

/-! ### TKDONE and TKGET -/

section Tasks
variable {s : State} {a d : Reg} (ha : Claims.Alone s) (hc : Claims.Calm s)

/-- A task of entry e is over. -/
def Core.taskOver (e : Nat) (k : Core) : Core := { k with tcnt := tset e (tget e k.tcnt 0 - 1) k.tcnt }

/-- The slot of a task is free. -/
def Core.dropTask (i : Nat) (k : Core) : Core := { k with tasks := terase i k.tasks }

theorem ringIdle_frame (s : State) (cl : Nat) : ∃ c, s.ringIdle cl = { s with clusters := c } := by
  unfold State.ringIdle
  dsimp only
  split
  · exact ⟨_, rfl⟩
  · exact ⟨s.clusters, rfl⟩

theorem clusters_advance {t : State} (hq : t.core.quiet) (c : Tab Cluster) :
    ({ t with clusters := c } : State).advance = Claims.ends { t with clusters := c } t.core :=
  advance_alone (s := { t with clusters := c }) hq

/-- The end of an instruction sets the core in focus, whatever it was before. -/
theorem ends_upd_clusters {f : Core → Core} (hp : (f s.core).pc = s.core.pc) (c : Tab Cluster) (k : Core) :
    Claims.ends { s.upd f with clusters := c } k = Claims.ends { s with clusters := c } k := by
  show Claims.endsAt _ k ((f s.core).pc + 4#64) = _
  rw [hp]
  rfl

theorem taskDone_quiet (e : Nat) (h : s.core.mentries = []) :
    ∃ c, s.taskDone s.cur e = { s.upd (Core.taskOver e) with clusters := c } := by
  have hnone : (s.upd (Core.taskOver e)).entryActions s.cur = s.upd (Core.taskOver e) :=
    entryActions_none ((congrArg Core.mentries (getCore_cur (s.upd (Core.taskOver e)))).trans h)
  have hmap : s.mapCore s.cur (fun k => { k with tcnt := tset e (tget e k.tcnt 0 - 1) k.tcnt }) = s.upd (Core.taskOver e) :=
    mapCore_focus s _
  unfold State.taskDone
  rw [hmap, hnone]
  exact ringIdle_frame _ _

include ha hc

theorem tkdone_none (hr : s.core.ready { ss := [(a, 0)] } = true)
    (h : ∀ e x y n, tfind ((s.src a 0).toNat % 4) s.core.tasks ≠ some (e, x, y, n, true)) :
    exec (.tkdone a) s = s.trap 0x2C8#10 0#64 := by
  have hfield : wfield (s.src a 0) 0 2 = (s.src a 0).toNat % 4 := wfield_zero _ _
  refine (issue_ordered_calm ha hc hr _).trans ?_
  rw [hfield]
  split
  next e x y n hf => exact absurd hf (h e x y n)
  next => rfl

theorem tkdone_ends (hr : s.core.ready { ss := [(a, 0)] } = true) {e x y n : Nat}
    (h : tfind ((s.src a 0).toNat % 4) s.core.tasks = some (e, x, y, n, true)) (hm : s.core.mentries = []) :
    ∃ c, exec (.tkdone a) s =
      .next (Claims.ends { s with clusters := c }
        ((s.core.dropTask ((s.src a 0).toNat % 4)).taskOver e)) := by
  have hfield : wfield (s.src a 0) 0 2 = (s.src a 0).toNat % 4 := wfield_zero _ _
  obtain ⟨c, hdone⟩ := taskDone_quiet (s := s.upd (Core.dropTask ((s.src a 0).toNat % 4))) e hm
  refine ⟨c, (issue_ordered_calm ha hc hr _).trans ?_⟩
  rw [hfield, h]
  dsimp only
  have hentry : entryCk (s.core.entry e) = 0 := by
    simp [Core.entry, hm, tget, tfind, entryCk, field]
  rw [if_neg (by simp [hentry])]
  rw [State.upd_cur] at hdone
  have hdrop : (s.upd fun k => { k with tasks := terase ((s.src a 0).toNat % 4) k.tasks }) =
      s.upd (Core.dropTask ((s.src a 0).toNat % 4)) := rfl
  rw [hdrop, hdone]
  refine congrArg Host.Outcome.next
    ((clusters_advance (t := s.upd fun k => (k.dropTask ((s.src a 0).toNat % 4)).taskOver e) ha.quiet c).trans ?_)
  exact ends_upd_clusters rfl c _

theorem tkget_none (hr : s.core.ready { ds := [d] } = true) (ht : s.core.tasks = [])
    (h : (Claims.ringOf s).state = .off ∨ (Claims.ringOf s).state = .frozen) :
    exec (.tkget d) s = .next (Claims.ends s (s.core.writeS d 0#64)) := by
  have hnone : s.core.nextTask = none := by
    unfold Core.nextTask
    rw [ht]
    rfl
  refine (issue_ordered_calm ha hc hr _).trans ?_
  rw [hnone]
  exact (if_neg (not_stepping h)).trans (congrArg Host.Outcome.next (setS_advance_alone ha d _))

omit ha hc in
/-- The task in slot i that is not handed out, and fired before every other such task, is the next. -/
theorem nextTask_first {k : Core} {i e x y n : Nat} (hmem : (i, e, x, y, n, false) ∈ k.tasks)
    (hfirst : ∀ t ∈ k.tasks, t.2.2.2.2.2 = false → t ≠ (i, e, x, y, n, false) → n < t.2.2.2.2.1) :
    k.nextTask = some (i, e) := by
  have hin : (i, e, x, y, n, false) ∈ k.tasks.filter fun t => !t.2.2.2.2.2 := List.mem_filter.mpr ⟨hmem, rfl⟩
  have hle (t) (ht : t ∈ k.tasks.filter fun t => !t.2.2.2.2.2) : t = (i, e, x, y, n, false) ∨ n < t.2.2.2.2.1 := by
    obtain ⟨htm, htf⟩ := List.mem_filter.mp ht
    by_cases h : t = (i, e, x, y, n, false)
    · exact .inl h
    · exact .inr (hfirst t htm (by simpa using htf) h)
  have hmin : ((k.tasks.filter fun t => !t.2.2.2.2.2).map fun t => t.2.2.2.2.1).min? = some n := by
    refine List.min?_eq_some_iff.mpr ⟨List.mem_map.mpr ⟨_, hin, rfl⟩, fun m hm => ?_⟩
    obtain ⟨t, ht, rfl⟩ := List.mem_map.mp hm
    rcases hle t ht with rfl | hlt
    · exact Nat.le_refl _
    · exact Nat.le_of_lt hlt
  unfold Core.nextTask
  dsimp only
  rw [hmin]
  dsimp only
  obtain ⟨t, ht⟩ := Option.isSome_iff_exists.mp (List.find?_isSome.mpr ⟨_, hin, by simp⟩ :
    ((k.tasks.filter fun t => !t.2.2.2.2.2).find? fun t => decide (t.2.2.2.2.1 = n)).isSome = true)
  have hn : t.2.2.2.2.1 = n := by simpa using List.find?_some ht
  rw [ht]
  rcases hle t (List.mem_of_find?_eq_some ht) with rfl | hlt
  · rfl
  · omega

/-- The task in slot i is handed out. -/
def Core.handOut (k : Core) (i : Nat) : Core :=
  { k with
    tasks := k.tasks.map fun t =>
      if t.1 = i then (t.1, t.2.1, t.2.2.1, t.2.2.2.1, t.2.2.2.2.1, true) else t }

theorem tkget_first (hr : s.core.ready { ds := [d] } = true) {i e x y n : Nat}
    (hmem : (i, e, x, y, n, false) ∈ s.core.tasks) (honly : ∀ t ∈ s.core.tasks, t.1 = i → t = (i, e, x, y, n, false))
    (hfirst : ∀ t ∈ s.core.tasks, t.2.2.2.2.2 = false → t ≠ (i, e, x, y, n, false) → n < t.2.2.2.2.1) :
    exec (.tkget d) s =
      .next (Claims.ends s
        (({ s.core with
            tasks := s.core.tasks.map fun t => if t.1 = i then (i, e, x, y, n, true) else t } : Core).writeS d
          (BitVec.ofNat 64 (256 + 16 * e + i)))) := by
  have hmap : s.core.handOut i =
      { s.core with tasks := s.core.tasks.map fun t => if t.1 = i then (i, e, x, y, n, true) else t } := by
    refine congrArg (fun l => ({ s.core with tasks := l } : Core)) (List.map_congr_left fun t ht => ?_)
    split
    next h => rw [honly t ht h]
    next => rfl
  have hcode : i + e * 16 + 256 = 256 + 16 * e + i := by omega
  refine (issue_ordered_calm ha hc hr _).trans ?_
  rw [nextTask_first hmem hfirst]
  rw [← hmap, ← hcode]
  exact congrArg Host.Outcome.next (setS_upd_advance (f := fun k => k.handOut i) ha.quiet rfl d _)

end Tasks

/-! ### BINJ -/

section Binj
variable {s : State} {a : Reg} {va : Nat}

/-- The bead whose image is at va. -/
def State.beadAt (s : State) (va n : Nat) : Bead := beadOf (Claims.imageBytes s va n) s.cur s.ctxNo false

/-- The format byte of the bead whose image is at va. -/
def State.fmtAt (s : State) (va : Nat) : Nat := (memByte s.mem (Claims.ownKey s va + 0x10)).toNat

theorem imgByte_memReadBytes (m : List Host.Cell) (key : Nat) {n i : Nat} (h : i < n) :
    imgByte (memReadBytes m key n) i = (memByte m (key + i)).toNat := by
  rw [imgByte, memReadBytes_getD m key h]

/-- The header of a bead alone says whether it is bad, and its family. -/
theorem beadAt_header (s : State) (va : Nat) {n : Nat} (h : 64 ≤ n) :
    (s.beadAt va 64).tag = (s.beadAt va n).tag ∧ (s.beadAt va 64).pcnt = (s.beadAt va n).pcnt ∧
      (s.beadAt va 64).fmt = (s.beadAt va n).fmt := by
  unfold State.beadAt beadOf Claims.imageBytes
  dsimp only
  rw [imgNat_memReadBytes s.mem _ (by omega), imgNat_memReadBytes s.mem _ (by omega),
    imgByte_memReadBytes s.mem _ (by omega), imgByte_memReadBytes s.mem _ (by omega),
    memReadBytes_getD s.mem _ (by omega), memReadBytes_getD s.mem _ (by omega)]
  exact ⟨rfl, rfl, rfl⟩

theorem bad_congr {b c : Bead} (htag : b.tag = c.tag) (hp : b.pcnt = c.pcnt) (hf : b.fmt = c.fmt) : b.bad = c.bad := by
  unfold Bead.bad
  rw [htag, hp, hf]

theorem roomFor_congr {b c : Bead} (htag : b.tag = c.tag) (r : Ring) : r.roomFor b = r.roomFor c := by
  unfold Ring.roomFor Ring.famA
  rw [htag]

variable (ha : Claims.Alone s) (hc : Claims.Calm s) (hr : s.core.ready { ss := [(a, 0)] } = true)
  (hw : s.core.pendingWait = false) (hva : (s.src a 0).toNat = va) (h8 : va % 8 = 0)
include ha hc hr hw hva h8

theorem binj_off (h : (Claims.ringOf s).state = .off ∨ (Claims.ringOf s).state = .draining) :
    exec (.binj a 0#1) s = s.trap 0x2C7#10 0#64 := by
  subst hva
  exact (issue_ordered_calm ha hc hr _).trans ((if_neg (by simp [hw])).trans ((if_neg (by simp [h8])).trans (if_pos h)))

theorem binj_image (h : (Claims.ringOf s).state = .running ∨ (Claims.ringOf s).state = .frozen)
    (hi : Claims.Image s va (64 + bodySize (s.fmtAt va))) :
    exec (.binj a 0#1) s =
      if (s.beadAt va (64 + bodySize (s.fmtAt va))).bad then s.trap 0x2C4#10 0#64
      else if !(Claims.ringOf s).roomFor (s.beadAt va (64 + bodySize (s.fmtAt va))) then s.stall
      else
        .next (Claims.ends
          (Claims.withRing s ((Claims.ringOf s).join (s.beadAt va (64 + bodySize (s.fmtAt va))))) s.core) := by
  subst hva
  have hopen : ¬((Claims.ringOf s).state = .off ∨ (Claims.ringOf s).state = .draining) := by
    rcases h with h | h <;> simp [h]
  obtain ⟨htag, hp, hf⟩ := beadAt_header s (s.src a 0).toNat (Nat.le_add_right 64 (bodySize (s.fmtAt (s.src a 0).toNat)))
  have hfmt : imgByte (Claims.imageBytes s (s.src a 0).toNat 64) 0x10 = s.fmtAt (s.src a 0).toNat :=
    imgByte_memReadBytes s.mem _ (by decide)
  refine (issue_ordered_calm ha hc hr _).trans ((if_neg (by simp [hw])).trans ((if_neg (by simp [h8])).trans
    ((if_neg hopen).trans ?_)))
  rw [peekImage_own hc.buffer (image_prefix hi (Nat.le_add_right 64 _))]
  dsimp only
  rw [hfmt, readImage_own hc.buffer hi, ← bad_congr htag hp hf, ← roomFor_congr htag]
  rw [← withRing_advance ha.quiet]
  rfl

end Binj

/-! ### BTAKE and BSTAT -/

section Btake
variable {s : State} {d a : Reg} {tag : Nat} (ha : Claims.Alone s) (hc : Claims.Calm s)
  (hr : s.core.ready { ss := [(a, 0)], ds := [d] } = true) (htag : (s.src a 0).toNat % 2 ^ 32 = tag)

/-- The core that waits for no bead. -/
def Core.tookBead (k : Core) : Core := { k with ringWait := none, ringDone := none }

theorem tookBead_idle {k : Core} (hw : k.ringWait = none) (hd : k.ringDone = none) : k.tookBead = k :=
  (congrArg₂ (fun x y => ({ k with ringWait := x, ringDone := y } : Core)) hw hd).symm

/-- BTAKE is over, and gives the header word of its bead. -/
theorem btake_finishes {t : State} (hq : t.core.quiet) (w : Word) :
    ((t.upd Core.tookBead).setS d w).advance = Claims.ends t (t.core.tookBead.writeS d w) :=
  setS_upd_advance (f := Core.tookBead) hq rfl d w

include ha hc hr

theorem btake_done {w : Word} (h : s.core.ringDone = some w) :
    exec (.btake d a) s = .next (Claims.ends s (s.core.tookBead.writeS d w)) := by
  refine (issue_ordered_calm ha hc hr _).trans ?_
  rw [h]
  exact congrArg Host.Outcome.next (btake_finishes ha.quiet w)

section Idle
variable (hd : s.core.ringDone = none) (hw : s.core.ringWait = none)
include htag hd hw

omit hc hr htag in
/-- The state in which the ring of the own cluster is r, and BTAKE has given w. -/
theorem withRing_finishes (r : Ring) (w : Word) :
    (((s.setRing s.cl r).upd Core.tookBead).setS d w).advance = Claims.ends (Claims.withRing s r) (s.core.writeS d w) := by
  refine (btake_finishes (t := Claims.withRing s r) ha.quiet w).trans ?_
  exact congrArg (fun k => Claims.ends (Claims.withRing s r) (k.writeS d w)) (tookBead_idle hw hd)

theorem btake_absent (hq : (Claims.ringOf s).queued tag = none) (hf : (Claims.ringOf s).find tag = none) :
    exec (.btake d a) s = .next (Claims.ends s (s.core.writeS d 0#64)) := by
  subst htag
  refine (issue_ordered_calm ha hc hr _).trans ?_
  rw [hd]
  refine (if_neg (by simp [hw])).trans ?_
  rw [ring_cl, hq]
  dsimp only
  rw [hf]
  refine congrArg Host.Outcome.next ((btake_finishes ha.quiet 0#64).trans ?_)
  rw [tookBead_idle hw hd]

theorem btake_queued {f : Bool} {i : Nat} {b : Bead} (hq : (Claims.ringOf s).queued tag = some (f, i, b)) :
    exec (.btake d a) s =
      .next (Claims.ends
        (Claims.withRing s ((Claims.ringOf s).setQueue f (((Claims.ringOf s).queue f).eraseIdx i)))
        (s.core.writeS d b.headerWord)) := by
  have hfin := withRing_finishes (d := d) ha hd hw
    ((Claims.ringOf s).setQueue f (((Claims.ringOf s).queue f).eraseIdx i)) b.headerWord
  subst htag
  refine (issue_ordered_calm ha hc hr _).trans ?_
  rw [hd]
  refine (if_neg (by simp [hw])).trans ?_
  rw [ring_cl, hq]
  exact congrArg Host.Outcome.next hfin

theorem btake_standing {f : Bool} {st : Nat} {b : Bead} (hq : (Claims.ringOf s).queued tag = none)
    (hf : (Claims.ringOf s).find tag = some (f, st, b))
    (h : (Claims.ringOf s).state = .off ∨ (Claims.ringOf s).state = .frozen) :
    exec (.btake d a) s =
      .next (Claims.ends (Claims.withRing s ((Claims.ringOf s).remove f st)) (s.core.writeS d b.headerWord)) := by
  have hfin := withRing_finishes (d := d) ha hd hw ((Claims.ringOf s).remove f st) b.headerWord
  subst htag
  refine (issue_ordered_calm ha hc hr _).trans ?_
  rw [hd]
  refine (if_neg (by simp [hw])).trans ?_
  rw [ring_cl, hq]
  dsimp only
  rw [hf]
  exact (if_neg (not_stepping h)).trans (congrArg Host.Outcome.next hfin)

theorem btake_moving {f : Bool} {st : Nat} {b : Bead} (hq : (Claims.ringOf s).queued tag = none)
    (hf : (Claims.ringOf s).find tag = some (f, st, b))
    (h : (Claims.ringOf s).state = .running ∨ (Claims.ringOf s).state = .draining) :
    exec (.btake d a) s =
      ({ Claims.withRing s { Claims.ringOf s with takes := (Claims.ringOf s).takes ++ [(s.cur, tag)] } with
          core := { s.core with ringWait := some tag } } : State).waits := by
  subst htag
  refine (issue_ordered_calm ha hc hr _).trans ?_
  rw [hd]
  refine (if_neg (by simp [hw])).trans ?_
  rw [ring_cl, hq]
  dsimp only
  rw [hf]
  exact (if_pos ((stepping_iff _).mpr h)).trans rfl

end Idle

/-- What BSTAT reports of the ring with select 3. -/
def Ring.statusWord (r : Ring) : Word :=
  BitVec.ofNat 64 (r.state.code + r.queueA.length * 2 ^ 8 + r.queueB.length * 2 ^ 12 + r.steps % 2 ^ 32 * 2 ^ 32)

omit ha hc hr in
theorem statusWord_steps (r : Ring) (hA : r.queueA.length ≤ 8) (hB : r.queueB.length ≤ 8) :
    r.statusWord.toNat / 2 ^ 32 = r.steps % 2 ^ 32 := by
  have hcode : r.state.code ≤ 3 := by cases r.state <;> decide
  rw [Ring.statusWord, BitVec.toNat_ofNat]
  omega

theorem bstat_writes : ∃ v, exec (.bstat d a) s = .next (Claims.ends s (s.core.writeS d v)) ∧
    ((s.src a 0).toNat / 32 % 4 = 3 → v = (Claims.ringOf s).statusWord) := by
  refine ⟨_, (issue_ordered_calm ha hc hr _).trans (congrArg Host.Outcome.next (setS_advance_alone ha d _)), fun h => ?_⟩
  have hsel : wfield (s.src a 0) 5 2 = 3 := h
  rw [hsel]
  rfl

end Btake

/-! ### RGSUB and RGQUIET -/

section Rgsub
variable {s : State} {d a b : Reg} (ha : Claims.Alone s) (hc : Claims.Calm s)
  (hr : s.core.ready { ss := [(a, 0), (b, 0)], ds := [d] } = true)
include ha hc hr

/-- The core with the window that RGSUB fills on the side. -/
def Core.subscribing (k : Core) (x y : Word) : Core := { k with qw0 := 0x500000000#64, qw1 := x, qw2 := y, qw3 := 0#64 }

omit ha hc hr in
theorem subscribe_kind : wfield 0x500000000#64 32 4 = 5 :=
  rfl

/-- The core with the SUBSCRIBE job in its queue. -/
def Core.subscribed (k : Core) (x y : Word) (keys : BitVec 256) : Core :=
  k.enqueueJob ((k.subscribing x y).jobOf keys)

theorem rgsub_submits (hroom : s.core.jobs.length < 2) (hx : (s.src a 0).toNat % 8 = 0) (hy : (s.src b 0).toNat % 8 = 0) :
    exec (.rgsub d a b) s =
      .next (Claims.ends s ((s.core.subscribed (s.src a 0) (s.src b 0) s.keysNow).writeS d
        (BitVec.ofNat 64 s.core.nextJob))) := by
  have hok : (s.core.subscribing (s.src a 0) (s.src b 0)).badJob = false := by
    have hhigh : wfield 0x500000000#64 41 23 = 0 := rfl
    have hmid : wfield 0x500000000#64 36 4 = 0 := rfl
    have hadd : wbit 0x500000000#64 40 = false := rfl
    simp [Core.badJob, Core.subscribing, Core.jobKind, hx, hy, subscribe_kind, hhigh, hmid, hadd]
  refine (issue_ordered_calm ha hc hr _).trans ((if_neg (ne_true_of_eq_false hok)).trans ((if_neg (by
    show ¬2 ≤ s.core.jobs.length
    omega)).trans ?_))
  exact congrArg Host.Outcome.next
    (setS_upd_advance (f := fun k => k.subscribed (s.src a 0) (s.src b 0) s.keysNow) ha.quiet rfl d _)

end Rgsub

section Rgquiet
variable {s : State} (ha : Claims.Alone s) (hc : Claims.Calm s)
include ha hc

theorem rgquiet_quiet (h : (Claims.ringOf s).state = .off ∨ (Claims.ringOf s).state = .draining) :
    exec .rgquiet s = .next (Claims.ends s s.core) := by
  refine (issue_ordered_calm (n := {}) ha hc rfl _).trans ?_
  rw [ring_cl]
  dsimp only
  rcases h with h | h
  · rw [h]
    exact congrArg Host.Outcome.next (advance_alone ha.quiet)
  · rw [h]
    exact congrArg Host.Outcome.next (advance_alone ha.quiet)

theorem rgquiet_frozen (h : (Claims.ringOf s).state = .frozen) :
    exec .rgquiet s = .next (Claims.ends (Claims.withRing s { (Claims.ringOf s).empty with state := .off }) s.core) := by
  refine (issue_ordered_calm (n := {}) ha hc rfl _).trans ?_
  rw [ring_cl]
  dsimp only
  rw [h]
  exact congrArg Host.Outcome.next (withRing_advance ha.quiet _)

/-- The ring of the own cluster still has work to drain. -/
def State.ringBusy (s : State) : Prop :=
  (Claims.ringOf s).slotA ≠ [] ∨ (Claims.ringOf s).slotB ≠ [] ∨
    ∃ i < 16, (s.getCore (s.cur / 16 * 16 + i)).noTasks = false

theorem rgquiet_running (h : (Claims.ringOf s).state = .running) :
    exec .rgquiet s =
      .next ((Claims.withRing s { Claims.ringOf s with state := .draining }).ringIdle s.cl).advance := by
  refine (issue_ordered_calm (n := {}) ha hc rfl _).trans ?_
  rw [ring_cl]
  dsimp only
  rw [h]
  rfl

omit ha hc in
theorem ringIdle_busy (hb : s.ringBusy) :
    (Claims.withRing s { Claims.ringOf s with state := .draining }).ringIdle s.cl =
      Claims.withRing s { Claims.ringOf s with state := .draining } := by
  refine if_neg ?_
  have hring : (Claims.withRing s { Claims.ringOf s with state := .draining }).ring s.cl =
      { Claims.ringOf s with state := .draining } := ringOf_withRing s _
  rw [hring]
  rintro ⟨-, hA, hB, hcores⟩
  rcases hb with h | h | ⟨i, hi, h⟩
  · exact h (List.isEmpty_iff.mp hA)
  · exact h (List.isEmpty_iff.mp hB)
  · have hcore := List.all_eq_true.mp hcores i (List.mem_range.mpr hi)
    rw [Nat.mul_comm] at h
    exact Bool.false_ne_true (h.symm.trans hcore)

omit ha hc in
theorem ringIdle_idle (hb : ¬s.ringBusy) :
    (Claims.withRing s { Claims.ringOf s with state := .draining }).ringIdle s.cl =
      (Claims.withRing s { Claims.ringOf s with state := .draining }).setRing s.cl
        { (Claims.ringOf s).empty with state := .off } := by
  have hring : (Claims.withRing s { Claims.ringOf s with state := .draining }).ring s.cl =
      { Claims.ringOf s with state := .draining } := ringOf_withRing s _
  unfold State.ringIdle
  rw [hring]
  refine if_pos ⟨rfl, ?_, ?_, List.all_eq_true.mpr fun i hi => ?_⟩
  · exact List.isEmpty_iff.mpr (not_not.mp fun h => hb (.inl h))
  · exact List.isEmpty_iff.mpr (not_not.mp fun h => hb (.inr (.inl h)))
  · by_contra h
    refine hb (.inr (.inr ⟨i, List.mem_range.mp hi, ?_⟩))
    rw [Nat.mul_comm]
    exact Bool.eq_false_iff.mpr h

theorem rgquiet_busy (h : (Claims.ringOf s).state = .running) (hb : s.ringBusy) :
    exec .rgquiet s =
      .next (Claims.ends (Claims.withRing s { Claims.ringOf s with state := .draining }) s.core) := by
  rw [rgquiet_running ha hc h, ringIdle_busy hb]
  exact congrArg Host.Outcome.next (withRing_advance ha.quiet _)

theorem rgquiet_drained (h : (Claims.ringOf s).state = .running) (hb : ¬s.ringBusy) :
    exec .rgquiet s =
      .next (Claims.ends
        (Claims.withRing (Claims.withRing s { Claims.ringOf s with state := .draining })
          { (Claims.ringOf s).empty with state := .off }) s.core) := by
  rw [rgquiet_running ha hc h, ringIdle_idle hb]
  exact congrArg Host.Outcome.next (withRing_withRing_advance ha.quiet _ _)

end Rgquiet

end Sys2Proof.Machine

namespace Sys2Proof.Proofs

open Sys2Proof Sys2Proof.Machine

/-- Settles O29: each clause is the rule of its instruction above. -/
theorem ringCommands : Obligations.RingCommands := by
  unfold Obligations.RingCommands
  intro s ha hc r
  refine ⟨fun a hr => ⟨rgcfg_busy ha hc hr, fun h => ⟨rgcfg_malformed ha hc hr h, fun hgood => ?_⟩, fun h8 hi ht hd => ?_,
    tkdone_none ha hc hr, fun e x y n h hm => ?_⟩, mtclr_idle ha hc, ?_, ?_, fun d hr => ⟨tkget_none ha hc hr,
    fun i e x y n => tkget_first ha hc hr⟩, fun d a b hr hroom hx hy => ?_, rgquiet_quiet ha hc, fun h => ?_,
    rgquiet_frozen ha hc⟩
  · refine ⟨_, rgcfg_starts ha hc hr h hgood, ?_, ?_, mem_ends _ (ringStarted_mem s _)⟩
    · exact stepped_ends (ringStarted_pc s _)
    · rw [ringOf_ends, ringStarted_ring]
  · rw [mtld_image ha hc hr h8 hi, loadMatch_idle ha ht hd]
    refine ⟨fun hbad => if_pos hbad, fun hgood =>
      ⟨_, if_neg (by simp [hgood]), rfl, rfl, rfl, fun i hi => ?_, fun i hi => ?_⟩⟩
    · exact setMatch_entries s _ i hi
    · exact setMatch_targets s _ i hi
  · obtain ⟨c, htk⟩ := tkdone_ends ha hc hr h hm
    exact ⟨_, htk, rfl, rfl, tget_tset_same ..⟩
  · intro a hr hw h8 va fmt b
    refine ⟨binj_off ha hc hr hw rfl h8, fun h hi => ?_⟩
    have himg := binj_image ha hc hr hw rfl h8 h hi
    refine ⟨fun hbad => himg.trans (if_pos hbad), fun hgood hroom => himg.trans ((if_neg ?_).trans (if_neg ?_))⟩
    · exact ne_true_of_eq_false hgood
    · rw [show (Claims.ringOf s).roomFor (s.beadAt va (64 + bodySize (s.fmtAt va))) = true from hroom]
      exact Bool.false_ne_true
  · intro d a hr tag
    refine ⟨fun hq hf hd hw => btake_absent ha hc hr rfl hd hw hq hf, fun f i b hq hd hw =>
      ⟨_, btake_queued ha hc hr rfl hd hw hq, rfl, ?_⟩, fun f st b hq hf hd hw =>
      ⟨btake_standing ha hc hr rfl hd hw hq hf, btake_moving ha hc hr rfl hd hw hq hf⟩,
      fun w h => btake_done ha hc hr h, ?_⟩
    · rw [ringOf_ends, ringOf_withRing, ring_queue_setQueue]
    · obtain ⟨v, hv, hsel⟩ := bstat_writes ha hc hr
      exact ⟨v, hv, fun h hA hB => by rw [hsel h]; exact statusWord_steps _ hA hB⟩
  · exact ⟨_, rgsub_submits ha hc hr hroom hx hy, rfl, subscribe_kind, rfl, rfl⟩
  · refine ⟨rgquiet_busy ha hc h, fun hb => ⟨_, rgquiet_drained ha hc h hb, rfl, rfl, ?_⟩⟩
    rw [ringOf_ends]
    exact ringOf_withRing _ _

end Sys2Proof.Proofs
end

section
/-! SUPPORT. Channels: where their counters and messages lie, what a transfer reads and writes, and the CHN instructions (R346,
R358 to R360). -/

namespace Sys2Proof.Machine

open Sys2Proof

/-! ### The fields of a binding -/

section Binding
variable (b : Word × Word)

theorem bindPeer_eq : bindPeer b = Claims.peer b := rfl

theorem bindSize_eq : bindSize b = Claims.bytes b := rfl

theorem bindDepth_eq : bindDepth b = Claims.depth b := rfl

theorem bindCtr_eq : bindCtr b = Claims.ctr b := by
  simp only [bindCtr, Claims.ctr, wfield_zero]

theorem bindBuf_eq : bindBuf b = Claims.buf b := by
  simp only [bindBuf, Claims.buf, wfield_zero]

theorem bindPlace_eq (n : Nat) : bindPlace b n = Claims.buf b + n % Claims.depth b * Claims.bytes b := by
  rw [bindPlace, bindBuf_eq, bindDepth_eq, bindSize_eq]

variable {b}

theorem bindSzm1_one_block : bindSzm1 b = 0 ↔ Claims.bytes b = 64 := by
  rw [← bindSize_eq, bindSize]
  omega

theorem receiver_sends {s : State} (h : Claims.sends b = true) : s.receiver b = Claims.peer b := by
  rw [State.receiver, bindDir_eq, h]
  rfl

theorem receiver_receives {s : State} (h : Claims.sends b = false) : s.receiver b = s.cur := by
  rw [State.receiver, bindDir_eq, h]
  rfl

theorem bindDir_sends (h : Claims.sends b = true) : bindDir b = 0 := by
  rw [bindDir_eq, h]
  rfl

theorem bindDir_receives (h : Claims.sends b = false) : bindDir b = 1 := by
  rw [bindDir_eq, h]
  rfl

theorem bytes_mod_eight : Claims.bytes b % 8 = 0 := by
  rw [Claims.bytes]
  omega

end Binding

/-! ### The loads of the counters -/

section Counters
variable {s : State} (hb : Claims.Bare s) (hs : Claims.Settled s) {b : Word × Word}

theorem watchServed_none {s : State} {o : CoreId} (h : (s.getCore o).wp = []) (acc : Access) (own : Bool) (addr n : Nat)
    (agent : CoreId) (v : Word) : s.watchServed o acc own addr n agent v = s := by
  rw [State.watchServed, wpMatch_none h]

/-- No watchpoint sees a read of the scratchpad of a core that has none set. -/
theorem watchRead_scratch_none (hw : s.core.wp = []) {c : CoreId} (hc : (s.getCore c).wp = []) (base off n : Nat) :
    s.watchRead false [scratchPiece c base off n] = s := by
  unfold State.watchRead
  rw [if_neg Bool.false_ne_true, watchPieces_none hw]
  refine foldl_eq_self fun p hp => ?_
  obtain rfl := List.mem_singleton.mp hp
  show (if c = s.cur then s else _) = s
  split
  · rfl
  · exact watchServed_none hc ..

include hb hs

theorem storeNear_bare (loads : Bool) (c : CoreId) (addr n : Nat) : s.storeNear s.cur loads (.scratch c) addr n = false := by
  rw [State.storeNear, getCore_cur, (settled_calm hs).out, hb.flight]
  rfl

theorem withCounters_bare (hw : (s.getCore (s.receiver b)).wp = []) (body : State → Nat → Nat → Out) :
    s.withCounters b body = body s (Claims.sentOf s (s.receiver b) b) (Claims.takenOf s (s.receiver b) b) := by
  unfold State.withCounters
  dsimp only
  rw [storeNear_bare hb hs, if_neg Bool.false_ne_true, poisonIn_clean hb.poison, if_neg Bool.false_ne_true,
    watchRead_scratch_none hb.watch hw, watchRead_scratch_none hb.watch hw]
  simp only [State.counter, Claims.sentOf, Claims.takenOf, bindCtr_eq, Nat.mul_zero, Nat.mul_one, Nat.add_zero]

end Counters

/-! ### The stores of a transfer -/

section Send
variable {s : State}

/-- The state after an acquire at PKG scope, with nothing on its way: no data line of the L1 stays. -/
theorem acquired_core (s : State) : (s.acquired .pkg).core = { s.core with l1d := [] } := rfl

theorem acquired_flight (hb : Claims.Bare s) : (s.acquired .pkg).flight = [] := by
  show s.flight.map _ = []
  rw [hb.flight, List.map_nil]

theorem barredPieces_idle (hm : s.core.mqueue = []) (ps : List Piece) : s.barredPieces ps = false :=
  List.any_eq_false.mpr fun p _ => by simp [interlocked_idle hm]

/-- Outside loops with W > 1, without watchpoints, the stores drain. -/
theorem sendPieces_drains (hw : s.core.wp = []) (ps : List Piece) (bytes : Nat) :
    s.sendPieces ps bytes = s.drain (ps.map (s.storeReq .store false bytes)) := by
  unfold State.sendPieces
  rw [watchPieces_none hw]
  rfl

end Send

/-- The core has taken the first j journal entries and no other. -/
def Core.journalUpTo (k : Core) (j : Nat) : Prop := ∀ i, (tfind i k.journal).isSome = true ↔ i < j

theorem freeEntry_journalUpTo {k : Core} {j : Nat} (h : k.journalUpTo j) (hj : j < 32) : k.freeEntry = some j := by
  refine List.find?_range_eq_some.mpr ⟨?_, List.mem_range.mpr hj, fun i hi => ?_⟩
  · have := (h j).not.mpr (lt_irrefl j)
    simpa using this
  · have := (h i).mpr hi
    simpa using this

theorem journalUpTo_zero {k : Core} (h : k.journal = []) : k.journalUpTo 0 := by
  intro i
  rw [h]
  simp [tfind]

theorem journalUpTo_set {k : Core} {j : Nat} (h : k.journalUpTo j) (w : Word32) (l : Tab Nat) :
    ({ k with journal := tset j w k.journal, journalAt := l } : Core).journalUpTo (j + 1) := by
  intro i
  show (tfind i (tset j w k.journal)).isSome = true ↔ _
  by_cases hij : i = j
  · subst hij
    simp [tfind_tset_same]
  · rw [tfind_tset_of_ne hij, h i]
    omega

/-- The core with other stores in its endpoint and its journal. -/
def Core.withPosts (k : Core) (q : List Req) (j : Tab Word32) (at' : Tab Nat) : Core :=
  { k with outq := q, journal := j, journalAt := at' }

/-- A store to the scratchpad of another core. -/
def Req.toOther (s : State) (r : Req) : Prop := ∃ c, r.place = .scratch c ∧ c ≠ s.cur

section Far
variable {s : State} {r : Req} {l : List Req} {c : CoreId}

/-- It takes the lowest free journal entry and leaves, or it and the later ones wait. -/
theorem drain_other (hp : r.place = .scratch c) (hc : c ≠ s.cur) (l : List Req) :
    s.drain (r :: l) =
      match s.core.freeEntry with
      | none => s.upd fun k => { k with outq := r :: l }
      | some i =>
        ({ s.takeEntry i c r.addr r.size with flight := s.flight ++ [{ r with journal := some i }] } : State).drain l := by
  have hturn : s.outOfTurn r = false := outOfTurn_remote (by rw [hp]; exact fun h => hc (Place.scratch.inj h))
  have howner : s.remoteOwner r = some c := by
    rw [State.remoteOwner, hp]
    exact if_neg hc
  rw [State.drain, hturn, if_neg Bool.false_ne_true, howner]
  dsimp only
  cases s.core.freeEntry with
  | none => rfl
  | some i =>
    dsimp only
    congr 1
    unfold State.send
    dsimp only
    rw [hp]
    exact if_neg hc

/-- Such stores change the endpoint, the journal and what is on its way. -/
theorem drain_other_frame (h : ∀ r ∈ l, r.toOther s) :
    ∃ q j a fl, s.drain l = { s with core := s.core.withPosts q j a, flight := fl } := by
  induction l generalizing s with
  | nil => exact ⟨_, _, _, _, rfl⟩
  | cons r l ih =>
    obtain ⟨c, hp, hc⟩ := h r List.mem_cons_self
    rw [drain_other hp hc]
    cases s.core.freeEntry with
    | none => exact ⟨_, _, _, _, rfl⟩
    | some i =>
      obtain ⟨q, j, a, fl, hrest⟩ := ih (s := { s.takeEntry i c r.addr r.size with
        flight := s.flight ++ [{ r with journal := some i }] }) fun x hx => h x (List.mem_cons_of_mem r hx)
      exact ⟨q, j, a, fl, hrest⟩

/-- As many as there are free entries all leave. -/
theorem drain_other_leaves {j : Nat} (hj : s.core.journalUpTo j) (hn : j + l.length ≤ 32) (h : ∀ r ∈ l, r.toOther s) :
    (∀ r ∈ s.flight, r ∈ (s.drain l).flight) ∧
      ∀ r ∈ l, ∃ e, { r with journal := some e } ∈ (s.drain l).flight := by
  induction l generalizing s j with
  | nil => exact ⟨fun r hr => hr, fun r hr => absurd hr List.not_mem_nil⟩
  | cons r l ih =>
    obtain ⟨c, hp, hc⟩ := h r List.mem_cons_self
    rw [List.length_cons] at hn
    rw [drain_other hp hc, freeEntry_journalUpTo hj (by omega)]
    obtain ⟨hkeep, hleave⟩ := ih (s := { s.takeEntry j c r.addr r.size with
      flight := s.flight ++ [{ r with journal := some j }] }) (journalUpTo_set hj _ _) (by omega)
      fun x hx => h x (List.mem_cons_of_mem r hx)
    refine ⟨fun x hx => hkeep x (List.mem_append_left _ hx), fun x hx => ?_⟩
    rcases List.mem_cons.mp hx with rfl | hx
    · exact ⟨j, hkeep _ (List.mem_append_right _ List.mem_cons_self)⟩
    · exact hleave x hx

end Far

/-! ### Stores to the own scratchpad in pieces -/

section Near
variable {s : State}

/-- A byte that a row of writes of the parts of a block covers, or that it was right before, is right after them. -/
theorem memByte_written {D : Nat → Byte} {key : Nat} {l : List (Nat × Nat × Nat)}
    (hD : ∀ r ∈ l, ∀ i < r.2.1, BitVec.ofNat 8 (r.2.2 / 256 ^ i) = D (r.1 + i)) (m : List Host.Cell) {i : Nat}
    (h : memByte m (key + i) = D i ∨ ∃ r ∈ l, r.1 ≤ i ∧ i < r.1 + r.2.1) :
    memByte (l.foldl (fun m r => memWrite m (key + r.1) r.2.2 r.2.1) m) (key + i) = D i := by
  induction l generalizing m with
  | nil => exact h.resolve_right fun ⟨r, hr, _⟩ => absurd hr List.not_mem_nil
  | cons r l ih =>
    rw [List.foldl_cons]
    refine ih (fun x hx => hD x (List.mem_cons_of_mem r hx)) _ ?_
    by_cases hin : r.1 ≤ i ∧ i < r.1 + r.2.1
    · left
      obtain ⟨o, rfl⟩ := Nat.exists_eq_add_of_le hin.1
      rw [← Nat.add_assoc, memByte_memWrite_inside _ _ _ _ _ (by omega)]
      exact hD r List.mem_cons_self o (by omega)
    · rcases h with h | ⟨x, hx, hxi⟩
      · left
        rw [memByte_memWrite_of_outside _ _ _ _ _ (by omega)]
        exact h
      · rcases List.mem_cons.mp hx with rfl | hx
        · exact absurd hxi hin
        · exact .inr ⟨x, hx, hxi⟩

/-- Byte i of the number of a part. -/
theorem byte_of_part (v off : Nat) {len i : Nat} (h : i < len) :
    BitVec.ofNat 8 (v / 256 ^ off % 256 ^ len / 256 ^ i) = BitVec.ofNat 8 (v / 256 ^ (off + i)) := by
  apply BitVec.eq_of_toNat_eq
  obtain ⟨k, rfl⟩ := Nat.exists_eq_add_of_lt h
  rw [BitVec.toNat_ofNat, BitVec.toNat_ofNat, Nat.add_assoc, pow_add, Nat.mod_mul_right_div_self,
    Nat.div_div_eq_div_mul, ← pow_add, pow_succ', Nat.mod_mod_of_dvd _ (Dvd.intro _ rfl)]

/-- Byte i of the number that a block of memory reads as. -/
theorem byte_memRead (m : List Host.Cell) (a : Nat) {n i : Nat} (h : i < n) :
    BitVec.ofNat 8 (memRead m a n / 256 ^ i) = memByte m (a + i) := by
  apply BitVec.eq_of_toNat_eq
  have hbyte := memRead_div_mod m a (k := i) (n := 1) (l := n) h
  rw [BitVec.toNat_ofNat, show 2 ^ 8 = 256 ^ 1 from rfl, hbyte]
  simp [memRead]

/-- The granules of a piece lie in it. -/
theorem mem_splitGranules {addr len : Nat} {x : Nat × Nat} (h : x ∈ State.storeMessage.splitGranules addr len) :
    0 < x.2 ∧ x.2 ≤ 8 ∧ x.1 + x.2 ≤ len := by
  obtain ⟨hmem, hne⟩ := List.mem_filter.mp h
  obtain ⟨i, -, rfl⟩ := List.mem_map.mp hmem
  have hpos := of_decide_eq_true hne
  dsimp only at hpos ⊢
  omega

/-- They hold each of its bytes. -/
theorem splitGranules_covers (addr : Nat) {len k : Nat} (h : k < len) :
    ∃ x ∈ State.storeMessage.splitGranules addr len, x.1 ≤ k ∧ k < x.1 + x.2 := by
  refine ⟨_, List.mem_filter.mpr
    ⟨List.mem_map.mpr ⟨(k + addr % 8) / 8, List.mem_range.mpr ?_, rfl⟩, decide_eq_true ?_⟩, ?_, ?_⟩
  · omega
  all_goals dsimp only; omega

/-- The parts of a message that is written to va. -/
def messageParts (c : CoreId) (va n : Nat) : List Piece :=
  ((blockAccesses va n).map (ownPiece c)).flatMap fun p =>
    (State.storeMessage.splitGranules p.addr p.len).map fun x =>
      { p with off := p.off + x.1, len := x.2, va := p.va + x.1, addr := p.addr + x.1 }

variable {va n : Nat}

/-- n bytes at va that a store may write: in the own scratchpad, unwatched and clean. -/
theorem ownLanes_block (hb : Claims.Bare s) (h : Claims.inOwn s va n) : OwnLanes s .store (blockAccesses va n) := by
  obtain ⟨hap, -, hsize, hroom⟩ := h
  intro r hr
  obtain ⟨i, hi, rfl⟩ := List.mem_map.mp hr
  have hi := List.mem_range.mp hi
  dsimp only
  exact ⟨⟨by omega, by omega, by omega, wpMatch_none hb.watch .., poisonIn_clean hb.poison ..⟩, by omega⟩

theorem mem_messageParts (h : Claims.inOwn s va n) {p : Piece} (hp : p ∈ messageParts s.cur va n) :
    p.place = .scratch s.cur ∧ p.addr = va % 2 ^ 56 + p.off ∧ p.len ≤ 8 ∧ p.off + p.len ≤ n := by
  obtain ⟨hap, -, hsize, hroom⟩ := h
  obtain ⟨q, hq, hpq⟩ := List.mem_flatMap.mp hp
  obtain ⟨r, hr, rfl⟩ := List.mem_map.mp hq
  obtain ⟨i, hi, rfl⟩ := List.mem_map.mp hr
  have hi := List.mem_range.mp hi
  obtain ⟨x, hx, rfl⟩ := List.mem_map.mp hpq
  obtain ⟨hpos, hle, hfit⟩ := mem_splitGranules hx
  dsimp only [ownPiece] at hfit ⊢
  refine ⟨rfl, ?_, hle, ?_⟩ <;> omega

theorem messageParts_covers (c : CoreId) (va : Nat) {n i : Nat} (h : i < n) :
    ∃ p ∈ messageParts c va n, p.off ≤ i ∧ i < p.off + p.len := by
  have hblock : (va + 128 * (i / 128), min 128 (n - 128 * (i / 128)), 128 * (i / 128)) ∈ blockAccesses va n :=
    List.mem_map.mpr ⟨i / 128, List.mem_range.mpr (by omega), rfl⟩
  obtain ⟨x, hx, hlo, hhi⟩ := splitGranules_covers
    (ownPiece c (va + 128 * (i / 128), min 128 (n - 128 * (i / 128)), 128 * (i / 128))).addr
    (len := min 128 (n - 128 * (i / 128))) (k := i % 128) (by omega)
  refine ⟨_, List.mem_flatMap.mpr ⟨_, List.mem_map.mpr ⟨_, hblock, rfl⟩, List.mem_map.mpr ⟨x, hx, rfl⟩⟩, ?_, ?_⟩
  all_goals dsimp only [ownPiece]; omega

theorem homeStore_own (hb : Claims.Bare s) {p : Piece} (hp : p.place = .scratch s.cur) (bytes : Nat) :
    HomeStore s (s.storeReq .store false bytes p) where
  place := hp
  kind := rfl
  clean := poisonIn_clean hb.poison ..
  whole := fun _ _ => by simp [hb.poison]
  turn := fun e he => by simp [hb.flight] at he

/-- Memory after the writes of the pieces of a message to a scratchpad. -/
def piecesWritten (c : CoreId) (bytes : Nat) (ps : List Piece) (m : List Host.Cell) : List Host.Cell :=
  ps.foldl (fun m p => memWrite m (scratchKey c p.addr) (bytes / 256 ^ p.off % 256 ^ p.len) p.len) m

/-- Stores to the own scratchpad, of parts with at most eight bytes, change memory alone. -/
theorem sendPieces_own (hb : Claims.Bare s) {ps : List Piece}
    (hps : ∀ p ∈ ps, p.place = .scratch s.cur ∧ p.len ≤ 8) (bytes : Nat) :
    s.sendPieces ps bytes =
      { s with mem := piecesWritten s.cur bytes ps s.mem } := by
  rw [sendPieces_drains hb.watch]
  refine (drain_home (s := s) s.mem fun r hr => ?_).trans ?_
  · obtain ⟨p, hp, rfl⟩ := List.mem_map.mp hr
    exact homeStore_own hb (hps p hp).1 bytes
  · rw [List.foldl_map, piecesWritten]
    congr 1
    refine List.foldl_ext _ _ _ fun m p hp => ?_
    have hlt : bytes / 256 ^ p.off % 256 ^ p.len < 2 ^ 64 :=
      (Nat.mod_lt _ (by positivity)).trans_le (Nat.pow_le_pow_right (by decide) (hps p hp).2)
    exact congrArg (memWrite m (scratchKey s.cur p.addr) · p.len) (Nat.mod_eq_of_lt hlt)

/-- The message is written, and nothing else changes. -/
theorem storeMessage_own (hb : Claims.Bare s) (hm : s.core.mqueue = []) (h : Claims.inOwn s va n) (bytes : Nat)
    (body : State → Out) :
    ∃ m, s.storeMessage va n bytes body = body { s with mem := m } ∧
      ∀ i < n, memByte m (Claims.ownKey s va + i) = BitVec.ofNat 8 (bytes / 256 ^ i) := by
  have hparts (p : Piece) (hp : p ∈ messageParts s.cur va n) := mem_messageParts h hp
  refine ⟨piecesWritten s.cur bytes (messageParts s.cur va n) s.mem, ?_, fun i hi => ?_⟩
  · unfold State.storeMessage
    rw [plan_ownLanes (ownLanes_block hb h)]
    dsimp only
    refine (if_neg (by rw [barredPieces_idle hm]; exact Bool.false_ne_true)).trans (congrArg body ?_)
    exact sendPieces_own hb (fun p hp => ⟨(hparts p hp).1, (hparts p hp).2.2.1⟩) bytes
  · have hwrites : piecesWritten s.cur bytes (messageParts s.cur va n) s.mem =
        ((messageParts s.cur va n).map fun p => (p.off, p.len, bytes / 256 ^ p.off % 256 ^ p.len)).foldl
          (fun m r => memWrite m (Claims.ownKey s va + r.1) r.2.2 r.2.1) s.mem := by
      rw [List.foldl_map, piecesWritten]
      refine List.foldl_ext _ _ _ fun m p hp => ?_
      rw [(hparts p hp).2.1, scratchKey_add]
      rfl
    rw [hwrites]
    refine memByte_written (D := fun i => BitVec.ofNat 8 (bytes / 256 ^ i)) (fun r hr o ho => ?_) s.mem (.inr ?_)
    · obtain ⟨p, -, rfl⟩ := List.mem_map.mp hr
      exact byte_of_part bytes p.off ho
    · obtain ⟨p, hp, hcover⟩ := messageParts_covers s.cur va hi
      exact ⟨_, List.mem_map.mpr ⟨p, hp, rfl⟩, hcover⟩

end Near

/-! ### CHPOLL -/

section Chan
variable {s : State} {c : BitVec 4} {b : Word × Word} (ha : Claims.Alone s) (hs : Claims.Settled s) (hb : Claims.Bare s)
  (hbind : s.core.binding c.toNat = b)

theorem receiver_watch_sends (hsend : Claims.sends b = true) (hfar : (s.getCore (Claims.peer b)).wp = []) :
    (s.getCore (s.receiver b)).wp = [] := by
  rw [receiver_sends hsend]
  exact hfar

include hb in
theorem receiver_watch_receives (hrecv : Claims.sends b = false) : (s.getCore (s.receiver b)).wp = [] := by
  rw [receiver_receives hrecv, getCore_cur]
  exact hb.watch

include hs hbind

section Chpoll
variable {d : Reg} (hr : s.core.ready { ds := [d] } = true)
include ha hr

theorem chpoll_unbound (hk : Claims.kind b ≠ 1) : exec (.chpoll d c) s = s.trap 0x345#10 0#64 := by
  refine (issue_ordered_calm ha (settled_calm hs) hr _).trans (if_pos ?_)
  rw [hbind, bindKind_eq]
  exact hk

include hb

theorem chpoll_counts (hk : Claims.kind b = 1) (hw : (s.getCore (s.receiver b)).wp = []) :
    exec (.chpoll d c) s =
      .next (Claims.ends s (s.core.writeS d
        (if bindDir b = 0 then BitVec.ofNat 64 (Claims.depth b) - BitVec.ofNat 64 (Claims.inside s (s.receiver b) b)
          else BitVec.ofNat 64 (Claims.inside s (s.receiver b) b)))) := by
  refine (issue_ordered_calm ha (settled_calm hs) hr _).trans ((if_neg ?_).trans ?_)
  · rw [hbind, bindKind_eq]
    exact not_not.mpr hk
  · rw [hbind, withCounters_bare hb hs hw]
    exact congrArg Host.Outcome.next (setS_advance_alone ha d _)

end Chpoll

/-! ### Sends -/

section Send
variable {d : Reg} {vector : Bool} {align : Nat} {source : State → Nat → (State → Nat → Out) → Out}

theorem chanSend_badSize (hv : vector = true) (h : Claims.bytes b ≠ 64) :
    s.chanSend d c vector align source = s.trap 0x345#10 0#64 := by
  unfold State.chanSend
  rw [ordered_settled hs, hbind]
  exact if_pos (.inr (.inr ⟨hv, mt bindSzm1_one_block.mp h⟩))

/-- A send over a channel of the right form begins with its wait, or ends. -/
theorem chanSend_good (hk : Claims.kind b = 1) (hsend : Claims.sends b = true) (hv : vector = true → Claims.bytes b = 64)
    (halign : align % 8 = 0) :
    s.chanSend d c vector align source =
      if s.core.chanStep ≠ 0 then
        s.chanRelease b 0 (s.core.chanStep - 1) fun t => t.setS d (BitVec.ofNat 64 (s.core.chanStep - 1))
      else
        s.withCounters b fun s sent taken =>
          if bindDepth b ≤ inChannel sent taken then s.waits
          else
            source (s.acquired .pkg) (bindSize b) fun t bytes =>
              if t.barredPieces (scratchPieces (t.receiver b) (bindPlace b sent) (bindSize b)) then t.stall
              else (t.sendPieces (scratchPieces (t.receiver b) (bindPlace b sent) (bindSize b)) bytes).passed sent := by
  unfold State.chanSend
  rw [ordered_settled hs, hbind]
  refine (if_neg ?_).trans (if_neg (not_not.mpr halign))
  rw [bindKind_eq, bindDir_sends hsend]
  rintro (h | h | ⟨h, h'⟩)
  · exact h hk
  · exact h rfl
  · exact h' (bindSzm1_one_block.mpr (hv h))

include hb

variable (hk : Claims.kind b = 1) (hsend : Claims.sends b = true) (hv : vector = true → Claims.bytes b = 64)
  (halign : align % 8 = 0)
include hk hsend hv halign

section Wait
variable (hfar : (s.getCore (Claims.peer b)).wp = []) (hstep : s.core.chanStep = 0)
include hfar hstep

theorem chanSend_full (hfull : Claims.depth b ≤ Claims.inside s (Claims.peer b) b) :
    s.chanSend d c vector align source = s.waits := by
  rw [chanSend_good hs hbind hk hsend hv halign, if_neg (not_not.mpr hstep),
    withCounters_bare hb hs (receiver_watch_sends hsend hfar), receiver_sends hsend]
  exact if_pos hfull

theorem chanSend_moves (hroom : Claims.inside s (Claims.peer b) b < Claims.depth b) :
    s.chanSend d c vector align source =
      source (s.acquired .pkg) (Claims.bytes b) fun t bytes =>
        let ps := scratchPieces (t.receiver b) (bindPlace b (Claims.sentOf s (Claims.peer b) b)) (Claims.bytes b)
        if t.barredPieces ps then t.stall
        else (t.sendPieces ps bytes).passed (Claims.sentOf s (Claims.peer b) b) := by
  rw [chanSend_good hs hbind hk hsend hv halign, if_neg (not_not.mpr hstep),
    withCounters_bare hb hs (receiver_watch_sends hsend hfar), receiver_sends hsend]
  exact if_neg (Nat.not_le.mpr hroom)

end Wait

end Send

/-! ### Receives -/

section Receive
variable {vector : Bool} {align : Nat} {first last : State → (Word × Word) → Nat → Nat → Out}

/-- The bytes of message n, as a number. -/
def State.messageAt (s : State) (b : Word × Word) (n : Nat) : Nat :=
  memRead s.mem (scratchKey s.cur (Claims.buf b + n % Claims.depth b * Claims.bytes b)) (Claims.bytes b)

/-- A receive over a channel of the right form begins with its wait, or ends. -/
theorem chanReceive_good (hk : Claims.kind b = 1) (hrecv : Claims.sends b = false)
    (hv : vector = true → Claims.bytes b = 64) (halign : align % 8 = 0) :
    s.chanReceive c vector align first last =
      if s.core.chanStep ≠ 0 then last s b (s.core.chanStep - 1) (s.messageAt b (s.core.chanStep - 1))
      else
        s.withCounters b fun u sent taken =>
          if inChannel sent taken = 0 ∨ sent < taken then u.waits
          else if u.poisonIn (scratchKey u.cur (bindPlace b taken)) (bindSize b) then
            .next (u.charge (u.core.context.getD 64) 0x3C0#10 u.cur)
          else
            first
              (((scratchPieces u.cur (bindPlace b taken) (bindSize b)).foldl (fun t p => t.watchOwn .load p) u).acquired
                .pkg) b taken (s.messageAt b taken) := by
  unfold State.chanReceive
  rw [ordered_settled hs, hbind]
  refine (if_neg ?_).trans ((if_neg (not_not.mpr halign)).trans ?_)
  · rw [bindKind_eq, bindDir_receives hrecv]
    rintro (h | h | ⟨h, h'⟩)
    · exact h hk
    · exact h rfl
    · exact h' (bindSzm1_one_block.mpr (hv h))
  · simp only [State.messageAt, bindPlace_eq, bindSize_eq]

include hb

variable (hk : Claims.kind b = 1) (hrecv : Claims.sends b = false) (hv : vector = true → Claims.bytes b = 64)
  (halign : align % 8 = 0)
include hk hrecv hv halign

omit hb in
theorem chanReceive_last (hstep : s.core.chanStep ≠ 0) :
    s.chanReceive c vector align first last = last s b (s.core.chanStep - 1) (s.messageAt b (s.core.chanStep - 1)) := by
  rw [chanReceive_good hs hbind hk hrecv hv halign, if_pos hstep]

variable (hstep : s.core.chanStep = 0)
include hstep

theorem chanReceive_empty (hempty : Claims.inside s s.cur b = 0) :
    s.chanReceive c vector align first last = s.waits := by
  rw [chanReceive_good hs hbind hk hrecv hv halign, if_neg (not_not.mpr hstep),
    withCounters_bare hb hs (receiver_watch_receives hb hrecv), receiver_receives hrecv]
  exact if_pos (.inl hempty)

theorem chanReceive_moves (hlt : Claims.takenOf s s.cur b < Claims.sentOf s s.cur b) :
    s.chanReceive c vector align first last =
      first (s.acquired .pkg) b (Claims.takenOf s s.cur b) (s.messageAt b (Claims.takenOf s s.cur b)) := by
  have hsent : Claims.sentOf s s.cur b < 2 ^ 64 := memRead_lt ..
  have hsome : ¬(inChannel (Claims.sentOf s s.cur b) (Claims.takenOf s s.cur b) = 0 ∨
      Claims.sentOf s s.cur b < Claims.takenOf s s.cur b) := by
    rw [inChannel]
    omega
  rw [chanReceive_good hs hbind hk hrecv hv halign, if_neg (not_not.mpr hstep),
    withCounters_bare hb hs (receiver_watch_receives hb hrecv), receiver_receives hrecv]
  refine (if_neg hsome).trans ((if_neg ?_).trans ?_)
  · rw [poisonIn_clean hb.poison]
    exact Bool.false_ne_true
  · rw [foldl_eq_self (b := s) fun p _ => watchPieces_none hb.watch _ _]

end Receive

end Chan

/-! ### The last step of a transfer -/

section Release
variable {s : State} {b : Word × Word} (hs : Claims.Settled s) (hb : Claims.Bare s)
include hs hb

/-- The release store of a counter of the own scratchpad is performed at once. -/
theorem chanRelease_own (hrecv : Claims.sends b = false) (n : Nat) (done : State → State) :
    s.chanRelease b 1 n done =
      .next (done { s with
        mem := memWrite s.mem (scratchKey s.cur (Claims.ctr b + 8)) ((n + 1) % 2 ^ 64) 8 }).advance := by
  unfold State.chanRelease
  dsimp only
  rw [barredPieces_idle hs.queue, if_neg Bool.false_ne_true, released_settled hs, receiver_receives hrecv,
    sendPieces_own hb (by simp [scratchPiece])]
  congr 4
  simp [piecesWritten, scratchPiece, bindCtr_eq]

/-- The release store of a counter of another core's scratchpad leaves with the first journal entry. -/
theorem chanRelease_other (hsend : Claims.sends b = true) (hfar : Claims.peer b ≠ s.cur) (n : Nat) (done : State → State) :
    ∃ r : Req, s.chanRelease b 0 n done =
        .next (done { s.takeEntry 0 (Claims.peer b) r.addr r.size with flight := [r] }).advance ∧
      r.place = .scratch (Claims.peer b) ∧ r.addr = Claims.ctr b ∧ r.size = 8 ∧ r.data = BitVec.ofNat 64 (n + 1) := by
  refine ⟨{ s.storeReq .store false ((n + 1) % 2 ^ 64) (scratchPiece (Claims.peer b) (Claims.ctr b) 0 8) with
    journal := some 0 }, ?_, rfl, rfl, rfl, ?_⟩
  · unfold State.chanRelease
    dsimp only
    rw [barredPieces_idle hs.queue, if_neg Bool.false_ne_true, released_settled hs, receiver_sends hsend,
      sendPieces_drains hb.watch, bindCtr_eq, List.map_singleton, drain_other (c := Claims.peer b) rfl hfar,
      freeEntry_journalUpTo (journalUpTo_zero hs.journal) (by decide), hb.flight]
    rfl
  · apply BitVec.eq_of_toNat_eq
    show (BitVec.ofNat 64 ((n + 1) % 2 ^ 64 / 256 ^ 0 % 256 ^ 8)).toNat = _
    simp only [BitVec.toNat_ofNat]
    omega

end Release

/-! ### The step that passes the wait -/

section Moves
variable {s : State} {b : Word × Word} {va n : Nat}

theorem image_acquired (hb : Claims.Bare s) (hs : Claims.Settled s) (hi : Claims.Image s va n) :
    Claims.Image (s.acquired .pkg) va n where
  aperture := hi.aperture
  size := hi.size
  room := hi.room
  watch := hi.watch
  clean := hi.clean
  away := by
    intro r hr
    rw [acquired_flight hb, acquired_core, show (s.acquired .pkg).hostq = [] from hb.order] at hr
    simp [(settled_calm hs).out] at hr
  order := hi.order
  got := hi.got

/-- The core of a transfer that has passed its wait with message m. -/
def Core.passes (k : Core) (m : Nat) : Core := { k with chanStep := m + 1 }

/-- What the step that passes the wait does besides. -/
theorem passed_moves {u : State} {o : CoreId} {p : Word} (ho : u.cur = o) (hp : u.core.pc = p) (m : Nat) :
    ∃ t, u.passed m = .next t ∧ (t.getCore o).pc = p ∧ (t.getCore o).chanStep = m + 1 ∧ t.mem = u.mem ∧
      t.flight = u.flight := by
  subst ho hp
  have hcore : ((u.upd fun k => k.passes m).rotate).getCore u.cur = u.core.passes m :=
    (getCore_rotate _ _).trans (getCore_cur (u.upd fun k => k.passes m))
  refine ⟨(u.upd fun k => k.passes m).rotate, rfl, ?_, ?_, rotate_proj State.mem (fun _ _ _ _ => rfl) _,
    rotate_proj State.flight (fun _ _ _ _ => rfl) _⟩
  all_goals rw [hcore]; rfl

theorem scratchPieces_place {c : CoreId} {base n : Nat} {p : Piece} (h : p ∈ scratchPieces c base n) :
    p.place = .scratch c := by
  obtain ⟨i, -, rfl⟩ := List.mem_map.mp h
  rfl

/-- The message leaves as stores to the receiver's scratchpad. -/
theorem sendPieces_other (hw : s.core.wp = []) {c : CoreId} (hc : c ≠ s.cur) (base n bytes : Nat) :
    ∃ q j a fl, s.sendPieces (scratchPieces c base n) bytes = { s with core := s.core.withPosts q j a, flight := fl } := by
  rw [sendPieces_drains hw]
  refine drain_other_frame fun r hr => ?_
  obtain ⟨p, hp, rfl⟩ := List.mem_map.mp hr
  exact ⟨c, scratchPieces_place hp, hc⟩

section Sent
variable (hs : Claims.Settled s) (hb : Claims.Bare s) (hsend : Claims.sends b = true) (hfar : Claims.peer b ≠ s.cur)
include hs hb hsend hfar

/-- A send that passes its wait with message m leaves its bytes on their way. -/
theorem sent_passes (bytes m : Nat) :
    ∃ t : State,
      (if (s.acquired .pkg).barredPieces (scratchPieces ((s.acquired .pkg).receiver b) (bindPlace b m) (Claims.bytes b)) then
        (s.acquired .pkg).stall
      else
        ((s.acquired .pkg).sendPieces (scratchPieces ((s.acquired .pkg).receiver b) (bindPlace b m) (Claims.bytes b))
          bytes).passed m) = .next t ∧
      (t.getCore s.cur).pc = s.core.pc ∧ (t.getCore s.cur).chanStep = m + 1 ∧ t.mem = s.mem ∧
      t.flight =
        ((s.acquired .pkg).sendPieces (scratchPieces (Claims.peer b) (bindPlace b m) (Claims.bytes b)) bytes).flight := by
  rw [barredPieces_idle (s := s.acquired .pkg) hs.queue, if_neg Bool.false_ne_true, receiver_sends (s := s.acquired .pkg) hsend]
  obtain ⟨q, j, a, fl, hsent⟩ := sendPieces_other (s := s.acquired .pkg) hb.watch hfar (bindPlace b m) (Claims.bytes b) bytes
  rw [hsent]
  exact passed_moves rfl rfl m

end Sent

/-- The 64-bit part i of a vector, as the data of a store. -/
theorem vector_part (v : Vec) (i : Nat) :
    BitVec.ofNat 64 (v.toNat / 256 ^ (8 * i) % 256 ^ 8) = v.extractLsb' (64 * i) 64 := by
  apply BitVec.eq_of_toNat_eq
  rw [BitVec.toNat_ofNat, BitVec.extractLsb'_toNat, Nat.shiftRight_eq_div_pow, show 256 = 2 ^ 8 from rfl,
    ← pow_mul, ← pow_mul,
    show 8 * (8 * i) = 64 * i by omega, Nat.mod_mod]

/-- The eight stores of a vector message leave. -/
theorem sendPieces_vector (hs : Claims.Settled s) (hb : Claims.Bare s) {c : CoreId} (hc : c ≠ s.cur) (base : Nat) (v : Vec)
    {i : Nat} (hi : i < 8) :
    ∃ r ∈ ((s.acquired .pkg).sendPieces (scratchPieces c base 64) v.toNat).flight,
      r.place = .scratch c ∧ r.addr = base + 8 * i ∧ r.size = 8 ∧ r.data = v.extractLsb' (64 * i) 64 := by
  rw [sendPieces_drains (s := s.acquired .pkg) hb.watch]
  obtain ⟨-, hleaves⟩ := drain_other_leaves (s := s.acquired .pkg)
    (l := (scratchPieces c base 64).map ((s.acquired .pkg).storeReq .store false v.toNat))
    (journalUpTo_zero hs.journal) (by simp [scratchPieces]) fun r hr => by
      obtain ⟨p, hp, rfl⟩ := List.mem_map.mp hr
      exact ⟨c, scratchPieces_place hp, hc⟩
  obtain ⟨e, he⟩ := hleaves _ (List.mem_map.mpr ⟨_, List.mem_map.mpr ⟨i, List.mem_range.mpr hi, rfl⟩, rfl⟩)
  exact ⟨_, he, rfl, rfl, rfl, vector_part v i⟩

end Moves

/-! ### The instructions -/

section Steps
variable {s : State} {c : BitVec 4} {b : Word × Word} (ha : Claims.Alone s) (hs : Claims.Settled s) (hb : Claims.Bare s)
  (hbind : s.core.binding c.toNat = b) (hk : Claims.kind b = 1)
include ha hs hb hbind hk

section Poll
variable {d : Reg} (hr : s.core.ready { ds := [d] } = true)
include hr

theorem chpoll_sends (hsend : Claims.sends b = true) (hfar : (s.getCore (Claims.peer b)).wp = []) :
    exec (.chpoll d c) s =
      .next (Claims.ends s (s.core.writeS d
        (BitVec.ofNat 64 (Claims.depth b) - BitVec.ofNat 64 (Claims.inside s (Claims.peer b) b)))) := by
  rw [chpoll_counts ha hs hb hbind hr hk (receiver_watch_sends hsend hfar), bindDir_sends hsend, receiver_sends hsend]
  rfl

theorem chpoll_receives (hrecv : Claims.sends b = false) :
    exec (.chpoll d c) s = .next (Claims.ends s (s.core.writeS d (BitVec.ofNat 64 (Claims.inside s s.cur b)))) := by
  rw [chpoll_counts ha hs hb hbind hr hk (receiver_watch_receives hb hrecv), bindDir_receives hrecv, receiver_receives hrecv]
  rfl

end Poll

/-- A send that has passed its wait ends with the release store to the counter. -/
theorem chanSend_ends {d : Reg} {vector : Bool} {align : Nat} {source : State → Nat → (State → Nat → Out) → Out}
    (hsend : Claims.sends b = true) (hv : vector = true → Claims.bytes b = 64) (halign : align % 8 = 0)
    (hstep : s.core.chanStep ≠ 0) (hne : Claims.peer b ≠ s.cur) :
    ∃ t r, s.chanSend d c vector align source = .next t ∧ Claims.stepped s t ∧
      t.core.sregs = (s.core.writeS d (BitVec.ofNat 64 (s.core.chanStep - 1))).sregs ∧ t.flight = [r] ∧
      r.place = .scratch (Claims.peer b) ∧ r.addr = Claims.ctr b ∧ r.size = 8 ∧
      r.data = BitVec.ofNat 64 (s.core.chanStep - 1 + 1) := by
  obtain ⟨r, hrel, hplace, haddr, hsize, hdata⟩ := chanRelease_other hs hb hsend hne (s.core.chanStep - 1)
    fun t => t.setS d (BitVec.ofNat 64 (s.core.chanStep - 1))
  have hend := setS_advance_alone (s := { s.takeEntry 0 (Claims.peer b) r.addr r.size with flight := [r] })
    ⟨ha.quiet, ha.mesh⟩ d (BitVec.ofNat 64 (s.core.chanStep - 1))
  refine ⟨_, r, ((chanSend_good hs hbind hk hsend hv halign).trans (if_pos hstep)).trans
    (hrel.trans (congrArg Host.Outcome.next hend)), rfl, ?_, rfl, hplace, haddr, hsize, hdata⟩
  show (Core.writeS _ d _).sregs = _
  unfold Core.writeS
  split <;> rfl

section Chsnd
variable {d a : Reg} (hr : s.core.ready { ss := [(a, 0)], ds := [d] } = true) (halign : (s.src a 0).toNat % 8 = 0)
  (hsend : Claims.sends b = true) (hfar : (s.getCore (Claims.peer b)).wp = []) (hstep : s.core.chanStep = 0)
include hr halign hsend hfar hstep

theorem chsnd_waits (hfull : Claims.depth b ≤ Claims.inside s (Claims.peer b) b) : exec (.chsnd d a c) s = s.waits :=
  (issue_ready hr ha.mesh _).trans
    (chanSend_full hs hb hbind hk hsend (fun h => absurd h Bool.false_ne_true) halign hfar hstep hfull)

theorem chsnd_moves (hroom : Claims.inside s (Claims.peer b) b < Claims.depth b) (hne : Claims.peer b ≠ s.cur)
    (hi : Claims.Image s (s.src a 0).toNat (Claims.bytes b)) :
    ∃ t, exec (.chsnd d a c) s = .next t ∧ (t.getCore s.cur).pc = s.core.pc ∧
      (t.getCore s.cur).chanStep = Claims.sentOf s (Claims.peer b) b + 1 ∧ t.mem = s.mem := by
  obtain ⟨t, ht, hpc, hchan, hmem, -⟩ := sent_passes hs hb hsend hne
    (bytesNat (Claims.imageBytes (s.acquired .pkg) (s.src a 0).toNat (Claims.bytes b))) (Claims.sentOf s (Claims.peer b) b)
  refine ⟨t, (issue_ready hr ha.mesh _).trans ((chanSend_moves hs hb hbind hk hsend (fun h => absurd h Bool.false_ne_true)
    halign hfar hstep hroom).trans ?_), hpc, hchan, hmem⟩
  exact (readImage_own (s := s.acquired .pkg) hs.buffer (image_acquired hb hs hi) false true _).trans ht

omit hfar hstep in
theorem chsnd_ends (hstep : s.core.chanStep ≠ 0) (hne : Claims.peer b ≠ s.cur) :
    ∃ t r, exec (.chsnd d a c) s = .next t ∧ Claims.stepped s t ∧
      t.core.sregs = (s.core.writeS d (BitVec.ofNat 64 (s.core.chanStep - 1))).sregs ∧ t.flight = [r] ∧
      r.place = .scratch (Claims.peer b) ∧ r.addr = Claims.ctr b ∧ r.size = 8 ∧
      r.data = BitVec.ofNat 64 (s.core.chanStep - 1 + 1) := by
  rw [show exec (.chsnd d a c) s = _ from issue_ready hr ha.mesh _]
  exact chanSend_ends ha hs hb hbind hk hsend (fun h => absurd h Bool.false_ne_true) halign hstep hne

end Chsnd

section Chsndv
variable {d a : Reg} (hr : s.core.ready { vs := [(a, 0)], ds := [d] } = true) (hsend : Claims.sends b = true)
include hr hsend

theorem chsndv_moves (hbytes : Claims.bytes b = 64) (hfar : (s.getCore (Claims.peer b)).wp = []) (hstep : s.core.chanStep = 0)
    (hroom : Claims.inside s (Claims.peer b) b < Claims.depth b) (hne : Claims.peer b ≠ s.cur) :
    ∃ t, exec (.chsndv d a c) s = .next t ∧ (t.getCore s.cur).pc = s.core.pc ∧
      (t.getCore s.cur).chanStep = Claims.sentOf s (Claims.peer b) b + 1 ∧
      ∀ i < 8, ∃ r ∈ t.flight, r.place = .scratch (Claims.peer b) ∧
        r.addr = Claims.buf b + Claims.sentOf s (Claims.peer b) b % Claims.depth b * 64 + 8 * i ∧ r.size = 8 ∧
        r.data = (s.vsrc a 0).extractLsb' (64 * i) 64 := by
  obtain ⟨t, ht, hpc, hchan, -, hflight⟩ := sent_passes hs hb hsend hne (s.vsrc a 0).toNat (Claims.sentOf s (Claims.peer b) b)
  refine ⟨t, (issue_ready hr ha.mesh _).trans ((chanSend_moves hs hb hbind hk hsend (fun _ => hbytes) rfl hfar hstep
    hroom).trans ht), hpc, hchan, fun i hi => ?_⟩
  rw [hflight, bindPlace_eq, hbytes]
  exact sendPieces_vector hs hb hne _ _ hi

theorem chsndv_ends (hbytes : Claims.bytes b = 64) (hstep : s.core.chanStep ≠ 0) (hne : Claims.peer b ≠ s.cur) :
    ∃ t r, exec (.chsndv d a c) s = .next t ∧ Claims.stepped s t ∧
      t.core.sregs = (s.core.writeS d (BitVec.ofNat 64 (s.core.chanStep - 1))).sregs ∧ t.flight = [r] ∧
      r.place = .scratch (Claims.peer b) ∧ r.addr = Claims.ctr b ∧ r.size = 8 ∧
      r.data = BitVec.ofNat 64 (s.core.chanStep - 1 + 1) := by
  rw [show exec (.chsndv d a c) s = _ from issue_ready hr ha.mesh _]
  exact chanSend_ends ha hs hb hbind hk hsend (fun _ => hbytes) (Nat.zero_mod 8) hstep hne

end Chsndv

section Receives
variable (hrecv : Claims.sends b = false)
include hrecv

theorem chrcv_waits {d a : Reg} (hr : s.core.ready { ss := [(a, 0)], ds := [d] } = true) (halign : (s.src a 0).toNat % 8 = 0)
    (hstep : s.core.chanStep = 0) (hempty : Claims.inside s s.cur b = 0) : exec (.chrcv d a c) s = s.waits :=
  (issue_ready hr ha.mesh _).trans
    (chanReceive_empty hs hb hbind hk hrecv (fun h => absurd h Bool.false_ne_true) halign hstep hempty)

theorem chrcv_moves {d a : Reg} (hr : s.core.ready { ss := [(a, 0)], ds := [d] } = true) (halign : (s.src a 0).toNat % 8 = 0)
    (hstep : s.core.chanStep = 0) (hlt : Claims.takenOf s s.cur b < Claims.sentOf s s.cur b)
    (hown : Claims.inOwn s (s.src a 0).toNat (Claims.bytes b)) :
    ∃ t, exec (.chrcv d a c) s = .next t ∧ (t.getCore s.cur).pc = s.core.pc ∧
      (t.getCore s.cur).chanStep = Claims.takenOf s s.cur b + 1 ∧
      ∀ i < Claims.bytes b, memByte t.mem (Claims.ownKey s (s.src a 0).toNat + i) =
        memByte s.mem
          (scratchKey s.cur (Claims.buf b + Claims.takenOf s s.cur b % Claims.depth b * Claims.bytes b) + i) := by
  have hbare : Claims.Bare (s.acquired .pkg) := ⟨acquired_flight hb, hb.order, hb.poison, hb.watch⟩
  obtain ⟨m, hstore, hbytes⟩ := storeMessage_own (s := s.acquired .pkg) hbare hs.queue hown
    (s.messageAt b (Claims.takenOf s s.cur b)) fun t => t.passed (Claims.takenOf s s.cur b)
  obtain ⟨t, ht, hpc, hchan, hmem, -⟩ := passed_moves (u := { s.acquired .pkg with mem := m }) (o := s.cur)
    rfl rfl (Claims.takenOf s s.cur b)
  refine ⟨t, (issue_ready hr ha.mesh _).trans ((chanReceive_moves hs hb hbind hk hrecv
    (fun h => absurd h Bool.false_ne_true) halign hstep hlt).trans (hstore.trans ht)), hpc, hchan, fun i hi => ?_⟩
  rw [hmem]
  exact (hbytes i hi).trans (byte_memRead s.mem _ hi)

theorem chrcv_ends {d a : Reg} (hr : s.core.ready { ss := [(a, 0)], ds := [d] } = true) (halign : (s.src a 0).toNat % 8 = 0)
    (hstep : s.core.chanStep ≠ 0) :
    exec (.chrcv d a c) s =
      .next { Claims.ends s (s.core.writeS d (BitVec.ofNat 64 (s.core.chanStep - 1))) with
        mem := memWrite s.mem (scratchKey s.cur (Claims.ctr b + 8)) ((s.core.chanStep - 1 + 1) % 2 ^ 64) 8 } := by
  refine (issue_ready hr ha.mesh _).trans ((chanReceive_last hs hbind hk hrecv (fun h => absurd h Bool.false_ne_true)
    halign hstep).trans ((chanRelease_own hs hb hrecv _ _).trans (congrArg Host.Outcome.next ?_)))
  exact setS_advance_alone (s := { s with
    mem := memWrite s.mem (scratchKey s.cur (Claims.ctr b + 8)) ((s.core.chanStep - 1 + 1) % 2 ^ 64) 8 })
    ⟨ha.quiet, ha.mesh⟩ d _

variable {d : Reg} (hr : s.core.ready { dv := [d] } = true) (hbytes : Claims.bytes b = 64)
include hr hbytes

theorem chrcvv_moves (hstep : s.core.chanStep = 0) (hlt : Claims.takenOf s s.cur b < Claims.sentOf s s.cur b) :
    ∃ t, exec (.chrcvv d c) s = .next t ∧ (t.getCore s.cur).pc = s.core.pc ∧
      (t.getCore s.cur).chanStep = Claims.takenOf s s.cur b + 1 ∧ t.mem = s.mem := by
  obtain ⟨t, ht, hpc, hchan, hmem, -⟩ := passed_moves (u := s.acquired .pkg) (o := s.cur) rfl rfl (Claims.takenOf s s.cur b)
  exact ⟨t, (issue_ready hr ha.mesh _).trans ((chanReceive_moves hs hb hbind hk hrecv (fun _ => hbytes) rfl hstep
    hlt).trans ht), hpc, hchan, hmem⟩

theorem chrcvv_ends (hstep : s.core.chanStep ≠ 0) :
    exec (.chrcvv d c) s =
      .next { Claims.ends s (s.core.writeV d (BitVec.ofNat 512 (s.messageAt b (s.core.chanStep - 1)))) with
        mem := memWrite s.mem (scratchKey s.cur (Claims.ctr b + 8)) ((s.core.chanStep - 1 + 1) % 2 ^ 64) 8 } := by
  refine (issue_ready hr ha.mesh _).trans ((chanReceive_last hs hbind hk hrecv (fun _ => hbytes) rfl hstep).trans
    ((chanRelease_own hs hb hrecv _ _).trans (congrArg Host.Outcome.next ?_)))
  exact setV_advance_alone (s := { s with
    mem := memWrite s.mem (scratchKey s.cur (Claims.ctr b + 8)) ((s.core.chanStep - 1 + 1) % 2 ^ 64) 8 })
    ⟨ha.quiet, ha.mesh⟩ d _

end Receives

end Steps

end Sys2Proof.Machine

namespace Sys2Proof.Proofs

open Sys2Proof Sys2Proof.Machine

/-- Settles O35: the counters are read, the wait is passed or not, and the stores of the message and of the counter leave, by
the rules of sends and of receives above. -/
theorem channels : Obligations.Channels := by
  unfold Obligations.Channels
  intro s c ha hs hb b own far n hfar
  have hbind : s.core.binding c.toNat = b := rfl
  refine ⟨fun d hr => ⟨chpoll_unbound ha hs hbind hr, fun hk hsend => chpoll_sends ha hs hb hbind hk hr hsend hfar,
      fun hk => chpoll_receives ha hs hb hbind hk hr⟩,
    fun d a hr halign hk => ⟨fun hsend => chsnd_waits ha hs hb hbind hk hr halign hsend hfar,
      fun hsend hstep hroom hne => chsnd_moves ha hs hb hbind hk hr halign hsend hfar hstep hroom hne,
      fun hsend => chsnd_ends ha hs hb hbind hk hr halign hsend,
      fun hrecv => chrcv_waits ha hs hb hbind hk hrecv hr halign, fun hrecv => chrcv_moves ha hs hb hbind hk hrecv hr halign,
      fun hrecv => chrcv_ends ha hs hb hbind hk hrecv hr halign⟩,
    fun d a hr hk hsend => ⟨fun hbytes => ?_,
      fun hbytes hstep => chsndv_moves ha hs hb hbind hk hr hsend hbytes hfar hstep,
      chsndv_ends ha hs hb hbind hk hr hsend⟩,
    fun d hr hk hrecv hbytes => ⟨chrcvv_moves ha hs hb hbind hk hrecv hr hbytes, fun hstep => ?_⟩⟩
  · exact (issue_ready hr ha.mesh _).trans (chanSend_badSize hs hbind rfl hbytes)
  · rw [chrcvv_ends ha hs hb hbind hk hrecv hr hbytes hstep, State.messageAt, hbytes]

end Sys2Proof.Proofs
end

section
/-! SUPPORT. Futures: the entries of a table in memory, what settling them changes, and the FUT instructions (R304 to R309, R353,
R354). -/

namespace Sys2Proof.Machine

open Sys2Proof

/-! ### Bytes that were written -/

theorem bytesNat_natBytes (v n : Nat) : bytesNat (natBytes v n) = v % 256 ^ n := by
  induction n generalizing v with
  | zero => simp [natBytes, bytesNat, Nat.mod_one]
  | succ n ih =>
    have hcons : natBytes v (n + 1) = BitVec.ofNat 8 v :: natBytes (v / 256) n := by
      simp only [natBytes, List.range_succ_eq_map, List.map_cons, List.map_map, Nat.pow_zero, Nat.div_one]
      congr 1
      refine List.map_congr_left fun i _ => ?_
      simp only [Function.comp_apply, Nat.pow_succ', Nat.div_div_eq_div_mul]
    rw [hcons, bytesNat, ih, BitVec.toNat_ofNat, show (2 : Nat) ^ 8 = 256 from rfl, Nat.pow_succ', Nat.mod_mul]

theorem memReadBytes_memWriteBytes (m : List Host.Cell) (a : Nat) (l : List Byte) :
    memReadBytes (memWriteBytes m a l) a l.length = l := by
  refine List.ext_getElem (memReadBytes_length ..) fun i h₁ h₂ => ?_
  have hget := memByte_memWriteBytes_inside l a i m h₂
  rw [List.getD_eq_getElem _ _ h₂] at hget
  simpa [memReadBytes] using hget

/-- A part of some bytes that were written reads as the number of that part. -/
theorem memRead_memWriteBytes (m : List Host.Cell) (a : Nat) {l : List Byte} {i k : Nat} (h : i + k ≤ l.length) :
    memRead (memWriteBytes m a l) (a + i) k = bytesNat ((l.drop i).take k) := by
  rw [← imgNat_memReadBytes _ a h, memReadBytes_memWriteBytes]
  rfl

/-! ### Entries -/

/-- The fields fit into their bytes. -/
structure FutEntry.fits (e : FutEntry) : Prop where
  value : e.value < 2 ^ 64
  st : e.st < 4
  gen : e.gen < 4096
  nwait : e.nwait < 2 ^ 32
  whead : e.whead < 2 ^ 32
  wtail : e.wtail < 2 ^ 32

theorem futEntryAt_fits (m : List Host.Cell) (a : Nat) : (futEntryAt m a).fits where
  value := memRead_lt m a 8
  st := Nat.mod_lt _ (by decide)
  gen := Nat.mod_lt _ (by decide)
  nwait := memRead_lt m (a + 12) 4
  whead := memRead_lt m (a + 16) 4
  wtail := memRead_lt m (a + 20) 4

/-- An entry that was written reads as itself. -/
theorem futEntryAt_memWriteBytes (m : List Host.Cell) (a : Nat) {e : FutEntry} (h : e.fits) :
    futEntryAt (memWriteBytes m a e.bytes) a = e := by
  have hpart (i k v : Nat) (hlen : i + k ≤ e.bytes.length) (hv : (e.bytes.drop i).take k = natBytes v k) :
      memRead (memWriteBytes m a e.bytes) (a + i) k = v % 256 ^ k := by
    rw [memRead_memWriteBytes m a hlen, hv, bytesNat_natBytes]
  have hlen : e.bytes.length = 32 := rfl
  have hvalue := hpart 0 8 e.value (by omega) rfl
  have hst := hpart 8 1 e.st (by omega) rfl
  have hgen := hpart 10 2 e.gen (by omega) rfl
  have hnwait := hpart 12 4 e.nwait (by omega) rfl
  have hwhead := hpart 16 4 e.whead (by omega) rfl
  have hwtail := hpart 20 4 e.wtail (by omega) rfl
  obtain ⟨h1, h2, h3, h4, h5, h6⟩ := h
  rw [Nat.add_zero] at hvalue
  rw [futEntryAt, hvalue, hst, hgen, hnwait, hwhead, hwtail]
  cases e
  simp only [FutEntry.mk.injEq]
  dsimp only at h1 h2 h3 h4 h5 h6
  refine ⟨?_, ?_, ?_, ?_, ?_, ?_⟩ <;> omega

/-! ### Handles and entries of a context -/

/-- What a write of an entry leaves as it is. -/
theorem setFut_proj {β : Type} (p : State → β)
    (hp : ∀ (t : State) m q l b c f,
      p { t with mem := m, poisoned := q, logs := l, logNotice := b, counters := c, fresh := f } = p t)
    (s : State) (n i : Nat) (e : FutEntry) : p (s.setFut n i e) = p s := by
  rw [setFut_frame]
  exact hp s _ _ _ _ _ _

/-- The generation of the next allocation of an entry. -/
def nextGen (g : Nat) : Nat := if g = 4095 then 1 else g + 1

section Entries
variable {s : State} {n : Nat} {x : Context} (hx : tfind n s.contexts = some x)
include hx

theorem futAddr_eq (i : Nat) : s.futAddr n i = x.desc.futbase + 32 * i := by
  rw [State.futAddr, hx]

theorem fut_eq (i : Nat) : s.fut n i = Claims.entry x s.mem i := by
  rw [State.fut, futAddr_eq hx]
  rfl

theorem validHandle_iff (h : Nat) : s.validHandle n h = true ↔ Claims.valid x h := by
  rw [State.validHandle, hx]
  exact Bool.and_eq_true_iff.trans (and_congr decide_eq_true_iff decide_eq_true_iff)

theorem current_iff (h : Nat) : s.current n h = true ↔ Claims.live s x h := by
  rw [State.current, fut_eq hx]
  exact Bool.and_eq_true_iff.trans (and_congr decide_eq_true_iff decide_eq_true_iff)

theorem setFut_mem (i : Nat) (e : FutEntry) :
    (s.setFut n i e).mem = memWriteBytes s.mem (x.desc.futbase + 32 * i) e.bytes := by
  unfold State.setFut State.putBytes
  rw [countAt_frame, logWrite_frame, futAddr_eq hx]

/-- An entry that a context has written. -/
theorem entry_setFut (i : Nat) {e : FutEntry} (he : e.fits) : Claims.entry x (s.setFut n i e).mem i = e := by
  rw [setFut_mem hx]
  exact futEntryAt_memWriteBytes _ _ he

theorem allocFut_eq (i : Nat) :
    s.allocFut n i =
      (s.setFut n i { value := 0, st := 1, gen := nextGen (Claims.entry x s.mem i).gen, nwait := 0, whead := 0, wtail := 0 },
        nextGen (Claims.entry x s.mem i).gen * 2 ^ 20 + i) := by
  unfold State.allocFut
  rw [fut_eq hx]
  rfl

/-- The state in which the entry at the head of the free list is allocated. -/
def State.allocated (s : State) (n i : Nat) : State :=
  (s.allocFut n i).1.mapCtx n fun x => { x with freeFutures := x.freeFutures.tail }

theorem allocated_core (i : Nat) : (s.allocated n i).core = s.core := by
  unfold State.allocated
  rw [mapCtx_proj State.core fun _ _ => rfl, allocFut_eq hx]
  exact setFut_proj State.core (fun _ _ _ _ _ _ _ => rfl) _ _ _ _

theorem setFut_context (i : Nat) (e : FutEntry) : tfind n (s.setFut n i e).contexts = some x := by
  rw [setFut_proj State.contexts fun _ _ _ _ _ _ _ => rfl]
  exact hx

theorem allocated_freeList {i : Nat} {l : List Nat} (hfree : x.freeFutures = i :: l) :
    Claims.freeList (s.allocated n i) n = some l := by
  unfold Claims.freeList State.allocated
  rw [tfind_mapCtx_same, allocFut_eq hx, setFut_context hx]
  simp [hfree]

theorem allocated_entry (i : Nat) :
    Claims.entry x (s.allocated n i).mem i =
      { value := 0, st := 1, gen := nextGen (Claims.entry x s.mem i).gen, nwait := 0, whead := 0, wtail := 0 } := by
  have hgen : nextGen (Claims.entry x s.mem i).gen < 4096 := by
    have := (futEntryAt_fits s.mem (x.desc.futbase + 32 * i)).gen
    rw [nextGen, Claims.entry]
    split <;> omega
  unfold State.allocated
  rw [mapCtx_proj State.mem fun _ _ => rfl, allocFut_eq hx]
  refine entry_setFut hx i ?_
  constructor <;> dsimp only <;> omega

omit hx in
/-- An entry becomes free. -/
theorem freed_core (i : Nat) : (s.freeFut n i).core = s.core := by
  unfold State.freeFut
  rw [mapCtx_proj State.core fun _ _ => rfl]
  exact setFut_proj State.core (fun _ _ _ _ _ _ _ => rfl) _ _ _ _

theorem freed_freeList (i : Nat) : Claims.freeList (s.freeFut n i) n = some (x.freeFutures ++ [i]) := by
  unfold Claims.freeList State.freeFut
  rw [tfind_mapCtx_same, setFut_context hx]
  rfl

theorem freed_entry (i : Nat) : Claims.entry x (s.freeFut n i).mem i = { Claims.entry x s.mem i with st := 0 } := by
  unfold State.freeFut
  rw [mapCtx_proj State.mem fun _ _ => rfl, fut_eq hx]
  exact entry_setFut hx i { futEntryAt_fits s.mem (x.desc.futbase + 32 * i) with st := Nat.zero_lt_succ 3 }

/-! The checks of a handle. -/

end Entries

section Handles
variable {s : State} {n : Nat} {x : Context} (hx : Claims.InContext s n x)
include hx

theorem ctxNo_eq : s.ctxNo = n := by
  rw [State.ctxNo, hx.core]
  rfl


variable {h : Nat} {body : FutEntry → Out}

theorem withHandle_invalid (hv : ¬Claims.valid x h) : s.withHandle h body = s.trap 0x300#10 (BitVec.ofNat 64 h) := by
  have hinvalid : s.validHandle n h = false := Bool.eq_false_iff.mpr (mt (validHandle_iff hx.context h).mp hv)
  rw [State.withHandle, ctxNo_eq hx, hinvalid]
  rfl

theorem withHandle_stale (hv : Claims.valid x h) (hl : ¬Claims.live s x h) :
    s.withHandle h body = s.trap 0x301#10 (BitVec.ofNat 64 h) := by
  have hstale : s.current n h = false := Bool.eq_false_iff.mpr (mt (current_iff hx.context h).mp hl)
  rw [State.withHandle, ctxNo_eq hx, (validHandle_iff hx.context h).mpr hv, hstale]
  rfl

theorem withHandle_live (hv : Claims.valid x h) (hl : Claims.live s x h) :
    s.withHandle h body = body (Claims.entry x s.mem (Claims.idx h)) := by
  rw [State.withHandle, ctxNo_eq hx, (validHandle_iff hx.context h).mpr hv, (current_iff hx.context h).mpr hl,
    fut_eq hx.context]
  rfl

end Handles

theorem alone_of_core {s t : State} (h : t.core = s.core) (ha : Claims.Alone s) : Claims.Alone t := by
  constructor
  · rw [h]
    exact ha.quiet
  · rw [h]
    exact ha.mesh

/-! ### FNEW and FFREE -/

section Free
variable {s : State} {n : Nat} {x : Context} (ha : Claims.Alone s) (hs : Claims.Settled s) (hx : Claims.InContext s n x)
  (hlog : ∀ a, s.canLog n a = true)

section Fnew
variable {d : Reg} (hr : s.core.ready { ds := [d] } = true)
include ha hs hx hr

theorem fnew_none (hfree : x.freeFutures = []) : exec (.fnew d) s = s.trap 0x304#10 0#64 := by
  refine (issue_ordered_calm ha (settled_calm hs) hr _).trans ?_
  rw [curCtx_eq hx]
  show (match x.freeFutures.head? with | none => _ | some i => _) = _
  rw [hfree]
  rfl

include hlog

theorem fnew_allocates {i : Nat} {l : List Nat} (hfree : x.freeFutures = i :: l) :
    exec (.fnew d) s =
      .next (Claims.ends (s.allocated n i)
        ((s.allocated n i).core.writeS d (BitVec.ofNat 64 (nextGen (Claims.entry x s.mem i).gen * 2 ^ 20 + i)))) := by
  have hcore := allocated_core hx.context i
  refine (issue_ordered_calm ha (settled_calm hs) hr _).trans ?_
  rw [curCtx_eq hx]
  show (match x.freeFutures.head? with | none => _ | some i => _) = _
  rw [hfree]
  dsimp only [List.head?_cons]
  rw [ctxNo_eq hx, hlog]
  refine (if_neg Bool.false_ne_true).trans (congrArg Host.Outcome.next ?_)
  rw [show (s.allocFut n i).2 = nextGen (Claims.entry x s.mem i).gen * 2 ^ 20 + i by rw [allocFut_eq hx.context]]
  exact setS_advance_alone (alone_of_core hcore ha) d _

end Fnew

section Ffree
variable {a : Reg} (hr : s.core.ready { ss := [(a, 0)] } = true)
include ha hs hx hr

theorem ffree_invalid (hv : ¬Claims.valid x (handleIn (s.src a 0))) :
    exec (.ffree a) s = s.trap 0x300#10 (BitVec.ofNat 64 (handleIn (s.src a 0))) :=
  (issue_ordered_calm ha (settled_calm hs) hr _).trans (withHandle_invalid hx hv)

variable (hv : Claims.valid x (handleIn (s.src a 0)))
include hv

theorem ffree_stale (hl : ¬Claims.live s x (handleIn (s.src a 0))) :
    exec (.ffree a) s = s.trap 0x301#10 (BitVec.ofNat 64 (handleIn (s.src a 0))) :=
  (issue_ordered_calm ha (settled_calm hs) hr _).trans (withHandle_stale hx hv hl)

variable (hl : Claims.live s x (handleIn (s.src a 0)))
include hl

theorem ffree_awaited (hst : (Claims.entry x s.mem (Claims.idx (handleIn (s.src a 0)))).st = 1)
    (hn : (Claims.entry x s.mem (Claims.idx (handleIn (s.src a 0)))).nwait ≠ 0) :
    exec (.ffree a) s = s.trap 0x303#10 (BitVec.ofNat 64 (handleIn (s.src a 0))) :=
  (issue_ordered_calm ha (settled_calm hs) hr _).trans ((withHandle_live hx hv hl).trans (if_pos ⟨hst, hn⟩))

include hlog

theorem ffree_frees (hst : (Claims.entry x s.mem (Claims.idx (handleIn (s.src a 0)))).st ≠ 1 ∨
      (Claims.entry x s.mem (Claims.idx (handleIn (s.src a 0)))).nwait = 0) :
    exec (.ffree a) s =
      .next (Claims.ends (s.freeFut n (Claims.idx (handleIn (s.src a 0))))
        (s.freeFut n (Claims.idx (handleIn (s.src a 0)))).core) := by
  refine (issue_ordered_calm ha (settled_calm hs) hr _).trans ((withHandle_live hx hv hl).trans ((if_neg ?_).trans ?_))
  · rintro ⟨h1, hn⟩
    exact hst.elim (· h1) hn
  · rw [State.futRoom, ctxNo_eq hx, hlog]
    refine (if_neg Bool.false_ne_true).trans (congrArg Host.Outcome.next (advance_alone ?_))
    rw [freed_core]
    exact ha.quiet

end Ffree

end Free

/-! ### Reading a future: FTRY and FGET -/

section Read
variable {s : State} {d b : Reg}

theorem quiet_upd_done (h : s.core.quiet) : ({ s.core with futDone := none } : Core).quiet := h

/-- Both results, after an acquire. -/
theorem futResult_ends (ha : Claims.Alone s) (v : Word) (st : Nat) :
    s.futResult d b v st =
      .next (Claims.ends (Claims.forgets s .pkg)
        (((Claims.forgets s .pkg).core.writeS d v).writeS b (BitVec.ofNat 64 st))) := by
  have halone : Claims.Alone (Claims.forgets s .pkg) := ⟨ha.quiet, ha.mesh⟩
  unfold State.futResult
  rw [acquired_eq_forgets]
  exact congrArg Host.Outcome.next (advance_upd_alone (s := Claims.forgets s .pkg)
    (f := fun k => (k.writeS d v).writeS b (BitVec.ofNat 64 st))
    (quiet_writeS (quiet_writeS halone.quiet d v) b _) (by simp))

section Try
variable {a : Reg} {n : Nat} {x : Context} (ha : Claims.Alone s) (hs : Claims.Settled s) (hx : Claims.InContext s n x)
  (hr : s.core.ready { ss := [(a, 0)], ds := [d, b] } = true)
include ha hs hr

section Live
variable (hv : Claims.valid x (handleIn (s.src a 0))) (hl : Claims.live s x (handleIn (s.src a 0)))
include hx hv hl

theorem ftry_settled (hst : (Claims.entry x s.mem (Claims.idx (handleIn (s.src a 0)))).st ≠ 1) :
    exec (.ftry d a b) s =
      s.futResult d b (BitVec.ofNat 64 (Claims.entry x s.mem (Claims.idx (handleIn (s.src a 0)))).value)
        (Claims.entry x s.mem (Claims.idx (handleIn (s.src a 0)))).st :=
  (issue_ordered_calm ha (settled_calm hs) hr _).trans ((withHandle_live hx hv hl).trans (if_neg hst))

theorem ftry_empty (hst : (Claims.entry x s.mem (Claims.idx (handleIn (s.src a 0)))).st = 1) :
    exec (.ftry d a b) s = .next (Claims.ends s ((s.core.writeS d 0#64).writeS b 1#64)) := by
  refine (issue_ordered_calm ha (settled_calm hs) hr _).trans ((withHandle_live hx hv hl).trans ((if_pos hst).trans ?_))
  exact congrArg Host.Outcome.next (advance_upd_alone (f := fun k => (k.writeS d 0#64).writeS b 1#64)
    (quiet_writeS (quiet_writeS ha.quiet d _) b _) (by simp))

variable (hsleep : s.core.sleeping = none) (hre : s.core.rechecking = false) (hdone : s.core.futDone = none)
include hsleep hre hdone

/-- An FGET that does not wait yet looks at its future. -/
theorem fget_looks :
    exec (.fget d a b) s =
      if (Claims.entry x s.mem (Claims.idx (handleIn (s.src a 0)))).st ≠ 1 then
        s.futResult d b (BitVec.ofNat 64 (Claims.entry x s.mem (Claims.idx (handleIn (s.src a 0)))).value)
          (Claims.entry x s.mem (Claims.idx (handleIn (s.src a 0)))).st
      else if !s.futRoom s.ctxNo (handleIn (s.src a 0)) then s.stall
      else
        match s.freeWaiter with
        | none => (s.upd fun k => { k with rechecking := true }).waits
        | some n =>
          ((s.addWaiter s.ctxNo (futIndex (handleIn (s.src a 0))) n (.core s.cur)).upd fun k =>
            { k with sleeping := some (futIndex (handleIn (s.src a 0)), n) }).waits := by
  refine (issue_ordered_calm ha (settled_calm hs) hr _).trans ?_
  rw [hdone]
  refine (if_neg ?_).trans (withHandle_live hx hv hl)
  rw [hsleep, hre]
  exact Bool.false_ne_true

theorem fget_settled (hst : (Claims.entry x s.mem (Claims.idx (handleIn (s.src a 0)))).st ≠ 1) :
    exec (.fget d a b) s =
      s.futResult d b (BitVec.ofNat 64 (Claims.entry x s.mem (Claims.idx (handleIn (s.src a 0)))).value)
        (Claims.entry x s.mem (Claims.idx (handleIn (s.src a 0)))).st :=
  (fget_looks ha hs hx hr hv hl hsleep hre hdone).trans (if_pos hst)

/-- The core that waits for a future. -/
def Core.sleepsOn (k : Core) (i n : Nat) : Core := { k with sleeping := some (i, n) }

/-- The state in which the core in focus waits for future i, by record 1. -/
def State.asleep (s : State) (n i : Nat) : State := (s.addWaiter n i 1 (.core s.cur)).upd fun k => k.sleepsOn i 1

omit ha hs hx hr hv hl hsleep hre hdone in
/-- A wait keeps the core, but for its wait. -/
theorem waits_keeps {u : State} {c : CoreId} (hq : u.core.quiet) (hc : u.cur = c) :
    ∃ t, u.waits = .next t ∧ t.getCore c = u.core.putToWait := by
  subst hc
  exact ⟨_, waits_quiet hq, getCore_waits u⟩

omit ha hs hx hr hv hl hsleep hre hdone in
theorem freeWaiter_first (h : s.waiters = []) : s.freeWaiter = some 1 := by
  rw [State.freeWaiter, h]
  rfl

omit ha hs hx hr hv hl hsleep hre hdone in
/-- The first waiter of a future. -/
theorem addWaiter_first (hx : Claims.InContext s n x) (hw : s.waiters = []) {i : Nat} (hn : (Claims.entry x s.mem i).nwait = 0)
    (who : Waiter) :
    s.addWaiter n i 1 who =
      ({ s with waiters := [(1, { who := who, fut := i, next := 0 })] } : State).setFut n i
        { Claims.entry x s.mem i with nwait := 1, whead := 1, wtail := 1 } := by
  unfold State.addWaiter
  dsimp only
  rw [fut_eq hx.context, hn, hw]
  rfl

include hx in
theorem fget_empty (hlog : ∀ a, s.canLog n a = true) (hst : (Claims.entry x s.mem (Claims.idx (handleIn (s.src a 0)))).st = 1)
    (hw : s.waiters = []) :
    ∃ t, exec (.fget d a b) s = .next t ∧
      (t.getCore s.cur).sleeping = some (Claims.idx (handleIn (s.src a 0)), 1) ∧ (t.getCore s.cur).pc = s.core.pc := by
  have hcore : (s.asleep n (Claims.idx (handleIn (s.src a 0)))).core = s.core.sleepsOn (Claims.idx (handleIn (s.src a 0))) 1 :=
    congrArg (Core.sleepsOn · _ 1) (setFut_proj State.core (fun _ _ _ _ _ _ _ => rfl) _ _ _ _)
  have hcur : (s.asleep n (Claims.idx (handleIn (s.src a 0)))).cur = s.cur :=
    setFut_proj State.cur (fun _ _ _ _ _ _ _ => rfl) _ _ _ _
  have hquiet : (s.asleep n (Claims.idx (handleIn (s.src a 0)))).core.quiet := by
    rw [hcore]
    exact ha.quiet
  obtain ⟨t, ht, hget⟩ := waits_keeps hquiet hcur
  rw [hcore] at hget
  refine ⟨t, (fget_looks ha hs hx hr hv hl hsleep hre hdone).trans ((if_neg (not_not.mpr hst)).trans ?_),
    (congrArg Core.sleeping hget :), (congrArg Core.pc hget :)⟩
  rw [State.futRoom, ctxNo_eq hx, hlog, freeWaiter_first hw]
  exact (if_neg Bool.false_ne_true).trans ht

end Live

/-- A core that was woken takes what it was given. -/
theorem fget_woken {v : Word} {st : Nat} (hdone : s.core.futDone = some (v, st)) :
    exec (.fget d a b) s =
      .next (Claims.ends (Claims.forgets s .pkg)
        (({ (Claims.forgets s .pkg).core with futDone := none }.writeS d v).writeS b (BitVec.ofNat 64 st))) := by
  refine (issue_ordered_calm ha (settled_calm hs) hr _).trans ?_
  rw [hdone]
  exact futResult_ends (s := s.upd fun k => { k with futDone := none }) ⟨ha.quiet, ha.mesh⟩ v st

end Try

end Read


/-! ### Settling -/

/-- The core after a wake from a future. -/
def Core.woken (k : Core) (v st : Nat) : Core := { k with sleeping := none, futDone := some (BitVec.ofNat 64 v, st) }

/-- An entry that is settled. -/
def FutEntry.settled (e : FutEntry) (st v : Nat) : FutEntry :=
  { e with value := v, st := st, nwait := 0, whead := 0, wtail := 0 }

theorem settled_fits {e : FutEntry} (h : e.fits) {st v : Nat} (hst : st < 4) (hv : v < 2 ^ 64) : (e.settled st v).fits where
  value := hv
  st := hst
  gen := h.gen
  nwait := Nat.two_pow_pos 32
  whead := Nat.two_pow_pos 32
  wtail := Nat.two_pow_pos 32

theorem settleFutures_nil (m : Nat) (s : State) : State.settleFutures m [] s = s := by
  cases m <;> rfl

section Settle
variable {s : State} {n i : Nat}

/-- A future that nothing awaits. -/
theorem settleFutures_unawaited (h : (s.fut n i).nwait = 0) (m st v : Nat) :
    State.settleFutures (m + 1) [(n, i, st, v)] s = s.setFut n i ((s.fut n i).settled st v) := by
  have hrecords : s.waitList (s.fut n i).nwait (s.fut n i).whead = [] := by
    rw [h]
    rfl
  unfold State.settleFutures
  dsimp only
  rw [hrecords]
  have hkeep : (s.waiters.filter fun p => !([] : List Nat).contains p.1) = s.waiters :=
    List.filter_eq_self.mpr fun p _ => rfl
  rw [hkeep]
  exact settleFutures_nil ..

/-- A future that one core awaits. -/
theorem settleFutures_awaited {c f : Nat} (h : (s.fut n i).nwait = 1)
    (hw : tfind (s.fut n i).whead s.waiters = some { who := .core c, fut := f, next := 0 }) (m st v : Nat) :
    State.settleFutures (m + 1) [(n, i, st, v)] s =
      ((({ s with waiters := s.waiters.filter fun p => !([(s.fut n i).whead].contains p.1) } : State).setFut n i
        ((s.fut n i).settled st v)).mapCore c fun k => k.woken v st) := by
  have hrecords : s.waitList (s.fut n i).nwait (s.fut n i).whead = [(s.fut n i).whead] := by
    rw [h, State.waitList, hw]
    rfl
  unfold State.settleFutures
  dsimp only
  rw [hrecords, List.filterMap_cons, hw]
  exact settleFutures_nil ..

end Settle

/-! ### FPUT and FPOIS -/

section Put
variable {s : State} {n : Nat} {x : Context} (ha : Claims.Alone s) (hs : Claims.Settled s) (hx : Claims.InContext s n x)

theorem exec_settling {j : Instr} {a b : Reg} {st v : Nat} (hj : Claims.settling s j = some (a, b, st, v))
    (hr : s.core.ready { ss := [(a, 0), (b, 0)] } = true) (ha : Claims.Alone s) (hs : Claims.Settled s) :
    exec j s = s.futSet (handleIn (s.src a 0)) st v := by
  unfold Claims.settling at hj
  split at hj <;> cases hj
  · exact issue_ordered_calm ha (settled_calm hs) hr _
  · refine (issue_ordered_calm ha (settled_calm hs) hr _).trans ?_
    rw [wfield_zero]

theorem settling_bounds {j : Instr} {a b : Reg} {st v : Nat} (hj : Claims.settling s j = some (a, b, st, v)) :
    st < 4 ∧ v < 2 ^ 64 := by
  unfold Claims.settling at hj
  split at hj <;> cases hj
  · exact ⟨by decide, (s.src b 0).isLt⟩
  · exact ⟨by decide, by omega⟩

include hs hx
variable {h st v : Nat}

omit hs in
theorem futSet_invalid (hv : ¬Claims.valid x h) : s.futSet h st v = s.trap 0x300#10 (BitVec.ofNat 64 h) := by
  have hinvalid : s.validHandle n h = false := Bool.eq_false_iff.mpr (mt (validHandle_iff hx.context h).mp hv)
  rw [State.futSet, ctxNo_eq hx, hinvalid]
  rfl

theorem futSet_valid (hv : Claims.valid x h) :
    s.futSet h st v =
      s.withHandle h fun e =>
        if e.st ≠ 1 then s.futTrap 0x302#10 h
        else if !s.futRoom n h then s.stall
        else .next (s.settle [(n, futIndex h, st, v)]).advance := by
  rw [State.futSet, ctxNo_eq hx, (validHandle_iff hx.context h).mpr hv, released_settled hs]
  rfl

theorem futSet_stale (hv : Claims.valid x h) (hl : ¬Claims.live s x h) :
    s.futSet h st v = s.trap 0x301#10 (BitVec.ofNat 64 h) :=
  (futSet_valid hs hx hv).trans (withHandle_stale hx hv hl)

theorem futSet_settled (hv : Claims.valid x h) (hl : Claims.live s x h)
    (hst : (Claims.entry x s.mem (Claims.idx h)).st ≠ 1) :
    s.futSet h st v = s.trap 0x302#10 (BitVec.ofNat 64 h) :=
  (futSet_valid hs hx hv).trans ((withHandle_live hx hv hl).trans (if_pos hst))

theorem futSet_settles (hlog : ∀ a, s.canLog n a = true) (hv : Claims.valid x h) (hl : Claims.live s x h)
    (hst : (Claims.entry x s.mem (Claims.idx h)).st = 1) :
    s.futSet h st v = .next (s.settle [(n, Claims.idx h, st, v)]).advance := by
  refine (futSet_valid hs hx hv).trans ((withHandle_live hx hv hl).trans ((if_neg (not_not.mpr hst)).trans ?_))
  rw [State.futRoom, hlog]
  rfl

/-! What a settlement leaves, when no card is empty. -/

omit hs hx in
theorem getCore_ends_of_ne {t : State} {c : CoreId} (hc : c ≠ t.cur) (k : Core) :
    (Claims.ends t k).getCore c = t.getCore c := by
  unfold State.getCore
  exact (if_neg hc).trans (if_neg hc).symm

omit hs hx in
theorem releaseCards_kept {t : State} (ht : t.cards = s.cards) (hcards : ∀ p ∈ s.cards, p.2.count ≠ 0) :
    t.releaseCards = t.markReleased :=
  releaseCards_nonempty (by rw [ht]; exact hcards)

omit hs hx in
theorem settle_unawaited (hx : tfind n s.contexts = some x) (hcards : ∀ p ∈ s.cards, p.2.count ≠ 0) {i : Nat}
    (hn : (Claims.entry x s.mem i).nwait = 0) :
    s.settle [(n, i, st, v)] = (s.setFut n i ((Claims.entry x s.mem i).settled st v)).markReleased := by
  rw [← fut_eq hx] at hn ⊢
  rw [State.settle, settleFutures_unawaited hn]
  exact releaseCards_kept (setFut_proj State.cards (fun _ _ _ _ _ _ _ => rfl) _ _ _ _) hcards

/-- The state in which the one core that awaits a future is woken from it. -/
def State.wokenFrom (s : State) (n i r st v : Nat) (e : FutEntry) (c : CoreId) : State :=
  (({ s with waiters := s.waiters.filter fun p => !([r].contains p.1) } : State).setFut n i (e.settled st v)).mapCore c
    fun k => k.woken v st

omit hs in
theorem settle_awaited (hcards : ∀ p ∈ s.cards, p.2.count ≠ 0) {i c f : Nat} (hn : (Claims.entry x s.mem i).nwait = 1)
    (hw : tfind (Claims.entry x s.mem i).whead s.waiters = some { who := .core c, fut := f, next := 0 }) :
    s.settle [(n, i, st, v)] =
      (s.wokenFrom n i (Claims.entry x s.mem i).whead st v (Claims.entry x s.mem i) c).markReleased := by
  rw [← fut_eq hx.context] at hn hw ⊢
  rw [State.settle, settleFutures_awaited hn hw]
  refine releaseCards_kept ?_ hcards
  exact (mapCore_keeps State.cards (fun _ _ _ => rfl) _ _ _).trans
    (setFut_proj State.cards (fun _ _ _ _ _ _ _ => rfl) _ _ _ _)

omit hs hx in
theorem wokenFrom_core {i r c : Nat} {e : FutEntry} (hc : c ≠ s.cur) : (s.wokenFrom n i r st v e c).core = s.core := by
  have hcur : (({ s with waiters := s.waiters.filter fun p => !([r].contains p.1) } : State).setFut n i
      (e.settled st v)).cur = s.cur := setFut_proj State.cur (fun _ _ _ _ _ _ _ => rfl) _ _ _ _
  refine (mapCore_core_of_ne (fun h => hc (h.trans hcur)) _).trans ?_
  exact setFut_proj State.core (fun _ _ _ _ _ _ _ => rfl) _ _ _ _

omit hs hx in
theorem wokenFrom_cur {i r c : Nat} {e : FutEntry} : (s.wokenFrom n i r st v e c).cur = s.cur :=
  (mapCore_cur _ _ _).trans (setFut_proj State.cur (fun _ _ _ _ _ _ _ => rfl) _ _ _ _)

omit hs hx in
theorem wokenFrom_waiters {i r c : Nat} {e : FutEntry} : tfind r (s.wokenFrom n i r st v e c).waiters = none := by
  have hwaiters : (s.wokenFrom n i r st v e c).waiters = s.waiters.filter fun p => !([r].contains p.1) :=
    (mapCore_keeps State.waiters (fun _ _ _ => rfl) _ _ _).trans
      (setFut_proj State.waiters (fun _ _ _ _ _ _ _ => rfl) _ _ _ _)
  rw [hwaiters]
  induction s.waiters with
  | nil => rfl
  | cons p l ih =>
    by_cases hp : p.1 = r
    · simpa [hp] using ih
    · simpa [hp, tfind] using ih

omit hs hx in
theorem fput_unawaited (ha : Claims.Alone s) (hcards : ∀ p ∈ s.cards, p.2.count ≠ 0) (hx : Claims.InContext s n x) {i : Nat}
    (hn : (Claims.entry x s.mem i).nwait = 0) (hst : st < 4) (hv : v < 2 ^ 64) :
    ∃ t, (s.settle [(n, i, st, v)]).advance = t ∧ Claims.stepped s t ∧ t.core.sregs = s.core.sregs ∧
      Claims.entry x t.mem i = (Claims.entry x s.mem i).settled st v := by
  have hcore : (s.setFut n i ((Claims.entry x s.mem i).settled st v)).markReleased.core = s.core :=
    setFut_proj State.core (fun _ _ _ _ _ _ _ => rfl) _ _ _ _
  have hquiet := ha.quiet
  rw [← hcore] at hquiet
  refine ⟨_, rfl, ?_, ?_, ?_⟩
  all_goals rw [settle_unawaited hx.context hcards hn, advance_alone hquiet]
  · exact stepped_ends (congrArg Core.pc hcore)
  · exact (congrArg Core.sregs hcore :)
  · exact entry_setFut hx.context i (settled_fits (futEntryAt_fits _ _) hst hv)

omit hs hx in
theorem fput_awaited (ha : Claims.Alone s) (hcards : ∀ p ∈ s.cards, p.2.count ≠ 0) (hx : Claims.InContext s n x)
    {i c f : Nat}
    (hn : (Claims.entry x s.mem i).nwait = 1) (hc : c ≠ s.cur)
    (hw : tfind (Claims.entry x s.mem i).whead s.waiters = some { who := .core c, fut := f, next := 0 }) :
    ∃ t, (s.settle [(n, i, st, v)]).advance = t ∧ Claims.stepped s t ∧ (t.getCore c).sleeping = none ∧
      (t.getCore c).futDone = some (BitVec.ofNat 64 v, st) ∧ tfind (Claims.entry x s.mem i).whead t.waiters = none := by
  have hcore := wokenFrom_core (s := s) (n := n) (i := i) (r := (Claims.entry x s.mem i).whead) (st := st) (v := v)
    (e := Claims.entry x s.mem i) hc
  have hquiet := ha.quiet
  rw [← hcore] at hquiet
  have hwoken : (s.wokenFrom n i (Claims.entry x s.mem i).whead st v (Claims.entry x s.mem i) c).getCore c = _ :=
    getCore_mapCore_same _ c _
  refine ⟨_, rfl, ?_, ?_, ?_, ?_⟩
  all_goals rw [settle_awaited hx hcards hn hw, advance_alone (s := State.markReleased _) hquiet]
  · exact stepped_ends (congrArg Core.pc hcore)
  · rw [getCore_ends_of_ne (t := State.markReleased _) fun h => hc (h.trans wokenFrom_cur)]
    exact (congrArg Core.sleeping hwoken :)
  · rw [getCore_ends_of_ne (t := State.markReleased _) fun h => hc (h.trans wokenFrom_cur)]
    exact (congrArg Core.futDone hwoken :)
  · exact wokenFrom_waiters

end Put

/-! ### The refusal of a card (R299, R301) -/

section Refuse
variable {s : State}

theorem notify_core (n kind queue cause detail : Nat) : (s.notify n kind queue cause detail).core = s.core :=
  (congrArg State.core (notify_offMemory s n kind queue cause detail) :)

theorem notify_cards (n kind queue cause detail : Nat) : (s.notify n kind queue cause detail).cards = s.cards :=
  (congrArg State.cards (notify_offMemory s n kind queue cause detail) :)

theorem unwait_proj {β : Type} (p : State → β)
    (hp : ∀ (t : State) m q l b c f,
      p { t with mem := m, poisoned := q, logs := l, logNotice := b, counters := c, fresh := f } = p t)
    (hw : ∀ (t : State) l, p { t with waiters := l } = p t) (s : State) (ctx i r : Nat) : p (s.unwait ctx i r) = p s := by
  unfold State.unwait
  dsimp only
  rw [hw, relink_eq, setFut_proj p hp, hw]

/-- What the poisoning of the DONE of a card leaves: no card, no core changes, and at most that future to wake from. -/
theorem refuse_frame {β : Type} (p : State → β)
    (hp : ∀ (t : State) m q l b c f,
      p { t with mem := m, poisoned := q, logs := l, logNotice := b, counters := c, fresh := f } = p t)
    (hn : ∀ (t : State) n kind queue cause detail, p (t.notify n kind queue cause detail) = p t)
    (s : State) (ctx queue resv done cause high : Nat) : p (s.refuse ctx queue resv done cause high).1 = p s := by
  unfold State.refuse State.poisonDone
  split
  · exact hn ..
  · split
    · exact (setFut_proj p hp _ _ _ _).trans (hn ..)
    · exact (hn ..).trans (hn ..)

theorem refuse_work (s : State) (ctx queue resv done cause high : Nat) :
    ∀ w ∈ (s.refuse ctx queue resv done cause high).2, w.2.2.1 = 3 := by
  unfold State.refuse State.poisonDone
  split
  · exact fun w hw => absurd hw List.not_mem_nil
  · split
    · intro w hw
      rw [List.mem_singleton.mp hw]
    · exact fun w hw => absurd hw List.not_mem_nil

theorem refuseCard_proj {β : Type} (p : State → β)
    (hp : ∀ (t : State) m q l b c f,
      p { t with mem := m, poisoned := q, logs := l, logNotice := b, counters := c, fresh := f } = p t)
    (hn : ∀ (t : State) n kind queue cause detail, p (t.notify n kind queue cause detail) = p t)
    (hw : ∀ (t : State) l, p { t with waiters := l } = p t) {m : Nat} {k : Card} (hk : tfind m s.cards = some k) (high : Nat) :
    p (s.refuseCard m high).1 = p { s with cards := terase m s.cards } := by
  unfold State.refuseCard
  rw [hk]
  refine (refuse_frame p hp hn _ _ _ _ _ _ _).trans ?_
  exact foldl_proj p (fun t r => unwait_proj p hp hw t _ _ _) _ _

theorem refuseCard_work {m : Nat} {k : Card} (hk : tfind m s.cards = some k) (high : Nat) :
    ∀ w ∈ (s.refuseCard m high).2, w.2.2.1 = 3 := by
  unfold State.refuseCard
  rw [hk]
  exact fun w hw => refuse_work _ _ _ _ _ _ _ w hw

/-- A core to which a settlement has happened: at most it was woken. -/
def Core.mayBeWoken (k k' : Core) : Prop := ∃ a b, k' = { k with sleeping := a, futDone := b }

/-- No card is there, and the core in focus is as it was but for a wake. -/
def Cardless (s t : State) : Prop := t.cards = [] ∧ t.cur = s.cur ∧ s.core.mayBeWoken t.core

theorem wake_cardless {t : State} (h : Cardless s t) (v : Nat) (l : List FutWork) (who : Waiter) :
    Cardless s (State.wake 3 v (t, l) who).1 ∧ (State.wake 3 v (t, l) who).2 = l := by
  obtain ⟨hcards, hcur, i, j, hcore⟩ := h
  cases who with
  | card m =>
    have hnone : t.refuseCard m v = (t, []) := by
      rw [State.refuseCard, hcards]
      rfl
    have hwake : State.wake 3 v (t, l) (.card m) = (t, l ++ []) := by
      show ((t.refuseCard m v).1, l ++ (t.refuseCard m v).2) = _
      rw [hnone]
    rw [hwake, List.append_nil]
    exact ⟨⟨hcards, hcur, i, j, hcore⟩, rfl⟩
  | core c =>
    refine ⟨⟨(mapCore_keeps State.cards (fun _ _ _ => rfl) _ _ _).trans hcards, (mapCore_cur _ _ _).trans hcur, ?_⟩, rfl⟩
    by_cases hc : c = t.cur
    · refine ⟨none, some (BitVec.ofNat 64 v, 3), ?_⟩
      show (t.mapCore c fun k => k.woken v 3).core = _
      unfold State.mapCore State.setCore
      rw [if_pos hc, hc, getCore_cur, hcore]
      rfl
    · exact ⟨i, j, (mapCore_core_of_ne hc _).trans hcore⟩

theorem wakes_cardless (v : Nat) (whos : List Waiter) {t : State} (h : Cardless s t) (l : List FutWork) :
    Cardless s (whos.foldl (State.wake 3 v) (t, l)).1 ∧ (whos.foldl (State.wake 3 v) (t, l)).2 = l := by
  induction whos generalizing t l with
  | nil => exact ⟨h, rfl⟩
  | cons who whos ih =>
    obtain ⟨hnext, hl⟩ := wake_cardless h v l who
    rw [List.foldl_cons]
    have hrest := ih hnext (State.wake 3 v (t, l) who).2
    rw [hl] at hrest
    rw [← Prod.mk.eta (p := State.wake 3 v (t, l) who), hl]
    exact hrest

/-- With no card left, poisoning wakes cores alone. -/
theorem settleFutures_cardless (m : Nat) {work : List FutWork} (hwork : ∀ w ∈ work, w.2.2.1 = 3) {t : State}
    (h : Cardless s t) : Cardless s (State.settleFutures m work t) := by
  induction m generalizing work t with
  | zero => exact h
  | succ m ih =>
    match work, hwork with
    | [], _ => exact h
    | (ctx, i, st, v) :: work, hwork =>
      obtain rfl : st = 3 := hwork _ List.mem_cons_self
      have hset (u : State) (e : FutEntry) (hu : Cardless s u) : Cardless s (u.setFut ctx i e) := by
        unfold Cardless
        rw [setFut_proj State.cards fun _ _ _ _ _ _ _ => rfl, setFut_proj State.cur fun _ _ _ _ _ _ _ => rfl,
          setFut_proj State.core fun _ _ _ _ _ _ _ => rfl]
        exact hu
      unfold State.settleFutures
      dsimp only
      obtain ⟨hnext, hnil⟩ := wakes_cardless (s := s) v
        ((t.waitList (t.fut ctx i).nwait (t.fut ctx i).whead).filterMap fun r => (tfind r t.waiters).map fun w => w.who)
        (hset { t with waiters := t.waiters.filter fun p =>
          !(t.waitList (t.fut ctx i).nwait (t.fut ctx i).whead).contains p.1 } ((t.fut ctx i).settled 3 v) h) []
      refine ih ?_ hnext
      intro w hw
      rcases List.mem_append.mp hw with hw | hw
      · exact hwork w (List.mem_cons_of_mem _ hw)
      · exact absurd (hnil ▸ hw) List.not_mem_nil

theorem settle_cardless {work : List FutWork} (hwork : ∀ w ∈ work, w.2.2.1 = 3) {t : State} (h : Cardless s t) :
    Cardless s (t.settle work) := by
  obtain ⟨hcards, hcur, hcore⟩ := settleFutures_cardless (t.cards.length + 2) hwork h
  unfold State.settle
  rw [releaseCards_nonempty (by rw [hcards]; exact fun p hp => absurd hp List.not_mem_nil)]
  refine ⟨?_, hcur, hcore⟩
  show List.map _ _ = []
  rw [hcards]
  rfl

/-- The refusal of the only card, with all that it wakes. -/
theorem refused_cardless {m : Nat} {k : Card} (hcards : s.cards = [(m, k)]) (v : Nat) :
    Cardless s ((s.refuseCard m v).1.settle (s.refuseCard m v).2) := by
  have hk : tfind m s.cards = some k := by
    rw [hcards]
    exact if_pos rfl
  refine settle_cardless (refuseCard_work hk v) ⟨?_, ?_, s.core.sleeping, s.core.futDone, ?_⟩
  · rw [refuseCard_proj State.cards (fun _ _ _ _ _ _ _ => rfl) (fun _ _ _ _ _ _ => notify_cards ..) (fun _ _ => rfl) hk]
    show terase m s.cards = []
    rw [hcards]
    simp [terase]
  · exact refuseCard_proj State.cur (fun _ _ _ _ _ _ _ => rfl)
      (fun t n kind queue cause detail => (congrArg State.cur (notify_offMemory t n kind queue cause detail) :))
      (fun _ _ => rfl) hk v
  · exact refuseCard_proj State.core (fun _ _ _ _ _ _ _ => rfl) (fun _ _ _ _ _ _ => notify_core ..) (fun _ _ => rfl) hk v

end Refuse

/-! ### FLINK -/

section Link
variable {s : State} {d a b : Reg} {n : Nat} {x : Context}

/-- The end of an FLINK with the result v. -/
def State.linked (s : State) (d : Reg) (v : Nat) : Out := .next (s.setS d (BitVec.ofNat 64 v)).advance

theorem linked_ends (ha : Claims.Alone s) (v : Nat) :
    s.linked d v = .next (Claims.ends s (s.core.writeS d (BitVec.ofNat 64 v))) :=
  congrArg Host.Outcome.next (setS_advance_alone ha d _)

/-- What an FLINK makes of a live future f and a card that the handle g holds. -/
def State.linkTo (s : State) (d : Reg) (ctx f m : Nat) (e : FutEntry) : Out :=
  if e.st = 2 then s.linked d 1
  else if e.st = 3 then
    let r := s.refuseCard m e.value
    (r.1.settle r.2).linked d 3
  else if !s.futRoom ctx f then s.stall
  else
    match s.freeWaiter with
    | none => s.stall
    | some w =>
      let t := s.addWaiter ctx (futIndex f) w (.card m)
      ({ t with
          cards := t.cards.map fun q => if q.1 = m then (q.1, { q.2 with preds := q.2.preds + 1 }) else q } : State).linked d 0

/-- The state in which card m waits for future i, by record 1. -/
def State.cardLinked (s : State) (n i m : Nat) (k : Card) : State :=
  { s.addWaiter n i 1 (.card m) with cards := [(m, { k with preds := k.preds + 1 })] }

section Linked
variable (hx : Claims.InContext s n x) (hw : s.waiters = []) {i : Nat} (hn : (Claims.entry x s.mem i).nwait = 0) (m : Nat)
  (k : Card)
include hx hw hn

theorem cardLinked_waiter : tfind 1 (s.cardLinked n i m k).waiters = some { who := .card m, fut := i, next := 0 } := by
  show tfind 1 (s.addWaiter n i 1 (.card m)).waiters = _
  rw [addWaiter_first hx hw hn, setFut_proj State.waiters fun _ _ _ _ _ _ _ => rfl]
  exact if_pos rfl

theorem cardLinked_entry :
    Claims.entry x (s.cardLinked n i m k).mem i = { Claims.entry x s.mem i with nwait := 1, whead := 1, wtail := 1 } := by
  show Claims.entry x (s.addWaiter n i 1 (.card m)).mem i = _
  rw [addWaiter_first hx hw hn]
  refine entry_setFut (s := { s with waiters := [(1, { who := .card m, fut := i, next := 0 })] }) hx.context i ?_
  obtain ⟨hvalue, hst, hgen, -, -, -⟩ := futEntryAt_fits s.mem (x.desc.futbase + 32 * i)
  exact ⟨hvalue, hst, hgen, Nat.one_lt_two_pow (by decide), Nat.one_lt_two_pow (by decide),
    Nat.one_lt_two_pow (by decide)⟩

end Linked

variable (ha : Claims.Alone s) (hs : Claims.Settled s) (hx : Claims.InContext s n x)
  (hr : s.core.ready { ss := [(a, 0), (b, 0)], ds := [d] } = true)
  (hf : Claims.valid x (handleIn (s.src a 0))) (hl : Claims.live s x (handleIn (s.src a 0)))
  (hg : handleIn (s.src b 0) = 0 ∨ Claims.valid x (handleIn (s.src b 0)))
include ha hs hx hr hf hl hg

theorem flink_looks :
    exec (.flink d a b) s =
      match (if s.current n (handleIn (s.src b 0)) then s.heldCard n (handleIn (s.src b 0)) else none) with
      | none => s.linked d 2
      | some m => s.linkTo d n (handleIn (s.src a 0)) m (Claims.entry x s.mem (Claims.idx (handleIn (s.src a 0)))) := by
  have hvalid : s.validHandle s.ctxNo (handleIn (s.src a 0)) = true := by
    rw [ctxNo_eq hx]
    exact (validHandle_iff hx.context _).mpr hf
  refine (issue_ordered_calm ha (settled_calm hs) hr _).trans ((if_neg ?_).trans ((if_neg ?_).trans ?_))
  · rw [hvalid]
    exact Bool.false_ne_true
  · rintro ⟨hne, hbad⟩
    rw [ctxNo_eq hx, (validHandle_iff hx.context _).mpr (hg.resolve_left hne)] at hbad
    exact Bool.false_ne_true hbad
  · rw [ctxNo_eq hx]
    exact withHandle_live hx hf hl

theorem flink_unheld (h : handleIn (s.src b 0) = 0 ∨ ∀ p ∈ s.cards, p.2.done ≠ handleIn (s.src b 0)) :
    exec (.flink d a b) s = .next (Claims.ends s (s.core.writeS d 2#64)) := by
  have hnone : s.heldCard n (handleIn (s.src b 0)) = none := by
    rcases h with h | h
    · rw [State.heldCard, if_pos h]
    · have hfilter : (s.cards.filter fun p => p.2.state = .waiting && decide (p.2.ctx = n) &&
          decide (p.2.done = handleIn (s.src b 0))) = [] :=
        List.filter_eq_nil_iff.mpr fun p hp => by simp [h p hp]
      rw [State.heldCard, hfilter]
      split <;> rfl
  rw [flink_looks ha hs hx hr hf hl hg, hnone, ite_self]
  exact linked_ends ha 2

variable {m : Nat} {k : Card} (hne : handleIn (s.src b 0) ≠ 0) (hlg : Claims.live s x (handleIn (s.src b 0)))
  (hcards : s.cards = [(m, k)]) (hk : k.state = .waiting) (hctx : k.ctx = n) (hdone : k.done = handleIn (s.src b 0))
include hne hlg hcards hk hctx hdone

theorem flink_held :
    exec (.flink d a b) s =
      s.linkTo d n (handleIn (s.src a 0)) m (Claims.entry x s.mem (Claims.idx (handleIn (s.src a 0)))) := by
  have hheld : s.heldCard n (handleIn (s.src b 0)) = some m := by
    rw [State.heldCard, if_neg hne, hcards]
    simp [hk, hctx, hdone]
  rw [flink_looks ha hs hx hr hf hl hg, (current_iff hx.context _).mpr hlg, if_pos rfl, hheld]

theorem flink_full (hst : (Claims.entry x s.mem (Claims.idx (handleIn (s.src a 0)))).st = 2) :
    exec (.flink d a b) s = .next (Claims.ends s (s.core.writeS d 1#64)) := by
  rw [flink_held ha hs hx hr hf hl hg hne hlg hcards hk hctx hdone]
  exact (if_pos hst).trans (linked_ends ha 1)

theorem flink_empty (hlog : ∀ a, s.canLog n a = true) (hst : (Claims.entry x s.mem (Claims.idx (handleIn (s.src a 0)))).st = 1)
    (hw : s.waiters = []) :
    exec (.flink d a b) s =
      .next (Claims.ends (s.cardLinked n (Claims.idx (handleIn (s.src a 0))) m k)
        ((s.cardLinked n (Claims.idx (handleIn (s.src a 0))) m k).core.writeS d 0#64)) := by
  have haddCards : (s.addWaiter n (Claims.idx (handleIn (s.src a 0))) 1 (.card m)).cards = [(m, k)] :=
    (setFut_proj State.cards (fun _ _ _ _ _ _ _ => rfl) _ _ _ _).trans hcards
  have hcore : (s.cardLinked n (Claims.idx (handleIn (s.src a 0))) m k).core = s.core :=
    setFut_proj State.core (fun _ _ _ _ _ _ _ => rfl) _ _ _ _
  rw [flink_held ha hs hx hr hf hl hg hne hlg hcards hk hctx hdone]
  refine (if_neg (by omega)).trans ((if_neg (by omega)).trans ?_)
  rw [State.futRoom, hlog, freeWaiter_first hw]
  refine (if_neg Bool.false_ne_true).trans ?_
  dsimp only
  rw [show futIndex (handleIn (s.src a 0)) = Claims.idx (handleIn (s.src a 0)) from rfl, haddCards]
  simp only [List.map_cons, List.map_nil, if_true]
  exact linked_ends (alone_of_core hcore ha) 0

/-- A card that waits on a poisoned future is refused. -/
theorem flink_poisoned (hst : (Claims.entry x s.mem (Claims.idx (handleIn (s.src a 0)))).st = 3) :
    ∃ t, exec (.flink d a b) s = .next t ∧ Claims.stepped s t ∧ t.core.sregs = (s.core.writeS d 3#64).sregs ∧
      t.cards = [] := by
  obtain ⟨hnone, -, i, j, hcore⟩ := refused_cardless hcards (Claims.entry x s.mem (Claims.idx (handleIn (s.src a 0)))).value
  refine ⟨_, (flink_held ha hs hx hr hf hl hg hne hlg hcards hk hctx hdone).trans
    ((if_neg (by omega)).trans ((if_pos hst).trans (linked_ends ⟨?_, ?_⟩ 3))), ?_, ?_, hnone⟩
  · rw [hcore]
    exact ha.quiet
  · rw [hcore]
    exact ha.mesh
  · show Core.pc _ + 4#64 = _
    rw [hcore]
  · show (Core.writeS _ d _).sregs = _
    rw [hcore]
    unfold Core.writeS
    split <;> rfl

end Link

theorem waiterRecheck_looks {s : State} {c : CoreId} (h : (s.getCore c).rechecking = true) :
    ∃ t, exec (.waiterRecheck c) s = .next t ∧ (t.getCore c).rechecking = false ∧ t.mem = s.mem := by
  refine ⟨_, if_pos h, ?_, mapCore_keeps State.mem (fun _ _ _ => rfl) _ _ _⟩
  rw [getCore_mapCore_same]

end Sys2Proof.Machine

namespace Sys2Proof.Proofs

open Sys2Proof Sys2Proof.Machine

/-- Settles O33: each clause is the rule of its instruction above. -/
theorem futures : Obligations.Futures := by
  unfold Obligations.Futures
  intro s n x ha hs _ hx hcards hlog
  refine ⟨fun d hr => ⟨fnew_none ha hs hx hr, fun i l hfree => ?_⟩,
    fun a hr => ⟨ffree_invalid ha hs hx hr, ffree_stale ha hs hx hr, ffree_awaited ha hs hx hr, fun hv hl hst => ?_⟩,
    fun j a b st v hj hr => ?_, fun d a b hr => ⟨fun hv hl hst => ?_, fun hv hl hst => ?_, fun v st => fget_woken ha hs hr⟩,
    fun d a b hr hf hl hg => ⟨flink_unheld ha hs hx hr hf hl hg, fun m k hne hlg hc hk hctx hdone =>
      ⟨flink_full ha hs hx hr hf hl hg hne hlg hc hk hctx hdone, fun hst hn hw => ?_,
        flink_poisoned ha hs hx hr hf hl hg hne hlg hc hk hctx hdone⟩⟩,
    fun c hre => ?_⟩
  · refine ⟨_, fnew_allocates ha hs hx hlog hr hfree, stepped_ends (congrArg Core.pc (allocated_core hx.context i)),
      allocated_freeList hx.context hfree, ?_, allocated_entry hx.context i⟩
    show (Core.writeS _ d _).sregs = _
    rw [allocated_core hx.context]
    rfl
  · exact ⟨_, ffree_frees ha hs hx hlog hr hv hl hst, stepped_ends (congrArg Core.pc (freed_core _)), freed_freeList hx.context _,
      freed_entry hx.context _⟩
  · rw [exec_settling hj hr ha hs]
    obtain ⟨hst4, hv64⟩ := settling_bounds hj
    refine ⟨futSet_invalid hx, futSet_stale hs hx, futSet_settled hs hx, fun hv hl hst hn => ?_,
      fun c hv hl hst hn hc hw => ?_⟩
    · obtain ⟨t, ht, h⟩ := fput_unawaited ha hcards hx hn hst4 hv64
      exact ⟨t, (futSet_settles hs hx hlog hv hl hst).trans (congrArg Host.Outcome.next ht), h⟩
    · obtain ⟨f, hw⟩ := hw
      obtain ⟨t, ht, h⟩ := fput_awaited (st := st) (v := v) ha hcards hx hn hc hw
      exact ⟨t, (futSet_settles hs hx hlog hv hl hst).trans (congrArg Host.Outcome.next ht), h⟩
  · exact ⟨(ftry_settled ha hs hx hr hv hl hst).trans (futResult_ends ha _ _), fun hsleep hre hdone =>
      (fget_settled ha hs hx hr hv hl hsleep hre hdone hst).trans (futResult_ends ha _ _)⟩
  · exact ⟨ftry_empty ha hs hx hr hv hl hst, fun hsleep hre hdone => fget_empty ha hs hx hr hv hl hsleep hre hdone hlog hst⟩
  · have hcore : (s.cardLinked n (Claims.idx (handleIn (s.src a 0))) m k).core = s.core :=
      setFut_proj State.core (fun _ _ _ _ _ _ _ => rfl) _ _ _ _
    refine ⟨_, flink_empty ha hs hx hr hf hl hg hne hlg hc hk hctx hdone hlog hst hw, stepped_ends (congrArg Core.pc hcore),
      ?_, rfl, ?_, ?_⟩
    · show (Core.writeS _ d _).sregs = _
      rw [hcore]
    · exact cardLinked_waiter hx hw hn m k
    · exact cardLinked_entry hx hw hn m k
  · exact waiterRecheck_looks hre

end Sys2Proof.Proofs
end

section
/-! SUPPORT. The phases of a ring's step, and a step with no station that takes part (R313, R314, R319, R327, R328). -/

namespace Sys2Proof.Machine

open Sys2Proof

section Phases
variable {r : Ring}

theorem inject_frame (r : Ring) :
    r.inject =
      { r with
        slotA := r.inject.slotA, slotB := r.inject.slotB, queueA := r.inject.queueA, queueB := r.inject.queueB } := by
  unfold Ring.inject
  split
  · rfl
  · dsimp only
    split <;> split <;> rfl

theorem move_frame (r : Ring) : r.move = { r with slotA := r.move.slotA, slotB := r.move.slotB } := by
  unfold Ring.move
  split <;> rfl

theorem inject_families (h : r.state = .running) :
    (r.inject.slotA, r.inject.queueA) = Claims.injectInto r.slotA r.queueA ∧
      (r.inject.slotB, r.inject.queueB) = Claims.injectInto r.slotB r.queueB := by
  obtain ⟨state, config, steps, slotA, slotB, queueA, queueB, takes⟩ := r
  obtain rfl : state = .running := h
  unfold Ring.inject Claims.injectInto
  rw [if_neg (not_not.mpr rfl)]
  dsimp only
  constructor
  · cases queueA <;> cases tfind 0 slotA <;> cases queueB <;> cases tfind 0 slotB <;> rfl
  · cases queueA <;> cases tfind 0 slotA <;> cases queueB <;> cases tfind 0 slotB <;> rfl

theorem move_slotA (r : Ring) :
    r.move.slotA = if r.steps % 2 = 0 then r.slotA.map fun x => ((x.1 + 1) % 16, x.2) else r.slotA := by
  unfold Ring.move
  split <;> rfl

theorem move_slotB (r : Ring) :
    r.move.slotB = if r.steps % 2 = 1 then r.slotB.map fun x => ((x.1 + 15) % 16, x.2) else r.slotB := by
  unfold Ring.move
  rcases Nat.mod_two_eq_zero_or_one r.steps with h | h <;> rw [h] <;> rfl

/-- The beads that a step leaves of a family: those that are not retired, older by one. -/
def keptBeads (l : Tab Bead) : Tab Bead :=
  (l.filter fun x => x.2.dcnt ≠ x.2.pcnt).map fun x => (x.1, { x.2 with age := x.2.age + 1 })

theorem retire_age (r : Ring) : r.retire.age = { r with slotA := keptBeads r.slotA, slotB := keptBeads r.slotB } := rfl

/-- Beads that are young enough do not starve. -/
theorem starved_none (hA : ∀ x ∈ r.slotA, x.2.age < 32 * r.limit) (hB : ∀ x ∈ r.slotB, x.2.age < 32 * r.limit) :
    r.starved = none := by
  have hold (l : Tab Bead) (hl : ∀ x ∈ l, x.2.age < 32 * r.limit) (st : Nat) (b : Bead) (h : tfind st l = some b) :
      ¬32 * r.limit ≤ b.age := Nat.not_le.mpr (hl _ (mem_of_tfind h))
  unfold Ring.starved
  refine List.findSome?_eq_none_iff.mpr fun st _ => ?_
  dsimp only
  cases hx : tfind st r.slotA with
  | none =>
    cases hy : tfind st r.slotB with
    | none => rfl
    | some y => exact if_neg (hold _ hB st y hy)
  | some x =>
    dsimp only
    rw [if_neg (hold _ hA st x hx)]
    cases hy : tfind st r.slotB with
    | none => rfl
    | some y => exact if_neg (hold _ hB st y hy)

theorem mem_injectInto {l : Tab Bead} {q : List Bead} {x : Nat × Bead} (h : x ∈ (Claims.injectInto l q).1) :
    x ∈ l ∨ x.2.age = 0 := by
  unfold Claims.injectInto at h
  split at h
  · rcases List.mem_cons.mp h with rfl | h
    · exact .inr rfl
    · exact .inl (List.mem_of_mem_filter h)
  · exact .inl h

/-- After a step every bead is at most one older than before it. -/
theorem keptBeads_young {l : Tab Bead} {q : List Bead} {b : Nat} (hb : 1 < b) (hl : ∀ x ∈ l, x.2.age + 1 < b) :
    ∀ x ∈ keptBeads (Claims.injectInto l q).1, x.2.age < b := by
  intro x hx
  obtain ⟨y, hy, rfl⟩ := List.mem_map.mp hx
  rcases mem_injectInto (List.mem_of_mem_filter hy) with h | h
  · exact hl y h
  · show y.2.age + 1 < b
    rw [h]
    exact hb

/-- The beads of both families after the move of a step. -/
def Ring.movedA (r : Ring) : Tab Bead :=
  if r.steps % 2 = 0 then r.slotA.map fun x => ((x.1 + 1) % 16, x.2) else r.slotA

def Ring.movedB (r : Ring) : Tab Bead :=
  if r.steps % 2 = 1 then r.slotB.map fun x => ((x.1 + 15) % 16, x.2) else r.slotB

theorem move_inject_families (h : r.state = .running) :
    (r.move.inject.slotA, r.move.inject.queueA) = Claims.injectInto r.movedA r.queueA ∧
      (r.move.inject.slotB, r.move.inject.queueB) = Claims.injectInto r.movedB r.queueB := by
  have hrun : r.move.state = .running := by
    rw [move_frame]
    exact h
  have hA : r.move.queueA = r.queueA := by rw [move_frame]
  have hB : r.move.queueB = r.queueB := by rw [move_frame]
  have hfamilies := inject_families hrun
  rw [move_slotA, move_slotB, hA, hB] at hfamilies
  exact hfamilies

theorem mem_movedA {x : Nat × Bead} (h : x ∈ r.movedA) : ∃ y ∈ r.slotA, y.2 = x.2 := by
  unfold Ring.movedA at h
  split at h
  · obtain ⟨y, hy, rfl⟩ := List.mem_map.mp h
    exact ⟨y, hy, rfl⟩
  · exact ⟨x, h, rfl⟩

theorem mem_movedB {x : Nat × Bead} (h : x ∈ r.movedB) : ∃ y ∈ r.slotB, y.2 = x.2 := by
  unfold Ring.movedB at h
  split at h
  · obtain ⟨y, hy, rfl⟩ := List.mem_map.mp h
    exact ⟨y, hy, rfl⟩
  · exact ⟨x, h, rfl⟩

/-- Beads that were young enough before a step are so after it. -/
theorem step_young (h : r.state = .running) (hlimit : 1 ≤ r.limit)
    (hage : ∀ x ∈ r.slotA ++ r.slotB, x.2.age + 1 < 32 * r.limit) : r.move.inject.retire.age.starved = none := by
  obtain ⟨hA, hB⟩ := move_inject_families h
  have hlim : r.move.inject.retire.age.limit = r.limit := by
    rw [Ring.limit, retire_age, inject_frame, move_frame]
    rfl
  refine starved_none ?_ ?_
  all_goals rw [hlim, retire_age]
  · show ∀ x ∈ keptBeads r.move.inject.slotA, _
    rw [show r.move.inject.slotA = _ from congrArg Prod.fst hA]
    refine keptBeads_young (by omega) fun x hx => ?_
    obtain ⟨y, hy, hxy⟩ := mem_movedA hx
    rw [← hxy]
    exact hage y (List.mem_append_left _ hy)
  · show ∀ x ∈ keptBeads r.move.inject.slotB, _
    rw [show r.move.inject.slotB = _ from congrArg Prod.fst hB]
    refine keptBeads_young (by omega) fun x hx => ?_
    obtain ⟨y, hy, hxy⟩ := mem_movedB hx
    rw [← hxy]
    exact hage y (List.mem_append_right _ hy)

end Phases

section Step
variable {s : State} {cl : Nat}

theorem ring_setRing_same (s : State) (cl : Nat) (r : Ring) : (s.setRing cl r).ring cl = r := by
  show (tget cl (tset cl _ s.clusters) {}).ring = r
  rw [tget_tset_same]

/-- A station that takes no part matches nothing. -/
theorem unmatched (part : Bool) (oa ob : Option Bead) (f : Bead → Bead → State) (s : State) : part = false →
    (match part, oa, ob with
      | true, some x, some y => f x y
      | _, _, _ => s) = s := by
  rintro rfl
  rfl

theorem matchAt_off {c : CoreId} (h : (s.ring (clusterOf c)).takesPart (stationOf c) = false) : s.matchAt c = s :=
  unmatched _ _ _ _ s h

/-- The ring after a step with no station that takes part. -/
def Ring.stepped (r : Ring) : Ring := { r.move.inject.retire.age with takes := [], steps := r.steps + 1 }

theorem clusterOf_add {i : Nat} (hi : i < 16) : clusterOf (16 * cl + i) = cl := by
  rw [clusterOf]
  omega

theorem stationOf_add {i : Nat} (hi : i < 16) : stationOf (16 * cl + i) = i := by
  rw [stationOf]
  omega

theorem matches_off (hpart : ∀ i < 16, (s.ring cl).takesPart i = false) :
    (List.range 16).foldl (fun t i => t.matchAt (16 * cl + i)) s = s := by
  refine foldl_eq_self fun i hi => matchAt_off ?_
  rw [clusterOf_add (List.mem_range.mp hi), stationOf_add (List.mem_range.mp hi)]
  exact hpart i (List.mem_range.mp hi)

theorem actions_none (h : ∀ i < 16, (s.getCore (16 * cl + i)).mentries = []) :
    (List.range 16).foldl (fun t i => t.entryActions (16 * cl + i)) s = s :=
  foldl_eq_self fun i hi => entryActions_none (h i (List.mem_range.mp hi))

/-- The step of a ring that runs, up to the retire phase. -/
def State.ringMatched (s : State) (cl : Nat) : State :=
  (List.range 16).foldl (fun t i => t.matchAt (16 * cl + i)) (s.setRing cl (s.ring cl).move.inject)

/-- The retire phase of a step, and what follows. -/
def State.ringRetired (s : State) (cl : Nat) : State :=
  let r := (s.ring cl).retire.age
  let s :=
    match r.starved with
    | some (st, b) =>
      (s.setRing cl { r with state := .frozen, steps := r.steps + 1 }).mapCore (16 * cl) fun k =>
        k.pendAsync 0x2C0#10
          (BitVec.ofNat 64 (b.tag.toNat + st * 2 ^ 32 + b.dcnt % 256 * 2 ^ 40 + b.pcnt % 256 * 2 ^ 48))
    | none => s.setRing cl { r with steps := r.steps + 1 }
  ((List.range 16).foldl (fun t i => t.entryActions (16 * cl + i)) s).ringIdle cl

theorem ringStep_phases (hrun : (s.ring cl).stepping = true) (hstop : s.clusterStopped cl = false)
    {n : Nat} (hctx : (s.cluster cl).context = some n) (hlive : s.live n = true) :
    exec (.ringStep cl) s =
      .next ((State.takeBeads cl ((s.ringMatched cl).ring cl).takes
        ((s.ringMatched cl).setRing cl { (s.ringMatched cl).ring cl with takes := [] })).ringRetired cl) := by
  refine if_neg ?_
  rw [hrun, hstop, hctx]
  simp [hlive]

variable {n : Nat} {r : Ring} (hring : (s.cluster cl).ring = r) (hctx : (s.cluster cl).context = some n) (hlive : s.live n = true)
  (hstate : r.state = .running) (htakes : r.takes = []) (hpart : ∀ i < 16, r.takesPart i = false)
  (hcores : ∀ i < 16, (s.getCore (16 * cl + i)).mentries = [] ∧ (s.getCore (16 * cl + i)).debugStopped = false)
  (hyoung : r.move.inject.retire.age.starved = none)

theorem ringRetired_young (hmentries : ∀ i < 16, (s.getCore (16 * cl + i)).mentries = []) (hrun : (s.ring cl).state = .running)
    (hyoung : (s.ring cl).retire.age.starved = none) :
    s.ringRetired cl = s.setRing cl { (s.ring cl).retire.age with steps := (s.ring cl).steps + 1 } := by
  have hactions := actions_none (s := s.setRing cl { (s.ring cl).retire.age with steps := (s.ring cl).steps + 1 }) hmentries
  unfold State.ringRetired
  dsimp only
  rw [hyoung]
  dsimp only
  rw [show (s.ring cl).retire.age.steps = (s.ring cl).steps from rfl, hactions]
  refine if_neg ?_
  rw [ring_setRing_same]
  rintro ⟨hdrain, -⟩
  exact RingState.noConfusion (hrun.symm.trans hdrain)

include hstate htakes

theorem inject_keeps : r.move.inject.takes = [] ∧ r.move.inject.config = r.config ∧ r.move.inject.steps = r.steps ∧
    r.move.inject.state = .running := by
  rw [inject_frame, move_frame]
  exact ⟨htakes, rfl, rfl, hstate⟩

include hring hpart

theorem ringMatched_alone : s.ringMatched cl = s.setRing cl r.move.inject := by
  obtain ⟨-, hconfig, -, -⟩ := inject_keeps hstate htakes
  unfold State.ringMatched
  rw [show s.ring cl = r from hring]
  refine matches_off fun i hi => ?_
  rw [ring_setRing_same, Ring.takesPart, hconfig]
  exact hpart i hi

include hctx hlive hcores hyoung

theorem ringStep_alone : ∃ t, exec (.ringStep cl) s = .next t ∧ t.mem = s.mem ∧ (t.cluster cl).ring = r.stepped := by
  obtain ⟨htakes', -, hsteps, hrun⟩ := inject_keeps hstate htakes
  have hmatched := ringMatched_alone hring hstate htakes hpart
  have hstop : s.clusterStopped cl = false :=
    List.any_eq_false.mpr fun i hi => by simp [(hcores i (List.mem_range.mp hi)).2]
  have hstepping : (s.ring cl).stepping = true := (stepping_iff _).mpr (.inl (by rw [show s.ring cl = r from hring, hstate]))
  rw [ringStep_phases hstepping hstop hctx hlive, hmatched, ring_setRing_same, htakes']
  have hretired := ringRetired_young
    (s := (s.setRing cl r.move.inject).setRing cl { r.move.inject with takes := [] }) (cl := cl) (fun i hi => (hcores i hi).1)
    (by rw [ring_setRing_same]; exact hrun) (by rw [ring_setRing_same]; exact hyoung)
  refine ⟨_, congrArg Host.Outcome.next hretired, rfl, ?_⟩
  refine (ring_setRing_same _ _ _).trans ?_
  rw [ring_setRing_same, Ring.stepped, ← hsteps]
  rfl

end Step

end Sys2Proof.Machine

namespace Sys2Proof.Proofs

open Sys2Proof Sys2Proof.Machine

/-- Settles O30: with no station that takes part the match phase changes nothing, and no bead is old enough to starve. -/
theorem ringSteps : Obligations.RingSteps := by
  unfold Obligations.RingSteps
  intro s cl n r hring hctx hlive hstate hlimit htakes hpart hcores _ _ hage
  obtain ⟨hA, hB⟩ := move_inject_families hstate
  obtain ⟨-, -, -, hrun⟩ := inject_keeps hstate htakes
  obtain ⟨t, ht, hmem, hafter⟩ := ringStep_alone hring hctx hlive hstate htakes hpart hcores
    (step_young hstate hlimit hage)
  refine ⟨t, ht, hmem, ?_⟩
  rw [hafter]
  exact ⟨hrun, rfl, congrArg keptBeads (congrArg Prod.fst hA), congrArg Prod.snd hA, congrArg keptBeads (congrArg Prod.fst hB),
    congrArg Prod.snd hB⟩

end Sys2Proof.Proofs
end

section
/-! SUPPORT. A core in no gang that lags behind the path of one never stops at a stop time (R431). -/

namespace Sys2Proof.Machine

open Sys2Proof

/-- A core that lags is not even with itself, and stays as it is at a stop time. -/
theorem tryRest_lagging {s : State} {c : CoreId} (hgang : (s.getCore c).gang = none) (hlag : (s.getCore c).lag ≠ 0) :
    s.tryRest c = s := by
  have htogether : s.together c = [c] := by
    rw [State.together, hgang]
  have huneven : s.even [c] = false := by
    simp [State.even, hlag]
  unfold State.tryRest
  dsimp only
  rw [htogether, huneven, Bool.and_false]
  exact if_neg Bool.false_ne_true

/-- Where no core stops and one is still at work, STOP_TIME is not enabled. -/
theorem stopTime_unmoved {s : State} {n t : Nat} {x : Context} (hx : tfind n s.contexts = some x) (hstate : x.state = .stopping t)
    (hkeep : (s.ctxCores n).foldl State.tryRest s = s) (hbusy : s.allAtRest n = false) :
    exec (.stopTime n) s = .refused (.notEnabled "STOP_TIME") := by
  show execStopTime n s = _
  unfold execStopTime
  rw [hx]
  dsimp only
  rw [hstate]
  dsimp only
  rw [hkeep, hbusy, if_neg Bool.false_ne_true, if_pos rfl, ite_self]

/-- Context 0 at its stop time. -/
def stoppingContext : Context := { loggedContext with interval := 0, state := .stopping 0 }

/-- Core 0 of that context, in no gang, holds a unit, and a word of a gang's path is noted as still to come. -/
def laggard : State :=
  { core := { context := some 0, unit := some { card := 0, ident := 0, stop := 1, argBase := 0#64, argSize := 0 }, lag := 1 }
    contexts := [(0, stoppingContext)] }

theorem stopTime_laggard : exec (.stopTime 0) laggard = .refused (.notEnabled "STOP_TIME") :=
  stopTime_unmoved (x := stoppingContext) rfl rfl (tryRest_lagging (s := laggard) (c := 0) rfl Nat.one_ne_zero) rfl

end Sys2Proof.Machine

namespace Sys2Proof.Proofs

open Sys2Proof Sys2Proof.Machine

/-- Refutes O47: a core in no gang stops at a stop time only if it lags behind no path, which the statement does not ask of it.
The core of `laggard` meets every condition of the statement, and STOP_TIME is not enabled. -/
theorem not_stopsAndErrors : ¬ Obligations.StopsAndErrors := by
  unfold Obligations.StopsAndErrors
  intro h
  obtain ⟨hstop, -⟩ := h laggard 0 stoppingContext rfl
  obtain ⟨-, hone⟩ := hstop 0 rfl le_rfl rfl
  obtain ⟨t, hnext, -⟩ := hone rfl rfl (fun hunit => nomatch hunit) rfl rfl rfl rfl rfl rfl rfl rfl rfl
  exact nomatch stopTime_laggard.symm.trans hnext

end Sys2Proof.Proofs
end

section
/-! SUPPORT. Walks, invalidations, writes held back, and the accesses of peers and of the host (R223, R260, R261, R379 to R383,
R387, R445, R446). -/

namespace Sys2Proof.Machine

open Sys2Proof

/-! ### Walks -/

section Walk
variable {s : State} {c : CoreId} {w : Walk} {x : Context}

/-- A walk reads memory and the map of the stacks; what is counted besides does not matter. -/
theorem walkFrom_countWalk (s : State) (ctx : Nat) (root : Word) (va a base : Nat) (l : List (Nat × Nat × Nat)) :
    (s.countWalk ctx root va).walkFrom a base l = s.walkFrom a base l := by
  rw [countWalk_frame]
  induction l generalizing base with
  | nil => rfl
  | cons p l ih =>
    unfold State.walkFrom
    dsimp only
    rw [ih]
    rfl

/-- The leaf that a walk finds is the entry at its address. -/
theorem walkFrom_leaf {a base : Nat} {l : List (Nat × Nat × Nat)} {leaf : Leaf} (h : s.walkFrom a base l = .ok leaf) :
    BitVec.ofNat 64 (memRead s.mem leaf.at_ 8) = leaf.pte := by
  induction l generalizing base with
  | nil => exact nomatch h
  | cons p l ih =>
    unfold State.walkFrom at h
    dsimp only at h
    split at h
    · exact nomatch h
    · split at h
      · exact nomatch h
      · split at h
        · split at h
          · exact nomatch h
          · exact ih h
        · split at h
          · exact nomatch h
          · split at h
            · exact nomatch h
            · cases h
              rfl

theorem walkRoot_countWalk (s : State) (ctx : Nat) (root : Word) (va a : Nat) (r : Word) :
    (s.countWalk ctx root va).walkRoot r a = s.walkRoot r a := walkFrom_countWalk ..

theorem mem_cluster (c : CoreId) : c ∈ (List.range 16).map fun i => 16 * clusterOf c + i := by
  have hsum : 16 * clusterOf c + c % 16 = c := by
    unfold clusterOf
    omega
  exact List.mem_map.mpr ⟨c % 16, List.mem_range.mpr (Nat.mod_lt _ (by decide)), hsum⟩

theorem cluster_nodup (cl : Nat) : ((List.range 16).map fun i => 16 * cl + i).Nodup :=
  List.nodup_range.map fun _ _ h => Nat.add_left_cancel h

/-- A list without repetitions in which only one member passes. -/
theorem filter_eq_singleton {l : List Nat} (hl : l.Nodup) {p : Nat → Bool} {a : Nat} (ha : a ∈ l) (hp : p a = true)
    (hother : ∀ b ∈ l, b ≠ a → p b = false) : l.filter p = [a] := by
  have hnodup := hl.filter p
  have hmem (b : Nat) : b ∈ l.filter p ↔ b = a := by
    rw [List.mem_filter]
    constructor
    · rintro ⟨hb, hpb⟩
      by_contra hne
      rw [hother b hb hne] at hpb
      exact Bool.false_ne_true hpb
    · rintro rfl
      exact ⟨ha, hp⟩
  exact List.perm_singleton.mp ((List.perm_ext_iff_of_nodup hnodup (List.nodup_singleton a)).mpr fun b => by
    rw [hmem, List.mem_singleton])

/-- The one core of its cluster that walks. -/
theorem walkers_alone (hw : (s.getCore c).walk = some w) {n : Nat} (hc : (s.getCore c).context = some n)
    (hother : ∀ o, o / 16 = c / 16 → o ≠ c → (s.getCore o).walk = none) (log2 : Nat) :
    s.walkers (clusterOf c) n log2 w.va.toNat = [c] := by
  refine filter_eq_singleton (cluster_nodup _) (mem_cluster c) ?_ fun o ho hne => ?_
  · rw [hw, hc]
    simp
  · obtain ⟨i, hi, rfl⟩ := List.mem_map.mp ho
    have hi := List.mem_range.mp hi
    have hsame : (16 * clusterOf c + i) / 16 = c / 16 := by
      unfold clusterOf
      omega
    rw [hother _ hsame hne]

theorem getCore_countWalk (s : State) (ctx : Nat) (root : Word) (va : Nat) (c : CoreId) :
    (s.countWalk ctx root va).getCore c = s.getCore c := by
  rw [countWalk_frame]
  rfl

theorem viaLeaf_countWalk (s : State) (ctx : Nat) (root : Word) (va : Nat) (keys : BitVec 256) (system : Bool) (acc : Access)
    (pte : Word) (log2 a : Nat) :
    (s.countWalk ctx root va).viaLeaf keys system acc pte log2 a = s.viaLeaf keys system acc pte log2 a := by
  rw [countWalk_frame]
  rfl

/-- The state in which the lines of a walk are counted. -/
def State.walked (s : State) (x : Context) (w : Walk) : State := s.countWalk x.desc.ctx x.desc.root w.va.toNat

section Alone
variable (hw : (s.getCore c).walk = some w) (hx : s.ctxOf c = some x) (hc : (s.getCore c).context = some x.desc.ctx)
  (hpoison : s.poisoned = []) (hother : ∀ o, o / 16 = c / 16 → o ≠ c → (s.getCore o).walk = none)
include hw hx hc hpoison hother

/-- A walk of a core that shares it with no other ends at a cause or a leaf. -/
theorem pageWalkComplete_alone :
    exec (.pageWalkComplete c) s =
      match s.walkRoot x.desc.root w.va.toNat with
      | .error e => .next ((s.walked x w).mapCore c fun q => q.walkFault e)
      | .ok l => .next ((s.walked x w).takeLeaf x.desc l c) := by
  have hwalkers (log2 : Nat) : (s.walked x w).walkers (clusterOf c) x.desc.ctx log2 w.va.toNat = [c] :=
    walkers_alone (s := s.walked x w) (by rw [State.walked, getCore_countWalk, hw])
      (by rw [State.walked, getCore_countWalk, hc])
      (fun o ho hne => by rw [State.walked, getCore_countWalk, hother o ho hne]) log2
  have hclean : ((s.walkReads w.va.toNat (wfield x.desc.root 15 37 * 2 ^ 15) walkLevels).find? fun a => s.poisonIn a 8) = none :=
    List.find?_eq_none.mpr fun a _ => by simp [poisonIn_clean hpoison]
  show execPageWalkComplete c s = _
  unfold execPageWalkComplete
  dsimp only
  rw [hw, hx]
  dsimp only
  rw [hclean]
  dsimp only
  rw [walkRoot_countWalk]
  cases s.walkRoot x.desc.root w.va.toNat with
  | error e => exact congrArg (fun l : List CoreId => Host.Outcome.next (l.foldl _ (s.walked x w))) (hwalkers 16)
  | ok l => exact congrArg (fun l : List CoreId => Host.Outcome.next (l.foldl _ (s.walked x w))) (hwalkers l.log2)

theorem pageWalkComplete_fault {e : Cause} (he : s.walkRoot x.desc.root w.va.toNat = .error e) :
    ∃ t, exec (.pageWalkComplete c) s = .next t ∧ t.mem = s.mem ∧ (t.getCore c).walk = none ∧
      tfind w.va.toNat (t.getCore c).walkFaults = some e := by
  have hcore : ((s.walked x w).mapCore c fun q => q.walkFault e).getCore c =
      { s.getCore c with walk := none, walkFaults := tset w.va.toNat e (s.getCore c).walkFaults } := by
    rw [getCore_mapCore_same, State.walked, getCore_countWalk, Core.walkFault, hw]
  refine ⟨(s.walked x w).mapCore c fun q => q.walkFault e, ?_, ?_, ?_, ?_⟩
  · rw [pageWalkComplete_alone hw hx hc hpoison hother, he]
  · rw [mapCore_mem, State.walked, countWalk_frame]
  · rw [hcore]
  · rw [hcore]
    exact tfind_tset_same ..

/-- The entry that a walk gives for a leaf. -/
def walkEntry (x : Context) (w : Walk) (l : Leaf) : TlbEntry :=
  { ctx := x.desc.ctx, base := w.va.toNat / 2 ^ l.log2 * 2 ^ l.log2, log2 := l.log2, pte := withAD l.pte w.access }

theorem pageWalkComplete_leaf {l : Leaf} {p : Place} {a : Nat} {q : Word} (hl : s.walkRoot x.desc.root w.va.toNat = .ok l)
    (hvia : s.viaLeaf x.desc.keys (s.getCore c).system w.access (withAD l.pte w.access) l.log2 w.va.toNat = .ok p a q) :
    ∃ t, exec (.pageWalkComplete c) s = .next t ∧ (t.getCore c).walk = none ∧ walkEntry x w l ∈ (t.getCore c).tlb := by
  have hpte : BitVec.ofNat 64 (memRead (s.walked x w).mem l.at_ 8) = l.pte := by
    rw [State.walked, countWalk_frame]
    exact walkFrom_leaf (s := s) hl
  have hcore : (s.walked x w).getCore c = s.getCore c := getCore_countWalk ..
  refine ⟨(((s.walked x w).orAD x.desc.ctx l w.access).mapCluster (clusterOf c) fun q =>
    { q with tlb := tlbAdd 2048 (walkEntry x w l) q.tlb }).mapCore c fun o =>
      { o with walk := none, tlb := tlbAdd 64 (walkEntry x w l) o.tlb }, ?_, ?_, ?_⟩
  · rw [pageWalkComplete_alone hw hx hc hpoison hother, hl]
    refine congrArg Host.Outcome.next ?_
    unfold State.takeLeaf
    dsimp only
    rw [hcore, hw]
    dsimp only
    rw [hpte, show (s.walked x w).viaLeaf _ _ _ _ _ _ = _ from viaLeaf_countWalk .., hvia]
    rfl
  · rw [getCore_mapCore_same]
  · rw [getCore_mapCore_same]
    exact List.mem_cons_self

end Alone

theorem walkEntry_maps (x : Context) (w : Walk) (l : Leaf) :
    (walkEntry x w l).base ≤ w.va.toNat ∧ w.va.toNat < (walkEntry x w l).base + 2 ^ (walkEntry x w l).log2 := by
  have hpos : 0 < 2 ^ l.log2 := Nat.two_pow_pos _
  have hdiv := Nat.div_add_mod' w.va.toNat (2 ^ l.log2)
  have hmod := Nat.mod_lt w.va.toNat hpos
  show w.va.toNat / 2 ^ l.log2 * 2 ^ l.log2 ≤ w.va.toNat ∧ w.va.toNat < w.va.toNat / 2 ^ l.log2 * 2 ^ l.log2 + 2 ^ l.log2
  omega

end Walk

/-! ### Invalidations (R383) -/

section Shootdown
variable {s : State} {d : Shootdown}

/-- A cluster without the translations that an invalidation hits. -/
def Cluster.shot (d : Shootdown) (k : Cluster) : Cluster := { k with tlb := k.tlb.filter fun e => !d.hits e }

/-- A core without the translations that an invalidation hits; what it has learned of its context's walks is forgotten, and
a write held back translates again. -/
def Core.shot (d : Shootdown) (k : Core) : Core :=
  { k with
    tlb := k.tlb.filter fun e => !d.hits e
    walkFaults := if k.context = some d.ctx then [] else k.walkFaults
    wb := k.wb.map fun b => { b with waiting := false } }

/-- The iterations younger than the current ones that buffer an access translated before are dropped. -/
def State.cancelYoung (s : State) (d : Shootdown) : State :=
  ((s.shotCores d).filter (s.youngShot d)).foldl (fun t c => t.mapCore c fun k => { k with young := [] }) s

/-- The state in which an invalidation has acted. -/
def State.shot (s : State) (d : Shootdown) : State :=
  (List.range 16).foldl (fun t j => t.mapCore (16 * d.cluster + j) (Core.shot d))
    ((s.cancelYoung d).mapCluster d.cluster (Cluster.shot d))

/-- A state with other invalidations under way. -/
def State.withShootdowns (s : State) (l : List Shootdown) : State := { s with shootdowns := l }

theorem withShootdowns_getCore (s : State) (l : List Shootdown) (c : CoreId) : (s.withShootdowns l).getCore c = s.getCore c := rfl

theorem withShootdowns_cluster (s : State) (l : List Shootdown) (n : Nat) : (s.withShootdowns l).cluster n = s.cluster n := rfl

theorem withShootdowns_mem (s : State) (l : List Shootdown) : (s.withShootdowns l).mem = s.mem := rfl

theorem withShootdowns_shootdowns (s : State) (l : List Shootdown) : (s.withShootdowns l).shootdowns = l := rfl

theorem tlbInvalidationRequest_acts (hd : s.shootdowns = [d]) (hacked : d.acked = false)
    (hleft : ∀ c ∈ s.shotCores d, s.accessesLeft d c = false ∧ s.buffersShot d c = false) :
    exec (.tlbInvalidationRequest 0) s = .next ((s.shot d).withShootdowns [{ d with acked := true }]) := by
  have haccess : (s.shotCores d).any (s.accessesLeft d) = false := by
    rw [List.any_eq_false]
    exact fun c hc => by rw [(hleft c hc).1]; exact Bool.false_ne_true
  have hbuffers (p : CoreId → Bool) : ((s.shotCores d).any fun c => p c && s.buffersShot d c) = false := by
    rw [List.any_eq_false]
    exact fun c hc => by rw [(hleft c hc).2, Bool.and_false]; exact Bool.false_ne_true
  have hcommitted : ((s.shotCores d).find? fun c => (s.getCore c).committed && s.buffersShot d c) = none :=
    List.find?_eq_none.mpr fun c hc => by rw [(hleft c hc).2, Bool.and_false]; exact Bool.false_ne_true
  have hnone : (s.shotCores d).filter (s.buffersShot d) = [] :=
    List.filter_eq_nil_iff.mpr fun c hc => by rw [(hleft c hc).2]; exact Bool.false_ne_true
  have hkeep : (s.shot d).shootdowns = [d] := by
    rw [← hd]
    exact (foldl_mapCore_proj State.shootdowns (fun _ _ _ => rfl) _ (fun _ => Core.shot d) _ _).trans
      (foldl_mapCore_proj State.shootdowns (fun _ _ _ => rfl) id _ _ _)
  show execTlbInvalidationRequest 0 s = _
  unfold execTlbInvalidationRequest
  rw [hd]
  dsimp only [List.getElem?_cons_zero]
  rw [hacked, haccess, if_neg (by simp), hbuffers, if_neg Bool.false_ne_true, hcommitted]
  dsimp only
  rw [hnone]
  exact congrArg (fun l => Host.Outcome.next ((s.shot d).withShootdowns (l.set 0 { d with acked := true }))) hkeep

theorem shot_mem : (s.shot d).mem = s.mem :=
  (foldl_mapCore_proj State.mem (fun _ _ _ => rfl) _ (fun _ => Core.shot d) _ _).trans
    (foldl_mapCore_proj State.mem (fun _ _ _ => rfl) id _ _ _)

theorem shot_clusters : (s.shot d).clusters = ((s.cancelYoung d).mapCluster d.cluster (Cluster.shot d)).clusters :=
  foldl_mapCore_proj State.clusters (fun _ _ _ => rfl) _ (fun _ => Core.shot d) _ _

theorem shot_cluster : (s.shot d).cluster d.cluster = ((s.cancelYoung d).cluster d.cluster).shot d := by
  show tget d.cluster (s.shot d).clusters {} = _
  rw [shot_clusters]
  exact tget_tset_same ..

theorem shot_getCore {j : Nat} (hj : j < 16) :
    (s.shot d).getCore (16 * d.cluster + j) = ((s.cancelYoung d).getCore (16 * d.cluster + j)).shot d := by
  have hmem : 16 * d.cluster + j ∈ (List.range 16).map fun i => 16 * d.cluster + i :=
    List.mem_map.mpr ⟨j, List.mem_range.mpr hj, rfl⟩
  have h := getCore_foldl_mapCore_of_mem (f := Core.shot d) (s := (s.cancelYoung d).mapCluster d.cluster (Cluster.shot d))
    (cluster_nodup d.cluster) hmem
  rw [List.foldl_map] at h
  exact h

/-- What is left of a list of translations after an invalidation. -/
theorem hits_of_mem_filter {l : List TlbEntry} {e : TlbEntry} (he : e ∈ l.filter fun e => !d.hits e) : d.hits e = false :=
  (Bool.not_eq_true' _).mp (List.mem_filter.mp he).2

/-- A core with one acknowledgement less to come. -/
def Core.ack (k : Core) : Core := { k with tlbinv := k.tlbinv.map fun n => n - 1 }

/-- The state in which the only invalidation is acknowledged. -/
def State.acknowledged (s : State) (d : Shootdown) : State := ({ s with shootdowns := [] } : State).mapCore d.src Core.ack

theorem acknowledged_getCore : (s.acknowledged d).getCore d.src = (s.getCore d.src).ack := getCore_mapCore_same ..

theorem acknowledged_shootdowns : (s.acknowledged d).shootdowns = [] :=
  mapCore_keeps State.shootdowns (fun _ _ _ => rfl) _ _ _

theorem acknowledged_mem : (s.acknowledged d).mem = s.mem := mapCore_mem ..

theorem tlbInvalidationAck_returns (hd : s.shootdowns = [d]) (hacked : d.acked = true) :
    exec (.tlbInvalidationAck 0) s = .next (s.acknowledged d) := by
  show execTlbInvalidationAck 0 s = _
  unfold execTlbInvalidationAck
  rw [hd]
  dsimp only [List.getElem?_cons_zero]
  rw [if_pos hacked]
  rfl

end Shootdown

/-! ### Writes held back (R387) -/

section WriteBlock
variable {s : State} {c : CoreId}

/-- A translation of context n at an address is none of those kept. -/
def keepsEntry (n va : Nat) (e : TlbEntry) : Bool :=
  !(decide (e.ctx = n) && decide (e.base ≤ va) && decide (va < e.base + 2 ^ e.log2))

theorem not_maps_of_keepsEntry {n va : Nat} {e : TlbEntry} (h : keepsEntry n va e = true) (hn : e.ctx = n) :
    ¬(e.base ≤ va ∧ va < e.base + 2 ^ e.log2) := by
  rintro ⟨hlo, hhi⟩
  simp [keepsEntry, hn, hlo, hhi] at h

variable {b : WbStall}

/-- The core whose write held back translates again. -/
def Core.retries (k : Core) (n : Nat) (b : WbStall) : Core :=
  { k with wb := some { b with waiting := false }, tlb := k.tlb.filter (keepsEntry n b.va.toNat) }

/-- The state in which the write that core c holds back translates again. -/
def State.retries (s : State) (c : CoreId) (n : Nat) (b : WbStall) : State :=
  (s.setCore c ((s.getCore c).retries n b)).mapCluster (clusterOf c) fun q =>
    { q with tlb := q.tlb.filter (keepsEntry n b.va.toNat) }

theorem wbRetry_translates (hb : (s.getCore c).wb = some b) (hwait : b.waiting = true) {n : Nat}
    (hn : (s.getCore c).context = some n) : exec (.wbRetry c) s = .next (s.retries c n b) := by
  show execWbRetry c s = _
  unfold execWbRetry
  dsimp only
  split
  next b' n' hb' hn' =>
    cases hb.symm.trans hb'
    cases hn.symm.trans hn'
    exact if_pos hwait
  next hnone => exact absurd hn (hnone b n hb)

theorem retries_mem (n : Nat) : (s.retries c n b).mem = s.mem := setCore_mem ..

theorem retries_getCore (n : Nat) : (s.retries c n b).getCore c = (s.getCore c).retries n b := getCore_setCore_same ..

/-- The core whose write held back meets its time limit. -/
def Core.givesUp (k : Core) (b : WbStall) : Core :=
  { k with wb := some { b with waiting := false }, walkFaults := tset b.va.toNat 0x209#10 k.walkFaults }

theorem wbTimeout_givesUp (hb : (s.getCore c).wb = some b) (hwait : b.waiting = true) (hdue : b.since + 1000000 ≤ s.time) :
    exec (.wbTimeout c) s = .next (s.setCore c ((s.getCore c).givesUp b)) := by
  show execWbTimeout c s = _
  unfold execWbTimeout
  dsimp only
  rw [hb]
  exact if_pos ⟨hwait, hdue⟩

end WriteBlock

/-! ### Peers (R260) -/

section Peers
variable {s : State} {p a n : Nat}

theorem peerMay_of_enabled (hp : p < 64) (hself : p ≠ s.fabid.toNat) (hpeer : s.peers.getLsbD p = true)
    (hn : n ∈ [1, 2, 4, 8]) (hal : a % n = 0) (hin : a + n ≤ 0x6000000000) (hstack : s.stmap.getLsbD (a / 0xC00000000) = true) :
    s.peerMay p a n = true := by
  have hpos : 0 < n := by
    rcases List.mem_cons.mp hn with rfl | hn
    · decide
    · fin_cases hn <;> decide
  have hpop : s.populated a = true := (if_pos (by omega)).trans hstack
  have hsize : [1, 2, 4, 8].contains n = true := List.contains_iff_mem.mpr hn
  simp only [State.peerMay, hp, hself, hpeer, hin, hpop, hsize, hal, ne_eq, not_false_eq_true, decide_true, Bool.and_self]

/-- What a peer asks of the home slice of an address. -/
def peerReq (a n : Nat) (kind : ReqKind) (data cmp : Word) : Req :=
  { src := 0, ctx := 64, place := .hbm, addr := a, size := n, kind := kind, data := data, cmp := cmp }

theorem peerRequest_load (h : s.peerMay p a n = true) (data cmp : Word) :
    exec (.peerRequest p a n 0 data cmp) s = .next { s with hostOut := s.hbmBytes a n } := by
  show execPeerRequest p a n 0 data cmp s = _
  unfold execPeerRequest
  rw [if_pos ⟨h, by decide, nofun⟩]
  rfl

theorem peerRequest_store (h : s.peerMay p a n = true) (data cmp : Word) :
    exec (.peerRequest p a n 1 data cmp) s =
      .next { s.performWrite (peerReq a n .store data cmp) with hostOut := s.hostOut } := by
  show execPeerRequest p a n 1 data cmp s = _
  unfold execPeerRequest
  rw [if_pos ⟨h, by decide, nofun⟩]
  rfl

theorem performWrite_peerStore (data cmp : Word) :
    (s.performWrite (peerReq a n .store data cmp)).mem = memWrite s.mem a data.toNat n := writeAt_mem ..

end Peers

/-! ### The host's accesses (R261, R445, R446) -/

section HostAccess
variable {s : State} {fn off : Nat}

theorem bar4_inside {base len n : Nat} (hg : tfind fn s.grants = some (base, len)) (hn : off + n ≤ len) :
    s.bar4 fn off n = some (base + off) := by
  unfold State.bar4
  rw [hg]
  exact if_pos hn

theorem bar4_none (hg : tfind fn s.grants = none) (n : Nat) : s.bar4 fn off n = none := by
  unfold State.bar4
  rw [hg]

theorem hostPostedWrite_inside {data : List Byte} {a : Nat} (hp : s.postedNone fn = true)
    (ha : s.bar4 fn off data.length = some a) :
    exec (.hostPostedWrite fn off data) s = .next (s.writeAt 64 a data.length (bytesNat data)) := by
  show execHostPostedWrite fn off data s = _
  unfold execHostPostedWrite
  rw [ha]
  exact if_pos hp

theorem hostPostedWrite_outside {data : List Byte} (ha : s.bar4 fn off data.length = none) :
    exec (.hostPostedWrite fn off data) s = .next s := by
  show execHostPostedWrite fn off data s = _
  unfold execHostPostedWrite
  rw [ha]

theorem hostRead_reads (hp : s.postedNone fn = true) (hq : s.hostq = []) (n : Nat) :
    exec (.hostRead fn off n) s =
      match s.bar4 fn off n with
      | some a => .next { s with hostOut := s.hbmBytes a n }
      | none => .next { s with hostOut := List.replicate n 0xFF#8 } := by
  show execHostRead fn off n s = _
  unfold execHostRead
  rw [hp, hq]
  rfl

theorem hostRead_waits (hq : s.hostq ≠ []) (n : Nat) :
    exec (.hostRead fn off n) s = .refused (.notEnabled "HOST_READ") := by
  show execHostRead fn off n s = _
  unfold execHostRead
  rw [if_pos (by simp [hq])]

/-- An AtomicOp inside the grant writes its new value and completes with the old one. -/
theorem hostAtomicop_inside {op n a : Nat} (hp : s.postedNone fn = true) (hop : op < 3) (hn : n = 4 ∨ n = 8) (hal : off % n = 0)
    (ha : s.bar4 fn off n = some a) (x y : Word) :
    ∃ t, exec (.hostAtomicop fn off op n x y) s = .next t ∧ t.hostOut = natBytes (memRead s.mem a n) n ∧
      t.mem = memWrite s.mem a
        (amoNew (if op = 2 then 9 else op) n (memRead s.mem a n) (x.toNat % 2 ^ (8 * n)) (y.toNat % 2 ^ (8 * n))) n := by
  refine ⟨{ s.writeAt 64 a n (amoNew (if op = 2 then 9 else op) n (memRead s.mem a n) (x.toNat % 2 ^ (8 * n))
    (y.toNat % 2 ^ (8 * n))) with hostOut := natBytes (memRead s.mem a n) n }, ?_, rfl, writeAt_mem s 64 a n _⟩
  show execHostAtomicop fn off op n x y s = _
  unfold execHostAtomicop
  rw [if_pos ⟨hop, hn, hal, hp⟩, ha]

end HostAccess

/-! ### Bytes that no save record or log covers, and replicas (R223) -/

section Bytes
variable {s : State}

theorem hbmByte_outside {a : Nat} (h : ∀ r ∈ s.reserved, a < r.1 ∨ r.1 + r.2.length ≤ a) : s.hbmByte a = memByte s.mem a := by
  have hnone : (s.reserved.findSome? fun r => if r.1 ≤ a then r.2[a - r.1]? else none) = none := by
    refine List.findSome?_eq_none_iff.mpr fun r hr => ?_
    rcases h r hr with hlo | hhi
    · exact if_neg (by omega)
    · split
      · exact List.getElem?_eq_none (by omega)
      · rfl
  rw [State.hbmByte, hnone, Option.getD_none]

theorem replicaEviction_drops {cl line : Nat} (h : tfind line (s.cluster cl).replicas ≠ none) :
    ∃ t, exec (.replicaEviction cl line) s = .next t ∧ t.mem = s.mem ∧ tfind line (t.cluster cl).replicas = none := by
  refine ⟨s.mapCluster cl fun k => { k with replicas := terase line k.replicas }, ?_, rfl, ?_⟩
  · exact if_pos (Option.isSome_iff_ne_none.mpr h)
  · have hk : (s.mapCluster cl fun k => { k with replicas := terase line k.replicas }).cluster cl =
        { s.cluster cl with replicas := terase line (s.cluster cl).replicas } := tget_tset_same ..
    rw [hk]
    exact tfind_terase_same ..

end Bytes

end Sys2Proof.Machine

namespace Sys2Proof.Proofs

open Sys2Proof Sys2Proof.Machine

/-- Settles O45: what each walk, invalidation and access does, from the rule of its event. -/
theorem translationsAndHost : Obligations.TranslationsAndHost := by
  unfold Obligations.TranslationsAndHost
  intro s
  refine ⟨fun c w x hw hx hc hpoison hother => ⟨fun e he => pageWalkComplete_fault hw hx hc hpoison hother he,
    fun l p a q hl hvia => ?_⟩, fun d hd => ⟨fun hacked hleft => ?_, fun hacked => ?_⟩, fun c b hb hwait => ⟨fun n hn => ?_,
    fun hdue => ?_⟩, fun p a n data cmp hp hself hpeer hn hal hin hstack => ?_, fun fn off data n hp => ⟨fun base len hg => ⟨
      fun hlen => ?_, fun hlen => ⟨fun hq => ?_, fun hq => hostRead_waits hq n⟩, fun hn hlen hal x y => ?_⟩, fun hg => ⟨?_,
      fun hq => ?_⟩⟩, fun a h => hbmByte_outside h, fun cl line h => replicaEviction_drops h⟩
  · obtain ⟨t, ht, hwalk, hentry⟩ := pageWalkComplete_leaf hw hx hc hpoison hother hl hvia
    obtain ⟨hlo, hhi⟩ := walkEntry_maps x w l
    exact ⟨t, walkEntry x w l, ht, hwalk, hentry, rfl, hlo, hhi, rfl⟩
  · refine ⟨(s.shot d).withShootdowns [{ d with acked := true }], tlbInvalidationRequest_acts hd hacked hleft, ?_,
      withShootdowns_shootdowns .., fun e he => ?_, fun j hj e he => ?_⟩
    · rw [withShootdowns_mem, shot_mem]
    · rw [withShootdowns_cluster, shot_cluster] at he
      exact hits_of_mem_filter he
    · rw [withShootdowns_getCore, shot_getCore hj] at he
      exact hits_of_mem_filter he
  · refine ⟨s.acknowledged d, tlbInvalidationAck_returns hd hacked, acknowledged_shootdowns, acknowledged_mem, ?_⟩
    rw [acknowledged_getCore]
    rfl
  · refine ⟨s.retries c n b, wbRetry_translates hb hwait hn, retries_mem n, ?_, fun e he hctx => ?_⟩
    · rw [retries_getCore]
      rfl
    rw [retries_getCore] at he
    exact not_maps_of_keepsEntry (List.mem_filter.mp he).2 hctx
  · refine ⟨_, wbTimeout_givesUp hb hwait hdue, setCore_mem .., ?_⟩
    rw [getCore_setCore_same]
    exact tfind_tset_same ..
  · have hmay := peerMay_of_enabled hp hself hpeer hn hal hin hstack
    exact ⟨⟨_, peerRequest_load hmay data cmp, rfl, rfl⟩, _, peerRequest_store hmay data cmp, performWrite_peerStore data cmp⟩
  · exact ⟨_, hostPostedWrite_inside hp (bar4_inside hg hlen), writeAt_mem ..⟩
  · rw [hostRead_reads hp hq, bar4_inside hg hlen]
  · have ha := bar4_inside hg hlen
    intro old
    exact ⟨hostAtomicop_inside (op := 0) hp (by decide) hn hal ha x y, hostAtomicop_inside (op := 1) hp (by decide) hn hal ha x y,
      hostAtomicop_inside (op := 2) hp (by decide) hn hal ha x y⟩
  · exact hostPostedWrite_outside (bar4_none hg _)
  · rw [hostRead_reads hp hq, bar4_none hg]

end Sys2Proof.Proofs
end

section
/-! SUPPORT. Start-up, code objects, firmware updates and the SPDM answers (R392 to R402, R449, R454, R455). -/

namespace Sys2Proof.Machine

open Sys2Proof

/-! ### Running a command -/

section Command
variable {s : State} {ops : List Word}

/-- A command of the physical function that lists no other operand is performed while the mailbox is ready. -/
theorem mailbox_ready (hr : Claims.Ready s) {n : Nat} (ho : Claims.only ops n) (code : Nat) (body : State → Out) :
    s.mailbox 0 code ops n body = body (s.receiving code ops) :=
  mailbox_performed (takesCommand_iff.mpr ⟨rfl, hr.booted, hr.idle⟩) (.inl hr.accepted) (strayOperand_none ho)

theorem onContext_found {x : Context} (hn : Claims.op ops 1 < 64) (hx : tfind (Claims.op ops 1) s.contexts = some x)
    (body : Nat → Context → Out) : s.onContext ops body = body (Claims.op ops 1) x := by
  refine (if_neg (Nat.not_le.mpr hn)).trans ?_
  show (match tfind (Claims.op ops 1) s.contexts with | none => _ | some x => body (Claims.op ops 1) x) = _
  rw [hx]

end Command

/-! ### Code objects (R399, R400) -/

section Images
variable {s : State} {n : Nat} {x : Context} {o : CodeObj} {p : Placement} {text : List Byte}

/-- The context with the launch image of an object. -/
def Context.withImage (y : Context) (o : CodeObj) (p : Placement) (handle : Nat) : Context :=
  { y with images := y.images ++ [launchImage o p handle], nextImage := handle + 1 }

/-- The state in which an object is loaded. -/
def State.imaged (s : State) (n : Nat) (x : Context) (o : CodeObj) (p : Placement) (text : List Byte) : State :=
  ((s.growFutures n (plResource p 7) x).writeImage o p text).mapCtx n fun y => y.withImage o p x.nextImage

/-- The answer to a load: the image's handle and its bases. -/
def loadResults (x : Context) (p : Placement) : List Word :=
  [BitVec.ofNat 64 x.nextImage, p.bases.getD 0 0#64, p.bases.getD 1 0#64, p.bases.getD 2 0#64]

theorem growFutures_context (hx : tfind n s.contexts = some x) (m : Nat) :
    ∃ y, tfind n (s.growFutures n m x).contexts = some y ∧ y.images = x.images ∧ y.desc = x.desc := by
  unfold State.growFutures
  split
  · exact ⟨x, hx, rfl, rfl⟩
  · rw [tfind_mapCtx_same, show (s.freshFutures _ _ _).contexts = s.contexts from rfl, hx]
    exact ⟨_, rfl, rfl, rfl⟩

theorem imaged_context (hx : tfind n s.contexts = some x) :
    ∃ y, tfind n (s.imaged n x o p text).contexts = some y ∧ y.images = x.images ++ [launchImage o p x.nextImage] ∧
      y.nextImage = x.nextImage + 1 ∧ y.desc = x.desc := by
  obtain ⟨y, hy, himages, hdesc⟩ := growFutures_context hx (plResource p 7)
  refine ⟨y.withImage o p x.nextImage, ?_, ?_, rfl, hdesc⟩
  · rw [State.imaged, tfind_mapCtx_same]
    exact congrArg (Option.map _) hy
  · rw [Context.withImage, himages]

end Images

/-- The object that OBJLOAD names passes every check of R399 but that of its signature. -/
structure Loads (s : State) (ops : List Word) (p : Placement) (x : Context) (k : AgencyKey) (text : List Byte) : Prop where
  context : Claims.op ops 1 < 64
  found : tfind (Claims.op ops 1) s.contexts = some x
  bus : Claims.op ops 2 + Claims.op ops 3 ≤ 2 ^ 51
  form : (Claims.object s (Claims.op ops 2) (Claims.op ops 3)).step1 = none
  agency : imgNat (Claims.object s (Claims.op ops 2) (Claims.op ops 3)).bytes 8 2 = x.desc.agency
  index : imgByte (Claims.object s (Claims.op ops 2) (Claims.op ops 3)).bytes 0x0A < 16
  key : tfind (16 * x.desc.agency + imgByte (Claims.object s (Claims.op ops 2) (Claims.op ops 3)).bytes 0x0A) s.keys = some k
  kept : k.revoked = false
  old : s.wmin ≤ imgNat (Claims.object s (Claims.op ops 2) (Claims.op ops 3)).bytes 4 2
  new : imgNat (Claims.object s (Claims.op ops 2) (Claims.op ops 3)).bytes 4 2 ≤ s.wmax
  features : s.missingFeature (imgNat (Claims.object s (Claims.op ops 2) (Claims.op ops 3)).bytes 0x10 32) = none
  images : (Claims.object s (Claims.op ops 2) (Claims.op ops 3)).step7 = none
  resources : plStep8 p = none
  groups : s.plStep9 x p = none
  placed : s.placed x p = true
  records : s.plStep10 (Claims.object s (Claims.op ops 2) (Claims.op ops 3)) p = .ok text
  bound : boundApart p p.channels = true
  phases : s.phasesFit x p = true
  parts : s.partsFree (Claims.op ops 1) (imageSpans (Claims.object s (Claims.op ops 2) (Claims.op ops 3)) p) = true
  room : x.images.length < 256

section Load
variable {s : State} {ops : List Word} {p : Placement} {x : Context} {k : AgencyKey} {text : List Byte}

/-- The state in which OBJLOAD has its operands, and the object that they name. -/
abbrev State.loading (s : State) (ops : List Word) : State := s.receiving 0x30 ops
abbrev loadObject (s : State) (ops : List Word) : CodeObj := Claims.object s (Claims.op ops 2) (Claims.op ops 3)

theorem makeImage_makes (h : Loads s ops p x k text) :
    (s.loading ops).makeImage (Claims.op ops 1) x (loadObject s ops) p =
      .next (((s.loading ops).imaged (Claims.op ops 1) x (loadObject s ops) p text).respond 0 (loadResults x p)) := by
  have hgroups : (s.loading ops).plStep9 x p = none := h.groups
  have hplaced : (s.loading ops).placed x p = true := h.placed
  have hrecords : (s.loading ops).plStep10 (loadObject s ops) p = .ok text := h.records
  have hphases : (s.loading ops).phasesFit x p = true := h.phases
  have hparts : (s.loading ops).partsFree (Claims.op ops 1) (imageSpans (loadObject s ops) p) = true := h.parts
  unfold State.makeImage
  rw [h.resources]
  dsimp only
  rw [hgroups]
  dsimp only
  rw [if_neg (by simp [hplaced]), hrecords]
  dsimp only
  rw [if_neg (Nat.not_le.mpr h.room), if_neg (by simp [h.bound, hphases, hparts])]
  rfl

/-- A load whose object passes the checks turns on the signature. -/
theorem objload_signature (hr : Claims.Ready s) (ho : Claims.only ops 3) (h : Loads s ops p x k text) :
    exec (.objload 0 ops p) s =
      if verifies k.key (loadObject s ops).digest (loadObject s ops).sig = true then
        .next (((s.loading ops).imaged (Claims.op ops 1) x (loadObject s ops) p text).respond 0 (loadResults x p))
      else .next ((s.loading ops).respond (0x0103 * 65536) [0#64]) := by
  have hbytes : (s.loading ops).hostBytes (opNat ops 2) (opNat ops 3) = (loadObject s ops).bytes := rfl
  have hfound : tfind (Claims.op ops 1) (s.loading ops).contexts = some x := h.found
  have hbus : busOk (opNat ops 2) (opNat ops 3) = true := decide_eq_true h.bus
  have hkey : (if imgByte (loadObject s ops).bytes 0x0A < 16 then
      tfind (keySlot x.desc.agency (imgByte (loadObject s ops).bytes 0x0A)) (s.loading ops).keys else none) = some k :=
    (if_pos h.index).trans h.key
  have hfeatures : (s.loading ops).missingFeature (imgNat (loadObject s ops).bytes 0x10 32) = none := h.features
  show execObjload 0 ops p s = _
  unfold execObjload
  rw [mailbox_ready hr ho]
  refine (onContext_found h.context hfound _).trans ?_
  dsimp only
  rw [if_neg (by simp [hbus]), hbytes, show CodeObj.step1 { bytes := (loadObject s ops).bytes } = none from h.form]
  dsimp only
  rw [if_neg (not_not.mpr h.agency), hkey]
  dsimp only
  rw [h.kept, if_neg Bool.false_ne_true]
  cases hv : verifies k.key (loadObject s ops).digest (loadObject s ops).sig with
  | true =>
    rw [if_pos rfl]
    refine (if_neg Bool.false_ne_true).trans ?_
    refine (if_neg (not_or.mpr ⟨Nat.not_lt.mpr h.old, Nat.not_lt.mpr h.new⟩)).trans ?_
    rw [hfeatures]
    dsimp only
    rw [show CodeObj.step7 { bytes := (loadObject s ops).bytes } = none from h.images]
    exact makeImage_makes h
  | false => exact if_pos rfl

end Load

/-! ### Firmware updates (R402) -/

section Updates
variable {s : State}

/-- The update that takes effect. -/
def State.updated (s : State) (u : Update) : State :=
  let t := (s.extendMr 3 (sha384 u.translator)).extendMr 4 (sha384 (storeBytes u.store u.dispatch))
  { t with
    microcode := u.store
    dispatch := u.dispatch
    translator := u.translator
    wmin := u.wmin
    wmax := u.wmin + 4
    build := u.build
    svn := u.svn
    bootst := wput t.bootst 0 32 u.svn
    update := none }

theorem applyUpdate_waits (h : s.update = none ∨ s.contexts ≠ []) : s.applyUpdate = s := by
  have hnone : (if s.contexts.isEmpty && wbit s.bootst 63 then s.update else none) = none := by
    rcases h with hu | hc
    · rw [hu, ite_self]
    · rw [show s.contexts.isEmpty = false by simpa using hc]
      rfl
  unfold State.applyUpdate
  rw [hnone]

theorem applyUpdate_due {u : Update} (hu : s.update = some u) (hc : s.contexts = []) (hb : s.bootst.getLsbD 63 = true) :
    s.applyUpdate = s.updated u := by
  have hsome : (if s.contexts.isEmpty && wbit s.bootst 63 then s.update else none) = some u := by
    rw [hc, wbit, hb, hu]
    rfl
  unfold State.applyUpdate
  rw [hsome]
  rfl

theorem updateTakesEffect_updates {u : Update} (hu : s.update = some u) (hc : s.contexts = [])
    (hb : s.bootst.getLsbD 63 = true) : exec .updateTakesEffect s = .next (s.updated u) := by
  rw [← applyUpdate_due hu hc hb]
  exact if_pos (by simp [hu, hc, wbit, hb])

/-- An update that takes effect leaves none that waits. -/
theorem updateTakesEffect_applies {t : State} (h : exec .updateTakesEffect s = .next t) :
    t = s.applyUpdate ∧ t.applyUpdate = t := by
  have h : execUpdateTakesEffect s = .next t := h
  unfold execUpdateTakesEffect at h
  split at h
  · next hdue =>
    obtain ⟨u, hu⟩ : ∃ u, s.update = some u := by
      simp only [Bool.and_eq_true] at hdue
      exact Option.isSome_iff_exists.mp hdue.1.1
    simp only [hu, Bool.and_eq_true, List.isEmpty_iff] at hdue
    cases h
    refine ⟨rfl, applyUpdate_waits (.inl ?_)⟩
    rw [applyUpdate_due hu hdue.1.2 hdue.2]
    rfl
  · cases h

variable {store : List Word32} {table : List Word} {translator : List Byte} {build wmin svn : Nat} {sigs : List (BitVec 768)}

/-- The four parts of an update, as they are signed. -/
def updateParts (store : List Word32) (table : List Word) (translator : List Byte) (build wmin svn : Nat) : List (List Byte) :=
  [storeBytes (tabular store) (tabular table), translator ++ natBytes build 2, natBytes wmin 1, natBytes svn 4]

/-- Every part of an update verifies. -/
def partsSigned (parts : List (List Byte)) (sigs : List (BitVec 768)) : Bool :=
  (List.range 4).all fun i => verifies Config.vendorKey (sha384 (parts.getD i [])) (sigs.getD i 0#768)

theorem partsSigned_iff : partsSigned (updateParts store table translator build wmin svn) sigs = true ↔
    Claims.signed store table translator build wmin svn sigs := by
  simp only [partsSigned, show List.range 4 = [0, 1, 2, 3] from rfl, List.all_cons, List.all_nil, Bool.and_true,
    Bool.and_eq_true]
  exact Iff.rfl

/-- The update that a signed one leaves to be taken. -/
def acceptedUpdate (store : List Word32) (table : List Word) (translator : List Byte) (build wmin svn : Nat) : Update :=
  { store := tabular store
    dispatch := tabular ((table.take 192).map (loadEntry store))
    translator := translator
    wmin := wmin
    svn := svn
    build := build }

theorem firmwareUpdate_eq : exec (.firmwareUpdate store table translator build wmin svn sigs) s =
    if !wbit s.applyUpdate.bootst 63 ∨
        !(decide (wmin ≤ 251) && decide (svn < 2 ^ 32) && decide (build < 2 ^ 16) &&
          partsSigned (updateParts store table translator build wmin svn) sigs) ∨
        svn < s.applyUpdate.svn ∨ wmin < s.applyUpdate.wmin then
      .next s.applyUpdate
    else .next { s.applyUpdate with update := some (acceptedUpdate store table translator build wmin svn) } := rfl

theorem firmwareUpdate_again {t : State} (h : exec .updateTakesEffect s = .next t) :
    exec (.firmwareUpdate store table translator build wmin svn sigs) s =
      exec (.firmwareUpdate store table translator build wmin svn sigs) t := by
  obtain ⟨ht, hagain⟩ := updateTakesEffect_applies h
  rw [firmwareUpdate_eq, firmwareUpdate_eq, hagain, ← ht]

theorem firmwareUpdate_refused (hwait : s.update = none ∨ s.contexts ≠ [])
    (h : s.bootst.getLsbD 63 = false ∨ ¬Claims.signed store table translator build wmin svn sigs ∨ svn < s.svn ∨ wmin < s.wmin) :
    exec (.firmwareUpdate store table translator build wmin svn sigs) s = .next s := by
  rw [firmwareUpdate_eq, applyUpdate_waits hwait]
  refine if_pos ?_
  rcases h with h | h | h
  · exact .inl (by rw [wbit, h]; rfl)
  · rw [← partsSigned_iff, Bool.not_eq_true] at h
    exact .inr (.inl (by rw [h, Bool.and_false]; rfl))
  · exact .inr (.inr h)

theorem firmwareUpdate_kept (hwait : s.update = none ∨ s.contexts ≠ []) (hb : s.bootst.getLsbD 63 = true)
    (hsigned : Claims.signed store table translator build wmin svn sigs) (hbuild : build < 2 ^ 16) (hlow : wmin ≤ 251)
    (hword : svn < 2 ^ 32) (hsvn : s.svn ≤ svn) (hwmin : s.wmin ≤ wmin) :
    exec (.firmwareUpdate store table translator build wmin svn sigs) s =
      .next { s with update := some (acceptedUpdate store table translator build wmin svn) } := by
  rw [firmwareUpdate_eq, applyUpdate_waits hwait, partsSigned_iff.mpr hsigned]
  refine if_neg ?_
  rw [wbit, hb, decide_eq_true hbuild, decide_eq_true hlow, decide_eq_true hword]
  rintro (h | h | h | h)
  · exact Bool.false_ne_true h
  · exact Bool.false_ne_true h
  · omega
  · omega

/-- An entry as the model loads it is the claim's: the mask keeps EN. -/
theorem loadEntry_eq (store : List Word32) (e : Word) : loadEntry store e = Claims.loaded store e := by
  have hen : (e &&& 0xBFFE01FF0000FFFF#64).getLsbD 63 = e.getLsbD 63 := by
    rw [BitVec.getLsbD_and, show (0xBFFE01FF0000FFFF#64 : Word).getLsbD 63 = true by decide, Bool.and_true]
  unfold loadEntry Claims.loaded
  dsimp only
  rw [wbit, hen]
  simp only [Bool.and_eq_true]

end Updates

/-! ### Reset (R454) -/

/-- A boot sets the measurement registers and BOOTST. -/
theorem bootFrom_frame (l : List (Nat × Nat)) (s : State) : ∃ m b, s.bootFrom l = { s with mr := m, bootst := b } := by
  induction l generalizing s with
  | nil => exact ⟨_, _, rfl⟩
  | cons p l ih =>
    unfold State.bootFrom
    dsimp only
    split
    · obtain ⟨m, b, h⟩ := ih (s.extendMr p.1 (s.stageMeasure p))
      exact ⟨m, b, h⟩
    · exact ⟨_, _, rfl⟩

theorem powerOn_memByte (s : State) (a : Nat) :
    memByte s.powerOn.mem a = if 0x6000000000 ≤ a ∧ a < 2 ^ 52 then memByte s.mem a else 0#8 := by
  refine (memByte_filter_keys (fun a => decide (0x6000000000 ≤ a) && decide (a < 2 ^ 52)) s.mem a).trans ?_
  simp only [Bool.and_eq_true, decide_eq_true_eq]

/-! ### SPDM (R395) -/

section Spdm
variable {s : State} {req : List Byte}

/-- The head of an answer: the version, its code and the fields of the SPDM specification. -/
def answerHead (code : Nat) (req : List Byte) : List Byte := natBytes 0x13 1 ++ natBytes code 1 ++ Config.spdmFields code req

theorem natBytes_one (v : Nat) : natBytes v 1 = [BitVec.ofNat 8 v] := by
  show [BitVec.ofNat 8 (v / 256 ^ 0)] = _
  rw [Nat.pow_zero, Nat.div_one]

theorem answerHead_take (code : Nat) (req : List Byte) : (answerHead code req).take 2 = [0x13#8, BitVec.ofNat 8 code] := by
  rw [answerHead, natBytes_one, natBytes_one]
  rfl

/-- The state with another count of the nonces drawn. -/
def State.drawn (s : State) (f : Nat) : State := { s with fresh := f }

theorem answers_booted (h : s.bootst.getLsbD 63 = true) (b : List Byte) : s.answers_ b = .next { s with hostOut := b } := by
  unfold State.answers_
  rw [wbit, h]
  rfl

theorem answers_unbooted (h : s.bootst.getLsbD 63 = false) (b : List Byte) : s.answers_ b = .next { s with hostOut := [] } := by
  unfold State.answers_
  rw [wbit, h]
  rfl

/-- Every request of the list has an answer with its code, which a nonce may have been drawn for. -/
theorem exec_spdm {i : Instr} {code : Nat} (h : Claims.spdm i = some code) (s : State) :
    ∃ f req content, exec i s = (s.drawn f).answers_ (answerHead code req ++ content) := by
  unfold Claims.spdm at h
  split at h
  case _ req => cases h; exact ⟨s.fresh, req, _, rfl⟩
  case _ req => cases h; exact ⟨s.fresh, req, _, rfl⟩
  case _ req => cases h; exact ⟨s.fresh, req, _, rfl⟩
  case _ req => cases h; exact ⟨s.fresh, req, _, rfl⟩
  case _ req =>
    cases h
    by_cases hslot : imgByte req 2 % 16 = 0
    · rw [if_pos hslot]
      exact ⟨s.fresh + 1, req, _, if_pos hslot⟩
    · rw [if_neg hslot]
      exact ⟨s.fresh, req, _, if_neg hslot⟩
  case _ => cases h

theorem getCertificate_chain (hb : s.bootst.getLsbD 63 = true) (hslot : imgByte req 2 % 16 = 0) :
    exec (.getCertificate req) s = .next { s with hostOut := answerHead 0x02 req ++ Config.certificates } :=
  (if_pos hslot).trans (answers_booted hb _)

theorem getCertificate_empty (hb : s.bootst.getLsbD 63 = true) (hslot : imgByte req 2 % 16 ≠ 0) :
    exec (.getCertificate req) s = .next { s with hostOut := answerHead 0x7F req ++ [] } :=
  (if_neg hslot).trans (answers_booted hb _)

/-- The block of measurement register i. -/
theorem blocks_filter {i : Nat} (hi : i < 8) :
    (s.blocks.filter fun b => decide (i + 1 = 0xFF) || decide (b.1 = i + 1)) = [(i + 1, digestBytes (tget i s.mr 0#384))] := by
  have hfirst : (((List.range 8).map fun j => (j + 1, digestBytes (tget j s.mr 0#384))).filter
      fun b => decide (i + 1 = 0xFF) || decide (b.1 = i + 1)) = [(i + 1, digestBytes (tget i s.mr 0#384))] := by
    interval_cases i <;> rfl
  have hrest : ([(0x10, natBytes s.translatorWord.toNat 4),
      (0x11, digestBytes (sha384 (storeBytes s.microcode s.dispatch)))].filter
      fun b => decide (i + 1 = 0xFF) || decide (b.1 = i + 1)) = [] := by
    rw [List.filter_eq_nil_iff]
    intro b hb
    simp only [List.mem_cons, List.not_mem_nil, or_false] at hb
    rcases hb with rfl | rfl <;> simp <;> omega
  have hlast : ((match s.boundAgency with | some a => [(0x12, s.snapshot a)] | none => []).filter
      fun b : Nat × List Byte => decide (i + 1 = 0xFF) || decide (b.1 = i + 1)) = [] := by
    split
    · rw [List.filter_eq_nil_iff]
      intro b hb
      rw [List.mem_singleton.mp hb]
      simp
      omega
    · rfl
  unfold State.blocks
  rw [List.filter_append, List.filter_append, hfirst, hrest]
  exact congrArg (_ :: ·) hlast

theorem getMeasurements_register (hb : s.bootst.getLsbD 63 = true) {i : Nat} (hi : i < 8) (hreq : imgByte req 3 = i + 1)
    (hsig : (imgByte req 2).testBit 0 = false) :
    exec (.getMeasurements req) s =
      .next
        { s with
          fresh := s.fresh + 2
          hostOut :=
            answerHead 0x60 req ++ [1#8, BitVec.ofNat 8 (i + 1)] ++ (natBytes (tget i s.mr 0#384).toNat 48).reverse } := by
  show execGetMeasurements req s = _
  unfold execGetMeasurements
  dsimp only
  rw [hreq, blocks_filter hi, hsig, if_neg Bool.false_ne_true, if_neg (by simp)]
  refine (answers_booted (s := s.drawn (s.fresh + 2)) hb _).trans ?_
  refine congrArg (fun b => Host.Outcome.next { s with fresh := s.fresh + 2, hostOut := b }) ?_
  simp only [List.flatMap_cons, List.flatMap_nil, List.append_nil, List.length_singleton, natBytes_one]
  show answerHead 0x60 req ++ ([1#8] ++ ([BitVec.ofNat 8 (i + 1)] ++ digestBytes (tget i s.mr 0#384))) = _
  rw [List.append_assoc (answerHead 0x60 req)]
  rfl

theorem spdmOtherRequest_error (hb : s.bootst.getLsbD 63 = true)
    (h : ∀ c ∈ [0x84, 0xE1, 0xE3, 0x81, 0x82, 0x83, 0xE0], imgByte req 1 ≠ c) :
    exec (.spdmOtherRequest req) s = .next { s with hostOut := [0x13#8, 0x7F#8, 0x07#8, 0x00#8] } := by
  have hno : ¬[0x84, 0xE1, 0xE3, 0x81, 0x82, 0x83, 0xE0].contains (imgByte req 1) = true := fun hc =>
    h _ (List.contains_iff_mem.mp hc) rfl
  exact (if_neg hno).trans (answers_booted hb _)

end Spdm

end Sys2Proof.Machine

namespace Sys2Proof.Proofs

open Sys2Proof Sys2Proof.Machine

/-- Settles O50: a load turns on its signature, an update on its parts; a boot sets no more than MR and BOOTST. -/
theorem trustAndFirmware : Obligations.TrustAndFirmware := by
  unfold Obligations.TrustAndFirmware
  intro s
  refine ⟨?load, fun store table translator build wmin svn sigs => ?update, ?effect, ?reset, ?spdm, fun req hb => ?requests⟩
  case load =>
    intro ops p x k text hr ho op o h1 hx hbus hform hag hidx hkey hrev hmin hmax hfeat himg h8 h9 hpl h10 hbd hph hpt hroom
    have h : Loads s ops p x k text :=
      ⟨h1, hx, hbus, hform, hag, hidx, hkey, hrev, hmin, hmax, hfeat, himg, h8, h9, hpl, h10, hbd, hph, hpt, hroom⟩
    have hexec := objload_signature hr ho h
    cases hv : verifies k.key (loadObject s ops).digest (loadObject s ops).sig with
    | true =>
      rw [if_pos hv] at hexec
      exact ⟨_, hexec, fun _ => ⟨replied_respond _ _ _, imaged_context (s := s.loading ops) hx⟩,
        nofun⟩
    | false =>
      rw [if_neg (by rw [hv]; exact Bool.false_ne_true)] at hexec
      exact ⟨_, hexec, nofun, fun _ => ⟨replied_respond _ _ _, rfl, rfl⟩⟩
  case update =>
    refine ⟨fun hb hwait hbuild hlow hword hsvn hwmin => ?_, fun hwait h => firmwareUpdate_refused hwait ?_,
      fun t ht => firmwareUpdate_again ht⟩
    · by_cases hsigned : Claims.signed store table translator build wmin svn sigs
      · refine ⟨_, firmwareUpdate_kept hwait hb hsigned hbuild hlow hword hsvn hwmin, fun _ => ⟨rfl, _, rfl, rfl, ?_, rfl, rfl,
          rfl, rfl⟩, fun hno => absurd hsigned hno⟩
        rw [← funext (loadEntry_eq store)]
        rfl
      · exact ⟨s, firmwareUpdate_refused hwait (.inr (.inl hsigned)), fun h => absurd h hsigned, fun _ => rfl⟩
    · exact h.imp_right .inr
  case effect =>
    intro u hu hc hb
    exact ⟨s.updated u, updateTakesEffect_updates hu hc hb, rfl, rfl, rfl, rfl, rfl, rfl, rfl, rfl⟩
  case reset =>
    obtain ⟨m, b, h⟩ := bootFrom_frame s.powerOn.bootStages s.powerOn
    exact ⟨{ s.powerOn with mr := m, bootst := b }, congrArg Host.Outcome.next h, rfl, rfl, rfl, rfl, rfl, rfl, rfl, rfl, rfl,
      rfl, rfl, rfl, rfl, fun _ a => powerOn_memByte s a⟩
  case spdm =>
    intro i code hi
    obtain ⟨f, req, content, hexec⟩ := exec_spdm hi s
    refine ⟨fun hb => ⟨_, hexec.trans (answers_booted (s := s.drawn f) hb _), ?_, rfl, rfl⟩,
      fun hb => ⟨_, hexec.trans (answers_unbooted (s := s.drawn f) hb _), rfl⟩⟩
    exact answerHead_take code req
  case requests =>
    refine ⟨fun hslot => ⟨_, getCertificate_chain hb hslot, answerHead_take ..⟩, fun hslot => ⟨answerHead 0x7F req ++ [],
      getCertificate_empty hb hslot, ?_⟩,
      fun i hi hreq hsig => ⟨_, _, getMeasurements_register hb hi hreq hsig, answerHead_take .., rfl⟩,
      fun h => spdmOtherRequest_error hb h⟩
    rw [List.append_nil]
    exact answerHead_take ..

end Sys2Proof.Proofs
end

section
/-! SUPPORT. What the management commands do when their operands are good, and the change of a descriptor (R294, R305, R375,
R388, R390, R398 to R401, R430 to R440). -/

namespace Sys2Proof.Machine

open Sys2Proof

/-! ### Cores and contexts -/

section Cores
variable {s : State}

/-- Setting a core changes nothing that does not look at cores. -/
theorem setCore_keeps {β : Type} (p : State → β)
    (hp : ∀ (t : State) (k : Core) (o : Tab Core), p { t with core := k, others := o } = p t)
    (s : State) (c : CoreId) (k : Core) : p (s.setCore c k) = p s :=
  mapCore_keeps p hp (fun _ => k) s c

theorem getCore_setCores_notMem {α : Type} {f : α → CoreId} {g : α → Core} {c : CoreId} :
    ∀ {l : List α}, (∀ a ∈ l, f a ≠ c) → ∀ {s : State}, (l.foldl (fun t a => t.setCore (f a) (g a)) s).getCore c = s.getCore c
  | [], _, _ => rfl
  | a :: l, h, s => by
    have hl : ∀ b ∈ l, f b ≠ c := fun b hb => h b (List.mem_cons_of_mem a hb)
    have ha : f a ≠ c := h a List.mem_cons_self
    rw [List.foldl_cons, getCore_setCores_notMem hl, getCore_setCore_of_ne ha.symm]

/-- A core that a list of cores sets holds what one of its entries says. -/
theorem getCore_setCores {α : Type} {f : α → CoreId} {g : α → Core} {c : CoreId} {l : List α} (h : ∃ a ∈ l, f a = c)
    (s : State) : ∃ a ∈ l, f a = c ∧ (l.foldl (fun t a => t.setCore (f a) (g a)) s).getCore c = g a := by
  induction l generalizing s with
  | nil => exact absurd h (by simp)
  | cons b l ih =>
    by_cases hl : ∃ a ∈ l, f a = c
    · obtain ⟨a, ha, hac, hcore⟩ := ih hl (s.setCore (f b) (g b))
      exact ⟨a, List.mem_cons_of_mem b ha, hac, hcore⟩
    · obtain ⟨a, ha, rfl⟩ := h
      rcases List.mem_cons.mp ha with rfl | ha
      · refine ⟨a, List.mem_cons_self, rfl, ?_⟩
        rw [List.foldl_cons, getCore_setCores_notMem fun b hb hba => hl ⟨b, hb, hba⟩]
        exact getCore_setCore_same ..
      · exact absurd ⟨a, ha, rfl⟩ hl

end Cores

/-! ### CTXLOAD and a changed descriptor (R375) -/

section Load
variable {s : State} {d : Desc}

/-- The fresh core of a context. -/
def freshCore (d : Desc) : Core := { context := some d.ctx, trapvec := d.tvec &&& ~~~3#64 }

theorem populate_contexts (s : State) (d : Desc) : (s.populate d).contexts = s.contexts :=
  (foldl_proj State.contexts (fun t c => setCore_keeps State.contexts (fun _ _ _ => rfl) t c (freshCore d)) _ _).trans
    (foldl_proj State.contexts (f := fun t n => t.setCluster n { context := some d.ctx }) (fun _ _ => rfl) _ _)

theorem populate_getCore {n i : Nat} (hn : n < 160) (hpart : s.inPart d n = true) (hi : i < 16) :
    (s.populate d).getCore (16 * n + i) = freshCore d := by
  have hmem : 16 * n + i ∈ ((List.range 160).filter (s.inPart d)).flatMap fun n => (List.range 16).map fun i => 16 * n + i :=
    List.mem_flatMap.mpr ⟨n, List.mem_filter.mpr ⟨List.mem_range.mpr hn, hpart⟩,
      List.mem_map.mpr ⟨i, List.mem_range.mpr hi, rfl⟩⟩
  obtain ⟨_, _, _, h⟩ := getCore_setCores (f := fun c : CoreId => c) (g := fun _ => freshCore d) ⟨_, hmem, rfl⟩
    (((List.range 160).filter (s.inPart d)).foldl (fun t n => t.setCluster n { context := some d.ctx }) s)
  exact h

/-- A context as it is loaded. -/
def State.newContext (s : State) (d : Desc) : Context :=
  { desc := d, freeFutures := List.range d.futn, futures := d.futn, rewritten := s.time }

theorem loadContext_context (s : State) (d : Desc) : tfind d.ctx (s.loadContext d).contexts = some (s.newContext d) := by
  unfold State.loadContext
  dsimp only
  rw [populate_contexts]
  exact tfind_tset_same ..

theorem loadContext_getCore {n i : Nat} (hn : n < 160) (hpart : s.inPart d n = true) (hi : i < 16) :
    (s.loadContext d).getCore (16 * n + i) = freshCore d :=
  populate_getCore (d := d) hn hpart hi

/-- An update that takes effect changes the firmware and its measurements. -/
theorem applyUpdate_frame (s : State) : ∃ mr st d tr lo hi b v bt u,
    s.applyUpdate =
      { s with
        mr := mr, microcode := st, dispatch := d, translator := tr, wmin := lo, wmax := hi, build := b, svn := v, bootst := bt,
        update := u } := by
  unfold State.applyUpdate
  split
  · exact ⟨s.mr, s.microcode, s.dispatch, s.translator, s.wmin, s.wmax, s.build, s.svn, s.bootst, s.update, rfl⟩
  · exact ⟨_, _, _, _, _, _, _, _, _, _, rfl⟩

variable {ops : List Word}

theorem ctxload_loads (hr : Claims.Ready s) (ho : Claims.only ops 1) (hbus : Claims.op ops 1 + 128 ≤ 2 ^ 51)
    (hd : descOf (Claims.hostBytes s (Claims.op ops 1) 128) = d)
    (hbad : s.badDescriptor (Claims.hostBytes s (Claims.op ops 1) 128) = false) (hfree : tfind d.ctx s.contexts = none)
    (hcluster : s.badCluster d.ctx d.part = none) :
    exec (.ctxload 0 ops) s = .next (((s.receiving 0x10 ops).applyUpdate.loadContext d).respond 0 []) := by
  have hop : busOk (opNat ops 1) 128 = true := decide_eq_true hbus
  show execCtxload 0 ops s = _
  unfold execCtxload
  rw [mailbox_ready hr ho]
  obtain ⟨mr, st, dt, tr, lo, hi, b, v, bt, u, hframe⟩ := applyUpdate_frame (s.receiving 0x10 ops)
  have hbytes : (s.receiving 0x10 ops).applyUpdate.hostBytes (opNat ops 1) 128 = Claims.hostBytes s (Claims.op ops 1) 128 := by
    rw [hframe]
    rfl
  have hbad' : (s.receiving 0x10 ops).applyUpdate.badDescriptor (Claims.hostBytes s (Claims.op ops 1) 128) = false := by
    rw [hframe]
    exact hbad
  have hfree' : tfind d.ctx (s.receiving 0x10 ops).applyUpdate.contexts = none := by
    rw [hframe]
    exact hfree
  have hcluster' : (s.receiving 0x10 ops).applyUpdate.badCluster d.ctx d.part = none := by
    rw [hframe]
    exact hcluster
  dsimp only
  rw [if_neg (by simp [hop]), hbytes, hbad', if_neg Bool.false_ne_true, hd, hfree', if_neg (by simp), hcluster']

/-! A changed descriptor. -/

theorem leaveClusters_contexts (n : Nat) (l : List Nat) : (s.leaveClusters n l).contexts = s.contexts := rfl

theorem repartition_contexts (n : Nat) (old d : Desc) : (s.repartition n old d).contexts = s.contexts := by
  unfold State.repartition
  dsimp only
  split
  · rfl
  · exact populate_contexts ..

/-- A descriptor with the same partition moves no cluster. -/
theorem repartition_same (n : Nat) {old d : Desc} (h : d.part = old.part) : s.repartition n old d = s := by
  have hnew : d.part &&& ~~~old.part = 0#160 := by simp [h]
  have hgone : ((List.range 160).filter fun c => s.inPart old c && !d.part.getLsbD c) = [] := by
    rw [List.filter_eq_nil_iff, h]
    intro c _
    cases hb : old.part.getLsbD c <;> simp [State.inPart, hb]
  unfold State.repartition
  dsimp only
  rw [hnew, hgone]
  rfl

/-- The state in which context n has another descriptor. -/
def State.redescribed (s : State) (n : Nat) (x : Context) (d : Desc) : State :=
  let t := s.mapCtx n fun y => { y with desc := d }
  let t := if x.state = .saved then t else t.repartition n x.desc d
  if d.root = x.desc.root then t else t.dropTranslations n

variable {n : Nat} {x : Context}

theorem redescribed_contexts (d : Desc) :
    (s.redescribed n x d).contexts = (s.mapCtx n fun y => { y with desc := d }).contexts := by
  have hmove (t : State) : (if x.state = .saved then t else t.repartition n x.desc d).contexts = t.contexts := by
    split
    · rfl
    · exact repartition_contexts ..
  unfold State.redescribed
  dsimp only
  split
  · exact hmove _
  · exact hmove _

theorem redescribed_mem (h : d.part = x.desc.part) : (s.redescribed n x d).mem = s.mem := by
  have hmem : (s.mapCtx n fun y => { y with desc := d }).mem = s.mem := mapCtx_proj State.mem (fun _ _ => rfl) ..
  unfold State.redescribed
  dsimp only
  rw [repartition_same n h, ite_self]
  split
  · exact hmem
  · exact hmem

theorem contextDescriptorChange_changes {b : List Byte} (hx : tfind n s.contexts = some x) (hbad : s.badDescriptor b = false)
    (hn : (descOf b).ctx = n) (hcluster : s.badCluster n (descOf b).part = none) :
    exec (.contextDescriptorChange n b) s = .next (s.redescribed n x (descOf b)) := by
  show execContextDescriptorChange n b s = _
  unfold execContextDescriptorChange
  rw [hx]
  dsimp only
  rw [hbad, hcluster, if_neg (by simp [hn])]
  by_cases hroot : (descOf b).root = x.desc.root
  · rw [if_pos hroot, State.redescribed, if_pos hroot]
  · rw [if_neg hroot, State.redescribed, if_neg hroot]

end Load

/-! ### The end of a context, and its stop (R401, R430, R436, R437) -/

section Contexts
variable {s : State} {n : Nat}

theorem deviceCheckpoint_contexts (s : State) : s.deviceCheckpoint.contexts = s.contexts := by
  unfold State.deviceCheckpoint
  dsimp only
  split
  · split
    · exact foldl_proj State.contexts (f := State.streamHbm) (fun _ _ => rfl) _ _
    · rfl
  · rfl

theorem commandDone_contexts (codes : List Nat) (n status : Nat) (results : List Word) :
    (s.commandDone codes n status results).contexts = s.contexts := by
  unfold State.commandDone
  split
  · split <;> rfl
  · rfl

theorem endContext_gone (s : State) (n : Nat) : tfind n (s.endContext n).contexts = none := by
  unfold State.endContext
  dsimp only
  rw [deviceCheckpoint_contexts, commandDone_contexts]
  exact tfind_terase_same ..

theorem opNat_eq (ops : List Word) (n : Nat) : opNat ops n = Claims.op ops n := rfl

variable {ops : List Word} {x : Context} (hr : Claims.Ready s) (hn : Claims.op ops 1 < 64)
  (hx : tfind (Claims.op ops 1) s.contexts = some x)
include hr hn hx

/-- A command that names a resident context is performed on it. -/
theorem mailbox_onContext {m : Nat} (ho : Claims.only ops m) (code : Nat) (body : State → Nat → Context → Out) :
    s.mailbox 0 code ops m (fun s => s.onContext ops fun n x => body s n x) =
      body (s.receiving code ops) (Claims.op ops 1) x :=
  (mailbox_ready hr ho code _).trans (onContext_found (s := s.receiving code ops) hn hx _)

theorem ctxend_ends (ho : Claims.only ops 2)
    (h : Claims.op ops 2 = 1 ∨ Claims.op ops 2 = 0 ∧ ∀ p ∈ s.cards, p.2.ctx ≠ Claims.op ops 1) :
    ∃ t, exec (.ctxend 0 ops) s = .next t ∧ Claims.replied t 0 [] ∧ tfind (Claims.op ops 1) t.contexts = none := by
  have hbody : execCtxend 0 ops s = _ := mailbox_onContext hr hn hx ho 0x11 _
  rcases h with h | ⟨h, hcards⟩
  · refine ⟨((s.receiving 0x11 ops).terminate (Claims.op ops 1) 0 0).respond 0 [], hbody.trans ?_, replied_respond _ _ _,
      endContext_gone ..⟩
    have hop : opNat ops 2 = 1 := h
    rw [hop]
    rfl
  · refine ⟨((s.receiving 0x11 ops).leaveWrites (Claims.op ops 1)).respond 0 [], hbody.trans ?_, replied_respond _ _ _,
      endContext_gone ..⟩
    have hop : opNat ops 2 = 0 := h
    have hnone : (s.receiving 0x11 ops).holdsCard (Claims.op ops 1) = false :=
      List.any_eq_false.mpr fun p hp => by simpa using hcards p hp
    rw [hop, hnone]
    rfl

omit hr hn hx in
/-- A context that is told to stop. -/
theorem setStop_running {t : State} (ht : tfind n t.contexts = some x) (hrun : x.state = .running) (at_ : Nat) :
    tfind n (t.setStop n at_).contexts = some { x with state := .stopping at_ } := by
  rw [State.setStop, tfind_mapCtx_same, ht, Option.map_some, if_pos hrun]

theorem ctxstop_stops (ho : Claims.only ops 2) (hrun : x.state = .running) :
    ∃ t, exec (.ctxstop 0 ops) s = .next t ∧ t.command = some (0x12, Claims.op ops 1) ∧
      tfind (Claims.op ops 1) t.contexts =
        some { x with state := .stopping (if Claims.op ops 2 = 0 then s.time else Claims.op ops 2) } := by
  have hbody : execCtxstop 0 ops s = _ := mailbox_onContext hr hn hx ho 0x12 _
  exact ⟨_, hbody.trans (if_neg (by rw [hrun]; nofun)), rfl, setStop_running (t := s.receiving 0x12 ops) hx hrun _⟩

theorem ckpt_stops (ho : Claims.only ops 1) (hrun : x.state = .running) :
    ∃ t, exec (.ckpt 0 ops) s = .next t ∧ t.command = some (0x14, Claims.op ops 1) ∧
      tfind (Claims.op ops 1) t.contexts = some { x with state := .stopping s.time, ckpt := some x.nextInterval } := by
  have hbody : execCkpt 0 ops s = _ := mailbox_onContext hr hn hx ho 0x14 _
  refine ⟨(((s.receiving 0x14 ops).setStop (Claims.op ops 1) s.time).mapCtx (Claims.op ops 1) fun y =>
    { y with ckpt := some y.nextInterval }).runs 0x14 (Claims.op ops 1), hbody.trans (if_neg (not_not.mpr hrun)), rfl, ?_⟩
  show tfind _ (State.mapCtx _ _ _).contexts = _
  rw [tfind_mapCtx_same, setStop_running (t := s.receiving 0x14 ops) hx hrun]
  rfl

theorem wdset_sets (ho : Claims.only ops 2) (hlo : 1 ≤ Claims.op ops 2) (hhi : Claims.op ops 2 ≤ 1000) :
    ∃ t, exec (.wdset 0 ops) s = .next t ∧ Claims.replied t 0 [] ∧
      tfind (Claims.op ops 1) t.contexts = some { x with wdp := Claims.op ops 2, rewritten := s.time } := by
  have hbody : execWdset 0 ops s = _ := mailbox_onContext hr hn hx ho 0x60 _
  have hop : ¬(opNat ops 2 = 0 ∨ 1000 < opNat ops 2) := by
    show ¬(Claims.op ops 2 = 0 ∨ 1000 < Claims.op ops 2)
    omega
  refine ⟨((s.receiving 0x60 ops).mapCtx (Claims.op ops 1) fun y =>
    { y with wdp := opNat ops 2, rewritten := (s.receiving 0x60 ops).time }).respond 0 [], hbody.trans (if_neg hop),
    replied_respond _ _ _, ?_⟩
  show tfind _ (State.mapCtx _ _ _).contexts = _
  rw [tfind_mapCtx_same]
  exact congrArg (Option.map _) hx

theorem objunload_unloads (ho : Claims.only ops 3) (h3 : Claims.op ops 3 ≤ 1)
    (himage : ∃ i ∈ x.images, i.handle = Claims.op ops 2)
    (hcards : ∀ p ∈ s.cards, ¬(p.2.ctx = Claims.op ops 1 ∧ p.2.image = Claims.op ops 2)) :
    ∃ t, exec (.objunload 0 ops) s = .next t ∧ Claims.replied t 0 [] ∧
      tfind (Claims.op ops 1) t.contexts = some { x with images := x.images.filter fun i => i.handle ≠ Claims.op ops 2 } := by
  have hbody : execObjunload 0 ops s = _ := mailbox_onContext hr hn hx ho 0x31 _
  have hsome : (x.images.any fun i => decide (i.handle = opNat ops 2)) = true := by
    obtain ⟨i, hi, hh⟩ := himage
    exact List.any_eq_true.mpr ⟨i, hi, decide_eq_true hh⟩
  have hfree : (s.receiving 0x31 ops).referenced (Claims.op ops 1) (opNat ops 2) = false :=
    List.any_eq_false.mpr fun p hp => by
      rw [opNat_eq]
      simpa using fun hc hi => hcards p hp ⟨hc, hi⟩
  refine ⟨((s.receiving 0x31 ops).mapCtx (Claims.op ops 1) fun y =>
    { y with images := y.images.filter fun i => i.handle ≠ opNat ops 2 }).respond 0 [], hbody.trans ?_, replied_respond _ _ _, ?_⟩
  · dsimp only
    rw [if_neg (show ¬2 ≤ opNat ops 3 from Nat.not_le.mpr (Nat.lt_succ_of_le h3)), hsome, hfree]
    rfl
  · show tfind _ (State.mapCtx _ _ _).contexts = _
    rw [tfind_mapCtx_same]
    exact congrArg (Option.map _) hx

end Contexts

/-! ### Resumption and rollback (R435, R438) -/

section Resume
variable {s : State} {n : Nat} {r : Save}

theorem entryActions_idle {c : CoreId} (h : ∀ e, (s.getCore c).actionDue e = false) : s.entryActions c = s := by
  refine foldl_eq_self fun e _ => ?_
  unfold State.entryAction
  dsimp only
  rw [h e]
  rfl

/-- The clusters of a record are as it has them. -/
def State.restoreClusters (s : State) (r : Save) : State := r.clusters.foldl (fun t p => t.setCluster p.1 p.2) s

/-- So are its cores, as they are when it resumes. -/
def State.restoreCores (s : State) (r : Save) : State :=
  r.cores.foldl (fun t p => t.setCore p.1 (p.2.resumed ((s.restoreClusters r).time - r.restAt))) (s.restoreClusters r)

/-- The scratchpads and messages of a record. -/
def State.restoreRest (s : State) (r : Save) : State :=
  { s with
    mem := r.scratch.foldl (fun (m : List Host.Cell) (c : Host.Cell) => memSet c.1 c.2 m) s.mem
    poisoned := r.poison ++ s.poisoned
    flight := r.flight ++ s.flight
    answers := r.answers ++ s.answers
    rows := r.rows ++ s.rows }

/-- A context that resumes from a record. -/
def Context.resumes (x : Context) (r : Save) (now : Nat) : Context :=
  { x with
    desc := { x.desc with part := r.part }
    state := .running
    phase := none
    wdog := false
    ckpt := none
    rewritten := now }

/-- The state in which a context has its record again; completion actions that fell due are still to be issued. -/
def State.restored (s : State) (n : Nat) (r : Save) : State :=
  ((s.restoreCores r).restoreRest r).mapCtx n fun x => x.resumes r ((s.restoreCores r).restoreRest r).time

theorem setClusters_keeps {β : Type} (p : State → β) (hp : ∀ (t : State) (l : Tab Cluster), p { t with clusters := l } = p t)
    (l : List (Nat × Cluster)) (s : State) : p (l.foldl (fun t q => t.setCluster q.1 q.2) s) = p s :=
  foldl_proj p (f := fun (t : State) (q : Nat × Cluster) => t.setCluster q.1 q.2) (fun t _ => hp t _) l s

theorem restoreCores_keeps {β : Type} (p : State → β)
    (hp : ∀ (t : State) (k : Core) (o : Tab Core), p { t with core := k, others := o } = p t)
    (hc : ∀ (t : State) (l : Tab Cluster), p { t with clusters := l } = p t) (s : State) (r : Save) :
    p (s.restoreCores r) = p s :=
  (foldl_proj p (f := fun (t : State) (q : CoreId × Core) => t.setCore q.1 (q.2.resumed ((s.restoreClusters r).time - r.restAt)))
    (fun t q => setCore_keeps p hp t q.1 _) r.cores _).trans (setClusters_keeps p hc r.clusters s)

theorem restored_getCore (c : CoreId) : (s.restored n r).getCore c = (s.restoreCores r).getCore c :=
  mapCtx_proj (fun t => t.getCore c) (fun _ _ => rfl) ..

/-- A core of a record that resumes is as one of the record's entries has it. -/
theorem restored_core {c : CoreId} (h : ∃ p ∈ r.cores, p.1 = c) :
    ∃ p ∈ r.cores, p.1 = c ∧ ∃ gap, (s.restored n r).getCore c = p.2.resumed gap := by
  obtain ⟨p, hp, hpc, hcore⟩ := getCore_setCores (f := Prod.fst)
    (g := fun q : CoreId × Core => q.2.resumed ((s.restoreClusters r).time - r.restAt)) h (s.restoreClusters r)
  exact ⟨p, hp, hpc, _, (restored_getCore c).trans hcore⟩

theorem resumed_actionDue (k : Core) (gap e : Nat) : (k.resumed gap).actionDue e = k.actionDue e := rfl

/-- A record none of whose cores has an action due resumes as it was. -/
theorem resumeFrom_restores (h : ∀ p ∈ r.cores, ∀ e, p.2.actionDue e = false) : s.resumeFrom n r = s.restored n r := by
  show (r.cores.map fun p => p.1).foldl State.entryActions (s.restored n r) = _
  refine foldl_eq_self fun c hc => entryActions_idle fun e => ?_
  obtain ⟨q, hq, hqc⟩ := List.mem_map.mp hc
  obtain ⟨p, hp, _, gap, hcore⟩ := restored_core (s := s) (n := n) ⟨q, hq, hqc⟩
  rw [hcore, resumed_actionDue]
  exact h p hp e

theorem restored_state {x : Context} (hx : tfind n s.contexts = some x) :
    (tfind n (s.restored n r).contexts).map (fun y => y.state) = some .running := by
  have hkeep : ((s.restoreCores r).restoreRest r).contexts = s.contexts :=
    restoreCores_keeps State.contexts (fun _ _ _ => rfl) (fun _ _ => rfl) s r
  rw [State.restored, tfind_mapCtx_same, hkeep, hx]
  rfl

theorem restored_command : (s.restored n r).command = s.command :=
  (mapCtx_proj State.command (fun _ _ => rfl) ..).trans
    (restoreCores_keeps State.command (fun _ _ _ => rfl) (fun _ _ => rfl) s r)

variable {ops : List Word} {x : Context}

/-- The state in which CTXRESUME has taken the record of a context. -/
def State.resuming (s : State) (ops : List Word) : State :=
  { s.receiving 0x13 ops with saves := terase (2 * Claims.op ops 1) (s.receiving 0x13 ops).saves }

theorem ctxresume_resumes (hr : Claims.Ready s) (hn : Claims.op ops 1 < 64) (hx : tfind (Claims.op ops 1) s.contexts = some x)
    (ho : Claims.only ops 2) {c : CoreId} {k : Core} (hsaved : x.state = .saved)
    (hrec : tfind (2 * Claims.op ops 1) s.saves = some r) (hintact : r.intact = true)
    (hop : Claims.op ops 2 = 1 ∨ Claims.op ops 2 = 0 ∧ r.wdog = false) (hfree : s.taken (Claims.op ops 1) r.part = none)
    (hcores : r.cores = [(c, k)]) (hdue : ∀ e, k.actionDue e = false) :
    ∃ t, exec (.ctxresume 0 ops) s = .next t ∧ Claims.replied t 0 [] ∧
      (tfind (Claims.op ops 1) t.contexts).map (fun y => y.state) = some .running ∧ (t.getCore c).pc = k.pc ∧
      (t.getCore c).sregs = k.sregs ∧ (t.getCore c).rest = .none := by
  have hbody : execCtxresume 0 ops s = _ := mailbox_onContext hr hn hx ho 0x13 _
  have htwo : ¬2 ≤ opNat ops 2 := by
    rw [opNat_eq]
    omega
  have hflag : ¬(r.wdog = true ∧ opNat ops 2 = 0) := by
    rintro ⟨hw, hzero⟩
    rw [opNat_eq] at hzero
    rcases hop with h | ⟨-, h⟩
    · omega
    · rw [hw] at h
      cases h
  have hrec' : (if x.state = .saved then tfind (2 * Claims.op ops 1) (s.receiving 0x13 ops).saves else none) = some r :=
    (if_pos hsaved).trans hrec
  have hfree' : (s.receiving 0x13 ops).taken (Claims.op ops 1) r.part = none := hfree
  have hrestore : (s.resuming ops).resumeFrom (Claims.op ops 1) r = (s.resuming ops).restored (Claims.op ops 1) r :=
    resumeFrom_restores fun p hp e => by
      rw [hcores, List.mem_singleton] at hp
      rw [hp]
      exact hdue e
  have hfinal : ∃ gap, ((s.resuming ops).restored (Claims.op ops 1) r).getCore c = k.resumed gap := by
    obtain ⟨p, hp, -, hcore⟩ := restored_core (s := s.resuming ops) (n := Claims.op ops 1) (c := c) (r := r)
      ⟨(c, k), by rw [hcores]; exact List.mem_singleton_self _, rfl⟩
    rw [hcores, List.mem_singleton] at hp
    rwa [hp] at hcore
  obtain ⟨gap, hcore⟩ := hfinal
  refine ⟨((s.resuming ops).restored (Claims.op ops 1) r).respond 0 [], hbody.trans ?_, replied_respond _ _ _,
    restored_state (s := s.resuming ops) (x := x) hx, ?_⟩
  · rw [if_neg htwo, hrec']
    dsimp only
    rw [if_neg hflag, hfree']
    dsimp only
    rw [if_pos hintact, ← hrestore]
    rfl
  · show (State.getCore (State.restored _ _ _) c).pc = _ ∧ (State.getCore (State.restored _ _ _) c).sregs = _ ∧
      (State.getCore (State.restored _ _ _) c).rest = _
    rw [hcore]
    exact ⟨rfl, rfl, rfl⟩

/-! Rollback. -/

theorem addWaiter_keeps {β : Type} (p : State → β)
    (hp : ∀ (t : State) m q l b c f,
      p { t with mem := m, poisoned := q, logs := l, logNotice := b, counters := c, fresh := f } = p t)
    (hw : ∀ (t : State) w, p { t with waiters := w } = p t) (t : State) (m i k : Nat) (who : Waiter) :
    p (t.addWaiter m i k who) = p t := (setFut_proj p hp _ _ _ _).trans (hw t _)

theorem rewait_keeps {β : Type} (p : State → β)
    (hp : ∀ (t : State) m q l b c f,
      p { t with mem := m, poisoned := q, logs := l, logNotice := b, counters := c, fresh := f } = p t)
    (hw : ∀ (t : State) w, p { t with waiters := w } = p t) (t : State) (m : Nat) (l : List WaitRec) :
    p (t.rewait m l) = p t := by
  refine (foldl_proj p (f := fun (t : State) (w : WaitRec) =>
    match t.freeWaiter with | some r => t.addWaiter m w.fut r w.who | none => t) (fun t w => ?_) l _).trans
      (foldl_proj p (f := fun (t : State) i => t.setFut m i { t.fut m i with nwait := 0, whead := 0, wtail := 0 })
        (fun t i => setFut_proj p hp _ _ _ _) _ t)
  split
  · exact addWaiter_keeps p hp hw ..
  · rfl

/-- The state from which a context resumes at a rollback: its writes are undone, its partition is free, and its cards, queues,
free list and waits are those of the record. -/
def State.unrolled (s : State) (n k : Nat) (r : Save) (x : Context) : State :=
  let s := (s.forget n).undoWrites n k
  let s := s.vacate n
  let s := { s with cards := r.cards ++ s.cards, saves := terase (2 * n) s.saves }
  let s := r.queues.foldl (fun t q => t.setQueue q.1 { t.queue q.1 with h := q.2, timer := none, posted := false }) s
  let s := s.mapCtx n fun y =>
    { y with freeFutures := r.freeFutures ++ (List.range (x.futures - r.futures)).map fun i => r.futures + i }
  s.rewait n r.waits

theorem unrolled_context (hx : tfind n s.contexts = some x) (k : Nat) :
    ∃ y, tfind n (s.unrolled n k r x).contexts = some y := by
  unfold State.unrolled
  dsimp only
  rw [rewait_keeps State.contexts (fun _ _ _ _ _ _ _ => rfl) (fun _ _ => rfl), tfind_mapCtx_same,
    foldl_proj State.contexts (f := fun (t : State) (q : Nat × Nat) =>
      t.setQueue q.1 { t.queue q.1 with h := q.2, timer := none, posted := false }) (fun _ _ => rfl)]
  exact ⟨_, congrArg (Option.map _) hx⟩

theorem unrolled_command (k : Nat) : (s.unrolled n k r x).command = s.command := by
  unfold State.unrolled
  dsimp only
  rw [rewait_keeps State.command (fun _ _ _ _ _ _ _ => rfl) (fun _ _ => rfl), mapCtx_proj State.command fun _ _ => rfl,
    foldl_proj State.command (f := fun (t : State) (q : Nat × Nat) =>
      t.setQueue q.1 { t.queue q.1 with h := q.2, timer := none, posted := false }) (fun _ _ => rfl)]
  rfl

theorem notify_command (n kind queue cause detail : Nat) : (s.notify n kind queue cause detail).command = s.command :=
  (congrArg State.command (notify_offMemory s n kind queue cause detail) :)

theorem notify_contexts (n kind queue cause detail : Nat) : (s.notify n kind queue cause detail).contexts = s.contexts :=
  (congrArg State.contexts (notify_offMemory s n kind queue cause detail) :)

/-- What a rollback does at its end: a device checkpoint under way has the context stop again, and a command that waits for
its stop fails. -/
def State.endRollback (s : State) (n : Nat) : State :=
  match s.command with
  | some (0x16, _) => s.setStop n s.time
  | _ => s.commandDone [0x12, 0x14] n (0x04070000 + n) []

theorem endRollback_idle (h : s.command = none) : s.endRollback n = s := by
  unfold State.endRollback State.commandDone
  rw [h]

/-- A rollback that the host asks for, with no command under way, resumes and posts its record. -/
theorem rollback_resumes (hidle : s.command = none) (h : ∀ p ∈ r.cores, ∀ e, p.2.actionDue e = false) (k : Nat) :
    s.rollback n k 0 r x = ((s.unrolled n k r x).restored n r).notify n 10 0 0 k := by
  have hcommand : (((s.unrolled n k r x).restored n r).notify n 10 0 0 k).command = none := by
    rw [notify_command, restored_command, unrolled_command, hidle]
  rw [← endRollback_idle (n := n) hcommand, ← resumeFrom_restores h]
  show State.endRollback
    (State.notify (if r.wdog ∧ (0 : Nat) ≠ 0 then _ else (s.unrolled n k r x).resumeFrom n r) n 10 0 0 k) n = _
  rw [if_neg (by simp)]

theorem rollback_rolls (hr : Claims.Ready s) (hn : Claims.op ops 1 < 64) (hx : tfind (Claims.op ops 1) s.contexts = some x)
    (ho : Claims.only ops 2) (hzero : Claims.op ops 2 ≠ 0) (hk : Claims.op ops 2 = x.interval)
    (hrec : tfind (2 * Claims.op ops 1 + 1) s.saves = some r) (hintact : r.intact = true)
    (hfree : s.taken (Claims.op ops 1) r.part = none) (hdue : ∀ p ∈ r.cores, ∀ e, p.2.actionDue e = false) :
    ∃ t, exec (.rollback 0 ops) s = .next t ∧ Claims.replied t 0 [] ∧
      (tfind (Claims.op ops 1) t.contexts).map (fun y => y.state) = some .running := by
  have hbody : execRollback 0 ops s = _ := mailbox_onContext hr hn hx ho 0x15 _
  have hop : ¬(opNat ops 2 = 0 ∨ opNat ops 2 ≠ x.interval) := not_or.mpr ⟨hzero, not_not.mpr hk⟩
  have hrec' : tfind (2 * Claims.op ops 1 + 1) (s.receiving 0x15 ops).saves = some r := hrec
  have hfree' : (s.receiving 0x15 ops).taken (Claims.op ops 1) r.part = none := hfree
  refine ⟨((s.receiving 0x15 ops).rollback (Claims.op ops 1) x.interval 0 r x).respond 0 [], hbody.trans ?_,
    replied_respond _ _ _, ?_⟩
  · rw [if_neg hop, hrec']
    dsimp only
    rw [hfree']
    dsimp only
    rw [hintact]
    rfl
  · show (tfind _ (State.rollback _ _ _ _ _ _).contexts).map _ = _
    rw [rollback_resumes (s := s.receiving 0x15 ops) hr.idle hdue, notify_contexts]
    obtain ⟨y, hy⟩ := unrolled_context (s := s.receiving 0x15 ops) (r := r) hx x.interval
    exact restored_state hy

end Resume

/-! ### Futures that management makes, fulfils and frees (R305, R306) -/

section Futures
variable {s : State} {n : Nat} {x : Context}

/-- A context with no open interval, as management's own writes see it. -/
def Context.shut (x : Context) : Context := { x with interval := 0 }

/-- The state on which management's writes to a future are made. -/
def State.shut (s : State) (n : Nat) : State := s.mapCtx n Context.shut

theorem shut_context (hx : tfind n s.contexts = some x) : tfind n (s.shut n).contexts = some x.shut := by
  rw [State.shut, tfind_mapCtx_same, hx]
  rfl

theorem shut_mem : (s.shut n).mem = s.mem := mapCtx_proj State.mem (fun _ _ => rfl) ..

theorem shut_cards : (s.shut n).cards = s.cards := mapCtx_proj State.cards (fun _ _ => rfl) ..

theorem unlogged_mem (f : State → State) : (s.unlogged n f).mem = (f (s.shut n)).mem :=
  mapCtx_proj State.mem (fun _ _ => rfl) ..

/-- Management fulfils a future that nothing awaits. -/
theorem unlogged_settle (hx : tfind n s.contexts = some x) (hcards : ∀ p ∈ s.cards, p.2.count ≠ 0) {i v : Nat} (hv : v < 2 ^ 64)
    (hwait : (Claims.entry x s.mem i).nwait = 0) :
    Claims.entry x (s.unlogged n fun s => s.settle [(n, i, 2, v)]).mem i = (Claims.entry x s.mem i).settled 2 v := by
  have hsettle := settle_unawaited (s := s.shut n) (st := 2) (v := v) (shut_context hx)
    (by rw [shut_cards]; exact hcards) (by rw [shut_mem]; exact hwait)
  rw [shut_mem] at hsettle
  rw [unlogged_mem, hsettle, markReleased_mem]
  exact entry_setFut (shut_context hx) i (settled_fits (futEntryAt_fits _ _) (by decide) hv)

/-- A command that names a future which the context has. -/
theorem onFuture_live (hx : tfind n s.contexts = some x) {h : Nat} (hword : h < 2 ^ 32) (hv : Claims.valid x h)
    (hl : Claims.live s x h) (body : FutEntry → Out) :
    s.onFuture n h body = body (Claims.entry x s.mem (Claims.idx h)) := by
  rw [State.onFuture, if_neg (Nat.not_le.mpr hword), (validHandle_iff hx h).mpr hv, (current_iff hx h).mpr hl, fut_eq hx]
  rfl

variable {ops : List Word} (hr : Claims.Ready s) (hn : Claims.op ops 1 < 64) (hx : tfind (Claims.op ops 1) s.contexts = some x)
include hr hn hx

theorem futmake_makes (ho : Claims.only ops 2) (hindex : Claims.op ops 2 < x.futures)
    (hfree : (Claims.entry x s.mem (Claims.op ops 2)).st = 0) :
    ∃ t, exec (.futmake 0 ops) s = .next t ∧
      Claims.replied t 0
        [BitVec.ofNat 64 (nextGen (Claims.entry x s.mem (Claims.op ops 2)).gen * 2 ^ 20 + Claims.op ops 2)] ∧
      Claims.entry x t.mem (Claims.op ops 2) =
        { value := 0, st := 1, gen := nextGen (Claims.entry x s.mem (Claims.op ops 2)).gen, nwait := 0, whead := 0,
          wtail := 0 } := by
  have hbody : execFutmake 0 ops s = _ := mailbox_onContext hr hn hx ho 0x50 _
  have hx' : tfind (Claims.op ops 1) (s.receiving 0x50 ops).contexts = some x := hx
  have hst : ¬((s.receiving 0x50 ops).fut (Claims.op ops 1) (opNat ops 2)).st ≠ 0 := by
    rw [fut_eq hx']
    exact not_not.mpr hfree
  refine ⟨(State.mapCtx ((s.receiving 0x50 ops).unlogged (Claims.op ops 1) fun s =>
    (s.allocFut (Claims.op ops 1) (opNat ops 2)).1) (Claims.op ops 1) fun y =>
      { y with freeFutures := y.freeFutures.filter fun j => j ≠ opNat ops 2 }).respond 0
    [BitVec.ofNat 64 ((s.receiving 0x50 ops).allocFut (Claims.op ops 1) (opNat ops 2)).2], hbody.trans ?_, ?_, ?_⟩
  · dsimp only
    rw [if_neg (show ¬x.futures ≤ opNat ops 2 from Nat.not_le.mpr hindex), if_neg hst]
  · rw [allocFut_eq hx']
    exact replied_respond _ _ _
  · show Claims.entry x (State.mapCtx _ _ _).mem _ = _
    rw [mapCtx_proj State.mem fun _ _ => rfl, unlogged_mem]
    have hentry := allocated_entry (shut_context hx') (Claims.op ops 2)
    rw [State.allocated, mapCtx_proj State.mem fun _ _ => rfl, shut_mem] at hentry
    exact hentry

theorem futfree_frees (ho : Claims.only ops 2) (hword : Claims.op ops 2 < 2 ^ 32) (hv : Claims.valid x (Claims.op ops 2))
    (hl : Claims.live s x (Claims.op ops 2))
    (he : (Claims.entry x s.mem (Claims.idx (Claims.op ops 2))).st ≠ 1 ∨
      (Claims.entry x s.mem (Claims.idx (Claims.op ops 2))).nwait = 0) :
    ∃ t, exec (.futfree 0 ops) s = .next t ∧ Claims.replied t 0 [] ∧
      Claims.entry x t.mem (Claims.idx (Claims.op ops 2)) =
        { Claims.entry x s.mem (Claims.idx (Claims.op ops 2)) with st := 0 } := by
  have hbody : execFutfree 0 ops s = _ := mailbox_onContext hr hn hx ho 0x52 _
  have hx' : tfind (Claims.op ops 1) (s.receiving 0x52 ops).contexts = some x := hx
  refine ⟨((s.receiving 0x52 ops).unlogged (Claims.op ops 1) fun s =>
    s.freeFut (Claims.op ops 1) (futIndex (opNat ops 2))).respond 0 [],
    hbody.trans ((onFuture_live hx' hword hv hl _).trans (if_neg ?_)), replied_respond _ _ _, ?_⟩
  · rintro ⟨hst, hwait⟩
    exact he.elim (fun h => h hst) hwait
  · show Claims.entry x (State.unlogged _ _ _).mem _ = _
    rw [unlogged_mem]
    have hentry := freed_entry (shut_context hx') (Claims.idx (Claims.op ops 2))
    rw [shut_mem] at hentry
    exact hentry

theorem futput_fulfils (ho : Claims.only ops 3) (hword : Claims.op ops 2 < 2 ^ 32) (hv : Claims.valid x (Claims.op ops 2))
    (hl : Claims.live s x (Claims.op ops 2)) (hst : (Claims.entry x s.mem (Claims.idx (Claims.op ops 2))).st = 1)
    (hwait : (Claims.entry x s.mem (Claims.idx (Claims.op ops 2))).nwait = 0) (hcards : ∀ p ∈ s.cards, p.2.count ≠ 0) :
    ∃ t, exec (.futput 0 ops) s = .next t ∧ Claims.replied t 0 [] ∧
      Claims.entry x t.mem (Claims.idx (Claims.op ops 2)) =
        (Claims.entry x s.mem (Claims.idx (Claims.op ops 2))).settled 2 (Claims.op ops 3) := by
  have hbody : execFutput 0 ops s = _ := mailbox_onContext hr hn hx ho 0x51 _
  have hx' : tfind (Claims.op ops 1) (s.receiving 0x51 ops).contexts = some x := hx
  refine ⟨_, hbody.trans ((onFuture_live hx' hword hv hl _).trans (if_neg (not_not.mpr hst))), replied_respond _ _ _, ?_⟩
  rw [respond_mem]
  exact unlogged_settle hx' hcards (ops.getD 2 0#64).isLt hwait

end Futures

/-! ### A device checkpoint (R440) -/

section Checkpoint

theorem memByte_eq_tget (m : List Host.Cell) (a : Nat) : memByte m a = tget a m 0#8 := by
  induction m with
  | nil => rfl
  | cons c m ih =>
    obtain ⟨k, v⟩ := c
    by_cases h : k = a
    · subst h
      simp [memByte, tget, tfind]
    · simpa [memByte, tget, tfind, h] using ih

theorem tfind_append {α : Type} (k : Nat) (l r : Tab α) : tfind k (l ++ r) = (tfind k l).or (tfind k r) := by
  induction l with
  | nil => rfl
  | cons p l ih =>
    obtain ⟨j, v⟩ := p
    by_cases h : j = k
    · subst h
      simp [tfind]
    · simpa [tfind, h] using ih

theorem tfind_filter_keys {α : Type} (p : Nat → Bool) (t : Tab α) (k : Nat) :
    tfind k (t.filter fun r => p r.1) = if p k then tfind k t else none := by
  induction t with
  | nil => exact (ite_self _).symm
  | cons r t ih =>
    obtain ⟨j, v⟩ := r
    by_cases hj : j = k
    · subst hj
      cases hp : p j with
      | true => simp [hp, tfind]
      | false => simpa [List.filter_cons, hp] using ih
    · cases hp : p j with
      | true => simpa [List.filter_cons, hp, tfind, hj] using ih
      | false => simpa [List.filter_cons, hp, tfind, hj] using ih

theorem tfind_shift {α : Type} (b k : Nat) (t : Tab α) : tfind (b + k) (t.map fun r => (b + r.1, r.2)) = tfind k t := by
  induction t with
  | nil => rfl
  | cons r t ih =>
    obtain ⟨j, v⟩ := r
    by_cases h : j = k
    · simp [tfind, h]
    · simpa [tfind, h] using ih

theorem tfind_shift_below {α : Type} {b k : Nat} (h : k < b) (t : Tab α) :
    tfind k (t.map fun r => (b + r.1, r.2)) = none := by
  induction t with
  | nil => rfl
  | cons r t ih =>
    have hne : b + r.1 ≠ k := by omega
    simpa [tfind, hne] using ih

variable {s : State}

/-- The memory that a device checkpoint leaves, with nothing in the reserved regions: a copy of HBM from the base on. -/
def streamed (m : List Host.Cell) (base : Nat) : List Host.Cell :=
  (m.filter fun c => decide (c.1 < base)) ++
    ((m.filter fun c => decide (c.1 < 0x6000000000)).map fun c => (base + c.1, c.2)) ++
    m.filter fun c => decide (base + 0x6000000000 ≤ c.1)

theorem streamHbm_mem (hsaves : s.saves = []) (hlogs : s.logs = []) (base : Nat) :
    (s.streamHbm base).mem = streamed s.mem base := by
  have hempty (r : Nat × List Byte) (hr : r ∈ s.reserved) : r.2 = [] := by
    unfold State.reserved at hr
    rw [hsaves, List.map_nil, List.nil_append] at hr
    obtain ⟨i, -, rfl⟩ := List.mem_map.mp hr
    show s.logBytes i = []
    rw [State.logBytes, hlogs]
    rfl
  show s.withReserved base (streamed s.mem base) = _
  refine foldl_eq_self fun r hr => ?_
  rw [hempty r hr]
  rfl

variable {m : List Host.Cell} {base a : Nat}

theorem memByte_streamed_copy (ha : a < 0x6000000000) : memByte (streamed m base) (base + a) = memByte m a := by
  rw [memByte_eq_tget, memByte_eq_tget, tget, tget, streamed, tfind_append, tfind_append,
    tfind_filter_keys (fun k => decide (k < base)), tfind_shift, tfind_filter_keys (fun k => decide (k < 0x6000000000)),
    tfind_filter_keys (fun k => decide (base + 0x6000000000 ≤ k))]
  have hfar : ¬0x6000000000 ≤ a := by omega
  simp [ha, hfar]

theorem memByte_streamed_below (ha : a < base) : memByte (streamed m base) a = memByte m a := by
  have hfar : ¬base + 0x6000000000 ≤ a := by omega
  rw [memByte_eq_tget, memByte_eq_tget, tget, tget, streamed, tfind_append, tfind_append,
    tfind_filter_keys (fun k => decide (k < base)), tfind_shift_below ha,
    tfind_filter_keys (fun k => decide (base + 0x6000000000 ≤ k))]
  simp [ha, hfar]

variable {ops : List Word}

theorem devckpt_streams (hr : Claims.Ready s) (ho : Claims.only ops 3) (h1 : Claims.op ops 1 = 0)
    (hbus : Claims.op ops 2 + 0x6000000000 ≤ 2 ^ 51) (hcontexts : s.contexts = []) (hsaves : s.saves = []) (hlogs : s.logs = []) :
    ∃ t, exec (.devckpt 0 ops) s = .next t ∧ Claims.replied t 0 [] ∧ t.mem = streamed s.mem (2 ^ 51 + Claims.op ops 2) := by
  have hbody : execDevckpt 0 ops s = _ := mailbox_ready hr ho 0x16 _
  have hbus' : busOk (opNat ops 2) 0x6000000000 = true := decide_eq_true hbus
  have hzero : opNat ops 1 = 0 := h1
  have hcontexts' : (s.receiving 0x16 ops).contexts = [] := hcontexts
  have hall : ((s.receiving 0x16 ops).runs 0x16 64).allSaved = true := by
    show s.contexts.all _ = true
    rw [hcontexts]
    rfl
  refine ⟨(((s.receiving 0x16 ops).runs 0x16 64).streamHbm (2 ^ 51 + Claims.op ops 2)).respond 0 [], hbody.trans ?_,
    replied_respond _ _ _, streamHbm_mem hsaves hlogs _⟩
  dsimp only
  rw [hzero, if_neg (by decide), if_neg (by simp [hbus']), if_neg (by simp), hcontexts', List.foldl_nil]
  refine congrArg Host.Outcome.next ?_
  show (if ((s.receiving 0x16 ops).runs 0x16 64).allSaved then
    ((checkpointBases (Claims.op ops 1) (Claims.op ops 2) (Claims.op ops 3)).foldl State.streamHbm _).respond 0 [] else _) = _
  rw [if_pos hall, h1]
  rfl

end Checkpoint

/-! ### Agencies, queues and grants (R294, R303, R388, R390, R398, R446) -/

section Agencies
variable {s : State} {ops : List Word} (hr : Claims.Ready s)
include hr

theorem keyreg_registers (ho : Claims.only ops 3) (ha : Claims.op ops 1 < 4096) (hi : Claims.op ops 2 < 16)
    (hfree : tfind (16 * Claims.op ops 1 + Claims.op ops 2) s.keys = none) (hbus : Claims.op ops 3 + 96 ≤ 2 ^ 51) :
    ∃ t, exec (.keyreg 0 ops) s = .next t ∧ Claims.replied t 0 [] ∧ t.mem = s.mem ∧
      tfind (16 * Claims.op ops 1 + Claims.op ops 2) t.keys =
        some { key := BitVec.ofNat 768 (bytesNat (Claims.hostBytes s (Claims.op ops 3) 96).reverse) } := by
  have hbody : execKeyreg 0 ops s = _ := mailbox_ready hr ho 0x20 _
  have hbus' : busOk (opNat ops 3) 96 = true := decide_eq_true hbus
  have hslot : ¬(16 ≤ opNat ops 2 ∨ (tfind (keySlot (opNat ops 1) (opNat ops 2)) (s.receiving 0x20 ops).keys).isSome = true) := by
    rw [show tfind (keySlot (opNat ops 1) (opNat ops 2)) (s.receiving 0x20 ops).keys = none from hfree]
    exact not_or.mpr ⟨Nat.not_le.mpr hi, Bool.false_ne_true⟩
  refine ⟨_, hbody.trans ((if_neg (Nat.not_le.mpr ha)).trans ((if_neg hslot).trans (if_neg ?_))), replied_respond _ _ _, rfl,
    tfind_tset_same ..⟩
  rw [hbus']
  exact Bool.false_ne_true

theorem keyrev_revokes (ho : Claims.only ops 2) (ha : Claims.op ops 1 < 4096) (hi : Claims.op ops 2 < 16) {k : AgencyKey}
    (hk : tfind (16 * Claims.op ops 1 + Claims.op ops 2) s.keys = some k) :
    ∃ t, exec (.keyrev 0 ops) s = .next t ∧ Claims.replied t 0 [] ∧
      tfind (16 * Claims.op ops 1 + Claims.op ops 2) t.keys = some { k with revoked := true } := by
  have hbody : execKeyrev 0 ops s = _ := mailbox_ready hr ho 0x21 _
  have hkey : (if opNat ops 2 < 16 then tfind (keySlot (opNat ops 1) (opNat ops 2)) (s.receiving 0x21 ops).keys else none) =
      some k := (if_pos hi).trans hk
  refine ⟨({ s.receiving 0x21 ops with
    keys := tset (keySlot (opNat ops 1) (opNat ops 2)) { k with revoked := true } (s.receiving 0x21 ops).keys } : State).respond
      0 [], hbody.trans ((if_neg (Nat.not_le.mpr ha)).trans ?_), replied_respond _ _ _, tfind_tset_same ..⟩
  rw [hkey]

/-- The state in which an agency has a weight. -/
def State.weighed (s : State) (a g : Nat) : State := { s with weights := tset a g s.weights }

omit hr in
theorem weigh_weighs (ha : Claims.op ops 1 < 4096) (hlo : 1 ≤ Claims.op ops 2) (hhi : Claims.op ops 2 ≤ 255)
    (body : Nat → State → Out) : s.weigh ops body = body (Claims.op ops 1) (s.weighed (Claims.op ops 1) (Claims.op ops 2)) := by
  refine (if_neg (Nat.not_le.mpr ha)).trans (if_neg ?_)
  show ¬(Claims.op ops 2 = 0 ∨ 255 < Claims.op ops 2)
  omega

omit hr in
theorem weighed_weight (a g : Nat) : tget a (s.weighed a g).weights 1 = g := tget_tset_same ..

omit hr in
/-- An agency's counts are gone. -/
theorem tget_other {j a : Nat} (h : j / 16 = a) (l : Tab Nat) : tget j (l.filter fun r => decide (r.1 / 16 ≠ a)) 0 = 0 := by
  rw [tget, tfind_filter_keys (fun k => decide (k / 16 ≠ a)), if_neg (by simp [h])]
  rfl

theorem agassign_assigns (ho : Claims.only ops 2) (ha : Claims.op ops 1 < 4096) (hlo : 1 ≤ Claims.op ops 2)
    (hhi : Claims.op ops 2 ≤ 255) :
    ∃ t, exec (.agassign 0 ops) s = .next t ∧ Claims.replied t 0 [] ∧ tget (Claims.op ops 1) t.weights 1 = Claims.op ops 2 ∧
      ∀ j, j / 16 = Claims.op ops 1 → tget j t.counters 0 = 0 ∧ tget j t.folded 0 = 0 := by
  have hbody : execAgassign 0 ops s = _ := mailbox_ready hr ho 0x22 _
  exact ⟨_, hbody.trans (weigh_weighs (s := s.receiving 0x22 ops) ha hlo hhi _), replied_respond _ _ _,
    weighed_weight (s := s.receiving 0x22 ops) .., fun j hj => ⟨tget_other hj _, tget_other hj _⟩⟩

theorem agweight_weighs (ho : Claims.only ops 2) (ha : Claims.op ops 1 < 4096) (hlo : 1 ≤ Claims.op ops 2)
    (hhi : Claims.op ops 2 ≤ 255) :
    ∃ t, exec (.agweight 0 ops) s = .next t ∧ Claims.replied t 0 [] ∧ tget (Claims.op ops 1) t.weights 1 = Claims.op ops 2 ∧
      t.counters = s.counters := by
  have hbody : execAgweight 0 ops s = _ := mailbox_ready hr ho 0x23 _
  exact ⟨_, hbody.trans (weigh_weighs (s := s.receiving 0x23 ops) ha hlo hhi _), replied_respond _ _ _,
    weighed_weight (s := s.receiving 0x23 ops) .., rfl⟩

/-- The state in which an agency's snapshot stands at an address. -/
def State.snapped (s : State) (at_ a : Nat) : State :=
  { s with mem := memWriteBytes s.mem at_ (s.snapshot a), fresh := s.fresh + 1 }

omit hr in
theorem snapped_mem (at_ a : Nat) : (s.snapped at_ a).mem = memWriteBytes s.mem at_ (s.snapshot a) := by
  unfold State.snapped
  rfl

omit hr in
/-- The operands of a command are no part of a snapshot. -/
theorem snapshotBody_receiving (code a : Nat) : (s.receiving code ops).snapshotBody a = s.snapshotBody a := by
  unfold State.snapshotBody
  rw [show (s.receiving code ops).folds = s.folds from rfl, show (s.receiving code ops).foldTime = s.foldTime from rfl,
    show (s.receiving code ops).folded = s.folded from rfl]

omit hr in
theorem snapshot_receiving (code a : Nat) : (s.receiving code ops).snapshot a = s.snapshot a := by
  unfold State.snapshot
  dsimp only
  rw [snapshotBody_receiving, show (s.receiving code ops).fresh = s.fresh from rfl]

theorem acctsnap_stores (ho : Claims.only ops 2) (ha : Claims.op ops 1 < 4096) (hbus : Claims.op ops 2 + 192 ≤ 2 ^ 51) :
    ∃ t, exec (.acctsnap 0 ops) s = .next t ∧ Claims.replied t 0 [BitVec.ofNat 64 s.folds] ∧
      t.mem = memWriteBytes s.mem (2 ^ 51 + Claims.op ops 2) (s.snapshot (Claims.op ops 1)) := by
  have hbody : execAcctsnap 0 ops s = _ := mailbox_ready hr ho 0x24 _
  have hbus' : busOk (opNat ops 2) 192 = true := decide_eq_true hbus
  refine ⟨((s.receiving 0x24 ops).snapped (2 ^ 51 + Claims.op ops 2) (Claims.op ops 1)).respond 0 [BitVec.ofNat 64 s.folds],
    hbody.trans ((if_neg (Nat.not_le.mpr ha)).trans (if_neg ?_)), replied_respond _ _ _, ?_⟩
  · rw [hbus']
    exact Bool.false_ne_true
  · rw [respond_mem, snapped_mem, snapshot_receiving]
    rfl

/-- A queue that is not enabled, or whose context is resident and whose ring lies in memory. -/
theorem qset_sets (ho : Claims.only ops 4) (hq : Claims.op ops 1 < 32768) (hword : queueWordOk (ops.getD 1 0#64) = true)
    (hfn : Claims.op ops 4 < 64)
    (hring : (ops.getD 1 0#64).getLsbD 63 = false ∨
      tfind ((ops.getD 1 0#64).toNat / 2 ^ 26 % 64) s.contexts ≠ none ∧ Claims.op ops 3 % 128 = 0 ∧
        s.inMemory (Claims.op ops 3) (128 + 128 * 2 ^ ((ops.getD 1 0#64).toNat / 2 ^ 48 % 256)) = true) :
    ∃ t, exec (.qset 0 ops) s = .next t ∧ Claims.replied t 0 [] ∧
      tfind (Claims.op ops 1) t.queues =
        some { desc := ops.getD 1 0#64, base := Claims.op ops 3, fn := Claims.op ops 4,
               h := memRead s.mem (Claims.op ops 3 + 8) 4 } := by
  have hbody : execQset 0 ops s = _ := mailbox_ready hr ho 0x40 _
  have hcontext : ¬(wbit (opWord ops 2) 63 && (tfind (wfield (opWord ops 2) 26 6) (s.receiving 0x40 ops).contexts).isNone) =
      true := by
    rcases hring with h | ⟨hctx, -, -⟩
    · rw [show wbit (opWord ops 2) 63 = false from h]
      exact Bool.false_ne_true
    · rw [show (tfind (wfield (opWord ops 2) 26 6) (s.receiving 0x40 ops).contexts).isNone = false from
        Option.isNone_eq_false_iff.mpr (Option.isSome_iff_ne_none.mpr hctx), Bool.and_false]
      exact Bool.false_ne_true
  have hplace : ¬(wbit (opWord ops 2) 63 && (decide (opNat ops 3 % 128 ≠ 0) ||
      !(s.receiving 0x40 ops).inMemory (opNat ops 3) (0x80 + 128 * 2 ^ wfield (opWord ops 2) 48 8))) = true := by
    rcases hring with h | ⟨-, hal, hmem⟩
    · rw [show wbit (opWord ops 2) 63 = false from h]
      exact Bool.false_ne_true
    · rw [show (s.receiving 0x40 ops).inMemory (opNat ops 3) (0x80 + 128 * 2 ^ wfield (opWord ops 2) 48 8) = true from hmem,
        show decide (opNat ops 3 % 128 ≠ 0) = false from decide_eq_false (not_not.mpr hal), Bool.not_true, Bool.or_false,
        Bool.and_false]
      exact Bool.false_ne_true
  have hword' : ¬(!queueWordOk (opWord ops 2)) = true := by
    rw [show queueWordOk (opWord ops 2) = true from hword]
    exact Bool.false_ne_true
  exact ⟨_, hbody.trans ((if_neg (Nat.not_le.mpr hq)).trans ((if_neg hword').trans ((if_neg hcontext).trans
    ((if_neg hplace).trans (if_neg (Nat.not_le.mpr hfn)))))), replied_respond _ _ _, tfind_tset_same ..⟩

theorem bargrant_grants (ho : Claims.only ops 3) (hf : Claims.op ops 1 < 64) (hsize : ∃ i < 10, Claims.op ops 3 = 2 ^ (30 + i))
    (hal : Claims.op ops 2 % Claims.op ops 3 = 0) (hin : Claims.op ops 2 + Claims.op ops 3 ≤ 0x6000000000) :
    ∃ t, exec (.bargrant 0 ops) s = .next t ∧ Claims.replied t 0 [] ∧
      tfind (Claims.op ops 1) t.grants = some (Claims.op ops 2, Claims.op ops 3) := by
  have hbody : execBargrant 0 ops s = _ := mailbox_ready hr ho 0x41 _
  have hpower : ((List.range 10).any fun i => decide (opNat ops 3 = 2 ^ (30 + i))) = true := by
    obtain ⟨i, hi, h⟩ := hsize
    exact List.any_eq_true.mpr ⟨i, List.mem_range.mpr hi, decide_eq_true h⟩
  have hplace : ¬(opNat ops 2 % opNat ops 3 ≠ 0 ∨ 0x6000000000 < opNat ops 2 + opNat ops 3) :=
    not_or.mpr ⟨not_not.mpr hal, Nat.not_lt.mpr hin⟩
  refine ⟨_, hbody.trans ((if_neg (Nat.not_le.mpr hf)).trans ((if_neg ?_).trans (if_neg hplace))), replied_respond _ _ _,
    tfind_tset_same ..⟩
  rw [hpower]
  exact Bool.false_ne_true

end Agencies

end Sys2Proof.Machine

namespace Sys2Proof.Proofs

open Sys2Proof Sys2Proof.Machine

/-- Settles O49: each command by the rule of its body, which a ready mailbox runs. -/
theorem managementCommands : Obligations.ManagementCommands := by
  unfold Obligations.ManagementCommands
  intro s ops hr op
  refine ⟨?ctxload, fun x ho hn hx => ?contexts, fun x ho hn hx hrun => ckpt_stops hr hn hx ho hrun,
    fun x ho hn hx => ⟨fun hword hv hl _ => ?futput, fun h3 himage hcards =>
      objunload_unloads hr hn hx ho h3 himage hcards⟩, ?devckpt,
    fun ho ha hi hfree hbus => keyreg_registers hr ho ha hi hfree hbus,
    fun ho ha => ⟨fun k hi hk => keyrev_revokes hr ho ha hi hk, fun hlo hhi => ⟨agassign_assigns hr ho ha hlo hhi,
      agweight_weighs hr ho ha hlo hhi⟩, fun hbus => acctsnap_stores hr ho ha hbus⟩,
    fun ho hq hword hfn hring => qset_sets hr ho hq hword hfn hring,
    fun ho hf hsize hal hin => bargrant_grants hr ho hf hsize hal hin, fun n x b hx hbad hn hcluster => ?descriptor⟩
  case ctxload =>
    intro ho hbus b d hbad hfree hcluster
    have hmap : (s.receiving 0x10 ops).applyUpdate.clmap = s.clmap := by
      obtain ⟨mr, st, dt, tr, lo, hi, b, v, bt, u, hframe⟩ := applyUpdate_frame (s.receiving 0x10 ops)
      rw [hframe]
      rfl
    refine ⟨_, _, ctxload_loads hr ho hbus rfl hbad hfree hcluster, replied_respond _ _ _, loadContext_context .., rfl, rfl,
      fun c hc hpart i hi => ?_⟩
    refine loadContext_getCore (s := (s.receiving 0x10 ops).applyUpdate) hc ?_ hi
    unfold State.inPart at hpart ⊢
    rw [hmap]
    exact hpart
  case contexts =>
    intro n context
    refine ⟨fun h => ctxend_ends hr hn hx ho h, fun hrun => ctxstop_stops hr hn hx ho hrun,
      fun r c k hsaved hrec hintact hop hfree hcores hdue =>
        ctxresume_resumes hr hn hx ho hsaved hrec hintact hop hfree hcores hdue,
      fun r hzero hk hrec hintact hfree hdue => rollback_rolls hr hn hx ho hzero hk hrec hintact hfree hdue,
      fun hlo hhi => wdset_sets hr hn hx ho hlo hhi, fun hindex hfree _ => futmake_makes hr hn hx ho hindex hfree,
      fun hword hv hl _ => ?futfree⟩
    intro e he
    exact futfree_frees hr hn hx ho hword hv hl he
  case futput =>
    intro e hst hwait hcards
    exact futput_fulfils hr hn hx ho hword hv hl hst hwait hcards
  case devckpt =>
    intro ho h1 hbus _ hcontexts hsaves hlogs _
    obtain ⟨t, ht, hreply, hmem⟩ := devckpt_streams hr ho h1 hbus hcontexts hsaves hlogs
    refine ⟨t, ht, hreply, fun a ha => ?_⟩
    rw [hmem]
    exact ⟨memByte_streamed_copy ha, memByte_streamed_below (by omega)⟩
  case descriptor =>
    refine ⟨_, contextDescriptorChange_changes hx hbad hn hcluster, ?_, fun hpart => redescribed_mem hpart⟩
    rw [redescribed_contexts, tfind_mapCtx_same, hx]
    rfl

end Sys2Proof.Proofs
end
